-- ==== Sys2Proof/Word.lean ====
section
/-! DEFINITION. The words of the register window and the bytes of the records (R6, R7, R529). -/

namespace Sys2Proof

/-- A 32-bit register word (R529). -/
abbrev Word := BitVec 32

/-- One byte of a record, a store or a packet (R7). -/
abbrev Byte := BitVec 8

end Sys2Proof
end

