-- ==== Sys2Proof/Syntax.lean ====
section
/-! DEFINITION. The commands of the block, and the operands they carry: accesses, records, units and messages. -/

namespace Sys2Proof

/-- The three builds of Table 0-1. -/
inductive Build where
  | l | h | t
  deriving DecidableEq, Repr

/-- The paths that reach the register window (R516). -/
inductive Path where
  | regPort | pcie | smbus
  deriving DecidableEq, Repr

/-- The privilege classes of Table 3-2. -/
inductive Cls where
  | host | firmware | bmc | debug
  deriving DecidableEq, Repr

/-- Who makes a register access: the path it takes and the class it carries (R71, R516). -/
structure Acc where
  path : Path
  cls : Cls
  deriving DecidableEq, Repr

/-- A record: the fields of its manifest (Table 1-8) and its payload bytes. -/
structure Rec where
  length : Nat
  flags : Nat
  tc : Nat
  type : Nat
  hops : Nat
  source : Nat
  level : Nat
  /-- word 2 [31:20], reserved, carried as received (R35) -/
  rsv : Nat
  stream : Nat
  seq : Nat
  stamp : Nat
  payload : List Byte
  deriving DecidableEq, Repr

/-- A unit of a Selvo link: its 8-byte header (Table 7-1) as one little-endian number, and its data bytes. -/
structure UnitIn where
  hdr : Nat
  data : List Byte
  deriving DecidableEq, Repr

/-- One lane of a checksum beat with ck_valid = 1 (Table 3-3). -/
structure CkLane where
  prec : Nat
  engine : Nat
  epoch : Nat
  pred : Nat
  act : Nat
  mag : Nat
  deriving DecidableEq, Repr

/-- A change of the level of one numbered signal: which of its kind, and the level it takes (a reset is asserted, or pwr_ack is 1, when `on`). -/
structure Edge where
  num : Nat
  on : Bool
  deriving DecidableEq, Repr

/-- What a wait-state reading waits on, and how many readings were presented since the last that crossed (R86, R379). -/
structure WaitOn where
  target : Nat
  count : Nat
  deriving DecidableEq, Repr

/-- Where an uncorrectable word of a memory stands, as far as Table 11-5 gives it an effect: a queued record by its port, class and place in the
queue; a record of Selvo-T's caravanserai by its place; the oldest latch entry; a tensor port's staging; an optional counter; a sensor; an instruction's
feature history; a stream's result; the oldest word of the checksum FIFO; a place of pattern staging; the descriptors of a port. -/
inductive BadPlace where
  | record (port cls index : Nat)
  | stored (index : Nat)
  | latch
  | tensor (w : Nat)
  | counter (n : Nat)
  | sensor (n : Nat)
  | history (i : Nat)
  | result (stream : Nat)
  | checksum
  | pattern (q : Nat)
  | descriptor (port : Nat)
  | other
  deriving DecidableEq, Repr

/-- An uncorrectable word: memory kind, instance, bank and word address (event 0x504), and what it holds. -/
structure BadWord where
  kind : Nat
  inst : Nat
  bank : Nat
  addr : Nat
  at_ : BadPlace
  deriving DecidableEq, Repr

/-- The payload of a RESULT (Table 4-5). -/
structure TimeResult where
  num : Nat
  t1 : Nat
  t4 : Nat
  code : Nat
  refFault : Bool
  hops : Nat
  holdover : Nat
  deriving DecidableEq, Repr

/-- The messages of IEEE 1588 that carry a Sync (Table 4-7): a one-step Sync, a two-step Sync, and the Follow_Up that completes it. -/
inductive PtpKind where
  | oneStep | twoStep | followUp
  deriving DecidableEq, Repr

/-- What Selvo-T takes from the frame and the header of an IEEE 1588 message (Table 4-7): its transport (0 UDP over IPv6, 1 IEEE 802.3),
version, domain, sender (sourcePortIdentity), sequence, interval, the time stamp it carries (80-bit fleet-time layout) and its
correctionField in picoseconds. `kind` is read in a Sync or Follow_Up only. -/
structure PtpMsg where
  transport : Nat
  version : Nat
  minor : Nat
  domain : Nat
  supported : Bool
  kind : PtpKind
  source : Nat
  seq : Nat
  logInterval : Int
  stamp : Nat
  correction : Int
  deriving DecidableEq, Repr

/-- The data set an Announce carries (IEEE 1588-2019, R127). -/
structure Announce where
  priority1 : Nat
  clockClass : Nat
  accuracy : Nat
  variance : Nat
  priority2 : Nat
  gmId : Nat
  steps : Nat
  ptpTimescale : Bool
  utcOffset : Int
  utcValid : Bool
  leap61 : Bool
  leap59 : Bool
  deriving DecidableEq, Repr

/-- One entry of a CURSOR packet (R454). -/
structure CursorEntry where
  source : Nat
  stream : Nat
  first : Nat
  cursor : Nat
  deriving DecidableEq, Repr

/-- An IPv6 Neighbor Discovery message: solicitation or advertisement, its target address and link-layer address (R458). -/
structure NdMsg where
  solicitation : Bool
  target : Nat
  mac : Nat
  deriving DecidableEq, Repr

/-- One SMBus transaction: its command code, its data bytes, whether a PEC byte came and whether it was right (R533). -/
structure SmbMsg where
  code : Nat
  body : List Byte
  pec : Bool
  pecGood : Bool
  deriving DecidableEq, Repr


/-- The commands and events of the block: one constructor per row of spec/opcode_table.json. -/
inductive Instr where
  /-- REGISTER_WRITE (R14). A write to a register that has no row of its own takes effect in one cycle of the island that holds it. -/
  | registerWrite (a : Acc) (addr : Nat) (data : Word)
  /-- RC_FIELD_READ (R13). A read of an RC field returns its value and returns the field to its reset value, keeping any event that lands in the same cycle. -/
  | rcFieldRead (a : Acc) (addr : Nat)
  /-- LATCHING_READ (R530). A read of a low word latches the other words of the value, per page, path and privilege class. -/
  | latchingRead (a : Acc) (addr : Nat)
  /-- ACCESS_WAKE_COMPLETE (R75). An access that woke a Drowse or Retain domain completes once the domain reaches Run. -/
  | accessWakeComplete (d : Nat)
  /-- VIOL_CLEAR (R531). A write of CMN_CTRL.VIOL_CLEAR clears the FIRST set, the LAST set and the violation count of the page. -/
  | violClear (a : Acc) (page : Nat) (data : Word)
  /-- IRQ_CLEAR (R531). A write of CMN_CTRL.IRQ_CLEAR clears every bit of CMN_IRQ_STATUS, a coinciding hardware set staying set. -/
  | irqClear (a : Acc) (page : Nat) (data : Word)
  /-- CMN_LOCK_SET (R532). A write of 1 to CMN_LOCK locks the RWL fields, CMN_IRQ_ENABLE and CMN_SCRATCH until power-on. -/
  | cmnLockSet (a : Acc) (page : Nat) (data : Word)
  /-- HOST_VOTE_WRITE (R391). A host write of PWR_VOTE_HOST or CMN_VOTE[0] sets or drops the host keep-awake vote on a domain. -/
  | hostVoteWrite (a : Acc) (addr : Nat) (data : Word)
  /-- FIRMWARE_VOTE_WRITE (R391). A firmware write of PWR_VOTE_FW sets or drops the firmware vote on a domain. -/
  | firmwareVoteWrite (a : Acc) (data : Word)
  /-- PWR_IDLE_WRITE (R391). A write that changes PWR_IDLE of an idle domain returns it to Run to idle afresh into the new state. -/
  | pwrIdleWrite (a : Acc) (data : Word)
  /-- POWER_ON_RESET (R84). Assertion of aon_rst_n or PORST# is a power-on reset that loses everything but OTP. -/
  | powerOnReset
  /-- POWER_ON_RESET_RELEASE (R84). Release of power-on reset starts time at 0, samples straps, runs power-on self-test and writes event 0x001. -/
  | powerOnResetRelease (straps : Nat) (slow : List (Nat × Nat))
  /-- RAIL_OR_THERMAL_TRIP (R423). A rail below tolerance for 2 us or a die at 125 C holds Selvo-T in power-on reset. -/
  | railOrThermalTrip (kind : Nat)
  /-- WARM_RESET (R90). Assertion of core_rst_n or WRST# resets the core island, losing Volatile and Retained state and optional counts. -/
  | warmReset
  /-- WARM_RESET_RELEASE (R397). Release of warm reset returns every domain to Run, restarts the emergency state and writes event 0x002. -/
  | warmResetRelease (slow : List (Nat × Nat))
  /-- TAP_ISLAND_RESET (R90). A tap island reset alone loses unlaunched sums and FIFO events and closes its open commands with ISLAND_RESET. -/
  | tapIslandReset (n : Edge)
  /-- LINK_GROUP_RESET (R91). A link group reset loses its buffered packets, takes its links down and restores credits by re-initialisation. -/
  | linkGroupReset (g : Edge) (slow : List (Nat × Nat))
  /-- QUIESCE_REQUEST (R89). Raising qsc_req stops launches from the island and starts draining its crossings, closing open coalescing entries. -/
  | quiesceRequest (isl : Nat)
  /-- QUIESCE_DRAINED (R89). When the island's crossings are empty the core raises qsc_drained. -/
  | quiesceDrained (isl : Nat)
  /-- QUIESCE_RELEASE (R89). Lowering qsc_req lets the core lower qsc_drained and the island resume. -/
  | quiesceRelease (isl : Nat)
  /-- DISCOVERY (R20). At discovery a Selvo-H or Selvo-T compares each neighbour's source ID with the plan and attaches, quarantines or awaits it. -/
  | discovery (answers : List (Nat × Nat))
  /-- DISCOVERY_TIMEOUT (R211). A planned neighbour or leaf that does not answer within 1 ms of discovery is marked MISSING with a TC0 alarm. -/
  | discoveryTimeout (port : Nat)
  /-- QUARANTINE_RELEASE (R220). A write of 1 to FP_RELEASE, LP_RELEASE or PR_RELEASE releases a quarantined port to join at the next epoch boundary. -/
  | quarantineRelease (a : Acc) (port : Nat) (data : Word)
  /-- IDENTITY_TAKES_EFFECT (R24). A newly written fleet identity becomes the source ID in effect at the next epoch boundary. -/
  | identityTakesEffect
  /-- RECORD_RECEIVED (R35). A received record is checked, judged against the duplicate table, tallied and forwarded, opened or consumed. -/
  | recordReceived (port : Nat) (tc : Nat) (len : Nat) (rec : Rec)
  /-- UNIT_RECEIVED (R224). A unit arrives at an ingress port, is checked for segment order, metered by the toll and leaves its credits on release. -/
  | unitReceived (port : Nat) (u : UnitIn)
  /-- EGRESS_UNIT_BOUNDARY (R233). At each unit boundary an egress port sends the highest-priority eligible unit, compressing a record as it starts to leave. -/
  | egressUnitBoundary (port : Nat) (bad : List Nat)
  /-- LINK_CTL_SEND (R226). Within 400 ns of a credit release or acknowledgement not yet reported the receiver sends LINK_CTL. -/
  | linkCtlSend (port : Nat)
  /-- LINK_CTL_KEEPALIVE (R226). Every 10 us without change the receiver sends LINK_CTL with KEEPALIVE and every class. -/
  | linkCtlKeepalive (port : Nat)
  /-- LINK_CTL_RECEIVED (R226). A received LINK_CTL returns credits and acknowledgements by difference of its cumulative counts. -/
  | linkCtlReceived (port : Nat) (entries : List (Nat × Nat × Nat))
  /-- CREDIT_INIT_RECEIVED (R229). A received CREDIT_INIT sets class credits and port rate and is answered with CREDIT_INIT_ACK. -/
  | creditInitReceived (port : Nat) (bitmap : Nat) (rateMax : Nat) (totals : List Nat)
  /-- CREDIT_INIT_ACK_RECEIVED (R229). A received CREDIT_INIT_ACK lets the classes it names be sent on, bringing the link UP at training. -/
  | creditInitAckReceived (port : Nat) (bitmap : Nat)
  /-- FLOW_APPLY (R229). A write of FLOW_APPLY checks new class totals and starts re-initialisation of each changed class or sets REFUSED. -/
  | flowApply (a : Acc) (data : Word)
  /-- CLASS_QUIESCE_DONE (R54). When a quiescing class has all credits back or two round trips pass, both ends set it to its total by CREDIT_INIT. -/
  | classQuiesceDone (port : Nat) (cls : Nat)
  /-- CENSUS_MARK_SEND (R231). Each census interval a sender marks its classes in order, one mark outstanding at a time. -/
  | censusMarkSend (port : Nat)
  /-- CENSUS_MARK_RECEIVED (R231). The receiver answers a mark in class order with an echo carrying its free credits and released count. -/
  | censusMarkReceived (port : Nat) (num : Nat) (cls : Nat)
  /-- CENSUS_ECHO_RECEIVED (R53). The sender checks the credit identity on an echo and raises a mismatch when it fails. -/
  | censusEchoReceived (port : Nat) (num : Nat) (cls : Nat) (f : Nat) (released : Nat)
  /-- CENSUS_TIMEOUT (R232). A census with no echo within four round trips is abandoned and counted as skipped. -/
  | censusTimeout (port : Nat)
  /-- LINK_TRAINING_START (R539). A leaf link or fabric lane starts Selvo training when its link island leaves reset and strm_ready first rises. -/
  | linkTrainingStart (port : Nat)
  /-- LINK_DOWN (R201). A link going down makes senders resend held packets to the alternate or drop them link-down and raises a TC0 alarm. -/
  | linkDown (port : Nat) (cause : Nat)
  /-- COUNTING_TAP_INCREMENT (R137). A counting tap increment lands in its counters, wrapping them modulo 2^64 and setting CTR_WRAPPED. -/
  | countingTapIncrement (tap : Nat) (sum : Nat)
  /-- SENSOR_READING (R144). A sensor reading lands, updating last good value, minimum, maximum and counts, or marking FAULT and STALE. -/
  | sensorReading (sns : Nat) (value : Nat) (faulty : Bool) (count : Nat)
  /-- SENSOR_STALE_TIMEOUT (R144). A sensor with no good reading for STALE_TIME x 10 us becomes STALE. -/
  | sensorStaleTimeout (sns : Nat)
  /-- TRIGGER_NOTIFICATION (R146). A trigger notification lands, setting TRIG_SEEN, counting in selecting counters and possibly raising a trace trigger. -/
  | triggerNotification (t : Nat)
  /-- TAP_CLOCK_CHANGE (R85). A tap-island clock stops or restarts, holding unlaunched sums until it runs again. -/
  | tapClockChange (n : Nat) (running : Bool) (mhz : Nat)
  /-- COMMAND_BOUNDARY (R148). A command start or end lands, opening a command or latching its counter differences into a latch entry. -/
  | commandBoundary (c : Nat) (start : Bool) (stop : Bool) (tag : Nat) (lost : Nat)
  /-- LATCH_ENTRY_EMIT (R151). With EMIT = 1 the oldest latch entry is sent as a type 0x38 record and removed. -/
  | latchEntryEmit
  /-- CL_POP (R176). A write of 1 to CL_POP removes the oldest latch entry when EMIT = 0. -/
  | clPop (a : Acc) (data : Word)
  /-- CTR_CFG_APPLY (R142). Pending CTR_CFG writes take effect at the next cut or within 1 us, advancing CTR_GEN once. -/
  | ctrCfgApply
  /-- TENSOR_WATCH_BEAT (R153). A tensor-watch beat lands, opening, extending or closing a matched tensor's summary. -/
  | tensorWatchBeat (w : Nat) (first : Bool) (last : Bool) (tensor : Nat) (lanes : Nat) (slots : List Word) (lost : Nat)
  /-- CHECKSUM_BEAT (R320). A checksum beat lands and each lane is compared, binned and classified, or taken as an epoch mark. -/
  | checksumBeat (lanes : List CkLane) (lost : Nat)
  /-- TRACE_ITEM (R347). A trace-source item lands and is encoded, excluded or counted under the mode and authorisation in force. -/
  | traceItem (cls : Nat) (priv : Nat) (ctx : Nat) (data : Nat) (lost : List Nat)
  /-- WAIT_STATE_BEAT (R379). A wait-state beat lands and becomes the latest state of its engine with its landing stamp. -/
  | waitStateBeat (engine : Nat) (kind : Nat) (target : WaitOn)
  /-- REF_CLOCK_FAULT (R105). ref_clk stopping or leaving range sets REF_FAULT, moves to the internal oscillator and takes code 3. -/
  | refClockFault (kind : Nat)
  /-- REF_CLOCK_RECOVERED (R105). After 10 ms of good reference the unit returns to ref_clk and restarts acquisition on every candidate. -/
  | refClockRecovered
  /-- TIME_EXCHANGE_START (R111). At each exchange interval a time parent sends PROBE on each of its child ports. -/
  | timeExchangeStart
  /-- PROBE_RECEIVED (R538). A PROBE on a port of the unit's time path is answered with REPLY; on any other port it is discarded. -/
  | probeReceived (port : Nat) (num : Nat)
  /-- REPLY_RECEIVED (R111). A REPLY lets the parent stamp t4 and send RESULT. -/
  | replyReceived (port : Nat) (num : Nat)
  /-- RESULT_RECEIVED (R113). A RESULT lets the child compute offset and delay and steer, step or lock its time. -/
  | resultReceived (port : Nat) (res : TimeResult)
  /-- RESULT_TIMEOUT (R115). A RESULT not arriving 100 us after REPLY counts a miss, three misses losing the parent. -/
  | resultTimeout (port : Nat)
  /-- PROBE_TIMEOUT (R115). No PROBE within twice the child's exchange interval counts a miss. -/
  | probeTimeout (port : Nat)
  /-- HOLDOVER_EXPIRY (R121). Holdover ends after 10 s or the parent's holdover remaining and the code becomes 3. -/
  | holdoverExpiry
  /-- TIME_MODE_REQ (R123). A write of TIME_CTRL.MODE_REQ selects automatic, pod-only or free-running time service. -/
  | timeModeReq (a : Acc) (data : Word)
  /-- TIME_SET (R124). A write of TIME_SET_GO loads TIME_SET into fleet time when the code allows, otherwise sets set-refused. -/
  | timeSet (a : Acc) (data : Word)
  /-- TIME_ANCHOR_DUE (R102). An originating unit writes a time anchor into a stream no more than 2^16 s after the previous one. -/
  | timeAnchorDue (stream : Nat) (tc : Nat)
  /-- PTP_SYNC_RECEIVED (R127). A Sync or Follow_Up updates Selvo-T's offset from master and its lock towards code 0. -/
  | ptpSyncReceived (p : Nat) (m : PtpMsg)
  /-- PTP_DELAY_RESP_RECEIVED (R126). A Delay_Resp completes the end-to-end delay measurement of the selected port. -/
  | ptpDelayRespReceived (p : Nat) (m : PtpMsg) (mine : Bool)
  /-- PTP_ANNOUNCE_RECEIVED (R127). An Announce updates grandmaster class, timescale and UTC data and runs port selection. -/
  | ptpAnnounceReceived (p : Nat) (m : PtpMsg) (ann : Announce)
  /-- PTP_ANNOUNCE_TIMEOUT (R127). Three announce intervals without an Announce make Selvo-T lose code 0. -/
  | ptpAnnounceTimeout (p : Nat)
  /-- PULSE_ARM (R130). A write of 1 to a PULSE_ARM bit applies the generator's registers and schedules its edges. -/
  | pulseArm (a : Acc) (data : Word)
  /-- PULSE_DISARM (R130). A write of 1 to a PULSE_DISARM bit stops the generator after its current active phase. -/
  | pulseDisarm (a : Acc) (data : Word)
  /-- PULSE_EDGE (R129). Fleet time reaching a scheduled edge emits it, or counts it MISSED when gated or stepped over. -/
  | pulseEdge (n : Nat)
  /-- CAPTURE_EDGE (R133). A selected edge on a capture input is stamped into its FIFO or counted in CAP_OVERFLOW. -/
  | captureEdge (c : Nat) (rising : Bool)
  /-- CAP_POP (R136). A write of 1 to CAP_POP removes the oldest capture entry. -/
  | capPop (a : Acc) (c : Nat) (data : Word)
  /-- MST_ARM (R159). A write of the arm bit at the muster root raises the generation and broadcasts a new schedule, or sets ARM_REFUSED. -/
  | mstArm (a : Acc) (data : Word)
  /-- MST_STOP (R159). A write of the stop bit at the root broadcasts a STOP record acting 1 ms later. -/
  | mstStop (a : Acc) (data : Word)
  /-- MST_RELEASE (R159). A write of the release bit at the root broadcasts a RELEASE record acting 1 ms later. -/
  | mstRelease (a : Acc) (data : Word)
  /-- SCHEDULE_RECORD_RECEIVED (R158). A schedule record of a later generation is applied and passed on; other copies are acknowledged and dropped. -/
  | scheduleRecordReceived (port : Nat) (rec : Rec)
  /-- SCHEDULE_ACTION_TIME (R159). At the action time a STOP ends the schedule in force or a RELEASE ends a hold. -/
  | scheduleActionTime
  /-- MUSTER_LEAD (R161). LEAD us before a cut the time island raises its keep-awake vote on CORE. -/
  | musterLead
  /-- MUSTER_CUT (R161). At the first time-island cycle at or after T_k the unit launches its cut notification into every island. -/
  | musterCut
  /-- MUSTER_IMAGE_COMPLETE (R161). The core holds the cut's image and starts emission and the feature pass on it. -/
  | musterImageComplete (cb : Nat) (tr : Nat) (tw : Nat) (ck : Nat)
  /-- MUSTER_LATE_ISLAND_TIMEOUT (R163). An island that has not delivered its pre-cut sums 200 ns after T_k is left out and marked late. -/
  | musterLateIslandTimeout (n : Nat)
  /-- MUSTER_LATE_LATCH (R167). When CORE reaches Run after T_k the rest of the image is latched and the head carries LATE_LATCH. -/
  | musterLateLatch
  /-- MUSTER_RECORD_EMIT (R170). The next record of an image enters the TC5 egress queue as soon as it has room. -/
  | musterRecordEmit
  /-- HOLD_MAX_EXPIRY (R172). HOLD_MAX after the held cut the hold ends and sampling resumes from the frozen values. -/
  | holdMaxExpiry
  /-- CONVOY_CONTRIBUTION (R179). A unit forms its contribution to an epoch from the cut image or feature pass and sends or merges it. -/
  | convoyContribution (slot : Nat)
  /-- CONVOY_PACKET_RECEIVED (R198). A type 0x40 packet is merged into its open epoch, removed as duplicate, dropped late or held for adoption. -/
  | convoyPacketReceived (port : Nat) (rec : Rec)
  /-- CONVOY_DEADLINE (R197). Fleet time reaching T_e + DL_FIRST + h x DL_STEP publishes the epoch with what has arrived. -/
  | convoyDeadline (slot : Nat)
  /-- BROADCAST_RESULT_RECEIVED (R208). A type 0x41 result of a later epoch is applied, stored and forwarded; duplicates and stale results are counted. -/
  | broadcastResultReceived (port : Nat) (rec : Rec)
  /-- BROADCAST_RETRY_TIMEOUT (R209). A child unacknowledged after CVY_BC_RETRY is resent the result, becoming an orphan when retries are spent. -/
  | broadcastRetryTimeout (slot : Nat) (child : Nat)
  /-- REACH_REPORT_RECEIVED (R210). A reach report from a child is added, and the unit reports upward once all children are in. -/
  | reachReportReceived (port : Nat) (rec : Rec)
  /-- REACH_REPORT_TIMEOUT (R210). CVY_BC_REPORT_WAIT after forwarding a unit sends its reach report with what it has. -/
  | reachReportTimeout (slot : Nat)
  /-- REATTACH_HOLD_EXPIRY (R205). An adopted or relayed child returns to its parent after its link has stayed up for CVY_REATTACH_HOLD. -/
  | reattachHoldExpiry (slot : Nat) (child : Nat)
  /-- SLOT_POST (R218). A write of SLOT_POST_HI posts the value as the unit's contribution for the open epoch. -/
  | slotPost (a : Acc) (slot : Nat) (data : Word)
  /-- PLAN_RECORD_RECEIVED (R181). A leaf takes its plan part from type 0x80 records of its Selvo-H. -/
  | planRecordReceived (rec : Rec)
  /-- SUMMARISE_DOWN_WINDOW (R212). At the end of each SD_WINDOW a unit enters or leaves summarise-down by its share without TC5 credit. -/
  | summariseDownWindow (ethShare : Nat)
  /-- COALESCE_WINDOW_CLOSE (R241). When an entry's window closes with count above 0 the unit originates a coalesced record and frees it. -/
  | coalesceWindowClose (entry : Nat)
  /-- FEATURE_PASS_GRANT (R251). The drover grants the pass of a cut under W3, the statistic table is snapshot and any swap applies. -/
  | featurePassGrant
  /-- FEATURE_PASS_COMMIT (R252). A pass commits all features and history in one cycle and starts emission of the feature record. -/
  | featurePassCommit (lost : List Nat)
  /-- FEAT_LOAD_HI (R263). A write of FEAT_LOAD_HI stores the instruction word in the shadow bank and advances FEAT_LOAD_IDX. -/
  | featLoadHi (a : Acc) (data : Word)
  /-- FEAT_SWAP_REQUEST (R263). A write of FEAT_SWAP[0] starts validation of the shadow bank. -/
  | featSwapRequest (a : Acc) (data : Word)
  /-- FEAT_SWAP_VALIDATED (R264). Within 2 us the shadow bank is accepted as a pending swap or refused with a reason. -/
  | featSwapValidated
  /-- FEAT_SWAP_CANCEL (R265). A write of FEAT_SWAP[1] cancels a pending swap. -/
  | featSwapCancel (a : Acc) (data : Word)
  /-- FEAT_SWAP_APPLY_IDLE (R265). With no schedule held or EN = 0 an accepted swap applies within 10 us. -/
  | featSwapApplyIdle
  /-- FEAT_BANK_COPY_DONE (R263). The copy of the new active bank into the shadow bank completes and shadow writes are taken again. -/
  | featBankCopyDone
  /-- TREE_SAMPLE_GRANT (R281). The drover grants a self sample under W2 and it is admitted into a sample buffer when limits allow. -/
  | treeSampleGrant (slot : Nat)
  /-- TREE_RESULT_COMMIT (R282). When a sample's last pair has chosen its leaf the margins and outputs are committed and the result record emitted. -/
  | treeResultCommit (poison : List Nat)
  /-- TREE_LOAD_BEGIN (R286). A write of TREE_LOAD_CTRL.BEGIN starts a register-path package load to a slot. -/
  | treeLoadBegin (a : Acc) (data : Word)
  /-- TREE_LOAD_DATA (R286). A write of TREE_LOAD_DATA delivers the next four package bytes to the loader. -/
  | treeLoadData (a : Acc) (data : Word)
  /-- TREE_LOAD_END (R286). A write of TREE_LOAD_CTRL.END ends the package and starts verification. -/
  | treeLoadEnd (a : Acc) (data : Word)
  /-- TREE_LOAD_ABORT (R286). A write of TREE_LOAD_CTRL.ABORT discards the package in progress on either path. -/
  | treeLoadAbort (a : Acc) (data : Word)
  /-- MODEL_CHUNK_RECEIVED (R286). A type 0x50 chunk on TREE_LOAD_STREAM delivers package bytes to the loader in offset order. -/
  | modelChunkReceived (port : Nat) (rec : Rec)
  /-- MODEL_VERIFY_DONE (R287). Verification of a package ends by staging the model or refusing it with a reason. -/
  | modelVerifyDone
  /-- TSL_CANCEL (R290). A write of 1 to TSL_CANCEL drops the slot's staged model. -/
  | tslCancel (a : Acc) (slot : Nat) (data : Word)
  /-- VERDICT_SCORING (R298). A die's rule scores for a muster form its health score and move its verdict class under persistence and hysteresis. -/
  | verdictScoring
  /-- ESCALATION_RESTATE (R309). Every OUT_REQ_REPEAT musters a unit restates the escalation request of a die still in its class. -/
  | escalationRestate
  /-- ESCALATION_REQUEST_RECEIVED (R310). The keeper creates or updates one entry per die, or removes a deferred entry on WITHDRAW. -/
  | escalationRequestReceived (port : Nat) (rec : Rec)
  /-- DEFER_ENTRY_EXPIRY (R310). A deferred entry not restated for 4 x OUT_REQ_REPEAT musters is dropped and counted. -/
  | deferEntryExpiry (entry : Nat)
  /-- STEP_BOUNDARY (R312). A write of OUT_STEP_MARK or a command end on the step stream makes the keeper refill and decide its deferred list. -/
  | stepBoundary (a : Acc) (data : Word)
  /-- OUT_CLEAR (R302). A write of OUT_CLEAR clears the Suspect-SDC and Conditional latches of a source ID. -/
  | outClear (a : Acc) (data : Word)
  /-- OUT_ADV_ACK (R313). A write of OUT_ADV_ACK removes a die's entry from the advised list. -/
  | outAdvAck (a : Acc) (data : Word)
  /-- DIE_ENTRY_FREE (R296). A die-table entry with no present score for 1,024 musters and verdict none or Watch is freed. -/
  | dieEntryFree (entry : Nat)
  /-- OUT_ADMIT_GO (R315). A write of OUT_ADMIT with GO starts admission tests for a leaf slot. -/
  | outAdmitGo (a : Acc) (data : Word)
  /-- ADMISSION_TEST_COMPLETE (R315). An admission test ends, starting the next or making the slot READY or FAILED. -/
  | admissionTestComplete (pass : Bool)
  /-- ADMISSION_TIMEOUT (R316). An admission not READY within OUT_ADMIT_TIMEOUT ends FAILED. -/
  | admissionTimeout
  /-- TAINT_NOTICE_RECEIVED (R330). A received taint notice is logged, forwarded once along the tree and published by Selvo-T. -/
  | taintNoticeReceived (port : Nat) (rec : Rec)
  /-- TAINT_NOTICE_RESEND (R328). A notice not acknowledged within 1.5 us is resent, or sent to the alternate when the port is down. -/
  | taintNoticeResend (port : Nat)
  /-- ABFT_TAINT_CLEAR (R327). A write of ABFT_TAINT_CLEAR ends the taint episode. -/
  | abftTaintClear (a : Acc) (data : Word)
  /-- PATTERN_CHUNK_RECEIVED (R333). A type 0x51 chunk delivers test-pattern bytes to a Selvo-T staging place. -/
  | patternChunkReceived (port : Nat) (rec : Rec)
  /-- PATTERN_VERIFY_DONE (R333). Verification of a staged pattern ends verified or refused with a reason. -/
  | patternVerifyDone
  /-- PAT_PLACE_DROP (R336). A write of PAT_PLACE_DROP empties a staging place. -/
  | patPlaceDrop (a : Acc) (place : Nat) (data : Word)
  /-- IDLE_WINDOW_OFFER (R334). When selected command streams have been idle for ABFT_IDLE_MIN the unit sends an idle-window offer. -/
  | idleWindowOffer
  /-- PATTERN_RUN_START (R335). A write of ABFT_PAT_GO[0] opens a pattern run on the selected engines. -/
  | patternRunStart (a : Acc) (data : Word)
  /-- PATTERN_RUN_END (R335). A write of ABFT_PAT_GO[1] ends the run PASS, FAIL or INCOMPLETE and sends a result record. -/
  | patternRunEnd (a : Acc) (data : Word)
  /-- PATTERN_RUN_TIMEOUT (R335). A run open past ABFT_PAT_TIMEOUT ends INCOMPLETE. -/
  | patternRunTimeout
  /-- TRACE_ENABLE (R339). A write of TRC_CTRL.EN starts a new block with a SYNC or closes the current block. -/
  | traceEnable (a : Acc) (data : Word)
  /-- TRC_ARM (R355). A write of TRC_ARM discards the buffer and windows, clears STOPPED and starts the buffer. -/
  | trcArm (a : Acc) (data : Word)
  /-- TRC_TRIG_SW (R356). A write of TRC_TRIG_SW raises a software trace trigger. -/
  | trcTrigSw (a : Acc) (data : Word)
  /-- TRC_TOK_BEGIN (R342). A write of TRC_TOK_CTRL.BEGIN starts loading a trace token. -/
  | trcTokBegin (a : Acc) (data : Word)
  /-- TRC_TOK_DATA (R342). A write of TRC_TOK_DATA delivers the next four token bytes. -/
  | trcTokData (a : Acc) (data : Word)
  /-- TRC_TOK_END (R342). A write of TRC_TOK_CTRL.END starts verification of the token. -/
  | trcTokEnd (a : Acc) (data : Word)
  /-- TRC_TOK_ABORT (R342). A write of TRC_TOK_CTRL.ABORT discards the token in progress. -/
  | trcTokAbort (a : Acc) (data : Word)
  /-- TOKEN_VERIFY_DONE (R342). Verification of a token ends by holding it or refusing it with a reason. -/
  | tokenVerifyDone
  /-- TRC_TOK_REVOKE (R343). A write of TRC_TOK_REVOKE removes the held token with that ID. -/
  | trcTokRevoke (a : Acc) (data : Word)
  /-- TOKEN_WINDOW_OPEN (R343). Fleet time reaching a held token's not-before makes it active. -/
  | tokenWindowOpen (entry : Nat)
  /-- TOKEN_WINDOW_EXPIRY (R343). Fleet time passing a token's not-after removes it. -/
  | tokenWindowExpiry (entry : Nat)
  /-- TRACE_BLOCK_AGE_EXPIRY (R354). BLOCK_AGE x 10 us after its first packet the current trace block closes. -/
  | traceBlockAgeExpiry
  /-- PLARAM_PSYNC_TIMEOUT (R352). After 128 s without a PSYNC the unit writes a periodic PSYNC. -/
  | plaramPsyncTimeout
  /-- TRACE_DRAIN_BLOCK (R359). Under W5 the oldest closed block is sent as a type 0x60 record, with a gap when blocks were lost. -/
  | traceDrainBlock (bad : List Nat)
  /-- TB_WIN_RELEASE (R357). A write of TB_WIN_RELEASE releases a trace window's blocks. -/
  | tbWinRelease (a : Acc) (data : Word)
  /-- AGGREGATION_STORE_ADMIT (R361). A trace record waiting for room enters Selvo-H's aggregation store once room frees. -/
  | aggregationStoreAdmit
  /-- HANG_WATCH_CHECK (R380). Every 10 us a unit checks whether its progress counters have been silent for HANG_TIMEOUT with engines waiting. -/
  | hangWatchCheck
  /-- SNAPSHOT_REQUEST_RECEIVED (R381). A type 0x74 request schedules a wait-state snapshot at T_s. -/
  | snapshotRequestReceived (port : Nat) (rec : Rec)
  /-- SNAPSHOT_LATCH (R381). At T_s a unit latches all 32 wait states and sends a type 0x70 record. -/
  | snapshotLatch
  /-- PACKAGE_ASSEMBLY_START (R382). Selvo-H firmware seeing a suspect requests two snapshots of its package. -/
  | packageAssemblyStart
  /-- PACKAGE_GRAPH_SEND (R383). When the confirming snapshots are in or the deadline passes Selvo-H sends the package graph. -/
  | packageGraphSend
  /-- TRAY_MERGE_CLOSE (R385). When every package answers or 5 ms pass the merge closes, reporting cycles and exported edges. -/
  | trayMergeClose
  /-- VOTE_CHANGE (R391). A hardware, debug, tap-island or link vote on a domain rises or falls. -/
  | voteChange (d : Nat) (client : Nat) (held : Bool)
  /-- DOMAIN_IDLE_TIMEOUT (R391). PWR_IDLE_DELAY us without a vote moves the domain towards its idle state. -/
  | domainIdleTimeout (d : Nat)
  /-- POWER_ACK (R96). pwr_ack completes a domain transition and starts any exit self-test. -/
  | powerAck (d : Edge)
  /-- POWER_HANDSHAKE_TIMEOUT (R96). pwr_ack not rising within ten times its bound raises a TC0 hand-shake alarm. -/
  | powerHandshakeTimeout (d : Nat)
  /-- PAD_RELEASE (R400). A write of PAD_RELEASE frees held outputs of a domain in Run. -/
  | padRelease (a : Acc) (data : Word)
  /-- DROVER_TICK (R402). Every 1 us the drover refills its work-class buckets from grant, reserve, derate and state. -/
  | droverTick (grant : Nat)
  /-- EMERGENCY_CAUSE_CHANGE (R408). A pwr_emerg, PWR_EMERG#, THERM# or headroom change raises the emergency state. -/
  | emergencyCauseChange (cause : Nat) (present : Bool)
  /-- EMERGENCY_EXIT_HOLD_EXPIRY (R408). DRV_EXIT_HOLD without the current state's causes steps the state down one level. -/
  | emergencyExitHoldExpiry
  /-- THERMAL_ID_TICK (R411). Each DRV_ID_TICK the models sample T and P, fit in windows and forecast headroom. -/
  | thermalIdTick
  /-- EXCITATION_WINDOW_END (R413). After DRV_ID_WIN ticks a window's candidate model is accepted or rejected. -/
  | excitationWindowEnd (m : Nat)
  /-- COOLING_DEMAND_TICK (R436). Every 1 ms Selvo-T computes the duty of each cooling output. -/
  | coolingDemandTick
  /-- TACH_FAULT_TIMEOUT (R438). A tach below its minimum for 1 s raises a cooling fault and forces full cooling. -/
  | tachFaultTimeout (k : Nat) (rpm : Nat)
  /-- TACH_FAULT_CLEAR (R438). After 1 s of tach readings at the minimum the fault clears. -/
  | tachFaultClear (k : Nat) (rpm : Nat)
  /-- PEER_PRESENCE_CHANGE (R440). A change of PEER_PRESENT# updates the pair state and may raise a strap alarm. -/
  | peerPresenceChange (low : Bool)
  /-- PCIE_RESET (R425). PERST# or Function Level Reset resets the PCIe function alone. -/
  | pcieReset (kind : Nat)
  /-- PCIE_BAR2_READ (R465). A BAR2 read returns a verified pattern place or completes with Completer Abort. -/
  | pcieBar2Read (off : Nat)
  /-- TEST_ACCESS_INSTRUCTION (R441). An IEEE 1149.1 instruction runs on the test access port, raising dbg_vote in EXTEST, HIGHZ or CLAMP. -/
  | testAccessInstruction (code : Nat)
  /-- LANE_TRAINING_START (R448). A Ralud or pair lane leaving electrical idle or retraining starts adaptation and TRAIN blocks. -/
  | laneTrainingStart (port : Nat)
  /-- CODEWORD_LOCK (R448). Four good MARKERs lock the codewords and start discovery on the lane. -/
  | codewordLock (port : Nat) (src : Nat)
  /-- MARKER_LOSS (R448). Four lost or wrong MARKERs take the lane down to retrain. -/
  | markerLoss (port : Nat)
  /-- FEC_UNCORRECTABLE (R447). An uncorrectable codeword discards the units it touches and sends REPLAY, or retrains past UNC_LIMIT. -/
  | fecUncorrectable (port : Nat)
  /-- REPLAY_RECEIVED (R447). A REPLAY quiesces every class and resends unacknowledged packets with their original PKT. -/
  | replayReceived (port : Nat) (entries : List (Nat × Nat))
  /-- LANE_DEGRADE_CHECK (R450). Each second a lane's corrected codewords set or clear DEGRADED. -/
  | laneDegradeCheck (port : Nat) (codewords : Nat) (corrected : Nat) (symbols : Nat)
  /-- HELD_DOWN_RELEASE (R466). A write of RL_LANE_CTRL[0] releases a held-down lane. -/
  | heldDownRelease (a : Acc) (port : Nat) (data : Word)
  /-- FORCE_RETRAIN (R466). A write of RL_LANE_CTRL[1] forces a lane to retrain. -/
  | forceRetrain (a : Acc) (port : Nat) (data : Word)
  /-- DOZE_RECEIVED (R451). A DOZE block marks the far end dozing, stopping KEEPALIVE towards it. -/
  | dozeReceived (port : Nat)
  /-- WAKE_RECEIVED (R451). A WAKE block raises the link vote of a dozing group. -/
  | wakeReceived (port : Nat)
  /-- WAKE_SEQUENCE_DONE (R451). After 2 us of WAKE and an awake block from the far end the held unit is sent. -/
  | wakeSequenceDone (port : Nat)
  /-- CURSOR_SEND (R454). A pair member sends changed cursor entries every 10 us and all entries every 10 ms. -/
  | cursorSend (all : Bool)
  /-- CURSOR_RECEIVED (R454). A CURSOR frees mirror copies at or below c and advances handback. -/
  | cursorReceived (entries : List CursorEntry)
  /-- PAIR_LANE_SILENCE_TIMEOUT (R455). 30 us without block lock or LINK_CTL declares both pair lanes down. -/
  | pairLaneSilenceTimeout
  /-- PARTNER_LOST_TIMEOUT (R455). PAIR_LOST_WAIT after the pair lanes fail the partner is lost and the survivor takes over. -/
  | partnerLostTimeout
  /-- PUBLICATION_STORE_ADMIT (R453). A record waiting for room enters the publication store once room frees and credit is released. -/
  | publicationStoreAdmit
  /-- ETH_LINK_CHANGE (R461). An Ethernet port going up or down moves its sessions to the other port. -/
  | ethLinkChange (p : Nat) (up : Bool)
  /-- COLLECTOR_ENABLE (R461). Enabling a collector entry sends OPEN with a new session ID. -/
  | collectorEnable (a : Acc) (data : Word)
  /-- PUB_OPEN_RETRY (R461). Every 10 ms without OPEN_OK the session repeats its OPEN. -/
  | pubOpenRetry (e : Nat)
  /-- OPEN_OK (R461). OPEN_OK opens the session and resends its unacknowledged records. -/
  | openOk (e : Nat) (session : Nat)
  /-- ACK (R462). An ACK advances the session's cumulative point and marks fully acknowledged records delivered. -/
  | ack (e : Nat) (session : Nat) (ack : Nat)
  /-- DATA (R464). A DATA datagram on a peer entry delivers convoy packets as from a Selvo link port. -/
  | dataDgram (e : Nat) (session : Nat) (dseq : Nat) (flags : Nat) (recs : List Rec)
  /-- CLOSE (R463). A CLOSE ends a session and the entry reopens as if re-enabled. -/
  | close (e : Nat) (session : Nat)
  /-- PUB_RTO_EXPIRY (R462). An ACK not advancing for RTO resends from ACK + 1 and doubles RTO. -/
  | pubRtoExpiry (e : Nat)
  /-- PUB_SESSION_DEAD (R462). PUB_DEAD ms without an advance makes the session dead, alarms and reopens it. -/
  | pubSessionDead (e : Nat)
  /-- PFC_PAUSE_RECEIVED (R459). A received PFC pause stops its priority at the next frame boundary. -/
  | pfcPauseReceived (p : Nat) (prio : Nat) (on : Bool)
  /-- NEIGHBOR_DISCOVERY_MESSAGE (R458). An IPv6 Neighbor Discovery message is used for address resolution or duplicate detection. -/
  | neighborDiscoveryMessage (p : Nat) (msg : NdMsg)
  /-- ICMPV6_ECHO (R458). An ICMPv6 echo request is answered. -/
  | icmpv6Echo (p : Nat) (request : Bool) (body : List Byte)
  /-- COMMAND_SLOT_SUBMIT (R476). A host write of CMD_CTRL with OWNER = 1 hands the slot to firmware and sets its dirty bit. -/
  | commandSlotSubmit (a : Acc) (slot : Nat) (data : Word)
  /-- FIRMWARE_TICK (R477). At each tick firmware takes dirty slots in order and starts their commands. -/
  | firmwareTick
  /-- PLAN_LOAD (R480). Opcode 0x01 checks a plan part and distributes it to the unit and its leaves. -/
  | planLoad (slot : Nat)
  /-- IMG_STAGE (R482). Opcode 0x02 writes image bytes into the inactive region. -/
  | imgStage (slot : Nat)
  /-- IMG_COMMIT (R482). Opcode 0x03 verifies the staged region and marks it STAGED. -/
  | imgCommit (slot : Nat)
  /-- IMG_ACTIVATE (R483). Opcode 0x04 starts a hitless activation of the staged image, or defers it in Emergency. -/
  | imgActivate (slot : Nat)
  /-- BULK_SEND (R481). Opcode 0x05 sends data-store bytes as model or pattern chunks to the scope named. -/
  | bulkSend (slot : Nat)
  /-- SIGNED_REQ (R508). Opcode 0x06 passes a signed OTP request to the unit or the leaf it names. -/
  | signedReq (slot : Nat)
  /-- ABORT (R477). Opcode 0x07 withdraws a deferred IMG_ACTIVATE or a BULK_SEND. -/
  | abortCmd (slot : Nat)
  /-- FW_DATA_ACCESS (R478). A read or write of FW_DATA moves a data-store word and advances FW_DATA_ADDR by 4. -/
  | fwDataAccess (a : Acc) (write : Bool) (data : Word)
  /-- ACTIVATION_RESUME (R484). A deferred activation proceeds at the first tick after 1 s unbroken in Normal. -/
  | activationResume
  /-- ACTIVATION_ABANDON_TIMEOUT (R484). A deferral lasting 60 s completes ABANDONED with event 0x712. -/
  | activationAbandonTimeout
  /-- ACTIVATION_BLACKOUT_END (R483). The new image's first tick ends the blackout and completes IMG_ACTIVATE. -/
  | activationBlackoutEnd
  /-- TRIAL_CONFIRM (R485). A TRIAL image running 60 s without watchdog expiry becomes ACTIVE and advances the rollback counter. -/
  | trialConfirm
  /-- MANAGEMENT_WATCHDOG_EXPIRY (R485). 100 ms without a firmware tick resets the management cores alone. -/
  | managementWatchdogExpiry
  /-- ROM_BOOT (R473). At release of the management cores the ROM selects, verifies and starts an image or enters recovery. -/
  | romBoot
  /-- FW_HEARTBEAT (R486). A write of FW_HEARTBEAT restarts the watch and ends unattended mode. -/
  | fwHeartbeat (a : Acc) (data : Word)
  /-- HEARTBEAT_LATE (R486). 100 ms without a heartbeat sets the heartbeat-late interrupt. -/
  | heartbeatLate
  /-- UNATTENDED_ENTRY (R486). 1 s without a heartbeat enters unattended mode and notifies the leaves. -/
  | unattendedEntry
  /-- MODE_NOTICE_RECEIVED (R486). A leaf takes its unattended mode from a type 0x81 notice. -/
  | modeNoticeReceived (rec : Rec)
  /-- FW_UA_ACK (R488). A write of FW_UA_ACK clears the unattended summary registers. -/
  | fwUaAck (a : Acc) (data : Word)
  /-- EVENT_FLASH_COPY (R503). Selvo-T firmware copies a record into the flash ring, erasing ahead. -/
  | eventFlashCopy
  /-- SIGNED_REQUEST_RECEIVED (R509). A unit checks a signed request and queues it for the OTP writer or refuses it. -/
  | signedRequestReceived (req : List Byte)
  /-- OTP_CHANGE_COMMIT (R506). The OTP writer programs a change, its log entry and commit bit, writing event 0x802. -/
  | otpChangeCommit (ok : Bool)
  /-- AUTH_FLOOR_RAISE (R513). A host write of AUTH_FLOOR_RAISE queues a higher privacy floor for the OTP writer. -/
  | authFloorRaise (a : Acc) (data : Word)
  /-- FLOOR_RISE_APPLY (R344). In the core cycle after commit the new floor removes forbidden tokens as an authorisation change. -/
  | floorRiseApply
  /-- SELF_TEST_COMPLETE (R521). A self-test point ends, disabling failed items or making the unit FATAL and admitting access. -/
  | selfTestComplete (point : Nat) (d : Nat) (fails : List (Nat × Nat))
  /-- PATROL_PERIOD (R525). Each REP_SCRUB_PERIOD the patrol reads every retained word and writes corrected values back. -/
  | patrolPeriod (fixes : Nat) (bad : List BadWord)
  /-- ROW_REPAIR (R524). The repair engine copies a failing row to a spare, or retires the bank when none is free. -/
  | rowRepair (kind : Nat) (inst : Nat) (bank : Nat) (row : Nat) (cause : Nat)
  /-- BANK_RETIRE (R527). A bank marked for retirement is retired when it empties, with event 0x904. -/
  | bankRetire (kind : Nat) (inst : Nat) (bank : Nat)
  /-- REMAP_RECORD_WRITE (R526). Selvo-T firmware writes a field remap entry into the flash remap record. -/
  | remapRecordWrite (ok : Bool)
  /-- SMB_WRITE_WORD (R533). SMBus command 0x10 writes a word to the register window. -/
  | smbWriteWord (m : SmbMsg)
  /-- SMB_READ_ADDRESS (R533). SMBus command 0x11 reads a word and holds it for 0x12. -/
  | smbReadAddress (m : SmbMsg)
  /-- SMB_READ_WORD (R533). SMBus command 0x12 returns the word held by the last 0x11. -/
  | smbReadWord (m : SmbMsg)
  /-- OPERATING_HOURS_ADVANCE (R495). For every 1/16 h during which AON is powered, the OTP HOURS counter advances by 1, saturating at 2^32 - 1. -/
  | operatingHoursAdvance
  /-- PCIE_LINK_CHANGE (R469). The Selvo-T PCIe link goes up or down, updating PCIE_STATUS.LINK_UP, counting PCIE_LINK_DOWN and setting the link-change interrupt. -/
  | pcieLinkChange (up : Bool) (speed : Nat) (width : Nat)
  /-- OPEN (R464). An OPEN datagram arriving from a peer Selvo-T on a PEER entry is answered with OPEN_OK echoing its session ID, and the session opens for tray-plane convoy traffic. -/
  | openDgram (e : Nat) (session : Nat) (src : Nat)
  deriving DecidableEq, Repr

end Sys2Proof
end

