-- ==== Sys2Proof/Machine/Bits.lean ====
section
/-! DEFINITION. Bit fields, byte order, serial order and saturation (R6, R7, R536). -/

namespace Sys2Proof.Machine

/-- name[hi:lo] of a value (R6). -/
def fld (v hi lo : Nat) : Nat := v / 2 ^ lo % 2 ^ (hi + 1 - lo)

/-- Bit i of a value as a Bool. -/
def bitOf (v i : Nat) : Bool := v.testBit i

/-- 1 for true, 0 for false. -/
def b2n (b : Bool) : Nat := if b then 1 else 0

/-- The value with name[hi:lo] replaced by the low bits of x. -/
def setFld (v hi lo x : Nat) : Nat :=
  v - fld v hi lo * 2 ^ lo + x % 2 ^ (hi + 1 - lo) * 2 ^ lo

/-- The value with bit i set to b. -/
def setBitTo (v i : Nat) (b : Bool) : Nat := setFld v i i (b2n b)

/-- The n little-endian bytes of a value (R7). -/
def leBytes : Nat → Nat → List Byte
  | 0, _ => []
  | n + 1, v => BitVec.ofNat 8 v :: leBytes n (v / 256)

/-- The value that little-endian bytes hold (R7). -/
def leNat : List Byte → Nat
  | [] => 0
  | b :: bs => b.toNat + 256 * leNat bs

/-- The value that big-endian bytes hold (R7, R285). -/
def beNat (l : List Byte) : Nat := leNat l.reverse

/-- Bytes lo to lo + n - 1 of a payload as a little-endian value; bytes past the end count 0. -/
def leAt (l : List Byte) (lo n : Nat) : Nat := leNat ((l.drop lo).take n)

/-- Bytes of a list of small numbers. -/
def bytes (l : List Nat) : List Byte := l.map (BitVec.ofNat 8)

/-- n zero bytes. -/
def zeros (n : Nat) : List Byte := List.replicate n 0

/-- The list cut or padded with zero bytes to n. -/
def padTo (n : Nat) (l : List Byte) : List Byte := (l ++ zeros (n - l.length)).take n

/-- Serial order: a is later than b when (a - b) mod 2^32 lies from 1 to 2^31 - 1 (R536). -/
def laterThan (a b : Nat) : Bool :=
  let d := (a + 4294967296 - b % 4294967296) % 4294967296
  decide (1 ≤ d) && decide (d ≤ 2147483647)

/-- Serial order: a is at or later than b when the difference lies from 0 to 2^31 - 1 (R536). -/
def atOrLater (a b : Nat) : Bool :=
  let d := (a + 4294967296 - b % 4294967296) % 4294967296
  decide (d ≤ 2147483647)

/-- a + d, not above the maximum of n bits. -/
def satAdd (n a d : Nat) : Nat := min (a + d) (2 ^ n - 1)

/-- The low 32 bits. -/
def w32 (v : Nat) : Nat := v % 4294967296

/-- A 32-bit pattern read as a signed value. -/
def sgn32 (v : Nat) : Int := if v % 4294967296 < 2147483648 then (v % 4294967296 : Nat) else (v % 4294967296 : Nat) - 4294967296

/-- An n-bit pattern read as a signed value. -/
def sgnN (n v : Nat) : Int := if v % 2 ^ n < 2 ^ (n - 1) then (v % 2 ^ n : Nat) else ((v % 2 ^ n : Nat) : Int) - (2 ^ n : Nat)

/-- The n-bit two's-complement pattern of a signed value. -/
def unsN (n : Nat) (v : Int) : Nat := (v % ((2 ^ n : Nat) : Int)).toNat

/-- The n-bit pattern of a signed value, saturating. -/
def satSgn (n : Nat) (v : Int) : Nat :=
  unsN n (max (-((2 ^ (n - 1) : Nat) : Int)) (min v (((2 ^ (n - 1) : Nat) : Int) - 1)))

/-- Replace element i of a list by f of it (no change beyond the end). -/
def modNth {α : Type} (l : List α) (i : Nat) (f : α → α) : List α :=
  match l[i]? with
  | some x => l.set i (f x)
  | none => l

/-- Look up a key in an association list, with a default. -/
def assocD {β : Type} (d : β) (k : Nat) : List (Nat × β) → β
  | [] => d
  | (k', v) :: r => if k' = k then v else assocD d k r

/-- Set a key in an association list: the old entry goes, the new one comes first. -/
def assocSet {β : Type} (k : Nat) (v : β) (l : List (Nat × β)) : List (Nat × β) :=
  (k, v) :: l.filter (fun p => p.1 != k)

/-- Drop a key of an association list. -/
def assocDel {β : Type} (k : Nat) (l : List (Nat × β)) : List (Nat × β) :=
  l.filter (fun p => p.1 != k)

/-- Round a rational n/d to the nearest integer, halves to even. -/
def roundHalfEven (n : Int) (d : Nat) : Int :=
  let q := n / (d : Int)
  let r := n % (d : Int)
  if 2 * r < d then q else if 2 * r > d then q + 1 else if q % 2 = 0 then q else q + 1

end Sys2Proof.Machine
end

