-- ==== Sys2Proof/Machine/Float.lean ====
section
/-! DEFINITION. IEEE 754-2019 binary32 and binary64 on bit patterns: exact rationals, rounded once to nearest even (R9). Every NaN
written is the canonical quiet NaN. -/

namespace Sys2Proof.Machine

/-- A binary format: fraction bits with the hidden one, and exponent bits. -/
structure Fmt where
  p : Nat
  w : Nat
  deriving DecidableEq, Repr

def b32 : Fmt := ⟨24, 8⟩
def b64 : Fmt := ⟨53, 11⟩

def Fmt.bias (f : Fmt) : Nat := 2 ^ (f.w - 1) - 1
/-- The pattern of +Inf. -/
def Fmt.inf (f : Fmt) : Nat := (2 ^ f.w - 1) * 2 ^ (f.p - 1)
/-- The canonical quiet NaN (R9). -/
def Fmt.nan (f : Fmt) : Nat := f.inf + 2 ^ (f.p - 2)
def Fmt.signBit (f : Fmt) : Nat := 2 ^ (f.p - 1 + f.w)

/-- A floating-point datum: NaN, an infinity, or ±m·2^e. -/
inductive FV where
  | nan
  | inf (neg : Bool)
  | fin (neg : Bool) (m : Nat) (e : Int)
  deriving DecidableEq, Repr

/-- The datum of a pattern. -/
def decF (f : Fmt) (v : Nat) : FV :=
  let neg := decide (f.signBit ≤ v % (2 * f.signBit))
  let a := v % f.signBit
  let ex := a / 2 ^ (f.p - 1)
  let fr := a % 2 ^ (f.p - 1)
  if ex = 2 ^ f.w - 1 then (if fr = 0 then .inf neg else .nan)
  else if ex = 0 then .fin neg fr (2 - f.bias - f.p)
  else .fin neg (fr + 2 ^ (f.p - 1)) ((ex : Int) + 1 - f.bias - f.p)

/-- n / d · 2^(-q) as a fraction of naturals. -/
def scale (n d : Nat) (q : Int) : Nat × Nat := if 0 ≤ q then (n, d * 2 ^ q.toNat) else (n * 2 ^ (-q).toNat, d)

/-- Nearest natural of n / d, ties to even. -/
def rneNat (n d : Nat) : Nat :=
  let q := n / d
  let r := n % d
  if 2 * r < d then q else if 2 * r > d then q + 1 else if q % 2 = 0 then q else q + 1

/-- Floor of the binary logarithm of n / d, both above 0. -/
def log2Rat (n d : Nat) : Int :=
  let l : Int := (n.log2 : Int) - (d.log2 : Int)
  let (a, b) := scale n d l
  if a < b then l - 1 else l

/-- Round ±n/d to a format: to nearest, ties to even, overflowing to infinity. -/
def roundF (f : Fmt) (neg : Bool) (n d : Nat) : Nat :=
  let s := if neg then f.signBit else 0
  if n = 0 ∨ d = 0 then s
  else
    let l := log2Rat n d
    let emin : Int := 1 - (f.bias : Int)
    let q : Int := max l emin - ((f.p : Int) - 1)
    let (a, b) := scale n d q
    let m := rneNat a b
    if m < 2 ^ (f.p - 1) then s + m
    else
      let ex := (q + (f.p : Int) - 1 + (f.bias : Int)).toNat
      let bits := ex * 2 ^ (f.p - 1) + (m - 2 ^ (f.p - 1))
      s + (if f.inf ≤ bits then f.inf else bits)

/-- The pattern of a datum in a format. -/
def encF (f : Fmt) : FV → Nat
  | .nan => f.nan
  | .inf neg => (if neg then f.signBit else 0) + f.inf
  | .fin neg m e => if 0 ≤ e then roundF f neg (m * 2 ^ e.toNat) 1 else roundF f neg m (2 ^ (-e).toNat)

/-- Signed magnitude at exponent e0 ≤ e. -/
def FV.atExp (neg : Bool) (m : Nat) (e e0 : Int) : Int := (if neg then -1 else 1) * ((m * 2 ^ (e - e0).toNat : Nat) : Int)

/-- A signed integer times 2^e as a datum; a zero has the sign given. -/
def FV.ofInt (v : Int) (e : Int) (zneg : Bool) : FV := if v = 0 then .fin zneg 0 0 else .fin (decide (v < 0)) v.natAbs e

/-- The exact sum of two data. -/
def FV.add : FV → FV → FV
  | .nan, _ => .nan
  | _, .nan => .nan
  | .inf a, .inf b => if a = b then .inf a else .nan
  | .inf a, _ => .inf a
  | _, .inf b => .inf b
  | .fin a m e, .fin b n g =>
    let e0 := min e g
    FV.ofInt (FV.atExp a m e e0 + FV.atExp b n g e0) e0 (a && b)

def FV.neg : FV → FV
  | .nan => .nan
  | .inf a => .inf (!a)
  | .fin a m e => .fin (!a) m e

def FV.abs : FV → FV
  | .nan => .nan
  | .inf _ => .inf false
  | .fin _ m e => .fin false m e

/-- The exact product of two data. -/
def FV.mul : FV → FV → FV
  | .nan, _ => .nan
  | _, .nan => .nan
  | .inf a, .inf b => .inf (a != b)
  | .inf a, .fin b m _ => if m = 0 then .nan else .inf (a != b)
  | .fin a m _, .inf b => if m = 0 then .nan else .inf (a != b)
  | .fin a m e, .fin b n g => .fin (a != b) (m * n) (e + g)

/-- Strict order of two data; false with a NaN. -/
def FV.lt : FV → FV → Bool
  | .nan, _ => false
  | _, .nan => false
  | .inf a, .inf b => a && !b
  | .inf a, _ => a
  | _, .inf b => !b
  | .fin a m e, .fin b n g =>
    let e0 := min e g
    decide (FV.atExp a m e e0 < FV.atExp b n g e0)

/-- Equality of value: zeros are equal, a NaN equals nothing. -/
def FV.eqv (a b : FV) : Bool := a != .nan && b != .nan && !(a.lt b) && !(b.lt a)

def FV.le (a b : FV) : Bool := a.lt b || a.eqv b

def FV.isNan (a : FV) : Bool := a == .nan
def FV.isInf : FV → Bool
  | .inf _ => true
  | _ => false
def FV.isFin : FV → Bool
  | .fin _ _ _ => true
  | _ => false
def FV.isZero : FV → Bool
  | .fin _ m _ => m == 0
  | _ => false
def FV.isNeg : FV → Bool
  | .nan => false
  | .inf a => a
  | .fin a _ _ => a

/-! ### Operations on patterns -/

def fAdd (f : Fmt) (a b : Nat) : Nat := encF f ((decF f a).add (decF f b))
def fSub (f : Fmt) (a b : Nat) : Nat := encF f ((decF f a).add (decF f b).neg)
def fMul (f : Fmt) (a b : Nat) : Nat := encF f ((decF f a).mul (decF f b))
def fNeg (f : Fmt) (a : Nat) : Nat := if (decF f a).isNan then f.nan else if f.signBit ≤ a then a - f.signBit else a + f.signBit
def fAbs (f : Fmt) (a : Nat) : Nat := if (decF f a).isNan then f.nan else a % f.signBit
/-- a·b + c, rounded once. -/
def fFma (f : Fmt) (a b c : Nat) : Nat := encF f (((decF f a).mul (decF f b)).add (decF f c))
def fLt (f : Fmt) (a b : Nat) : Bool := (decF f a).lt (decF f b)
def fEq (f : Fmt) (a b : Nat) : Bool := (decF f a).eqv (decF f b)
def fLe (f : Fmt) (a b : Nat) : Bool := (decF f a).le (decF f b)
def fIsNan (f : Fmt) (a : Nat) : Bool := (decF f a).isNan

/-- a / b, rounded once. -/
def fDiv (f : Fmt) (a b : Nat) : Nat :=
  match decF f a, decF f b with
  | .nan, _ => f.nan
  | _, .nan => f.nan
  | .inf _, .inf _ => f.nan
  | .inf s, .fin t _ _ => encF f (.inf (s != t))
  | .fin s _ _, .inf t => if s != t then f.signBit else 0
  | .fin s m e, .fin t n g =>
    if n = 0 then (if m = 0 then f.nan else encF f (.inf (s != t)))
    else
      let d := e - g
      if 0 ≤ d then roundF f (s != t) (m * 2 ^ d.toNat) n else roundF f (s != t) m (n * 2 ^ (-d).toNat)

/-- Integer square root by bits, from bit k down. -/
def isqrtBits : Nat → Nat → Nat → Nat
  | 0, _, r => r
  | k + 1, n, r =>
    let r' := r + 2 ^ k
    if r' * r' ≤ n then isqrtBits k n r' else isqrtBits k n r

def isqrt (n : Nat) : Nat := isqrtBits (n.log2 / 2 + 1) n 0

/-- The square root, rounded once. -/
def fSqrt (f : Fmt) (a : Nat) : Nat :=
  match decF f a with
  | .nan => f.nan
  | .inf neg => if neg then f.nan else f.inf
  | .fin neg m e =>
    if m = 0 then a
    else if neg then f.nan
    else
      -- m·2^e with an even exponent and at least 2·p + 4 significant bits, the last result bit sticky
      let sh := 2 * f.p + 4 + (if (e - (2 * f.p + 4 : Nat)) % 2 = 0 then 0 else 1)
      let n := m * 2 ^ sh
      let r := isqrt n
      let g := (e - sh) / 2
      let r2 := 2 * r + (if r * r = n then 0 else 1)
      encF f (.fin false r2 (g - 1))

/-- binary32 to binary64, exact. -/
def f32to64 (a : Nat) : Nat := encF b64 (decF b32 a)
/-- binary64 to binary32, rounded to nearest even. -/
def f64to32 (a : Nat) : Nat := encF b32 (decF b64 a)
/-- A natural in a format, rounded to nearest even. -/
def fOfNat (f : Fmt) (n : Nat) : Nat := roundF f false n 1
/-- An integer in a format. -/
def fOfInt (f : Fmt) (v : Int) : Nat := roundF f (decide (v < 0)) v.natAbs 1
/-- A fraction n / d in a format. -/
def fOfRat (f : Fmt) (v : Int) (d : Nat) : Nat := roundF f (decide (v < 0)) v.natAbs d

/-- The floor of a finite pattern; 0 for a NaN or an infinity. -/
def fFloor (f : Fmt) (a : Nat) : Int :=
  match decF f a with
  | .fin neg m e => if 0 ≤ e then FV.atExp neg m e 0 else (if neg then -(m : Int) else m) / ((2 ^ (-e).toNat : Nat) : Int)
  | _ => 0

/-- The ceiling of a finite pattern; 0 for a NaN or an infinity. -/
def fCeil (f : Fmt) (a : Nat) : Int := -(fFloor f (if f.signBit ≤ a then a - f.signBit else a + f.signBit))

/-- The integer nearest to a finite pattern, ties to even. -/
def fRint (f : Fmt) (a : Nat) : Int :=
  match decF f a with
  | .fin neg m e =>
    let v : Nat := if 0 ≤ e then m * 2 ^ e.toNat else rneNat m (2 ^ (-e).toNat)
    if neg then -(v : Int) else v
  | _ => 0

/-- Combine a list in an order given by free numbers: each step combines two elements that two of them choose (R16, R154). -/
def combineBy (op : Nat → Nat → Nat) : Nat → List Nat → List Nat → Nat
  | 0, _, l => l.getD 0 0
  | k + 1, order, l =>
    match l with
    | [] => 0
    | [a] => a
    | _ =>
      let i := order.getD 0 0 % l.length
      let a := l.getD i 0
      let rest := l.eraseIdx i
      let j := order.getD 1 0 % rest.length
      let b := rest.getD j 0
      combineBy op k (order.drop 2) (op a b :: rest.eraseIdx j)

/-- A binary64 sum in an order the hardware chooses; +0 for no terms. -/
def sumBy (order : List Nat) (l : List Nat) : Nat := combineBy (fAdd b64) l.length order l

end Sys2Proof.Machine
end

