-- ==== Sys2Proof/Config.lean ====
section
/-! DEFINITION. What the spec leaves to an implementation: free values without a body, so that no proof can see them. -/

namespace Sys2Proof

/-- The free values of the model: the n-th draw. The step that needs a value the spec does not fix takes the draw that the
counter `free` of the state numbers, and advances the counter. -/
opaque Config.freeNat : Nat → Nat

/-- The order in which hardware adds the terms of a floating-point sum the spec gives no order for (R16): given how many terms
there are, a list of indices; only a permutation of the indices is used (see `sumOrder` in Machine/Float.lean). -/
opaque Config.freeOrder : Nat → Nat → List Nat

/-- How many banks a memory of Table 21-2 has, by kind and instance. -/
opaque Config.memBanks : Nat → Nat → Nat

/-- Whether a sensor of another unit is of KIND 1, by source ID and sensor: a sensor block does not tell it (R214). -/
opaque Config.farSigned : Nat → Nat → Bool

/-- The voltage bin of a reading where ABFT_VBIN.STEP is 0, by BASE and the reading: the quotient of R324 has no value there. -/
opaque Config.binNoStep : Nat → Nat → Nat

/-- The priority at which a frame that belongs to no traffic class leaves an Ethernet port, by its kind (R459 gives one to each class alone). -/
opaque Config.framePcp : Nat → Nat

/-- The JEDEC identification of a flash device, and the logarithm of its size, by chip select (R471, Table 18-9). -/
opaque Config.flashId : Nat → Nat
opaque Config.flashLog2 : Nat → Nat

/-- The firmware key held in the ROM (R472): 96 bytes, x then y. -/
opaque Config.firmwareKey : List Byte

end Sys2Proof
end

