-- ==== Sys2Proof/Machine/State.lean ====
section
/-! DEFINITION. The state of the block: every register (as its difference from its reset value) and every queue, store, table,
mode and pin the spec gives a unit. Plain data throughout. -/

namespace Sys2Proof.Machine

/-- Why a step stops with a fault. -/
inductive Fault where
  /-- The command names a port, domain, island, generator, slot or entry that the unit's build does not have, or an event of a
  function the build lacks: no such event exists there. Raised by the guards of the meanings. Safe: the device has no such event. -/
  | absent
  deriving DecidableEq, Repr

/-- Why a step has no meaning. -/
inductive Refusal where
  /-- The command has no meaning in this model yet. Raised by the arms of exec only. Safe. -/
  | notModelled (mnemonic : String)
  deriving DecidableEq, Repr

/-! ### The core, its pins and its accesses (chapters 0, 3, 20, 22) -/

/-- The response an access path last returned (R73, R465, R533). -/
structure Resp where
  data : Nat
  err : Bool
  deriving DecidableEq, Repr

/-- An access that has not yet received its response (R72, R75): it waits for its page's domain to reach Run, or, its effect done, for the
responses of earlier requests of the register port. -/
structure WaitAcc where
  acc : Acc
  addr : Nat
  write : Bool
  data : Nat
  dom : Nat
  /-- the response, once the access has been performed -/
  rsp : Option Resp
  deriving DecidableEq, Repr

/-- The sum that waits in a counting tap's sender (R56, R85, R91): for its light-set counter, and for the optional counters. -/
structure TapSum where
  tap : Nat
  light : Nat
  opt : Nat
  deriving DecidableEq, Repr

/-- An item that waits in the sender of its crossing (Table 3-5): the slot of a sensor, a trigger or an engine, or a place of an event FIFO. -/
inductive TapItem where
  | sensor (sns value : Nat) (faulty : Bool) (count : Nat)
  | trigger (t : Nat)
  | boundary (c : Nat) (start stop : Bool) (tag : Nat)
  | tensor (w : Nat) (first last : Bool) (tensor lanes : Nat) (slots : List Word)
  | checksum (lanes : List CkLane)
  | trace (cls priv ctx data : Nat)
  | waitState (engine kind target count : Nat)
  deriving DecidableEq, Repr

/-- One latched word: kept per page, path and class (R530). -/
structure Latched where
  acc : Acc
  key : Nat
  value : Nat
  deriving DecidableEq, Repr

structure CoreSt where
  /-- held in power-on reset (R84) -/
  por : Bool
  /-- cause the next power-on record carries: 0 PORST#, 1 rail, 2 thermal (Table 19-3) -/
  porCause : Nat
  /-- core_rst_n or WRST# asserted -/
  warm : Bool
  /-- straps as sampled: [1:0] role, [3:2] cooling class, [4] flash (R426) -/
  straps : Nat
  /-- the response of each path -/
  rspPort : Resp
  rspPcie : Resp
  rspSmb : Resp
  /-- accesses that wait on a domain wake (R75) -/
  wait : List WaitAcc
  /-- words held by latching reads (R530) -/
  latches : List Latched
  /-- islands whose qsc_req is 1: 0 to 7 tap, 8 core, 9 + g link group g, 18 time; and the local clock at which it rose -/
  qscReq : List Nat
  qscAt : List (Nat × Nat)
  /-- islands whose qsc_drained is 1 -/
  qscDrained : List Nat
  /-- tap islands and link groups (9 + g) whose reset input is asserted (R84, R91, R168) -/
  inReset : List Nat
  /-- tap islands whose clock is stopped (R85) -/
  tapStopped : List Nat
  /-- sums that wait in the senders of the counting taps, and the items of the other crossings, oldest first (R85, R86, R88, R91) -/
  tapSums : List TapSum
  tapItems : List TapItem
  /-- items that a full FIFO did not carry, not yet landed as a sum: 0 boundaries, 1 + class trace items, 8 + w tensor beats, 16 checksum beats -/
  tapLost : List (Nat × Nat)
  /-- islands reset without quiesce since the last muster, each with the stamp of the last muster before its reset (R49, R168) -/
  discIslands : List (Nat × Nat)
  /-- the optional counters' last values, which the reset notice of the core island records (R92) -/
  noticeCtrs : List (Nat × Nat)
  /-- the word the last SMBus 0x11 holds for 0x12 (R533) -/
  smbHeld : Nat
  /-- the last answer of the SMBus target: acknowledged or not -/
  smbAck : Bool
  /-- level of PEER_PRESENT# (true = low, a partner is present) -/
  peerLow : Bool
  /-- the strap alarm of Table 16-8 has been raised since power-on -/
  strapAlarmed : Bool
  /-- THERM# level from other sources, PWR_EMERG# level (true = low) -/
  thermLowIn : Bool
  pwrEmergLow : Bool
  /-- this chip drives THERM# low (R430) -/
  thermDrive : Bool
  /-- PRESENT# driven low (R432) -/
  present : Bool
  /-- instruction in the test access port, and whether it raises dbg_vote (R441) -/
  jtag : Nat
  /-- the PCIe function is in reset (R425) -/
  pcieReset : Bool
  /-- MSI-X vectors sent since reset, one count per vector (R465) -/
  msix : List Nat
  /-- the last BAR2 read: data and Completer Abort -/
  bar2 : Resp
  /-- cooling outputs in tach fault -/
  tachFault : List Nat
  /-- the cooling stream was stale, and full cooling forced, at the last computation (R436, R442) -/
  coolStale : Bool
  coolForced : Bool
  /-- for each cooling output the word of COOL_DUTY before the last computation, and the fleet time of that computation (R436) -/
  coolWas : List (Nat × Nat)
  /-- unattended mode (R486) -/
  unattended : Bool
  deriving DecidableEq, Repr

/-! ### Fleet time (chapter 4) -/

/-- The lock state of one link exchange (R107, R115, R116). -/
structure Exch where
  /-- exchange number this unit last sent as parent, and the stamps of that exchange -/
  txNum : Nat
  t1 : Nat
  /-- exchange number of the last PROBE answered, and the child's stamps -/
  rxNum : Nat
  t2 : Nat
  t3 : Nat
  /-- REPLY sent and RESULT awaited -/
  awaiting : Bool
  /-- PROBE number a RESULT is due for -/
  repliedNum : Option Nat
  /-- offsets gathered for the first estimate (R115) -/
  acq : List Int
  acquiring : Bool
  locked : Bool
  /-- consecutive exchanges within TIME_LOCK_THRESH -/
  good : Nat
  misses : Nat
  /-- last offset and mean delay in ps -/
  offset : Int
  delay : Int
  /-- what the parent sent last: code, REF_FAULT, hops, holdover remaining in ms -/
  code : Nat
  refFault : Bool
  hops : Nat
  holdover : Nat
  /-- unit time of the previous exchange, and the local clock at its RESULT -/
  lastAt : Nat
  resAt : Nat
  /-- local clock of the last REPLY and of the last PROBE -/
  replyAt : Nat
  probeAt : Nat
  suspect : Bool
  /-- training exchanges still to run (R115) -/
  training : Nat
  /-- fleet time of the last cross-check alarm, per port (R125) -/
  xchkAt : Option Nat
  deriving DecidableEq, Repr

/-- A two-step Sync that waits for its Follow_Up (Table 4-7, R112): its sequence, its master, its arrival, correction and interval. -/
structure PtpStep where
  seq : Nat
  source : Nat
  t2 : Nat
  corr : Int
  intervalOk : Bool
  deriving DecidableEq, Repr

/-- One Ethernet port's IEEE 1588 state (R126, R127). -/
structure PtpPort where
  /-- the masters heard on the port, each with its latest Announce -/
  masters : List (Nat × Announce)
  good : Nat
  /-- the offset has been within the threshold for 8 Syncs, and the parent has not been lost since (R127) -/
  locked : Bool
  offset : Int
  delay : Int
  t1 : Nat
  t2 : Nat
  /-- the Sync interval is one the port accepts -/
  intervalOk : Bool
  corr : Int
  twoStep : Option PtpStep
  /-- sequence of the last Delay_Req, and its departure while its Delay_Resp is due -/
  reqSeq : Nat
  t3 : Option Nat
  deriving DecidableEq, Repr

structure TimeSt where
  /-- fleet time in units of 2^-64 s: 48 bits of seconds, 64 of fraction (R99, R104) -/
  acc : Nat
  /-- the addend in units of 2^-64 s (R104) -/
  addend : Nat
  /-- cycles of the time island since power-on release: the unit's monotonic clock -/
  cycles : Nat
  /-- the quality code before REF_FAULT is applied (R121) -/
  code : Nat
  refFault : Bool
  /-- the time parent: its port under R135; 64 + e for IEEE 1588 on Ethernet port e -/
  parent : Option Nat
  /-- learned rate correction rho in units of 2^-64 (R116) -/
  rho : Int
  /-- local clock at which holdover ends, and at which the unit left code 0 for it (R118, R121) -/
  holdUntil : Option Nat
  left0 : Option Nat
  /-- the plan names this unit group time root; its pod parent and alternate (R108) -/
  groupRoot : Bool
  podParent : Option Nat
  podAlt : Option Nat
  exch : List Exch
  ptp : List PtpPort
  ptpSel : Nat
  /-- next anchor of a stream carries STEP, and which streams have had one (R102) -/
  anchored : List (Nat × Nat)
  deriving DecidableEq, Repr

/-- One pulse generator (R128 to R132). -/
structure Pulse where
  running : Bool
  start : Nat
  period : Nat
  width : Nat
  pol : Bool
  qgate : Nat
  /-- index of the next active edge -/
  k : Nat
  /-- the output is in its active phase, which ends at this time -/
  activeUntil : Option Nat
  clipped : Bool
  gated : Bool
  missed : Nat
  /-- armed again while in its active phase: the polarity that follows the end of the phase -/
  nextPol : Option Bool
  /-- disarmed: stops after the current active phase -/
  stopping : Bool
  deriving DecidableEq, Repr

/-- One capture entry (R133). -/
structure Capture where
  time : Nat
  code : Nat
  rising : Bool
  deriving DecidableEq, Repr

/-- One capture input. -/
structure CapIn where
  fifo : List Capture
  /-- local clock of the last stamped edge -/
  lastAt : Option Nat
  deriving DecidableEq, Repr

structure PulseSt where
  gens : List Pulse
  caps : List CapIn
  deriving DecidableEq, Repr

/-! ### Events (chapter 19) -/

/-- An event record (Table 19-1). -/
structure EvRec where
  seq : Nat
  sev : Nat
  code : Nat
  hours : Nat
  cycles : Nat
  suppr : Nat
  stamp : Nat
  payload : List Byte
  deriving DecidableEq, Repr

/-- One slot of the AON store. -/
structure EvSlot where
  id : Nat
  ev : EvRec
  forwarded : Bool
  /-- the record waits for flash (R503) -/
  flash : Bool
  deriving DecidableEq, Repr

/-- The token bucket of one code: level in units of 2^-36 token, and the fleet time (2^-32 s) of that level (R498). -/
structure Bucket where
  level : Nat
  lastAt : Nat
  deriving DecidableEq, Repr

structure EvSt where
  /-- the store, newest first, at most 256 slots (R500) -/
  store : List EvSlot
  nextId : Nat
  seq : Nat
  /-- records lost since the last store-loss record, and the stamp of the first of them (R501) -/
  lost : Nat
  lostStamp : Nat
  buckets : List (Nat × Bucket)
  /-- suppressed counts by code -/
  suppr : List (Nat × Nat)
  hours : Nat
  pcycles : Nat
  /-- records waiting for flash, oldest first (R503) -/
  flashQ : List EvRec
  /-- the flash ring: records written, newest first -/
  ring : List EvRec
  ringSector : Nat
  ringSlot : Nat
  ringLap : Nat
  deriving DecidableEq, Repr

/-! ### Links, credits and queues (chapters 1, 6, 7, 17) -/

/-- A packet queued or held at an egress port. `uid` names the record whose fate it carries. -/
structure Item where
  uid : Nat
  r : Rec
  /-- packet bytes already sent -/
  sent : Nat
  pkt : Nat
  resent : Bool
  /-- codec work on it has been done -/
  coded : Bool
  /-- it is sent again after a REPLAY, with its original PKT (R447) -/
  replay : Bool
  deriving DecidableEq, Repr

/-- A record whose fate is open: its stream, whether it enters the tally, the event slot it came from, its copies (R30, R44). -/
structure Pend where
  uid : Nat
  stream : Nat
  tallied : Bool
  ev : Option Nat
  copies : Nat
  deriving DecidableEq, Repr

/-- A packet being received in segments (R223). -/
structure Asm where
  pkt : Nat
  bytes : List Byte
  red : Bool
  deriving DecidableEq, Repr

/-- Why a class is being brought to a quiescent point by its sender (R54, R229, R447). -/
inductive QWhy where
  | mismatch | init | replay
  deriving DecidableEq, Repr

/-- A class on its way to a quiescent point at its sender: why, since when, the total to set, whether a CREDIT_INIT waits for its answer, and
the credits that the sender may still use. -/
structure Quiesce where
  why : QWhy
  since : Nat
  newT : Nat
  owe : Bool
  left : Int
  deriving DecidableEq, Repr

/-- One class of one Selvo link port, both directions (R164, R222 to R229). -/
structure TxRx where
  q : List Item
  held : List Item
  /-- the sender's available credits, and the far end's total -/
  credits : Int
  farT : Nat
  txSent : Nat
  txAcked : Nat
  rxRecv : Nat
  rxAcked : Nat
  /-- last cumulative counts the sender applied -/
  relApplied : Nat
  ackApplied : Nat
  /-- cumulative credits released at this ingress, and what was last reported -/
  released : Nat
  relReported : Nat
  ackReported : Nat
  /-- T in force at this ingress, credits occupied -/
  t : Nat
  occ : Nat
  /-- the acknowledgement of CREDIT_INIT has been exchanged -/
  ready : Bool
  quiesce : Option Quiesce
  /-- the total accepted for this ingress and not yet in force, since when, and whether its CREDIT_INIT has been sent (R229, R230) -/
  newT : Option Nat
  newAt : Nat
  initSent : Bool
  asm : Option Asm
  /-- PKT of a packet that broke the order: its further segments are dropped (R223) -/
  badPkt : Option Nat
  /-- last packet received whole -/
  lastPkt : Nat
  /-- the PKT that this end's last REPLAY reported (R447) -/
  replayPkt : Option Nat
  /-- shaper tokens in units of 2^-32 byte, and their time -/
  tokens : Int
  tokAt : Nat
  deriving DecidableEq, Repr

/-- The toll buckets of one ingress port and class, in units of 2^-32 byte (R239). -/
structure TollSt where
  tc : Int
  tp : Int
  lastAt : Nat
  deriving DecidableEq, Repr

/-- A census in progress (R53, R231). -/
structure Census where
  num : Nat
  cls : Nat
  outstanding : Int
  credited : Nat
  since : Nat
  deriving DecidableEq, Repr

/-- A link-control packet sent: its type, its class or bitmap, its values, and the payload that they make (Table 7-2). -/
structure CtlPkt where
  type : Nat
  bitmap : Nat
  flags : Nat
  num : Nat
  values : List Nat
  payload : List Byte
  deriving DecidableEq, Repr

/-- One Selvo link port. -/
structure Port where
  up : Bool
  trained : Bool
  training : Bool
  quar : Bool
  expected : Bool
  missing : Bool
  dupId : Bool
  adopting : Bool
  slow : Bool
  degraded : Bool
  farDoze : Bool
  dozing : Bool
  heldDown : Bool
  disabled : Bool
  /-- joins at the next epoch boundary (R211, R220) -/
  joining : Bool
  /-- the fleet time from which it may join (R316) -/
  joinAt : Nat
  /-- source ID found at discovery; whether the neighbour has answered in this discovery, and the local clock at which it began -/
  neighbour : Nat
  answered : Bool
  discAt : Nat
  /-- the host has released the port from quarantine (R26) -/
  released : Bool
  cls : List TxRx
  toll : List TollSt
  /-- port rate in use and RATE_MAX sent, 0.1 Gb/s; banks and credits in service -/
  rate : Nat
  rateMaxSent : Nat
  banks : Nat
  buf : Nat
  reinit : Bool
  refused : Bool
  /-- the far end has acknowledged this training's CREDIT_INIT -/
  initAcked : Bool
  laneTokens : Int
  laneAt : Nat
  census : Option Census
  censusNum : Nat
  censusNext : Nat
  censusAt : Nat
  lastCtlAt : Nat
  lastReportAt : Nat
  /-- the last unit and the last link-control packet this port sent -/
  tx : Option UnitIn
  ctl : Option CtlPkt
  /-- a census echo that waits for its turn among the link-control packets (R225, R231) -/
  echo : Option CtlPkt
  /-- local clock of the last unit received -/
  rxAt : Nat
  upSince : Nat
  retrains : List Nat
  uncorrAt : List Nat
  everTrained : Bool
  trainCount : Nat
  /-- local clock at which WAKE blocks towards a dozing far end began (R451) -/
  wakeSeq : Option Nat
  /-- a training step: 0 idle, 1 waiting for discovery (R539), 2 adapted, 4 CREDIT_INIT sent, 5 UP (Table 17-2) -/
  step : Nat
  deriving DecidableEq, Repr

structure LinkSt where
  ports : List Port
  nextUid : Nat
  pend : List Pend
  /-- sequences of the streams this unit originates on (R34) -/
  seqs : List (Nat × Nat)
  /-- no Selvo-T found at discovery (R18) -/
  trayOrphan : Bool
  /-- leaf slots that wait for their admission (R20, R221, R315) -/
  admitDue : List Nat
  /-- spare banks of the caravanserai (R245) -/
  spareBanks : Nat
  /-- Selvo-T: records waiting to enter the publication store, oldest first -/
  pubQ : List Item
  /-- PFC: paused priorities per Ethernet port -/
  paused : List (List Nat)
  deriving DecidableEq, Repr

/-! ### Tallies and the duplicate table (chapter 2) -/

/-- The tally terms of one stream (Table 2-1); `dropped` has one count per code 1 to 8. -/
structure Tally where
  stream : Nat
  produced : Nat
  delivered : Nat
  merged : Nat
  dup : Nat
  dropped : List Nat
  deriving DecidableEq, Repr

/-- One context of the duplicate table, most recently used first (R537): `seen` lists accepted sequences within the window. -/
structure DupCtx where
  source : Nat
  stream : Nat
  latest : Nat
  seen : List Nat
  deriving DecidableEq, Repr

structure TallySt where
  rows : List Tally
  ctxs : List DupCtx
  /-- the tallies latched at the last muster cut, with pending -/
  latched : List (Tally × Nat)
  deriving DecidableEq, Repr

/-! ### Alarm coalescing (chapter 7) -/

/-- One entry of the coalescing table (R241, Table 7-6). -/
structure CoalEnt where
  idx : Nat
  overflow : Bool
  ev : EvRec
  count : Nat
  countSat : Bool
  lowId : Nat
  highId : Nat
  first : Nat
  last : Nat
  suppr : Nat
  openedAt : Nat
  /-- event slots of this unit that merged into it -/
  slots : List Nat
  deriving DecidableEq, Repr

structure CoalSt where
  entries : List CoalEnt
  /-- coalesced records whose fate is open: their name, and the store slots whose counts they carry (R500) -/
  owed : List (Nat × List Nat)
  deriving DecidableEq, Repr

/-! ### Sampling (chapter 5) -/

/-- One sensor (R144). -/
structure Sensor where
  value : Nat
  /-- the last reading presented, a faulty one too (R411) -/
  raw : Nat
  stale : Bool
  fault : Bool
  noReading : Bool
  /-- minimum and maximum of the good readings since the last cut outside a hold, where there has been one -/
  ranged : Bool
  minV : Nat
  maxV : Nat
  /-- readings since the last cut, a good one since the last cut -/
  sinceCut : Nat
  goodSinceCut : Bool
  faultSeen : Bool
  readings : Nat
  unseen : Nat
  goodAt : Nat
  deriving DecidableEq, Repr

/-- An open command of a stream (R148). -/
structure OpenCmd where
  stream : Nat
  latching : Bool
  set : Nat
  ctrs : List Nat
  values : List Nat
  tag : Nat
  num : Nat
  stamp : Nat
  gen : Nat
  deriving DecidableEq, Repr

/-- One latch-queue entry (Table 5-3). -/
structure LatchEnt where
  stream : Nat
  flags : Nat
  tag : Nat
  num : Nat
  start : Nat
  stop : Nat
  set : Nat
  lost : Nat
  gen : Nat
  ctrs : List Nat
  diffs : List Nat
  deriving DecidableEq, Repr

/-- A tensor being summarised (R153, R154); the finite values are kept for the sums. -/
structure Tensor where
  id : Nat
  matched : Bool
  positional : Bool
  emit : Bool
  mbits : Nat
  count : Nat
  nan : Nat
  pinf : Nat
  ninf : Nat
  zero : Nat
  subn : Nat
  minV : Option Nat
  maxV : Option Nat
  maxAbs : Nat
  finite : List Nat
  digest : Nat
  pos : Nat
  lost : Bool
  first : Nat
  last : Nat
  deriving DecidableEq, Repr

structure SampSt where
  /-- 64-bit counters that are not 0: (number, value), ascending -/
  ctrs : List (Nat × Nat)
  sensors : List Sensor
  cmds : List OpenCmd
  /-- command numbers by stream -/
  cmdNum : List (Nat × Nat)
  /-- local clock at which a stream last had a command open (R334) -/
  cmdIdleAt : List (Nat × Nat)
  /-- record stamp of that moment -/
  cmdIdleStamp : List (Nat × Nat)
  /-- streams that had a command open since the last cut (R304) -/
  opened : List Nat
  queue : List LatchEnt
  /-- entries lost since the last entry written -/
  lost : Nat
  /-- an entry was dropped as poison since the last entry written (R331, Table 11-5) -/
  latchGap : Bool
  /-- optional counters and sensors that restarted at 0 since the last cut (R331, Table 11-5) -/
  badCtrs : List Nat
  badSns : List Nat
  tensors : List (Nat × Tensor)
  /-- the latest summary closed by tw_last per stream: the eight fields of Table 8-5, binary64 -/
  summ : List (Nat × List Nat)
  /-- CTR_CFG writes that await a cut or 1 us: (counter, value) -/
  cfgPend : List (Nat × Nat)
  gen : Nat
  deriving DecidableEq, Repr

/-! ### The muster (chapter 5) -/

/-- A muster schedule (Table 5-5). -/
structure Sched where
  gen : Nat
  base : Nat
  start : Nat
  interval : Nat
  hold : Bool
  holdMax : Nat
  /-- next k not yet taken, and the first k this unit may take (R160) -/
  k : Nat
  first : Nat
  stopped : Bool
  /-- a RELEASE has acted on it (R171) -/
  released : Bool
  deriving DecidableEq, Repr

/-- The image of a cut (R161, R169). -/
structure Image where
  num : Nat
  gen : Nat
  t : Nat
  code : Nat
  hold : Bool
  stepped : Bool
  late : Bool
  coreOff : Bool
  discIslands : List Nat
  /-- counters and sensors whose state was lost since the cut before (R331, Table 11-5) -/
  badCtrs : List Nat
  badSns : List Nat
  lateIslands : List Nat
  heldGap : Option Nat
  ctrGen : Nat
  /-- counters enabled at the cut -/
  en : List Nat
  ctrs : List (Nat × Nat)
  sensors : List Sensor
  tallies : List (Tally × Nat)
  /-- per port: training count and the four totals of each class -/
  links : List (Nat × Nat × List (List Nat))
  cb : Nat
  tr : Nat
  tw : Nat
  ck : Nat
  /-- tensor-watch summaries at the cut -/
  summ : List (Nat × List Nat)
  stamp : Nat
  truncPrev : Bool
  /-- the unit's own emergency state at the cut (R303), and the first two conditions of R304 -/
  emerg : Nat
  therm : Bool
  complete : Bool
  deriving DecidableEq, Repr

structure MusterSt where
  gen : Nat
  cur : Option Sched
  /-- later generations, each of which takes over at its START, in ascending generation -/
  next : List Sched
  /-- STOPs and RELEASEs waiting for their action time: (stop, release, time, generation) -/
  action : List (Bool × Bool × Nat × Nat)
  root : Bool
  held : Bool
  /-- T of the held cut, and when HOLD_MAX ends the hold (R171, R172) -/
  heldAt : Nat
  heldUntil : Nat
  /-- held interval in µs that the next head carries -/
  heldGap : Option Nat
  lastNum : Nat
  lastT : Nat
  lastCode : Nat
  anyCut : Bool
  /-- the cut in progress or the newest image, and the complete image before it (R170) -/
  image : Option Image
  older : Option Image
  /-- the previous cut's counters, for deltas -/
  prevCtrs : List (Nat × Nat)
  /-- records of the image still to emit -/
  emit : List Rec
  leadRaised : Bool
  lateLatch : Bool
  oneShot : Bool
  /-- time stepped forward over a cut -/
  stepped : Bool
  /-- stamp of the last cut -/
  lastStamp : Nat
  /-- payloads of the arm record and of the newest record applied: a unit offers them to a neighbour at discovery (R168) -/
  armRec : Option (List Byte)
  newRec : Option (List Byte)
  deriving DecidableEq, Repr

/-! ### Convoys (chapter 6) -/

/-- One stream's entry of the plan (Table 6-1). -/
structure Entry where
  stream : Nat
  root : Bool
  tray : Bool
  keep : Bool
  height : Nat
  op : Nat
  ty : Nat
  par : Nat
  dir : Bool
  e0 : Int
  srcKind : Nat
  srcArg : Nat
  stride : Nat
  phase : Nat
  dlFirst : Nat
  dlStep : Nat
  parent : Option Nat
  alt : Option Nat
  inputs : Nat
  expected : Nat
  storeOff : Nat
  storeLen : Nat
  deriving DecidableEq, Repr

/-- One adoption or relay entry (R203, R204, R219), with the generation of its plan and the stream of its slot. -/
structure Adopt where
  gen : Nat
  stream : Nat
  child : Nat
  slot : Nat
  port : Nat
  parentPort : Nat
  bit : Nat
  relay : Bool
  /-- 0 idle, 1 adopted, 2 relaying -/
  st : Nat
  deriving DecidableEq, Repr

/-- A plan part (R181, R182, R480). Sections that a part leaves out are none. -/
structure Plan where
  gen : Nat
  act : Nat
  entries : List Entry
  adopts : List Adopt
  neighbours : Option (List (Nat × Nat))
  /-- group, tray and packages of each membership section -/
  members : List (Nat × Nat × List Nat)
  /-- group time root, pod parent port, alternate pod parent port -/
  timeTree : Option (Bool × Option Nat × Option Nat)
  /-- muster root, keeper, reconciliation, alarm and escalation streams -/
  roles : Option (Bool × Bool × Nat × Nat × Nat)
  /-- the sections of each leaf of a Selvo-H: (slot, type, body) -/
  leafParts : List (Nat × Nat × List Byte)
  deriving DecidableEq, Repr

/-- One input packet merged or held in an open epoch. -/
structure Contr where
  bit : Nat
  r : Rec
  deriving DecidableEq, Repr

/-- One open epoch of a slot (R180). -/
structure Open where
  epoch : Nat
  gen : Nat
  /-- the entry of the plan under which the epoch runs (R181) -/
  entry : Entry
  te : Nat
  /-- packets merged, and the own contribution under bit 0 -/
  inputs : List Contr
  /-- packets that wait: of adopted grandchildren (1000 + entry, R203), or PARTIAL packets of a pair (their bit, R207) -/
  held : List Contr
  /-- the input packets merged, adopted ones included -/
  merged : Nat
  adopted : Bool
  /-- bits not awaited -/
  notAwaited : Nat
  disc : Bool
  deriving DecidableEq, Repr

/-- One child of a broadcast (R208 to R210). -/
structure Kid where
  bit : Nat
  acked : Bool
  orphan : Bool
  resends : Nat
  uid : Nat
  sentAt : Nat
  report : Bool
  deriving DecidableEq, Repr

/-- A result being broadcast (R208 to R210): the fate of the root's own packet while it is open (R200), and the copies sent to orphans of
another unit, with those acknowledged. -/
structure Bcast where
  epoch : Nat
  fate : Option Nat
  extra : List (Nat × Bool)
  r : Rec
  kids : List Kid
  sentAt : Nat
  reached : Nat
  orphans : List Nat
  reported : Bool
  deriving DecidableEq, Repr

/-- One slot (R180, R218). -/
structure Slot where
  entry : Option Entry
  opens : List Open
  /-- latest epoch the slot has opened, last applied -/
  latest : Option Nat
  applied : Option Nat
  /-- the source counter at the stream's last cuts, newest first, by epoch (R185) -/
  ctrLog : List (Nat × Nat)
  /-- memberships of the last four epochs published, newest first -/
  members : List (Nat × Nat)
  /-- of the same epochs, the entries of the adoption table whose bit was set in their parent's packet (R203) -/
  carried : List (Nat × List Nat)
  lateEpoch : Option Nat
  dropBelow : List Nat
  result : Option Rec
  /-- the last four broadcasts, newest first -/
  bcasts : List Bcast
  /-- the half written by SLOT_POST_LO -/
  postLo : Nat
  deriving DecidableEq, Repr

/-- Convoy work that waits for class W1 (R401, R403). -/
inductive ConvoyWork where
  | packet (port : Nat) (r : Rec)
  | publish (stream epoch : Nat) (forced : Bool)
  | forward (port : Nat) (r : Rec)
  deriving DecidableEq, Repr

/-- A span of summarise-down records of one source, stream, type and block (R213, R214). -/
structure Span where
  source : Nat
  stream : Nat
  type : Nat
  block : Nat
  first : Nat
  last : Nat
  recs : List Rec
  e0 : Int
  deriving DecidableEq, Repr

structure ConvoySt where
  plan : Option Plan
  pending : Option Plan
  /-- the plan held before the one in force (R181) -/
  prev : Option Plan
  /-- slots by stream, in slot order -/
  slots : List (Nat × Slot)
  /-- entries of the plan in force, of the plan before it and of the pending plan -/
  adopts : List Adopt
  /-- streams whose packets go to the alternate parent; true: they return at the next epoch boundary (R201, R205) -/
  onAlt : List (Nat × Bool)
  work : List ConvoyWork
  /-- packets that came during a hold for epochs not open then (R179) -/
  heldBack : List (Nat × Rec)
  /-- the result store of a Selvo-L (R186); an unlisted address reads as 0 -/
  store : List Host.Cell
  /-- what the last accepted plan part says outside its streams: neighbours per port, membership, keeper, escalation stream -/
  neigh : List (Nat × Nat)
  group : Nat
  tray : Nat
  packages : List Nat
  keeper : Bool
  escStream : Nat
  sdActive : Bool
  sdQuiet : Nat
  sdRaised : Nat
  /-- the local clock at the start of the window of R212, and the cycles in it without credit -/
  sdAt : Nat
  sdNone : Nat
  spans : List Span
  sdMusters : Nat
  /-- the last value of each item of the closed spans, by source, stream, type, block and item (R214) -/
  sdPrev : List (Nat × Nat × Nat × Nat × Nat × Nat)
  deriving DecidableEq, Repr

/-! ### Power, the drover and thermal models (chapter 15) -/

/-- One power domain (R389 to R392): state 0 Run, 1 Drowse, 2 Retain, 3 Off. -/
structure Dom where
  st : Nat
  /-- hand-shake under way: target state -/
  moving : Option Nat
  /-- levels of pwr_req and pwr_ack (R96) -/
  req : Bool
  ack : Bool
  /-- a further move waits for both to be 0 -/
  thenTo : Option Nat
  /-- the exit self-test runs -/
  testing : Bool
  /-- rule numbers of hardware votes held -/
  hw : List Nat
  /-- tap islands whose vote is held on this domain -/
  tapVotes : List Nat
  linkVote : Bool
  /-- local clock of the last moment a vote was held -/
  voteAt : Nat
  /-- local clock at which the wake began -/
  wakeAt : Nat
  reqAt : Nat
  alarmed : Bool
  deriving DecidableEq, Repr

structure PowerSt where
  doms : List (Nat × Dom)
  dbg : Bool
  deriving DecidableEq, Repr

/-- The running least-squares window of one thermal model, in binary64 patterns (R411, R413). -/
structure Therm where
  valid : Bool
  a1 : Nat
  a2 : Nat
  b1 : Nat
  b2 : Nat
  c : Nat
  tPrev : Nat
  tPrev2 : Nat
  pPrev : Nat
  pPrev2 : Nat
  samples : Nat
  window : Bool
  ticks : Nat
  /-- parameters and covariance of the estimator in the open window -/
  th : List Nat
  cov : List (List Nat)
  resid2 : Nat
  residN : Nat
  /-- ticks left in which a step may open a window after a command boundary -/
  boundary : Nat
  /-- THM_CFG as the last tick took it -/
  cfg : Nat
  unavailable : Bool
  deriving DecidableEq, Repr

structure DroverSt where
  grant : Nat
  /-- bucket levels of W1 to W6 in units of 10^-6 nJ -/
  levels : List Int
  /-- DRV_BURST of W1 to W6 as the last tick took it (R407) -/
  bursts : List Nat
  /-- charged nJ below one uJ per class, and spilled below one uJ -/
  charged : List Nat
  spill : Nat
  /-- emergency state 0 Normal, 1 Constrained, 2 Emergency; causes present; local clock since the causes are absent -/
  emerg : Nat
  cause : Nat
  /-- level of pwr_emerg: 0 Normal, 1 Constrained, 2 Emergency -/
  pin : Nat
  clearAt : Nat
  refillMw : Nat
  models : List Therm
  deriving DecidableEq, Repr

/-! ### Identity and authority (chapter 20) -/

/-- One key slot: 0 blank, 1 armed, 2 revoked (R511), with the 96 bytes of its key. -/
structure KeySlot where
  st : Nat
  key : List Byte
  deriving DecidableEq, Repr

/-- One entry of the OTP change log (Table 20-2). -/
structure OtpLog where
  kind : Nat
  slot : Nat
  void : Bool
  count : Nat
  value : Nat
  hours : Nat
  cycles : Nat
  deriving DecidableEq, Repr

/-- What the one-time-programmable fuses hold (Table 20-1). -/
structure OtpSt where
  fa : Option (List Byte)
  identity : Option Nat
  idWrites : Nat
  model : List KeySlot
  trace : List KeySlot
  floor : Nat
  rollback : Nat
  changes : Nat
  log : List OtpLog
  deriving DecidableEq, Repr

/-- A change queued for the OTP writer (R506). `asker` is the command slot that waits for a signed one, 64 for none. -/
structure Change where
  kind : Nat
  slot : Nat
  value : Nat
  key : List Byte
  expected : Nat
  serialLo : Nat
  signed : Bool
  asker : Nat
  deriving DecidableEq, Repr

structure AuthSt where
  otp : OtpSt
  queue : List Change
  /-- the front change is being programmed (R506) -/
  busy : Bool
  /-- the privacy floor in force (R512) -/
  floorNow : Nat
  /-- an identity awaiting the epoch boundary (R24) -/
  pendId : Option Nat
  /-- the source ID in effect (R23) -/
  srcId : Nat
  deriving DecidableEq, Repr
/-! ### Silent error checking (chapter 11) -/

/-- The last mark of an engine (R318, R326): its epoch and the local clock. -/
structure Mark where
  engine : Nat
  epoch : Nat
  at_ : Nat
  deriving DecidableEq, Repr

/-- A pattern run that is open (R335). -/
structure PatRun where
  checks : Nat
  fails : Nat
  startStamp : Nat
  startAt : Nat
  deriving DecidableEq, Repr

/-- One place of Selvo-T's pattern staging (R333): 0 empty, 1 loading, 2 verified, 3 refused. -/
structure PatPlace where
  st : Nat
  reason : Nat
  data : List Byte
  verifying : Bool
  /-- the rest of a refused package is discarded -/
  skip : Bool
  /-- an uncorrectable word stands in the place -/
  bad : Bool
  deriving DecidableEq, Repr

/-- A record that waits in the ingress buffer of a port, with the credits that it withholds, and since when (R224, R286, R333, R361). -/
structure InWait where
  port : Nat
  credits : Nat
  since : Nat
  r : Rec
  deriving DecidableEq, Repr

structure AbftSt where
  marks : List Mark
  /-- earliest stamp of a mark of each of the last 64 epochs -/
  stamps : List (Nat × Nat)
  /-- cells with passes and with fails (R324); fails entered in no cell -/
  passes : List (Nat × Nat)
  fails : List (Nat × Nat)
  unbinnedFails : Nat
  tainted : Bool
  /-- notices sent and not yet acknowledged: port, name, local clock (R328) -/
  sent : List (Nat × Nat × Nat)
  /-- the last notices received, newest first: die, REVISED, C, U, sequence (R330) -/
  log : List (List Nat)
  run : Option PatRun
  /-- the offer that stands: its number and stamp (R334) -/
  offer : Option (Nat × Nat)
  offers : Nat
  places : List PatPlace
  /-- pattern chunks that wait for class W6, oldest first -/
  chunks : List InWait
  deriving DecidableEq, Repr

def PatPlace.empty : PatPlace := { st := 0, reason := 0, data := [], verifying := false, skip := false, bad := false }

def AbftSt.reset : AbftSt :=
  { marks := [], stamps := [], passes := [], fails := [], unbinnedFails := 0, tainted := false, sent := [], log := [], run := none, offer := none,
    offers := 0, places := List.replicate 4 PatPlace.empty, chunks := [] }


/-! ### The residue codec (chapter 13) -/

/-- One context (R374, R375): the raw first block of the latest record, its shape, and how many records follow the last KEY block. -/
structure CdcCtx where
  source : Nat
  stream : Nat
  type : Nat
  seq : Nat
  raw : List Byte
  pre : Nat
  k : Nat
  r : Nat
  w : Nat
  /-- compression: records since and with the last KEY block; the next block is a KEY block -/
  since : Nat
  key : Bool
  deriving DecidableEq, Repr

structure CodecSt where
  /-- contexts, most recently used first -/
  comp : List CdcCtx
  dec : List CdcCtx
  deriving DecidableEq, Repr

def CodecSt.reset : CodecSt := { comp := [], dec := [] }

/-! ### Feature programs (chapter 8) -/

/-- One bank: instructions, statistic descriptors and constants that are not 0, by index. -/
structure FeatBank where
  instrs : List (Nat × Nat)
  stats : List (Nat × Nat)
  consts : List (Nat × Nat)
  deriving DecidableEq, Repr

/-- The history of one instruction (R258, R261, R262): fresh, EWMA state, window entries newest first, A at the last committed pass. -/
structure FeatHist where
  fresh : Bool
  ewma : Option Nat
  win : List Nat
  lastA : Nat
  deriving DecidableEq, Repr

/-- A pass that runs: its muster, the statistics of step 2 (binary64) and the epochs they used, flags. -/
structure FeatPass where
  num : Nat
  stats : List (Nat × Nat)
  epochs : List (Nat × Nat)
  statNan : Bool
  statPartial : Bool
  /-- SNS_CFG.KIND of each sensor at step 2 -/
  kinds : List Nat
  grantAt : Nat
  deriving DecidableEq, Repr

structure FeatSt where
  active : FeatBank
  len : Nat
  shadow : FeatBank
  /-- the word of FEAT_LOAD_LO that FEAT_LOAD_HI will take -/
  lo : Nat
  loaded : Bool
  bank : Bool
  copying : Bool
  validating : Bool
  /-- a swap accepted: the muster number it applies from -/
  swap : Option Nat
  reject : Nat
  abandon : Nat
  hist : List (Nat × FeatHist)
  /-- committed features, binary32, and the muster of that pass -/
  vals : List Nat
  lastNum : Nat
  lastT : Nat
  lastCtrs : List (Nat × Nat)
  committed : Bool
  /-- a held cut was released since the last committed pass -/
  afterHold : Bool
  /-- the image of this muster awaits its pass; the drover has refused it once -/
  await : Option Nat
  denied : Bool
  run : Option FeatPass
  /-- streams whose stored result holds an uncorrectable word: NaN for one pass (R331, Table 11-5) -/
  badStats : List Nat
  deriving DecidableEq, Repr

def FeatBank.empty : FeatBank := { instrs := [], stats := [], consts := [] }

def FeatSt.reset : FeatSt :=
  { active := FeatBank.empty, len := 0, shadow := FeatBank.empty, lo := 0, loaded := false, bank := false, copying := false,
    validating := false, swap := none, reject := 0, abandon := 0, hist := [], vals := [], lastNum := 0, lastT := 0, lastCtrs := [],
    committed := false, afterHold := false, await := none, denied := false, run := none, badStats := [] }


/-! ### Firmware (chapter 18) -/

/-- An image region: its state 0 EMPTY, 1 STAGED, 2 ACTIVE, 3 RETIRED, 4 FAILED, 5 TRIAL, its boot attempt counter, and its bytes; flash
that is not listed reads 0xFF (R471). -/
structure Region where
  st : Nat
  attempt : Nat
  mem : List Host.Cell
  deriving DecidableEq, Repr

structure FwSt where
  /-- the data store; a byte that is not listed reads 0 (R478) -/
  data : List Host.Cell
  /-- regions A and B of the boot device, then of the second device -/
  regions : List Region
  /-- xSPI devices present: [0] the boot device, [1] the second -/
  devs : Nat
  /-- 0 ROM, 1 running, 2 recovery (Table 18-8) -/
  st : Nat
  /-- the region that runs, as in `regions` -/
  region : Nat
  handCold : Bool
  /-- the remap or image copy on the second device is current (Table 18-9) -/
  copyOk : Bool
  /-- commands taken and not completed: (opcode, slot) -/
  busy : List (Nat × Nat)
  /-- names of the last chunks that a BULK_SEND waits for -/
  bulk : List Nat
  /-- local clock at which the deferral of an IMG_ACTIVATE began (R484) -/
  defer : Option Nat
  /-- local clock at which the blackout began (R483) -/
  blackout : Option Nat
  /-- hand-off block version that the old image wrote -/
  handVer : Nat
  /-- bulk chunks that wait for the end of a blackout: port, record, and whether its fate waits with it -/
  held : List (Nat × Rec × Bool)
  /-- local clock of the last tick, and of the start of the running image -/
  tickAt : Nat
  startAt : Nat
  /-- fleet time of the last heartbeat or of power-on, and whether one has come; interrupt bit 1 has been set for this wait (R486) -/
  hbAt : Nat
  hbSeen : Bool
  hbLate : Bool
  /-- fleet time at which the present unattended interval began -/
  uaAt : Nat
  deriving DecidableEq, Repr

def Region.blank : Region := { st := 0, attempt := 0, mem := [] }

def FwSt.reset : FwSt :=
  { data := [], regions := List.replicate 4 Region.blank, devs := 1, st := 0, region := 0, handCold := false, copyOk := false, busy := [], bulk := [],
    defer := none, blackout := none, handVer := 0, held := [], tickAt := 0, startAt := 0, hbAt := 0, hbSeen := false, hbLate := false, uaAt := 0 }

/-! ### Self-test and repair (chapter 21) -/

/-- A row remapped to a spare of its group: memory kind, instance, bank, row, spare (R524). -/
structure Remap where
  kind : Nat
  inst : Nat
  bank : Nat
  row : Nat
  spare : Nat
  deriving DecidableEq, Repr

structure RepSt where
  remaps : List Remap
  /-- banks that stop taking contents and are retired when they empty (R527): kind, instance, bank -/
  marked : List (Nat × Nat × Nat)
  retired : List (Nat × Nat × Nat)
  /-- Selvo-T: the remap record in flash, and the remaps that wait to be written there (R526) -/
  record : List Remap
  toFlash : List Remap
  /-- local clock of the last patrol -/
  patrolAt : Nat
  deriving DecidableEq, Repr

def RepSt.reset : RepSt := { remaps := [], marked := [], retired := [], record := [], toFlash := [], patrolAt := 0 }

/-! ### Wait-for graphs (chapter 14) -/

/-- The wait state of an engine, or an entry of a snapshot or graph (Table 14-1): die, engine, kind, target, landing stamp. -/
structure WsEnt where
  die : Nat
  engine : Nat
  kind : Nat
  target : Nat
  stamp : Nat
  deriving DecidableEq, Repr

/-- A snapshot asked for: its number, T_s, and whether the first latch is done (R381). -/
structure Snap where
  num : Nat
  ts : Nat
  /-- the quality code that applied at T_s (R59) -/
  code : Nat
  second : Bool
  deriving DecidableEq, Repr

/-- One package assembly at a Selvo-H (R382, R383). -/
structure PkgAsm where
  num : Nat
  ts : Nat
  /-- the quality code that applied at T_s (R59) -/
  code : Nat
  suspect : Bool
  tray : Bool
  /-- slots that were asked; dies whose first and second records came; their entries -/
  asked : List Nat
  first : List Nat
  second : List Nat
  ents1 : List WsEnt
  ents2 : List WsEnt
  /-- local clock of the second latch -/
  doneAt : Option Nat
  deriving DecidableEq, Repr

/-- One tray merge at a Selvo-T (R384, R385). -/
structure TrayMerge where
  num : Nat
  need : List Nat
  ents : List WsEnt
  /-- packages that reported their own cycles -/
  local_ : List Nat
  openedAt : Nat
  deriving DecidableEq, Repr

structure HangSt where
  /-- engines not of kind 0, ascending -/
  ws : List WsEnt
  /-- per engine, the readings its crossing has presented and those among them that the core did not see (R86) -/
  wsCounts : List (Nat × Nat × Nat)
  /-- the progress counters as last seen advancing: (counter, value), and the local clock of that moment (R380) -/
  prog : List (Nat × Nat)
  progAt : Nat
  suspect : Bool
  snap : Option Snap
  snapNum : Nat
  /-- a suspect, and a tray request (number, T_s), that wait for an assembly -/
  pendSuspect : Bool
  pendTray : Option (Nat × Nat)
  asm : Option PkgAsm
  merge : Option TrayMerge
  deriving DecidableEq, Repr

def HangSt.reset : HangSt :=
  { ws := [], wsCounts := [], prog := [], progAt := 0, suspect := false, snap := none, snapNum := 0, pendSuspect := false, pendTray := none, asm := none, merge := none }


/-! ### Publication (chapter 17) -/

/-- A record in the publication store (R453): its fate's name, whose share it is, its context, and the sessions (entry numbers) that have
still to take it. -/
structure PubItem where
  uid : Nat
  r : Rec
  /-- the partner's share, held as a mirror copy -/
  mirror : Bool
  takeover : Bool
  /-- entries that take it and have not acknowledged it -/
  need : List Nat
  deriving DecidableEq, Repr

/-- A datagram sent and not acknowledged: its DSEQ, the names of the records (one, for a fragment), and its bytes of header flags. -/
structure Dgram where
  dseq : Nat
  uids : List Nat
  flags : Nat
  /-- first byte of the fragment within the record, and how many bytes; 0 for whole records -/
  off : Nat
  len : Nat
  deriving DecidableEq, Repr

/-- One collector entry's session (R461 to R463): state 0 closed, 1 opening, 2 open, 3 dead. -/
structure Session where
  st : Nat
  id : Nat
  port : Nat
  next : Nat
  ack : Nat
  out : List Dgram
  rto : Nat
  /-- local clock of the last advance or sending that the RTO runs from, of the last advance, of the last OPEN -/
  rtoAt : Nat
  advAt : Nat
  openAt : Nat
  resends : Nat
  /-- uids of records not yet put in a datagram of this session -/
  todo : List Nat
  /-- receiving side of a peer session: its ID, and the highest DSEQ at or below which everything came -/
  peerId : Nat
  peerAck : Nat
  /-- bytes of the record at the head of `todo` that its fragments have carried so far -/
  fragOff : Nat
  /-- datagrams in flight that COL_INFLIGHT, lost since, does not count (Table 15-5) -/
  uncounted : Nat
  deriving DecidableEq, Repr

/-- A context (R454): source, stream, first-held sequence, cursor, and sequences acknowledged beyond the cursor. -/
structure PubCtx where
  source : Nat
  stream : Nat
  f : Nat
  /-- the cursor; f - 1 while nothing has been acknowledged -/
  c : Nat
  held : List Nat
  /-- to be told in the next CURSOR -/
  changed : Bool
  deriving DecidableEq, Repr

/-- What an Ethernet port last sent: kind (1 DATA, 2 ACK, 3 OPEN, 4 OPEN_OK, 5 CLOSE, 8 neighbour advertisement, 9 echo reply, 12 PTP
Delay_Req), port, collector entry, the priority, DSCP and tag it leaves at, for a datagram the UDP ports and the collector's address, and the
payload (R458 to R460). -/
structure EthOut where
  kind : Nat
  port : Nat
  entry : Nat
  pcp : Nat
  dscp : Nat
  vlan : Option Nat
  udpSrc : Nat
  udpDst : Nat
  dst : Nat
  payload : List Byte
  deriving DecidableEq, Repr

structure PubSt where
  store : List PubItem
  sess : List Session
  ctxs : List PubCtx
  /-- contexts of the returning share that are still published here (R457) -/
  back : List PubCtx
  /-- per stream, the stamp of the last record that the pair is known to have published: the mirrored cursor as R66 needs it -/
  last : List (Nat × Nat)
  /-- session IDs given so far: a Sticky counter (R461) -/
  sessions : Nat
  takeover : Bool
  handback : Bool
  lost : Bool
  split : Bool
  /-- local clock of the last CURSOR received, of the last full and the last CURSOR sent, of the moment both pair lanes went down -/
  cursorAt : Nat
  fullAt : Nat
  curAt : Nat
  downAt : Option Nat
  sent : Option EthOut
  /-- credits withheld until a record has room: (uid, port, class, credits) -/
  owed : List (Nat × Nat × Nat × Nat)
  /-- local clock since which credits are withheld for want of room -/
  fullSince : Option Nat
  ethUp : List Bool
  dadFail : List Bool
  /-- addresses resolved: Ethernet port, IPv6 address, MAC address (R458) -/
  nbrs : List (Nat × Nat × Nat)
  deriving DecidableEq, Repr

def Session.reset : Session :=
  { st := 0, id := 0, port := 0, next := 0, ack := 0, out := [], rto := 0, rtoAt := 0, advAt := 0, openAt := 0, resends := 0, todo := [], peerId := 0,
    peerAck := 0, fragOff := 0, uncounted := 0 }

def PubSt.reset : PubSt :=
  { store := [], sess := List.replicate 8 Session.reset, ctxs := [], back := [], last := [], sessions := 0, takeover := false, handback := false, lost := false,
    split := false, cursorAt := 0, fullAt := 0, curAt := 0, downAt := none, sent := none, owed := [], fullSince := none, ethUp := [false, false], dadFail := [false, false], nbrs := [] }

/-! ### Ownership and context trace (chapter 12) -/

/-- A trace-source item: class, privilege, context class and value (R338). -/
structure TItem where
  cls : Nat
  priv : Nat
  ctx : Nat
  data : Nat
  deriving DecidableEq, Repr

/-- One block of the trace buffer (R353, Table 12-9). -/
structure TBlock where
  idx : Nat
  seq : Nat
  items : Nat
  plaram : Bool
  window : Bool
  trigger : Bool
  drained : Bool
  closed : Bool
  /-- record stamps of its first and last packet -/
  first : Nat
  last : Nat
  anchor : List Byte
  data : List Byte
  /-- local clock of its first packet -/
  openAt : Nat
  deriving DecidableEq, Repr

/-- A trigger window (R357): 1 open, 2 closed and held; the first and last block by sequence and by number. -/
structure TWin where
  st : Nat
  first : Nat
  last : Nat
  firstIdx : Nat
  lastIdx : Nat
  short : Bool
  clipped : Bool
  num : Nat
  stamp : Nat
  /-- bytes still to be written after the marker -/
  post : Nat
  deriving DecidableEq, Repr

/-- A held token (R341, R343): 0 before its window, 1 active, 2 suspended. -/
structure Token where
  id : Nat
  key : Nat
  scope : Nat
  priv : Nat
  cls : Nat
  notBefore : Nat
  notAfter : Nat
  st : Nat
  deriving DecidableEq, Repr

structure TraceSt where
  running : Bool
  plaram : Bool
  mode : Nat
  stopped : Bool
  summary : Bool
  held : Bool
  /-- the encoder state: time base, and per class context class, privilege and data (R347) -/
  tbase : Nat
  bases : List (Nat × Nat × Nat)
  /-- when the open excluded interval began (R340) -/
  excl : Option Nat
  /-- blocks held, newest first -/
  blocks : List TBlock
  lastIdx : Nat
  /-- sequence of the next block (Sticky) -/
  nextSeq : Nat
  /-- items per class since a stop, in summary mode or in a hold; and those the crossing lost -/
  gap : List Nat
  lost : List Nat
  /-- time and code of the last packet written -/
  lastT : Nat
  lastCode : Nat
  trigNum : Nat
  wins : List (Option TWin)
  tokens : List (Nat × Token)
  /-- a token being loaded, or being verified -/
  load : Option (List Byte)
  verify : Option (List Byte)
  reason : Nat
  /-- bytes of packets since the last PSYNC, its local clock, and whether 128 s have passed (R352) -/
  sinceSync : Nat
  syncAt : Nat
  psyncDue : Bool
  /-- undrained blocks lost, the items of their headers, a header unreadable, the last drained stamp (R359, R365) -/
  gapBlocks : Nat
  gapItems : Nat
  gapUnknown : Bool
  drainedT : Nat
  /-- blocks up to this sequence have been passed over in unattended mode (R360) -/
  skipSeq : Nat
  /-- items in the crossing FIFO while TRACE wakes -/
  fifo : List TItem
  /-- items per class while TRACE is Off, and since when -/
  offCounts : List Nat
  offAt : Nat
  /-- records that wait for the aggregation store (R361) -/
  agg : List InWait
  deriving DecidableEq, Repr

def TraceSt.reset : TraceSt :=
  { running := false, plaram := false, mode := 1, stopped := false, summary := false, held := false, tbase := 0,
    bases := List.replicate 5 (0, 0, 0), excl := none, blocks := [], lastIdx := 127, nextSeq := 0, gap := List.replicate 5 0,
    lost := List.replicate 5 0, lastT := 0, lastCode := 4, trigNum := 0, wins := List.replicate 4 none, tokens := [], load := none,
    verify := none, reason := 0, sinceSync := 0, syncAt := 0, psyncDue := false, gapBlocks := 0, gapItems := 0, gapUnknown := false,
    drainedT := 0, skipSeq := 0, fifo := [], offCounts := List.replicate 5 0, offAt := 0, agg := [] }


/-! ### Trees (chapter 9) -/

/-- A model (R276, Table 9-8): base scores and leaves are binary32 patterns; each tree has its nodes in heap order, then its leaves. -/
structure TModel where
  id : Nat
  ver : Nat
  depth : Nat
  link : Nat
  cls : Nat
  bases : List Nat
  trees : List (List Nat × List Nat)
  deriving DecidableEq, Repr

/-- One model slot (R276, R289, R290). -/
structure TSlot where
  force : Option TModel
  /-- models that were replaced, newest first, each with the first muster it serves and the swap muster from which it no longer does -/
  olds : List (TModel × Nat × Nat)
  /-- the first muster the model in force serves -/
  since : Nat
  staged : Option TModel
  stagedS : Nat
  loading : Bool
  damaged : Bool
  deriving DecidableEq, Repr

/-- A sample (R278), with what the outrider needs of its muster (R298, R303, R304). -/
structure Sample where
  slot : Nat
  num : Nat
  source : Nat
  self : Bool
  stream : Nat
  feats : List Nat
  statNan : Bool
  disc : Bool
  held : Bool
  excused : Bool
  therm : Bool
  deriving DecidableEq, Repr

/-- A package in progress (R286 to R288). -/
structure TLoad where
  chunks : Bool
  slot : Nat
  data : List Byte
  checked : Bool
  noRoom : Bool
  nodeUse : Nat
  leafUse : Nat
  verifying : Bool
  deriving DecidableEq, Repr

structure TreeSt where
  slots : List TSlot
  /-- self samples that wait, one per slot at most -/
  wait : List Sample
  /-- samples in the sample buffers, in admission order, each with its model -/
  queue : List (Sample × TModel)
  /-- record samples that wait for TREE to reach Run (R293) -/
  waitRun : List Sample
  load : Option TLoad
  reason : Nat
  /-- the words of a register load, or the chunks of a package, that was refused and is discarded -/
  regSkip : Bool
  chunkSkip : Bool
  /-- chunks that wait for class W6, oldest first -/
  chunks : List InWait
  deriving DecidableEq, Repr

def TSlot.empty : TSlot :=
  { force := none, olds := [], since := 0, staged := none, stagedS := 0, loading := false, damaged := false }

def TreeSt.reset : TreeSt :=
  { slots := List.replicate 4 TSlot.empty, wait := [], queue := [], waitRun := [], load := none, reason := 0, regSkip := false,
    chunkSkip := false, chunks := [] }

/-! ### The outrider (chapter 10) -/

/-- One rule at one die (R301, R302): the window, newest first, where none marks an excused muster; the class it holds raised (0, 2, 3
or 4); consecutive present scores below CLEAR. -/
structure RuleSt where
  win : List (Option Nat)
  held : Nat
  clr : Nat
  deriving DecidableEq, Repr

/-- One entry of the die table (R296, R300). -/
structure DieEnt where
  id : Nat
  cls : Nat
  since : Nat
  rule : Nat
  st : List RuleSt
  score : Option Nat
  /-- muster of the last scoring, and of the last present score -/
  num : Nat
  last : Nat
  scored : Bool
  /-- musters in Thermal-known so far, 0 when it is not; the rule; the muster the cause was last seen -/
  tk : Nat
  tkRule : Nat
  cause : Option Nat
  chronic : Bool
  /-- rank and reason while Deferred -/
  defer : Option (Nat × Nat)
  /-- the class last escalated (0 none), and the muster of that request -/
  esc : Nat
  escAt : Nat
  byRec : Bool
  deriving DecidableEq, Repr

/-- A tree result on its way to the outrider. -/
structure OutRes where
  sample : Sample
  outs : List Nat
  poison : Bool
  /-- the last cut when it arrived -/
  cutAt : Nat
  deriving DecidableEq, Repr

/-- One entry of the keeper's lists (R310, R313). -/
structure DefEnt where
  id : Nat
  cls : Nat
  score : Nat
  chronic : Bool
  since : Nat
  /-- the keeper's last cut when it was last restated -/
  seen : Nat
  rank : Nat
  reason : Nat
  deriving DecidableEq, Repr

/-- An admission (R315, R316): 0 idle, 1 testing, 2 READY, 3 FAILED. -/
structure Admit where
  st : Nat
  slot : Nat
  test : Nat
  /-- MASK bits 5 and 6, and the tree slots -/
  mask : Nat
  trees : Nat
  startAt : Nat
  epoch : Nat
  /-- test 3: census rounds of each class of the leaf link that matched, one after another -/
  rounds : List Nat
  deriving DecidableEq, Repr

structure OutSt where
  results : List OutRes
  dies : List (Nat × DieEnt)
  /-- the rules as the last cut took them: CFG, LO, HI, PERSIST -/
  rules : List (List Nat)
  bad : Nat
  /-- the latches of the unit's own die: Suspect-SDC, and Conditional with its bins (R302) -/
  sdc : Bool
  cond : Option Nat
  deferred : List DefEnt
  advised : List DefEnt
  /-- the budget in units of 2^-32 µtok, and the fleet time of that level -/
  level : Nat
  levelAt : Nat
  /-- number of the next step boundary -/
  steps : Nat
  spent : Nat
  admission : Admit
  deriving DecidableEq, Repr

def DieEnt.fresh (id n : Nat) : DieEnt :=
  { id := id, cls := 0, since := n, rule := 0, st := List.replicate 16 ⟨[], 0, 0⟩, score := none, num := n, last := n, scored := false, tk := 0, tkRule := 0,
    cause := none, chronic := false, defer := none, esc := 0, escAt := 0, byRec := false }

def Admit.idle : Admit := { st := 0, slot := 0, test := 0, mask := 0, trees := 0, startAt := 0, epoch := 0, rounds := [] }

def OutSt.reset : OutSt :=
  { results := [], dies := [(0, DieEnt.fresh 0x7FFFFF 0)], rules := [], bad := 0, sdc := false, cond := none, deferred := [], advised := [], level := 0,
    levelAt := 0, steps := 0, spent := 0, admission := Admit.idle }

/-! ### The whole state -/

structure State where
  /-- commands that wait, first in first out -/
  pending : List Instr
  build : Build
  /-- values set when the part is built: (register address, value) -/
  bs : List (Nat × Nat)
  /-- the register file: (key, word xor reset value), keys strictly rising, no zero difference -/
  regs : List (Nat × Word)
  core : CoreSt
  time : TimeSt
  pulse : PulseSt
  ev : EvSt
  link : LinkSt
  tally : TallySt
  coal : CoalSt
  samp : SampSt
  muster : MusterSt
  convoy : ConvoySt
  feat : FeatSt
  tree : TreeSt
  out : OutSt
  trace : TraceSt
  abft : AbftSt
  codec : CodecSt
  hang : HangSt
  pub : PubSt
  power : PowerSt
  drover : DroverSt
  auth : AuthSt
  fw : FwSt
  rep : RepSt
  /-- the model's own: how many free values have been drawn -/
  free : Nat
  deriving DecidableEq, Repr

/-! ### Reset -/

/-- How many Selvo link ports a build has (R69, R244). -/
def linkPorts : Build → Nat
  | .l => 1
  | .h => 64
  | .t => 18

/-- Ports that have egress shapers: the link ports, and the Ethernet ports 18 and 19 of a Selvo-T (R244, R459). -/
def egressPorts (b : Build) : Nat := linkPorts b + (if b = .t then 2 else 0)

/-- The kind of a Selvo link port: 0 leaf link, 1 fabric lane, 2 Ralud lane, 3 pair lane (R244). -/
def portKind (b : Build) (p : Nat) : Nat :=
  match b with
  | .l => 0
  | .h => if p < 36 then 1 else if p < 40 then 2 else 0
  | .t => if p < 16 then 2 else 3

/-- Default class totals T_c by link kind (Table 7-4). -/
def defaultT (kind c : Nat) : Nat :=
  let l := if kind = 0 then [4, 36, 8, 8, 8, 40, 16, 8] else [16, 144, 16, 32, 32, 160, 64, 48]
  l.getD c 0

/-- Credits B of a port (Table 7-3). -/
def portB (kind : Nat) : Nat := if kind = 0 then 128 else 512

/-- Line rate of a port in 0.1 Gb/s (Table 7-3). -/
def lineRate (kind : Nat) : Nat := if kind = 0 then 320 else 1000

/-- Round trip of a port in ns (Table 7-3). -/
def portRtt (kind : Nat) : Nat := if kind = 1 then 2000 else 1000

def TxRx.reset (t : Nat) : TxRx :=
  { q := [], held := [], credits := 0, farT := t, txSent := 0, txAcked := 0, rxRecv := 0, rxAcked := 0, relApplied := 0,
    ackApplied := 0, released := 0, relReported := 0, ackReported := 0, t := t, occ := 0, ready := false, quiesce := none, newT := none, newAt := 0,
    initSent := false, asm := none, badPkt := none, lastPkt := 0, replayPkt := none, tokens := 65536 * 4294967296, tokAt := 0 }

def Port.reset (kind : Nat) : Port :=
  { up := false, trained := false, training := false, quar := false, expected := false, missing := false, dupId := false,
    adopting := false, slow := false, degraded := false, farDoze := false, dozing := false, heldDown := false, disabled := false,
    joining := false, joinAt := 0, neighbour := 0x7FFFFF, answered := false, discAt := 0, released := false, cls := (List.range 8).map (fun c => TxRx.reset (defaultT kind c)),
    toll := List.replicate 3 { tc := 65536 * 4294967296, tp := 65536 * 4294967296, lastAt := 0 },
    rate := lineRate kind, rateMaxSent := 0, banks := portB kind / 64, buf := portB kind, reinit := false, refused := false, initAcked := false,
    laneTokens := 65536 * 4294967296, laneAt := 0, census := none, censusNum := 0, censusNext := 0, censusAt := 0,
    lastCtlAt := 0, lastReportAt := 0, tx := none, ctl := none, echo := none, rxAt := 0, upSince := 0, retrains := [], uncorrAt := [],
    everTrained := false, trainCount := 0, wakeSeq := none, step := 0 }

def Exch.reset : Exch :=
  { txNum := 0, t1 := 0, rxNum := 0, t2 := 0, t3 := 0, awaiting := false, repliedNum := none, acq := [], acquiring := false,
    locked := false, good := 0, misses := 0, offset := 0, delay := 0, code := 4, refFault := false, hops := 0, holdover := 0,
    lastAt := 0, resAt := 0, replyAt := 0, probeAt := 0, suspect := false, training := 0, xchkAt := none }

def PtpPort.reset : PtpPort :=
  { masters := [], good := 0, locked := false, offset := 0, delay := 0, t1 := 0, t2 := 0, intervalOk := false, corr := 0, twoStep := none,
    reqSeq := 0, t3 := none }

/-- The nominal addend: 1.25 ns in units of 2^-64 s (R104). -/
def nominalAddend : Nat := 0x55E63B88C

def CoreSt.reset : CoreSt :=
  { por := true, porCause := 0, warm := false, straps := 0, rspPort := ⟨0, false⟩, rspPcie := ⟨0, false⟩, rspSmb := ⟨0, false⟩,
    wait := [], latches := [], qscReq := [], qscAt := [], qscDrained := [], inReset := [], tapStopped := [], tapSums := [], tapItems := [], tapLost := [],
    discIslands := [], noticeCtrs := [],
    smbHeld := 0, smbAck := true, peerLow := false, strapAlarmed := false, thermLowIn := false, pwrEmergLow := false,
    thermDrive := false, present := false, jtag := 0, pcieReset := false, msix := [0, 0, 0, 0], bar2 := ⟨0, false⟩, tachFault := [], coolStale := false, coolForced := false, coolWas := [], unattended := true }

def TimeSt.reset (b : Build) : TimeSt :=
  { acc := 0, addend := nominalAddend, cycles := 0, code := 4, refFault := false, parent := none, rho := 0, holdUntil := none, left0 := none,
    groupRoot := false, podParent := none, podAlt := none, exch := List.replicate (linkPorts b) Exch.reset,
    ptp := List.replicate 2 PtpPort.reset, ptpSel := 0, anchored := [] }

/-- How many pulse generators a build has (R128). -/
def pulseGens : Build → Nat
  | .l => 0
  | .h => 4
  | .t => 8

def Pulse.reset : Pulse :=
  { running := false, start := 0, period := 0, width := 0, pol := false, qgate := 4, k := 0, activeUntil := none, clipped := false,
    gated := false, missed := 0, nextPol := none, stopping := false }

def PulseSt.reset (b : Build) : PulseSt :=
  { gens := List.replicate (pulseGens b) Pulse.reset,
    caps := match b with
      | .t => List.replicate 4 { fifo := [], lastAt := none }
      | _ => [] }

def EvSt.reset : EvSt :=
  { store := [], nextId := 0, seq := 0, lost := 0, lostStamp := 0, buckets := [], suppr := [], hours := 0, pcycles := 0, flashQ := [],
    ring := [], ringSector := 0, ringSlot := 0, ringLap := 0 }

def LinkSt.reset (b : Build) : LinkSt :=
  { ports := (List.range (egressPorts b)).map (fun p => Port.reset (portKind b p)), nextUid := 0, pend := [], seqs := [],
    trayOrphan := false, admitDue := [],
    spareBanks := match b with
      | .t => 112
      | _ => 0,
    pubQ := [], paused := [[], []] }

def Sensor.reset : Sensor :=
  { value := 0, raw := 0, stale := false, fault := false, noReading := true, ranged := false, minV := 0, maxV := 0, sinceCut := 0, goodSinceCut := false,
    faultSeen := false, readings := 0, unseen := 0, goodAt := 0 }

def SampSt.reset : SampSt :=
  { ctrs := [], sensors := List.replicate 16 Sensor.reset, cmds := [], cmdNum := [], cmdIdleAt := [], cmdIdleStamp := [], opened := [], queue := [], lost := 0,
    latchGap := false, badCtrs := [], badSns := [],
    tensors := [], summ := [], cfgPend := [], gen := 0 }

def MusterSt.reset : MusterSt :=
  { gen := 0, cur := none, next := [], action := [], root := false, held := false, heldAt := 0, heldUntil := 0, heldGap := none,
    lastNum := 0, lastT := 0, lastCode := 4, anyCut := false, image := none, older := none, prevCtrs := [], emit := [], leadRaised := false,
    lateLatch := false, oneShot := false, stepped := false, lastStamp := 0, armRec := none, newRec := none }

def ConvoySt.reset : ConvoySt :=
  { plan := none, pending := none, prev := none, slots := [], adopts := [], onAlt := [], work := [], heldBack := [], store := [], neigh := [],
    group := 0, tray := 0, packages := [], keeper := false, escStream := 0, sdActive := false,
    sdQuiet := 0, sdRaised := 0, sdAt := 0, sdNone := 0, spans := [], sdMusters := 0, sdPrev := [] }

def Slot.empty : Slot :=
  { entry := none, opens := [], latest := none, applied := none, ctrLog := [], members := [], carried := [], lateEpoch := none,
    dropBelow := List.replicate 8 0, result := none, bcasts := [], postLo := 0 }

/-- The domains a build has, by index (Table 15-1, R388). -/
def domains : Build → List Nat
  | .l => [0, 1, 2, 3, 4, 6]
  | .h => [0, 1, 2, 3, 4, 5, 6, 7, 8, 9, 10, 11, 12, 13, 14]
  | .t => [0, 1, 2, 3, 5, 6, 7, 8, 9, 10]

def Dom.reset : Dom :=
  { st := 0, moving := none, req := false, ack := false, thenTo := none, testing := false, hw := [], tapVotes := [], linkVote := false, voteAt := 0, wakeAt := 0,
    reqAt := 0, alarmed := false }

def Therm.reset : Therm :=
  { valid := false, a1 := 0, a2 := 0, b1 := 0, b2 := 0, c := 0, tPrev := 0, tPrev2 := 0, pPrev := 0, pPrev2 := 0,
    samples := 0, window := false, ticks := 0, th := [], cov := [], resid2 := 0, residN := 0, boundary := 0, cfg := 0,
    unavailable := false }

def DroverSt.reset : DroverSt :=
  { grant := 0, levels := List.replicate 6 100000000000, bursts := List.replicate 6 100000, charged := List.replicate 6 0, spill := 0, emerg := 0, cause := 0, pin := 0,
    clearAt := 0, refillMw := 0, models := List.replicate 4 Therm.reset }

def OtpSt.reset : OtpSt :=
  { fa := none, identity := none, idWrites := 0, model := List.replicate 4 ⟨0, []⟩, trace := List.replicate 4 ⟨0, []⟩, floor := 0,
    rollback := 0, changes := 0, log := [] }

def AuthSt.reset : AuthSt :=
  { otp := OtpSt.reset, queue := [], busy := false, floorNow := 0, pendId := none, srcId := 0x7FFFFF }

/-- The values the model names for registers the spec calls Build-set (log entry 3). -/
def buildSet (b : Build) : List (Nat × Nat) :=
  let v : Nat := match b with
    | .l => 0
    | .h => 1
    | .t => 2
  [(0x00080, 1), (0x00084, 0), (0x00088, v + 0x200), (0x0008C, match b with | .t => 0x10000001 | _ => 0),
   (0x070B8, match b with | .l => 0 | .h => 262144 | .t => 1048576), (0x08084, 0xFFFFFFFF), (0x08088, 0x1FF),
   (0x111088, 2), (0x11108C, 0), (0x112088, 3), (0x11208C, 0), (0x113084, 0x00021BEE)]

/-- The machine of one build right after power-on reset, before its release: every register at its reset value. -/
def State.resetOf (b : Build) : State :=
  { pending := [], build := b, bs := buildSet b, regs := [], core := CoreSt.reset, time := TimeSt.reset b, pulse := PulseSt.reset b,
    ev := EvSt.reset, link := LinkSt.reset b, tally := { rows := [], ctxs := [], latched := [] }, coal := { entries := [], owed := [] },
    samp := SampSt.reset, muster := MusterSt.reset, convoy := ConvoySt.reset, feat := FeatSt.reset,
    tree := TreeSt.reset, out := OutSt.reset, trace := TraceSt.reset, abft := AbftSt.reset, codec := CodecSt.reset, hang := HangSt.reset, pub := PubSt.reset,
    power := { doms := (domains b).map (fun d => (d, Dom.reset)), dbg := false }, drover := DroverSt.reset, auth := AuthSt.reset,
    fw := FwSt.reset, rep := RepSt.reset, free := 0 }

/-- The machine right after reset. The spec describes three builds; the model starts as a Selvo-H (log entry 1). -/
def State.reset : State := State.resetOf .h

end Sys2Proof.Machine
end

