-- ==== Sys2Proof/Machine/Clock.lean ====
section
/-! DEFINITION. The clocks a meaning reads: fleet time, the quality code, record stamps and the local clock (R83, R99, R100, R105). -/

namespace Sys2Proof.Machine

/-- Fleet time as 80 bits: units of 2^-32 s (R99). -/
def State.now (s : State) : Nat := s.time.acc / 4294967296 % 2 ^ 80

/-- The quality code in force: REF_FAULT takes code 3 over every other rule (R105). -/
def State.qcode (s : State) : Nat := if s.time.refFault then 3 else s.time.code

/-- The record stamp of a time and code (Table 4-1). -/
def stampOf (t code : Nat) : Nat := t / 4294967296 % 16777216 * 1099511627776 + t % 4294967296 * 256 + code % 8

/-- The record stamp of now. -/
def State.stamp (s : State) : Nat := stampOf s.now s.qcode

/-- Time-island cycles in a number of microseconds (800 MHz, R83). -/
def cyclesOf (us : Nat) : Nat := us * 800

/-- A number of microseconds in units of 2^-32 s, rounded down. -/
def usTime (us : Nat) : Nat := us * 4294967296 / 1000000

/-- A number of nanoseconds in units of 2^-32 s, rounded down. -/
def nsTime (ns : Nat) : Nat := ns * 4294967296 / 1000000000

/-- At least so many microseconds have passed on the local clock since a moment. -/
def State.after (s : State) (since us : Nat) : Bool := decide (since + cyclesOf us ≤ s.time.cycles)

/-- The next free value, and the state with the counter advanced. -/
def State.draw (s : State) : Nat × State := (Config.freeNat s.free, { s with free := s.free + 1 })

/-- Credits of a full unit of 512 bytes (R222, R223). -/
def fullUnit : Int := 8

/-- The ports towards the unit above: the leaf port of a Selvo-L, the Ralud lanes of a Selvo-H, none of a Selvo-T, whose way up is Ethernet. -/
def upwardPorts : Build → List Nat
  | .l => [0]
  | .h => [36, 37, 38, 39]
  | .t => []

/-- The upward ports that are up hold no TC5 credit for a full packet, all of them (R212; DESIGN CHOICE, log entry 73). -/
def State.noCredit (s : State) : Bool :=
  let ps := (upwardPorts s.build).filterMap (fun p => (s.link.ports[p]?).filter (fun q => q.up))
  !ps.isEmpty && ps.all (fun q => match q.cls[5]? with
    | some x => decide (x.credits < fullUnit)
    | none => true)

/-- One cycle of the 800 MHz time island: the addend is added to fleet time, and a cycle without TC5 credit upwards counts (R212); in power-on
reset nothing moves (R104). -/
def State.cycle (s : State) : State :=
  if s.core.por then s
  else { s with time := { s.time with acc := (s.time.acc + s.time.addend) % 2 ^ 112, cycles := s.time.cycles + 1 },
                convoy := { s.convoy with sdNone := s.convoy.sdNone + (if s.noCredit then 1 else 0) } }

end Sys2Proof.Machine
end

