-- ==== Sys2Proof/Machine/RegRow.lean ====
section
/-! DEFINITION. What a register map says of one register (R12, R13, R15, Table 0-3, Table 15-5). -/

namespace Sys2Proof.Machine

/-- The access codes of Table 0-3. -/
inductive Access where
  | rw | ro | w1c | w1s | rc | wo | rwl | otp
  deriving DecidableEq, Repr

/-- The retention classes of Table 15-5. -/
inductive Retention where
  | otp | sticky | retained | volatile
  deriving DecidableEq, Repr

/-- Which selector register banks a register: each bank keeps its own copy (R218, R247, R248, R249, R416, R468, R504). -/
inductive Bank where
  | none | slot | port | col | trfport | tollsrc | domain | code
  deriving DecidableEq, Repr

/-- The reset value a register map gives: one constant, one per build, a table by index, or a value by rule. -/
inductive Rst where
  /-- one value for every build and copy -/
  | c (v : Nat)
  /-- one value per build: Selvo-L, Selvo-H, Selvo-T -/
  | per (l h t : Nat)
  /-- the reset of CTR_CFG: light set 0x8000_0000 + i, the others 0 (Table 5-10) -/
  | light
  /-- Build-set: the value stands in State.bs -/
  | bset
  /-- per Table 7-3: round trip -/
  | flowRtt
  /-- per Table 7-3: credits B -/
  | flowBuf
  /-- per Table 7-4: T_c -/
  | flowT
  /-- per Table 7-4, in both halves of the word -/
  | flowT2
  /-- TRF_PORT_PROF (R248) -/
  | portProf
  /-- a table by the first index -/
  | tab (l : List Nat)
  deriving DecidableEq, Repr

/-- One row of a register map. `n1`, `s1`: copies and byte stride of the first index; `n2`, `s2` of the second. -/
structure Reg where
  page : Nat
  pages : Nat
  off : Nat
  n1 : Nat
  s1 : Nat
  n2 : Nat
  s2 : Nat
  acc : Access
  rst : Rst
  ret : Retention
  mask : Nat
  builds : Nat
  bank : Bank
  deriving DecidableEq, Repr

/-- The storage key of one copy of a register: its address, and above bit 21 its bank. -/
def Reg.key (r : Reg) (i j pg bk : Nat) : Nat :=
  bk * 2097152 + (r.page + pg) * 4096 + r.off + i * r.s1 + j * r.s2

end Sys2Proof.Machine
end

