-- ==== Sys2Proof/Machine/RegRows.lean ====
section
/-! DEFINITION. Every register of the spec's register maps, one definition a register, block by block (R12, R13, R529):
page, number of pages, offset, copies and their stride (two indices), access code (Table 0-3), reset value, retention class
(Table 15-5), the mask of its defined bits, the builds that have it (1 Selvo-L, 2 Selvo-H, 4 Selvo-T) and the selector that banks it. -/

namespace Sys2Proof.Machine

/-! ### TIME, page 0x002 (Table 4-8) -/

def R.TIME_NOW_FRAC : Reg := ⟨0x2, 1, 0x80, 1, 4, 1, 4, .ro, .c 0x0, .sticky, 0xFFFFFFFF, 7, .none⟩
def R.TIME_NOW_SEC_LO : Reg := ⟨0x2, 1, 0x84, 1, 4, 1, 4, .ro, .c 0x0, .sticky, 0xFFFFFFFF, 7, .none⟩
def R.TIME_NOW_SEC_HI : Reg := ⟨0x2, 1, 0x88, 1, 4, 1, 4, .ro, .c 0x40000, .sticky, 0x7FFFF, 7, .none⟩
def R.TIME_STATUS : Reg := ⟨0x2, 1, 0x8C, 1, 4, 1, 4, .ro, .c 0x4, .sticky, 0x3F073F, 7, .none⟩
def R.TIME_CTRL : Reg := ⟨0x2, 1, 0x90, 1, 4, 1, 4, .rw, .c 0x0, .sticky, 0x3, 7, .none⟩
def R.TIME_EXCH_INTERVAL : Reg := ⟨0x2, 1, 0x94, 1, 4, 1, 4, .rw, .c 0x3E8, .sticky, 0xFFFF, 7, .none⟩
def R.TIME_STEP_THRESH : Reg := ⟨0x2, 1, 0x98, 1, 4, 1, 4, .rw, .c 0x3E8, .sticky, 0xFFFF, 7, .none⟩
def R.TIME_LOCK_THRESH : Reg := ⟨0x2, 1, 0x9C, 1, 4, 1, 4, .rw, .c 0x3E8, .sticky, 0xFFFF, 7, .none⟩
def R.TIME_OFFSET : Reg := ⟨0x2, 1, 0xA0, 1, 4, 1, 4, .ro, .c 0x0, .sticky, 0xFFFFFFFF, 7, .none⟩
def R.TIME_MEAN_DELAY : Reg := ⟨0x2, 1, 0xA4, 1, 4, 1, 4, .ro, .c 0x0, .sticky, 0xFFFFFFFF, 7, .none⟩
def R.TIME_ADDEND_LO : Reg := ⟨0x2, 1, 0xA8, 1, 4, 1, 4, .ro, .c 0x5E63B88C, .sticky, 0xFFFFFFFF, 7, .none⟩
def R.TIME_ADDEND_HI : Reg := ⟨0x2, 1, 0xAC, 1, 4, 1, 4, .ro, .c 0x5, .sticky, 0xFFFFFFFF, 7, .none⟩
def R.TIME_HOLDOVER_LEFT : Reg := ⟨0x2, 1, 0xB0, 1, 4, 1, 4, .ro, .c 0x0, .sticky, 0xFFFFFFFF, 7, .none⟩
def R.TIME_STEP_COUNT : Reg := ⟨0x2, 1, 0xB4, 1, 4, 1, 4, .ro, .c 0x0, .sticky, 0xFFFFFFFF, 7, .none⟩
def R.TIME_LOSS_COUNT : Reg := ⟨0x2, 1, 0xB8, 1, 4, 1, 4, .ro, .c 0x0, .sticky, 0xFFFFFFFF, 7, .none⟩
def R.TIME_EXCH_MISS : Reg := ⟨0x2, 1, 0xBC, 1, 4, 1, 4, .rc, .c 0x0, .sticky, 0xFFFFFFFF, 7, .none⟩
def R.TIME_UTC : Reg := ⟨0x2, 1, 0xC0, 1, 4, 1, 4, .ro, .c 0x0, .sticky, 0x7FFFF, 7, .none⟩
def R.TIME_XCHK_LIMIT : Reg := ⟨0x2, 1, 0xC4, 1, 4, 1, 4, .rw, .c 0x4E20, .sticky, 0xFFFFFFFF, 2, .none⟩
def R.TIME_XCHK_WORST : Reg := ⟨0x2, 1, 0xC8, 1, 4, 1, 4, .rc, .c 0x0, .sticky, 0xFFFFFFFF, 2, .none⟩
def R.TIME_SET_FRAC : Reg := ⟨0x2, 1, 0xD0, 1, 4, 1, 4, .rw, .c 0x0, .sticky, 0xFFFFFFFF, 7, .none⟩
def R.TIME_SET_SEC_LO : Reg := ⟨0x2, 1, 0xD4, 1, 4, 1, 4, .rw, .c 0x0, .sticky, 0xFFFFFFFF, 7, .none⟩
def R.TIME_SET_SEC_HI : Reg := ⟨0x2, 1, 0xD8, 1, 4, 1, 4, .rw, .c 0x0, .sticky, 0xFFFF, 7, .none⟩
def R.TIME_SET_GO : Reg := ⟨0x2, 1, 0xDC, 1, 4, 1, 4, .wo, .c 0x0, .sticky, 0x1, 7, .none⟩
def R.PTP_CTRL : Reg := ⟨0x2, 1, 0x100, 1, 4, 1, 4, .rw, .c 0x600, .sticky, 0x7FF, 4, .none⟩
def R.PTP_STATUS : Reg := ⟨0x2, 1, 0x104, 1, 4, 1, 4, .ro, .c 0x0, .sticky, 0x1FF, 4, .none⟩
def R.PTP_GM_ID_LO : Reg := ⟨0x2, 1, 0x108, 1, 4, 1, 4, .ro, .c 0x0, .sticky, 0xFFFFFFFF, 4, .none⟩
def R.PTP_GM_ID_HI : Reg := ⟨0x2, 1, 0x10C, 1, 4, 1, 4, .ro, .c 0x0, .sticky, 0xFFFFFFFF, 4, .none⟩
def R.PTP_GM_CLASS : Reg := ⟨0x2, 1, 0x110, 1, 4, 1, 4, .ro, .c 0x0, .sticky, 0x1FF, 4, .none⟩
def R.PTP_OFFSET : Reg := ⟨0x2, 1, 0x114, 1, 4, 1, 4, .ro, .c 0x0, .sticky, 0xFFFFFFFF, 4, .none⟩
def R.PTP_MEAN_DELAY : Reg := ⟨0x2, 1, 0x118, 1, 4, 1, 4, .ro, .c 0x0, .sticky, 0xFFFFFFFF, 4, .none⟩
def R.PTP_DISCARDED : Reg := ⟨0x2, 1, 0x11C, 1, 4, 1, 4, .rc, .c 0x0, .sticky, 0xFFFFFFFF, 4, .none⟩
def R.PTP_ASYM0 : Reg := ⟨0x2, 1, 0x120, 1, 4, 1, 4, .rw, .c 0x0, .sticky, 0xFFFFFFFF, 4, .none⟩
def R.PTP_ASYM1 : Reg := ⟨0x2, 1, 0x124, 1, 4, 1, 4, .rw, .c 0x0, .sticky, 0xFFFFFFFF, 4, .none⟩
def R.TIME_ASYM : Reg := ⟨0x2, 1, 0x200, 40, 4, 1, 4, .rw, .c 0x0, .sticky, 0xFFFFFFFF, 7, .none⟩

/-- The registers of TIME, page 0x002 (Table 4-8). -/
def block_p002 : List Reg :=
  [R.TIME_NOW_FRAC, R.TIME_NOW_SEC_LO, R.TIME_NOW_SEC_HI, R.TIME_STATUS, R.TIME_CTRL, R.TIME_EXCH_INTERVAL,
   R.TIME_STEP_THRESH, R.TIME_LOCK_THRESH, R.TIME_OFFSET, R.TIME_MEAN_DELAY, R.TIME_ADDEND_LO, R.TIME_ADDEND_HI,
   R.TIME_HOLDOVER_LEFT, R.TIME_STEP_COUNT, R.TIME_LOSS_COUNT, R.TIME_EXCH_MISS, R.TIME_UTC, R.TIME_XCHK_LIMIT,
   R.TIME_XCHK_WORST, R.TIME_SET_FRAC, R.TIME_SET_SEC_LO, R.TIME_SET_SEC_HI, R.TIME_SET_GO, R.PTP_CTRL,
   R.PTP_STATUS, R.PTP_GM_ID_LO, R.PTP_GM_ID_HI, R.PTP_GM_CLASS, R.PTP_OFFSET, R.PTP_MEAN_DELAY,
   R.PTP_DISCARDED, R.PTP_ASYM0, R.PTP_ASYM1, R.TIME_ASYM]

/-! ### PULSE, page 0x003 (Table 4-9) -/

def R.PLS_CTRL : Reg := ⟨0x3, 1, 0x80, 8, 32, 1, 4, .rw, .c 0x40, .sticky, 0x72, 6, .none⟩
def R.PLS_START_FRAC : Reg := ⟨0x3, 1, 0x84, 8, 32, 1, 4, .rw, .c 0x0, .sticky, 0xFFFFFFFF, 6, .none⟩
def R.PLS_START_SEC_LO : Reg := ⟨0x3, 1, 0x88, 8, 32, 1, 4, .rw, .c 0x0, .sticky, 0xFFFFFFFF, 6, .none⟩
def R.PLS_START_SEC_HI : Reg := ⟨0x3, 1, 0x8C, 8, 32, 1, 4, .rw, .c 0x0, .sticky, 0xFFFF, 6, .none⟩
def R.PLS_PERIOD_LO : Reg := ⟨0x3, 1, 0x90, 8, 32, 1, 4, .rw, .c 0x0, .sticky, 0xFFFFFFFF, 6, .none⟩
def R.PLS_PERIOD_HI : Reg := ⟨0x3, 1, 0x94, 8, 32, 1, 4, .rw, .c 0x0, .sticky, 0xFFFFFFFF, 6, .none⟩
def R.PLS_WIDTH : Reg := ⟨0x3, 1, 0x98, 8, 32, 1, 4, .rw, .c 0x0, .sticky, 0xFFFFFFFF, 6, .none⟩
def R.PLS_STATUS : Reg := ⟨0x3, 1, 0x9C, 8, 32, 1, 4, .ro, .c 0x0, .sticky, 0xFF07, 6, .none⟩
def R.PULSE_ARM : Reg := ⟨0x3, 1, 0x180, 1, 4, 1, 4, .wo, .c 0x0, .sticky, 0xFF, 6, .none⟩
def R.PULSE_DISARM : Reg := ⟨0x3, 1, 0x184, 1, 4, 1, 4, .wo, .c 0x0, .sticky, 0xFF, 6, .none⟩
def R.CAP_CTRL : Reg := ⟨0x3, 1, 0x200, 4, 32, 1, 4, .rw, .c 0x0, .sticky, 0x7, 4, .none⟩
def R.CAP_HEAD_FRAC : Reg := ⟨0x3, 1, 0x204, 4, 32, 1, 4, .ro, .c 0x0, .sticky, 0xFFFFFFFF, 4, .none⟩
def R.CAP_HEAD_SEC_LO : Reg := ⟨0x3, 1, 0x208, 4, 32, 1, 4, .ro, .c 0x0, .sticky, 0xFFFFFFFF, 4, .none⟩
def R.CAP_HEAD_SEC_HI : Reg := ⟨0x3, 1, 0x20C, 4, 32, 1, 4, .ro, .c 0x0, .sticky, 0x8017FFFF, 4, .none⟩
def R.CAP_POP : Reg := ⟨0x3, 1, 0x210, 4, 32, 1, 4, .wo, .c 0x0, .sticky, 0x1, 4, .none⟩
def R.CAP_STATUS : Reg := ⟨0x3, 1, 0x214, 4, 32, 1, 4, .ro, .c 0x0, .sticky, 0x1F, 4, .none⟩
def R.CAP_OVERFLOW : Reg := ⟨0x3, 1, 0x218, 4, 32, 1, 4, .rc, .c 0x0, .sticky, 0xFFFFFFFF, 4, .none⟩

/-- The registers of PULSE, page 0x003 (Table 4-9). -/
def block_p003 : List Reg :=
  [R.PLS_CTRL, R.PLS_START_FRAC, R.PLS_START_SEC_LO, R.PLS_START_SEC_HI, R.PLS_PERIOD_LO, R.PLS_PERIOD_HI,
   R.PLS_WIDTH, R.PLS_STATUS, R.PULSE_ARM, R.PULSE_DISARM, R.CAP_CTRL, R.CAP_HEAD_FRAC,
   R.CAP_HEAD_SEC_LO, R.CAP_HEAD_SEC_HI, R.CAP_POP, R.CAP_STATUS, R.CAP_OVERFLOW]

/-! ### TAP, pages 0x008 to 0x00F (Table 5-9) -/

def R.TAP_ISL_STATUS : Reg := ⟨0x8, 8, 0x80, 1, 4, 1, 4, .ro, .c 0x0, .volatile, 0xFFFF000F, 7, .none⟩
def R.TAP_ASSIGN_CTR : Reg := ⟨0x8, 8, 0x84, 1, 4, 1, 4, .ro, .bset, .otp, 0xFFFFFFFF, 7, .none⟩
def R.TAP_ASSIGN_OTHER : Reg := ⟨0x8, 8, 0x88, 1, 4, 1, 4, .ro, .bset, .otp, 0x1FF, 7, .none⟩
def R.TAP_LOST_CB : Reg := ⟨0x8, 8, 0x8C, 1, 4, 1, 4, .rc, .c 0x0, .retained, 0xFFFFFFFF, 7, .none⟩
def R.TAP_LOST_TW : Reg := ⟨0x8, 8, 0x90, 1, 4, 1, 4, .rc, .c 0x0, .retained, 0xFFFFFFFF, 7, .none⟩
def R.TAP_DISC_COUNT : Reg := ⟨0x8, 8, 0x94, 1, 4, 1, 4, .ro, .c 0x0, .sticky, 0xFFFFFFFF, 7, .none⟩
def R.SNS_CFG : Reg := ⟨0x8, 1, 0x100, 16, 16, 1, 4, .rw, .c 0x0, .sticky, 0xFF07, 7, .none⟩
def R.SNS_VALUE : Reg := ⟨0x8, 1, 0x104, 16, 16, 1, 4, .ro, .c 0x40000, .retained, 0x7FFFF, 7, .none⟩
def R.SNS_READINGS : Reg := ⟨0x8, 1, 0x108, 16, 16, 1, 4, .ro, .c 0x0, .retained, 0xFFFFFFFF, 7, .none⟩
def R.SNS_UNSEEN : Reg := ⟨0x8, 1, 0x10C, 16, 16, 1, 4, .ro, .c 0x0, .retained, 0xFFFFFFFF, 7, .none⟩
def R.TRIG_SEEN : Reg := ⟨0x8, 1, 0x200, 1, 4, 1, 4, .w1c, .c 0x0, .retained, 0xFFFF, 7, .none⟩

/-- The registers of TAP, pages 0x008 to 0x00F (Table 5-9). -/
def block_p008 : List Reg :=
  [R.TAP_ISL_STATUS, R.TAP_ASSIGN_CTR, R.TAP_ASSIGN_OTHER, R.TAP_LOST_CB, R.TAP_LOST_TW, R.TAP_DISC_COUNT,
   R.SNS_CFG, R.SNS_VALUE, R.SNS_READINGS, R.SNS_UNSEEN, R.TRIG_SEEN]

/-! ### CTR, pages 0x010 to 0x01F (Table 5-10) -/

def R.CTR_VAL_LO : Reg := ⟨0x10, 16, 0x80, 256, 8, 1, 4, .ro, .c 0x0, .sticky, 0xFFFFFFFF, 7, .none⟩
def R.CTR_VAL_HI : Reg := ⟨0x10, 16, 0x84, 256, 8, 1, 4, .ro, .c 0x0, .retained, 0xFFFFFFFF, 7, .none⟩
def R.CTR_CFG : Reg := ⟨0x10, 16, 0x880, 256, 4, 1, 4, .rw, .light, .sticky, 0x803F03FF, 7, .none⟩
def R.CTR_GEN : Reg := ⟨0x10, 16, 0xC80, 1, 4, 1, 4, .ro, .c 0x0, .sticky, 0xFFFFFFFF, 7, .none⟩
def R.CTR_WRAPPED : Reg := ⟨0x10, 16, 0xC84, 8, 4, 1, 4, .w1c, .c 0x0, .retained, 0xFFFFFFFF, 7, .none⟩

/-- The registers of CTR, pages 0x010 to 0x01F (Table 5-10). -/
def block_p010 : List Reg :=
  [R.CTR_VAL_LO, R.CTR_VAL_HI, R.CTR_CFG, R.CTR_GEN, R.CTR_WRAPPED]

/-! ### MUSTER, page 0x020 (Table 5-11) -/

def R.MST_CTRL : Reg := ⟨0x20, 1, 0x80, 1, 4, 1, 4, .rw, .c 0x403, .sticky, 0xFF1F, 7, .none⟩
def R.MST_STREAM : Reg := ⟨0x20, 1, 0x84, 1, 4, 1, 4, .rw, .c 0x0, .sticky, 0xFFFF, 7, .none⟩
def R.MST_START_FRAC : Reg := ⟨0x20, 1, 0x88, 1, 4, 1, 4, .rw, .c 0x0, .sticky, 0xFFFFFFFF, 7, .none⟩
def R.MST_START_SEC_LO : Reg := ⟨0x20, 1, 0x8C, 1, 4, 1, 4, .rw, .c 0x0, .sticky, 0xFFFFFFFF, 7, .none⟩
def R.MST_START_SEC_HI : Reg := ⟨0x20, 1, 0x90, 1, 4, 1, 4, .rw, .c 0x0, .sticky, 0xFFFF, 7, .none⟩
def R.MST_INTERVAL : Reg := ⟨0x20, 1, 0x94, 1, 4, 1, 4, .rw, .c 0x0, .sticky, 0xFFFFFFFF, 7, .none⟩
def R.MST_SCHED_FLAGS : Reg := ⟨0x20, 1, 0x98, 1, 4, 1, 4, .rw, .c 0x0, .sticky, 0xFFFF0001, 7, .none⟩
def R.MST_ARM : Reg := ⟨0x20, 1, 0x9C, 1, 4, 1, 4, .wo, .c 0x0, .sticky, 0x7, 7, .none⟩
def R.MST_GEN : Reg := ⟨0x20, 1, 0xA0, 1, 4, 1, 4, .ro, .c 0x0, .sticky, 0xFFFFFFFF, 7, .none⟩
def R.MST_NEXT_NUM : Reg := ⟨0x20, 1, 0xA4, 1, 4, 1, 4, .ro, .c 0x0, .sticky, 0xFFFFFFFF, 7, .none⟩
def R.MST_LAST_NUM : Reg := ⟨0x20, 1, 0xA8, 1, 4, 1, 4, .ro, .c 0x0, .sticky, 0xFFFFFFFF, 7, .none⟩
def R.MST_LAST_T_FRAC : Reg := ⟨0x20, 1, 0xAC, 1, 4, 1, 4, .ro, .c 0x0, .sticky, 0xFFFFFFFF, 7, .none⟩
def R.MST_LAST_T_SEC_LO : Reg := ⟨0x20, 1, 0xB0, 1, 4, 1, 4, .ro, .c 0x0, .sticky, 0xFFFFFFFF, 7, .none⟩
def R.MST_LAST_T_SEC_HI : Reg := ⟨0x20, 1, 0xB4, 1, 4, 1, 4, .ro, .c 0x40000, .sticky, 0x7FFFF, 7, .none⟩
def R.MST_STATUS : Reg := ⟨0x20, 1, 0xB8, 1, 4, 1, 4, .ro, .c 0x0, .retained, 0x1F, 7, .none⟩
def R.MST_MISSED : Reg := ⟨0x20, 1, 0xBC, 1, 4, 1, 4, .rc, .c 0x0, .retained, 0xFFFFFFFF, 7, .none⟩
def R.MST_TRUNCATED : Reg := ⟨0x20, 1, 0xC0, 1, 4, 1, 4, .rc, .c 0x0, .retained, 0xFFFFFFFF, 7, .none⟩
def R.MST_HOLD_LEFT : Reg := ⟨0x20, 1, 0xC4, 1, 4, 1, 4, .ro, .c 0x0, .retained, 0xFFFFFFFF, 7, .none⟩
def R.MST_MAX_LATCH : Reg := ⟨0x20, 1, 0xC8, 1, 4, 1, 4, .rc, .c 0x0, .retained, 0xFFFFFFFF, 7, .none⟩

/-- The registers of MUSTER, page 0x020 (Table 5-11). -/
def block_p020 : List Reg :=
  [R.MST_CTRL, R.MST_STREAM, R.MST_START_FRAC, R.MST_START_SEC_LO, R.MST_START_SEC_HI, R.MST_INTERVAL,
   R.MST_SCHED_FLAGS, R.MST_ARM, R.MST_GEN, R.MST_NEXT_NUM, R.MST_LAST_NUM, R.MST_LAST_T_FRAC,
   R.MST_LAST_T_SEC_LO, R.MST_LAST_T_SEC_HI, R.MST_STATUS, R.MST_MISSED, R.MST_TRUNCATED, R.MST_HOLD_LEFT,
   R.MST_MAX_LATCH]

/-! ### CMDLATCH, page 0x021 (Table 5-12) -/

def R.CL_CTRL : Reg := ⟨0x21, 1, 0x80, 1, 4, 1, 4, .rw, .c 0x0, .sticky, 0x3, 3, .none⟩
def R.CL_STREAM : Reg := ⟨0x21, 1, 0x84, 1, 4, 1, 4, .rw, .c 0x0, .sticky, 0xFFFF, 3, .none⟩
def R.CL_SEL : Reg := ⟨0x21, 1, 0x88, 4, 4, 1, 4, .rw, .c 0x0, .sticky, 0xFFFFFFFF, 3, .none⟩
def R.CL_SET_LEN0 : Reg := ⟨0x21, 1, 0xA0, 1, 4, 1, 4, .rw, .c 0x0, .sticky, 0x1F1F1F1F, 3, .none⟩
def R.CL_SET_LEN1 : Reg := ⟨0x21, 1, 0xA4, 1, 4, 1, 4, .rw, .c 0x0, .sticky, 0x1F1F1F1F, 3, .none⟩
def R.CL_SET : Reg := ⟨0x21, 1, 0x100, 8, 32, 8, 4, .rw, .c 0x0, .sticky, 0xFFF0FFF, 3, .none⟩
def R.CL_FILL : Reg := ⟨0x21, 1, 0x200, 1, 4, 1, 4, .ro, .c 0x0, .retained, 0xFFFFFFFF, 3, .none⟩
def R.CL_LOST : Reg := ⟨0x21, 1, 0x204, 1, 4, 1, 4, .rc, .c 0x0, .retained, 0xFFFFFFFF, 3, .none⟩
def R.CL_OPEN : Reg := ⟨0x21, 1, 0x208, 1, 4, 1, 4, .ro, .c 0x0, .volatile, 0xFFFFFFFF, 3, .none⟩
def R.CL_POP : Reg := ⟨0x21, 1, 0x20C, 1, 4, 1, 4, .wo, .c 0x0, .retained, 0x1, 3, .none⟩
def R.CL_HEAD : Reg := ⟨0x21, 1, 0x300, 48, 4, 1, 4, .ro, .c 0x0, .retained, 0xFFFFFFFF, 3, .none⟩

/-- The registers of CMDLATCH, page 0x021 (Table 5-12). -/
def block_p021 : List Reg :=
  [R.CL_CTRL, R.CL_STREAM, R.CL_SEL, R.CL_SET_LEN0, R.CL_SET_LEN1, R.CL_SET,
   R.CL_FILL, R.CL_LOST, R.CL_OPEN, R.CL_POP, R.CL_HEAD]

/-! ### TWATCH, page 0x022 (Table 5-13) -/

def R.TW_CTRL : Reg := ⟨0x22, 1, 0x80, 8, 32, 1, 4, .rw, .c 0x1702, .sticky, 0x1F07, 3, .none⟩
def R.TW_MATCH : Reg := ⟨0x22, 1, 0x84, 8, 32, 1, 4, .rw, .c 0x0, .sticky, 0xFFFFFFFF, 3, .none⟩
def R.TW_STREAM : Reg := ⟨0x22, 1, 0x88, 8, 32, 1, 4, .rw, .c 0x0, .sticky, 0xFFFF, 3, .none⟩
def R.TW_TENSORS : Reg := ⟨0x22, 1, 0x8C, 8, 32, 1, 4, .ro, .c 0x0, .retained, 0xFFFFFFFF, 3, .none⟩
def R.TW_LAST_DIGEST_LO : Reg := ⟨0x22, 1, 0x90, 8, 32, 1, 4, .ro, .c 0x0, .retained, 0xFFFFFFFF, 3, .none⟩
def R.TW_LAST_DIGEST_HI : Reg := ⟨0x22, 1, 0x94, 8, 32, 1, 4, .ro, .c 0x0, .retained, 0xFFFFFFFF, 3, .none⟩
def R.TW_LAST_ID : Reg := ⟨0x22, 1, 0x98, 8, 32, 1, 4, .ro, .c 0x0, .retained, 0xFFFF, 3, .none⟩
def R.TW_ERR : Reg := ⟨0x22, 1, 0x9C, 8, 32, 1, 4, .rc, .c 0x0, .retained, 0xFFFFFFFF, 3, .none⟩

/-- The registers of TWATCH, page 0x022 (Table 5-13). -/
def block_p022 : List Reg :=
  [R.TW_CTRL, R.TW_MATCH, R.TW_STREAM, R.TW_TENSORS, R.TW_LAST_DIGEST_LO, R.TW_LAST_DIGEST_HI,
   R.TW_LAST_ID, R.TW_ERR]

/-! ### CONVOY, page 0x02A (Table 6-7) -/

def R.CVY_CTRL : Reg := ⟨0x2A, 1, 0x80, 1, 4, 1, 4, .rw, .c 0x3, .sticky, 0x3, 7, .none⟩
def R.CVY_PLAN_GEN : Reg := ⟨0x2A, 1, 0x84, 1, 4, 1, 4, .ro, .c 0x0, .sticky, 0xFFFFFFFF, 7, .none⟩
def R.CVY_PLAN_PENDING : Reg := ⟨0x2A, 1, 0x88, 1, 4, 1, 4, .ro, .c 0x0, .sticky, 0xFFFFFFFF, 7, .none⟩
def R.CVY_PLAN_ACT : Reg := ⟨0x2A, 1, 0x8C, 1, 4, 1, 4, .ro, .c 0x0, .sticky, 0xFFFFFFFF, 7, .none⟩
def R.CVY_PLAN_STATUS : Reg := ⟨0x2A, 1, 0x90, 1, 4, 1, 4, .ro, .c 0x0, .sticky, 0xFFFF001F, 7, .none⟩
def R.CVY_RECON_STREAM : Reg := ⟨0x2A, 1, 0x94, 1, 4, 1, 4, .ro, .c 0x0, .sticky, 0xFFFF, 7, .none⟩
def R.CVY_SEL : Reg := ⟨0x2A, 1, 0x98, 1, 4, 1, 4, .rw, .c 0x0, .volatile, 0x3FF, 7, .none⟩
def R.CVY_RWIN_SEL : Reg := ⟨0x2A, 1, 0x9C, 1, 4, 1, 4, .rw, .c 0x0, .volatile, 0x3FF, 7, .none⟩
def R.CVY_LATE : Reg := ⟨0x2A, 1, 0xA0, 1, 4, 1, 4, .rc, .c 0x0, .retained, 0xFFFFFFFF, 7, .none⟩
def R.CVY_DUP : Reg := ⟨0x2A, 1, 0xA4, 1, 4, 1, 4, .rc, .c 0x0, .retained, 0xFFFFFFFF, 7, .none⟩
def R.CVY_PARTIAL : Reg := ⟨0x2A, 1, 0xA8, 1, 4, 1, 4, .rc, .c 0x0, .retained, 0xFFFFFFFF, 7, .none⟩
def R.CVY_FORCED : Reg := ⟨0x2A, 1, 0xAC, 1, 4, 1, 4, .rc, .c 0x0, .retained, 0xFFFFFFFF, 7, .none⟩
def R.CVY_ADOPTED : Reg := ⟨0x2A, 1, 0xB0, 1, 4, 1, 4, .ro, .c 0x0, .retained, 0xFFFFFFFF, 7, .none⟩
def R.CVY_ORPHANS : Reg := ⟨0x2A, 1, 0xB4, 1, 4, 1, 4, .rc, .c 0x0, .retained, 0xFFFFFFFF, 7, .none⟩
def R.CVY_REATTACH_HOLD : Reg := ⟨0x2A, 1, 0xB8, 1, 4, 1, 4, .rw, .c 0x3E8, .sticky, 0xFFFF, 7, .none⟩
def R.CVY_BC_CFG : Reg := ⟨0x2A, 1, 0xBC, 1, 4, 1, 4, .rw, .c 0x640214, .sticky, 0xFFFF0FFF, 7, .none⟩
def R.CVY_SD_CFG : Reg := ⟨0x2A, 1, 0xC0, 1, 4, 1, 4, .rw, .c 0x640A32, .sticky, 0xFFFFFFF, 7, .none⟩
def R.CVY_SD_CFG2 : Reg := ⟨0x2A, 1, 0xC4, 1, 4, 1, 4, .rw, .c 0x208, .sticky, 0x7FF, 7, .none⟩
def R.CVY_SD_STATUS : Reg := ⟨0x2A, 1, 0xC8, 1, 4, 1, 4, .ro, .c 0x0, .retained, 0xFFFF000F, 7, .none⟩
def R.CVY_STORE_USED : Reg := ⟨0x2A, 1, 0xCC, 1, 4, 1, 4, .ro, .c 0x0, .sticky, 0xFFFFFFFF, 1, .none⟩
def R.CVY_SD_E0 : Reg := ⟨0x2A, 1, 0xD0, 1, 4, 1, 4, .rw, .c 0xFFF00000, .sticky, 0xFFFFFFFF, 7, .none⟩
def R.CVY_DUP_EVICT : Reg := ⟨0x2A, 1, 0xD4, 1, 4, 1, 4, .rc, .c 0x0, .retained, 0xFFFFFFFF, 7, .none⟩
def R.CVY_RESULT : Reg := ⟨0x2A, 1, 0x400, 542, 4, 1, 4, .ro, .c 0x0, .retained, 0xFFFFFFFF, 7, .none⟩

/-- The registers of CONVOY, page 0x02A (Table 6-7). -/
def block_p02a : List Reg :=
  [R.CVY_CTRL, R.CVY_PLAN_GEN, R.CVY_PLAN_PENDING, R.CVY_PLAN_ACT, R.CVY_PLAN_STATUS, R.CVY_RECON_STREAM,
   R.CVY_SEL, R.CVY_RWIN_SEL, R.CVY_LATE, R.CVY_DUP, R.CVY_PARTIAL, R.CVY_FORCED,
   R.CVY_ADOPTED, R.CVY_ORPHANS, R.CVY_REATTACH_HOLD, R.CVY_BC_CFG, R.CVY_SD_CFG, R.CVY_SD_CFG2,
   R.CVY_SD_STATUS, R.CVY_STORE_USED, R.CVY_SD_E0, R.CVY_DUP_EVICT, R.CVY_RESULT]

/-! ### convoy slot (Table 6-8) -/

def R.SLOT_STREAM : Reg := ⟨0x2A, 1, 0x200, 1, 4, 1, 4, .ro, .c 0x0, .sticky, 0xFFFFFF, 7, .slot⟩
def R.SLOT_OP : Reg := ⟨0x2A, 1, 0x204, 1, 4, 1, 4, .ro, .c 0x0, .sticky, 0xFFFF3F3F, 7, .slot⟩
def R.SLOT_SRC : Reg := ⟨0x2A, 1, 0x208, 1, 4, 1, 4, .ro, .c 0x0, .sticky, 0xFFF000F, 7, .slot⟩
def R.SLOT_STRIDE : Reg := ⟨0x2A, 1, 0x20C, 1, 4, 1, 4, .ro, .c 0x0, .sticky, 0xFFFF, 7, .slot⟩
def R.SLOT_DL_FIRST : Reg := ⟨0x2A, 1, 0x210, 1, 4, 1, 4, .ro, .c 0x0, .sticky, 0xFFFFFFFF, 7, .slot⟩
def R.SLOT_DL_STEP : Reg := ⟨0x2A, 1, 0x214, 1, 4, 1, 4, .ro, .c 0x0, .sticky, 0xFFFFFFFF, 7, .slot⟩
def R.SLOT_PORTS : Reg := ⟨0x2A, 1, 0x218, 1, 4, 1, 4, .ro, .c 0xFFFF, .sticky, 0xFFFF, 7, .slot⟩
def R.SLOT_EXPECTED : Reg := ⟨0x2A, 1, 0x21C, 1, 4, 1, 4, .ro, .c 0x0, .sticky, 0xFFFFFFFF, 7, .slot⟩
def R.SLOT_INPUTS : Reg := ⟨0x2A, 1, 0x220, 4, 4, 1, 4, .ro, .c 0x0, .sticky, 0xFFFFFFFF, 7, .slot⟩
def R.SLOT_LAST_EPOCH : Reg := ⟨0x2A, 1, 0x230, 1, 4, 1, 4, .ro, .c 0x0, .retained, 0xFFFFFFFF, 7, .slot⟩
def R.SLOT_LAST_COUNT : Reg := ⟨0x2A, 1, 0x234, 1, 4, 1, 4, .ro, .c 0x0, .retained, 0xFFFFFFFF, 7, .slot⟩
def R.SLOT_LAST_MISSING : Reg := ⟨0x2A, 1, 0x238, 1, 4, 1, 4, .ro, .c 0x0, .retained, 0xFFFFFFFF, 7, .slot⟩
def R.SLOT_LAST_FLAGS : Reg := ⟨0x2A, 1, 0x23C, 1, 4, 1, 4, .ro, .c 0x0, .retained, 0xFFFF, 7, .slot⟩
def R.SLOT_MEMBERS : Reg := ⟨0x2A, 1, 0x240, 4, 4, 1, 4, .ro, .c 0x0, .retained, 0xFFFFFFFF, 7, .slot⟩
def R.SLOT_LATE_MAP : Reg := ⟨0x2A, 1, 0x250, 4, 4, 1, 4, .ro, .c 0x0, .retained, 0xFFFFFFFF, 7, .slot⟩
def R.SLOT_LATE : Reg := ⟨0x2A, 1, 0x260, 1, 4, 1, 4, .rc, .c 0x0, .retained, 0xFFFFFFFF, 7, .slot⟩
def R.SLOT_DUP : Reg := ⟨0x2A, 1, 0x264, 1, 4, 1, 4, .rc, .c 0x0, .retained, 0xFFFFFFFF, 7, .slot⟩
def R.SLOT_STALE : Reg := ⟨0x2A, 1, 0x268, 1, 4, 1, 4, .rc, .c 0x0, .retained, 0xFFFFFFFF, 7, .slot⟩
def R.SLOT_BC_REACHED : Reg := ⟨0x2A, 1, 0x26C, 1, 4, 1, 4, .ro, .c 0x0, .retained, 0xFFFFFFFF, 7, .slot⟩
def R.SLOT_STORE : Reg := ⟨0x2A, 1, 0x270, 1, 4, 1, 4, .ro, .c 0x0, .sticky, 0xFFFFFFFF, 7, .slot⟩
def R.SLOT_POST_LO : Reg := ⟨0x2A, 1, 0x274, 1, 4, 1, 4, .wo, .c 0x0, .volatile, 0xFFFFFFFF, 7, .slot⟩
def R.SLOT_POST_HI : Reg := ⟨0x2A, 1, 0x278, 1, 4, 1, 4, .wo, .c 0x0, .volatile, 0xFFFFFFFF, 7, .slot⟩

/-- The registers of convoy slot (Table 6-8). -/
def block_slot : List Reg :=
  [R.SLOT_STREAM, R.SLOT_OP, R.SLOT_SRC, R.SLOT_STRIDE, R.SLOT_DL_FIRST, R.SLOT_DL_STEP,
   R.SLOT_PORTS, R.SLOT_EXPECTED, R.SLOT_INPUTS, R.SLOT_LAST_EPOCH, R.SLOT_LAST_COUNT, R.SLOT_LAST_MISSING,
   R.SLOT_LAST_FLAGS, R.SLOT_MEMBERS, R.SLOT_LATE_MAP, R.SLOT_LATE, R.SLOT_DUP, R.SLOT_STALE,
   R.SLOT_BC_REACHED, R.SLOT_STORE, R.SLOT_POST_LO, R.SLOT_POST_HI]

/-! ### port block (Table 6-9) -/

def R.FP_STATUS : Reg := ⟨0x40, 36, 0x80, 1, 4, 1, 4, .ro, .c 0x0, .volatile, 0x7F, 2, .none⟩
def R.FP_NEIGHBOUR : Reg := ⟨0x40, 36, 0x84, 1, 4, 1, 4, .ro, .c 0x7FFFFF, .retained, 0xFFFFFF, 2, .none⟩
def R.FP_PLAN_NEIGHBOUR : Reg := ⟨0x40, 36, 0x88, 1, 4, 1, 4, .ro, .c 0x7FFFFF, .sticky, 0xFFFFFF, 2, .none⟩
def R.FP_CTRL : Reg := ⟨0x40, 36, 0x8C, 1, 4, 1, 4, .rw, .c 0x1, .sticky, 0x1, 2, .none⟩
def R.FP_RELEASE : Reg := ⟨0x40, 36, 0x90, 1, 4, 1, 4, .wo, .c 0x0, .sticky, 0x1, 2, .none⟩
def R.FP_TRAIN_COUNT : Reg := ⟨0x40, 36, 0x94, 1, 4, 1, 4, .ro, .c 0x0, .sticky, 0xFFFFFFFF, 2, .none⟩
def R.FP_DOWN_COUNT : Reg := ⟨0x40, 36, 0x98, 1, 4, 1, 4, .ro, .c 0x0, .sticky, 0xFFFFFFFF, 2, .none⟩
def R.FP_TX_SENT_LO : Reg := ⟨0x40, 36, 0xA0, 8, 32, 1, 4, .ro, .c 0x0, .retained, 0xFFFFFFFF, 2, .none⟩
def R.FP_TX_SENT_HI : Reg := ⟨0x40, 36, 0xA4, 8, 32, 1, 4, .ro, .c 0x0, .retained, 0xFFFFFFFF, 2, .none⟩
def R.FP_TX_ACKED_LO : Reg := ⟨0x40, 36, 0xA8, 8, 32, 1, 4, .ro, .c 0x0, .retained, 0xFFFFFFFF, 2, .none⟩
def R.FP_TX_ACKED_HI : Reg := ⟨0x40, 36, 0xAC, 8, 32, 1, 4, .ro, .c 0x0, .retained, 0xFFFFFFFF, 2, .none⟩
def R.FP_RX_RECEIVED_LO : Reg := ⟨0x40, 36, 0xB0, 8, 32, 1, 4, .ro, .c 0x0, .retained, 0xFFFFFFFF, 2, .none⟩
def R.FP_RX_RECEIVED_HI : Reg := ⟨0x40, 36, 0xB4, 8, 32, 1, 4, .ro, .c 0x0, .retained, 0xFFFFFFFF, 2, .none⟩
def R.FP_RX_ACKED_LO : Reg := ⟨0x40, 36, 0xB8, 8, 32, 1, 4, .ro, .c 0x0, .retained, 0xFFFFFFFF, 2, .none⟩
def R.FP_RX_ACKED_HI : Reg := ⟨0x40, 36, 0xBC, 8, 32, 1, 4, .ro, .c 0x0, .retained, 0xFFFFFFFF, 2, .none⟩
def R.FP_DROP_QUAR : Reg := ⟨0x40, 36, 0x200, 1, 4, 1, 4, .rc, .c 0x0, .retained, 0xFFFFFFFF, 2, .none⟩
def R.FP_DROP_LINKDOWN : Reg := ⟨0x40, 36, 0x204, 1, 4, 1, 4, .rc, .c 0x0, .retained, 0xFFFFFFFF, 2, .none⟩
def R.FP_RESENT : Reg := ⟨0x40, 36, 0x208, 1, 4, 1, 4, .rc, .c 0x0, .retained, 0xFFFFFFFF, 2, .none⟩

/-- The registers of port block (Table 6-9). -/
def block_fabport : List Reg :=
  [R.FP_STATUS, R.FP_NEIGHBOUR, R.FP_PLAN_NEIGHBOUR, R.FP_CTRL, R.FP_RELEASE, R.FP_TRAIN_COUNT,
   R.FP_DOWN_COUNT, R.FP_TX_SENT_LO, R.FP_TX_SENT_HI, R.FP_TX_ACKED_LO, R.FP_TX_ACKED_HI, R.FP_RX_RECEIVED_LO,
   R.FP_RX_RECEIVED_HI, R.FP_RX_ACKED_LO, R.FP_RX_ACKED_HI, R.FP_DROP_QUAR, R.FP_DROP_LINKDOWN, R.FP_RESENT]

/-! ### FLOW, page 0x02B (Table 7-7) -/

def R.FLOW_CTRL : Reg := ⟨0x2B, 1, 0x80, 1, 4, 1, 4, .rw, .c 0xA0001, .sticky, 0xFFFF0001, 7, .none⟩
def R.FLOW_SEL : Reg := ⟨0x2B, 1, 0x84, 1, 4, 1, 4, .rw, .c 0x0, .volatile, 0xFF, 7, .none⟩
def R.FLOW_CENSUS_RUN : Reg := ⟨0x2B, 1, 0x88, 1, 4, 1, 4, .rc, .c 0x0, .retained, 0xFFFFFFFF, 7, .none⟩
def R.FLOW_CENSUS_MISMATCH : Reg := ⟨0x2B, 1, 0x8C, 1, 4, 1, 4, .rc, .c 0x0, .retained, 0xFFFFFFFF, 7, .none⟩
def R.FLOW_CENSUS_SKIPPED : Reg := ⟨0x2B, 1, 0x90, 1, 4, 1, 4, .rc, .c 0x0, .retained, 0xFFFFFFFF, 7, .none⟩
def R.FLOW_REINIT : Reg := ⟨0x2B, 1, 0x94, 1, 4, 1, 4, .rc, .c 0x0, .retained, 0xFFFFFFFF, 7, .none⟩
def R.FLOW_LAST_MISMATCH : Reg := ⟨0x2B, 1, 0x98, 1, 4, 1, 4, .ro, .c 0x0, .retained, 0xFFFF0FFF, 7, .none⟩
def R.FLOW_PORT_STATUS : Reg := ⟨0x2B, 1, 0x100, 1, 4, 1, 4, .ro, .c 0x0, .volatile, 0xFFFF007F, 7, .port⟩
def R.FLOW_PORT_RTT : Reg := ⟨0x2B, 1, 0x104, 1, 4, 1, 4, .ro, .flowRtt, .sticky, 0xFFFFFFFF, 7, .port⟩
def R.FLOW_PORT_BUF : Reg := ⟨0x2B, 1, 0x108, 1, 4, 1, 4, .ro, .flowBuf, .sticky, 0x3FF, 7, .port⟩
def R.FLOW_APPLY : Reg := ⟨0x2B, 1, 0x10C, 1, 4, 1, 4, .wo, .c 0x0, .sticky, 0x1, 7, .port⟩
def R.FLOW_T_CFG : Reg := ⟨0x2B, 1, 0x140, 8, 4, 1, 4, .rw, .flowT, .sticky, 0x3FF, 7, .port⟩
def R.FLOW_T_USE : Reg := ⟨0x2B, 1, 0x160, 8, 4, 1, 4, .ro, .flowT2, .retained, 0x3FF03FF, 7, .port⟩
def R.FLOW_CREDITS : Reg := ⟨0x2B, 1, 0x180, 8, 4, 1, 4, .ro, .c 0x0, .volatile, 0x3FF03FF, 7, .port⟩
def R.FLOW_CENSUS_LAST : Reg := ⟨0x2B, 1, 0x1A0, 8, 4, 1, 4, .ro, .c 0x0, .retained, 0xFFFF0007, 7, .port⟩

/-- The registers of FLOW, page 0x02B (Table 7-7). -/
def block_p02b : List Reg :=
  [R.FLOW_CTRL, R.FLOW_SEL, R.FLOW_CENSUS_RUN, R.FLOW_CENSUS_MISMATCH, R.FLOW_CENSUS_SKIPPED, R.FLOW_REINIT,
   R.FLOW_LAST_MISMATCH, R.FLOW_PORT_STATUS, R.FLOW_PORT_RTT, R.FLOW_PORT_BUF, R.FLOW_APPLY, R.FLOW_T_CFG,
   R.FLOW_T_USE, R.FLOW_CREDITS, R.FLOW_CENSUS_LAST]

/-! ### TRAFFIC, page 0x02C (Table 7-8) -/

def R.TRF_CTRL : Reg := ⟨0x2C, 1, 0x80, 1, 4, 1, 4, .rw, .c 0x64, .sticky, 0xFFFF, 7, .none⟩
def R.TRF_FAB_SHAPE : Reg := ⟨0x2C, 1, 0x84, 1, 4, 1, 4, .rw, .c 0x1000014, .sticky, 0xFFFF003F, 2, .none⟩
def R.TRF_ALARM_STREAM : Reg := ⟨0x2C, 1, 0x88, 1, 4, 1, 4, .ro, .c 0xFFFF, .sticky, 0xFFFF, 7, .none⟩
def R.TRF_COAL_ACTIVE : Reg := ⟨0x2C, 1, 0x8C, 1, 4, 1, 4, .ro, .c 0x0, .volatile, 0x1FF, 7, .none⟩
def R.TRF_COAL_MERGED : Reg := ⟨0x2C, 1, 0x90, 1, 4, 1, 4, .rc, .c 0x0, .retained, 0xFFFFFFFF, 7, .none⟩
def R.TRF_COAL_OVERFLOW : Reg := ⟨0x2C, 1, 0x94, 1, 4, 1, 4, .rc, .c 0x0, .retained, 0xFFFFFFFF, 7, .none⟩
def R.TRF_SEL : Reg := ⟨0x2C, 1, 0x98, 1, 4, 1, 4, .rw, .c 0x0, .volatile, 0xFF, 7, .none⟩
def R.TRF_PROF_RATE : Reg := ⟨0x2C, 1, 0x100, 16, 64, 7, 8, .rw, .c 0xFFFFF, .sticky, 0xFFFFF, 7, .none⟩
def R.TRF_PROF_BURST : Reg := ⟨0x2C, 1, 0x104, 16, 64, 7, 8, .rw, .c 0x10000, .sticky, 0xFFFFFF, 7, .none⟩
def R.TRF_PORT_PROF : Reg := ⟨0x2C, 1, 0x500, 8, 4, 1, 4, .rw, .portProf, .sticky, 0xFFFFFFFF, 7, .none⟩
def R.TRF_TOKENS : Reg := ⟨0x2C, 1, 0x600, 7, 4, 1, 4, .ro, .c 0x10000, .retained, 0xFFFFFFFF, 7, .trfport⟩
def R.TRF_LANE_TOKENS : Reg := ⟨0x2C, 1, 0x620, 1, 4, 1, 4, .ro, .c 0x10000, .retained, 0xFFFFFFFF, 7, .trfport⟩
def R.TRF_STATE : Reg := ⟨0x2C, 1, 0x640, 1, 4, 1, 4, .ro, .c 0x0, .volatile, 0xFFFFFE, 7, .trfport⟩

/-- The registers of TRAFFIC, page 0x02C (Table 7-8). -/
def block_p02c : List Reg :=
  [R.TRF_CTRL, R.TRF_FAB_SHAPE, R.TRF_ALARM_STREAM, R.TRF_COAL_ACTIVE, R.TRF_COAL_MERGED, R.TRF_COAL_OVERFLOW,
   R.TRF_SEL, R.TRF_PROF_RATE, R.TRF_PROF_BURST, R.TRF_PORT_PROF, R.TRF_TOKENS, R.TRF_LANE_TOKENS,
   R.TRF_STATE]

/-! ### TOLL, page 0x02D (Table 7-9) -/

def R.TOLL_CTRL : Reg := ⟨0x2D, 1, 0x80, 1, 4, 1, 4, .rw, .c 0x3201, .sticky, 0xFF01, 6, .none⟩
def R.TOLL_SEL : Reg := ⟨0x2D, 1, 0x84, 1, 4, 1, 4, .rw, .c 0x0, .volatile, 0x3FF, 6, .none⟩
def R.TOLL_STATUS : Reg := ⟨0x2D, 1, 0x88, 1, 4, 1, 4, .ro, .c 0x0, .volatile, 0xFFFF, 6, .none⟩
def R.TOLL_RED_ALL : Reg := ⟨0x2D, 1, 0x8C, 1, 4, 1, 4, .rc, .c 0x0, .retained, 0xFFFFFFFF, 6, .none⟩
def R.TOLL_PROF_CIR : Reg := ⟨0x2D, 1, 0x100, 16, 16, 1, 4, .rw, .c 0xFFFFF, .sticky, 0xFFFFF, 6, .none⟩
def R.TOLL_PROF_CBS : Reg := ⟨0x2D, 1, 0x104, 16, 16, 1, 4, .rw, .c 0x10000, .sticky, 0xFFFFFF, 6, .none⟩
def R.TOLL_PROF_PIR : Reg := ⟨0x2D, 1, 0x108, 16, 16, 1, 4, .rw, .c 0xFFFFF, .sticky, 0xFFFFF, 6, .none⟩
def R.TOLL_PROF_PBS : Reg := ⟨0x2D, 1, 0x10C, 16, 16, 1, 4, .rw, .c 0x10000, .sticky, 0xFFFFFF, 6, .none⟩
def R.TOLL_MAP : Reg := ⟨0x2D, 1, 0x200, 24, 4, 1, 4, .rw, .c 0x0, .sticky, 0xFFFFFFFF, 6, .none⟩
def R.TOLL_GREEN : Reg := ⟨0x2D, 1, 0x300, 1, 4, 1, 4, .rc, .c 0x0, .retained, 0xFFFFFFFF, 6, .tollsrc⟩
def R.TOLL_YELLOW_FWD : Reg := ⟨0x2D, 1, 0x304, 1, 4, 1, 4, .rc, .c 0x0, .retained, 0xFFFFFFFF, 6, .tollsrc⟩
def R.TOLL_YELLOW_DROP : Reg := ⟨0x2D, 1, 0x308, 1, 4, 1, 4, .rc, .c 0x0, .retained, 0xFFFFFFFF, 6, .tollsrc⟩
def R.TOLL_RED : Reg := ⟨0x2D, 1, 0x30C, 1, 4, 1, 4, .rc, .c 0x0, .retained, 0xFFFFFFFF, 6, .tollsrc⟩
def R.TOLL_TC : Reg := ⟨0x2D, 1, 0x310, 1, 4, 1, 4, .ro, .c 0x10000, .retained, 0xFFFFFFFF, 6, .tollsrc⟩
def R.TOLL_TP : Reg := ⟨0x2D, 1, 0x314, 1, 4, 1, 4, .ro, .c 0x10000, .retained, 0xFFFFFFFF, 6, .tollsrc⟩

/-- The registers of TOLL, page 0x02D (Table 7-9). -/
def block_p02d : List Reg :=
  [R.TOLL_CTRL, R.TOLL_SEL, R.TOLL_STATUS, R.TOLL_RED_ALL, R.TOLL_PROF_CIR, R.TOLL_PROF_CBS,
   R.TOLL_PROF_PIR, R.TOLL_PROF_PBS, R.TOLL_MAP, R.TOLL_GREEN, R.TOLL_YELLOW_FWD, R.TOLL_YELLOW_DROP,
   R.TOLL_RED, R.TOLL_TC, R.TOLL_TP]

/-! ### FEAT, page 0x026 (Table 8-9) -/

def R.FEAT_CTRL : Reg := ⟨0x26, 1, 0x80, 1, 4, 1, 4, .rw, .c 0x0, .sticky, 0x3, 7, .none⟩
def R.FEAT_STREAM : Reg := ⟨0x26, 1, 0x84, 1, 4, 1, 4, .rw, .c 0x0, .sticky, 0xFFFF, 7, .none⟩
def R.FEAT_STATUS : Reg := ⟨0x26, 1, 0x88, 1, 4, 1, 4, .ro, .c 0x0, .retained, 0x7FF03FF, 7, .none⟩
def R.FEAT_GEN : Reg := ⟨0x26, 1, 0x8C, 1, 4, 1, 4, .ro, .c 0x0, .retained, 0xFFFFFFFF, 7, .none⟩
def R.FEAT_LEN : Reg := ⟨0x26, 1, 0x90, 1, 4, 1, 4, .rw, .c 0x0, .retained, 0x7FF, 7, .none⟩
def R.FEAT_LOAD_IDX : Reg := ⟨0x26, 1, 0x94, 1, 4, 1, 4, .rw, .c 0x0, .volatile, 0x3FF, 7, .none⟩
def R.FEAT_LOAD_LO : Reg := ⟨0x26, 1, 0x98, 1, 4, 1, 4, .wo, .c 0x0, .retained, 0xFFFFFFFF, 7, .none⟩
def R.FEAT_LOAD_HI : Reg := ⟨0x26, 1, 0x9C, 1, 4, 1, 4, .wo, .c 0x0, .retained, 0xFFFFFFFF, 7, .none⟩
def R.FEAT_SWAP_AT : Reg := ⟨0x26, 1, 0xA0, 1, 4, 1, 4, .rw, .c 0x0, .retained, 0xFFFFFFFF, 7, .none⟩
def R.FEAT_SWAP : Reg := ⟨0x26, 1, 0xA4, 1, 4, 1, 4, .wo, .c 0x0, .retained, 0x3, 7, .none⟩
def R.FEAT_LAST_MUSTER : Reg := ⟨0x26, 1, 0xA8, 1, 4, 1, 4, .ro, .c 0x0, .retained, 0xFFFFFFFF, 7, .none⟩
def R.FEAT_PASS_NS : Reg := ⟨0x26, 1, 0xAC, 1, 4, 1, 4, .ro, .c 0x0, .retained, 0xFFFFFFFF, 7, .none⟩
def R.FEAT_ABANDONED : Reg := ⟨0x26, 1, 0xB0, 1, 4, 1, 4, .rc, .c 0x0, .retained, 0xFFFFFFFF, 7, .none⟩
def R.FEAT_NONFINITE : Reg := ⟨0x26, 1, 0xB4, 1, 4, 1, 4, .rc, .c 0x0, .retained, 0xFFFFFFFF, 7, .none⟩
def R.FEAT_STAT_NAN : Reg := ⟨0x26, 1, 0xB8, 1, 4, 1, 4, .rc, .c 0x0, .retained, 0xFFFFFFFF, 7, .none⟩
def R.FEAT_STAT_MAXAGE : Reg := ⟨0x26, 1, 0xBC, 1, 4, 1, 4, .rw, .c 0x4, .sticky, 0xFF, 7, .none⟩
def R.FEAT_VAL_BASE : Reg := ⟨0x26, 1, 0xC0, 1, 4, 1, 4, .rw, .c 0x0, .volatile, 0x3, 7, .none⟩
def R.FEAT_WIN_USED : Reg := ⟨0x26, 1, 0xC4, 1, 4, 1, 4, .ro, .c 0x0, .retained, 0x7FFF, 7, .none⟩
def R.FEAT_READ_IDX : Reg := ⟨0x26, 1, 0xC8, 1, 4, 1, 4, .rw, .c 0x0, .volatile, 0x7FF, 7, .none⟩
def R.FEAT_READ_LO : Reg := ⟨0x26, 1, 0xCC, 1, 4, 1, 4, .ro, .c 0x0, .retained, 0xFFFFFFFF, 7, .none⟩
def R.FEAT_READ_HI : Reg := ⟨0x26, 1, 0xD0, 1, 4, 1, 4, .ro, .c 0x0, .retained, 0xFFFFFFFF, 7, .none⟩
def R.STAT : Reg := ⟨0x26, 1, 0x100, 256, 4, 1, 4, .rw, .c 0x0, .retained, 0xFFFFFFFF, 7, .none⟩
def R.STAT_EPOCH : Reg := ⟨0x26, 1, 0x500, 256, 4, 1, 4, .ro, .c 0x0, .retained, 0xFFFFFFFF, 7, .none⟩
def R.CONST : Reg := ⟨0x26, 1, 0x900, 64, 4, 1, 4, .rw, .c 0x0, .retained, 0xFFFFFFFF, 7, .none⟩

/-- The registers of FEAT, page 0x026 (Table 8-9). -/
def block_p026 : List Reg :=
  [R.FEAT_CTRL, R.FEAT_STREAM, R.FEAT_STATUS, R.FEAT_GEN, R.FEAT_LEN, R.FEAT_LOAD_IDX,
   R.FEAT_LOAD_LO, R.FEAT_LOAD_HI, R.FEAT_SWAP_AT, R.FEAT_SWAP, R.FEAT_LAST_MUSTER, R.FEAT_PASS_NS,
   R.FEAT_ABANDONED, R.FEAT_NONFINITE, R.FEAT_STAT_NAN, R.FEAT_STAT_MAXAGE, R.FEAT_VAL_BASE, R.FEAT_WIN_USED,
   R.FEAT_READ_IDX, R.FEAT_READ_LO, R.FEAT_READ_HI, R.STAT, R.STAT_EPOCH, R.CONST]

/-! ### FEAT values, page 0x027 (Table 8-10) -/

def R.FEAT_VAL_MUSTER : Reg := ⟨0x27, 1, 0x80, 1, 4, 1, 4, .ro, .c 0x0, .retained, 0xFFFFFFFF, 7, .none⟩
def R.FEAT_VAL : Reg := ⟨0x27, 1, 0x800, 512, 4, 1, 4, .ro, .c 0x7FC00000, .retained, 0xFFFFFFFF, 7, .none⟩

/-- The registers of FEAT values, page 0x027 (Table 8-10). -/
def block_p027 : List Reg :=
  [R.FEAT_VAL_MUSTER, R.FEAT_VAL]

/-! ### TREE, page 0x028 (Table 9-10) -/

def R.TREE_CTRL : Reg := ⟨0x28, 1, 0x80, 1, 4, 1, 4, .rw, .c 0x0, .sticky, 0x1, 7, .none⟩
def R.TREE_STREAM : Reg := ⟨0x28, 1, 0x84, 1, 4, 1, 4, .rw, .c 0x0, .sticky, 0xFFFF, 7, .none⟩
def R.TREE_CAP : Reg := ⟨0x28, 1, 0x88, 1, 4, 1, 4, .ro, .per 0x00400804 0x01000A08 0x10000E20, .otp, 0x1FFF0FFF, 7, .none⟩
def R.TREE_NODE_FREE : Reg := ⟨0x28, 1, 0x8C, 1, 4, 1, 4, .ro, .bset, .retained, 0xFFFFFFFF, 7, .none⟩
def R.TREE_LEAF_FREE : Reg := ⟨0x28, 1, 0x90, 1, 4, 1, 4, .ro, .bset, .retained, 0xFFFFFFFF, 7, .none⟩
def R.TREE_LOAD_STREAM : Reg := ⟨0x28, 1, 0x94, 1, 4, 1, 4, .rw, .c 0x0, .sticky, 0xFFFF, 7, .none⟩
def R.TREE_LOAD_CTRL : Reg := ⟨0x28, 1, 0x98, 1, 4, 1, 4, .wo, .c 0x0, .retained, 0x37, 7, .none⟩
def R.TREE_LOAD_DATA : Reg := ⟨0x28, 1, 0x9C, 1, 4, 1, 4, .wo, .c 0x0, .retained, 0xFFFFFFFF, 7, .none⟩
def R.TREE_LOAD_STATUS : Reg := ⟨0x28, 1, 0xA0, 1, 4, 1, 4, .ro, .c 0x0, .retained, 0xF37, 7, .none⟩
def R.TREE_LOAD_BYTES : Reg := ⟨0x28, 1, 0xA4, 1, 4, 1, 4, .ro, .c 0x0, .retained, 0xFFFFFFFF, 7, .none⟩
def R.TREE_SKIPPED : Reg := ⟨0x28, 1, 0xA8, 1, 4, 1, 4, .rc, .c 0x0, .retained, 0xFFFFFFFF, 7, .none⟩
def R.TREE_POISON : Reg := ⟨0x28, 1, 0xAC, 1, 4, 1, 4, .rc, .c 0x0, .retained, 0xFFFFFFFF, 7, .none⟩
def R.TREE_EVALS_LO : Reg := ⟨0x28, 1, 0xB0, 1, 4, 1, 4, .ro, .c 0x0, .retained, 0xFFFFFFFF, 7, .none⟩
def R.TREE_EVALS_HI : Reg := ⟨0x28, 1, 0xB4, 1, 4, 1, 4, .ro, .c 0x0, .retained, 0xFFFFFFFF, 7, .none⟩
def R.TSL_CTRL : Reg := ⟨0x28, 1, 0x100, 4, 64, 1, 4, .rw, .c 0x0, .sticky, 0xF, 7, .none⟩
def R.TSL_BIND_STREAM : Reg := ⟨0x28, 1, 0x104, 4, 64, 1, 4, .rw, .c 0x0, .sticky, 0xFFFF, 6, .none⟩
def R.TSL_SWAP_AT : Reg := ⟨0x28, 1, 0x108, 4, 64, 1, 4, .rw, .c 0x0, .retained, 0xFFFFFFFF, 7, .none⟩
def R.TSL_STATUS : Reg := ⟨0x28, 1, 0x10C, 4, 64, 1, 4, .ro, .c 0x0, .retained, 0x1FFFFFFF, 7, .none⟩
def R.TSL_MODEL_ID : Reg := ⟨0x28, 1, 0x110, 4, 64, 1, 4, .ro, .c 0x0, .retained, 0xFFFFFFFF, 7, .none⟩
def R.TSL_MODEL_VER : Reg := ⟨0x28, 1, 0x114, 4, 64, 1, 4, .ro, .c 0x0, .retained, 0xFFFFFFFF, 7, .none⟩
def R.TSL_STAGED_ID : Reg := ⟨0x28, 1, 0x118, 4, 64, 1, 4, .ro, .c 0x0, .retained, 0xFFFFFFFF, 7, .none⟩
def R.TSL_STAGED_VER : Reg := ⟨0x28, 1, 0x11C, 4, 64, 1, 4, .ro, .c 0x0, .retained, 0xFFFFFFFF, 7, .none⟩
def R.TSL_VER_FLOOR : Reg := ⟨0x28, 1, 0x120, 4, 64, 1, 4, .ro, .c 0x0, .sticky, 0xFFFFFFFF, 7, .none⟩
def R.TSL_SWAP_MUSTER : Reg := ⟨0x28, 1, 0x124, 4, 64, 1, 4, .ro, .c 0x0, .retained, 0xFFFFFFFF, 7, .none⟩
def R.TSL_SKIPPED : Reg := ⟨0x28, 1, 0x128, 4, 64, 1, 4, .rc, .c 0x0, .retained, 0xFFFFFFFF, 7, .none⟩
def R.TSL_SAMPLES : Reg := ⟨0x28, 1, 0x12C, 4, 64, 1, 4, .ro, .c 0x0, .retained, 0xFFFFFFFF, 7, .none⟩
def R.TSL_CANCEL : Reg := ⟨0x28, 1, 0x130, 4, 64, 1, 4, .wo, .c 0x0, .retained, 0x1, 7, .none⟩
def R.TSL_LAST_MUSTER : Reg := ⟨0x28, 1, 0x400, 4, 64, 1, 4, .ro, .c 0x0, .retained, 0xFFFFFFFF, 7, .none⟩
def R.TSL_LAST_FLAGS : Reg := ⟨0x28, 1, 0x404, 4, 64, 1, 4, .ro, .c 0x0, .retained, 0xFF, 7, .none⟩
def R.TSL_MARGIN : Reg := ⟨0x28, 1, 0x408, 4, 64, 8, 4, .ro, .c 0x7FC00000, .retained, 0xFFFFFFFF, 7, .none⟩
def R.TSL_OUT : Reg := ⟨0x28, 1, 0x428, 4, 64, 6, 4, .ro, .c 0x7FC00000, .retained, 0xFFFFFFFF, 7, .none⟩
def R.TSL_OUT_HI : Reg := ⟨0x28, 1, 0x600, 4, 8, 2, 4, .ro, .c 0x7FC00000, .retained, 0xFFFFFFFF, 7, .none⟩

/-- The registers of TREE, page 0x028 (Table 9-10). -/
def block_p028 : List Reg :=
  [R.TREE_CTRL, R.TREE_STREAM, R.TREE_CAP, R.TREE_NODE_FREE, R.TREE_LEAF_FREE, R.TREE_LOAD_STREAM,
   R.TREE_LOAD_CTRL, R.TREE_LOAD_DATA, R.TREE_LOAD_STATUS, R.TREE_LOAD_BYTES, R.TREE_SKIPPED, R.TREE_POISON,
   R.TREE_EVALS_LO, R.TREE_EVALS_HI, R.TSL_CTRL, R.TSL_BIND_STREAM, R.TSL_SWAP_AT, R.TSL_STATUS,
   R.TSL_MODEL_ID, R.TSL_MODEL_VER, R.TSL_STAGED_ID, R.TSL_STAGED_VER, R.TSL_VER_FLOOR, R.TSL_SWAP_MUSTER,
   R.TSL_SKIPPED, R.TSL_SAMPLES, R.TSL_CANCEL, R.TSL_LAST_MUSTER, R.TSL_LAST_FLAGS, R.TSL_MARGIN,
   R.TSL_OUT, R.TSL_OUT_HI]

/-! ### OUTRIDER, page 0x029 (Table 10-7) -/

def R.OUT_CTRL : Reg := ⟨0x29, 1, 0x80, 1, 4, 1, 4, .rw, .c 0x0, .sticky, 0x3, 7, .none⟩
def R.OUT_STREAM : Reg := ⟨0x29, 1, 0x84, 1, 4, 1, 4, .rw, .c 0x0, .sticky, 0xFFFF, 7, .none⟩
def R.OUT_STATUS : Reg := ⟨0x29, 1, 0x88, 1, 4, 1, 4, .ro, .c 0x10, .retained, 0xFFFFFFFF, 7, .none⟩
def R.OUT_ESC_STREAM : Reg := ⟨0x29, 1, 0x8C, 1, 4, 1, 4, .ro, .c 0x0, .sticky, 0xFFFF, 7, .none⟩
def R.OUT_WATCH : Reg := ⟨0x29, 1, 0x90, 1, 4, 1, 4, .rw, .c 0x200, .sticky, 0x3FF, 7, .none⟩
def R.OUT_REQ_REPEAT : Reg := ⟨0x29, 1, 0x94, 1, 4, 1, 4, .rw, .c 0x1000, .sticky, 0xFFFF, 7, .none⟩
def R.OUT_OWN : Reg := ⟨0x29, 1, 0x98, 1, 4, 1, 4, .ro, .c 0x400, .retained, 0xFF7FF, 7, .none⟩
def R.OUT_OWN_MUSTER : Reg := ⟨0x29, 1, 0x9C, 1, 4, 1, 4, .ro, .c 0x0, .retained, 0xFFFFFFFF, 7, .none⟩
def R.OUT_CLEAR : Reg := ⟨0x29, 1, 0xA0, 1, 4, 1, 4, .wo, .c 0x0, .sticky, 0xFFFFFF, 7, .none⟩
def R.OUT_STEP_MARK : Reg := ⟨0x29, 1, 0xA4, 1, 4, 1, 4, .wo, .c 0x0, .sticky, 0x1, 7, .none⟩
def R.OUT_STEP_CFG : Reg := ⟨0x29, 1, 0xA8, 1, 4, 1, 4, .rw, .c 0x0, .sticky, 0x3F, 2, .none⟩
def R.OUT_BUDGET_RATE : Reg := ⟨0x29, 1, 0xAC, 1, 4, 1, 4, .rw, .c 0x0, .sticky, 0xFFFFFFFF, 7, .none⟩
def R.OUT_BUDGET_BURST : Reg := ⟨0x29, 1, 0xB0, 1, 4, 1, 4, .rw, .c 0x0, .sticky, 0xFFF, 7, .none⟩
def R.OUT_BUDGET_LEVEL : Reg := ⟨0x29, 1, 0xB4, 1, 4, 1, 4, .ro, .c 0x0, .sticky, 0xFFFFFFFF, 7, .none⟩
def R.OUT_BUDGET_SPENT : Reg := ⟨0x29, 1, 0xB8, 1, 4, 1, 4, .ro, .c 0x0, .sticky, 0xFFFFFFFF, 7, .none⟩
def R.OUT_STEP_NUM : Reg := ⟨0x29, 1, 0xBC, 1, 4, 1, 4, .ro, .c 0x0, .sticky, 0xFFFFFFFF, 7, .none⟩
def R.OUT_STEP_SKIPPED : Reg := ⟨0x29, 1, 0xC0, 1, 4, 1, 4, .rc, .c 0x0, .retained, 0xFFFFFFFF, 7, .none⟩
def R.OUT_DEFER_REFUSED : Reg := ⟨0x29, 1, 0xC4, 1, 4, 1, 4, .rc, .c 0x0, .retained, 0xFFFFFFFF, 7, .none⟩
def R.OUT_DEFER_EXPIRED : Reg := ⟨0x29, 1, 0xC8, 1, 4, 1, 4, .rc, .c 0x0, .retained, 0xFFFFFFFF, 7, .none⟩
def R.OUT_ADV_ACK : Reg := ⟨0x29, 1, 0xCC, 1, 4, 1, 4, .wo, .c 0x0, .retained, 0xFFFFFF, 7, .none⟩
def R.OUT_LIST_SEL : Reg := ⟨0x29, 1, 0xD0, 1, 4, 1, 4, .rw, .c 0x0, .volatile, 0x7FF, 7, .none⟩
def R.OUT_LIST_ID : Reg := ⟨0x29, 1, 0xD4, 1, 4, 1, 4, .ro, .c 0x0, .retained, 0x8FFFFFFF, 7, .none⟩
def R.OUT_LIST_INFO : Reg := ⟨0x29, 1, 0xD8, 1, 4, 1, 4, .ro, .c 0x0, .retained, 0x7FF03FF, 7, .none⟩
def R.OUT_DIE_SEL : Reg := ⟨0x29, 1, 0xDC, 1, 4, 1, 4, .rw, .c 0x0, .volatile, 0xFF, 7, .none⟩
def R.OUT_DIE_ID : Reg := ⟨0x29, 1, 0xE0, 1, 4, 1, 4, .ro, .c 0x0, .retained, 0x80FFFFFF, 7, .none⟩
def R.OUT_DIE_STATE : Reg := ⟨0x29, 1, 0xE4, 1, 4, 1, 4, .ro, .c 0x0, .retained, 0xFFFFF3FF, 7, .none⟩
def R.OUT_DIE_SINCE : Reg := ⟨0x29, 1, 0xE8, 1, 4, 1, 4, .ro, .c 0x0, .retained, 0xFFFFFFFF, 7, .none⟩
def R.OUT_DIE_FULL : Reg := ⟨0x29, 1, 0xEC, 1, 4, 1, 4, .rc, .c 0x0, .retained, 0xFFFFFFFF, 7, .none⟩
def R.OUT_THERM_CFG : Reg := ⟨0x29, 1, 0xF0, 1, 4, 1, 4, .rw, .c 0x0, .sticky, 0xFFF003F, 7, .none⟩
def R.OUT_THERM_FEAT : Reg := ⟨0x29, 1, 0xF4, 1, 4, 1, 4, .rw, .c 0x0, .sticky, 0x3FF03FF, 7, .none⟩
def R.OUT_THERM_TEMP : Reg := ⟨0x29, 1, 0xF8, 1, 4, 1, 4, .rw, .c 0x42BE0000, .sticky, 0xFFFFFFFF, 7, .none⟩
def R.OUT_THERM_WIN : Reg := ⟨0x29, 1, 0xFC, 1, 4, 1, 4, .rw, .c 0x7D00008, .sticky, 0xFFFF00FF, 7, .none⟩
def R.OUT_RULE_CFG : Reg := ⟨0x29, 1, 0x100, 16, 16, 1, 4, .rw, .c 0x0, .sticky, 0xFFCFFDFF, 7, .none⟩
def R.OUT_RULE_LO : Reg := ⟨0x29, 1, 0x104, 16, 16, 1, 4, .rw, .c 0x0, .sticky, 0xFFFFFFFF, 7, .none⟩
def R.OUT_RULE_HI : Reg := ⟨0x29, 1, 0x108, 16, 16, 1, 4, .rw, .c 0x3F800000, .sticky, 0xFFFFFFFF, 7, .none⟩
def R.OUT_RULE_PERSIST : Reg := ⟨0x29, 1, 0x10C, 16, 16, 1, 4, .rw, .c 0x8088300, .sticky, 0x3FFFFFFF, 7, .none⟩
def R.OUT_ADMIT : Reg := ⟨0x29, 1, 0x200, 1, 4, 1, 4, .rw, .c 0x0, .volatile, 0xBF1F, 2, .none⟩
def R.OUT_ADMIT_DEFMASK : Reg := ⟨0x29, 1, 0x204, 1, 4, 1, 4, .rw, .c 0x0, .sticky, 0x3F00, 2, .none⟩
def R.OUT_ADMIT_STATUS : Reg := ⟨0x29, 1, 0x208, 1, 4, 1, 4, .ro, .c 0x0, .retained, 0x1F73, 2, .none⟩
def R.OUT_ADMIT_EPOCH : Reg := ⟨0x29, 1, 0x20C, 1, 4, 1, 4, .ro, .c 0x0, .retained, 0xFFFFFFFF, 2, .none⟩
def R.OUT_ADMIT_TIMEOUT : Reg := ⟨0x29, 1, 0x210, 1, 4, 1, 4, .rw, .c 0xC8, .sticky, 0xFFFF, 2, .none⟩

/-- The registers of OUTRIDER, page 0x029 (Table 10-7). -/
def block_p029 : List Reg :=
  [R.OUT_CTRL, R.OUT_STREAM, R.OUT_STATUS, R.OUT_ESC_STREAM, R.OUT_WATCH, R.OUT_REQ_REPEAT,
   R.OUT_OWN, R.OUT_OWN_MUSTER, R.OUT_CLEAR, R.OUT_STEP_MARK, R.OUT_STEP_CFG, R.OUT_BUDGET_RATE,
   R.OUT_BUDGET_BURST, R.OUT_BUDGET_LEVEL, R.OUT_BUDGET_SPENT, R.OUT_STEP_NUM, R.OUT_STEP_SKIPPED, R.OUT_DEFER_REFUSED,
   R.OUT_DEFER_EXPIRED, R.OUT_ADV_ACK, R.OUT_LIST_SEL, R.OUT_LIST_ID, R.OUT_LIST_INFO, R.OUT_DIE_SEL,
   R.OUT_DIE_ID, R.OUT_DIE_STATE, R.OUT_DIE_SINCE, R.OUT_DIE_FULL, R.OUT_THERM_CFG, R.OUT_THERM_FEAT,
   R.OUT_THERM_TEMP, R.OUT_THERM_WIN, R.OUT_RULE_CFG, R.OUT_RULE_LO, R.OUT_RULE_HI, R.OUT_RULE_PERSIST,
   R.OUT_ADMIT, R.OUT_ADMIT_DEFMASK, R.OUT_ADMIT_STATUS, R.OUT_ADMIT_EPOCH, R.OUT_ADMIT_TIMEOUT]

/-! ### ABFT, page 0x023 (Table 11-7) -/

def R.ABFT_CTRL : Reg := ⟨0x23, 1, 0x80, 1, 4, 1, 4, .rw, .c 0x0, .sticky, 0x3, 3, .none⟩
def R.ABFT_ENG_EN : Reg := ⟨0x23, 1, 0x84, 1, 4, 1, 4, .rw, .c 0xFFFFFFFF, .sticky, 0xFFFFFFFF, 3, .none⟩
def R.ABFT_STATUS : Reg := ⟨0x23, 1, 0x88, 1, 4, 1, 4, .ro, .c 0x0, .sticky, 0x7, 3, .none⟩
def R.ABFT_PASS_LO : Reg := ⟨0x23, 1, 0x8C, 1, 4, 1, 4, .ro, .c 0x0, .sticky, 0xFFFFFFFF, 3, .none⟩
def R.ABFT_PASS_HI : Reg := ⟨0x23, 1, 0x90, 1, 4, 1, 4, .ro, .c 0x0, .sticky, 0xFFFFFFFF, 3, .none⟩
def R.ABFT_FAIL : Reg := ⟨0x23, 1, 0x94, 1, 4, 1, 4, .ro, .c 0x0, .sticky, 0xFFFFFFFF, 3, .none⟩
def R.ABFT_UNCHECKABLE : Reg := ⟨0x23, 1, 0x98, 1, 4, 1, 4, .rc, .c 0x0, .retained, 0xFFFFFFFF, 3, .none⟩
def R.ABFT_DISABLED_ENG : Reg := ⟨0x23, 1, 0x9C, 1, 4, 1, 4, .rc, .c 0x0, .retained, 0xFFFFFFFF, 3, .none⟩
def R.ABFT_LOST_BEATS : Reg := ⟨0x23, 1, 0xA0, 1, 4, 1, 4, .rc, .c 0x0, .retained, 0xFFFFFFFF, 3, .none⟩
def R.ABFT_ACTIVE_US : Reg := ⟨0x23, 1, 0xA4, 1, 4, 1, 4, .rw, .c 0x3E8, .sticky, 0xFFFFF, 3, .none⟩
def R.ABFT_EPOCH_NOW : Reg := ⟨0x23, 1, 0xA8, 1, 4, 1, 4, .ro, .c 0x0, .retained, 0xFFFFFFFF, 3, .none⟩
def R.ABFT_STREAM : Reg := ⟨0x23, 1, 0xAC, 1, 4, 1, 4, .rw, .c 0x0, .sticky, 0xFFFF, 3, .none⟩
def R.ABFT_BIN_CFG : Reg := ⟨0x23, 1, 0xB0, 1, 4, 1, 4, .rw, .c 0x10, .sticky, 0xFFCFF, 3, .none⟩
def R.ABFT_VBIN : Reg := ⟨0x23, 1, 0xB4, 1, 4, 1, 4, .rw, .c 0xFA1964, .sticky, 0xFFFFFFFF, 3, .none⟩
def R.ABFT_COND : Reg := ⟨0x23, 1, 0xB8, 1, 4, 1, 4, .rw, .c 0x203E8, .sticky, 0xFFFFF, 3, .none⟩
def R.ABFT_BIN_SEL : Reg := ⟨0x23, 1, 0xBC, 1, 4, 1, 4, .rw, .c 0x0, .volatile, 0x3FF, 3, .none⟩
def R.ABFT_BIN_PASS : Reg := ⟨0x23, 1, 0xC0, 1, 4, 1, 4, .ro, .c 0x0, .sticky, 0xFFFFFFFF, 3, .none⟩
def R.ABFT_BIN_FAIL : Reg := ⟨0x23, 1, 0xC4, 1, 4, 1, 4, .ro, .c 0x0, .sticky, 0xFFFF, 3, .none⟩
def R.ABFT_UNBINNED : Reg := ⟨0x23, 1, 0xC8, 1, 4, 1, 4, .ro, .c 0x0, .sticky, 0xFFFFFFFF, 3, .none⟩
def R.ABFT_TAINT_CLEAR : Reg := ⟨0x23, 1, 0xCC, 1, 4, 1, 4, .wo, .c 0x0, .sticky, 0x1, 3, .none⟩
def R.ABFT_HZN_CLEAN : Reg := ⟨0x23, 1, 0xD0, 1, 4, 1, 4, .ro, .c 0x0, .sticky, 0xFFFFFFFF, 3, .none⟩
def R.ABFT_HZN_FAIL : Reg := ⟨0x23, 1, 0xD4, 1, 4, 1, 4, .ro, .c 0x0, .sticky, 0xFFFFFFFF, 3, .none⟩
def R.ABFT_HZN_SU_LO : Reg := ⟨0x23, 1, 0xD8, 1, 4, 1, 4, .ro, .c 0x0, .sticky, 0xFFFFFFFF, 3, .none⟩
def R.ABFT_HZN_SU_HI : Reg := ⟨0x23, 1, 0xDC, 1, 4, 1, 4, .ro, .c 0x0, .sticky, 0xFFFFFFFF, 3, .none⟩
def R.ABFT_HZN_INFO : Reg := ⟨0x23, 1, 0xE0, 1, 4, 1, 4, .ro, .c 0x0, .sticky, 0xFFFF0FFF, 3, .none⟩
def R.ABFT_TOL_ABS : Reg := ⟨0x23, 1, 0x100, 7, 8, 1, 4, .rw, .c 0, .sticky, 0xFFFFFFFF, 3, .none⟩
def R.ABFT_TOL_REL : Reg := ⟨0x23, 1, 0x104, 7, 8, 1, 4, .rw, .tab [0x2B800000, 0x37800000, 0x3C800000, 0x3E000000, 0x3E800000, 0, 0], .sticky, 0xFFFFFFFF, 3, .none⟩
def R.ABFT_RX_TOTAL : Reg := ⟨0x23, 1, 0x200, 1, 4, 1, 4, .rc, .c 0x0, .retained, 0xFFFFFFFF, 7, .none⟩
def R.ABFT_RX_SEL : Reg := ⟨0x23, 1, 0x204, 1, 4, 1, 4, .rw, .c 0x0, .volatile, 0xF, 7, .none⟩
def R.ABFT_RX_DIE : Reg := ⟨0x23, 1, 0x208, 1, 4, 1, 4, .ro, .c 0x0, .retained, 0x81FFFFFF, 7, .none⟩
def R.ABFT_RX_CLEAN : Reg := ⟨0x23, 1, 0x20C, 1, 4, 1, 4, .ro, .c 0x0, .retained, 0xFFFFFFFF, 7, .none⟩
def R.ABFT_RX_SUSPECT : Reg := ⟨0x23, 1, 0x210, 1, 4, 1, 4, .ro, .c 0x0, .retained, 0xFFFFFFFF, 7, .none⟩
def R.ABFT_RX_SEQ : Reg := ⟨0x23, 1, 0x214, 1, 4, 1, 4, .ro, .c 0x0, .retained, 0xFFFFFFFF, 7, .none⟩
def R.ABFT_PAT_ID : Reg := ⟨0x23, 1, 0x300, 1, 4, 1, 4, .rw, .c 0x0, .volatile, 0xFFFFFFFF, 3, .none⟩
def R.ABFT_PAT_VER : Reg := ⟨0x23, 1, 0x304, 1, 4, 1, 4, .rw, .c 0x0, .volatile, 0xFFFFFFFF, 3, .none⟩
def R.ABFT_PAT_EXPECT : Reg := ⟨0x23, 1, 0x308, 1, 4, 1, 4, .rw, .c 0x0, .volatile, 0xFFFFFFFF, 3, .none⟩
def R.ABFT_PAT_ENG : Reg := ⟨0x23, 1, 0x30C, 1, 4, 1, 4, .rw, .c 0x0, .volatile, 0xFFFFFFFF, 3, .none⟩
def R.ABFT_PAT_GO : Reg := ⟨0x23, 1, 0x310, 1, 4, 1, 4, .wo, .c 0x0, .volatile, 0x3, 3, .none⟩
def R.ABFT_PAT_STATUS : Reg := ⟨0x23, 1, 0x314, 1, 4, 1, 4, .ro, .c 0x0, .retained, 0x1F, 3, .none⟩
def R.ABFT_PAT_COUNTS : Reg := ⟨0x23, 1, 0x318, 1, 4, 1, 4, .ro, .c 0x0, .retained, 0xFFFFFFFF, 3, .none⟩
def R.ABFT_PAT_TIMEOUT : Reg := ⟨0x23, 1, 0x31C, 1, 4, 1, 4, .rw, .c 0x3E8, .sticky, 0xFFFF, 3, .none⟩
def R.ABFT_PAT_LAST_PASS : Reg := ⟨0x23, 1, 0x320, 1, 4, 1, 4, .ro, .c 0x0, .sticky, 0xFFFFFFFF, 3, .none⟩
def R.ABFT_IDLE_STREAMS : Reg := ⟨0x23, 1, 0x340, 1, 4, 1, 4, .rw, .c 0x0, .sticky, 0xFFFFFFFF, 3, .none⟩
def R.ABFT_IDLE_MIN : Reg := ⟨0x23, 1, 0x344, 1, 4, 1, 4, .rw, .c 0x1F4, .sticky, 0xFFFF, 3, .none⟩
def R.PAT_STAGE_STREAM : Reg := ⟨0x23, 1, 0x400, 1, 4, 1, 4, .rw, .c 0x0, .sticky, 0xFFFF, 4, .none⟩
def R.PAT_PLACE_ID : Reg := ⟨0x23, 1, 0x410, 4, 16, 1, 4, .ro, .c 0x0, .retained, 0xFFFFFFFF, 4, .none⟩
def R.PAT_PLACE_VER : Reg := ⟨0x23, 1, 0x414, 4, 16, 1, 4, .ro, .c 0x0, .retained, 0xFFFFFFFF, 4, .none⟩
def R.PAT_PLACE_STATE : Reg := ⟨0x23, 1, 0x418, 4, 16, 1, 4, .ro, .c 0x0, .retained, 0xFFFFFF73, 4, .none⟩
def R.PAT_PLACE_DROP : Reg := ⟨0x23, 1, 0x41C, 4, 16, 1, 4, .wo, .c 0x0, .retained, 0x1, 4, .none⟩

/-- The registers of ABFT, page 0x023 (Table 11-7). -/
def block_p023 : List Reg :=
  [R.ABFT_CTRL, R.ABFT_ENG_EN, R.ABFT_STATUS, R.ABFT_PASS_LO, R.ABFT_PASS_HI, R.ABFT_FAIL,
   R.ABFT_UNCHECKABLE, R.ABFT_DISABLED_ENG, R.ABFT_LOST_BEATS, R.ABFT_ACTIVE_US, R.ABFT_EPOCH_NOW, R.ABFT_STREAM,
   R.ABFT_BIN_CFG, R.ABFT_VBIN, R.ABFT_COND, R.ABFT_BIN_SEL, R.ABFT_BIN_PASS, R.ABFT_BIN_FAIL,
   R.ABFT_UNBINNED, R.ABFT_TAINT_CLEAR, R.ABFT_HZN_CLEAN, R.ABFT_HZN_FAIL, R.ABFT_HZN_SU_LO, R.ABFT_HZN_SU_HI,
   R.ABFT_HZN_INFO, R.ABFT_TOL_ABS, R.ABFT_TOL_REL, R.ABFT_RX_TOTAL, R.ABFT_RX_SEL, R.ABFT_RX_DIE,
   R.ABFT_RX_CLEAN, R.ABFT_RX_SUSPECT, R.ABFT_RX_SEQ, R.ABFT_PAT_ID, R.ABFT_PAT_VER, R.ABFT_PAT_EXPECT,
   R.ABFT_PAT_ENG, R.ABFT_PAT_GO, R.ABFT_PAT_STATUS, R.ABFT_PAT_COUNTS, R.ABFT_PAT_TIMEOUT, R.ABFT_PAT_LAST_PASS,
   R.ABFT_IDLE_STREAMS, R.ABFT_IDLE_MIN, R.PAT_STAGE_STREAM, R.PAT_PLACE_ID, R.PAT_PLACE_VER, R.PAT_PLACE_STATE,
   R.PAT_PLACE_DROP]

/-! ### TRACE, page 0x024 (Table 12-13) -/

def R.TRC_CTRL : Reg := ⟨0x24, 1, 0x80, 1, 4, 1, 4, .rw, .c 0x6404, .sticky, 0xFF1F, 3, .none⟩
def R.TRC_STREAM : Reg := ⟨0x24, 1, 0x84, 1, 4, 1, 4, .rw, .c 0x0, .sticky, 0xFFFF, 3, .none⟩
def R.TRC_STATUS : Reg := ⟨0x24, 1, 0x88, 1, 4, 1, 4, .ro, .c 0x0, .retained, 0x7077F, 3, .none⟩
def R.TRC_ARM : Reg := ⟨0x24, 1, 0x8C, 1, 4, 1, 4, .wo, .c 0x0, .sticky, 0x1, 3, .none⟩
def R.TRC_WIN : Reg := ⟨0x24, 1, 0x90, 1, 4, 1, 4, .rw, .c 0x400040, .sticky, 0xFFFFFFFF, 3, .none⟩
def R.TRC_RESUME : Reg := ⟨0x24, 1, 0x94, 1, 4, 1, 4, .rw, .c 0x100, .sticky, 0xFFFF, 3, .none⟩
def R.TRC_TRIG_EN : Reg := ⟨0x24, 1, 0x98, 1, 4, 1, 4, .rw, .c 0x0, .sticky, 0x3FFFFF, 3, .none⟩
def R.TRC_TRIG_SW : Reg := ⟨0x24, 1, 0x9C, 1, 4, 1, 4, .wo, .c 0x0, .sticky, 0x1, 3, .none⟩
def R.TRC_MATCH : Reg := ⟨0x24, 1, 0xA0, 1, 4, 1, 4, .rw, .c 0x0, .sticky, 0xFFFF07, 3, .none⟩
def R.TRC_PLR_SYNC : Reg := ⟨0x24, 1, 0xA4, 1, 4, 1, 4, .rw, .c 0xC, .sticky, 0x1F, 3, .none⟩
def R.TRC_TRIGGERS : Reg := ⟨0x24, 1, 0xA8, 1, 4, 1, 4, .rc, .c 0x0, .retained, 0xFFFFFFFF, 3, .none⟩
def R.TRC_TRIG_MERGED : Reg := ⟨0x24, 1, 0xAC, 1, 4, 1, 4, .rc, .c 0x0, .retained, 0xFFFFFFFF, 3, .none⟩
def R.TRC_TRIG_REFUSED : Reg := ⟨0x24, 1, 0xB0, 1, 4, 1, 4, .rc, .c 0x0, .retained, 0xFFFFFFFF, 3, .none⟩
def R.TRC_MALFORMED : Reg := ⟨0x24, 1, 0xB4, 1, 4, 1, 4, .rc, .c 0x0, .retained, 0xFFFFFFFF, 3, .none⟩
def R.TRC_EXCLUDED : Reg := ⟨0x24, 1, 0xB8, 1, 4, 1, 4, .rc, .c 0x0, .retained, 0xFFFFFFFF, 3, .none⟩
def R.TRC_OVF : Reg := ⟨0x24, 1, 0xBC, 1, 4, 1, 4, .rc, .c 0x0, .retained, 0xFFFFFFFF, 3, .none⟩
def R.TRC_LOST : Reg := ⟨0x24, 1, 0xC0, 5, 4, 1, 4, .rc, .c 0x0, .retained, 0xFFFFFFFF, 3, .none⟩
def R.TRC_SUMMARISED : Reg := ⟨0x24, 1, 0xE0, 5, 4, 1, 4, .rc, .c 0x0, .retained, 0xFFFFFFFF, 3, .none⟩
def R.TRC_TOK_CTRL : Reg := ⟨0x24, 1, 0x100, 1, 4, 1, 4, .wo, .c 0x0, .retained, 0x7, 3, .none⟩
def R.TRC_TOK_DATA : Reg := ⟨0x24, 1, 0x104, 1, 4, 1, 4, .wo, .c 0x0, .retained, 0xFFFFFFFF, 3, .none⟩
def R.TRC_TOK_STATUS : Reg := ⟨0x24, 1, 0x108, 1, 4, 1, 4, .ro, .c 0x0, .retained, 0xF0F03, 3, .none⟩
def R.TRC_TOK_REVOKE : Reg := ⟨0x24, 1, 0x10C, 1, 4, 1, 4, .wo, .c 0x0, .retained, 0xFFFFFFFF, 3, .none⟩
def R.TRC_TOK_SEL : Reg := ⟨0x24, 1, 0x110, 1, 4, 1, 4, .rw, .c 0x0, .volatile, 0x7, 3, .none⟩
def R.TRC_TOK_ID : Reg := ⟨0x24, 1, 0x114, 1, 4, 1, 4, .ro, .c 0x0, .retained, 0xFFFFFFFF, 3, .none⟩
def R.TRC_TOK_INFO : Reg := ⟨0x24, 1, 0x118, 1, 4, 1, 4, .ro, .c 0x0, .retained, 0x80001FFF, 3, .none⟩
def R.TRC_TOK_END_LO : Reg := ⟨0x24, 1, 0x11C, 1, 4, 1, 4, .ro, .c 0x0, .retained, 0xFFFFFFFF, 3, .none⟩
def R.TRC_TOK_END_HI : Reg := ⟨0x24, 1, 0x120, 1, 4, 1, 4, .ro, .c 0x0, .retained, 0xFFFF, 3, .none⟩

/-- The registers of TRACE, page 0x024 (Table 12-13). -/
def block_p024 : List Reg :=
  [R.TRC_CTRL, R.TRC_STREAM, R.TRC_STATUS, R.TRC_ARM, R.TRC_WIN, R.TRC_RESUME,
   R.TRC_TRIG_EN, R.TRC_TRIG_SW, R.TRC_MATCH, R.TRC_PLR_SYNC, R.TRC_TRIGGERS, R.TRC_TRIG_MERGED,
   R.TRC_TRIG_REFUSED, R.TRC_MALFORMED, R.TRC_EXCLUDED, R.TRC_OVF, R.TRC_LOST, R.TRC_SUMMARISED,
   R.TRC_TOK_CTRL, R.TRC_TOK_DATA, R.TRC_TOK_STATUS, R.TRC_TOK_REVOKE, R.TRC_TOK_SEL, R.TRC_TOK_ID,
   R.TRC_TOK_INFO, R.TRC_TOK_END_LO, R.TRC_TOK_END_HI]

/-! ### TRACEBUF, page 0x025 (Table 12-14) -/

def R.TB_SIZE : Reg := ⟨0x25, 1, 0x80, 1, 4, 1, 4, .ro, .c 0x80000, .otp, 0xFFFFFFFF, 3, .none⟩
def R.TB_WRITE : Reg := ⟨0x25, 1, 0x84, 1, 4, 1, 4, .ro, .c 0x0, .retained, 0x7F, 3, .none⟩
def R.TB_DRAIN : Reg := ⟨0x25, 1, 0x88, 1, 4, 1, 4, .ro, .c 0x0, .retained, 0x7F, 3, .none⟩
def R.TB_FREE : Reg := ⟨0x25, 1, 0x8C, 1, 4, 1, 4, .ro, .c 0x80000, .retained, 0xFFFFFFFF, 3, .none⟩
def R.TB_READ_SEL : Reg := ⟨0x25, 1, 0x90, 1, 4, 1, 4, .rw, .c 0x0, .volatile, 0xFF, 3, .none⟩
def R.TB_BLOCK_INFO : Reg := ⟨0x25, 1, 0x94, 1, 4, 1, 4, .ro, .c 0x0, .retained, 0xFFFFFFFF, 3, .none⟩
def R.TB_WIN_STATE : Reg := ⟨0x25, 1, 0xA0, 4, 16, 1, 4, .ro, .c 0x0, .retained, 0x7F7F0F, 3, .none⟩
def R.TB_WIN_TRIG_NUM : Reg := ⟨0x25, 1, 0xA4, 4, 16, 1, 4, .ro, .c 0x0, .retained, 0xFFFF, 3, .none⟩
def R.TB_WIN_TRIG_LO : Reg := ⟨0x25, 1, 0xA8, 4, 16, 1, 4, .ro, .c 0x0, .retained, 0xFFFFFFFF, 3, .none⟩
def R.TB_WIN_TRIG_HI : Reg := ⟨0x25, 1, 0xAC, 4, 16, 1, 4, .ro, .c 0x0, .retained, 0xFFFFFFFF, 3, .none⟩
def R.TB_WIN_RELEASE : Reg := ⟨0x25, 1, 0xE0, 1, 4, 1, 4, .wo, .c 0x0, .retained, 0xF, 3, .none⟩
def R.TB_OVERWRITTEN : Reg := ⟨0x25, 1, 0xE4, 1, 4, 1, 4, .rc, .c 0x0, .retained, 0xFFFFFFFF, 3, .none⟩
def R.TB_AGG_SIZE : Reg := ⟨0x25, 1, 0x100, 1, 4, 1, 4, .ro, .c 0x300000, .otp, 0xFFFFFFFF, 2, .none⟩
def R.TB_AGG_FILL : Reg := ⟨0x25, 1, 0x104, 1, 4, 1, 4, .ro, .c 0x0, .retained, 0xFFFFFFFF, 2, .none⟩
def R.TB_AGG_RECORDS : Reg := ⟨0x25, 1, 0x108, 1, 4, 1, 4, .rc, .c 0x0, .retained, 0xFFFFFFFF, 2, .none⟩
def R.TB_AGG_STALL : Reg := ⟨0x25, 1, 0x10C, 1, 4, 1, 4, .rc, .c 0x0, .retained, 0xFFFFFFFF, 2, .none⟩
def R.TB_DATA : Reg := ⟨0x25, 1, 0x800, 512, 4, 1, 4, .ro, .c 0x0, .retained, 0xFFFFFFFF, 3, .none⟩

/-- The registers of TRACEBUF, page 0x025 (Table 12-14). -/
def block_p025 : List Reg :=
  [R.TB_SIZE, R.TB_WRITE, R.TB_DRAIN, R.TB_FREE, R.TB_READ_SEL, R.TB_BLOCK_INFO,
   R.TB_WIN_STATE, R.TB_WIN_TRIG_NUM, R.TB_WIN_TRIG_LO, R.TB_WIN_TRIG_HI, R.TB_WIN_RELEASE, R.TB_OVERWRITTEN,
   R.TB_AGG_SIZE, R.TB_AGG_FILL, R.TB_AGG_RECORDS, R.TB_AGG_STALL, R.TB_DATA]

/-! ### CODEC, page 0x02E (Table 13-6) -/

def R.CDC_CTRL : Reg := ⟨0x2E, 1, 0x80, 1, 4, 1, 4, .rw, .c 0x1, .sticky, 0x1, 7, .none⟩
def R.CDC_LEVEL : Reg := ⟨0x2E, 1, 0x84, 1, 4, 1, 4, .rw, .c 0x2420, .sticky, 0xFFFF, 7, .none⟩
def R.CDC_KEY_EVERY : Reg := ⟨0x2E, 1, 0x88, 1, 4, 1, 4, .rw, .c 0x10, .sticky, 0xFF, 7, .none⟩
def R.CDC_OUT_LIMIT : Reg := ⟨0x2E, 1, 0x8C, 1, 4, 1, 4, .rw, .c 0x1000, .sticky, 0x1FFFF, 7, .none⟩
def R.CDC_STATUS : Reg := ⟨0x2E, 1, 0x90, 1, 4, 1, 4, .ro, .c 0x7, .volatile, 0x7FF3FFF, 7, .none⟩
def R.CDC_RAW_LO : Reg := ⟨0x2E, 1, 0x94, 1, 4, 1, 4, .ro, .c 0x0, .retained, 0xFFFFFFFF, 7, .none⟩
def R.CDC_RAW_HI : Reg := ⟨0x2E, 1, 0x98, 1, 4, 1, 4, .ro, .c 0x0, .retained, 0xFFFFFFFF, 7, .none⟩
def R.CDC_CODED_LO : Reg := ⟨0x2E, 1, 0x9C, 1, 4, 1, 4, .ro, .c 0x0, .retained, 0xFFFFFFFF, 7, .none⟩
def R.CDC_CODED_HI : Reg := ⟨0x2E, 1, 0xA0, 1, 4, 1, 4, .ro, .c 0x0, .retained, 0xFFFFFFFF, 7, .none⟩
def R.CDC_LOWERED : Reg := ⟨0x2E, 1, 0xA4, 1, 4, 1, 4, .rc, .c 0x0, .retained, 0xFFFFFFFF, 7, .none⟩
def R.CDC_STORED : Reg := ⟨0x2E, 1, 0xA8, 1, 4, 1, 4, .rc, .c 0x0, .retained, 0xFFFFFFFF, 7, .none⟩
def R.CDC_REJECT : Reg := ⟨0x2E, 1, 0xAC, 1, 4, 1, 4, .rc, .c 0x0, .retained, 0xFFFFFFFF, 7, .none⟩
def R.CDC_REJECT_R : Reg := ⟨0x2E, 1, 0xB0, 4, 4, 1, 4, .rc, .c 0x0, .retained, 0xFFFFFFFF, 7, .none⟩
def R.CDC_LAST_REJECT : Reg := ⟨0x2E, 1, 0xC4, 1, 4, 1, 4, .ro, .c 0x0, .retained, 0xFFFFFFF, 7, .none⟩
def R.CDC_CTX_EVICT : Reg := ⟨0x2E, 1, 0xC8, 1, 4, 1, 4, .rc, .c 0x0, .retained, 0xFFFFFFFF, 7, .none⟩

/-- The registers of CODEC, page 0x02E (Table 13-6). -/
def block_p02e : List Reg :=
  [R.CDC_CTRL, R.CDC_LEVEL, R.CDC_KEY_EVERY, R.CDC_OUT_LIMIT, R.CDC_STATUS, R.CDC_RAW_LO,
   R.CDC_RAW_HI, R.CDC_CODED_LO, R.CDC_CODED_HI, R.CDC_LOWERED, R.CDC_STORED, R.CDC_REJECT,
   R.CDC_REJECT_R, R.CDC_LAST_REJECT, R.CDC_CTX_EVICT]

/-! ### HANG, page 0x02F (Table 14-4) -/

def R.HANG_CTRL : Reg := ⟨0x2F, 1, 0x80, 1, 4, 1, 4, .rw, .c 0x0, .sticky, 0x1, 7, .none⟩
def R.HANG_TIMEOUT : Reg := ⟨0x2F, 1, 0x84, 1, 4, 1, 4, .rw, .c 0x3E8, .sticky, 0xFFFFFF, 3, .none⟩
def R.HANG_PROG : Reg := ⟨0x2F, 1, 0x88, 4, 4, 1, 4, .rw, .c 0x0, .sticky, 0x80000FFF, 3, .none⟩
def R.HANG_STATUS : Reg := ⟨0x2F, 1, 0x98, 1, 4, 1, 4, .ro, .c 0x0, .retained, 0xFF07, 7, .none⟩
def R.HANG_STREAM : Reg := ⟨0x2F, 1, 0x9C, 1, 4, 1, 4, .rw, .c 0x0, .sticky, 0xFFFF, 7, .none⟩
def R.HANG_CONFIRM : Reg := ⟨0x2F, 1, 0xA0, 1, 4, 1, 4, .rw, .c 0x1F4, .sticky, 0xFFFF, 7, .none⟩
def R.HANG_MALFORMED : Reg := ⟨0x2F, 1, 0xA4, 1, 4, 1, 4, .rc, .c 0x0, .retained, 0xFFFFFFFF, 7, .none⟩
def R.HANG_SUSPECTS : Reg := ⟨0x2F, 1, 0xA8, 1, 4, 1, 4, .rc, .c 0x0, .retained, 0xFFFFFFFF, 7, .none⟩
def R.HANG_GRAPH_NUM : Reg := ⟨0x2F, 1, 0xAC, 1, 4, 1, 4, .ro, .c 0x0, .retained, 0xFFFFFFFF, 7, .none⟩
def R.HANG_CYCLES : Reg := ⟨0x2F, 1, 0xB0, 1, 4, 1, 4, .rc, .c 0x0, .retained, 0xFFFFFFFF, 7, .none⟩
def R.HANG_OVERFLOW : Reg := ⟨0x2F, 1, 0xB4, 1, 4, 1, 4, .rc, .c 0x0, .retained, 0xFFFFFFFF, 7, .none⟩
def R.HANG_NODES : Reg := ⟨0x2F, 1, 0xB8, 1, 4, 1, 4, .ro, .c 0x0, .retained, 0x1FFFF, 4, .none⟩
def R.HANG_WS_KIND : Reg := ⟨0x2F, 1, 0x100, 32, 8, 1, 4, .ro, .c 0x0, .volatile, 0x3, 3, .none⟩
def R.HANG_WS_TARGET : Reg := ⟨0x2F, 1, 0x104, 32, 8, 1, 4, .ro, .c 0x0, .volatile, 0xFFFFFFFF, 3, .none⟩

/-- The registers of HANG, page 0x02F (Table 14-4). -/
def block_p02f : List Reg :=
  [R.HANG_CTRL, R.HANG_TIMEOUT, R.HANG_PROG, R.HANG_STATUS, R.HANG_STREAM, R.HANG_CONFIRM,
   R.HANG_MALFORMED, R.HANG_SUSPECTS, R.HANG_GRAPH_NUM, R.HANG_CYCLES, R.HANG_OVERFLOW, R.HANG_NODES,
   R.HANG_WS_KIND, R.HANG_WS_TARGET]

/-! ### POWER, page 0x004 (Table 15-10) -/

def R.PWR_DOM_STATE : Reg := ⟨0x4, 1, 0x80, 1, 4, 1, 4, .ro, .c 0x0, .volatile, 0xFFFFFFFF, 7, .none⟩
def R.PWR_DOM_PRESENT : Reg := ⟨0x4, 1, 0x84, 1, 4, 1, 4, .ro, .per 0x5F 0x7FFF 0x7EF, .otp, 0xFFFFFFFF, 7, .none⟩
def R.PWR_IDLE : Reg := ⟨0x4, 1, 0x88, 1, 4, 1, 4, .rw, .per 0x1154 0x15555554 0x155454, .sticky, 0xFFFFFFFF, 7, .none⟩
def R.PWR_IDLE_DELAY : Reg := ⟨0x4, 1, 0x8C, 1, 4, 1, 4, .rw, .c 0x14, .sticky, 0xFFFF, 7, .none⟩
def R.PWR_VOTE_HOST : Reg := ⟨0x4, 1, 0x90, 1, 4, 1, 4, .rw, .c 0x0, .sticky, 0xFFFFFFFF, 7, .none⟩
def R.PWR_VOTE_FW : Reg := ⟨0x4, 1, 0x94, 1, 4, 1, 4, .rw, .c 0x0, .retained, 0xFFFFFFFF, 7, .none⟩
def R.PWR_LOSS : Reg := ⟨0x4, 1, 0x98, 1, 4, 1, 4, .w1c, .per 0x5F 0x7FFF 0x7EF, .sticky, 0xFFFFFFFF, 7, .none⟩
def R.PWR_RESET_CAUSE : Reg := ⟨0x4, 1, 0x9C, 1, 4, 1, 4, .ro, .c 0x1, .sticky, 0x3, 7, .none⟩
def R.PWR_VOTES : Reg := ⟨0x4, 1, 0xA0, 15, 4, 1, 4, .ro, .c 0x0, .volatile, 0xFFFFFFFF, 7, .none⟩
def R.PWR_SEL : Reg := ⟨0x4, 1, 0xE0, 1, 4, 1, 4, .rw, .c 0x0, .volatile, 0xF, 7, .none⟩
def R.PWR_WAKES : Reg := ⟨0x4, 1, 0xE4, 1, 4, 1, 4, .rc, .c 0x0, .retained, 0xFFFFFFFF, 7, .domain⟩
def R.PWR_LAST_WAKE_NS : Reg := ⟨0x4, 1, 0xE8, 1, 4, 1, 4, .ro, .c 0x0, .retained, 0xFFFFFFFF, 7, .domain⟩
def R.PWR_MAX_WAKE_NS : Reg := ⟨0x4, 1, 0xEC, 1, 4, 1, 4, .rc, .c 0x0, .retained, 0xFFFFFFFF, 7, .domain⟩
def R.PWR_OFF_ACCESS : Reg := ⟨0x4, 1, 0xF0, 1, 4, 1, 4, .rc, .c 0x0, .retained, 0xFFFFFFFF, 7, .none⟩
def R.PWR_HS_ALARMS : Reg := ⟨0x4, 1, 0xF4, 1, 4, 1, 4, .rc, .c 0x0, .retained, 0xFFFFFFFF, 7, .none⟩

/-- The registers of POWER, page 0x004 (Table 15-10). -/
def block_p004 : List Reg :=
  [R.PWR_DOM_STATE, R.PWR_DOM_PRESENT, R.PWR_IDLE, R.PWR_IDLE_DELAY, R.PWR_VOTE_HOST, R.PWR_VOTE_FW,
   R.PWR_LOSS, R.PWR_RESET_CAUSE, R.PWR_VOTES, R.PWR_SEL, R.PWR_WAKES, R.PWR_LAST_WAKE_NS,
   R.PWR_MAX_WAKE_NS, R.PWR_OFF_ACCESS, R.PWR_HS_ALARMS]

/-! ### DROVER, page 0x005 (Table 15-11) -/

def R.DRV_CTRL : Reg := ⟨0x5, 1, 0x80, 1, 4, 1, 4, .rw, .c 0x1, .sticky, 0x1, 7, .none⟩
def R.DRV_STATE : Reg := ⟨0x5, 1, 0x84, 1, 4, 1, 4, .ro, .c 0x0, .volatile, 0xFFFF7F03, 7, .none⟩
def R.DRV_GRANT : Reg := ⟨0x5, 1, 0x88, 1, 4, 1, 4, .ro, .c 0x0, .volatile, 0xFFFF, 7, .none⟩
def R.DRV_DERATE : Reg := ⟨0x5, 1, 0x8C, 1, 4, 1, 4, .ro, .c 0x3F800000, .volatile, 0xFFFFFFFF, 7, .none⟩
def R.DRV_W1_RESERVE : Reg := ⟨0x5, 1, 0x90, 1, 4, 1, 4, .rw, .per 250 500 2000, .sticky, 0xFFFF, 7, .none⟩
def R.DRV_CONSTRAIN_PCT : Reg := ⟨0x5, 1, 0x94, 1, 4, 1, 4, .rw, .c 0x32, .sticky, 0xFF, 7, .none⟩
def R.DRV_SHARE0 : Reg := ⟨0x5, 1, 0x98, 1, 4, 1, 4, .rw, .c 0xA141E14, .sticky, 0x7F7F7F7F, 7, .none⟩
def R.DRV_SHARE1 : Reg := ⟨0x5, 1, 0x9C, 1, 4, 1, 4, .rw, .c 0xA0A, .sticky, 0x7F7F, 7, .none⟩
def R.DRV_SPILLED : Reg := ⟨0x5, 1, 0xA0, 1, 4, 1, 4, .rc, .c 0x0, .retained, 0xFFFFFFFF, 7, .none⟩
def R.DRV_EXIT_HOLD : Reg := ⟨0x5, 1, 0xA4, 1, 4, 1, 4, .rw, .c 0xA, .sticky, 0xFFFF, 7, .none⟩
def R.DRV_HR_FULL : Reg := ⟨0x5, 1, 0xA8, 1, 4, 1, 4, .rw, .c 0x41200000, .sticky, 0xFFFFFFFF, 7, .none⟩
def R.DRV_HR_CONSTRAIN : Reg := ⟨0x5, 1, 0xAC, 1, 4, 1, 4, .rw, .c 0x40800000, .sticky, 0xFFFFFFFF, 7, .none⟩
def R.DRV_HR_EMERG : Reg := ⟨0x5, 1, 0xB0, 1, 4, 1, 4, .rw, .c 0x0, .sticky, 0xFFFFFFFF, 7, .none⟩
def R.DRV_ID_TICK : Reg := ⟨0x5, 1, 0xB4, 1, 4, 1, 4, .rw, .c 0xFA, .sticky, 0x3FFF, 7, .none⟩
def R.DRV_ID_WIN : Reg := ⟨0x5, 1, 0xB8, 1, 4, 1, 4, .rw, .c 0x200, .sticky, 0xFFFF, 7, .none⟩
def R.DRV_LAMBDA : Reg := ⟨0x5, 1, 0xBC, 1, 4, 1, 4, .rw, .c 0xC, .sticky, 0xF, 7, .none⟩
def R.DRV_RESID_MAX : Reg := ⟨0x5, 1, 0xC0, 1, 4, 1, 4, .rw, .c 0x3F000000, .sticky, 0xFFFFFFFF, 7, .none⟩
def R.DRV_HR_HORIZON : Reg := ⟨0x5, 1, 0xC4, 1, 4, 1, 4, .rw, .c 0x64, .sticky, 0xFFFF, 7, .none⟩
def R.DRV_COLD_MARGIN : Reg := ⟨0x5, 1, 0xC8, 1, 4, 1, 4, .rw, .c 0x40A00000, .sticky, 0xFFFFFFFF, 7, .none⟩
def R.DRV_ENTRIES : Reg := ⟨0x5, 1, 0xCC, 1, 4, 1, 4, .ro, .c 0x0, .sticky, 0xFFFFFFFF, 7, .none⟩
def R.DRV_COST : Reg := ⟨0x5, 1, 0xD0, 11, 4, 1, 4, .rw, .tab [0x43480000, 0x3F000000, 0x41A00000, 0x3CA3D70A, 0x40A00000, 0x42480000, 0x3F000000, 0x3D4CCCCD, 0x3D4CCCCD, 0x3DCCCCCD, 0x3E4CCCCD], .sticky, 0xFFFFFFFF, 7, .none⟩
def R.DRV_BURST : Reg := ⟨0x5, 1, 0x100, 6, 16, 1, 4, .rw, .c 0x186A0, .sticky, 0xFFFFFFF, 7, .none⟩
def R.DRV_LEVEL : Reg := ⟨0x5, 1, 0x104, 6, 16, 1, 4, .ro, .c 0x186A0, .retained, 0xFFFFFFFF, 7, .none⟩
def R.DRV_CHARGED : Reg := ⟨0x5, 1, 0x108, 6, 16, 1, 4, .ro, .c 0x0, .retained, 0xFFFFFFFF, 7, .none⟩
def R.DRV_STARVED : Reg := ⟨0x5, 1, 0x10C, 6, 16, 1, 4, .rc, .c 0x0, .retained, 0xFFFFFFFF, 7, .none⟩
def R.THM_CFG : Reg := ⟨0x5, 1, 0x200, 4, 64, 1, 4, .rw, .c 0x0, .sticky, 0xFF1, 7, .none⟩
def R.THM_STREAMS : Reg := ⟨0x5, 1, 0x204, 4, 64, 1, 4, .rw, .c 0x0, .sticky, 0xFFFFFFFF, 7, .none⟩
def R.THM_STEP_MIN : Reg := ⟨0x5, 1, 0x208, 4, 64, 1, 4, .rw, .c 0x40000000, .sticky, 0xFFFFFFFF, 7, .none⟩
def R.THM_LIMIT : Reg := ⟨0x5, 1, 0x20C, 4, 64, 1, 4, .rw, .per 0x42BE0000 0x42BE0000 0x42D20000, .sticky, 0xFFFFFFFF, 7, .none⟩
def R.THM_STATUS : Reg := ⟨0x5, 1, 0x210, 4, 64, 1, 4, .ro, .c 0x0, .sticky, 0xFFFF07, 7, .none⟩
def R.THM_TAU1 : Reg := ⟨0x5, 1, 0x214, 4, 64, 1, 4, .ro, .c 0x0, .sticky, 0xFFFFFFFF, 7, .none⟩
def R.THM_TAU2 : Reg := ⟨0x5, 1, 0x218, 4, 64, 1, 4, .ro, .c 0x0, .sticky, 0xFFFFFFFF, 7, .none⟩
def R.THM_R1 : Reg := ⟨0x5, 1, 0x21C, 4, 64, 1, 4, .ro, .c 0x0, .sticky, 0xFFFFFFFF, 7, .none⟩
def R.THM_R2 : Reg := ⟨0x5, 1, 0x220, 4, 64, 1, 4, .ro, .c 0x0, .sticky, 0xFFFFFFFF, 7, .none⟩
def R.THM_T0 : Reg := ⟨0x5, 1, 0x224, 4, 64, 1, 4, .ro, .c 0x0, .sticky, 0xFFFFFFFF, 7, .none⟩
def R.THM_PRED : Reg := ⟨0x5, 1, 0x228, 4, 64, 1, 4, .ro, .c 0x0, .volatile, 0xFFFFFFFF, 7, .none⟩
def R.THM_HEADROOM : Reg := ⟨0x5, 1, 0x22C, 4, 64, 1, 4, .ro, .c 0x0, .volatile, 0xFFFFFFFF, 7, .none⟩
def R.THM_RESID : Reg := ⟨0x5, 1, 0x230, 4, 64, 1, 4, .ro, .c 0x0, .sticky, 0xFFFFFFFF, 7, .none⟩

/-- The registers of DROVER, page 0x005 (Table 15-11). -/
def block_p005 : List Reg :=
  [R.DRV_CTRL, R.DRV_STATE, R.DRV_GRANT, R.DRV_DERATE, R.DRV_W1_RESERVE, R.DRV_CONSTRAIN_PCT,
   R.DRV_SHARE0, R.DRV_SHARE1, R.DRV_SPILLED, R.DRV_EXIT_HOLD, R.DRV_HR_FULL, R.DRV_HR_CONSTRAIN,
   R.DRV_HR_EMERG, R.DRV_ID_TICK, R.DRV_ID_WIN, R.DRV_LAMBDA, R.DRV_RESID_MAX, R.DRV_HR_HORIZON,
   R.DRV_COLD_MARGIN, R.DRV_ENTRIES, R.DRV_COST, R.DRV_BURST, R.DRV_LEVEL, R.DRV_CHARGED,
   R.DRV_STARVED, R.THM_CFG, R.THM_STREAMS, R.THM_STEP_MIN, R.THM_LIMIT, R.THM_STATUS,
   R.THM_TAU1, R.THM_TAU2, R.THM_R1, R.THM_R2, R.THM_T0, R.THM_PRED,
   R.THM_HEADROOM, R.THM_RESID]

/-! ### COOLING, page 0x116 (Table 16-9) -/

def R.COOL_CTRL : Reg := ⟨0x116, 1, 0x80, 1, 4, 1, 4, .rw, .c 0x1, .sticky, 0x3, 4, .none⟩
def R.COOL_CLASS : Reg := ⟨0x116, 1, 0x84, 1, 4, 1, 4, .ro, .c 0, .sticky, 0x3, 4, .none⟩
def R.COOL_SRC : Reg := ⟨0x116, 1, 0x88, 1, 4, 1, 4, .rw, .c 0xF, .sticky, 0xF, 4, .none⟩
def R.COOL_STREAM : Reg := ⟨0x116, 1, 0x8C, 1, 4, 1, 4, .rw, .c 0x0, .sticky, 0xFFFF, 4, .none⟩
def R.COOL_STALE : Reg := ⟨0x116, 1, 0x90, 1, 4, 1, 4, .rw, .c 0x64, .sticky, 0xFFFF, 4, .none⟩
def R.COOL_HR_HI : Reg := ⟨0x116, 1, 0x94, 1, 4, 1, 4, .rw, .c 0x41700000, .sticky, 0xFFFFFFFF, 4, .none⟩
def R.COOL_HR_LO : Reg := ⟨0x116, 1, 0x98, 1, 4, 1, 4, .rw, .c 0x40400000, .sticky, 0xFFFFFFFF, 4, .none⟩
def R.COOL_OVERRIDE : Reg := ⟨0x116, 1, 0x9C, 1, 4, 1, 4, .rw, .c 0x0, .volatile, 0x7F, 4, .none⟩
def R.COOL_HEADROOM : Reg := ⟨0x116, 1, 0xA0, 1, 4, 1, 4, .ro, .c 0x0, .volatile, 0xFFFFFFFF, 4, .none⟩
def R.COOL_FAULT : Reg := ⟨0x116, 1, 0xA4, 1, 4, 1, 4, .rc, .c 0x0, .retained, 0xF, 4, .none⟩
def R.COOL_MIN : Reg := ⟨0x116, 1, 0x100, 4, 16, 1, 4, .rw, .c 0x14, .sticky, 0x7F, 4, .none⟩
def R.COOL_DUTY : Reg := ⟨0x116, 1, 0x104, 4, 16, 1, 4, .ro, .c 0x64, .volatile, 0xF7F, 4, .none⟩
def R.COOL_TACH : Reg := ⟨0x116, 1, 0x108, 4, 16, 1, 4, .ro, .c 0x0, .volatile, 0xFFFF, 4, .none⟩
def R.COOL_TACH_MIN : Reg := ⟨0x116, 1, 0x10C, 4, 16, 1, 4, .rw, .c 0x0, .sticky, 0xFFFF, 4, .none⟩

/-- The registers of COOLING, page 0x116 (Table 16-9). -/
def block_p116 : List Reg :=
  [R.COOL_CTRL, R.COOL_CLASS, R.COOL_SRC, R.COOL_STREAM, R.COOL_STALE, R.COOL_HR_HI,
   R.COOL_HR_LO, R.COOL_OVERRIDE, R.COOL_HEADROOM, R.COOL_FAULT, R.COOL_MIN, R.COOL_DUTY,
   R.COOL_TACH, R.COOL_TACH_MIN]

/-! ### PADS, page 0x117 (Table 16-10) -/

def R.PAD_STRAPS : Reg := ⟨0x117, 1, 0x80, 1, 4, 1, 4, .ro, .c 0, .sticky, 0x3F, 4, .none⟩
def R.PAD_HOLD : Reg := ⟨0x117, 1, 0x84, 1, 4, 1, 4, .ro, .c 0x0, .sticky, 0x1F, 4, .none⟩
def R.PAD_RELEASE : Reg := ⟨0x117, 1, 0x88, 1, 4, 1, 4, .wo, .c 0x0, .sticky, 0x1F, 4, .none⟩
def R.PAD_LEVEL : Reg := ⟨0x117, 1, 0x8C, 1, 4, 1, 4, .ro, .c 0x0, .volatile, 0x1FFFFFF, 4, .none⟩
def R.PAD_ALERT_MASK : Reg := ⟨0x117, 1, 0x90, 1, 4, 1, 4, .rw, .c 0x1, .sticky, 0xF, 4, .none⟩
def R.PAD_THERM_TRIP : Reg := ⟨0x117, 1, 0x94, 1, 4, 1, 4, .rw, .c 0x42D20000, .sticky, 0xFFFFFFFF, 4, .none⟩
def R.PAD_TJ_MAX : Reg := ⟨0x117, 1, 0x98, 1, 4, 1, 4, .ro, .c 0x0, .volatile, 0xFFFFFFFF, 4, .none⟩
def R.PAD_EVENTS : Reg := ⟨0x117, 1, 0x9C, 1, 4, 1, 4, .rc, .c 0x0, .retained, 0xFFFFFF, 4, .none⟩

/-- The registers of PADS, page 0x117 (Table 16-10). -/
def block_p117 : List Reg :=
  [R.PAD_STRAPS, R.PAD_HOLD, R.PAD_RELEASE, R.PAD_LEVEL, R.PAD_ALERT_MASK, R.PAD_THERM_TRIP,
   R.PAD_TJ_MAX, R.PAD_EVENTS]

/-! ### PAIR, page 0x110 (Tables 16-11 and 17-6) -/

def R.PAIR_STATUS : Reg := ⟨0x110, 1, 0x80, 1, 4, 1, 4, .ro, .c 0x0, .volatile, 0x7F, 4, .none⟩
def R.PAIR_PEER_ID : Reg := ⟨0x110, 1, 0x84, 1, 4, 1, 4, .ro, .c 0x7FFFFF, .retained, 0xFFFFFF, 4, .none⟩
def R.PAIR_PLAN_PEER : Reg := ⟨0x110, 1, 0x88, 1, 4, 1, 4, .ro, .c 0x7FFFFF, .sticky, 0xFFFFFF, 4, .none⟩
def R.PAIR_EVENTS : Reg := ⟨0x110, 1, 0x8C, 1, 4, 1, 4, .rc, .c 0x0, .retained, 0xFFFF, 4, .none⟩
def R.PAIR_PUB_STATUS : Reg := ⟨0x110, 1, 0x100, 1, 4, 1, 4, .ro, .c 0x0, .volatile, 0xFFFF000F, 4, .none⟩
def R.PAIR_CURSOR_AGE : Reg := ⟨0x110, 1, 0x104, 1, 4, 1, 4, .ro, .c 0x0, .volatile, 0xFFFFFFFF, 4, .none⟩
def R.PAIR_MIRROR_BYTES : Reg := ⟨0x110, 1, 0x108, 1, 4, 1, 4, .ro, .c 0x0, .retained, 0xFFFFFFFF, 4, .none⟩
def R.PAIR_CTX_OVERFLOW : Reg := ⟨0x110, 1, 0x10C, 1, 4, 1, 4, .rc, .c 0x0, .retained, 0xFFFFFFFF, 4, .none⟩
def R.PAIR_TAKEOVERS : Reg := ⟨0x110, 1, 0x110, 1, 4, 1, 4, .ro, .c 0x0, .sticky, 0xFFFFFFFF, 4, .none⟩
def R.PAIR_LAST_TO_LO : Reg := ⟨0x110, 1, 0x114, 1, 4, 1, 4, .ro, .c 0x0, .sticky, 0xFFFFFFFF, 4, .none⟩
def R.PAIR_LAST_TO_HI : Reg := ⟨0x110, 1, 0x118, 1, 4, 1, 4, .ro, .c 0x0, .sticky, 0xFFFFFFFF, 4, .none⟩
def R.PAIR_HANDBACK_LEFT : Reg := ⟨0x110, 1, 0x11C, 1, 4, 1, 4, .ro, .c 0x0, .volatile, 0xFFFFFFFF, 4, .none⟩
def R.PAIR_LOST_WAIT : Reg := ⟨0x110, 1, 0x120, 1, 4, 1, 4, .rw, .c 0x7D0, .sticky, 0xFFFF, 4, .none⟩

/-- The registers of PAIR, page 0x110 (Tables 16-11 and 17-6). -/
def block_p110 : List Reg :=
  [R.PAIR_STATUS, R.PAIR_PEER_ID, R.PAIR_PLAN_PEER, R.PAIR_EVENTS, R.PAIR_PUB_STATUS, R.PAIR_CURSOR_AGE,
   R.PAIR_MIRROR_BYTES, R.PAIR_CTX_OVERFLOW, R.PAIR_TAKEOVERS, R.PAIR_LAST_TO_LO, R.PAIR_LAST_TO_HI, R.PAIR_HANDBACK_LEFT,
   R.PAIR_LOST_WAIT]

/-! ### ETH and publication, pages 0x111 and 0x112 (Table 17-7) -/

def R.ETH_STATUS : Reg := ⟨0x111, 2, 0x80, 1, 4, 1, 4, .ro, .c 0x0, .volatile, 0x7, 4, .none⟩
def R.ETH_CTRL : Reg := ⟨0x111, 2, 0x84, 1, 4, 1, 4, .rw, .c 0x1, .sticky, 0xFFF3, 4, .none⟩
def R.ETH_MAC_LO : Reg := ⟨0x111, 2, 0x88, 1, 4, 1, 4, .ro, .bset, .otp, 0xFFFFFFFF, 4, .none⟩
def R.ETH_MAC_HI : Reg := ⟨0x111, 2, 0x8C, 1, 4, 1, 4, .ro, .bset, .otp, 0xFFFF, 4, .none⟩
def R.ETH_ADDR : Reg := ⟨0x111, 2, 0x90, 4, 4, 1, 4, .rw, .c 0x0, .sticky, 0xFFFFFFFF, 4, .none⟩
def R.ETH_GW : Reg := ⟨0x111, 2, 0xA0, 4, 4, 1, 4, .rw, .c 0x0, .sticky, 0xFFFFFFFF, 4, .none⟩
def R.ETH_PREFIX : Reg := ⟨0x111, 2, 0xB0, 1, 4, 1, 4, .rw, .c 0x40, .sticky, 0xFF, 4, .none⟩
def R.ETH_MTU : Reg := ⟨0x111, 2, 0xB4, 1, 4, 1, 4, .rw, .c 0x2328, .sticky, 0x3FFF, 4, .none⟩
def R.ETH_PRIO_MAP : Reg := ⟨0x111, 2, 0xB8, 1, 4, 1, 4, .rw, .c 0x6DC96E, .sticky, 0xFFFFFF, 4, .none⟩
def R.ETH_PFC : Reg := ⟨0x111, 2, 0xBC, 1, 4, 1, 4, .rw, .c 0x78, .sticky, 0xFF, 4, .none⟩
def R.ETH_PAUSE_RX : Reg := ⟨0x111, 2, 0xC0, 1, 4, 1, 4, .rc, .c 0x0, .retained, 0xFFFFFFFF, 4, .none⟩
def R.ETH_PAUSE_TX : Reg := ⟨0x111, 2, 0xC4, 1, 4, 1, 4, .rc, .c 0x0, .retained, 0xFFFFFFFF, 4, .none⟩
def R.ETH_RX_DISCARD : Reg := ⟨0x111, 2, 0xC8, 1, 4, 1, 4, .rc, .c 0x0, .retained, 0xFFFFFFFF, 4, .none⟩
def R.ETH_FEC_UNCORR : Reg := ⟨0x111, 2, 0xCC, 1, 4, 1, 4, .rc, .c 0x0, .retained, 0xFFFFFFFF, 4, .none⟩
def R.PUB_CTRL : Reg := ⟨0x111, 1, 0x100, 1, 4, 1, 4, .rw, .c 0x0, .sticky, 0x1, 4, .none⟩
def R.PUB_TIMERS : Reg := ⟨0x111, 1, 0x104, 1, 4, 1, 4, .rw, .c 0x3E800C8, .sticky, 0xFFFFFFFF, 4, .none⟩
def R.PUB_WINDOW : Reg := ⟨0x111, 1, 0x108, 1, 4, 1, 4, .rw, .c 0x2000, .sticky, 0xFFFF, 4, .none⟩
def R.PUB_STORE_USED : Reg := ⟨0x111, 1, 0x10C, 1, 4, 1, 4, .ro, .c 0x0, .retained, 0xFFFFFFFF, 4, .none⟩
def R.PUB_STORE_FULL : Reg := ⟨0x111, 1, 0x110, 1, 4, 1, 4, .rc, .c 0x0, .retained, 0xFFFFFFFF, 4, .none⟩
def R.PUB_SEL : Reg := ⟨0x111, 1, 0x114, 1, 4, 1, 4, .rw, .c 0x0, .volatile, 0x7, 4, .none⟩
def R.COL_CTRL : Reg := ⟨0x111, 1, 0x200, 1, 4, 1, 4, .rw, .c 0x0, .sticky, 0xFF07, 4, .col⟩
def R.COL_ADDR : Reg := ⟨0x111, 1, 0x204, 4, 4, 1, 4, .rw, .c 0x0, .sticky, 0xFFFFFFFF, 4, .col⟩
def R.COL_PORT : Reg := ⟨0x111, 1, 0x214, 1, 4, 1, 4, .rw, .c 0x0, .sticky, 0xFFFF, 4, .col⟩
def R.COL_STATE : Reg := ⟨0x111, 1, 0x218, 1, 4, 1, 4, .ro, .c 0x0, .volatile, 0xFFFF0007, 4, .col⟩
def R.COL_SESSION : Reg := ⟨0x111, 1, 0x21C, 1, 4, 1, 4, .ro, .c 0x0, .retained, 0xFFFFFFFF, 4, .col⟩
def R.COL_DSEQ_LO : Reg := ⟨0x111, 1, 0x220, 1, 4, 1, 4, .ro, .c 0x0, .retained, 0xFFFFFFFF, 4, .col⟩
def R.COL_DSEQ_HI : Reg := ⟨0x111, 1, 0x224, 1, 4, 1, 4, .ro, .c 0x0, .retained, 0xFFFFFFFF, 4, .col⟩
def R.COL_ACK_LO : Reg := ⟨0x111, 1, 0x228, 1, 4, 1, 4, .ro, .c 0x0, .retained, 0xFFFFFFFF, 4, .col⟩
def R.COL_ACK_HI : Reg := ⟨0x111, 1, 0x22C, 1, 4, 1, 4, .ro, .c 0x0, .retained, 0xFFFFFFFF, 4, .col⟩
def R.COL_INFLIGHT : Reg := ⟨0x111, 1, 0x230, 1, 4, 1, 4, .ro, .c 0x0, .volatile, 0xFFFF, 4, .col⟩
def R.COL_PEER_ID : Reg := ⟨0x111, 1, 0x234, 1, 4, 1, 4, .rw, .c 0x7FFFFF, .sticky, 0xFFFFFF, 4, .col⟩

/-- The registers of ETH and publication, pages 0x111 and 0x112 (Table 17-7). -/
def block_p111 : List Reg :=
  [R.ETH_STATUS, R.ETH_CTRL, R.ETH_MAC_LO, R.ETH_MAC_HI, R.ETH_ADDR, R.ETH_GW,
   R.ETH_PREFIX, R.ETH_MTU, R.ETH_PRIO_MAP, R.ETH_PFC, R.ETH_PAUSE_RX, R.ETH_PAUSE_TX,
   R.ETH_RX_DISCARD, R.ETH_FEC_UNCORR, R.PUB_CTRL, R.PUB_TIMERS, R.PUB_WINDOW, R.PUB_STORE_USED,
   R.PUB_STORE_FULL, R.PUB_SEL, R.COL_CTRL, R.COL_ADDR, R.COL_PORT, R.COL_STATE,
   R.COL_SESSION, R.COL_DSEQ_LO, R.COL_DSEQ_HI, R.COL_ACK_LO, R.COL_ACK_HI, R.COL_INFLIGHT,
   R.COL_PEER_ID]

/-! ### PCIE, page 0x113 (Table 17-8) -/

def R.PCIE_STATUS : Reg := ⟨0x113, 1, 0x80, 1, 4, 1, 4, .ro, .c 0x0, .volatile, 0x1FF, 4, .none⟩
def R.PCIE_IDS : Reg := ⟨0x113, 1, 0x84, 1, 4, 1, 4, .ro, .bset, .otp, 0xFFFFFFFF, 4, .none⟩
def R.PCIE_ERR_CA : Reg := ⟨0x113, 1, 0x88, 1, 4, 1, 4, .rc, .c 0x0, .retained, 0xFFFFFFFF, 4, .none⟩
def R.PCIE_ERR_WR : Reg := ⟨0x113, 1, 0x8C, 1, 4, 1, 4, .rc, .c 0x0, .retained, 0xFFFFFFFF, 4, .none⟩
def R.PCIE_LINK_DOWN : Reg := ⟨0x113, 1, 0x90, 1, 4, 1, 4, .ro, .c 0x0, .sticky, 0xFFFFFFFF, 4, .none⟩
def R.PCIE_BAR2_MAP : Reg := ⟨0x113, 1, 0x94, 1, 4, 1, 4, .ro, .c 0x0, .retained, 0xF, 4, .none⟩

/-- The registers of PCIE, page 0x113 (Table 17-8). -/
def block_p113 : List Reg :=
  [R.PCIE_STATUS, R.PCIE_IDS, R.PCIE_ERR_CA, R.PCIE_ERR_WR, R.PCIE_LINK_DOWN, R.PCIE_BAR2_MAP]

/-! ### FWCMD, page 0x007 (Table 18-8) -/

def R.FW_STATUS : Reg := ⟨0x7, 1, 0x80, 1, 4, 1, 4, .ro, .c 0x10, .retained, 0xFF, 6, .none⟩
def R.FW_VERSION : Reg := ⟨0x7, 1, 0x84, 1, 4, 1, 4, .ro, .c 0x0, .retained, 0xFFFFFFFF, 6, .none⟩
def R.FW_ROLLBACK : Reg := ⟨0x7, 1, 0x88, 1, 4, 1, 4, .ro, .c 0x0, .otp, 0x7F, 6, .none⟩
def R.FW_REGION_A : Reg := ⟨0x7, 1, 0x8C, 1, 4, 1, 4, .ro, .c 0x0, .retained, 0x7F0F, 6, .none⟩
def R.FW_REGION_A_VER : Reg := ⟨0x7, 1, 0x90, 1, 4, 1, 4, .ro, .c 0x0, .retained, 0xFFFFFFFF, 6, .none⟩
def R.FW_REGION_B : Reg := ⟨0x7, 1, 0x94, 1, 4, 1, 4, .ro, .c 0x0, .retained, 0xFFFFFFFF, 6, .none⟩
def R.FW_REGION_B_VER : Reg := ⟨0x7, 1, 0x98, 1, 4, 1, 4, .ro, .c 0x0, .retained, 0xFFFFFFFF, 6, .none⟩
def R.FW_BLACKOUT_US : Reg := ⟨0x7, 1, 0x9C, 1, 4, 1, 4, .ro, .c 0x0, .retained, 0xFFFFFFFF, 6, .none⟩
def R.FW_HEARTBEAT : Reg := ⟨0x7, 1, 0xA0, 1, 4, 1, 4, .wo, .c 0x0, .sticky, 0xFFFFFFFF, 6, .none⟩
def R.FW_HB_AGE : Reg := ⟨0x7, 1, 0xA4, 1, 4, 1, 4, .ro, .c 0xFFFF, .sticky, 0xFFFF, 6, .none⟩
def R.FW_DIRTY_LO : Reg := ⟨0x7, 1, 0xA8, 1, 4, 1, 4, .ro, .c 0x0, .retained, 0xFFFFFFFF, 6, .none⟩
def R.FW_DIRTY_HI : Reg := ⟨0x7, 1, 0xAC, 1, 4, 1, 4, .ro, .c 0x0, .retained, 0xFFFFFFFF, 6, .none⟩
def R.FW_DATA_ADDR : Reg := ⟨0x7, 1, 0xB0, 1, 4, 1, 4, .rw, .c 0x0, .volatile, 0xFFFFC, 6, .none⟩
def R.FW_DATA : Reg := ⟨0x7, 1, 0xB4, 1, 4, 1, 4, .rw, .c 0x0, .retained, 0xFFFFFFFF, 6, .none⟩
def R.FW_DATA_SIZE : Reg := ⟨0x7, 1, 0xB8, 1, 4, 1, 4, .ro, .bset, .otp, 0xFFFFFFFF, 6, .none⟩
def R.FW_WDOG_EXP : Reg := ⟨0x7, 1, 0xBC, 1, 4, 1, 4, .ro, .c 0x0, .sticky, 0xFFFFFFFF, 6, .none⟩
def R.FW_UA_START_LO : Reg := ⟨0x7, 1, 0xC0, 1, 4, 1, 4, .ro, .c 0x0, .sticky, 0xFFFFFFFF, 6, .none⟩
def R.FW_UA_START_HI : Reg := ⟨0x7, 1, 0xC4, 1, 4, 1, 4, .ro, .c 0x0, .sticky, 0xFFFFFFFF, 6, .none⟩
def R.FW_UA_END_LO : Reg := ⟨0x7, 1, 0xC8, 1, 4, 1, 4, .ro, .c 0x0, .sticky, 0xFFFFFFFF, 6, .none⟩
def R.FW_UA_END_HI : Reg := ⟨0x7, 1, 0xCC, 1, 4, 1, 4, .ro, .c 0x0, .sticky, 0xFFFFFFFF, 6, .none⟩
def R.FW_UA_INTERVALS : Reg := ⟨0x7, 1, 0xD0, 1, 4, 1, 4, .ro, .c 0x0, .sticky, 0xFFFFFFFF, 6, .none⟩
def R.FW_UA_ESC : Reg := ⟨0x7, 1, 0xD4, 1, 4, 1, 4, .ro, .c 0x0, .sticky, 0xFFFFFFFF, 6, .none⟩
def R.FW_UA_REFUSED : Reg := ⟨0x7, 1, 0xD8, 1, 4, 1, 4, .ro, .c 0x0, .sticky, 0xFFFFFFFF, 6, .none⟩
def R.FW_UA_TRACE_SKIP : Reg := ⟨0x7, 1, 0xDC, 1, 4, 1, 4, .ro, .c 0x0, .sticky, 0xFFFFFFFF, 6, .none⟩
def R.FW_UA_ALARMS : Reg := ⟨0x7, 1, 0xE0, 1, 4, 1, 4, .ro, .c 0x0, .sticky, 0xFFFFFFFF, 6, .none⟩
def R.FW_UA_ACK : Reg := ⟨0x7, 1, 0xE4, 1, 4, 1, 4, .wo, .c 0x0, .sticky, 0x1, 6, .none⟩
def R.CMD_CTRL : Reg := ⟨0x7, 1, 0x200, 64, 48, 1, 4, .rw, .c 0x0, .retained, 0xFFFFFF01, 6, .none⟩
def R.CMD_TAG : Reg := ⟨0x7, 1, 0x204, 64, 48, 1, 4, .rw, .c 0x0, .retained, 0xFFFFFFFF, 6, .none⟩
def R.CMD_RESULT : Reg := ⟨0x7, 1, 0x208, 64, 48, 1, 4, .ro, .c 0x0, .retained, 0xFFFFFFFF, 6, .none⟩
def R.CMD_ARG : Reg := ⟨0x7, 1, 0x20C, 64, 48, 9, 4, .rw, .c 0x0, .retained, 0xFFFFFFFF, 6, .none⟩

/-- The registers of FWCMD, page 0x007 (Table 18-8). -/
def block_p007 : List Reg :=
  [R.FW_STATUS, R.FW_VERSION, R.FW_ROLLBACK, R.FW_REGION_A, R.FW_REGION_A_VER, R.FW_REGION_B,
   R.FW_REGION_B_VER, R.FW_BLACKOUT_US, R.FW_HEARTBEAT, R.FW_HB_AGE, R.FW_DIRTY_LO, R.FW_DIRTY_HI,
   R.FW_DATA_ADDR, R.FW_DATA, R.FW_DATA_SIZE, R.FW_WDOG_EXP, R.FW_UA_START_LO, R.FW_UA_START_HI,
   R.FW_UA_END_LO, R.FW_UA_END_HI, R.FW_UA_INTERVALS, R.FW_UA_ESC, R.FW_UA_REFUSED, R.FW_UA_TRACE_SKIP,
   R.FW_UA_ALARMS, R.FW_UA_ACK, R.CMD_CTRL, R.CMD_TAG, R.CMD_RESULT, R.CMD_ARG]

/-! ### FLASH, page 0x114 (Table 18-9) -/

def R.FL_STATUS : Reg := ⟨0x114, 1, 0x80, 1, 4, 1, 4, .ro, .c 0x0, .volatile, 0xF, 4, .none⟩
def R.FL_DEV_ID0 : Reg := ⟨0x114, 1, 0x84, 1, 4, 1, 4, .ro, .c 0x0, .sticky, 0xFFFFFFFF, 4, .none⟩
def R.FL_DEV_ID1 : Reg := ⟨0x114, 1, 0x88, 1, 4, 1, 4, .ro, .c 0x0, .sticky, 0xFFFFFFFF, 4, .none⟩
def R.FL_SIZE : Reg := ⟨0x114, 1, 0x8C, 1, 4, 1, 4, .ro, .c 0x0, .sticky, 0xFFFF, 4, .none⟩
def R.FL_ERR : Reg := ⟨0x114, 1, 0x90, 1, 4, 1, 4, .rc, .c 0x0, .retained, 0xFFFFFFFF, 4, .none⟩
def R.FL_ERASES : Reg := ⟨0x114, 1, 0x94, 1, 4, 1, 4, .ro, .c 0x0, .sticky, 0xFFFFFFFF, 4, .none⟩

/-- The registers of FLASH, page 0x114 (Table 18-9). -/
def block_p114 : List Reg :=
  [R.FL_STATUS, R.FL_DEV_ID0, R.FL_DEV_ID1, R.FL_SIZE, R.FL_ERR, R.FL_ERASES]

/-! ### EVREC, page 0x006 (Table 19-4) -/

def R.EVR_CTRL : Reg := ⟨0x6, 1, 0x80, 1, 4, 1, 4, .rw, .per 0x1 0x1 0x3, .sticky, 0x3, 7, .none⟩
def R.EVR_STREAM : Reg := ⟨0x6, 1, 0x84, 1, 4, 1, 4, .rw, .c 0x0, .sticky, 0xFFFF, 7, .none⟩
def R.EVR_SEQ : Reg := ⟨0x6, 1, 0x88, 1, 4, 1, 4, .ro, .c 0x0, .sticky, 0xFFFF, 7, .none⟩
def R.EVR_FILL : Reg := ⟨0x6, 1, 0x8C, 1, 4, 1, 4, .ro, .c 0x0, .sticky, 0x1FF01FF, 7, .none⟩
def R.EVR_LOST : Reg := ⟨0x6, 1, 0x90, 1, 4, 1, 4, .rc, .c 0x0, .sticky, 0xFFFFFFFF, 7, .none⟩
def R.EVR_SUPPR_TOTAL : Reg := ⟨0x6, 1, 0x94, 1, 4, 1, 4, .rc, .c 0x0, .sticky, 0xFFFFFFFF, 7, .none⟩
def R.EVR_HOURS : Reg := ⟨0x6, 1, 0x98, 1, 4, 1, 4, .ro, .bset, .otp, 0xFFFFFFFF, 7, .none⟩
def R.EVR_CYCLES : Reg := ⟨0x6, 1, 0x9C, 1, 4, 1, 4, .ro, .bset, .otp, 0xFFFFFF, 7, .none⟩
def R.EVR_RD_SEL : Reg := ⟨0x6, 1, 0xA0, 1, 4, 1, 4, .rw, .c 0x0, .volatile, 0xFF, 7, .none⟩
def R.EVR_CODE_SEL : Reg := ⟨0x6, 1, 0xA4, 1, 4, 1, 4, .rw, .c 0x0, .volatile, 0xFFF, 7, .none⟩
def R.EVR_CODE_ATTR : Reg := ⟨0x6, 1, 0xA8, 1, 4, 1, 4, .ro, .bset, .otp, 0x3F, 7, .none⟩
def R.EVR_CODE_PROF : Reg := ⟨0x6, 1, 0xAC, 1, 4, 1, 4, .rw, .c 0x0, .sticky, 0xF, 7, .code⟩
def R.EVR_CODE_SUPPR : Reg := ⟨0x6, 1, 0xB0, 1, 4, 1, 4, .ro, .c 0x0, .sticky, 0xFFFF, 7, .code⟩
def R.EVR_CODE_TOKENS : Reg := ⟨0x6, 1, 0xB4, 1, 4, 1, 4, .ro, .c 0x14, .retained, 0xFFFF, 7, .code⟩
def R.EVR_PROF : Reg := ⟨0x6, 1, 0xC0, 16, 4, 1, 4, .rw, .c 0x1400A0, .sticky, 0xFFFFFF, 7, .none⟩
def R.EVR_RD : Reg := ⟨0x6, 1, 0x100, 8, 4, 1, 4, .ro, .c 0x0, .sticky, 0xFFFFFFFF, 7, .none⟩
def R.EVR_FL_HEAD : Reg := ⟨0x6, 1, 0x200, 1, 4, 1, 4, .ro, .c 0x0, .sticky, 0xFFFFF, 4, .none⟩
def R.EVR_FL_LAP : Reg := ⟨0x6, 1, 0x204, 1, 4, 1, 4, .ro, .c 0x0, .sticky, 0xFFFFFFFF, 4, .none⟩
def R.EVR_FL_SEL : Reg := ⟨0x6, 1, 0x208, 1, 4, 1, 4, .rw, .c 0x0, .volatile, 0xFFFFF, 4, .none⟩
def R.EVR_FL_ERASE_AHEAD : Reg := ⟨0x6, 1, 0x20C, 1, 4, 1, 4, .rw, .c 0x10, .sticky, 0xFF, 4, .none⟩
def R.EVR_FL_SEV : Reg := ⟨0x6, 1, 0x210, 1, 4, 1, 4, .rw, .c 0x3, .sticky, 0x7, 4, .none⟩
def R.EVR_FL_PENDING : Reg := ⟨0x6, 1, 0x214, 1, 4, 1, 4, .ro, .c 0x0, .volatile, 0x1FF, 4, .none⟩
def R.EVR_FL_DROPPED : Reg := ⟨0x6, 1, 0x218, 1, 4, 1, 4, .rc, .c 0x0, .sticky, 0xFFFFFFFF, 4, .none⟩
def R.EVR_FL_RD : Reg := ⟨0x6, 1, 0x220, 8, 4, 1, 4, .ro, .c 0x0, .sticky, 0xFFFFFFFF, 4, .none⟩

/-- The registers of EVREC, page 0x006 (Table 19-4). -/
def block_p006 : List Reg :=
  [R.EVR_CTRL, R.EVR_STREAM, R.EVR_SEQ, R.EVR_FILL, R.EVR_LOST, R.EVR_SUPPR_TOTAL,
   R.EVR_HOURS, R.EVR_CYCLES, R.EVR_RD_SEL, R.EVR_CODE_SEL, R.EVR_CODE_ATTR, R.EVR_CODE_PROF,
   R.EVR_CODE_SUPPR, R.EVR_CODE_TOKENS, R.EVR_PROF, R.EVR_RD, R.EVR_FL_HEAD, R.EVR_FL_LAP,
   R.EVR_FL_SEL, R.EVR_FL_ERASE_AHEAD, R.EVR_FL_SEV, R.EVR_FL_PENDING, R.EVR_FL_DROPPED, R.EVR_FL_RD]

/-! ### IDENT, page 0x000 (Table 20-8) -/

def R.IDENT_SERIAL_LO : Reg := ⟨0x0, 1, 0x80, 1, 4, 1, 4, .ro, .bset, .otp, 0xFFFFFFFF, 7, .none⟩
def R.IDENT_SERIAL_HI : Reg := ⟨0x0, 1, 0x84, 1, 4, 1, 4, .ro, .bset, .otp, 0xFFFFFFFF, 7, .none⟩
def R.IDENT_BUILD : Reg := ⟨0x0, 1, 0x88, 1, 4, 1, 4, .ro, .bset, .otp, 0xFFF3, 7, .none⟩
def R.IDENT_IDCODE : Reg := ⟨0x0, 1, 0x8C, 1, 4, 1, 4, .ro, .bset, .otp, 0xFFFFFFFF, 7, .none⟩
def R.IDENT_FLEET : Reg := ⟨0x0, 1, 0x90, 1, 4, 1, 4, .otp, .c 0x7FFFFF, .otp, 0x807FFFFF, 7, .none⟩
def R.IDENT_SOURCE_ID : Reg := ⟨0x0, 1, 0x94, 1, 4, 1, 4, .ro, .c 0x7FFFFF, .sticky, 0xFFFFFF, 7, .none⟩
def R.IDENT_WRITES : Reg := ⟨0x0, 1, 0x98, 1, 4, 1, 4, .ro, .c 0x0, .otp, 0x7, 7, .none⟩
def R.IDENT_PENDING : Reg := ⟨0x0, 1, 0x9C, 1, 4, 1, 4, .ro, .c 0x0, .sticky, 0x80FFFFFF, 7, .none⟩

/-- The registers of IDENT, page 0x000 (Table 20-8). -/
def block_p000 : List Reg :=
  [R.IDENT_SERIAL_LO, R.IDENT_SERIAL_HI, R.IDENT_BUILD, R.IDENT_IDCODE, R.IDENT_FLEET, R.IDENT_SOURCE_ID,
   R.IDENT_WRITES, R.IDENT_PENDING]

/-! ### AUTH, page 0x001 (Table 20-9) -/

def R.AUTH_FA : Reg := ⟨0x1, 1, 0x80, 1, 4, 1, 4, .otp, .c 0x0, .otp, 0x1, 7, .none⟩
def R.AUTH_FA_FP_LO : Reg := ⟨0x1, 1, 0x84, 1, 4, 1, 4, .otp, .c 0x0, .otp, 0xFFFFFFFF, 7, .none⟩
def R.AUTH_FA_FP_HI : Reg := ⟨0x1, 1, 0x88, 1, 4, 1, 4, .otp, .c 0x0, .otp, 0xFFFFFFFF, 7, .none⟩
def R.AUTH_MODEL_SLOTS : Reg := ⟨0x1, 1, 0x8C, 1, 4, 1, 4, .otp, .c 0x0, .otp, 0xFFFFFFFF, 7, .none⟩
def R.AUTH_TRACE_SLOTS : Reg := ⟨0x1, 1, 0x90, 1, 4, 1, 4, .otp, .c 0x0, .otp, 0xFFFFFFFF, 7, .none⟩
def R.AUTH_KEY_SEL : Reg := ⟨0x1, 1, 0x94, 1, 4, 1, 4, .rw, .c 0x0, .volatile, 0x7, 7, .none⟩
def R.AUTH_KEY_FP_LO : Reg := ⟨0x1, 1, 0x98, 1, 4, 1, 4, .otp, .c 0x0, .otp, 0xFFFFFFFF, 7, .none⟩
def R.AUTH_KEY_FP_HI : Reg := ⟨0x1, 1, 0x9C, 1, 4, 1, 4, .otp, .c 0x0, .otp, 0xFFFFFFFF, 7, .none⟩
def R.AUTH_FLOOR : Reg := ⟨0x1, 1, 0xA0, 1, 4, 1, 4, .otp, .c 0x0, .otp, 0x7, 7, .none⟩
def R.AUTH_FLOOR_RAISE : Reg := ⟨0x1, 1, 0xA4, 1, 4, 1, 4, .wo, .c 0x0, .sticky, 0xFFFF0007, 7, .none⟩
def R.AUTH_CHANGES : Reg := ⟨0x1, 1, 0xA8, 1, 4, 1, 4, .otp, .c 0x0, .otp, 0xFF, 7, .none⟩
def R.AUTH_LOG_SEL : Reg := ⟨0x1, 1, 0xAC, 1, 4, 1, 4, .rw, .c 0x0, .volatile, 0xF, 7, .none⟩
def R.AUTH_LOG : Reg := ⟨0x1, 1, 0xB0, 4, 4, 1, 4, .otp, .c 0x0, .otp, 0xFFFFFFFF, 7, .none⟩
def R.AUTH_REQ_LAST : Reg := ⟨0x1, 1, 0xC0, 1, 4, 1, 4, .ro, .c 0x0, .retained, 0xFFFF, 7, .none⟩
def R.AUTH_WRITER : Reg := ⟨0x1, 1, 0xC4, 1, 4, 1, 4, .ro, .c 0x0, .volatile, 0x1F, 7, .none⟩

/-- The registers of AUTH, page 0x001 (Table 20-9). -/
def block_p001 : List Reg :=
  [R.AUTH_FA, R.AUTH_FA_FP_LO, R.AUTH_FA_FP_HI, R.AUTH_MODEL_SLOTS, R.AUTH_TRACE_SLOTS, R.AUTH_KEY_SEL,
   R.AUTH_KEY_FP_LO, R.AUTH_KEY_FP_HI, R.AUTH_FLOOR, R.AUTH_FLOOR_RAISE, R.AUTH_CHANGES, R.AUTH_LOG_SEL,
   R.AUTH_LOG, R.AUTH_REQ_LAST, R.AUTH_WRITER]

/-! ### REPAIR, page 0x030 (Table 21-4) -/

def R.REP_CTRL : Reg := ⟨0x30, 1, 0x80, 1, 4, 1, 4, .rw, .c 0x801, .sticky, 0xFF01, 7, .none⟩
def R.REP_STATUS : Reg := ⟨0x30, 1, 0x84, 1, 4, 1, 4, .ro, .c 0x0, .sticky, 0x1F, 7, .none⟩
def R.REP_UNITS : Reg := ⟨0x30, 1, 0x88, 1, 4, 1, 4, .ro, .c 0x0, .sticky, 0xFFFF, 7, .none⟩
def R.REP_PORTS_LO : Reg := ⟨0x30, 1, 0x8C, 1, 4, 1, 4, .ro, .c 0x0, .sticky, 0xFFFFFFFF, 7, .none⟩
def R.REP_PORTS_HI : Reg := ⟨0x30, 1, 0x90, 1, 4, 1, 4, .ro, .c 0x0, .sticky, 0xFFFFFFFF, 7, .none⟩
def R.REP_CORR : Reg := ⟨0x30, 1, 0x94, 1, 4, 1, 4, .rc, .c 0x0, .retained, 0xFFFFFFFF, 7, .none⟩
def R.REP_UNCORR : Reg := ⟨0x30, 1, 0x98, 1, 4, 1, 4, .rc, .c 0x0, .retained, 0xFFFFFFFF, 7, .none⟩
def R.REP_REMAPS : Reg := ⟨0x30, 1, 0x9C, 1, 4, 1, 4, .ro, .c 0x0, .sticky, 0xFFFFFFFF, 7, .none⟩
def R.REP_RETIRED : Reg := ⟨0x30, 1, 0xA0, 1, 4, 1, 4, .ro, .c 0x0, .sticky, 0xFFFFFFFF, 7, .none⟩
def R.REP_SCRUB_PERIOD : Reg := ⟨0x30, 1, 0xA4, 1, 4, 1, 4, .rw, .c 0x3E8, .sticky, 0xFFFF, 7, .none⟩
def R.REP_MEM_SEL : Reg := ⟨0x30, 1, 0xA8, 1, 4, 1, 4, .rw, .c 0x0, .volatile, 0xFFFF, 7, .none⟩
def R.REP_MEM_INFO : Reg := ⟨0x30, 1, 0xAC, 1, 4, 1, 4, .ro, .c 0x0, .sticky, 0xFFFFFF, 7, .none⟩
def R.REP_FLASH_STATUS : Reg := ⟨0x30, 1, 0xB0, 1, 4, 1, 4, .ro, .c 0x0, .sticky, 0xFFF0007, 4, .none⟩
def R.REP_LAST : Reg := ⟨0x30, 1, 0xB4, 1, 4, 1, 4, .ro, .c 0x0, .sticky, 0xFFFFFFFF, 7, .none⟩
def R.REP_NOENGINE : Reg := ⟨0x30, 1, 0xB8, 1, 4, 1, 4, .rc, .c 0x0, .retained, 0xFFFFFFFF, 7, .none⟩

/-- The registers of REPAIR, page 0x030 (Table 21-4). -/
def block_p030 : List Reg :=
  [R.REP_CTRL, R.REP_STATUS, R.REP_UNITS, R.REP_PORTS_LO, R.REP_PORTS_HI, R.REP_CORR,
   R.REP_UNCORR, R.REP_REMAPS, R.REP_RETIRED, R.REP_SCRUB_PERIOD, R.REP_MEM_SEL, R.REP_MEM_INFO,
   R.REP_FLASH_STATUS, R.REP_LAST, R.REP_NOENGINE]

/-! ### common header (Table 22-1) -/

def R.CMN_PAGE_ID : Reg := ⟨0x0, 0, 0x0, 1, 4, 1, 4, .ro, .bset, .otp, 0x1FF01FF, 7, .none⟩
def R.CMN_PAGE_VER : Reg := ⟨0x0, 0, 0x4, 1, 4, 1, 4, .ro, .c 0x200, .otp, 0xFFFF, 7, .none⟩
def R.CMN_CAP0 : Reg := ⟨0x0, 0, 0x8, 1, 4, 1, 4, .ro, .bset, .otp, 0xFFF3, 7, .none⟩
def R.CMN_CAP1 : Reg := ⟨0x0, 0, 0xC, 1, 4, 1, 4, .ro, .bset, .otp, 0x33, 7, .none⟩
def R.CMN_CTRL : Reg := ⟨0x0, 0, 0x10, 1, 4, 1, 4, .wo, .c 0x0, .sticky, 0x3, 7, .none⟩
def R.CMN_STATUS : Reg := ⟨0x0, 0, 0x14, 1, 4, 1, 4, .w1c, .c 0x1, .sticky, 0x7, 7, .none⟩
def R.CMN_LOCK : Reg := ⟨0x0, 0, 0x18, 1, 4, 1, 4, .w1s, .c 0x0, .sticky, 0x1, 7, .none⟩
def R.CMN_VOTE : Reg := ⟨0x0, 0, 0x1C, 1, 4, 1, 4, .rw, .c 0x0, .sticky, 0x1FF01, 7, .none⟩
def R.CMN_IRQ_STATUS : Reg := ⟨0x0, 0, 0x20, 1, 4, 1, 4, .w1c, .c 0x0, .retained, 0xFFFFFFFF, 7, .none⟩
def R.CMN_IRQ_ENABLE : Reg := ⟨0x0, 0, 0x24, 1, 4, 1, 4, .rwl, .c 0x0, .sticky, 0xFFFFFFFF, 7, .none⟩
def R.CMN_VIOL_COUNT : Reg := ⟨0x0, 0, 0x28, 1, 4, 1, 4, .ro, .c 0x0, .sticky, 0xFFFFFFF, 7, .none⟩
def R.CMN_SCRATCH : Reg := ⟨0x0, 0, 0x2C, 1, 4, 1, 4, .rwl, .c 0x0, .volatile, 0xFFFFFFFF, 7, .none⟩
def R.CMN_VIOL_FIRST_ADDR : Reg := ⟨0x0, 0, 0x30, 1, 4, 1, 4, .ro, .c 0x0, .sticky, 0x1FFFFF, 7, .none⟩
def R.CMN_VIOL_FIRST_INFO : Reg := ⟨0x0, 0, 0x34, 1, 4, 1, 4, .ro, .c 0x0, .sticky, 0xFFFFFFFF, 7, .none⟩
def R.CMN_VIOL_FIRST_STAMP_LO : Reg := ⟨0x0, 0, 0x38, 1, 4, 1, 4, .ro, .c 0x0, .sticky, 0xFFFFFFFF, 7, .none⟩
def R.CMN_VIOL_FIRST_STAMP_HI : Reg := ⟨0x0, 0, 0x3C, 1, 4, 1, 4, .ro, .c 0x0, .sticky, 0xFFFFFFFF, 7, .none⟩
def R.CMN_VIOL_LAST_ADDR : Reg := ⟨0x0, 0, 0x40, 1, 4, 1, 4, .ro, .c 0x0, .sticky, 0xFFFFFFFF, 7, .none⟩
def R.CMN_VIOL_LAST_INFO : Reg := ⟨0x0, 0, 0x44, 1, 4, 1, 4, .ro, .c 0x0, .sticky, 0xFFFFFFFF, 7, .none⟩
def R.CMN_VIOL_LAST_STAMP_LO : Reg := ⟨0x0, 0, 0x48, 1, 4, 1, 4, .ro, .c 0x0, .sticky, 0xFFFFFFFF, 7, .none⟩
def R.CMN_VIOL_LAST_STAMP_HI : Reg := ⟨0x0, 0, 0x4C, 1, 4, 1, 4, .ro, .c 0x0, .sticky, 0xFFFFFFFF, 7, .none⟩

/-- The registers of common header (Table 22-1). -/
def block_cmn : List Reg :=
  [R.CMN_PAGE_ID, R.CMN_PAGE_VER, R.CMN_CAP0, R.CMN_CAP1, R.CMN_CTRL, R.CMN_STATUS,
   R.CMN_LOCK, R.CMN_VOTE, R.CMN_IRQ_STATUS, R.CMN_IRQ_ENABLE, R.CMN_VIOL_COUNT, R.CMN_SCRATCH,
   R.CMN_VIOL_FIRST_ADDR, R.CMN_VIOL_FIRST_INFO, R.CMN_VIOL_FIRST_STAMP_LO, R.CMN_VIOL_FIRST_STAMP_HI, R.CMN_VIOL_LAST_ADDR, R.CMN_VIOL_LAST_INFO,
   R.CMN_VIOL_LAST_STAMP_LO, R.CMN_VIOL_LAST_STAMP_HI]

/-! ### SMBUS, page 0x115 (Table 22-3) -/

def R.SMB_CTRL : Reg := ⟨0x115, 1, 0x80, 1, 4, 1, 4, .rw, .c 0x1, .sticky, 0x3, 4, .none⟩
def R.SMB_ADDR : Reg := ⟨0x115, 1, 0x84, 1, 4, 1, 4, .rw, .c 0x58, .sticky, 0x7F, 4, .none⟩
def R.SMB_STATUS : Reg := ⟨0x115, 1, 0x88, 1, 4, 1, 4, .ro, .c 0x0, .volatile, 0x3, 4, .none⟩
def R.SMB_NACK : Reg := ⟨0x115, 1, 0x8C, 1, 4, 1, 4, .rc, .c 0x0, .retained, 0xFFFFFFFF, 4, .none⟩
def R.SMB_PEC_ERR : Reg := ⟨0x115, 1, 0x90, 1, 4, 1, 4, .rc, .c 0x0, .retained, 0xFFFFFFFF, 4, .none⟩
def R.SMB_TRANSACTIONS : Reg := ⟨0x115, 1, 0x94, 1, 4, 1, 4, .rc, .c 0x0, .retained, 0xFFFFFFFF, 4, .none⟩

/-- The registers of SMBUS, page 0x115 (Table 22-3). -/
def block_p115 : List Reg :=
  [R.SMB_CTRL, R.SMB_ADDR, R.SMB_STATUS, R.SMB_NACK, R.SMB_PEC_ERR, R.SMB_TRANSACTIONS]

/-! ### RALUD additions (Table 17-5) -/

def R.RL_LANE_CTRL : Reg := ⟨0x64, 4, 0x300, 1, 4, 1, 4, .wo, .c 0x0, .sticky, 0x3, 6, .none⟩
def R.RL_FEC_CW_LO : Reg := ⟨0x64, 4, 0x304, 1, 4, 1, 4, .ro, .c 0x0, .retained, 0xFFFFFFFF, 6, .none⟩
def R.RL_FEC_CW_HI : Reg := ⟨0x64, 4, 0x308, 1, 4, 1, 4, .ro, .c 0x0, .retained, 0xFFFFFFFF, 6, .none⟩
def R.RL_FEC_CORR : Reg := ⟨0x64, 4, 0x30C, 1, 4, 1, 4, .rc, .c 0x0, .retained, 0xFFFFFFFF, 6, .none⟩
def R.RL_FEC_SYMB : Reg := ⟨0x64, 4, 0x310, 1, 4, 1, 4, .rc, .c 0x0, .retained, 0xFFFFFFFF, 6, .none⟩
def R.RL_FEC_UNCORR : Reg := ⟨0x64, 4, 0x314, 1, 4, 1, 4, .rc, .c 0x0, .retained, 0xFFFFFFFF, 6, .none⟩
def R.RL_REPLAYS : Reg := ⟨0x64, 4, 0x318, 1, 4, 1, 4, .rc, .c 0x0, .retained, 0xFFFFFFFF, 6, .none⟩
def R.RL_REPLAY_DUP : Reg := ⟨0x64, 4, 0x31C, 1, 4, 1, 4, .rc, .c 0x0, .retained, 0xFFFFFFFF, 6, .none⟩
def R.RL_DEG_CFG : Reg := ⟨0x64, 4, 0x320, 1, 4, 1, 4, .rw, .c 0x8100000, .sticky, 0xFFFFFFFF, 6, .none⟩
def R.RL_RETRAINS : Reg := ⟨0x64, 4, 0x324, 1, 4, 1, 4, .ro, .c 0x0, .sticky, 0xFFFFFFFF, 6, .none⟩
def R.RL_BAD_BLOCK : Reg := ⟨0x64, 4, 0x328, 1, 4, 1, 4, .rc, .c 0x0, .retained, 0xFFFFFFFF, 6, .none⟩

/-- The registers of RALUD additions (Table 17-5). -/
def block_raludx : List Reg :=
  [R.RL_LANE_CTRL, R.RL_FEC_CW_LO, R.RL_FEC_CW_HI, R.RL_FEC_CORR, R.RL_FEC_SYMB, R.RL_FEC_UNCORR,
   R.RL_REPLAYS, R.RL_REPLAY_DUP, R.RL_DEG_CFG, R.RL_RETRAINS, R.RL_BAD_BLOCK]

end Sys2Proof.Machine
end

