-- ==== Sys2Proof/Machine/Regs.lean ====
section
/-! DEFINITION. The register file: reset values, reading and writing one copy of a register, the page index of Table 22-4, and
which register an address names. -/

namespace Sys2Proof.Machine

/-! ### The store of differences -/

/-- The difference stored under a key; 0 when the key is not listed. -/
def regGet : List (Nat × Word) → Nat → Word
  | [], _ => 0
  | (k', v) :: r, k => if k' = k then v else regGet r k

/-- Insert under a key, keeping the keys strictly rising. -/
def regIns (k : Nat) (v : Word) : List (Nat × Word) → List (Nat × Word)
  | [] => [(k, v)]
  | (k', v') :: r =>
    if k < k' then (k, v) :: (k', v') :: r
    else if k = k' then (k, v) :: r
    else (k', v') :: regIns k v r

/-- Remove a key. -/
def regDel (k : Nat) : List (Nat × Word) → List (Nat × Word)
  | [] => []
  | (k', v') :: r => if k = k' then r else (k', v') :: regDel k r

/-- Store a difference in the canonical form: a zero difference is not listed. -/
def regPut (l : List (Nat × Word)) (k : Nat) (v : Word) : List (Nat × Word) :=
  if v = 0 then regDel k l else regIns k v l

/-- The canonical form: keys strictly rising, no zero difference. -/
def regWf : List (Nat × Word) → Bool
  | [] => true
  | [(_, v)] => v != 0
  | (k, v) :: (k', v') :: r => v != 0 && decide (k < k') && regWf ((k', v') :: r)

/-! ### Builds, ports, domains and pages -/

/-- The bit of a build in a register's `builds` mask. -/
def buildBit : Build → Nat
  | .l => 0
  | .h => 1
  | .t => 2

/-- How many copies of the first index a build has, where that differs by build (R136, R135, R260). -/
def Reg.count (r : Reg) (b : Build) : Nat :=
  if r.page = 0x003 ∧ r.off < 0x180 then pulseGens b
  else if r.page = 0x002 ∧ r.off = 0x200 then
    match b with
    | .l => 1
    | .h => 40
    | .t => 18
  else if r.page = 0x026 ∧ (r.off = 0x100 ∨ r.off = 0x500) then
    match b with
    | .l => 64
    | .h => 128
    | .t => 256
  else r.n1

/-- The reset value of one copy of a register. -/
def Reg.resetVal (r : Reg) (b : Build) (bs : List (Nat × Nat)) (i j pg bk : Nat) : Nat :=
  match r.rst with
  | .c v => v
  | .per l h t =>
    match b with
    | .l => l
    | .h => h
    | .t => t
  | .light => if pg = 0 ∧ i < 64 then 0x80000000 + i else 0
  | .bset => assocD 0 (r.key i j pg 0) bs
  | .flowRtt => portRtt (portKind b bk)
  | .flowBuf => portB (portKind b bk)
  | .flowT => defaultT (portKind b bk) i
  | .flowT2 => defaultT (portKind b bk) i * 65537
  | .portProf =>
    match b with
    | .l => 0
    | .h => if i < 4 then 0x11111111 else if i = 4 then 0x22221111 else 0
    | .t => if i < 2 then 0x22222222 else if i = 2 then 0x3322 else 0
  | .tab l => l.getD i 0

/-- Read one copy of a register (as a number). -/
def State.rd (s : State) (r : Reg) (i : Nat := 0) (j : Nat := 0) (pg : Nat := 0) (bk : Nat := 0) : Nat :=
  (regGet s.regs (r.key i j pg bk) ^^^ BitVec.ofNat 32 (r.resetVal s.build s.bs i j pg bk)).toNat

/-- Write one copy of a register (the low 32 bits of the value). -/
def State.wr (s : State) (r : Reg) (v : Nat) (i : Nat := 0) (j : Nat := 0) (pg : Nat := 0) (bk : Nat := 0) : State :=
  { s with regs := regPut s.regs (r.key i j pg bk) (BitVec.ofNat 32 v ^^^ BitVec.ofNat 32 (r.resetVal s.build s.bs i j pg bk)) }

/-- Add to a counting register modulo 2^32. -/
def State.bump (s : State) (r : Reg) (d : Nat := 1) (i : Nat := 0) (j : Nat := 0) (pg : Nat := 0) (bk : Nat := 0) : State :=
  s.wr r (s.rd r i j pg bk + d) i j pg bk

/-- Add to a counting register that saturates at 2^32 - 1. -/
def State.bumpSat (s : State) (r : Reg) (d : Nat := 1) (i : Nat := 0) (j : Nat := 0) (pg : Nat := 0) (bk : Nat := 0) : State :=
  s.wr r (satAdd 32 (s.rd r i j pg bk) d) i j pg bk

/-- The link group of a port (R388). -/
def portGroup (b : Build) (p : Nat) : Nat :=
  match b with
  | .l => 0
  | .h => if p < 32 then 3 + p / 8 else if p < 36 then 7 else if p < 40 then 8 else (p - 40) / 8
  | .t => if p < 16 then p / 8 else if p < 18 then 2 else p - 15

/-- The ports of a link group. -/
def groupPorts (b : Build) (g : Nat) : List Nat :=
  (List.range (linkPorts b)).filter (fun p => portGroup b p == g)

/-- How many link groups a build has. -/
def linkGroups : Build → Nat
  | .l => 1
  | .h => 9
  | .t => 5

/-- The page of a port and how far its block of Table 6-9 stands from that table's offsets (R220, R221, R444, R466). -/
def portPage (b : Build) (p : Nat) : Option (Nat × Nat) :=
  match b with
  | .l => none
  | .h => if p < 36 then some (0x040 + p, 0) else if p < 40 then some (0x064 + (p - 36), 0) else if p < 64 then some (0x080 + (p - 40), 0) else none
  | .t => if p < 16 then some (0x100 + p, 0) else if p < 18 then some (0x110, 0x380 + 0x200 * (p - 16)) else none

/-- Read a register of a port's block. Selvo-L has no port page: its port shows no register. -/
def State.prd (s : State) (r : Reg) (p : Nat) (i : Nat := 0) : Nat :=
  match portPage s.build p with
  | some (pg, d) => s.rd { r with page := 0, off := r.off + d } i 0 pg 0
  | none => 0

/-- Write a register of a port's block. -/
def State.pwr (s : State) (r : Reg) (p v : Nat) (i : Nat := 0) : State :=
  match portPage s.build p with
  | some (pg, d) => s.wr { r with page := 0, off := r.off + d } v i 0 pg 0
  | none => s

/-- Add to a saturating counter of a port's block. -/
def State.pbump (s : State) (r : Reg) (p : Nat) (d : Nat := 1) : State :=
  s.pwr r p (satAdd 32 (s.prd r p) d)

/-- What Table 22-4 gives a page: first page of its range, domain, interrupt line, page class, header only. -/
structure PageInfo where
  kind : Nat
  dom : Nat
  line : Nat
  cls : Nat
  headerOnly : Bool
  /-- CMN_IRQ_STATUS bits the page defines -/
  irqs : Nat
  deriving DecidableEq, Repr

/-- Table 22-4 for the pages every build may have (0x000 to 0x030). -/
def lowPage (b : Build) (p : Nat) : Option PageInfo :=
  let isL := b == .l
  let isT := b == .t
  if p = 0x000 then some ⟨0x000, 0, 0, 0, false, 0⟩
  else if p = 0x001 then some ⟨0x001, 0, 0, 0, false, 4⟩
  else if p = 0x002 then some ⟨0x002, 0, 0, 0, false, 6⟩
  else if p = 0x003 then some ⟨0x003, 0, 0, 0, isL, 0⟩
  else if p = 0x004 then some ⟨0x004, 0, 0, 0, false, 3⟩
  else if p = 0x005 then some ⟨0x005, 0, 0, 0, false, 4⟩
  else if p = 0x006 then some ⟨0x006, 0, 0, 0, false, 4⟩
  else if p = 0x007 then some ⟨0x007, if isL then 0 else 5, 0, 0, isL, if isL then 0 else 7⟩
  else if p ≤ 0x00F ∧ 8 ≤ p then some ⟨0x008, 1, 1, 0, isT && p != 8, if isT && p != 8 then 0 else if p = 8 then 4 else 3⟩
  else if p ≤ 0x01F ∧ 0x10 ≤ p then some ⟨0x010, 1, 1, 0, false, 1⟩
  else if p = 0x020 then some ⟨0x020, 0, 1, 0, false, 6⟩
  else if p = 0x021 then some ⟨0x021, 1, 1, 0, isT, if isT then 0 else 2⟩
  else if p = 0x022 then some ⟨0x022, 1, 1, 0, isT, if isT then 0 else 8⟩
  else if p = 0x023 then some ⟨0x023, 1, 1, 0, false, 8⟩
  else if p = 0x024 then some ⟨0x024, if isT then 0 else 4, 1, 0, isT, if isT then 0 else 7⟩
  else if p = 0x025 then some ⟨0x025, if isT then 0 else 4, 1, 0, isT, if isT then 0 else if isL then 2 else 3⟩
  else if p = 0x026 then some ⟨0x026, 1, 2, 0, false, 5⟩
  else if p = 0x027 then some ⟨0x026, 1, 2, 0, false, 0⟩
  else if p = 0x028 then some ⟨0x028, 2, 2, 0, false, 5⟩
  else if p = 0x029 then some ⟨0x029, 1, 2, 0, false, 8⟩
  else if p = 0x02A then some ⟨0x02A, 1, 2, 0, false, 8⟩
  else if p = 0x02B then some ⟨0x02B, 1, 2, 0, false, 4⟩
  else if p = 0x02C then some ⟨0x02C, 1, 2, 0, false, 2⟩
  else if p = 0x02D then some ⟨0x02D, 1, 2, 0, isL, if isL then 0 else 2⟩
  else if p = 0x02E then some ⟨0x02E, 3, 2, 0, false, 3⟩
  else if p = 0x02F then some ⟨0x02F, 1, 2, 0, false, 4⟩
  else if p = 0x030 then some ⟨0x030, 1, 2, 0, false, 5⟩
  else none

/-- The complete page index (R535, Table 22-4). -/
def pageInfo (b : Build) (p : Nat) : Option PageInfo :=
  if p < 0x40 then lowPage b p
  else
    match b with
    | .l => none
    | .h =>
      if p < 0x064 then some ⟨0x040, 6 + portGroup .h (p - 0x040), 3, 0, false, 4⟩
      else if p < 0x068 then some ⟨0x064, 14, 3, 0, false, 6⟩
      else if p < 0x078 then some ⟨0x068, 1, 3, 0, false, 0⟩
      else if p < 0x080 then some ⟨0x078, 1, 3, 0, false, 0⟩
      else if p < 0x098 then some ⟨0x080, 6 + (p - 0x080) / 8, 3, 0, false, 4⟩
      else none
    | .t =>
      if p < 0x100 then none
      else if p < 0x110 then some ⟨0x100, 6 + (p - 0x100) / 8, 3, 0, false, 6⟩
      else if p = 0x110 then some ⟨0x110, 8, 3, 0, false, 5⟩
      else if p = 0x111 then some ⟨0x111, 9, 3, 0, false, 4⟩
      else if p = 0x112 then some ⟨0x111, 10, 3, 0, false, 4⟩
      else if p = 0x113 then some ⟨0x113, 0, 3, 0, false, 2⟩
      else if p = 0x114 then some ⟨0x114, 5, 3, 1, false, 2⟩
      else if p = 0x115 then some ⟨0x115, 0, 3, 2, false, 2⟩
      else if p = 0x116 then some ⟨0x116, 0, 3, 2, false, 3⟩
      else if p = 0x117 then some ⟨0x117, 0, 3, 2, false, 4⟩
      else none

/-- Every page a build maps. -/
def allPages (b : Build) : List Nat := (List.range 0x118).filter (fun p => (pageInfo b p).isSome)

/-- The offsets of CTR page 0x010 that answer in AON (R394). -/
def lightOffset (off : Nat) : Bool :=
  off < 0x280 || (0x880 ≤ off && off < 0x980) || off == 0xC80 || off == 0xC84 || off == 0xC88

/-- The domain in which an address answers (Table 15-4, R394). -/
def addrDom (b : Build) (addr : Nat) : Nat :=
  let p := addr / 4096
  if p = 0x010 ∧ lightOffset (addr % 4096) then 0
  else
    match pageInfo b p with
    | some i => i.dom
    | none => 0

/-- The block registers of a page (offsets from 0x080), leaving out the port blocks and the convoy extension. -/
def pageBlock (p : Nat) : List Reg :=
  if p = 0x000 then block_p000 else if p = 0x001 then block_p001 else if p = 0x002 then block_p002
  else if p = 0x003 then block_p003 else if p = 0x004 then block_p004 else if p = 0x005 then block_p005
  else if p = 0x006 then block_p006 else if p = 0x007 then block_p007
  else if p < 0x010 then block_p008 else if p < 0x020 then block_p010
  else if p = 0x020 then block_p020 else if p = 0x021 then block_p021 else if p = 0x022 then block_p022
  else if p = 0x023 then block_p023 else if p = 0x024 then block_p024 else if p = 0x025 then block_p025
  else if p = 0x026 then block_p026 else if p = 0x027 then block_p027 else if p = 0x028 then block_p028
  else if p = 0x029 then block_p029 else if p = 0x02A then block_p02a ++ block_slot else if p = 0x02B then block_p02b
  else if p = 0x02C then block_p02c else if p = 0x02D then block_p02d else if p = 0x02E then block_p02e
  else if p = 0x02F then block_p02f else if p = 0x030 then block_p030
  else if p = 0x110 then block_p110 else if p = 0x111 ∨ p = 0x112 then block_p111 else if p = 0x113 then block_p113
  else if p = 0x114 then block_p114 else if p = 0x115 then block_p115 else if p = 0x116 then block_p116
  else if p = 0x117 then block_p117 else []

/-- The port block of a page in a build: Table 6-9, with Table 17-5 on RALUD pages. -/
def portBlock (b : Build) (p : Nat) : List Reg :=
  match b with
  | .l => []
  | .h => if 0x064 ≤ p ∧ p < 0x068 then block_fabport ++ block_raludx else if (0x040 ≤ p ∧ p < 0x064) ∨ (0x080 ≤ p ∧ p < 0x098) then block_fabport else []
  | .t => if 0x100 ≤ p ∧ p < 0x110 then block_fabport ++ block_raludx else []

/-- The copy of a register that a byte distance from its offset names, if the build has it. -/
def Reg.indexOf (r : Reg) (b : Build) (off : Nat) : Option (Nat × Nat) :=
  if off < r.off then none
  else
    let d := off - r.off
    let i := if r.n1 = 1 then 0 else d / r.s1
    let e := if r.n1 = 1 then d else d % r.s1
    let j := e / r.s2
    if i < r.count b ∧ j < r.n2 ∧ e % r.s2 = 0 then some (i, j) else none

/-- The register and copy at an offset of page p among the rows of a list. -/
def findIn (b : Build) (p off : Nat) : List Reg → Option (Reg × Nat × Nat)
  | [] => none
  | r :: rest =>
    if r.builds.testBit (buildBit b) && (decide (r.page ≤ p ∧ p < r.page + r.pages) || r.pages == 0 || r.pages == 36 || r.pages == 4) then
      match r.indexOf b off with
      | some (i, j) => some (r, i, j)
      | none => findIn b p off rest
    else findIn b p off rest

/-- What an address names. -/
inductive Target where
  | unmapped
  | reserved
  /-- a register: its row, first and second index, page instance and bank -/
  | reg (r : Reg) (i j pg bk : Nat)
  /-- a word of the adoption and relay table (R219) -/
  | adopt (idx word : Nat)
  deriving DecidableEq, Repr

/-- The bank the selector registers choose. -/
def State.bankOf (s : State) : Bank → Nat
  | .none => 0
  | .slot => fld (s.rd R.CVY_SEL) 9 0
  | .port => fld (s.rd R.FLOW_SEL) 7 0
  | .trfport => fld (s.rd R.TRF_SEL) 7 0
  | .col => fld (s.rd R.PUB_SEL) 2 0
  | .tollsrc => 3 * fld (s.rd R.TOLL_SEL) 7 0 + fld (s.rd R.TOLL_SEL) 9 8
  | .domain => fld (s.rd R.PWR_SEL) 3 0
  | .code => fld (s.rd R.EVR_CODE_SEL) 11 0

/-- Which register an address names, given the banks in force (R529, R531, R219, R444, R466, Table 22-4). -/
def targetOf (b : Build) (bankOf : Bank → Nat) (addr : Nat) : Target :=
  let p := addr / 4096
  let off := addr % 4096
  match pageInfo b p with
  | none => .unmapped
  | some info =>
    if addr % 4 ≠ 0 then .reserved
    else if off < 0x80 then
      match findIn b 0 off block_cmn with
      | some (r, i, j) => .reg r i j p 0
      | none => .reserved
    else if info.headerOnly then .reserved
    else if b = .h ∧ 0x068 ≤ p ∧ p < 0x078 then
      let j := (off - 0x80) / 0x80
      if j < 16 then
        match findIn b 0x02A (0x200 + (off - 0x80) % 0x80) block_slot with
        | some (r, i, k) => .reg r i k 0 (16 * (p - 0x068) + j)
        | none => .reserved
      else .reserved
    else if b = .h ∧ 0x078 ≤ p ∧ p < 0x080 then
      let e := (off - 0x80) / 8
      if e < 480 then .adopt (480 * (p - 0x078) + e) ((off % 8) / 4) else .reserved
    else if b = .t ∧ p = 0x110 ∧ 0x400 ≤ off ∧ off < 0x800 then
      let l := (off - 0x400) / 0x200
      match findIn b 0 (0x80 + (off - 0x400) % 0x200) (block_fabport.map (fun r => { r with builds := 7 })) with
      | some (r, i, j) => .reg { r with page := 0, off := r.off + 0x380 + 0x200 * l } i j p 0
      | none => .reserved
    else
      match portBlock b p with
      | [] =>
        match findIn b p off (pageBlock p) with
        | some (r, i, j) => .reg r i j (p - r.page) (bankOf r.bank)
        | none => .reserved
      | rows =>
        match findIn b 0 off (rows.map (fun r => { r with builds := 7 })) with
        | some (r, i, j) => .reg { r with page := 0 } i j p 0
        | none => .reserved

/-- Which register an address names now. -/
def State.target (s : State) (addr : Nat) : Target := targetOf s.build s.bankOf addr

/-- The retention class of the register a storage key belongs to (R395); a word of the adoption table is Sticky. -/
def keyRet (b : Build) (key : Nat) : Retention :=
  match targetOf b (fun _ => 0) (key % 2097152) with
  | .reg r _ _ _ _ => r.ret
  | _ => .sticky

end Sys2Proof.Machine
end

