-- ==== Sys2Proof/Machine/Flags.lean ====
section
/-! DEFINITION. Interrupt flags: CMN_IRQ_STATUS, the four lines and the MSI-X vectors (R97, R431, R465, R531). -/

namespace Sys2Proof.Machine

/-- The interrupt line that serves a page (R97). -/
def pageLine (p : Nat) : Nat := if p < 0x008 then 0 else if p < 0x026 then 1 else if p < 0x031 then 2 else 3

/-- A page drives its line: a bit is set in both CMN_IRQ_STATUS and CMN_IRQ_ENABLE (R97). -/
def State.pageIrq (s : State) (p : Nat) : Bool :=
  (s.rd R.CMN_IRQ_STATUS (pg := p)) &&& (s.rd R.CMN_IRQ_ENABLE (pg := p)) != 0

/-- The level of interrupt line irq[n] (R97). -/
def State.irqLine (s : State) (n : Nat) : Bool :=
  (allPages s.build).any (fun p => pageLine p == n && s.pageIrq p)

/-- Send MSI-X vector n: Selvo-T sends vector n at each rise of irq[n] (R465). -/
def State.msixRise (s : State) (n : Nat) (was : Bool) : State :=
  if s.build = .t ∧ was = false ∧ s.irqLine n = true ∧ s.core.pcieReset = false then
    { s with core := { s.core with msix := modNth s.core.msix n (· + 1) } }
  else s

/-- A hardware event sets bits of a page's CMN_IRQ_STATUS (R531); the line follows (R97). -/
def State.irqMask (s : State) (p bits : Nat) : State :=
  let old := s.rd R.CMN_IRQ_STATUS (pg := p)
  let t := s.wr R.CMN_IRQ_STATUS (old ||| bits) (pg := p)
  if (s.rd R.CMN_IRQ_ENABLE (pg := p)) &&& bits != 0 then t.msixRise (pageLine p) (s.irqLine (pageLine p)) else t

/-- A hardware event sets one bit of a page's CMN_IRQ_STATUS. -/
def State.irq (s : State) (p bit : Nat) : State := s.irqMask p (2 ^ bit)

/-- ALERT# is low while a line whose bit is set in PAD_ALERT_MASK is 1 (R431). -/
def State.alertLow (s : State) : Bool :=
  (List.range 4).any (fun n => bitOf (s.rd R.PAD_ALERT_MASK) n && s.irqLine n)

end Sys2Proof.Machine
end

