-- ==== Sys2Proof/Machine/TraceCore.lean ====
section
/-! DEFINITION. The trace encoder and its buffer: packets of both formats, blocks, windows, triggers, tokens in force, holds
(R337 to R358, R362, R363). -/

namespace Sys2Proof.Machine

def State.modTrace (s : State) (f : TraceSt → TraceSt) : State := { s with trace := f s.trace }

/-- The state of the TRACE domain; Off where the build lacks it. -/
def State.traceDom (s : State) : Nat :=
  match s.power.doms.find? (fun p => p.1 == 4) with
  | some p => p.2.st
  | none => 3

/-- The encoder may write: it runs, is neither held, stopped nor in summary mode, and its memory is not in Retain or Off. -/
def State.trcCan (s : State) : Bool :=
  s.trace.running && !s.trace.held && !s.trace.stopped && !s.trace.summary && decide (s.traceDom ≤ 1)

/-- With DRAIN = 1 a block is free once it is drained (R355). -/
def State.trcDrains (s : State) : Bool := bitOf (s.rd R.TRC_CTRL) 1

/-! ### Blocks and windows (R353 to R358) -/

/-- A window protects a block. -/
def TWin.covers (w : TWin) (b : TBlock) : Bool := decide (w.first ≤ b.seq) && (w.st == 1 || decide (b.seq ≤ w.last))

def TraceSt.protects (t : TraceSt) (b : TBlock) : Bool := t.wins.any (fun w => match w with
  | some w => w.covers b
  | none => false)

/-- A block that is held is free (R355). -/
def State.blockFree (s : State) (b : TBlock) : Bool := b.closed && !s.trace.protects b && (!s.trcDrains || b.drained)

/-- Free blocks, those never written among them. -/
def State.freeBlocks (s : State) : Nat := 128 - (s.trace.blocks.filter (fun b => !s.blockFree b)).length

/-- Block n lies in a bank that is retired or to be retired: it takes no new contents (R527, Table 21-2). -/
def State.blockOut (s : State) (n : Nat) : Bool :=
  (s.rep.retired ++ s.rep.marked).any (fun x => x.1 == 4 && x.2.2 == n * Config.memBanks 4 0 / 128)

/-- The number of the block that the encoder takes next among the free ones, in ring order. -/
def State.nextFree (s : State) : Option Nat :=
  ((List.range 128).map (fun i => (s.trace.lastIdx + 1 + i) % 128)).find? (fun n =>
    !s.blockOut n && (match s.trace.blocks.find? (fun b => b.idx == n) with
      | some b => s.blockFree b
      | none => true))

/-- The SYNC that states the encoder state (R349), 64 bytes; in the Plaram format the PSYNC (R351), 16 bytes. -/
def State.syncBytes (s : State) (reason : Nat) : List Byte :=
  let t := s.trace
  if t.plaram then bytes [0x10, reason, s.qcode, 0] ++ leBytes 10 t.tbase ++ zeros 2
  else bytes [0x0D, reason, s.qcode, 0] ++ leBytes 10 t.tbase ++ (t.bases.map (fun b => bytes [b.1, b.2.1] ++ leBytes 8 b.2.2)).flatten

/-- The current block, when one is being written. -/
def TraceSt.current (t : TraceSt) : Option TBlock :=
  match t.blocks with
  | b :: _ => if b.closed then none else some b
  | [] => none

def TraceSt.modCurrent (t : TraceSt) (f : TBlock → TBlock) : TraceSt :=
  match t.blocks with
  | b :: r => if b.closed then t else { t with blocks := f b :: r }
  | [] => t

/-- Close the current block (R354). -/
def State.trcClose (s : State) : State := s.modTrace (fun t => t.modCurrent (fun b => { b with closed := true }))

/-- A block not yet drained is lost to the drain (R359). -/
def State.blockLost (s : State) (b : TBlock) : State :=
  if s.trcDrains && b.closed && !b.drained then s.modTrace (fun t => { t with gapBlocks := t.gapBlocks + 1, gapItems := t.gapItems + b.items })
  else s

/-- The encoder takes block n for its next packets. -/
def State.trcTake (s : State) (n : Nat) : State :=
  let s := match s.trace.blocks.find? (fun b => b.idx == n) with
    | some b => s.blockLost b
    | none => s
  let anchor := padTo 64 (s.syncBytes 6)
  let win := s.trace.wins.any (fun w => match w with
    | some w => w.st == 1
    | none => false)
  let b : TBlock := { idx := n, seq := s.trace.nextSeq, items := 0, plaram := s.trace.plaram, window := win, trigger := false, drained := false,
                      closed := false, first := s.stamp, last := s.stamp, anchor := anchor, data := [], openAt := s.time.cycles }
  s.modTrace (fun t => { t with blocks := b :: t.blocks.filter (fun x => x.idx != n), lastIdx := n, nextSeq := t.nextSeq + 1 })

/-- The encoder needs a new block: a free one, or what MODE and R358 say when none is free. -/
def State.trcAlloc (s : State) : State :=
  match s.nextFree with
  | some n => s.trcTake n
  | none =>
    if s.trace.mode = 0 then (s.modTrace (fun t => { t with stopped := true })).irq 0x024 3
    else
      match (s.trace.blocks.reverse).find? (fun b => b.closed && !s.trace.protects b && !s.blockOut b.idx) with
      | some b => s.trcTake b.idx
      | none => (s.modTrace (fun t => { t with summary := true })).irq 0x024 2

/-- An open window has seen so many bytes after its marker; at POST it closes, and its block with it (R357). -/
def State.winAdvance (s : State) (n : Nat) : State :=
  let done := s.trace.wins.any (fun w => match w with
    | some w => w.st == 1 && decide (w.post ≤ n)
    | none => false)
  let (seq, idx) := match s.trace.blocks with
    | b :: _ => (b.seq, b.idx)
    | [] => (0, 0)
  let s := s.modTrace (fun t => { t with wins := t.wins.map (fun w => match w with
    | some w => some (if w.st = 1 then (if w.post ≤ n then { w with st := 2, post := 0, last := seq, lastIdx := idx } else { w with post := w.post - n }) else w)
    | none => none) })
  if done then s.trcClose.irq 0x024 1 else s

/-- Write one packet; it never straddles blocks (R353). The packet is not written when no block can be had. -/
def State.trcRaw (s : State) (pkt : List Byte) (item trig : Bool) : Bool × State :=
  if !s.trcCan then (false, s)
  else
    let s := match s.trace.current with
      | some b => if 4000 < b.data.length + pkt.length then s.trcClose.trcAlloc else s
      | none => s.trcAlloc
    if !s.trcCan then (false, s)
    else
      let st := s.stamp
      let s := s.modTrace (fun t => { t.modCurrent (fun b =>
          { b with data := b.data ++ pkt, items := b.items + b2n item, trigger := b.trigger || trig, first := if b.data.isEmpty then st else b.first,
                   last := st, openAt := if b.data.isEmpty then s.time.cycles else b.openAt }) with
        lastT := s.now, lastCode := s.qcode, sinceSync := t.sinceSync + pkt.length })
      let s := match s.trace.current with
        | some b => if b.data.length = 4000 then s.trcClose else s
        | none => s
      (true, s.winAdvance pkt.length)

/-- A PSYNC is due before the next packet (R352). -/
def State.psyncNow (s : State) : Bool :=
  s.trace.plaram && (s.trace.psyncDue || decide (2 ^ fld (s.rd R.TRC_PLR_SYNC) 4 0 ≤ s.trace.sinceSync) || s.after s.trace.syncAt 128000000)

/-- Write a SYNC for a reason: the time base is taken to now, and every base is what it carries (R349). -/
def State.trcSync (s : State) (reason : Nat) : State :=
  if s.trcCan then
    let s := s.modTrace (fun t => { t with tbase := s.now })
    let s := (s.trcRaw (s.syncBytes reason) false false).2
    s.modTrace (fun t => { t with sinceSync := 0, syncAt := s.time.cycles, psyncDue := false })
  else s

/-- Write one packet, after a periodic PSYNC where one is due. -/
def State.trcPut (s : State) (pkt : List Byte) (item trig : Bool) : Bool × State :=
  (if s.psyncNow then s.trcSync 7 else s).trcRaw pkt item trig

/-- TS of the Plaram format (R351). -/
def State.plrTS (s : State) : List Byte := leBytes 4 (s.now / 256)

/-- The packets of a gap (Table 12-7, R351): in the native format one OVERFLOW, else one POVF per class with a count. -/
def ovfPackets (plaram : Bool) (reason flags : Nat) (counts : List Nat) (t0 c0 t1 c1 : Nat) : List (List Byte) :=
  if plaram then
    if bitOf flags 0 then [bytes [0x11, reason, 0xFF, flags] ++ leBytes 4 0 ++ leBytes 8 (t1 - t0)]
    else
      (counts.zipIdx.filter (fun p => p.1 != 0)).map (fun p =>
        bytes [0x11, reason, p.2, flags] ++ leBytes 4 (min p.1 4294967295) ++ leBytes 8 (t1 - t0))
  else
    [bytes [0x15, reason, flags, 0] ++ (counts.map (fun c => leBytes 4 (min c 4294967295))).flatten ++ leBytes 8 (stampOf t0 c0) ++
      leBytes 8 (stampOf t1 c1)]

/-- Report a gap up to now: OVERFLOW, then SYNC (R350); whether the gap could be written. -/
def State.trcOverflow (s : State) (reason flags : Nat) (counts : List Nat) (t0 c0 sync : Nat) : Bool × State :=
  let (ok, s) := (ovfPackets s.trace.plaram reason flags counts t0 c0 s.now s.qcode).foldl (fun (a : Bool × State) p =>
    let (ok, s) := a.2.trcPut p false false
    (a.1 && ok, if ok then s.bumpSat R.TRC_OVF else s)) (s.trcCan, s)
  (ok, s.trcSync sync)

/-- The counts of a stop, of summary mode or of a hold, as they are reported; what cannot be written yet stays pending (R358). -/
def State.trcGap (s : State) (reason sync : Nat) : State :=
  let (ok, s) := s.trcOverflow reason 0 s.trace.gap s.trace.lastT s.trace.lastCode sync
  if ok then s.modTrace (fun t => { t with gap := List.replicate 5 0 }) else s

/-- Summary mode is left when the free blocks cover TRC_RESUME (R358). -/
def State.trcResume (s : State) : State :=
  if s.trace.summary && decide (fld (s.rd R.TRC_RESUME) 15 0 * 256 ≤ s.freeBlocks * 4096) then
    (s.modTrace (fun t => { t with summary := false })).trcGap 2 1
  else s

/-! ### Exclusion (R340, R344) -/

/-- A token covers an item. -/
def Token.covers (k : Token) (i : TItem) : Bool :=
  k.st == 1 && k.cls == i.ctx && (if i.priv = 1 then bitOf k.priv 0 else bitOf k.priv 1)

/-- An item is excluded: no token that is active now covers it (R340, R343). -/
def State.itemExcluded (s : State) (i : TItem) : Bool :=
  i.priv != 0 && !(s.trace.tokens.any (fun p => p.2.covers i && decide (p.2.notBefore ≤ s.now) && decide (s.now < p.2.notAfter) && decide (s.qcode ≤ 1)))

/-- The open excluded interval closes with its EXCLUDED packet. -/
def State.exclClose (s : State) : State :=
  match s.trace.excl with
  | none => s
  | some t0 =>
    let s := (s.modTrace (fun t => { t with excl := none })).bumpSat R.TRC_EXCLUDED
    let d := s.now - t0
    (s.trcPut (if s.trace.plaram then bytes [0x12, 0, 0, 0] ++ s.plrTS ++ leBytes 8 d else bytes [0x1D] ++ leBytes 8 d) false false).2

/-! ### Items (R338, R347) -/

/-- The signed delta of a data value against its base, folded so that small magnitudes take few bytes (R347). -/
def zigzag (v base : Nat) : Nat :=
  let d := (v + 2 ^ 64 - base) % 2 ^ 64
  let ones := if bitOf d 63 then 2 ^ 64 - 1 else 0
  (d * 2 % 2 ^ 64) ^^^ ones

/-- The size code of a value, by its byte counts. -/
def sizeCode (v : Nat) (sizes : List Nat) : Nat := (sizes.zipIdx.find? (fun p => decide (v < 2 ^ (8 * p.1)))).map (fun p => p.2) |>.getD 3

/-- The native item packet (R346, R347). -/
def nativeItem (tbase now : Nat) (base : Nat × Nat × Nat) (i : TItem) : List Byte :=
  let dt := now - tbase
  let z := zigzag i.data base.2.2
  let ctx := base.1 != i.ctx || base.2.1 != i.priv
  let td := sizeCode dt [1, 2, 4, 8]
  let dd := sizeCode z [0, 2, 4, 8]
  bytes [dd * 64 + td * 16 + b2n ctx * 8 + i.cls] ++ (if ctx then bytes [i.ctx, i.priv] else []) ++ leBytes ([1, 2, 4, 8].getD td 8) dt ++
    leBytes ([0, 2, 4, 8].getD dd 8) z

/-- What the privacy floor in force lets an item show (Table 12-3). -/
def TItem.floored (i : TItem) (floor : Nat) : TItem :=
  { i with ctx := if 3 ≤ floor then 0 else i.ctx, data := if 4 ≤ floor then 0 else i.data }

/-- An item that cannot be written is counted per class (R355, R358, R363). -/
def State.itemCount (s : State) (k : Nat) : State :=
  (s.modTrace (fun t => { t with gap := modNth t.gap k (satAdd 32 · 1) })).bumpSat R.TRC_SUMMARISED 1 k

/-- Encode an item; in a stop, in summary mode or in a hold it is counted instead. -/
def State.itemEncode (s : State) (i0 : TItem) : State :=
  let i := i0.floored s.auth.floorNow
  let s := if s.psyncNow && s.trcCan then s.trcSync 7 else s
  let pkt := if s.trace.plaram then bytes [i.cls, i.ctx, i.priv, 0] ++ s.plrTS ++ leBytes 8 i.data
    else nativeItem s.trace.tbase s.now (s.trace.bases.getD i.cls (0, 0, 0)) i
  let (ok, s) := s.trcRaw pkt true false
  if ok then s.modTrace (fun t => { t with tbase := s.now, bases := t.bases.set i.cls (i.ctx, i.priv, i.data) })
  else s.itemCount i.cls

/-! ### Triggers (R356, R357) -/

def TraceSt.winOpen (t : TraceSt) : Bool := t.wins.any (fun w => match w with
  | some w => w.st == 1
  | none => false)

/-- Open a window about the marker just written, in the lowest free window register (R357). -/
def State.winOpenAt (s : State) (num : Nat) : State :=
  let pre0 := fld (s.rd R.TRC_WIN) 15 0
  let post0 := fld (s.rd R.TRC_WIN) 31 16
  let clipped := decide (1792 < pre0 + post0)
  -- the spec gives no rounding of the reduction in proportion: a free one
  let (f, s) := if clipped then s.draw else (0, s)
  let pre := if clipped then (pre0 * 1792 + f % (pre0 + post0)) / (pre0 + post0) else pre0
  let post := if clipped then 1792 - pre else post0
  match s.trace.blocks with
  | [] => s
  | cur :: _ =>
    let before := cur.data.length - 16
    let back := if pre * 256 ≤ before then 0 else (pre * 256 - before + 3999) / 4000
    let held := s.trace.blocks.filter (fun b => decide (cur.seq ≤ b.seq + back))
    let oldest := held.getLast?.getD cur
    let w : TWin := { st := 1, first := oldest.seq, last := cur.seq, firstIdx := oldest.idx, lastIdx := cur.idx,
                      short := decide (back + oldest.seq > cur.seq), clipped := clipped, num := num, stamp := s.stamp, post := post * 256 }
    let k := (s.trace.wins.findIdx? (fun x => x.isNone)).getD 0
    let s := s.modTrace (fun t => { t with wins := t.wins.set k (some w),
                                           blocks := t.blocks.map (fun (b : TBlock) => if w.covers b then { b with window := true } else b) })
    s.winAdvance 0

/-- A trigger of some sources arises (R356, R357, R363). -/
def State.trcTrigger (s : State) (srcs : Nat) : State :=
  let src := srcs &&& s.rd R.TRC_TRIG_EN
  if !s.trace.running || src == 0 then s
  else
    let num := s.trace.trigNum % 65536
    let s := ((s.modTrace (fun t => { t with trigNum := t.trigNum + 1 })).bumpSat R.TRC_TRIGGERS).irq 0x024 0
    if s.trace.held then s.bumpSat R.TRC_TRIG_REFUSED
    else
      let inside := s.trace.mode == 2 && s.trace.winOpen
      let none4 := s.trace.mode == 2 && !inside && s.trace.wins.all (fun w => w.isSome)
      let opens := s.trace.mode == 2 && !inside && !none4 && s.rd R.TRC_WIN != 0
      let s := if inside then s.bumpSat R.TRC_TRIG_MERGED else if none4 then s.bumpSat R.TRC_TRIG_REFUSED else s
      let flags := b2n (opens && s.trcCan) + 2 * b2n none4
      let pkt := if s.trace.plaram then bytes [0x13, flags, 0, 0] ++ s.plrTS ++ leBytes 4 src ++ leBytes 2 num ++ zeros 2
        else bytes [0x25] ++ leBytes 4 src ++ leBytes 2 num ++ bytes [flags] ++ leBytes 8 s.stamp
      let (ok, s) := s.trcPut pkt false true
      if ok && opens then s.winOpenAt num else s

/-! ### Tokens and the privacy floor (R343 to R345) -/

/-- The state of a token whose window and code are as they are now; past its window it only awaits its removal (R343). -/
def State.tokState (s : State) (k : Token) : Nat := if k.notAfter ≤ s.now then k.st else if 1 < s.qcode then 2 else if k.notBefore ≤ s.now then 1 else 0

/-- An authorisation change (R345): action of Table 12-5, and the token's ID. -/
def State.authChange (s : State) (id action : Nat) : State :=
  let s := s.exclClose
  let f := s.auth.floorNow
  let s := (s.trcPut (if s.trace.plaram then bytes [0x15, action, f, 0] ++ s.plrTS ++ leBytes 4 id ++ zeros 4
    else bytes [0x35] ++ leBytes 4 id ++ bytes [action, f, 0] ++ leBytes 8 s.stamp) false false).2
  (s.trcSync 3).irq 0x024 5

/-- A held token is judged anew: becoming active, suspended or resumed is a change (R343, R345). -/
def State.tokJudge (s : State) (e : Nat) : State :=
  match s.trace.tokens.find? (fun p => p.1 == e) with
  | none => s
  | some (_, k) =>
    let n := s.tokState k
    if n = k.st then s
    else
      let s := s.modTrace (fun t => { t with tokens := t.tokens.map (fun (p : Nat × Token) => if p.1 = e then (e, { p.2 with st := n }) else p) })
      if n = 1 then s.authChange k.id (if k.st = 2 then 3 else 1) else if n = 2 then s.authChange k.id 2 else s

/-- Every held token is judged anew: the quality code has changed. -/
def State.tokJudgeAll (s : State) : State := s.trace.tokens.foldl (fun (s : State) p => s.tokJudge p.1) s

/-- A held token is removed (R343). -/
def State.tokRemove (s : State) (e : Nat) : State :=
  match s.trace.tokens.find? (fun p => p.1 == e) with
  | none => s
  | some (_, k) => (s.modTrace (fun t => { t with tokens := t.tokens.filter (fun p => p.1 != e) })).authChange k.id 4

/-- A token allows what a floor forbids (Table 12-3). -/
def Token.forbidden (priv floor : Nat) : Bool := (2 ≤ floor && priv != 0) || (floor == 1 && bitOf priv 1)

/-- The privacy floor in force has risen (R344, R345). -/
def State.floorRisen (s : State) : State :=
  let f := s.auth.floorNow
  let s := if 3 ≤ f then s.exclClose.modTrace (fun t => { t with bases := t.bases.map (fun b => (0, b.2.1, 0)) }) else s
  let gone := s.trace.tokens.filter (fun p => Token.forbidden p.2.priv f)
  let s := gone.foldl (fun (s : State) p => s.tokRemove p.1) s
  s.authChange 0 6

/-- A trace key slot is revoked: its tokens go (R343). -/
def State.traceKeyRevoked (s : State) (slot : Nat) : State :=
  (s.trace.tokens.filter (fun p => p.2.key == slot)).foldl (fun (s : State) p => s.tokRemove p.1) s

/-! ### Time (R347, R348) -/

/-- The quality code has changed: QUAL unless the change is a step, then the tokens (R343, R348). -/
def State.trcQual (s : State) (step : Bool) : State :=
  let s := if step then s
    else (s.trcPut (if s.trace.plaram then bytes [0x16, s.qcode, 0, 0] ++ s.plrTS ++ zeros 8 else bytes [0x3D, s.qcode]) false false).2
  s.tokJudgeAll

/-- Fleet time has stepped: a SYNC of reason step (R347). An interval that was open goes on from the new time. -/
def State.trcStep (s : State) (old : Nat) : State :=
  let s := s.modTrace (fun t => { t with excl := t.excl.map (fun e => s.now - (old - e)) })
  s.trcSync 4

/-! ### Holds (R363) -/

/-- A held cut of the given stamp: the interval closes, HELD is written, the hold triggers, the block closes. -/
def State.trcHold (s : State) (stamp : Nat) : State :=
  if !s.trace.running then s.modTrace (fun t => { t with held := true })
  else
    let s := s.exclClose
    let s := (s.trcPut (if s.trace.plaram then bytes [0x14, 0, 0, 0] ++ s.plrTS ++ zeros 8 else bytes [0x2D] ++ leBytes 8 stamp) false false).2
    let s := s.trcTrigger (2 ^ 20)
    s.trcClose.modTrace (fun t => { t with held := true })

/-- The release of a hold: OVERFLOW of reason 4, SYNC of reason 5. -/
def State.trcRelease (s : State) : State :=
  if !s.trace.held then s
  else
    let s := s.modTrace (fun t => { t with held := false })
    if s.trace.running && !s.trace.stopped && !s.trace.summary then s.trcGap 4 5 else s

end Sys2Proof.Machine
end

