-- ==== Sys2Proof/Machine/Ops.lean ====
section
/-! DEFINITION. The shared operations: time and stamps, free values, tallies, records on their way out, the event recorder and the
coalescing table, votes and hand-shakes of power domains. -/

namespace Sys2Proof.Machine

/-! ### Outcomes -/

/-- The effect stands when the build has what the command names; otherwise the event does not exist (fault `absent`). -/
def present (c : Bool) (t : State) : Host.Outcome State Fault Refusal := if c then .next t else .fault .absent

/-- The source ID in effect (R23, R24). -/
def State.srcId (s : State) : Nat := s.auth.srcId

/-- The unit is FATAL: it sends alarms and event records only (R522). -/
def State.fatal (s : State) : Bool := bitOf (s.rd R.REP_STATUS) 3

/-- A FATAL unit sends no record of this type. -/
def State.mute (s : State) (type : Nat) : Bool := s.fatal && type != 0x1B && type != 0x1D

/-- What a memory holds with banks of it retired, or taking no new contents, in equal banks (R527, Table 21-2): kind, instance, and the whole. -/
def State.capOf (s : State) (kind inst total : Nat) : Nat :=
  total - ((s.rep.retired ++ s.rep.marked).filter (fun x => x.1 == kind && x.2.1 == inst)).length * (total / max 1 (Config.memBanks kind inst))

/-- Tree lanes and codec engines in service (R377, R523). -/
def State.lanesLeft (s : State) : Nat := fld (s.rd R.TREE_CAP) 7 0 - fld (s.rd R.REP_UNITS) 7 0
def State.enginesLeft (s : State) : Nat :=
  (match s.build with
   | .l => 1
   | .h => 4
   | .t => 16) - fld (s.rd R.REP_UNITS) 15 8

/-! ### Tallies (R44 to R47) -/

def Tally.zero (stream : Nat) : Tally :=
  { stream := stream, produced := 0, delivered := 0, merged := 0, dup := 0, dropped := List.replicate 8 0 }

/-- Change the row of a stream, keeping rows in ascending stream order. -/
def tallyUpd (stream : Nat) (f : Tally → Tally) : List Tally → List Tally
  | [] => [f (Tally.zero stream)]
  | r :: rs =>
    if stream < r.stream then f (Tally.zero stream) :: r :: rs
    else if stream = r.stream then f r :: rs
    else r :: tallyUpd stream f rs

def State.tallyMod (s : State) (stream : Nat) (f : Tally → Tally) : State :=
  { s with tally := { s.tally with rows := tallyUpd stream f s.tally.rows } }

def State.produced (s : State) (stream : Nat) : State := s.tallyMod stream (fun r => { r with produced := r.produced + 1 })
def State.delivered (s : State) (stream : Nat) : State := s.tallyMod stream (fun r => { r with delivered := r.delivered + 1 })
def State.merged (s : State) (stream : Nat) : State := s.tallyMod stream (fun r => { r with merged := r.merged + 1 })
def State.dupCounted (s : State) (stream : Nat) : State := s.tallyMod stream (fun r => { r with dup := r.dup + 1 })

/-- A record dropped for a reason of Table 2-2 (codes 1 to 8), which also counts below the next convoy packet of the stream (R200). -/
def State.dropped (s : State) (stream reason : Nat) : State :=
  let s := s.tallyMod stream (fun r => { r with dropped := modNth r.dropped (reason - 1) (· + 1) })
  { s with convoy := { s.convoy with slots := s.convoy.slots.map (fun (p : Nat × Slot) =>
      match p.2.entry with
      | some e => if e.stream = stream then (p.1, { p.2 with dropBelow := modNth p.2.dropBelow (reason - 1) (satAdd 32 · 1) }) else p
      | none => p) } }

/-- Records of a stream whose fate is open: queued or held at a port, or waiting to be forwarded or consumed (R44). -/
def State.pendingOf (s : State) (stream : Nat) : Nat :=
  (s.link.pend.filter (fun p => p.tallied && p.stream == stream)).length + (s.trace.agg.filter (fun w => w.r.stream == stream)).length +
    (s.fw.held.filter (fun x => x.2.2 && x.2.1.stream == stream)).length + ((s.tree.chunks ++ s.abft.chunks).filter (fun w => w.r.stream == stream)).length

/-! ### Records -/

/-- The 24 bytes of a manifest (Table 1-8). -/
def manifest (r : Rec) : List Byte :=
  leBytes 4 (r.length % 65536 * 65536 + r.flags % 32 * 2048 + r.tc % 8 * 256 + r.type % 256) ++
  leBytes 4 (r.hops % 256 * 16777216 + r.source % 16777216) ++
  leBytes 4 (r.rsv % 4096 * 1048576 + r.level % 16 * 65536 + r.stream % 65536) ++
  leBytes 4 r.seq ++ leBytes 8 r.stamp

/-- The packet that carries a record. -/
def packet (r : Rec) : List Byte := manifest r ++ r.payload

/-- The record that a packet carries (Table 1-8). -/
def parsePacket (l : List Byte) : Rec :=
  let w0 := leAt l 0 4
  let w1 := leAt l 4 4
  let w2 := leAt l 8 4
  { length := fld w0 31 16, flags := fld w0 15 11, tc := fld w0 10 8, type := fld w0 7 0, hops := fld w1 31 24, source := fld w1 23 0,
    level := fld w2 19 16, rsv := fld w2 31 20, stream := fld w2 15 0, seq := leAt l 12 4, stamp := leAt l 16 8, payload := l.drop 24 }

/-- Link-local types: they carry stream 0, are never forwarded and enter no tally (R114, Table 1-9). -/
def linkLocal (type stream : Nat) : Bool :=
  (0x21 ≤ type && type ≤ 0x23) || (0x80 ≤ type && type ≤ 0x83) || stream == 0

/-- The sequence of the next record this unit originates on a stream (R34). -/
def State.seqOf (s : State) (stream : Nat) : Nat := assocD 0 stream s.link.seqs

/-- The manifest flag SUMMARISED of records originated in summarise-down (R213). -/
def State.sumFlag (s : State) : Nat := if s.convoy.sdActive then 1 else 0

/-- Originate a record on a stream (R31, R33, R34): the record, and the state with the sequence advanced and the record produced. -/
def State.originateRaw (s : State) (type tc stream : Nat) (payload : List Byte) : Rec × State :=
  let r : Rec := { length := payload.length, flags := s.sumFlag, tc := tc, type := type, hops := 0, source := s.srcId, level := 0,
                   rsv := 0, stream := stream, seq := s.seqOf stream, stamp := s.stamp, payload := payload }
  let s := { s with link := { s.link with seqs := assocSet stream (w32 (s.seqOf stream + 1)) s.link.seqs } }
  (r, s.produced stream)

/-- A link-local record (R114): stream 0, no tally, the sequence its own rule gives. -/
def State.localRec (s : State) (type tc seq : Nat) (payload : List Byte) : Rec :=
  { length := payload.length, flags := 0, tc := tc, type := type, hops := 0, source := s.srcId, level := 0, rsv := 0, stream := 0, seq := seq,
    stamp := s.stamp, payload := payload }

/-! ### Ports -/

/-- A port of the build. A number that the build lacks, which TRF_SEL and FLOW_SEL may hold, shows an idle leaf port (DESIGN CHOICE, log entry 77). -/
def State.port (s : State) (p : Nat) : Port := s.link.ports.getD p (Port.reset 0)

def State.modPort (s : State) (p : Nat) (f : Port → Port) : State :=
  { s with link := { s.link with ports := modNth s.link.ports p f } }

def Port.tx8 (q : Port) (c : Nat) : TxRx := q.cls.getD c (TxRx.reset 0)

def Port.modCls (q : Port) (c : Nat) (f : TxRx → TxRx) : Port := { q with cls := modNth q.cls c f }

def State.modCls (s : State) (p c : Nat) (f : TxRx → TxRx) : State := s.modPort p (fun q => q.modCls c f)

/-- The unit that completed a packet stays in the ingress buffer: its credits are occupied, and the packet is not acknowledged (R77, R224).
A record that came without a unit withholds nothing. -/
def State.withhold (s : State) (p c credits : Nat) : State :=
  if credits = 0 then s
  else s.modCls p c (fun x => { x with released := w32 (x.released + 4294967296 - credits), occ := x.occ + credits, rxAcked := (x.rxAcked + (2 ^ 64 - 1)) % 2 ^ 64 })

/-- A unit that stayed in the ingress buffer leaves it into the core island. -/
def State.letGo (s : State) (p c credits : Nat) : State :=
  if credits = 0 then s
  else s.modCls p c (fun x => { x with released := w32 (x.released + credits), occ := x.occ - credits, rxAcked := (x.rxAcked + 1) % 2 ^ 64 })

/-- A port carries records: up, not held down and not disabled. -/
def Port.usable (q : Port) : Bool := q.up && !q.heldDown && !q.disabled

/-! ### Power domains (R389 to R392) -/

def State.dom (s : State) (d : Nat) : Option Dom := assocD none d (s.power.doms.map (fun p => (p.1, some p.2)))

def State.modDom (s : State) (d : Nat) (f : Dom → Dom) : State :=
  { s with power := { s.power with doms := s.power.doms.map (fun p => if p.1 = d then (d, f p.2) else p) } }

/-- The domain is in Run, its exit self-test over, and not held in a warm reset, which spares AON; a hand-shake that is overdue leaves it
in its former state (R96, R397). -/
def State.inRun (s : State) (d : Nat) : Bool :=
  match s.dom d with
  | some x => (d == 0 || !s.core.warm) && x.st == 0 && !x.testing && (x.moving.isNone || x.alarmed)
  | none => false

/-- A domain among TREE, CODEC, TRACE, MGMT and the LINK groups is in Run or on its way there, which votes for CORE (R390). -/
def State.coreNeeded (s : State) : Bool := s.power.doms.any (fun p => p.1 != 0 && p.1 != 1 && (p.2.st == 0 || p.2.moving == some 0))

/-- The link vote of a domain: its group has units queued, credits outstanding, or units received within the idle delay (Table 15-3). -/
def State.linkVote (s : State) (d : Nat) : Bool :=
  6 ≤ d && (groupPorts s.build (d - 6)).any (fun p =>
    let q := s.port p
    q.usable && (q.cls.any (fun c => !c.q.isEmpty || !c.held.isEmpty || (c.ready && decide (c.credits < c.farT))) ||
      !s.after q.rxAt (fld (s.rd R.PWR_IDLE_DELAY) 15 0)))

/-- The tree engine has samples, chunks or a package to work on (R293). -/
def State.treeVote (s : State) : Bool :=
  !s.tree.wait.isEmpty || !s.tree.queue.isEmpty || !s.tree.waitRun.isEmpty || !s.tree.chunks.isEmpty || s.tree.load.isSome

/-! ### Tap islands and what waits in their senders (R82, R86, R88) -/

/-- The tap island to which a counting tap is assigned. -/
def State.tapIsland (s : State) (tap : Nat) : Nat :=
  ((List.range 8).find? (fun n => bitOf (s.rd R.TAP_ASSIGN_CTR (pg := n)) (tap / 8))).getD 0

/-- The tap island to which a port of TAP_ASSIGN_OTHER is assigned, by its bit. -/
def State.portIsland (s : State) (bit : Nat) : Nat :=
  ((List.range 8).find? (fun n => bitOf (s.rd R.TAP_ASSIGN_OTHER (pg := n)) bit)).getD 0

/-- The bit of TAP_ASSIGN_OTHER that assigns an item's port (Table 5-9). -/
def TapItem.bit : TapItem → Nat
  | .sensor n _ _ _ => n / 8
  | .trigger t => 2 + t / 8
  | .boundary _ _ _ _ => 4
  | .checksum _ => 5
  | .tensor _ _ _ _ _ _ => 6
  | .trace _ _ _ _ => 7
  | .waitState _ _ _ _ => 8

/-- The same bit for a count of lost items, by its key. -/
def lostBit (k : Nat) : Nat := if k = 0 then 4 else if k < 8 then 7 else if k < 16 then 6 else 5

/-- The item crosses by an event FIFO, which holds a vote, and not by a slot (Table 3-5). -/
def TapItem.fifo : TapItem → Bool
  | .sensor _ _ _ _ | .trigger _ | .waitState _ _ _ _ => false
  | .boundary _ _ _ _ | .checksum _ | .tensor _ _ _ _ _ _ | .trace _ _ _ _ => true

/-- The count rings or FIFOs of a tap island hold something not yet launched (R88). -/
def State.tapWaiting (s : State) (n : Nat) : Bool :=
  s.core.tapSums.any (fun x => s.tapIsland x.tap == n) || s.core.tapItems.any (fun x => x.fifo && s.portIsland x.bit == n) ||
  s.core.tapLost.any (fun x => s.portIsland (lostBit x.1) == n)

/-- The votes of the tap islands on CORE, as bits 4 to 11 of the votes (R88, Table 15-3). -/
def State.tapBits (s : State) : Nat :=
  if s.core.tapSums.isEmpty && s.core.tapItems.isEmpty && s.core.tapLost.isEmpty then 0
  else (List.range 8).foldl (fun a n => if s.tapWaiting n then a ||| 2 ^ (4 + n) else a) 0

/-- The votes held on a domain in the layout of Table 15-3. -/
def State.votes (s : State) (d : Nat) : Nat :=
  match s.dom d with
  | none => 0
  | some x =>
    b2n (bitOf (s.rd R.PWR_VOTE_HOST) d) + 2 * b2n (bitOf (s.rd R.PWR_VOTE_FW) d) + 4 * b2n s.power.dbg +
    8 * b2n (!x.hw.isEmpty || (d == 1 && s.coreNeeded) || (d == 2 && s.treeVote) || s.core.wait.any (fun w => w.rsp.isNone && w.dom == d)) +
    (x.tapVotes.foldl (fun a n => a ||| 2 ^ (4 + n)) 0 ||| (if d = 1 then s.tapBits else 0)) + 4096 * b2n (x.linkVote || s.linkVote d)

/-- Move a domain towards a state: pwr_tgt changes and pwr_req rises, once pwr_req and pwr_ack are both 0 (R96). -/
def State.startMove (s : State) (d tgt : Nat) : State :=
  s.modDom d (fun x => if x.ack || x.req then { x with thenTo := some tgt }
    else { x with moving := some tgt, req := true, thenTo := none, reqAt := s.time.cycles, alarmed := false })

/-- One domain that is voted for and away from Run starts its wake, or will after the move under way (R391, R392). -/
def State.wakeOne (s : State) (d : Nat) : State :=
  match s.dom d with
  | none => s
  | some x =>
    let s := s.modDom d (fun x => { x with voteAt := s.time.cycles })
    match x.moving with
    | some t =>
      if t = 0 then s
      else s.modDom d (fun x => { x with thenTo := some 0, wakeAt := if x.thenTo = some 0 then x.wakeAt else s.time.cycles })
    | none =>
      if x.st = 0 then (if x.thenTo.isSome then s.modDom d (fun x => { x with thenTo := none }) else s)
      else if x.thenTo = some 0 then s
      else (s.modDom d (fun x => { x with wakeAt := s.time.cycles })).startMove d 0

/-- A vote is held on a domain: it wakes, and CORE with it, which is never less awake (R390, R391). -/
def State.wake (s : State) (d : Nat) : State :=
  if d = 0 then s else if d = 1 then s.wakeOne 1 else (s.wakeOne 1).wakeOne d

/-- Every domain on which a vote is held starts its wake if it is not in Run. -/
def State.wakeVoted (s : State) : State :=
  s.power.doms.foldl (fun s p => if p.1 != 0 && s.votes p.1 != 0 then s.wake p.1 else s) s

/-- Hold or drop a hardware vote, named by the rule that holds it. -/
def State.hwVote (s : State) (d rule : Nat) (held : Bool) : State :=
  let s := s.modDom d (fun x => { x with hw := if held then (if x.hw.contains rule then x.hw else x.hw ++ [rule]) else x.hw.filter (· != rule) })
  if held then s.wake d else s.modDom d (fun x => { x with voteAt := s.time.cycles })

/-! ### Egress queues -/

/-- Put a record into an egress queue, under the name of its fate; a queued unit holds the group's link vote (Table 15-3). -/
def State.enqueue (s : State) (p : Nat) (uid : Nat) (r : Rec) : State :=
  let d := 6 + portGroup s.build p
  let s := s.modCls p r.tc (fun c => { c with q := c.q ++ [{ uid := uid, r := r, sent := 0, pkt := 0, resent := false, coded := false, replay := false }] })
  if s.inRun d then s else s.wake d

/-- The lane of one member that carries a stream: its own lane by the stream's parity, else the other (R449). -/
def State.laneOf (s : State) (even : Nat) (stream : Nat) : Option Nat :=
  let own := even + stream % 2
  let other := even + (1 - stream % 2)
  if (s.port own).usable then some own else if (s.port other).usable then some other else none

/-- The ports an upward record leaves by: the leaf port, or one lane to each reachable member (R30, R449, R452). -/
def State.upPorts (s : State) (stream : Nat) : List Nat :=
  match s.build with
  | .l => if (s.port 0).usable then [0] else []
  | .h => (s.laneOf 36 stream).toList ++ (s.laneOf 38 stream).toList
  | .t => []

/-- Name the fate of a record: a new uid. -/
def State.newPend (s : State) (stream : Nat) (tallied : Bool) (ev : Option Nat) (copies : Nat) : Nat × State :=
  (s.link.nextUid, { s with link := { s.link with
    nextUid := s.link.nextUid + 1,
    pend := s.link.pend ++ [{ uid := s.link.nextUid, stream := stream, tallied := tallied, ev := ev, copies := copies }] } })

/-! ### The event recorder (chapter 19) -/

/-- Severity, ALARM and NO_COALESCE of a bound code, and the builds that write it (Tables 19-3, 19-5, 20-7 and 21-3). -/
def codeInfo (c : Nat) : Option (Nat × Bool × Bool × Nat) :=
  let all := 7
  let lh := 3
  let ht := 6
  let h := 2
  let t := 4
  match c with
  | 0x001 => some (1, false, false, all)
  | 0x002 => some (1, false, false, all)
  | 0x003 => some (3, true, false, all)
  | 0x004 => some (0, false, false, all)
  | 0x005 => some (3, true, false, all)
  | 0x006 => some (0, false, false, t)
  | 0x010 => some (3, true, false, all)
  | 0x101 => some (1, false, false, all)
  | 0x102 => some (1, false, false, all)
  | 0x103 => some (2, false, false, all)
  | 0x104 => some (3, true, false, all)
  | 0x105 => some (3, true, false, all)
  | 0x106 => some (2, true, false, h)
  | 0x107 => some (0, false, false, t)
  | 0x201 => some (3, true, false, all)
  | 0x202 => some (3, true, false, all)
  | 0x203 => some (2, true, false, all)
  | 0x204 => some (2, true, false, all)
  | 0x205 => some (2, true, false, ht)
  | 0x207 => some (3, true, false, ht)
  | 0x208 => some (2, true, false, ht)
  | 0x209 => some (2, true, false, h)
  | 0x20A => some (3, true, false, t)
  | 0x20B => some (3, true, false, t)
  | 0x310 => some (2, true, false, all)
  | 0x311 => some (3, true, false, all)
  | 0x312 => some (1, true, false, all)
  | 0x313 => some (3, true, false, all)
  | 0x401 => some (3, true, false, all)
  | 0x402 => some (3, true, false, all)
  | 0x403 => some (2, true, false, ht)
  | 0x404 => some (1, false, false, all)
  | 0x405 => some (2, false, false, all)
  | 0x406 => some (3, false, false, all)
  | 0x407 => some (1, false, false, h)
  | 0x408 => some (2, false, false, h)
  | 0x501 => some (3, true, false, lh)
  | 0x502 => some (2, false, false, lh)
  | 0x503 => some (3, false, false, lh)
  | 0x504 => some (3, true, false, all)
  | 0x601 => some (2, true, false, lh)
  | 0x602 => some (2, false, false, lh)
  | 0x701 => some (4, true, false, ht)
  | 0x711 => some (1, false, false, ht)
  | 0x712 => some (2, false, false, ht)
  | 0x801 => some (2, false, false, all)
  | 0x802 => some (1, true, false, all)
  | 0x803 => some (2, false, false, all)
  | 0x804 => some (4, true, false, all)
  | 0x901 => some (1, false, false, all)
  | 0x902 => some (2, true, false, all)
  | 0x903 => some (0, false, false, all)
  | 0x904 => some (2, true, false, all)
  | 0x905 => some (4, true, false, all)
  | 0x906 => some (3, false, false, t)
  | 0xA01 => some (3, true, false, t)
  | 0xA02 => some (3, true, false, t)
  | _ => none

/-- The 32 bytes of an event record (Table 19-1). -/
def evBytes (e : EvRec) : List Byte :=
  leBytes 4 (2147483648 + e.seq % 65536 * 32768 + e.sev % 8 * 4096 + e.code % 4096) ++ leBytes 4 e.hours ++ leBytes 3 e.cycles ++
  leBytes 1 e.suppr ++ leBytes 8 e.stamp ++ padTo 12 e.payload

/-- The event record that 32 bytes hold. -/
def evParse (l : List Byte) : EvRec :=
  let w := leAt l 0 4
  { seq := fld w 30 15, sev := fld w 14 12, code := fld w 11 0, hours := leAt l 4 4, cycles := leAt l 8 3, suppr := leAt l 11 1,
    stamp := leAt l 12 8, payload := (l.drop 20).take 12 }

/-- One token in units of 2^-36 token: a RATE of 1/16 event per s adds RATE such units every 2^-32 s (R498). -/
def token : Nat := 68719476736

/-- The bucket of a code as it stands now: risen with fleet time, stopped at the burst; full before its first use (R498). -/
def State.bucketNow (s : State) (code : Nat) : Nat :=
  let prof := fld (s.rd R.EVR_CODE_PROF (bk := code)) 3 0
  let w := s.rd R.EVR_PROF prof
  let burst := fld w 23 16 * token
  match assocD none code (s.ev.buckets.map (fun p => (p.1, some p.2))) with
  | some b => min burst (b.level + (s.now - b.lastAt) * fld w 15 0)
  | none => burst

def State.setBucket (s : State) (code level : Nat) : State :=
  { s with ev := { s.ev with buckets := assocSet code { level := level, lastAt := s.now } s.ev.buckets } }

/-- Remove the oldest forwarded slot of the store (newest first); none when there is none. -/
def dropOldest : List EvSlot → Option (List EvSlot)
  | [] => none
  | x :: xs =>
    match dropOldest xs with
    | some ys => some (x :: ys)
    | none => if x.forwarded && !x.flash then some xs else none

/-- A slot for a new record: free while fewer than 256 are held, else the oldest forwarded one (R500, R501). -/
def roomIn (l : List EvSlot) : Option (List EvSlot) := if l.length < 256 then some l else dropOldest l

/-- Mark a store slot forwarded. -/
def markFwd (id : Nat) (l : List EvSlot) : List EvSlot := l.map (fun x => if x.id = id then { x with forwarded := true } else x)

/-- The order alarms and records of the recorder leave in is that of their storing; an alarm of the coalescing table is compared by
code and payload (R241). -/
def sameAlarm (a b : EvRec) : Bool := a.code == b.code && a.payload == b.payload

/-- The earlier and the later of two stamps, by their 56-bit time. -/
def stampMin (a b : Nat) : Nat := if a / 256 ≤ b / 256 then a else b
def stampMax (a b : Nat) : Nat := if a / 256 ≤ b / 256 then b else a

/-- What an arriving alarm or coalesced record brings to the table: the alarm it is compared by, count, IDs, stamps, suppressed. -/
structure AlarmIn where
  ev : EvRec
  overflow : Bool
  count : Nat
  sat : Bool
  low : Nat
  high : Nat
  first : Nat
  last : Nat
  suppr : Nat
  slot : Option Nat
  deriving DecidableEq, Repr

/-- An alarm of type 0x1B, or a coalesced record of type 0x1D (Table 7-6), as the table takes it. -/
def alarmIn (r : Rec) (slot : Option Nat) : AlarmIn :=
  let e := evParse r.payload
  if r.type = 0x1D then
    let p := r.payload
    { ev := e, overflow := bitOf (leAt p 39 1) 0, count := leAt p 32 4, sat := bitOf (leAt p 39 1) 1, low := leAt p 36 3, high := leAt p 40 3,
      first := leAt p 44 8, last := leAt p 52 8, suppr := leAt p 60 4, slot := slot }
  else
    { ev := e, overflow := false, count := 1, sat := false, low := r.source, high := r.source, first := e.stamp, last := e.stamp,
      suppr := e.suppr, slot := slot }

def CoalEnt.join (e : CoalEnt) (a : AlarmIn) : CoalEnt :=
  { e with ev := if e.count = 0 then a.ev else e.ev,
           count := satAdd 32 e.count a.count, countSat := e.countSat || a.sat || decide (2 ^ 32 ≤ e.count + a.count),
           lowId := if e.count = 0 then a.low else min e.lowId a.low, highId := if e.count = 0 then a.high else max e.highId a.high,
           first := if e.count = 0 then a.first else stampMin e.first a.first,
           last := if e.count = 0 then a.last else stampMax e.last a.last,
           suppr := if e.count = 0 then a.suppr else satAdd 32 e.suppr a.suppr,
           slots := e.slots ++ a.slot.toList }

def CoalEnt.fresh (idx : Nat) (ov : Bool) (ev : EvRec) (now : Nat) : CoalEnt :=
  { idx := idx, overflow := ov, ev := ev, count := 0, countSat := false, lowId := 0, highId := 0, first := 0, last := 0, suppr := 0,
    openedAt := now, slots := [] }

/-- The lowest free entry number of the table; the overflow entry is number 256 (R241, R242). -/
def freeEntry (l : List CoalEnt) : Option Nat := (List.range 256).find? (fun i => !(l.any (fun e => e.idx == i)))

/-- What the table does with an arriving alarm (R241, R242). -/
inductive CoalAct where
  /-- a new entry opens and the alarm is sent on at once -/
  | send (l : List CoalEnt)
  /-- the alarm merges -/
  | merge (overflow : Bool) (l : List CoalEnt)
  deriving DecidableEq, Repr

def coalStep (l : List CoalEnt) (a : AlarmIn) (now : Nat) : CoalAct :=
  let toOverflow : CoalAct :=
    if l.any (fun e => e.overflow) then .merge true (l.map (fun e => if e.overflow then e.join a else e))
    else .merge true (l ++ [(CoalEnt.fresh 256 true a.ev now).join a])
  if a.overflow then toOverflow
  else if l.any (fun e => !e.overflow && sameAlarm e.ev a.ev) then
    .merge false (l.map (fun e => if !e.overflow && sameAlarm e.ev a.ev then e.join a else e))
  else
    match freeEntry l with
    | some i => .send (l ++ [CoalEnt.fresh i false a.ev now])
    | none => toOverflow

/-- Hand a produced record to the next hop upwards, its fate named: queued on each reachable member's lane, or at Selvo-T for
publication, or dropped link-down when there is no lane (R30, R37, R46). What a FATAL unit does not send is counted under link-down too: R522
names no reason (DESIGN CHOICE, log entry 71). -/
def State.emitUp (s : State) (r : Rec) (ev : Option Nat) : State :=
  if s.mute r.type then s.dropped r.stream 1
  else match s.build with
  | .t =>
    let (uid, s) := s.newPend r.stream true ev 1
    { s with link := { s.link with pubQ := s.link.pubQ ++ [{ uid := uid, r := r, sent := 0, pkt := 0, resent := false, coded := false, replay := false }] } }
  | _ =>
    let ps := s.upPorts r.stream
    if ps.isEmpty then
      let s := (s.dropped r.stream 1).pbump R.FP_DROP_LINKDOWN (36 + r.stream % 2)
      match ev with
      | some id => { s with ev := { s.ev with store := markFwd id s.ev.store } }
      | none => s
    else
      let (uid, s) := s.newPend r.stream true ev ps.length
      ps.foldl (fun s p => s.enqueue p uid r) s

/-- Record types that summarise-down merges (R213). -/
def sampleType (type : Nat) : Bool := (0x31 ≤ type && type ≤ 0x34) || type == 0x38 || type == 0x3A

/-- Which block of its muster a block record is: by its first counter, stream or port (R213; DESIGN CHOICE, log entry 73). -/
def blockOf (r : Rec) : Nat := if r.type = 0x31 ∨ r.type = 0x33 then leAt r.payload 4 2 else if r.type = 0x34 then leAt r.payload 4 1 else 0

/-- Hold a sample record in the span of its source, stream, type and block (R213, R214). -/
def State.holdSpan (s : State) (r : Rec) : State :=
  let num := if 0x31 ≤ r.type ∧ r.type ≤ 0x34 then leAt r.payload 0 4 else s.muster.lastNum
  let e0 := sgnN 16 (if r.type = 0x3A then fld (s.rd R.CVY_SD_E0) 31 16 else fld (s.rd R.CVY_SD_E0) 15 0)
  let same (x : Span) : Bool := x.source == r.source && x.stream == r.stream && x.type == r.type && x.block == blockOf r
  let spans := if s.convoy.spans.any same then
      s.convoy.spans.map (fun x => if same x then { x with last := num, recs := x.recs ++ [r] } else x)
    else s.convoy.spans ++ [{ source := r.source, stream := r.stream, type := r.type, block := blockOf r, first := num, last := num, recs := [r], e0 := e0 }]
  State.merged { s with convoy := { s.convoy with spans := spans } } r.stream

/-- Hand on a record that is already produced here; in summarise-down a sample record is held for its span instead (R213). -/
def State.emitSample (s : State) (r : Rec) : State :=
  if s.convoy.sdActive && sampleType r.type then s.holdSpan r else s.emitUp r none

/-- The payload of a time anchor (Table 4-2). -/
def State.anchorBytes (s : State) (step : Bool) : List Byte :=
  let utc := s.rd R.TIME_UTC
  leBytes 10 s.now ++ leBytes 1 (s.qcode) ++ leBytes 1 (fld utc 18 16 + b2n step * 8) ++ leBytes 2 (fld utc 15 0) ++ zeros 2

/-- Write a time anchor into a stream, in the stream's class (R102). -/
def State.anchor (s : State) (stream tc : Nat) (step : Bool) : State :=
  let (r, s) := s.originateRaw 0x20 tc stream (s.anchorBytes step)
  let s := { s with time := { s.time with anchored := assocSet stream tc s.time.anchored } }
  s.emitUp r none

/-- Write an anchor into every stream the unit originates: after a step or a discontinuity marker (R102, R117). -/
def State.anchorAll (s : State) (step : Bool) : State :=
  s.time.anchored.foldl (fun s p => s.anchor p.1 p.2 step) s

/-- Originate a record on a stream; the stream's first record is an anchor (R102). -/
def State.originate (s : State) (type tc stream : Nat) (payload : List Byte) : Rec × State :=
  let s := if stream != 0 && !(s.time.anchored.any (fun p => p.1 == stream)) then s.anchor stream tc false else s
  s.originateRaw type tc stream payload

/-- An alarm on its way out of the unit passes the coalescing table (R241, R242): sent on at once, or merged. -/
def State.alarmOut (s : State) (r : Rec) (slot : Option Nat) : State :=
  match coalStep s.coal.entries (alarmIn r slot) s.time.cycles with
  | .send l => { s with coal := { s.coal with entries := l } }.emitUp r slot
  | .merge ov l =>
    let s := { s with coal := { s.coal with entries := l } }
    let s := s.merged r.stream
    let s := s.bump R.TRF_COAL_MERGED
    if ov then (s.bump R.TRF_COAL_OVERFLOW).irq 0x02C 0 else s

/-- Send a stored event record upwards (R500): an alarm in TC0 on the alarm stream through the table, else TC4 on EVR_STREAM. -/
def State.evSend (s : State) (e : EvRec) (id : Nat) (alarm noCoal : Bool) : State :=
  let (r, s) := if alarm then s.originate 0x1B 0 (fld (s.rd R.TRF_ALARM_STREAM) 15 0) (evBytes e)
                else s.originate 0x1B 4 (fld (s.rd R.EVR_STREAM) 15 0) (evBytes e)
  let s := if alarm && s.core.unattended && s.build != .l then s.bumpSat R.FW_UA_ALARMS else s
  if alarm && !noCoal then s.alarmOut r (some id) else s.emitUp r (some id)

/-- Write a record into a store slot that has room, and forward it (R493, R494, R500). -/
def State.evWrite (s : State) (store : List EvSlot) (code suppr stampV : Nat) (payload : List Byte) : State :=
  let (sev, alarm, noCoal) := match codeInfo code with
    | some (a, b, c, _) => (a, b, c)
    | none => (0, false, false)
  let e : EvRec := { seq := s.ev.seq, sev := sev, code := code, hours := s.ev.hours, cycles := s.ev.pcycles, suppr := suppr, stamp := stampV,
                     payload := padTo 12 payload }
  let emit := bitOf (s.rd R.EVR_CTRL) 0
  let flash := s.build == .t && bitOf (s.rd R.EVR_CTRL) 1
  let id := s.ev.nextId
  let s := { s with ev := { s.ev with store := { id := id, ev := e, forwarded := !emit, flash := flash } :: store, nextId := id + 1,
                                      seq := (s.ev.seq + 1) % 65536, flashQ := if flash then s.ev.flashQ ++ [e] else s.ev.flashQ } }
  let s := s.irq 0x006 0
  if emit then s.evSend e id alarm noCoal else s

/-- The store-loss record that the first freed slot takes (R501): no token, never suppressed. -/
def State.lossRecord (s : State) : State :=
  if s.ev.lost = 0 then s
  else
    match roomIn s.ev.store with
    | some l =>
      let n := s.ev.lost
      let st := s.ev.lostStamp
      let s := { s with ev := { s.ev with lost := 0 } }
      s.evWrite l 0x005 0 s.stamp (leBytes 4 n ++ leBytes 8 st)
    | none => s

/-- An event arises (R498 to R501): suppressed by its bucket, lost for want of a slot, or stored and forwarded. -/
def State.eventAt (s : State) (code stampV : Nat) (payload : List Byte) : State :=
  let lvl := s.bucketNow code
  if lvl < token then
    let n := assocD 0 code s.ev.suppr
    let s := s.setBucket code lvl
    let s := { s with ev := { s.ev with suppr := assocSet code (satAdd 16 n 1) s.ev.suppr } }
    (s.bumpSat R.EVR_SUPPR_TOTAL).irq 0x006 2
  else
    let s := (s.setBucket code (lvl - token)).lossRecord
    match roomIn s.ev.store with
    | some l =>
      let n := assocD 0 code s.ev.suppr
      let k := min n 255
      let s := { s with ev := { s.ev with suppr := if n ≤ 255 then assocDel code s.ev.suppr else assocSet code (n - 255) s.ev.suppr } }
      s.evWrite l code k stampV payload
    | none =>
      let s := { s with ev := { s.ev with lost := s.ev.lost + 1, lostStamp := if s.ev.lost = 0 then stampV else s.ev.lostStamp } }
      (s.bumpSat R.EVR_LOST).irq 0x006 1

/-- An event arises now. -/
def State.event (s : State) (code : Nat) (payload : List Byte) : State := s.eventAt code s.stamp payload

/-- A discontinuity marker, stamped by the muster it is written at, which flags every open epoch; an anchor follows in every stream the unit
originates (R49, R102, R199). -/
def State.marker (s : State) (island last at_ : Nat) : State :=
  let s := { s with convoy := { s.convoy with slots := s.convoy.slots.map (fun (p : Nat × Slot) =>
    (p.1, { p.2 with opens := p.2.opens.map (fun (o : Open) => { o with disc := true }) })) } }
  let s : State := { s with codec := { s.codec with comp := s.codec.comp.map (fun (c : CdcCtx) => { c with key := true }) } }
  (s.eventAt 0x003 at_ (bytes [island, 1] ++ zeros 2 ++ leBytes 8 last)).anchorAll false

/-- A store slot's record has met its fate: the slot is forwarded, and losses before it are told (R500, R501). -/
def State.slotDone (s : State) (id : Option Nat) : State :=
  match id with
  | some i => { s with ev := { s.ev with store := markFwd i s.ev.store } }.lossRecord
  | none => s

/-! ### Fates -/

/-- Take a copy out of every queue and hold list. -/
def State.purge (s : State) (uid : Nat) : State :=
  { s with link := { s.link with ports := s.link.ports.map (fun q => { q with cls := q.cls.map (fun c =>
      { c with held := c.held.filter (fun i => i.uid != uid), q := c.q.filter (fun i => i.uid != uid || i.sent != 0) }) }) } }

/-- The store slots that a coalesced record carried are done with it (R500). -/
def State.owedDone (s : State) (uid : Nat) : State :=
  match s.coal.owed.find? (fun p => p.1 == uid) with
  | some p =>
    let s := { s with coal := { s.coal with owed := s.coal.owed.filter (fun q => q.1 != uid) } }
    p.2.foldl (fun s i => s.slotDone (some i)) s
  | none => s

/-- A record is delivered: once, when the first acknowledgement arrives (R30, R44). -/
def State.fateDelivered (s : State) (uid : Nat) : State :=
  match s.link.pend.find? (fun p => p.uid == uid) with
  | some p =>
    let s := { s with link := { s.link with pend := s.link.pend.filter (fun q => q.uid != uid) } }
    let s := if p.tallied then s.delivered p.stream else s
    (s.slotDone p.ev).owedDone uid
  | none => s

/-- One copy of a record is lost to its path: dropped for the reason once no copy is left. -/
def State.fateLost (s : State) (uid reason : Nat) : State :=
  match s.link.pend.find? (fun p => p.uid == uid) with
  | some p =>
    if p.copies ≤ 1 then
      let s := { s with link := { s.link with pend := s.link.pend.filter (fun q => q.uid != uid) } }
      let s := if p.tallied then s.dropped p.stream reason else s
      (s.slotDone p.ev).owedDone uid
    else
      { s with link := { s.link with pend := s.link.pend.map (fun q => if q.uid = uid then { q with copies := q.copies - 1 } else q) } }
  | none => s

/-- Send a record to one port; when the port carries nothing it is dropped link-down. -/
def State.sendPort (s : State) (p : Nat) (r : Rec) (tallied : Bool) : State :=
  if (s.port p).usable && !s.mute r.type then
    let (uid, s) := s.newPend r.stream tallied none 1
    s.enqueue p uid r
  else if tallied then (s.dropped r.stream 1).pbump R.FP_DROP_LINKDOWN p else s

/-- Send a link-local record to one port, if it is up. -/
def State.sendLocal (s : State) (p : Nat) (r : Rec) : State := s.sendPort p r false

/-! ### Muster cuts and steps of time (R117, R159, R166) -/

/-- T_k of a schedule (R159). -/
def Sched.tk (c : Sched) (k : Nat) : Nat := c.start + usTime (k * c.interval)

/-- How many cuts of a schedule lie before a time (R159): the least k with T_k at or after it. -/
def Sched.cutsBefore (c : Sched) (t : Nat) : Nat :=
  if t ≤ c.start then 0
  else if c.interval = 0 then 1
  else ((t - c.start) * 1000000 + c.interval * 4294967296 - 1) / (c.interval * 4294967296)

/-- The earliest pending STOP that a schedule of some generation obeys (R159). -/
def State.stopTime (s : State) (gen : Nat) : Option Nat :=
  (s.muster.action.filter (fun a => a.1 && laterThan a.2.2.2 gen)).foldl (fun (m : Option Nat) a => match m with
    | none => some a.2.2.1
    | some t => some (min t a.2.2.1)) none

/-- T_k of a schedule when its cut k is still to be taken: the schedule is not stopped then, and no later generation has taken over (R159). -/
def State.cutAt (s : State) (c : Sched) (k : Nat) : Option Nat :=
  let t := c.tk k
  let gone := c.stopped || (c.interval == 0 && decide (1 ≤ k)) || s.muster.next.any (fun y => laterThan y.gen c.gen && decide (y.start ≤ t)) ||
    (match s.stopTime c.gen with
     | some x => decide (x < t)
     | none => false)
  if gone then none else some t

/-- The schedules held: the one in force and those to come. -/
def MusterSt.scheds (m : MusterSt) : List Sched := m.cur.toList ++ m.next

/-- The image of a muster, while the core holds it (R170). -/
def MusterSt.imageOf (m : MusterSt) (num : Nat) : Option Image := (m.image.toList ++ m.older.toList).find? (fun i => i.num == num)

/-- A muster is discontinuous: a tap island or the core has come back from a reset that was not quiesced (R168). -/
def Image.disc (m : Image) : Bool := m.discIslands.any (· < 9) || !m.badCtrs.isEmpty || !m.badSns.isEmpty

/-- The next cut to come, if a schedule holds one: its time and its muster number (R159, R161, R175). -/
def State.nextCut (s : State) : Option (Nat × Nat) :=
  s.muster.scheds.foldl (fun (m : Option (Nat × Nat)) c => match s.cutAt c c.k, m with
    | some t, some x => if t < x.1 then some (t, w32 (c.base + c.k)) else some x
    | some t, none => some (t, w32 (c.base + c.k))
    | none, m => m) none

/-- A step from one time to a later one passes a cut (R166). -/
def State.cutBetween (s : State) (old new : Nat) : Bool :=
  s.muster.scheds.any (fun c => match s.cutAt c (max c.k (c.cutsBefore (old + 1))) with
    | some t => decide (old < t) && decide (t ≤ new)
    | none => false)

/-- The time of active edge k of a generator (R129). -/
def Pulse.tk (g : Pulse) (k : Nat) : Nat := g.start + k * g.period

/-- The first index from k on whose edge lies after a time (R130, R132). -/
def Pulse.nextAfter (g : Pulse) (t : Nat) : Nat :=
  if g.period = 0 then (if t < g.start then g.k else max g.k 1)
  else if t < g.start then g.k
  else max g.k ((t - g.start) / g.period + 1)

/-- A forward step skips the edges it passes and counts them (R132). -/
def Pulse.skip (g : Pulse) (t : Nat) : Pulse :=
  if g.running then
    let k := g.nextAfter t
    { g with k := k, missed := satAdd 8 g.missed (k - g.k), running := g.period != 0 || k == 0 || g.activeUntil.isSome }
  else g

/-- A fleet time that has been kept, after time stepped by d. -/
def stepAt (d : Int) (t : Nat) : Nat := ((t : Int) + d).toNat

/-- Every token bucket goes over a step with the tokens it has: a step is no time in which tokens rise (R235, R239, R498; DEDUCED, log entry 90). -/
def State.stepBuckets (s : State) (d : Int) : State :=
  { s with link := { s.link with ports := s.link.ports.map (fun (q : Port) => { q with
             laneAt := stepAt d q.laneAt,
             cls := q.cls.map (fun (x : TxRx) => { x with tokAt := stepAt d x.tokAt }),
             toll := q.toll.map (fun (x : TollSt) => { x with lastAt := stepAt d x.lastAt }) }) },
           ev := { s.ev with buckets := s.ev.buckets.map (fun p => (p.1, { p.2 with lastAt := stepAt d p.2.lastAt })) } }

/-- Fleet time moves by a signed number of units of 2^-32 s; a forward step over a cut marks it (R117, R166). The anchor is each stream's first
record after the step (R102). -/
def State.stepClock (s : State) (d : Int) : State :=
  let old := s.now
  let new := ((s.now : Int) + d) % (2 ^ 80 : Nat)
  let s := s.stepBuckets d
  let s := { s with time := { s.time with acc := new.toNat * 4294967296,
                                          exch := s.time.exch.map (fun (e : Exch) => { e with lastAt := stepAt d e.lastAt }),
                                          ptp := s.time.ptp.map (fun (q : PtpPort) => { q with
                                            t2 := stepAt d q.t2,
                                            twoStep := q.twoStep.map (fun (x : PtpStep) => { x with t2 := stepAt d x.t2 }),
                                            t3 := q.t3.map (stepAt d) }) } }
  let s := if 0 < d && s.cutBetween old s.now then { s with muster := { s.muster with stepped := true } } else s
  let s := if 0 < d then { s with pulse := { s.pulse with gens := s.pulse.gens.map (fun (g : Pulse) => g.skip s.now) } } else s
  (((s.bumpSat R.TIME_STEP_COUNT).irq 0x002 1).trcStep old).anchorAll true

/-- A step is told, with its cause (Table 19-5). -/
def State.stepTold (s : State) (d : Int) (cause : Nat) : State := s.event 0x102 (leBytes 8 (unsN 64 d) ++ bytes [cause])

/-- Time steps, and the step is told. -/
def State.stepTime (s : State) (d : Int) (cause : Nat) : State := (s.stepClock d).stepTold d cause

/-! ### Violations (R515 to R517) -/

/-- Log a violation in the header of a page and write event 0x801. -/
def State.logViol (s : State) (page addr info : Nat) : State :=
  let st := s.stamp
  let s := if s.rd R.CMN_VIOL_FIRST_INFO (pg := page) = 0 then
      (((s.wr R.CMN_VIOL_FIRST_ADDR (addr % 2097152) (pg := page)).wr R.CMN_VIOL_FIRST_INFO info (pg := page)).wr
        R.CMN_VIOL_FIRST_STAMP_LO (st % 4294967296) (pg := page)).wr R.CMN_VIOL_FIRST_STAMP_HI (st / 4294967296) (pg := page)
    else s
  let s := (((s.wr R.CMN_VIOL_LAST_ADDR (addr % 2097152) (pg := page)).wr R.CMN_VIOL_LAST_INFO info (pg := page)).wr
        R.CMN_VIOL_LAST_STAMP_LO (st % 4294967296) (pg := page)).wr R.CMN_VIOL_LAST_STAMP_HI (st / 4294967296) (pg := page)
  let n := satAdd 24 (fld (s.rd R.CMN_VIOL_COUNT (pg := page)) 23 0) 1
  let s := s.wr R.CMN_VIOL_COUNT (info % 16 * 16777216 + n) (pg := page)
  s.event 0x801 (leBytes 4 (addr % 2097152) ++ leBytes 4 info)

/-- The information word of a violation (R516). -/
def violInfo (reason cls : Nat) (write : Bool) (path data : Nat) : Nat :=
  reason + cls * 16 + (if write then 64 else 0) + path * 256 + (if write then data % 65536 * 65536 else 0)

/-- An uncorrectable word (R331): the ABFT page's interrupt bit and event 0x504; the list names memory kind, instance, bank and word
address, and is empty when no word was found. -/
def State.badWord (s : State) (w : List Nat) : State :=
  if w.isEmpty then s
  else ((s.bumpSat R.REP_UNCORR).irq 0x023 7).event 0x504 (bytes [w.getD 0 0, w.getD 1 0, w.getD 2 0, 0] ++ leBytes 4 (w.getD 3 0))

/-! ### The drover (R402 to R405) -/

/-- The classes the emergency state grants (Table 15-9). -/
def classGranted (emerg c : Nat) : Bool :=
  if emerg = 0 then true
  else if emerg = 1 then c == 1 || c == 2 || c == 3 || c == 5
  else c == 1

/-- A whole nJ in the units of the buckets (10^-6 nJ). -/
def nJ : Int := 1000000

/-- The drover grants an item of class c (1 to 6) and cost in whole nJ, or does not (R403, R405, R407, R409). -/
def State.grant (s : State) (c cost : Nat) : Option State :=
  if !classGranted s.drover.emerg c then none
  else if !bitOf (s.rd R.DRV_CTRL) 0 then some s
  else
    let burst := s.drover.bursts.getD (c - 1) 0
    let lvl := s.drover.levels.getD (c - 1) 0
    let need : Int := cost * nJ
    let full : Int := burst * nJ
    if burst = 0 then none
    else if need ≤ lvl ∨ (full < need ∧ full ≤ lvl) then
      let s := { s with drover := { s.drover with levels := s.drover.levels.set (c - 1) (lvl - need),
                                                  charged := modNth s.drover.charged (c - 1) (fun x => (x + cost) % 1000) } }
      let before := (s.drover.charged.getD (c - 1) 0 + 1000 - cost % 1000) % 1000
      some (s.bump R.DRV_CHARGED ((before + cost) / 1000) (c - 1))
    else none

end Sys2Proof.Machine
end

