-- ==== Sys2Proof/Machine/Cost.lean ====
section
/-! DEFINITION. The estimated cost of a work item (R404, Table 15-7). -/

namespace Sys2Proof.Machine

/-- A binary32 estimate in nJ rounded up to a whole nJ; one that overflows lies above every burst. -/
def wholeNJ (v : Nat) : Nat := if v = b32.inf then 2 ^ 128 else (fCeil b32 v).toNat

/-- DRV_COST coefficient i times a number, in binary32 (R404). -/
def State.costTerm (s : State) (i n : Nat) : Nat := fMul b32 (s.rd R.DRV_COST i) (fOfNat b32 n)

/-- Cost of an item whose estimate is one coefficient times a number. -/
def State.cost1 (s : State) (i n : Nat) : Nat := wholeNJ (s.costTerm i n)

/-- Muster image: CUT_BASE + CUT_CTR × enabled counters. -/
def State.costImage (s : State) (ctrs : Nat) : Nat := wholeNJ (fAdd b32 (s.rd R.DRV_COST 0) (s.costTerm 1 ctrs))

/-- Convoy packet merged, published or forwarded: CVY_PKT. -/
def State.costConvoy (s : State) : Nat := wholeNJ (s.rd R.DRV_COST 2)

/-- Tree sample: TREE_LEVEL × T × D. -/
def State.costTree (s : State) (trees depth : Nat) : Nat :=
  wholeNJ (fMul b32 (s.costTerm 3 trees) (fOfNat b32 depth))

/-- Scoring of one sample: VERDICT. -/
def State.costVerdict (s : State) : Nat := wholeNJ (s.rd R.DRV_COST 4)

/-- Graph assembly or merge: HANG_EDGE × entries. -/
def State.costHang (s : State) (n : Nat) : Nat := s.cost1 5 n

/-- Feature pass: FEAT_INSTR × N + FEAT_WIN × ΣW. -/
def State.costFeature (s : State) (n w : Nat) : Nat := wholeNJ (fAdd b32 (s.costTerm 6 n) (s.costTerm 7 w))

/-- Record compressed at a level of 3 or more: CODEC_BYTE × raw bytes × (level − 2). -/
def State.costCodec (s : State) (n level : Nat) : Nat := wholeNJ (fMul b32 (s.costTerm 8 n) (fOfNat b32 (level - 2)))

/-- Trace record: TRACE_BYTE × record bytes. -/
def State.costTrace (s : State) (n : Nat) : Nat := s.cost1 9 n

/-- Chunk or verification: BULK_BYTE × bytes. -/
def State.costBulk (s : State) (n : Nat) : Nat := s.cost1 10 n

/-- Grant an item when it is covered: the state after, and whether it was granted (R403). -/
def State.tryGrant (s : State) (c cost : Nat) : Bool × State :=
  match s.grant c cost with
  | some t => (true, t)
  | none => (false, s)

end Sys2Proof.Machine
end

