-- ==== Sys2Proof/Machine/Codec.lean ====
section
/-! DEFINITION. The residue codec, both directions (R40, R368 to R378). -/

namespace Sys2Proof.Machine

/-! ### Prediction (R372, Table 13-2) -/

/-- A word of a matrix of k columns, dr rows up and dj columns left of (r, j); 0 outside the matrix. -/
def cellAt (x : Nat → Nat) (k r j dr dj : Nat) : Nat := if r < dr ∨ j < dj then 0 else x ((r - dr) * k + (j - dj))

/-- The median of three. -/
def med3 (a b c : Nat) : Nat := max (min a b) (min (max a b) c)

/-- The prediction of word (r, j), in words modulo m; `x` is the matrix, `b` the reference block's. -/
def predict (m code : Nat) (x b : Nat → Nat) (k r j : Nat) : Nat :=
  let u := cellAt x k r j 1 0
  let uu := cellAt x k r j 2 0
  let uuu := cellAt x k r j 3 0
  let l := cellAt x k r j 0 1
  let ll := cellAt x k r j 0 2
  let ul := cellAt x k r j 1 1
  let b0 := cellAt b k r j 0 0
  let bu := cellAt b k r j 1 0
  let bl := cellAt b k r j 0 1
  let bul := cellAt b k r j 1 1
  let sub (p q : Nat) : Nat := (p + (m - q % m)) % m
  match code with
  | 0 => 0
  | 1 => u
  | 2 => sub (2 * u) uu
  | 3 => sub (3 * u + uuu) (3 * uu)
  | 4 => l
  | 5 => sub (2 * l) ll
  | 6 => sub (u + l) ul
  | 7 => med3 u l (sub (u + l) ul)
  | 8 => (u + l) / 2
  | 9 => ul
  | 10 => b0
  | 11 => sub (b0 + u) bu
  | 12 => sub (b0 + l) bl
  | 13 => (u + b0) / 2
  | 14 => (l + b0) / 2
  | _ => sub (sub (sub (b0 + u + l + bul) ul) bu) bl

/-! ### The Rice code (R373) -/

/-- The smallest kk from `from_` with n << kk at least a, at most `top`. -/
def riceK (a n top : Nat) : Nat → Nat → Nat
  | 0, kk => kk
  | f + 1, kk => if top ≤ kk ∨ a ≤ n * 2 ^ kk then kk else riceK a n top f (kk + 1)

/-- A column's state after a word. -/
def riceNext (c : Nat × Nat) (z : Nat) : Nat × Nat :=
  let a := c.1 + min z (2 ^ 40)
  let n := c.2 + 1
  if n = 64 then (a / 2, 32) else (a, n)

/-- Count ones from a bit position, at most as many as the fuel: the count and the position after the 0 bit; none past the end. -/
def readOnes (v nb : Nat) : Nat → Nat → Nat → Option (Nat × Nat)
  | 0, pos, q => some (q, pos)
  | f + 1, pos, q => if nb ≤ pos then none else if v.testBit pos then readOnes v nb f (pos + 1) (q + 1) else some (q, pos + 1)

/-- One coded value: z and the position after it. -/
def readZ (v nb w8 : Nat) (c : Nat × Nat) (pos : Nat) : Option (Nat × Nat) :=
  let kk := riceK c.1 c.2 (w8 - 1) w8 0
  match readOnes v nb 24 pos 0 with
  | none => none
  | some (q, p) =>
    let n := if q < 24 then kk else w8
    if nb < p + n then none
    else
      let low := v / 2 ^ p % 2 ^ n
      some (if q < 24 then q * 2 ^ kk + low else low, p + n)

/-- The residue that z stands for, modulo 2^w8. -/
def unzig (w8 z : Nat) : Nat := if z % 2 = 1 then (2 ^ w8 - 1 - z / 2 % 2 ^ w8) % 2 ^ w8 else z / 2 % 2 ^ w8

/-- The value the encoder writes for a residue. -/
def zigOf (w8 d : Nat) : Nat := if d < 2 ^ (w8 - 1) then 2 * d else 2 * (2 ^ w8 - d) - 1

/-- Decode words one by one: `xs` holds the words so far, newest first. -/
def decWords (v nb w8 k : Nat) (preds : List Nat) (b : Nat → Nat) : Nat → List Nat → List (Nat × Nat) → Nat → Option (List Nat × Nat)
  | 0, xs, _, pos => some (xs, pos)
  | f + 1, xs, cols, pos =>
    let i := xs.length
    let j := i % k
    let p := predict (2 ^ w8) (preds.getD j 0) (fun n => xs.getD (i - 1 - n) 0) b k (i / k) j
    match readZ v nb w8 (cols.getD j (1, 1)) pos with
    | none => none
    | some (z, pos') => decWords v nb w8 k preds b f ((p + unzig w8 z) % 2 ^ w8 :: xs) (modNth cols j (fun c => riceNext c z)) pos'

/-! ### Decoding a block (R371, R374, R376) -/

/-- A block that decoded: its bytes, its shape, and the bytes after it. -/
structure Block where
  raw : List Byte
  pre : Nat
  k : Nat
  r : Nat
  w : Nat
  rest : List Byte
  deriving DecidableEq, Repr

/-- The words of a raw block under a shape, row by row. -/
def blockWord (raw : List Byte) (pre w i : Nat) : Nat := leAt raw (pre + i * 2 ^ w) (2 ^ w)

/-- Decode one block; the answer is the block, or the reason of Table 13-4. Of several reasons the first in the order limit, format,
reference, overrun counts. -/
def decBlock (limit : Nat) (ctx : Option CdcCtx) (first : Bool) (l : List Byte) : Except Nat Block :=
  let w0 := leAt l 0 4
  let kinit := fld w0 29 24
  let w := fld w0 23 22
  let raw := fld w0 16 0
  let pre := leAt l 4 2
  let k := leAt l 6 2
  let r := leAt l 8 2
  let clen := leAt l 10 2
  let ref := leAt l 12 4
  let key := bitOf w0 20
  let w8 := 8 * 2 ^ w
  let body := (l.drop 16).take clen
  let rest := l.drop (16 + clen)
  if l.length < 16 then .error 3
  else if limit = 0 ∨ limit < raw then .error 1
  else if fld w0 31 30 ≠ 0 ∨ fld w0 19 17 ≠ 0 ∨ 65536 < raw ∨ l.length < 16 + clen then .error 3
  else if raw < k * 2 ^ w * r + pre ∨ w8 ≤ kinit ∨ (k = 0 ∧ r ≠ 0) then .error 3
  else if bitOf w0 21 then
    if clen < raw then .error 2
    else if raw < clen then .error 3
    else .ok { raw := body, pre := 0, k := 0, r := 0, w := 0, rest := rest }
  else
    let mapLen := (k + 1) / 2
    let map := (body.drop pre).take mapLen
    let preds := (List.range k).map (fun j => (map.getD (j / 2) 0).toNat / (if j % 2 = 0 then 1 else 16) % 16)
    let back := preds.any (fun p => decide (10 ≤ p))
    let refOk := match ctx with
      | some c => c.seq == ref && c.pre == pre && c.k == k && c.r == r && c.w == w
      | none => false
    if clen < pre + mapLen then .error 2
    else if back && (key || !first || !refOk) then .error 4
    else
      let bits := body.drop (pre + mapLen)
      let v := leNat bits
      let b := match ctx with
        | some c => fun i => blockWord c.raw c.pre c.w i
        | none => fun _ => 0
      match decWords v (8 * bits.length) w8 k preds b (k * r) [] (List.replicate k (2 ^ kinit, 1)) 0 with
      | none => .error 2
      | some (xs, pos) =>
        let used := (pos + 7) / 8
        let tail := raw - pre - r * k * 2 ^ w
        if bits.length < used + tail then .error 2
        else if v / 2 ^ pos % 2 ^ (8 * used - pos) ≠ 0 ∨ used + tail < bits.length then .error 3
        else
          .ok { raw := body.take pre ++ (xs.reverse.map (leBytes (2 ^ w))).flatten ++ bits.drop used, pre := pre, k := k, r := r, w := w, rest := rest }

/-- Decode a payload block by block: the raw bytes and the first block. -/
def decBlocks (limit : Nat) (ctx : Option CdcCtx) : Nat → Option Block → List Byte → List Byte → Except Nat (List Byte × Option Block)
  | 0, fb, acc, _ => .ok (acc, fb)
  | f + 1, fb, acc, l =>
    if l.isEmpty then .ok (acc, fb)
    else
      match decBlock limit ctx fb.isNone l with
      | .error e => .error e
      | .ok b =>
        let acc := acc ++ b.raw
        if 65535 < acc.length then .error 3 else decBlocks limit ctx f (some (fb.getD b)) acc b.rest

/-! ### Contexts (R375) -/

/-- Contexts a build holds for compression and for decompression. -/
def compMax : Build → Nat
  | .l => 16
  | .h => 64
  | .t => 256
def decMax : Build → Nat
  | .l => 16
  | .h => 256
  | .t => 1024

def CdcCtx.of (c : CdcCtx) (r : Rec) : Bool := c.source == r.source && c.stream == r.stream && c.type == r.type

/-- Put a context first; the least recently used one goes when the store is full. -/
def ctxPut (cap : Nat) (c : CdcCtx) (l : List CdcCtx) : List CdcCtx × Bool :=
  let rest := l.filter (fun x => !(x.source == c.source && x.stream == c.stream && x.type == c.type))
  (c :: rest.take (cap - 1), decide (cap ≤ rest.length))

/-- A context has been evicted. -/
def State.ctxEvict (s : State) (yes : Bool) : State := if yes then (s.bumpSat R.CDC_CTX_EVICT).irq 0x02E 2 else s

/-! ### Opening a record (R40, R376) -/

/-- The record is rejected: counted once, and under its reason. -/
def State.codecReject (s : State) (r : Rec) (reason : Nat) : State :=
  let s := (s.bumpSat R.CDC_REJECT).bumpSat R.CDC_REJECT_R 1 (reason - 1)
  (s.wr R.CDC_LAST_REJECT (r.source % 2 ^ 24 + reason * 2 ^ 24)).irq 0x02E 0

/-- Open a record: the record with its raw payload, or none where the decompressor rejects it. -/
def State.openRec (s : State) (r : Rec) : Option Rec × State :=
  if r.level = 0 then (some r, s)
  else if s.enginesLeft = 0 then (none, (s.bumpSat R.CDC_REJECT).bumpSat R.REP_NOENGINE)
  else if 8 ≤ r.level then (none, s.codecReject r 3)
  else
    let ctx := s.codec.dec.find? (fun c => c.of r)
    match decBlocks (fld (s.rd R.CDC_OUT_LIMIT) 16 0) ctx (r.payload.length + 1) none [] r.payload with
    | .error e => (none, s.codecReject r e)
    | .ok (raw, fb) =>
      let s := match fb with
        | some b =>
          let c : CdcCtx := { source := r.source, stream := r.stream, type := r.type, seq := r.seq, raw := b.raw, pre := b.pre, k := b.k, r := b.r, w := b.w,
                              since := 0, key := false }
          let (l, ev) := ctxPut (decMax s.build) c s.codec.dec
          State.ctxEvict { s with codec := { s.codec with dec := l } } ev
        | none => s
      (some { r with payload := raw, length := raw.length, level := 0 }, s)

/-- Open a record that ends here: a rejected one is dropped codec-reject, one of a wrong decoded length malformed (R35, R376). `ok` judges
the opened record's length. -/
def State.openOrDrop (s : State) (r : Rec) (ok : Rec → Bool) (use : Rec → State → State) : State :=
  match s.openRec r with
  | (none, s) => s.dropped r.stream 6
  | (some q, s) => if r.level != 0 && !ok q then s.dropped r.stream 5 else use q s

/-! ### Compressing (R369 to R375) -/

/-- The predictors that a level tries (Table 13-3). -/
def levelPreds (level : Nat) : List Nat :=
  if level = 1 then [1]
  else if level = 2 then [0, 1, 4]
  else if level = 3 then [0, 1, 2, 4, 6]
  else if level = 4 then List.range 10
  else if level = 5 then List.range 13
  else if level = 6 then List.range 15
  else List.range 16

/-- The values z of one column under a predictor. -/
def colZ (w8 k r code j : Nat) (x b : Nat → Nat) : List Nat :=
  (List.range r).map (fun i => zigOf w8 ((x (i * k + j) + (2 ^ w8 - predict (2 ^ w8) code x b k i j % 2 ^ w8)) % 2 ^ w8))

/-- The bits of one value, least significant first. -/
def zBits (w8 : Nat) (c : Nat × Nat) (z : Nat) : List Bool :=
  let kk := riceK c.1 c.2 (w8 - 1) w8 0
  let q := z / 2 ^ kk
  let low (n : Nat) : List Bool := (List.range n).map z.testBit
  if q < 24 then List.replicate q true ++ [false] ++ low kk else List.replicate 24 true ++ low w8

/-- How many bits a column takes. -/
def colBits (w8 kinit : Nat) (zs : List Nat) : Nat :=
  (zs.foldl (fun (a : Nat × Nat × Nat) z => (a.1 + (zBits w8 a.2 z).length, riceNext a.2 z)) (0, 2 ^ kinit, 1)).1

/-- The predictor that gives a column the fewest bits; of equal ones the lowest code. -/
def bestPred (w8 k r kinit j : Nat) (x b : Nat → Nat) (tried : List Nat) : Nat × List Nat :=
  let l := tried.map (fun c => (c, colZ w8 k r c j x b))
  match l with
  | [] => (0, [])
  | h :: t => (t.foldl (fun (a : Nat × (Nat × List Nat)) y => let n := colBits w8 kinit y.2; if n < a.1 then (n, y) else a) (colBits w8 kinit h.2, h)).2

/-- Bits packed into bytes, least significant first, padded with 0. -/
def packBits (l : List Bool) : List Byte := leBytes ((l.length + 7) / 8) (l.foldr (fun b a => b2n b + 2 * a) 0)

/-- The shape of a block: prefix, columns, rows, word size code and Rice start. -/
structure Shape where
  pre : Nat
  k : Nat
  r : Nat
  w : Nat
  kinit : Nat
  deriving DecidableEq, Repr

/-- A shape the compressor may choose for n bytes, from free values; the first piece of a counter block has one row of 8-byte values
behind its 8 bytes (R371, log entry 40). -/
def pickShape (counter : Bool) (n a b c d e : Nat) : Shape :=
  if counter ∧ 8 ≤ n then { pre := 8, k := (n - 8) / 8, r := if (n - 8) / 8 = 0 then 0 else 1, w := 3, kinit := e % 64 }
  else
    let w := a % 4
    let pre := b % (n + 1)
    let cells := (n - pre) / 2 ^ w
    let k := c % (cells + 1)
    { pre := pre, k := k, r := if k = 0 then 0 else d % (cells / k + 1), w := w, kinit := e % (8 * 2 ^ w) }

/-- One block of a piece under a shape; `ctx` is the reference where back predictors are allowed. Answers the block, and whether it is
stored. -/
def encBlock (level : Nat) (sh : Shape) (ctx : Option CdcCtx) (raw : List Byte) : List Byte × Bool :=
  let w8 := 8 * 2 ^ sh.w
  let x := fun i => blockWord raw sh.pre sh.w i
  let b := match ctx with
    | some c => fun i => blockWord c.raw c.pre c.w i
    | none => fun _ => 0
  let tried := (levelPreds level).filter (fun p => decide (p < 10) || ctx.isSome)
  let cols := (List.range sh.k).map (fun j => bestPred w8 sh.k sh.r sh.kinit j x b tried)
  let preds := cols.map (fun c => c.1)
  let map := (List.range ((sh.k + 1) / 2)).map (fun i => BitVec.ofNat 8 (preds.getD (2 * i) 0 + 16 * preds.getD (2 * i + 1) 0))
  let bits := ((List.range (sh.k * sh.r)).foldl (fun (acc : List (List Bool) × List (Nat × Nat)) i =>
    let j := i % sh.k
    let z := ((cols.getD j (0, [])).2).getD (i / sh.k) 0
    (zBits w8 (acc.2.getD j (1, 1)) z :: acc.1, modNth acc.2 j (fun c => riceNext c z))) ([], List.replicate sh.k (2 ^ sh.kinit, 1))).1.reverse.flatten
  let body := raw.take sh.pre ++ map ++ packBits bits ++ raw.drop (sh.pre + sh.k * sh.r * 2 ^ sh.w)
  if raw.length < body.length then
    (leBytes 4 (raw.length + 1048576 + 2097152) ++ zeros 6 ++ leBytes 2 raw.length ++ zeros 4 ++ raw, true)
  else
    (leBytes 4 (raw.length + (if ctx.isSome then 0 else 1048576) + sh.w * 4194304 + sh.kinit * 16777216) ++ leBytes 2 sh.pre ++ leBytes 2 sh.k ++
      leBytes 2 sh.r ++ leBytes 2 body.length ++ leBytes 4 (match ctx with
        | some c => c.seq
        | none => 0) ++ body, false)

/-- Pieces of at most 4,096 bytes. -/
def codecPieces (l : List Byte) : List (List Byte) := (List.range ((l.length + 4095) / 4096)).map (fun i => (l.drop (4096 * i)).take 4096)

/-- A shape drawn for a piece. -/
def State.drawShape (s : State) (counter : Bool) (n : Nat) : Shape × State :=
  let (a, s) := s.draw
  let (b, s) := s.draw
  let (c, s) := s.draw
  let (d, s) := s.draw
  let (e, s) := s.draw
  (pickShape counter n a b c d e, s)

/-- The level a record asks for, and the highest the drover grants it (R370). -/
def State.levelWanted (s : State) (tc : Nat) : Nat :=
  let step := if s.convoy.sdActive then fld (s.rd R.CVY_SD_CFG2) 10 8 else 0
  min 7 (s.rd R.CDC_LEVEL / 2 ^ (4 * (tc - 4)) % 16 + step)

/-- The records to which the codec applies: originated here, of TC4 to TC7, with a payload, not link-local. -/
def State.codes (s : State) (r : Rec) : Bool :=
  bitOf (s.rd R.CDC_CTRL) 0 && decide (0 < s.enginesLeft) && r.source == s.srcId && r.level == 0 && decide (4 ≤ r.tc) && !r.payload.isEmpty && !linkLocal r.type r.stream

/-- Add to a 64-bit pair of registers. -/
def State.add64 (s : State) (lo hi : Reg) (n : Nat) : State :=
  let v := s.rd lo + s.rd hi * 2 ^ 32 + n
  (s.wr lo (v % 2 ^ 32)).wr hi (v / 2 ^ 32 % 2 ^ 32)

/-- The record as it leaves at a level of 1 to 7. -/
def State.compressAt (s : State) (r : Rec) (level : Nat) : Rec × State :=
  let every := max 1 (fld (s.rd R.CDC_KEY_EVERY) 7 0)
  let old := s.codec.comp.find? (fun c => c.of r)
  let step (acc : (List (List Byte) × Nat × Nat × Option (Shape × Bool × Bool)) × State) (piece : List Byte) :=
    let (blocks, stored, n, firstSh) := acc.1
    let s := acc.2
    let first := n == 0
    let (sh, s) := s.drawShape (first && r.type == 0x31) piece.length
    let ctx := if !first then none else
      match old with
      | some c => if c.key || decide (every ≤ c.since) || !(c.pre == sh.pre && c.k == sh.k && c.r == sh.r && c.w == sh.w) then none else some c
      | none => none
    let (b, st) := encBlock level sh ctx piece
    ((blocks ++ [b], stored + b2n st, n + 1, if first then some (sh, ctx.isNone, st) else firstSh), s)
  let pieces := codecPieces r.payload
  let ((blocks, stored, _, firstSh), s) := pieces.foldl step (([], 0, 0, none), s)
  let payload := blocks.flatten
  if 65535 < payload.length then (r, s)
  else
    let s := if stored = 0 then s else s.bumpSat R.CDC_STORED stored
    let s := s.add64 R.CDC_RAW_LO R.CDC_RAW_HI r.payload.length
    let s := s.add64 R.CDC_CODED_LO R.CDC_CODED_HI payload.length
    let s := match firstSh with
      | some (sh, key, st) =>
        let c : CdcCtx := { source := r.source, stream := r.stream, type := r.type, seq := r.seq, raw := pieces.headD [], pre := if st then 0 else sh.pre,
                            k := if st then 0 else sh.k, r := if st then 0 else sh.r, w := if st then 0 else sh.w,
                            since := if key || st then 1 else (match old with
                              | some c => c.since + 1
                              | none => 1), key := false }
        let (l, ev) := ctxPut (compMax s.build) c s.codec.comp
        State.ctxEvict { s with codec := { s.codec with comp := l } } ev
      | none => s
    ({ r with payload := payload, length := payload.length, level := level }, s)

/-- A record as it leaves its egress queue: coded at the lowest of the level asked for and the level granted (R369, R370). -/
def State.codeRec (s : State) (r : Rec) : Rec × State :=
  if !s.codes r then (r, s)
  else
    let want := s.levelWanted r.tc
    let (level, s) := if want ≤ 2 then (want, s) else
      match s.grant 4 (s.costCodec r.payload.length want) with
      | some s => (want, s)
      | none => (2, s)
    let (r', s) := if level = 0 then (r, s) else s.compressAt r level
    (r', if r'.level < want then (s.bumpSat R.CDC_LOWERED).irq 0x02E 1 else s)

/-- Live reads of the CODEC page. -/
def State.codecLive (s : State) (off : Nat) : Option Nat :=
  if off = 0x090 then
    some ((if classGranted s.drover.emerg 4 then 7 else 2) + 8 * b2n (s.convoy.sdActive && fld (s.rd R.CVY_SD_CFG2) 10 8 != 0) + 16 * s.codec.comp.length +
      65536 * s.codec.dec.length)
  else none

end Sys2Proof.Machine
end

