-- ==== Sys2Proof/Machine/Operands.lean ====
section
/-! DEFINITION. How a register access meets its page: the domain it answers in, the privilege, lock and value checks in their
order, the response of its path, and the plain effect of a write by access code (R12 to R15, R72 to R75, R394, R514 to R517, R532). -/

namespace Sys2Proof.Machine

/-- The number of a privilege class (Table 3-2). -/
def clsNum : Cls → Nat
  | .host => 0
  | .firmware => 1
  | .bmc => 2
  | .debug => 3

/-- The number of a path (R516). -/
def pathNum : Path → Nat
  | .regPort => 0
  | .pcie => 1
  | .smbus => 2

/-- Which classes write a page of a class (Table 20-5). -/
def classWrites (page : Nat) : Cls → Bool
  | .host => page == 0 || page == 2
  | .firmware => page == 0 || page == 1 || page == 2
  | .bmc => page == 2
  | .debug => page == 3

/-- The one class that writes a register whose meaning names one (R514, R532). -/
def onlyClass (addr : Nat) : Option Cls :=
  if addr % 4096 = 0x01C then some .host
  else if addr = 0x004094 then some .firmware
  else if addr = 0x0010A4 then some .host
  else none

/-- What becomes of an access (R75, R515). -/
inductive Verdict where
  | perform
  /-- the domain is in Drowse or Retain, or moving there: the access waits for Run -/
  | wait (d : Nat)
  /-- the domain is Off, or moving to Off -/
  | off
  /-- a violation, logged in this page for this reason -/
  | viol (page reason : Nat)
  deriving DecidableEq, Repr

/-- Whether a domain answers, makes an access wait, or refuses it (R75). -/
def State.domVerdict (s : State) (d : Nat) : Verdict :=
  match s.dom d with
  | none => .perform
  | some x =>
    if x.st = 3 ∨ (x.moving = some 3 ∧ x.alarmed = false) then (if x.testing then .wait d else .off)
    else if s.inRun d then .perform
    else .wait d

/-- A write meets a locked field: RWL under lock, or OTP (Table 20-6, R13). -/
def State.lockedReg (s : State) (r : Reg) (page : Nat) : Bool :=
  match r.acc with
  | .rwl => bitOf (s.rd R.CMN_LOCK (pg := page)) 0
  | .otp => true
  | _ => false

/-- The verdict on an access: unmapped page, domain, then privilege, reserved offset, locked field, invalid value (R75, R515).
`owned` says that the register is locked by its own chapter (R476); `bad` that the written value is invalid. -/
def State.verdict (s : State) (a : Acc) (addr : Nat) (write owned bad : Bool) : Verdict :=
  let page := addr / 4096
  match pageInfo s.build page with
  | none => .viol 0 4
  | some info =>
    match s.domVerdict (addrDom s.build addr) with
    | .perform =>
      let t := s.target addr
      let named := match onlyClass addr with
        | some c => if t = .reserved then true else a.cls == c
        | none => true
      if write && !(classWrites info.cls a.cls && named) then .viol page 3
      else
        match t with
        | .reg r _ _ _ _ =>
          if write && (owned || s.lockedReg r page) then .viol page 2
          else if write && bad then .viol page 5
          else .perform
        | .adopt _ _ => .perform
        | _ => .viol page 1
    | v => v

/-- Requests of the register port that have not received their response (R72). -/
def State.outstanding (s : State) : Nat := (s.core.wait.filter (fun w => w.acc.path == .regPort)).length

/-- The path returns a response: a posted PCIe write returns none (R73, R465, R515). A response of the register port follows those of the
requests before it (R72). -/
def State.respond (s : State) (a : Acc) (write : Bool) (data : Nat) (err : Bool) : State :=
  match a.path with
  | .regPort =>
    if s.outstanding = 0 then { s with core := { s.core with rspPort := ⟨data, err⟩ } }
    else { s with core := { s.core with wait := s.core.wait ++ [{ acc := a, addr := 0, write := write, data := 0, dom := 0, rsp := some ⟨data, err⟩ }] } }
  | .pcie => if write then s else { s with core := { s.core with rspPcie := ⟨data, err⟩ } }
  | .smbus => { s with core := { s.core with rspSmb := ⟨data, err⟩ } }

/-- An access to a domain in Off: the error response, counted in the POWER page, and no violation (R75). -/
def State.offRefused (s : State) (a : Acc) (write : Bool) : State :=
  ((s.bumpSat R.PWR_OFF_ACCESS).irq 0x004 1).respond a write 0 true

/-- A violating access: logged, and answered with the error response; over PCIe a read completes with Completer Abort and a write is
dropped (R465, R515, R516). -/
def State.violated (s : State) (a : Acc) (page reason addr : Nat) (write : Bool) (data : Nat) : State :=
  let s := (s.logViol page addr (violInfo reason (clsNum a.cls) write (pathNum a.path) data)).respond a write 0 true
  match a.path with
  | .pcie => if write then s.bumpSat R.PCIE_ERR_WR else (s.bumpSat R.PCIE_ERR_CA).irq 0x113 1
  | _ => s

/-- An access waits while its domain wakes through the core's own vote (R75). -/
def State.accessWait (s : State) (a : Acc) (addr : Nat) (write : Bool) (data d : Nat) : State :=
  let w : WaitAcc := { acc := a, addr := addr, write := write, data := data, dom := d, rsp := none }
  State.wake { s with core := { s.core with wait := s.core.wait ++ [w] } } d

/-- The register port has eight requests outstanding, and takes no ninth (R72; log entry 68). -/
def State.portFull (s : State) (a : Acc) : Bool := a.path == .regPort && decide (8 ≤ s.outstanding)

/-- The address of a register that a command writes: of one that the build does not have, an address that no build maps (R72). -/
def regOf (there : Bool) (addr : Nat) : Nat := if there then addr else 0xFFF000

/-- A register write with its checks: `owned` and `bad` as in the verdict; `eff` is what the written register does. -/
def State.guardedWrite (s : State) (a : Acc) (addr data : Nat) (owned bad : Bool) (eff : State → State) : State :=
  if s.portFull a then s
  else match s.verdict a addr true owned bad with
  | .perform => (eff s).respond a true 0 false
  | .wait d => s.accessWait a addr true data d
  | .off => s.offRefused a true
  | .viol page reason => s.violated a page reason addr true data

/-- A register read with its checks; `eff` answers the value and what the read does. -/
def State.guardedRead (s : State) (a : Acc) (addr : Nat) (eff : State → Nat × State) : State :=
  if s.portFull a then s
  else match s.verdict a addr false false false with
  | .perform =>
    let (v, s) := eff s
    s.respond a false v false
  | .wait d => s.accessWait a addr false 0 d
  | .off => s.offRefused a false
  | .viol page reason => s.violated a page reason addr false 0

/-- The plain effect of a write on one copy of a register, by its access code; reserved bits stay 0 (R12, R13). -/
def State.store (s : State) (r : Reg) (i j pg bk data : Nat) : State :=
  match r.acc with
  | .rw | .rwl => s.wr r (data &&& r.mask) i j pg bk
  | .w1c => s.wr r (s.rd r i j pg bk &&& (r.mask ^^^ (data &&& r.mask))) i j pg bk
  | .w1s => s.wr r (s.rd r i j pg bk ||| (data &&& r.mask)) i j pg bk
  | .ro | .rc | .wo | .otp => s

/-! ### The common header (Table 22-1) -/

/-- Bits of CMN_IRQ_STATUS that a page defines. -/
def irqBits (b : Build) (page : Nat) : Nat :=
  match pageInfo b page with
  | some i => 2 ^ i.irqs - 1
  | none => 0

/-- CMN_CTRL.VIOL_CLEAR: the FIRST set, the LAST set and the count clear (R531). -/
def State.violClear (s : State) (page : Nat) : State :=
  { s with regs := s.regs.filter (fun p => !(decide (p.1 = page * 4096 + 0x028) || (decide (page * 4096 + 0x030 ≤ p.1) && decide (p.1 ≤ page * 4096 + 0x04C)))) }

/-- Some CTR_WRAPPED bit of a CTR page is 1 (R174). -/
def State.ctrWrappedAny (s : State) (page : Nat) : Bool := (List.range 8).any (fun j => s.rd R.CTR_WRAPPED j 0 (page - 0x010) != 0)

/-- Bits of CMN_IRQ_STATUS that a level holds at 1: bit 0 of a CTR page while a wrapped bit of it is 1 (R174). -/
def State.irqHeld (s : State) (page : Nat) : Nat := b2n (decide (0x010 ≤ page) && decide (page < 0x020) && s.ctrWrappedAny page)

/-- CMN_CTRL.IRQ_CLEAR: every bit of CMN_IRQ_STATUS clears (R531). -/
def State.irqClear (s : State) (page : Nat) : State := s.wr R.CMN_IRQ_STATUS (s.irqHeld page) (pg := page)

/-- A write of CMN_CTRL. -/
def State.cmnCtrl (s : State) (page data : Nat) : State :=
  let s := if bitOf data 0 then s.violClear page else s
  if bitOf data 1 then s.irqClear page else s

/-- The host votes become a new set: a vote that rises wakes its domain, one that falls starts its idle delay (R391, R392). -/
def State.setHostVotes (s : State) (v : Nat) : State :=
  let old := s.rd R.PWR_VOTE_HOST
  let new := v &&& s.rd R.PWR_DOM_PRESENT
  let s := s.wr R.PWR_VOTE_HOST new
  (domains s.build).foldl (fun s d =>
    if bitOf new d then (if d = 0 then s else s.wake d)
    else if bitOf old d then s.modDom d (fun x => { x with voteAt := s.time.cycles }) else s) s

/-- The firmware votes become a new set. -/
def State.setFwVotes (s : State) (v : Nat) : State :=
  let old := s.rd R.PWR_VOTE_FW
  let new := v &&& s.rd R.PWR_DOM_PRESENT
  let s := s.wr R.PWR_VOTE_FW new
  (domains s.build).foldl (fun s d =>
    if bitOf new d then (if d = 0 then s else s.wake d)
    else if bitOf old d then s.modDom d (fun x => { x with voteAt := s.time.cycles }) else s) s

/-- The domain a page answers in. -/
def State.pageDom (s : State) (page : Nat) : Nat := addrDom s.build (page * 4096)

/-- A write of a common-header register (Table 22-1). -/
def State.cmnWrite (s : State) (page off data : Nat) : State :=
  if off = 0x010 then s.cmnCtrl page data
  else if off = 0x014 then s.wr R.CMN_STATUS (b2n (bitOf (s.rd R.CMN_STATUS (pg := page)) 0 && !bitOf data 0)) (pg := page)
  else if off = 0x018 then s.wr R.CMN_LOCK (s.rd R.CMN_LOCK (pg := page) ||| data % 2) (pg := page)
  else if off = 0x01C then
    let d := s.pageDom page
    s.setHostVotes (setBitTo (s.rd R.PWR_VOTE_HOST) d (bitOf data 0))
  else if off = 0x020 then
    let old := s.rd R.CMN_IRQ_STATUS (pg := page)
    s.wr R.CMN_IRQ_STATUS (old &&& (0xFFFFFFFF ^^^ data) ||| s.irqHeld page) (pg := page)
  else if off = 0x024 then
    let was := s.irqLine (pageLine page)
    (s.wr R.CMN_IRQ_ENABLE (data &&& irqBits s.build page) (pg := page)).msixRise (pageLine page) was
  else if off = 0x02C then s.wr R.CMN_SCRATCH data (pg := page)
  else s

/-- What a common-header register reads that is not stored: identity, capabilities, the domain's state and votes (Table 22-1). -/
def State.cmnLive (s : State) (page off : Nat) : Option Nat :=
  match pageInfo s.build page with
  | none => none
  | some i =>
    let d := s.pageDom page
    if off = 0x000 then some (page + i.kind * 65536)
    else if off = 0x008 then some (b2n (!i.headerOnly) + d * 16 + irqBits s.build page * 256)
    else if off = 0x00C then some (i.cls + pageLine page * 16)
    else if off = 0x014 then
      let st := match s.dom d with
        | some x => x.st
        | none => 0
      some (s.rd R.CMN_STATUS (pg := page) % 2 + st * 2)
    else if off = 0x01C then some (b2n (bitOf (s.rd R.PWR_VOTE_HOST) d) + s.votes d % 512 * 256)
    else none

/-- DEFAULTED is set on a page (R396). -/
def State.setDefaulted (s : State) (page : Nat) : State :=
  s.wr R.CMN_STATUS (s.rd R.CMN_STATUS (pg := page) ||| 1) (pg := page)

/-- DEFAULTED is set on every page of a domain, and the domain's bit in PWR_LOSS (R396). -/
def State.markLoss (s : State) (d : Nat) : State :=
  let s := (allPages s.build).foldl (fun s p => if addrDom s.build (p * 4096) = d ∨ (p = 0x010 ∧ d = 1) then s.setDefaulted p else s) s
  (s.wr R.PWR_LOSS (s.rd R.PWR_LOSS ||| 2 ^ d)).irq 0x004 2

/-- The registers of a domain that an event loses return to their reset values (R395, R396). -/
def State.loseRegs (s : State) (d : Nat) (lost : Retention → Bool) : State :=
  State.markLoss { s with regs := s.regs.filter (fun p => !(addrDom s.build (p.1 % 2097152) == d && lost (keyRet s.build p.1))) } d

/-! ### Frames of the Ethernet ports (R458 to R460) -/

/-- The priority a frame leaves at: PTP at 7, a record at that of its class, and a frame of no class at a free value (R459). -/
def State.framePcp (s : State) (kind port : Nat) (tc : Option Nat) : Nat :=
  match tc with
  | some c => fld (s.rd R.ETH_PRIO_MAP (pg := port)) (3 * c + 2) (3 * c)
  | none => if kind = 12 then 7 else Config.framePcp kind % 8

/-- Send a frame: DSCP is 8 times the priority, the tag is that of ETH_CTRL, and a datagram of entry e goes from UDP port 49,152 + e to the
collector's address and port (R458 to R460). -/
def State.sendFrame (s : State) (kind port entry : Nat) (tc : Option Nat) (payload : List Byte) : State :=
  let c := s.rd R.ETH_CTRL (pg := port)
  let pub := decide (1 ≤ kind) && decide (kind ≤ 5)
  let out : EthOut :=
    { kind := kind, port := port, entry := entry, pcp := s.framePcp kind port tc, dscp := 8 * s.framePcp kind port tc,
      vlan := if bitOf c 1 then some (fld c 15 4) else none,
      udpSrc := if pub then 49152 + entry else 0, udpDst := if pub then s.rd R.COL_PORT 0 0 0 entry else 0,
      dst := if pub then (List.range 4).foldl (fun a i => a + s.rd R.COL_ADDR i 0 0 entry * 2 ^ (32 * i)) 0 else 0,
      payload := payload }
  { s with pub := { s.pub with sent := some out } }

end Sys2Proof.Machine
end

