-- ==== Sys2Proof/Machine/Records.lean ====
section
/-! DEFINITION. Records at a receiving unit: the manifest checks, the toll, the duplicate table, forwarding and consumption
(R21, R25, R31, R35, R44 to R47, R239, R240, R537). -/

namespace Sys2Proof.Machine

/-! ### Manifest checks -/

/-- A source ID that is reserved under Tables 1-2 and 1-3; the unassigned ID is not (R24, R25). -/
def reservedSource (id : Nat) : Bool :=
  if id = 0x7FFFFF then false
  else if bitOf id 23 then decide (32767 < fld id 22 5) || decide (1 < id % 32)
  else decide (25 ≤ id % 32)

/-- The classes Table 1-9 allows for a type; none for a reserved type. Anchors travel in any class. -/
def typeClasses (type : Nat) : List Nat :=
  if type = 0x1B then [0, 4]
  else if type = 0x1D ∨ type = 0x48 then [0]
  else if type = 0x20 then [0, 1, 2, 3, 4, 5, 6, 7]
  else if 0x21 ≤ type ∧ type ≤ 0x24 then [2]
  else if (0x30 ≤ type ∧ type ≤ 0x34) ∨ type = 0x38 ∨ type = 0x3A ∨ type = 0x3C ∨ type = 0x3E then [5]
  else if type = 0x3B ∨ (0x44 ≤ type ∧ type ≤ 0x47) ∨ type = 0x4A ∨ type = 0x4B then [3]
  else if 0x40 ≤ type ∧ type ≤ 0x42 then [1]
  else if type = 0x50 ∨ type = 0x51 then [7]
  else if type = 0x60 then [6]
  else if 0x70 ≤ type ∧ type ≤ 0x73 then [4]
  else if type = 0x74 ∨ (0x80 ≤ type ∧ type ≤ 0x83) then [2]
  else []

/-- The fixed payload length of a type, where its chapter gives one. -/
def fixedLen (type : Nat) : Option Nat :=
  if type = 0x1B then some 32
  else if type = 0x1D then some 64
  else if type = 0x20 then some 16
  else if type = 0x21 ∨ type = 0x22 then some 4
  else if type = 0x23 then some 32
  else if type = 0x24 ∨ type = 0x30 ∨ type = 0x48 then some 40
  else if type = 0x3A then some 80
  else if type = 0x44 ∨ type = 0x46 ∨ type = 0x47 then some 24
  else if type = 0x45 ∨ type = 0x4A then some 16
  else none

/-- A record is malformed under R35: `tc` is the class of the unit header that carried it, `len` the packet's length. -/
def malformed (r : Rec) (tc len : Nat) : Bool :=
  let cs := typeClasses r.type
  cs.isEmpty || r.tc != tc || !cs.contains r.tc || r.length + 24 != len ||
    (r.level == 0 && (match fixedLen r.type with
      | some n => r.length != n
      | none => false))

/-- The record carries POISON (R50, R331). -/
def recPoison (r : Rec) : Bool := bitOf r.flags 1

/-- The record with its hop count incremented, saturating (R31). -/
def recHop (r : Rec) : Rec := { r with hops := min 255 (r.hops + 1) }

/-! ### The duplicate table (R537) -/

/-- How many contexts the table of a build holds. -/
def dupCapacity : Build → Nat
  | .l => 64
  | .h => 8192
  | .t => 32768

/-- What the table says of a record: duplicate or not, and the context as it becomes. -/
def DupCtx.judge (c : DupCtx) (seq : Nat) : Bool × DupCtx :=
  if laterThan seq c.latest then
    let d := (seq + 4294967296 - c.latest) % 4294967296
    (false, { c with latest := seq, seen := (c.latest :: c.seen).filter (fun x => decide ((seq + 4294967296 - x) % 4294967296 ≤ 65536) && decide (d ≤ 65536)) })
  else
    let back := (c.latest + 4294967296 - seq) % 4294967296
    if back = 0 ∨ 65536 < back ∨ c.seen.contains seq then (true, c) else (false, { c with seen := seq :: c.seen })

/-- Room for one more context: a full table loses the least recent, and counts it. -/
def State.dupRoom (s : State) : State :=
  if dupCapacity s.build ≤ s.tally.ctxs.length then
    State.bumpSat { s with tally := { s.tally with ctxs := s.tally.ctxs.dropLast } } R.CVY_DUP_EVICT
  else s

/-- A context comes to the front. -/
def State.dupFront (s : State) (c : DupCtx) (l : List DupCtx) : State := { s with tally := { s.tally with ctxs := c :: l } }

/-- Judge a record by the duplicate table: true when it is a copy. The context moves to the front. -/
def State.dupJudge (s : State) (r : Rec) : Bool × State :=
  match s.tally.ctxs.find? (fun c => c.source == r.source && c.stream == r.stream) with
  | some c =>
    let j := c.judge r.seq
    (j.1, s.dupFront j.2 (s.tally.ctxs.filter (fun x => !(x.source == r.source && x.stream == r.stream))))
  | none =>
    let s := s.dupRoom
    (false, s.dupFront { source := r.source, stream := r.stream, latest := r.seq, seen := [] } s.tally.ctxs)

/-! ### The toll (R239, R240) -/

/-- One byte in bucket units. -/
def byteUnit : Int := 4294967296

/-- A bucket risen at a rate in Mb/s over a time in units of 2^-32 s, stopping at a burst in bytes. -/
def riseAt (level : Int) (rate burst dt : Nat) : Int := min ((burst : Int) * byteUnit) (level + ((dt * rate * 125000 : Nat) : Int))

/-- The profile of a toll source. -/
def State.tollProf (s : State) (n : Nat) : Nat := s.rd R.TOLL_MAP (n / 8) / 2 ^ (4 * (n % 8)) % 16

/-- CIR and PIR of a profile in Mb/s: a PIR below CIR is used as CIR (R240). -/
def State.tollRates (s : State) (q : Nat) : Nat × Nat :=
  let cir := fld (s.rd R.TOLL_PROF_CIR q) 19 0
  (cir, max cir (fld (s.rd R.TOLL_PROF_PIR q) 19 0))

/-- Tc and Tp of class TC5 + k at a port now: risen at CIR and PIR, stopped at CBS and PBS (R239). -/
def State.tollNow (s : State) (port k : Nat) : Int × Int :=
  let q := s.tollProf (3 * port + k)
  let t := (s.port port).toll.getD k { tc := 0, tp := 0, lastAt := 0 }
  (riseAt t.tc (s.tollRates q).1 (fld (s.rd R.TOLL_PROF_CBS q) 23 0) (s.now - t.lastAt),
   riseAt t.tp (s.tollRates q).2 (fld (s.rd R.TOLL_PROF_PBS q) 23 0) (s.now - t.lastAt))

/-- Every toll bucket is brought up to now, before a profile or the map changes (R240). -/
def State.tollSettle (s : State) : State :=
  { s with link := { s.link with ports := s.link.ports.zipIdx.map (fun (x : Port × Nat) =>
      { x.1 with toll := (List.range x.1.toll.length).map (fun k => { tc := (s.tollNow x.2 k).1, tp := (s.tollNow x.2 k).2, lastAt := s.now }) }) } }

/-- The colour of a packet: 0 green, 1 yellow forwarded, 2 yellow marked red, 3 red. PROFILE_BAD, once set, stays until the register is lost: the
spec gives no other moment (DESIGN CHOICE, log entry 76). -/
def State.tollMeter (s : State) (port cls len : Nat) : Nat × State :=
  if s.build = .l ∨ cls < 5 then (0, s)
  else if !bitOf (s.rd R.TOLL_CTRL) 0 then (0, s.bumpSat R.TOLL_GREEN 1 0 0 0 (3 * port + (cls - 5)))
  else
    let k := cls - 5
    let n := 3 * port + k
    let q := s.tollProf n
    let (tc, tp) := s.tollNow port k
    let bad := fld (s.rd R.TOLL_PROF_PIR q) 19 0 < fld (s.rd R.TOLL_PROF_CIR q) 19 0
    let s := if bad then (s.wr R.TOLL_STATUS (s.rd R.TOLL_STATUS ||| 2 ^ q)).irq 0x02D 1 else s
    let b : Int := (len : Int) * byteUnit
    let set (s : State) (tc tp : Int) : State :=
      s.modPort port (fun p => { p with toll := p.toll.set k { tc := tc, tp := tp, lastAt := s.now } })
    if tp < b then
      (3, (((set s tc tp).bumpSat R.TOLL_RED 1 0 0 0 n).bumpSat R.TOLL_RED_ALL).irq 0x02D 0)
    else if tc < b then
      let s := set s tc (tp - b)
      let c := (s.port port).tx8 cls
      if c.occ * 100 < fld (s.rd R.TOLL_CTRL) 15 8 * c.t then (1, s.bumpSat R.TOLL_YELLOW_FWD 1 0 0 0 n)
      else (2, (((s.bumpSat R.TOLL_YELLOW_DROP 1 0 0 0 n).bumpSat R.TOLL_RED 1 0 0 0 n).bumpSat R.TOLL_RED_ALL).irq 0x02D 0)
    else (0, (set s (tc - b) (tp - b)).bumpSat R.TOLL_GREEN 1 0 0 0 n)

/-- The toll marks a packet red as it arrives. -/
def State.tollRed (s : State) (port cls len : Nat) : Bool × State :=
  let (col, s) := s.tollMeter port cls len
  (decide (2 ≤ col), s)

/-! ### Admission -/

/-- A record received and discarded for a reason of Table 2-2: produced, then dropped; a link-local packet enters no tally. -/
def State.takeDrop (s : State) (r : Rec) (reason : Nat) : State :=
  if linkLocal r.type r.stream then s else (s.produced r.stream).dropped r.stream reason

/-- A record of a type other than 0x40 to 0x42 on a stream that the plan names as a convoy (R178). The schedule record, whose only stream is the
reconciliation stream (R158), is not held to it (log entry 80). -/
def State.convoyAlien (s : State) (r : Rec) : Bool :=
  !(0x40 ≤ r.type && r.type ≤ 0x42) && r.type != 0x24 && s.convoy.slots.any (fun x => x.1 == r.stream && x.2.entry.isSome)

/-- A record on the unassigned ID's terms: convoys take no part of it (R24, R35 to R47). Admits a record that a port has taken:
true when it is to be consumed or forwarded, and counted as produced; `red`: the toll has marked it red. -/
def State.admitUnit (s : State) (port tc len : Nat) (red : Bool) (r : Rec) : Bool × State :=
  if (s.port port).quar then (false, (s.takeDrop r 8).pbump R.FP_DROP_QUAR port)
  else if s.build != .l && reservedSource r.source then (false, s.takeDrop r 4)
  else if s.convoyAlien r || (s.build != .l && malformed r tc len) then (false, s.takeDrop r 5)
  else if red then (false, s.takeDrop r 3)
  else if linkLocal r.type r.stream then (true, s)
  else if 0x40 ≤ r.type && r.type ≤ 0x42 then (true, s)
  else
    let (dup, s) := s.dupJudge r
    if dup then (false, s.dupCounted r.stream) else (true, s.produced r.stream)

/-- Admit a record that came whole on a port, its packet as long as its payload. -/
def State.admitRec (s : State) (port : Nat) (r : Rec) : Bool × State :=
  let len := r.payload.length + 24
  let (red, s) := s.tollRed port r.tc len
  s.admitUnit port r.tc len red r

/-! ### Forwarding and consumption -/

/-- A decoded payload has the fixed length of its type, where that has one (R35). -/
def lenOk (q : Rec) : Bool := (fixedLen q.type).all (fun n => q.length == n)

/-- A record is read here and goes on: poison is counted once, by the unit that opens it; it is opened for `use`, and what it holds is passed on
(R35, R40, R50, R376). -/
def State.inspectOn (s : State) (r : Rec) (use : Rec → State → State) (pass : Rec → State → State) : State :=
  if recPoison r then s.dropped r.stream 2
  else s.openOrDrop r lenOk (fun q s => pass q (use q s))

/-- Hand on a record of another unit; in summarise-down a sample record is opened, and held for its span (R40, R213). -/
def State.passSample (s : State) (r : Rec) : State :=
  if s.convoy.sdActive && sampleType r.type then s.inspectOn r (fun _ s => s) (fun q s => s.holdSpan q)
  else s.emitUp r none

/-- An alarm whose code the coalescing table reads on its way (R241, R242). -/
def State.readsAlarm (s : State) (r : Rec) : Bool := s.build != .l && ((r.type == 0x1B && r.tc == 0) || r.type == 0x1D)

/-- Pass a record, already produced here, to the next hop upwards (R30, R31, R37). -/
def State.forwardUp (s : State) (r : Rec) : State :=
  if r.type = 0x1B ∧ r.tc = 0 ∧ s.build ≠ .l then
    match codeInfo (evParse r.payload).code with
    | some (_, _, true, _) => s.emitUp (recHop r) none
    | _ => s.alarmOut (recHop r) none
  else if r.type = 0x1D then s.alarmOut (recHop r) none
  else s.passSample (recHop r)

/-- Send one record to several ports, its fate delivered by the first acknowledgement; with no usable port it is dropped link-down. -/
def State.sendMany (s : State) (ports : List Nat) (r : Rec) : State :=
  let up := ports.filter (fun p => (s.port p).usable && !s.mute r.type)
  if up.isEmpty then (if linkLocal r.type r.stream then s else s.dropped r.stream 1)
  else
    let (uid, s) := s.newPend r.stream (!linkLocal r.type r.stream) none up.length
    up.foldl (fun s p => s.enqueue p uid r) s

/-- A record ends at this unit, which reads it: poison is counted once, here (R50); else its fate is delivered. -/
def State.consume (s : State) (r : Rec) (use : State → State) : State :=
  if linkLocal r.type r.stream then use s
  else if recPoison r then s.dropped r.stream 2
  else use (s.delivered r.stream)

/-- A record that ends here is opened first (R40, R376). -/
def State.consumeOpen (s : State) (r : Rec) (use : Rec → State → State) : State :=
  if recPoison r then s.consume r (fun s => s)
  else s.openOrDrop r lenOk (fun q s => s.consume q (use q))

/-- A record that ends here is opened, and waits in its ingress buffer under its credits until it is consumed (R40, R224, R376). -/
def State.waitIn (s : State) (port credits : Nat) (r : Rec) (use : InWait → State → State) : State :=
  if recPoison r then s.consume r (fun s => s)
  else s.openOrDrop r lenOk (fun q s => use { port := port, credits := credits, since := s.time.cycles, r := q } (s.withhold port r.tc credits))

/-- A record that waited in its ingress buffer leaves it, and is consumed. -/
def State.waitOver (s : State) (w : InWait) (use : State → State) : State := (s.letGo w.port w.r.tc w.credits).consume w.r use

/-! ### Coalescing (R241, R242, Table 7-6) -/

/-- The payload of a coalesced record (Table 7-6). -/
def coalBytes (e : CoalEnt) : List Byte :=
  evBytes e.ev ++ leBytes 4 e.count ++ leBytes 3 e.lowId ++ bytes [b2n e.overflow + b2n e.countSat * 2] ++ leBytes 3 e.highId ++ zeros 1 ++
  leBytes 8 e.first ++ leBytes 8 e.last ++ leBytes 4 e.suppr

/-- Close an entry: with a count above 0 it leaves as one coalesced record on the alarm stream, which carries the fate of the unit's
own store slots merged into it (R241, R500). -/
def State.coalClose (s : State) (e : CoalEnt) : State :=
  let s := { s with coal := { s.coal with entries := s.coal.entries.filter (fun x => x.idx != e.idx) } }
  if e.count = 0 then s
  else
    let (r, s) := s.originate 0x1D 0 (fld (s.rd R.TRF_ALARM_STREAM) 15 0) (coalBytes e)
    let first := s.link.nextUid
    let s := s.emitUp r none
    if s.link.nextUid = first then e.slots.foldl (fun s i => s.slotDone (some i)) s
    else { s with coal := { s.coal with owed := s.coal.owed ++ [(first, e.slots)] } }

/-- COALESCE_WINDOW_CLOSE (R241): the window of an entry has passed; entry 256 is the overflow entry. -/
def execCoalesceWindowClose (entry : Nat) (s : State) : Host.Outcome State Fault Refusal :=
  present (decide (entry ≤ 256))
    (match s.coal.entries.find? (fun e => e.idx == entry) with
     | some e => if s.after e.openedAt (fld (s.rd R.TRF_CTRL) 15 0) then s.coalClose e else s
     | none => s)

/-- The table closes every open entry at once: the core island is quiesced (R241). -/
def State.coalFlush (s : State) : State := s.coal.entries.foldl (fun s e => s.coalClose e) s

end Sys2Proof.Machine
end

