-- ==== Sys2Proof/Machine/Time.lean ====
section
/-! DEFINITION. Fleet time: the link exchange, acquisition, lock and holdover, IEEE 1588 on Selvo-T, anchors (chapter 4). -/

namespace Sys2Proof.Machine

/-! ### Offsets: a signed number of units of 2^-33 s × 10^-12, which holds stamps and picoseconds exactly (R113) -/

/-- One picosecond in the offset unit. -/
def psUnit : Int := 8589934592

/-- A 32-bit register of picoseconds, signed, as an offset. -/
def asymOf (v : Nat) : Int := sgn32 v * psUnit

/-- A sum of time differences in units of 2^-33 s as an offset. -/
def timeUnit (d : Int) : Int := d * 1000000000000

/-- An offset in picoseconds, rounded down (log entry 20). -/
def offPs (o : Int) : Int := o / psUnit

/-- An offset in units of 2^-32 s, rounded down (log entry 20). -/
def offTime (o : Int) : Int := o / 2000000000000

def absI (o : Int) : Int := if o < 0 then -o else o

/-! ### Ports of the time path -/

/-- The kind of a parent: 0 none, 1 PTP, 2 Ralud, 3 fabric, 4 leaf (TIME_STATUS). -/
def State.parentKind (s : State) : Nat :=
  match s.time.parent with
  | none => 0
  | some p => if 64 ≤ p then 1 else match s.build with
    | .l => 4
    | .h => if p < 36 then 3 else 2
    | .t => 2

/-- The parent's port as the registers and records show it: 0 when there is none. -/
def State.parentPort (s : State) : Nat := (s.time.parent.getD 0) % 64

/-- A unit answers PROBE on this port: it lies on the unit's time path (R538). -/
def State.childPort (s : State) (p : Nat) : Bool :=
  match s.build with
  | .l => p == 0
  | .h => (36 ≤ p && p < 40) || s.time.podParent == some p || s.time.podAlt == some p
  | .t => false

/-- A unit starts exchanges as time parent on this port when it is up (R538). -/
def State.masterPort (s : State) (p : Nat) : Bool :=
  match s.build with
  | .l => false
  | .h => (40 ≤ p && p < 64) || (p < 36 && s.time.podParent != some p && s.time.podAlt != some p)
  | .t => p < 16

def State.exch (s : State) (p : Nat) : Exch := s.time.exch.getD p Exch.reset

def State.modExch (s : State) (p : Nat) (f : Exch → Exch) : State :=
  { s with time := { s.time with exch := modNth s.time.exch p f } }

def State.modeReq (s : State) : Nat :=
  let m := fld (s.rd R.TIME_CTRL) 1 0
  if s.build != .h && m == 1 then 0 else m

/-- The rank of a locked port as a parent: 1 best, 0 not a candidate (R107, R118, R123). -/
def State.rank (s : State) (p : Nat) : Nat :=
  let e := s.exch p
  let mode := s.modeReq
  if mode = 2 ∨ e.code = 4 then 0
  else
    match s.build with
    | .l => if p = 0 then 1 else 0
    | .h =>
      if p < 36 then (if (s.time.podParent = some p ∨ s.time.podAlt = some p) ∧ e.code ≤ 1 ∧ e.refFault = false then 2 else 0)
      else if p < 40 then (if mode = 1 then 0 else if e.code = 0 then 1 else if e.code = 2 ∨ e.code = 3 then 3 else 0)
      else 0
    | .t => 0

/-- Candidates in order of preference among equals: lanes to Selvo-T A first, then the lower lane number (R107). -/
def State.timePorts (s : State) : List Nat :=
  match s.build with
  | .l => [0]
  | .h => [36, 37, 38, 39] ++ (s.time.podParent.toList ++ s.time.podAlt.toList).mergeSort (fun a b => decide (a ≤ b))
  | .t => []

/-- The best of the ports that satisfy a test: lowest rank above 0, the first among equals. -/
def State.bestPort (s : State) (ok : Nat → Bool) : Option Nat :=
  (s.timePorts.filter (fun p => ok p && s.rank p != 0)).foldl (fun b p =>
    match b with
    | none => some p
    | some q => if s.rank p < s.rank q then some p else some q) none

/-- A pod candidate is locked (Table 4-6). -/
def State.podLocked (s : State) : Bool :=
  (s.time.podParent.toList ++ s.time.podAlt.toList).any (fun p => (s.exch p).locked && s.rank p == 2)

/-! ### Codes (Table 4-6) -/

/-- The code that stands where Table 4-6 would give code c: the group time root carries 1 in place of 2 and 3 (R122). -/
def State.codeOf (s : State) (c : Nat) : Nat :=
  if s.time.groupRoot ∧ s.modeReq ≤ 1 ∧ s.time.refFault = false ∧ (c = 2 ∨ c = 3) then 1 else c

/-- The unit's code becomes another, untold as yet; a holdover that begins at code 0 counts from then (R121, R122). -/
def State.codeTo (s : State) (c : Nat) : State :=
  let c := s.codeOf c
  { s with time := { s.time with code := c, holdUntil := if c = 2 then s.time.holdUntil else none,
                                 left0 := if c != 2 then none else if s.time.code = 0 then some s.time.cycles else s.time.left0 } }

/-- A change of the code in force is told: interrupt, event, and the trace (R121). -/
def State.codeTold (s : State) (before cause : Nat) : State :=
  if s.qcode = before then s
  else (((s.irq 0x002 0).event 0x101 (bytes [before, s.qcode, cause, s.parentKind, s.parentPort])).trcQual (cause == 6))

/-- The unit's code becomes another: event, interrupt, and the code of the group time root (R121, R122). -/
def State.setCode (s : State) (c cause : Nat) : State := (s.codeTo c).codeTold s.qcode cause

/-- Holdover ends at a local clock, or 10 s after the unit left code 0, whichever comes first (Table 4-6). -/
def State.holdTo (s : State) (t : Nat) : State :=
  let own := match s.time.left0 with
    | some l => min t (l + 8000000000)
    | none => if s.time.code = 0 then min t (s.time.cycles + 8000000000) else t
  { s with time := { s.time with holdUntil := some own } }

/-- Code 2 for the 10 s after leaving code 0. -/
def State.holdOwn (s : State) (cause : Nat) : State := (s.holdTo (s.time.cycles + 8000000000)).setCode 2 cause

/-- The code that the current parent gives a locked unit; a holdover taken from a parent lasts for the remaining that its last RESULT gave,
counted from that RESULT (R118, R121). -/
def State.codeFrom (s : State) (p cause : Nat) : State :=
  let e := s.exch p
  let old := s.time.code
  if s.build = .h ∧ p < 36 then s.setCode 1 cause
  else if e.code = 0 then s.setCode 0 cause
  else if e.code = 1 then s.setCode 1 cause
  else if e.code = 2 then (s.holdTo (e.resAt + e.holdover * 800000)).setCode 2 cause
  else if old = 0 then s.holdOwn cause
  else if old = 2 then s
  else s.setCode 3 cause

/-- The group time root carries code 1 wherever Table 4-6 would give it 2 or 3, and leaves code 4 for it (R122). -/
def State.rootCode (s : State) (cause : Nat) : State :=
  let c := s.time.code
  if s.time.groupRoot ∧ s.modeReq ≤ 1 ∧ s.time.refFault = false ∧ (c = 2 ∨ c = 3 ∨ (c = 4 ∧ (s.modeReq = 1 ∨ s.time.parent = none))) then s.setCode 1 cause
  else s

/-- The code of a unit that has no locked parent (Table 4-6): a parent lost is one cause to leave code 1, having none is not. -/
def State.codeAlone (s : State) (cause : Nat) (lost : Bool) : State :=
  match s.time.code with
  | 0 => if s.modeReq = 2 then s.setCode 3 cause else s.holdOwn cause
  | 1 => if lost && !(s.time.groupRoot && decide (s.modeReq ≤ 1)) then s.setCode 3 cause else s
  | _ => s.rootCode cause

/-- Choose the parent under R107: the current one stays while no locked candidate ranks strictly higher; then take its code. A parent that
is a candidate no more counts as lost. -/
def State.chooseParent (s : State) (cause : Nat) (lost : Bool := false) : State :=
  match s.bestPort (fun p => (s.exch p).locked) with
  | some b =>
    let cur := match s.time.parent with
      | some p => if p < 64 ∧ (s.exch p).locked ∧ s.rank p ≠ 0 ∧ s.rank p ≤ s.rank b then p else b
      | none => b
    State.codeFrom { s with time := { s.time with parent := some cur } } cur cause
  | none =>
    let keep := match s.time.parent with
      | some p => p < 64 && s.rank p != 0 && (s.exch p).acquiring
      | none => false
    let had := s.time.parent.isSome
    let s := if keep then s else { s with time := { s.time with parent := none } }
    s.codeAlone cause (lost || (had && !keep))

/-- Restart acquisition on a port (R105, R116, R119). -/
def State.reacquire (s : State) (p : Nat) : State :=
  s.modExch p (fun e => { e with acquiring := true, locked := false, good := 0, acq := [], suspect := false })

/-- A port leaves the time path: its lock state ends (R107). -/
def State.exchEnd (s : State) (p : Nat) : State :=
  s.modExch p (fun e => { e with awaiting := false, acquiring := false, locked := false, good := 0, acq := [], suspect := false })

/-- The plan's time tree takes effect: a port that leaves the time path keeps no lock state and one that joins it is acquired (R107, R115),
a parent that is no longer a candidate is lost, and the group time root takes its code (R122). The cause that code 0x101 gives for the root
is not stated: a free one of those that are neither a set nor a jump. -/
def State.timeTree (s : State) (root : Bool) (pod alt : Option Nat) : State :=
  if s.build != .h then s else
  let was := s.time.podParent.toList ++ s.time.podAlt.toList
  let is := pod.toList ++ alt.toList
  let s := { s with time := { s.time with groupRoot := root, podParent := pod, podAlt := alt } }
  let s := (was.filter (fun p => !is.contains p)).foldl (fun (s : State) p => s.exchEnd p) s
  let s := (is.filter (fun p => !was.contains p)).foldl (fun (s : State) p => s.reacquire p) s
  let s := match s.time.parent with
    | some p => if p < 64 ∧ s.rank p = 0 then s.chooseParent 1 else s
    | none => s
  let (f, s) := s.draw
  s.rootCode (f % 6)

/-- The parent on a port is lost: causes of code 0x103 (0 three misses, 1 link down or Off, 2 time jump) (R115, R119, R120). -/
def State.parentLost (s : State) (p cause : Nat) : State :=
  if s.time.parent = some p then
    let kind := s.parentKind
    let s := s.modExch p (fun e => { e with locked := false, good := 0, misses := 0 })
    let st := s.stamp
    let s := (s.bumpSat R.TIME_LOSS_COUNT).irq 0x002 2
    let s := State.chooseParent { s with time := { s.time with parent := none } } (if cause = 2 then 7 else 1) true
    s.eventAt 0x103 st (bytes [p % 64, kind, cause])
  else s.modExch p (fun e => { e with locked := false, good := 0, misses := 0 })

/-- The LINK domain of a port. -/
def portDom (b : Build) (p : Nat) : Nat := 6 + portGroup b p

/-- The name of the vote that the exchange of a port holds on its LINK domain: one vote for each port. -/
def exchRule (p : Nat) : Nat := 1000 + p

/-- The vote of R120 on the LINK domain of the parent and the locked candidates, for the span of an exchange. -/
def State.exchVote (s : State) (p : Nat) (held : Bool) : State :=
  if held && !(s.time.parent == some p || (s.exch p).locked) then s else s.hwVote (portDom s.build p) (exchRule p) held

/-- The exchange of a port whose group sleeps falls due: the time island's vote wakes the group of the parent or of a locked candidate (R120). -/
def State.exchWake (s : State) (p : Nat) : State :=
  let d := portDom s.build p
  if s.childPort p && !s.inRun d && (s.time.parent == some p || (s.exch p).locked) &&
      s.after (s.exch p).probeAt (fld (s.rd R.TIME_EXCH_INTERVAL) 15 0) then s.exchVote p true
  else s

/-! ### The exchange (R111, R115, R538) -/

/-- Send PROBE on one port. -/
def State.sendProbe (s : State) (p : Nat) : State :=
  let n := w32 ((s.exch p).txNum + 1)
  let s := s.modExch p (fun e => { e with txNum := n, training := e.training - 1, probeAt := s.time.cycles })
  s.sendLocal p (s.localRec 0x21 2 n (leBytes 4 n))

/-- A PROBE is due on a port of which this unit is the time parent (R111, R115, R538). -/
def State.probeDue (s : State) (p : Nat) : Bool :=
  s.masterPort p && (s.port p).usable && !(s.port p).quar &&
    s.after (s.exch p).probeAt (if (s.exch p).training = 0 then fld (s.rd R.TIME_EXCH_INTERVAL) 15 0 else 10)

/-- TIME_EXCHANGE_START (R111, R120, R538): each port whose interval has passed sends PROBE, and a child's port whose group sleeps is woken. -/
def execTimeExchangeStart (s : State) : Host.Outcome State Fault Refusal :=
  .next ((List.range (linkPorts s.build)).foldl (fun s p => if s.probeDue p then s.sendProbe p else s.exchWake p) s)

/-- PROBE_RECEIVED (R538): answered with REPLY on a port of the unit's time path, discarded on any other. -/
def State.probeIn (s : State) (port num : Nat) : State :=
  if s.childPort port && !(s.port port).quar then
    let s := s.modExch port (fun e => { e with rxNum := num, t2 := s.now, repliedNum := some num, awaiting := true,
                                               replyAt := s.time.cycles, probeAt := s.time.cycles })
    (s.exchVote port true).sendLocal port (s.localRec 0x22 2 num (leBytes 4 num))
  else s

def execProbeReceived (port num : Nat) (s : State) : Host.Outcome State Fault Refusal :=
  present (decide (port < linkPorts s.build)) (s.probeIn port (w32 num))

/-- The unit's own holdover remaining in ms: 0 when it is not in holdover, as while REF_FAULT takes code 3 (R105, R114). -/
def State.holdLeft (s : State) : Nat :=
  match s.time.holdUntil with
  | some t => if s.time.refFault then 0 else (t - s.time.cycles) / 800000
  | none => 0

/-- The unit's hops from its own source, saturating at 255 (Table 4-5). A Selvo-T with a grandmaster sends 0: DESIGN CHOICE (log entry 60). -/
def State.timeHops (s : State) : Nat :=
  match s.time.parent with
  | some p => if 64 ≤ p then 0 else min 255 ((s.exch p).hops + 1)
  | none => 0

/-- The payload of RESULT (Table 4-5). -/
def State.resultBytes (s : State) (port num t4 : Nat) : List Byte :=
  leBytes 4 num ++ leBytes 10 (s.exch port).t1 ++ leBytes 10 t4 ++ bytes [s.qcode + b2n s.time.refFault * 8, s.timeHops] ++
  leBytes 2 (min 65535 s.holdLeft) ++ zeros 4

/-- REPLY_RECEIVED (R111): the parent stamps t4 and sends RESULT. -/
def State.replyIn (s : State) (port num : Nat) : State :=
  if s.masterPort port && !(s.port port).quar && (s.exch port).txNum == num then
    s.sendLocal port (s.localRec 0x23 2 num (s.resultBytes port num s.now))
  else s

def execReplyReceived (port num : Nat) (s : State) : Host.Outcome State Fault Refusal :=
  present (decide (port < linkPorts s.build)) (s.replyIn port (w32 num))

/-- A miss on a port of the time path; three in a row lose the parent, and acquisition restarts on the link (R115). -/
def State.missOn (s : State) (p : Nat) : State :=
  let s := s.bumpSat R.TIME_EXCH_MISS
  let s := (s.modExch p (fun e => { e with awaiting := false, misses := e.misses + 1 })).exchVote p false
  if (s.exch p).misses ≥ 3 then (s.parentLost p 0).reacquire p else s

/-- Half the sum of the eighth and ninth smallest of the sixteen offsets (R115). -/
def median16 (l : List Int) : Int :=
  let m := l.mergeSort (fun a b => decide (a ≤ b))
  (m.getD 7 0 + m.getD 8 0) / 2

/-- 200 ppm of a value. -/
def ppm200 (v : Int) : Int := v / 5000

def clampI (v lo hi : Int) : Int := max lo (min v hi)

/-- The servo law of R116: rho in units of 2^-64, delta in units of 2^-32 s (roundings: log entry 20). -/
def State.servo (s : State) (o : Int) (delta : Nat) : State :=
  let d : Int := max delta 1
  let one : Int := 18446744073709551616
  let ratio := o * 9223372036854775808 / (1000000000000 * d)
  let rho := clampI (s.time.rho - ratio / 8) (-(ppm200 one)) (ppm200 one)
  let a0 : Int := nominalAddend
  let a := clampI (a0 + a0 * (rho - ratio) / one) (a0 - ppm200 a0) (a0 + ppm200 a0)
  { s with time := { s.time with rho := rho, addend := a.toNat } }

/-- A locked pod candidate is cross-checked while the unit carries code 0 (R125). -/
def State.crossOn (s : State) (p : Nat) : Bool := s.build == .h && s.qcode == 0 && s.rank p == 2 && (s.exch p).locked

/-- The difference is beyond the limit, and its alarm is due: one a minute for each port (R125). -/
def State.crossTold (s : State) (p : Nat) (o : Int) : Bool :=
  s.crossOn p && decide ((s.rd R.TIME_XCHK_LIMIT : Int) * psUnit < absI o) &&
    (match (s.exch p).xchkAt with
     | some t => s.after t 60000000
     | none => true)

/-- The cross-check: the worst difference, the interrupt, and the time of an alarm that is due (R125). -/
def State.crossCheck (s : State) (p : Nat) (o : Int) : State :=
  if s.crossOn p then
    let ps := absI (offPs o)
    let s := s.wr R.TIME_XCHK_WORST (max (s.rd R.TIME_XCHK_WORST) (min ps.toNat 4294967295))
    let s := if s.crossTold p o then s.modExch p (fun e => { e with xchkAt := some s.time.cycles }) else s
    if (s.rd R.TIME_XCHK_LIMIT : Int) * psUnit < absI o then s.irq 0x002 4 else s
  else s

/-- The first estimate of an acquisition is complete: step or steer, and take the port as parent when none stands (R116). -/
def State.firstEstimate (s : State) (p : Nat) (o : Int) : State :=
  let s := s.modExch p (fun e => { e with acquiring := true, acq := [] })
  let s := if s.time.parent = none ∧ s.rank p ≠ 0 then { s with time := { s.time with parent := some p } } else s
  if s.time.parent = some p ∧ s.time.code ≠ 0 ∧ (fld (s.rd R.TIME_STEP_THRESH) 15 0 : Int) * 1000 * psUnit < absI o then
    s.stepTime (-(offTime o)) 0
  else s

/-- An offset within the lock threshold counts towards lock, another starts the count again (R116). -/
def State.towardLock (s : State) (p : Nat) (o : Int) : State :=
  let ok := absI o ≤ (fld (s.rd R.TIME_LOCK_THRESH) 15 0 : Int) * psUnit
  let s := s.modExch p (fun e => { e with good := if ok then e.good + 1 else 0 })
  let e := s.exch p
  if !e.locked && e.good ≥ 8 && e.code != 4 && s.rank p != 0 then s.modExch p (fun e => { e with locked := true, acquiring := false }) else s

/-- An offset that is no jump takes effect: the servo of the parent, an acquisition, or a step towards lock (R113, R116, R118). -/
def State.offsetTaken (s : State) (p : Nat) (o : Int) (delta : Nat) : State :=
  let e := s.exch p
  if e.locked then
    let s := if s.time.parent = some p then s.servo o delta else s
    -- a parent sending 4 is never locked to (R118)
    let s := if e.code = 4 then s.modExch p (fun e => { e with locked := false, good := 0 }) else s
    s.chooseParent 2
  else if e.acquiring && !e.suspect then
    let acq := e.acq ++ [o]
    if acq.length = 16 then (s.modExch p (fun e => { e with suspect := true })).firstEstimate p (median16 acq)
    else s.modExch p (fun e => { e with acq := acq })
  else
    let s := if s.time.parent = some p then s.servo o delta else s
    let s := s.towardLock p o
    if (s.exch p).locked then s.chooseParent 0 else s

/-- One offset of a port takes effect (R113, R116, R118, R119). -/
def State.applyOffset (s : State) (p : Nat) (o md : Int) (delta : Nat) : State :=
  let s := if s.time.parent = some p then (s.wr R.TIME_OFFSET (satSgn 32 (offPs o))).wr R.TIME_MEAN_DELAY (satSgn 32 (offPs md)) else s
  let e := s.exch p
  if e.locked && s.time.parent == some p && decide ((fld (s.rd R.TIME_STEP_THRESH) 15 0 : Int) * 1000 * psUnit < absI o) then
    let st := s.stamp
    ((s.parentLost p 2).reacquire p).eventAt 0x105 st (bytes [p, 0, 0, 0] ++ leBytes 8 (satSgn 64 (offPs o)))
  else
    let told := s.crossTold p o
    let st := s.stamp
    let s := (s.crossCheck p o).offsetTaken p o delta
    if told then s.eventAt 0x106 st (bytes [p, 0, 0, 0] ++ leBytes 8 (satSgn 64 (offPs o))) else s

/-- RESULT_RECEIVED (R113, R115, R116): a RESULT of the exchange in progress gives offset and delay; one whose number is not that of the latest
REPLY is discarded and counts a miss; one more of the exchange that is over has no effect. Nothing is taken on a quarantined port (R211). -/
def State.resultIn (s : State) (port : Nat) (res : TimeResult) : State :=
  if !s.childPort port || (s.port port).quar then s
  else
    let e := s.exch port
    if e.awaiting && e.repliedNum == some res.num then
      let down : Int := (e.t2 : Int) - res.t1
      let up : Int := (res.t4 : Int) - e.t3
      let o := timeUnit (down - up) - asymOf (s.rd R.TIME_ASYM port)
      let md := timeUnit (down + up)
      let delta := s.now - e.lastAt
      let s := s.modExch port (fun e => { e with awaiting := false, misses := 0, offset := o, delay := md, code := if 4 < res.code then 4 else res.code,
                                                 refFault := res.refFault, hops := res.hops, holdover := res.holdover, lastAt := s.now, resAt := s.time.cycles })
      (s.exchVote port false).applyOffset port o md delta
    else if e.repliedNum == some res.num then s
    else s.missOn port

def execResultReceived (port : Nat) (res : TimeResult) (s : State) : Host.Outcome State Fault Refusal :=
  present (decide (port < linkPorts s.build)) (s.resultIn port res)

/-- RESULT_TIMEOUT (R115): RESULT has not arrived 100 us after REPLY. -/
def execResultTimeout (port : Nat) (s : State) : Host.Outcome State Fault Refusal :=
  present (decide (port < linkPorts s.build)) (if (s.exch port).awaiting && s.after (s.exch port).replyAt 100 then s.missOn port else s)

/-- PROBE_TIMEOUT (R115): no PROBE within twice the child's interval, on a port of the time path that is up or serves the parent. -/
def execProbeTimeout (port : Nat) (s : State) : Host.Outcome State Fault Refusal :=
  present (decide (port < linkPorts s.build))
    (if s.childPort port && ((s.port port).usable || s.time.parent == some port) &&
        s.after (s.exch port).probeAt (2 * fld (s.rd R.TIME_EXCH_INTERVAL) 15 0) then
      (s.modExch port (fun e => { e with probeAt := s.time.cycles })).missOn port
    else s)

/-- HOLDOVER_EXPIRY (Table 4-6): the holdover has run out and the code becomes 3. -/
def execHoldoverExpiry (s : State) : Host.Outcome State Fault Refusal :=
  .next (match s.time.holdUntil with
    | some t => if s.time.code = 2 ∧ t ≤ s.time.cycles then s.setCode 3 5 else s
    | none => s)

/-! ### The reference clock (R105) -/

/-- REF_CLOCK_FAULT (R105): kind 0 stopped, 1 out of range. -/
def execRefClockFault (kind : Nat) (s : State) : Host.Outcome State Fault Refusal :=
  .next (if s.time.refFault then s
    else
      let before := s.qcode
      let s := { s with time := { s.time with refFault := true } }
      let s := s.irq 0x002 3
      let s := if before = 3 then s else ((s.irq 0x002 0).event 0x101 (bytes [before, 3, 4, s.parentKind, s.parentPort])).trcQual false
      s.event 0x104 (bytes [kind % 2]))

/-- REF_CLOCK_RECOVERED (R105): the unit returns to ref_clk, drops every lock and restarts acquisition on every candidate. -/
def execRefClockRecovered (s : State) : Host.Outcome State Fault Refusal :=
  .next (if !s.time.refFault then s
    else
      let e' := s.time.exch.map (fun (e : Exch) => { e with locked := false, good := 0, acq := [], suspect := false })
      let s := { s with time := { s.time with refFault := false, code := 3, parent := none, holdUntil := none, left0 := none, exch := e',
                                              ptp := s.time.ptp.map (fun (q : PtpPort) => { q with good := 0, locked := false }) } }
      let s := (s.timePorts.filter (fun p => (s.port p).usable)).foldl (fun (s : State) p => s.reacquire p) s
      if s.time.groupRoot ∧ s.modeReq ≤ 1 then s.setCode 1 4 else s)

/-! ### Registers of the service (R123, R124) -/

/-- What a write of TIME_CTRL does: the service it selects takes effect (R123, Table 4-6). A Selvo-T keeps its grandmaster under 0 and 1, and
ignores it under 2. -/
def State.timeMode (s : State) (v : Nat) : State :=
  let s := s.wr R.TIME_CTRL (v % 4)
  let m := s.modeReq
  if m = 2 then State.setCode { s with time := { s.time with parent := none, ptp := s.time.ptp.map (fun q => { q with good := 0, locked := false }) } } 3 3
  else if s.build = .t then s
  else if m = 1 then
    let s := match s.time.parent with
      | some p => if 36 ≤ p then { s with time := { s.time with parent := none } } else s
      | none => s
    let s := (if s.time.code = 0 then s.setCode 1 3 else s).rootCode 3
    s.chooseParent 3
  else (s.rootCode 3).chooseParent 3

/-- TIME_MODE_REQ (R123): a value of 3 is invalid. -/
def execTimeModeReq (a : Acc) (data : Word) (s : State) : Host.Outcome State Fault Refusal :=
  .next (s.guardedWrite a 0x002090 data.toNat false (data.toNat % 4 == 3) (fun s => s.timeMode data.toNat))

/-- What a write of TIME_SET_GO does (R124). -/
def State.timeSet (s : State) (v : Nat) : State :=
  if !bitOf v 0 then s
  else if s.qcode = 3 ∨ s.qcode = 4 ∨ (s.time.groupRoot ∧ s.qcode = 1) then
    let t : Nat := s.rd R.TIME_SET_FRAC + s.rd R.TIME_SET_SEC_LO * 2 ^ 32 + fld (s.rd R.TIME_SET_SEC_HI) 15 0 * 2 ^ 64
    let before := s.qcode
    let s := if s.time.code = 4 then s.codeTo 3 else s
    let d := (t : Int) - (s.now : Int)
    ((s.stepClock d).codeTold before 6).stepTold d 1
  else s.irq 0x002 5

/-- TIME_SET (R124). -/
def execTimeSet (a : Acc) (data : Word) (s : State) : Host.Outcome State Fault Refusal :=
  .next (s.guardedWrite a 0x0020DC data.toNat false false (fun s => s.timeSet data.toNat))

/-- TIME_ANCHOR_DUE (R102): an anchor into a stream that the unit originates, in the stream's class. -/
def execTimeAnchorDue (stream tc : Nat) (s : State) : Host.Outcome State Fault Refusal :=
  .next (if s.time.anchored.contains (stream, tc) then s.anchor stream tc false else s)

/-! ### IEEE 1588 (R126, R127) -/

def State.ptp (s : State) (p : Nat) : PtpPort := s.time.ptp.getD p PtpPort.reset

def State.modPtp (s : State) (p : Nat) (f : PtpPort → PtpPort) : State := { s with time := { s.time with ptp := modNth s.time.ptp p f } }

/-- An Ethernet port is enabled for IEEE 1588 (Table 4-8). -/
def State.ptpOn (s : State) (p : Nat) : Bool := bitOf (s.rd R.PTP_CTRL) (9 + p)

/-- A message is one that Table 4-7 supports, on the transport and of the domain that PTP_CTRL sets. -/
def State.ptpTaken (s : State) (m : PtpMsg) : Bool :=
  m.version == 2 && m.minor ≤ 1 && m.supported && m.transport == b2n (bitOf (s.rd R.PTP_CTRL) 8) && m.domain == fld (s.rd R.PTP_CTRL) 7 0

/-- The grandmaster of an announce gives code 0 (R127). -/
def annPrimary (a : Announce) : Bool := (a.clockClass == 6 || a.clockClass == 7) && a.ptpTimescale

/-- The key by which the best master clock algorithm orders two announces. -/
def annKey (a : Announce) : List Nat := [a.priority1, a.clockClass, a.accuracy, a.variance, a.priority2, a.gmId, a.steps]

/-- Lexicographic order of two lists of numbers. -/
def lexLt : List Nat → List Nat → Bool
  | [], _ => false
  | _ :: _, [] => false
  | a :: as, b :: bs => decide (a < b) || (a == b && lexLt as bs)

/-- The best of the masters heard on a port: the lower key, then the lower sender (Table 4-7). -/
def PtpPort.best (q : PtpPort) : Option (Nat × Announce) :=
  q.masters.foldl (fun (b : Option (Nat × Announce)) x => match b with
    | none => some x
    | some y => if lexLt (annKey x.2 ++ [x.1]) (annKey y.2 ++ [y.1]) then some x else some y) none

/-- The portState codes of IEEE 1588: 3 disabled, 4 listening, 7 passive, 8 uncalibrated, 9 slave. -/
def State.ptpState (s : State) (p : Nat) : Nat :=
  if !s.ptpOn p then 3
  else if (s.ptp p).best.isNone then 4
  else if s.time.ptpSel ≠ p then 7
  else if (s.ptp p).locked then 9 else 8

/-- What the selected port shows: states, grandmaster, and the UTC data that anchors carry (R127, Table 4-8). -/
def State.ptpShow (s : State) : State :=
  let s := s.wr R.PTP_STATUS (s.ptpState 0 + s.ptpState 1 * 16 + s.time.ptpSel * 256)
  match (s.ptp s.time.ptpSel).best with
  | some (_, a) =>
    (((s.wr R.PTP_GM_ID_LO (a.gmId % 4294967296)).wr R.PTP_GM_ID_HI (a.gmId / 4294967296)).wr R.PTP_GM_CLASS (a.clockClass % 256 + b2n a.ptpTimescale * 256)).wr
      R.TIME_UTC (unsN 16 a.utcOffset + b2n a.utcValid * 65536 + b2n a.leap61 * 131072 + b2n a.leap59 * 262144)
  | none => s

/-- A port's lock towards its master begins anew. -/
def State.ptpUnlock (s : State) (p : Nat) : State := s.modPtp p (fun q => { q with good := 0, locked := false })

/-- Selvo-T's 1588 parent is lost (R127, Table 4-6). -/
def State.ptpLost (s : State) (p : Nat) (cause : Nat) : State :=
  let s := s.ptpUnlock p
  if s.time.parent = some (64 + p) then
    let st := s.stamp
    let s := (s.bumpSat R.TIME_LOSS_COUNT).irq 0x002 2
    let s := State.codeAlone { s with time := { s.time with parent := none } } (if cause = 2 then 7 else 1) true
    s.eventAt 0x103 st (bytes [p, 1, cause])
  else s

/-- One offset from the master of the selected port: a jump loses the parent, a step is taken only while it is being acquired with a code
other than 0, and the eighth offset in a row within the threshold locks it (R117, R119, R127). -/
def State.ptpOffset (s : State) (p : Nat) (o : Int) (delta : Nat) (intervalOk : Bool) : State :=
  let s := s.wr R.PTP_OFFSET (satSgn 32 (offPs o))
  let big := (fld (s.rd R.TIME_STEP_THRESH) 15 0 : Int) * 1000 * psUnit < absI o
  let ok := absI o ≤ (fld (s.rd R.TIME_LOCK_THRESH) 15 0 : Int) * psUnit && intervalOk
  if s.time.parent = some (64 + p) ∧ ((s.ptp p).locked = true ∨ s.time.code = 0) ∧ big then
    (s.ptpLost p 2).eventAt 0x105 s.stamp (bytes [p, 0, 0, 0] ++ leBytes 8 (satSgn 64 (offPs o)))
  else if s.modeReq = 2 then s
  else
    let s := { s with time := { s.time with parent := some (64 + p) } }
    let s := (s.wr R.TIME_OFFSET (satSgn 32 (offPs o))).wr R.TIME_MEAN_DELAY (satSgn 32 (offPs (s.ptp p).delay))
    let s := if (s.ptp p).locked = false ∧ s.time.code ≠ 0 ∧ big then s.stepTime (-(offTime o)) 0 else s.servo o delta
    let s := s.modPtp p (fun q => { q with good := if ok then q.good + 1 else 0, locked := q.locked || (ok && decide (7 ≤ q.good)) })
    let prime := match (s.ptp p).best with
      | some (_, a) => annPrimary a
      | none => false
    if (s.ptp p).good ≥ 8 ∧ prime = true then s.setCode 0 0 else s

/-- Selvo-T sends a Delay_Req on its selected port and stamps its departure (Table 4-7). -/
def State.delayReq (s : State) (p : Nat) : State :=
  let n := ((s.ptp p).reqSeq + 1) % 65536
  let s := s.modPtp p (fun q => { q with reqSeq := n, t3 := some s.now })
  s.sendFrame 12 p 0 none (leBytes 2 n)

/-- The stamps of one Sync are complete: the offset from the master, and on the selected port what follows from it (R113, R126, R127). -/
def State.ptpSync (s : State) (p t1 t2 : Nat) (corr : Int) (okI : Bool) : State :=
  let q := s.ptp p
  let delta := t2 - q.t2
  let asym := asymOf (s.rd (if p = 0 then R.PTP_ASYM0 else R.PTP_ASYM1))
  let o := 2 * timeUnit ((t2 : Int) - t1) - corr * psUnit - q.delay - asym
  let s := s.modPtp p (fun q => { q with t1 := t1, t2 := t2, corr := corr, intervalOk := okI, offset := o })
  if p = s.time.ptpSel then ((s.ptpOffset p o delta okI).delayReq p).ptpShow else s

/-- A Sync or Follow_Up that Table 4-7 supports, from the port's best master: a two-step Sync is stamped at its own arrival and waits for its
Follow_Up, whose correction adds to its own (R112, R126). -/
def State.syncIn (s : State) (p : Nat) (m : PtpMsg) : State :=
  let okI := decide (-7 ≤ m.logInterval) && decide (m.logInterval ≤ 1)
  match m.kind with
  | .oneStep => (s.modPtp p (fun q => { q with twoStep := none })).ptpSync p m.stamp s.now m.correction okI
  | .twoStep => s.modPtp p (fun q => { q with twoStep := some { seq := m.seq, source := m.source, t2 := s.now, corr := m.correction, intervalOk := okI } })
  | .followUp =>
    match (s.ptp p).twoStep with
    | some w => if w.seq = m.seq ∧ w.source = m.source then
        (s.modPtp p (fun q => { q with twoStep := none })).ptpSync p m.stamp w.t2 (w.corr + m.correction) w.intervalOk else s
    | none => s

/-- A message comes from the best master of its port. -/
def State.fromBest (s : State) (p : Nat) (m : PtpMsg) : Bool :=
  match (s.ptp p).best with
  | some (i, _) => i == m.source
  | none => false

/-- PTP_SYNC_RECEIVED (R112, R126, R127): a Sync, or the Follow_Up that completes a two-step one. -/
def execPtpSyncReceived (p : Nat) (m : PtpMsg) (s : State) : Host.Outcome State Fault Refusal :=
  present (s.build == .t && decide (p < 2))
    (if !s.ptpOn p then s
     else if !s.ptpTaken m then s.bumpSat R.PTP_DISCARDED
     else if s.fromBest p m then s.syncIn p m else s)

/-- PTP_DELAY_RESP_RECEIVED (R126): the answer to the last Delay_Req, whose departure the port stamped, gives the mean path delay; `mine` says that its
requestingPortIdentity names this port. -/
def execPtpDelayRespReceived (p : Nat) (m : PtpMsg) (mine : Bool) (s : State) : Host.Outcome State Fault Refusal :=
  present (s.build == .t && decide (p < 2))
    (if !s.ptpOn p then s
     else if !s.ptpTaken m then s.bumpSat R.PTP_DISCARDED
     else
      let q := s.ptp p
      match q.t3 with
      | some t3 =>
        if mine && m.seq == q.reqSeq && s.fromBest p m then
          let down := 2 * timeUnit ((q.t2 : Int) - q.t1) - q.corr * psUnit
          let up := 2 * timeUnit ((m.stamp : Int) - t3) - m.correction * psUnit
          let md := (down + up) / 2
          let s := s.modPtp p (fun q => { q with delay := md, t3 := none })
          if p = s.time.ptpSel then s.wr R.PTP_MEAN_DELAY (satSgn 32 (offPs md)) else s
        else s
      | none => s)

/-- Port selection across the two ports (Table 4-7): the better announce, port 0 among equals. The parent goes with the selection, its lock
begun anew, and keeps its code (R107, R127). -/
def State.ptpSelect (s : State) : State :=
  let sel := match (s.ptp 0).best, (s.ptp 1).best with
    | some (i, a), some (j, b) => if lexLt (annKey b ++ [j]) (annKey a ++ [i]) then 1 else 0
    | none, some _ => 1
    | _, none => 0
  if sel = s.time.ptpSel then s
  else
    let old := s.time.ptpSel
    let s := (s.ptpUnlock old).ptpUnlock sel
    { s with time := { s.time with ptpSel := sel, parent := if s.time.parent = some (64 + old) then some (64 + sel) else s.time.parent } }

/-- Selvo-T leaves code 0 when the announced class leaves 6 and 7 (R127). -/
def State.ptpClass (s : State) : State :=
  let p := s.time.ptpSel
  match (s.ptp p).best with
  | some (_, a) =>
    if (a.clockClass == 6 || a.clockClass == 7) = false ∧ s.time.parent = some (64 + p) ∧ s.time.code = 0 then s.ptpLost p 1 else s
  | none => s

/-- PTP_ANNOUNCE_RECEIVED (R126, R127): the master's data set, port selection, and what the selected port shows. -/
def State.annIn (s : State) (p : Nat) (m : PtpMsg) (ann : Announce) : State :=
  let was := (s.ptp p).best
  let s := s.modPtp p (fun q => { q with masters := assocSet m.source ann q.masters })
  let s := if (was.map (fun x => x.1)) == ((s.ptp p).best.map (fun x => x.1)) then s else s.ptpUnlock p
  (s.ptpSelect.ptpClass).ptpShow

def execPtpAnnounceReceived (p : Nat) (m : PtpMsg) (ann : Announce) (s : State) : Host.Outcome State Fault Refusal :=
  present (s.build == .t && decide (p < 2))
    (if !s.ptpOn p then s
     else if !s.ptpTaken m then s.bumpSat R.PTP_DISCARDED
     else s.annIn p m ann)

/-- A port hears no master any more: its parent is lost, and the other port may take over (R127). -/
def State.ptpSilent (s : State) (p : Nat) : State :=
  ((s.modPtp p (fun q => { q with masters := [], twoStep := none, t3 := none })).ptpLost p 1).ptpSelect.ptpShow

/-- PTP_ANNOUNCE_TIMEOUT (R127): three announce intervals have passed on a port without an Announce. -/
def execPtpAnnounceTimeout (p : Nat) (s : State) : Host.Outcome State Fault Refusal :=
  present (s.build == .t && decide (p < 2)) (s.ptpSilent p)

/-- What a write of PTP_CTRL does: a port that it disables, or a change of domain or transport, ends what the ports have heard; PTP_STATUS
shows the states at once (Table 4-8). -/
def State.ptpCtrl (s : State) (v : Nat) : State :=
  let old := s.rd R.PTP_CTRL
  let s := s.wr R.PTP_CTRL (v % 2048)
  let other := old % 512 != v % 512
  ((List.range 2).foldl (fun (s : State) p => if other || !s.ptpOn p then s.ptpSilent p else s) s).ptpShow

/-! ### What the TIME page reads (Table 4-8) -/

/-- Live reads of the TIME page. -/
def State.timeLive (s : State) (off : Nat) : Option Nat :=
  if off = 0x080 then some (s.now % 4294967296)
  else if off = 0x084 then some (s.now / 2 ^ 32 % 2 ^ 32)
  else if off = 0x088 then some (s.now / 2 ^ 64 % 65536 + s.qcode * 65536)
  else if off = 0x08C then
    let lk := match s.time.parent with
      | some p => if 64 ≤ p then (s.ptp (p - 64)).locked else (s.exch p).locked
      | none => false
    let acq := match s.time.parent with
      | some _ => !lk
      | none => s.time.exch.any (fun e => e.acquiring)
    some (s.qcode + b2n lk * 8 + b2n acq * 16 + b2n s.time.refFault * 32 + s.parentKind * 256 + s.parentPort * 65536)
  else if off = 0x0A8 then some (s.time.addend % 4294967296)
  else if off = 0x0AC then some (s.time.addend / 4294967296 % 4294967296)
  else if off = 0x0B0 then some s.holdLeft
  else none

end Sys2Proof.Machine
end

