-- ==== Sys2Proof/Machine/Links.lean ====
section
/-! DEFINITION. Selvo links: units, credits, the scheduler and shapers, link control, CREDIT_INIT, the census, training and the fall
of a link (R51 to R55, R201, R222 to R237). -/

namespace Sys2Proof

/-! ### The unit header (R222, Table 7-1) -/

def UnitIn.tc (u : UnitIn) : Nat := Machine.fld u.hdr 2 0
def UnitIn.first (u : UnitIn) : Bool := Machine.bitOf u.hdr 3
def UnitIn.last (u : UnitIn) : Bool := Machine.bitOf u.hdr 4
def UnitIn.linkCtl (u : UnitIn) : Bool := Machine.bitOf u.hdr 5
def UnitIn.len (u : UnitIn) : Nat := Machine.fld u.hdr 31 16
def UnitIn.pkt (u : UnitIn) : Nat := Machine.fld u.hdr 63 32

/-- A unit of a packet: PKT, LEN, LAST, FIRST and TC in their places, the reserved bits 0. -/
def UnitIn.make (pkt tc : Nat) (first last : Bool) (data : List Byte) : UnitIn :=
  { hdr := pkt % 2 ^ 32 * 2 ^ 32 + data.length % 65536 * 65536 + Machine.b2n last * 16 + Machine.b2n first * 8 + tc % 8, data := data }

/-- The 8 header bytes and the data, as the unit stands on the wire. -/
def UnitIn.wire (u : UnitIn) : List Byte := Machine.leBytes 8 u.hdr ++ u.data

end Sys2Proof

namespace Sys2Proof.Machine

/-! ### Sizes -/

/-- Credits of 64 bytes that a unit of so many data bytes takes, its 8-byte header counted (R222). -/
def unitCredits (n : Nat) : Nat := (n + 8 + 63) / 64

/-- Data bytes of the next unit of an item: the whole packet for TC0 and TC1, at most 504 for the rest (R223). -/
def Item.nextLen (i : Item) : Nat :=
  let left := i.r.payload.length + 24 - i.sent
  if i.r.tc ≤ 1 then left else min left 504

/-- Units of 400 ns on the local clock. -/
def ns400 : Nat := 320

/-! ### Shapers (R235 to R237) -/

/-- The shaper profile of a port (R248). -/
def State.portProf (s : State) (p : Nat) : Nat := s.rd R.TRF_PORT_PROF (p / 8) / 2 ^ (4 * (p % 8)) % 16

/-- The rate in Mb/s and burst in bytes of a class at a port. -/
def State.shapeOf (s : State) (p c : Nat) : Nat × Nat :=
  let q := s.portProf p
  (fld (s.rd R.TRF_PROF_RATE q (c - 1)) 19 0, fld (s.rd R.TRF_PROF_BURST q (c - 1)) 23 0)

/-- The tokens of a class now: risen at the rate, stopped at the burst; 0 when the profile blocks the class (R235, R236). -/
def State.tokensNow (s : State) (p c : Nat) : Int :=
  let (rate, burst) := s.shapeOf p c
  if rate = 0 ∨ burst = 0 then 0 else riseAt ((s.port p).tx8 c).tokens rate burst (s.now - ((s.port p).tx8 c).tokAt)

/-- A class of a port is blocked by a zero profile (R235). -/
def State.shapeBlocked (s : State) (p c : Nat) : Bool := (s.shapeOf p c).1 == 0 || (s.shapeOf p c).2 == 0

/-- A fabric lane of Selvo-H has a lane shaper (R237). -/
def State.hasLane (s : State) (p : Nat) : Bool := s.build == .h && decide (p < 36)

/-- The lane shaper's rate in Mb/s and burst in bytes. -/
def State.laneShape (s : State) : Nat × Nat := (fld (s.rd R.TRF_FAB_SHAPE) 5 0 * 1600, fld (s.rd R.TRF_FAB_SHAPE) 31 16 * 256)

def State.laneNow (s : State) (p : Nat) : Int :=
  let (rate, burst) := s.laneShape
  if burst = 0 then 0 else riseAt (s.port p).laneTokens rate burst (s.now - (s.port p).laneAt)

/-- Every bucket is brought up to now before a profile, or its assignment, changes: a blocked class's tokens stand at 0 (R235, R236). -/
def State.settle (s : State) : State :=
  { s with link := { s.link with ports := s.link.ports.zipIdx.map (fun (x : Port × Nat) =>
      { x.1 with laneTokens := s.laneNow x.2, laneAt := s.now,
                 cls := x.1.cls.zipIdx.map (fun (y : TxRx × Nat) => { y.1 with tokens := s.tokensNow x.2 y.2, tokAt := s.now }) }) } }

/-! ### The scheduler (R223, R225, R233, R234) -/

/-- Credits that the sender of a class may use: none while the class is brought to a quiescent point, but for those it held when a census
showed credits lost (R54, R447). -/
def TxRx.usable (x : TxRx) : Int :=
  match x.quiesce with
  | some q => min q.left x.credits
  | none => x.credits

/-- The link island of a port, or the core, is being quiesced (R89). -/
def State.launchHeld (s : State) (p : Nat) : Bool := s.core.qscReq.contains (9 + portGroup s.build p) || s.core.qscReq.contains 8

/-- The head unit of a class may leave as far as all but its credits go (R233); an island that is being quiesced launches no new packet, and
finishes one that it has begun (R89). -/
def State.mayLeave (s : State) (p c : Nat) : Bool :=
  let x := (s.port p).tx8 c
  match x.q with
  | [] => false
  | i :: _ =>
    x.ready && (i.sent != 0 || !s.launchHeld p) &&
      (c == 0 || (decide (0 < s.tokensNow p c) && (!s.hasLane p || decide (0 < s.laneNow p))))

/-- The credits that the head unit of a class needs. -/
def TxRx.headNeed (x : TxRx) : Nat :=
  match x.q with
  | [] => 0
  | i :: _ => unitCredits i.nextLen

/-- The head unit of a class is eligible (R233). -/
def State.eligible (s : State) (p c : Nat) : Bool :=
  s.mayLeave p c && decide ((((s.port p).tx8 c).headNeed : Int) ≤ ((s.port p).tx8 c).usable)

/-- Charge the shapers for a unit of n bytes (R235, R237). -/
def State.charge (s : State) (p c n : Nat) : State :=
  if c = 0 then s
  else
    let b : Int := (n : Int) * byteUnit
    let t := s.tokensNow p c
    let l := s.laneNow p
    let s := s.modCls p c (fun x => { x with tokens := t - b, tokAt := s.now })
    if s.hasLane p then s.modPort p (fun q => { q with laneTokens := l - b, laneAt := s.now }) else s

/-- The stamps of an exchange packet that leaves: PROBE takes t1, REPLY takes t3 (R111). -/
def State.exchSent (s : State) (p : Nat) (r : Rec) : State :=
  if r.type = 0x21 then s.modExch p (fun e => { e with t1 := s.now })
  else if r.type = 0x22 then s.modExch p (fun e => { e with t3 := s.now })
  else s

/-- Send the head unit of a class: its bytes leave, credits and tokens are spent; the last unit moves the packet to the held list. -/
def State.sendUnit (s : State) (p c : Nat) : State :=
  match ((s.port p).tx8 c).q with
  | [] => s
  | i :: rest =>
    let n := i.nextLen
    let first := i.sent == 0
    let last := i.sent + n == i.r.payload.length + 24
    let x := (s.port p).tx8 c
    let sent := if first && !i.replay then (x.txSent + 1) % 2 ^ 64 else x.txSent
    let pkt := if first && !i.replay then sent % 2 ^ 32 else i.pkt
    let data := ((packet i.r).drop i.sent).take n
    let i' := { i with sent := i.sent + n, pkt := pkt }
    let s := s.charge p c (n + 8)
    let s := s.modCls p c (fun x => { x with q := if last then rest else i' :: rest, held := if last then x.held ++ [i'] else x.held,
                                             txSent := sent, credits := x.credits - unitCredits n,
                                             quiesce := x.quiesce.map (fun z => { z with left := z.left - unitCredits n, since := s.time.cycles }) })
    let s := s.modPort p (fun q => { q with tx := some (UnitIn.make pkt c first last data) })
    if first then s.exchSent p i.r else s

/-- The record at the head of a class's queue holds an uncorrectable word: it goes on with POISON (R331, Table 11-5). -/
def State.poisonHead (s : State) (p c : Nat) : State :=
  s.modCls p c (fun x => { x with q := match x.q with
    | i :: r => { i with r := { i.r with flags := i.r.flags ||| 2 } } :: r
    | [] => [] })

/-- The record at the head of a class's queue is coded as it begins to leave; its copies in the other queues are the same record
(R30, R369). -/
def State.codeHead (s : State) (p c : Nat) : State :=
  match ((s.port p).tx8 c).q with
  | [] => s
  | i :: _ =>
    if i.sent != 0 || i.coded then s
    else
      let (r, s) := s.codeRec i.r
      { s with link := { s.link with ports := s.link.ports.map (fun (q : Port) => { q with cls := q.cls.map (fun (x : TxRx) =>
        { x with q := x.q.map (fun (y : Item) => if y.uid = i.uid ∧ y.sent = 0 then { y with r := { r with flags := y.r.flags }, coded := true } else y) }) }) } }

/-- A port begins WAKE blocks towards a dozing far end, unless they already flow (R451). -/
def State.wakeFar (s : State) (p : Nat) : State :=
  s.modPort p (fun q => { q with wakeSeq := match q.wakeSeq with
    | some t => some t
    | none => some s.time.cycles })

/-- The link group of a port is in Run. -/
def State.groupRuns (s : State) (p : Nat) : Bool := s.inRun (6 + portGroup s.build p)

/-- The first of some classes, the highest priority first, whose head unit is eligible as it leaves, coded where it is to be coded, sends it;
one that is not eligible does not block a lower class (R233, R234, R369). -/
def State.unitFrom (port : Nat) (bad : List Nat) : List Nat → State → State
  | [], s => s
  | c :: cs, s =>
    if s.mayLeave port c && decide (0 < ((s.port port).tx8 c).usable) then
      let s := s.codeHead port c
      if s.eligible port c then (if bad.isEmpty then s else (s.poisonHead port c).badWord bad).sendUnit port c
      else State.unitFrom port bad cs s
    else State.unitFrom port bad cs s

/-- What a unit boundary of a port does. -/
def State.unitOut (s : State) (port : Nat) (bad : List Nat) : State :=
  if (s.port port).usable && s.groupRuns port then
    if (s.port port).farDoze then (if (List.range 8).any (s.eligible port) then s.wakeFar port else s)
    else State.unitFrom port bad (List.range 8) s
  else s

/-- EGRESS_UNIT_BOUNDARY (R233, R331): the port sends the highest-priority eligible unit, if there is one. `bad` is empty, or names the
memory kind, instance, bank and word address of an uncorrectable word that the reading of the record meets. -/
def execEgressUnitBoundary (port : Nat) (bad : List Nat) (s : State) : Host.Outcome State Fault Refusal :=
  present (decide (port < linkPorts s.build))
    (s.unitOut port bad)

/-! ### Credits and acknowledgements (R224, R226) -/

/-- A broadcast's own fate is delivered when the first child acknowledges it (R200). -/
def Bcast.acked (b : Bcast) (uid : Nat) : Bcast :=
  { b with kids := b.kids.map (fun (k : Kid) => if k.uid = uid then { k with acked := true } else k),
           extra := b.extra.map (fun x => if x.1 = uid then (uid, true) else x) }

/-- A child of a broadcast has acknowledged its copy (R200, R208 to R210). -/
def State.bcastAcked (s : State) (uid : Nat) : State :=
  let own := ((s.convoy.slots.map (fun p => p.2.bcasts)).flatten.filter (fun (b : Bcast) => b.kids.any (fun (k : Kid) => k.uid == uid))).filterMap Bcast.fate
  let s : State := { s with convoy := { s.convoy with slots := s.convoy.slots.map (fun p =>
    (p.1, { p.2 with bcasts := p.2.bcasts.map (fun (b : Bcast) =>
      let b := b.acked uid
      if b.kids.any (fun (k : Kid) => k.uid == uid) then { b with fate := none } else b) })) } }
  own.foldl (fun (s : State) f => s.fateDelivered f) s

/-- The oldest held packets of a class are acknowledged, so many of them (R77, R224). -/
def State.ackHeld : Nat → Nat → Nat → State → State
  | 0, _, _, s => s
  | n + 1, p, c, s =>
    match ((s.port p).tx8 c).held with
    | [] => s
    | i :: rest =>
      let s := s.modCls p c (fun x => { x with held := rest, txAcked := (x.txAcked + 1) % 2 ^ 64 })
      State.ackHeld n p c ((s.bcastAcked i.uid).fateDelivered i.uid)

/-- One entry of a LINK_CTL: cumulative credits released and packets acknowledged of a class (Table 7-2, R226). -/
def State.applyCtl (s : State) (p c released acked : Nat) : State :=
  let x := (s.port p).tx8 c
  let dr := (released + 4294967296 - x.relApplied) % 4294967296
  let da := (acked + 4294967296 - x.ackApplied) % 4294967296
  let s := s.modCls p c (fun x => { x with credits := x.credits + dr, relApplied := w32 released,
                                            ackApplied := w32 (x.ackApplied + min da x.held.length) })
  State.ackHeld (min da x.held.length) p c s

/-- The cumulative counts of the classes that a LINK_CTL lists; a keepalive lists every class (R226). -/
def State.linkCtl (s : State) (port : Nat) (entries : List (Nat × Nat × Nat)) : State :=
  let s := s.modPort port (fun q => { q with rxAt := s.time.cycles, farDoze := false })
  entries.foldl (fun s e => if e.1 < 8 then s.applyCtl port e.1 e.2.1 e.2.2 else s) s

/-- Classes of a port whose released or acknowledged counts have not been reported. -/
def Port.unreported (q : Port) : List Nat :=
  (List.range 8).filter (fun c => (q.tx8 c).released != (q.tx8 c).relReported || (q.tx8 c).rxAcked % 4294967296 != (q.tx8 c).ackReported)

/-- The payload of a link-control packet (Tables 7-2 and 17-2). -/
def ctlPayload (type bitmap flags num : Nat) (values : List Nat) : List Byte :=
  if type = 0x10 then bytes [bitmap, flags] ++ zeros 2 ++ values.flatMap (leBytes 4)
  else if type = 0x11 then leBytes 4 num ++ bytes [values.getD 0 0] ++ zeros 3
  else if type = 0x12 then leBytes 4 num ++ bytes [values.getD 0 0, 0] ++ leBytes 2 (values.getD 1 0) ++ leBytes 4 (values.getD 2 0)
  else if type = 0x13 then bytes [bitmap, 0] ++ values.flatMap (leBytes 2)
  else if type = 0x14 then bytes [bitmap] ++ zeros 3
  else bytes [bitmap] ++ zeros 3 ++ values.flatMap (leBytes 4)

/-- A link-control packet. -/
def CtlPkt.make (type bitmap flags num : Nat) (values : List Nat) : CtlPkt :=
  { type := type, bitmap := bitmap, flags := flags, num := num, values := values, payload := ctlPayload type bitmap flags num values }

/-- The unit that carries a link-control packet: whole, with LINKCTL, on stream 0 (R225). -/
def CtlPkt.unit (k : CtlPkt) (source : Nat) : UnitIn :=
  let data := leBytes 4 (k.payload.length * 65536 + k.type) ++ leBytes 4 (source % 16777216) ++ zeros 16 ++ k.payload
  { hdr := data.length % 65536 * 65536 + 32 + 16 + 8, data := data }

/-- 400 ns have passed since the port's last link-control packet (R225). -/
def State.ctlFree (s : State) (p : Nat) : Bool := decide ((s.port p).lastCtlAt + ns400 ≤ s.time.cycles)

/-- Send a link-control packet that counts for the bound of R225. -/
def State.putCtl (s : State) (p : Nat) (k : CtlPkt) : State := s.modPort p (fun q => { q with ctl := some k, lastCtlAt := s.time.cycles })

/-- The bitmap of a list of classes. -/
def clsBits (l : List Nat) : Nat := l.foldl (fun a c => a ||| 2 ^ c) 0

/-- Send LINK_CTL for a list of classes (Table 7-2). -/
def State.sendCtl (s : State) (p : Nat) (l : List Nat) (keep : Bool) : State :=
  let q := s.port p
  let vals := (l.map (fun c => [(q.tx8 c).released, (q.tx8 c).rxAcked % 4294967296])).flatten
  let s := (s.putCtl p (CtlPkt.make 0x10 (clsBits l) (b2n keep) 0 vals)).modPort p (fun q => { q with lastReportAt := s.time.cycles })
  l.foldl (fun s c => s.modCls p c (fun x => { x with relReported := x.released, ackReported := x.rxAcked % 4294967296 })) s

/-- LINK_CTL_SEND (R226): a census echo that waits, else every class whose counts changed; at most one link-control packet per 400 ns (R225). -/
def execLinkCtlSend (port : Nat) (s : State) : Host.Outcome State Fault Refusal :=
  present (decide (port < linkPorts s.build))
    (let l := (s.port port).unreported
     if (l.isEmpty && (s.port port).echo.isNone) || !(s.port port).trained || !s.ctlFree port then s
     else if (s.port port).farDoze then s.wakeFar port
     else match (s.port port).echo with
       | some k => (s.putCtl port k).modPort port (fun q => { q with echo := none })
       | none => s.sendCtl port l false)

/-- LINK_CTL_KEEPALIVE (R226): nothing has changed for 10 us; none is sent while either end dozes (R451). -/
def execLinkCtlKeepalive (port : Nat) (s : State) : Host.Outcome State Fault Refusal :=
  present (decide (port < linkPorts s.build))
    (if (s.port port).trained && !(s.port port).farDoze && !(s.port port).dozing && (s.port port).unreported.isEmpty && s.after (s.port port).lastReportAt 10 &&
        (s.port port).echo.isNone && s.ctlFree port then s.sendCtl port (List.range 8) true
     else s)

/-! ### CREDIT_INIT (R229) -/

/-- The minimum total of a class (R228). -/
def minT (c : Nat) : Nat := if c = 0 then 2 else if c = 1 then 34 else 8

/-- An interrupt of a port's page; the PAIR page has one bit for its lanes up or down and one for identities (R443, R444). -/
def State.portIrq (s : State) (p bit : Nat) : State :=
  match portPage s.build p with
  | some (pg, _) => s.irq pg (if portKind s.build p = 3 then (if bit = 0 then 1 else 2) else bit)
  | none => s

/-- The member of a pair that publishes a record of this source and stream is the other one (R452). -/
def State.partnerShare (s : State) (source stream : Nat) : Bool :=
  let role := s.core.straps % 4
  s.build == .t && (role == 1 || role == 2) && source != s.srcId &&
    (!bitOf source 23 && ((fld source 22 5 + stream) % 2 == 0) != (role == 1))

/-- A pair lane is UP: a partner that was lost is back, and its share is handed back context by context (R457). -/
def State.pairUp (s : State) : State :=
  let s := { s with pub := { s.pub with downAt := none } }
  if s.pub.lost then
    let e := s.rd R.PAIR_EVENTS
    let s := s.wr R.PAIR_EVENTS (setFld e 15 8 (satAdd 8 (fld e 15 8) 1))
    { s with pub := { s.pub with lost := false, split := false, handback := s.pub.takeover,
                                 back := s.pub.ctxs.filter (fun x => s.partnerShare x.source x.stream),
                                 ctxs := s.pub.ctxs.filter (fun x => !s.partnerShare x.source x.stream) } }
  else s

/-- Both halves of CREDIT_INIT stand: the link is UP (R229, R539, Table 17-2). -/
def State.linkUp (s : State) (p : Nat) : State :=
  let q := s.port p
  if q.training && q.initAcked && q.cls.all (fun c => c.ready) then
    let s := s.modPort p (fun q => { q with up := !q.disabled && !q.heldDown, trained := true, training := false, everTrained := true,
                                            trainCount := satAdd 32 q.trainCount 1, upSince := s.time.cycles, step := 5 })
    let s := if 1 < (s.port p).trainCount ∧ portKind s.build p = 2 then s.pwr R.RL_RETRAINS p ((s.port p).trainCount - 1) else s
    let s := (s.pwr R.FP_TRAIN_COUNT p (s.port p).trainCount)
    let s := s.modExch p (fun e => if e.locked then { e with probeAt := s.time.cycles }
      else { e with training := if s.masterPort p then 16 else 0, acquiring := s.childPort p, acq := [], good := 0, suspect := false, probeAt := s.time.cycles })
    let s : State := if s.build = .l ∨ portKind s.build p = 2 then
        { s with codec := { s.codec with comp := s.codec.comp.map (fun (c : CdcCtx) => { c with key := true }) } }
      else s
    let s := s.portIrq p 0
    let s := if s.build = .h ∧ portKind s.build p = 0 then s.sendLocal p (s.localRec 0x81 2 0 (bytes [b2n s.core.unattended])) else s
    if portKind s.build p = 3 then s.pairUp else s
  else s

/-- A census round of a class ends: one that matches counts for test 3 of the admission of the port's leaf, another starts its count again
(R315, Table 10-6). -/
def State.admitRound (s : State) (p c : Nat) (ok : Bool) : State :=
  let ad := s.out.admission
  if ad.st = 1 ∧ ad.test = 3 ∧ p = 39 + ad.slot then
    { s with out := { s.out with admission := { ad with rounds := modNth ad.rounds c (fun n => if ok then n + 1 else 0) } } }
  else s

/-- A census is abandoned and counted (R232). -/
def State.censusSkip (s : State) (p : Nat) : State :=
  match (s.port p).census with
  | none => s
  | some k =>
    let s := s.modPort p (fun q => { q with census := none, censusNext := (q.censusNext + 1) % 8 })
    ((s.bumpSat R.FLOW_CENSUS_SKIPPED).wr R.FLOW_CENSUS_LAST (2 + k.num % 65536 * 65536) k.cls (bk := p)).admitRound p k.cls false

/-- A class as a CREDIT_INIT for it reaches its sender, and whether it is answered at once: in training, and where no credit is outstanding,
the total is set; else the class first comes to its quiescent point (R52, R54, R229). -/
def TxRx.creditInit (x : TxRx) (training : Bool) (t now : Nat) : TxRx × Bool :=
  if training then ({ x with farT := t, credits := t, ready := true, quiesce := none }, true)
  else
    match x.quiesce with
    | some z => ({ x with quiesce := some { z with newT := t, owe := true, left := 0 } }, false)
    | none =>
      if decide ((x.farT : Int) ≤ x.credits) then ({ x with farT := t, credits := t, ready := true }, true)
      else ({ x with quiesce := some { why := .init, since := now, newT := t, owe := true, left := 0 } }, false)

/-- CREDIT_INIT_RECEIVED (R229): the sender takes the totals and the port rate, answers, and may send on those classes. A census of such a
class is abandoned (R55, R232). -/
def State.creditInit (s : State) (p bitmap rateMax : Nat) (totals : List Nat) : State :=
  let kind := portKind s.build p
  let s := match (s.port p).census with
    | some k => if bitOf bitmap k.cls then s.censusSkip p else s
    | none => s
  let tr := (s.port p).training
  let cs := (List.range 8).filter (fun c => bitOf bitmap c)
  let now := cs.filter (fun c => (((s.port p).tx8 c).creditInit tr (totals.getD c 0) s.time.cycles).2)
  let s := cs.foldl (fun (s : State) c => s.modCls p c (fun x => (x.creditInit tr (totals.getD c 0) s.time.cycles).1)) s
  let s := s.modPort p (fun q => { q with rate := min (lineRate kind) rateMax,
                                          ctl := if now.isEmpty then q.ctl else some (CtlPkt.make 0x14 (clsBits now) 0 0 []) })
  s.linkUp p

def execCreditInitReceived (port bitmap rateMax : Nat) (totals : List Nat) (s : State) : Host.Outcome State Fault Refusal :=
  present (decide (port < linkPorts s.build)) (s.creditInit port bitmap rateMax totals)

/-- CREDIT_INIT_ACK_RECEIVED (R229): the new totals are in force at this ingress. -/
def State.creditAck (s : State) (p bitmap : Nat) : State :=
  let isNew (x : TxRx) : Bool := x.newT.isSome && x.initSent
  let re := (List.range 8).filter (fun c => bitOf bitmap c && isNew ((s.port p).tx8 c))
  let s := re.foldl (fun s c => s.modCls p c (fun x => { x with t := x.newT.getD x.t, newT := none, initSent := false })) s
  let s := s.modPort p (fun q => { q with reinit := q.cls.any (fun x => x.newT.isSome),
                                          initAcked := q.initAcked || (q.training && bitmap % 256 == 255) })
  let s := if re.isEmpty then s else (s.bumpSat R.FLOW_REINIT re.length).irq 0x02B 1
  s.linkUp p

def execCreditInitAckReceived (port bitmap : Nat) (s : State) : Host.Outcome State Fault Refusal :=
  present (decide (port < linkPorts s.build)) (s.creditAck port bitmap)

/-- The port rate that a reduced buffer allows, in 0.1 Gb/s: (B - 34) × 512 bits ÷ round trip, to nearest, at most the line rate (R230). -/
def rateMaxOf (kind b : Nat) : Nat :=
  let rtt := portRtt kind
  min (lineRate kind) (((b - 34) * 5120 * 2 + rtt) / (2 * rtt))

/-- Send CREDIT_INIT for a set of classes with the totals to be in force (Table 7-2). -/
def State.sendInit (s : State) (p bitmap : Nat) : State :=
  let q := s.port p
  let rm := rateMaxOf (portKind s.build p) q.buf
  let totals := q.cls.map (fun x => x.newT.getD x.t)
  s.modPort p (fun q => { q with ctl := some (CtlPkt.make 0x13 bitmap 0 0 (rm :: totals)), rateMaxSent := rm })

/-- A packet that has begun to leave is sent again from its first byte with its original PKT (R447). -/
def Item.again (i : Item) : Item := if i.pkt = 0 ∧ i.sent = 0 then i else { i with sent := 0, resent := true, replay := true }

/-- A packet whose link trains again starts from its first byte. -/
def Item.afresh (i : Item) : Item := { i with sent := 0, pkt := 0, replay := false }

/-- Two round trips of a port have passed since a moment. -/
def State.twoTrips (s : State) (p since : Nat) : Bool := decide (since + 2 * portRtt (portKind s.build p) * 4 / 5 ≤ s.time.cycles)

/-- The sender of a class has come to its quiescent point: what it still may send has gone, and every outstanding credit has returned or two
round trips have passed. It sets the total, answers a CREDIT_INIT that waits, and after a REPLAY sends again (R54, R229, R447). -/
def State.quiesceDone (s : State) (p c : Nat) : State :=
  let x := (s.port p).tx8 c
  match x.quiesce with
  | none => s
  | some z =>
    if (x.q.isEmpty || decide (z.left < x.headNeed)) && (decide ((x.farT : Int) ≤ x.credits) || s.twoTrips p z.since) then
      let s := (s.modCls p c (fun x => { x with
          credits := z.newT, farT := z.newT, quiesce := none,
          q := if z.why == .replay then x.held.map Item.again ++ x.q.map Item.again else x.q,
          held := if z.why == .replay then [] else x.held })).bumpSat R.FLOW_REINIT
      if z.owe then s.modPort p (fun q => { q with ctl := some (CtlPkt.make 0x14 (2 ^ c) 0 0 []) }) else s
    else s

/-- The receiver of a class whose total is to change has come to its quiescent point: its releases are reported or two round trips have
passed, and its buffer holds nothing. It sends CREDIT_INIT (steps 4 and 5 of R229). -/
def State.totalsReady (s : State) (p c : Nat) : State :=
  let x := (s.port p).tx8 c
  if x.newT.isSome && !x.initSent && (s.port p).trained && x.occ == 0 && (x.released == x.relReported || s.twoTrips p x.newAt) then
    (s.modCls p c (fun x => { x with initSent := true })).sendInit p (2 ^ c)
  else s

/-- CLASS_QUIESCE_DONE (R54, R229): every outstanding credit has returned, or two round trips have passed; or the buffer holds nothing. -/
def execClassQuiesceDone (port cls : Nat) (s : State) : Host.Outcome State Fault Refusal :=
  present (decide (port < linkPorts s.build) && decide (cls < 8)) ((s.quiesceDone port cls).totalsReady port cls)

/-- New totals are accepted for an ingress; they stand until steps 4 and 5 of R229, or the next training, bring them into force. -/
def State.applyTotals (s : State) (p : Nat) (newT : List Nat) : State :=
  let changed := (List.range 8).filter (fun c => ((s.port p).tx8 c).newT.getD ((s.port p).tx8 c).t != newT.getD c 0)
  let s := changed.foldl (fun s c => s.modCls p c (fun x =>
    { x with newT := if x.t = newT.getD c 0 then none else some (newT.getD c 0), newAt := s.time.cycles, initSent := false })) s
  s.modPort p (fun q => { q with reinit := q.cls.any (fun x => x.newT.isSome) })

/-- A spare bank takes the place of a retired one: every class goes through steps 4 and 5 of R229 with its total unchanged (R246). -/
def State.reinitAll (s : State) (p : Nat) : State :=
  s.modPort p (fun q => { q with reinit := true, cls := q.cls.map (fun x => { x with newT := some (x.newT.getD x.t), newAt := s.time.cycles, initSent := false }) })

/-- What a write of FLOW_APPLY does for the selected port (R229). -/
def State.flowApply (s : State) (v : Nat) : State :=
  if !bitOf v 0 then s
  else
    let p := fld (s.rd R.FLOW_SEL) 7 0
    if linkPorts s.build ≤ p then s
    else
      let newT := (List.range 8).map (fun c => fld (s.rd R.FLOW_T_CFG c (bk := p)) 9 0)
      let ok := newT.foldl (· + ·) 0 == (s.port p).buf && (List.range 8).all (fun c => decide (minT c ≤ newT.getD c 0))
      if ok then (s.modPort p (fun q => { q with refused := false })).applyTotals p newT
      else (s.modPort p (fun q => { q with refused := true })).irq 0x02B 3

/-- FLOW_APPLY (R229). -/
def execFlowApply (a : Acc) (data : Word) (s : State) : Host.Outcome State Fault Refusal :=
  .next (s.guardedWrite a 0x02B10C data.toNat false false (fun s => s.flowApply data.toNat))

/-- Take credits of a retired bank from TC7 down to TC2, none below its minimum (R230). Where these cannot give all of them, what they have is
taken and the rest stays: the spec is silent, and takes none from TC0 or TC1 (DESIGN CHOICE, log entry 75). -/
def takeCredits : Nat → Nat → List Nat → List Nat
  | 0, _, l => l
  | k + 1, need, l =>
    let c := k + 2
    let have_ := l.getD c 0 - minT c
    let n := min have_ need
    takeCredits k (need - n) (l.set c (l.getD c 0 - n))

/-! ### The census (R53, R231, R232) -/

/-- CENSUS_MARK_SEND (R231): the next mark of a port's round, its classes in order, one mark outstanding at a time. -/
def execCensusMarkSend (port : Nat) (s : State) : Host.Outcome State Fault Refusal :=
  present (decide (port < linkPorts s.build))
    (let q := s.port port
     let c := q.censusNext
     let due := c != 0 || s.after q.censusAt (1000 * fld (s.rd R.FLOW_CTRL) 31 16)
     if !bitOf (s.rd R.FLOW_CTRL) 0 || !q.usable || q.census.isSome || !due || !s.ctlFree port then s
     else
       let num := w32 (q.censusNum + 1)
       let x := q.tx8 c
       let k : Census := { num := num, cls := c, outstanding := (x.farT : Int) - x.credits, credited := x.relApplied, since := s.time.cycles }
       let s := (s.modPort port (fun q => { q with census := some k, censusNum := num, censusAt := if c = 0 then s.time.cycles else q.censusAt })).putCtl
         port (CtlPkt.make 0x11 0 0 num [c])
       if x.quiesce.isSome || !x.ready then s.censusSkip port else s)

/-- CENSUS_MARK_RECEIVED (R231): the receiver echoes its free credits and its cumulative count of credits released, as they are at the mark;
the echo leaves as soon as R225 lets it. -/
def execCensusMarkReceived (port num cls : Nat) (s : State) : Host.Outcome State Fault Refusal :=
  present (decide (port < linkPorts s.build) && decide (cls < 8))
    (if !(s.port port).trained then s
     else
       let x := (s.port port).tx8 cls
       let k := CtlPkt.make 0x12 0 0 (w32 num) [cls, x.t - x.occ, x.released]
       let s := s.modPort port (fun q => { q with rxAt := s.time.cycles, farDoze := false })
       if s.ctlFree port then s.putCtl port k else s.modPort port (fun q => { q with echo := some k }))

/-- A census mismatch: alarm, counts, and the class goes to its quiescent point, at once where credits were created, else when the credits
that the sender holds are used (R54, R232). -/
def State.mismatch (s : State) (p c : Nat) (diff : Int) (num : Nat) : State :=
  let created := decide (0 < diff)
  let mag := diff.natAbs
  let s := (s.bumpSat R.FLOW_CENSUS_MISMATCH).wr R.FLOW_LAST_MISMATCH (p + c * 256 + b2n created * 2048 + min mag 65535 * 65536)
  let s := (s.wr R.FLOW_CENSUS_LAST (4 + num % 65536 * 65536) c (bk := p)).irq 0x02B 0
  let q (x : TxRx) : Quiesce := ⟨.mismatch, s.time.cycles, x.farT, false, if created then 0 else x.credits⟩
  let s := s.modCls p c (fun x => { x with quiesce := some (q x) })
  s.event 0x201 (bytes [p, c, b2n created, 0] ++ leBytes 4 (min mag 4294967295))

/-- CENSUS_ECHO_RECEIVED (R53, R231): o - c + f is compared with T. -/
def execCensusEchoReceived (port num cls f released : Nat) (s : State) : Host.Outcome State Fault Refusal :=
  present (decide (port < linkPorts s.build))
    (match (s.port port).census with
     | some k =>
       if k.num = w32 num ∧ k.cls = cls then
         let x := (s.port port).tx8 cls
         if x.quiesce.isSome then s.censusSkip port
         else
           let c := (released + 4294967296 - k.credited) % 4294967296
           let diff : Int := k.outstanding - c + f - x.farT
           let s := s.modPort port (fun q => { q with census := none, censusNext := (q.censusNext + 1) % 8 })
           let s := (s.bumpSat R.FLOW_CENSUS_RUN).admitRound port cls (diff == 0)
           if diff = 0 then s.wr R.FLOW_CENSUS_LAST (1 + k.num % 65536 * 65536) cls (bk := port) else s.mismatch port cls diff k.num
       else s
     | none => s)

/-- CENSUS_TIMEOUT (R232): no echo within four round trips. -/
def execCensusTimeout (port : Nat) (s : State) : Host.Outcome State Fault Refusal :=
  present (decide (port < linkPorts s.build))
    (match (s.port port).census with
     | some k => if k.since + 4 * portRtt (portKind s.build port) * 4 / 5 ≤ s.time.cycles then s.censusSkip port else s
     | none => s)

/-! ### Ingress (R222 to R224) -/

/-- The credits of a unit are taken and released as it leaves the buffer into the core island (R224). -/
def State.ingressCredits (s : State) (p c n : Nat) : State :=
  s.modCls p c (fun x => { x with released := w32 (x.released + unitCredits n) })

/-- What a unit does to the packets of its class: nothing yet, or the packet's bytes when it is complete (R223). -/
inductive UnitStep where
  | more
  | whole (bytes : List Byte)
  deriving DecidableEq, Repr

/-- A unit that begins a packet, or that belongs to none that is open: the bytes of the packet it is dropped with, and what it does. -/
def TxRx.unitFirst (x : TxRx) (u : UnitIn) : Option (List Byte) × UnitStep × TxRx :=
  if !u.first then
    (if x.badPkt = some u.pkt then none else some [], .more, { x with badPkt := if u.last then none else some u.pkt })
  else if u.last then (none, .whole u.data, { x with lastPkt := u.pkt, badPkt := none })
  else if u.tc ≤ 1 then (some u.data, .more, { x with badPkt := some u.pkt })
  else (none, .more, { x with asm := some { pkt := u.pkt, bytes := u.data, red := false }, badPkt := none })

/-- A unit joins its packet; a segment that breaks the order drops the packet that was open, as far as it has come (R223). -/
def TxRx.unit (x : TxRx) (u : UnitIn) : Option (List Byte) × UnitStep × TxRx :=
  match x.asm with
  | none => x.unitFirst u
  | some a =>
    if u.first || u.pkt != a.pkt then
      let (_, st, y) := TxRx.unitFirst { x with asm := none } u
      (some a.bytes, st, y)
    else if u.last then (none, .whole (a.bytes ++ u.data), { x with asm := none, lastPkt := u.pkt })
    else (none, .more, { x with asm := some { a with bytes := a.bytes ++ u.data } })

/-- A packet that broke the order of its segments is dropped as malformed, under its manifest where that has come (R46, R223). -/
def State.unitDrop (s : State) (d : Option (List Byte)) : State :=
  match d with
  | some b => if 24 ≤ b.length then s.takeDrop (parsePacket b) 5 else s
  | none => s

/-- Add to a counter of Table 17-5: the pages of Ralud lanes have them, the pair lanes do not. -/
def State.rlBump (s : State) (r : Reg) (p : Nat) (d : Nat := 1) : State :=
  if portKind s.build p = 2 then s.pbump r p d else s

/-- A unit arrives at a port: its credits, its place in its packet, and the packet it completes (R223, R224, R77). Link control takes no
credits and has commands of its own (R225). -/
def State.unitIn (s : State) (p : Nat) (u : UnitIn) : Option (List Byte) × State :=
  let s := s.modPort p (fun q => { q with rxAt := s.time.cycles, farDoze := false })
  if u.linkCtl then (none, s)
  else
    let s := s.ingressCredits p u.tc u.data.length
    let (drop, st, x) := ((s.port p).tx8 u.tc).unit u
    let s := (s.modCls p u.tc (fun _ => x)).unitDrop drop
    match st with
    | .more => (none, s)
    | .whole b =>
      match x.replayPkt with
      | some k =>
        if atOrLater k u.pkt then (none, s.rlBump R.RL_REPLAY_DUP p)
        else (some b, s.modCls p u.tc (fun x => { x with rxRecv := (x.rxRecv + 1) % 2 ^ 64, rxAcked := (x.rxAcked + 1) % 2 ^ 64, replayPkt := none }))
      | none => (some b, s.modCls p u.tc (fun x => { x with rxRecv := (x.rxRecv + 1) % 2 ^ 64, rxAcked := (x.rxAcked + 1) % 2 ^ 64 }))

/-! ### Training (R229, R539) -/

/-- The records that wait in the ingress buffers of these ports withhold nothing in a new training, which counts from 0 (R224). -/
def State.creditsVoid (s : State) (mine : Nat → Bool) : State :=
  let void (w : InWait) : InWait := if mine w.port then { w with credits := 0 } else w
  { s with trace := { s.trace with agg := s.trace.agg.map void }, tree := { s.tree with chunks := s.tree.chunks.map void },
           abft := { s.abft with chunks := s.abft.chunks.map void },
           pub := { s.pub with owed := s.pub.owed.filter (fun o => !mine o.2.1) } }

/-- A port starts training: counts from 0, tolls full, accepted totals in force. CREDIT_INIT with every class follows at once where the port
answers discovery itself, and else after its neighbour's answer (R164, R224, R229, R239, R539). -/
def State.trainStart (s : State) (p : Nat) : State :=
  let kind := portKind s.build p
  let s := s.creditsVoid (fun q => q == p)
  let s := s.modPort p (fun q => { q with
    up := false, trained := false, training := true, initAcked := false, reinit := false, answered := false, discAt := s.time.cycles, echo := none,
    step := if s.build = .l then 4 else 1, rate := lineRate kind, census := none, censusNext := 0,
    censusAt := s.time.cycles, rxAt := s.time.cycles, lastCtlAt := s.time.cycles, lastReportAt := s.time.cycles, tx := none,
    cls := q.cls.map (fun x => { x with q := x.held.map (fun i => { i with sent := 0, pkt := 0, resent := true, replay := false }) ++ x.q.map (fun i => { i with sent := 0, pkt := 0, replay := false }), held := [],
                                        credits := 0, txSent := 0, txAcked := 0, rxRecv := 0, rxAcked := 0, relApplied := 0, ackApplied := 0,
                                        released := 0, relReported := 0, ackReported := 0, occ := 0, ready := false, quiesce := none, asm := none, badPkt := none, replayPkt := none,
                                        t := x.newT.getD x.t, newT := none, initSent := false }),
    farDoze := false, wakeSeq := none,
    toll := (List.range 3).map (fun k =>
      let n := 3 * p + k
      let pr := s.rd R.TOLL_MAP (n / 8) / 2 ^ (4 * (n % 8)) % 16
      { tc := (fld (s.rd R.TOLL_PROF_CBS pr) 23 0 : Int) * byteUnit, tp := (fld (s.rd R.TOLL_PROF_PBS pr) 23 0 : Int) * byteUnit, lastAt := s.now }) })
  if s.build = .l then s.sendInit p 255 else s

/-- Discovery is over on a port in training: CREDIT_INIT follows (R539, Table 17-2). -/
def State.discDone (s : State) (p : Nat) : State :=
  if (s.port p).training && (s.port p).step == 1 then (s.modPort p (fun q => { q with step := 4 })).sendInit p 255 else s

/-- A port may train: its island out of reset (R91), enabled, not held down, its clock in range (R78); pair lanes only with a role of A or B (Table 16-8). -/
def State.mayTrain (s : State) (p : Nat) : Bool :=
  !s.core.inReset.contains (9 + portGroup s.build p) && !(s.port p).heldDown && !(s.port p).disabled &&
    !(s.port p).slow && ((portPage s.build p).isNone || bitOf (s.prd R.FP_CTRL p) 0) && decide (84 ≤ (s.port p).buf) &&
    (portKind s.build p != 3 || s.core.straps % 4 == 1 || s.core.straps % 4 == 2)

/-- LINK_TRAINING_START (R229, R539): the link island of a leaf link or fabric lane has left reset and its adapter is ready. -/
def execLinkTrainingStart (port : Nat) (s : State) : Host.Outcome State Fault Refusal :=
  present (decide (port < linkPorts s.build)) (if s.mayTrain port && decide (portKind s.build port < 2) then s.trainStart port else s)

/-! ### The fall of a link (R37, R51, R201, R206) -/

/-! #### Peer sessions, which stand for the link ports of Ethernet neighbours (R464) -/

def State.modPub (s : State) (f : PubSt → PubSt) : State := { s with pub := f s.pub }
def State.sess (s : State) (e : Nat) : Session := s.pub.sess.getD e Session.reset
def State.modSess (s : State) (e : Nat) (f : Session → Session) : State := s.modPub (fun p => { p with sess := modNth p.sess e f })

/-- COL_CTRL of a collector entry. -/
def State.colCtrl (s : State) (e : Nat) : Nat := s.rd R.COL_CTRL 0 0 0 e

/-- An entry is enabled: its EN, and EN of PUB_CTRL. -/
def State.colOn (s : State) (e : Nat) : Bool := bitOf (s.rd R.PUB_CTRL) 0 && bitOf (s.colCtrl e) 0

/-- An entry reaches another Selvo-T (R464). -/
def State.colPeer (s : State) (e : Nat) : Bool := bitOf (s.colCtrl e) 1

/-- The source ID of the Selvo-T that an entry reaches. -/
def State.peerId (s : State) (e : Nat) : Nat := fld (s.rd R.COL_PEER_ID 0 0 0 e) 23 0

/-- The entry that stands for a port: port 32 + e of a Selvo-T is collector entry e, where that reaches a peer (DESIGN CHOICE, log entry 28). -/
def State.peerEntry (s : State) (p : Nat) : Option Nat :=
  if s.build == .t && decide (32 ≤ p) && decide (p < 40) && s.colOn (p - 32) && s.colPeer (p - 32) then some (p - 32) else none

/-- Entries that reach the members of one tray: their IDs differ in the pair role alone (R23, R207). -/
def State.sameTray (s : State) (e d : Nat) : Bool := e == d || s.colPeer d && s.peerId e != 0x7FFFFF && s.peerId d / 2 == s.peerId e / 2

/-- The peer link of that neighbour is up: its session is open. -/
def State.peerUp (s : State) (p : Nat) : Bool :=
  match s.peerEntry p with
  | some e => (s.sess e).st == 2
  | none => false

/-- A port, or the peer session that stands for it, carries convoy packets: a port in quarantine is outside any convoy (R26, R464). -/
def State.portOpen (s : State) (p : Nat) : Bool :=
  if s.build == .t && decide (32 ≤ p) then s.peerUp p else (s.port p).usable && !(s.port p).quar

/-- A packet whose fate goes on is queued at another port, or for another peer session. -/
def State.resendAt (s : State) (q : Nat) (i : Item) : State :=
  if s.build == .t && decide (32 ≤ q) then
    match s.peerEntry q with
    | some e => (s.modPub (fun p => { p with store := p.store ++ [{ uid := i.uid, r := i.r, mirror := false, takeover := false, need := [e] }] })).modSess e
        (fun x => { x with todo := x.todo ++ [i.uid] })
    | none => s
  else s.modCls q i.r.tc (fun x => { x with q := x.q ++ [i] })

/-- The port towards the alternate parent of a convoy stream, where the plan gives one that is usable. -/
def State.altPort (s : State) (stream p : Nat) : Option Nat :=
  match s.convoy.slots.find? (fun x => x.1 == stream) with
  | some (_, sl) =>
    match sl.entry with
    | some e =>
      match e.parent, e.alt with
      | some a, some q => if a = p && s.portOpen q then some q else none
      | _, _ => none
    | none => none
  | none => none

/-- The other lane to the same member, when a Ralud lane falls (R51, R449). -/
def State.twinLane (s : State) (p : Nat) : Option Nat :=
  if portKind s.build p = 2 ∨ portKind s.build p = 3 then
    let q := if p % 2 = 0 then p + 1 else p - 1
    if (s.port q).usable then some q else none
  else none

/-- The convoy header flag RESENT, byte 6 bit 5 of the header (Table 6-4, R201). -/
def resentConvoy (r : Rec) : Rec :=
  if r.type = 0x40 then
    { r with payload := r.payload.set 6 (BitVec.ofNat 8 ((r.payload.getD 6 0).toNat ||| 32)) }
  else r

/-- A convoy packet that this unit relays for a sibling: it goes to the root and nowhere else (R204, R206). -/
def relayed (r : Rec) : Bool := r.type == 0x40 && bitOf ((r.payload.getD 6 0).toNat) 6

/-- One packet held or queued at a port that fell finds another way, or is dropped link-down; what enters no tally is no counted drop. -/
def State.reroute (s : State) (p : Nat) (i : Item) : State :=
  let way := if i.r.type = 0x40 then (match (if relayed i.r then none else s.altPort i.r.stream p) with
      | some q => some q
      | none => s.twinLane p)
    else if i.r.type = 0x48 ∨ (i.r.type = 0x24 ∧ i.r.stream ≠ 0) then (match s.altPort (s.rd R.CVY_RECON_STREAM) p with
      | some q => some q
      | none => s.twinLane p)
    else if i.r.stream = 0 then none else s.twinLane p
  match way with
  | some q => (s.resendAt q { i with r := resentConvoy i.r, sent := 0, pkt := 0, resent := true, replay := false }).pbump R.FP_RESENT p
  | none =>
    let t := s.fateLost i.uid 1
    if s.link.pend.any (fun x => x.uid == i.uid && x.tallied) then t.pbump R.FP_DROP_LINKDOWN p else t

/-- A Ralud lane of a Selvo-H is lost while the member's other lane carries its streams: the guarantee-lost alarm (R449). -/
def State.laneLost (s : State) (p : Nat) : State :=
  if s.build = .h ∧ portKind s.build p = 2 ∧ (s.twinLane p).isSome then s.event 0x203 (bytes [p, 0] ++ leBytes 2 999 ++ leBytes 2 1999) else s

/-- The convoy streams whose parent is on a port that fell go by their alternate from now on (R201). -/
def State.toAlternate (s : State) (p : Nat) : State :=
  let ss := (s.convoy.slots.filter (fun x => (s.altPort x.1 p).isSome && !s.convoy.onAlt.any (fun y => y.1 == x.1))).map (fun x => (x.1, false))
  { s with convoy := { s.convoy with onAlt := s.convoy.onAlt ++ ss } }

/-- The exchange of a port ends with its link: no RESULT is awaited, and its vote falls (R115, R120). A group that enters Retain keeps the time
parent, which the next exchange wakes. -/
def State.exchFall (s : State) (p : Nat) (keepTime : Bool) : State :=
  let s := if keepTime then s
    else if s.time.parent = some p then s.parentLost p 1
    else s.modExch p (fun e => { e with locked := false, good := 0, acquiring := false })
  (s.modExch p (fun e => { e with awaiting := false })).exchVote p false

/-- The link of a port that is up or trains is cut: what it held and queued is rerouted or dropped, and its census is skipped (R37, R51, R232). -/
def State.linkCut (s : State) (p : Nat) : State :=
  let items := ((s.port p).cls.map (fun x => x.held ++ x.q)).flatten
  let s := s.censusSkip p
  let s := s.modPort p (fun q => { q with up := false, trained := false, training := false, initAcked := false, step := 0,
                                          cls := q.cls.map (fun x => { x with q := [], held := [], ready := false, asm := none, badPkt := none, quiesce := none }), echo := none })
  let s := s.toAlternate p
  items.foldl (fun s i => s.reroute p i) s

/-- The down time of a pair begins with the fall of its second lane (R455). -/
def State.pairFall (s : State) (p : Nat) : State :=
  if portKind s.build p = 3 && (s.twinLane p).isNone && s.pub.downAt.isNone then { s with pub := { s.pub with downAt := some s.time.cycles } } else s

/-- The ports that were up are counted as down. -/
def State.fallCount (s : State) (p : Nat) : State := (s.pbump R.FP_DOWN_COUNT p).portIrq p 0

/-- The link-down alarm of a port. -/
def State.fallTold (s : State) (cause p : Nat) : State := s.event 0x204 (bytes [p, cause, 0, 0] ++ leBytes 3 (s.port p).neighbour)

/-- What falls with the links of ports that have been cut: the time parent last, the pair, and the alarms of those that were up, in ascending
order of their codes (R120, R455, R499). -/
def State.linksTold (s : State) (live was : List Nat) (cause : Nat) (keepTime : Bool) : State :=
  let s := (live.filter (fun p => s.time.parent != some p)).foldl (fun s p => s.exchFall p keepTime) s
  let s := (live.filter (fun p => s.time.parent == some p)).foldl (fun s p => s.exchFall p keepTime) s
  let s := live.foldl (fun s p => s.pairFall p) s
  let s := was.foldl (fun s p => s.fallCount p) s
  let s := was.foldl (fun s p => s.laneLost p) s
  was.foldl (fun s p => s.fallTold cause p) s

/-- The ports of a list whose links are up or train, and those that are up. -/
def State.linksLive (s : State) (ps : List Nat) : List Nat := ps.filter (fun p => (s.port p).up || (s.port p).training)
def State.linksUp (s : State) (ps : List Nat) : List Nat := ps.filter (fun p => (s.port p).up)

/-- The links of some ports are cut together. -/
def State.linksCut (s : State) (ps : List Nat) : State := (s.linksLive ps).foldl (fun s p => s.linkCut p) s

/-- Links go down together, for a cause of code 0x204: held and queued packets are rerouted or dropped, time and census leave the ports. -/
def State.linksFall (s : State) (ps : List Nat) (cause : Nat) (keepTime : Bool) : State :=
  (s.linksCut ps).linksTold (s.linksLive ps) (s.linksUp ps) cause keepTime

/-- One link goes down. -/
def State.linkDown (s : State) (p cause : Nat) : State := s.linksFall [p] cause false

/-- LINK_DOWN (R37, R51, R201): cause 0 link island reset, 1 lost lock or MARKERs, 2 disabled, 3 Retain or Off. -/
def execLinkDown (port cause : Nat) (s : State) : Host.Outcome State Fault Refusal :=
  present (decide (port < linkPorts s.build)) (s.linkDown port (cause % 256))

/-- Banks of a port's ingress buffer have been lost: totals, rate and alarms (R230). -/
def State.loseBank (s : State) (p : Nat) : State :=
  let kind := portKind s.build p
  let left := (s.port p).buf - 64
  let s := s.modPort p (fun q => { q with buf := left, banks := q.banks - 1 })
  let s := s.irq 0x02B 2
  if left < 84 then
    ((s.linksCut [p]).event 0x202 (bytes [p, left / 64] ++ leBytes 2 left)).linksTold (s.linksLive [p]) (s.linksUp [p]) 2 false
  else
    let newT := takeCredits 6 64 ((List.range 8).map (fun c => ((s.port p).tx8 c).newT.getD ((s.port p).tx8 c).t))
    let s := s.applyTotals p newT
    let rm := rateMaxOf kind left
    let guar := if kind = 0 then 320 else if kind = 1 then 320 else 999
    if rm < guar then s.event 0x203 (bytes [p, 0] ++ leBytes 2 rm ++ leBytes 2 guar) else s

/-- The source ID that the plan, or the package, expects on a port; 0x7F_FFFF for none (R211, R221). -/
def State.plannedId (s : State) (p : Nat) : Nat :=
  if s.build = .h ∧ 40 ≤ p then (if s.srcId = 0x7FFFFF then 0x7FFFFF else s.srcId / 32 * 32 + (p - 39))
  else if s.build = .t ∧ 32 ≤ p then (if (s.peerEntry p).isSome then s.peerId (p - 32) else 0x7FFFFF)
  else assocD 0x7FFFFF p s.convoy.neigh

/-! ### What the port pages and the FLOW and TRAFFIC pages read -/

/-- A total of a class by the offset within its 32 bytes (Table 6-9). -/
def totalWord (x : TxRx) (w : Nat) : Nat :=
  let v := if w / 8 = 0 then x.txSent else if w / 8 = 1 then x.txAcked else if w / 8 = 2 then x.rxRecv else x.rxAcked
  if w % 8 = 0 then v % 2 ^ 32 else v / 2 ^ 32

/-- Live reads of a port block; `off` as in Table 6-9. -/
def State.portLive (s : State) (p off : Nat) : Option Nat :=
  let q := s.port p
  if off = 0x080 then
    some (b2n q.up + b2n q.trained * 2 + b2n q.quar * 4 + b2n q.expected * 8 + b2n q.missing * 16 + b2n q.dupId * 32 +
      (if portKind s.build p = 2 then
        b2n (s.build == .h && s.link.trayOrphan) * 128 + b2n q.degraded * 256 + b2n q.farDoze * 512 + b2n q.heldDown * 1024
       else if portKind s.build p = 1 then b2n q.adopting * 64
       else 0))
  else if off = 0x084 then some q.neighbour
  else if off = 0x088 then some (s.plannedId p)
  else if 0x0A0 ≤ off ∧ off < 0x1A0 then some (totalWord (q.tx8 ((off - 0x0A0) / 32)) ((off - 0x0A0) % 32 / 4 * 4))
  else none

/-- Live reads of the FLOW page, for the selected port (Table 7-7). -/
def State.flowLive (s : State) (off : Nat) : Option Nat :=
  let p := fld (s.rd R.FLOW_SEL) 7 0
  let q := s.port p
  if off = 0x100 then some (b2n q.up + b2n q.reinit * 2 + b2n q.refused * 4 + q.banks * 8 + q.rateMaxSent * 65536)
  else if off = 0x108 then some q.buf
  else if 0x160 ≤ off ∧ off < 0x180 then some ((q.tx8 ((off - 0x160) / 4)).t + (q.tx8 ((off - 0x160) / 4)).farT * 65536)
  else if 0x180 ≤ off ∧ off < 0x1A0 then
    let x := q.tx8 ((off - 0x180) / 4)
    some (x.credits.toNat % 1024 + x.occ * 65536)
  else none

/-- Signed bytes of a bucket, as a register shows them. -/
def bucketWord (t : Int) : Nat := satSgn 32 (t / byteUnit)

/-- Live reads of the TRAFFIC page (Table 7-8). -/
def State.trafficLive (s : State) (off : Nat) : Option Nat :=
  let p := fld (s.rd R.TRF_SEL) 7 0
  if off = 0x08C then some s.coal.entries.length
  else if 0x600 ≤ off ∧ off < 0x61C then some (bucketWord (s.tokensNow p ((off - 0x600) / 4 + 1)))
  else if off = 0x620 then some (if s.hasLane p then bucketWord (s.laneNow p) else 65536)
  else if off = 0x640 then
    let bits (f : Nat → Bool) : Nat := (List.range 8).foldl (fun a c => if f c then a + 2 ^ c else a) 0
    let q := s.port p
    some (bits (fun c => c != 0 && s.shapeBlocked p c) +
      256 * bits (fun c => match (q.tx8 c).q with
        | i :: _ => decide ((q.tx8 c).credits < unitCredits i.nextLen)
        | [] => false) +
      65536 * bits (fun c => c != 0 && !(q.tx8 c).q.isEmpty && (decide (s.tokensNow p c ≤ 0) || (s.hasLane p && decide (s.laneNow p ≤ 0)))))
  else none

/-- Live reads of the TOLL page for the selected source (Table 7-9). -/
def State.tollLive (s : State) (off : Nat) : Option Nat :=
  let sel := s.rd R.TOLL_SEL
  let t := s.tollNow (fld sel 7 0) (fld sel 9 8)
  if off = 0x310 then some (bucketWord t.1) else if off = 0x314 then some (bucketWord t.2) else none

end Sys2Proof.Machine
end

