-- ==== Sys2Proof/Machine/Sampling.lean ====
section
/-! DEFINITION. Sampling: counters, sensors, triggers, command latches and tensor summaries (R137 to R157, R171). -/

namespace Sys2Proof.Machine

/-! ### Tap islands (R82) -/

/-- A tap island is built present: island 0 always, another when a port is assigned to it (R82). -/
def State.tapPresent (s : State) (n : Nat) : Bool :=
  n == 0 || (n < 8 && (s.rd R.TAP_ASSIGN_CTR (pg := n) != 0 || s.rd R.TAP_ASSIGN_OTHER (pg := n) != 0))

/-- The builds with tap-side ports (R68, R69). -/
def hasTaps (b : Build) : Bool := b != .t

/-- CORE takes what its crossings carry: it is in Run. -/
def State.coreRuns (s : State) : Bool := s.inRun 1

/-! ### Counters (R137 to R143) -/

/-- A counter's value. -/
def State.ctr (s : State) (n : Nat) : Nat := assocD 0 n s.samp.ctrs

/-- Insert or replace by key, keeping the keys ascending. -/
def insAsc (k v : Nat) : List (Nat × Nat) → List (Nat × Nat)
  | [] => [(k, v)]
  | (a, b) :: r => if k < a then (k, v) :: (a, b) :: r else if k = a then (k, v) :: r else (a, b) :: insAsc k v r

/-- Store a counter's value; a counter at 0 is not listed. -/
def State.setCtr (s : State) (n v : Nat) : State :=
  { s with samp := { s.samp with ctrs := if v = 0 then assocDel n s.samp.ctrs else insAsc n v s.samp.ctrs } }

/-- Add to a counter; a wrap sets its bit in CTR_WRAPPED and the page's interrupt bit (R137, R174). -/
def State.addCtr (s : State) (n d : Nat) : State :=
  let v := s.ctr n + d
  let s' := s.setCtr n (v % 2 ^ 64)
  if 2 ^ 64 ≤ v then
    let j := n % 256 / 32
    (s'.wr R.CTR_WRAPPED (s'.rd R.CTR_WRAPPED j 0 (n / 256) ||| 2 ^ (n % 32)) j 0 (n / 256)).irq (0x010 + n / 256) 0
  else s'

/-- The configuration of a counter in force: a write that awaits its application is not yet it (R142). -/
def State.ctrCfg (s : State) (n : Nat) : Nat := assocD (s.rd R.CTR_CFG (n % 256) 0 (n / 256)) n s.samp.cfgPend

/-- The optional counters that may count: those whose register or awaiting configuration is not 0, ascending. -/
def State.ctrCandidates (s : State) : List Nat :=
  let fromRegs := s.regs.filterMap (fun p =>
    let page := p.1 / 4096
    let off := p.1 % 4096
    let n := 256 * (page - 0x010) + (off - 0x880) / 4
    if 0x010 ≤ page ∧ page < 0x020 ∧ 0x880 ≤ off ∧ off < 0xC80 ∧ 64 ≤ n then some n else none)
  fromRegs ++ (s.samp.cfgPend.map (fun p => p.1)).filter (fun n => !fromRegs.contains n)

/-- Enabled counters, the light set first, ascending (R138, R139, Table 5-10). -/
def State.enabledCtrs (s : State) : List Nat :=
  List.range 64 ++ (s.ctrCandidates.filter (fun n => bitOf (s.ctrCfg n) 31)).mergeSort (fun a b => decide (a ≤ b))

/-- A command of a stream is open, as the core sees it (R141). -/
def State.cmdOpen (s : State) (c : Nat) : Bool := s.samp.cmds.any (fun o => o.stream == c)

/-- A counter's gate lets an increment pass (R141). -/
def State.gateOpen (s : State) (cfg : Nat) : Bool :=
  let g := fld cfg 21 16
  g == 0 || s.cmdOpen (g - 1)

/-- Optional counters that select a source add an amount; during a hold they do not count (R139 to R141, R171). -/
def State.countSrc (s : State) (src amount : Nat) : State :=
  if s.muster.held || amount == 0 then s
  else
    (s.ctrCandidates.filter (fun n => bitOf (s.ctrCfg n) 31 && fld (s.ctrCfg n) 9 0 == src && s.gateOpen (s.ctrCfg n))).foldl
      (fun s n => s.addCtr n amount) s

/-- Apply the configuration writes that wait; together they advance CTR_GEN once (R142). -/
def State.applyCfg (s : State) : State :=
  if s.samp.cfgPend.isEmpty then s else { s with samp := { s.samp with cfgPend := [], gen := w32 (s.samp.gen + 1) } }

/-- A muster schedule is running (R142): one that is held has a cut still to take. -/
def State.scheduleRuns (s : State) : Bool := s.nextCut.isSome

/-- CTR_CFG_APPLY (R142): within 1 us of the writes, while no muster schedule runs. -/
def execCtrCfgApply (s : State) : Host.Outcome State Fault Refusal :=
  .next (if s.scheduleRuns then s else s.applyCfg)

/-- A value that CTR_CFG does not take (R140, R141). -/
def ctrCfgBad (v : Nat) : Bool := decide (320 ≤ fld v 9 0) || decide (33 ≤ fld v 21 16)

/-- A write of CTR_CFG: the register holds it, its effect waits; the light set is read-only (R138, R142). -/
def State.ctrCfgWrite (s : State) (n v : Nat) : State :=
  if n < 64 then s
  else
    let old := s.ctrCfg n
    let s := s.wr R.CTR_CFG (v &&& 0x803F03FF) (n % 256) 0 (n / 256)
    { s with samp := { s.samp with cfgPend := if s.samp.cfgPend.any (fun p => p.1 == n) then s.samp.cfgPend else s.samp.cfgPend ++ [(n, old)] } }

/-- Live reads of a CTR page (Table 5-10). -/
def State.ctrLive (s : State) (page off : Nat) : Option Nat :=
  if 0x080 ≤ off ∧ off < 0x880 then
    let v := s.ctr (256 * (page - 0x010) + (off - 0x080) / 8)
    some (if off % 8 = 0 then v % 2 ^ 32 else v / 2 ^ 32)
  else if off = 0xC80 then some s.samp.gen
  else none

/-! ### Sensors and triggers (R144 to R146) -/

/-- The kind of a sensor: SNS_CFG.KIND, and in a Selvo-T the kinds of Table 16-6 (R144, R433). -/
def State.snsKind (s : State) (n : Nat) : Nat :=
  if s.build = .t then (if n < 6 then 1 else if n < 9 then 3 else if n < 13 then 2 else 0) else fld (s.rd R.SNS_CFG n) 2 0

def State.sensor (s : State) (n : Nat) : Sensor := s.samp.sensors.getD n Sensor.reset

def State.modSensor (s : State) (n : Nat) (f : Sensor → Sensor) : State := { s with samp := { s.samp with sensors := modNth s.samp.sensors n f } }

/-- Order of two sensor values: signed for KIND 1 (R144). -/
def snsLt (kind a b : Nat) : Bool := if kind = 1 then decide (sgnN 16 a < sgnN 16 b) else decide (a < b)

/-- A reading reaches the core with the crossing's count of readings presented (R86, R144). In a hold the minimum and maximum stay as they
are, and those of the next cut begin with the first good reading after it (R171). -/
def Sensor.take (x : Sensor) (kind value count now : Nat) (faulty held : Bool) : Sensor :=
  let x := { x with readings := w32 (x.readings + count), unseen := w32 (x.unseen + (count - 1)), sinceCut := satAdd 8 x.sinceCut count }
  if faulty then { x with fault := true, stale := true, faultSeen := true }
  else
    let x1 := { x with value := value, stale := false, fault := false, noReading := false, goodAt := now, goodSinceCut := true }
    if held then x1
    else if x.ranged then
      { x1 with minV := if snsLt kind value x.minV then value else x.minV, maxV := if snsLt kind x.maxV value then value else x.maxV }
    else { x1 with minV := value, maxV := value, ranged := true }

/-- `count` readings presented since the last crossing, the newest with this value (R79, R86, R144). -/
def State.sensorReading (s : State) (sns value : Nat) (faulty : Bool) (count : Nat) : State :=
  let count := max count 1
  let s := s.modSensor sns (fun x => { x.take (s.snsKind sns) (value % 65536) count s.time.cycles faulty s.muster.held with raw := value % 65536 })
  let s := if faulty then s.irq 0x008 3 else s
  s.countSrc (256 + sns) count

/-- A trigger notification lands: TRIG_SEEN, and the counters that select it (R146). -/
def State.trigSeen (s : State) (t : Nat) : State :=
  (s.wr R.TRIG_SEEN (s.rd R.TRIG_SEEN ||| 2 ^ t)).countSrc (272 + t) 1

/-- Live reads of a TAP page (Table 5-9). -/
def State.tapLive (s : State) (page off : Nat) : Option Nat :=
  let n := page - 0x008
  if off = 0x080 then
    let st := s.rd R.TAP_ISL_STATUS (pg := n)
    some (setFld st 3 1 (b2n (s.core.inReset.contains n) + 2 * b2n (s.core.qscDrained.contains n) + 4 * b2n (s.tapPresent n)))
  else if page = 0x008 ∧ 0x100 ≤ off ∧ off < 0x200 then
    let x := s.sensor ((off - 0x100) / 16)
    if off % 16 = 4 then some (x.value + b2n x.stale * 65536 + b2n x.fault * 131072 + b2n x.noReading * 262144)
    else if off % 16 = 8 then some x.readings
    else if off % 16 = 12 then some x.unseen
    else none
  else none

/-! ### Command latches (R147 to R151) -/

/-- What CL_SEL chooses for a stream: latching, and the set. -/
def State.clSel (s : State) (c : Nat) : Bool × Nat :=
  let b := s.rd R.CL_SEL (c / 8) / 2 ^ (4 * (c % 8)) % 16
  (bitOf b 3 && bitOf (s.rd R.CL_CTRL) 0, b % 8)

/-- The counters of a latch set, in order. -/
def State.clSet (s : State) (set : Nat) : List Nat :=
  let len := s.rd (if set < 4 then R.CL_SET_LEN0 else R.CL_SET_LEN1) / 2 ^ (8 * (set % 4)) % 32
  (List.range len).map (fun i => s.rd R.CL_SET set (i / 2) / 2 ^ (16 * (i % 2)) % 4096)

/-- Write one entry to the latch queue, or count it lost (R150). -/
def State.clWrite (s : State) (e : LatchEnt) : State :=
  if s.samp.queue.length < s.capOf 5 0 1024 then
    let lost := s.samp.lost
    let e := { e with lost := min lost 65535, flags := e.flags + (if lost = 0 ∧ !s.samp.latchGap then 0 else 8) }
    let s := { s with samp := { s.samp with queue := s.samp.queue ++ [e], lost := 0, latchGap := false } }
    if 768 < s.samp.queue.length then s.irq 0x021 1 else s
  else
    let s := { s with samp := { s.samp with lost := s.samp.lost + 1 } }
    (s.bumpSat R.CL_LOST).irq 0x021 0

/-- Close the open command of a stream with flags; the close counts for SRC 288 + c (R140, R148, R149). -/
def State.cmdClose (s : State) (c flags : Nat) : State :=
  match s.samp.cmds.find? (fun o => o.stream == c) with
  | none => s
  | some o =>
    let s := { s with samp := { s.samp with cmds := s.samp.cmds.filter (fun o => o.stream != c), cmdIdleAt := assocSet c s.time.cycles s.samp.cmdIdleAt,
                                            cmdIdleStamp := assocSet c s.stamp s.samp.cmdIdleStamp } }
    let diffs := (o.ctrs.zip o.values).map (fun p => (s.ctr p.1 + 2 ^ 64 - p.2) % 2 ^ 64)
    let s := if o.latching then
        s.clWrite { stream := c, flags := flags, tag := o.tag, num := o.num, start := o.stamp, stop := s.stamp, set := o.set, lost := 0, gen := o.gen,
                    ctrs := o.ctrs, diffs := diffs }
      else s
    s.countSrc (288 + c) 1

/-- Open a command on a stream: the next command number, and the values of its set (R148). -/
def State.cmdStart (s : State) (c tag : Nat) : State :=
  let (lat, set) := s.clSel c
  let num := w32 (assocD 0 c s.samp.cmdNum + 1)
  let ctrs := if lat then s.clSet set else []
  let o : OpenCmd := { stream := c, latching := lat, set := set, ctrs := ctrs, values := ctrs.map s.ctr, tag := tag, num := num, stamp := s.stamp,
                       gen := s.samp.gen }
  { s with samp := { s.samp with cmds := s.samp.cmds ++ [o], cmdNum := assocSet c num s.samp.cmdNum,
                                 opened := if s.samp.opened.contains c then s.samp.opened else c :: s.samp.opened } }

/-- An end with no command open: an entry with NO_START (R149). -/
def State.cmdNoStart (s : State) (c tag : Nat) : State :=
  let (lat, set) := s.clSel c
  let ctrs := s.clSet set
  let s := if lat then
      s.clWrite { stream := c, flags := 2, tag := tag, num := assocD 0 c s.samp.cmdNum, start := s.stamp, stop := s.stamp, set := set, lost := 0,
                  gen := s.samp.gen, ctrs := ctrs, diffs := ctrs.map (fun _ => 0) }
    else s
  s.countSrc (288 + c) 1

/-- A command boundary marks a possible step of power for the thermal models of its stream (R413). -/
def State.thermBoundary (s : State) (c : Nat) : State :=
  (List.range 4).foldl (fun s m =>
    if bitOf (s.rd R.THM_STREAMS m) c then
      { s with drover := { s.drover with models := modNth s.drover.models m (fun x => { x with boundary := 4 }) } }
    else s) s

/-- A boundary as the core sees it (Table 3-3, R149). -/
def State.boundary (s : State) (c : Nat) (start stop : Bool) (tag : Nat) : State :=
  if s.muster.held then
    let n := b2n start + b2n stop
    let s := { s with samp := { s.samp with lost := s.samp.lost + n } }
    if n = 0 then s else (s.bumpSat R.CL_LOST n).irq 0x021 0
  else if stop && start then (if s.cmdOpen c then s.cmdClose c 0 else s.cmdNoStart c tag).cmdStart c tag
  else if start then (if s.cmdOpen c then s.cmdClose c 1 else s).cmdStart c tag
  else if stop then (if s.cmdOpen c then s.cmdClose c 0 else s.cmdNoStart c tag)
  else s

/-- The bytes of a latch entry (Table 5-3). -/
def latchBytes (e : LatchEnt) : List Byte :=
  bytes [e.stream, e.flags] ++ leBytes 2 e.tag ++ leBytes 4 e.num ++ leBytes 8 e.start ++ leBytes 8 e.stop ++ bytes [e.ctrs.length, e.set] ++
  leBytes 2 e.lost ++ leBytes 4 e.gen ++ ((e.ctrs ++ List.replicate (16 - e.ctrs.length) 0xFFFF).map (leBytes 2)).flatten ++
  (e.diffs.map (leBytes 8)).flatten

/-- LATCH_ENTRY_EMIT (R151): with EMIT = 1 the oldest entry goes out as a record and leaves the queue. -/
def execLatchEntryEmit (s : State) : Host.Outcome State Fault Refusal :=
  present (hasTaps s.build)
    (match s.samp.queue with
     | e :: q =>
       if bitOf (s.rd R.CL_CTRL) 1 then
         let s := { s with samp := { s.samp with queue := q } }
         let (r, s) := s.originate 0x38 5 (fld (s.rd R.CL_STREAM) 15 0) (latchBytes e)
         s.emitSample r
       else s
     | [] => s)

/-- What a write of CL_POP does (Table 5-12). -/
def State.clPop (s : State) (v : Nat) : State :=
  if bitOf v 0 && !bitOf (s.rd R.CL_CTRL) 1 then { s with samp := { s.samp with queue := s.samp.queue.drop 1 } } else s

/-- CL_POP (R151). -/
def execClPop (a : Acc) (data : Word) (s : State) : Host.Outcome State Fault Refusal :=
  .next (s.guardedWrite a 0x02120C data.toNat false false (fun s => s.clPop data.toNat))

/-- Live reads of the CMDLATCH page. -/
def State.clLive (s : State) (off : Nat) : Option Nat :=
  if off = 0x200 then some s.samp.queue.length
  else if off = 0x208 then some (s.samp.cmds.foldl (fun a o => a ||| 2 ^ o.stream) 0)
  else if 0x300 ≤ off ∧ off < 0x3C0 then
    match s.samp.queue with
    | e :: _ => some (leAt (latchBytes e) (off - 0x300) 4)
    | [] => some 0
  else none

/-! ### Tensor-watch (R153 to R157) -/

/-- The rounded value that the digest hashes (R155). -/
def twRound (mbits v : Nat) : Nat :=
  if fIsNan b32 v then 0x7FC00000
  else
    let sg := v / 2 ^ 31 * 2 ^ 31
    let m := v % 2 ^ 31
    let d := 23 - mbits
    let m := if d = 0 then m else (m + (2 ^ (d - 1) - 1) + m / 2 ^ d % 2) / 2 ^ d * 2 ^ d
    if m = 0 then 0 else sg + m

/-- The mixing of one rounded value at a position (R156). -/
def twMix (pos r : Nat) : Nat :=
  let m64 := 2 ^ 64
  let x := pos % 2 ^ 32 * 2 ^ 32 + r
  let x := x ^^^ (x / 2 ^ 33)
  let x := x * 0xff51afd7ed558ccd % m64
  let x := x ^^^ (x / 2 ^ 33)
  let x := x * 0xc4ceb9fe1a85ec53 % m64
  x ^^^ (x / 2 ^ 33)

/-- A stream with nothing summarised yet. -/
def Tensor.opened (id ctrl : Nat) (matched : Bool) (stamp : Nat) : Tensor :=
  { id := id, matched := matched, positional := bitOf ctrl 1, emit := bitOf ctrl 2, mbits := fld ctrl 12 8, count := 0, nan := 0, pinf := 0,
    ninf := 0, zero := 0, subn := 0, minV := none, maxV := none, maxAbs := 0, finite := [], digest := 0, pos := 0, lost := false,
    first := stamp, last := stamp }

/-- One valid value (R154, R156). -/
def Tensor.value (t : Tensor) (v : Nat) : Tensor :=
  let t := { t with count := t.count + 1, pos := t.pos + 1,
                    digest := (t.digest + twMix (if t.positional then t.pos else 0) (twRound t.mbits v)) % 2 ^ 64 }
  let a := v % 2 ^ 31
  if fIsNan b32 v then { t with nan := t.nan + 1 }
  else if a = 0x7F800000 then (if v < 2 ^ 31 then { t with pinf := t.pinf + 1 } else { t with ninf := t.ninf + 1 })
  else
    { t with zero := t.zero + b2n (a == 0), subn := t.subn + b2n (0 < a && a < 0x800000),
             minV := match t.minV with
               | none => some v
               | some m => some (if fLt b32 v m then v else m),
             maxV := match t.maxV with
               | none => some v
               | some m => some (if fLt b32 m v then v else m),
             maxAbs := max t.maxAbs a, finite := t.finite ++ [v] }

/-- An order for n terms that the hardware chooses, drawn fresh. -/
def State.drawOrder (s : State) (n : Nat) : List Nat × State := (Config.freeOrder s.free n, { s with free := s.free + 1 })

def State.tensor (s : State) (w : Nat) : Option Tensor := assocD none w (s.samp.tensors.map (fun p => (p.1, some p.2)))

def State.setTensor (s : State) (w : Nat) (t : Tensor) : State := { s with samp := { s.samp with tensors := assocSet w t s.samp.tensors } }
def State.delTensor (s : State) (w : Nat) : State := { s with samp := { s.samp with tensors := assocDel w s.samp.tensors } }

/-- The summary of a tensor (Table 5-4). -/
def tensorBytes (w : Nat) (t : Tensor) (flags sum sq : Nat) : List Byte :=
  let sat := decide (2 ^ 32 ≤ t.count)
  leBytes 2 t.id ++ bytes [w + b2n t.positional * 8 + flags + b2n t.lost * 32 + b2n sat * 128, t.mbits] ++ leBytes 4 (min t.count (2 ^ 32 - 1)) ++
  leBytes 4 t.nan ++ leBytes 4 t.pinf ++ leBytes 4 t.ninf ++ leBytes 4 t.zero ++ leBytes 4 t.subn ++
  leBytes 4 (t.minV.getD 0x7F800000) ++ leBytes 4 (t.maxV.getD 0xFF800000) ++ leBytes 4 t.maxAbs ++ leBytes 8 sum ++ leBytes 8 sq ++
  leBytes 8 t.digest ++ leBytes 8 t.first ++ leBytes 8 t.last

/-- A stream closes its tensor: flags 16 UNTERMINATED, 64 HELD (R153, R154). The halves of TW_ERR saturate (DESIGN CHOICE, log entry 62). -/
def State.tensorClose (s : State) (w flags : Nat) : State :=
  match s.tensor w with
  | none => s
  | some t =>
    let s := s.delTensor w
    if !t.matched then s
    else
      let (o1, s) := s.drawOrder t.finite.length
      let (o2, s) := s.drawOrder t.finite.length
      let terms := t.finite.map f32to64
      let sum := sumBy o1 terms
      let sq := sumBy o2 (terms.map (fun x => fMul b64 x x))
      let n := fOfNat b64 t.finite.length
      let fields := [f32to64 (t.minV.getD 0x7F800000), f32to64 (t.maxV.getD 0xFF800000), f32to64 t.maxAbs, fDiv b64 sum n, fSqrt b64 (fDiv b64 sq n),
        fOfNat b64 t.nan, fOfNat b64 (t.pinf + t.ninf), fOfNat b64 t.count]
      let s := if flags = 0 then { s with samp := { s.samp with summ := assocSet w fields s.samp.summ } } else s
      let s := s.bump R.TW_TENSORS 1 w
      let s := ((s.wr R.TW_LAST_DIGEST_LO (t.digest % 2 ^ 32) w).wr R.TW_LAST_DIGEST_HI (t.digest / 2 ^ 32) w).wr R.TW_LAST_ID t.id w
      let s := if flags = 16 then s.wr R.TW_ERR (setFld (s.rd R.TW_ERR w) 15 0 (satAdd 16 (fld (s.rd R.TW_ERR w) 15 0) 1)) w else s
      let s := if flags = 16 || t.lost then s.irq 0x022 w else s
      if t.emit then
        let (r, s) := s.originate 0x3A 5 (fld (s.rd R.TW_STREAM w) 15 0) (tensorBytes w t flags sum sq)
        s.emitSample r
      else s

/-- A tensor matches TW_MATCH on every bit where the mask is 1, on an enabled stream (R153). -/
def State.tensorMatches (s : State) (w id : Nat) : Bool :=
  let m := s.rd R.TW_MATCH w
  bitOf (s.rd R.TW_CTRL w) 0 && ((id ^^^ fld m 15 0) &&& fld m 31 16) == 0

/-- A beat of stream w lands (R153, R154). In a hold a tensor opens unmatched: none is opened for a summary then (R171). Both halves of TW_ERR
saturate (DESIGN CHOICE, log entry 62). -/
def State.tensorBeat (s : State) (w : Nat) (first last : Bool) (id lanes : Nat) (slots : List Word) : State :=
  let s := if first then
      let s := if (s.tensor w).isSome then s.tensorClose w 16 else s
      s.setTensor w (Tensor.opened id (s.rd R.TW_CTRL w) (s.tensorMatches w id && !s.muster.held) s.stamp)
    else s
  match s.tensor w with
  | none => s.wr R.TW_ERR (setFld (s.rd R.TW_ERR w) 31 16 (satAdd 16 (fld (s.rd R.TW_ERR w) 31 16) 1)) w
  | some t =>
    let t := if t.matched then
        { (((List.range 8).filter (bitOf lanes ·)).foldl (fun t i => t.value (slots.getD i 0).toNat) t) with last := s.stamp }
      else t
    let s := s.setTensor w t
    if last then s.tensorClose w 0 else s

end Sys2Proof.Machine
end

