-- ==== Sys2Proof/Machine/Trace.lean ====
section
/-! DEFINITION. Ownership and context trace: the commands of the TRACE and TRACEBUF pages, items, tokens, the drain, the aggregation
store, and what power and resets do to the record (R337 to R367). -/

namespace Sys2Proof.Machine

/-! ### Starting and stopping (R339, R355) -/

/-- A buffer start: MODE and FORMAT are read and a SYNC of the reason is written. -/
def State.trcStart (s : State) (sync : Nat) : State :=
  let c := s.rd R.TRC_CTRL
  (s.modTrace (fun t => { t with running := true, mode := fld c 3 2, plaram := bitOf c 4, sinceSync := 0, syncAt := s.time.cycles, psyncDue := false })).trcSync sync

/-- A write of TRC_CTRL: EN from 0 to 1 starts a new block, EN to 0 closes the current one. -/
def State.trcCtrl (s : State) (v : Nat) : State :=
  let s := s.wr R.TRC_CTRL (v &&& 0xFF1F)
  let s := if bitOf v 0 then (if s.trace.running then s else s.trcClose.trcStart 0)
    else if s.trace.running then s.exclClose.trcClose.modTrace (fun t => { t with running := false }) else s
  s.trcResume

/-- TRACE_ENABLE (R339): MODE 3 is an invalid value. -/
def execTraceEnable (a : Acc) (data : Word) (s : State) : Host.Outcome State Fault Refusal :=
  .next (s.guardedWrite a 0x024080 data.toNat false (fld data.toNat 3 2 == 3) (fun s => s.trcCtrl data.toNat))

/-- A window is given up (R357). -/
def State.winFree (s : State) (w : Nat) : State :=
  match s.trace.wins.getD w none with
  | some _ => (s.modTrace (fun t => { t with wins := t.wins.set w none })).irq 0x025 0
  | none => s

/-- A write of 1 to TRC_ARM: the buffer and windows are discarded, STOPPED clears and the buffer starts (R355, R357). -/
def State.trcArm (s : State) : State :=
  let s := (List.range 4).foldl (fun (s : State) w => s.winFree w) s.trcClose
  let s := s.trace.blocks.foldl (fun (s : State) b => s.blockLost b) s
  let why := if s.trace.stopped then 3 else if s.trace.summary then 2 else 0
  let s := s.modTrace (fun t => { t with blocks := [], lastIdx := 127, stopped := false, summary := false })
  if !s.trace.running then s
  else
    let c := s.rd R.TRC_CTRL
    let s := s.modTrace (fun t => { t with mode := fld c 3 2, plaram := bitOf c 4, sinceSync := 0, syncAt := s.time.cycles, psyncDue := false })
    if why = 0 then s.trcSync 0 else s.trcGap why 0

/-- TRC_ARM (R339, R355). -/
def execTrcArm (a : Acc) (data : Word) (s : State) : Host.Outcome State Fault Refusal :=
  .next (s.guardedWrite a 0x02408C data.toNat false false (fun s => if bitOf data.toNat 0 then s.trcArm else s))

/-- TRC_TRIG_SW (R356). -/
def execTrcTrigSw (a : Acc) (data : Word) (s : State) : Host.Outcome State Fault Refusal :=
  .next (s.guardedWrite a 0x02409C data.toNat false false (fun s => if bitOf data.toNat 0 then s.trcTrigger (2 ^ 16) else s))

/-! ### Items (R338 to R340, R362) -/

/-- An item lands in the core with TRACE in Run. -/
def State.trcItem (s : State) (i : TItem) : State :=
  if !s.trace.running then s
  else if s.itemExcluded i then
    match s.trace.excl with
    | some _ => s
    | none => s.modTrace (fun t => { t with excl := some s.now })
  else
    let s := if s.trace.lost.any (· != 0) && s.trcCan then
        let (ok, s) := s.trcOverflow 1 0 s.trace.lost s.trace.lastT s.trace.lastCode 1
        if ok then s.modTrace (fun t => { t with lost := List.replicate 5 0 }) else s
      else s
    let s := s.exclClose.itemEncode i
    let m := s.rd R.TRC_MATCH
    if i.cls == fld m 2 0 && ((i.ctx ^^^ fld m 15 8) &&& fld m 23 16) == 0 then s.trcTrigger (2 ^ 21) else s

/-- The counts of items that the crossing did not carry land as sums (R362). -/
def State.trcLost (s : State) (l : List Nat) : State :=
  if l.all (· == 0) then s
  else
    let s := (List.range 5).foldl (fun (s : State) k => if l.getD k 0 = 0 then s else s.bumpSat R.TRC_LOST (l.getD k 0) k) s
    let s := s.irq 0x024 6
    if s.trace.running then s.modTrace (fun t => { t with lost := t.lost.zipIdx.map (fun p => satAdd 32 p.1 (l.getD p.2 0)) }) else s

/-- A trace-source item as the source presents it, where its crossing carries it (R81, R338, R364). -/
def State.trcPresent (s : State) (cls priv ctx data : Nat) : State :=
  let i : TItem := { cls := cls, priv := priv % 4, ctx := ctx % 256, data := data % 2 ^ 64 }
  if 5 ≤ cls then (if bitOf (s.rd R.TRC_CTRL) 0 then s.bumpSat R.TRC_MALFORMED else s)
  else if s.traceDom = 0 then s.trcItem i
  else if !bitOf (s.rd R.TRC_CTRL) 0 then s
  else if s.traceDom = 3 then s.modTrace (fun t => { t with offCounts := modNth t.offCounts cls (satAdd 32 · 1) })
  else if 64 ≤ s.trace.fifo.length then s.trcLost ((List.range 5).map (fun k => b2n (k == cls)))
  else (s.modTrace (fun t => { t with fifo := t.fifo ++ [i] })).wake 4

/-! ### Tokens (R341 to R343) -/

/-- The reason a token is refused, the lowest code that applies; 0 for none (Table 12-2). -/
def State.tokReason (s : State) (l : List Byte) : Nat :=
  let slot := leAt l 4 1
  let scope := leAt l 5 1
  let priv := leAt l 6 1
  let target := leAt l 8 3
  let nb := leAt l 16 10
  let na := leAt l 26 10
  if leAt l 0 4 ≠ 0x32545653 ∨ l.length ≠ 160 ∨ 3 < priv ∨ leAt l 11 1 ≠ 0 ∨ leAt l 36 28 ≠ 0 ∨ 1 < scope then 1
  else
    let key := s.auth.otp.trace.getD slot ⟨0, []⟩
    if 3 < slot ∨ key.st ≠ 1 then 2
    else if !ecdsaOk key.key (l.take 64) (l.drop 64) then 3
    else if (if scope = 0 then target ≠ s.srcId else target / 32 ≠ s.srcId / 32) then 4
    else if na ≤ nb ∨ nb + 86400 * 4294967296 < na ∨ na ≤ s.now then 5
    else if Token.forbidden priv s.auth.floorNow then 6
    else if 8 ≤ s.trace.tokens.length ∧ !(s.trace.tokens.any (fun p => p.2.id == leAt l 12 4)) then 7
    else if s.core.unattended then 8
    else 0

/-- A token is refused (R342). -/
def State.tokRefuse (s : State) (reason id : Nat) : State :=
  let s := if reason = 8 then s.wr R.FW_UA_REFUSED (setFld (s.rd R.FW_UA_REFUSED) 15 8 (satAdd 8 (fld (s.rd R.FW_UA_REFUSED) 15 8) 1)) else s
  ((s.modTrace (fun t => { t with reason := reason })).irq 0x024 4).event 0x602 (bytes [reason, 0, 0, 0] ++ leBytes 4 id)

/-- A token is held, in the place of one with its ID or in the lowest free one. -/
def State.tokHold (s : State) (l : List Byte) : State :=
  let id := leAt l 12 4
  let k : Token := { id := id, key := leAt l 4 1, scope := leAt l 5 1, priv := leAt l 6 1, cls := leAt l 7 1, notBefore := leAt l 16 10,
                     notAfter := leAt l 26 10, st := 0 }
  match s.trace.tokens.find? (fun p => p.2.id == id) with
  | some (e, old) =>
    let s := s.modTrace (fun t => { t with tokens := t.tokens.map (fun (p : Nat × Token) => if p.1 = e then (e, { k with st := old.st }) else p) })
    (s.authChange id 5).tokJudge e
  | none =>
    let e := ((List.range 8).find? (fun i => !(s.trace.tokens.any (fun p => p.1 == i)))).getD 0
    (s.modTrace (fun t => { t with tokens := t.tokens ++ [(e, k)] })).tokJudge e

/-- A write of TRC_TOK_CTRL: ABORT, then BEGIN, then END. -/
def State.tokCtrl (s : State) (v : Nat) : State :=
  let s := if bitOf v 2 then s.modTrace (fun t => { t with load := none, verify := none }) else s
  let s := if bitOf v 0 then
      if s.trace.load.isSome || s.trace.verify.isSome then s.tokRefuse 9 0 else s.modTrace (fun t => { t with load := some [] })
    else s
  if bitOf v 1 then
    match s.trace.load with
    | some l => s.modTrace (fun t => { t with load := none, verify := some l })
    | none => s
  else s

def execTrcTokBegin (a : Acc) (data : Word) (s : State) : Host.Outcome State Fault Refusal :=
  .next (s.guardedWrite a 0x024100 data.toNat false false (fun s => s.tokCtrl data.toNat))

def execTrcTokEnd (a : Acc) (data : Word) (s : State) : Host.Outcome State Fault Refusal :=
  .next (s.guardedWrite a 0x024100 data.toNat false false (fun s => s.tokCtrl data.toNat))

def execTrcTokAbort (a : Acc) (data : Word) (s : State) : Host.Outcome State Fault Refusal :=
  .next (s.guardedWrite a 0x024100 data.toNat false false (fun s => s.tokCtrl data.toNat))

/-- A word of the token; more than 160 bytes only make its length wrong. -/
def State.tokData (s : State) (v : Nat) : State :=
  s.modTrace (fun t => { t with load := t.load.map (fun l => if 160 < l.length then l else l ++ leBytes 4 v) })

/-- TRC_TOK_DATA (R342): an invalid value with no BEGIN. -/
def execTrcTokData (a : Acc) (data : Word) (s : State) : Host.Outcome State Fault Refusal :=
  .next (s.guardedWrite a 0x024104 data.toNat false s.trace.load.isNone (fun s => s.tokData data.toNat))

/-- TOKEN_VERIFY_DONE (R342): within 4 ms of END. -/
def execTokenVerifyDone (s : State) : Host.Outcome State Fault Refusal :=
  .next
    (match s.trace.verify with
     | none => s
     | some l =>
       let why := s.tokReason l
       let s := s.modTrace (fun t => { t with verify := none })
       if why = 0 then s.tokHold l else s.tokRefuse why (leAt l 12 4))

/-- A write of TRC_TOK_REVOKE. -/
def State.tokRevoke (s : State) (id : Nat) : State :=
  match s.trace.tokens.find? (fun p => p.2.id == id) with
  | some p => s.tokRemove p.1
  | none => s

/-- TRC_TOK_REVOKE (R343). -/
def execTrcTokRevoke (a : Acc) (data : Word) (s : State) : Host.Outcome State Fault Refusal :=
  .next (s.guardedWrite a 0x02410C data.toNat false false (fun s => s.tokRevoke data.toNat))

/-- TOKEN_WINDOW_OPEN (R343): fleet time has reached not-before. -/
def execTokenWindowOpen (entry : Nat) (s : State) : Host.Outcome State Fault Refusal :=
  present (decide (entry < 8)) (s.tokJudge entry)

/-- TOKEN_WINDOW_EXPIRY (R343): fleet time has passed not-after. -/
def execTokenWindowExpiry (entry : Nat) (s : State) : Host.Outcome State Fault Refusal :=
  present (decide (entry < 8))
    (match s.trace.tokens.find? (fun p => p.1 == entry) with
     | some p => if p.2.notAfter ≤ s.now then s.tokRemove entry else s
     | none => s)

/-! ### Timers (R352, R354) -/

/-- TRACE_BLOCK_AGE_EXPIRY (R354): BLOCK_AGE × 10 us after the first packet of the current block. -/
def execTraceBlockAgeExpiry (s : State) : Host.Outcome State Fault Refusal :=
  .next
    (let age := fld (s.rd R.TRC_CTRL) 15 8
     match s.trace.current with
     | some b => if age ≠ 0 ∧ s.after b.openAt (10 * age) ∧ !b.data.isEmpty then s.trcClose else s
     | none => s)

/-- PLARAM_PSYNC_TIMEOUT (R352): 128 s without a PSYNC; one precedes the next packet. -/
def execPlaramPsyncTimeout (s : State) : Host.Outcome State Fault Refusal :=
  .next (if s.trace.running && s.trace.plaram && s.after s.trace.syncAt 128000000 then s.modTrace (fun t => { t with psyncDue := true }) else s)

/-! ### The aggregation store (R361) -/

/-- Bytes the store holds: trace records on their way to Selvo-T. -/
def State.aggFill (s : State) : Nat :=
  let items := ((List.range 4).map (fun l => let c := (s.port (36 + l)).tx8 6; c.held ++ c.q)).flatten
  let own := items.filter (fun i => i.r.type == 0x60)
  (own.zipIdx.filter (fun p => !((own.take p.2).any (fun i => i.uid == p.1.uid)))).foldl (fun a p => a + p.1.r.payload.length + 24) 0

/-- Bytes of the store in service. -/
def State.aggCap (s : State) : Nat := s.capOf 5 3 (s.rd R.TB_AGG_SIZE)

def State.aggRoom (s : State) (r : Rec) : Bool := decide (s.aggFill + r.payload.length + 24 ≤ s.aggCap)

/-- A record enters the store and is on its way. -/
def State.aggEnter (s : State) (r : Rec) : State := (s.emitUp r none).bumpSat R.TB_AGG_RECORDS

/-- A trace record of a leaf, taken from a port with its credits: it enters, or waits and withholds them. -/
def State.aggIn (s : State) (port credits : Nat) (r : Rec) : State :=
  if s.trace.agg.isEmpty && s.aggRoom r then s.aggEnter r
  else
    let s := s.withhold port 6 credits
    (s.modTrace (fun t => { t with agg := t.agg ++ [{ port := port, credits := credits, since := s.time.cycles, r := r }] })).irq 0x025 2

/-- AGGREGATION_STORE_ADMIT (R361): the oldest record that waits enters the store once it has room. -/
def execAggregationStoreAdmit (s : State) : Host.Outcome State Fault Refusal :=
  present (s.build == .h)
    (match s.trace.agg with
     | [] => s
     | w :: rest =>
       if !s.aggRoom w.r then s
       else
         let s := s.bumpSat R.TB_AGG_STALL ((s.time.cycles - w.since) / 800)
         let s := s.modTrace (fun t => { t with agg := match rest with
           | x :: r => { x with since := s.time.cycles } :: r
           | [] => [] })
         let s := s.letGo w.port 6 w.credits
         s.aggEnter w.r)

/-! ### The drain (R359, R360, R365) -/

/-- Split a count over the five classes in a way the lost headers do not show. -/
def splitCount (n : Nat) : List Nat → List Nat
  | [] => [n]
  | f :: r => let a := f % (n + 1); a :: splitCount (n - a) r

/-- The flags byte of a block header (Table 12-9). -/
def TBlock.flags (b : TBlock) : Nat := b2n b.plaram + 2 * b2n b.window + 4 * b2n b.trigger + 8 * b2n b.drained

/-- The bytes of a block, header included; the end of a closed one is padding (R353). -/
def TBlock.content (b : TBlock) : List Byte :=
  let n := 4000 - b.data.length
  let pad := if !b.closed then zeros n else if b.plaram then (List.replicate (n / 16) (bytes [0x1F] ++ zeros 15)).flatten else List.replicate n 0x05
  leBytes 4 b.seq ++ leBytes 2 b.items ++ bytes [b.flags, 0] ++ leBytes 8 b.first ++ leBytes 8 b.last ++ zeros 8 ++ b.anchor ++ b.data ++ pad

/-- With DRAIN = 1 a closed window whose blocks are all drained is released (R357). -/
def State.winDrained (s : State) : State :=
  (List.range 4).foldl (fun (s : State) k =>
    match s.trace.wins.getD k none with
    | some w => if w.st == 2 && s.trcDrains && (s.trace.blocks.filter (fun b => w.covers b)).all (fun b => b.drained) then s.winFree k else s
    | none => s) s

/-- Put in front of a surviving block what R359 says: OVERFLOW of reason 6, then the block's anchor. -/
def State.drainGap (s : State) (b : TBlock) (items : Nat) (flags : Nat) : List Byte × State :=
  let (f0, s) := s.draw
  let (f1, s) := s.draw
  let (f2, s) := s.draw
  let (f3, s) := s.draw
  let ov := ovfPackets b.plaram 6 flags (splitCount items [f0, f1, f2, f3]) (s.trace.drainedT / 256) (s.trace.drainedT % 8) (b.first / 256) (b.first % 8)
  (ov.flatten ++ b.anchor.take (if b.plaram then 16 else 64), s)

/-- The next block to drain: the oldest closed one not drained; in unattended mode the oldest of a window (R359, R360). -/
def State.drainNext (s : State) : Option TBlock :=
  s.trace.blocks.reverse.find? (fun b => b.closed && !b.drained && (!s.core.unattended || b.window))

/-- One block leaves as a record, its cost granted. -/
def State.drainBlock (s : State) (b : TBlock) : State :=
  let ua := s.core.unattended
  let passed := if ua then s.trace.blocks.filter (fun x => x.closed && !x.drained && !x.window && decide (x.seq < b.seq) && decide (s.trace.skipSeq ≤ x.seq))
    else []
  let nLost := s.trace.gapBlocks
  let gap := decide (0 < nLost) || !passed.isEmpty
  let items := s.trace.gapItems + (passed.map (fun x => x.items)).foldl (· + ·) 0
  let (pre, s) := if gap then s.drainGap b items (b2n s.trace.gapUnknown + 2 * b2n (!passed.isEmpty)) else ([], s)
  let s := if 0 < nLost then (s.bumpSat R.TB_OVERWRITTEN nLost).irq 0x025 1 else s
  let s := if passed.isEmpty then s else s.bumpSat R.FW_UA_TRACE_SKIP passed.length
  let s := s.modTrace (fun t => { t with
                                    gapBlocks := 0, gapItems := 0, gapUnknown := false, drainedT := b.last,
                                    skipSeq := if ua then b.seq else t.skipSeq,
                                    blocks := t.blocks.map (fun (x : TBlock) => if x.seq = b.seq then { x with drained := true } else x) })
  let body := leBytes 4 b.seq ++ bytes [b2n b.plaram + 2 * b2n b.window + 4 * b2n gap + 8 * b2n ua, 0, 0, 0] ++ leBytes 2 b.items ++ zeros 6 ++ pre ++ b.data
  let (r, s) := s.originate 0x60 6 (fld (s.rd R.TRC_STREAM) 15 0) body
  let s := if s.build = .h then s.aggEnter r else s.emitUp r none
  s.winDrained.trcResume

/-- TRACE_DRAIN_BLOCK (R359, R361, R365): `bad` is empty, or names an uncorrectable word that the drain meets in the block: 1 in its
packet area or 2 in its header, then memory kind, instance, bank and word address. -/
def execTraceDrainBlock (bad : List Nat) (s : State) : Host.Outcome State Fault Refusal :=
  present (hasTaps s.build)
    (if !s.trcDrains || !s.inRun 4 then s
     else
       match s.drainNext with
       | none => s
       | some b =>
         if !bad.isEmpty then
           let s := s.badWord (bad.drop 1)
           (s.modTrace (fun t => { t with
                                    gapBlocks := t.gapBlocks + 1, gapItems := t.gapItems + b.items, gapUnknown := t.gapUnknown || bad.getD 0 0 == 2,
                                    blocks := t.blocks.map (fun (x : TBlock) => if x.seq = b.seq then { x with drained := true } else x) })).winDrained.trcResume
         else if s.build == .h && (!s.trace.agg.isEmpty || decide (s.aggCap < s.aggFill + b.data.length + 40)) then s
         else
           match s.grant 5 (s.costTrace (b.data.length + 40)) with
           | none => s
           | some s => s.drainBlock b)

/-- A write of TB_WIN_RELEASE. -/
def State.tbRelease (s : State) (v : Nat) : State :=
  ((List.range 4).foldl (fun (s : State) w => if bitOf v w then s.winFree w else s) s).trcResume

/-- TB_WIN_RELEASE (R357, R367). -/
def execTbWinRelease (a : Acc) (data : Word) (s : State) : Host.Outcome State Fault Refusal :=
  .next (s.guardedWrite a 0x0250E0 data.toNat false false (fun s => s.tbRelease data.toNat))

/-! ### Power and resets (R364, Table 12-12) -/

/-- TRACE leaves Run for Retain or Off: the open interval and the block close (R354, R364). -/
def State.traceLeave (s : State) : State := s.exclClose.trcClose

/-- TRACE has lost its memory. -/
def State.traceLose (s : State) : State :=
  s.modTrace (fun t => { TraceSt.reset with running := t.running, nextSeq := t.nextSeq, lastT := t.lastT, lastCode := t.lastCode, trigNum := t.trigNum,
                                            held := t.held, offAt := s.now, lost := t.lost, agg := t.agg })

/-- TRACE is back in Run from Drowse (1), Retain (2) or Off (3). -/
def State.traceBack (s : State) (was : Nat) : State :=
  let s := if !bitOf (s.rd R.TRC_CTRL) 0 then s
    else if was = 2 then
      let s := s.trcSync 2
      -- a hold that ended meanwhile is reported now
      if s.trcCan && s.trace.gap.any (· != 0) then s.trcGap 4 5 else s
    else if was = 3 then
      let c := s.rd R.TRC_CTRL
      let n := s.trace.offCounts
      let s := s.modTrace (fun t => { t with running := true, mode := fld c 3 2, plaram := bitOf c 4, syncAt := s.time.cycles })
      let (ok, s) := s.trcOverflow 5 0 n s.trace.offAt s.trace.lastCode 2
      if ok then s.modTrace (fun t => { t with offCounts := List.replicate 5 0 }) else s
    else s
  let items := s.trace.fifo
  items.foldl (fun (s : State) i => s.trcItem i) (s.modTrace (fun t => { t with fifo := [] }))

/-- After a warm reset: the buffer starts anew, its gap not known. -/
def State.traceWarm (s : State) : State :=
  if !bitOf (s.rd R.TRC_CTRL) 0 then s
  else
    let c := s.rd R.TRC_CTRL
    let s := s.modTrace (fun t => { t with running := true, mode := fld c 3 2, plaram := bitOf c 4, syncAt := s.time.cycles })
    (s.trcOverflow 7 1 (List.replicate 5 0) s.trace.lastT s.trace.lastCode 0).2

/-- The tap island of the trace source was reset without quiesce. -/
def State.traceTapReset (s : State) : State :=
  if s.trace.running then (s.trcOverflow 1 1 (List.replicate 5 0) s.trace.lastT s.trace.lastCode 1).2 else s

/-! ### Live reads (Tables 12-13 and 12-14) -/

def State.tracePageLive (s : State) (off : Nat) : Option Nat :=
  let t := s.trace
  let sel := fld (s.rd R.TRC_TOK_SEL) 2 0
  let k := (t.tokens.find? (fun p => p.1 == sel)).map (fun p => p.2)
  let f (g : Token → Nat) : Option Nat := some (match k with
    | some k => g k
    | none => 0)
  if off = 0x088 then
    some (b2n (t.running && !t.stopped) + 2 * b2n t.stopped + 4 * b2n t.summary + 8 * b2n t.held + 16 * b2n t.excl.isSome + 32 * b2n s.core.unattended +
      64 * b2n t.winOpen + 256 * (t.wins.filter (fun w => w.isSome)).length + 65536 * s.auth.floorNow)
  else if off = 0x108 then some (b2n (t.load.isSome || t.verify.isSome) + 2 * b2n t.verify.isSome + 256 * t.reason + 65536 * t.tokens.length)
  else if off = 0x114 then f (fun k => k.id)
  else if off = 0x118 then
    f (fun k => k.cls + 256 * k.priv + 1024 * k.scope + 2048 * b2n (k.st == 1) + 4096 * b2n (k.st == 2) + 2147483648)
  else if off = 0x11C then f (fun k => k.notAfter / 2 ^ 32 % 2 ^ 32)
  else if off = 0x120 then f (fun k => k.notAfter / 2 ^ 64)
  else none

def State.traceBufLive (s : State) (off : Nat) : Option Nat :=
  let t := s.trace
  let wr := if t.blocks.isEmpty then 0 else t.lastIdx
  let sel := fld (s.rd R.TB_READ_SEL) 7 0
  let b := t.blocks.find? (fun b => b.idx == sel / 2)
  if off = 0x084 then some wr
  else if off = 0x088 then some (match t.blocks.reverse.find? (fun b => b.closed && !b.drained) with
    | some b => b.idx
    | none => wr)
  else if off = 0x08C then some (s.freeBlocks * 4096)
  else if off = 0x094 then some (match b with
    | some b => b.items % 65536 + 65536 * b.flags + 16777216 * (b.seq % 256)
    | none => 0)
  else if 0x0A0 ≤ off ∧ off < 0x0E0 then
    let o := off % 16
    match t.wins.getD ((off - 0x0A0) / 16) none with
    | none => some 0
    | some w =>
      if o = 0 then some (w.st + 4 * b2n w.short + 8 * b2n w.clipped + 256 * w.firstIdx + 65536 * (if w.st = 1 then wr else w.lastIdx))
      else if o = 4 then some w.num
      else if o = 8 then some (w.stamp % 2 ^ 32)
      else some (w.stamp / 2 ^ 32)
  else if off = 0x104 ∧ s.build = .h then some s.aggFill
  else if 0x800 ≤ off then some (match b with
    | some b => leAt b.content (sel % 2 * 2048 + (off - 0x800)) 4
    | none => 0)
  else none

end Sys2Proof.Machine
end

