-- ==== Sys2Proof/Machine/Eth.lean ====
section
/-! DEFINITION. Publication datagrams and sessions: what a session sends, and what an acknowledgement settles (R459 to R462). -/

namespace Sys2Proof.Machine

/-- An Ethernet port carries frames: enabled and up. -/
def State.ethOk (s : State) (p : Nat) : Bool := s.pub.ethUp.getD p false && bitOf (s.rd R.ETH_CTRL (pg := p)) 0

/-- The entries that take a record of a class: enabled, no peer, and the class in their mask (R461). -/
def State.takers (s : State) (tc : Nat) : List Nat :=
  if tc = 1 ∨ tc = 2 then []
  else (List.range 8).filter (fun e => s.colOn e && !s.colPeer e && bitOf (s.colCtrl e) (8 + tc))

/-- The 32-byte header of a datagram (Table 17-4). -/
def pubHdr (type flags n src session dseq ack : Nat) : List Byte :=
  bytes [0x53, 0x50, 1, type, flags, n, 0, 0] ++ leBytes 3 src ++ zeros 1 ++ leBytes 4 session ++ leBytes 8 dseq ++ leBytes 8 ack

/-- Send a datagram of an entry by the port its session uses; DATA has the class of its records. -/
def State.ethOut (s : State) (kind e : Nat) (tc : Option Nat) (payload : List Byte) : State :=
  s.sendFrame kind (s.sess e).port e tc payload

/-- PUB_RTO in µs and PUB_DEAD in ms. -/
def State.pubRto (s : State) : Nat := max 1 (fld (s.rd R.PUB_TIMERS) 15 0)
def State.pubDead (s : State) : Nat := max 1 (fld (s.rd R.PUB_TIMERS) 31 16)
def State.pubWindow (s : State) : Nat := max 1 (fld (s.rd R.PUB_WINDOW) 15 0)

/-- Record bytes a datagram of a port holds: the MTU less the IPv6, UDP and Selvo headers, in whole words. -/
def State.dgramRoom (s : State) (p : Nat) : Nat := (fld (s.rd R.ETH_MTU (pg := p)) 13 0 - 80) / 4 * 4

/-- A record as a datagram holds it: manifest and payload, padded to 4 bytes. -/
def padded (r : Rec) : List Byte := padTo ((r.payload.length + 24 + 3) / 4 * 4) (packet r)

/-- The class of a record is paused at a port (R459). -/
def State.clsPaused (s : State) (p tc : Nat) : Bool :=
  (s.link.paused.getD p []).contains (fld (s.rd R.ETH_PRIO_MAP (pg := p)) (3 * tc + 2) (3 * tc))

/-- The shaper of a class at an Ethernet port, TRAFFIC port 18 or 19, has tokens; TC0 has none to spend (R235, R459). -/
def State.ethTokens (s : State) (p tc : Nat) : Bool := tc == 0 || decide (0 < s.tokensNow (18 + p) tc)

/-- The class of the records in a datagram. -/
def State.dgramTc (s : State) (d : Dgram) : Option Nat :=
  (s.pub.store.find? (fun x => d.uids.contains x.uid)).map (fun x => x.r.tc)

/-- The bytes of a DATA datagram. -/
def State.dataBytes (s : State) (e : Nat) (d : Dgram) : List Byte :=
  let recs := d.uids.map (fun u => match s.pub.store.find? (fun x => x.uid == u) with
    | some x => if d.len = 0 then padded x.r else ((padded x.r).drop d.off).take d.len
    | none => [])
  pubHdr 1 d.flags recs.length s.srcId (s.sess e).id d.dseq 0 ++ recs.flatten

/-- The record a session sends next: the rest of the one in fragments, else the oldest of the highest class that is not paused. -/
def State.pubNext (s : State) (e : Nat) : Option PubItem :=
  let q := s.sess e
  let items := q.todo.filterMap (fun u => s.pub.store.find? (fun x => x.uid == u))
  if q.fragOff ≠ 0 then items.head?.filter (fun x => s.ethTokens q.port x.r.tc)
  else
    let ok := items.filter (fun x => !s.clsPaused q.port x.r.tc && s.ethTokens q.port x.r.tc)
    ((List.range 8).findSome? (fun c => ok.find? (fun x => x.r.tc == c)))

/-- Send one datagram of a record: the whole record, or its next fragment (R460). -/
def State.pubOne (s : State) (e : Nat) (x : PubItem) : State :=
  let q := s.sess e
  let len := (padded x.r).length
  let room := s.dgramRoom q.port
  let base := (if x.takeover then 4 else 0) + (if s.colPeer e then 8 else 0)
  let whole := q.fragOff = 0 ∧ len ≤ room
  let n := min room (len - q.fragOff)
  let last := q.fragOff + n = len
  let d : Dgram := if whole then { dseq := q.next, uids := [x.uid], flags := base, off := 0, len := 0 }
    else { dseq := q.next, uids := [x.uid], flags := base + (if q.fragOff = 0 then 1 else 0) + (if last then 2 else 0), off := q.fragOff, len := n }
  let s := (s.ethOut 1 e (some x.r.tc) (s.dataBytes e d)).charge (18 + q.port) x.r.tc (32 + n)
  let rest := q.todo.filter (· != x.uid)
  s.modSess e (fun q => { q with next := (q.next + 1) % 2 ^ 64, out := q.out ++ [d], todo := if whole ∨ last then rest else x.uid :: rest,
                                 fragOff := if whole ∨ last then 0 else q.fragOff + n,
                                 rtoAt := if q.out.isEmpty then s.time.cycles else q.rtoAt, advAt := if q.out.isEmpty then s.time.cycles else q.advAt })

/-- A session sends what its window, its port and the pauses allow; a port whose group idles is woken (R459, R462). -/
def State.pubPump : Nat → Nat → State → State
  | 0, _, s => s
  | n + 1, e, s =>
    let q := s.sess e
    if q.st ≠ 2 ∨ q.todo.isEmpty ∨ s.pubWindow ≤ q.out.length ∨ !s.ethOk q.port then s
    else if !s.inRun (9 + q.port) then s.wake (9 + q.port)
    else
      match s.pubNext e with
      | some x => State.pubPump n e (s.pubOne e x)
      | none => s

/-- Every record of a session takes at most 55 fragments. -/
def State.pump (s : State) (e : Nat) : State := State.pubPump (s.pubWindow + 1) e s

/-- Every session of an Ethernet port goes on. -/
def State.pumpPort (s : State) (p : Nat) : State := (List.range 8).foldl (fun (s : State) e => if (s.sess e).port = p then s.pump e else s) s

/-- Put a record into the store for a set of entries, and send what can be sent. -/
def State.pubAdd (s : State) (x : PubItem) : State :=
  let s := s.modPub (fun p => { p with store := p.store ++ [x] })
  x.need.foldl (fun (s : State) e => (s.modSess e (fun q => { q with todo := q.todo ++ [x.uid] })).pump e) s

/-! ### Peer sessions (R464) -/

/-- Hand a convoy packet to the peer session of a neighbour, under the name of its fate. -/
def State.peerSend (s : State) (p uid : Nat) (r : Rec) : State :=
  match s.peerEntry p with
  | some e => s.pubAdd { uid := uid, r := r, mirror := false, takeover := false, need := [e] }
  | none => s

/-! ### Contexts (R454) -/

/-- A record of a context has been acknowledged by every session that takes it. `later` are the sequences of the context still held:
the cursor passes what the member never held. -/
def PubCtx.acked (x : PubCtx) (seq : Nat) (open_ : List Nat) : PubCtx :=
  let done := seq :: x.held
  match open_ with
  | [] => { x with c := done.foldl (fun a b => if laterThan b a then b else a) x.c, held := [], changed := true }
  | o :: os =>
    let first := os.foldl (fun a b => if laterThan a b then b else a) o
    let below := done.filter (fun b => laterThan first b)
    { x with c := below.foldl (fun a b => if laterThan b a then b else a) x.c, held := done.filter (fun b => !laterThan first b), changed := true }

/-- The stamp of the last record of a stream that the pair is known to have published, as the mirrored cursor follows it (R64, R66). -/
def State.pubLast (s : State) (r : Rec) : State :=
  if s.build == .t && (s.core.straps % 4 == 1 || s.core.straps % 4 == 2) then s.modPub (fun p => { p with last := assocSet r.stream r.stamp p.last }) else s

/-- A record leaves the store, settled: the cursor of its context follows. -/
def State.ctxAcked (s : State) (r : Rec) : State :=
  let s := s.pubLast r
  let open_ := (s.pub.store.filter (fun x => x.r.source == r.source && x.r.stream == r.stream && x.r.seq != r.seq && !x.need.isEmpty)).map (fun x => x.r.seq)
  s.modPub (fun p => { p with
    ctxs := p.ctxs.map (fun x => if x.source = r.source ∧ x.stream = r.stream then x.acked r.seq open_ else x),
    back := p.back.map (fun x => if x.source = r.source ∧ x.stream = r.stream then x.acked r.seq open_ else x) })

/-! ### Acknowledgements (R462) -/

/-- Every datagram of a record that a session sent has been acknowledged: the record no longer waits for that session; when it waits
for none it is delivered and leaves the store. -/
def State.pubSettle (s : State) (e uid : Nat) : State :=
  match s.pub.store.find? (fun x => x.uid == uid) with
  | none => s
  | some x =>
    let need := x.need.filter (· != e)
    if need.isEmpty then
      let s := (s.modPub (fun p => { p with store := p.store.filter (fun y => y.uid != uid) })).ctxAcked x.r
      (s.bcastAcked uid).fateDelivered uid
    else s.modPub (fun p => { p with store := p.store.map (fun y => if y.uid = uid then { y with need := need } else y) })

/-- The cumulative point of a session rises to ack: records whose every datagram lies at or below it are settled. -/
def State.pubAdvance (s : State) (e ack : Nat) : State :=
  let q := s.sess e
  let out := q.out.filter (fun d => decide (ack < d.dseq))
  let gone := ((q.out.filter (fun d => decide (d.dseq ≤ ack))).map (fun d => d.uids)).flatten.eraseDups
  let done := gone.filter (fun u => !out.any (fun d => d.uids.contains u) && !q.todo.contains u)
  let s := s.modSess e (fun q => { q with ack := ack, out := out, uncounted := q.uncounted - (q.out.length - out.length), rto := s.pubRto, rtoAt := s.time.cycles, advAt := s.time.cycles })
  (done.foldl (fun (s : State) u => s.pubSettle e u) s).pump e

/-- A record is no longer held for an entry that has been disabled: dropped link-down when no other session takes it (R462). -/
def State.pubForget (s : State) (e : Nat) : State :=
  (s.pub.store.filter (fun x => x.need.contains e)).foldl (fun (s : State) x =>
    let need := x.need.filter (· != e)
    if need.isEmpty then
      (State.ctxAcked (s.modPub (fun p => { p with store := p.store.filter (fun y => y.uid != x.uid) })) x.r).fateLost x.uid 1
    else s.modPub (fun p => { p with store := p.store.map (fun y => if y.uid = x.uid then { y with need := need } else y) })) s

end Sys2Proof.Machine
end

