-- ==== Sys2Proof/Machine/ConvoyFmt.lean ====
section
/-! DEFINITION. Convoy packets: the header of Table 6-4, the operators and payloads of Table 6-5, merging, and the quantile estimate
(R185, R187 to R196). -/

namespace Sys2Proof.Machine

/-- The convoy header (Table 6-4). -/
structure CHdr where
  epoch : Nat
  op : Nat
  ty : Nat
  par : Nat
  dir : Bool
  flags : Nat
  height : Nat
  pairB : Bool
  contributors : Nat
  missing : Nat
  merged : Nat
  depth : Nat
  dropped : List Nat
  gen : Nat
  bitmap : Nat
  deriving DecidableEq, Repr

/-- Header flags (Table 6-4, byte 6). -/
def fPartial : Nat := 1
def fEmpty : Nat := 2
def fDisc : Nat := 4
def fSat : Nat := 8
def fForced : Nat := 16
def fResent : Nat := 32
def fRelayed : Nat := 64
def fAdopted : Nat := 128

/-- The header that a convoy payload begins with. -/
def parseHdr (p : List Byte) : CHdr :=
  let b4 := leAt p 4 1
  let b5 := leAt p 5 1
  let b7 := leAt p 7 1
  { epoch := leAt p 0 4, op := fld b4 3 0, ty := fld b4 5 4, par := fld b5 4 0, dir := bitOf b5 5, flags := leAt p 6 1,
    height := fld b7 3 0, pairB := bitOf b7 4, contributors := leAt p 8 4, missing := leAt p 12 4, merged := leAt p 16 4,
    depth := leAt p 20 1, dropped := (List.range 8).map (fun i => leAt p (24 + 4 * i) 4), gen := leAt p 56 4, bitmap := leAt p 64 16 }

/-- The 80 bytes of a header and its bitmap. -/
def hdrBytes (h : CHdr) : List Byte :=
  leBytes 4 h.epoch ++ bytes [h.op % 16 + h.ty % 4 * 16, h.par % 32 + b2n h.dir * 32, h.flags % 256, h.height % 16 + b2n h.pairB * 16] ++
  leBytes 4 h.contributors ++ leBytes 4 h.missing ++ leBytes 4 h.merged ++ bytes [min h.depth 255] ++ zeros 3 ++
  (h.dropped.map (fun d => leBytes 4 (min d (2 ^ 32 - 1)))).flatten ++ leBytes 4 h.gen ++ zeros 4 ++ leBytes 16 h.bitmap

/-- What a payload carries: lanes or counts, sums of absolute values, the NaN count, ranked entries (value, ID), E0 of HIST_LOG. -/
structure Pay where
  vals : List Nat
  abs : List Nat
  nan : Nat
  ents : List (Nat × Nat)
  e0 : Int
  deriving DecidableEq, Repr

def Pay.of (vals abs : List Nat) (nan : Nat) (ents : List (Nat × Nat)) : Pay := { vals := vals, abs := abs, nan := nan, ents := ents, e0 := 0 }

def allOnes256 : Nat := 2 ^ 256 - 1

/-- The identity of an operator (Table 6-5): MIN and MAX hold no entry. -/
def identity (op par : Nat) (e0 : Int) : Pay :=
  { vals := if op = 1 ∨ op = 2 then List.replicate par 0 else if op = 6 then List.replicate 514 0 else if op = 7 then [0, 0, 0]
      else if op = 8 then List.replicate par 0 else if op = 9 then List.replicate par allOnes256 else if op = 0xA then [0] else [],
    abs := if op = 2 then List.replicate par 0 else [], nan := 0, ents := [], e0 := e0 }

/-- The ordered key of a 64-bit value (R191). -/
def ordKey (ty v : Nat) : Nat :=
  if ty = 2 then
    let v := if v = 2 ^ 63 then 0 else v
    if v < 2 ^ 63 then v + 2 ^ 63 else 2 ^ 64 - 1 - v
  else if ty = 1 then (v + 2 ^ 63) % 2 ^ 64
  else v

/-- The identity value of MIN and MAX (Table 6-5). -/
def extremeId (op ty : Nat) : Nat :=
  if op = 3 then (if ty = 2 then 0x7FF0000000000000 else if ty = 1 then 2 ^ 63 - 1 else 2 ^ 64 - 1)
  else (if ty = 2 then 0xFFF0000000000000 else if ty = 1 then 2 ^ 63 else 0)

/-- Entry a ranks before entry b: smallest or largest key first, ties by lower ID (R191). -/
def rankLt (ty : Nat) (smallest : Bool) (a b : Nat × Nat) : Bool :=
  let ka := ordKey ty a.1
  let kb := ordKey ty b.1
  if ka = kb then decide (a.2 < b.2) else if smallest then decide (ka < kb) else decide (kb < ka)

/-- Insert an entry in rank order; of two entries with one ID the better stays (R192). -/
def rankIns (ty : Nat) (smallest : Bool) (x : Nat × Nat) : List (Nat × Nat) → List (Nat × Nat)
  | [] => [x]
  | y :: r => if rankLt ty smallest x y then x :: (y :: r).filter (fun z => z.2 != x.2) else if y.2 = x.2 then y :: r else y :: rankIns ty smallest x r

/-- The length of a payload of an operator (Table 6-5); `n` the entries of a TOPK list. -/
def payLen (op par n : Nat) : Nat :=
  if op = 1 then 8 * par else if op = 2 then 16 * par + 8 else if op = 3 ∨ op = 4 then 16 else if op = 5 then 8 + 16 * n
  else if op = 6 then 2064 else if op = 7 then 32 else if op = 8 ∨ op = 9 then 32 * par else 8

/-- A NaN of any pattern is the canonical one (R9). -/
def canon64 (v : Nat) : Nat := if fIsNan b64 v then b64.nan else v

/-- A payload with every NaN canonical, so that what a unit writes of its inputs is (R9). -/
def Pay.canon (op ty : Nat) (p : Pay) : Pay :=
  if op = 2 then { p with vals := p.vals.map canon64, abs := p.abs.map canon64 }
  else if op = 7 then { p with vals := (p.vals.take 1) ++ (p.vals.drop 1).map canon64 }
  else if ty = 2 then { p with ents := p.ents.map (fun e => (canon64 e.1, e.2)) }
  else p

/-- The fields of a payload (Table 6-5). -/
def readPay (op ty par : Nat) (l : List Byte) : Pay :=
  if op = 1 then Pay.of ((List.range par).map (fun i => leAt l (8 * i) 8)) [] 0 []
  else if op = 2 then
    Pay.of ((List.range par).map (fun i => leAt l (16 * i) 8)) ((List.range par).map (fun i => leAt l (16 * i + 8) 8)) (leAt l (16 * par) 4) []
  else if op = 3 ∨ op = 4 then
    let id := leAt l 8 3
    Pay.of [] [] (leAt l 12 4) (if id = 0xFFFFFF ∧ leAt l 0 8 = extremeId op ty then [] else [(leAt l 0 8, id)])
  else if op = 5 then
    Pay.of [] [] (leAt l 4 4) ((List.range (leAt l 0 4)).map (fun i => (leAt l (8 + 16 * i) 8, leAt l (16 + 16 * i) 4)))
  else if op = 6 then
    { vals := leAt l 4 4 :: leAt l 8 4 :: (List.range 512).map (fun i => leAt l (16 + 4 * i) 4), abs := [], nan := leAt l 12 4, ents := [],
      e0 := sgnN 16 (leAt l 0 2) }
  else if op = 7 then Pay.of [leAt l 0 8, leAt l 8 8, leAt l 16 8] [] (leAt l 24 4) []
  else if op = 8 ∨ op = 9 then Pay.of ((List.range par).map (fun i => leAt l (32 * i) 32)) [] 0 []
  else Pay.of [leAt l 0 8] [] 0 []

/-- Read a payload (Table 6-5, R9). -/
def parsePay (op ty par : Nat) (l : List Byte) : Pay := (readPay op ty par l).canon op ty

/-- Write a payload (Table 6-5). -/
def payBytes (op ty : Nat) (p : Pay) : List Byte :=
  if op = 1 ∨ op = 0xA then (p.vals.map (leBytes 8)).flatten
  else if op = 2 then ((p.vals.zip p.abs).map (fun x => leBytes 8 x.1 ++ leBytes 8 x.2)).flatten ++ leBytes 4 p.nan ++ zeros 4
  else if op = 3 ∨ op = 4 then
    let e := p.ents.headD (extremeId op ty, 0xFFFFFF)
    leBytes 8 e.1 ++ leBytes 4 e.2 ++ leBytes 4 p.nan
  else if op = 5 then
    leBytes 4 p.ents.length ++ leBytes 4 p.nan ++ (p.ents.map (fun e => leBytes 8 e.1 ++ leBytes 4 e.2 ++ zeros 4)).flatten
  else if op = 6 then
    leBytes 2 (unsN 16 p.e0) ++ zeros 2 ++ leBytes 4 (p.vals.getD 0 0) ++ leBytes 4 (p.vals.getD 1 0) ++ leBytes 4 p.nan ++
    ((p.vals.drop 2).map (leBytes 4)).flatten
  else if op = 7 then (p.vals.map (leBytes 8)).flatten ++ leBytes 4 p.nan ++ zeros 4
  else (p.vals.map (leBytes 32)).flatten

/-! ### Sums in a balanced tree (R193) -/

/-- ⌈log₂ n⌉, 0 for n ≤ 1. -/
def clog2 (n : Nat) : Nat := if n ≤ 1 then 0 else (n - 1).log2 + 1

/-- A permutation of a list that free numbers choose. -/
def permBy {α : Type} : Nat → List Nat → List α → List α
  | 0, _, _ => []
  | k + 1, order, l =>
    let i := order.headD 0 % l.length
    match l[i]? with
    | some x => x :: permBy k order.tail (l.eraseIdx i)
    | none => []

/-- One level of a binary tree: neighbours join, an absent one is neutral. -/
def pairUp : List (Option Nat) → List (Option Nat)
  | a :: b :: r =>
    (match a, b with
      | some x, some y => some (fAdd b64 x y)
      | some x, none => some x
      | none, y => y) :: pairUp r
  | l => l

def treeLevels : Nat → List (Option Nat) → Option Nat
  | 0, l => l.headD none
  | k + 1, l => treeLevels k (pairUp l)

/-- A binary64 sum of n terms in a tree of depth ⌈log₂ n⌉, its shape and order chosen by free numbers; +0 for no terms. -/
def treeSum (order : List Nat) (l : List Nat) : Nat :=
  let d := clog2 l.length
  let slots := l.map some ++ List.replicate (2 ^ d - l.length) none
  (treeLevels d (permBy slots.length order slots)).getD 0

/-! ### Merging (R189 to R196) -/

/-- Lane i of a list of payloads. -/
def lane (l : List Pay) (f : Pay → List Nat) (i : Nat) : List Nat := l.map (fun p => (f p).getD i 0)

/-- Merge payloads of one operator: the result, and whether a count or sum saturated. -/
def mergePays (op ty par : Nat) (dir : Bool) (e0 : Int) (order : List Nat) (l : List Pay) : Pay × Bool :=
  let nan := l.foldl (fun a p => a + p.nan) 0
  let nan32 := min nan (2 ^ 32 - 1)
  let satSum (w : Nat) (n : Nat) : List Nat × Bool :=
    let sums := (List.range n).map (fun i => (lane l Pay.vals i).foldl (· + ·) 0)
    (sums.map (fun x => min x (2 ^ w - 1)), sums.any (fun x => decide (2 ^ w ≤ x)))
  if op = 1 then let (v, b) := satSum 64 par; (Pay.of v [] 0 [], b)
  else if op = 2 then
    (Pay.of ((List.range par).map (fun i => treeSum order (lane l Pay.vals i))) ((List.range par).map (fun i => treeSum order (lane l Pay.abs i))) nan32 [],
     decide (2 ^ 32 ≤ nan))
  else if op = 3 ∨ op = 4 ∨ op = 5 then
    let smallest := op = 3 || (op = 5 && dir)
    let k := if op = 5 then par else 1
    (Pay.of [] [] nan32 (((l.map Pay.ents).flatten.foldl (fun acc e => rankIns ty smallest e acc) []).take k), decide (2 ^ 32 ≤ nan))
  else if op = 6 then
    let (v, b) := satSum 32 514
    ({ Pay.of v [] nan32 [] with e0 := e0 }, b || decide (2 ^ 32 ≤ nan))
  else if op = 7 then
    (Pay.of [(lane l Pay.vals 0).foldl (· + ·) 0 % 2 ^ 64, treeSum order (lane l Pay.vals 1), treeSum order (lane l Pay.vals 2)] [] nan32 [],
     decide (2 ^ 32 ≤ nan))
  else if op = 8 then (Pay.of ((List.range par).map (fun i => (lane l Pay.vals i).foldl (· ||| ·) 0)) [] 0 [], false)
  else if op = 9 then (Pay.of ((List.range par).map (fun i => (lane l Pay.vals i).foldl (· &&& ·) allOnes256)) [] 0 [], false)
  else let (v, b) := satSum 64 1; (Pay.of v [] 0 [], b)

/-! ### Contributions (R185, R191, R194, R196) -/

/-- A source's value before conversion (Table 6-3). -/
inductive SrcVal where
  | nat (v : Nat)
  | f32 (v : Nat)
  | bit (pos : Nat)
  /-- a pattern of the stream's own type -/
  | raw (v : Nat)
  | tallies (l : List Nat)
  deriving DecidableEq, Repr

/-- The value as a 64-bit pattern of the stream's type (R185). -/
def SrcVal.conv (ty : Nat) : SrcVal → Nat
  | .nat v => if ty = 2 then fOfNat b64 v else v % 2 ^ 64
  | .f32 v => f32to64 v
  | .bit pos => if ty = 2 then fOfNat b64 (2 ^ pos) else 2 ^ pos % 2 ^ 64
  | .raw v => v % 2 ^ 64
  | .tallies l => l.headD 0

/-- Where HIST_LOG places a value (R194): index 0 below, 1 above, 2 + bucket otherwise. -/
def histPlace (e0 : Int) (x : Nat) : Nat :=
  let e : Int := (fld x 62 52 : Int) - 1023
  if 2 ^ 63 ≤ x ∨ e < e0 then 0 else if e0 + 32 ≤ e then 1 else 2 + 16 * (e - e0).toNat + fld x 51 48

/-- The payload of one contribution (R185, R194, R196). -/
def ownPay (op ty par : Nat) (e0 : Int) (id : Nat) (sv : SrcVal) : Pay :=
  let v := sv.conv ty
  let isNan := ty == 2 && fIsNan b64 v
  let base := identity op par e0
  if op = 1 then
    match sv with
    | .tallies l => { base with vals := (List.range par).map (fun i => l.getD i 0 % 2 ^ 64) }
    | _ => { base with vals := base.vals.set 0 v }
  else if op = 8 ∨ op = 9 then
    match sv with
    | .bit pos => { base with vals := (List.range par).map (fun i => 2 ^ pos / 2 ^ (256 * i) % 2 ^ 256) }
    | _ => { base with vals := (List.range par).map (fun i => if i = 0 then v else 0) }
  else if op = 0xA then { base with vals := [if isNan then 0 else if ty = 2 then b2n (v % 2 ^ 63 != 0) else b2n (v != 0)] }
  else if isNan then { base with nan := 1 }
  else if op = 2 then { base with vals := base.vals.set 0 v, abs := base.abs.set 0 (fAbs b64 v) }
  else if op = 3 ∨ op = 4 ∨ op = 5 then { base with ents := [(v, id)] }
  else if op = 6 then { base with vals := base.vals.set (histPlace e0 v) 1 }
  else { base with vals := [1, v, fMul b64 v v] }

/-! ### Quantiles (R195) -/

/-- Walk the buckets to the one that holds a rank counted from 1. -/
def findRank : Nat → Nat → List Nat → Option Nat
  | _, _, [] => none
  | i, r, c :: rest => if r ≤ c then some i else findRank (i + 1) (r - c) rest

/-- The quantile estimate at p = (par + 1) / 256, in binary64; NaN where none is bound. -/
def quantile (p : Pay) (par : Nat) : Nat :=
  let below := p.vals.getD 0 0
  let buckets := p.vals.drop 2
  let n := below + p.vals.getD 1 0 + buckets.foldl (· + ·) 0
  let r := ((par + 1) * n + 255) / 256
  if r ≤ below then b64.nan
  else
    match findRank 0 (r - below) buckets with
    | some i =>
      let o := i / 16
      let j := i % 16
      let k := p.e0 + o
      let num := 2 * (16 + j) * (17 + j)
      let den := 16 * (33 + 2 * j)
      if 0 ≤ k then fOfRat b64 ((num * 2 ^ k.toNat : Nat) : Int) den else fOfRat b64 (num : Int) (den * 2 ^ (-k).toNat)
    | none => b64.nan

end Sys2Proof.Machine
end

