-- ==== Sys2Proof/Machine/Mem.lean ====
section
/-! DEFINITION. Addressed byte memories (the data store, the image regions): a list of address and byte pairs with addresses strictly
rising and no entry equal to what an unlisted address reads as. -/

namespace Sys2Proof.Machine

/-- The byte at an address; `d` is what an unlisted address reads as. -/
def memGet (d : Byte) : List Host.Cell → Nat → Byte
  | [], _ => d
  | (a, b) :: r, x => if a = x then b else memGet d r x

/-- Put a byte at an address, keeping the canonical form. -/
def memPut (d : Byte) (x : Nat) (v : Byte) : List Host.Cell → List Host.Cell
  | [] => if v = d then [] else [(x, v)]
  | (a, b) :: r =>
    if x < a then (if v = d then (a, b) :: r else (x, v) :: (a, b) :: r)
    else if x = a then (if v = d then r else (x, v) :: r)
    else (a, b) :: memPut d x v r

/-- Put bytes from an address on. -/
def memWrite (d : Byte) (x : Nat) : List Byte → List Host.Cell → List Host.Cell
  | [], m => m
  | v :: r, m => memWrite d (x + 1) r (memPut d x v m)

/-- n bytes from an address on. -/
def memRead (d : Byte) (m : List Host.Cell) (x n : Nat) : List Byte := (List.range n).map (fun i => memGet d m (x + i))

/-- The canonical form. -/
def Memory.wf (d : Byte) : List Host.Cell → Bool
  | [] => true
  | [(_, b)] => b != d
  | (a, b) :: (a', b') :: r => b != d && decide (a < a') && Memory.wf d ((a', b') :: r)

end Sys2Proof.Machine
end

