-- ==== Sys2Proof/Machine/Features.lean ====
section
/-! DEFINITION. Feature programs: loading and swapping, statistics, and the pass (R250 to R269). -/

namespace Sys2Proof.Machine

/-- Capacities of Table 8-1. -/
def featMax : Build → Nat
  | .l => 256
  | .h => 512
  | .t => 1024

def statMax : Build → Nat
  | .l => 64
  | .h => 128
  | .t => 256

def winMax : Build → Nat
  | .l => 4096
  | .h => 8192
  | .t => 16384

/-- A slot by its stream, with its number. -/
def State.slotAt (s : State) (stream : Nat) : Option (Nat × Slot) :=
  match s.convoy.slots.findIdx? (fun p => p.1 == stream) with
  | some i => (s.convoy.slots[i]?).map (fun p => (i, p.2))
  | none => none

/-! ### Instruction fields (Table 8-3) -/

def insOp (w : Nat) : Nat := fld w 63 58
def insW (w : Nat) : Nat := fld w 57 51
def insK (w : Nat) : Nat := fld w 50 47
def insStaleNan (w : Nat) : Bool := bitOf w 46
def insKeep (w : Nat) : Bool := bitOf w 45
def insA (w : Nat) : Nat := fld w 31 16
def insB (w : Nat) : Nat := fld w 15 0

/-- The opcode takes a source B (Table 8-4). -/
def usesB (op : Nat) : Bool := op == 2 || op == 3 || op == 4 || op == 0xA
/-- The opcode has a window. -/
def windowed (op : Nat) : Bool := op == 6 || op == 7 || op == 8

def FeatBank.ins (b : FeatBank) (i : Nat) : Nat := assocD 0 i b.instrs
def FeatBank.stat (b : FeatBank) (j : Nat) : Nat := assocD 0 j b.stats
def FeatBank.const (b : FeatBank) (c : Nat) : Nat := assocD 0 c b.consts

/-- The instructions of a program in index order. -/
def FeatBank.words (b : FeatBank) (len : Nat) : List Nat := (List.range len).map b.ins

/-- Window entries that an instruction holds (R262). -/
def winEntries (w : Nat) : Nat := if windowed (insOp w) then insW w - 1 else 0

/-- The sum of W over the windowed instructions (R251). -/
def FeatBank.sumW (b : FeatBank) (len : Nat) : Nat :=
  (b.words len).foldl (fun a w => a + if windowed (insOp w) then insW w else 0) 0

/-! ### Validation (R264, Table 8-7) -/

/-- A source that Table 8-5 does not have. -/
def badSource (b : Build) (len src : Nat) : Bool :=
  let k := src / 4096
  let i := src % 4096
  if k = 0 then i != 0 else if k = 1 ∨ k = 2 then false else if 3 ≤ k ∧ k ≤ 5 then decide (15 < i) else if k = 6 then decide (len ≤ i)
  else if k = 7 then decide (63 < i) else if k = 8 then decide (statMax b ≤ i) else if k = 9 then b == .t || decide (63 < i) else true

/-- A descriptor outside Table 8-6. -/
def badStat (d : Nat) : Bool :=
  let f := fld d 19 16
  decide (8 ≤ f) || fld d 31 28 != 0 || ((f == 0 || f == 1 || f == 3) && decide (15 < fld d 27 20))

/-- The descriptors that an instruction uses. -/
def insStats (w : Nat) : List Nat :=
  (if insA w / 4096 = 8 then [insA w % 4096] else []) ++ (if insB w / 4096 = 8 then [insB w % 4096] else [])

/-- The reason to refuse a swap to a bank of a length; 0 for none. The lowest code stands (log entry 25). -/
def swapReject (b : Build) (bank : FeatBank) (len : Nat) : Nat :=
  let ws := bank.words (min len (featMax b))
  if featMax b < len then 1
  else if ws.any (fun w => decide (0xA < insOp w)) then 2
  else if ws.any (fun w => insA w == 0 || (if usesB (insOp w) then insB w == 0 else insB w != 0) || (insOp w == 4 && insB w / 4096 != 8)) then 3
  else if ws.any (fun w => badSource b len (insA w) || badSource b len (insB w)) then 4
  else if ws.any (fun w => decide (64 < insW w)) || decide (winMax b < ws.foldl (fun a w => a + winEntries w) 0) then 5
  else if (ws.map insStats).flatten.any (fun j => badStat (bank.stat j)) then 6
  else if ws.any (fun w => (!windowed (insOp w) && insW w != 0) || (insOp w != 5 && insK w != 0) || fld w 44 32 != 0) then 7
  else 0

/-! ### Loading -/

/-- The new active bank is copied into the shadow bank (R263). -/
def State.featCopy (s : State) : State :=
  if s.feat.copying then { s with feat := { s.feat with shadow := s.feat.active, copying := false } } else s

def setEntry (i v : Nat) (l : List (Nat × Nat)) : List (Nat × Nat) := if v = 0 then assocDel i l else insAsc i v (assocDel i l)

/-- A write of FEAT_LOAD_HI stores the word and moves FEAT_LOAD_IDX on (R263). -/
def State.featLoadHi (s : State) (v : Nat) : State :=
  let s := s.featCopy
  let i := s.rd R.FEAT_LOAD_IDX
  let w := v % 2 ^ 32 * 2 ^ 32 + s.feat.lo
  let s := { s with feat := { s.feat with lo := 0 } }
  if i < featMax s.build then
    let s := { s with feat := { s.feat with shadow := { s.feat.shadow with instrs := setEntry i w s.feat.shadow.instrs } } }
    s.wr R.FEAT_LOAD_IDX (i + 1)
  else s

def execFeatLoadHi (a : Acc) (data : Word) (s : State) : Host.Outcome State Fault Refusal :=
  .next (s.guardedWrite a 0x02609C data.toNat false false (fun s => s.featLoadHi data.toNat))

def State.featStatWrite (s : State) (j v : Nat) : State :=
  let s := s.featCopy
  { s with feat := { s.feat with shadow := { s.feat.shadow with stats := setEntry j (v % 2 ^ 32) s.feat.shadow.stats } } }

def State.featConstWrite (s : State) (c v : Nat) : State :=
  let s := s.featCopy
  { s with feat := { s.feat with shadow := { s.feat.shadow with consts := setEntry c v s.feat.shadow.consts } } }

/-! ### Swapping (R263 to R265) -/

/-- A write of FEAT_SWAP: [0] request, [1] cancel. -/
def State.featSwapWrite (s : State) (v : Nat) : State :=
  let s := if bitOf v 1 then { s with feat := { s.feat with swap := none } } else s
  if bitOf v 0 then { s with feat := { s.feat with validating := true } } else s

def execFeatSwapRequest (a : Acc) (data : Word) (s : State) : Host.Outcome State Fault Refusal :=
  .next (s.guardedWrite a 0x0260A4 data.toNat false false (fun s => s.featSwapWrite data.toNat))

def execFeatSwapCancel (a : Acc) (data : Word) (s : State) : Host.Outcome State Fault Refusal :=
  .next (s.guardedWrite a 0x0260A4 data.toNat false false (fun s => s.featSwapWrite data.toNat))

/-- FEAT_SWAP_VALIDATED (R263, R264): within 2 us of the request the shadow bank is judged. -/
def execFeatSwapValidated (s : State) : Host.Outcome State Fault Refusal :=
  .next (if s.feat.validating then
      let s := s.featCopy
      let why := swapReject s.build s.feat.shadow (s.rd R.FEAT_LEN)
      let s := { s with feat := { s.feat with validating := false } }
      if why = 0 then { s with feat := { s.feat with swap := some (s.rd R.FEAT_SWAP_AT), reject := 0 } }
      else { s with feat := { s.feat with reject := why } }.irq 0x026 3
    else s)

/-- An instruction keeps its history across a swap (R265). -/
def keepsHist (old new : Nat) : Bool :=
  insKeep new && insOp old == insOp new && insW old == insW new && insK old == insK new && insA old == insA new && insB old == insB new

/-- The swap applies: the banks exchange, and the copy of the new active bank begins (R263, R265). -/
def State.featSwap (s : State) : State :=
  let s := s.featCopy
  let f := s.feat
  let len := s.rd R.FEAT_LEN
  let keep := f.hist.filter (fun p => decide (p.1 < len) && decide (p.1 < f.len) && keepsHist (f.active.ins p.1) (f.shadow.ins p.1))
  let s := { s with feat := { f with active := f.shadow, shadow := f.active, len := len, hist := keep, loaded := true, bank := !f.bank, swap := none,
                                     copying := true, vals := f.vals.take len } }
  let used := (s.feat.active.words len).foldl (fun a w => a + winEntries w) 0
  ((s.bump R.FEAT_GEN).wr R.FEAT_WIN_USED used).irq 0x026 2

/-- FEAT_SWAP_APPLY_IDLE (R265): while no schedule is held, or while EN = 0, a swap applies within 10 us. -/
def execFeatSwapApplyIdle (s : State) : Host.Outcome State Fault Refusal :=
  .next (if s.feat.swap.isSome && s.feat.run.isNone && (!s.scheduleRuns || !bitOf (s.rd R.FEAT_CTRL) 0) then s.featSwap else s)

/-- FEAT_BANK_COPY_DONE (R263). -/
def execFeatBankCopyDone (s : State) : Host.Outcome State Fault Refusal := .next s.featCopy

/-! ### Statistics (R260, Table 8-6) -/

/-- A 64-bit value of a type in binary64 (R185). -/
def toF64 (ty v : Nat) : Nat := if ty = 2 then v else if ty = 1 then fOfInt b64 (sgnN 64 v) else fOfNat b64 v

/-- √max(0, v), NaN kept. -/
def sdOf (v : Nat) : Nat := if fIsNan b64 v then b64.nan else if fLt b64 v 0 then 0 else fSqrt b64 v

/-- Mean and standard deviation of a MOMENTS payload. -/
def momentsOf (p : Pay) : Nat × Nat :=
  let n := fOfNat b64 (p.vals.getD 0 0)
  let mean := fDiv b64 (p.vals.getD 1 0) n
  (mean, sdOf (fSub b64 (fDiv b64 (p.vals.getD 2 0) n) (fMul b64 mean mean)))

/-- The value of a field of a result; none when the field is not valid for its operator (Table 8-6). -/
def statField (h : CHdr) (p : Pay) (field par : Nat) : Option Nat :=
  let op := h.op
  if field = 0 then
    if op = 1 ∧ par < h.par then some (fOfNat b64 (p.vals.getD par 0))
    else if op = 2 ∧ par < h.par then some (p.vals.getD par 0)
    else if op = 3 ∨ op = 4 then some (toF64 h.ty (p.ents.headD (extremeId op h.ty, 0)).1)
    else if op = 0xA then some (fOfNat b64 (p.vals.getD 0 0))
    else none
  else if field = 1 then
    if op = 7 then some (momentsOf p).1
    else if op = 1 ∧ par < h.par then some (fDiv b64 (fOfNat b64 (p.vals.getD par 0)) (fOfNat b64 h.contributors))
    else if op = 2 ∧ par < h.par then some (fDiv b64 (p.vals.getD par 0) (fOfNat b64 h.contributors))
    else none
  else if field = 2 then (if op = 7 then some (momentsOf p).2 else none)
  else if field = 3 then
    if op = 5 then some (match p.ents[par]? with
      | some e => toF64 h.ty e.1
      | none => b64.nan)
    else none
  else if field = 4 then (if op = 6 then some (quantile p par) else none)
  else if field = 5 then some (fOfNat b64 h.contributors)
  else if field = 6 then some (fOfNat b64 h.missing)
  else if field = 7 then (if op = 2 ∨ (3 ≤ op ∧ op ≤ 7) then some (fOfNat b64 p.nan) else none)
  else none

/-- What a descriptor gives at muster n: value, mean, sd, epoch, counted as NaN, result PARTIAL. -/
structure StatVal where
  value : Nat
  mean : Nat
  sd : Nat
  epoch : Nat
  bad : Bool
  part : Bool
  deriving DecidableEq, Repr

def StatVal.none_ : StatVal := { value := b64.nan, mean := b64.nan, sd := b64.nan, epoch := 0, bad := true, part := false }

/-- The last result a slot holds: a Selvo-L reads it from its result store, as far as the plan's length reaches (R186). -/
def State.slotResult (s : State) (x : Slot) : Option Rec :=
  if s.build = .l then
    match x.entry with
    | some e => if e.keep && x.applied.isSome then some (parsePacket (memRead 0 s.convoy.store e.storeOff e.storeLen)) else none
    | none => none
  else if x.entry.isSome then x.result
  else none

/-- A descriptor at muster n; a field must be valid for the stream's operator in the plan in force (R260), and a stored result with an uncorrectable word
reads NaN (R331). -/
def State.statEval (s : State) (d n : Nat) : StatVal :=
  match (if s.feat.badStats.contains (fld d 15 0) then none else s.slotAt (fld d 15 0)) with
  | some (_, sl) =>
    match s.slotResult sl with
    | some r =>
      let h := parseHdr r.payload
      let p := parsePay h.op h.ty h.par (r.payload.drop 80)
      let maxAge := fld (s.rd R.FEAT_STAT_MAXAGE) 7 0
      let age := (n + 2 ^ 32 - h.epoch % 2 ^ 32) % 2 ^ 32
      if maxAge ≠ 0 ∧ maxAge < age then { StatVal.none_ with epoch := h.epoch }
      else
        let ms := if h.op = 7 then momentsOf p else (b64.nan, b64.nan)
        match (if fld d 19 16 = 5 ∨ fld d 19 16 = 6 ∨ sl.entry.any (fun e => e.op == h.op && e.ty == h.ty) then statField h p (fld d 19 16) (fld d 27 20)
          else none) with
        | some v => { value := v, mean := ms.1, sd := ms.2, epoch := h.epoch, bad := false, part := bitOf h.flags 0 }
        | none => { value := b64.nan, mean := ms.1, sd := ms.2, epoch := h.epoch, bad := true, part := bitOf h.flags 0 }
    | none => StatVal.none_
  | none => StatVal.none_

/-! ### Sources (R257 to R259, Table 8-5) -/

/-- A sensor value scaled by its kind, in binary64 (Table 5-2). -/
def snsScaled (kind v : Nat) : Nat :=
  if kind = 1 then fOfRat b64 (sgnN 16 v) 64 else if kind = 2 then fOfRat b64 (v : Nat) 10 else if kind = 3 ∨ kind = 4 then fOfRat b64 (v : Nat) 100
  else fOfNat b64 v

/-- What a pass runs on. -/
structure FeatEnv where
  img : Image
  pass : FeatPass
  bank : FeatBank
  old : List Nat
  lastCtrs : List (Nat × Nat)
  /-- seconds since the last committed pass -/
  dt : Nat
  first : Bool
  deriving DecidableEq, Repr

/-- The value of a source for an instruction, in binary64; `new` are this pass's features so far. -/
def FeatEnv.src (e : FeatEnv) (new : List Nat) (i : Nat) (fresh staleNan : Bool) (src : Nat) : Nat :=
  let k := src / 4096
  let x := src % 4096
  let sn := e.img.sensors.getD x Sensor.reset
  let kind := e.pass.kinds.getD x 0
  if ((k = 1 ∨ k = 2) ∧ e.img.badCtrs.contains x) ∨ (3 ≤ k ∧ k ≤ 5 ∧ e.img.badSns.contains x) then b64.nan
  else if k = 1 then fOfNat b64 (assocD 0 x e.img.ctrs)
  else if k = 2 then
    if fresh || e.first then b64.nan else fOfNat b64 ((assocD 0 x e.img.ctrs + 2 ^ 64 - assocD 0 x e.lastCtrs) % 2 ^ 64)
  else if 3 ≤ k ∧ k ≤ 5 then
    if sn.noReading || ((sn.stale || sn.fault) && staleNan) then b64.nan
    else if k = 3 then snsScaled kind sn.value
    else if !sn.goodSinceCut then b64.nan
    else snsScaled kind (if k = 4 then sn.minV else sn.maxV)
  else if k = 6 then f32to64 (if x < i then new.getD x b32.nan else e.old.getD x b32.nan)
  else if k = 7 then f32to64 (e.bank.const x)
  else if k = 8 then assocD b64.nan x e.pass.stats
  else if k = 9 then (assocD [] (x % 8) e.img.summ).getD (x / 8 % 8) b64.nan
  else b64.nan

/-! ### Instructions (R255, R256, R261, R262) -/

/-- Not finite, in binary64. -/
def nonFin (v : Nat) : Nat := b2n (fld v 62 52 == 2047)

/-- The kept extreme of a window, newest entry first: a later entry replaces it only when strictly better. -/
def winBest (better : Nat → Nat → Bool) (l : List Nat) : Nat :=
  match l.filter (fun v => !fIsNan b64 v) with
  | [] => b64.nan
  | x :: r => r.foldl (fun m v => if better v m then v else m) x

def winMean (order : List Nat) (l : List Nat) : Nat :=
  match l.filter (fun v => !fIsNan b64 v) with
  | [] => b64.nan
  | x :: r => fDiv b64 (sumBy order (x :: r)) (fOfNat b64 (r.length + 1))

/-- One instruction: its feature (binary32), its history after, and how many non-finite operands it met. -/
def FeatEnv.ins (e : FeatEnv) (order new : List Nat) (i w : Nat) (h : FeatHist) : Nat × FeatHist × Nat :=
  let op := insOp w
  let fresh := h.fresh
  let x := e.src new i fresh (insStaleNan w) (insA w)
  let y := e.src new i fresh (insStaleNan w) (insB w)
  let win := x :: h.win.take (insW w - 1)
  let mean := assocD b64.nan (insB w % 4096 + 1024) e.pass.stats
  let sd := assocD b64.nan (insB w % 4096 + 2048) e.pass.stats
  let ew := if nonFin x = 1 then h.ewma
    else match h.ewma with
      | none => some x
      | some a => some (if insK w = 0 then x else fAdd b64 a (fMul b64 (fSub b64 x a) (fOfRat b64 1 (2 ^ insK w))))
  let v :=
    if op = 0 then x
    else if op = 1 then (if fresh || e.first then b64.nan else fDiv b64 x e.dt)
    else if op = 2 then fDiv b64 x y
    else if op = 3 then fSub b64 x y
    else if op = 4 then fDiv b64 (fSub b64 x mean) sd
    else if op = 5 then ew.getD b64.nan
    else if op = 6 then winBest (fLt b64) win
    else if op = 7 then winBest (fun a b => fLt b64 b a) win
    else if op = 8 then winMean order win
    else if op = 9 then (if fresh || e.first then b64.nan else fSub b64 x h.lastA)
    else fMul b64 x y
  let bad := nonFin x + (if op = 4 then nonFin mean + nonFin sd else if usesB op then nonFin y else 0)
  (f64to32 v, { fresh := false, ewma := ew, win := win.take (insW w - 1), lastA := x }, bad)

/-! ### Passes (R251 to R253) -/

/-- The pass that is awaited or runs is abandoned for a reason (R252). -/
def State.featAbandon (s : State) (reason : Nat) : State :=
  let s := { s with feat := { s.feat with run := none, await := none, denied := false, abandon := reason } }
  (s.bumpSat R.FEAT_ABANDONED).irq 0x026 1

/-- The image of a cut is complete: an earlier pass is overtaken, and this one is awaited where a program is in force or a swap is due (R251, R252,
R265). -/
def State.featImage (s : State) (num : Nat) (heldGap : Bool) : State :=
  let s := if s.feat.run.isSome then s.featAbandon 1
    else if s.feat.await.isSome then s.featAbandon (if s.feat.denied then 2 else 1)
    else s
  let s := { s with feat := { s.feat with afterHold := s.feat.afterHold || heldGap } }
  let due := match s.feat.swap with
    | some at_ => atOrLater num at_
    | none => false
  if bitOf (s.rd R.FEAT_CTRL) 0 && (s.feat.loaded || due) then { s with feat := { s.feat with await := some num, denied := false } } else s

/-- Step 2 of Table 8-2: the drover grants the pass, a due swap applies, and the statistic table is taken. -/
def State.featGrant (s : State) : State :=
  match s.feat.await, s.feat.run with
  | some n, none =>
    let due := match s.feat.swap with
      | some at_ => atOrLater n at_
      | none => false
    let t := if due then s.featSwap else s
    if !t.feat.loaded || !bitOf (s.rd R.FEAT_CTRL) 0 || !s.inRun 1 then s
    else
      match t.grant 3 (t.costFeature t.feat.len (t.feat.active.sumW t.feat.len)) with
      | none => { s with feat := { s.feat with denied := true } }
      | some t =>
        let used := (((t.feat.active.words t.feat.len).map insStats).flatten).eraseDups
        let vals := used.map (fun j => (j, t.statEval (t.feat.active.stat j) n))
        let bad := (vals.filter (fun p => p.2.bad)).length
        let t := if bad = 0 then t else (t.bumpSat R.FEAT_STAT_NAN bad).irq 0x026 4
        { t with feat := { t.feat with await := none, denied := false, badStats := [],
                                       run := some { num := n,
                                                     stats := vals.map (fun p => (p.1, p.2.value)) ++ vals.map (fun p => (p.1 + 1024, p.2.mean)) ++
                                                       vals.map (fun p => (p.1 + 2048, p.2.sd)),
                                                     epochs := vals.map (fun p => (p.1, p.2.epoch)), statNan := bad != 0,
                                                     statPartial := vals.any (fun p => p.2.part),
                                                     kinds := (List.range 16).map (fun k => t.snsKind k), grantAt := t.time.cycles } } }
  | _, _ => s

/-- FEATURE_PASS_GRANT (R251). -/
def execFeaturePassGrant (s : State) : Host.Outcome State Fault Refusal := .next s.featGrant

/-- The instructions run in index order: features, histories and non-finite operands. -/
def FeatEnv.runAll (e : FeatEnv) (order : List Nat) (hist : List (Nat × FeatHist)) (words : List Nat) : List Nat × List (Nat × FeatHist) × Nat :=
  (words.zipIdx).foldl (fun acc p =>
    let h := assocD { fresh := true, ewma := none, win := [], lastA := 0 } p.2 hist
    let (v, h', bad) := e.ins order acc.1 p.2 p.1 h
    (acc.1 ++ [v], acc.2.1 ++ [(p.2, h')], acc.2.2 + bad)) ([], [], 0)

/-- Seconds between two cut times, in binary64 (R258). -/
def secsBetween (later earlier : Nat) : Nat := fOfRat b64 ((later : Int) - earlier) (2 ^ 32)

/-- A number of cycles of the local clock in ns, rounded down. -/
def cyclesNs (n : Nat) : Nat := n * 5 / 4

/-- The histories of these instructions start afresh (R331, Table 11-5). -/
def State.histLost (s : State) (lost : List Nat) : State :=
  { s with feat := { s.feat with hist := s.feat.hist.filter (fun p => !lost.contains p.1) } }

/-- Steps 3 and 4 of Table 8-2: the pass commits its features and its history, and its record is emitted; FEAT_PASS_NS takes the time since its grant
on the local clock (R251, R267). -/
def State.featCommit (s : State) : State :=
  match s.feat.run with
  | none => s
  | some p =>
    match s.muster.imageOf p.num with
    | none => s
    | some img =>
      let f := s.feat
      let words := f.active.words f.len
      let (order, s) := s.drawOrder 64
      let env : FeatEnv := { img := img, pass := p, bank := f.active, old := f.vals, lastCtrs := f.lastCtrs, dt := secsBetween img.t f.lastT,
                             first := f.afterHold || !f.committed }
      let (vals, hist, bad) := env.runAll order f.hist words
      let firstFlag := f.afterHold || words.zipIdx.any (fun q => (assocD { fresh := true, ewma := none, win := [], lastA := 0 } q.2 f.hist).fresh)
      let s := { s with feat := { s.feat with run := none, vals := vals, hist := hist, lastNum := p.num, lastT := img.t, lastCtrs := img.ctrs,
                                              committed := true, afterHold := false } }
      let s := (s.wr R.FEAT_LAST_MUSTER p.num).wr R.FEAT_PASS_NS (min (cyclesNs (s.time.cycles - p.grantAt)) (2 ^ 32 - 1))
      let s := p.epochs.foldl (fun s q => s.wr R.STAT_EPOCH q.2 q.1) s
      let s := if bad = 0 then s else s.bumpSat R.FEAT_NONFINITE bad
      let s := s.irq 0x026 0
      if bitOf (s.rd R.FEAT_CTRL) 1 then
        let flags := b2n img.disc + b2n img.heldGap.isSome * 2 + b2n firstFlag * 4 + b2n p.statNan * 8 + b2n p.statPartial * 16
        let body := leBytes 4 p.num ++ leBytes 4 (s.rd R.FEAT_GEN) ++ leBytes 2 0 ++ leBytes 2 f.len ++ bytes [flags] ++ zeros 3 ++ leBytes 8 s.stamp ++
          (vals.map (leBytes 4)).flatten
        let (r, s) := s.originate 0x3C 5 (fld (s.rd R.FEAT_STREAM) 15 0) body
        s.emitUp r none
      else s

/-! ### Live reads (Tables 8-9 and 8-10) -/

/-- A feature as it reads: NaN at or above the program length, and before any commit (R250, R266). -/
def State.featVal (s : State) (i : Nat) : Nat := if i < s.feat.len then s.feat.vals.getD i b32.nan else b32.nan

def State.featWord (s : State) : Nat :=
  let v := s.rd R.FEAT_READ_IDX
  (if bitOf v 10 then s.feat.shadow else s.feat.active).ins (fld v 9 0)

def State.featLive (s : State) (page off : Nat) : Option Nat :=
  let f := s.feat
  if page = 0x026 then
    if off = 0x088 then
      some (b2n f.loaded + b2n f.run.isSome * 2 + b2n f.swap.isSome * 4 + b2n f.bank * 8 + f.reject * 16 + f.abandon * 256 + f.len * 65536)
    else if off = 0x0CC then some (s.featWord % 2 ^ 32)
    else if off = 0x0D0 then some (s.featWord / 2 ^ 32)
    else if 0x100 ≤ off ∧ off < 0x500 then some (f.shadow.stat ((off - 0x100) / 4))
    else if 0x900 ≤ off ∧ off < 0xA00 then some (f.shadow.const ((off - 0x900) / 4))
    else none
  else if page = 0x027 then
    if off = 0x080 then some f.lastNum
    else if 0x800 ≤ off then some (s.featVal (512 * fld (s.rd R.FEAT_VAL_BASE) 1 0 + (off - 0x800) / 4))
    else none
  else none

end Sys2Proof.Machine
end

