-- ==== Sys2Proof/Machine/Plan.lean ====
section
/-! DEFINITION. The plan and discovery: reading a plan part, judging it, accepting and applying it; neighbours found, quarantined or
missing (R17 to R20, R24, R26, R181 to R184, R211, R218 to R221, R480). -/

namespace Sys2Proof.Machine

/-! ### Reading a plan part (R480, Table 18-5) -/

/-- A port field of a plan: 0xFF is none. -/
def portField (v : Nat) : Option Nat := if v % 256 = 255 then none else some (v % 256)

/-- One stream entry of 64 bytes. -/
def parseEntry (l : List Byte) : Entry :=
  let w (i : Nat) : Nat := leAt l (4 * i) 4
  { stream := fld (w 0) 15 0, root := bitOf (w 0) 17, tray := bitOf (w 0) 18, keep := bitOf (w 0) 19, height := fld (w 0) 23 20,
    op := fld (w 1) 3 0, ty := fld (w 1) 5 4, par := fld (w 1) 12 8, dir := bitOf (w 1) 13, e0 := sgnN 16 (fld (w 1) 31 16),
    srcKind := fld (w 2) 3 0, srcArg := fld (w 2) 27 16, stride := (if fld (w 3) 7 0 = 0 then 256 else fld (w 3) 7 0), phase := fld (w 3) 15 8,
    dlFirst := w 4, dlStep := w 5, parent := portField (w 6), alt := portField (w 6 / 256), expected := w 7,
    inputs := leAt l 32 16, storeOff := fld (w 12) 15 0, storeLen := fld (w 12) 31 16 }

/-- The VALID bit of an entry. -/
def entryValid (l : List Byte) : Bool := bitOf (leAt l 0 4) 16

/-- One adoption or relay entry of 8 bytes, in the layout of R219. -/
def parseAdopt (l : List Byte) : Adopt :=
  let w0 := leAt l 0 4
  let w1 := leAt l 4 4
  { gen := 0, stream := 0, child := fld w0 23 0, slot := fld w1 7 0, port := fld w1 15 8, parentPort := fld w1 23 16, bit := fld w1 30 24, relay := bitOf w1 31, st := 0 }

/-- A body cut into pieces of n bytes. -/
def pieces (n : Nat) (l : List Byte) : List (List Byte) := (List.range (l.length / n)).map (fun i => (l.drop (n * i)).take n)

/-- The stream entries of a body. -/
def parseEntries (body : List Byte) : List Entry := ((pieces 64 body).filter entryValid).map parseEntry

/-- Ports that a plan's neighbour section lists (R135). -/
def timePortCount : Build → Nat
  | .l => 1
  | .h => 40
  | .t => 18

/-- One section of the unit itself joins the plan; none when its body does not fit its type. -/
def planSection (b : Build) (p : Plan) (type : Nat) (body : List Byte) : Option Plan :=
  if type = 1 ∧ body.length % 64 = 0 then some { p with entries := p.entries ++ parseEntries body }
  else if type = 2 ∧ body.length % 8 = 0 then some { p with adopts := p.adopts ++ (pieces 8 body).map parseAdopt }
  else if type = 3 ∧ body.length = 4 * timePortCount b then
    some { p with neighbours := some ((List.range (timePortCount b)).map (fun i => (i, leAt body (4 * i) 3))) }
  else if type = 4 ∧ 8 ≤ body.length ∧ body.length % 4 = 0 then
    some { p with members := p.members ++ [(leAt body 0 4, leAt body 4 4, (pieces 4 (body.drop 8)).map (fun x => leAt x 0 4))] }
  else if type = 5 ∧ body.length = 4 then
    some { p with timeTree := some (bitOf (leAt body 0 1) 0, portField (leAt body 1 1), portField (leAt body 2 1)) }
  else if type = 6 ∧ body.length = 8 then
    some { p with roles := some (bitOf (leAt body 0 1) 0, bitOf (leAt body 0 1) 1, leAt body 2 2, leAt body 4 2, leAt body 6 2) }
  else none

/-- Walk so many sections to the end of the part. -/
def planSections (b : Build) : Nat → Plan → List Byte → Option Plan
  | 0, p, [] => some p
  | 0, _, _ :: _ => none
  | n + 1, p, l =>
    let type := leAt l 0 1
    let slot := leAt l 1 1
    let len := leAt l 4 4
    let body := (l.drop 8).take len
    if l.length < 8 + len then none
    else if slot = 0 then
      match planSection b p type body with
      | some p' => planSections b n p' (l.drop (8 + len))
      | none => none
    else if b = .h ∧ slot ≤ 24 ∧ 1 ≤ type ∧ type ≤ 6 then
      planSections b n { p with leafParts := p.leafParts ++ [(slot, type, body)] } (l.drop (8 + len))
    else none

/-- The adoption and relay entries of a part, with its generation and the streams of their slots. -/
def Plan.named (p : Plan) : List Adopt := p.adopts.map (fun a => { a with gen := p.gen, stream := ((p.entries[a.slot]?).map Entry.stream).getD 0 })

def Plan.bare (gen act : Nat) : Plan :=
  { gen := gen, act := act, entries := [], adopts := [], neighbours := none, members := [], timeTree := none, roles := none, leafParts := [] }

/-- A plan part: none when its header, framing or target is wrong (R480). -/
def parsePlan (b : Build) (target : Nat) (l : List Byte) : Option Plan :=
  if l.length < 32 ∨ l.take 4 ≠ bytes [0x53, 0x56, 0x4E, 0x32] ∨ leAt l 4 2 ≠ 1 ∨ leAt l 16 3 ≠ target ∨ leAt l 20 4 ≠ l.length then none
  else planSections b (leAt l 6 2) (Plan.bare (leAt l 8 4) (leAt l 12 4)) (l.drop 32)

/-! ### Judging it (R184, Table 6-2) -/

/-- How many slots a build has (R180). -/
def slotCount : Build → Nat
  | .t => 1024
  | _ => 256

/-- Ones of a value from bit lo, so many bits. -/
def onesIn (v lo n : Nat) : Nat := ((List.range n).filter (fun i => v.testBit (lo + i))).length

/-- An operator that Table 6-5 has, with an allowed type, parameter, DIR and E0. -/
def opOk (e : Entry) : Bool :=
  let types := if e.op = 1 then [0] else if e.op = 2 ∨ e.op = 6 ∨ e.op = 7 then [2] else if 3 ≤ e.op ∧ e.op ≤ 5 then [0, 1, 2]
    else if e.op = 8 ∨ e.op = 9 then [3] else if e.op = 0xA then [0, 2] else []
  let lanes := e.op = 1 || e.op = 2 || e.op = 5 || e.op = 8 || e.op = 9
  types.contains e.ty && (if lanes then decide (1 ≤ e.par) && decide (e.par ≤ 16) else e.par == 0) && (e.op == 5 || !e.dir) &&
    (e.op != 6 || (decide (-1022 ≤ e.e0) && decide (e.e0 ≤ 991)))

/-- A source that Table 6-3 has, fit for the operator. -/
def srcOk (e : Entry) : Bool :=
  decide (e.srcKind ≤ 7) && (e.srcKind != 3 || e.ty == 2) && (e.srcKind != 5 || (e.op == 1 && e.par == 5))

/-- The streams of a list of entries break reason 0x5. -/
def streamBad (es : List Entry) : Bool :=
  es.any (fun e => e.stream == 0 || !opOk e || !srcOk e) || (es.map Entry.stream).eraseDups.length != es.length

/-- The entries of each leaf that a part holds. -/
def Plan.leafEntries (p : Plan) (slot : Nat) : List Entry :=
  ((p.leafParts.filter (fun x => x.1 == slot && x.2.1 == 1)).map (fun x => parseEntries x.2.2)).flatten

/-- A leaf's result store is overfilled (R184, R186). -/
def storeOver (es : List Entry) : Bool :=
  let ks := es.filter (fun e => e.keep)
  ks.any (fun e => decide (65536 < e.storeOff + e.storeLen)) || decide (65536 < ks.foldl (fun a e => a + e.storeLen) 0)

def planCapacity (b : Build) (p : Plan) : Bool :=
  decide (slotCount b < p.entries.length) || decide (3840 < p.adopts.length) || p.entries.any (fun e => if b = .h then decide (35 < onesIn e.inputs 32 96) || decide (24 < onesIn e.inputs 1 31)
      else decide (8 < onesIn e.inputs 1 31) || decide (63 < onesIn e.inputs 32 96)) ||
    (List.range 24).any (fun i => storeOver (p.leafEntries (i + 1)) || decide (256 < (p.leafEntries (i + 1)).length))

/-- A tray of more than 8 packages, or a group of more than 64 trays, over all the membership sections of a part (R17). -/
def planMembers (p : Plan) : Bool :=
  let trays := (p.members.map (fun m => (m.1, m.2.1))).eraseDups
  let packages (t : Nat × Nat) : List Nat := (((p.members.filter (fun m => (m.1, m.2.1) == t)).map (fun m => m.2.2)).flatten.filter (fun x => x != 0xFFFFFFFF)).eraseDups
  trays.any (fun t => decide (8 < (packages t).length)) || (trays.map Prod.fst).any (fun g => decide (64 < (trays.filter (fun t => t.1 == g)).length))

/-- A fabric lane that has a neighbour: by the part, else by the neighbours in force, else, where no plan has named any, by discovery. -/
def State.fabricNeighbour (s : State) (p : Plan) (q : Nat) : Bool :=
  s.build == .h && decide (q < 36) &&
    (match p.neighbours with
     | some ns => assocD 0x7FFFFF q ns != 0x7FFFFF
     | none => if s.convoy.neigh.isEmpty then (s.port q).neighbour != 0x7FFFFF else s.plannedId q != 0x7FFFFF)

/-- A part that is not the group time root's names a pod parent and an alternate, both fabric neighbours. A part gives no count of the hops
above them (R108, Table 18-5; log entry 26). -/
def State.planTime (s : State) (p : Plan) : Bool :=
  match p.timeTree with
  | none => false
  | some (root, pp, alt) =>
    let bad (x : Option Nat) : Bool := match x with
      | none => s.build == .h && !root
      | some q => !s.fabricNeighbour p q
    bad pp || bad alt

/-- An alternate parent that breaks R183: it is reached over a direct link, a fabric lane with a planned neighbour or a peer entry of a
Selvo-T, and is not the parent; roots, the tray plane of a Selvo-H and leaf dies have none. -/
def State.planAlt (s : State) (p : Plan) : Bool :=
  let direct (q : Nat) : Bool := if s.build = .h then s.fabricNeighbour p q else decide (32 ≤ q) && decide (q < 40)
  p.entries.any (fun e => match e.alt with
    | some q => e.alt == e.parent || e.root || (s.build == .h && e.tray) || !direct q
    | none => false) ||
    (List.range 24).any (fun i => (p.leafEntries (i + 1)).any (fun e => e.alt.isSome))

/-- The reason to reject a part, 0 for none; of several the lowest code stands. A Selvo-L judges only its activation (R181, R184). -/
def State.planReason (s : State) (p : Plan) : Nat :=
  let late := s.muster.anyCut && atOrLater s.muster.lastNum p.act
  if s.build = .l then (if late then 6 else 0)
  else if planCapacity s.build p then 1
  else if planMembers p then 2
  else if s.planTime p then 3
  else if s.planAlt p then 4
  else if streamBad p.entries || (List.range 24).any (fun i => streamBad (p.leafEntries (i + 1))) then 5
  else if late then 6
  else if p.entries.any (fun e => e.dlFirst == 0) then 7
  else 0

/-! ### Discovery (R18, R20, R24, R26, R211) -/

/-- The other lane of the same member (R28, R29). -/
def sameMember (b : Build) (p q : Nat) : Bool := (portKind b p == 2 || portKind b p == 3) && portKind b q == portKind b p && p / 2 == q / 2

/-- A port that another port's identity duplicates: attached, not quarantined, with this ID, on another member. -/
def State.dupPort (s : State) (p id : Nat) : Option Nat :=
  (List.range (linkPorts s.build)).find? (fun q => q != p && !sameMember s.build p q && (s.port q).neighbour == id && !(s.port q).quar)

/-- A port goes into quarantine (R26, R211). -/
def State.quarantine (s : State) (p : Nat) (dup : Bool) : State :=
  (s.modPort p (fun q => { q with quar := true, dupId := dup, joining := false })).portIrq p (if dup then 3 else 1)

/-- A neighbour that attaches is offered the schedule applied: the arm record, then the newest, as link-local copies (R158, R168). -/
def State.offerSchedule (s : State) (p : Nat) : State :=
  if s.build = .l then s
  else
    (s.muster.armRec.toList ++ s.muster.newRec.toList.filter (fun b => s.muster.armRec != some b)).foldl
      (fun (s : State) b => s.sendLocal p (s.localRec 0x24 2 (leAt b 0 4) b)) s

/-- A port joins at the next epoch boundary, a leaf port of a Selvo-H by its admission (R20, R211, R315). -/
def State.rejoin (s : State) (p : Nat) : State :=
  if s.build = .h ∧ 40 ≤ p then { s with link := { s.link with admitDue := s.link.admitDue ++ (if s.link.admitDue.contains (p - 39) then [] else [p - 39]) } }
  else s.modPort p (fun q => { q with joining := true })

/-- The ID that a neighbour presents on a port is compared with the plan: it attaches, joins, is quarantined, or waits for its admission. -/
def State.judge (s : State) (p id : Nat) : State :=
  let plan := s.plannedId p
  let s := s.modPort p (fun q => { q with neighbour := id, expected := plan != 0x7FFFFF })
  if id = 0x7FFFFF then s
  else if id = s.srcId then (s.quarantine p true).event 0x207 (bytes [p, 255, 0, 0] ++ leBytes 3 id)
  else
    match s.dupPort p id with
    | some q => (s.quarantine p true).event 0x207 (bytes [min p q, max p q, 0, 0] ++ leBytes 3 id)
    | none =>
      let known := s.build == .h && decide (40 ≤ p) && plan != 0x7FFFFF || !s.convoy.neigh.isEmpty && !(s.build == .h && decide (40 ≤ p))
      if known && plan != id then s.quarantine p false
      else
        let s := s.offerSchedule p
        if (s.port p).missing then s.rejoin p else s

/-- A neighbour answers in discovery; the training of its port goes on (R211, R539). -/
def State.discAnswer (s : State) (p id : Nat) : State :=
  ((s.modPort p (fun q => { q with answered := true })).judge p id).discDone p

/-- Discovery runs on the answers given, in ascending port order (R20, R26, R211). -/
def State.discover (s : State) (answers : List (Nat × Nat)) : State :=
  let s : State := (List.range (linkPorts s.build)).foldl (fun (s : State) p =>
    match answers.find? (fun a => a.1 == p) with
    | some a => s.discAnswer p (a.2 % 2 ^ 24)
    | none => s) s
  if s.build = .h then
    if answers.any (fun a => decide (36 ≤ a.1) && decide (a.1 < 40)) then { s with link := { s.link with trayOrphan := false } }
    else State.event { s with link := { s.link with trayOrphan := true } } 0x209 []
  else s

/-- DISCOVERY_TIMEOUT (R20, R211): a planned neighbour or leaf has not answered within 1 ms of the start of discovery on its port. -/
def execDiscoveryTimeout (port : Nat) (s : State) : Host.Outcome State Fault Refusal :=
  present (s.build != .l && decide (port < linkPorts s.build))
    (let q := s.port port
     let leaf := s.build == .h && decide (40 ≤ port)
     if (leaf || s.plannedId port != 0x7FFFFF) && !q.answered && !q.missing && s.after q.discAt 1000 then
       ((s.modPort port (fun q => { q with missing := true, expected := true })).portIrq port 2).event 0x208
         (bytes [port, 0, 0, 0] ++ leBytes 3 (s.plannedId port))
     else s)

/-- A write of FP_RELEASE, LP_RELEASE or PR_RELEASE (R26, R220, R221): the port joins at the next epoch boundary, a leaf by its
admission; a port that still presents a duplicate stays. -/
def State.quarRelease (s : State) (p v : Nat) : State :=
  let q := s.port p
  if !bitOf v 0 || !q.quar then s
  else if q.dupId && q.neighbour == s.srcId then s.event 0x207 (bytes [p, 255, 0, 0] ++ leBytes 3 q.neighbour)
  else
    match (if q.neighbour = 0x7FFFFF then none else s.dupPort p q.neighbour) with
    | some d => s.event 0x207 (bytes [min p d, max p d, 0, 0] ++ leBytes 3 q.neighbour)
    | none => (s.modPort p (fun q => { q with released := true })).rejoin p

/-- The address of a register of a port's block. -/
def portAddr (b : Build) (p off : Nat) : Nat :=
  match portPage b p with
  | some x => regOf true (x.1 * 4096 + off + x.2)
  | none => regOf false 0

/-- A plan is loaded: the quarantine of every port ends, and its neighbour is compared with the plan again. One that passes joins at the
next epoch boundary, or by its admission (R26, R211). -/
def State.replanPorts (s : State) : State :=
  (List.range (linkPorts s.build)).foldl (fun s p =>
    let q := s.port p
    if q.neighbour = 0x7FFFFF then s.modPort p (fun q => { q with expected := s.plannedId p != 0x7FFFFF })
    else
      let s := if q.quar then s.modPort p (fun q => { q with quar := false, dupId := false, released := false }) else s
      let s := s.judge p q.neighbour
      if q.quar && !(s.port p).quar then (s.modPort p (fun q => { q with quar := true, released := true })).rejoin p else s) s

/-! ### Accepting and applying -/

/-- The expulsion budget now, in units of 2^-32 µtok: it rises only at the keeper (R311, R314). -/
def State.budgetNow (s : State) : Nat :=
  if s.convoy.keeper then
    min (fld (s.rd R.OUT_BUDGET_BURST) 11 0 * 1000000 * 4294967296) (s.out.level + (s.now - s.out.levelAt) * s.rd R.OUT_BUDGET_RATE)
  else s.out.level

/-- Bring the budget up to now. -/
def State.budgetRefill (s : State) : State := { s with out := { s.out with level := s.budgetNow, levelAt := s.now } }

/-- The plan makes the unit the keeper, or ends that: the new keeper starts with its own level, and counts boundaries and tokens from 0
(R312, R314). -/
def State.setKeeper (s : State) (on : Bool) : State :=
  let was := s.convoy.keeper
  let s := s.budgetRefill
  let s := { s with convoy := { s.convoy with keeper := on } }
  if on && !was then { s with out := { s.out with steps := 0, spent := 0, deferred := [], advised := [] } }
  else if was && !on then { s with out := { s.out with deferred := [], advised := [] } }
  else s

/-- The part's roles, time tree, membership and neighbours take effect when it is accepted (log entry 26). -/
def State.planRoles (s : State) (p : Plan) : State :=
  let s : State := match p.roles with
    | some (mr, kp, recon, alarm, esc) =>
      let s : State := { s with muster := { s.muster with root := mr && s.build == .h }, convoy := { s.convoy with escStream := esc } }
      let s := s.setKeeper (kp && s.build != .l)
      (s.wr R.CVY_RECON_STREAM recon).wr R.TRF_ALARM_STREAM alarm
    | none => s
  let s : State := match p.timeTree with
    | some (root, pp, alt) => s.timeTree root pp alt
    | none => s
  let s : State := match p.members with
    | (g, t, ps) :: _ => { s with convoy := { s.convoy with group := g, tray := t, packages := ps } }
    | [] => s
  let s : State := match p.neighbours with
    | some ns => ns.foldl (fun s x => s.pwr R.FP_PLAN_NEIGHBOUR x.1 x.2) { s with convoy := { s.convoy with neigh := ns } }
    | none => s
  if s.build = .l then s else s.replanPorts

/-- The 8 bytes of a section header and a body. -/
def sectionBytes (type slot : Nat) (body : List Byte) : List Byte := bytes [type, slot, 0, 0] ++ leBytes 4 body.length ++ body

/-- The plan part that a Selvo-H sends to one leaf: its sections under a header of its own (R181). -/
def Plan.leafPart (p : Plan) (id slot : Nat) : List Byte :=
  let ss := p.leafParts.filter (fun x => x.1 == slot)
  let body := (ss.map (fun x => sectionBytes x.2.1 0 x.2.2)).flatten
  bytes [0x53, 0x56, 0x4E, 0x32] ++ leBytes 2 1 ++ leBytes 2 ss.length ++ leBytes 4 p.gen ++ leBytes 4 p.act ++ leBytes 3 id ++ zeros 1 ++
    leBytes 4 (32 + body.length) ++ zeros 8 ++ body

/-- Selvo-H sends each leaf its part as link-local plan records (R181). -/
def State.sendLeafParts (s : State) (p : Plan) : State :=
  if s.build = .h then
    (List.range 24).foldl (fun s i =>
      if p.leafParts.any (fun x => x.1 == i + 1) then
        s.sendLocal (40 + i) (s.localRec 0x80 2 0 (p.leafPart (s.plannedId (40 + i)) (i + 1)))
      else s) s
  else s

/-- The generations of the plan in force and of the one before it. -/
def State.plansHeld (s : State) : List Nat := (s.convoy.plan.toList ++ s.convoy.prev.toList).map Plan.gen

/-- Judge a read part: accept it, to await its epoch, or reject it whole (R181, R184). Answers the reason, 0 for accepted. -/
def State.takePlan (s : State) (p : Plan) : Nat × State :=
  let why := s.planReason p
  if why = 0 then
    let s := s.planRoles p
    let s := { s with convoy := { s.convoy with pending := some p, adopts := s.convoy.adopts.filter (fun (a : Adopt) => s.plansHeld.contains a.gen && a.gen != p.gen) ++ p.named } }
    let s := ((s.wr R.CVY_PLAN_PENDING p.gen).wr R.CVY_PLAN_ACT p.act).wr R.CVY_PLAN_STATUS (setBitTo (s.rd R.CVY_PLAN_STATUS) 4 false)
    (0, s.sendLeafParts p)
  else
    let v := s.rd R.CVY_PLAN_STATUS
    let s := (s.wr R.CVY_PLAN_STATUS (fld v 31 16 * 65536 + 16 + why)).irq 0x02A 1
    (why, s.event 0x401 (bytes [why, 0, 0, 0] ++ leBytes 4 p.gen ++ leBytes 4 p.act))

/-- The words of Table 6-8 that a plan gives a slot. -/
def State.writeDescr (s : State) (i : Nat) (e : Entry) : State :=
  let port (x : Option Nat) : Nat := x.getD 255
  let s := s.wr R.SLOT_STREAM (e.stream + 65536 + b2n e.root * 131072 + b2n e.tray * 262144 + b2n e.keep * 524288 + e.height * 1048576) (bk := i)
  let s := s.wr R.SLOT_OP (e.op + e.ty * 16 + e.par * 256 + b2n e.dir * 8192 + unsN 16 e.e0 * 65536) (bk := i)
  let s := s.wr R.SLOT_SRC (e.srcKind + e.srcArg * 65536) (bk := i)
  let s := s.wr R.SLOT_STRIDE (e.stride % 256 + e.phase * 256) (bk := i)
  let s := (s.wr R.SLOT_DL_FIRST e.dlFirst (bk := i)).wr R.SLOT_DL_STEP e.dlStep (bk := i)
  let s := (s.wr R.SLOT_PORTS (port e.parent + port e.alt * 256) (bk := i)).wr R.SLOT_EXPECTED e.expected (bk := i)
  let s := (List.range 4).foldl (fun s k => s.wr R.SLOT_INPUTS (e.inputs / 2 ^ (32 * k)) k (bk := i)) s
  if s.build = .l then s.wr R.SLOT_STORE (e.storeOff + e.storeLen * 65536) (bk := i) else s

/-- Every register of a slot returns to its reset value. -/
def State.clearSlotRegs (s : State) (i : Nat) : State :=
  { s with regs := s.regs.filter (fun p => !(p.1 / 2097152 == i && decide (0x02A200 ≤ p.1 % 2097152) && decide (p.1 % 2097152 < 0x02A280))) }

/-- The adoption and relay table: the entries of the plan in force (R219). -/
def State.adoptTable (s : State) : List Adopt := s.convoy.adopts.filter (fun a => s.convoy.plan.map Plan.gen == some a.gen)

/-- Children adopted or relayed now show in CVY_ADOPTED, and on the ports they come by (R217, R220; FP_STATUS[6] also for a relay: DESIGN CHOICE,
log entry 74). -/
def State.showAdopted (s : State) : State :=
  let l := s.adoptTable.filter (fun a => a.st != 0)
  let s := s.wr R.CVY_ADOPTED l.length
  { s with link := { s.link with ports := s.link.ports.zipIdx.map (fun (x : Port × Nat) => { x.1 with adopting := l.any (fun a => a.port == x.2) }) } }

/-- The slot of a stream under a new entry; its counter is compared on where the entry names the same one (R185). -/
def Slot.take (x : Slot) (e : Entry) : Slot :=
  let same := match x.entry with
    | some o => o.srcKind == e.srcKind && o.srcArg == e.srcArg
    | none => false
  { x with entry := some e, ctrLog := if same then x.ctrLog else [] }

/-- The accepted plan comes into force: its streams, slots and tables (R181, R218). Slots of streams it no longer names stay for the epochs
before it. -/
def State.applyPlan (s : State) (p : Plan) : State :=
  let old := s.convoy.slots
  let oldN := old.length
  let keep := p.entries.map (fun (e : Entry) => (e.stream, (assocD Slot.empty e.stream old).take e))
  let rest := (old.filter (fun (x : Nat × Slot) => !p.entries.any (fun e => e.stream == x.1) && (x.2.entry.isSome || !x.2.opens.isEmpty))).map
    (fun (x : Nat × Slot) => (x.1, { x.2 with entry := none }))
  let before := s.convoy.plan.getD (Plan.bare 0 0)
  let s : State := { s with convoy := { s.convoy with plan := some { p with leafParts := [] }, pending := none, prev := some before, slots := keep ++ rest,
                                                      adopts := s.convoy.adopts.filter (fun a => a.gen == p.gen || a.gen == before.gen) } }
  let s : State := (List.range (max oldN keep.length)).foldl (fun (s : State) i =>
    match keep[i]? with
    | some x =>
      let same := match old[i]? with
        | some y => y.1 == x.1
        | none => false
      let s := if same then s else s.clearSlotRegs i
      match x.2.entry with
      | some e => s.writeDescr i e
      | none => s
    | none => s.clearSlotRegs i) s
  let used := p.entries.foldl (fun a e => a + if e.keep then e.storeLen else 0) 0
  let s := if s.build = .l then s.wr R.CVY_STORE_USED used else s
  let s := (((s.wr R.CVY_PLAN_GEN p.gen).wr R.CVY_PLAN_PENDING 0).wr R.CVY_PLAN_ACT 0).showAdopted
  (s.wr R.CVY_PLAN_STATUS (p.entries.length * 65536 + fld (s.rd R.CVY_PLAN_STATUS) 4 0)).irq 0x02A 0

/-- The plan before the one in force holds for the epochs earlier than A, which the serial order tells for 2^30 cuts (R181, R536; log entry 28). -/
def State.planAged (s : State) (num : Nat) : State :=
  match s.convoy.plan with
  | some p => if atOrLater num (w32 (p.act + 2 ^ 30)) then { s with convoy := { s.convoy with prev := none } } else s
  | none => s

/-- At a cut at or later than A, the pending plan comes into force (R181). -/
def State.planAtCut (s : State) (num : Nat) : State :=
  match s.convoy.pending with
  | some p => if atOrLater num p.act then s.applyPlan p else s.planAged num
  | none => s.planAged num

/-- PLAN_RECORD_RECEIVED (R181): a leaf takes its part from its Selvo-H. -/
def execPlanRecordReceived (rec : Rec) (s : State) : Host.Outcome State Fault Refusal :=
  present (s.build == .l)
    (if rec.type = 0x80 then
      match parsePlan .l s.srcId rec.payload with
      | some p => (s.takePlan p).2
      | none => s
    else s)

/-- A word of the adoption and relay table (R219). -/
def adoptWord (a : Adopt) (w : Nat) : Nat :=
  if w = 0 then a.child + a.st * 16777216 else a.slot + a.port * 256 + a.parentPort * 65536 + a.bit * 16777216 + b2n a.relay * 2147483648

end Sys2Proof.Machine
end

