-- ==== Sys2Proof/Machine/Convoy.lean ====
section
/-! DEFINITION. Convoys: epochs, contributions, merging and publication, adoption and relay, the broadcast and its reach reports
(R178 to R210, R48). -/

namespace Sys2Proof.Machine

def State.modSlot (s : State) (stream : Nat) (f : Slot → Slot) : State :=
  { s with convoy := { s.convoy with slots := s.convoy.slots.map (fun (p : Nat × Slot) => if p.1 = stream then (p.1, f p.2) else p) } }

/-- The slot of a number, with its stream. -/
def State.slotNo (s : State) (i : Nat) : Option (Nat × Slot) := s.convoy.slots[i]?

/-- A stream that the plan names as a convoy (R178). -/
def State.isConvoy (s : State) (stream : Nat) : Bool := (s.slotAt stream).isSome

/-- The unit takes part in convoys, musters and broadcasts: it has an identity (R24). -/
def State.hasId (s : State) : Bool := s.srcId != 0x7FFFFF && !s.fatal

/-! ### Inputs and ports (Table 6-4, R28, R207, R220) -/

/-- The link ports of an input bit, in order of preference for a stream. Cross-tray child n of a Selvo-T is collector entry n, and an entry to
the other member of its tray is the same input (R207; DESIGN CHOICE, log entry 28). -/
def State.bitPorts (s : State) (stream bit : Nat) : List Nat :=
  match s.build with
  | .l => []
  | .h => if 1 ≤ bit ∧ bit ≤ 24 then [39 + bit] else if 32 ≤ bit ∧ bit < 68 then [bit - 32] else []
  | .t => if 1 ≤ bit ∧ bit ≤ 8 then [2 * (bit - 1) + stream % 2, 2 * (bit - 1) + (1 - stream % 2)]
    else if 32 ≤ bit ∧ bit < 40 then bit :: (((List.range 8).filter (fun d => d + 32 != bit && s.sameTray (bit - 32) d)).map (fun d => d + 32))
    else []

/-- The input bit of a port. -/
def State.portBit (s : State) (p : Nat) : Option Nat :=
  match s.build with
  | .l => none
  | .h => if p < 36 then some (32 + p) else if 40 ≤ p ∧ p < 64 then some (p - 39) else none
  | .t => if p < 16 then some (p / 2 + 1) else if 32 ≤ p ∧ p < 40 then ((List.range 8).find? (fun d => s.sameTray (p - 32) d)).map (fun d => d + 32) else none

/-- An Ethernet neighbour of a Selvo-T, by its port number. -/
def ethPort (b : Build) (p : Nat) : Bool := b == .t && decide (32 ≤ p) && decide (p < 40)

/-- A port that waits to join, or whose neighbour is missing: absent from every convoy (R20, R211, R316). -/
def State.absentPort (s : State) (p : Nat) : Bool := !ethPort s.build p && ((s.port p).joining || (s.port p).missing)

/-- A port carries a convoy now: usable, not in quarantine, not waiting to join, not missing. -/
def State.convoyPort (s : State) (p : Nat) : Bool := s.portOpen p && !s.absentPort p

/-- The port an input is reached by. -/
def State.inputPort (s : State) (stream bit : Nat) : Option Nat := (s.bitPorts stream bit).find? (fun p => s.convoyPort p)

/-- The ones of a bitmap. -/
def bitsOf (v : Nat) : List Nat := (List.range 128).filter (fun i => v.testBit i)

/-- Input bits, without the unit's own, that cannot be awaited now (R197). -/
def State.downInputs (s : State) (e : Entry) : Nat :=
  (bitsOf e.inputs).foldl (fun a b => if b != 0 && (s.inputPort e.stream b).isNone then a ||| 2 ^ b else a) 0

/-- Send a record to a convoy neighbour: queued on its port, or handed to the peer session that reaches it (R464). -/
def State.sendNeighbour (s : State) (p : Nat) (r : Rec) (tallied : Bool) : State :=
  if ethPort s.build p then
    if s.peerUp p then
      let (uid, s) := s.newPend r.stream tallied none 1
      s.peerSend p uid r
    else if tallied then s.dropped r.stream 1 else s
  else s.sendPort p r tallied

/-! ### Plans and epochs (R179 to R181) -/

/-- The plan that holds for an epoch: the pending one from its activation on; before the activation of the one in force, the one before it. -/
def State.planFor (s : State) (epoch : Nat) : Option Plan :=
  let cur := match s.convoy.plan, s.convoy.prev with
    | some p, some q => if atOrLater epoch p.act then some p else some q
    | p, _ => p
  match s.convoy.pending with
  | some p => if atOrLater epoch p.act then some p else cur
  | none => cur

/-- The stream's entry for an epoch. -/
def State.entryFor (s : State) (stream epoch : Nat) : Option Entry := (s.planFor epoch).bind (fun p => p.entries.find? (fun e => e.stream == stream))

/-- The plan generation that holds for an epoch. -/
def State.genFor (s : State) (epoch : Nat) : Option Nat := (s.planFor epoch).map Plan.gen

/-- The adoption and relay entries of a plan, by its generation. -/
def State.adoptsOf (s : State) (gen : Nat) : List Adopt := s.convoy.adopts.filter (fun a => a.gen == gen)

/-- One of them, by its place in the table. -/
def State.adoptOf (s : State) (gen k : Nat) : Option Adopt := (s.adoptsOf gen)[k]?

/-- The epoch is one that the stream reduces (R179). -/
def Entry.takes (e : Entry) (epoch : Nat) : Bool := epoch % e.stride == e.phase % e.stride

/-- T_e of an epoch: the time of the cut of that number under the schedule held, else of the last cut, else now. -/
def State.epochTime (s : State) (epoch : Nat) : Nat :=
  let cutNum := match s.muster.image with
    | some img => some (img.num, img.t)
    | none => none
  match cutNum with
  | some (n, t) => if n = epoch then t else
    (match s.muster.cur with
     | some c => if atOrLater epoch c.base then c.tk ((epoch + 2 ^ 32 - c.base) % 2 ^ 32) else s.now
     | none => s.now)
  | none =>
    match s.muster.cur with
    | some c => if atOrLater epoch c.base then c.tk ((epoch + 2 ^ 32 - c.base) % 2 ^ 32) else s.now
    | none => s.now

/-- The instant of an open epoch's deadline (R197). -/
def Open.deadline (o : Open) : Nat := o.te + nsTime (o.entry.dlFirst + o.entry.height * o.entry.dlStep)

/-! ### Forming the packet (R185, R190, R193, R197 to R200) -/

/-- Fields that a merge sums over the inputs. -/
def sumHdr (l : List CHdr) (f : CHdr → Nat) : Nat := l.foldl (fun a h => a + f h) 0

/-- The place of an input in the membership bitmap: an adopted child's is that of the port it arrives on (R188, Table 6-4). -/
def State.bitOfInput (s : State) (gen : Nat) (c : Contr) : Option Nat :=
  if c.bit < 128 then some c.bit else (s.adoptOf gen (c.bit - 1000)).bind (fun a => s.portBit a.port)

/-- The result of an open epoch: header flags but for the unit's own, and the payload after the manifest. -/
def State.formPacket (s : State) (o : Open) (drops : List Nat) (forced : Bool) (order : List Nat) : CHdr × List Byte :=
  let e := o.entry
  let hs := o.inputs.map (fun c => parseHdr c.r.payload)
  let pays := o.inputs.map (fun c => parsePay e.op e.ty e.par (c.r.payload.drop 80))
  let (pay, sat) := if pays.isEmpty then (identity e.op e.par e.e0, false)
    else if pays.length = 1 then (pays.headD (identity e.op e.par e.e0), false)
    else mergePays e.op e.ty e.par e.dir e.e0 order pays
  let cnt := sumHdr hs CHdr.contributors
  let missing := e.expected - cnt
  let flags := (if missing = 0 then 0 else fPartial) + (if cnt = 0 then fEmpty else 0) +
    (if o.disc || hs.any (fun h => bitOf h.flags 2) then fDisc else 0) + (if sat || hs.any (fun h => bitOf h.flags 3) then fSat else 0) +
    (if forced then fForced else 0) + (if o.adopted then fAdopted else 0)
  let depth := (hs.map CHdr.depth).foldl max 0 + clog2 pays.length
  let dropped := (List.range 8).map (fun i => satAdd 32 (drops.getD i 0) (sumHdr hs (fun h => h.dropped.getD i 0)))
  let bitmap := o.inputs.foldl (fun a c => match s.bitOfInput o.gen c with
    | some b => a ||| 2 ^ b
    | none => a) 0
  let h : CHdr := { epoch := o.epoch, op := e.op, ty := e.ty, par := e.par, dir := e.dir, flags := flags, height := e.height,
                    pairB := s.build == .t && fld s.core.straps 1 0 == 2, contributors := cnt, missing := missing, merged := o.merged, depth := depth,
                    dropped := dropped, gen := o.gen, bitmap := bitmap }
  (h, hdrBytes h ++ payBytes e.op e.ty pay)

/-! ### Sending up (R37, R201, R207) -/

/-- A packet finds no way to a port: dropped link-down, and counted there (R46, Table 6-9). -/
def State.noWay (s : State) (port : Nat) (r : Rec) (tallied : Bool) : State :=
  if tallied then (s.dropped r.stream 1).pbump R.FP_DROP_LINKDOWN port else s

/-- Send a packet to the parent alone: what a unit relays for a sibling goes to the root, or is lost with that link (R204, R206). -/
def State.sendRoot (s : State) (e : Entry) (r : Rec) (tallied : Bool) : State :=
  match e.parent with
  | some p => if s.portOpen p then s.sendNeighbour p r tallied else s.noWay p r tallied
  | none => s.noWay 255 r tallied

/-- Send a packet of a stream towards its parent: to both members on the tray plane, to the parent, or to the alternate. -/
def State.sendParent (s : State) (e : Entry) (r : Rec) (tallied : Bool) : State :=
  if s.build = .l then (if (s.port 0).usable then s.sendPort 0 r tallied else s.noWay 0 r tallied)
  else if s.build = .h ∧ e.tray then
    let ps := (s.upPorts r.stream).filter (fun p => s.portOpen p)
    if ps.isEmpty then s.noWay (36 + r.stream % 2) r tallied
    else
      let (uid, s) := s.newPend r.stream tallied none ps.length
      ps.foldl (fun s p => s.enqueue p uid r) s
  else
    let onAlt := s.convoy.onAlt.any (fun x => x.1 == e.stream)
    let up (x : Option Nat) : Option Nat := x.filter (fun p => s.portOpen p)
    match (if onAlt then none else up e.parent), up e.alt with
    | some p, _ => s.sendNeighbour p r tallied
    | none, some q =>
      let s := if onAlt then s else { s with convoy := { s.convoy with onAlt := s.convoy.onAlt ++ [(e.stream, false)] } }
      s.sendNeighbour q r tallied
    | none, none => s.sendRoot e r tallied

/-! ### Reach reports (R210) -/

/-- The payload of a reach report: the header, then the units reached and the orphans (log entry 28). -/
def reachBytes (h : CHdr) (reached : Nat) (orphans : List Nat) : List Byte :=
  let l := orphans.take 16
  hdrBytes h ++ leBytes 4 reached ++ leBytes 4 l.length ++ (l.map (leBytes 4)).flatten

/-- A 0x41 or 0x42 packet that the unit originates: its sequence is the epoch, and the stream's count goes on (R34, R187, R210). -/
def State.epochRec (s : State) (type stream epoch : Nat) (payload : List Byte) : Rec × State :=
  ({ length := payload.length, flags := s.sumFlag, tc := 1, type := type, hops := 0, source := s.srcId, level := 0, rsv := 0, stream := stream, seq := epoch,
     stamp := s.stamp, payload := payload },
   { s with link := { s.link with seqs := assocSet stream (w32 (s.seqOf stream + 1)) s.link.seqs } })

/-- Send a reach report for an epoch to the parent. -/
def State.sendReach (s : State) (e : Entry) (h : CHdr) (reached : Nat) (orphans : List Nat) : State :=
  let (r, s) := s.epochRec 0x42 e.stream h.epoch (reachBytes h reached orphans)
  s.sendParent e r false

def State.modBcast (s : State) (stream epoch : Nat) (f : Bcast → Bcast) : State :=
  s.modSlot stream (fun x => { x with bcasts := x.bcasts.map (fun (b : Bcast) => if b.epoch = epoch then f b else b) })

/-- The broadcast of an epoch that a slot still holds, with the slot and the entry that holds for the epoch. -/
def State.bcastOf (s : State) (stream epoch : Nat) : Option (Nat × Entry × Bcast) :=
  match s.slotAt stream, s.entryFor stream epoch with
  | some (i, sl), some e => (sl.bcasts.find? (fun b => b.epoch == epoch)).map (fun b => (i, e, b))
  | _, _ => none

/-- SLOT_BC_REACHED shows the units reached by the last broadcast that the root has the total of (Table 6-8). -/
def State.showReached (s : State) (stream : Nat) : State :=
  match s.slotAt stream with
  | some (i, sl) => match sl.bcasts.find? (fun b => b.reported) with
    | some b => s.wr R.SLOT_BC_REACHED b.reached (bk := i)
    | none => s
  | none => s

/-- Every child has acknowledged or is an orphan, and the report of each that acknowledged is in. -/
def Bcast.done (b : Bcast) : Bool := b.kids.all (fun k => k.orphan || (k.acked && k.report))

/-- Report to the parent, or hold the total at the root (R210). -/
def State.reachReport (s : State) (stream epoch : Nat) : State :=
  match s.bcastOf stream epoch with
  | some (_, e, b) =>
    if b.reported then s
    else
      let s := s.modBcast stream epoch (fun b => { b with reported := true })
      if e.root then
        let s := s.showReached stream
        if b.orphans.isEmpty then s
        else
          -- a sibling that relays for an orphan of the root learns of it by the root's report (log entry 28)
          let (r, s) := s.epochRec 0x42 stream epoch (reachBytes (parseHdr b.r.payload) 0 b.orphans)
          (bitsOf e.inputs).foldl (fun s bit => match s.inputPort stream bit with
            | some p => s.sendNeighbour p r false
            | none => s) s
      else s.sendReach e (parseHdr b.r.payload) b.reached b.orphans
  | none => s

/-- The root's packet that no child will acknowledge has met its fate: delivered where there is no child, else lost with its links (R200; log
entry 28). -/
def State.bcastFate (s : State) (stream epoch : Nat) : State :=
  match s.bcastOf stream epoch with
  | some (_, _, b) =>
    match b.fate with
    | some u => if b.kids.all (fun k => k.orphan) then
        let s := s.modBcast stream epoch (fun b => { b with fate := none })
        if b.kids.isEmpty then s.fateDelivered u else s.fateLost u 1
      else s
    | none => s
  | none => s

/-- Report as soon as everything is in. -/
def State.reachCheck (s : State) (stream epoch : Nat) : State :=
  let s := s.bcastFate stream epoch
  match s.bcastOf stream epoch with
  | some (_, _, b) => if b.done then s.reachReport stream epoch else s
  | none => s

/-- Units reached after the unit's own report are added to the total by a further report; at the root they add to it (R210). -/
def State.reachLate (s : State) (stream epoch n : Nat) (orphans : List Nat) : State :=
  match s.bcastOf stream epoch with
  | some (_, e, b) =>
    let s := s.modBcast stream epoch (fun b => { b with reached := b.reached + n, orphans := if b.reported then b.orphans else (b.orphans ++ orphans).take 16 })
    if !b.reported then s
    else if e.root then s.showReached stream
    else s.sendReach e (parseHdr b.r.payload) n orphans
  | none => s

/-- What acknowledgements have brought to the broadcasts of a stream: orphans reached are reported, and a report that waited for an
acknowledgement goes (R210). -/
def State.reachSettle (s : State) : State :=
  let l := (s.convoy.slots.map (fun p => p.2.bcasts.map (fun (b : Bcast) => (p.1, b.epoch, (b.extra.filter (fun x => x.2)).length)))).flatten
  l.foldl (fun (s : State) x =>
    let s := if x.2.2 = 0 then s
      else (s.modBcast x.1 x.2.1 (fun b => { b with extra := b.extra.filter (fun y => !y.2) })).reachLate x.1 x.2.1 x.2.2 []
    s.reachCheck x.1 x.2.1) s

/-- LINK_CTL_RECEIVED (R226): the counts apply, and broadcasts whose children have acknowledged go on (R210). -/
def execLinkCtlReceived (port : Nat) (entries : List (Nat × Nat × Nat)) (s : State) : Host.Outcome State Fault Refusal :=
  present (decide (port < linkPorts s.build)) (s.linkCtl port entries).reachSettle

/-- The source ID of a child by its port. -/
def State.childId (s : State) (stream bit : Nat) : Nat :=
  match s.bitPorts stream bit with
  | p :: _ => if (s.port p).neighbour = 0x7FFFFF ∨ ethPort s.build p then s.plannedId p else (s.port p).neighbour
  | [] => 0x7FFFFF

/-- A child is given up: it is named as an orphan (R209, R217). -/
def State.orphan (s : State) (stream epoch bit : Nat) : State :=
  let id := s.childId stream bit
  let s := s.modBcast stream epoch (fun b =>
    { b with kids := b.kids.map (fun (k : Kid) => if k.bit = bit then { k with orphan := true } else k), orphans := b.orphans ++ [id] })
  ((s.bumpSat R.CVY_ORPHANS).irq 0x02A 5).reachCheck stream epoch

/-- Send the result of a broadcast to one child: its port, under a name of its own. -/
def State.bcastTo (s : State) (stream epoch bit : Nat) (resend : Bool) : State :=
  match s.bcastOf stream epoch, s.inputPort stream bit with
  | some (_, _, b), some p =>
    let (uid, s) := s.newPend stream false none 1
    let s := if ethPort s.build p then s.peerSend p uid b.r else s.enqueue p uid b.r
    s.modBcast stream epoch (fun b => { b with kids := b.kids.map (fun (k : Kid) =>
      if k.bit = bit then { k with uid := uid, sentAt := s.time.cycles, acked := false, resends := if resend then k.resends + 1 else k.resends } else k) })
  | some _, none => s.orphan stream epoch bit
  | none, _ => s

/-- A broadcast that gives way to four later ones takes the root's open fate with it, undelivered (log entry 28). -/
def State.bcastDrop (s : State) (b : Bcast) : State :=
  match b.fate with
  | some u => s.fateLost u 1
  | none => s

/-- Forward a result to the unit's own inputs and begin gathering their reports (R208 to R210). -/
def State.bcastStart (s : State) (e : Entry) (r : Rec) (epoch : Nat) (fate : Option Nat) : State :=
  let kids := (bitsOf e.inputs).filter (fun b => b != 0)
  let b : Bcast := { epoch := epoch, fate := fate, extra := [], r := r, sentAt := s.time.cycles, reached := 1, orphans := [], reported := false,
                     kids := kids.map (fun k => { bit := k, acked := false, orphan := false, resends := 0, uid := 2 ^ 64, sentAt := 0, report := false }) }
  let old := match s.slotAt e.stream with
    | some (_, x) => x.bcasts.drop 3
    | none => []
  let s := s.modSlot e.stream (fun x => { x with bcasts := b :: x.bcasts.take 3 })
  let s := old.foldl (fun (s : State) b => s.bcastDrop b) s
  let s := kids.foldl (fun s k => s.bcastTo e.stream epoch k false) s
  s.reachCheck e.stream epoch

/-- A result is applied: kept in its slot, at a Selvo-L in the result store at the offset and length that the plan gives, and shown (R186, R208,
Table 6-8). -/
def State.applyResult (s : State) (i : Nat) (e : Entry) (r : Rec) : State :=
  let h := parseHdr r.payload
  let s := s.modSlot e.stream (fun x => { x with applied := some h.epoch, result := if s.build = .l then x.result else some r })
  if s.build = .l then
    let s : State := if e.keep then
        { s with convoy := { s.convoy with store := memWrite 0 e.storeOff ((packet r ++ zeros e.storeLen).take e.storeLen) s.convoy.store } }
      else s
    (((s.wr R.SLOT_LAST_EPOCH h.epoch (bk := i)).wr R.SLOT_LAST_COUNT h.contributors (bk := i)).wr R.SLOT_LAST_MISSING h.missing (bk := i)).wr
      R.SLOT_LAST_FLAGS (h.flags + h.depth * 256) (bk := i)
  else s

/-! ### Publication (R197, R199, R200) -/

/-- The conservation check at the root of the reconciliation stream (R48). -/
def State.conservation (s : State) (e : Entry) (h : CHdr) (body : List Byte) : State :=
  if e.root ∧ e.op = 1 ∧ e.par = 5 ∧ e.stream = s.rd R.CVY_RECON_STREAM ∧ bitOf h.flags 2 = false then
    let v := (parsePay 1 0 5 body).vals
    let diff : Int := (v.getD 0 0 : Int) - ((v.getD 1 0 + v.getD 2 0 + v.getD 3 0 + v.getD 4 0 : Nat) : Int)
    if diff = 0 then s
    else (s.irq 0x02A 7).event 0x402 (leBytes 2 e.stream ++ zeros 2 ++ leBytes 4 h.epoch ++ leBytes 4 (satSgn 32 diff))
  else s

/-- A convoy packet is dropped for a reason of Table 2-2: produced, then dropped. -/
def State.convoyDrop (s : State) (r : Rec) (reason : Nat) : State := (s.produced r.stream).dropped r.stream reason

/-- A packet is removed as a duplicate (R202, R208). -/
def State.convoyDup (s : State) (i : Nat) (r : Rec) : State :=
  ((if r.type = 0x40 then s.dupCounted r.stream else s).bumpSat R.SLOT_DUP 1 (bk := i)).bumpSat R.CVY_DUP

/-- Merge what still waits in an open epoch as it is published: adopted packets whose parent's packet is absent, and of a pair the
packet with more contributors, A's on a tie (R203, R207). -/
def State.mergeHeld (s : State) (i stream : Nat) (o : Open) : Open × State :=
  o.held.foldl (fun acc c =>
    let (o, s) := acc
    if 1000 ≤ c.bit then
      ({ o with inputs := o.inputs ++ [c], merged := o.merged + 1, adopted := true }, (s.produced stream).merged stream)
    else if o.inputs.any (fun x => x.bit == c.bit) then (o, s.convoyDup i c.r)
    else
      let rivals := o.held.filter (fun x => x.bit == c.bit)
      let h := parseHdr c.r.payload
      let better (x : Contr) : Bool :=
        let g := parseHdr x.r.payload
        decide (h.contributors < g.contributors) || (g.contributors == h.contributors && h.pairB && !g.pairB)
      if rivals.any better then (o, s.convoyDup i c.r)
      else ({ o with inputs := o.inputs ++ [c], merged := o.merged + 1 }, (s.produced stream).merged stream)) ({ o with held := [] }, s)

/-- The entries of the adoption table whose child the packet of its parent carries in an open epoch (R203). -/
def State.carriedBy (s : State) (stream : Nat) (o : Open) : List Nat :=
  (List.range (s.adoptsOf o.gen).length).filter (fun k => match s.adoptOf o.gen k with
    | some a => a.stream == stream && !a.relay && o.inputs.any (fun c => some c.bit == s.portBit a.parentPort && (parseHdr c.r.payload).bitmap.testBit a.bit)
    | none => false)

/-- What the registers and the slot show of a publication (Tables 6-7, 6-8, R199). -/
def State.publishShow (s : State) (i stream epoch : Nat) (o : Open) (h : CHdr) (forced : Bool) : State :=
  let s := s.modSlot stream (fun x => { x with opens := x.opens.filter (fun p => p.epoch != epoch), dropBelow := List.replicate 8 0,
                                               members := ((epoch, h.bitmap) :: x.members).take 4,
                                               carried := ((epoch, s.carriedBy stream o) :: x.carried).take 4 })
  let s := if bitOf h.flags 0 then s.bumpSat R.CVY_PARTIAL else s
  let s := if forced then s.bumpSat R.CVY_FORCED else s
  let s := if s.build = .l then s else
    let s := ((s.wr R.SLOT_LAST_EPOCH epoch (bk := i)).wr R.SLOT_LAST_COUNT h.contributors (bk := i)).wr R.SLOT_LAST_MISSING h.missing (bk := i)
    s.wr R.SLOT_LAST_FLAGS (h.flags + h.depth * 256) (bk := i)
  (List.range 4).foldl (fun s k => s.wr R.SLOT_MEMBERS (h.bitmap / 2 ^ (32 * k)) k (bk := i)) s

/-- Where a published packet goes: to the parent, or, at the root, into the result and its broadcast (R200, R208). -/
def State.publishSend (s : State) (i stream epoch : Nat) (e : Entry) (h : CHdr) (payload : List Byte) : State :=
  if e.root then
    let (r, s) := s.epochRec 0x41 stream epoch payload
    let (u, s) := (s.produced stream).newPend stream true none 1
    let s := if bitOf h.flags 0 then s.irq 0x02A 2 else s
    let s := s.conservation e h (payload.drop 80)
    (s.applyResult i e r).bcastStart e r epoch (some u)
  else
    let (r, s) := s.originateRaw 0x40 1 stream payload
    s.sendParent e r true

/-- Publish an open epoch: the packet goes to the parent, or the root starts the broadcast. -/
def State.publishNow (s : State) (stream epoch : Nat) (forced : Bool) : State :=
  match s.slotAt stream with
  | none => s
  | some (i, sl) =>
    match sl.opens.find? (fun o => o.epoch == epoch) with
    | none => s
    | some o0 =>
      let (o, s) := s.mergeHeld i stream o0
      let (order, s) := s.drawOrder (2 ^ clog2 o.inputs.length)
      let (h, payload) := s.formPacket o sl.dropBelow forced order
      (s.publishShow i stream epoch o h forced).publishSend i stream epoch o.entry h payload

/-! ### Work of class W1 (R401, R403, R407) -/

/-- The health score of the unit's own die for a muster; none while it is not scored, and when it is absent (R298). -/
def State.ownHealth (s : State) (num : Nat) : Option Nat :=
  match s.out.dies.find? (fun p => p.1 == 0) with
  | some (_, d) => if d.scored ∧ d.num = num then d.score else none
  | none => none

/-- The feature pass of a muster is awaited or runs. -/
def State.passComing (s : State) (num : Nat) : Bool :=
  s.feat.await == some num || (match s.feat.run with
    | some p => p.num == num
    | none => false)

/-- The unit is still to take the cut of a number: a schedule holds it, and has neither taken it nor passed it over (R160, R171, R197). -/
def State.cutToCome (s : State) (num : Nat) : Bool :=
  s.muster.scheds.any (fun c => let k := (num + 2 ^ 32 - c.base) % 2 ^ 32
    decide (c.k ≤ k) && decide (k < 2 ^ 31) && (s.cutAt c k).isSome)

/-- The unit's own contribution to an open epoch may still come (R197, R252): its cut is to come, or the image or pass is not done. -/
def State.ownComing (s : State) (o : Open) : Bool :=
  let e := o.entry
  if e.srcKind = 0 ∨ !bitOf (s.rd R.CVY_CTRL) 0 ∨ o.inputs.any (fun c => c.bit == 0) then false
  else
    match s.muster.imageOf o.epoch with
    | some img =>
      if e.srcKind = 3 ∧ img.complete then s.passComing o.epoch || (s.feat.committed && s.feat.lastNum == o.epoch)
      else if e.srcKind = 4 ∧ img.complete then
        s.passComing o.epoch || s.tree.wait.any (fun x => x.num == o.epoch) || s.tree.queue.any (fun x => x.1.self && x.1.num == o.epoch) ||
        s.out.results.any (fun x => x.sample.self && x.sample.num == o.epoch) || (s.ownHealth o.epoch).isSome
      else !img.coreOff
    | none => s.cutToCome o.epoch

/-- Every input awaited is merged (R197). -/
def State.openComplete (s : State) (o : Open) : Bool :=
  !s.ownComing o && (bitsOf o.entry.inputs).all (fun b => b == 0 || o.notAwaited.testBit b || o.inputs.any (fun c => c.bit == b))

/-- A piece of convoy work waits. -/
def State.workWait (s : State) (w : ConvoyWork) : State := { s with convoy := { s.convoy with work := s.convoy.work ++ [w] } }

/-- Queue or do a piece of convoy work: in the order queued, as class W1 covers it. -/
def State.workOr (s : State) (w : ConvoyWork) (now : State → State) : State :=
  if !s.convoy.work.isEmpty then s.workWait w
  else
    match s.grant 1 s.costConvoy with
    | some t => now t
    | none => s.workWait w

/-- Publish, as W1 allows; a publication already waiting is not queued twice. -/
def State.publish (s : State) (stream epoch : Nat) (forced : Bool) : State :=
  if s.convoy.work.any (fun w => match w with
      | .publish st ep _ => st == stream && ep == epoch
      | _ => false) then s
  else s.workOr (.publish stream epoch forced) (fun s => s.publishNow stream epoch forced)

/-- Publish an epoch once nothing more is awaited. -/
def State.publishIfDone (s : State) (stream epoch : Nat) : State :=
  match s.slotAt stream with
  | some (_, sl) => match sl.opens.find? (fun o => o.epoch == epoch) with
    | some o => if s.build != .l && s.openComplete o then s.publish stream epoch false else s
    | none => s
  | none => s

/-- Publish every open epoch that awaits nothing more. -/
def State.publishDone (s : State) : State :=
  (s.convoy.slots.map (fun p => p.2.opens.map (fun (o : Open) => (p.1, o.epoch)))).flatten.foldl (fun (s : State) x => s.publishIfDone x.1 x.2) s

/-! ### Opening an epoch (R180) -/

/-- Open an epoch of a slot; a fifth publishes the oldest with FORCED. An island whose marker is still to come makes it discontinuous (R49, R199). -/
def State.openEpoch (s : State) (stream epoch : Nat) : State :=
  match s.slotAt stream with
  | none => s
  | some (_, sl) =>
    match s.entryFor stream epoch, s.genFor epoch with
    | some e, some g =>
      let s := if 4 ≤ sl.opens.length then
          (match sl.opens.foldl (fun (a : Option Open) o => match a with
              | none => some o
              | some b => if laterThan b.epoch o.epoch then some o else some b) none with
           | some o => s.publishNow stream o.epoch true
           | none => s)
        else s
      let o : Open := { epoch := epoch, gen := g, entry := e, te := s.epochTime epoch, inputs := [], held := [], merged := 0, adopted := false,
                        notAwaited := s.downInputs e, disc := !s.core.discIslands.isEmpty }
      s.modSlot stream (fun x => { x with opens := x.opens ++ [o], latest := some epoch })
    | _, _ => s

/-- The epoch can still open: nothing later has opened (R198). -/
def Slot.canOpen (x : Slot) (epoch : Nat) : Bool :=
  match x.latest with
  | none => true
  | some l => laterThan epoch l

def State.modOpen (s : State) (stream epoch : Nat) (f : Open → Open) : State :=
  s.modSlot stream (fun x => { x with opens := x.opens.map (fun o => if o.epoch = epoch then f o else o) })

/-- The source counter of a stream at a cut, where its source is a counter delta (R185): the last four are enough for the images held. -/
def State.logCtr (s : State) (stream : Nat) (e : Entry) (num : Nat) : State :=
  match s.muster.imageOf num with
  | some img => if e.srcKind = 1 then s.modSlot stream (fun x => { x with ctrLog := ((num, assocD 0 e.srcArg img.ctrs) :: x.ctrLog).take 4 }) else s
  | none => s

/-- At a cut every stream that reduces this number opens its epoch; what is down at T_e is not awaited, and a marker of this very cut makes it
discontinuous (R49, R179, R197, R199). -/
def State.openAtCut (s : State) (num : Nat) : State :=
  let disc := match s.muster.imageOf num with
    | some img => !img.discIslands.isEmpty
    | none => false
  s.convoy.slots.foldl (fun s p =>
    match s.entryFor p.1 num with
    | some e =>
      if e.takes num then
        let s := s.logCtr p.1 e num
        let s := if (match s.slotAt p.1 with
            | some (_, x) => x.canOpen num
            | none => false) && s.build != .l then s.openEpoch p.1 num else s
        (s.modOpen p.1 num (fun o => { o with te := s.epochTime num, notAwaited := s.downInputs e, disc := o.disc || disc })).publishIfDone p.1 num
      else s
    | none => s) s

/-! ### Receiving a 0x40 packet (R198, R202 to R204) -/

/-- A late packet (R198). -/
def State.convoyLate (s : State) (i : Nat) (r : Rec) (epoch bit : Nat) : State :=
  let s := s.convoyDrop r 7
  let s := ((s.bumpSat R.SLOT_LATE 1 (bk := i)).bumpSat R.CVY_LATE).irq 0x02A 3
  let old := match s.slotAt r.stream with
    | some (_, x) => x.lateEpoch
    | none => none
  let k := bit / 32
  let s := if old = some epoch then s else (List.range 4).foldl (fun s j => s.wr R.SLOT_LATE_MAP 0 j (bk := i)) s
  let s := s.wr R.SLOT_LATE_MAP (s.rd R.SLOT_LATE_MAP k (bk := i) ||| 2 ^ (bit % 32)) k (bk := i)
  s.modSlot r.stream (fun x => { x with lateEpoch := some epoch })

/-- The packet fits the slot's entry (R189, R194, Table 6-5). -/
def fitsEntry (e : Entry) (h : CHdr) (payload : List Byte) : Bool :=
  let body := payload.drop 80
  h.op == e.op && h.ty == e.ty && h.par == e.par && h.dir == e.dir && decide (80 ≤ payload.length) &&
    body.length == payLen e.op e.par (leAt body 0 4) && (e.op != 5 || decide (leAt body 0 4 ≤ e.par)) && (e.op != 6 || sgnN 16 (leAt body 0 2) == e.e0)

/-- The bit whose neighbour presents a source ID: a relayed packet is its sender's own (R204). -/
def State.bitOfId (s : State) (e : Entry) (id : Nat) : Option Nat :=
  (bitsOf e.inputs).find? (fun b => b != 0 && s.childId e.stream b == id)

/-- An adopted packet merges (R203). -/
def State.mergeAdopted (s : State) (stream epoch : Nat) (c : Contr) : State :=
  ((s.modOpen stream epoch (fun o => { o with inputs := o.inputs ++ [c], merged := o.merged + 1 })).produced stream).merged stream

/-- When a parent's packet is in, each packet adopted from its children merges if the parent's bitmap lacks it, else it is a
duplicate (R203). -/
def State.resolveAdopted (s : State) (i stream epoch port : Nat) (h : CHdr) : State :=
  match s.slotAt stream with
  | none => s
  | some (_, sl) =>
    match sl.opens.find? (fun o => o.epoch == epoch) with
    | none => s
    | some o =>
      o.held.foldl (fun s c =>
        match s.adoptOf o.gen (c.bit - 1000) with
        | some a =>
          if 1000 ≤ c.bit ∧ a.parentPort = port then
            let s := s.modOpen stream epoch (fun o => { o with held := o.held.filter (fun x => x.bit != c.bit) })
            if h.bitmap.testBit a.bit then s.convoyDup i c.r else s.mergeAdopted stream epoch c
          else s
        | none => s) s

/-- The other member of a cross-tray child's pair is in service: an entry to it has its session open (R207). -/
def State.twinUp (s : State) (port : Nat) : Bool :=
  ethPort s.build port && (List.range 8).any (fun d => d + 32 != port && s.sameTray (port - 32) d && s.peerUp (d + 32))

/-- Merge a packet into its open epoch, and publish when nothing more is awaited. A PARTIAL packet of one member of a pair waits while the other
may still send (R207). -/
def State.convoyMerge (s : State) (i port bit : Nat) (r : Rec) (h : CHdr) : State :=
  let stream := r.stream
  let pair := bitOf h.flags 0 && s.twinUp port
  if pair then
    (s.modOpen stream h.epoch (fun o => { o with held := o.held ++ [{ bit := bit, r := r }] })).publishIfDone stream h.epoch
  else
    let waiting := match s.slotAt stream with
      | some (_, x) => match x.opens.find? (fun o => o.epoch == h.epoch) with
        | some o => (o.held.filter (fun c => c.bit == bit)).length
        | none => 0
      | none => 0
    let s := (List.range waiting).foldl (fun s _ => s.convoyDup i r) s
    let s := s.modOpen stream h.epoch (fun o => { o with inputs := o.inputs ++ [{ bit := bit, r := r }], merged := o.merged + 1,
                                                         held := o.held.filter (fun c => c.bit != bit) })
    let s := (s.produced stream).merged stream
    (s.resolveAdopted i stream h.epoch port h).publishIfDone stream h.epoch

/-- How many children of a stream are adopted or relayed now (R205). -/
def State.adoptCount (s : State) (a : Adopt) : Nat := (s.convoy.adopts.filter (fun x => x.gen == a.gen && x.stream == a.stream && x.st != 0)).length

/-- Adoption or relay begins for a child, or is refused beyond 16 per stream (R205). -/
def State.beginAdopt (s : State) (a : Adopt) : Bool × State :=
  if a.st ≠ 0 then (true, s)
  else if 16 ≤ s.adoptCount a then (false, s)
  else
    let s := { s with convoy := { s.convoy with adopts := s.convoy.adopts.map (fun x => if x = a then { a with st := if a.relay then 2 else 1 } else x) } }
    (true, s.showAdopted.irq 0x02A 4)

/-- A packet of a child that the adoption and relay table names on this port. A refused child's packet is its own loss, which the adopter neither
takes nor counts (R46, R205; log entry 84). -/
def State.adoptPacket (s : State) (k i : Nat) (a : Adopt) (e : Entry) (r : Rec) (h : CHdr) : State :=
  let (ok, s) := s.beginAdopt a
  if !ok then s.event 0x403 (leBytes 2 r.stream ++ zeros 1 ++ leBytes 3 a.child ++ zeros 6)
  else if a.relay then
    let r' := { recHop r with payload := r.payload.set 6 (BitVec.ofNat 8 (h.flags ||| fRelayed)) }
    (s.produced r.stream).sendRoot e r' true
  else
    let s := s.modOpen r.stream h.epoch (fun o => { o with adopted := true })
    match s.slotAt r.stream with
    | none => s
    | some (_, sl) =>
      match sl.opens.find? (fun o => o.epoch == h.epoch) with
      | none => s
      | some o =>
        if o.held.any (fun c => c.bit == 1000 + k) || o.inputs.any (fun c => c.bit == 1000 + k) then s.convoyDup i r
        else
          match o.inputs.find? (fun c => some c.bit == s.portBit a.parentPort) with
          | some c =>
            if (parseHdr c.r.payload).bitmap.testBit a.bit then s.convoyDup i r else s.mergeAdopted r.stream h.epoch { bit := 1000 + k, r := r }
          | none => s.modOpen r.stream h.epoch (fun o => { o with held := o.held ++ [{ bit := 1000 + k, r := r }] })

/-- A 0x40 packet as class W1 takes it (R197 to R204). What comes on a port that is absent from convoys is not merged (log entry 84), and what
would open an epoch during a hold waits for its end (R179). -/
def State.convoyTake (s : State) (port : Nat) (r : Rec) : State :=
  let h := parseHdr r.payload
  match s.slotAt r.stream, s.planFor h.epoch, s.entryFor r.stream h.epoch with
  | some (i, sl), some p, some e =>
    let k := (s.adoptsOf p.gen).findIdx? (fun a => a.stream == r.stream && a.child == r.source && a.port == port)
    let adopt := k.bind (fun k => s.adoptOf p.gen k)
    let bit? := if bitOf h.flags 6 then s.bitOfId e r.source else (s.portBit port).filter (fun b => e.inputs.testBit b)
    let isOpen := sl.opens.any (fun o => o.epoch == h.epoch)
    if (adopt.isNone && bit?.isNone) || s.absentPort port then s.convoyDrop r 5
    else
      let bit := bit?.getD ((s.portBit port).getD 0)
      let gone := match k with
        | some k => sl.carried.any (fun m => m.1 == h.epoch && m.2.contains k)
        | none => sl.opens.any (fun o => o.epoch == h.epoch && o.inputs.any (fun c => c.bit == bit))
      let dupBit := gone || sl.members.any (fun m => m.1 == h.epoch && m.2.testBit bit)
      let relay := adopt.any (fun a => a.relay)
      if dupBit then s.convoyDup i r
      else if !relay && !isOpen && !sl.canOpen h.epoch then s.convoyLate i r h.epoch bit
      else if h.gen != p.gen || !fitsEntry e h r.payload || !e.takes h.epoch then s.convoyDrop r 5
      else if !relay && !isOpen && s.muster.held then { s with convoy := { s.convoy with heldBack := s.convoy.heldBack ++ [(port, r)] } }
      else
        let s := if relay || isOpen then s else s.openEpoch r.stream h.epoch
        match k, adopt with
        | some k, some a => s.adoptPacket k i a e r h
        | _, _ => s.convoyMerge i port bit r h
  | _, _, _ => s.convoyDrop r 5

/-- A 0x40 packet received (R178, R187, R198): poisoned, or with CVY_CTRL.EN = 0, it is not merged. -/
def State.convoyPacket (s : State) (port : Nat) (r : Rec) : State :=
  if r.type ≠ 0x40 ∨ r.level ≠ 0 ∨ !s.hasId ∨ !bitOf (s.rd R.CVY_CTRL) 0 ∨ s.build = .l then s.convoyDrop r 5
  else if recPoison r then s.convoyDrop r 2
  else s.workOr (.packet port r) (fun s => s.convoyTake port r)

/-- A port that exists for convoy packets: a link port, or an Ethernet neighbour of a Selvo-T. -/
def convoyPortOk (b : Build) (p : Nat) : Bool := decide (p < linkPorts b) || ethPort b p

/-- What waited for the end of a hold is taken (R179). -/
def State.holdBackGo (s : State) : State :=
  let l := s.convoy.heldBack
  l.foldl (fun (s : State) x => s.convoyPacket x.1 x.2) { s with convoy := { s.convoy with heldBack := [] } }

/-- A record of a peer is judged as on the link port of that neighbour (R25, R35, R464). -/
def State.peerAdmit (s : State) (r : Rec) : Bool × State :=
  if reservedSource r.source then (false, s.takeDrop r 4)
  else if malformed r r.tc (r.payload.length + 24) || s.convoyAlien r then (false, s.takeDrop r 5)
  else (true, s)

/-- A convoy packet on a port passes the checks of every record (R25, R35, R211) before it is taken. -/
def State.convoyAdmit (s : State) (port : Nat) (r : Rec) : Bool × State :=
  if ethPort s.build port then s.peerAdmit r else s.admitRec port r

/-- CONVOY_PACKET_RECEIVED (R198). -/
def execConvoyPacketReceived (port : Nat) (rec : Rec) (s : State) : Host.Outcome State Fault Refusal :=
  present (s.build != .l && convoyPortOk s.build port)
    (let (ok, s) := s.convoyAdmit port rec
     if ok then s.convoyPacket port rec else s)

/-! ### Contributions (R179, R185, R197, Table 6-3) -/

/-- Drops of every reason. -/
def dropSum (t : Tally) : Nat := t.dropped.foldl (· + ·) 0

/-- The value of a slot's source at the image's cut; none when it is not there yet. A stream's first epoch has no previous one: its counter delta is
the whole count (R185; DESIGN CHOICE for a counter of the light set, log entry 72). -/
def State.srcValue (s : State) (sl : Slot) (e : Entry) (img : Image) : Option SrcVal :=
  let c := assocD 0 e.srcArg img.ctrs
  if e.srcKind = 1 then some (.nat ((c + 2 ^ 64 - ((((sl.ctrLog.dropWhile (fun x => x.1 != img.num)).drop 1).head?).map Prod.snd).getD 0) % 2 ^ 64))
  else if e.srcKind = 2 then some (.nat c)
  else if e.srcKind = 3 then (if s.feat.committed && s.feat.lastNum == img.num then some (.f32 (s.featVal e.srcArg)) else none)
  else if e.srcKind = 4 then (s.ownHealth img.num).map (fun v => .nat v)
  else if e.srcKind = 5 then
    let sum (f : Tally → Nat) : Nat := img.tallies.foldl (fun a p => a + f p.1) 0
    some (.tallies [sum Tally.produced, sum Tally.delivered, sum Tally.merged, sum dropSum, img.tallies.foldl (fun a p => a + p.2) 0])
  else if e.srcKind = 6 then some (.bit e.srcArg)
  else none

/-- The unit's own contribution joins an open epoch; a leaf sends it at once (R197). -/
def State.contribute (s : State) (stream : Nat) (o : Open) (sv : SrcVal) : State :=
  let e := o.entry
  let h : CHdr := { epoch := o.epoch, op := e.op, ty := e.ty, par := e.par, dir := e.dir, flags := 0, height := e.height, pairB := false, contributors := 1,
                    missing := 0, merged := 0, depth := 0, dropped := List.replicate 8 0, gen := o.gen, bitmap := 1 }
  let payload := hdrBytes h ++ payBytes e.op e.ty (ownPay e.op e.ty e.par e.e0 s.srcId sv)
  let r : Rec := { length := payload.length, flags := 0, tc := 1, type := 0x40, hops := 0, source := s.srcId, level := 0, rsv := 0, stream := stream,
                   seq := o.epoch, stamp := s.stamp, payload := payload }
  let s := s.modOpen stream o.epoch (fun o => { o with inputs := o.inputs ++ [{ bit := 0, r := r }] })
  if s.build = .l then s.publish stream o.epoch false else s.publishIfDone stream o.epoch

/-- Form the contribution of a slot to the epoch of an image. -/
def State.ownFrom (s : State) (stream : Nat) (img : Image) : State :=
  match s.slotAt stream, s.entryFor stream img.num with
  | some (_, sl), some e =>
    if !img.complete || e.srcKind == 0 || !e.takes img.num || !s.hasId || !bitOf (s.rd R.CVY_CTRL) 0 then s
    else
      match s.srcValue sl e img with
      | none => s.publishIfDone stream img.num
      | some sv =>
        let s := if s.build = .l && sl.canOpen img.num then s.openEpoch stream img.num else s
        match (s.slotAt stream).bind (fun x => x.2.opens.find? (fun o => o.epoch == img.num)) with
        | some o => if o.inputs.any (fun c => c.bit == 0) then s else s.contribute stream o sv
        | none => s
  | _, _ => s

/-- Form the contributions of a slot from the images that the core holds. -/
def State.ownContribution (s : State) (i : Nat) : State :=
  match s.slotNo i with
  | some (stream, _) => (s.muster.older.toList ++ s.muster.image.toList).foldl (fun (s : State) img => s.ownFrom stream img) s
  | none => s

/-- CONVOY_CONTRIBUTION (R179): from the image of the cut, or the feature pass on it. -/
def execConvoyContribution (slot : Nat) (s : State) : Host.Outcome State Fault Refusal :=
  present (decide (slot < slotCount s.build)) (s.ownContribution slot)

/-- CONVOY_DEADLINE (R197): every open epoch of the slot whose deadline has come is published. -/
def execConvoyDeadline (slot : Nat) (s : State) : Host.Outcome State Fault Refusal :=
  present (decide (slot < slotCount s.build) || decide (slot < s.convoy.slots.length))
    (match s.slotNo slot with
     | some (stream, sl) =>
       if s.build = .l then s else (sl.opens.filter (fun o => decide (o.deadline ≤ s.now))).foldl (fun s o => s.publish stream o.epoch false) s
     | none => s)

/-- A write of SLOT_POST_HI posts both halves for the oldest open epoch still without a contribution (Table 6-3, Table 6-8). -/
def State.slotPost (s : State) (i hi : Nat) : State :=
  match s.slotNo i with
  | some (stream, sl) =>
    match sl.opens.find? (fun o => o.entry.srcKind == 7 && !o.inputs.any (fun c => c.bit == 0)) with
    | some o => if s.build = .l || !s.hasId || !bitOf (s.rd R.CVY_CTRL) 0 then s else s.contribute stream o (.raw (hi * 2 ^ 32 + sl.postLo))
    | none => s
  | none => s

/-- SLOT_POST (R218): firmware's write of SLOT_POST_HI of a slot through CVY_SEL, or on its own extension page. -/
def execSlotPost (a : Acc) (slot : Nat) (data : Word) (s : State) : Host.Outcome State Fault Refusal :=
  let addr := if s.build = .h then (0x068 + slot / 16) * 4096 + 0x080 + 0x80 * (slot % 16) + 0x78 else 0x02A278
  .next (s.guardedWrite a (regOf (decide (slot < slotCount s.build)) addr) data.toNat false false (fun s => s.slotPost slot data.toNat))

/-! ### The broadcast (R208, R209) -/

/-- A 0x41 result as class W1 takes it: one of a stream, a generation or a shape that the unit does not hold for its epoch is malformed
(R181, R208). -/
def State.resultTake (s : State) (_port : Nat) (r : Rec) : State :=
  let h := parseHdr r.payload
  match s.slotAt r.stream with
  | none => s.convoyDrop r 5
  | some (i, sl) =>
    match s.entryFor r.stream h.epoch with
    | none => s.convoyDrop r 5
    | some e =>
      let rank := match sl.applied with
        | none => 2
        | some a => if laterThan h.epoch a then 2 else if h.epoch = a then 1 else 0
      if s.genFor h.epoch != some h.gen || h.op != e.op || h.ty != e.ty || h.par != e.par then s.convoyDrop r 5
      else if rank = 1 then s.convoyDup i r
      else if rank = 0 then s.bumpSat R.SLOT_STALE 1 (bk := i)
      else (s.applyResult i e r).bcastStart e (recHop r) h.epoch none

/-- BROADCAST_RESULT_RECEIVED (R208). -/
def State.resultPacket (s : State) (port : Nat) (r : Rec) : State :=
  if r.type ≠ 0x41 ∨ !s.hasId then s.convoyDrop r 5
  else if recPoison r then s.convoyDrop r 2
  else s.workOr (.forward port r) (fun s => s.resultTake port r)

def execBroadcastResultReceived (port : Nat) (rec : Rec) (s : State) : Host.Outcome State Fault Refusal :=
  present (convoyPortOk s.build port)
    (let (ok, s) := s.convoyAdmit port rec
     if ok then s.resultPacket port rec else s)

/-- The copy of a broadcast that a child has not acknowledged is sent again, or the child is given up (R209). -/
def State.bcastRetry (s : State) (stream child : Nat) (b : Bcast) : State :=
  match b.kids.find? (fun k => k.bit == child) with
  | some k =>
    let cfg := s.rd R.CVY_BC_CFG
    if k.acked || k.orphan || !s.after k.sentAt (fld cfg 7 0) then s
    else if k.resends < fld cfg 11 8 then s.bcastTo stream b.epoch child true
    else s.orphan stream b.epoch child
  | none => s

/-- BROADCAST_RETRY_TIMEOUT (R209): no acknowledgement from a child CVY_BC_RETRY after sending. -/
def execBroadcastRetryTimeout (slot child : Nat) (s : State) : Host.Outcome State Fault Refusal :=
  present (decide (slot < slotCount s.build))
    (match s.slotNo slot with
     | some (stream, sl) => sl.bcasts.foldl (fun (s : State) b => s.bcastRetry stream child b) s
     | none => s)

/-- A unit that may reach an orphan sends it the result on its own port, and reports once it has (R209, R210). -/
def State.reachOrphan (s : State) (stream epoch id : Nat) : State :=
  match s.bcastOf stream epoch with
  | some (_, _, b) =>
    match (s.adoptsOf (parseHdr b.r.payload).gen).find? (fun a => a.stream == stream && a.child == id) with
    | some a =>
      if s.convoyPort a.port then
        let (uid, s) := s.newPend stream false none 1
        let s := if ethPort s.build a.port then s.peerSend a.port uid b.r else s.enqueue a.port uid b.r
        s.modBcast stream epoch (fun b => { b with extra := b.extra ++ [(uid, false)] })
      else s
    | none => s
  | none => s

/-- A reach report is taken: added, its orphans served, and passed up once all is in; one of the parent names orphans alone (R210, log entry 28). A
generation that the unit does not hold for the epoch makes it malformed (R181). -/
def State.reachPacket (s : State) (port : Nat) (r : Rec) : State :=
  let h := parseHdr r.payload
  let body := r.payload.drop 80
  let n := leAt body 0 4
  let orphans := (List.range (min 16 (leAt body 4 4))).map (fun k => leAt body (8 + 4 * k) 3)
  if (s.slotAt r.stream).isNone || s.genFor h.epoch != some h.gen || r.type != 0x42 then s.convoyDrop r 5
  else
    match s.bcastOf r.stream h.epoch with
    | some (_, e, _) =>
      let s := orphans.foldl (fun (s : State) id => s.reachOrphan r.stream h.epoch id) s
      if e.parent = some port then s
      else
        let bit := (s.portBit port).getD 128
        let s := s.modBcast r.stream h.epoch (fun b => { b with kids := b.kids.map (fun (k : Kid) => if k.bit = bit then { k with report := true } else k) })
        (s.reachLate r.stream h.epoch n orphans).reachCheck r.stream h.epoch
    | none => s

/-- REACH_REPORT_RECEIVED (R210). -/
def execReachReportReceived (port : Nat) (rec : Rec) (s : State) : Host.Outcome State Fault Refusal :=
  present (convoyPortOk s.build port)
    (let (ok, s) := s.convoyAdmit port rec
     if ok then s.reachPacket port rec else s)

/-- REACH_REPORT_TIMEOUT (R210): CVY_BC_REPORT_WAIT after forwarding the unit reports with what it has. -/
def execReachReportTimeout (slot : Nat) (s : State) : Host.Outcome State Fault Refusal :=
  present (decide (slot < slotCount s.build))
    (match s.slotNo slot with
     | some (stream, sl) =>
       sl.bcasts.foldl (fun (s : State) b => if s.after b.sentAt (fld (s.rd R.CVY_BC_CFG) 31 16) then s.reachReport stream b.epoch else s) s
     | none => s)

/-- REATTACH_HOLD_EXPIRY (R205): at the child the link to its parent has stayed up for CVY_REATTACH_HOLD, and it returns at the next
epoch boundary; at the adopter the child's entry becomes idle. `child` is the source ID. -/
def State.reattach (s : State) (i child : Nat) : State :=
  match s.slotNo i with
  | some (stream, sl) =>
    let hold := 1000 * fld (s.rd R.CVY_REATTACH_HOLD) 15 0
    if child = s.srcId then
      match sl.entry with
      | some e => match e.parent with
        | some p =>
          if s.portOpen p && s.after (if ethPort s.build p then (s.sess (p - 32)).openAt else (s.port p).upSince) hold then
            { s with convoy := { s.convoy with onAlt := s.convoy.onAlt.map (fun x => if x.1 = stream then (stream, true) else x) } }
          else s
        | none => s
      | none => s
    else
      let hit (a : Adopt) : Bool := a.stream == stream && a.child == child && a.st != 0
      State.showAdopted { s with convoy := { s.convoy with adopts := s.convoy.adopts.map (fun (a : Adopt) => if hit a then { a with st := 0 } else a) } }
  | none => s

def execReattachHoldExpiry (slot child : Nat) (s : State) : Host.Outcome State Fault Refusal :=
  present (decide (slot < slotCount s.build)) (s.reattach slot child)

/-- What waits for class W1 goes on, in order, as it is covered. -/
def State.convoyWork : Nat → State → State
  | 0, s => s
  | n + 1, s =>
    match s.convoy.work with
    | [] => s
    | w :: rest =>
      match s.grant 1 s.costConvoy with
      | none => s
      | some t =>
        let t := { t with convoy := { t.convoy with work := rest } }
        convoyWork n (match w with
          | .packet port r => t.convoyTake port r
          | .publish st ep f => t.publishNow st ep f
          | .forward port r => t.resultTake port r)

/-- Try all that waits. -/
def State.convoyDrain (s : State) : State := State.convoyWork s.convoy.work.length s

/-! ### Live reads (Tables 6-7 and 6-8) -/

/-- A word of the last result of the slot in CVY_RWIN_SEL, from manifest byte 0. -/
def State.resultWord (s : State) (off : Nat) : Nat :=
  match s.slotNo (fld (s.rd R.CVY_RWIN_SEL) 9 0) with
  | some (_, sl) => match s.slotResult sl with
    | some r => leAt (packet r) off 4
    | none => 0
  | none => 0

def State.convoyLive (s : State) (off : Nat) : Option Nat :=
  if off = 0x0C8 then some (b2n s.convoy.sdActive + s.convoy.sdRaised * 2 + s.rd R.CVY_SD_STATUS / 65536 * 65536)
  else if 0x400 ≤ off ∧ off < 0xC78 then some (s.resultWord (off - 0x400))
  else none

end Sys2Proof.Machine
end

