-- ==== Sys2Proof/Machine/Transc.lean ====
section
/-! DEFINITION. Exponentials and logarithms of finite data in fixed point with 160 fraction bits, as exact as any rounding that
follows needs (R283, R414). -/

namespace Sys2Proof.Machine

def one160 : Nat := 2 ^ 160

/-- ln 2 in units of 2^-160. -/
def ln2Fix : Nat := 0xB17217F7D1CF79ABC9E3B39803F2F6AF40F34326

/-- The series of e^r for r in [0, ln 2): n more terms, from term k of value t. -/
def expTerms : Nat → Nat → Nat → Nat → Nat → Nat
  | 0, _, _, _, acc => acc
  | n + 1, k, r, t, acc => expTerms n (k + 1) r (t * r / one160 / (k + 1)) (acc + t)

/-- e^x for x in units of 2^-160: a mantissa in units of 2^-160, and a power of two. -/
def expFix (x : Int) : Nat × Int :=
  let j := x / (ln2Fix : Int)
  let r := (x - j * (ln2Fix : Int)).toNat
  (expTerms 48 0 r one160 0, j)

/-- A finite datum in units of 2^-160, held within -400 and 400; below -400 and above 400 no result depends on the value. -/
def FV.fix : FV → Int
  | .fin neg m e =>
    let lim : Int := 400 * (one160 : Int)
    let v : Int := if 300 < e + (m.log2 : Int) then lim
      else
        let s := e + 160
        let a : Nat := if 0 ≤ s then m * 2 ^ s.toNat else m / 2 ^ (-s).toNat
        (a : Int)
    let v := min v lim
    if neg then -v else v
  | .inf neg => if neg then -(400 * (one160 : Int)) else 400 * (one160 : Int)
  | .nan => 0

/-- e^x as a fraction. -/
def expRat (x : Int) : Nat × Nat :=
  let (a, j) := expFix x
  if 0 ≤ j then (a * 2 ^ j.toNat, one160) else (a, one160 * 2 ^ (-j).toNat)

/-- The odd series of atanh: n more terms, from exponent k of power t. -/
def atanhTerms : Nat → Nat → Nat → Nat → Nat → Nat
  | 0, _, _, _, acc => acc
  | n + 1, k, sq, t, acc => atanhTerms n (k + 2) sq (t * sq / one160) (acc + t / k)

/-- The natural logarithm of n / d, both above 0, in units of 2^-160. -/
def lnFix (n d : Nat) : Int :=
  let k := log2Rat n d
  let (a, b) := scale n d k
  let t := (a - b) * one160 / (a + b)
  2 * (atanhTerms 90 1 (t * t / one160) t 0 : Int) + k * (ln2Fix : Int)

end Sys2Proof.Machine
end

