-- ==== Sys2Proof/Machine/Thermal.lean ====
section
/-! DEFINITION. Emergency states, and the thermal models: identification, forecast, headroom and derate (R408 to R415). -/

namespace Sys2Proof.Machine

/-! ### Emergency states (R408, R410) -/

/-- The state that a set of causes requires (Table 15-8). -/
def emergOf (cause : Nat) : Nat :=
  if bitOf cause 1 || bitOf cause 2 || bitOf cause 3 || bitOf cause 5 then 2 else if bitOf cause 0 || bitOf cause 4 || bitOf cause 6 then 1 else 0

/-- A rise of the emergency state counts in DRV_ENTRIES (R410). -/
def State.emergCount (s : State) (old n : Nat) : State :=
  let e := s.rd R.DRV_ENTRIES
  if n < old then s
  else if n = 1 then s.wr R.DRV_ENTRIES (setFld e 15 0 (satAdd 16 (fld e 15 0) 1))
  else s.wr R.DRV_ENTRIES (setFld e 31 16 (satAdd 16 (fld e 31 16) 1))

/-- The emergency state becomes `n`. -/
def State.setEmerg (s : State) (n : Nat) : State := { s with drover := { s.drover with emerg := n, clearAt := s.time.cycles } }

/-- The state changes: the event, the interrupt, the count of entries, and the end of a feature pass in Emergency, which no convoy awaits
then (R252, R410). -/
def State.emergTo (s : State) (n : Nat) : State :=
  let old := s.drover.emerg
  let s := (s.setEmerg n).emergCount old n
  let code := if n < old then 0x312 else if n = 1 then 0x310 else 0x311
  let s := (s.event code (bytes [old, n, s.drover.cause])).irq 0x005 0
  if n = 2 ∧ (s.feat.run.isSome ∨ s.feat.await.isSome) then (s.featAbandon 3).publishDone else s

/-- The causes become a new set: the state rises at once; the hold before a step down starts when nothing requires the state any
more, and starts again when a cause returns (R408). -/
def State.setCauses (s : State) (cause : Nat) : State :=
  let before := emergOf s.drover.cause
  let s := { s with drover := { s.drover with cause := cause } }
  let need := emergOf cause
  if s.drover.emerg < need then s.emergTo need
  else if need < s.drover.emerg ∧ s.drover.emerg ≤ before then { s with drover := { s.drover with clearAt := s.time.cycles } }
  else s

/-- EMERGENCY_EXIT_HOLD_EXPIRY (R408): every cause of the state has been absent for DRV_EXIT_HOLD. -/
def execEmergencyExitHoldExpiry (s : State) : Host.Outcome State Fault Refusal :=
  .next (if 0 < s.drover.emerg && decide (emergOf s.drover.cause < s.drover.emerg) &&
      s.after s.drover.clearAt (1000 * max 1 (fld (s.rd R.DRV_EXIT_HOLD) 15 0)) then s.emergTo (s.drover.emerg - 1) else s)

/-! ### The models (R411, R413, R414) -/

def State.therm (s : State) (m : Nat) : Therm := s.drover.models.getD m Therm.reset
def State.modTherm (s : State) (m : Nat) (f : Therm → Therm) : State :=
  { s with drover := { s.drover with models := modNth s.drover.models m f } }

def State.thmT (s : State) (m : Nat) : Sensor := s.samp.sensors.getD (fld (s.therm m).cfg 7 4) Sensor.reset
def State.thmP (s : State) (m : Nat) : Sensor := s.samp.sensors.getD (fld (s.therm m).cfg 11 8) Sensor.reset

/-- A reading that the identification does not take. -/
def Sensor.out (x : Sensor) : Bool := x.stale || x.fault
/-- No temperature to forecast from (R415). -/
def Sensor.away (x : Sensor) : Bool := x.stale || x.fault || x.noReading

/-- A model is enabled: a write of THM_CFG takes effect at the next tick (Table 15-11). -/
def State.thmOn (s : State) (m : Nat) : Bool := bitOf (s.therm m).cfg 0

/-- T and P in °C and W, in binary64. -/
def State.thmTemp (s : State) (m : Nat) : Nat := snsScaled 1 (s.thmT m).value
def State.thmPower (s : State) (m : Nat) : Nat := snsScaled 3 (s.thmP m).value

def f64One : Nat := fOfNat b64 1

/-- A sum of products, in an order the hardware chooses. -/
def dotBy (order : List Nat) (a b : List Nat) : Nat := sumBy order ((a.zip b).map (fun p => fMul b64 p.1 p.2))

/-- One step of recursive least squares with forgetting factor lam: parameters, covariance and the one-step residual. -/
def rls (order : List Nat) (lam : Nat) (phi : List Nat) (y : Nat) (th : List Nat) (cov : List (List Nat)) : List Nat × List (List Nat) × Nat :=
  let pphi := cov.map (fun row => dotBy order row phi)
  let den := fAdd b64 lam (dotBy order phi pphi)
  let k := pphi.map (fun v => fDiv b64 v den)
  let e := fSub b64 y (dotBy order th phi)
  let th' := (th.zip k).map (fun p => fFma b64 p.2 e p.1)
  let cov' := (cov.zip k).map (fun p => (p.1.zip pphi).map (fun q => fDiv b64 (fSub b64 q.1 (fMul b64 p.2 q.2)) lam))
  (th', cov', e)

/-- The covariance a window starts from: 2^20 times the identity. -/
def covStart : List (List Nat) := (List.range 5).map (fun i => (List.range 5).map (fun j => if i = j then fOfNat b64 (2 ^ 20) else 0))

/-- A window ends as rejected. -/
def State.thmReject (s : State) (m : Nat) : State :=
  let s := s.modTherm m (fun x => { x with window := false, th := [], cov := [] })
  let w := s.rd R.THM_STATUS m
  (s.wr R.THM_STATUS (setFld w 23 16 (satAdd 8 (fld w 23 16) 1)) m).irq 0x005 2

/-- What a candidate gives: z1, z2, R1, R2 and T0 in binary64, or none when R413 refuses its poles or responses. -/
def thmTerms (th : List Nat) : Option (List Nat) :=
  let a1 := th.getD 0 0
  let a2 := th.getD 1 0
  let b1 := th.getD 2 0
  let b2 := th.getD 3 0
  let c := th.getD 4 0
  let disc := fAdd b64 (fMul b64 a1 a1) (fMul b64 (fOfNat b64 4) a2)
  if !fLt b64 0 disc then none
  else
    let root := fSqrt b64 disc
    let half := fOfRat b64 1 2
    let z1 := fMul b64 (fSub b64 a1 root) half
    let z2 := fMul b64 (fAdd b64 a1 root) half
    if !(fLt b64 0 z1 && fLt b64 z1 z2 && fLt b64 z2 f64One) then none
    else
      let r1 := fDiv b64 (fDiv b64 (fAdd b64 (fMul b64 b1 z1) b2) (fSub b64 z1 z2)) (fSub b64 f64One z1)
      let r2 := fDiv b64 (fDiv b64 (fAdd b64 (fMul b64 b1 z2) b2) (fSub b64 z2 z1)) (fSub b64 f64One z2)
      if fLe b64 0 r1 && fLe b64 0 r2 && fLt b64 0 (fAdd b64 r1 r2) then
        some [z1, z2, r1, r2, fDiv b64 c (fSub b64 (fSub b64 f64One a1) a2)]
      else none

/-- τ = -tick / ln z in binary32, the tick in µs. -/
def tauOf (tickUs z : Nat) : Nat :=
  match decF b64 z with
  | .fin _ n e =>
    let (a, b) := scale n 1 (-e)
    let l := lnFix a b
    if l < 0 then roundF b32 false (tickUs * one160) ((-l).toNat * 1000000) else b32.nan
  | _ => b32.nan

/-- The window has run its ticks: its candidate is accepted or rejected (R413, R414). -/
def State.thmEnd (s : State) (m : Nat) : State :=
  let x := s.therm m
  let rms := fSqrt b64 (fDiv b64 x.resid2 (fOfNat b64 x.residN))
  let s := s.wr R.THM_RESID (f64to32 rms) m
  match thmTerms x.th with
  | some l =>
    if fLe b64 rms (f32to64 (s.rd R.DRV_RESID_MAX)) then
      let g (i : Nat) : Nat := x.th.getD i 0
      let s := s.modTherm m (fun x => { x with valid := true, window := false, a1 := g 0, a2 := g 1, b1 := g 2, b2 := g 3, c := g 4, th := [], cov := [] })
      let tick := s.rd R.DRV_ID_TICK
      let s := ((((s.wr R.THM_TAU1 (tauOf tick (l.getD 0 0)) m).wr R.THM_TAU2 (tauOf tick (l.getD 1 0)) m).wr R.THM_R1 (f64to32 (l.getD 2 0)) m).wr
        R.THM_R2 (f64to32 (l.getD 3 0)) m).wr R.THM_T0 (f64to32 (l.getD 4 0)) m
      let w := s.rd R.THM_STATUS m
      (s.wr R.THM_STATUS (setFld w 15 8 (satAdd 8 (fld w 15 8) 1)) m).irq 0x005 1
    else s.thmReject m
  | none => s.thmReject m

/-- EXCITATION_WINDOW_END (R413): after DRV_ID_WIN ticks. -/
def execExcitationWindowEnd (m : Nat) (s : State) : Host.Outcome State Fault Refusal :=
  present (decide (m < 4)) (if (s.therm m).window && (s.therm m).ticks == 0 then s.thmEnd m else s)

/-- The tick takes THM_CFG; with a change of a sensor the model starts again (Table 15-11). -/
def State.thmRecfg (s : State) (m : Nat) : State :=
  let c := fld (s.rd R.THM_CFG m) 11 0
  if fld (s.therm m).cfg 11 4 = fld c 11 4 then s.modTherm m (fun x => { x with cfg := c })
  else
    let s := s.modTherm m (fun x => { Therm.reset with cfg := c, unavailable := x.unavailable })
    let s := ((((s.wr R.THM_TAU1 0 m).wr R.THM_TAU2 0 m).wr R.THM_R1 0 m).wr R.THM_R2 0 m).wr R.THM_T0 0 m
    s.setDefaulted 0x005

/-- One tick of one model's window (R411, R413): the estimator runs, or a window opens. -/
def State.thmSample (s : State) (m : Nat) : State :=
  let x := s.therm m
  let t := s.thmTemp m
  let p := s.thmPower m
  let (order, s) := s.drawOrder 8
  let x' : Therm :=
    if x.window && x.ticks != 0 then
      let lam := fOfRat b64 ((2 : Int) ^ fld (s.rd R.DRV_LAMBDA) 3 0 - 1) (2 ^ fld (s.rd R.DRV_LAMBDA) 3 0)
      let (th, cov, e) := rls order lam [x.tPrev, x.tPrev2, x.pPrev, x.pPrev2, f64One] t x.th x.cov
      { x with th := th, cov := cov, ticks := x.ticks - 1, resid2 := fAdd b64 x.resid2 (fMul b64 e e), residN := x.residN + 1 }
    else if !x.window && x.boundary != 0 && 2 ≤ x.samples && fLe b64 (f32to64 (s.rd R.THM_STEP_MIN m)) (fAbs b64 (fSub b64 p x.pPrev)) then
      { x with window := true, ticks := max 1 (fld (s.rd R.DRV_ID_WIN) 15 0), th := if x.valid then [x.a1, x.a2, x.b1, x.b2, x.c] else [0, 0, 0, 0, 0],
               cov := covStart, resid2 := 0, residN := 0 }
    else x
  s.modTherm m (fun _ => { x' with boundary := x.boundary - 1, samples := min 2 (x.samples + 1), tPrev2 := x.tPrev, tPrev := t, pPrev2 := x.pPrev, pPrev := p })

/-! ### Forecast (R415) -/

/-- The next temperature of a model with the power held. -/
def Therm.next (x : Therm) (order : List Nat) (p t t' : Nat) : Nat :=
  sumBy order [fMul b64 x.a1 t, fMul b64 x.a2 t', fMul b64 x.b1 p, fMul b64 x.b2 p, x.c]

/-- The largest of the next n predicted temperatures. -/
def Therm.peak (x : Therm) (order : List Nat) (p : Nat) : Nat → Nat → Nat → Option Nat → Option Nat
  | 0, _, _, best => best
  | n + 1, t, t', best =>
    let u := x.next order p t t'
    x.peak order p n u t (match best with
      | none => some u
      | some b => some (if fLt b64 b u then u else b))

/-- The first of the next n ticks at which the prediction lies below a threshold, from tick k. -/
def Therm.below (x : Therm) (order : List Nat) (p thr : Nat) : Nat → Nat → Nat → Nat → Option Nat
  | 0, _, _, _ => none
  | n + 1, k, t, t' =>
    let u := x.next order p t t'
    if fLt b64 u thr then some (k + 1) else x.below order p thr n (k + 1) u t

/-- Ticks in the forecast horizon. -/
def State.horizon (s : State) : Nat := max 1 (fld (s.rd R.DRV_HR_HORIZON) 15 0) * 1000 / max 1 (s.rd R.DRV_ID_TICK)

/-- The headroom of an enabled model, binary64; none while its temperature is unavailable. -/
def State.thmHeadroom (s : State) (m : Nat) : Option Nat :=
  if !s.thmOn m || (s.thmT m).away then none
  else if (s.therm m).valid then some (fSub b64 (f32to64 (s.rd R.THM_LIMIT m)) (f32to64 (s.rd R.THM_PRED m)))
  else some (fSub b64 (fSub b64 (f32to64 (s.rd R.THM_LIMIT m)) (s.thmTemp m)) (f32to64 (s.rd R.DRV_COLD_MARGIN)))

/-- The forecast of one model at a tick. -/
def State.thmForecast (s : State) (m : Nat) : State :=
  let x := s.therm m
  let s := if x.valid then
      let (order, s) := s.drawOrder 8
      match x.peak order x.pPrev s.horizon x.tPrev x.tPrev2 none with
      | some v => s.wr R.THM_PRED (f64to32 v) m
      | none =>
        -- a horizon shorter than a tick has no prediction: a free value
        let (v, s) := s.draw
        s.wr R.THM_PRED (v % b32.inf) m
    else s
  match s.thmHeadroom m with
  | some h => s.wr R.THM_HEADROOM (f64to32 h) m
  | none => s

/-- One tick of one model. -/
def State.thmTick (s : State) (m : Nat) : State :=
  let s := s.thmRecfg m
  if !s.thmOn m then s
  else
    let away := (s.thmT m).away
    let was := (s.therm m).unavailable
    let s := s.modTherm m (fun x => { x with unavailable := away })
    let s := if away && !was then s.irq 0x005 3 else s
    let s := if (s.therm m).window && ((s.thmT m).away || (s.thmP m).out) then s.thmReject m else s
    if away then s.modTherm m (fun x => { x with samples := 0, boundary := x.boundary - 1 })
    else (s.thmSample m).thmForecast m

/-- The smallest headroom among the enabled models that give one (R412). -/
def State.minHeadroom (s : State) : Option Nat :=
  (List.range 4).foldl (fun a m => match s.thmHeadroom m, a with
    | some h, some b => some (if fLt b64 h b then h else b)
    | some h, none => some h
    | none, a => a) none

/-- The derate D, binary32 (R412). With enabled models of which none gives a headroom, the spec states no D: a free value in [0, 1]. -/
def State.derate (s : State) : Nat × State :=
  if !(List.range 4).any s.thmOn then (0x3F800000, s)
  else
    match s.minHeadroom with
    | some h =>
      let lo := f32to64 (s.rd R.DRV_HR_EMERG)
      let d := fDiv b64 (fSub b64 h lo) (fSub b64 (f32to64 (s.rd R.DRV_HR_FULL)) lo)
      (f64to32 (if fLt b64 d 0 then 0 else if fLt b64 f64One d then f64One else d), s)
    | none =>
      let (f, s) := s.draw
      (f % 0x3F800001, s)

/-- Causes 4 to 6 of Table 15-8 as the models have them. -/
def State.thermCauses (s : State) : Nat :=
  let on := (List.range 4).filter s.thmOn
  let below (r : Reg) : Bool := on.any (fun m => match s.thmHeadroom m with
    | some h => fLt b64 h (f32to64 (s.rd r))
    | none => false)
  let hot := on.any (fun m => !(s.thmT m).noReading && fLe b64 (f32to64 (s.rd R.THM_LIMIT m)) (s.thmTemp m))
  16 * b2n (below R.DRV_HR_CONSTRAIN) + 32 * b2n (below R.DRV_HR_EMERG || hot) + 64 * b2n (!on.isEmpty && on.all (fun m => (s.therm m).unavailable))

/-- THERMAL_ID_TICK (R411 to R415): every model samples, fits and forecasts; the derate and the forecast causes follow. -/
def execThermalIdTick (s : State) : Host.Outcome State Fault Refusal :=
  .next
    (let s := (List.range 4).foldl (fun (s : State) m => s.thmTick m) s
     let (d, s) := s.derate
     let s := s.wr R.DRV_DERATE d
     s.setCauses (s.drover.cause % 16 + s.thermCauses))

/-- Count in one of the fields of PAD_EVENTS, and set the page's interrupt bit that goes with it (R443). -/
def State.padEvent (s : State) (k bit : Nat) : State :=
  let w := s.rd R.PAD_EVENTS
  let s := s.wr R.PAD_EVENTS (setFld w (8 * k + 7) (8 * k) (satAdd 8 (fld w (8 * k + 7) (8 * k)) 1))
  if bit = 0 then s else s.irq 0x117 bit

/-- The causes of Table 15-8 as the inputs and the models have them now: 0 and 1 follow pwr_emerg, 2 and 3 the pins of a Selvo-T, 4 to 6 the models. -/
def State.causesNow (s : State) : Nat :=
  b2n (s.drover.pin == 1) + 2 * b2n (decide (2 ≤ s.drover.pin)) + 4 * b2n s.core.pwrEmergLow + 8 * b2n (s.core.thermLowIn || s.core.thermDrive) + s.thermCauses

/-- EMERGENCY_CAUSE_CHANGE (R408, Table 15-8): pwr_emerg holds one level, so that it gives one of causes 0 and 1 at a time. -/
def execEmergencyCauseChange (cause : Nat) (on : Bool) (s : State) : Host.Outcome State Fault Refusal :=
  present (decide (cause < 7) && (s.build == .t || (cause != 2 && cause != 3)))
    (let s : State :=
       if cause < 2 then { s with drover := { s.drover with pin := if on then cause + 1 else if s.drover.pin = cause + 1 then 0 else s.drover.pin } }
       else if cause = 2 then
         let t : State := if on && !s.core.pwrEmergLow then s.padEvent 2 2 else s
         { t with core := { t.core with pwrEmergLow := on } }
       else if cause = 3 then
         let t : State := if on && !s.core.thermLowIn then s.padEvent 1 0 else s
         { t with core := { t.core with thermLowIn := on } }
       else s
     s.setCauses s.causesNow)

/-- The end of cause of R306: the first tick at which a model's prediction falls below a temperature, as a record stamp; all ones when
no such tick lies within 4,096 horizons. The lowest-numbered model that is enabled, valid and available forecasts (log entry 32). -/
def State.endOfCause (s : State) (thr : Nat) : Nat × State :=
  let none_ := 2 ^ 64 - 1
  match (List.range 4).find? (fun m => s.thmOn m && (s.therm m).valid && !(s.therm m).unavailable) with
  | some m =>
    let x := s.therm m
    let (order, s) := s.drawOrder 8
    match x.below order x.pPrev (f32to64 thr) (4096 * s.horizon) 0 x.tPrev x.tPrev2 with
    | some k => (stampOf (s.now + usTime (k * s.rd R.DRV_ID_TICK)) s.qcode, s)
    | none => (none_, s)
  | none => (none_, s)

/-- Live reads of the DROVER page (Table 15-11). -/
def State.droverLive (s : State) (off : Nat) : Option Nat :=
  if off = 0x084 then some (s.drover.emerg + s.drover.cause % 128 * 256 + s.drover.refillMw % 65536 * 65536)
  else if off = 0x088 then some (s.drover.grant % 65536)
  else if 0x100 ≤ off ∧ off < 0x160 ∧ off % 16 = 4 then some (unsN 32 (s.drover.levels.getD ((off - 0x100) / 16) 0 / nJ))
  else if 0x200 ≤ off ∧ off < 0x300 ∧ off % 64 = 0x10 then
    let m := (off - 0x200) / 64
    let x := s.therm m
    some (b2n x.valid + b2n x.window * 2 + b2n x.unavailable * 4 + fld (s.rd R.THM_STATUS m) 23 8 * 256)
  else none

end Sys2Proof.Machine
end

