-- ==== Sys2Proof/Machine/Outrider.lean ====
section
/-! DEFINITION. The outrider: rules, health scores, verdict classes, Thermal-known, escalation, and the keeper's budget and lists
(R295 to R314). -/

namespace Sys2Proof.Machine

/-! ### The die table (R296) -/

/-- Entries the table of a build holds. -/
def dieMax : Build → Nat
  | .l => 1
  | .h => 32
  | .t => 256

def State.die (s : State) (i : Nat) : Option DieEnt := (s.out.dies.find? (fun p => p.1 == i)).map (fun p => p.2)

def State.modDie (s : State) (i : Nat) (f : DieEnt → DieEnt) : State :=
  { s with out := { s.out with dies := s.out.dies.map (fun p => if p.1 = i then (i, f p.2) else p) } }

/-- The source ID of an entry: entry 0 is the unit's own die. -/
def State.dieId (s : State) (i : Nat) (d : DieEnt) : Nat := if i = 0 then s.srcId else d.id

/-- The entry of a source ID. -/
def State.dieOf (s : State) (id : Nat) : Option Nat :=
  if id = s.srcId then some 0 else (s.out.dies.find? (fun p => p.1 != 0 && p.2.id == id)).map (fun p => p.1)

/-- The lowest free entry. -/
def State.dieFree (s : State) : Option Nat := (List.range (dieMax s.build)).find? (fun i => (s.die i).isNone)

/-! ### Rules (R297, R299, R301) -/

def rEn (w : List Nat) : Bool := bitOf (w.getD 0 0) 0
def rCls (w : List Nat) : Nat := fld (w.getD 0 0) 2 1
def rFeature (w : List Nat) : Bool := bitOf (w.getD 0 0) 3
def rSlot (w : List Nat) : Nat := fld (w.getD 0 0) 5 4
def rOut (w : List Nat) : Nat := fld (w.getD 0 0) 8 6
def rFeat (w : List Nat) : Nat := fld (w.getD 0 0) 19 10
def rRaise (w : List Nat) : Nat := fld (w.getD 0 0) 31 22
def rClear (w : List Nat) : Nat := fld (w.getD 3 0) 9 0
def rQ (w : List Nat) : Nat := fld (w.getD 3 0) 16 10
def rP (w : List Nat) : Nat := fld (w.getD 3 0) 23 17
def rH (w : List Nat) : Nat := fld (w.getD 3 0) 29 24

/-- C of a slot's model in force; none without one. -/
def State.slotC (s : State) (slot : Nat) : Option Nat := ((s.tree.slots.getD slot TSlot.empty).force).map (fun m => m.cls)

/-- An enabled rule is inconsistent (R299). -/
def State.ruleBad (s : State) (w : List Nat) : Bool :=
  rEn w &&
  (fIsNan b32 (w.getD 1 0) || fIsNan b32 (w.getD 2 0) || fEq b32 (w.getD 1 0) (w.getD 2 0) || rP w == 0 || decide (rQ w < rP w) || decide (64 < rQ w) ||
   rH w == 0 || decide (rRaise w < rClear w) ||
   (if rFeature w then decide (featMax s.build ≤ rFeat w)
    else match s.slotC (rSlot w) with
      | some c => decide (c ≤ rOut w)
      | none => false))

/-- The rules are taken at a cut, and the inconsistent ones marked (R299). -/
def State.takeRules (s : State) : State :=
  let ws := (List.range 16).map (fun r => [s.rd R.OUT_RULE_CFG r, s.rd R.OUT_RULE_LO r, s.rd R.OUT_RULE_HI r, s.rd R.OUT_RULE_PERSIST r])
  let bad := (List.range 16).foldl (fun a r => if s.ruleBad (ws.getD r []) then a ||| 2 ^ r else a) 0
  let rises := (List.range 16).any (fun r => bitOf bad r && !bitOf s.out.bad r)
  let s := { s with out := { s.out with rules := ws, bad := bad } }
  if rises then s.irq 0x029 6 else s

def State.rule (s : State) (r : Nat) : List Nat := s.out.rules.getD r []

/-- A rule runs: enabled and consistent. -/
def State.ruleRuns (s : State) (r : Nat) : Bool := rEn (s.rule r) && !s.ruleBad (s.rule r)

/-- The rule score of an input (R297): absent for NaN. A quotient that is NaN, which an infinite LO or HI can give, has no score in the
spec: a free value. -/
def ruleScore (free x lo hi : Nat) : Option Nat :=
  if fIsNan b64 x then none
  else
    let q := fDiv b64 (fMul b64 (fSub b64 x lo) (fOfNat b64 1024)) (fSub b64 hi lo)
    match decF b64 q with
    | .nan => some (free % 1024)
    | .inf neg => some (if neg then 0 else 1023)
    | .fin _ _ _ => some (max 0 (min 1023 (fFloor b64 q))).toNat

/-- The present rule scores of a group of results of one die and muster. -/
def State.ruleScores (s : State) (free : Nat) (rs : List OutRes) : List (Nat × Nat) :=
  (List.range 16).filterMap (fun r =>
    let w := s.rule r
    if !s.ruleRuns r then none
    else
      match rs.find? (fun x => x.sample.slot == rSlot w && !x.poison && !x.sample.held) with
      | none => none
      | some x =>
        let v := if rFeature w then x.sample.feats.getD (rFeat w) b32.nan else x.outs.getD (rOut w) b32.nan
        (ruleScore free (f32to64 v) (f32to64 (w.getD 1 0)) (f32to64 (w.getD 2 0))).map (fun y => (r, y)))

/-! ### Windows (R301 to R303) -/

/-- A window holds the newest q present scores, with the excused musters among them; a run of excused musters is one mark. -/
def trimWin : List (Option Nat) → Nat → List (Option Nat)
  | [], _ => []
  | none :: r, q => if q = 0 then [] else none :: trimWin r q
  | some v :: r, q => if q = 0 then [] else some v :: trimWin r (q - 1)

/-- Scores at or above RAISE in a window. -/
def winHigh (raise : Nat) (l : List (Option Nat)) : Nat :=
  (l.filter (fun x => match x with
    | some v => decide (raise ≤ v)
    | none => false)).length

/-- A present score enters a Straggler or Drift rule's window, raises it or counts towards clearing it. -/
def RuleSt.enter (x : RuleSt) (w : List Nat) (v : Nat) : RuleSt :=
  let win := trimWin (some v :: x.win) (rQ w)
  let persist := decide (rP w ≤ winHigh (rRaise w) win)
  let cls := if rCls w = 1 then 3 else 4
  if x.held = 0 then
    { win := win, held := if persist then cls else if rCls w = 1 ∧ rRaise w ≤ v then 2 else 0, clr := 0 }
  else
    { win := win, held := if x.held = 2 ∧ persist = true then 3 else x.held, clr := if v < rClear w then x.clr + 1 else 0 }

/-- An excused muster in a Straggler window. -/
def RuleSt.excuse (x : RuleSt) (w : List Nat) : RuleSt :=
  if x.win.head? = some none then x else { x with win := trimWin (none :: x.win) (rQ w) }

/-- Classes whose rules have all given H scores below CLEAR are left, and those rules' windows emptied (R302). -/
def clearHeld (rules : List (List Nat)) (l : List RuleSt) : List RuleSt :=
  [2, 3, 4].foldl (fun (l : List RuleSt) c =>
    let z := l.zip rules
    if z.any (fun p => p.1.held == c && decide (p.1.clr < max 1 (rH p.2))) then l
    else l.map (fun (x : RuleSt) => if x.held = c then ⟨[], 0, 0⟩ else x)) l

/-! ### Classes (R300, R307) -/

/-- Classes that escalate. -/
def escalates (c : Nat) : Bool := c == 3 || c == 4 || c == 5

/-- What a die shows: class, underlying class, rank, reason (R300, R307, R309). -/
def State.dieView (s : State) (d : DieEnt) : Nat × Nat × Nat × Nat :=
  if escalates d.cls then
    if s.convoy.escStream = 0 then (8, d.cls, 0, 3)
    else
      match d.defer with
      | some (rank, why) => (8, d.cls, rank, why)
      | none => (d.cls, d.cls, 0, 0)
  else (d.cls, if d.cls = 7 then 2 else d.cls, 0, 0)

def State.raisedCount (s : State) (d : DieEnt) : Nat := min 64 (winHigh (rRaise (s.rule d.rule)) (d.st.getD d.rule ⟨[], 0, 0⟩).win)

/-- A verdict record (R307, Table 10-3). -/
def State.verdictRec (s : State) (i n : Nat) (swap : Bool) : State :=
  match s.die i with
  | none => s
  | some d =>
    let (c, u, rank, why) := s.dieView d
    let exc := (d.st.getD d.rule ⟨[], 0, 0⟩).win.any (fun x => x.isNone)
    let cond := if d.cls = 6 then s.out.cond.getD 0 else 0
    let body := leBytes 3 (s.dieId i d) ++ bytes [c + 16 * u] ++ leBytes 2 (d.score.getD 0) ++
      bytes [d.rule + 16 * b2n exc + 32 * b2n swap + 64 * b2n d.byRec + 128 * b2n d.chronic, s.raisedCount d] ++ leBytes 4 n ++ leBytes 4 d.since ++
      leBytes 2 rank ++ bytes [why, 0] ++ leBytes 4 cond
    if bitOf (s.rd R.OUT_CTRL) 1 then
      let (r, s) := s.originate 0x44 3 (fld (s.rd R.OUT_STREAM) 15 0) body
      s.emitUp r none
    else s

/-- What a die shows: its class and its underlying class; nothing for a die that is not held. -/
def State.viewOf (s : State) (i : Nat) : Nat × Nat :=
  match s.die i with
  | some d => ((s.dieView d).1, (s.dieView d).2.1)
  | none => (0, 0)

/-- A change of what a die shows gives a verdict record, and at the own die an interrupt. -/
def State.viewTold (s : State) (i n : Nat) (was : Nat × Nat) : State :=
  match s.die i with
  | none => s
  | some d =>
    let v := s.dieView d
    if (v.1, v.2.1) = was then s
    else
      let s := s.verdictRec i n false
      if i = 0 then s.irq 0x029 0 else s

/-- The trace trigger of the own die's verdict, when what it shows has changed (R356). -/
def State.viewTrigger (s : State) (was : Nat × Nat) : State := if s.viewOf 0 = was then s else s.trcTrigger (2 ^ 19)

/-- A change of what a die shows, with the trigger of the own die. -/
def State.viewChanged (s : State) (i n : Nat) (was : Nat × Nat) : State :=
  let s := s.viewTold i n was
  if i = 0 then s.viewTrigger was else s

/-- The class of highest precedence that applies (R300, Table 10-1). -/
def State.classOf (s : State) (i : Nat) (d : DieEnt) : Nat :=
  let held (c : Nat) : Bool := d.st.any (fun x => x.held == c)
  if i == 0 && s.out.sdc then 5
  else if held 3 then 3
  else if held 4 then 4
  else if i == 0 && s.out.cond.isSome then 6
  else if d.tk != 0 then 7
  else if held 2 then 2
  else
    match d.score with
    | some v => if fld (s.rd R.OUT_WATCH) 9 0 ≤ v then 1 else 0
    | none => if d.cls ≤ 1 then d.cls else 0

/-- The die takes its class, with the muster of the change and the rule that raised it. -/
def State.reclass (s : State) (i n : Nat) : State :=
  s.modDie i (fun d =>
    let c := s.classOf i d
    let rule := match (List.range 16).find? (fun r => (d.st.getD r ⟨[], 0, 0⟩).held == c && c != 0) with
      | some r => r
      | none => if c = 7 then d.tkRule else 0
    { d with cls := c, since := if c = d.cls then d.since else n, rule := rule, defer := if escalates c then d.defer else none })

/-! ### The keeper (R310 to R314) -/

/-- Entries the deferred list holds. -/
def deferMax : Build → Nat
  | .l => 0
  | .h => 256
  | .t => 1024

/-- A decision that names the unit's own die changes what it shows (R307). -/
def State.ownDecision (s : State) (id decision rank why : Nat) : State :=
  if id = s.srcId then
    let was := s.viewOf 0
    let s := s.modDie 0 (fun d => { d with defer := if decision = 2 then some (rank, why) else none })
    s.viewChanged 0 s.muster.lastNum was
  else s

/-- A decision record (R313, Table 10-5). -/
def State.decisionRec (s : State) (e : DefEnt) (decision rank why : Nat) : State :=
  let body := leBytes 3 e.id ++ bytes [decision + 16 * e.cls] ++ leBytes 2 e.score ++ leBytes 2 rank ++ bytes [why] ++ zeros 3 ++
    leBytes 4 (s.out.steps - 1) ++ leBytes 4 (s.out.level / 4294967296) ++ leBytes 4 s.out.spent
  let (r, s) := s.originate 0x46 3 (fld (s.rd R.OUT_STREAM) 15 0) body
  (s.emitUp r none).ownDecision e.id decision rank why

/-- The order of the deferred list: score descending, then source ID ascending. -/
def DefEnt.before (a b : DefEnt) : Bool := decide (b.score < a.score) || (a.score == b.score && decide (a.id < b.id))

def insDef (e : DefEnt) : List DefEnt → List DefEnt
  | [] => [e]
  | x :: r => if e.before x then e :: x :: r else x :: insDef e r

def sortDef (l : List DefEnt) : List DefEnt := l.foldl (fun a e => insDef e a) []

def State.setDeferred (s : State) (l : List DefEnt) : State := { s with out := { s.out with deferred := l } }

/-- A request at the keeper (R310, R314, Table 10-4). -/
def State.keeperReq (s : State) (e : DefEnt) (withdraw : Bool) : State :=
  let l := s.out.deferred
  let upd (x : DefEnt) : DefEnt :=
    if x.id = e.id then { x with cls := e.cls, score := e.score, chronic := e.chronic, since := e.since, seen := e.seen } else x
  if withdraw then
    match l.find? (fun x => x.id == e.id) with
    | some x => ((s.setDeferred (l.filter (fun y => y.id != e.id))).irq 0x029 2).decisionRec { x with score := e.score } 3 0 0
    | none => s
  else if s.out.advised.any (fun x => x.id == e.id) then { s with out := { s.out with advised := s.out.advised.map upd } }
  else if l.any (fun x => x.id == e.id) then s.setDeferred (l.map upd)
  else if l.length < deferMax s.build then (s.setDeferred (l ++ [e])).irq 0x029 2
  else
    match (sortDef l).getLast? with
    | some low =>
      let s := s.bumpSat R.OUT_DEFER_REFUSED
      if low.score < e.score then
        ((s.setDeferred (l.filter (fun y => y.id != low.id) ++ [e])).irq 0x029 2).decisionRec low 2 0 4
      else s.decisionRec e 2 0 4
    | none => s

/-- The request that a record of type 0x45 carries, and whether it withdraws. -/
def State.reqOf (s : State) (p : List Byte) : DefEnt × Bool :=
  let w := leAt p 3 1
  ({ id := leAt p 0 3, cls := w % 16, score := leAt p 4 2 % 1024, chronic := bitOf w 5, since := leAt p 12 4, seen := s.muster.lastNum, rank := 0,
     reason := 1 }, bitOf w 4)

/-- One entry at a boundary's decision, in order; the next rank (R311). -/
def State.decide1 (s : State) (rank : Nat) (e : DefEnt) : Nat × State :=
  let defer (s : State) (why : Nat) : Nat × State :=
    let changed := e.rank != rank || e.reason != why
    let s := s.setDeferred (s.out.deferred.map (fun x => if x.id = e.id then { x with rank := rank, reason := why } else x))
    (rank + 1, if changed then (s.irq 0x029 2).decisionRec e 2 rank why else s)
  if s.core.unattended then defer (s.bumpSat R.FW_UA_ESC) 2
  else if 64 ≤ s.out.advised.length then defer s 5
  else if 1000000 * 4294967296 ≤ s.out.level then
    let s := { s with out := { s.out with level := s.out.level - 1000000 * 4294967296, spent := w32 (s.out.spent + 1),
                                          deferred := s.out.deferred.filter (fun x => x.id != e.id), advised := s.out.advised ++ [{ e with rank := 0 }] } }
    (rank, (s.irq 0x029 1).decisionRec e 1 0 0)
  else defer s 1

/-- A step boundary at the keeper (R311, R312). -/
def State.stepBoundary (s : State) : State :=
  if !s.convoy.keeper then s
  else
    let s := s.budgetRefill
    let s := { s with out := { s.out with steps := s.out.steps + 1 } }
    if s.drover.emerg = 2 then s.bumpSat R.OUT_STEP_SKIPPED
    else
      ((sortDef s.out.deferred).foldl (fun (acc : Nat × State) e => acc.2.decide1 acc.1 e) (1, s)).2

/-- A write of OUT_STEP_MARK; it acts only at the keeper (R312, R317). -/
def execStepBoundary (a : Acc) (data : Word) (s : State) : Host.Outcome State Fault Refusal :=
  .next (s.guardedWrite a 0x0290A4 data.toNat false false (fun s => if bitOf data.toNat 0 then s.stepBoundary else s))

/-- A write of OUT_ADV_ACK: the advice of a die is acknowledged (R313). -/
def State.advAck (s : State) (id : Nat) : State :=
  if s.convoy.keeper then { s with out := { s.out with advised := s.out.advised.filter (fun e => e.id != id % 2 ^ 24) } } else s

def execOutAdvAck (a : Acc) (data : Word) (s : State) : Host.Outcome State Fault Refusal :=
  .next (s.guardedWrite a 0x0290CC data.toNat false false (fun s => s.advAck data.toNat))

def State.reqRepeat (s : State) : Nat := max 1 (fld (s.rd R.OUT_REQ_REPEAT) 15 0)

/-- DEFER_ENTRY_EXPIRY (R310): a deferred entry not restated for 4 × OUT_REQ_REPEAT musters is dropped. -/
def execDeferEntryExpiry (entry : Nat) (s : State) : Host.Outcome State Fault Refusal :=
  present (decide (entry < deferMax s.build))
    (match s.out.deferred[entry]? with
     | some e =>
       if s.convoy.keeper && decide (4 * s.reqRepeat ≤ (s.muster.lastNum + 2 ^ 32 - e.seen % 2 ^ 32) % 2 ^ 32) then
         (((s.setDeferred (s.out.deferred.filter (fun x => x.id != e.id))).bumpSat R.OUT_DEFER_EXPIRED).irq 0x029 2).decisionRec e 4 0 0
       else s
     | none => s)

/-! ### Escalation (R309) -/

/-- Route a record of the escalation stream one hop towards the keeper. -/
def State.towardKeeper (s : State) (r : Rec) : State :=
  match s.slotAt r.stream with
  | some (_, sl) => match sl.entry with
    | some e => s.sendParent e r true
    | none => s.emitUp r none
  | none => s.emitUp r none

/-- Send the request of a die, or its WITHDRAW (Table 10-4). -/
def State.request (s : State) (id cls score since n : Nat) (chronic withdraw : Bool) : State :=
  let body := leBytes 3 id ++ bytes [cls + 16 * b2n withdraw + 32 * b2n chronic] ++ leBytes 2 score ++ zeros 2 ++ leBytes 4 n ++ leBytes 4 since
  let (r, s) := s.originate 0x45 3 s.convoy.escStream body
  if s.convoy.keeper then
    let (e, w) := s.reqOf body
    (s.delivered r.stream).keeperReq e w
  else s.towardKeeper r

/-- A die entered or left an escalating class: its request, or its WITHDRAW. -/
def State.escalate (s : State) (i n : Nat) (restate : Bool) : State :=
  match s.die i with
  | none => s
  | some d =>
    if s.convoy.escStream = 0 then s
    else if escalates d.cls then
      if d.esc = d.cls ∧ restate = false then s
      else (s.modDie i (fun d => { d with esc := d.cls, escAt := n })).request (s.dieId i d) d.cls (d.score.getD 0) d.since n d.chronic false
    else if d.esc != 0 then
      (s.modDie i (fun d => { d with esc := 0 })).request (s.dieId i d) d.esc (d.score.getD 0) d.since n d.chronic true
    else s

/-- ESCALATION_RESTATE (R309): every die whose class still holds after OUT_REQ_REPEAT musters. -/
def execEscalationRestate (s : State) : Host.Outcome State Fault Refusal :=
  .next (s.out.dies.foldl (fun (s : State) p =>
    if escalates p.2.cls && p.2.esc != 0 && decide (s.reqRepeat ≤ (s.muster.lastNum + 2 ^ 32 - p.2.escAt % 2 ^ 32) % 2 ^ 32) then
      s.escalate p.1 s.muster.lastNum true else s) s)

/-- A request record arrives: the keeper takes it, another unit passes it on towards the keeper. -/
def State.requestIn (s : State) (r : Rec) : State :=
  if s.convoy.keeper && r.stream == s.convoy.escStream then
    s.consume r (fun s => let (e, w) := s.reqOf r.payload; s.keeperReq e w)
  else s.towardKeeper (recHop r)

def execEscalationRequestReceived (port : Nat) (rec : Rec) (s : State) : Host.Outcome State Fault Refusal :=
  present (decide (port < linkPorts s.build))
    (if rec.type = 0x45 then
       let (ok, s) := s.admitRec port rec
       if ok then s.requestIn rec else s
     else s)

/-- A decision record that passes: one for the own die shows at this unit (R307). -/
def State.decisionIn (s : State) (r : Rec) : State :=
  let p := r.payload
  s.ownDecision (leAt p 0 3) (leAt p 3 1 % 16) (leAt p 6 2) (leAt p 8 1 % 8)

/-! ### Thermal-known (R304 to R306) -/

/-- The stack of a leaf die, 1 to 8; 0 for a hub or a tray unit (Table 1-3). -/
def stackOf (id : Nat) : Nat := if !bitOf id 23 && 1 ≤ id % 32 && id % 32 ≤ 24 then (id % 32 - 1) % 8 + 1 else 0

/-- A slowdown forecast (R306, Table 10-2). -/
def State.forecast (s : State) (n : Nat) (feats : List Nat) (fin : Bool) : State :=
  if bitOf (s.rd R.OUT_CTRL) 1 then
    let count := match s.die 0 with
      | some d => d.tk
      | none => 0
    let (stop, s) := s.endOfCause (s.rd R.OUT_THERM_TEMP)
    let body := leBytes 3 s.srcId ++ bytes [stackOf s.srcId + 16 * b2n fin] ++ leBytes 4 n ++
      leBytes 4 (feats.getD (fld (s.rd R.OUT_THERM_FEAT) 25 16) b32.nan) ++ leBytes 8 stop ++ leBytes 4 count
    let (r, s) := s.originate 0x47 3 (fld (s.rd R.OUT_STREAM) 15 0) body
    s.emitUp r none
  else s

/-- Leave Thermal-known, with a last forecast. -/
def State.tkLeave (s : State) (n : Nat) (feats : List Nat) : State := (s.forecast n feats true).modDie 0 (fun d => { d with tk := 0 })

/-- Thermal-known at the own die, for a self sample: `raised` are the Straggler rules raised, `part` the first two conditions of the cause. -/
def State.thermalKnown (s : State) (n : Nat) (raised : List Nat) (feats : List Nat) (part : Bool) : State :=
  let temp := feats.getD (fld (s.rd R.OUT_THERM_FEAT) 9 0) b32.nan
  let seen := part && fLe b32 (s.rd R.OUT_THERM_TEMP) temp
  let s := if seen then s.modDie 0 (fun d => { d with cause := some n }) else s
  let hold := max 1 (fld (s.rd R.OUT_THERM_WIN) 7 0)
  let lim := fld (s.rd R.OUT_THERM_WIN) 31 16
  match s.die 0 with
  | none => s
  | some d =>
    if d.tk != 0 then
      if lim != 0 && decide (lim ≤ d.tk) then
        (s.tkLeave n feats).modDie 0 (fun d => { d with chronic := true, st := modNth d.st d.tkRule (fun x => { x with held := 3, clr := 0 }) })
      else if raised.isEmpty then s.tkLeave n feats
      else if (match d.cause with
          | some c => decide (hold ≤ (n + 2 ^ 32 - c % 2 ^ 32) % 2 ^ 32)
          | none => true) then
        (s.tkLeave n feats).modDie 0 (fun d => { d with st := (d.st.zip s.out.rules).map (fun p => if rCls p.2 = 1 then { p.1 with win := [], clr := 0 } else p.1) })
      else
        let s := s.modDie 0 (fun d => { d with tk := d.tk + 1 })
        if d.tk % hold = 0 then s.forecast n feats false else s
    else
      match raised with
      | [] => s
      | r :: _ =>
        if seen && !d.chronic then
          ((s.modDie 0 (fun d => { d with tk := 1, tkRule := r })).irq 0x029 3).forecast n feats false
        else s

/-! ### Scoring (R298, R308) -/

/-- The results that belong with one: of the same die and muster. -/
def OutRes.with (x y : OutRes) : Bool := x.sample.self == y.sample.self && x.sample.num == y.sample.num && (x.sample.self || x.sample.source == y.sample.source)

/-- Slots whose samples of the same source the rules await. -/
def State.awaited (s : State) (x : OutRes) : List Nat :=
  (List.range 4).filter (fun k =>
    let c := s.rd R.TSL_CTRL k
    bitOf c 0 && (bitOf c 3 != x.sample.self) && (x.sample.self || s.rd R.TSL_BIND_STREAM k == x.sample.stream) &&
    (List.range 16).any (fun r => s.ruleRuns r && rSlot (s.rule r) == k))

/-- A die is scored once every awaited slot has delivered, or once the next cut is taken (R308). -/
def State.ready (s : State) (x : OutRes) : Bool :=
  x.cutAt != s.muster.lastNum || (s.awaited x).all (fun k => s.out.results.any (fun y => x.with y && y.sample.slot == k))

/-- The scoring of one die for one muster (R298, R300 to R305). -/
def State.scoreDie (s : State) (i : Nat) (rs : List OutRes) : State :=
  match rs with
  | [] => s
  | x :: _ =>
    let n := x.sample.num
    let self := x.sample.self
    let was := s.viewOf i
    let (free, s) := s.draw
    let sc := s.ruleScores free rs
    let health := sc.foldl (fun (a : Option Nat) p => some (max (a.getD 0) p.2)) none
    let s := s.modDie i (fun d => { d with score := health, num := n, scored := true, last := if sc.isEmpty then d.last else n, byRec := !self })
    let raised := (sc.filter (fun p => rCls (s.rule p.1) == 1 && decide (rRaise (s.rule p.1) ≤ p.2))).map (fun p => p.1)
    let s := if i = 0 && self then s.thermalKnown n raised x.sample.feats x.sample.therm else s
    let s := s.modDie i (fun d =>
      let st := sc.foldl (fun (st : List RuleSt) p =>
        let w := s.rule p.1
        if rCls w = 1 then
          (if d.tk != 0 then st
           else if self && x.sample.excused then modNth st p.1 (fun y => y.excuse w)
           else modNth st p.1 (fun y => y.enter w p.2))
        else if rCls w = 2 then modNth st p.1 (fun y => y.enter w p.2)
        else st) d.st
      let st' := clearHeld s.out.rules st
      { d with st := st', chronic := d.chronic && (st'.getD d.tkRule ⟨[], 0, 0⟩).held != 0 })
    ((s.reclass i n).viewChanged i n was).escalate i n false

/-- VERDICT_SCORING (R298, R308): the oldest die and muster that is ready is scored, as class W2 covers it. A sample that was not evaluated has
no result, and brings no die into the table (R296). -/
def execVerdictScoring (s : State) : Host.Outcome State Fault Refusal :=
  .next
    (match s.out.results.find? s.ready with
     | none => s
     | some x =>
       let rs := s.out.results.filter x.with
       match s.grant 2 (s.costVerdict * rs.length) with
       | none => s
       | some s =>
         let s := { s with out := { s.out with results := s.out.results.filter (fun y => !x.with y) } }
         let id := x.sample.source
         match (if x.sample.self then some 0 else s.dieOf id) with
         | some i => s.scoreDie i rs
         | none =>
           if rs.all (fun y => y.outs.isEmpty) then s
           else match s.dieFree with
           | some i =>
             State.scoreDie { s with out := { s.out with dies := s.out.dies ++ [(i, DieEnt.fresh id x.sample.num)] } } i rs
           | none => (s.bumpSat R.OUT_DIE_FULL (rs.filter (fun y => !y.outs.isEmpty)).length).irq 0x029 7)

/-- DIE_ENTRY_FREE (R296): no present score for 1,024 musters, and the verdict is none or Watch. -/
def execDieEntryFree (entry : Nat) (s : State) : Host.Outcome State Fault Refusal :=
  present (decide (entry < dieMax s.build))
    (match s.die entry with
     | some d =>
       if entry != 0 && decide (d.cls ≤ 1) && decide (1024 ≤ (s.muster.lastNum + 2 ^ 32 - d.last % 2 ^ 32) % 2 ^ 32) then
         { s with out := { s.out with dies := s.out.dies.filter (fun p => p.1 != entry) } }
       else s
     | none => s)

/-- A model swap on a slot empties the windows of the rules bound to it; verdicts held stay (R299, R307). -/
def State.outSwap (s : State) (slot : Nat) : State :=
  s.out.dies.foldl (fun (s : State) p =>
    let bound (r : Nat) : Bool := rSlot (s.rule r) == slot
    if (List.range 16).any (fun r => bound r && !(p.2.st.getD r ⟨[], 0, 0⟩).win.isEmpty) then
      (s.modDie p.1 (fun d => { d with st := (d.st.zipIdx).map (fun q => if bound q.2 then { q.1 with win := [] } else q.1) })).verdictRec p.1
        s.muster.lastNum true
    else s) s

/-! ### The latches of the own die (R300, R302) -/

/-- The own die's class follows its latches at once; the trace trigger of the change is its caller's. -/
def State.ownLatched (s : State) : State :=
  let was := s.viewOf 0
  let n := s.muster.lastNum
  let before := s
  let s := s.reclass 0 n
  ((if was = s.viewOf 0 then s else s.viewTold 0 n was)).escalate 0 before.muster.lastNum false

/-- The silent error checker raises Suspect-SDC (R300). -/
def State.latchSdc (s : State) : State := State.ownLatched { s with out := { s.out with sdc := true } }

/-- The silent error checker raises Conditional, with its bins as Table 10-3 lays them out. -/
def State.latchCond (s : State) (bins : Nat) : State := State.ownLatched { s with out := { s.out with cond := some bins } }

/-- A write of OUT_CLEAR clears the latches of a source ID that this unit holds (R302). -/
def State.outClear (s : State) (id : Nat) : State :=
  if id % 2 ^ 24 = s.srcId then
    let was := s.viewOf 0
    (State.ownLatched { s with out := { s.out with sdc := false, cond := none } }).viewTrigger was
  else s

def execOutClear (a : Acc) (data : Word) (s : State) : Host.Outcome State Fault Refusal :=
  .next (s.guardedWrite a 0x0290A0 data.toNat false false (fun s => s.outClear data.toNat))

/-! ### Live reads (Table 10-7) -/

def State.dieWord (s : State) (i : Nat) (d : DieEnt) (k : Nat) : Nat :=
  let v := s.dieView d
  if k = 0 then s.dieId i d + 2 ^ 31
  else if k = 1 then d.score.getD 0 + v.1 * 4096 + v.2.1 * 65536 + d.rule * 2 ^ 20 + s.raisedCount d * 2 ^ 24
  else d.since

def State.outLive (s : State) (off : Nat) : Option Nat :=
  let keep (v : Nat) : Option Nat := some (if s.convoy.keeper then v else 0)
  let sel := s.rd R.OUT_LIST_SEL
  let ent := (if bitOf sel 10 then s.out.advised else s.out.deferred)[fld sel 9 0]?
  let die := fld (s.rd R.OUT_DIE_SEL) 7 0
  let dw (k : Nat) : Option Nat := some (match s.die die with
    | some d => s.dieWord die d k
    | none => 0)
  if off = 0x088 then
    some (b2n s.convoy.keeper + 2 * b2n s.core.unattended + 4 * s.drover.emerg + 16 * s.out.dies.length + 65536 * s.out.bad)
  else if off = 0x08C then some s.convoy.escStream
  else if off = 0x098 then
    some (match s.die 0 with
      | some d => d.score.getD 0 + 1024 * b2n d.score.isNone + 4096 * (s.dieView d).1 + 65536 * (s.dieView d).2.1
      | none => 0)
  else if off = 0x09C then
    some (match s.die 0 with
      | some d => d.num
      | none => 0)
  else if off = 0x0A8 then keep (s.rd R.OUT_STEP_CFG)
  else if off = 0x0AC then keep (s.rd R.OUT_BUDGET_RATE)
  else if off = 0x0B0 then keep (s.rd R.OUT_BUDGET_BURST)
  else if off = 0x0B4 then keep (s.budgetNow / 4294967296)
  else if off = 0x0B8 then keep s.out.spent
  else if off = 0x0BC then keep (s.out.steps - 1)
  else if off = 0x0C0 then keep (s.rd R.OUT_STEP_SKIPPED)
  else if off = 0x0C4 then keep (s.rd R.OUT_DEFER_REFUSED)
  else if off = 0x0C8 then keep (s.rd R.OUT_DEFER_EXPIRED)
  else if off = 0x0D4 then
    some (match ent with
      | some e => e.id + e.cls * 2 ^ 24 + 2 ^ 31
      | none => 0)
  else if off = 0x0D8 then
    some (match ent with
      | some e => e.score + e.rank * 65536
      | none => 0)
  else if off = 0x0E0 then dw 0
  else if off = 0x0E4 then dw 1
  else if off = 0x0E8 then dw 2
  else if off = 0x208 then some (s.out.admission.st + 16 * s.out.admission.test + 256 * s.out.admission.slot)
  else if off = 0x20C then some s.out.admission.epoch
  else none

end Sys2Proof.Machine
end

