-- ==== Sys2Proof/Machine/Trees.lean ====
section
/-! DEFINITION. The tree ensemble engine: models, the loader, samples, evaluation and results (R270 to R294). -/

namespace Sys2Proof.Machine

/-! ### Builds (Table 9-3, Table 9-4) -/

def nodeStore : Build → Nat
  | .l => 192 * 1024
  | .h => 768 * 1024
  | .t => 16 * 1048576

def leafStore : Build → Nat
  | .l => 64 * 1024
  | .h => 256 * 1024
  | .t => 8 * 1048576

def depthMax : Build → Nat
  | .l => 8
  | .h => 10
  | .t => 14

/-- The most trees of a model of depth D. -/
def treeMax (b : Build) (d : Nat) : Nat :=
  match b with
  | .l => 64
  | .h => if d ≤ 8 then 256 else if d = 9 then 128 else 64
  | .t => if d ≤ 9 then 4096 else 2048 / 2 ^ (d - 10)

def sampleBufs : Build → Nat
  | .l => 8
  | .h => 16
  | .t => 64

def pairMax : Build → Nat
  | .l => 512
  | .h => 2048
  | .t => 16384

/-! ### Walking (R270 to R273) -/

/-- The ordered key of a binary32 pattern (R272). -/
def orderedKey (b : Nat) : Nat :=
  let b := if b = 0x80000000 then 0 else b
  if b < 0x80000000 then b + 0x80000000 else 0xFFFFFFFF - b

/-- The direction of a node: 0 left, 1 right (R271, R273). -/
def nodeDir (w : Nat) (feats : List Nat) : Nat :=
  if bitOf w 18 then fld w 17 17
  else
    let f := feats.getD (fld w 31 20) b32.nan
    if fIsNan b32 f then fld w 19 19 else if orderedKey f < fld w 63 32 then 0 else 1

/-- The leaf index of a walk over d levels from heap index i. -/
def walk (nodes feats : List Nat) : Nat → Nat → Nat
  | 0, i => i
  | d + 1, i => walk nodes feats d (2 * i + 1 + nodeDir (nodes.getD i 0) feats)

/-- The leaf value of one tree (R270). -/
def treeValue (depth : Nat) (t : List Nat × List Nat) (feats : List Nat) : Nat := t.2.getD (walk t.1 feats depth 0 - (2 ^ depth - 1)) 0

/-- The margin of class c, binary64: base plus leaves, in an order the hardware chooses (R282). -/
def TModel.margin (m : TModel) (order feats : List Nat) (c : Nat) : Nat :=
  let leaves := (m.trees.zipIdx.filter (fun p => p.2 % m.cls == c)).map (fun p => f32to64 (treeValue m.depth p.1 feats))
  let base := f32to64 (m.bases.getD c 0)
  if leaves.isEmpty then base else sumBy order (base :: leaves)

/-! ### Link functions (R283, Table 9-6) -/

/-- The value of a non-negative binary32 pattern as a fraction over 2^149. -/
def f32Units (p : Nat) : Nat := if p / 8388608 = 0 then p else (p % 8388608 + 8388608) * 2 ^ (p / 8388608 - 1)

/-- One unit in the last place of a pattern, in units of 2^-149. -/
def ulp32 (p : Nat) : Nat := if p / 8388608 = 0 then 1 else 2 ^ (p / 8388608 - 1)

/-- A binary32 within `bound` ulp of n / d: the nearest one moved by a free number of places where the bound allows it. -/
def withinUlp (bound free n d : Nat) : Nat :=
  let p := roundF b32 false n d
  if b32.inf ≤ p then b32.inf
  else
    let k := free % (2 * bound + 1)
    let q := if k ≤ bound then p + k else p - (k - bound)
    if b32.inf ≤ q then p
    else
      let a := f32Units q * d
      let b := n * 2 ^ 149
      if (a - b) + (b - a) ≤ bound * ulp32 q * d then q else p

/-- The outputs of a link function over binary64 margins. -/
def linkOutputs (link : Nat) (free : List Nat) (ms : List Nat) : List Nat :=
  let fx (m : Nat) : Int := (decF b64 m).fix
  if link = 0 then ms.map f64to32
  else if link = 1 then ms.zipIdx.map (fun p =>
    let (a, b) := expRat (-(fx p.1))
    withinUlp 2 (free.getD p.2 0) b (b + a))
  else if link = 2 then ms.zipIdx.map (fun p =>
    let (a, b) := expRat (fx p.1)
    withinUlp 2 (free.getD p.2 0) a b)
  else
    let top := ms.foldl (fun (a : Option Nat) m => match a with
      | none => some m
      | some x => some (if fLt b64 x m then m else x)) none
    let xs := ms.map (fun m => expRat ((decF b64 m).add (decF b64 (top.getD 0)).neg).fix)
    -- one denominator for all terms: each lies in [2^-578, 1], scaled by 2^738
    let us := xs.map (fun x => x.1 * 2 ^ 738 / x.2)
    let sum := us.foldl (· + ·) 0
    us.zipIdx.map (fun p => withinUlp 4 (free.getD p.2 0) p.1 sum)

/-! ### Slots and swaps (R289, R290) -/

def State.tslot (s : State) (k : Nat) : TSlot := s.tree.slots.getD k TSlot.empty
def State.modTslot (s : State) (k : Nat) (f : TSlot → TSlot) : State := { s with tree := { s.tree with slots := modNth s.tree.slots k f } }

/-- The staged model of a slot applies (R289). -/
def State.treeSwap (s : State) (k : Nat) : State :=
  let x := s.tslot k
  match x.staged with
  | none => s
  | some m =>
    let olds := match x.force with
      | some f => (f, x.since, x.stagedS) :: x.olds
      | none => x.olds
    let s := s.modTslot k (fun x => { x with force := some m, olds := olds, since := x.stagedS, staged := none, loading := false, damaged := false })
    let s := s.wr R.TSL_SWAP_MUSTER x.stagedS k
    let s := if s.rd R.TSL_VER_FLOOR k < m.ver then s.wr R.TSL_VER_FLOOR m.ver k else s
    (s.irq 0x028 2).outSwap k

/-- A sample of muster n makes a due swap apply. -/
def State.swapDue (s : State) (k n : Nat) : State :=
  let x := s.tslot k
  if x.staged.isSome && atOrLater n x.stagedS then s.treeSwap k else s

/-- At the cut of muster n: due swaps apply, and replaced models are freed at S + 4 (R289, R290). -/
def State.treeCut (s : State) (n : Nat) : State :=
  (List.range 4).foldl (fun (s : State) k =>
    let s := s.swapDue k n
    s.modTslot k (fun x => { x with olds := x.olds.filter (fun p => !atOrLater n (w32 (p.2.2 + 4))) })) s

/-- The model of a slot that serves muster n. -/
def TSlot.modelFor (x : TSlot) (n : Nat) : Option TModel :=
  if x.loading then none
  else if x.force.isSome && atOrLater n x.since then x.force
  else
    -- newest first: the oldest replaced model that serves n
    x.olds.foldl (fun (a : Option TModel) p => if atOrLater n p.2.1 && laterThan p.2.2 n then some p.1 else a) none

/-! ### Space (R276, R277) -/

def TModel.nodeBytes (m : TModel) : Nat := m.trees.length * 8 * (2 ^ m.depth - 1)
def TModel.leafBytes (m : TModel) : Nat := m.trees.length * 4 * 2 ^ m.depth

/-- Every model a slot holds. -/
def TSlot.models (x : TSlot) : List TModel := x.force.toList ++ x.staged.toList ++ x.olds.map (fun p => p.1)

def State.nodeUsed (s : State) : Nat :=
  (s.tree.slots.map (fun x => (x.models.map TModel.nodeBytes).foldl (· + ·) 0)).foldl (· + ·) 0 +
  (match s.tree.load with
   | some l => if l.noRoom then 0 else l.nodeUse
   | none => 0)
def State.leafUsed (s : State) : Nat :=
  (s.tree.slots.map (fun x => (x.models.map TModel.leafBytes).foldl (· + ·) 0)).foldl (· + ·) 0 +
  (match s.tree.load with
   | some l => if l.noRoom then 0 else l.leafUse
   | none => 0)

/-! ### Packages (R274, R275, R285, R287) -/

def pkgT (l : List Byte) : Nat := leAt l 20 2
def pkgD (l : List Byte) : Nat := leAt l 16 1
def pkgNode (l : List Byte) : Nat := leAt l 56 4
def pkgLeaf (l : List Byte) : Nat := leAt l 60 4

/-- Sections of n-byte little-endian words. -/
def wordsOf (n : Nat) : Nat → List Byte → List Nat
  | 0, _ => []
  | k + 1, l => leNat (l.take n) :: wordsOf n k (l.drop n)

/-- The trees of a package: each tree's nodes, then its leaves. -/
def pkgTrees (d : Nat) : Nat → List Byte → List Byte → List (List Nat × List Nat)
  | 0, _, _ => []
  | t + 1, ns, ls =>
    (wordsOf 8 (2 ^ d - 1) ns, wordsOf 4 (2 ^ d) ls) :: pkgTrees d t (ns.drop (8 * (2 ^ d - 1))) (ls.drop (4 * 2 ^ d))

/-- The model that a package with consistent lengths holds. -/
def pkgModel (l : List Byte) : TModel :=
  { id := leAt l 8 4, ver := leAt l 12 4, depth := pkgD l, link := leAt l 17 1, cls := leAt l 18 1,
    bases := (List.range 8).map (fun c => leAt l (24 + 4 * c) 4),
    trees := pkgTrees (pkgD l) (pkgT l) (l.drop 128) (l.drop (128 + pkgNode l)) }

/-- Table 9-9, format. -/
def pkgFormat (l : List Byte) : Bool :=
  leAt l 0 4 != 0x324D5653 || leAt l 4 2 != 2 || pkgNode l != pkgT l * 8 * (2 ^ pkgD l - 1) || pkgLeaf l != pkgT l * 4 * 2 ^ pkgD l ||
  l.length != 128 + pkgNode l + pkgLeaf l + 96

/-- A node that R271 or R274 refuses. -/
def badNode (feats w : Nat) : Bool :=
  fld w 16 0 != 0 ||
  (if bitOf w 18 then fld w 63 32 != 0 || fld w 31 20 != 0 || bitOf w 19
   else decide (fld w 63 32 < 0x007FFFFF) || decide (0xFF800000 < fld w 63 32) || decide (feats ≤ fld w 31 20))

def notFinite32 (v : Nat) : Bool := fld v 30 23 == 255

/-- Table 9-9, content. -/
def pkgContent (b : Build) (m : TModel) : Bool :=
  decide (3 < m.link) || (if m.link = 3 then decide (m.cls < 2) || decide (8 < m.cls) else m.cls != 1) || m.bases.any notFinite32 ||
  m.trees.any (fun t => t.1.any (badNode (featMax b)) || t.2.any notFinite32)

/-- The header is in: it shows whether the model fits. With INPLACE, one that does not fit beside the slot's model releases it (R288). -/
def State.loadFit (s : State) : State :=
  match s.tree.load with
  | none => s
  | some l =>
    if l.checked || l.data.length < 64 then s
    else
      let need := (pkgNode l.data, pkgLeaf l.data)
      let fits (s : State) : Bool := decide (s.nodeUsed + need.1 ≤ s.capOf 3 0 (nodeStore s.build)) && decide (s.leafUsed + need.2 ≤ s.capOf 3 1 (leafStore s.build))
      let ok (s : State) (room : Bool) : State :=
        { s with tree := { s.tree with load := some { l with checked := true, noRoom := !room, nodeUse := need.1, leafUse := need.2 } } }
      if fits s then ok s true
      else if bitOf (s.rd R.TSL_CTRL l.slot) 2 then
        let s := s.modTslot l.slot (fun x => { x with force := none, olds := [], loading := true })
        ok s (fits s)
      else ok s false

/-- A package is refused (R287): status, interrupt, event; a slot that was released holds no model (R288). -/
def State.loadRefuse (s : State) (slot reason : Nat) (chunks : Bool) (data : List Byte) : State :=
  let s := if reason = 10 then s.wr R.FW_UA_REFUSED (setFld (s.rd R.FW_UA_REFUSED) 7 0 (satAdd 8 (fld (s.rd R.FW_UA_REFUSED) 7 0) 1)) else s
  let s := { s with tree := { s.tree with reason := reason } }
  (s.irq 0x028 1).event 0x405 (bytes [slot, reason, b2n chunks, 0] ++ leBytes 4 (leAt data 8 4) ++ leBytes 4 (leAt data 12 4))

/-- The package in progress is dropped; a slot it had released stays without a model. -/
def State.loadDrop (s : State) : State :=
  match s.tree.load with
  | some l => ({ s with tree := { s.tree with load := none } } : State).modTslot l.slot (fun x => { x with loading := x.loading && x.staged.isSome })
  | none => s

/-- The package in progress is refused. -/
def State.loadFail (s : State) (reason : Nat) : State :=
  match s.tree.load with
  | some l => s.loadDrop.loadRefuse l.slot reason l.chunks l.data
  | none => s

/-- The largest package (R286). -/
def pkgMax : Nat := 128 + 16 * 1048576 + 8 * 1048576 + 96

/-- Bytes of the package in progress arrive. -/
def State.loadBytes (s : State) (b : List Byte) : State :=
  match s.tree.load with
  | some l =>
    if pkgMax < l.data.length + b.length then
      let s := s.loadFail 1
      { s with tree := { s.tree with chunkSkip := s.tree.chunkSkip || l.chunks, regSkip := s.tree.regSkip || !l.chunks } }
    else State.loadFit { s with tree := { s.tree with load := some { l with data := l.data ++ b } } }
  | none => s

def TLoad.start (chunks : Bool) (slot : Nat) : TLoad :=
  { chunks := chunks, slot := slot, data := [], checked := false, noRoom := false, nodeUse := 0, leafUse := 0, verifying := false }

/-! ### The register path (R286) -/

/-- A write of TREE_LOAD_CTRL: ABORT, then BEGIN, then END. -/
def State.treeLoadCtrl (s : State) (v : Nat) : State :=
  let s := if bitOf v 2 then
      let byChunks := match s.tree.load with
        | some l => l.chunks && !l.verifying
        | none => false
      let s := s.loadDrop
      { s with tree := { s.tree with chunkSkip := s.tree.chunkSkip || byChunks, regSkip := false } }
    else s
  let s := if bitOf v 0 then
      let slot := fld v 5 4
      match s.tree.load with
      | none => { s with tree := { s.tree with load := some (TLoad.start false slot), regSkip := false } }
      | some l =>
        let s := s.loadRefuse slot 9 false []
        if !l.chunks && !l.verifying then s else { s with tree := { s.tree with regSkip := true } }
    else s
  if bitOf v 1 then
    match s.tree.load with
    | some l =>
      if l.chunks || l.verifying then { s with tree := { s.tree with regSkip := false } }
      else { s with tree := { s.tree with load := some { l with verifying := true }, regSkip := false } }
    | none => { s with tree := { s.tree with regSkip := false } }
  else s

def execTreeLoadBegin (a : Acc) (data : Word) (s : State) : Host.Outcome State Fault Refusal :=
  .next (s.guardedWrite a 0x028098 data.toNat false false (fun s => s.treeLoadCtrl data.toNat))

def execTreeLoadEnd (a : Acc) (data : Word) (s : State) : Host.Outcome State Fault Refusal :=
  .next (s.guardedWrite a 0x028098 data.toNat false false (fun s => s.treeLoadCtrl data.toNat))

def execTreeLoadAbort (a : Acc) (data : Word) (s : State) : Host.Outcome State Fault Refusal :=
  .next (s.guardedWrite a 0x028098 data.toNat false false (fun s => s.treeLoadCtrl data.toNat))

/-- A register load takes words, or discards those of a refused package. -/
def State.treeDataOk (s : State) : Bool :=
  s.tree.regSkip || (match s.tree.load with
    | some l => !l.chunks && !l.verifying
    | none => false)

/-- A write of TREE_LOAD_DATA. -/
def State.treeLoadData (s : State) (v : Nat) : State :=
  match s.tree.load with
  | some l => if l.chunks || l.verifying then s else s.loadBytes (leBytes 4 v)
  | none => s

def execTreeLoadData (a : Acc) (data : Word) (s : State) : Host.Outcome State Fault Refusal :=
  .next (s.guardedWrite a 0x02809C data.toNat false (!s.treeDataOk) (fun s => s.treeLoadData data.toNat))

/-! ### The chunk path (R286) -/

/-- One chunk that class W6 covers. -/
def State.chunkTake (s : State) (r : Rec) : State :=
  let p := r.payload
  let off := leAt p 0 4
  let slot := leAt p 4 1 % 4
  let last := bitOf (leAt p 4 1) 2
  let body := p.drop 8
  let fin (s : State) : State :=
    match s.tree.load with
    | some l => if last && l.chunks then { s with tree := { s.tree with load := some { l with verifying := true } } } else s
    | none => s
  -- what is discarded of a refused package ends with its last chunk
  let skip (s : State) : State := { s with tree := { s.tree with chunkSkip := !last } }
  match s.tree.load with
  | some l =>
    if l.chunks && !l.verifying then
      if off = l.data.length ∧ slot = l.slot then fin (s.loadBytes body)
      else
        skip (s.loadFail 1)
    else if off ≠ 0 ∧ s.tree.chunkSkip then skip s
    else skip (s.loadRefuse slot 9 true [])
  | none =>
    if off = 0 then
      fin (State.loadBytes { s with tree := { s.tree with load := some (TLoad.start true slot), chunkSkip := false } } body)
    else if s.tree.chunkSkip then skip s
    else skip (s.loadRefuse slot 1 true [])

/-- Waiting chunks, oldest first, while class W6 covers them and TREE is in Run (R404). -/
def State.chunkDrain : Nat → State → State
  | 0, s => s
  | n + 1, s =>
    match s.tree.chunks with
    | [] => s
    | w :: rest =>
      if !s.inRun 2 then s
      else
        match s.grant 6 (s.costBulk (w.r.payload.length - 8)) with
        | none => s
        | some s => State.chunkDrain n (State.waitOver { s with tree := { s.tree with chunks := rest } } w (fun s => s.chunkTake w.r))

/-- A chunk of the load stream ends here; it waits for class W6 under its credits, and wakes TREE (R286, R293). -/
def State.modelChunk (s : State) (port credits : Nat) (r : Rec) : State :=
  s.waitIn port credits r (fun w s =>
    let s : State := { s with tree := { s.tree with chunks := s.tree.chunks ++ [w] } }
    let s := if s.inRun 2 then s else s.wake 2
    s.chunkDrain s.tree.chunks.length)

/-- A 0x50 record is for this unit's loader when its stream is TREE_LOAD_STREAM. -/
def State.takesModel (s : State) (r : Rec) : Bool := r.type == 0x50 && r.stream == s.rd R.TREE_LOAD_STREAM

/-! ### Verification (R287) -/

/-- The reason to refuse a package, the lowest code that applies; 0 for none (Table 9-9). -/
def State.pkgReason (s : State) (l : TLoad) : Nat :=
  let d := l.data
  if pkgFormat d then 1
  else if !bitOf (leAt d 6 1) (buildBit s.build) || decide (depthMax s.build < pkgD d) then 2
  else if treeMax s.build (pkgD d) < pkgT d then 3
  else if l.noRoom then 4
  else
    let key := s.auth.otp.model.getD (leAt d 7 1) ⟨0, []⟩
    if 3 < leAt d 7 1 ∨ key.st ≠ 1 then 5
    else
      let sections := (d.drop 128).take (pkgNode d + pkgLeaf d)
      if sha384 sections != (d.drop 64).take 48 || !ecdsaOk key.key (d.take 128) (d.drop (d.length - 96)) then 6
      else if pkgContent s.build (pkgModel d) then 7
      else if leAt d 12 4 < s.rd R.TSL_VER_FLOOR l.slot then 8
      else if s.core.unattended then 10
      else 0

/-- S of a model that is staged now (R289). -/
def State.swapMuster (s : State) (k : Nat) : Nat :=
  let at_ := s.rd R.TSL_SWAP_AT k
  let m := if s.muster.anyCut then s.muster.lastNum else 0
  if (at_ + 2 ^ 33 - m - 1) % 2 ^ 32 < 2 ^ 31 then at_ else w32 (m + 1)

/-- MODEL_VERIFY_DONE (R287): the verification, as class W6 covers it, stages the model or refuses the package. -/
def execModelVerifyDone (s : State) : Host.Outcome State Fault Refusal :=
  .next
    (match s.tree.load with
     | some l =>
       if !l.verifying then s
       else
         match s.grant 6 (s.costBulk l.data.length) with
         | none => s
         | some s =>
           let why := s.pkgReason l
           if why = 0 then
             let at_ := s.swapMuster l.slot
             let s : State := { s with tree := { s.tree with load := none } }
             (s.modTslot l.slot (fun x => { x with staged := some (pkgModel l.data), stagedS := at_ })).irq 0x028 0
           else s.loadFail why
     | none => s)

/-- A write of 1 to TSL_CANCEL drops the staged model (R290). -/
def State.tslCancel (s : State) (k v : Nat) : State := if bitOf v 0 then s.modTslot k (fun x => { x with staged := none, loading := false }) else s

def execTslCancel (a : Acc) (slot : Nat) (data : Word) (s : State) : Host.Outcome State Fault Refusal :=
  .next (s.guardedWrite a (regOf (decide (slot < 4)) (0x028130 + 64 * slot)) data.toNat false false (fun s => s.tslCancel slot data.toNat))

/-! ### Samples (R278, R280) -/

/-- A sample is not evaluated: counted, and absent to the outrider (R280, R298). -/
def State.sampleSkip (s : State) (x : Sample) : State :=
  let s := ((s.bumpSat R.TSL_SKIPPED 1 x.slot).bumpSat R.TREE_SKIPPED).irq 0x028 4
  if bitOf (s.rd R.OUT_CTRL) 0 then
    { s with out := { s.out with results := s.out.results ++ [{ sample := x, outs := [], poison := true, cutAt := s.muster.lastNum }] } }
  else s

/-- Pairs admitted and not yet summed. -/
def State.pairs (s : State) : Nat := (s.tree.queue.map (fun p => p.2.trees.length)).foldl (· + ·) 0

/-- A model's trees fit in flight, a sample buffer is free, and a lane is in service (R280, R523). -/
def State.treeRoom (s : State) (m : TModel) : Bool :=
  decide (0 < s.lanesLeft) && decide (s.tree.queue.length < sampleBufs s.build) && decide (s.pairs + m.trees.length ≤ pairMax s.build)

/-- A record sample, TREE in Run: admitted, or not evaluated. -/
def State.recordAdmit (s : State) (x : Sample) : State :=
  let s := s.swapDue x.slot x.num
  match (s.tslot x.slot).modelFor x.num with
  | none => s.sampleSkip x
  | some m =>
    if !s.treeRoom m then s.sampleSkip x
    else
      match s.grant 2 (s.costTree m.trees.length m.depth) with
      | none => s.sampleSkip x
      | some s => { s with tree := { s.tree with queue := s.tree.queue ++ [(x, m)] } }

/-- A slot is bound to a stream by record. -/
def State.boundTo (s : State) (k stream : Nat) : Bool :=
  let c := s.rd R.TSL_CTRL k
  bitOf c 0 && bitOf c 3 && s.rd R.TSL_BIND_STREAM k == stream

/-- The samples of an opened feature record. -/
def State.treeSamples (s : State) (r : Rec) : State :=
  (List.range 4).foldl (fun (s : State) k =>
    if s.boundTo k r.stream then
      let p := r.payload
      let n := leAt p 10 2
      let flags := leAt p 12 1
      let x : Sample := { slot := k, num := leAt p 0 4, source := r.source, self := false, stream := r.stream, feats := wordsOf 4 n (p.drop 24),
                          statNan := bitOf flags 3, disc := bitOf flags 0, held := bitOf flags 1, excused := false, therm := false }
      if s.inRun 2 || s.drover.emerg == 2 then s.recordAdmit x
      else State.wake { s with tree := { s.tree with waitRun := s.tree.waitRun ++ [x] } } 2
    else s) s

/-- A feature record on a bound stream is read as a sample of every slot bound to it (R278). -/
def State.treeReads (s : State) (r : Rec) : Bool :=
  s.build != .l && r.type == 0x3C && bitOf (s.rd R.TREE_CTRL) 0 && (List.range 4).any (fun k => s.boundTo k r.stream)

/-- TREE reaches Run: the record samples that waited are admitted or not (R293). -/
def State.treeRun (s : State) : State :=
  s.tree.waitRun.foldl (fun (s : State) x => s.recordAdmit x) { s with tree := { s.tree with waitRun := [] } }

/-- A sample that waits for a slot is given up. -/
def State.sampleDrop (s : State) (k : Nat) : State :=
  match s.tree.wait.find? (fun x => x.slot == k) with
  | some old => State.sampleSkip { s with tree := { s.tree with wait := s.tree.wait.filter (fun x => x.slot != k) } } old
  | none => s

/-- A sample waits for its grant, and wakes the domain of the engine. -/
def State.sampleWait (s : State) (x : Sample) : State :=
  let s : State := { s with tree := { s.tree with wait := s.tree.wait ++ [x] } }
  if s.inRun 2 then s else s.wake 2

/-- The sample of a self-bound slot. -/
def State.selfSample (s : State) (img : Image) (statNan : Bool) (k : Nat) : Sample :=
  { slot := k, num := img.num, source := s.srcId, self := true, stream := 0, feats := s.feat.vals,
    statNan := statNan, disc := img.disc, held := img.heldGap.isSome,
    excused := img.emerg != 0, therm := img.therm }

/-- The pass of a muster has committed: each self-bound slot has a sample, and one that still waits is not evaluated (R278, R280). -/
def State.selfSamples (s : State) (num : Nat) (statNan : Bool) : State :=
  match s.muster.imageOf num with
  | none => s
  | some img =>
    if !bitOf (s.rd R.TREE_CTRL) 0 then s
    else
      (List.range 4).foldl (fun (s : State) k =>
        let c := s.rd R.TSL_CTRL k
        if bitOf c 0 && !bitOf c 3 then
          let s := s.sampleDrop k
          let x := s.selfSample img statNan k
          if s.drover.emerg = 2 then s.sampleSkip x else s.sampleWait x
        else s) s

/-- FEATURE_PASS_COMMIT (R252, R267, R331): the pass commits, and its self samples come to be; `lost` are the instructions whose history held a word that
the pass could not correct. -/
def execFeaturePassCommit (lost : List Nat) (s : State) : Host.Outcome State Fault Refusal :=
  .next
    (match s.feat.run with
     | some p => if (s.muster.imageOf p.num).isSome then (s.histLost lost).featCommit.selfSamples p.num p.statNan else s
     | none => s)

/-- TREE_SAMPLE_GRANT (R281): the waiting self sample of a slot is granted under W2 and admitted, in the order in which the samples came to wait (R403). -/
def execTreeSampleGrant (slot : Nat) (s : State) : Host.Outcome State Fault Refusal :=
  present (decide (slot < 4))
    (match s.tree.wait.head?.filter (fun x => x.slot == slot) with
     | none => s
     | some x =>
       if !bitOf (s.rd R.TREE_CTRL) 0 || !s.inRun 2 then s
       else
         let s := s.swapDue slot x.num
         let rest := s.tree.wait.filter (fun y => y.slot != slot)
         match (s.tslot slot).modelFor x.num with
         | none => State.sampleSkip { s with tree := { s.tree with wait := rest } } x
         | some m =>
           if !s.treeRoom m then s
           else
             match s.grant 2 (s.costTree m.trees.length m.depth) with
             | none => s
             | some s => { s with tree := { s.tree with wait := rest, queue := s.tree.queue ++ [(x, m)] } })

/-! ### Results (R282 to R284, R291) -/

/-- Table 9-7, byte 4. -/
def resultFlags (x : Sample) (poison : Bool) : Nat := x.slot + 4 * b2n poison + 8 * b2n (!x.self) + 16 * b2n x.statNan + 32 * b2n x.disc

/-- The last self result of a slot in its registers (Table 9-10). -/
def State.showResult (s : State) (x : Sample) (flags : Nat) (ms os : List Nat) : State :=
  let k := x.slot
  let s := (s.wr R.TSL_LAST_MUSTER x.num k).wr R.TSL_LAST_FLAGS flags k
  (List.range 8).foldl (fun (s : State) c =>
    let s := s.wr R.TSL_MARGIN (ms.getD c b32.nan) k c
    if c < 6 then s.wr R.TSL_OUT (os.getD c b32.nan) k c else s.wr R.TSL_OUT_HI (os.getD c b32.nan) k (c - 6)) s

/-- Add to TREE_EVALS, 64 bits. -/
def State.countEvals (s : State) (n : Nat) : State :=
  let v := s.rd R.TREE_EVALS_LO + s.rd R.TREE_EVALS_HI * 2 ^ 32 + n
  (s.wr R.TREE_EVALS_LO v).wr R.TREE_EVALS_HI (v / 2 ^ 32)

/-- TREE_RESULT_COMMIT (R282 to R284, R291): the oldest admitted sample's result. `poison` names the store and the word address of an
uncorrectable word that the sample read; it is empty without one. -/
def execTreeResultCommit (poison : List Nat) (s : State) : Host.Outcome State Fault Refusal :=
  .next
    (match s.tree.queue with
     | [] => s
     | (x, m) :: rest =>
       let bad := !poison.isEmpty
       let (order, s) := s.drawOrder (m.trees.length + 1)
       let (f0, s) := s.draw
       let (f1, s) := s.draw
       let free := (List.range 8).map (fun c => (if c < 4 then f0 else f1) / 16 ^ (c % 4))
       let s : State := { s with tree := { s.tree with queue := rest } }
       let m64 := (List.range m.cls).map (m.margin order x.feats)
       let ms := if bad then List.replicate m.cls b32.nan else m64.map f64to32
       let os := if bad then List.replicate m.cls b32.nan else linkOutputs m.link free m64
       let s := (s.bump R.TSL_SAMPLES 1 x.slot).countEvals m.trees.length
       let s := if bad then
           let s := (s.bumpSat R.TREE_POISON).modTslot x.slot (fun y => { y with damaged := true })
           (s.event 0x406 (bytes [x.slot, poison.getD 0 0, 0, 0] ++ leBytes 4 (poison.getD 1 0))).irq 0x028 3
         else s
       let flags := resultFlags x bad
       let s := if x.self then s.showResult x flags ms os else s
       let s := if bitOf (s.rd R.TSL_CTRL x.slot) 1 then
           let body := leBytes 4 x.num ++ bytes [flags, m.cls, m.link, m.depth] ++ leBytes 4 m.id ++ leBytes 4 m.ver ++ leBytes 3 x.source ++ zeros 1 ++
             leBytes 8 s.stamp ++ (ms.map (leBytes 4)).flatten ++ (os.map (leBytes 4)).flatten
           let (r, s) := s.originate 0x3B 3 (fld (s.rd R.TREE_STREAM) 15 0) body
           s.emitUp r none
         else s
       if bitOf (s.rd R.OUT_CTRL) 0 then
         { s with out := { s.out with results := s.out.results ++ [{ sample := x, outs := os, poison := bad, cutAt := s.muster.lastNum }] } }
       else s)

/-! ### Bulk records on their way (R286, R481) -/

/-- The link ports of the inputs of an entry. -/
def State.entryPorts (s : State) (e : Entry) : List Nat := ((bitsOf e.inputs).filterMap (fun b => s.inputPort e.stream b)).filter (fun p => p < linkPorts s.build)

/-- The ports of the inputs of a stream that the plan names. -/
def State.treeInputs (s : State) (stream : Nat) : List Nat :=
  match s.slotAt stream with
  | some (_, sl) => (sl.entry.map s.entryPorts).getD []
  | none => []

/-- The inputs that a chunk which came by a port goes on to. A chunk does not name its tree: it is the first of the plan whose parent or alternate
stands on that port (DESIGN CHOICE, log entry 81). -/
def State.bulkPorts (s : State) (port : Nat) : List Nat :=
  let from_ (e : Entry) : Bool := e.parent == some port || e.alt == some port || (s.build == .h && e.tray && decide (36 ≤ port) && decide (port < 40))
  match (s.convoy.slots.filterMap (fun x => x.2.entry)).find? from_ with
  | some e => (s.entryPorts e).filter (fun p => p != port)
  | none => []

/-- A chunk goes on to some ports: with its fate, or as copies of one that ended here. -/
def State.bulkOn (s : State) (ports : List Nat) (r : Rec) (fate : Bool) : State :=
  if fate then s.sendMany ports (recHop r) else ports.foldl (fun (s : State) p => s.sendPort p (recHop r) false) s

/-- A bulk chunk that was admitted: this unit's loader takes it with `use` when `mine`, and it goes on to the inputs of its tree. Forwarding waits
during a firmware blackout (R481, R483). -/
def State.bulkIn (s : State) (port : Nat) (r : Rec) (mine : Bool) (use : State → State) : State :=
  let down := s.bulkPorts port
  let s := if s.fw.blackout.isSome && !down.isEmpty then { s with fw := { s.fw with held := s.fw.held ++ [(port, r, !mine)] } } else s.bulkOn down r (!mine)
  if mine then use s else s

/-- MODEL_CHUNK_RECEIVED (R286): a chunk on TREE_LOAD_STREAM. -/
def execModelChunkReceived (port : Nat) (rec : Rec) (s : State) : Host.Outcome State Fault Refusal :=
  present (decide (port < linkPorts s.build))
    (if s.takesModel rec then
       let (ok, s) := s.admitRec port rec
       if ok then s.bulkIn port rec true (fun s => s.modelChunk port 0 rec) else s
     else s)

/-! ### Live reads (Table 9-10) -/

def State.treeLive (s : State) (off : Nat) : Option Nat :=
  let k := (off - 0x100) / 64 % 4
  let x := s.tslot k
  if off = 0x088 then some (setFld (s.rd R.TREE_CAP) 7 0 s.lanesLeft)
  else if off = 0x08C then some (s.capOf 3 0 (nodeStore s.build) - s.nodeUsed)
  else if off = 0x090 then some (s.capOf 3 1 (leafStore s.build) - s.leafUsed)
  else if off = 0x0A0 then
    some (match s.tree.load with
      | some l => 1 + 2 * b2n l.verifying + 4 * b2n l.chunks + 16 * l.slot + 256 * s.tree.reason
      | none => 256 * s.tree.reason)
  else if off = 0x0A4 then
    some (match s.tree.load with
      | some l => l.data.length
      | none => 0)
  else if 0x100 ≤ off ∧ off < 0x200 then
    let o := off % 64
    let g (m : Option TModel) (f : TModel → Nat) : Option Nat := some (match m with
      | some m => f m
      | none => 0)
    if o = 0x0C then
      some (b2n x.force.isSome + 2 * b2n x.staged.isSome + 4 * b2n x.loading + 8 * b2n x.damaged +
        (match x.force with
         | some m => 16 * m.depth + 256 * m.link + 4096 * m.cls + 65536 * m.trees.length
         | none => 0))
    else if o = 0x10 then g x.force TModel.id
    else if o = 0x14 then g x.force TModel.ver
    else if o = 0x18 then g x.staged TModel.id
    else if o = 0x1C then g x.staged TModel.ver
    else none
  else none

end Sys2Proof.Machine
end

