-- ==== Sys2Proof/Machine/Abft.lean ====
section
/-! DEFINITION. Silent error checking: checksum beats, condition bins, taint episodes and notices, idle windows, pattern runs and the
staging of patterns (R318 to R336). -/

namespace Sys2Proof.Machine

def State.modAbft (s : State) (f : AbftSt → AbftSt) : State := { s with abft := f s.abft }

/-! ### The comparison (R320) -/

inductive Check where
  | pass | fail | uncheckable
  deriving DecidableEq, Repr

/-- A pair against its tolerances, given in binary64. -/
def compare (a b m tauAbs tauRel : Nat) : Check :=
  let neg := decide (2 ^ 63 ≤ m) && m != 2 ^ 63
  if fIsNan b64 m || m == b64.inf || neg then .uncheckable
  else
    let m := if m = 2 ^ 63 then 0 else m
    if fIsNan b64 a && fIsNan b64 b then .uncheckable
    else if fIsNan b64 a || fIsNan b64 b then .fail
    else if (decF b64 a).isInf || (decF b64 b).isInf then (if fEq b64 a b then .pass else .fail)
    else if fLe b64 (fAbs b64 (fSub b64 a b)) (fFma b64 tauRel m tauAbs) then .pass else .fail

def State.laneCheck (s : State) (l : CkLane) : Check :=
  compare l.act l.pred l.mag (f32to64 (s.rd R.ABFT_TOL_ABS l.prec)) (f32to64 (s.rd R.ABFT_TOL_REL l.prec))

/-- A tolerance that is negative, a NaN or an infinity is an invalid value (R321). -/
def tolBad (v : Nat) : Bool := decide (0x7F800000 ≤ v) && v != 0x80000000

/-! ### Condition bins (R324, R325) -/

/-- The cell of a check now; none when it enters no cell. -/
def State.cellNow (s : State) : Option Nat :=
  let c := s.rd R.ABFT_BIN_CFG
  let ok (n kind : Nat) : Bool :=
    let x := s.sensor n
    !x.stale && !x.fault && !x.noReading && s.snsKind n == kind
  let ts := fld c 3 0
  let vs := fld c 7 4
  let x := s.feat.vals.getD (fld c 19 10) b32.nan
  if !ok ts 1 || !ok vs 2 || fIsNan b32 x then none
  else
    let t := max 0 (min 15 ((sgnN 16 (s.sensor ts).value - 30 * 64) / 320))
    let w := s.rd R.ABFT_VBIN
    let base := fld w 15 0
    let step := fld w 31 16
    let dv : Int := (s.sensor vs).value - base
    let v : Int := if step = 0 then ((Config.binNoStep base (s.sensor vs).value % 8 : Nat) : Int) else max 0 (min 7 (dv / step))
    let a : Int := if (decF b32 x).isNeg then 0 else if fLe b32 0x3F800000 x then 7 else max 0 (min 7 (fFloor b32 (fMul b32 x (fOfNat b32 8))))
    some (64 * t + 8 * v + a).toNat

def addCell (bits cell : Nat) (l : List (Nat × Nat)) : List (Nat × Nat) := insAsc cell (satAdd bits (assocD 0 cell l) 1) l

/-- A pass or a fail in its cell, or in none. -/
def State.enterCell (s : State) (cell : Option Nat) (fail : Bool) : State :=
  match cell with
  | some k => s.modAbft (fun x => if fail then { x with fails := addCell 16 k x.fails } else { x with passes := addCell 32 k x.passes })
  | none =>
    let s := s.bumpSat R.ABFT_UNBINNED
    if fail then s.modAbft (fun x => { x with unbinnedFails := x.unbinnedFails + 1 }) else s

/-- The bins of a cell as a verdict record lays them out: temperature, voltage, activity (Table 10-3, R324). -/
def condBins (cell : Nat) : Nat := cell / 64 + 16 * (cell / 8 % 8) + 128 * (cell % 8)

/-- A fail classifies the own die in the same cycle (R325). -/
def State.classify (s : State) (cell : Option Nat) : State :=
  let w := s.rd R.ABFT_COND
  let one := s.abft.unbinnedFails == 0 && s.abft.fails.length == 1
  let others := ((List.range 1024).filter (fun k => some k != cell && decide (fld w 15 0 ≤ assocD 0 k s.abft.passes))).length
  if s.out.sdc then s
  else if s.out.cond.isSome then (if one then s else s.latchSdc)
  else if one && decide (fld w 19 16 ≤ others) then s.latchCond (condBins (cell.getD 0)) else s.latchSdc

/-- Count a pass: ABFT_PASS has 64 bits. -/
def State.passCount (s : State) : State :=
  let v := s.rd R.ABFT_PASS_LO + s.rd R.ABFT_PASS_HI * 2 ^ 32 + 1
  (s.wr R.ABFT_PASS_LO v).wr R.ABFT_PASS_HI (v / 2 ^ 32)

/-! ### Marks and the horizon (R318, R326) -/

/-- An engine marks an epoch. -/
def State.markIn (s : State) (g e : Nat) : State :=
  let first := s.abft.marks.isEmpty
  let top := if first || laterThan e (s.rd R.ABFT_EPOCH_NOW) then e else s.rd R.ABFT_EPOCH_NOW
  (s.wr R.ABFT_EPOCH_NOW top).modAbft (fun x => { x with
    marks := { engine := g, epoch := e, at_ := s.time.cycles } :: x.marks.filter (fun m => m.engine != g),
    stamps := ((if x.stamps.any (fun p => p.1 == e) then x.stamps else (e, s.stamp) :: x.stamps).filter (fun p => (top + 2 ^ 32 - p.1) % 2 ^ 32 < 64)) })

/-- An engine is active (R319). -/
def State.engineActive (s : State) (m : Mark) : Bool := decide (s.time.cycles ≤ m.at_ + cyclesOf (fld (s.rd R.ABFT_ACTIVE_US) 19 0))

/-- The last clean epoch of a fail of engine g at epoch f, and the engine that limits it. -/
def State.taintHorizon (s : State) (g f : Nat) : Nat × Nat :=
  (List.range 32).foldl (fun (acc : Nat × Nat) h =>
    match s.abft.marks.find? (fun m => m.engine == h) with
    | some m =>
      let ct := w32 (m.epoch + 4294967295)
      if h != g && bitOf (s.rd R.ABFT_ENG_EN) h && s.engineActive m && laterThan acc.1 ct then (ct, h) else acc
    | none => acc) (w32 (f + 4294967295), g)

/-! ### Notices (R327 to R330) -/

/-- The ports of the unit's neighbours on the tree of a stream: the parent or its alternate, the inputs or their relays. -/
def State.treePorts (s : State) (stream : Nat) : List Nat :=
  match s.slotAt stream with
  | some (_, sl) => match sl.entry with
    | some e =>
      let up := if e.root then [] else
        let ok (x : Option Nat) : List Nat := match x with
          | some p => if (s.port p).usable then [p] else []
          | none => []
        if (ok e.parent).isEmpty then ok e.alt else ok e.parent
      let down := ((bitsOf e.inputs).filter (· != 0)).map (fun b =>
        match s.inputPort stream b with
        | some p => [p]
        | none => (s.adoptTable.filter (fun a => (s.bitPorts stream b).contains a.parentPort)).map (fun a => a.port))
      up ++ down.flatten
    | none => []
  | none => []

/-- The ports a record for the whole tree of the reconciliation stream leaves by: tree neighbours, a Selvo-H's own leaves, one lane to each
Selvo-T; not the one it came by (R158, R328). -/
def State.floodPorts (s : State) (stream : Nat) (came : Option Nat) : List Nat :=
  let l := match s.build with
    | .l => [0]
    | .t => s.treePorts (s.rd R.CVY_RECON_STREAM)
    | .h => (s.treePorts (s.rd R.CVY_RECON_STREAM)).filter (fun p => decide (p < 36) || decide (40 ≤ p)) ++ (List.range 24).map (fun i => 40 + i) ++
        (s.laneOf 36 stream).toList ++ (s.laneOf 38 stream).toList
  (l.foldl (fun (a : List Nat) p => if a.contains p then a else a ++ [p]) []).filter (fun p => some p != came && (s.port p).usable)

/-- Send a notice on its ports, to be resent until acknowledged. -/
def State.sendNotice (s : State) (r : Rec) (ports : List Nat) : State :=
  if ports.isEmpty then s.dropped r.stream 1
  else
    let (uid, s) := s.newPend r.stream true none ports.length
    let s := ports.foldl (fun (s : State) p => s.enqueue p uid r) s
    s.modAbft (fun x => { x with sent := x.sent ++ ports.map (fun p => (p, uid, s.time.cycles)) })

/-- The taint notice of the own die (Table 11-3). -/
def State.taintNotice (s : State) (revised old : Bool) (c u f su g p lim cell : Nat) : State :=
  let cond := s.out.cond.isSome && !s.out.sdc
  let body := leBytes 3 s.srcId ++ bytes [b2n revised + 2 * b2n old + 4 * b2n cond] ++ leBytes 4 c ++ leBytes 4 u ++ leBytes 4 f ++ leBytes 8 su ++
    leBytes 8 s.stamp ++ bytes [g + 32 * p, lim] ++ leBytes 2 cell ++ zeros 4
  let stream := fld (s.rd R.TRF_ALARM_STREAM) 15 0
  let (r, s) := s.originate 0x48 0 stream body
  s.sendNotice r (s.floodPorts stream none)

/-- The fail of a beat opens a taint episode, or lowers its horizon (R327). -/
def State.taint (s : State) (l : CkLane) (cell : Nat) : State :=
  let (c, lim) := s.taintHorizon l.engine l.epoch
  let u := w32 (c + 1)
  let lower := s.abft.tainted && laterThan (w32 (s.rd R.ABFT_HZN_CLEAN + 1)) u
  if s.abft.tainted && !lower then s
  else
    let known := s.abft.stamps.find? (fun p => p.1 == u)
    let old := known.isNone
    let su := (known.map (fun p => p.2)).getD 0
    let n := if s.abft.tainted then satAdd 16 (fld (s.rd R.ABFT_HZN_INFO) 31 16) 1 else 1
    let revised := s.abft.tainted
    let s := s.modAbft (fun x => { x with tainted := true })
    let s := ((s.wr R.ABFT_HZN_CLEAN c).wr R.ABFT_HZN_FAIL l.epoch).wr R.ABFT_HZN_SU_LO su
    let s := (s.wr R.ABFT_HZN_SU_HI (su / 2 ^ 32)).wr R.ABFT_HZN_INFO (l.engine + 32 * lim + 1024 * b2n old + 2048 * b2n revised + 65536 * n)
    s.taintNotice revised old c u l.epoch su l.engine l.prec lim cell

/-- A fail is counted, entered and classified; its event names the cell (R325). A check in no cell has no cell index in the spec. -/
def State.failCommon (s : State) (l : CkLane) (code : Nat) (tail : List Byte) : Nat × State :=
  let cell := s.cellNow
  let s := ((s.bumpSat R.ABFT_FAIL).enterCell cell true).classify cell
  let (f, s) := if cell.isNone then s.draw else (0, s)
  let idx := cell.getD (f % 1024)
  (idx, s.event code (bytes [l.engine, l.prec] ++ leBytes 2 idx ++ tail))

/-- A checksum fail (R325, R327). -/
def State.checkFail (s : State) (l : CkLane) : State :=
  let (idx, s) := s.failCommon l 0x501 (leBytes 4 l.epoch)
  (s.irq 0x023 0).taint l idx

/-- A pattern check fails (R335). -/
def State.patFail (s : State) (l : CkLane) : State := (s.failCommon l 0x502 (leBytes 4 (s.rd R.ABFT_PAT_ID) ++ leBytes 4 l.epoch)).2

/-- A pair is a pattern check while a run is open. -/
def State.isPattern (s : State) (l : CkLane) : Bool := s.abft.run.isSome && bitOf (s.rd R.ABFT_PAT_ENG) l.engine

/-- Show the counts of a run. -/
def State.patCounts (s : State) : State :=
  match s.abft.run with
  | some r => s.wr R.ABFT_PAT_COUNTS (min r.checks (2 ^ 24 - 1) + 16777216 * min r.fails 255)
  | none => s

/-- One pair that is neither the fail of its beat. -/
def State.pairIn (s : State) (l : CkLane) : State :=
  let c := s.laneCheck l
  let pat := s.isPattern l
  let s := if pat && c != .uncheckable then
      (s.modAbft (fun x => { x with run := x.run.map (fun r => { r with checks := r.checks + 1, fails := r.fails + b2n (c == .fail) }) })).patCounts
    else s
  match c with
  | .uncheckable => s.bumpSat R.ABFT_UNCHECKABLE
  | .pass => s.passCount.enterCell s.cellNow false
  | .fail => if pat then s.patFail l else s

/-- The fail of a beat: the lowest epoch among its fails, and the lowest lane of that epoch (R327). -/
def State.beatFail (s : State) (l : List CkLane) : Option CkLane :=
  l.foldl (fun (a : Option CkLane) x =>
    if s.laneCheck x = .fail ∧ !s.isPattern x then (match a with
      | some y => if laterThan y.epoch x.epoch then some x else some y
      | none => some x) else a) none

/-- A beat: its marks, then its pairs, then its one fail; the fail and a change of the own verdict are one trigger (R356). -/
def State.beat (s : State) (lanes : List CkLane) : State :=
  let dis := (lanes.filter (fun l => !bitOf (s.rd R.ABFT_ENG_EN) l.engine)).length
  let lanes := lanes.filter (fun l => bitOf (s.rd R.ABFT_ENG_EN) l.engine)
  let s := if dis = 0 then s else s.bumpSat R.ABFT_DISABLED_ENG dis
  let s := (lanes.filter (fun l => l.prec == 7)).foldl (fun (s : State) l => s.markIn l.engine (w32 l.epoch)) s
  let pairs := (lanes.filter (fun l => decide (l.prec < 7))).map (fun l => { l with epoch := w32 l.epoch })
  let f := s.beatFail pairs
  let was := s.viewOf 0
  let s := pairs.foldl (fun (s : State) l => s.pairIn l) s
  let s := match f with
    | some l => s.checkFail l
    | none => s
  s.trcTrigger ((if f.isSome then 2 ^ 17 else 0) + (if s.viewOf 0 = was then 0 else 2 ^ 19))

/-- A notice is held here: the receive log, interrupt bit 1 and the trigger (R330). -/
def State.noticeLog (s : State) (r : Rec) : State :=
  let p := r.payload
  let s := s.modAbft (fun x => { x with log := ([leAt p 0 3, leAt p 3 1 % 2, leAt p 4 4, leAt p 8 4, r.seq] :: x.log).take 16 })
  ((s.bumpSat R.ABFT_RX_TOTAL).irq 0x023 1).trcTrigger (2 ^ 18)

/-- A notice that was admitted: forwarded at once, once, and logged (R328, R330). -/
def State.noticeIn (s : State) (port : Nat) (r : Rec) : State :=
  match s.build with
  | .l => s.consume r (fun s => s.noticeLog r)
  | .h => s.inspectOn r (fun q s => s.noticeLog q) (fun q s => s.sendNotice (recHop q) (s.floodPorts q.stream (some port)))
  | .t => s.inspectOn r (fun q s => s.noticeLog q) (fun q s =>
      (s.floodPorts q.stream (some port)).foldl (fun (s : State) p => s.sendPort p (recHop q) false) (s.emitUp (recHop q) none))

/-- TAINT_NOTICE_RECEIVED (R328, R330). -/
def execTaintNoticeReceived (port : Nat) (rec : Rec) (s : State) : Host.Outcome State Fault Refusal :=
  present (decide (port < linkPorts s.build))
    (if rec.type = 0x48 then
       let (ok, s) := s.admitRec port rec
       if ok then s.noticeIn port rec else s
     else s)

/-- TAINT_NOTICE_RESEND (R328): notices a port has held unacknowledged for 1.5 us are sent again. -/
def execTaintNoticeResend (port : Nat) (s : State) : Host.Outcome State Fault Refusal :=
  present (decide (port < linkPorts s.build))
    (let heldAt (s : State) (uid : Nat) : Option Item := ((s.port port).tx8 0).held.find? (fun i => i.uid == uid)
     let live (x : Nat × Nat × Nat) : Bool := let c := (s.port x.1).tx8 0; c.held.any (fun i => i.uid == x.2.1) || c.q.any (fun i => i.uid == x.2.1)
     let due := s.abft.sent.filter (fun x => x.1 == port && decide (x.2.2 + 1200 ≤ s.time.cycles))
     let s := s.modAbft (fun x => { x with sent := (x.sent.filter live).map (fun y => if due.contains y then (y.1, y.2.1, s.time.cycles) else y) })
     due.foldl (fun (s : State) x =>
       match heldAt s x.2.1 with
       | some i =>
         if (s.port port).usable then
           (s.modCls port 0 (fun c => { c with q := c.q ++ [{ i with sent := 0, pkt := 0, resent := true }] })).pbump R.FP_RESENT port
         else s
       | none => s) s)

/-- ABFT_TAINT_CLEAR (R327). -/
def execAbftTaintClear (a : Acc) (data : Word) (s : State) : Host.Outcome State Fault Refusal :=
  .next (s.guardedWrite a 0x0230CC data.toNat false false (fun s => if bitOf data.toNat 0 then s.modAbft (fun x => { x with tainted := false }) else s))

/-- A write of ABFT_CTRL: EN holds a vote on CORE (R322). -/
def State.abftCtrl (s : State) (v : Nat) : State := (s.wr R.ABFT_CTRL (v % 4)).hwVote 1 322 (bitOf v 0)

/-! ### Idle windows (R334) -/

/-- The offer record; with END when a command ends the window. -/
def State.offerRec (s : State) (num stamp : Nat) (end_ : Bool) : State :=
  let (r, s) := s.originate 0x4A 3 (fld (s.rd R.ABFT_STREAM) 15 0) (leBytes 3 s.srcId ++ bytes [b2n end_] ++ leBytes 4 num ++ leBytes 8 stamp)
  s.emitUp r none

/-- The streams that must be idle. -/
def State.idleSet (s : State) : List Nat := (List.range 32).filter (fun c => bitOf (s.rd R.ABFT_IDLE_STREAMS) c)

/-- IDLE_WINDOW_OFFER (R334): one offer per idle period, in Normal, attended. -/
def execIdleWindowOffer (s : State) : Host.Outcome State Fault Refusal :=
  present (hasTaps s.build)
    (let l := s.idleSet
     let idle := l.all (fun c => !s.cmdOpen c && s.after (assocD 0 c s.samp.cmdIdleAt) (fld (s.rd R.ABFT_IDLE_MIN) 15 0))
     if bitOf (s.rd R.ABFT_CTRL) 1 && idle && s.abft.offer.isNone && s.drover.emerg == 0 && !s.core.unattended then
       let last := l.foldl (fun (a : Nat × Nat) c =>
         let t := assocD 0 c s.samp.cmdIdleAt
         if a.1 < t then (t, assocD 0 c s.samp.cmdIdleStamp) else a) (0, 0)
       let n := s.abft.offers
       let s := s.modAbft (fun x => { x with offer := some (n, last.2), offers := n + 1 })
       (s.irq 0x023 3).offerRec n last.2 false
     else s)

/-! ### Pattern runs (R335) -/

/-- A run ends: 2 PASS, 3 FAIL, 4 INCOMPLETE, with its result record. -/
def State.runEnd (s : State) (ended timedOut byCommand : Bool) : State :=
  match s.abft.run with
  | none => s
  | some r =>
    let res := if 0 < r.fails then 3 else if ended && decide (s.rd R.ABFT_PAT_EXPECT ≤ r.checks) then 2 else 4
    let s := s.modAbft (fun x => { x with run := none })
    let s := s.wr R.ABFT_PAT_STATUS (res + 8 * b2n timedOut + 16 * b2n byCommand)
    let s := if res = 2 then s.wr R.ABFT_PAT_LAST_PASS (s.rd R.ABFT_PAT_ID) else s
    let body := leBytes 3 s.srcId ++ bytes [res] ++ leBytes 4 (s.rd R.ABFT_PAT_ID) ++ leBytes 4 (s.rd R.ABFT_PAT_VER) ++ leBytes 4 r.checks ++
      leBytes 4 r.fails ++ leBytes 8 r.startStamp ++ leBytes 8 s.stamp
    let (x, s) := (s.irq 0x023 4).originate 0x4B 3 (fld (s.rd R.ABFT_STREAM) 15 0) body
    s.emitUp x none

/-- A write of ABFT_PAT_GO: start, then end. -/
def State.patGo (s : State) (v : Nat) : State :=
  let s := if bitOf v 0 then
      ((s.modAbft (fun x => { x with run := some { checks := 0, fails := 0, startStamp := s.stamp, startAt := s.time.cycles } })).wr R.ABFT_PAT_STATUS 1).wr
        R.ABFT_PAT_COUNTS 0
    else s
  if bitOf v 1 then s.runEnd true false false else s

/-- A GO while a run is open. -/
def State.patGoBad (s : State) (v : Nat) : Bool := bitOf v 0 && s.abft.run.isSome

def execPatternRunStart (a : Acc) (data : Word) (s : State) : Host.Outcome State Fault Refusal :=
  .next (s.guardedWrite a 0x023310 data.toNat false (s.patGoBad data.toNat) (fun s => s.patGo data.toNat))

def execPatternRunEnd (a : Acc) (data : Word) (s : State) : Host.Outcome State Fault Refusal :=
  .next (s.guardedWrite a 0x023310 data.toNat false (s.patGoBad data.toNat) (fun s => s.patGo data.toNat))

/-- PATTERN_RUN_TIMEOUT (R335). -/
def execPatternRunTimeout (s : State) : Host.Outcome State Fault Refusal :=
  present (hasTaps s.build)
    (match s.abft.run with
     | some r =>
       let v := fld (s.rd R.ABFT_PAT_TIMEOUT) 15 0
       if s.after r.startAt (1000 * (if v = 0 then 1000 else v)) then s.runEnd false true false else s
     | none => s)

/-- A command has opened on a stream: it ends an offer and interrupts a run on an idle stream (R334, R335). -/
def State.abftOpen (s : State) (c : Nat) : State :=
  if !bitOf (s.rd R.ABFT_IDLE_STREAMS) c then s
  else
    let s := match s.abft.offer with
      | some (n, st) => (s.modAbft (fun x => { x with offer := none })).offerRec n st true
      | none => s
    s.runEnd false false true

/-! ### Command boundaries (R79, R148, R149) -/

/-! ### Pattern staging (R332, R333) -/

def State.place (s : State) (q : Nat) : PatPlace := s.abft.places.getD q PatPlace.empty
def State.modPlace (s : State) (q : Nat) (f : PatPlace → PatPlace) : State := s.modAbft (fun x => { x with places := modNth x.places q f })

/-- A place is refused. -/
def State.placeRefuse (s : State) (q reason : Nat) : State :=
  let s := if reason = 7 then
      s.wr R.FW_UA_REFUSED (setFld (s.rd R.FW_UA_REFUSED) 23 16 (satAdd 8 (fld (s.rd R.FW_UA_REFUSED) 23 16) 1))
    else s
  (s.modPlace q (fun p => { p with st := 3, reason := reason, verifying := false, skip := true })).irq 0x023 6

/-- A chunk that class W6 covers enters its place. -/
def State.patTake (s : State) (r : Rec) : State :=
  let p := r.payload
  let off := leAt p 0 4
  let q := leAt p 4 1 % 4
  let last := bitOf (leAt p 4 1) 2
  let body := p.drop 8
  let x := s.place q
  if s.core.unattended then (if off = 0 ∨ x.st = 1 then s.placeRefuse q 7 else s)
  else
    let go (s : State) (old : List Byte) : State :=
      if 4194304 < old.length + body.length then s.placeRefuse q 2
      else s.modPlace q (fun y => { y with st := 1, reason := 0, data := old ++ body, verifying := last, skip := false, bad := false })
    if x.st = 1 then
      if off = 0 ∨ x.verifying then s.placeRefuse q 6
      else if off = x.data.length then go s x.data
      else s.placeRefuse q 1
    else if off = 0 then go s []
    else if x.skip then s
    else s.placeRefuse q 1

/-- Waiting chunks, oldest first, while class W6 covers them. -/
def State.patDrain : Nat → State → State
  | 0, s => s
  | n + 1, s =>
    match s.abft.chunks with
    | [] => s
    | w :: rest =>
      match s.grant 6 (s.costBulk (w.r.payload.length - 8)) with
      | none => s
      | some s => State.patDrain n ((s.modAbft (fun x => { x with chunks := rest })).waitOver w (fun s => s.patTake w.r))

/-- A chunk of the staging stream ends at a Selvo-T; it waits for class W6 under its credits (R333). -/
def State.patChunk (s : State) (port credits : Nat) (r : Rec) : State :=
  s.waitIn port credits r (fun w s =>
    let s := s.modAbft (fun x => { x with chunks := x.chunks ++ [w] })
    s.patDrain s.abft.chunks.length)

/-- A 0x51 record is for this unit's staging. -/
def State.takesPattern (s : State) (r : Rec) : Bool := s.build == .t && r.type == 0x51 && r.stream == s.rd R.PAT_STAGE_STREAM

/-- PATTERN_CHUNK_RECEIVED (R333): a chunk on PAT_STAGE_STREAM. -/
def execPatternChunkReceived (port : Nat) (rec : Rec) (s : State) : Host.Outcome State Fault Refusal :=
  present (s.build == .t && decide (port < linkPorts s.build))
    (if s.takesPattern rec then
       let (ok, s) := s.admitRec port rec
       if ok then s.bulkIn port rec true (fun s => s.patChunk port 0 rec) else s
     else s)

/-- Why a package is refused, the lowest code that applies; 0 for none (R332, R333). -/
def State.patReason (s : State) (x : PatPlace) : Nat :=
  let l := x.data
  if l.length < 224 ∨ leAt l 0 4 ≠ 0x32505653 ∨ leAt l 4 2 ≠ 1 ∨ leAt l 16 4 + 224 ≠ l.length then 1
  else
    let key := s.auth.otp.model.getD (leAt l 7 1) ⟨0, []⟩
    if 3 < leAt l 7 1 ∨ key.st ≠ 1 then 3
    else if sha384 ((l.drop 128).take (leAt l 16 4)) != (l.drop 32).take 48 || !ecdsaOk key.key (l.take 128) (l.drop (l.length - 96)) then 4
    else if x.bad then 5
    else if s.core.unattended then 7
    else 0

/-- PATTERN_VERIFY_DONE (R332, R333): the first place that is being verified, as class W6 covers it. -/
def execPatternVerifyDone (s : State) : Host.Outcome State Fault Refusal :=
  present (s.build == .t)
    (match s.abft.places.findIdx? (fun p => p.verifying) with
     | none => s
     | some q =>
       let x := s.place q
       match s.grant 6 (s.costBulk x.data.length) with
       | none => s
       | some s =>
         let why := s.patReason x
         if why = 0 then (s.modPlace q (fun p => { p with st := 2, verifying := false })).irq 0x023 5 else s.placeRefuse q why)

/-- PAT_PLACE_DROP (R336). -/
def execPatPlaceDrop (a : Acc) (place : Nat) (data : Word) (s : State) : Host.Outcome State Fault Refusal :=
  .next (s.guardedWrite a (regOf (decide (place < 4)) (0x02341C + 16 * place)) data.toNat false false (fun s =>
    if bitOf data.toNat 0 then s.modPlace place (fun _ => PatPlace.empty) else s))

/-! ### Live reads (Table 11-7) -/

def State.abftLive (s : State) (off : Nat) : Option Nat :=
  let x := s.abft
  let cell := fld (s.rd R.ABFT_BIN_SEL) 9 0
  let e := x.log.getD (fld (s.rd R.ABFT_RX_SEL) 3 0) []
  let q := s.place ((off - 0x410) / 16)
  if off = 0x088 then some (b2n x.tainted + 2 * b2n x.run.isSome + 4 * b2n x.offer.isSome)
  else if off = 0x0C0 then some (assocD 0 cell x.passes)
  else if off = 0x0C4 then some (assocD 0 cell x.fails)
  else if off = 0x208 then some (if e.isEmpty then 0 else e.getD 0 0 + 16777216 * e.getD 1 0 + 2147483648)
  else if off = 0x20C then some (e.getD 2 0)
  else if off = 0x210 then some (e.getD 3 0)
  else if off = 0x214 then some (e.getD 4 0)
  else if 0x410 ≤ off ∧ off < 0x450 ∧ s.build = .t then
    let o := off % 16
    if o = 0 then some (leAt q.data 8 4)
    else if o = 4 then some (leAt q.data 12 4)
    else if o = 8 then some (q.st + 16 * q.reason + 256 * (q.data.length / 256))
    else none
  else none

end Sys2Proof.Machine
end

