-- ==== Sys2Proof/Machine/Admission.lean ====
section
/-! DEFINITION. Discovery and the release of quarantined ports, identities that take effect, and the admission of leaf dies (R20, R24,
R211, R220, R315, R316). -/

namespace Sys2Proof.Machine

/-- A fleet time that never comes. -/
def never : Nat := 2 ^ 100

/-- An admission of a leaf slot starts: until it is READY the slot joins no convoy (R315, R316). -/
def State.admitStart (s : State) (slot mask trees : Nat) : State :=
  let s := { s with out := { s.out with admission := { st := 1, slot := slot, test := 0, mask := mask, trees := trees, startAt := s.time.cycles, epoch := 0, rounds := [] } } }
  s.modPort (39 + slot) (fun q => { q with joining := true, joinAt := never })

/-- The next automatic admission that is due starts, when none runs (R315). -/
def State.admitNext (s : State) : State :=
  match s.link.admitDue with
  | [] => s
  | k :: rest =>
    if s.out.admission.st = 1 then s
    else
      let w := s.rd R.OUT_ADMIT_DEFMASK
      ({ s with link := { s.link with admitDue := rest } } : State).admitStart k (fld w 13 12) (fld w 11 8)

/-- DISCOVERY (R20, R24, R26, R211): the neighbours of a Selvo-H or Selvo-T present their IDs. -/
def execDiscovery (answers : List (Nat × Nat)) (s : State) : Host.Outcome State Fault Refusal :=
  present (s.build != .l) (s.discover answers).admitNext

/-- QUARANTINE_RELEASE (R220, R221, Table 17-7): a write of a port's release register. -/
def execQuarantineRelease (a : Acc) (port : Nat) (data : Word) (s : State) : Host.Outcome State Fault Refusal :=
  .next (s.guardedWrite a (portAddr s.build port 0x090) data.toNat false false (fun s => (s.quarRelease port data.toNat).admitNext))

/-- IDENTITY_TAKES_EFFECT (R24): a newly written identity becomes the source ID at the epoch boundary. -/
def State.identity (s : State) : State :=
  match s.auth.pendId with
  | some id => { s with auth := { s.auth with srcId := id, pendId := none } }
  | none => s

def execIdentityTakesEffect (s : State) : Host.Outcome State Fault Refusal := .next s.identity

/-! ### Admission (R315, R316, Table 10-6) -/

/-- The number of the first cut of the schedule held at or after a time. -/
def Sched.firstAt (c : Sched) (t : Nat) : Nat := w32 (c.base + max c.k (c.cutsBefore t))

/-- The first epoch that any stream reduces, at or after a number (R316). -/
def State.firstEpoch (s : State) (num : Nat) : Nat :=
  let gaps := s.convoy.slots.filterMap (fun p => match p.2.entry with
    | some e => some ((e.phase + e.stride - num % e.stride) % e.stride)
    | none => none)
  match gaps with
  | [] => num
  | g :: gs => w32 (num + gs.foldl min g)

/-- Every selected test has passed: READY (R315). -/
def State.admitReady (s : State) : State :=
  let ad := s.out.admission
  let t := s.now + usTime 20
  let s := s.modPort (39 + ad.slot) (fun q => { q with joinAt := t })
  let epoch := match s.muster.cur with
    | some c => if c.interval = 0 ∧ c.start < t then 0 else s.firstEpoch (c.firstAt t)
    | none => 0
  let id := s.srcId / 32 * 32 + ad.slot
  let s := { s with out := { s.out with admission := { ad with st := 2, epoch := epoch }, dies := s.out.dies.filter (fun p => p.1 == 0 || p.2.id != id) } }
  let s := if s.convoy.escStream = 0 then s else s.request id 0 0 0 s.muster.lastNum false true
  ((s.irq 0x029 4).event 0x407 (bytes [ad.slot, 0, 0, 0] ++ leBytes 4 epoch)).admitNext

/-- The admission ends FAILED (R316). -/
def State.admitFail (s : State) (timeout : Bool) : State :=
  let ad := s.out.admission
  let s := { s with out := { s.out with admission := { ad with st := 3 } } }
  ((s.irq 0x029 5).event 0x408 (bytes [ad.slot, ad.test, b2n timeout])).admitNext

/-- The test after a test, among tests 0 to 4 and those that MASK selects. -/
def nextTest (mask t : Nat) : Option Nat :=
  (List.range 7).find? (fun k => decide (t < k) && (decide (k < 5) || (k == 5 && bitOf mask 0) || (k == 6 && bitOf mask 1)))

/-- The leaf of the slot under admission presents the package's ID with its slot, and no duplicate (Table 10-6, test 0). -/
def State.admitIdentity (s : State) : Bool :=
  let slot := s.out.admission.slot
  let q := s.port (39 + slot)
  q.neighbour == s.srcId / 32 * 32 + slot && !q.dupId

/-- How the test now running has ended: tests 0 and 3 as this unit's own state shows it, the others as the leaf reports (`pass`). A link test
that has not seen its rounds yet goes on (none). -/
def State.admitVerdict (s : State) (pass : Bool) : Option Bool :=
  let ad := s.out.admission
  if ad.test = 0 then some s.admitIdentity
  else if ad.test = 3 then
    (if (List.range 8).all (fun c => decide (3 ≤ ad.rounds.getD c 0)) then some true else if pass then none else some false)
  else some pass

/-- ADMISSION_TEST_COMPLETE (R315): the test now running has ended. -/
def execAdmissionTestComplete (pass : Bool) (s : State) : Host.Outcome State Fault Refusal :=
  present (s.build == .h)
    (let ad := s.out.admission
     if ad.st ≠ 1 then s
     else
       match s.admitVerdict pass with
       | none => s
       | some false => s.admitFail false
       | some true =>
         match nextTest ad.mask ad.test with
         | some t => { s with out := { s.out with admission := { ad with test := t, rounds := List.replicate 8 0 } } }
         | none => s.admitReady)

/-- ADMISSION_TIMEOUT (R316). -/
def execAdmissionTimeout (s : State) : Host.Outcome State Fault Refusal :=
  present (s.build == .h)
    (let v := fld (s.rd R.OUT_ADMIT_TIMEOUT) 15 0
     if s.out.admission.st = 1 && s.after s.out.admission.startAt (1000 * (if v = 0 then 200 else v)) then s.admitFail true else s)

/-- GO for another slot while an admission runs (R315). -/
def State.admitBad (s : State) (v : Nat) : Bool := bitOf v 15 && s.out.admission.st == 1 && fld v 4 0 != s.out.admission.slot

/-- A write of OUT_ADMIT; GO reads 0. GO for the slot under admission starts it again, and GO for a number that is no leaf slot starts none
(log entry 33). -/
def State.admitWrite (s : State) (v : Nat) : State :=
  let s := s.wr R.OUT_ADMIT (v &&& 0x3F1F)
  if bitOf v 15 && decide (1 ≤ fld v 4 0) && decide (fld v 4 0 ≤ 24) then s.admitStart (fld v 4 0) (fld v 13 12) (fld v 11 8) else s

def execOutAdmitGo (a : Acc) (data : Word) (s : State) : Host.Outcome State Fault Refusal :=
  .next (s.guardedWrite a 0x029200 data.toNat false (s.admitBad data.toNat) (fun s => s.admitWrite data.toNat))

end Sys2Proof.Machine
end

