-- ==== Sys2Proof/Machine/Summarise.lean ====
section
/-! DEFINITION. Summarise-down: spans of sample records merged into type 0x3E summaries (R212 to R214). -/

namespace Sys2Proof.Machine

/-- The values of one item over the records of a span, in order. -/
abbrev ItemVals := Nat × List Nat

/-- Add a value to an item's list, keeping items in ascending order. -/
def itemAdd (k v : Nat) : List ItemVals → List ItemVals
  | [] => [(k, [v])]
  | (a, l) :: r => if k < a then (k, [v]) :: (a, l) :: r else if k = a then (a, l ++ [v]) :: r else (a, l) :: itemAdd k v r

/-- The (item, value) pairs of one block record (R214, Table 5-8). -/
def blockItems (type : Nat) (p : List Byte) : List (Nat × Nat) :=
  let b := p.drop 4
  if type = 0x31 then
    let first := leAt b 0 2
    (List.range (leAt b 2 2)).map (fun i => (first + i, leAt b (4 + 8 * i) 8))
  else if type = 0x32 then
    let bm := leAt b 0 2
    (((List.range 16).filter (fun i => bm.testBit i)).zipIdx).map (fun x => (x.1, leAt b (4 + 8 * x.2) 2))
  else if type = 0x33 then
    ((List.range (b.length / 112)).map (fun k => (List.range 13).map (fun t => (16 * k + t, leAt b (112 * k + 8 + 8 * t) 8)))).flatten
  else if type = 0x34 then
    let rec go : Nat → List Byte → List (Nat × Nat)
      | 0, _ => []
      | n + 1, l =>
        if l.length < 8 then []
        else
          let port := leAt l 0 1
          let cls := (List.range 8).filter (fun c => (leAt l 1 1).testBit c)
          let here := (cls.zipIdx.map (fun x => (List.range 4).map (fun t => (4 * (8 * port + x.1) + t, leAt l (8 + 32 * x.2 + 8 * t) 8)))).flatten
          here ++ go n (l.drop (8 + 32 * cls.length))
    go 64 b
  else []

/-- The differences of a list of values from one to the next, modulo 2^64; the first against an earlier value where there is one. -/
def deltas (prev : Option Nat) : List Nat → List Nat
  | [] => []
  | v :: r =>
    match prev with
    | some p => (v + 2 ^ 64 - p % 2 ^ 64) % 2 ^ 64 :: deltas (some v) r
    | none => deltas (some v) r

/-- One entry of a block summary: minimum, maximum, sum and binary64 sum of squares (R214). -/
def statEntry (order : List Nat) (signed : Bool) (item : Nat) (vals : List Nat) : List Byte :=
  let lt (a b : Nat) : Bool := if signed then decide (sgnN 64 a < sgnN 64 b) else decide (a < b)
  let num (v : Nat) : Nat := if signed then fOfInt b64 (sgnN 64 v) else fOfNat b64 v
  let mn := match vals with
    | [] => 0
    | v :: r => r.foldl (fun m x => if lt x m then x else m) v
  let mx := match vals with
    | [] => 0
    | v :: r => r.foldl (fun m x => if lt m x then x else m) v
  leBytes 2 item ++ zeros 6 ++ leBytes 8 mn ++ leBytes 8 mx ++ leBytes 8 (vals.foldl (· + ·) 0 % 2 ^ 64) ++
    leBytes 8 (sumBy order (vals.map (fun v => fMul b64 (num v) (num v))))

/-- The bucket of a value of which the exponent and the top two fraction bits are given (R214). -/
def sdBucket (e0 e : Int) (top : Nat) : Nat := if e < e0 then 0 else if e0 + 16 ≤ e then 63 else 4 * (e - e0).toNat + top

/-- The bucket of a duration in whole us. -/
def durBucket (e0 : Int) (v : Nat) : Nat := if v = 0 then 0 else let e := v.log2; sdBucket e0 e (v * 4 / 2 ^ e % 4)

/-- The bucket of a binary32 value that is not negative. -/
def f32Bucket (e0 : Int) (v : Nat) : Nat :=
  match decF b32 v with
  | .fin _ m e => if m = 0 then 0 else let l := m.log2; sdBucket e0 (e + l) (m * 4 / 2 ^ l % 4)
  | _ => 63

/-- The duration of a latch entry in us, rounded down: end stamp minus start stamp. -/
def latchDur (p : List Byte) : Nat :=
  let t (at_ : Nat) : Nat := leAt p at_ 8 / 256
  (t 16 + 2 ^ 56 - t 8) % 2 ^ 56 * 1000000 / 2 ^ 32

/-- One entry of a latch or tensor summary: 64 saturating counts (R214). -/
def bucketEntry (e0 : Int) (item : Nat) (bs : List Nat) : List Byte :=
  leBytes 2 item ++ zeros 2 ++ leBytes 2 (unsN 16 e0) ++ zeros 2 ++
    ((List.range 64).map (fun k => leBytes 4 (min (bs.filter (· == k)).length (2 ^ 32 - 1)))).flatten

/-- The value of an item in the span closed before, by source, stream, type, block and item. -/
def State.sdLast (s : State) (x : Span) (item : Nat) : Option Nat :=
  (s.convoy.sdPrev.find? (fun k => k.1 == x.source && k.2.1 == x.stream && k.2.2.1 == x.type && k.2.2.2.1 == x.block && k.2.2.2.2.1 == item)).map
    (fun k => k.2.2.2.2.2)

/-- Sensor values of KIND 1 are signed; held as 64-bit two's complement (R214). The kind of another unit's sensor, which its block does not
tell, is a free value. -/
def State.snsSigned (s : State) (x : Span) (item : Nat) : Bool :=
  if x.source == s.srcId then s.snsKind item == 1 else Config.farSigned x.source item

/-- The entries of a span's summary, and the last value of each item. -/
def State.spanEntries (s : State) (order : List Nat) (x : Span) : List Byte × List (Nat × Nat) :=
  if 0x31 ≤ x.type ∧ x.type ≤ 0x34 then
    let items := ((x.recs.map (fun r => blockItems x.type r.payload)).flatten).foldl (fun (l : List ItemVals) p => itemAdd p.1 p.2 l) []
    let out := items.map (fun it =>
      if x.type = 0x32 then
        let sg := s.snsSigned x it.1
        statEntry order sg it.1 (it.2.map (fun v => if sg then unsN 64 (sgnN 16 v) else v))
      else statEntry order false it.1 (deltas (s.sdLast x it.1) it.2))
    (out.flatten, if x.type = 0x32 then [] else items.map (fun it => (it.1, it.2.getLastD 0)))
  else
    let pairs := x.recs.map (fun r => if x.type = 0x38 then (leAt r.payload 0 1, durBucket x.e0 (latchDur r.payload))
      else (leAt r.payload 2 1 % 8, f32Bucket x.e0 (leAt r.payload 36 4)))
    let items := pairs.foldl (fun (l : List ItemVals) p => itemAdd p.1 p.2 l) []
    ((items.map (fun it => bucketEntry x.e0 it.1 it.2)).flatten, [])

/-- Close a span: its records become one summary of type 0x3E on the same stream (R213, R214). -/
def State.closeSpan (s : State) (x : Span) : State :=
  let (order, s) := s.drawOrder x.recs.length
  let (entries, last) := s.spanEntries order x
  let kept := s.convoy.sdPrev.filter (fun k => !(k.1 == x.source && k.2.1 == x.stream && k.2.2.1 == x.type && k.2.2.2.1 == x.block))
  let s := { s with convoy := { s.convoy with sdPrev := kept ++ last.map (fun (p : Nat × Nat) => (x.source, x.stream, x.type, x.block, p.1, p.2)) } }
  let payload := bytes [x.type] ++ zeros 3 ++ leBytes 4 x.first ++ leBytes 4 x.last ++ leBytes 4 x.recs.length ++ entries
  let (r, s) := s.originate 0x3E 5 x.stream payload
  s.emitUp r none

/-- Every open span closes. -/
def State.closeSpans (s : State) : State :=
  let l := s.convoy.spans
  l.foldl (fun s x => s.closeSpan x) { s with convoy := { s.convoy with spans := [], sdMusters := 0 } }

/-- A muster has passed in summarise-down: after SD_SPAN of them the spans close (R213). -/
def State.sdMuster (s : State) : State :=
  if !s.convoy.sdActive then s
  else
    let span := max 1 (fld (s.rd R.CVY_SD_CFG2) 7 0)
    if span ≤ s.convoy.sdMusters + 1 then s.closeSpans else { s with convoy := { s.convoy with sdMusters := s.convoy.sdMusters + 1 } }

/-- Enter or leave summarise-down (R212). -/
def State.sdSet (s : State) (on : Bool) : State :=
  let lv := if on then min 7 (fld (s.rd R.CVY_SD_CFG2) 10 8) else 0
  let s := if on then s else s.closeSpans
  let s := { s with convoy := { s.convoy with sdActive := on, sdQuiet := 0, sdRaised := lv, sdMusters := 0, sdPrev := [] } }
  let s := if on then s.wr R.CVY_SD_STATUS (s.rd R.CVY_SD_STATUS + 65536) else s
  (s.irq 0x02A 6).event 0x404 (bytes [b2n on, lv])

/-- SD_WINDOW in µs, 0 read as 1. -/
def State.sdWindow (s : State) : Nat := max 1 (fld (s.rd R.CVY_SD_CFG) 27 16)

/-- The share of the window without TC5 credit upwards, in per cent, rounded down; on a Selvo-T, whose way up is Ethernet and has no credits, the share in
which that way took no full packet, as its port tells it (R212). -/
def State.sdShare (s : State) (ethShare : Nat) : Nat :=
  if s.build = .t then ethShare else 100 * s.convoy.sdNone / (s.time.cycles - s.convoy.sdAt)

/-- What a window's share does: with SD_EN cleared the unit leaves the mode at the end of the window (R212; DESIGN CHOICE, log entry 73). -/
def State.sdJudge (s : State) (share : Nat) : State :=
  let cfg := s.rd R.CVY_SD_CFG
  let en := bitOf (s.rd R.CVY_CTRL) 1
  if !s.convoy.sdActive then (if en && decide (fld cfg 7 0 ≤ share) then s.sdSet true else s)
  else if !en then s.sdSet false
  else if share < fld cfg 15 8 then
    (if s.convoy.sdQuiet + 1 = 4 then s.sdSet false else { s with convoy := { s.convoy with sdQuiet := s.convoy.sdQuiet + 1 } })
  else { s with convoy := { s.convoy with sdQuiet := 0 } }

/-- SUMMARISE_DOWN_WINDOW (R212): SD_WINDOW has passed on the local clock; the next window begins. -/
def execSummariseDownWindow (ethShare : Nat) (s : State) : Host.Outcome State Fault Refusal :=
  .next (if s.after s.convoy.sdAt s.sdWindow then
      let share := s.sdShare ethShare
      State.sdJudge { s with convoy := { s.convoy with sdAt := s.time.cycles, sdNone := 0 } } share
    else s)

end Sys2Proof.Machine
end

