-- ==== Sys2Proof/Machine/Muster.lean ====
section
/-! DEFINITION. The muster: its schedule, the cut at one unit, the image and its records, and holds (R158 to R172, R175). -/

namespace Sys2Proof.Machine

def State.modMuster (s : State) (f : MusterSt → MusterSt) : State := { s with muster := f s.muster }

/-- Cuts not taken (R160, R166, R171). -/
def State.mstMissed (s : State) (n : Nat) : State := if n = 0 then s else (s.bumpSat R.MST_MISSED n).irq 0x020 3

/-! ### Schedules (Table 5-5, R158 to R160) -/

/-- The payload of a schedule record. -/
def schedBytes (gen base start interval : Nat) (hold stop release : Bool) (action holdMax : Nat) : List Byte :=
  leBytes 4 gen ++ leBytes 4 base ++ leBytes 10 start ++ leBytes 4 interval ++ bytes [b2n hold + 2 * b2n stop + 4 * b2n release, 0] ++
  leBytes 10 action ++ leBytes 2 holdMax ++ zeros 4

/-- The schedule that a payload arms. -/
def parseSched (p : List Byte) : Sched :=
  { gen := leAt p 0 4, base := leAt p 4 4, start := leAt p 8 10, interval := leAt p 18 4, hold := bitOf (leAt p 22 1) 0, holdMax := leAt p 34 2,
    k := 0, first := 0, stopped := false, released := false }

/-- How many cuts of a schedule lie at or before a time, none after a pending STOP. -/
def State.cutsBy (s : State) (c : Sched) (t : Nat) : Nat :=
  c.cutsBefore (match s.stopTime c.gen with
    | some x => min (t + 1) (x + 1)
    | none => t + 1)

/-- A unit takes first the lowest k whose T_k lies at least 20 us ahead, and counts the earlier cuts as missed (R160). ONE_SHOT_DONE clears
then: the spec gives no moment (DESIGN CHOICE, log entry 61). -/
def State.joinSched (s : State) (c : Sched) : State :=
  let k := if c.start < s.now + usTime 20 then c.cutsBefore (s.now + usTime 20) else 0
  let c := { c with k := k, first := k }
  (s.modMuster (fun m => { m with next := m.next ++ [c], oneShot := false })).mstMissed k

/-- The schedule registers show the schedule applied, but at the root, where they are the host's (R175). -/
def State.showSched (s : State) (c : Sched) : State :=
  if s.muster.root then s
  else
    let s := (s.wr R.MST_START_FRAC (c.start % 2 ^ 32)).wr R.MST_START_SEC_LO (c.start / 2 ^ 32)
    ((s.wr R.MST_START_SEC_HI (c.start / 2 ^ 64 % 65536)).wr R.MST_INTERVAL c.interval).wr R.MST_SCHED_FLAGS (b2n c.hold + c.holdMax * 65536)

/-- A record of a later generation is applied (R158, R159). -/
def State.applySched (s : State) (p : List Byte) : State :=
  let fl := leAt p 22 1
  let s := s.modMuster (fun m => { m with gen := leAt p 0 4, newRec := some p })
  if bitOf fl 1 || bitOf fl 2 then s.modMuster (fun m => { m with action := m.action ++ [(bitOf fl 1, bitOf fl 2, leAt p 24 10, leAt p 0 4)] })
  else
    let c := parseSched p
    ((s.modMuster (fun m => { m with armRec := some p })).showSched c).joinSched c

/-- The tree neighbours and the leaves that a schedule record goes to, but not the one it came from (R158). -/
def State.schedPorts (s : State) (came : Option Nat) : List Nat :=
  let l := s.treePorts (s.rd R.CVY_RECON_STREAM) ++ (if s.build = .h then (List.range 24).map (fun i => 40 + i) else [])
  (l.foldl (fun (a : List Nat) p => if a.contains p then a else a ++ [p]) []).filter (fun p => some p != came && (s.port p).usable)

/-- A Selvo-H sends a link-local copy on one lane to each Selvo-T (R158). -/
def State.schedToTray (s : State) (p : List Byte) : State :=
  if s.build = .h then
    let r := s.localRec 0x24 2 (leAt p 0 4) p
    ((s.laneOf 36 0).toList ++ (s.laneOf 38 0).toList).foldl (fun (s : State) l => s.sendLocal l r) s
  else s

/-- A schedule record that was admitted (R158, R160). A unit whose first copy of a generation is the link-local one passes it on over the tree
under a manifest of its own. -/
def State.schedTake (s : State) (port : Nat) (r : Rec) : State :=
  if !(s.srcId != 0x7FFFFF && laterThan (leAt r.payload 0 4) s.muster.gen) || recPoison r then s.consume r (fun s => s)
  else
    let s := s.applySched r.payload
    let s := s.schedToTray r.payload
    let ports := s.schedPorts (some port)
    if ports.isEmpty then s.consume r (fun s => s)
    else if linkLocal r.type r.stream then
      let (x, s) := (s.consume r (fun s => s)).originateRaw 0x24 2 (fld (s.rd R.CVY_RECON_STREAM) 15 0) r.payload
      s.sendMany ports x
    else s.sendMany ports (recHop r)

/-- SCHEDULE_RECORD_RECEIVED (R158, R160). -/
def State.schedIn (s : State) (port : Nat) (r : Rec) : State :=
  let (ok, s) := s.admitRec port r
  if ok then s.schedTake port r else s

def execScheduleRecordReceived (port : Nat) (rec : Rec) (s : State) : Host.Outcome State Fault Refusal :=
  present (decide (port < linkPorts s.build)) (if rec.type = 0x24 then s.schedIn port rec else s)

/-! ### The root's writes (R158, R159) -/

/-- The root sends a schedule record of the next generation, and applies it. The stream is a convoy's, which carries no anchor (R178; log entry
80). -/
def State.rootSend (s : State) (p : List Byte) : State :=
  let s := s.applySched p
  let (r, s) := s.originateRaw 0x24 2 (fld (s.rd R.CVY_RECON_STREAM) 15 0) p
  (s.sendMany (s.schedPorts none) r).schedToTray p

/-- The newest schedule whose START lies before a time. -/
def State.schedBefore (s : State) (t : Nat) : Option Sched :=
  ((s.muster.cur.toList ++ s.muster.next).filter (fun c => !c.stopped && decide (c.start < t))).getLast?

/-- One more than the number of the last cut before a START (R159). -/
def State.nextBase (s : State) (start : Nat) : Nat :=
  match s.schedBefore start with
  | some c => w32 (c.base + s.cutsBy c (start - 1))
  | none => if s.muster.anyCut then w32 (s.muster.lastNum + 1) else 0

/-- START as the root's registers hold it. -/
def State.startReg (s : State) : Nat :=
  s.rd R.MST_START_FRAC + s.rd R.MST_START_SEC_LO * 2 ^ 32 + fld (s.rd R.MST_START_SEC_HI) 15 0 * 2 ^ 64

/-- The arm is refused with START less than 1 ms ahead (R159). ARM_REFUSED clears at the next arm that is accepted: the spec gives no moment
(DESIGN CHOICE, log entry 61). -/
def State.mstArm (s : State) : State :=
  let start := s.startReg
  if start < s.now + usTime 1000 then (s.wr R.MST_STATUS (s.rd R.MST_STATUS ||| 16)).irq 0x020 4
  else
    let s := s.wr R.MST_STATUS (setBitTo (s.rd R.MST_STATUS) 4 false)
    let fl := s.rd R.MST_SCHED_FLAGS
    s.rootSend (schedBytes (w32 (s.muster.gen + 1)) (s.nextBase start) start (s.rd R.MST_INTERVAL) (bitOf fl 0) false false 0 (fld fl 31 16))

/-- STOP and RELEASE repeat the schedule in force, and act 1 ms after the write (R159). -/
def State.mstAct (s : State) (stop : Bool) : State :=
  let at_ := s.now + usTime 1000
  let c := (s.schedBefore (at_ + 1)).getD (parseSched [])
  s.rootSend (schedBytes (w32 (s.muster.gen + 1)) c.base c.start c.interval c.hold stop (!stop) at_ c.holdMax)

/-- A write of MST_ARM with more than one bit set, at the root. -/
def State.mstArmBad (s : State) (v : Nat) : Bool := s.muster.root && decide (1 < b2n (bitOf v 0) + b2n (bitOf v 1) + b2n (bitOf v 2))

/-- What a write of MST_ARM does: at a unit that is not the root, nothing (R175). -/
def State.mstArmWrite (s : State) (v : Nat) : State :=
  if !s.muster.root then s
  else if bitOf v 0 then s.mstArm
  else if bitOf v 1 then s.mstAct true
  else if bitOf v 2 then s.mstAct false
  else s

/-- MST_ARM (R158, R159, R175). -/
def execMstArm (a : Acc) (data : Word) (s : State) : Host.Outcome State Fault Refusal :=
  .next (s.guardedWrite a 0x02009C data.toNat false (s.mstArmBad data.toNat) (fun s => s.mstArmWrite data.toNat))

/-- MST_STOP (R159): a write of MST_ARM. -/
def execMstStop (a : Acc) (data : Word) (s : State) : Host.Outcome State Fault Refusal :=
  .next (s.guardedWrite a 0x02009C data.toNat false (s.mstArmBad data.toNat) (fun s => s.mstArmWrite data.toNat))

/-- MST_RELEASE (R159, R172): a write of MST_ARM. -/
def execMstRelease (a : Acc) (data : Word) (s : State) : Host.Outcome State Fault Refusal :=
  .next (s.guardedWrite a 0x02009C data.toNat false (s.mstArmBad data.toNat) (fun s => s.mstArmWrite data.toNat))

/-! ### Holds (R171, R172, R363) -/

/-- What the held cut does: commands and tensors close with HELD, trace writes its HELD packet (R171). -/
def State.holdEnter (s : State) (c : Sched) (t : Nat) : State :=
  let s := s.samp.cmds.foldl (fun (s : State) o => s.cmdClose o.stream 16) s
  let s := s.samp.tensors.foldl (fun (s : State) p => s.tensorClose p.1 64) s
  let s := s.trcHold s.stamp
  let ms := if c.holdMax = 0 then 1000 else c.holdMax
  (s.modMuster (fun m => { m with held := true, heldAt := t, heldUntil := c.start + usTime (1000 * ms) })).irq 0x020 1

/-- The hold ends; the next head carries the held interval (R172), and convoy packets that waited are taken (R179). -/
def State.holdLeave (s : State) : State :=
  if !s.muster.held then s
  else
    let us := (s.now - s.muster.heldAt) * 1000000 / 4294967296
    ((s.modMuster (fun m => { m with held := false, heldGap := some (min us (2 ^ 32 - 1)) })).irq 0x020 2).trcRelease.holdBackGo

/-- HOLD_MAX_EXPIRY (R172). -/
def execHoldMaxExpiry (s : State) : Host.Outcome State Fault Refusal :=
  .next (if s.muster.held && decide (s.muster.heldUntil ≤ s.now) then s.holdLeave else s)

/-! ### A new generation takes over (R159) -/

/-- The newest generation whose START is not after a time takes over; cuts of the old one left before that START were passed over. -/
def State.takeOver (s : State) (t : Nat) : State :=
  match (s.muster.next.filter (fun c => decide (c.start ≤ t))).getLast? with
  | none => s
  | some c =>
    let skipped := match s.muster.cur with
      | some o => if o.stopped then 0 else s.cutsBy o (c.start - 1) - o.k
      | none => 0
    (s.modMuster (fun m => { m with cur := some c, next := m.next.filter (fun x => decide (t < x.start) && laterThan x.gen c.gen) })).mstMissed skipped

/-- SCHEDULE_ACTION_TIME (R159, R172): STOPs and RELEASEs whose action time has come act on the schedule in force; a STOP also ends one
armed before it that has not started, since no cut is taken after it until a new arm. -/
def State.schedAct (s : State) : State :=
  let due := s.muster.action.filter (fun a => decide (a.2.2.1 ≤ s.now))
  due.foldl (fun (s : State) a =>
    let s := s.takeOver a.2.2.1
    let old (c : Sched) : Bool := laterThan a.2.2.2 c.gen
    let s := s.modMuster (fun m => { m with action := m.action.filter (fun x => x != a),
                                            cur := m.cur.map (fun c => if old c then { c with stopped := c.stopped || a.1, released := c.released || a.2.1 } else c),
                                            next := if a.1 then m.next.filter (fun c => !old c) else m.next })
    if a.2.1 then s.holdLeave else s) s

def execScheduleActionTime (s : State) : Host.Outcome State Fault Refusal := .next s.schedAct.publishDone

/-! ### The cut (R161 to R168) -/

/-- MUSTER_LEAD (R161): LEAD us before T_k the time island raises its keep-awake vote on CORE. -/
def execMusterLead (s : State) : Host.Outcome State Fault Refusal :=
  .next
    (match s.nextCut with
     | some t =>
       let lead := fld (s.rd R.MST_CTRL) 15 8
       if t.1 ≤ s.now + usTime (if lead = 0 then 4 else lead) && !s.muster.leadRaised && !s.core.qscReq.contains 18 then
         (s.modMuster (fun m => { m with leadRaised := true })).hwVote 1 161 true
       else s
     | none => s)

/-- The vote of the cut falls when its image is held. -/
def State.dropLead (s : State) : State :=
  if s.muster.leadRaised then (s.modMuster (fun m => { m with leadRaised := false })).hwVote 1 161 false else s

/-- Whether an island has come back from its reset (R168). -/
def State.islandBack (s : State) (i : Nat) : Bool :=
  if i = 8 then !s.core.warm else !s.core.inReset.contains i

/-- Tap islands held in reset now. -/
def State.tapsInReset (s : State) : List Nat := s.core.inReset.filter (fun i => decide (i < 8))

/-- Items of a FIFO that wait at the moment: command boundaries, trace items, tensor beats and checksum beats, by the bit of their port. -/
def State.itemsOf (s : State) (bit : Nat) : Nat :=
  (s.core.tapItems.filter (fun x => x.bit == bit)).length + (if bit = 7 then s.trace.fifo.length else 0)

/-- Sensors as a cut sees them (R144). -/
def Sensor.atCut (x : Sensor) : Sensor :=
  if x.noReading then { x with value := 0, minV := 0, maxV := 0 }
  else if x.ranged then x
  else { x with minV := x.value, maxV := x.value }

/-- The totals of every link port that has trained since power-on (R164, R169). -/
def State.linkTotals (s : State) : List (Nat × Nat × List (List Nat)) :=
  ((s.link.ports.zipIdx).filter (fun p => p.1.everTrained)).map (fun p =>
    (p.2, p.1.trainCount, p.1.cls.map (fun x => [x.txSent, x.txAcked, x.rxRecv, x.rxAcked])))

/-- The first two conditions of R304 at a cut. -/
def State.thermCause (s : State) : Bool :=
  let w := s.rd R.OUT_THERM_CFG
  let n := fld w 27 16
  bitOf w 5 && (s.samp.opened.contains (fld w 4 0) || s.cmdOpen (fld w 4 0)) && assocD 0 n s.muster.prevCtrs != s.ctr n

/-- The core takes the rest of the image, and what takes effect at a cut takes effect (R142, R161, R167, R179, R181, R211, R289). -/
def State.coreCut (s : State) (img : Image) (ctrs : List (Nat × Nat)) : State :=
  let tallies := s.tally.rows.map (fun t => (t, s.pendingOf t.stream))
  let img : Image := { img with ctrGen := s.samp.gen, en := s.enabledCtrs, ctrs := ctrs, sensors := s.samp.sensors.map Sensor.atCut, tallies := tallies,
                                summ := s.samp.summ, emerg := s.drover.emerg, therm := s.thermCause }
  let s := s.modMuster (fun m => { m with image := some img, prevCtrs := ctrs })
  let s : State := { s with tally := { s.tally with latched := tallies } }
  let s := s.applyCfg
  let s := s.planAtCut img.num
  let s := (s.takeRules).treeCut img.num
  let s : State := { s with link := { s.link with ports := s.link.ports.map (fun (q : Port) =>
    if q.joining && decide (q.joinAt ≤ img.t) then 
      { q with joining := false, missing := false, quar := q.quar && !q.released, dupId := q.dupId && !q.released, released := false } else q) } }
  let back (x : Nat × Bool) : Bool := x.2 && (match s.entryFor x.1 img.num with
    | some e => e.takes img.num
    | none => true)
  let s : State := { s with convoy := { s.convoy with onAlt := s.convoy.onAlt.filter (fun x => !back x) } }
  let s := (s.openAtCut img.num).sdMuster
  { s with samp := { s.samp with
    opened := s.samp.cmds.map (fun (o : OpenCmd) => o.stream),
    sensors := s.samp.sensors.map (fun (x : Sensor) => { x with sinceCut := 0, ranged := false, goodSinceCut := false, faultSeen := false }) } }

/-- Markers for the islands that came back from a reset that was not quiesced (R49, R93, R168): the islands told. -/
def State.cutMarkers (s : State) (at_ : Nat) : List Nat × State :=
  let back := s.core.discIslands.filter (fun i => s.islandBack i.1)
  let s := back.foldl (fun (s : State) i => s.marker i.1 i.2 at_) s
  (back.map (fun i => i.1), { s with core := { s.core with discIslands := s.core.discIslands.filter (fun i => !back.contains i) } })

/-- The cut of muster number num at time t (R161, R166 to R168). -/
def State.cutNow (s : State) (c : Sched) (k : Nat) (stepped : Bool) : State :=
  let t := c.tk k
  let num := w32 (c.base + k)
  let code := s.qcode
  let ms := if c.holdMax = 0 then 1000 else c.holdMax
  let hold := c.hold && k == c.first && !c.released && (k == 0 || decide (t < c.start + usTime (1000 * ms)))
  let coreSt := match s.dom 1 with
    | some d => d.st
    | none => 0
  let off := coreSt == 3
  let late := !off && !s.inRun 1
  let (back, s) := s.cutMarkers (stampOf t code)
  let s := if hold then s.holdEnter c t else s
  let light := s.samp.ctrs.filter (fun p => decide (p.1 < 64))
  let img : Image := { num := num, gen := c.gen, t := t, code := code, hold := hold, stepped := stepped, late := late, coreOff := off,
                       discIslands := back, badCtrs := s.samp.badCtrs, badSns := s.samp.badSns, lateIslands := s.tapsInReset, heldGap := s.muster.heldGap, ctrGen := s.samp.gen, en := List.range 64,
                       ctrs := light, sensors := [], tallies := [], links := s.linkTotals, cb := s.itemsOf 4, tr := s.itemsOf 7, tw := s.itemsOf 6,
                       ck := s.itemsOf 5, summ := [], stamp := 0,
                       truncPrev := false, emerg := s.drover.emerg, therm := false, complete := false }
  let s := s.modMuster (fun m => { m with image := some img, older := if m.image.any (fun i => i.complete) then m.image else m.older, heldGap := none, lateLatch := late, lastNum := num, lastT := t, lastCode := code, anyCut := true,
                                          lastStamp := stampOf t code, oneShot := m.oneShot || c.interval == 0 })
  let s : State := { s with samp := { s.samp with badCtrs := [], badSns := [] } }
  let s := if off || late then s else s.coreCut img s.samp.ctrs
  s.irq 0x020 0

/-- The index the schedule in force goes on with. -/
def State.setK (s : State) (k : Nat) : State := s.modMuster (fun m => { m with cur := m.cur.map (fun c => { c with k := k }) })

/-- Cuts of the schedule in force due by a time: after a forward step only the latest is taken; during a hold, and by a unit without an
identity, none (R24, R166, R171). -/
def State.takeCuts (s : State) (upto : Nat) (stepped : Bool) : State :=
  match s.muster.cur with
  | none => s
  | some c =>
    let due := if c.stopped then 0 else s.cutsBy c upto - c.k
    if due = 0 then s
    else
      let n := if stepped then due else 1
      let s := s.setK (c.k + n)
      if s.muster.held || s.srcId == 0x7FFFFF then (s.mstMissed n).dropLead
      else (s.mstMissed (n - 1)).cutNow c (c.k + n - 1) stepped

/-- What MUSTER_CUT does (R161 to R168): cuts of the old generation before the START of a new one are taken first (R159); after a step the latest cut
passed is taken, be it the old generation's (R166). While the time island is quiesced it launches no cut notification (R89). -/
def State.musterCut (s : State) : State :=
  if s.core.qscReq.contains 18 then s
  else
    let stepped := s.muster.stepped
    let s := s.modMuster (fun m => { m with stepped := false })
    let new := (s.muster.next.filter (fun c => decide (c.start ≤ s.now))).getLast?
    let upto := match new with
      | some c => c.start - 1
      | none => s.now
    let newDue := match new with
      | some c => decide (c.k < s.cutsBy c s.now)
      | none => false
    let oldFirst := !(stepped && newDue) && (match s.muster.cur with
      | some c => !c.stopped && decide (c.k < s.cutsBy c upto)
      | none => false)
    if oldFirst then s.takeCuts upto stepped else (s.takeOver s.now).takeCuts s.now stepped

/-- MUSTER_CUT (R161 to R168); an epoch whose cut has been passed over no longer awaits it (R197). -/
def execMusterCut (s : State) : Host.Outcome State Fault Refusal := .next s.musterCut.publishDone

/-- MUSTER_LATE_LATCH (R167, R169): CORE has reached Run, and takes the rest of the image; the head's stamp is that of this moment. -/
def execMusterLateLatch (s : State) : Host.Outcome State Fault Refusal :=
  .next
    (match s.muster.image with
     | some img =>
       if s.muster.lateLatch && s.inRun 1 then
         (s.modMuster (fun m => { m with lateLatch := false })).coreCut { img with stamp := s.stamp } (img.ctrs ++ s.samp.ctrs.filter (fun p => decide (64 ≤ p.1)))
       else s
     | none => s)

/-- MUSTER_LATE_ISLAND_TIMEOUT (R163): island n has not delivered its pre-cut sums 200 ns after T_k. -/
def execMusterLateIslandTimeout (n : Nat) (s : State) : Host.Outcome State Fault Refusal :=
  present (hasTaps s.build && s.tapPresent n)
    (match s.muster.image with
     | some img =>
       if !img.complete && decide (img.t + nsTime 200 ≤ s.now) && !img.lateIslands.contains n then
         s.modMuster (fun m => { m with image := some { img with lateIslands := img.lateIslands ++ [n] } })
       else s
     | none => s)

/-! ### Muster records (R169, R170, Tables 5-7 and 5-8) -/

/-- Runs of consecutive numbers, each at most 1,024 long, of an ascending list. -/
def runsOf (l : List Nat) : List (List Nat) :=
  (l.foldl (fun (acc : List (List Nat)) n =>
    match acc with
    | (x :: xs) :: rest => if x + 1 = n ∧ xs.length < 1023 then (n :: x :: xs) :: rest else [n] :: (x :: xs) :: rest
    | rest => [n] :: rest) []).reverse.map List.reverse

/-- Cut a list into pieces of at most n. -/
def chunksOf {α : Type} (n : Nat) (l : List α) : List (List α) :=
  (List.range ((l.length + n - 1) / n)).map (fun i => (l.drop (n * i)).take n)

/-- The counter blocks. -/
def Image.ctrBlocks (m : Image) : List (Nat × List Byte) :=
  (runsOf m.en).map (fun l => (0x31, leBytes 4 m.num ++ leBytes 2 (l.headD 0) ++ leBytes 2 l.length ++ (l.map (fun n => leBytes 8 (assocD 0 n m.ctrs))).flatten))

/-- One sensor of a sensor block. -/
def Sensor.blockBytes (x : Sensor) : List Byte :=
  leBytes 2 x.value ++ leBytes 2 x.minV ++ leBytes 2 x.maxV ++
  bytes [min 255 x.sinceCut, b2n x.stale + 2 * b2n x.faultSeen + 4 * b2n x.noReading + 8 * b2n (!x.goodSinceCut)]

/-- The sensor block. -/
def Image.snsBlock (m : Image) : Nat × List Byte :=
  let l := m.sensors.zipIdx.filter (fun p => !p.1.noReading)
  (0x32, leBytes 4 m.num ++ leBytes 2 (l.foldl (fun a p => a + 2 ^ p.2) 0) ++ zeros 2 ++ (l.map (fun p => p.1.blockBytes)).flatten)

/-- One stream of a tally block. -/
def tallyBytes (p : Tally × Nat) : List Byte :=
  leBytes 2 p.1.stream ++ zeros 6 ++ ([p.1.produced, p.1.delivered, p.1.merged, p.2, p.1.dup] ++ p.1.dropped).flatMap (leBytes 8)

/-- The tally blocks: at most 256 streams each. -/
def Image.tallyBlocks (m : Image) : List (Nat × List Byte) :=
  (chunksOf 256 m.tallies).map (fun l => (0x33, leBytes 4 m.num ++ l.flatMap tallyBytes))

/-- The link blocks: at most 64 ports each. -/
def Image.linkBlocks (m : Image) : List (Nat × List Byte) :=
  (chunksOf 64 m.links).map (fun l => (0x34, leBytes 4 m.num ++ l.flatMap (fun p =>
    bytes [p.1, 0xFF] ++ leBytes 2 p.2.1 ++ zeros 4 ++ p.2.2.flatMap (fun c => c.flatMap (leBytes 8)))))

/-- The blocks that MST_CTRL enables, in order. -/
def Image.blocks (m : Image) (ctrl : Nat) : List (Nat × List Byte) :=
  (if bitOf ctrl 1 then m.ctrBlocks else []) ++
  (if m.coreOff then [] else
    (if bitOf ctrl 2 then [m.snsBlock] else []) ++ (if bitOf ctrl 3 then m.tallyBlocks else []) ++ (if bitOf ctrl 4 then m.linkBlocks else []))

/-- The muster head (Table 5-7). -/
def Image.headBytes (m : Image) (blocks : Nat) : List Byte :=
  let bitmap (l : List Nat) : Nat := (l.filter (· < 8)).foldl (fun a i => a ||| 2 ^ i) 0
  leBytes 4 m.num ++ leBytes 4 m.gen ++ leBytes 10 m.t ++
  bytes [m.code % 8 + 8 * b2n m.hold + 16 * b2n m.stepped + 32 * b2n m.late + 64 * b2n m.disc + 128 * b2n m.coreOff,
         b2n m.truncPrev + 2 * b2n m.heldGap.isSome] ++
  leBytes 2 m.ctrGen ++ leBytes 2 blocks ++ leBytes 2 m.cb ++ leBytes 2 m.tr ++ leBytes 2 m.tw ++ leBytes 2 m.ck ++
  bytes [bitmap m.lateIslands, bitmap m.discIslands, b2n (m.discIslands.contains 8), 0] ++ leBytes 4 (m.heldGap.getD 0)

/-- The records of an image, head first, before they are numbered. -/
def Image.recs (m : Image) (ctrl : Nat) : List (Nat × List Byte) :=
  if bitOf ctrl 0 then
    let bs := m.blocks ctrl
    (0x30, m.headBytes bs.length) :: bs
  else []

/-- MUSTER_IMAGE_COMPLETE (R161, R169, R170): the core holds the image; the numbers are items pre-cut and not yet processed beside those
that wait in the senders. -/
def State.imageComplete (s : State) (cb tr tw ck : Nat) : State :=
  match s.muster.image with
  | none => s
  | some img =>
    if img.complete || s.muster.lateLatch then s
    else
      match s.grant 1 (s.costImage img.en.length) with
      | none => s
      | some s =>
        let cutShort := !s.muster.emit.isEmpty
        let s := if cutShort then (s.bumpSat R.MST_TRUNCATED).irq 0x020 5 else s
        let img : Image := { img with cb := min 65535 (cb + min img.cb (s.itemsOf 4)), tr := min 65535 (tr + min img.tr (s.itemsOf 7)),
                                      tw := min 65535 (tw + min img.tw (s.itemsOf 6)), ck := min 65535 (ck + min img.ck (s.itemsOf 5)),
                                      stamp := if img.late then img.stamp else s.stamp, truncPrev := cutShort, complete := true }
        let emit := (img.recs (s.rd R.MST_CTRL)).map (fun p =>
          ({ length := p.2.length, flags := 0, tc := 5, type := p.1, hops := 0, source := 0, level := 0, rsv := 0, stream := 0, seq := 0, stamp := img.stamp,
             payload := p.2 } : Rec))
        let ns := (s.now - img.t) * 1000000000 / 4294967296
        let s := s.wr R.MST_MAX_LATCH (max (s.rd R.MST_MAX_LATCH) (min ns (2 ^ 32 - 1)))
        let s := (s.modMuster (fun m => { m with image := some img, emit := emit })).dropLead
        if img.coreOff then s else (s.featImage img.num img.heldGap.isSome).publishDone

def execMusterImageComplete (cb tr tw ck : Nat) (s : State) : Host.Outcome State Fault Refusal := .next (s.imageComplete cb tr tw ck)

/-- MUSTER_RECORD_EMIT (R169, R170): the queue has room for the next record of the image. -/
def State.recordEmit (s : State) : State :=
  match s.muster.emit with
  | [] => s
  | e :: rest =>
    let s := s.modMuster (fun m => { m with emit := rest })
    let (r, s) := s.originate e.type 5 (fld (s.rd R.MST_STREAM) 15 0) e.payload
    s.emitSample (if e.type = 0x30 then { r with stamp := e.stamp } else r)

def execMusterRecordEmit (s : State) : Host.Outcome State Fault Refusal := .next s.recordEmit

/-! ### The MUSTER page (Table 5-11) -/

/-- The number of the next cut; 0 while none is to come. -/
def State.nextNum (s : State) : Nat :=
  match s.nextCut with
  | none => 0
  | some t => t.2

/-- Live reads of the MUSTER page. -/
def State.musterLive (s : State) (off : Nat) : Option Nat :=
  let m := s.muster
  if off = 0x0A0 then some m.gen
  else if off = 0x0A4 then some s.nextNum
  else if off = 0x0A8 then some m.lastNum
  else if off = 0x0AC then some (m.lastT % 2 ^ 32)
  else if off = 0x0B0 then some (m.lastT / 2 ^ 32 % 2 ^ 32)
  else if off = 0x0B4 then some (m.lastT / 2 ^ 64 % 65536 + m.lastCode * 65536)
  else if off = 0x0B8 then
    some (b2n m.root + 2 * b2n s.scheduleRuns + 4 * b2n m.held + 8 * b2n m.oneShot + 16 * b2n (bitOf (s.rd R.MST_STATUS) 4))
  else if off = 0x0C4 then some (if m.held then (m.heldUntil - s.now) * 1000 / 4294967296 else 0)
  else none

/-- A write of a schedule register is the root's (R175); INTERVAL 1 to 9 us is refused (R159). -/
def State.schedOwned (s : State) (off : Nat) : Bool := !s.muster.root && decide (0x088 ≤ off) && decide (off ≤ 0x09C)

end Sys2Proof.Machine
end

