-- ==== Sys2Proof/Machine/Hang.lean ====
section
/-! DEFINITION. Wait states, the hang watch, snapshots, package graphs and the tray merge (R379 to R386). -/

namespace Sys2Proof.Machine

def State.modHang (s : State) (f : HangSt → HangSt) : State := { s with hang := f s.hang }

/-! ### Wait states and the watch (R81, R379, R380) -/

/-- Engines waiting: kinds 1 to 3. -/
def State.waiting (s : State) : List WsEnt := s.hang.ws.filter (fun e => e.kind != 0)

/-- A wait state lands (R379): the latest of an engine stands. -/
def State.wsLand (s : State) (engine kind target : Nat) : State :=
  if 32 ≤ engine then s.bumpSat R.HANG_MALFORMED
  else
    let e : WsEnt := { die := s.srcId, engine := engine, kind := kind % 4, target := w32 target, stamp := s.stamp }
    let l := s.hang.ws.filter (fun x => x.engine != engine)
    let s := s.modHang (fun h => { h with ws := l.filter (fun x => decide (x.engine < engine)) ++ [e] ++ l.filter (fun x => decide (engine < x.engine)) })
    if e.kind = 2 ∧ reservedSource (e.target % 2 ^ 24) = true then s.bumpSat R.HANG_MALFORMED else s

/-- The progress counters and their values. -/
def State.progNow (s : State) : List (Nat × Nat) :=
  ((List.range 4).filter (fun i => bitOf (s.rd R.HANG_PROG i) 31)).map (fun i =>
    let n := fld (s.rd R.HANG_PROG i) 11 0
    (n, s.ctr n))

/-- The unit is hang-suspect and no progress counter has advanced since. -/
def State.suspectNow (s : State) : Bool := s.hang.suspect && s.hang.prog == s.progNow

/-- A Selvo-H sees a suspect of its package: it asks for an assembly, or joins the one that runs (R382). -/
def State.suspectSeen (s : State) (own : Bool) : State :=
  if s.build != .h then s
  else
    match s.hang.asm with
    | some a =>
      let s := s.modHang (fun h => { h with asm := some { a with suspect := true } })
      if own then s else s.bumpSat R.HANG_SUSPECTS
    | none => s.modHang (fun h => { h with pendSuspect := true })

/-- HANG_WATCH_CHECK (R380): once every 10 us. -/
def State.hangCheck (s : State) : State :=
  let now := s.progNow
  let t := fld (s.rd R.HANG_TIMEOUT) 23 0
  if !bitOf (s.rd R.HANG_CTRL) 0 || now.isEmpty || t == 0 then s.modHang (fun h => { h with prog := [], progAt := s.time.cycles, suspect := false })
  else if now != s.hang.prog then s.modHang (fun h => { h with prog := now, progAt := s.time.cycles, suspect := false })
  else if s.hang.suspect || s.waiting.isEmpty || !s.after s.hang.progAt t then s
  else
    let s := ((s.modHang (fun h => { h with suspect := true })).bumpSat R.HANG_SUSPECTS).irq 0x02F 0
    (s.event 0x601 (bytes [s.waiting.length, 0, 0, 0] ++ leBytes 4 t ++ zeros 4)).suspectSeen true

def execHangWatchCheck (s : State) : Host.Outcome State Fault Refusal := present (hasTaps s.build) s.hangCheck

/-! ### Snapshots (R381, Table 14-1) -/

/-- An entry of 16 bytes; the reserved bytes hold the waiter where `die` is given. -/
def WsEnt.bytes (e : WsEnt) (withDie : Bool) : List Byte :=
  leBytes 1 (e.engine % 32 + e.kind % 4 * 32) ++ leBytes 3 (if withDie then e.die else 0) ++ leBytes 4 e.target ++ leBytes 8 e.stamp

/-- The entries that follow a header. -/
def parseEnts (die : Option Nat) (l : List Byte) : List WsEnt :=
  (pieces 16 l).map (fun p => { die := die.getD (leAt p 1 3), engine := leAt p 0 1 % 32, kind := leAt p 0 1 / 32 % 4, target := leAt p 4 4, stamp := leAt p 8 8 })

/-- A snapshot request: number, T_s (log entry 41). -/
def snapReqBytes (num ts : Nat) : List Byte := leBytes 4 num ++ leBytes 10 ts ++ zeros 2

/-- The record of one latch. -/
def State.snapBytes (s : State) (x : Snap) : List Byte :=
  leBytes 3 s.srcId ++ bytes [b2n s.suspectNow + 2 * b2n x.second] ++ leBytes 4 x.num ++ leBytes 8 (stampOf x.ts x.code) ++
  (s.waiting.map (fun e => e.bytes false)).flatten

/-- T of a latch: T_s, and HANG_CONFIRM us later for the second. -/
def State.snapDue (s : State) (x : Snap) : Nat :=
  let c := fld (s.rd R.HANG_CONFIRM) 15 0
  if x.second then x.ts + usTime (if c = 0 then 500 else c) else x.ts

/-- A die's records of one snapshot enter the assembly. -/
def PkgAsm.take (a : PkgAsm) (die : Nat) (second : Bool) (ents : List WsEnt) : PkgAsm :=
  if second then (if a.second.contains die then a else { a with second := die :: a.second, ents2 := a.ents2 ++ ents })
  else if a.first.contains die then a
  else { a with first := die :: a.first, ents1 := a.ents1 ++ ents }

/-- SNAPSHOT_LATCH (R59, R381): at the first latch the code of T_s is kept. Selvo-L sends its record; a Selvo-H enters its own into the assembly. -/
def State.snapLatch (s : State) : State :=
  match s.hang.snap with
  | none => s
  | some x =>
    if s.now < s.snapDue x then s
    else
      let x := if x.second then x else { x with code := s.qcode }
      let s := if s.build = .h then
          s.modHang (fun h => { h with asm := h.asm.map (fun a =>
            let a := PkgAsm.take { a with code := x.code } s.srcId x.second s.waiting
            if x.second then { a with doneAt := some s.time.cycles } else a) })
        else
          (let (r, s) := s.originate 0x70 4 (fld (s.rd R.HANG_STREAM) 15 0) (s.snapBytes x)
           s.emitUp r none)
      s.modHang (fun h => { h with snap := if x.second then none else some { x with second := true } })

def execSnapshotLatch (s : State) : Host.Outcome State Fault Refusal := present (hasTaps s.build) s.snapLatch

/-- A request reaches a unit: a leaf latches, a Selvo-H assembles for its tray (R381, R384). -/
def State.snapTake (s : State) (r : Rec) : State :=
  s.consume r (fun s =>
    let num := leAt r.payload 0 4
    let ts := leAt r.payload 4 10
    match s.build with
    | .l => s.modHang (fun h => { h with snap := some { num := num, ts := ts, code := 4, second := false } })
    | .h => s.modHang (fun h => { h with pendTray := some (num, ts) })
    | .t => s)

def State.snapRequest (s : State) (port : Nat) (r : Rec) : State :=
  let (ok, s) := s.admitRec port r
  if ok then s.snapTake r else s

/-- SNAPSHOT_REQUEST_RECEIVED (R381). -/
def execSnapshotRequestReceived (port : Nat) (rec : Rec) (s : State) : Host.Outcome State Fault Refusal :=
  present (hasTaps s.build && decide (port < linkPorts s.build)) (if rec.type = 0x74 then s.snapRequest port rec else s)

/-! ### The package graph (R382, R383, Tables 14-2 and 14-3) -/

/-- PACKAGE_ASSEMBLY_START (R382): at a firmware tick, a request goes to the leaves and to the Selvo-H itself. -/
def State.asmStart (s : State) : State :=
  if s.fw.st != 1 || s.fw.blackout.isSome || s.hang.asm.isSome || s.drover.emerg == 2 || !(s.hang.pendSuspect || s.hang.pendTray.isSome) then s
  else
    let soon := s.now + usTime 20 + 1
    let num := match s.hang.pendTray with
      | some (n, _) => n
      | none => w32 (s.hang.snapNum + 1)
    let ts := match s.hang.pendTray with
      | some (_, t) => max t soon
      | none => soon
    let asked := (List.range 24).filter (fun i => (s.port (40 + i)).usable && !(s.port (40 + i)).quar)
    let a : PkgAsm := { num := num, ts := ts, code := 4, suspect := s.hang.pendSuspect, tray := s.hang.pendTray.isSome, asked := asked.map (· + 1), first := [],
                        second := [], ents1 := [], ents2 := [], doneAt := none }
    let s := s.modHang (fun h => { h with asm := some a, pendSuspect := false, pendTray := none, snap := some { num := num, ts := ts, code := 4, second := false },
                                          snapNum := if h.pendTray.isSome then h.snapNum else num })
    asked.foldl (fun (s : State) i => s.sendLocal (40 + i) (s.localRec 0x74 2 0 (snapReqBytes num ts))) s

def execPackageAssemblyStart (s : State) : Host.Outcome State Fault Refusal := present (s.build == .h) s.asmStart

/-- A leaf's 0x70 record ends at its Selvo-H. -/
def State.snapRecord (s : State) (r : Rec) : State :=
  s.consumeOpen r (fun r s =>
    let p := r.payload
    match s.hang.asm with
    | some a =>
      if a.num = leAt p 4 4 then
        s.modHang (fun h => { h with asm := some (a.take (leAt p 0 3) (bitOf (leAt p 3 1) 1) (parseEnts (some (leAt p 0 3)) (p.drop 16))) })
      else s
    | none => s)

/-- The edge of an entry leads to an engine of an admissible source, or to a semaphore. -/
def WsEnt.edge (e : WsEnt) : Bool := e.kind == 1 || e.kind == 3 || (e.kind == 2 && !reservedSource (e.target % 2 ^ 24))

/-- The same wait, with the same landing stamp. -/
def WsEnt.same (a b : WsEnt) : Bool := a.die == b.die && a.engine == b.engine && a.kind == b.kind && a.target == b.target && a.stamp == b.stamp

/-- Confirmed edges, and how many edges were seen once only; the edges of an absent die are omitted (R383). -/
def PkgAsm.edges (a : PkgAsm) : List WsEnt × Nat :=
  let there (e : WsEnt) : Bool := e.edge && a.first.contains e.die && a.second.contains e.die
  let e1 := a.ents1.filter there
  let e2 := a.ents2.filter there
  let ok := e1.filter (fun x => e2.any x.same)
  (ok, (e1.length - ok.length) + (e2.filter (fun x => !e1.any x.same)).length)

/-- The key of a waiter's node, and of the engine node it waits for (R379). -/
def WsEnt.node (e : WsEnt) : Nat := e.die * 32 + e.engine
def WsEnt.next (e : WsEnt) : Option Nat :=
  if e.kind = 1 then some (e.die * 32 + e.target % 32)
  else if e.kind = 2 then some (e.target % 2 ^ 24 * 32 + fld e.target 28 24)
  else none

/-- Follow the edges from a node for at most n steps until it comes back: the cycle. -/
def followTo (es : List WsEnt) (goal : Nat) : Nat → Nat → List Nat → Option (List Nat)
  | 0, _, _ => none
  | n + 1, at_, acc =>
    match (es.find? (fun e => e.node == at_)).bind WsEnt.next with
    | none => none
    | some t => if t = goal then some (acc.reverse) else followTo es goal n t (t :: acc)

/-- Every cycle, each once, from its lowest node key (R385). -/
def cyclesOfEdges (es : List WsEnt) : List (List Nat) :=
  es.filterMap (fun e =>
    match followTo es e.node es.length e.node [e.node] with
    | some c => if c.all (fun n => decide (e.node ≤ n)) then some c else none
    | none => none)

/-- A cycle record (type 0x72). -/
def State.cycleRec (s : State) (num : Nat) (truncated : Bool) (c : List Nat) : State :=
  let s := (s.bumpSat R.HANG_CYCLES).irq 0x02F 2
  let (r, s) := s.originate 0x72 4 (fld (s.rd R.HANG_STREAM) 15 0)
    (leBytes 4 num ++ bytes [b2n truncated, 0] ++ leBytes 2 c.length ++ (c.map (leBytes 4)).flatten)
  s.emitUp r none

/-- The dies of an assembly are all in, or 2 ms have passed since the second latch (Table 14-2). -/
def State.asmDue (s : State) (a : PkgAsm) : Bool :=
  match a.doneAt with
  | none => false
  | some t => s.after t 2000 || a.asked.all (fun i => a.first.contains (s.srcId / 32 * 32 + i) && a.second.contains (s.srcId / 32 * 32 + i))

/-- A package assembly under way is abandoned; its cause waits for the next tick (R483). -/
def State.asmAbandon (s : State) : State :=
  match s.hang.asm with
  | some a => s.modHang (fun h => { h with asm := none, snap := none, pendSuspect := h.pendSuspect || a.suspect,
                                           pendTray := if a.tray then some (a.num, a.ts) else h.pendTray })
  | none => s

/-- PACKAGE_GRAPH_SEND (R382, R383): the graph leaves upward; cycles wholly within the package are reported (log entry 41). -/
def State.graphSend (s : State) : State :=
  match s.hang.asm with
  | none => s
  | some a =>
    if !s.asmDue a then s
    else
      match s.grant 2 (s.costHang (a.ents1.length + a.ents2.length)) with
      | none => s
      | some s =>
        let (es, once) := a.edges
        let es := es.take 4000
        let cs := cyclesOfEdges es
        let num := w32 (s.rd R.HANG_GRAPH_NUM + 1)
        let absent := (List.range 25).foldl (fun m i =>
          let die := s.srcId / 32 * 32 + i
          if i = 0 ∨ (a.first.contains die ∧ a.second.contains die) then m else m + 2 ^ i) 0
        let body := leBytes 4 num ++ leBytes 4 a.num ++ leBytes 8 (stampOf a.ts a.code) ++ leBytes 4 absent ++ leBytes 2 es.length ++ leBytes 2 (min once 65535) ++
          bytes [b2n a.suspect + 2 * b2n (!cs.isEmpty) + 4 * b2n a.tray] ++ zeros 7 ++ (es.map (fun e => e.bytes true)).flatten
        let s := (s.modHang (fun h => { h with asm := none })).wr R.HANG_GRAPH_NUM num
        let (r, s) := s.originate 0x71 4 (fld (s.rd R.HANG_STREAM) 15 0) body
        cs.foldl (fun (s : State) c => s.cycleRec num false c) ((s.emitUp r none).irq 0x02F 1)

def execPackageGraphSend (s : State) : Host.Outcome State Fault Refusal := present (s.build == .h) s.graphSend

/-! ### The tray merge (R384, R385) -/

/-- The member that reports: the single member or A, and B while it has taken over (log entry 41). -/
def State.hangReports (s : State) : Bool := fld (s.rd R.PAD_STRAPS) 1 0 != 2 || s.pub.takeover

/-- The lane to a package of the tray. -/
def State.packageLane (s : State) (pkg : Nat) : Option Nat :=
  (List.range 16).find? (fun p => (s.port p).usable && !(s.port p).quar && (s.port p).neighbour == pkg * 32)

/-- A package graph reaches Selvo-T: a suspect's opens a merge, and any joins the open one. -/
def State.graphIn (s : State) (r : Rec) : State :=
  s.consumeOpen r (fun r s =>
    let p := r.payload
    let fl := leAt p 24 1
    let pkg := r.source / 32
    let ents := parseEnts none ((p.drop 32).take (16 * leAt p 20 2))
    let s := if s.hang.merge.isNone && bitOf fl 0 then
        (let num := w32 (s.rd R.HANG_GRAPH_NUM + 1)
         let others := s.convoy.packages.filter (· != pkg)
         let ts := s.now + usTime 100
         let s := s.modHang (fun h => { h with merge := some { num := num, need := others, ents := [], local_ := [], openedAt := s.time.cycles } })
         let s := s.wr R.HANG_GRAPH_NUM num
         others.foldl (fun (s : State) k => match s.packageLane k with
           | some l => s.sendLocal l (s.localRec 0x74 2 0 (snapReqBytes num ts))
           | none => s) s)
      else s
    match s.hang.merge with
    | some m =>
      let old := m.ents.filter (fun e => e.die / 32 != pkg)
      s.modHang (fun h => { h with merge := some { m with ents := old ++ ents, need := if bitOf fl 2 then m.need.filter (· != pkg) else m.need,
                                                          local_ := if bitOf fl 1 then pkg :: m.local_ else m.local_ } })
    | none => s)

/-- Edges within the limits of R384: each adds its nodes. Answers the edges kept, the nodes, and the edges beyond. -/
def mergeLimit (es : List WsEnt) : List WsEnt × Nat × Nat :=
  let r := es.foldl (fun (a : List WsEnt × List (Nat × Nat) × Nat) e =>
    let target : Nat × Nat := match e.next with
      | some t => (0, t)
      | none => (1, e.target)
    let fresh := ([(0, e.node), target].eraseDups).filter (fun n => !a.2.1.contains n)
    if 65536 ≤ a.1.length ∨ 65536 < a.2.1.length + fresh.length then (a.1, a.2.1, a.2.2 + 1) else (a.1 ++ [e], a.2.1 ++ fresh, a.2.2)) ([], [], 0)
  (r.1, r.2.1.length, r.2.2)

/-- An edge that leaves the tray. -/
def State.leavesTray (s : State) (e : WsEnt) : Bool := e.kind == 2 && !s.convoy.packages.contains (e.target % 2 ^ 24 / 32)

/-- TRAY_MERGE_CLOSE (R384, R385): every package has answered, or 5 ms have passed. -/
def State.mergeClose (s : State) : State :=
  match s.hang.merge with
  | none => s
  | some m =>
    if !(m.need.isEmpty || s.after m.openedAt 5000) then s
    else
      match s.grant 2 (s.costHang m.ents.length) with
      | none => s
      | some s =>
        let (es, nodes, ov) := mergeLimit m.ents
        let s := (s.modHang (fun h => { h with merge := none })).wr R.HANG_NODES nodes
        let s := if ov = 0 then s else (s.bumpSat R.HANG_OVERFLOW ov).irq 0x02F 3
        let told (c : List Nat) : Bool := match c with
          | n :: _ => m.local_.contains (n / 1024) && c.all (fun k => k / 1024 == n / 1024)
          | [] => true
        if !s.hangReports then s
        else
          let s := ((cyclesOfEdges es).filter (fun c => !told c)).foldl (fun (s : State) c => s.cycleRec m.num (ov != 0) c) s
          (chunksOf 4000 (es.filter s.leavesTray)).foldl (fun (s : State) l =>
            let (r, s) := s.originate 0x73 4 (fld (s.rd R.HANG_STREAM) 15 0) (leBytes 4 m.num ++ (l.map (fun e => e.bytes true)).flatten)
            s.emitUp r none) s

def execTrayMergeClose (s : State) : Host.Outcome State Fault Refusal := present (s.build == .t) s.mergeClose

/-- Live reads of the HANG page. -/
def State.hangLive (s : State) (off : Nat) : Option Nat :=
  if off = 0x098 then
    some (b2n s.suspectNow + 2 * b2n (s.hang.asm.isSome || s.hang.merge.isSome) +
      4 * b2n (s.drover.emerg == 2 && (s.hang.pendSuspect || s.hang.pendTray.isSome || s.hang.merge.isSome)) + 256 * s.waiting.length)
  else if 0x100 ≤ off ∧ off < 0x200 then
    match s.hang.ws.find? (fun e => e.engine == (off - 0x100) / 8) with
    | some e => some (if off % 8 = 0 then e.kind else e.target)
    | none => some 0
  else none

end Sys2Proof.Machine
end

