-- ==== Sys2Proof/Machine/Crossing.lean ====
section
/-! DEFINITION. The crossings from the tap islands into the core: what their senders hold while an island's clock is stopped, its crossings
are quiesced, the core is in reset or CORE is not in Run, and what lands (R69 to R71, R79 to R92, R139, R144 to R157, R338, R379). -/

namespace Sys2Proof.Machine

/-! ### What lands (Table 3-3) -/

/-- A boundary as the core sees it: the stream's commands, the thermal models, the keeper's step and the check of R334. -/
def State.boundaryLand (s : State) (c : Nat) (start stop : Bool) (tag : Nat) : State :=
  let held := s.muster.held
  let s := (s.boundary c start stop (tag % 65536)).thermBoundary c
  let cfg := s.rd R.OUT_STEP_CFG
  let s := if stop && !held && s.build == .h && s.convoy.keeper && bitOf cfg 5 && fld cfg 4 0 == c then s.stepBoundary else s
  if start && !held then s.abftOpen c else s

/-- A checksum beat as the core sees it (R318 to R327). -/
def State.checksumLand (s : State) (lanes : List CkLane) : State :=
  if bitOf (s.rd R.ABFT_CTRL) 0 then s.beat (lanes.map (fun l => { l with engine := l.engine % 32, prec := l.prec % 8 })) else s

/-- Insert a row by its key, replacing one with the key. -/
def setCounts (k a b : Nat) (l : List (Nat × Nat × Nat)) : List (Nat × Nat × Nat) :=
  l.filter (fun x => decide (x.1 < k)) ++ [(k, a, b)] ++ l.filter (fun x => decide (k < x.1))

/-- A wait state as the core sees it, with its count of readings: the core knows how many it did not see (R86, R379). -/
def State.waitLand (s : State) (engine kind target count : Nat) : State :=
  let s := s.wsLand engine kind target
  if 32 ≤ engine then s
  else
    let old := (s.hang.wsCounts.find? (fun x => x.1 == engine)).getD (engine, 0, 0)
    s.modHang (fun h => { h with wsCounts := setCounts engine (w32 (old.2.1 + count)) (w32 (old.2.2 + (count - 1))) h.wsCounts })

/-- An item lands in the core. -/
def State.itemLand (s : State) : TapItem → State
  | .sensor n v f k => s.sensorReading n v f k
  | .trigger t => (s.trigSeen t).trcTrigger (2 ^ t)
  | .boundary c a b tag => s.boundaryLand c a b tag
  | .tensor w a b id lanes slots => s.tensorBeat w a b (id % 65536) (lanes % 256) slots
  | .checksum l => s.checksumLand l
  | .trace cls priv ctx data => s.trcPresent cls priv ctx data
  | .waitState e k t n => s.waitLand e k t n

/-- A count of items that a FIFO did not carry lands as a sum, by its key (Table 3-5, R149, R157, R323, R362). -/
def State.lostLand (s : State) (k n : Nat) : State :=
  if n = 0 then s
  else if k = 0 then
    let isl := s.portIsland 4
    (s.bumpSat R.TAP_LOST_CB n (pg := isl)).irq (0x008 + isl) 0
  else if k < 8 then s.trcLost ((List.range 5).map (fun i => if i + 1 = k then n else 0))
  else if k < 16 then
    let isl := s.portIsland 6
    let s := (s.bumpSat R.TAP_LOST_TW n (pg := isl)).irq (0x008 + isl) 1
    match s.tensor (k - 8) with
    | some t => s.setTensor (k - 8) { t with lost := true }
    | none => s
  else ((s.bumpSat R.ABFT_LOST_BEATS n).irq 0x023 2).event 0x503 (leBytes 4 n)

/-- What is left of a sum once its light-set part has landed in AON: nothing when CORE is Off; the optional counters take their part in Run;
until then it waits, and its sender's vote wakes CORE (R88, R91, R139). -/
def State.optLand (s : State) (tap opt : Nat) : State :=
  let off := match s.dom 1 with
    | some x => x.st == 3
    | none => false
  if opt = 0 || off then s
  else if s.coreRuns then s.countSrc tap opt
  else State.wake { s with core := { s.core with tapSums := s.core.tapSums ++ [{ tap := tap, light := 0, opt := opt }] } } 1

/-- A sum lands. -/
def State.sumLand (s : State) (x : TapSum) : State := (if x.tap < 64 && x.light != 0 then s.addCtr x.tap x.light else s).optLand x.tap x.opt

/-! ### Senders (R85, R86, R88 to R91) -/

/-- The senders of a tap island launch: its clock runs, it is not being quiesced, and neither it nor the core is in reset. -/
def State.launches (s : State) (n : Nat) : Bool :=
  !s.core.tapStopped.contains n && !s.core.qscReq.contains n && !s.core.inReset.contains n && !s.core.warm

/-- An item, or a count of lost ones under its key, may land: the trace's sender follows TRACE (R364), the others wait for CORE in Run. -/
def State.itemReady (s : State) (x : TapItem) : Bool := s.coreRuns || x.bit == 7
def State.lostReady (s : State) (k : Nat) : Bool := s.coreRuns || lostBit k == 7

/-- Everything that waits in an island's senders is launched: sums, then items in their order, then the counts of lost ones. Items wait on
for a CORE that is not in Run. -/
def State.drainTap (s : State) (n : Nat) : State :=
  let sums := s.core.tapSums.filter (fun x => s.tapIsland x.tap == n)
  let s : State := { s with core := { s.core with tapSums := s.core.tapSums.filter (fun x => s.tapIsland x.tap != n) } }
  let s := sums.foldl State.sumLand s
  let goes (x : TapItem) : Bool := s.portIsland x.bit == n && s.itemReady x
  let told (x : Nat × Nat) : Bool := s.portIsland (lostBit x.1) == n && s.lostReady x.1
  let items := s.core.tapItems.filter goes
  let lost := s.core.tapLost.filter told
  let s : State := { s with core := { s.core with tapItems := s.core.tapItems.filter (fun x => !goes x), tapLost := s.core.tapLost.filter (fun x => !told x) } }
  let s := lost.foldl (fun (s : State) x => s.lostLand x.1 x.2) (items.foldl State.itemLand s)
  if s.tapWaiting n then s.wake 1 else s

/-- What waits in an island's senders lands where they launch. -/
def State.landHeld (s : State) (n : Nat) : State :=
  if s.core.tapSums.isEmpty && s.core.tapItems.isEmpty && s.core.tapLost.isEmpty then s
  else if s.launches n then s.drainTap n
  else s

def State.landAll (s : State) : State := (List.range 8).foldl State.landHeld s

/-- A sum is added to what the tap's sender accumulates (R56). -/
def addSum (x : TapSum) : List TapSum → List TapSum
  | [] => [x]
  | y :: l => if y.tap = x.tap then { y with light := y.light + x.light, opt := y.opt + x.opt } :: l else y :: addSum x l

/-- A sum is due at a sender (R56, R85, R89, R91, R139): the sender holds it, or launches it. -/
def State.tapSum (s : State) (tap sum : Nat) : State :=
  let n := s.tapIsland tap
  let light := if tap < 64 then sum else 0
  if s.core.inReset.contains n then s
  else if s.launches n then (s.landHeld n).sumLand { tap := tap, light := light, opt := sum }
  else { s with core := { s.core with tapSums := addSum { tap := tap, light := light, opt := sum } s.core.tapSums } }

/-- A count of items lost to a full FIFO waits as a sum. -/
def State.lostHold (s : State) (k n : Nat) : State :=
  if n = 0 then s else { s with core := { s.core with tapLost := assocSet k (assocD 0 k s.core.tapLost + n) s.core.tapLost } }

/-- How many items a FIFO or slot holds (Table 3-5), and the key under which it counts what it does not carry. -/
def TapItem.cap : TapItem → Nat
  | .boundary _ _ _ _ => 256
  | .trace _ _ _ _ => 64
  | .trigger _ => 2
  | _ => 32

def TapItem.lostKey : TapItem → Nat
  | .trace cls _ _ _ => 1 + min cls 4
  | .tensor w _ _ _ _ _ => 8 + w
  | .checksum _ => 16
  | _ => 0

/-- Two items share a FIFO, or the slot of one sensor, trigger or engine. -/
def TapItem.same : TapItem → TapItem → Bool
  | .sensor a _ _ _, .sensor b _ _ _ => a == b
  | .trigger a, .trigger b => a == b
  | .boundary _ _ _ _, .boundary _ _ _ _ => true
  | .tensor a _ _ _ _ _, .tensor b _ _ _ _ _ => a == b
  | .checksum _, .checksum _ => true
  | .trace _ _ _ _, .trace _ _ _ _ => true
  | .waitState a _ _ _, .waitState b _ _ _ => a == b
  | _, _ => false

/-- The readings that a value item stands for. -/
def TapItem.count : TapItem → Nat
  | .sensor _ _ _ k => k
  | .waitState _ _ _ k => k
  | _ => 0

/-- A value item with so many more readings; the 16-bit count stops at its end (log entry 66). -/
def TapItem.more (k : Nat) : TapItem → TapItem
  | .sensor n v f c => .sensor n v f (satAdd 16 c k)
  | .waitState e a t c => .waitState e a t (satAdd 16 c k)
  | x => x

/-- An item waits in its sender: a value overwrites its slot, a notification merges, an event takes a place or is counted as not carried
(R57, Table 3-5). -/
def State.itemHold (s : State) (x : TapItem) : State :=
  let l := s.core.tapItems
  match x with
  | .sensor _ _ _ _ | .waitState _ _ _ _ =>
    let k := (l.filter x.same).foldl (fun a y => a + y.count) 0
    { s with core := { s.core with tapItems := l.filter (fun y => !x.same y) ++ [x.more k] } }
  | .trigger _ => if (l.filter x.same).length < x.cap then { s with core := { s.core with tapItems := l ++ [x] } } else s
  | _ => if (l.filter x.same).length < x.cap then { s with core := { s.core with tapItems := l ++ [x] } } else s.lostHold x.lostKey 1

/-- A source presents an item; `lost` are the counts, by key, of items before it that its FIFO did not carry. An island whose clock is
stopped, or that is in reset, takes no input (R85). -/
def State.tapItem (s : State) (x : TapItem) (lost : List (Nat × Nat)) : State :=
  let n := s.portIsland x.bit
  if s.core.tapStopped.contains n || s.core.inReset.contains n then s
  else if s.launches n && s.itemReady x then (lost.foldl (fun (s : State) p => s.lostLand p.1 p.2) (s.landHeld n)).itemLand x
  else
    let s := (lost.foldl (fun (s : State) p => s.lostHold p.1 p.2) s).itemHold x
    if s.launches n && s.tapWaiting n then s.wake 1 else s

/-! ### The commands -/

/-- COUNTING_TAP_INCREMENT (R56, R79, R137 to R141): the sum that a tap's sender launches. -/
def execCountingTapIncrement (tap sum : Nat) (s : State) : Host.Outcome State Fault Refusal :=
  present (hasTaps s.build && decide (tap < 256)) (s.tapSum tap sum)

/-- TRIGGER_NOTIFICATION (R146, R356). -/
def execTriggerNotification (t : Nat) (s : State) : Host.Outcome State Fault Refusal :=
  present (hasTaps s.build && decide (t < 16)) (s.tapItem (.trigger t) [])

/-- COMMAND_BOUNDARY (R147 to R150, R312, R334, R413): `lost` boundaries before it were not carried. -/
def execCommandBoundary (c : Nat) (start stop : Bool) (tag lost : Nat) (s : State) : Host.Outcome State Fault Refusal :=
  present (hasTaps s.build && decide (c < 32)) (s.tapItem (.boundary c start stop tag) [(0, lost)])

/-- TENSOR_WATCH_BEAT (R153 to R157): `lost` beats before it were not carried. -/
def execTensorWatchBeat (w : Nat) (first last : Bool) (tensor lanes : Nat) (slots : List Word) (lost : Nat) (s : State) :
    Host.Outcome State Fault Refusal :=
  present (hasTaps s.build && decide (w < 8)) (s.tapItem (.tensor w first last tensor lanes slots) [(8 + w, lost)])

/-- CHECKSUM_BEAT (R318 to R327): the lanes with ck_valid = 1, in lane order; `lost` beats before it were not carried (R323). -/
def execChecksumBeat (lanes : List CkLane) (lost : Nat) (s : State) : Host.Outcome State Fault Refusal :=
  present (hasTaps s.build) (s.tapItem (.checksum lanes) [(16, lost)])

/-- TRACE_ITEM (R338, R81, R364): `lost` are the items per class that the FIFO did not carry before this one. -/
def execTraceItem (cls priv ctx data : Nat) (lost : List Nat) (s : State) : Host.Outcome State Fault Refusal :=
  present (hasTaps s.build) (s.tapItem (.trace cls priv ctx data) ((lost.take 5).zipIdx.map (fun p => (1 + p.2, p.1))))

/-- WAIT_STATE_BEAT (R79, R81, R86, R379). -/
def execWaitStateBeat (engine kind : Nat) (target : WaitOn) (s : State) : Host.Outcome State Fault Refusal :=
  present (hasTaps s.build) (s.tapItem (.waitState engine kind target.target (min (max target.count 1) 65535)) [])

/-- A tap island's clock stops or runs again; what waited then lands (R85). -/
def State.tapClock (s : State) (n : Nat) (running : Bool) (mhz : Nat) : State :=
  let st := s.rd R.TAP_ISL_STATUS (pg := n)
  let s := s.wr R.TAP_ISL_STATUS (setFld (setBitTo st 0 running) 31 16 mhz) (pg := n)
  if running then State.landHeld { s with core := { s.core with tapStopped := s.core.tapStopped.filter (· != n) } } n
  else if s.core.tapStopped.contains n then s
  else { s with core := { s.core with tapStopped := s.core.tapStopped ++ [n] } }

/-- TAP_CLOCK_CHANGE (R83, R85). -/
def execTapClockChange (n : Nat) (running : Bool) (mhz : Nat) (s : State) : Host.Outcome State Fault Refusal :=
  present (hasTaps s.build && s.tapPresent n) (s.tapClock n running mhz)

end Sys2Proof.Machine
end

