-- ==== Sys2Proof/Machine/Header.lean ====
section
/-! DEFINITION. The commands of the common header and of the vote and idle registers (R391, R531, R532). -/

namespace Sys2Proof.Machine

/-- VIOL_CLEAR (R531): a write of CMN_CTRL on a page. -/
def execViolClear (a : Acc) (page : Nat) (data : Word) (s : State) : Host.Outcome State Fault Refusal :=
  .next (s.guardedWrite a (page * 4096 + 0x010) data.toNat false false (fun s => s.cmnWrite page 0x010 data.toNat))

/-- IRQ_CLEAR (R531): a write of CMN_CTRL on a page. -/
def execIrqClear (a : Acc) (page : Nat) (data : Word) (s : State) : Host.Outcome State Fault Refusal :=
  .next (s.guardedWrite a (page * 4096 + 0x010) data.toNat false false (fun s => s.cmnWrite page 0x010 data.toNat))

/-- CMN_LOCK_SET (R532): a write of CMN_LOCK on a page; a lock set stays set until power-on. -/
def execCmnLockSet (a : Acc) (page : Nat) (data : Word) (s : State) : Host.Outcome State Fault Refusal :=
  .next (s.guardedWrite a (page * 4096 + 0x018) data.toNat false false (fun s => s.cmnWrite page 0x018 data.toNat))

/-- What a write of the host votes does: through PWR_VOTE_HOST, or through CMN_VOTE of a page (R391, R531). -/
def State.hostVote (s : State) (addr data : Nat) : State :=
  if addr = 0x004090 then s.setHostVotes data else s.cmnWrite (addr / 4096) 0x01C data

/-- HOST_VOTE_WRITE (R391, R532): a write of PWR_VOTE_HOST or of a page's CMN_VOTE; another address names no vote. -/
def execHostVoteWrite (a : Acc) (addr : Nat) (data : Word) (s : State) : Host.Outcome State Fault Refusal :=
  present (addr == 0x004090 || addr % 4096 == 0x01C) (s.guardedWrite a addr data.toNat false false (fun s => s.hostVote addr data.toNat))

/-- FIRMWARE_VOTE_WRITE (R391, R514): a write of PWR_VOTE_FW, by firmware only. -/
def execFirmwareVoteWrite (a : Acc) (data : Word) (s : State) : Host.Outcome State Fault Refusal :=
  .next (s.guardedWrite a 0x004094 data.toNat false false (fun s => s.setFwVotes data.toNat))

/-- The field of domain d in PWR_IDLE and PWR_DOM_STATE. -/
def domField (v d : Nat) : Nat := fld v (2 * d + 1) (2 * d)

/-- Bits of PWR_IDLE that the domains of a build define. -/
def idleMask (b : Build) : Nat := (domains b).foldl (fun m d => if d = 0 then m else m + 3 * 2 ^ (2 * d)) 0

/-- A write of PWR_IDLE: an idle domain whose field changes returns to Run, and idles afresh after the delay (R391). -/
def State.setIdle (s : State) (v : Nat) : State :=
  let old := s.rd R.PWR_IDLE
  let new := v &&& idleMask s.build
  let s := s.wr R.PWR_IDLE new
  (domains s.build).foldl (fun s d =>
    match s.dom d with
    | some x => if d != 0 && domField old d != domField new d && x.st != 0 then s.wakeOne d else s
    | none => s) s

/-- PWR_IDLE_WRITE (R391, R416): a non-zero AON field is an invalid value. -/
def execPwrIdleWrite (a : Acc) (data : Word) (s : State) : Host.Outcome State Fault Refusal :=
  .next (s.guardedWrite a 0x004088 data.toNat false (data.toNat % 4 != 0) (fun s => s.setIdle data.toNat))

end Sys2Proof.Machine
end

