-- ==== Sys2Proof/Machine/Ralud.lean ====
section
/-! DEFINITION. Ralud and pair lanes: training, MARKERs, uncorrectable codewords and REPLAY, degraded and held-down lanes, DOZE and WAKE
(R446 to R451, R466). -/

namespace Sys2Proof.Machine

/-- A port is a Ralud or a pair lane of the build. -/
def isLane (b : Build) (p : Nat) : Bool := decide (p < linkPorts b) && (portKind b p == 2 || portKind b p == 3)

/-- The lane number of a port: Ralud lanes 0 to 3 of a Selvo-H, lanes and pair lanes by their port number in a Selvo-T. -/
def laneNum (b : Build) (p : Nat) : Nat := if b = .h then p - 36 else p

/-- RL_DEG_CFG; the pair lanes have no such register and use its reset value (log entry 42). -/
def State.degCfg (s : State) (p : Nat) : Nat := if portKind s.build p = 2 then s.prd R.RL_DEG_CFG p else 0x08100000

/-- Step 1 of Table 17-2: adaptation begins; CREDIT_INIT follows at step 5. -/
def State.laneStart (s : State) (p : Nat) : State :=
  if s.mayTrain p then (s.trainStart p).modPort p (fun q => { q with step := 2 }) else s

/-- A trained lane retrains; the third time within 10 s it is held down (R448, R450). -/
def State.laneRetrain (s : State) (p : Nat) : State :=
  let s := s.linkDown p 1
  let recent := (s.port p).retrains.filter (fun t => decide (s.time.cycles < t + cyclesOf 10000000)) ++ [s.time.cycles]
  if 3 ≤ recent.length then
    let s := s.modPort p (fun q => { q with heldDown := true, training := false, retrains := [] })
    if portKind s.build p = 2 then s.portIrq p 5 else s
  else (s.modPort p (fun q => { q with retrains := recent })).laneStart p

/-- LANE_TRAINING_START (R448): the lane leaves electrical idle, or trains again after it fell. -/
def execLaneTrainingStart (port : Nat) (s : State) : Host.Outcome State Fault Refusal :=
  present (isLane s.build port)
    (if (s.port port).training || !s.mayTrain port then s
     else if (s.port port).up then s.laneRetrain port
     else s.laneStart port)

/-- CODEWORD_LOCK (R448, steps 3 to 5): discovery on the lane, then CREDIT_INIT for every class. -/
def State.codewordLock (s : State) (p src : Nat) : State :=
  if (s.port p).training && (s.port p).step == 2 then
    let s : State := if s.build = .h then { s with link := { s.link with trayOrphan := false } } else s
    (s.modPort p (fun q => { q with step := 1 })).discAnswer p (src % 2 ^ 24)
  else s

def execCodewordLock (port src : Nat) (s : State) : Host.Outcome State Fault Refusal :=
  present (isLane s.build port) (s.codewordLock port src)

/-- MARKER_LOSS (R448): four consecutive MARKERs lost or wrong; the lane goes down and retrains from step 1. -/
def execMarkerLoss (port : Nat) (s : State) : Host.Outcome State Fault Refusal :=
  present (isLane s.build port) (if (s.port port).up || (s.port port).training then s.laneRetrain port else s)

/-- A codeword that cannot be corrected: partly received packets go, and REPLAY reports the last packet received whole of each class;
past UNC_LIMIT within 1 ms the lane retrains (R447). -/
def State.uncorrectable (s : State) (p : Nat) : State :=
  let s := s.rlBump R.RL_FEC_UNCORR p
  let recent := (s.port p).uncorrAt.filter (fun t => decide (s.time.cycles < t + cyclesOf 1000)) ++ [s.time.cycles]
  let s := s.modPort p (fun q => { q with uncorrAt := recent, cls := q.cls.map (fun x => { x with asm := none, badPkt := none }) })
  if fld (s.degCfg p) 31 24 < recent.length then (s.modPort p (fun q => { q with uncorrAt := [] })).laneRetrain p
  else
    let s := (s.censusSkip p).modPort p (fun q => { q with
      cls := q.cls.map (fun x => { x with replayPkt := some x.lastPkt }),
      ctl := some (CtlPkt.make 0x15 255 0 0 (q.cls.map (fun x => x.lastPkt))) })
    s.rlBump R.RL_REPLAYS p

/-- FEC_UNCORRECTABLE (R447), on a lane that has trained. -/
def execFecUncorrectable (port : Nat) (s : State) : Host.Outcome State Fault Refusal :=
  present (isLane s.build port) (if (s.port port).up then s.uncorrectable port else s)

/-- A REPLAY brings a class to its quiescent point at once; a total that a CREDIT_INIT has given is still to be set and answered. -/
def TxRx.replayQuiesce (x : TxRx) (now : Nat) : Quiesce :=
  { why := .replay, since := now, newT := (x.quiesce.map Quiesce.newT).getD x.farT, owe := (x.quiesce.map Quiesce.owe).getD false, left := 0 }

/-- REPLAY_RECEIVED (R447): every class goes to its quiescent point, after which its unacknowledged packets are sent again. -/
def execReplayReceived (port : Nat) (entries : List (Nat × Nat)) (s : State) : Host.Outcome State Fault Refusal :=
  present (isLane s.build port)
    (if (s.port port).up && !entries.isEmpty then
      (s.censusSkip port).modPort port (fun q => { q with
        rxAt := s.time.cycles, farDoze := false,
        cls := q.cls.map (fun x => { x with quiesce := some (x.replayQuiesce s.time.cycles) }) })
     else s)

/-- LANE_DEGRADE_CHECK (R450): one full second of a lane: codewords received, codewords and symbols corrected. -/
def State.degradeCheck (s : State) (p codewords corrected symbols : Nat) : State :=
  let s := if portKind s.build p = 2 then
      let n := s.prd R.RL_FEC_CW_LO p + 4294967296 * s.prd R.RL_FEC_CW_HI p + codewords
      (((s.pwr R.RL_FEC_CW_LO p (n % 4294967296)).pwr R.RL_FEC_CW_HI p (n / 4294967296)).pbump R.RL_FEC_CORR p corrected).pbump R.RL_FEC_SYMB p symbols
    else s
  let limit := fld (s.degCfg p) 23 0
  if limit < corrected && !(s.port p).degraded then
    let s := s.modPort p (fun q => { q with degraded := true })
    let s := if portKind s.build p = 2 then s.portIrq p 4 else s
    s.event 0x205 (bytes [laneNum s.build p, 0, 0, 0] ++ leBytes 4 corrected)
  else if (s.port p).degraded && decide (2 * corrected < limit) then s.modPort p (fun q => { q with degraded := false })
  else s

def execLaneDegradeCheck (port codewords corrected symbols : Nat) (s : State) : Host.Outcome State Fault Refusal :=
  present (isLane s.build port) (if (s.port port).up then s.degradeCheck port codewords corrected symbols else s)

/-- A write of RL_LANE_CTRL: [0] releases HELD_DOWN, [1] forces a retrain (Table 17-5). -/
def State.laneCtrl (s : State) (p v : Nat) : State :=
  let s := if bitOf v 0 then s.modPort p (fun q => { q with heldDown := false, retrains := [] }) else s
  if bitOf v 1 && ((s.port p).up || (s.port p).training) then s.laneRetrain p else s

/-- The address of RL_LANE_CTRL of a lane. -/
def laneCtrlAddr (b : Build) (p : Nat) : Nat := regOf (isLane b p && portKind b p == 2) (portAddr b p 0x300)

/-- HELD_DOWN_RELEASE (R450, R466): a write of RL_LANE_CTRL. -/
def execHeldDownRelease (a : Acc) (port : Nat) (data : Word) (s : State) : Host.Outcome State Fault Refusal :=
  .next (s.guardedWrite a (laneCtrlAddr s.build port) data.toNat false false (fun s => s.laneCtrl port data.toNat))

/-- FORCE_RETRAIN (R466): a write of RL_LANE_CTRL. -/
def execForceRetrain (a : Acc) (port : Nat) (data : Word) (s : State) : Host.Outcome State Fault Refusal :=
  .next (s.guardedWrite a (laneCtrlAddr s.build port) data.toNat false false (fun s => s.laneCtrl port data.toNat))

/-- DOZE_RECEIVED (R451): the far end's latest traffic is a DOZE. -/
def execDozeReceived (port : Nat) (s : State) : Host.Outcome State Fault Refusal :=
  present (isLane s.build port) (s.modPort port (fun q => { q with farDoze := true, wakeSeq := none }))

/-- WAKE_RECEIVED (R393, R451): the first WAKE block raises the link vote of the group. -/
def execWakeReceived (port : Nat) (s : State) : Host.Outcome State Fault Refusal :=
  present (isLane s.build port)
    (State.wake (s.modPort port (fun q => { q with farDoze := false, rxAt := s.time.cycles })) (6 + portGroup s.build port))

/-- WAKE_SEQUENCE_DONE (R451): WAKE has flowed for 2 us and the far end's next block shows it awake: the held unit leaves. -/
def execWakeSequenceDone (port : Nat) (s : State) : Host.Outcome State Fault Refusal :=
  present (isLane s.build port)
    (match (s.port port).wakeSeq with
     | some t => if s.after t 2 then State.unitOut (s.modPort port (fun q => { q with farDoze := false, wakeSeq := none })) port [] else s
     | none => s)

end Sys2Proof.Machine
end

