-- ==== Sys2Proof/Machine/Power.lean ====
section
/-! DEFINITION. Power domains and the drover: votes, idling, hand-shakes, what a domain loses, held outputs, and the refill of the work
classes (R387 to R407). -/

namespace Sys2Proof.Machine

/-! ### What a domain loses (R395, Tables 3-6 and 15-5) -/

/-- CORE loses what is Volatile: open commands, the posted half words, the wait states, words held by latching reads. -/
def State.loseCoreVolatile (s : State) : State :=
  { s with samp := { s.samp with cmds := [], opened := [] }, hang := { s.hang with ws := [] },
           convoy := { s.convoy with slots := s.convoy.slots.map (fun p => (p.1, { p.2 with postLo := 0 })) } }

/-- A slot keeps its entry, and the counter it compares with when that is in the light set (R185, Table 3-6). -/
def Slot.lose (x : Slot) : Slot :=
  { Slot.empty with entry := x.entry, ctrLog := match x.entry with
      | some e => if e.srcKind = 1 ∧ 64 ≤ e.srcArg then [] else x.ctrLog
      | none => [] }

/-- CORE loses what is Retained too: optional counters, sensors, queues, images, slots' results, feature banks, verdicts, the marks and
places of the checker, suspects and graphs, the tallies and the duplicate table. -/
def State.loseCoreRetained (s : State) : State :=
  { s with samp := { SampSt.reset with ctrs := s.samp.ctrs.filter (fun p => decide (p.1 < 64)), gen := s.samp.gen, cfgPend := s.samp.cfgPend, cmdNum := s.samp.cmdNum,
                                       cmdIdleAt := s.samp.cmdIdleAt, cmdIdleStamp := s.samp.cmdIdleStamp },
           muster := { s.muster with image := none, older := none, emit := [], prevCtrs := s.muster.prevCtrs.filter (fun p => decide (p.1 < 64)) },
           convoy := { s.convoy with slots := s.convoy.slots.map (fun p => (p.1, p.2.lose)), adopts := s.convoy.adopts.map (fun a => { a with st := 0 }),
                                     onAlt := [], work := [], heldBack := [], store := [], sdNone := 0, sdActive := false, sdQuiet := 0, sdRaised := 0, spans := [], sdMusters := 0, sdPrev := [] },
           feat := FeatSt.reset,
           out := { s.out with results := [], dies := OutSt.reset.dies, rules := [], bad := 0, deferred := [], advised := [], admission := Admit.idle },
           abft := { s.abft with marks := [], stamps := [], sent := [], log := [], run := none, offer := none, places := AbftSt.reset.places },
           hang := HangSt.reset, tally := { rows := [], ctxs := [], latched := [] } }

/-- A LINK group loses what its port pages show as Volatile: the bits of the status registers that are not the link's own (Table 6-9). -/
def Port.loseVolatile (q : Port) : Port :=
  { q with quar := false, expected := false, missing := false, dupId := false, adopting := false, joining := false, released := false, degraded := false }

/-- A LINK group loses what its port pages show as Retained too: the neighbour and the totals of the classes. -/
def Port.lose (q : Port) : Port :=
  { q.loseVolatile with neighbour := 0x7FFFFF, census := none, uncorrAt := [],
                        cls := q.cls.map (fun x => { x with txSent := 0, txAcked := 0, rxRecv := 0, rxAcked := 0 }) }

/-- The shapers of every port start at their full burst (R236, Table 15-5). -/
def State.tokensFull (s : State) : State :=
  { s with link := { s.link with ports := s.link.ports.zipIdx.map (fun (x : Port × Nat) =>
      { x.1 with laneTokens := (s.laneShape.2 : Int) * byteUnit, laneAt := s.now,
                 cls := x.1.cls.zipIdx.map (fun (y : TxRx × Nat) => { y.1 with tokens := ((s.shapeOf x.2 y.2).2 : Int) * byteUnit, tokAt := s.now }) }) } }

/-- COL_INFLIGHT of the sessions on an Ethernet port returns to 0: what is in flight now counts there no more. -/
def State.flightLost (s : State) (port : Nat) : State :=
  { s with pub := { s.pub with sess := s.pub.sess.map (fun (q : Session) => if q.port = port then { q with uncounted := q.out.length } else q) } }

/-- MGMT Off: the management cores start again from the ROM with an empty data store; their assembly is abandoned (R395, R473, R479). -/
def State.loseMgmt (s : State) : State :=
  State.asmAbandon { s with fw := { s.fw with data := [], st := 0, handCold := false, bulk := [], defer := none, blackout := none,
                                              tickAt := s.time.cycles, startAt := s.time.cycles } }

/-- The structures of a domain that an exit loses; `off` for an exit from Off, else for one from Retain. -/
def State.loseHeld (s : State) (d : Nat) (off : Bool) : State :=
  let s := { s with core := { s.core with latches := s.core.latches.filter (fun l => addrDom s.build (l.key % 2097152) != d) } }
  if d = 1 then (if off then s.loseCoreVolatile.loseCoreRetained.tokensFull else s.loseCoreVolatile)
  else if 6 ≤ d then
    let s := (groupPorts s.build (d - 6)).foldl (fun (s : State) p => s.modPort p (if off then Port.lose else Port.loseVolatile)) s
    if s.build = .t ∧ 9 ≤ d then s.flightLost (d - 9) else s
  else if !off then s
  else if d = 2 then { s with tree := { TreeSt.reset with wait := s.tree.wait, waitRun := s.tree.waitRun, chunks := s.tree.chunks } }
  else if d = 3 then { s with codec := CodecSt.reset }
  else if d = 4 then s.traceLose
  else if d = 5 then s.loseMgmt
  else s

/-- A domain's exit from Retain or Off returns what it loses to reset (R395, R396). -/
def State.loseDomain (s : State) (d : Nat) (off : Bool) : State :=
  (s.loseHeld d off).loseRegs d (fun r => r == .volatile || (off && r == .retained))

/-! ### Held outputs of Selvo-T (R398 to R400, R428) -/

/-- The pair-role strap reads A or B. -/
def State.rolePair (s : State) : Bool := s.build == .t && (s.core.straps % 4 == 1 || s.core.straps % 4 == 2)

/-- Bits of PAD_HOLD for the outputs of a domain (Table 16-5). -/
def padBits (d : Nat) : Nat := if d = 1 then 0x0F else if d = 5 then 0x10 else 0

/-- The holdable outputs of a domain are latched, when the pair-role strap is A or B (R400). -/
def State.padHold (s : State) (d : Nat) : State :=
  if s.rolePair && padBits d != 0 then (s.wr R.PAD_HOLD (s.rd R.PAD_HOLD ||| padBits d)).irq 0x117 3 else s

/-- A write of PAD_RELEASE: outputs of a domain in Run are released (R400). -/
def State.padRelease (s : State) (v : Nat) : State :=
  let ok := (if s.inRun 1 then 0x0F else 0) + (if s.inRun 5 then 0x10 else 0)
  s.wr R.PAD_HOLD (s.rd R.PAD_HOLD &&& (0x1F ^^^ (v &&& ok)))

/-- PAD_RELEASE (R400, R443). -/
def execPadRelease (a : Acc) (data : Word) (s : State) : Host.Outcome State Fault Refusal :=
  .next (s.guardedWrite a 0x117088 data.toNat false false (fun s => s.padRelease data.toNat))

/-! ### Votes (R391, Table 15-3) -/

/-- A client's vote on a domain rises or falls: 2 the debug port, on every domain; 3 hardware; 4 to 11 a tap island; 12 the link.
The host and firmware votes are register bits. -/
def State.voteChange (s : State) (d client : Nat) (held : Bool) : State :=
  if client = 2 then
    let s := { s with power := { s.power with dbg := held } }
    if held then s.wakeVoted
    else { s with power := { s.power with doms := s.power.doms.map (fun p => (p.1, { p.2 with voteAt := s.time.cycles })) } }
  else if client = 3 then s.hwVote d 391 held
  else if 4 ≤ client ∧ client < 12 then
    let n := client - 4
    let s := s.modDom d (fun x => { x with tapVotes := if held then (if x.tapVotes.contains n then x.tapVotes else x.tapVotes ++ [n])
                                                       else x.tapVotes.filter (· != n), voteAt := s.time.cycles })
    if held then s.wake d else s
  else if client = 12 then
    let s := s.modDom d (fun x => { x with linkVote := held, voteAt := s.time.cycles })
    if held then s.wake d else s
  else s

/-- VOTE_CHANGE (R391). -/
def execVoteChange (d client : Nat) (held : Bool) (s : State) : Host.Outcome State Fault Refusal :=
  present ((domains s.build).contains d && decide (client < 13)) (s.voteChange d client held)

/-- The votes as they stand at a tick: a domain voted for counts its idle delay from now, and wakes (R391). -/
def State.refreshVotes (s : State) : State :=
  let held := (domains s.build).filter (fun d => d != 0 && s.votes d != 0)
  held.foldl (fun (s : State) d =>
    let s := s.modDom d (fun x => { x with voteAt := s.time.cycles })
    if s.inRun d then s else s.wake d) s

/-! ### Moves (R96, R389 to R393) -/

/-- An island is quiesced before its clock or supply goes: the coalescing table closes, and TRACE closes its interval and block (R94,
R241, R364). -/
def State.leaving (s : State) (d tgt : Nat) : State :=
  if d = 1 then s.coalFlush else if d = 4 ∧ 2 ≤ tgt then s.traceLeave else s

/-- A domain may idle now: in Run, no vote, the delay over, and an idle state set. -/
def State.idleDue (s : State) (d : Nat) : Bool :=
  match s.dom d with
  | some x => d != 0 && x.st == 0 && !x.testing && x.moving.isNone && s.votes d == 0 && domField (s.rd R.PWR_IDLE) d != 0 &&
      s.after x.voteAt (fld (s.rd R.PWR_IDLE_DELAY) 15 0)
  | none => false

/-- What an island holds that its leaving Run would lose has gone (R94): CORE, on its way to Off, has no convoy work, no muster records and no input in
an open epoch. The links' packets and the tap islands' senders hold votes. -/
def State.quietFor (s : State) (d tgt : Nat) : Bool :=
  d != 1 || tgt != 3 ||
    (s.convoy.work.isEmpty && s.muster.emit.isEmpty && s.convoy.slots.all (fun p => p.2.opens.all (fun o => o.inputs.isEmpty && o.held.isEmpty)))

/-- DOMAIN_IDLE_TIMEOUT (R391): the island is quiesced, and moves unless that has raised a vote (R94). -/
def execDomainIdleTimeout (d : Nat) (s : State) : Host.Outcome State Fault Refusal :=
  present ((domains s.build).contains d)
    (let tgt := domField (s.rd R.PWR_IDLE) d
     if s.idleDue d && s.quietFor d tgt then
       let t := s.leaving d tgt
       if t.idleDue d then t.startMove d tgt else t
     else s)

/-- A domain stands in an idle state: links doze or go down, outputs are held (R393, R400, R451). A vote that was raised meanwhile wakes it at once
(R392). -/
def State.enterIdle (s : State) (d t : Nat) : State :=
  let s := s.modDom d (fun x => { x with st := t, moving := none, alarmed := false })
  let s := s.modDom 1 (fun x => { x with voteAt := s.time.cycles })
  let s := if 6 ≤ d then
      (if t = 1 then (groupPorts s.build (d - 6)).foldl (fun (s : State) p => s.modPort p (fun q => { q with dozing := isLane s.build p && q.up })) s
       else s.linksFall (groupPorts s.build (d - 6)) 3 (t == 2))
    else s
  let s := if d = 4 then s.modTrace (fun x => { x with offAt := s.now }) else s
  let s := if t = 3 then s.padHold d else s
  match s.dom d with
  | some x => if x.thenTo = some 0 then s
              else if s.votes d != 0 then (s.modDom d (fun x => { x with wakeAt := s.time.cycles })).startMove d 0 else s
  | none => s

/-- The optional counters' last values, which the reset notice of the core island stands for (R92; log entry 70). -/
def State.keepLast (s : State) : State :=
  { s with core := { s.core with noticeCtrs := s.samp.ctrs.filter (fun p => decide (64 ≤ p.1)) } }

/-- A domain is in Run: the wake is measured, what it lost is reset, and its work goes on (R389, R395). -/
def State.becomeRun (s : State) (d : Nat) : State :=
  match s.dom d with
  | none => s
  | some x =>
    let was := x.st
    let s := if d = 1 ∧ was = 3 then s.keepLast else s
    let s := if 2 ≤ was then s.loseDomain d (was == 3) else s
    let s := s.modDom d (fun x => { x with st := 0, moving := none, thenTo := none, testing := false, alarmed := false, voteAt := s.time.cycles })
    let ns := min ((s.time.cycles - x.wakeAt) * 5 / 4) (2 ^ 32 - 1)
    let s := ((s.bumpSat R.PWR_WAKES 1 0 0 0 d).wr R.PWR_LAST_WAKE_NS ns 0 0 0 d).wr R.PWR_MAX_WAKE_NS (max ns (s.rd R.PWR_MAX_WAKE_NS 0 0 0 d)) 0 0 0 d
    let s := if was = 3 ∧ (d = 1 ∨ 6 ≤ d) then s.event 0x004 (bytes [if d = 1 then 8 else 9 + (d - 6), 1]) else s
    if d = 1 then s.landAll
    else if d = 2 then s.treeRun
    else if d = 4 then s.traceBack was
    else if s.build = .t ∧ 9 ≤ d then s.pumpPort (d - 9)
    else if 6 ≤ d then (groupPorts s.build (d - 6)).foldl (fun (s : State) p => s.modPort p (fun q => { q with dozing := false })) s
    else s

/-- pwr_ack rises while pwr_req is 1, which lowers pwr_req (R96): away from Run the state is reached; towards Run the exit self-test begins, which a
domain in Drowse does not have (R389). -/
def State.ackRise (s : State) (d : Nat) : State :=
  match s.dom d with
  | none => s
  | some x =>
    if !x.req || x.ack then s
    else
      let s := s.modDom d (fun x => { x with ack := true, req := false })
      match x.moving with
      | none => s
      | some t =>
        if t != 0 then s.enterIdle d t
        else if x.st ≤ 1 then s.becomeRun d
        else s.modDom d (fun x => { x with testing := true, alarmed := false })

/-- pwr_ack falls once pwr_req is 0: a further move may start (R96). -/
def State.ackFall (s : State) (d : Nat) : State :=
  match s.dom d with
  | none => s
  | some x =>
    if x.req || !x.ack then s
    else
      let s := s.modDom d (fun x => { x with ack := false })
      match x.thenTo with
      | some t => s.startMove d t
      | none => s

/-- POWER_ACK (R96): pwr_ack of a domain takes a level. -/
def execPowerAck (d : Edge) (s : State) : Host.Outcome State Fault Refusal :=
  present ((domains s.build).contains d.num) (if d.on then s.ackRise d.num else s.ackFall d.num)

/-- The controller's bound for a move in µs (Table 15-2, R96). -/
def ackBound (st tgt : Nat) : Nat := if tgt != 0 then 100 else if st ≤ 1 then 2 else if st = 2 then 60 else 480000

/-- POWER_HANDSHAKE_TIMEOUT (R96): pwr_ack has not risen after ten times its bound; pwr_req stays at 1. -/
def execPowerHandshakeTimeout (d : Nat) (s : State) : Host.Outcome State Fault Refusal :=
  present ((domains s.build).contains d)
    (match s.dom d with
     | some x =>
       match x.moving with
       | some t =>
         if x.req && !x.testing && !x.alarmed && s.after x.reqAt (10 * ackBound x.st t) then
           (((s.modDom d (fun x => { x with alarmed := true })).bumpSat R.PWR_HS_ALARMS).irq 0x004 0).event 0x313 (bytes [d, t])
         else s
       | none => s
     | none => s)

/-- Live reads of the POWER page (Table 15-10). -/
def State.powerLive (s : State) (off : Nat) : Option Nat :=
  if off = 0x080 then some (s.power.doms.foldl (fun a p => a + p.2.st * 4 ^ p.1) 0)
  else if 0x0A0 ≤ off ∧ off < 0x0DC then some (s.votes ((off - 0x0A0) / 4))
  else none

/-! ### The refill (R402, R405 to R407) -/

/-- A finite binary32 of 0 or more as a fraction: numerator and denominator. -/
def fracOf (v : Nat) : Nat × Nat :=
  match decF b32 v with
  | .fin false n e => if 0 ≤ e then (n * 2 ^ e.toNat, 1) else (n, 2 ^ (-e).toNat)
  | _ => (0, 1)

/-- DRV_SHARE of class c, 1 to 6. -/
def State.shareOf (s : State) (c : Nat) : Nat :=
  if c ≤ 4 then fld (s.rd R.DRV_SHARE0) (8 * c - 2) (8 * c - 8) else fld (s.rd R.DRV_SHARE1) (8 * c - 34) (8 * c - 40)

/-- R of R402 in units of 10^-6 mW: 1 mW for 1 µs is 1 nJ. -/
def State.refillOf (s : State) (g rsv : Nat) : Nat :=
  let pct := if s.drover.emerg = 0 then 100 else if s.drover.emerg = 1 then fld (s.rd R.DRV_CONSTRAIN_PCT) 7 0 else 0
  let (n, d) := fracOf (s.rd R.DRV_DERATE)
  (g - rsv) * 1000000 * n * pct / (d * 100)

/-- Classes from c on take their refill and what overflows above them; what passes below W6 is left. -/
def refillFrom (burst own : Nat → Int) : Nat → Nat → Int → List Int → List Int × Int
  | 0, _, carry, _ => ([], carry)
  | n + 1, c, carry, levels =>
    let lvl := levels.headD 0
    let full := burst c
    let lvl := min lvl full
    let sum := lvl + own c + carry
    -- a burst of 0 holds the level at 0 (R407)
    let new := if full = 0 then 0 else min full sum
    let sum := if full = 0 then own c + carry else sum
    let (rest, left) := refillFrom burst own n (c + 1) (sum - new) levels.tail
    (new :: rest, left)

/-- One tick of the refill. -/
def State.refill (s : State) (grant : Nat) : State :=
  let g := 10 * grant
  let rsv := min g (fld (s.rd R.DRV_W1_RESERVE) 15 0)
  let r := s.refillOf g rsv
  let own (c : Nat) : Int := ((if c = 1 then rsv * 1000000 else 0) + r * s.shareOf c / 100 : Nat)
  let burst (c : Nat) : Int := (fld (s.rd R.DRV_BURST (c - 1)) 27 0 : Int) * nJ
  let (levels, left) := refillFrom burst own 6 1 0 s.drover.levels
  let used := (List.range 6).foldl (fun a k => a + r * s.shareOf (k + 1) / 100) 0
  let lost := left.toNat + (r - used)
  let total := s.drover.spill + lost
  let s := { s with drover := { s.drover with grant := grant, levels := levels, bursts := (List.range 6).map (fun c => fld (s.rd R.DRV_BURST c) 27 0), spill := total % 1000000000, refillMw := r / 1000000 } }
  if total / 1000000000 = 0 then s else s.bumpSat R.DRV_SPILLED (total / 1000000000)

/-- The estimated cost of the head item of a class that waits, if one does (Table 15-6). -/
def State.headCost (s : State) (c : Nat) : Option Nat :=
  if c = 1 then
    if !s.convoy.work.isEmpty then some s.costConvoy
    else match s.muster.image with
      | some i => if i.complete || s.muster.lateLatch then none else some (s.costImage i.en.length)
      | none => none
  else if c = 2 then
    match s.tree.wait with
    | x :: _ => (if s.inRun 2 then ((s.tslot x.slot).modelFor x.num).map (fun m => s.costTree m.trees.length m.depth) else none)
    | [] => if s.out.results.any s.ready then some s.costVerdict
            else match s.hang.asm with
              | some a => if s.asmDue a then some (s.costHang (a.ents1.length + a.ents2.length)) else none
              | none => match s.hang.merge with
                | some m => if m.need.isEmpty || s.after m.openedAt 5000 then some (s.costHang m.ents.length) else none
                | none => none
  else if c = 3 then
    if s.feat.await.isSome && s.feat.run.isNone && s.feat.loaded && bitOf (s.rd R.FEAT_CTRL) 0 then
      some (s.costFeature s.feat.len (s.feat.active.sumW s.feat.len))
    else none
  else if c = 5 then
    if s.trcDrains && s.inRun 4 then s.drainNext.map (fun b => s.costTrace (b.data.length + 40)) else none
  else if c = 6 then
    match s.tree.chunks ++ s.abft.chunks with
    | w :: _ => some (s.costBulk (w.r.payload.length - 8))
    | [] => none
  else none

/-- Count the tick of every class whose head item is not covered. -/
def State.starve (s : State) : State :=
  [1, 2, 3, 5, 6].foldl (fun (s : State) c =>
    match s.headCost c with
    | some n => if (s.grant c n).isNone then s.bumpSat R.DRV_STARVED 1 (c - 1) else s
    | none => s) s

/-- DROVER_TICK (R397, R402, R403, R407): 1 µs has passed; `grant` is pwr_grant as the tick samples it. Waiting convoy work and chunks go on
as their classes allow. -/
def State.droverTick (s : State) (grant : Nat) : State :=
  let s := s.refill (grant % 65536)
  let s := s.setCauses s.causesNow
  let s := s.convoyDrain
  let s := s.chunkDrain s.tree.chunks.length
  let s := s.patDrain s.abft.chunks.length
  let s := if s.build = .t then (s.pumpPort 0).pumpPort 1 else s
  s.starve.refreshVotes

def execDroverTick (grant : Nat) (s : State) : Host.Outcome State Fault Refusal := .next (s.droverTick grant)

end Sys2Proof.Machine
end

