-- ==== Sys2Proof/Machine/Board.lean ====
section
/-! DEFINITION. The Selvo-T chip on its board: sensor pairs and THERM#, cooling demand, tach faults, PCIe, pattern windows, the test access
port and the pads (R411, R425 to R443, R465). -/

namespace Sys2Proof.Machine

/-! ### Sensors and THERM# (R411, R430, R433) -/

/-- A temperature sensor whose reading is valid. -/
def Sensor.valid (x : Sensor) : Bool := !x.stale && !x.fault && !x.noReading

/-- The hottest valid temperature sensor of a Selvo-T, as the sensor presents it (PAD_TJ_MAX). -/
def State.tjRaw (s : State) : Option Int :=
  (List.range 6).foldl (fun (a : Option Int) k =>
    let x := s.sensor k
    if x.valid then some (match a with
      | some v => max v (sgnN 16 x.value)
      | none => sgnN 16 x.value)
    else a) none

def State.tjMax (s : State) : Option Nat := s.tjRaw.map (fun v => fOfRat b64 v 64)

/-- Every temperature pair is FAULT. -/
def State.allTempFault (s : State) : Bool := (List.range 6).all (fun k => (s.sensor k).fault)

/-- The chip drives or releases THERM#; its own drive is cause 3 of Table 15-8 (R430). -/
def State.setTherm (s : State) (low : Bool) : State :=
  if s.core.thermDrive = low then s
  else
    let s := { s with core := { s.core with thermDrive := low } }
    let s := if low then s.padEvent 0 1 else s
    s.setCauses s.causesNow

/-- THERM# follows the hottest valid sensor: low from PAD_THERM_TRIP, high again below it less 5 °C (R430). -/
def State.thermPin (s : State) : State :=
  let trip := f32to64 (s.rd R.PAD_THERM_TRIP)
  if s.allTempFault then s.setTherm true
  else
    match s.tjMax with
    | some v =>
      if fLe b64 trip v then s.setTherm true
      else if fLt b64 v (fSub b64 trip (fOfNat b64 5)) then s.setTherm false
      else s
    | none => s

/-- A reading of one sensor of a temperature pair: more than 2 °C from its partner's, both are FAULT (R411). -/
def State.pairReading (s : State) (sns value : Nat) (faulty : Bool) (count : Nat) : State :=
  let other := if sns % 2 = 0 then sns + 1 else sns - 1
  let y := s.sensor other
  let apart := !y.noReading && decide (128 < (sgnN 16 (value % 65536) - sgnN 16 y.raw).natAbs)
  let s := s.sensorReading sns value (faulty || apart) count
  let s := if apart then s.modSensor other (fun x => { x with fault := true, stale := true, faultSeen := true }) else s
  s.thermPin

/-- SENSOR_READING (R79, R86, R144, R433): sensors 13 to 15 of a Selvo-T have no reading. -/
def execSensorReading (sns value : Nat) (faulty : Bool) (count : Nat) (s : State) : Host.Outcome State Fault Refusal :=
  present (decide (sns < 16) && (s.build != .t || decide (sns < 13)))
    (if s.build = .t then (if sns < 6 then s.pairReading sns value faulty count else s.sensorReading sns value faulty count)
     else s.tapItem (.sensor sns value faulty (min (max count 1) 65535)) [])

/-- SENSOR_STALE_TIMEOUT (R144): no good reading for STALE_TIME × 10 us; a stale sensor of a Selvo-T no longer holds THERM# (R430). -/
def execSensorStaleTimeout (sns : Nat) (s : State) : Host.Outcome State Fault Refusal :=
  present (decide (sns < 16))
    (let t := fld (s.rd R.SNS_CFG sns) 15 8
     if t ≠ 0 ∧ s.after (s.sensor sns).goodAt (10 * t) then
       let s := s.modSensor sns (fun x => { x with stale := true })
       if s.build = .t then s.thermPin else s
     else s)

/-! ### Cooling demand (R434 to R438) -/

/-- The cooling class of the strap (Table 16-4). -/
def State.coolClass (s : State) : Nat := fld s.core.straps 3 2

/-- The last result of COOL_STREAM in °C, and whether it is missing or stale (R436). -/
def State.coolStream (s : State) : Option Nat :=
  match s.slotAt (s.rd R.COOL_STREAM) with
  | some (_, sl) =>
    match s.slotResult sl with
    | some r =>
      let age := (s.now + 2 ^ 56 - r.stamp / 256 % 2 ^ 56) % 2 ^ 56
      if max 1 (fld (s.rd R.COOL_STALE) 15 0) * 4294967296 ≤ age * 1000 ∧ age < 2 ^ 55 then none
      else statField (parseHdr r.payload) (parsePay (parseHdr r.payload).op (parseHdr r.payload).ty (parseHdr r.payload).par (r.payload.drop 80)) 0 0
    | none => none
  | none => none

/-- The smallest headroom among the enabled models of COOL_SRC; an unavailable model gives 0. -/
def State.coolOwn (s : State) : Option Nat :=
  (List.range 4).foldl (fun (a : Option Nat) m =>
    if bitOf (s.rd R.COOL_SRC) m && s.thmOn m then
      let h := (s.thmHeadroom m).getD 0
      some (match a with
        | some b => if fLt b64 h b then h else b
        | none => h)
    else a) none

/-- h of R436, and whether the stream is stale. With no model and no stream the spec states no h: a free value. -/
def State.coolH (s : State) : Nat × Bool × State :=
  let use := bitOf (s.rd R.COOL_CTRL) 1
  let str := s.coolStream
  let stale := use && str.isNone
  match s.coolOwn, use with
  | some h, false => (h, false, s)
  | some h, true =>
    let v := str.getD 0
    (if fLt b64 v h then v else h, stale, s)
  | none, true => (str.getD 0, stale, s)
  | none, false =>
    let (f, s) := s.draw
    (f32to64 (f % 0x7F800000), false, s)

/-- The duty of an output on the demand curve, in whole percent. -/
def State.coolCurve (s : State) (h k : Nat) : Nat :=
  let hi := f32to64 (s.rd R.COOL_HR_HI)
  let lo := f32to64 (s.rd R.COOL_HR_LO)
  let x := fDiv b64 (fSub b64 hi h) (fSub b64 hi lo)
  let x := if fLt b64 x 0 then 0 else if fLt b64 f64One x then f64One else x
  let m := fld (s.rd R.COOL_MIN k) 6 0
  (fCeil b64 (fAdd b64 (fOfNat b64 m) (fMul b64 (fOfNat b64 (100 - m)) x))).toNat

/-- Why full cooling is forced, if it is: the reasons of COOL_DUTY. -/
def State.coolForce (s : State) : Option Nat :=
  if !bitOf (s.rd R.COOL_CTRL) 0 then some 6
  else if s.coolClass = 3 then some 7
  else if s.core.thermDrive || s.core.thermLowIn then some 2
  else if s.drover.emerg = 2 then some 3
  else if !s.core.tachFault.isEmpty then some 5
  else none

/-- Duty and reason of an output. -/
def State.coolDuty (s : State) (h : Nat) (stale : Bool) (k : Nat) : Nat × Nat :=
  match s.coolForce with
  | some r => (100, r)
  | none =>
    let d := s.coolCurve h k
    let o := fld (s.rd R.COOL_OVERRIDE) 6 0
    if d < o then (o, 1) else (d, if stale then 4 else 0)

/-- The period of a cooling output in units of 2^-32 s (Table 16-7). -/
def State.coolPeriod (s : State) (k : Nat) : Nat :=
  usTime (if (s.coolClass = 1 ∧ k = 2) ∨ (s.coolClass = 2 ∧ 2 ≤ k) then 1000 else 40)

/-- The word of COOL_DUTY in force: a new duty takes effect at the start of the next PWM period, which starts at a whole multiple of the
period in fleet time (R436, R437). -/
def State.coolInForce (s : State) (k : Nat) : Nat :=
  match s.core.coolWas[k]? with
  | some (old, t) => if s.now / s.coolPeriod k = t / s.coolPeriod k then old else s.rd R.COOL_DUTY k
  | none => s.rd R.COOL_DUTY k

/-- New duties and reasons of all four outputs; the duties in force until then are kept to the end of their periods. -/
def State.coolSet (s : State) (f : Nat → Nat × Nat) : State :=
  let was := (List.range 4).map (fun k => (s.coolInForce k, s.now))
  let s := (List.range 4).foldl (fun (s : State) k => s.wr R.COOL_DUTY ((f k).1 + 256 * (f k).2) k) s
  { s with core := { s.core with coolWas := was } }

/-- One computation of the demand (R436). -/
def State.coolTick (s : State) : State :=
  let (h, stale, s) := s.coolH
  let s := s.wr R.COOL_HEADROOM (f64to32 h)
  let s := s.coolSet (s.coolDuty h stale)
  let forced := s.coolForce.isSome
  let s := if stale && !s.core.coolStale then s.irq 0x116 1 else s
  let s := if forced && !s.core.coolForced then s.irq 0x116 2 else s
  { s with core := { s.core with coolStale := stale, coolForced := forced } }

/-- COOLING_DEMAND_TICK (R436): 1 ms has passed; the demand logic is in CORE (Table 16-1). -/
def execCoolingDemandTick (s : State) : Host.Outcome State Fault Refusal := present (s.build == .t) (if s.inRun 1 then s.coolTick else s)

/-- An output's tach has read below its minimum for 1 s while its duty is above 0 (R438). -/
def State.tachFail (s : State) (k rpm : Nat) : State :=
  let low := fld (s.rd R.COOL_TACH_MIN k) 15 0
  let s := s.wr R.COOL_TACH (rpm % 65536) k
  if low ≠ 0 ∧ rpm % 65536 < low ∧ fld (s.coolInForce k) 6 0 ≠ 0 ∧ s.core.tachFault.contains k = false then
    let forced := s.core.coolForced
    let run := s.inRun 1
    let s := { s with core := { s.core with tachFault := s.core.tachFault ++ [k], coolForced := forced || run } }
    let s := (s.wr R.COOL_FAULT (s.rd R.COOL_FAULT ||| 2 ^ k)).irqMask 0x116 (if run && !forced then 5 else 1)
    let s := s.event 0xA02 (bytes [k, 0] ++ leBytes 2 rpm ++ leBytes 2 low)
    if run then s.coolSet (fun _ => (100, s.coolForce.getD 5)) else s
  else s

/-- TACH_FAULT_TIMEOUT (R438). -/
def execTachFaultTimeout (k rpm : Nat) (s : State) : Host.Outcome State Fault Refusal :=
  present (s.build == .t && decide (k < 4)) (s.tachFail k rpm)

/-- TACH_FAULT_CLEAR (R438): 1 s of readings at or above the minimum. -/
def execTachFaultClear (k rpm : Nat) (s : State) : Host.Outcome State Fault Refusal :=
  present (s.build == .t && decide (k < 4))
    (let s := s.wr R.COOL_TACH (rpm % 65536) k
     if fld (s.rd R.COOL_TACH_MIN k) 15 0 ≤ rpm % 65536 then
       { s with core := { s.core with tachFault := s.core.tachFault.filter (· != k) } }
     else s)

/-! ### PCIe (R425, R465, R469) -/

/-- The PCIe function is reset: its completions, its interrupts sent and its window go (R425). -/
def State.pcieClear (s : State) : State :=
  { s with core := { s.core with rspPcie := ⟨0, false⟩, bar2 := ⟨0, false⟩, msix := [0, 0, 0, 0],
                                 wait := s.core.wait.filter (fun w => !(w.acc.path == .pcie && !w.write)) } }

/-- The link of the PCIe function goes down. -/
def State.pcieDown (s : State) : State :=
  if bitOf (s.rd R.PCIE_STATUS) 0 then ((s.wr R.PCIE_STATUS (s.rd R.PCIE_STATUS &&& 0x100)).bumpSat R.PCIE_LINK_DOWN).irq 0x113 0 else s

/-- PCIE_RESET (R425): 0 PERST# falls, 1 PERST# rises, 2 Function Level Reset. -/
def execPcieReset (kind : Nat) (s : State) : Host.Outcome State Fault Refusal :=
  present (s.build == .t && decide (kind < 3))
    (if kind = 0 then
       let s := s.pcieDown.pcieClear
       State.wr { s with core := { s.core with pcieReset := true } } R.PCIE_STATUS 0x100
     else if kind = 1 then State.wr { s with core := { s.core with pcieReset := false } } R.PCIE_STATUS (s.rd R.PCIE_STATUS % 256)
     else s.pcieClear)

/-- PCIE_LINK_CHANGE (R469): the link trains at a speed of 1 to 5 and a width, or goes down. -/
def execPcieLinkChange (up : Bool) (speed width : Nat) (s : State) : Host.Outcome State Fault Refusal :=
  present (s.build == .t)
    (if up then
       (if s.core.pcieReset then s else (s.wr R.PCIE_STATUS (1 + speed % 8 * 2 + width % 16 * 16)).irq 0x113 0)
     else s.pcieDown)

/-- PCIE_BAR2_READ (R465): the word at an offset of the window, where its place is verified; bytes past the package are free values. A place that
holds an uncorrectable word is refused at its read (R331). -/
def State.bar2Read (s : State) (off : Nat) : State :=
  let q := off / 4194304
  let s := if (s.place q).st = 2 && (s.place q).bad then s.placeRefuse q 5 else s
  let x := s.place q
  if x.st = 2 then
    let a := off % 4194304 / 4 * 4
    let (f, s) := if a + 4 ≤ x.data.length then (0, s) else s.draw
    let w := leAt (x.data ++ leBytes 4 f) a 4
    let w := if x.data.length ≤ a then f % 2 ^ 32 else w
    { s with core := { s.core with bar2 := ⟨w, false⟩ } }
  else
    State.irq (State.bumpSat { s with core := { s.core with bar2 := ⟨0, true⟩ } } R.PCIE_ERR_CA) 0x113 1

def execPcieBar2Read (off : Nat) (s : State) : Host.Outcome State Fault Refusal :=
  present (s.build == .t && decide (off < 16777216)) (if s.core.pcieReset then s else s.bar2Read off)

/-! ### Test access and pads (R441, R443) -/

/-- TEST_ACCESS_INSTRUCTION (R441): 0 BYPASS, 1 IDCODE, 2 SAMPLE/PRELOAD, 3 EXTEST, 4 HIGHZ, 5 CLAMP; any other code is BYPASS, as
IEEE 1149.1 has it. EXTEST, HIGHZ and CLAMP raise dbg_vote on every domain. -/
def execTestAccessInstruction (code : Nat) (s : State) : Host.Outcome State Fault Refusal :=
  present (s.build == .t)
    (let c := if code < 6 then code else 0
     State.voteChange { s with core := { s.core with jtag := c } } 0 2 (decide (3 ≤ c)))

/-- The level of a COOL_PWM ball: held or floating it is high; else its period starts at a whole multiple in fleet time (R399, R400, R437). -/
def State.pwmLevel (s : State) (k : Nat) : Bool :=
  bitOf (s.rd R.PAD_HOLD) k || !s.inRun 1 || decide (s.now % s.coolPeriod k * 100 < s.coolPeriod k * fld (s.coolInForce k) 6 0)

/-- Live reads of the COOLING page: the class, the outputs in tach fault, which have been so since any read, and the duties in force. -/
def State.coolLive (s : State) (off : Nat) : Option Nat :=
  if off = 0x084 then some s.coolClass
  else if off = 0x0A4 then some (s.core.tachFault.foldl (fun a k => a ||| 2 ^ k) (s.rd R.COOL_FAULT))
  else if 0x100 ≤ off ∧ off < 0x140 ∧ off % 16 = 4 then some (s.coolInForce ((off - 0x100) / 16))
  else none

/-- Live reads of the PADS page; the levels of the tach and capture inputs, which the state does not hold, are in `pins`. -/
def State.padsLive (s : State) (off pins : Nat) : Option Nat :=
  let bit (b : Bool) (i : Nat) : Nat := if b then 2 ^ i else 0
  if off = 0x080 then some (s.core.straps % 32 + 32 * b2n (s.core.straps % 4 == 3))
  else if off = 0x08C then
    some ((List.range 4).foldl (fun a k => a + bit (s.pwmLevel k) k) 0 + pins % 16 * 16 + bit (!s.alertLow) 8 +
      bit (!(s.core.thermDrive || s.core.thermLowIn)) 9 + bit (!s.core.pwrEmergLow) 10 + bit (!s.core.present) 11 + bit (!s.core.peerLow) 12 +
      (List.range 8).foldl (fun a n => a + bit ((s.pulse.gens.getD n Pulse.reset).activeUntil.isSome != (s.pulse.gens.getD n Pulse.reset).pol) (13 + n)) 0 +
      pins / 16 % 16 * 2 ^ 21)
  else if off = 0x098 then some (match s.tjMax with
    | some v => f64to32 v
    | none => 0)
  else none

end Sys2Proof.Machine
end

