-- ==== Sys2Proof/Machine/Publish.lean ====
section
/-! DEFINITION. Publication: the store and its admission, the pair's cursors, switch-over and handback, and the sessions to collectors
and peers (R439, R440, R452 to R464). -/

namespace Sys2Proof.Machine

/-! ### The publication store (R453) -/

/-- 16 MiB. -/
def storeMax : Nat := 16777216

def recSize (r : Rec) : Nat := r.payload.length + 24

/-- Bytes that the store holds, and those of mirror copies. -/
def State.storeUsed (s : State) : Nat := s.pub.store.foldl (fun a x => a + recSize x.r) 0
def State.mirrorUsed (s : State) : Nat := s.pub.store.foldl (fun a x => if x.mirror then a + recSize x.r else a) 0

/-- The contexts a member holds at most (R454). -/
def ctxMax : Nat := 16384

def PubCtx.is (x : PubCtx) (r : Rec) : Bool := x.source == r.source && x.stream == r.stream

/-- The context of a record is held, from its first record on, while there is room for it; beyond that it is counted (R454). Answers
whether the context is held. -/
def State.trackCtx (s : State) (r : Rec) : Bool × State :=
  if s.pub.ctxs.any (fun x => x.is r) || s.pub.back.any (fun x => x.is r) then (true, s)
  else if s.pub.ctxs.length + s.pub.back.length < ctxMax then
    let c : PubCtx := { source := r.source, stream := r.stream, f := r.seq, c := w32 (r.seq + 4294967295), held := [], changed := true }
    (true, s.modPub (fun p => { p with ctxs := p.ctxs ++ [c] }))
  else
    let seen := s.pub.store.any (fun x => x.r.source == r.source && x.r.stream == r.stream)
    (false, if seen then s else s.bumpSat R.PAIR_CTX_OVERFLOW)

/-- An event record of the tray that this member publishes waits for flash as well, when it is severe enough; beyond 256 that wait it is
counted (R503). -/
def State.pubFlash (s : State) (r : Rec) : State :=
  if r.type ≠ 0x1B ∨ r.source = s.srcId ∨ !bitOf (s.rd R.EVR_CTRL) 1 then s
  else
    match (s.openRec r).1 with
    | some q =>
      let e := evParse q.payload
      if e.sev < fld (s.rd R.EVR_FL_SEV) 2 0 then s
      else if 256 ≤ s.ev.flashQ.length then (s.bumpSat R.EVR_FL_DROPPED).irq 0x006 3
      else { s with ev := { s.ev with flashQ := s.ev.flashQ ++ [e] } }
    | none => s

/-- This member publishes a record: into the store for every session that takes it, or dropped link-down when none does (R461). Publication opens
the record: poison ends here (R50, Table 11-5). -/
def State.pubOwn (s : State) (uid : Nat) (r : Rec) (takeover : Bool) : State :=
  if recPoison r then (s.ctxAcked r).fateLost uid 2
  else
  let s := s.pubFlash r
  let need := s.takers r.tc
  if need.isEmpty then (s.ctxAcked r).fateLost uid 1
  else s.pubAdd { uid := uid, r := r, mirror := false, takeover := takeover, need := need }

/-- A record enters the store: published by this member or held as a mirror copy of the partner's share (R452 to R457). -/
def State.publishRec (s : State) (uid : Nat) (r : Rec) : State :=
  if !s.rolePair then s.pubOwn uid r false
  else
    let (held, s) := s.trackCtx r
    if !s.partnerShare r.source r.stream then s.pubOwn uid r false
    else if !held then s.pubOwn uid r false
    else if s.pub.lost || s.pub.back.any (fun x => x.is r) then s.pubOwn uid r true
    else s.modPub (fun p => { p with store := p.store ++ [{ uid := uid, r := r, mirror := true, takeover := false, need := [] }] })

/-- The credits withheld for a record are released (R224, R453). -/
def State.payCredits (s : State) (uid : Nat) : State :=
  let (due, rest) := s.pub.owed.partition (fun o => o.1 == uid)
  due.foldl (fun (s : State) o => s.letGo o.2.1 o.2.2.1 o.2.2.2)
    (s.modPub (fun p => { p with owed := rest }))

/-- The store has room for the next record again: the time without is counted. -/
def State.storeRoomy (s : State) : State :=
  match s.pub.fullSince with
  | some t => (s.modPub (fun p => { p with fullSince := none })).bumpSat R.PUB_STORE_FULL ((s.time.cycles - t) / 800)
  | none => s

/-- The store lacks room for the next record. -/
def State.storeFull (s : State) : State :=
  match s.pub.fullSince with
  | some _ => s
  | none => (s.modPub (fun p => { p with fullSince := some s.time.cycles })).irq 0x111 2

/-- The oldest waiting record enters the store when it has room for it; the unit's own records are coded here (R40, R453). -/
def State.storeAdmit (s : State) : State :=
  match s.link.pubQ with
  | [] => s
  | i :: rest =>
    if s.capOf 5 4 storeMax < s.storeUsed + recSize i.r then s.storeFull
    else if s.mute i.r.type then (State.payCredits { s with link := { s.link with pubQ := rest } } i.uid).fateLost i.uid 1
    else
      let s := s.storeRoomy
      let s : State := { s with link := { s.link with pubQ := rest } }
      let (r, s) := if i.r.source = s.srcId then s.codeRec i.r else (i.r, s)
      (s.publishRec i.uid r).payCredits i.uid

/-- PUBLICATION_STORE_ADMIT (R453). -/
def execPublicationStoreAdmit (s : State) : Host.Outcome State Fault Refusal := present (s.build == .t) s.storeAdmit

/-! ### Cursors (R454, R457) -/

/-- The pair lanes that carry records now. -/
def State.pairLanes (s : State) : List Nat := [16, 17].filter (fun p => (s.port p).usable)

/-- The entries of a CURSOR: the fields that R454 lists fill 16 bytes, where its text says 12 (log entry 46). -/
def cursorBytes (l : List PubCtx) : List Byte :=
  (l.map (fun x => leBytes 3 x.source ++ zeros 1 ++ leBytes 2 x.stream ++ zeros 2 ++ leBytes 4 x.f ++ leBytes 4 x.c)).flatten

/-- Send CURSOR packets of entries on the first pair lane that is up; a packet holds at most 4,095 entries (log entry 46). -/
def State.sendCursors (s : State) (l : List PubCtx) : State :=
  match s.pairLanes with
  | p :: _ => (chunksOf 4095 l).foldl (fun (s : State) x => s.sendLocal p (s.localRec 0x82 2 0 (cursorBytes x))) s
  | [] => s

/-- The contexts of the member's own share. -/
def State.ownCtxs (s : State) : List PubCtx := s.pub.ctxs.filter (fun x => !s.partnerShare x.source x.stream)

/-- CURSOR_SEND (R454): the changed entries every 10 us, or every entry once every 10 ms. -/
def State.cursorSend (s : State) (all : Bool) : State :=
  if !s.rolePair || s.pairLanes.isEmpty then s
  else if all then
    if s.after s.pub.fullAt 10000 then
      let s := s.sendCursors s.ownCtxs
      s.modPub (fun p => { p with fullAt := s.time.cycles, curAt := s.time.cycles, ctxs := p.ctxs.map (fun x => { x with changed := false }) })
    else s
  else if s.after s.pub.curAt 10 then
    let s := s.sendCursors (s.ownCtxs.filter (fun x => x.changed))
    s.modPub (fun p => { p with curAt := s.time.cycles, ctxs := p.ctxs.map (fun x => { x with changed := false }) })
  else s

def execCursorSend (all : Bool) (s : State) : Host.Outcome State Fault Refusal := present (s.build == .t) (s.cursorSend all)

/-- Take records out of the store and out of every session's waiting list, delivered. -/
def State.storeFree (s : State) (uids : List Nat) : State :=
  let s := s.modPub (fun p => { p with store := p.store.filter (fun x => !uids.contains x.uid),
                                       sess := p.sess.map (fun q => { q with todo := q.todo.filter (fun u => !uids.contains u) }) })
  uids.foldl (fun (s : State) u => s.fateDelivered u) s

/-- Publishing of a context stops: what the partner's cursor covers is freed, what lies after it is a mirror copy again (R457). -/
def State.handCtx (s : State) (x : PubCtx) (c : Nat) : State :=
  let ofCtx := s.pub.store.filter (fun y => x.is y.r && !y.mirror)
  let stay := (ofCtx.filter (fun y => laterThan y.r.seq c)).map (fun y => y.uid)
  let s := s.storeFree ((ofCtx.filter (fun y => !laterThan y.r.seq c)).map (fun y => y.uid))
  s.modPub (fun p => { p with
    store := p.store.map (fun y => if stay.contains y.uid then { y with mirror := true, takeover := false, need := [] } else y),
    sess := p.sess.map (fun q => { q with todo := q.todo.filter (fun u => !stay.contains u) }),
    back := p.back.filter (fun y => !(y.source == x.source && y.stream == x.stream)),
    ctxs := p.ctxs ++ [{ x with c := c, held := [], changed := false }] })

/-- One entry of a CURSOR of the partner. -/
def State.cursorEntry (s : State) (e : CursorEntry) : State :=
  let c := w32 e.cursor
  let mine (x : PubCtx) : Bool := x.source == e.source && x.stream == e.stream
  let gone := s.pub.store.filter (fun x => x.mirror && x.r.source == e.source && x.r.stream == e.stream && !laterThan x.r.seq c)
  let s := (gone.foldl (fun (s : State) x => s.pubLast x.r) s).storeFree (gone.map (fun x => x.uid))
  let s := s.modPub (fun p => { p with ctxs := p.ctxs.map (fun x => if mine x && s.partnerShare x.source x.stream && laterThan c x.c then { x with c := c } else x) })
  match s.pub.back.find? mine with
  | some x => if s.pub.handback && atOrLater (w32 (x.c + 1)) (w32 e.first) && atOrLater c x.c then s.handCtx x c else s
  | none => s

/-- No context of the returning share remains: TAKEOVER clears (R457). -/
def State.handDone (s : State) : State :=
  if s.pub.handback && s.pub.back.isEmpty then (s.modPub (fun p => { p with takeover := false, handback := false })).irq 0x110 4 else s

/-- A CURSOR has come on a pair lane. -/
def State.cursorIn (s : State) (l : List CursorEntry) : State :=
  if s.rolePair then (l.foldl (fun (s : State) e => s.cursorEntry e) (s.modPub (fun p => { p with cursorAt := s.time.cycles }))).handDone else s

/-- CURSOR_RECEIVED (R454, R457). -/
def execCursorReceived (entries : List CursorEntry) (s : State) : Host.Outcome State Fault Refusal :=
  present (s.build == .t) (s.cursorIn entries)

/-- The entries that a CURSOR's payload holds. -/
def parseCursors (l : List Byte) : List CursorEntry :=
  (List.range (l.length / 16)).map (fun i =>
    { source := leAt l (16 * i) 3, stream := leAt l (16 * i + 4) 2, first := leAt l (16 * i + 8) 4, cursor := leAt l (16 * i + 12) 4 })

/-! ### Switch-over (R440, R455, R456) -/

/-- The partner's source ID: the own tray with the other role (R444). -/
def State.pairPeer (s : State) : Nat := if s.rolePair && s.srcId != 0x7FFFFF then s.srcId ^^^ 1 else 0x7FFFFF

/-- A mirrored record is published by the survivor. -/
def State.takeMirror (s : State) (x : PubItem) : State :=
  (s.modPub (fun p => { p with store := p.store.filter (fun y => y.uid != x.uid) })).pubOwn x.uid x.r true

/-- The partner is lost: TAKEOVER, its alarm, and the mirrored records in their order of arrival (R455, R456). -/
def State.pairTake (s : State) : State :=
  if s.pub.lost then s
  else
    let split := s.core.peerLow
    let e := s.rd R.PAIR_EVENTS
    let st := s.stamp
    let s := s.modPub (fun p => { p with lost := true, takeover := true, handback := false, split := split, ctxs := p.ctxs ++ p.back, back := [] })
    let s := ((s.wr R.PAIR_EVENTS (setFld e 7 0 (satAdd 8 (fld e 7 0) 1))).bumpSat R.PAIR_TAKEOVERS).irq 0x110 3
    let s := (s.wr R.PAIR_LAST_TO_LO (st % 4294967296)).wr R.PAIR_LAST_TO_HI (st / 4294967296)
    let n := (s.pub.ctxs.filter (fun x => s.partnerShare x.source x.stream)).length
    let s := s.event 0x20A (bytes [b2n split, 0, 0, 0] ++ leBytes 3 s.pairPeer ++ zeros 1 ++ leBytes 4 n)
    (s.pub.store.filter (fun x => x.mirror)).foldl (fun (s : State) x => s.takeMirror x) s

/-- PAIR_LANE_SILENCE_TIMEOUT (R455): both lanes have been silent for 30 us and are declared down; with no partner present it is lost at
once. A dozing lane owes no LINK_CTL (R451). -/
def State.pairSilence (s : State) : State :=
  if s.rolePair && !s.pairLanes.isEmpty && [16, 17].all (fun p => !(s.port p).up || (!(s.port p).farDoze && !(s.port p).dozing && s.after (s.port p).rxAt 30)) then
    let s := s.linksFall [16, 17] 1 false
    if s.core.peerLow then s else s.pairTake
  else s

def execPairLaneSilenceTimeout (s : State) : Host.Outcome State Fault Refusal := present (s.build == .t) s.pairSilence

/-- PARTNER_LOST_TIMEOUT (R455): no pair lane has been UP for PAIR_LOST_WAIT, or at all while no partner is present. -/
def State.partnerLost (s : State) : State :=
  match s.pub.downAt with
  | some t => if s.rolePair && s.pairLanes.isEmpty && (!s.core.peerLow || s.after t (fld (s.rd R.PAIR_LOST_WAIT) 15 0)) then s.pairTake else s
  | none => s

def execPartnerLostTimeout (s : State) : Host.Outcome State Fault Refusal := present (s.build == .t) s.partnerLost

/-- A pair lane is reported missing, or no longer (Table 16-8, R211). -/
def State.pairMissing (s : State) (p : Nat) (missing : Bool) : State :=
  if (s.port p).missing = missing then s
  else
    let s := s.modPort p (fun q => { q with missing := missing, expected := true })
    if missing then (s.portIrq p 2).event 0x208 (bytes [p, 0, 0, 0] ++ leBytes 3 s.pairPeer) else s

/-- PEER_PRESENT# and the role strap meet (Table 16-8). -/
def State.peerCheck (s : State) : State :=
  if s.rolePair then
    let s := [16, 17].foldl (fun (s : State) p => s.pairMissing p (!s.core.peerLow)) s
    if !s.core.peerLow && s.pairLanes.isEmpty && s.pub.downAt.isSome then s.pairTake else s
  else if s.core.peerLow && !s.core.strapAlarmed && s.core.straps % 4 == 0 then
    (State.irq { s with core := { s.core with strapAlarmed := true } } 0x110 2).event 0xA01 (bytes [s.core.straps % 32, 1])
  else s

/-- PEER_PRESENCE_CHANGE (R439, R440): PEER_PRESENT# is low (a partner is present) or high. -/
def execPeerPresenceChange (low : Bool) (s : State) : Host.Outcome State Fault Refusal :=
  present (s.build == .t)
    (if s.core.peerLow = low then s else (State.irq { s with core := { s.core with peerLow := low } } 0x110 0).peerCheck)

/-! ### Sessions (R461 to R464) -/

/-- The port a session goes by: its preferred one, or the other when that one is down. -/
def State.wantPort (s : State) (e : Nat) : Nat :=
  let pref := b2n (bitOf (s.colCtrl e) 2)
  if s.ethOk pref then pref else if s.ethOk (1 - pref) then 1 - pref else (s.sess e).port

/-- The PEER flag of an entry's datagrams. -/
def State.peerFlag (s : State) (e : Nat) : Nat := if s.colPeer e then 8 else 0

/-- OPEN leaves by the entry's port; a port whose group idles is woken first. -/
def State.sendOpen (s : State) (e : Nat) : State :=
  let q := s.sess e
  let s := s.modSess e (fun q => { q with openAt := s.time.cycles })
  if !s.ethOk q.port then s
  else if !s.inRun (9 + q.port) then s.wake (9 + q.port)
  else s.ethOut 3 e none (pubHdr 3 (s.peerFlag e) 0 s.srcId q.id 1 0)

/-- An entry opens a session with a new ID and DSEQ 1 (R461). -/
def State.openSession (s : State) (e : Nat) : State :=
  let port := s.wantPort e
  let id := w32 (s.pub.sessions + 1)
  let s := s.modPub (fun p => { p with sessions := id })
  let s := s.modSess e (fun q => { q with st := 1, id := id, port := port, next := 1, ack := 0, out := [], uncounted := 0, todo := [], fragOff := 0, rto := s.pubRto,
                                          rtoAt := s.time.cycles, advAt := s.time.cycles })
  s.sendOpen e

/-- The convoy port that a peer entry stands for (R464; log entry 28). -/
def State.peerConvoy (s : State) (e : Nat) : Option Nat := if s.build == .t && s.colPeer e then some (32 + e) else none

/-- The session that stands for a neighbour's link has ended: its unacknowledged 0x40 packets go to the alternate parent, or are dropped link-down
(R51, R201, R464). -/
def State.peerFall (s : State) (e : Nat) : State :=
  match (if s.colPeer e then s.peerConvoy e else none) with
  | none => s
  | some p =>
    let items := s.pub.store.filter (fun x => x.need.contains e && x.r.type == 0x40)
    let gone (u : Nat) : Bool := items.any (fun x => x.uid == u)
    let s := s.toAlternate p
    let s := (s.modPub (fun q => { q with store := q.store.filter (fun x => !gone x.uid) })).modSess e (fun q => { q with st := 3, todo := q.todo.filter (fun u => !gone u) })
    items.foldl (fun (s : State) x => s.reroute p { uid := x.uid, r := x.r, sent := 0, pkt := 0, resent := false, coded := true, replay := false }) s

/-- An entry is disabled: its session ends, and what was held for it alone is dropped (R462). -/
def State.closeSession (s : State) (e : Nat) (tell : Bool) : State :=
  let q := s.sess e
  let s := if tell && q.st != 0 && s.ethOk q.port then s.ethOut 5 e none (pubHdr 5 (s.peerFlag e) 0 s.srcId q.id 0 0) else s
  ((s.peerFall e).modSess e (fun q => { Session.reset with port := q.port, id := q.id, resends := q.resends })).pubForget e

/-- The enables of the entries have changed from `was`: sessions open and close (R461, R462). -/
def State.colRefresh (s : State) (was : List Bool) : State :=
  (List.range 8).foldl (fun (s : State) e =>
    let old := was.getD e false
    if s.colOn e && !old then s.openSession e else if !s.colOn e && old then s.closeSession e true else s) s

/-- Resend every datagram beyond the last ACK, in order (R462). -/
def State.pubResend (s : State) (e : Nat) : State :=
  let q := s.sess e
  let s := s.modSess e (fun q => { q with resends := satAdd 16 q.resends 1, rtoAt := s.time.cycles })
  if s.ethOk q.port then
    if s.inRun (9 + q.port) then q.out.foldl (fun (s : State) d => s.ethOut 1 e (s.dgramTc d) (s.dataBytes e d)) s else s.wake (9 + q.port)
  else s

/-- A session takes the port it should use; on a move it keeps its ID and resends from ACK + 1 (R461). -/
def State.sessMove (s : State) (e : Nat) : State :=
  let q := s.sess e
  let p := s.wantPort e
  if q.st = 0 ∨ p = q.port then s
  else
    let s := s.modSess e (fun q => { q with port := p })
    if q.st = 1 then s.sendOpen e else (s.pubResend e).pump e

/-- Every session takes the port it should use. -/
def State.sessMoves (s : State) : State := (List.range 8).foldl (fun (s : State) e => (s.sessMove e).pump e) s

/-- ETH_LINK_CHANGE (R461, R468); a port that comes up detects duplicates afresh (log entry 46). -/
def execEthLinkChange (p : Nat) (up : Bool) (s : State) : Host.Outcome State Fault Refusal :=
  present (s.build == .t && decide (p < 2))
    (if s.pub.ethUp.getD p false = up then s
     else ((s.modPub (fun x => { x with ethUp := x.ethUp.set p up, dadFail := if up then x.dadFail.set p false else x.dadFail })).irq (0x111 + p) 0).sessMoves)

/-- A write of COL_CTRL of the selected entry. -/
def State.colWrite (s : State) (v : Nat) : State :=
  let e := fld (s.rd R.PUB_SEL) 2 0
  let was := (List.range 8).map (fun e => s.colOn e)
  let s := s.wr R.COL_CTRL (v &&& 0xFF07) 0 0 0 e
  (s.colRefresh was).sessMove e

/-- COLLECTOR_ENABLE (R461): a write of COL_CTRL. -/
def execCollectorEnable (a : Acc) (data : Word) (s : State) : Host.Outcome State Fault Refusal :=
  .next (s.guardedWrite a 0x111200 data.toNat false false (fun s => s.colWrite data.toNat))

/-- PUB_OPEN_RETRY (R461): 10 ms have passed without OPEN_OK. -/
def execPubOpenRetry (e : Nat) (s : State) : Host.Outcome State Fault Refusal :=
  present (s.build == .t && decide (e < 8))
    (if (s.sess e).st = 1 ∧ s.after (s.sess e).openAt 10000 then s.sendOpen e else s)

/-- A datagram of an unknown session, or a frame for no session, is discarded and counted (R458, R463). -/
def State.rxDiscard (s : State) (p : Nat) : State := s.bumpSat R.ETH_RX_DISCARD (pg := p)

/-- OPEN_OK echoes the session ID: the session is open, and sends what waits for it (R461, R462). -/
def State.openOk (s : State) (e session : Nat) : State :=
  let q := s.sess e
  if 8 ≤ e ∨ q.st = 0 ∨ session ≠ q.id then s.rxDiscard q.port
  else if q.st = 1 then
    let todo := (s.pub.store.filter (fun x => x.need.contains e)).map (fun x => x.uid)
    (s.modSess e (fun q => { q with st := 2, todo := todo, rto := s.pubRto, rtoAt := s.time.cycles, advAt := s.time.cycles })).pump e
  else s

def execOpenOk (e session : Nat) (s : State) : Host.Outcome State Fault Refusal :=
  present (s.build == .t) (s.openOk e session)

/-- An ACK of a session (R460, R462): its cumulative point rises, never past what was sent. -/
def State.ackIn (s : State) (e session ack : Nat) : State :=
  let q := s.sess e
  if 8 ≤ e ∨ q.st ≠ 2 ∨ session ≠ q.id then s.rxDiscard q.port
  else if q.ack < ack ∧ ack < q.next then (s.pubAdvance e ack).reachSettle
  else s

/-- ACK (R462). -/
def execAck (e session ack : Nat) (s : State) : Host.Outcome State Fault Refusal :=
  present (s.build == .t) (s.ackIn e session ack)

/-- CLOSE ends a session from either end: the entry is as if disabled and enabled again (R463). -/
def State.closeIn (s : State) (e session : Nat) : State :=
  let q := s.sess e
  if e < 8 ∧ s.colOn e && ((q.st != 0 && session == q.id) || (s.colPeer e && q.peerId != 0 && session == q.peerId)) then (s.closeSession e false).openSession e
  else s.rxDiscard q.port

def execClose (e session : Nat) (s : State) : Host.Outcome State Fault Refusal :=
  present (s.build == .t) (s.closeIn e session)

/-- PUB_RTO_EXPIRY (R462): the ACK has not advanced for RTO. -/
def execPubRtoExpiry (e : Nat) (s : State) : Host.Outcome State Fault Refusal :=
  present (s.build == .t && decide (e < 8))
    (let q := s.sess e
     if q.st = 2 && !q.out.isEmpty && s.after q.rtoAt q.rto then
       (s.modSess e (fun q => { q with rto := max q.rto (min 12800 (2 * q.rto)) })).pubResend e
     else s)

/-- PUB_SESSION_DEAD (R462): PUB_DEAD ms without an advance: the alarm, and a new session. -/
def execPubSessionDead (e : Nat) (s : State) : Host.Outcome State Fault Refusal :=
  present (s.build == .t && decide (e < 8))
    (let q := s.sess e
     if q.st = 2 && !q.out.isEmpty && s.after q.advAt (1000 * s.pubDead) then
       ((((s.modSess e (fun q => { q with st := 3 })).peerFall e).irq 0x111 1).event 0x20B
         (bytes [e, q.port, 0, 0] ++ leBytes 4 q.ack ++ leBytes 4 q.id)).openSession e
     else s)

/-- An OPEN of a peer Selvo-T is answered; a new session counts from DSEQ 1 (R461, R464). -/
def State.openIn (s : State) (e session src : Nat) : State :=
  if e < 8 ∧ s.colOn e && s.colPeer e && fld (s.rd R.COL_PEER_ID 0 0 0 e) 23 0 == src % 2 ^ 24 then
    let s := s.modSess e (fun q => if q.peerId = session then q else { q with peerId := session, peerAck := 0 })
    s.ethOut 4 e none (pubHdr 4 8 0 s.srcId session 0 0)
  else s.rxDiscard (s.sess e).port

/-- OPEN (R464). -/
def execOpenDgram (e session src : Nat) (s : State) : Host.Outcome State Fault Refusal :=
  present (s.build == .t) (s.openIn e session src)

/-! ### Ethernet frames (R458, R459) -/

/-- PFC_PAUSE_RECEIVED (R459): XOFF or XON of a priority on which PFC runs. -/
def State.pauseIn (s : State) (p prio : Nat) (on : Bool) : State :=
  if !bitOf (s.rd R.ETH_PFC (pg := p)) prio then s
  else
    let set (l : List Nat) : State := { s with link := { s.link with paused := s.link.paused.set p l } }
    let cur := s.link.paused.getD p []
    if on then ((set (if cur.contains prio then cur else cur ++ [prio])).bumpSat R.ETH_PAUSE_RX (pg := p)).irq (0x111 + p) 3
    else (set (cur.filter (· != prio))).pumpPort p

def execPfcPauseReceived (p prio : Nat) (on : Bool) (s : State) : Host.Outcome State Fault Refusal :=
  present (s.build == .t && decide (p < 2) && decide (prio < 8)) (s.pauseIn p prio on)

/-- The IPv6 address of a port: ETH_ADDR, the first address byte in bits [7:0] of word 0. -/
def State.ethAddr (s : State) (p : Nat) : Nat :=
  (List.range 4).foldl (fun a i => a + s.rd R.ETH_ADDR i 0 p * 2 ^ (32 * i)) 0

/-- A solicitation of the own address is answered with an advertisement; while it is another station's probe or advertisement of that
address it is a duplicate; other advertisements resolve an address (R458). -/
def State.ndIn (s : State) (p : Nat) (m : NdMsg) : State :=
  let own := s.rd R.ETH_MAC_LO (pg := p) + s.rd R.ETH_MAC_HI (pg := p) * 2 ^ 32
  let addr := s.ethAddr p
  if m.solicitation then
    if addr ≠ 0 ∧ m.target = addr then
      s.sendFrame 8 p 0 none (leBytes 16 addr ++ leBytes 6 own)
    else s
  else if addr ≠ 0 ∧ m.target = addr then
    if m.mac = own then s else s.modPub (fun x => { x with dadFail := x.dadFail.set p true })
  else s.modPub (fun x => { x with nbrs := x.nbrs.filter (fun n => !(n.1 == p && n.2.1 == m.target)) ++ [(p, m.target, m.mac)] })

/-- NEIGHBOR_DISCOVERY_MESSAGE (R458). -/
def execNeighborDiscoveryMessage (p : Nat) (msg : NdMsg) (s : State) : Host.Outcome State Fault Refusal :=
  present (s.build == .t && decide (p < 2)) (s.ndIn p msg)

/-- ICMPV6_ECHO (R458): a request is answered with its body; another ICMPv6 message is discarded and counted. -/
def execIcmpv6Echo (p : Nat) (request : Bool) (body : List Byte) (s : State) : Host.Outcome State Fault Refusal :=
  present (s.build == .t && decide (p < 2))
    (if request then s.sendFrame 9 p 0 none body else s.rxDiscard p)

/-! ### What the PAIR and ETH pages read -/

/-- Live reads of the PAIR page (Tables 16-11 and 17-6); the lanes' blocks are `portLive`. -/
def State.pairLive (s : State) (off : Nat) : Option Nat :=
  let role := if s.rolePair then s.core.straps % 4 else 0
  let ids := [16, 17].map (fun p => (s.port p).neighbour)
  if off = 0x080 then
    some (role + b2n s.core.peerLow * 4 + b2n (s.port 16).up * 8 + b2n (s.port 17).up * 16 + b2n (role == 0 && s.core.peerLow) * 32 +
      b2n (s.rolePair && ids.any (fun i => i == s.srcId && i != 0x7FFFFF)) * 64)
  else if off = 0x084 then some (match ids.find? (fun i => i != 0x7FFFFF) with
    | some i => i
    | none => 0x7FFFFF)
  else if off = 0x088 then some s.pairPeer
  else if off = 0x100 then
    some (b2n s.pub.takeover + b2n s.pub.handback * 2 + b2n s.pub.lost * 4 + b2n s.pub.split * 8 + (s.pub.ctxs.length + s.pub.back.length) * 65536)
  else if off = 0x104 then some (min ((s.time.cycles - s.pub.cursorAt) / 800) (2 ^ 32 - 1))
  else if off = 0x108 then some s.mirrorUsed
  else if off = 0x11C then some s.pub.back.length
  else none

/-- Live reads of the ETH pages (Table 17-7) for Ethernet port p. -/
def State.ethLive (s : State) (p off : Nat) : Option Nat :=
  let q := s.sess (fld (s.rd R.PUB_SEL) 2 0)
  let up := s.pub.ethUp.getD p false
  if off = 0x080 then some (b2n (s.ethOk p) + b2n up * 2 + b2n (s.pub.dadFail.getD p false) * 4)
  else if p ≠ 0 then none
  else if off = 0x10C then some s.storeUsed
  else if off = 0x218 then some (q.st + q.port % 2 * 4 + q.resends * 65536)
  else if off = 0x21C then some q.id
  else if off = 0x220 then some (q.next % 2 ^ 32)
  else if off = 0x224 then some (q.next / 2 ^ 32)
  else if off = 0x228 then some (q.ack % 2 ^ 32)
  else if off = 0x22C then some (q.ack / 2 ^ 32)
  else if off = 0x230 then some (min (q.out.length - q.uncounted) 65535)
  else none

/-- PCIE_BAR2_MAP: the pattern places visible in BAR2 (R465). -/
def State.bar2Map (s : State) : Nat := (List.range 4).foldl (fun a q => if (s.place q).st = 2 then a + 2 ^ q else a) 0

end Sys2Proof.Machine
end

