-- ==== Sys2Proof/Machine/Authority.lean ====
section
/-! DEFINITION. Identity and authority: signed requests, the OTP writer and its log, keys and the privacy floor (R23, R505 to R513). -/

namespace Sys2Proof.Machine

def State.modAuth (s : State) (f : AuthSt → AuthSt) : State := { s with auth := f s.auth }
def State.modOtp (s : State) (f : OtpSt → OtpSt) : State := s.modAuth (fun a => { a with otp := f a.otp })

/-! ### The answer to a command slot (R476, R477) -/

/-- Firmware completes the command of a slot: status and detail, and OWNER clears. -/
def State.cmdDone (s : State) (slot status detail : Nat) : State :=
  let s := s.wr R.CMD_RESULT (status + detail % 2 ^ 24 * 256) slot
  let s := (s.wr R.CMD_CTRL (s.rd R.CMD_CTRL slot / 2 * 2) slot).irq 0x007 0
  { s with fw := { s.fw with busy := s.fw.busy.filter (fun b => b.2 != slot) } }

/-- Complete the slot that waits, if one does. -/
def State.askerDone (s : State) (asker status detail : Nat) : State := if asker < 64 then s.cmdDone asker status detail else s

/-! ### Requests (R508, R509, Tables 20-3 and 20-4) -/

/-- The 64-bit serial of this die. -/
def State.serial (s : State) : Nat := s.rd R.IDENT_SERIAL_LO + s.rd R.IDENT_SERIAL_HI * 2 ^ 32

/-- A request whose form breaks Table 20-3. -/
def reqFormat (l : List Byte) : Bool :=
  let kind := leAt l 4 1
  let slotByte := leAt l 5 1
  let keyed := kind == 1 || kind == 3 || kind == 5
  l.length != 224 || leAt l 0 4 != 0x32525653 || kind == 0 || decide (6 < kind) || decide (3 < slotByte) || leAt l 6 2 != 0 || leAt l 18 2 != 0 || leAt l 24 8 != 0 ||
    (if kind = 2 then decide (2 ^ 23 ≤ leAt l 20 4) else leAt l 20 4 != 0) ||
    (if keyed then !onCurve (beNat ((l.drop 32).take 48)) (beNat ((l.drop 80).take 48)) else ((l.drop 32).take 96).any (fun b => b != 0))

/-- A slot of a list of key slots. -/
def keySlot (l : List KeySlot) (i : Nat) : KeySlot := l.getD i ⟨0, []⟩

/-- The limit of Table 20-1 is spent for a kind and slot. -/
def State.otpSpent (s : State) (kind slot : Nat) : Bool :=
  let o := s.auth.otp
  if kind = 1 then o.fa.isSome
  else if kind = 2 then decide (4 ≤ o.idWrites)
  else if kind = 3 then (keySlot o.trace slot).st != 0
  else if kind = 4 then (keySlot o.trace slot).st == 2
  else if kind = 5 then (keySlot o.model slot).st != 0
  else if kind = 6 then (keySlot o.model slot).st == 2
  else false

/-- An identity that this unit may not take (R23). -/
def badIdentity (b : Build) (v : Nat) : Bool :=
  match b with
  | .l => v % 32 == 0 || decide (24 < v % 32)
  | .h => v % 32 != 0
  | .t => decide (32767 < v / 32) || v % 32 != 0

/-- The first reason of Table 20-4 that refuses a request, 0 for none. -/
def State.reqReason (s : State) (l : List Byte) : Nat :=
  if reqFormat l then 1
  else
    let kind := leAt l 4 1
    let slot := leAt l 5 1 % 4
    let key := match s.auth.otp.fa with
      | some k => k
      | none => []
    if kind ≠ 1 ∧ s.auth.otp.fa = none then 2
    else if !ecdsaOk (if kind = 1 then (l.drop 32).take 96 else key) (l.take 128) (l.drop 128) then 3
    else if leAt l 8 8 ≠ s.serial then 4
    else if leAt l 16 2 ≠ s.auth.otp.changes then 5
    else if s.otpSpent kind slot then 6
    else if kind = 2 ∧ badIdentity s.build (leAt l 20 4) = true then 7
    else if s.drover.emerg = 2 then 8
    else 0

/-- A request is refused: nothing changes but what tells of it (R509). -/
def State.reqRefuse (s : State) (c : Change) (reason : Nat) : State :=
  let s := (s.wr R.AUTH_REQ_LAST (reason + c.kind % 16 * 16 + c.expected % 256 * 256)).irq 0x001 1
  let s := s.event 0x803 (bytes [c.kind, reason] ++ leBytes 2 c.expected ++ leBytes 4 c.serialLo)
  let s := if reason = 7 then s.logViol 0x001 0x0010C0 (violInfo 6 0 false 3 0) else s
  s.askerDone c.asker 6 reason

/-! ### The writer (R506, R507, R510 to R512) -/

/-- The writer takes the front change, unless it is at work: a signed one that meets a changed count or Emergency is refused, another
waits out Emergency. -/
def State.writerTake : Nat → State → State
  | 0, s => s
  | n + 1, s =>
    if s.auth.busy then s
    else
      match s.auth.queue with
      | [] => s
      | c :: rest =>
        if c.signed && c.expected != s.auth.otp.changes then State.writerTake n ((s.modAuth (fun a => { a with queue := rest })).reqRefuse c 5)
        else if s.drover.emerg = 2 then
          (if c.signed then State.writerTake n ((s.modAuth (fun a => { a with queue := rest })).reqRefuse c 8) else s)
        else s.modAuth (fun a => { a with busy := true })

/-- A change joins the queue of the writer. -/
def State.writerQueue (s : State) (c : Change) : State :=
  let s := s.modAuth (fun a => { a with queue := a.queue ++ [c] })
  s.writerTake s.auth.queue.length

/-- The fingerprint of a key: bytes 0 to 7 of its hash; 0 when blank (R511). -/
def keyFp (key : List Byte) : Nat := if key.isEmpty then 0 else leAt (sha384 key) 0 8

/-- The source ID that a fleet identity gives (R23). -/
def State.idOf (s : State) (v : Nat) : Nat :=
  match s.build with
  | .t => 2 ^ 23 + v / 32 % 32768 * 32 + b2n (s.core.straps % 4 == 2)
  | _ => v % 2 ^ 23

/-- The new value that the log shows (Table 20-2). -/
def Change.logValue (c : Change) : Nat :=
  if c.kind = 1 ∨ c.kind = 3 ∨ c.kind = 5 then keyFp c.key % 2 ^ 32
  else if c.kind = 4 ∨ c.kind = 6 then 0
  else c.value

/-- Change one key slot of a list. -/
def setKey (l : List KeySlot) (i : Nat) (f : KeySlot → KeySlot) : List KeySlot := modNth l i f

/-- The fuses take a change. -/
def OtpSt.apply (o : OtpSt) (c : Change) : OtpSt :=
  if c.kind = 1 then { o with fa := some c.key }
  else if c.kind = 2 then { o with identity := some c.value, idWrites := o.idWrites + 1 }
  else if c.kind = 3 then { o with trace := setKey o.trace c.slot (fun _ => ⟨1, c.key⟩) }
  else if c.kind = 4 then { o with trace := setKey o.trace c.slot (fun k => { k with st := 2 }) }
  else if c.kind = 5 then { o with model := setKey o.model c.slot (fun _ => ⟨1, c.key⟩) }
  else if c.kind = 6 then { o with model := setKey o.model c.slot (fun k => { k with st := 2 }) }
  else if c.kind = 7 then { o with floor := max o.floor c.value }
  else { o with rollback := max o.rollback c.value }

/-- A change is counted, and logged while the log has room (R507). -/
def State.otpCount (s : State) (c : Change) (void : Bool) : State :=
  s.modOtp (fun o =>
    let n := o.changes + 1
    let e : OtpLog := { kind := c.kind, slot := c.slot, void := void, count := n, value := c.logValue, hours := s.ev.hours, cycles := s.ev.pcycles }
    { o with changes := n, log := if o.log.length < 16 then o.log ++ [e] else o.log })

/-- What a committed change brings besides the fuses: a pending identity, tokens whose key is revoked, the interrupt of a raise. -/
def State.otpEffect (s : State) (c : Change) : State :=
  if c.kind = 2 then s.modAuth (fun a => { a with pendId := some (s.idOf c.value) })
  else if c.kind = 4 then s.traceKeyRevoked c.slot
  else if c.kind = 7 then s.irq 0x001 2
  else s

/-- The fuses take a change, which is counted and logged. -/
def State.otpProgram (s : State) (c : Change) : State := (s.modOtp (fun o => o.apply c)).otpCount c false

/-- The commit bit of the front change is written: bytes 0 to 7 of its log entry are the event (R507, R518). -/
def State.otpCommit (s : State) (c : Change) : State :=
  let s := s.otpProgram c
  let s := (s.irq 0x001 0).event 0x802 (bytes [c.kind, c.slot] ++ leBytes 2 s.auth.otp.changes ++ leBytes 4 c.logValue)
  let s := s.otpEffect c
  let s := if c.signed then s.wr R.AUTH_REQ_LAST (c.kind % 16 * 16 + c.expected % 256 * 256) else s
  s.askerDone c.asker 1 0

/-- The writer could not program the fuses (Table 20-4). -/
def State.otpFault (s : State) (c : Change) : State :=
  let s := (s.irq 0x001 3).event 0x804 (bytes [c.kind, c.slot] ++ leBytes 2 s.auth.otp.changes)
  if c.signed then s.reqRefuse c 9 else s

/-- OTP_CHANGE_COMMIT (R506): the change that the writer holds is programmed, or cannot be. -/
def State.otpDone (s : State) (ok : Bool) : State :=
  let s := s.writerTake s.auth.queue.length
  if !s.auth.busy then s
  else
    match s.auth.queue with
    | [] => s
    | c :: rest =>
      let s := s.modAuth (fun a => { a with queue := rest, busy := false })
      let s := if ok then s.otpCommit c else s.otpFault c
      s.writerTake s.auth.queue.length

def execOtpChangeCommit (ok : Bool) (s : State) : Host.Outcome State Fault Refusal := .next (s.otpDone ok)

/-- A signed request reaches the unit, for a command slot or over the leaf link (R508, R509). -/
def State.signedIn (s : State) (l : List Byte) (asker : Nat) : State :=
  let kind := leAt l 4 1
  let c : Change := { kind := kind, slot := if 3 ≤ kind ∧ kind ≤ 6 then leAt l 5 1 % 4 else 0, value := leAt l 20 4, key := (l.drop 32).take 96, expected := leAt l 16 2,
                      serialLo := leAt l 8 4, signed := true, asker := asker }
  let why := s.reqReason l
  if why = 0 then (s.wr R.AUTH_REQ_LAST (c.kind % 16 * 16 + c.expected % 256 * 256)).writerQueue c else s.reqRefuse c why

/-- SIGNED_REQUEST_RECEIVED (R509). -/
def execSignedRequestReceived (req : List Byte) (s : State) : Host.Outcome State Fault Refusal := .next (s.signedIn req 64)

/-! ### The privacy floor (R512, R513) -/

/-- The floor that waits for the writer, if one does. -/
def State.floorWaits (s : State) : Option Nat :=
  ((if s.auth.busy then s.auth.queue.drop 1 else s.auth.queue).find? (fun c => c.kind == 7)).map (fun c => c.value)

/-- A write of AUTH_FLOOR_RAISE that is an invalid value. -/
def State.floorBad (s : State) (v : Nat) : Bool :=
  fld v 31 16 != 0xF100 || decide (v % 8 < s.auth.otp.floor) || (match s.floorWaits with
    | some w => decide (v % 8 ≤ w)
    | none => false)

/-- The raise is queued, or replaces the one that waits. -/
def State.floorRaise (s : State) (v : Nat) : State :=
  let f := v % 8
  match s.floorWaits with
  | some _ =>
    let q := if s.auth.busy then s.auth.queue.take 1 else []
    let r := if s.auth.busy then s.auth.queue.drop 1 else s.auth.queue
    s.modAuth (fun a => { a with queue := q ++ r.map (fun c => if c.kind = 7 then { c with value := f } else c) })
  | none =>
    if f = s.auth.otp.floor then s
    else s.writerQueue { kind := 7, slot := 0, value := f, key := [], expected := 0, serialLo := 0, signed := false, asker := 64 }

/-- AUTH_FLOOR_RAISE (R513). -/
def execAuthFloorRaise (a : Acc) (data : Word) (s : State) : Host.Outcome State Fault Refusal :=
  .next (s.guardedWrite a 0x0010A4 data.toNat false (s.floorBad data.toNat) (fun s => s.floorRaise data.toNat))

/-- FLOOR_RISE_APPLY (R344, R512): the core cycle after the commit. -/
def execFloorRiseApply (s : State) : Host.Outcome State Fault Refusal :=
  .next (if s.auth.floorNow < s.auth.otp.floor then (s.modAuth (fun a => { a with floorNow := a.otp.floor })).floorRisen else s)

/-! ### What the IDENT and AUTH pages read (Tables 20-8 and 20-9) -/

/-- Live reads of the IDENT page. -/
def State.identLive (s : State) (off : Nat) : Option Nat :=
  if off = 0x090 then some (match s.auth.otp.identity with
    | some v => v % 2 ^ 23 + 2 ^ 31
    | none => 0x7FFFFF)
  else if off = 0x094 then some s.srcId
  else if off = 0x098 then some s.auth.otp.idWrites
  else if off = 0x09C then some (match s.auth.pendId with
    | some v => v + 2 ^ 31
    | none => 0)
  else none

/-- Two bits per key slot. -/
def slotBits (l : List KeySlot) : Nat := (List.range 4).foldl (fun a q => a + (keySlot l q).st * 4 ^ q) 0

/-- The bytes of a log entry (Table 20-2). -/
def OtpLog.bytes16 (e : OtpLog) : List Byte :=
  bytes [e.kind, e.slot % 4 + b2n e.void * 128] ++ leBytes 2 e.count ++ leBytes 4 e.value ++ leBytes 4 e.hours ++ leBytes 3 e.cycles ++ zeros 1

/-- Live reads of the AUTH page. -/
def State.authLive (s : State) (off : Nat) : Option Nat :=
  let o := s.auth.otp
  let fa := match o.fa with
    | some k => keyFp k
    | none => 0
  let sel := s.rd R.AUTH_KEY_SEL
  let fp := keyFp (keySlot (if bitOf sel 2 then o.trace else o.model) (sel % 4)).key
  if off = 0x080 then some (b2n o.fa.isSome)
  else if off = 0x084 then some (fa % 2 ^ 32)
  else if off = 0x088 then some (fa / 2 ^ 32)
  else if off = 0x08C then some (slotBits o.model)
  else if off = 0x090 then some (slotBits o.trace)
  else if off = 0x098 then some (fp % 2 ^ 32)
  else if off = 0x09C then some (fp / 2 ^ 32)
  else if off = 0x0A0 then some s.auth.floorNow
  else if off = 0x0A8 then some (o.changes % 256)
  else if 0x0B0 ≤ off ∧ off < 0x0C0 then
    some (match o.log[fld (s.rd R.AUTH_LOG_SEL) 3 0]? with
      | some e => leAt e.bytes16 (off - 0x0B0) 4
      | none => 0)
  else if off = 0x0C4 then
    some (match s.floorWaits with
      | some f => b2n s.auth.busy + 2 + f * 4
      | none => b2n s.auth.busy)
  else none

end Sys2Proof.Machine
end

