-- ==== Sys2Proof/Machine/Recorder.lean ====
section
/-! DEFINITION. The flash ring of the event recorder, the operating hours, and what the EVREC and FLASH pages read (R491, R495, R503, R504). -/

namespace Sys2Proof.Machine

/-- Sectors of the ring, and slots of a sector (R503). -/
def ringSectors : Nat := 8192
def sectorSlots : Nat := 128

/-- The image that runs serves flash: no ROM, no recovery, no blackout (R483, R503). -/
def State.fwServes (s : State) : Bool := s.fw.st == 1 && s.fw.blackout.isNone && s.inRun 5

/-- A record of the ring's sector header (Table 19-3). -/
def State.sectorHeader (s : State) : EvRec :=
  { seq := 0, sev := 0, code := 6, hours := s.ev.hours, cycles := s.ev.pcycles, suppr := 0, stamp := s.stamp,
    payload := padTo 12 (leBytes 4 s.ev.ringLap ++ leBytes 2 s.ev.ringSector) }

/-- One slot of the ring is written; a sector that fills gives way to the next, and one more is erased ahead. -/
def State.ringPut (s : State) (e : EvRec) : State :=
  let n := s.ev.ringSlot + 1
  let full := n = sectorSlots
  let sec := if full then (s.ev.ringSector + 1) % ringSectors else s.ev.ringSector
  let lap := if full ∧ sec = 0 then w32 (s.ev.ringLap + 1) else s.ev.ringLap
  let ahead := max 1 (fld (s.rd R.EVR_FL_ERASE_AHEAD) 7 0)
  let slot := if full then 0 else n
  let keep := (ringSectors - 1 - ahead) * sectorSlots + slot
  let s : State := { s with ev := { s.ev with ring := (e :: s.ev.ring).take keep, ringSector := sec, ringSlot := slot, ringLap := lap } }
  if full then s.bumpSat R.FL_ERASES else s

/-- The oldest record that waits for flash is copied, its sector's header before it; its store slot then counts as forwarded. -/
def State.flashCopy (s : State) : State :=
  if !s.fwServes then s
  else
    match s.ev.flashQ with
    | [] => s
    | e :: rest =>
      let s := if s.ev.ringSlot = 0 then s.ringPut s.sectorHeader else s
      let s := s.ringPut e
      State.lossRecord { s with ev := { s.ev with flashQ := rest, store := s.ev.store.map (fun x => if x.flash && x.ev == e then { x with flash := false } else x) } }

/-- EVENT_FLASH_COPY (R503). -/
def execEventFlashCopy (s : State) : Host.Outcome State Fault Refusal := present (s.build == .t) s.flashCopy

/-- OPERATING_HOURS_ADVANCE (R495). -/
def execOperatingHoursAdvance (s : State) : Host.Outcome State Fault Refusal :=
  .next (if s.core.por then s else { s with ev := { s.ev with hours := min (s.ev.hours + 1) (2 ^ 32 - 1) } })

/-- A word of a record, 0 where there is none. -/
def evWord (e : Option EvRec) (w : Nat) : Nat :=
  match e with
  | some e => leAt (evBytes e) (4 * w) 4
  | none => 0

/-- Live reads of the EVREC page (Table 19-4). -/
def State.evLive (s : State) (off : Nat) : Option Nat :=
  let code := fld (s.rd R.EVR_CODE_SEL) 11 0
  if off = 0x088 then some s.ev.seq
  else if off = 0x08C then some (s.ev.store.length + (s.ev.store.filter (fun x => !x.forwarded || x.flash)).length * 65536)
  else if off = 0x098 then some s.ev.hours
  else if off = 0x09C then some s.ev.pcycles
  else if off = 0x0A8 then
    some (match codeInfo code with
      | some (sev, alarm, noCoal, builds) => if builds.testBit (buildBit s.build) then sev + 8 * b2n alarm + 16 * b2n noCoal else 32
      | none => 32)
  else if off = 0x0B0 then some (min (assocD 0 code s.ev.suppr) 65535)
  else if off = 0x0B4 then some (s.bucketNow code / token % 65536)
  else if 0x100 ≤ off ∧ off < 0x120 then some (evWord ((s.ev.store[fld (s.rd R.EVR_RD_SEL) 7 0]?).map (fun x => x.ev)) ((off - 0x100) / 4))
  else if s.build ≠ .t then none
  else if off = 0x200 then some (s.ev.ringSector + s.ev.ringSlot * 8192)
  else if off = 0x204 then some s.ev.ringLap
  else if off = 0x214 then some (min s.ev.flashQ.length 511)
  else if 0x220 ≤ off ∧ off < 0x240 then some (evWord (s.ev.ring[fld (s.rd R.EVR_FL_SEL) 19 0]?) ((off - 0x220) / 4))
  else none

/-- FL_STATUS (Table 18-9): the boot device is the one the strap names. -/
def State.flashLive (s : State) (off : Nat) : Option Nat :=
  if off = 0x080 then
    let boot := b2n (bitOf s.core.straps 4)
    some ((if bitOf s.fw.devs 0 then 2 ^ boot else 0) + (if bitOf s.fw.devs 1 then 2 ^ (1 - boot) else 0) + boot * 4 + b2n s.fw.copyOk * 8)
  else none

end Sys2Proof.Machine
end

