-- ==== Sys2Proof/Machine/Firmware.lean ====
section
/-! DEFINITION. Firmware and the host driver: boot and images, command slots, the data store, heartbeats and unattended mode
(R471 to R490). -/

namespace Sys2Proof.Machine

def State.modFw (s : State) (f : FwSt → FwSt) : State := { s with fw := f s.fw }

/-! ### Images (R471 to R475, R482) -/

def State.region (s : State) (i : Nat) : Region := s.fw.regions.getD i Region.blank
def State.modRegion (s : State) (i : Nat) (f : Region → Region) : State := s.modFw (fun x => { x with regions := modNth x.regions i f })

/-- Flash that has not been written reads 0xFF. -/
def erased : Byte := 0xFF

/-- The bytes of a region, and a little-endian field of its header (Table 18-2). -/
def Region.bytesAt (r : Region) (off n : Nat) : List Byte := memRead erased r.mem off n
def Region.field (r : Region) (off n : Nat) : Nat := leAt (r.bytesAt off n) 0 n

/-- An image is at most 16 MiB less its trailer's 4 KiB. -/
def imageMax : Nat := 16777216 - 4096

/-- The build bit of byte 6 (Table 18-2). -/
def imageBuild : Build → Nat
  | .l => 0
  | .h => 1
  | .t => 2

/-- Verify the image of a region: 0, or the reason 1 format, 2 build, 3 rollback, 4 hash, 5 signature (R473, R482). -/
def State.verifyImage (s : State) (r : Region) : Nat :=
  let len := r.field 16 4
  if r.field 0 4 ≠ 0x32465653 ∨ r.field 4 2 ≠ 1 ∨ 64 < r.field 7 1 ∨ imageMax < 128 + len + 96 then 1
  else if !bitOf (r.field 6 1) (imageBuild s.build) then 2
  else if r.field 7 1 < s.auth.otp.rollback then 3
  else if sha384 (r.bytesAt 128 len) ≠ r.bytesAt 20 48 then 4
  else if !ecdsaOk Config.firmwareKey (r.bytesAt 0 128) (r.bytesAt (128 + len) 96) then 5
  else 0

/-- A region that holds the image in use: ACTIVE or TRIAL. -/
def Region.inUse (r : Region) : Bool := r.st == 2 || r.st == 5

/-- The region of the boot device that IMG_STAGE and IMG_COMMIT work on: the one neither ACTIVE nor TRIAL (R482). -/
def State.stageRegion (s : State) : Nat :=
  if (s.region 0).inUse then 1 else if (s.region 1).inUse then 0 else if s.fw.st = 1 ∧ s.fw.region = 0 then 1 else 0

/-! ### Slots (R476 to R478) -/

/-- Firmware, or the ROM in recovery, serves slots now: MGMT runs and no blackout holds. -/
def State.fwTicks (s : State) : Bool := s.fw.st != 0 && s.fw.blackout.isNone && s.inRun 5

/-- A slot is dirty, and its bit clears. -/
def State.dirty (s : State) (k : Nat) : Bool := bitOf (s.rd (if k < 32 then R.FW_DIRTY_LO else R.FW_DIRTY_HI)) (k % 32)
def State.setDirty (s : State) (k : Nat) (b : Bool) : State :=
  let r := if k < 32 then R.FW_DIRTY_LO else R.FW_DIRTY_HI
  s.wr r (setBitTo (s.rd r) (k % 32) b)

def State.slotOwned (s : State) (k : Nat) : Bool := bitOf (s.rd R.CMD_CTRL k) 0
def State.cmdArg (s : State) (k i : Nat) : Nat := s.rd R.CMD_ARG k i

/-- The length of an opcode's arguments (Table 18-3). -/
def opLen (op : Nat) : Option Nat :=
  if op = 1 then some 8 else if op = 2 then some 12 else if op = 3 then some 4 else if op = 4 then some 4
  else if op = 5 then some 20 else if op = 6 then some 8 else if op = 7 then some 4 else none

/-- A write of a slot's CMD_CTRL: OWNER = 1 hands it to firmware. -/
def State.slotSubmit (s : State) (k v : Nat) : State :=
  let s := s.wr R.CMD_CTRL (v &&& 0xFFFFFF01) k
  if bitOf v 0 then s.setDirty k true else s

/-- COMMAND_SLOT_SUBMIT (R476): a write of CMD_CTRL; locked against the host driver while firmware owns the slot. -/
def execCommandSlotSubmit (a : Acc) (slot : Nat) (data : Word) (s : State) : Host.Outcome State Fault Refusal :=
  .next
    (s.guardedWrite a (regOf (decide (slot < 64)) (0x007200 + 0x30 * slot)) data.toNat (s.slotOwned slot && a.cls == .host) false (fun s => s.slotSubmit slot data.toNat))

/-- Firmware takes a dirty slot: it completes at once what it will not run, and starts the rest (R474, R477, R487). -/
def State.cmdTake (s : State) (k : Nat) : State :=
  let s := (s.setDirty k false).wr R.CMD_RESULT 0 k
  let c := s.rd R.CMD_CTRL k
  let op := fld c 15 8
  let len := fld c 31 16
  if s.fw.st = 2 ∧ (op < 2 ∨ 4 < op) then s.cmdDone k 10 0
  else if len = 0 then s.cmdDone k 1 0
  else
    match opLen op with
    | none => s.cmdDone k 2 0
    | some n =>
      if len ≠ n then s.cmdDone k 3 0
      else if s.fw.busy.any (fun b => b.1 == op) then s.cmdDone k 5 0
      else if s.core.unattended && (op == 1 || op == 5) then
        State.cmdDone (s.wr R.FW_UA_REFUSED (setFld (s.rd R.FW_UA_REFUSED) 31 24 (satAdd 8 (fld (s.rd R.FW_UA_REFUSED) 31 24) 1))) k 7 0
      else
        match (List.range 9).find? (fun i => decide (n / 4 ≤ i) && s.cmdArg k i != 0) with
        | some i => s.cmdDone k 4 i
        | none => s.modFw (fun x => { x with busy := x.busy ++ [(op, k)] })

/-- The slot of the running command of an opcode. -/
def State.slotOf (s : State) (op : Nat) : Option Nat := (s.fw.busy.find? (fun b => b.1 == op)).map (fun b => b.2)

/-- A BULK_SEND whose last chunk every direct input has acknowledged completes (R481). -/
def State.bulkCheck (s : State) : State :=
  match s.slotOf 5 with
  | some k =>
    if s.fw.bulk.isEmpty || s.fw.bulk.any (fun u => s.link.pend.any (fun p => p.uid == u)) then s
    else (s.modFw (fun x => { x with bulk := [] })).cmdDone k 1 0
  | none => s

/-- A deferral shows its seconds (Table 18-4). -/
def State.deferShow (s : State) : State :=
  match s.fw.defer, s.slotOf 4 with
  | some t, some k => s.wr R.CMD_RESULT (11 + (s.time.cycles - t) / 800000000 * 256) k
  | _, _ => s

/-- A tick of firmware (R477). -/
def State.fwTick (s : State) : State :=
  if !s.fwTicks then s
  else
    let s := ((s.modFw (fun x => { x with tickAt := s.time.cycles })).bulkCheck).deferShow
    (List.range 64).foldl (fun (s : State) k => if s.dirty k then s.cmdTake k else s) s

/-- FIRMWARE_TICK (R477). -/
def execFirmwareTick (s : State) : Host.Outcome State Fault Refusal := present (s.build != .l) s.fwTick

/-- Bytes of the data store. -/
def State.storeSize (s : State) : Nat := s.rd R.FW_DATA_SIZE

/-- The range of an argument pair leaves the store: the index of the argument at fault (R478). -/
def State.badRange (s : State) (k : Nat) : Option Nat :=
  if s.storeSize < s.cmdArg k 0 then some 0 else if s.storeSize < s.cmdArg k 0 + s.cmdArg k 1 then some 1 else none

/-- The bytes that a slot's arguments name. -/
def State.cmdData (s : State) (k : Nat) : List Byte := memRead 0 s.fw.data (s.cmdArg k 0) (s.cmdArg k 1)

/-- Run a command that was taken: firmware serves, and the slot holds a running command of the opcode. -/
def State.cmdRun (s : State) (op k : Nat) (run : State → State) : State :=
  if s.fwTicks && s.fw.busy.contains (op, k) then run s else s

/-! ### Plans and packages (R480, R481) -/

/-- PLAN_LOAD: the part is read, judged and distributed. -/
def State.planLoad (s : State) (k : Nat) : State :=
  match s.badRange k with
  | some i => s.cmdDone k 4 i
  | none =>
    match parsePlan s.build s.srcId (s.cmdData k) with
    | none => s.cmdDone k 4 1
    | some p =>
      let (why, s) := s.takePlan p
      if why = 0 then s.cmdDone k 1 0 else s.cmdDone k 6 why

def execPlanLoad (slot : Nat) (s : State) : Host.Outcome State Fault Refusal :=
  present (s.build != .l && decide (slot < 64)) (s.cmdRun 1 slot (fun s => s.planLoad slot))

/-- The payload of one chunk: package offset, slot or place and LAST, and at most 4,096 bytes (R286, R333, R481). -/
def chunkBytes (off place : Nat) (last : Bool) (b : List Byte) : List Byte := leBytes 4 off ++ bytes [place + b2n last * 4] ++ zeros 3 ++ b

/-- The ports that a scope reaches: the leaves, or the inputs of the tree stream. -/
def State.scopePorts (s : State) (scope tree : Nat) : List Nat :=
  if scope = 1 then (if s.build = .h then (List.range 24).map (· + 40) else []).filter (fun p => (s.port p).usable && !(s.port p).quar)
  else if scope = 2 then s.treeInputs tree
  else []

/-- One chunk leaves: to this unit's own loader, and to each port under a name of its own. -/
def State.chunkSend (s : State) (ports : List Nat) (r : Rec) : State :=
  let own := s.takesModel r || s.takesPattern r
  let s := if ports.isEmpty && !own then s.dropped r.stream 1
    else ports.zipIdx.foldl (fun (s : State) p => s.sendPort p.1 r (p.2 == 0 && !own)) s
  if s.takesModel r then s.modelChunk 0 0 r else if s.takesPattern r then s.patChunk 0 0 r else s

/-- BULK_SEND: the bytes leave as chunks of at most 4,096. -/
def State.bulkSend (s : State) (k : Nat) : State :=
  let a2 := s.cmdArg k 2
  let a3 := s.cmdArg k 3
  let type := a2 % 256
  match s.badRange k with
  | some i => s.cmdDone k 4 i
  | none =>
    if type ≠ 0x50 ∧ type ≠ 0x51 then s.cmdDone k 4 2
    else if a3 % 4 = 3 then s.cmdDone k 4 3
    else
      let parts := chunksOf 4096 (s.cmdData k)
      let ports := s.scopePorts (a3 % 4) (fld a3 31 16)
      let (s, first) := parts.zipIdx.foldl (fun (acc : State × Nat) p =>
        let s := acc.1
        let last := bitOf a3 2 && p.2 + 1 == parts.length
        let (r, s) := s.originate type 7 (fld a2 31 16) (chunkBytes (s.cmdArg k 4 + 4096 * p.2) (fld a2 9 8) last p.1)
        (s.chunkSend ports r, s.link.nextUid)) (s, s.link.nextUid)
      let wait := (List.range (s.link.nextUid - first)).map (· + first)
      if parts.isEmpty || wait.isEmpty then s.cmdDone k 1 0 else s.modFw (fun x => { x with bulk := wait })

def execBulkSend (slot : Nat) (s : State) : Host.Outcome State Fault Refusal :=
  present (s.build != .l && decide (slot < 64)) (s.cmdRun 5 slot (fun s => if s.fw.bulk.isEmpty then s.bulkSend slot else s))

/-- SIGNED_REQ (R508): to this unit, or to the leaf whose serial it names. Which leaf has a serial, and what it answers, the spec does not
show at the Selvo-H: free values. -/
def State.signedReq (s : State) (k : Nat) : State :=
  match s.badRange k with
  | some i => s.cmdDone k 4 i
  | none =>
    let l := s.cmdData k
    if s.build = .h ∧ l.length = 224 ∧ leAt l 8 8 ≠ s.serial then
      let (f, s) := s.draw
      let p := 39 + f % 25
      if f % 25 = 0 ∨ !(s.port p).usable then s.signedIn l k
      else
        let s := s.sendLocal p (s.localRec 0x83 2 0 l)
        let (g, s) := s.draw
        if g % 10 = 0 then s.cmdDone k 1 0 else s.cmdDone k 6 (g % 10)
    else s.signedIn l k

def execSignedReq (slot : Nat) (s : State) : Host.Outcome State Fault Refusal :=
  present (s.build != .l && decide (slot < 64))
    (s.cmdRun 6 slot (fun s => if s.auth.queue.any (fun c => c.asker == slot) then s else s.signedReq slot))

/-- ABORT (Table 18-3): a deferred IMG_ACTIVATE or a BULK_SEND is withdrawn. -/
def State.abortSlot (s : State) (k : Nat) : State :=
  let t := s.cmdArg k 0
  if s.fw.busy.contains (4, t) && s.fw.defer.isSome then ((s.modFw (fun x => { x with defer := none })).cmdDone t 8 0).cmdDone k 1 0
  else if s.fw.busy.contains (5, t) then ((s.modFw (fun x => { x with bulk := [] })).cmdDone t 8 0).cmdDone k 1 0
  else s.cmdDone k 4 0

def execAbortCmd (slot : Nat) (s : State) : Host.Outcome State Fault Refusal :=
  present (s.build != .l && decide (slot < 64)) (s.cmdRun 7 slot (fun s => s.abortSlot slot))

/-! ### Staging and activation (R482 to R485) -/

/-- IMG_STAGE: bytes of the data store are written into the region at rest, which is EMPTY from its first write. -/
def State.imgStage (s : State) (k : Nat) : State :=
  match s.badRange k with
  | some i => s.cmdDone k 4 i
  | none =>
    if imageMax < s.cmdArg k 2 + s.cmdArg k 1 then s.cmdDone k 4 2
    else
      let l := s.cmdData k
      (s.modRegion s.stageRegion (fun r => { r with st := 0, attempt := 0, mem := memWrite erased (s.cmdArg k 2) l r.mem })).cmdDone k 1 0

def execImgStage (slot : Nat) (s : State) : Host.Outcome State Fault Refusal :=
  present (s.build != .l && decide (slot < 64)) (s.cmdRun 2 slot (fun s => s.imgStage slot))

/-- IMG_COMMIT: the staged region is verified, its version compared, and it is STAGED. -/
def State.imgCommit (s : State) (k : Nat) : State :=
  let i := s.stageRegion
  let r := s.region i
  let why := s.verifyImage r
  if why ≠ 0 then s.cmdDone k 6 why
  else if r.field 8 4 ≠ s.cmdArg k 0 then s.cmdDone k 6 6
  else (s.modRegion i (fun r => { r with st := 1, attempt := 0 })).cmdDone k 1 0

def execImgCommit (slot : Nat) (s : State) : Host.Outcome State Fault Refusal :=
  present (s.build != .l && decide (slot < 64)) (s.cmdRun 3 slot (fun s => s.imgCommit slot))

/-- The STAGED region of a version. -/
def State.stagedOf (s : State) (version : Nat) : Option Nat :=
  [0, 1].find? (fun i => (s.region i).st == 1 && (s.region i).field 8 4 == version)

/-- Steps 1 to 3 of Table 18-6: the old region is RETIRED, the new one TRIAL with its attempt begun, and the blackout begins. -/
def State.actStart (s : State) (i : Nat) : State :=
  let old := s.region s.fw.region
  let ver := if s.fw.st = 1 then old.field 14 2 else 0
  let s := if s.fw.st = 1 then s.modRegion s.fw.region (fun r => { r with st := 3, attempt := 0 }) else s
  let s := s.modRegion i (fun r => { r with st := 5, attempt := 1 })
  (s.modFw (fun x => { x with defer := none, blackout := some s.time.cycles, handVer := ver, region := i })).asmAbandon

/-- IMG_ACTIVATE: deferred in Emergency, else the activation begins. -/
def State.imgActivate (s : State) (k : Nat) : State :=
  match s.stagedOf (s.cmdArg k 0) with
  | none => s.cmdDone k 6 6
  | some i =>
    if s.drover.emerg = 2 then
      (State.wr (s.modFw (fun x => { x with defer := some s.time.cycles })) R.CMD_RESULT 11 k).irq 0x007 5
    else s.actStart i

def execImgActivate (slot : Nat) (s : State) : Host.Outcome State Fault Refusal :=
  present (s.build != .l && decide (slot < 64)) (s.cmdRun 4 slot (fun s => if s.fw.defer.isSome then s else s.imgActivate slot))

/-- ACTIVATION_RESUME (R484): at a tick, Normal for 1 s without a break; a region that is no longer STAGED ends the command. -/
def State.actResume (s : State) : State :=
  match s.fw.defer, s.slotOf 4 with
  | some _, some k =>
    if s.fwTicks && s.drover.emerg == 0 && s.after s.drover.clearAt 1000000 then
      match s.stagedOf (s.cmdArg k 0) with
      | some i => s.actStart i
      | none => (s.modFw (fun x => { x with defer := none })).cmdDone k 6 6
    else s
  | _, _ => s

def execActivationResume (s : State) : Host.Outcome State Fault Refusal := present (s.build != .l) s.actResume

/-- A deferral is abandoned for a cause of code 0x712 (R484). -/
def State.actAbandon (s : State) (cause : Nat) : State :=
  match s.fw.defer, s.slotOf 4 with
  | some _, some k =>
    (((s.modFw (fun x => { x with defer := none })).cmdDone k 9 0).irq 0x007 5).event 0x712 (leBytes 4 (s.cmdArg k 0) ++ bytes [cause])
  | _, _ => s

/-- ACTIVATION_ABANDON_TIMEOUT (R484): the deferral has lasted 60 s. -/
def execActivationAbandonTimeout (s : State) : Host.Outcome State Fault Refusal :=
  present (s.build != .l)
    (match s.fw.defer with
     | some t => if s.after t 60000000 then s.actAbandon 0 else s
     | none => s)

/-- Chunks that waited for forwarding go on (R483). -/
def State.heldForward (s : State) : State :=
  let l := s.fw.held
  l.foldl (fun (s : State) x => s.bulkOn (s.bulkPorts x.1) x.2.1 x.2.2) (s.modFw (fun x => { x with held := [] }))

/-- Every slot that firmware owns but one completes ABORTED: a cold hand-off (R483). -/
def State.abortOwned (s : State) (but status : Nat) : State :=
  (List.range 64).foldl (fun (s : State) j => if j != but && s.slotOwned j then (s.setDirty j false).cmdDone j status 0 else s)
    (s.modFw (fun x => { x with bulk := [] }))

/-- ACTIVATION_BLACKOUT_END (R483): the first tick of the new image. -/
def State.blackoutEnd (s : State) : State :=
  match s.fw.blackout with
  | none => s
  | some t =>
    let r := s.region s.fw.region
    let cold := s.fw.handVer < r.field 12 2 ∨ r.field 14 2 < s.fw.handVer
    let k := (s.slotOf 4).getD 64
    let s := (s.modFw (fun x => { x with blackout := none, st := 1, handCold := decide cold, tickAt := s.time.cycles, startAt := s.time.cycles })).wr
      R.FW_BLACKOUT_US ((s.time.cycles - t) / 800)
    let s := if cold then s.abortOwned k 8 else s
    let s := (s.askerDone k 1 0).irq 0x007 4
    s.heldForward

def execActivationBlackoutEnd (s : State) : Host.Outcome State Fault Refusal := present (s.build != .l) s.blackoutEnd

/-- The second device takes a copy of both regions. -/
def State.copyRegions (s : State) : State := s.modFw (fun x => { x with regions := x.regions.take 2 ++ x.regions.take 2, copyOk := true })

/-- TRIAL_CONFIRM (R475, R485): the region is ACTIVE, a second device takes both regions, and the rollback counter follows. -/
def State.trialConfirm (s : State) : State :=
  let i := s.fw.region
  if s.fw.st = 1 && s.fw.blackout.isNone && (s.region i).st == 5 && s.after s.fw.startAt 60000000 then
    let s := s.modRegion i (fun r => { r with st := 2, attempt := 0 })
    let s := if bitOf s.fw.devs 1 then s.copyRegions else s
    let idx := (s.region i).field 7 1
    if s.auth.otp.rollback < idx then
      s.writerQueue { kind := 8, slot := 0, value := idx, key := [], expected := 0, serialLo := 0, signed := false, asker := 64 }
    else s
  else s

def execTrialConfirm (s : State) : Host.Outcome State Fault Refusal := present (s.build != .l) s.trialConfirm

/-- MANAGEMENT_WATCHDOG_EXPIRY (R485): 100 ms without a tick outside a blackout; the management cores return to the ROM. -/
def execManagementWatchdogExpiry (s : State) : Host.Outcome State Fault Refusal :=
  present (s.build != .l)
    (if s.fw.st = 1 && s.fw.blackout.isNone && s.inRun 5 && s.after s.fw.tickAt 100000 then
       (((s.modFw (fun x => { x with st := 0, defer := none })).bumpSat R.FW_WDOG_EXP).irq 0x007 6).asmAbandon
     else s)

/-! ### Boot (R473, R474) -/

/-- Try regions in order: a failed one is marked; the first that verifies is answered. -/
def State.romTry : List Nat → State → Option Nat × State
  | [], s => (none, s)
  | i :: r, s => if s.verifyImage (s.region i) = 0 then (some i, s) else State.romTry r (s.modRegion i (fun x => { x with st := 4 }))

/-- Steps 1 to 3 of R473 on the regions b and b + 1 of one device; the regions tried. -/
def State.romDevice (s : State) (b : Nat) : List Nat × Option Nat × State :=
  let s := [b, b + 1].foldl (fun (s : State) i => if (s.region i).st = 5 ∧ (s.region i).attempt = 1 then s.modRegion i (fun r => { r with st := 4 }) else s) s
  let order := [b, b + 1].filter (fun i => (s.region i).inUse) ++ [b, b + 1].filter (fun i => (s.region i).st == 3)
  let (x, s) := State.romTry order s
  (order, x, s)

/-- A TRIAL region that starts is marked attempted. -/
def State.markAttempt (s : State) (i : Nat) : State := s.modRegion i (fun r => if r.st = 5 then { r with attempt := 1 } else r)

/-- The ROM starts a verified image; commands of a run before end ABORTED, and chunks that still wait for forwarding go on. -/
def State.romStart (s : State) (i : Nat) : State :=
  let s := s.markAttempt i
  let owned := s.fw.busy
  let s := s.modFw (fun x => { x with st := 1, region := i, handCold := false, tickAt := s.time.cycles, startAt := s.time.cycles, bulk := [] })
  let s := owned.foldl (fun (s : State) b => s.cmdDone b.2 8 0) s
  (if 2 ≤ i ∧ s.build = .t then s.irq 0x114 1 else s).heldForward

/-- No image verifies: recovery, and its alarm (R474). -/
def State.romFail (s : State) (tried : Nat) : State :=
  let owned := s.fw.busy
  let s := s.modFw (fun x => { x with st := 2, bulk := [] })
  (owned.foldl (fun (s : State) b => s.cmdDone b.2 10 0) s).event 0x701 (bytes [tried])

/-- The ROM turns to the second flash device, if there is one. -/
def State.romSecond (s : State) (bits : Nat) : State :=
  if bitOf s.fw.devs 1 then
    let (_, y, s) := s.romDevice 2
    match y with
    | some i => s.romStart i
    | none => s.romFail (bits + 4)
  else s.romFail bits

/-- The ROM shows the flash devices that it finds: identification, and size of at least 128 MiB (R471, Table 18-9). -/
def State.romDevices (s : State) : State :=
  if s.build != .t then s
  else
    let boot := b2n (bitOf s.core.straps 4)
    [0, 1].foldl (fun (s : State) i =>
      let n := if i = 0 then boot else 1 - boot
      if bitOf s.fw.devs i then
        (s.wr (if n = 0 then R.FL_DEV_ID0 else R.FL_DEV_ID1) (Config.flashId n % 2 ^ 32)).wr R.FL_SIZE
          (setFld (s.rd R.FL_SIZE) (8 * n + 7) (8 * n) (max 27 (Config.flashLog2 n % 256)))
      else s) s

/-- ROM_BOOT: the ROM runs at a release of the management cores. -/
def State.romBoot (s : State) : State :=
  if s.fw.st ≠ 0 ∨ !s.inRun 5 ∨ s.core.por ∨ s.core.warm then s
  else
    let (t1, x, s) := s.romDevices.romDevice 0
    let bits := (if t1.contains 0 then 1 else 0) + (if t1.contains 1 then 2 else 0)
    match x with
    | some i => s.romStart i
    | none => s.romSecond bits

def execRomBoot (s : State) : Host.Outcome State Fault Refusal := present (s.build != .l) s.romBoot

/-! ### The data store (R478) -/

/-- An access of FW_DATA moves the address on by 4; a byte beyond the store reads a free value and takes no write. -/
def State.dataNext (s : State) : Nat × State :=
  let at_ := s.rd R.FW_DATA_ADDR / 4 * 4
  (at_, s.wr R.FW_DATA_ADDR ((at_ + 4) % 2 ^ 20))

def State.dataRead (s : State) : Nat × State :=
  let (at_, s) := s.dataNext
  if at_ + 4 ≤ s.storeSize then (leAt (memRead 0 s.fw.data at_ 4) 0 4, s)
  else
    let (f, s) := s.draw
    (f % 2 ^ 32, s)

def State.dataWrite (s : State) (v : Nat) : State :=
  let (at_, s) := s.dataNext
  if at_ + 4 ≤ s.storeSize then s.modFw (fun x => { x with data := memWrite 0 at_ (leBytes 4 v) x.data }) else s

/-- FW_DATA_ACCESS (R478). -/
def execFwDataAccess (a : Acc) (write : Bool) (data : Word) (s : State) : Host.Outcome State Fault Refusal :=
  .next (if write then s.guardedWrite a 0x0070B4 data.toNat false false (fun s => s.dataWrite data.toNat) else s.guardedRead a 0x0070B4 State.dataRead)

/-! ### Heartbeat and unattended mode (R486 to R488) -/

/-- Selvo-H tells its leaves its mode. -/
def State.modeNotify (s : State) : State :=
  if s.build = .h then
    (List.range 24).foldl (fun (s : State) i => s.sendLocal (40 + i) (s.localRec 0x81 2 0 (bytes [b2n s.core.unattended]))) s
  else s

/-- Unattended mode is entered. -/
def State.uaEnter (s : State) : State :=
  let st := s.stamp
  let s : State := { s with core := { s.core with unattended := true }, fw := { s.fw with uaAt := s.now } }
  if s.build = .l then s
  else
    let s := if s.rd R.FW_UA_INTERVALS = 0 then (s.wr R.FW_UA_START_LO (st % 2 ^ 32)).wr R.FW_UA_START_HI (st / 2 ^ 32) else s
    let s := (((s.wr R.FW_UA_END_LO 0).wr R.FW_UA_END_HI 0).bumpSat R.FW_UA_INTERVALS).irq 0x007 2
    (s.actAbandon 1).modeNotify

/-- The first heartbeat ends unattended mode; the interval from power-on, or from an acknowledgement given in it, counts when it ends. -/
def State.uaLeave (s : State) : State :=
  let st := s.stamp
  let s : State := { s with core := { s.core with unattended := false } }
  let s := if s.rd R.FW_UA_INTERVALS = 0 then s.wr R.FW_UA_INTERVALS 1 else s
  let s := ((s.wr R.FW_UA_END_LO (st % 2 ^ 32)).wr R.FW_UA_END_HI (st / 2 ^ 32)).irq 0x007 3
  (s.event 0x711 (leBytes 8 (s.now - s.fw.uaAt))).modeNotify

/-- A heartbeat. -/
def State.heartbeat (s : State) : State :=
  let s := s.modFw (fun x => { x with hbAt := s.now, hbSeen := true, hbLate := false })
  if s.core.unattended then s.uaLeave else s

/-- FW_HEARTBEAT (R486). -/
def execFwHeartbeat (a : Acc) (data : Word) (s : State) : Host.Outcome State Fault Refusal :=
  .next (s.guardedWrite a 0x0070A0 data.toNat false false (fun s => s.heartbeat))

/-- HEARTBEAT_LATE (R486): 100 ms without a heartbeat. -/
def execHeartbeatLate (s : State) : Host.Outcome State Fault Refusal :=
  present (s.build != .l)
    (if s.fw.hbLate || decide (s.now < s.fw.hbAt + usTime 100000) then s else (s.modFw (fun x => { x with hbLate := true })).irq 0x007 1)

/-- UNATTENDED_ENTRY (R486): 1 s without a heartbeat. -/
def execUnattendedEntry (s : State) : Host.Outcome State Fault Refusal :=
  present (s.build != .l) (if s.core.unattended || decide (s.now < s.fw.hbAt + usTime 1000000) then s else s.uaEnter)

/-- A mode notice reaches a leaf. -/
def State.modeNotice (s : State) (r : Rec) : State :=
  if r.type = 0x81 ∧ r.payload ≠ [] then { s with core := { s.core with unattended := bitOf (leAt r.payload 0 1) 0 } } else s

/-- MODE_NOTICE_RECEIVED (R486). -/
def execModeNoticeReceived (rec : Rec) (s : State) : Host.Outcome State Fault Refusal := present (s.build == .l) (s.modeNotice rec)

/-- A write of FW_UA_ACK: the summary registers clear (R488). -/
def State.uaAck (s : State) (v : Nat) : State :=
  if bitOf v 0 then
    [R.FW_UA_START_LO, R.FW_UA_START_HI, R.FW_UA_END_LO, R.FW_UA_END_HI, R.FW_UA_INTERVALS, R.FW_UA_ESC, R.FW_UA_REFUSED, R.FW_UA_TRACE_SKIP,
     R.FW_UA_ALARMS].foldl (fun (s : State) r => s.wr r 0) s
  else s

/-- FW_UA_ACK (R488). -/
def execFwUaAck (a : Acc) (data : Word) (s : State) : Host.Outcome State Fault Refusal :=
  .next (s.guardedWrite a 0x0070E4 data.toNat false false (fun s => s.uaAck data.toNat))

/-! ### What the FWCMD page reads (Table 18-8) -/

/-- A region's register: state, attempt and rollback index; an EMPTY region shows no index or version. -/
def State.regionWord (s : State) (i : Nat) : Nat :=
  let r := s.region i
  r.st + r.attempt % 2 * 8 + (if r.st = 0 then 0 else r.field 7 1 % 128 * 256)

/-- Live reads of the FWCMD page. -/
def State.fwLive (s : State) (off : Nat) : Option Nat :=
  let x := s.fw
  let ver (i : Nat) : Nat := if (s.region i).st = 0 then 0 else (s.region i).field 8 4
  if s.build = .l then none
  else if off = 0x080 then
    some (x.st + b2n (x.st == 1 && (s.region x.region).st == 5) * 4 + b2n x.handCold * 8 + b2n s.core.unattended * 16 + b2n x.defer.isSome * 32 +
      x.region % 2 * 64 + b2n (x.st == 1 && decide (2 ≤ x.region)) * 128)
  else if off = 0x084 then some (if x.st = 1 then (s.region x.region).field 8 4 else 0)
  else if off = 0x088 then some s.auth.otp.rollback
  else if off = 0x08C then some (s.regionWord 0)
  else if off = 0x090 then some (ver 0)
  else if off = 0x094 then some (s.regionWord 1)
  else if off = 0x098 then some (ver 1)
  else if off = 0x0A4 then some (if x.hbSeen then min ((s.now - x.hbAt) * 1000 / 2 ^ 32) 65535 else 65535)
  else none

end Sys2Proof.Machine
end

