-- ==== Sys2Proof/Machine/Pulses.lean ====
section
/-! DEFINITION. Pulse generators and capture inputs (R98, R128 to R133, R136). -/

namespace Sys2Proof.Machine

/-- 200 ns in units of 2^-32 s, rounded up: an edge this far ahead is at least 200 ns ahead (R130). -/
def lead200 : Nat := 859

def State.gen (s : State) (n : Nat) : Pulse := s.pulse.gens.getD n Pulse.reset

def State.modGen (s : State) (n : Nat) (f : Pulse → Pulse) : State := { s with pulse := { s.pulse with gens := modNth s.pulse.gens n f } }

/-- Registers of generator n as the next arming takes them: START, PERIOD, WIDTH (R129, R130). -/
def State.plsStart (s : State) (n : Nat) : Nat :=
  s.rd R.PLS_START_FRAC n + s.rd R.PLS_START_SEC_LO n * 2 ^ 32 + fld (s.rd R.PLS_START_SEC_HI n) 15 0 * 2 ^ 64

def State.plsPeriod (s : State) (n : Nat) : Nat := s.rd R.PLS_PERIOD_LO n + s.rd R.PLS_PERIOD_HI n * 2 ^ 32

/-- The active width: half the period, or 430 units for a one-shot, when 0; clipped to the period less 1.25 ns (R129). -/
def effWidth (w period : Nat) : Nat × Bool :=
  if w = 0 then (if period = 0 then 430 else period / 2, false)
  else if period ≠ 0 ∧ period ≤ w then (period - 5, true)
  else (w, false)

/-- The first k whose edge is at or after a time, for a periodic generator. -/
def firstK (start period t : Nat) : Nat := if t ≤ start then 0 else (t - start + period - 1) / period

/-- Arm one generator from its registers (R130). Its status starts afresh: GATED clears with MISSED, of which alone the spec speaks (DESIGN
CHOICE, log entry 65). In its active phase the output keeps its polarity to the end of the phase (R98). -/
def State.armGen (s : State) (n : Nat) : State :=
  let start := s.plsStart n
  let period := s.plsPeriod n
  let (w, clip) := effWidth (s.rd R.PLS_WIDTH n) period
  let ctrl := s.rd R.PLS_CTRL n
  let late := start < s.now + lead200
  let old := s.gen n
  let from_ := match old.activeUntil with
    | some u => max u (s.now + lead200)
    | none => s.now + lead200
  let fires := !(late && period == 0)
  s.modGen n (fun g => { g with running := fires || g.activeUntil.isSome, start := start, period := period, width := w,
                                pol := if g.activeUntil.isSome then g.pol else bitOf ctrl 1,
                                nextPol := if g.activeUntil.isSome then some (bitOf ctrl 1) else none, qgate := fld ctrl 6 4, k := if period = 0 then b2n !fires else firstK start period from_, clipped := clip,
                                gated := false, missed := b2n !fires, stopping := false })

/-- What a write of PULSE_ARM does: the bits of generators the build has arm together (R130). -/
def State.pulseArm (s : State) (v : Nat) : State :=
  (List.range (pulseGens s.build)).foldl (fun s n => if bitOf v n then s.armGen n else s) s

def State.pulseDisarm (s : State) (v : Nat) : State :=
  (List.range (pulseGens s.build)).foldl (fun s n =>
    if bitOf v n then s.modGen n (fun g => if g.activeUntil.isSome then { g with stopping := true } else { g with running := false }) else s) s

/-- PULSE_ARM (R130). -/
def execPulseArm (a : Acc) (data : Word) (s : State) : Host.Outcome State Fault Refusal :=
  .next (s.guardedWrite a 0x003180 data.toNat false false (fun s => s.pulseArm data.toNat))

/-- PULSE_DISARM (R130). -/
def execPulseDisarm (a : Acc) (data : Word) (s : State) : Host.Outcome State Fault Refusal :=
  .next (s.guardedWrite a 0x003184 data.toNat false false (fun s => s.pulseDisarm data.toNat))

/-- One edge of a generator whose time has come: first the inactive edge, then the next active edge (R129, R131). -/
def Pulse.edge (g : Pulse) (now code : Nat) : Pulse :=
  match g.activeUntil with
  | some u =>
    if u ≤ now then { g with activeUntil := none, stopping := false, running := !(g.stopping || (g.period == 0 && g.k != 0)), pol := g.nextPol.getD g.pol,
                             nextPol := none }
    else g
  | none =>
    if g.running && decide (g.tk g.k ≤ now) then
      if code ≤ g.qgate then { g with activeUntil := some (g.tk g.k + g.width), k := g.k + 1 }
      else { g with k := g.k + 1, missed := satAdd 8 g.missed 1, gated := true, running := g.period != 0 }
    else g

/-- PULSE_EDGE (R129, R131): fleet time has reached a scheduled edge of generator n. -/
def execPulseEdge (n : Nat) (s : State) : Host.Outcome State Fault Refusal :=
  present (decide (n < pulseGens s.build)) (s.modGen n (fun g => g.edge s.now s.qcode))

/-- The level of pulse output n: inactive at rest, in the polarity that the generator was armed with (R98, R130). -/
def State.plsOut (s : State) (n : Nat) : Bool := (s.gen n).activeUntil.isSome != (s.gen n).pol

/-! ### Capture (R133) -/

def State.capIn (s : State) (c : Nat) : CapIn := s.pulse.caps.getD c { fifo := [], lastAt := none }

def State.modCap (s : State) (c : Nat) (f : CapIn → CapIn) : State := { s with pulse := { s.pulse with caps := modNth s.pulse.caps c f } }

/-- The edge is one that CAP_CTRL selects. -/
def edgeSelected (sel : Nat) (rising : Bool) : Bool := if rising then sel == 1 || sel == 3 else sel == 2 || sel == 3

/-- Two edges of one input closer than 10 ns, 8 cycles of the local clock, are one edge. -/
def closeEdge (last : Option Nat) (cycles : Nat) : Bool :=
  match last with
  | some t => decide (cycles < t + 8)
  | none => false

/-- CAPTURE_EDGE (R133): a selected edge is stamped into the FIFO, or counted when the FIFO is full. -/
def execCaptureEdge (c : Nat) (rising : Bool) (s : State) : Host.Outcome State Fault Refusal :=
  present (s.build == .t && decide (c < 4))
    (let ctrl := s.rd R.CAP_CTRL c
     let q := s.capIn c
     if !edgeSelected (fld ctrl 1 0) rising || closeEdge q.lastAt s.time.cycles then s
     else
      let s := s.modCap c (fun q => { q with lastAt := some s.time.cycles })
      if q.fifo.length < 16 then
        let s := s.modCap c (fun q => { q with fifo := q.fifo ++ [{ time := s.now, code := s.qcode, rising := rising }] })
        if bitOf ctrl 2 then s.event 0x107 (bytes [c, b2n rising]) else s
      else s.bumpSat R.CAP_OVERFLOW 1 c)

/-- What a write of CAP_POP does. -/
def State.capPop (s : State) (c v : Nat) : State := if bitOf v 0 then s.modCap c (fun q => { q with fifo := q.fifo.drop 1 }) else s

/-- CAP_POP (R136). -/
def execCapPop (a : Acc) (c : Nat) (data : Word) (s : State) : Host.Outcome State Fault Refusal :=
  .next (s.guardedWrite a (regOf (decide (c < 4)) (0x003210 + 0x20 * c)) data.toNat false false (fun s => s.capPop c data.toNat))

/-- Live reads of the PULSE page: PLS_STATUS and the head and state of the capture FIFOs (Table 4-9). -/
def State.pulseLive (s : State) (off : Nat) : Option Nat :=
  if off < 0x180 ∧ off % 0x20 = 0x1C then
    let g := s.gen ((off - 0x80) / 0x20)
    some (b2n g.running + b2n g.clipped * 2 + b2n g.gated * 4 + g.missed * 256)
  else if 0x200 ≤ off then
    let q := s.capIn ((off - 0x200) / 0x20)
    let w := off % 0x20
    if w = 0x14 then some q.fifo.length
    else
      match q.fifo with
      | [] => if w = 0x04 ∨ w = 0x08 ∨ w = 0x0C then some 0 else none
      | e :: _ =>
        if w = 0x04 then some (e.time % 2 ^ 32)
        else if w = 0x08 then some (e.time / 2 ^ 32 % 2 ^ 32)
        else if w = 0x0C then some (e.time / 2 ^ 64 % 65536 + e.code * 65536 + b2n e.rising * 2 ^ 20 + 2 ^ 31)
        else none
  else none

end Sys2Proof.Machine
end

