-- ==== Sys2Proof/Machine/Repair.lean ====
section
/-! DEFINITION. Self-test, row repair and bank retirement (R246, R521 to R528). -/

namespace Sys2Proof.Machine

def State.modRep (s : State) (f : RepSt → RepSt) : State := { s with rep := f s.rep }

/-- Some item or bank is out of service. -/
def State.someOut (s : State) : Bool :=
  s.rd R.REP_UNITS != 0 || s.rd R.REP_PORTS_LO != 0 || s.rd R.REP_PORTS_HI != 0 || !s.rep.retired.isEmpty

/-- REP_STATUS.DEGRADED follows what is out of service. -/
def State.showDegraded (s : State) : State := s.wr R.REP_STATUS (setBitTo (s.rd R.REP_STATUS) 4 s.someOut)

/-! ### Self-test (R521 to R523) -/

/-- REP_STATUS.FATAL is set. -/
def State.setFatal (s : State) : State := (s.wr R.REP_STATUS (s.rd R.REP_STATUS ||| 8)).irq 0x030 4

/-- A port's bit in REP_PORTS. -/
def State.portBitSet (s : State) (p : Nat) (b : Bool) : State :=
  let r := if p < 32 then R.REP_PORTS_LO else R.REP_PORTS_HI
  s.wr r (setBitTo (s.rd r) (p % 32) b)

/-- Items of a domain are in service again before its new test counts (R523). -/
def State.itemsFresh (s : State) (d : Nat) : State :=
  let u := s.rd R.REP_UNITS
  if d = 2 then s.wr R.REP_UNITS (setFld u 7 0 0)
  else if d = 3 then s.wr R.REP_UNITS (setFld u 15 8 0)
  else if 6 ≤ d then (groupPorts s.build (d - 6)).foldl (fun (s : State) p => (s.modPort p (fun q => { q with disabled := false })).portBitSet p false) s
  else s

/-- A tree lane or a codec engine is disabled (R522). -/
def State.unitOut1 (s : State) (kind : Nat) : State :=
  let u := s.rd R.REP_UNITS
  let s := if kind = 0 then s.wr R.REP_UNITS (setFld u 7 0 (satAdd 8 (fld u 7 0) 1)) else s.wr R.REP_UNITS (setFld u 15 8 (satAdd 8 (fld u 15 8) 1))
  s.irq 0x030 1

/-- A tree lane or a codec engine is disabled, and told. -/
def State.unitOutOf (s : State) (kind index : Nat) : State := (s.unitOut1 kind).event 0x902 (bytes [kind, index])

/-- A failure is of an item of the domain under test: 0 a tree lane, 1 a codec engine, 2 a port; a lane, engine or port of another domain is not
in this test (R522). -/
def State.itemOf (s : State) (d kind index : Nat) : Bool :=
  if kind = 0 then d == 2 else if kind = 1 then d == 3 else kind == 2 && decide (6 ≤ d) && (groupPorts s.build (d - 6)).contains index

/-- The ports of the domain under test that failed. -/
def State.failedPorts (s : State) (d : Nat) (fails : List (Nat × Nat)) : List Nat :=
  (fails.filter (fun f => f.1 == 2 && s.itemOf d 2 f.2)).map (fun f => f.2)

/-- One failure of a test takes its item out of service, or makes the unit FATAL (R522). -/
def State.testFail (s : State) (d kind index : Nat) : State :=
  if 3 ≤ kind then s.setFatal
  else if !s.itemOf d kind index then s
  else if kind = 2 then ((s.modPort index (fun q => { q with disabled := true })).portBitSet index true).irq 0x030 1
  else s.unitOut1 kind

/-- The failures of a test are told: disabled items, then what makes the unit FATAL, by its test number (R499, R522). -/
def State.failsTold (s : State) (d : Nat) (fails : List (Nat × Nat)) : State :=
  let s := (fails.filter (fun f => decide (f.1 < 3) && s.itemOf d f.1 f.2)).foldl (fun (s : State) f => s.event 0x902 (bytes [f.1, f.2])) s
  (fails.filter (fun f => decide (3 ≤ f.1))).foldl (fun (s : State) f => s.event 0x905 (bytes [d, f.2])) s

/-- The domain whose test has ended: a test at power-on leaves it in Run, an exit's test completes its wake (R389, R521). -/
def State.testOver (s : State) (point d : Nat) : State :=
  if point = 0 then
    let s := s.modDom d (fun x => { x with testing := false, voteAt := s.time.cycles })
    if d = 1 then s.landAll else s
  else s.becomeRun d

/-- The self-test of a domain ends. -/
def State.selfTest (s : State) (point d : Nat) (fails : List (Nat × Nat)) : State :=
  match s.dom d with
  | none => s
  | some x =>
    if !x.testing || point != (if x.st = 3 then 1 else if x.st = 2 then 2 else 0) then s
    else if d = 0 then
      (if fails.isEmpty then
         State.modDom { s with core := { s.core with present := s.build == .t } } 0 (fun x => { x with testing := false })
       else { s with core := { s.core with por := true } })
    else
      let s := s.itemsFresh d
      let s := s.testOver point d
      let s := s.linksFall (s.failedPorts d fails) 2 false
      let s := fails.foldl (fun (s : State) f => s.testFail d f.1 f.2) s
      let more := s.power.doms.any (fun p => p.2.testing)
      let s := (s.wr R.REP_STATUS (setFld (setBitTo (s.rd R.REP_STATUS) 2 (!more)) 1 0 point)).showDegraded
      let ports := ((List.range (linkPorts s.build)).filter (fun p => (s.port p).disabled)).length
      ((s.irq 0x030 0).event 0x901 (bytes [point, d, s.lanesLeft, s.enginesLeft, ports, s.rep.retired.length])).failsTold d fails

/-- SELF_TEST_COMPLETE (R521, R522): point 0 power-on, 1 Off exit, 2 Retain exit; a failing AON keeps the unit in reset. -/
def execSelfTestComplete (point d : Nat) (fails : List (Nat × Nat)) (s : State) : Host.Outcome State Fault Refusal :=
  present ((domains s.build).contains d && decide (point < 3)) (s.selfTest point d fails)

/-! ### Rows (R524 to R526) -/

/-- REP_LAST. -/
def repLast (kind bank row what : Nat) : Nat := kind % 256 + bank % 256 * 256 + row % 4096 * 65536 + what * 268435456

/-- Banks of a memory as built, and in service (Table 21-2). -/
def State.banksOf (s : State) (kind inst : Nat) : Nat :=
  if kind = 1 then (if inst < linkPorts s.build then portB (portKind s.build inst) / 64 else 0)
  else if kind = 2 then (if s.build = .t then 112 else 0)
  else Config.memBanks kind inst
def State.banksLeft (s : State) (kind inst : Nat) : Nat :=
  if kind = 1 then (s.port inst).banks
  else if kind = 2 then s.link.spareBanks
  else s.banksOf kind inst - (s.rep.retired.filter (fun x => x.1 == kind && x.2.1 == inst)).length

/-- What the loss of a bank does to its memory (R230, R246, Table 21-2). Which lane or engine owns a single-bank memory of an instance, or
that none does, the spec does not number: a free value. Answers whether the unit is FATAL for it. -/
def State.bankGone (s : State) (kind inst : Nat) : Bool × State :=
  if kind = 1 then
    (false, if s.build = .t ∧ s.link.spareBanks ≠ 0 then
       (State.reinitAll { s with link := { s.link with spareBanks := s.link.spareBanks - 1 } } inst).irq 0x02B 2
     else s.loseBank inst)
  else if kind = 2 then (false, { s with link := { s.link with spareBanks := s.link.spareBanks - 1 } })
  else if kind = 6 then
    let (f, s) := s.draw
    if f % 3 = 2 then (true, s.setFatal) else (false, s.unitOutOf (f % 3) inst)
  else (false, s)

/-- A bank is retired (R527). -/
def State.bankRetire (s : State) (kind inst bank : Nat) : State :=
  let s := s.modRep (fun x => { x with marked := x.marked.filter (fun y => y != (kind, inst, bank)), retired := x.retired ++ [(kind, inst, bank)] })
  let (fatal, s) := s.bankGone kind inst
  let rate := if kind = 1 then rateMaxOf (portKind s.build inst) (s.port inst).buf else 0
  let s := ((s.bumpSat R.REP_RETIRED).wr R.REP_LAST (repLast kind bank 0 1)).irq 0x030 3
  let s := s.showDegraded.event 0x904 (bytes [kind, inst, bank, min 255 (s.banksLeft kind inst)] ++ leBytes 2 rate)
  if fatal then s.event 0x905 (bytes [1, inst]) else s

/-- A bank is to be retired: at once where its memory can lose it, else when it empties; a second failure meanwhile does nothing more. -/
def State.bankFail (s : State) (kind inst bank : Nat) : State :=
  let b := (kind, inst, bank)
  if s.rep.retired.contains b || s.rep.marked.contains b then s
  else if kind = 3 ∨ kind = 4 ∨ kind = 5 then s.modRep (fun x => { x with marked := x.marked ++ [b] })
  else s.bankRetire kind inst bank

/-- Remaps in the group of a row (R524). -/
def State.groupOf (s : State) (kind inst bank row : Nat) : List Remap :=
  s.rep.remaps.filter (fun m => m.kind == kind && m.inst == inst && m.bank == bank && m.row / 512 == row / 512)

/-- A row fails: remapped to a free spare of its group, or its bank retires (R524, R527). -/
def State.rowRepair (s : State) (kind inst bank row cause : Nat) : State :=
  let g := s.groupOf kind inst bank row
  if cause = 2 ∧ bitOf (s.rd R.REP_CTRL) 0 = false then s
  else if g.any (fun m => m.row == row) then s.bankFail kind inst bank
  else
    match (List.range 4).find? (fun i => !g.any (fun m => m.spare == i)) with
    | none => s.bankFail kind inst bank
    | some spare =>
      let m : Remap := { kind := kind, inst := inst, bank := bank, row := row, spare := spare }
      let s := s.modRep (fun x => { x with remaps := x.remaps ++ [m], toFlash := if s.build = .t then x.toFlash ++ [m] else x.toFlash })
      let s := ((s.bumpSat R.REP_REMAPS).wr R.REP_LAST (repLast kind bank row 0)).irq 0x030 2
      s.event 0x903 (bytes [kind, inst, bank, 0] ++ leBytes 2 row ++ bytes [spare, cause])

/-- ROW_REPAIR (R524): cause 0 a march, 1 an uncorrectable word, 2 the corrected limit. -/
def execRowRepair (kind inst bank row cause : Nat) (s : State) : Host.Outcome State Fault Refusal :=
  present (decide (1 ≤ kind) && decide (kind ≤ 6) && decide (cause < 3)) (s.rowRepair kind inst bank row cause)

/-- BANK_RETIRE (R527): a bank marked for retirement has emptied. -/
def execBankRetire (kind inst bank : Nat) (s : State) : Host.Outcome State Fault Refusal :=
  .next (if s.rep.marked.contains (kind, inst, bank) then s.bankRetire kind inst bank else s)

/-- Entries the remap record holds at most. -/
def recordMax : Nat := 4095

/-- REP_FLASH_STATUS shows the record. -/
def State.showRecord (s : State) (bits : Nat) : State :=
  s.wr R.REP_FLASH_STATUS ((s.rd R.REP_FLASH_STATUS ||| bits) % 65536 + s.rep.record.length % 4096 * 65536)

/-- Firmware writes the oldest remap that waits into the record; a full record or a failed write is told (R526). -/
def State.recordWrite (s : State) (ok : Bool) : State :=
  if !s.fwServes then s
  else
    match s.rep.toFlash with
    | [] => s
    | m :: rest =>
      let s := s.modRep (fun x => { x with toFlash := rest })
      if recordMax ≤ s.rep.record.length then (s.showRecord 2).event 0x906 (bytes [0])
      else if ok then (s.modRep (fun x => { x with record := x.record ++ [m] })).showRecord 0
      else (((s.bumpSat R.FL_ERR).irq 0x114 0).showRecord 4).event 0x906 (bytes [1])

/-- REMAP_RECORD_WRITE (R526). -/
def execRemapRecordWrite (ok : Bool) (s : State) : Host.Outcome State Fault Refusal := present (s.build == .t) (s.recordWrite ok)

/-- Live reads of the REPAIR page: REP_MEM_INFO of the selected memory. -/
def State.repLive (s : State) (off : Nat) : Option Nat :=
  if off = 0x0AC then
    let sel := s.rd R.REP_MEM_SEL
    let k := fld sel 7 0
    let i := fld sel 15 8
    let mine := s.rep.remaps.filter (fun m => m.kind == k && m.inst == i)
    let used := mine.foldl (fun a m => max a (s.groupOf k i m.bank m.row).length) 0
    some (s.banksOf k i % 256 + s.banksLeft k i % 256 * 256 + (4 - used) * 65536)
  else none

end Sys2Proof.Machine
end

