-- ==== Sys2Proof/Machine/Reset.lean ====
section
/-! DEFINITION. Resets and quiesce: power-on, warm reset, the reset of one tap island or link group, and the quiesce hand-shake (R49, R66, R78,
R83 to R94, R397 to R400, R423 to R428). -/

namespace Sys2Proof.Machine

/-! ### Quiesce (R89, R92) -/

/-- An island with a quiesce hand-shake: 0 to 7 tap, 8 core, 9 + g link group g, 18 time. -/
def State.islandThere (s : State) (i : Nat) : Bool :=
  if i < 8 then hasTaps s.build && s.tapPresent i else i == 8 || i == 18 || decide (i - 9 < linkGroups s.build)

/-- An island that is a link group. -/
def isLinkIsland (i : Nat) : Bool := decide (9 ≤ i) && i != 18

/-- QUIESCE_REQUEST (R89): qsc_req rises; the island launches nothing more. A census of a link that is quiesced is abandoned (R232). -/
def State.quiesceStart (s : State) (isl : Nat) : State :=
  if s.core.qscReq.contains isl then s
  else
    let s : State := { s with core := { s.core with qscReq := s.core.qscReq ++ [isl], qscAt := assocSet isl s.time.cycles s.core.qscAt } }
    if isLinkIsland isl then (groupPorts s.build (isl - 9)).foldl (fun (s : State) p => s.censusSkip p) s else s

def execQuiesceRequest (isl : Nat) (s : State) : Host.Outcome State Fault Refusal := present (s.islandThere isl) (s.quiesceStart isl)

/-- Everything sent through a link island has been acknowledged. -/
def State.linkDrained (s : State) (g : Nat) : Bool :=
  (groupPorts s.build g).all (fun p => (s.port p).cls.all (fun c => c.held.isEmpty && c.q.all (fun i => i.sent == 0)))

/-- What an island drains as it is quiesced: a tap island's senders launch what waits; the core island closes its coalescing table and its trace
block (R89, R241, R364). -/
def State.drain (s : State) (isl : Nat) : State :=
  if isl < 8 then (if s.core.tapStopped.contains isl || s.core.warm then s else s.drainTap isl)
  else if isl = 8 then s.coalFlush.traceLeave
  else s

/-- The rings and FIFOs of an island are empty (R89, log entry 67): a tap island's senders, the core's convoy work and muster records, the packets that
a link island has sent, for at most two round trips. -/
def State.isDrained (s : State) (isl : Nat) : Bool :=
  if isl < 8 then !s.tapWaiting isl && !s.core.tapItems.any (fun x => s.portIsland x.bit == isl)
  else if isl = 8 then s.convoy.work.isEmpty && s.muster.emit.isEmpty
  else if isl = 18 then true
  else s.linkDrained (isl - 9) || (groupPorts s.build (isl - 9)).all (fun p => s.twoTrips p (assocD 0 isl s.core.qscAt))

/-- qsc_drained rises once the island's crossings are empty. -/
def State.drained (s : State) (isl : Nat) : State :=
  if !s.core.qscReq.contains isl || s.core.qscDrained.contains isl then s
  else
    let s := s.drain isl
    if s.isDrained isl then { s with core := { s.core with qscDrained := s.core.qscDrained ++ [isl] } } else s

/-- QUIESCE_DRAINED (R89). -/
def execQuiesceDrained (isl : Nat) (s : State) : Host.Outcome State Fault Refusal := present (s.islandThere isl) (s.drained isl)

/-- QUIESCE_RELEASE (R89): qsc_req and qsc_drained fall; the island resumes. -/
def State.unquiesce (s : State) (isl : Nat) : State :=
  let s : State := { s with core := { s.core with qscReq := s.core.qscReq.filter (· != isl), qscDrained := s.core.qscDrained.filter (· != isl) } }
  if isl < 8 then s.landHeld isl else s

def execQuiesceRelease (isl : Nat) (s : State) : Host.Outcome State Fault Refusal := present (s.islandThere isl) (s.unquiesce isl)

/-- A reset that was not quiesced leaves a discontinuity marker at the first muster after the island returns; the epochs that are open overlap its
interval (R49, R93, R199). -/
def State.discAdd (s : State) (isl : Nat) : State :=
  { s with core := { s.core with discIslands := if s.core.discIslands.any (fun x => x.1 == isl) then s.core.discIslands
                                                else s.core.discIslands ++ [(isl, s.muster.lastStamp)] },
           convoy := { s.convoy with slots := s.convoy.slots.map (fun (p : Nat × Slot) =>
             (p.1, { p.2 with opens := p.2.opens.map (fun (o : Open) => { o with disc := true }) })) } }

/-! ### One island alone (R90, Table 3-6) -/

/-- An island's reset input is asserted, or released. -/
def State.setInReset (s : State) (isl : Nat) (on : Bool) : State :=
  { s with core := { s.core with inReset := if on then s.core.inReset ++ [isl] else s.core.inReset.filter (· != isl) } }

/-- What a tap island loses when it was not quiesced: what waits in its senders, and the trace items in flight (Table 3-6). -/
def State.tapLose (s : State) (n : Nat) : State :=
  let s : State := { s with core := { s.core with tapSums := s.core.tapSums.filter (fun x => s.tapIsland x.tap != n),
                                                  tapItems := s.core.tapItems.filter (fun x => s.portIsland x.bit != n),
                                                  tapLost := s.core.tapLost.filter (fun x => s.portIsland (lostBit x.1) != n) } }
  let s := if s.portIsland 7 = n then s.traceTapReset else s
  (s.bumpSat R.TAP_DISC_COUNT (pg := n)).irq (0x008 + n) 2

/-- tap_rst_n of an island falls: its open commands close, and its record is the reset notice when it was drained, else the marker (R49, R92, R149). -/
def State.tapReset (s : State) (n : Nat) : State :=
  if s.core.inReset.contains n then s
  else
    let s := if s.portIsland 4 = n then s.samp.cmds.foldl (fun (s : State) o => s.cmdClose o.stream 4) s else s
    let s := if s.core.qscDrained.contains n then s.event 0x004 (bytes [n, 1]) else (s.tapLose n).discAdd n
    s.setInReset n true

/-- tap_rst_n of an island rises. -/
def State.tapBack (s : State) (n : Nat) : State := if s.core.inReset.contains n then (s.setInReset n false).landHeld n else s

/-- TAP_ISLAND_RESET (R84, R90, R168): the reset input of a tap island is asserted, or released. -/
def execTapIslandReset (n : Edge) (s : State) : Host.Outcome State Fault Refusal :=
  present (hasTaps s.build && decide (n.num < 8) && s.tapPresent n.num) (if n.on then s.tapReset n.num else s.tapBack n.num)

/-- The lowest clock of a port in units of 0.01 MHz (R78). -/
def minClock (kind : Nat) : Nat := if kind = 0 then 15625 else 40000

/-- The clocks of link groups that come out of reset, as (group, MHz): a group below its minimum raises the alarm and its ports stay down. -/
def State.clockCheck (s : State) (groups : List Nat) (slow : List (Nat × Nat)) : State :=
  groups.foldl (fun (s : State) g =>
    match groupPorts s.build g with
    | [] => s
    | p :: ps =>
      let low := minClock (portKind s.build p)
      match slow.find? (fun x => x.1 == g && decide (x.2 * 100 < low)) with
      | some x =>
        ((p :: ps).foldl (fun (s : State) q => s.modPort q (fun y => { y with slow := true })) s).event 0x010
          (bytes [9 + g, 0] ++ leBytes 2 x.2 ++ leBytes 2 (low / 100))
      | none => (p :: ps).foldl (fun (s : State) q => s.modPort q (fun y => { y with slow := false })) s) s

/-- lnk_rst_n of a group falls: its links go down, and what the far ends do not acknowledge goes its other way; until it rises the group neither sends,
answers nor trains (R54, R77, R91). It leaves the link-down alarm, and the reset notice when it was drained (R92, Table 3-6). -/
def State.linkReset (s : State) (g : Nat) : State :=
  if s.core.inReset.contains (9 + g) then s
  else
    let ps := groupPorts s.build g
    let live := s.linksLive ps
    let was := s.linksUp ps
    let s := s.linksCut ps
    let s := if s.core.qscDrained.contains (9 + g) then s.event 0x004 (bytes [9 + g, 1]) else s
    (s.linksTold live was 0 false).setInReset (9 + g) true

/-- LINK_GROUP_RESET (R78, R90, R91): lnk_rst_n of a group is asserted, or released; `slow` measures the group's clock at the release. -/
def execLinkGroupReset (g : Edge) (slow : List (Nat × Nat)) (s : State) : Host.Outcome State Fault Refusal :=
  present (decide (g.num < linkGroups s.build))
    (if g.on then s.linkReset g.num
     else if s.core.inReset.contains (9 + g.num) then (s.setInReset (9 + g.num) false).clockCheck [g.num] slow
     else s)

/-! ### Warm reset (R90 to R92, R395 to R397, R428) -/

/-- A port after a warm reset: its link is down and trains afresh; what is Sticky, the lost banks and the disabled state stay, and the packets of a
core that was drained (R92). -/
def State.portFresh (s : State) (keep : Bool) (p : Nat) : State :=
  let kind := portKind s.build p
  s.modPort p (fun q =>
    let z := Port.reset kind
    let ts := (List.range (z.banks - q.banks)).foldl (fun (l : List Nat) _ => takeCredits 6 64 l) (z.cls.map (fun x => x.t))
    { z with cls := (z.cls.zip ts).zipIdx.map (fun x =>
               { x.1.1 with q := if keep then (q.tx8 x.2).held.map Item.afresh ++ (q.tx8 x.2).q.map Item.afresh else [],
                            t := x.1.2, farT := x.1.2, tokens := ((s.shapeOf p x.2).2 : Int) * byteUnit, tokAt := s.now }),
             laneTokens := (s.laneShape.2 : Int) * byteUnit, laneAt := s.now,
             toll := (List.range 3).map (fun k =>
               let n := 3 * p + k
               let pr := s.rd R.TOLL_MAP (n / 8) / 2 ^ (4 * (n % 8)) % 16
               { tc := (fld (s.rd R.TOLL_PROF_CBS pr) 23 0 : Int) * byteUnit, tp := (fld (s.rd R.TOLL_PROF_PBS pr) 23 0 : Int) * byteUnit, lastAt := s.now }),
             banks := q.banks, buf := q.buf, slow := q.slow, heldDown := q.heldDown, disabled := q.disabled, expected := q.expected,
             everTrained := q.everTrained, trainCount := q.trainCount, retrains := q.retrains, discAt := s.time.cycles })

/-- Links are lost, and time loses its link parent; queues and fates are lost uncounted, unless the core was drained (R49, R92). -/
def State.loseLinks (s : State) (keep : Bool) : State :=
  let s := match s.time.parent with
    | some p => if p < 64 then s.parentLost p 1 else s
    | none => s
  let s : State := { s with time := { s.time with exch := s.time.exch.map (fun (e : Exch) =>
    { e with awaiting := false, acquiring := false, locked := false, good := 0, training := 0, acq := [] }) } }
  let s := ((List.range (egressPorts s.build)).foldl (fun (s : State) p => s.portFresh keep p) s).creditsVoid (fun _ => true)
  { s with link := { s.link with pend := if keep then s.link.pend else [], pubQ := if keep then s.link.pubQ else [], admitDue := [], paused := [[], []],
                                 trayOrphan := false },
           coal := { entries := [], owed := if keep then s.coal.owed else [] } }

/-- Publication loses its store, sessions and contexts; session IDs are Sticky, and the mirrored cursor's last stamps are kept for R66. -/
def State.losePub (s : State) : State :=
  { s with pub := { PubSt.reset with sessions := s.pub.sessions, last := s.pub.last, downAt := if s.rolePair then some s.time.cycles else none } }

/-- Commands end, and the management cores return to the ROM (R479); the heartbeat watch and the mode go on (R486). -/
def State.loseFw (s : State) (keep : Bool) : State :=
  s.modFw (fun x => { x with data := [], st := 0, handCold := false, busy := [], bulk := [], defer := none, blackout := none, held := if keep then x.held else [],
                             tickAt := s.time.cycles, startAt := s.time.cycles })

/-- Buckets start full, the drover at Normal with its causes to be weighed again (R397, R407, R498). -/
def State.loseDrover (s : State) : State :=
  { s with drover := { s.drover with levels := (List.range 6).map (fun c => (fld (s.rd R.DRV_BURST c) 27 0 : Int) * nJ),
                                     bursts := (List.range 6).map (fun c => fld (s.rd R.DRV_BURST c) 27 0), charged := List.replicate 6 0, spill := 0, emerg := 0, grant := 0, cause := 0, clearAt := s.time.cycles, refillMw := 0 },
           ev := { s.ev with buckets := [] } }

/-- Every domain but AON will stand in Run; votes of hardware fall with what held them. -/
def State.domsFresh (s : State) : State :=
  { s with power := { s.power with doms := s.power.doms.map (fun p =>
    if p.1 = 0 then p else (p.1, { Dom.reset with testing := p.2.testing && p.2.st == 0, ack := p.2.ack, tapVotes := p.2.tapVotes, voteAt := s.time.cycles })) } }

/-- The convoy work, open epochs and tallies of a core that was drained before its reset (R92). -/
def State.keepConvoy (s was : State) : State :=
  { s with tally := { s.tally with rows := was.tally.rows },
           convoy := { s.convoy with slots := s.convoy.slots.map (fun p => match was.convoy.slots.find? (fun q => q.1 == p.1) with
             | some q => (p.1, { p.2 with opens := q.2.opens, latest := q.2.latest, dropBelow := q.2.dropBelow })
             | none => p) } }

/-- What a warm reset loses (Tables 3-6 and 15-5); what is in flight in a core that was drained stays (R92). -/
def State.warmLose (s : State) (keep : Bool) : State :=
  let was := s
  let openNow := s.samp.cmds.map (fun o => o.stream)
  let s := s.loseLinks keep
  let s := (if keep then s else s.losePub).loseFw keep
  let s := (domains s.build).foldl (fun (s : State) d => s.loseDomain d true) s
  let s : State := { s with
    samp := { s.samp with cmdNum := [],
                          cmdIdleAt := openNow.foldl (fun l c => assocSet c s.time.cycles l) s.samp.cmdIdleAt,
                          cmdIdleStamp := openNow.foldl (fun l c => assocSet c s.stamp l) s.samp.cmdIdleStamp },
    muster := { s.muster with lateLatch := false, leadRaised := false, oneShot := false },
    trace := { s.trace with agg := if keep then s.trace.agg else [] },
    tree := if keep then s.tree else { s.tree with wait := [], waitRun := [], chunks := [] },
    abft := { s.abft with chunks := if keep then s.abft.chunks else [] },
    core := { s.core with latches := [], tachFault := [], coolStale := false, coolForced := false, coolWas := [] } }
  let s := if keep then s.keepConvoy was else s
  s.loseDrover.domsFresh

/-- core_rst_n or WRST# falls; WRST# is ignored while power-on reset holds (R425). -/
def State.warmAssert (s : State) : State :=
  if s.core.por || s.core.warm then s
  else
    let s := (s.padHold 1).padHold 5
    let quiet := s.core.qscDrained.contains 8
    let s := (if quiet then s.keepLast else s.discAdd 8).warmLose quiet
    State.wr { s with core := { s.core with warm := true } } R.PWR_RESET_CAUSE (s.rd R.PWR_RESET_CAUSE ||| 2)

/-- WARM_RESET (R90). -/
def execWarmReset (s : State) : Host.Outcome State Fault Refusal := .next s.warmAssert

/-- Records of the event store whose fate was lost go out again, oldest first (R49, R500). -/
def State.resendEvents (s : State) : State :=
  (s.ev.store.filter (fun x => !x.forwarded)).reverse.foldl (fun (s : State) x =>
    let (alarm, noCoal) := match codeInfo x.ev.code with
      | some (_, a, n, _) => (a, n)
      | none => (false, false)
    s.evSend x.ev x.id alarm noCoal) s

/-- A member of a pair writes a marker for every stream of its mirrored cursor, from the last record known to be published to now; the anchors
follow (R49, R66, R102; log entry 69). -/
def State.pairMarkers (s : State) : State :=
  if s.rolePair && !s.pub.last.isEmpty then
    State.modPub (s.pub.last.foldl (fun (s : State) x => s.marker 8 x.2 s.stamp) s) (fun p => { p with last := [] })
  else s

/-- core_rst_n rises: every domain is in Run, sums that waited land, trace starts as its control says, and the reset is recorded (R91, R92,
R364, R397). -/
def State.warmRelease (s : State) (slow : List (Nat × Nat)) : State :=
  if s.core.por || !s.core.warm then s
  else
    let s : State := { s with core := { s.core with warm := false } }
    let s : State := { s with power := { s.power with doms := s.power.doms.map (fun p => (p.1, { p.2 with voteAt := s.time.cycles })) },
                              pub := { s.pub with downAt := if s.rolePair then some s.time.cycles else none } }
    let s : State := { s with core := { s.core with tapSums := s.core.tapSums.map (fun x => { x with opt := 0 }) } }
    let s := s.landAll.traceWarm
    let s := if s.core.qscDrained.contains 8 then s else s.resendEvents
    let s := s.event 0x002 []
    let s := s.pairMarkers
    let s := if s.core.qscDrained.contains 8 then s.event 0x004 (bytes [8, 1]) else s
    s.clockCheck (List.range (linkGroups s.build)) slow

/-- WARM_RESET_RELEASE (R397): `slow` measures the clocks of the link groups that leave reset with the core. -/
def execWarmResetRelease (slow : List (Nat × Nat)) (s : State) : Host.Outcome State Fault Refusal := .next (s.warmRelease slow)

/-! ### Power-on reset (R84, R90, R423, R426) -/

/-- Everything but OTP, the flash and the levels of input pins is lost; a change that the writer holds is VOID (R506). -/
def State.powerLost (s : State) (cause : Nat) : State :=
  let s := match s.auth.busy, s.auth.queue with
    | true, c :: _ => s.otpCount c true
    | _, _ => s
  let z := State.resetOf s.build
  { z with pending := s.pending, bs := s.bs, free := s.free,
           core := { z.core with porCause := cause, peerLow := s.core.peerLow, thermLowIn := s.core.thermLowIn, pwrEmergLow := s.core.pwrEmergLow,
                                 inReset := s.core.inReset, qscReq := s.core.qscReq,
                                 pcieReset := s.core.pcieReset },
           ev := { z.ev with hours := s.ev.hours, pcycles := s.ev.pcycles, ring := s.ev.ring, ringSector := s.ev.ringSector, ringSlot := s.ev.ringSlot,
                             ringLap := s.ev.ringLap },
           auth := { z.auth with otp := s.auth.otp },
           fw := { z.fw with regions := s.fw.regions, devs := s.fw.devs },
           rep := { z.rep with record := s.rep.record },
           drover := { z.drover with pin := s.drover.pin },
           pub := { z.pub with last := s.pub.last } }

/-- POWER_ON_RESET (R84). -/
def execPowerOnReset (s : State) : Host.Outcome State Fault Refusal := .next (if s.core.por then s else s.powerLost 0)

/-- RAIL_OR_THERMAL_TRIP (R423): 1 a rail below its tolerance, 2 a die at 125 °C. -/
def execRailOrThermalTrip (kind : Nat) (s : State) : Host.Outcome State Fault Refusal :=
  present (s.build == .t && (kind == 1 || kind == 2)) (if s.core.por then s else s.powerLost kind)

/-- The straps as sampled: their alarm for the reserved role, or for a partner beside a single (Tables 16-4 and 16-8). -/
def State.strapCheck (s : State) : State :=
  if s.build != .t then s
  else if s.core.straps % 4 = 3 then (s.irq 0x117 0).event 0xA01 (bytes [s.core.straps % 32 + 32, 0])
  else s.peerCheck

/-- The identity and the privacy floor that the fuses hold come into force (R23, R513). -/
def State.latchFuses (s : State) : State :=
  { s with auth := { s.auth with floorNow := s.auth.otp.floor, srcId := match s.auth.otp.identity with
      | some v => s.idOf v
      | none => 0x7FFFFF } }

/-- Power-on reset ends: time starts at 0, the straps are sampled, the self-test of every domain begins, and event 0x001 comes first. -/
def State.powerUp (s : State) (straps : Nat) (slow : List (Nat × Nat)) : State :=
  if !s.core.por then s
  else
    let isT := s.build == .t
    let s : State := { s with
      core := { s.core with por := false, warm := false, present := false, straps := if isT then straps % 32 else 0 },
      time := { s.time with acc := 0, addend := nominalAddend },
      ev := { s.ev with pcycles := min (s.ev.pcycles + 1) (2 ^ 24 - 1) },
      power := { s.power with doms := s.power.doms.map (fun p => (p.1, { p.2 with testing := true, voteAt := s.time.cycles })) } }
    let s := s.latchFuses
    let s := if isT then (s.modRep (fun x => { x with remaps := x.record })).showRecord 1 else s
    let s : State := { s with pub := { s.pub with downAt := if s.rolePair then some s.time.cycles else none },
                              fw := { s.fw with hbAt := s.now, hbSeen := false, hbLate := false } }
    let s := s.event 0x001 (bytes [s.core.porCause])
    (s.pairMarkers.clockCheck (List.range (linkGroups s.build)) slow).strapCheck.uaEnter

/-- POWER_ON_RESET_RELEASE (R84, R426, R495): the levels of the strap balls, and the measured clocks of slow link groups as (group, MHz). -/
def execPowerOnResetRelease (straps : Nat) (slow : List (Nat × Nat)) (s : State) : Host.Outcome State Fault Refusal :=
  .next (s.powerUp straps slow)

/-! ### Uncorrectable words (R331, R525, Table 11-5) -/

/-- A record of Selvo-T's caravanserai holds an uncorrectable word: this member, which would publish it, drops it; one in a datagram already sent, or a
mirror copy, goes on with POISON (R50, Table 11-5). -/
def State.storedBad (s : State) (index : Nat) : State :=
  match s.pub.store[index]? with
  | none => s
  | some x =>
    if x.mirror || s.pub.sess.any (fun q => q.out.any (fun d => d.uids.contains x.uid)) then
      s.modPub (fun p => { p with store := modNth p.store index (fun y => { y with r := { y.r with flags := y.r.flags ||| 2 } }) })
    else
      ((s.modPub (fun p => { p with store := p.store.filter (fun y => y.uid != x.uid),
                                    sess := p.sess.map (fun q => { q with todo := q.todo.filter (· != x.uid) }) })).ctxAcked x.r).fateLost x.uid 2

/-- The oldest latch entry is dropped as poison on its stream, and the next entry written carries GAP. -/
def State.latchBad (s : State) : State :=
  match s.samp.queue with
  | [] => s
  | e :: q =>
    let s : State := { s with samp := { s.samp with queue := q, latchGap := true } }
    let (r, s) := s.originate 0x38 5 (fld (s.rd R.CL_STREAM) 15 0) (latchBytes e)
    s.dropped r.stream 2

/-- The summary that tensor stream w is staging is dropped as poison on its stream. -/
def State.tensorBad (s : State) (w : Nat) : State :=
  match s.tensor w with
  | none => s
  | some t =>
    let s := s.delTensor w
    if t.matched && t.emit then
      let (r, s) := s.originate 0x3A 5 (fld (s.rd R.TW_STREAM w) 15 0) (tensorBytes w t 0 0 0)
      s.dropped r.stream 2
    else s

/-- The oldest word that waits in the checksum FIFO loses its pairs: they are uncheckable. -/
def State.checksumBad (s : State) : State :=
  match s.core.tapItems.find? (fun x => x.bit == 5) with
  | some (.checksum lanes) =>
    let pairs := lanes.filter (fun l => decide (l.prec < 7))
    let marks := lanes.filter (fun l => decide (7 ≤ l.prec))
    let k := s.core.tapItems.findIdx (fun x => x.bit == 5)
    let s : State := { s with core := { s.core with tapItems := modNth s.core.tapItems k (fun _ => .checksum marks) } }
    if pairs.isEmpty then s else s.bumpSat R.ABFT_UNCHECKABLE pairs.length
  | _ => s

/-- What an uncorrectable word does to what it held (Table 11-5). -/
def State.badAt (s : State) : BadPlace → State
  | .record p c i => s.modCls p c (fun x => { x with q := modNth x.q i (fun y => { y with r := { y.r with flags := y.r.flags ||| 2 } }) })
  | .stored i => s.storedBad i
  | .latch => s.latchBad
  | .tensor w => s.tensorBad w
  | .counter n =>
    if 64 ≤ n ∧ n < 4096 then
      let s := s.setCtr n 0
      { s with samp := { s.samp with badCtrs := if s.samp.badCtrs.contains n then s.samp.badCtrs else s.samp.badCtrs ++ [n] } }
    else s
  | .sensor n =>
    if n < 16 then
      let s := s.modSensor n (fun x => { x with value := 0, minV := 0, maxV := 0 })
      { s with samp := { s.samp with badSns := if s.samp.badSns.contains n then s.samp.badSns else s.samp.badSns ++ [n] } }
    else s
  | .history i => s.histLost [i]
  | .result c => { s with feat := { s.feat with badStats := if s.feat.badStats.contains c then s.feat.badStats else s.feat.badStats ++ [c] } }
  | .checksum => s.checksumBad
  | .pattern q => s.modPlace q (fun x => { x with bad := true })
  | .descriptor p =>
    let g := portGroup s.build p
    if linkPorts s.build ≤ p ∨ s.core.inReset.contains (9 + g) then s else (s.linkReset g).setInReset (9 + g) false
  | .other => s

/-- A patrol meets an uncorrectable word. -/
def State.patrolBad (s : State) (w : BadWord) : State := (s.badWord [w.kind, w.inst, w.bank, w.addr]).badAt w.at_

/-- PATROL_PERIOD (R525, R331): a patrol has read every retained word, has written so many back corrected, and has met these uncorrectable words. -/
def execPatrolPeriod (fixes : Nat) (bad : List BadWord) (s : State) : Host.Outcome State Fault Refusal :=
  .next
    (if s.after s.rep.patrolAt (1000 * fld (s.rd R.REP_SCRUB_PERIOD) 15 0) then
       bad.foldl (fun (s : State) w => s.patrolBad w) ((s.modRep (fun x => { x with patrolAt := s.time.cycles })).bumpSat R.REP_CORR fixes)
     else s)

end Sys2Proof.Machine
end

