-- ==== Sys2Proof/Machine/RecordIn.lean ====
section
/-! DEFINITION. Records as they arrive: units at an ingress port, the use of an admitted record by its type, and the datagrams of a peer
Selvo-T (R24, R30, R31, R35, R222 to R224, R393, R464, Table 1-9). -/

namespace Sys2Proof.Machine

/-- The fields of a RESULT (Table 4-5). -/
def parseResult (p : List Byte) : TimeResult :=
  { num := leAt p 0 4, t1 := leAt p 4 10, t4 := leAt p 14 10, code := leAt p 24 1 % 8, refFault := bitOf (leAt p 24 1) 3, hops := leAt p 25 1,
    holdover := leAt p 26 2 }

/-- A plan record reaches its leaf (R182). -/
def State.planRecord (s : State) (r : Rec) : State :=
  match parsePlan .l s.srcId r.payload with
  | some p => (s.takePlan p).2
  | none => s

/-- A link-local record of Table 1-9, used by the unit it is meant for (R114). -/
def State.localUse (s : State) (port : Nat) (r : Rec) : State :=
  if r.type = 0x21 then s.probeIn port (leAt r.payload 0 4)
  else if r.type = 0x22 then s.replyIn port (leAt r.payload 0 4)
  else if r.type = 0x23 then s.resultIn port (parseResult r.payload)
  else
    match s.build with
    | .l =>
      if r.type = 0x80 then s.planRecord r
      else if r.type = 0x81 then s.modeNotice r
      else if r.type = 0x83 then s.signedIn r.payload 64
      else s
    | .h => s
    | .t => if r.type = 0x82 ∧ 16 ≤ port then s.cursorIn (parseCursors r.payload) else s

/-- A hang suspect of a leaf, told by its alarm or a coalesced one (R382). -/
def State.leafSuspect (s : State) (port : Nat) (r : Rec) : State :=
  if s.build == .h && decide (40 ≤ port) && (evParse r.payload).code == 0x601 then s.suspectSeen false else s

/-- A record that goes up is forwarded; one from above that has no further way ends here (R30, R31). -/
def State.passOn (s : State) (port : Nat) (r : Rec) : State :=
  let up := match s.build with
    | .l => false
    | .h => decide (port < 36) || decide (40 ≤ port)
    | .t => decide (port < 16)
  if up then s.forwardUp r else s.consume r (fun s => s)

/-- A record that this unit may read on its way: a sample of a tree slot, a decision about its die, an alarm that may merge (R242, R278, R307). -/
def State.readOn (s : State) (port : Nat) (r : Rec) : State :=
  if s.treeReads r then s.inspectOn r (fun q s => s.treeSamples q) (fun q s => s.passOn port q)
  else if r.type = 0x46 then s.inspectOn r (fun q s => s.decisionIn q) (fun q s => s.passOn port q)
  else if s.readsAlarm r then s.inspectOn r (fun q s => s.leafSuspect port q) (fun q s => s.passOn port q)
  else s.passOn port r

/-- What a unit does with a record that it has admitted, by its type; `credits` are those of its last unit (R31, Table 1-9). -/
def State.recordUse (s : State) (port credits : Nat) (r : Rec) : State :=
  if r.type = 0x24 then s.schedTake port r
  else if r.type = 0x74 then s.snapTake r
  else if linkLocal r.type r.stream then s.localUse port r
  else if r.type = 0x40 then (if s.build = .l then s.takeDrop r 5 else s.convoyPacket port r)
  else if r.type = 0x41 then s.resultPacket port r
  else if r.type = 0x42 then s.reachPacket port r
  else if r.type = 0x45 then s.requestIn r
  else if r.type = 0x48 then s.noticeIn port r
  else if r.type = 0x50 then s.bulkIn port r (s.takesModel r) (fun s => s.modelChunk port credits r)
  else if r.type = 0x51 then s.bulkIn port r (s.takesPattern r) (fun s => s.patChunk port credits r)
  else if r.type = 0x70 ∧ s.build = .h then s.snapRecord r
  else if r.type = 0x71 ∧ s.build = .t then s.graphIn r
  else if r.type = 0x60 ∧ s.build = .h ∧ 40 ≤ port then s.aggIn port credits (recHop r)
  else s.readOn port r

/-- A record that came whole: it is checked, judged and tallied, then used (R25, R35, R47, R211, R239). -/
def State.recordIn (s : State) (port tc len credits : Nat) (red : Bool) (r : Rec) : State :=
  let (ok, s) := s.admitUnit port tc len red r
  if ok then s.recordUse port credits r else s

/-- RECORD_RECEIVED (R35): a record reaches the core island; `tc` is the class of its unit header, `len` its packet's length. -/
def execRecordReceived (port tc len : Nat) (rec : Rec) (s : State) : Host.Outcome State Fault Refusal :=
  present (decide (port < linkPorts s.build))
    (let (red, s) := s.tollRed port tc len
     s.recordIn port tc len 0 red rec)

/-- The credits of a unit stay withheld at a Selvo-T while the store lacks room for the record it completed (R453). -/
def State.pubHold (s : State) (port tc credits first : Nat) : State :=
  match s.link.pubQ.getLast? with
  | some i =>
    let waiting := s.link.pubQ.foldl (fun a x => a + recSize x.r) 0
    if first ≤ i.uid ∧ s.capOf 5 4 storeMax < s.storeUsed + waiting then
      State.modPub (s.withhold port tc credits)
        (fun p => { p with owed := p.owed ++ [(i.uid, port, tc, credits)] })
    else s
  | none => s

/-- A leaf link or fabric lane whose group idles takes no beat, which only raises the vote (R393). -/
def State.beatHeld (s : State) (port : Nat) : Bool := !isLane s.build port && !s.groupRuns port

/-- The toll decides a packet's colour when its first unit arrives, by the length that its manifest gives; later units find it decided (R239). -/
def State.unitToll (s : State) (port : Nat) (u : UnitIn) : Bool × State :=
  if u.linkCtl then (false, s)
  else if u.first then s.tollRed port u.tc ((parsePacket u.data).length + 24)
  else (((s.port port).tx8 u.tc).asm.any (fun a => a.red), s)

/-- A unit arrives at an ingress port that is up; the unit that completes a packet brings its record in (R222 to R224, R393). -/
def State.unitArrive (s : State) (port : Nat) (u : UnitIn) : State :=
  let d := 6 + portGroup s.build port
  if s.beatHeld port then s.wake d
  else if !(s.port port).up then s
  else
    let s := if s.groupRuns port then s else s.wake d
    let first := s.link.nextUid
    let credits := unitCredits u.data.length
    let (red, s) := s.unitToll port u
    match s.unitIn port u with
    | (none, s) => s.modCls port u.tc (fun x => { x with asm := x.asm.map (fun a => { a with red := red }) })
    | (some b, s) => State.pubHold (s.recordIn port u.tc b.length credits red (parsePacket b)) port u.tc credits first

/-- UNIT_RECEIVED (R223, R224). -/
def execUnitReceived (port : Nat) (u : UnitIn) (s : State) : Host.Outcome State Fault Refusal :=
  present (decide (port < linkPorts s.build) && decide (u.tc < 8)) (s.unitArrive port u)

/-! ### Datagrams of a peer (R460, R463, R464) -/

/-- A record of a peer's datagram is judged as on the link port of that neighbour, and used if it is a convoy packet (R25, R35, R464). -/
def State.peerRecord (s : State) (p : Nat) (r : Rec) : State :=
  let (ok, s) := s.peerAdmit r
  if ok && 0x40 ≤ r.type && r.type ≤ 0x42 then s.recordUse p 0 r else s

/-- The datagram next in order delivers its convoy packets, which no duplicate table judges. -/
def State.peerTake (s : State) (e dseq : Nat) (recs : List Rec) : State :=
  let s := s.modSess e (fun q => { q with peerAck := dseq })
  match s.peerConvoy e with
  | some p => recs.foldl (fun (s : State) r => s.peerRecord p r) s
  | none => s

/-- A DATA datagram of a peer's session: in order it is taken, and each is answered with the cumulative point. Any other is discarded. -/
def State.dataIn (s : State) (e session dseq : Nat) (recs : List Rec) : State :=
  let q := s.sess e
  if e < 8 ∧ s.colOn e && s.colPeer e && q.peerId != 0 && session == q.peerId then
    let s := if dseq = (q.peerAck + 1) % 2 ^ 64 then s.peerTake e dseq recs else s
    s.ethOut 2 e none (pubHdr 2 8 0 s.srcId session 0 (s.sess e).peerAck)
  else s.rxDiscard q.port

/-- DATA (R464): `recs` are the records that the datagram completes; a fragment that is not its record's last completes none. -/
def execDataDgram (e session dseq flags : Nat) (recs : List Rec) (s : State) : Host.Outcome State Fault Refusal :=
  present (s.build == .t) (s.dataIn e session dseq (if bitOf flags 0 && !bitOf flags 1 then [] else recs))

end Sys2Proof.Machine
end

