-- ==== Sys2Proof/Machine/RegAccess.lean ====
section
/-! DEFINITION. Register accesses: which values are refused, what a write does, what a read answers, the latches, and the commands
REGISTER_WRITE, RC_FIELD_READ, LATCHING_READ and ACCESS_WAKE_COMPLETE (R12 to R14, R72 to R75, R143, R515, R530). -/

namespace Sys2Proof.Machine

/-- The port whose block an offset of a page lies in, and the offset as Table 6-9 counts it (R220, R221, R444, R466). -/
def pagePort (b : Build) (page off : Nat) : Option (Nat × Nat) :=
  match b with
  | .l => none
  | .h =>
    if 0x040 ≤ page ∧ page < 0x064 then some (page - 0x040, off)
    else if 0x064 ≤ page ∧ page < 0x068 then some (36 + (page - 0x064), off)
    else if 0x080 ≤ page ∧ page < 0x098 then some (40 + (page - 0x080), off)
    else none
  | .t =>
    if 0x100 ≤ page ∧ page < 0x110 then some (page - 0x100, off)
    else if page = 0x110 ∧ 0x400 ≤ off ∧ off < 0x800 then some (16 + (off - 0x400) / 0x200, 0x080 + (off - 0x400) % 0x200)
    else none

/-! ### Values that are refused (R515, reason 5) -/

/-- A binary32 register of the DROVER page refuses a NaN, an infinity and a negative value (R417). -/
def drvFloatBad (v : Nat) : Bool := decide (0x7F800000 ≤ v) && v != 0x80000000

/-- The order of the headroom bounds that a write would leave: EMERG < FULL, and CONSTRAIN between them (R412). -/
def hrOrderBad (full constrain emerg : Nat) : Bool :=
  fLe b64 (f32to64 full) (f32to64 emerg) || fLt b64 (f32to64 constrain) (f32to64 emerg) || fLt b64 (f32to64 full) (f32to64 constrain)

/-- The sum of the work-class shares in DRV_SHARE0 and DRV_SHARE1 (R406). -/
def shareSum (v0 v1 : Nat) : Nat := fld v0 6 0 + fld v0 14 8 + fld v0 22 16 + fld v0 30 24 + fld v1 6 0 + fld v1 14 8

/-- PERIOD of generator n after a write of one half lies from 1 to 429 units (R129). -/
def State.periodBad (s : State) (n off v : Nat) : Bool :=
  let lo := if off % 0x20 = 0x10 then v else s.rd R.PLS_PERIOD_LO n
  let hi := if off % 0x20 = 0x14 then v else s.rd R.PLS_PERIOD_HI n
  decide (1 ≤ hi * 2 ^ 32 + lo) && decide (hi * 2 ^ 32 + lo ≤ 429)

/-- An exponent offset of CVY_SD_E0 outside -1,022 to 1,007 (Table 6-7). -/
def e0Bad (v : Nat) : Bool := decide (1008 ≤ v % 65536) && decide (v % 65536 < 64514)

/-- An invalid value for the DROVER page (R406, R412, R417, Table 15-11). -/
def State.drvBad (s : State) (off v : Nat) : Bool :=
  if off = 0x094 then decide (100 < v % 256)
  else if off = 0x098 then decide (100 < shareSum v (s.rd R.DRV_SHARE1))
  else if off = 0x09C then decide (100 < shareSum (s.rd R.DRV_SHARE0) v)
  else if off = 0x0A8 then drvFloatBad v || hrOrderBad v (s.rd R.DRV_HR_CONSTRAIN) (s.rd R.DRV_HR_EMERG)
  else if off = 0x0AC then drvFloatBad v || hrOrderBad (s.rd R.DRV_HR_FULL) v (s.rd R.DRV_HR_EMERG)
  else if off = 0x0B0 then drvFloatBad v || hrOrderBad (s.rd R.DRV_HR_FULL) (s.rd R.DRV_HR_CONSTRAIN) v
  else if off = 0x0B4 then decide (v % 16384 < 50) || decide (10000 < v % 16384)
  else if off = 0x0BC then decide (v % 16 < 4)
  else if off = 0x0C0 ∨ off = 0x0C8 ∨ (0x0D0 ≤ off ∧ off < 0x0FC) then drvFloatBad v
  else if 0x200 ≤ off ∧ off < 0x300 ∧ (off % 64 = 0x08 ∨ off % 64 = 0x0C) then drvFloatBad v
  else false

/-- An invalid value for a page of AON registers 0x000 to 0x007 and 0x020. -/
def State.aonBad (s : State) (page off v : Nat) : Bool :=
  if page = 0x001 then (off == 0x0A4 && s.floorBad v)
  else if page = 0x002 then (off == 0x090 && v % 4 == 3) || (off == 0x094 && decide (v % 65536 < 100))
  else if page = 0x003 then
    decide (0x080 ≤ off) && decide (off < 0x180) && (off % 0x20 == 0x10 || off % 0x20 == 0x14) && s.periodBad ((off - 0x080) / 0x20) off v
  else if page = 0x004 then off == 0x088 && v % 4 != 0
  else if page = 0x005 then s.drvBad off v
  else if page = 0x006 then off == 0x20C && (v % 256 == 0 || decide (64 < v % 256))
  else if page = 0x020 then s.muster.root && ((off == 0x094 && v != 0 && decide (v < 10)) || (off == 0x09C && s.mstArmBad v))
  else false

/-- An invalid value for a page of the core island. -/
def State.coreBad (s : State) (page off v : Nat) : Bool :=
  if page = 0x008 then decide (0x100 ≤ off) && decide (off < 0x200) && off % 16 == 0 && decide (5 ≤ v % 8)
  else if 0x010 ≤ page ∧ page < 0x020 then decide (0x880 ≤ off) && decide (off < 0xC80) && (page != 0x010 || decide (0x980 ≤ off)) && ctrCfgBad v
  else if page = 0x021 then
    (off == 0x0A0 || off == 0x0A4) && (List.range 4).any (fun k => decide (16 < v / 256 ^ k % 32))
  else if page = 0x022 then off % 0x20 == 0x00 && decide (24 ≤ fld v 12 8)
  else if page = 0x023 then
    (decide (0x100 ≤ off) && decide (off < 0x138) && tolBad v) || (off == 0x310 && s.patGoBad v)
  else if page = 0x024 then
    (off == 0x080 && fld v 3 2 == 3) || (off == 0x0A4 && (decide (v % 32 < 10) || decide (16 < v % 32))) || (off == 0x104 && s.trace.load.isNone)
  else if page = 0x026 then
    (off == 0x094 && decide (featMax s.build ≤ v % 1024)) || (off == 0x0C0 && decide (featMax s.build ≤ 512 * (v % 4)))
  else if page = 0x028 then
    (off == 0x09C && !s.treeDataOk) ||
      (s.build == .l && decide (0x100 ≤ off) && decide (off < 0x200) && off % 64 == 0 && bitOf v 3)
  else if page = 0x029 then off == 0x200 && s.admitBad v
  else if page = 0x02A then
    (off == 0x098 && decide (slotCount s.build ≤ v % 1024)) || (off == 0x0D0 && (e0Bad v || e0Bad (v / 65536)))
  else if page = 0x02B then (off == 0x080 && v / 65536 == 0) || (off == 0x084 && decide (linkPorts s.build ≤ v % 256))
  else if page = 0x02C then
    (off == 0x080 && (decide (v % 65536 < 10) || decide (10000 < v % 65536))) || (off == 0x084 && (decide (v % 64 < 5) || decide (40 < v % 64)))
  else if page = 0x02D then (off == 0x080 && decide (100 < fld v 15 8)) || (off == 0x084 && fld v 9 8 == 3)
  else if page = 0x02E then
    (off == 0x084 && (List.range 4).any (fun k => bitOf v (4 * k + 3))) || (off == 0x08C && decide (65536 < v % 2 ^ 17))
  else if page = 0x030 then off == 0x0A4 && decide (v % 65536 < 10)
  else false

/-- PAD_THERM_TRIP takes 85.0 to 115.0 (Table 16-10). -/
def tripBad (v : Nat) : Bool := !(fLe b64 (f32to64 0x42AA0000) (f32to64 v) && fLe b64 (f32to64 v) (f32to64 0x42E60000))

/-- An invalid value for a page of Selvo-T from 0x110 on. -/
def State.boardBad (s : State) (page off v : Nat) : Bool :=
  if page = 0x110 then off == 0x120 && (decide (v % 65536 < 100) || decide (2500 < v % 65536))
  else if page = 0x111 ∨ page = 0x112 then
    (off == 0x0B4 && (decide (v % 16384 < 1280) || decide (9216 < v % 16384))) ||
      (off == 0x0BC && decide (4 < ((List.range 8).filter (fun k => bitOf v k)).length))
  else if page = 0x115 then off == 0x084 && (decide (v % 128 < 8) || decide (0x78 ≤ v % 128))
  else if page = 0x116 then
    (off == 0x094 && !fLt b64 (f32to64 (s.rd R.COOL_HR_LO)) (f32to64 v)) || (off == 0x098 && !fLt b64 (f32to64 v) (f32to64 (s.rd R.COOL_HR_HI))) ||
      (off == 0x09C && decide (100 < v % 128)) || (decide (0x100 ≤ off) && off % 16 == 0 && decide (100 < v % 128))
  else if page = 0x117 then off == 0x094 && tripBad v
  else false

/-- The written value is one that the owning chapter refuses (R515, reason 5). -/
def State.writeBad (s : State) (page off v : Nat) : Bool :=
  if off < 0x080 then false
  else if page < 0x008 ∨ page = 0x020 then s.aonBad page off v
  else if page < 0x040 then s.coreBad page off v
  else if s.build = .t ∧ 0x110 ≤ page then s.boardBad page off v
  else false

/-- A register of a command slot that firmware owns is locked against the host driver (R476). -/
def State.writeOwned (s : State) (a : Acc) (page off : Nat) : Bool :=
  page == 0x007 && decide (0x200 ≤ off) && decide (off < 0xE00) && a.cls == .host && s.slotOwned ((off - 0x200) / 0x30)

/-! ### What a write does -/

/-- Effects on pages 0x000 to 0x007 beyond the plain write; none: the plain write. -/
def State.aonEff (s : State) (page off v : Nat) : Option State :=
  if page = 0x001 then (if off = 0x0A4 then some (s.floorRaise v) else none)
  else if page = 0x002 then (if off = 0x090 then some (s.timeMode v) else if off = 0x0DC then some (s.timeSet v) else if off = 0x100 then some (s.ptpCtrl v) else none)
  else if page = 0x003 then
    if off = 0x180 then some (s.pulseArm v)
    else if off = 0x184 then some (s.pulseDisarm v)
    else if 0x200 ≤ off ∧ off % 0x20 = 0x10 then some (s.capPop ((off - 0x200) / 0x20) v)
    else none
  else if page = 0x004 then
    if off = 0x088 then some (s.setIdle v)
    else if off = 0x090 then some (s.setHostVotes v)
    else if off = 0x094 then some (s.setFwVotes v)
    else none
  else if page = 0x006 then
    if off = 0x080 ∧ s.build ≠ .t then some (s.wr R.EVR_CTRL (v % 2))
    else if off = 0x0AC then
      match codeInfo (fld (s.rd R.EVR_CODE_SEL) 11 0) with
      | some (_, _, _, builds) => if builds.testBit (buildBit s.build) then none else some s
      | none => some s
    else none
  else if page = 0x007 then
    if off = 0x0A0 then some s.heartbeat
    else if off = 0x0B4 then some (s.dataWrite v)
    else if off = 0x0E4 then some (s.uaAck v)
    else if 0x200 ≤ off ∧ (off - 0x200) % 0x30 = 0 then some (s.slotSubmit ((off - 0x200) / 0x30) v)
    else none
  else none

/-- A write of CTR_WRAPPED: the page's interrupt bit follows (R174). -/
def State.wrappedWrite (s : State) (page off v : Nat) : State :=
  let j := (off - 0xC84) / 4
  let s := s.wr R.CTR_WRAPPED (s.rd R.CTR_WRAPPED j 0 (page - 0x010) &&& (0xFFFFFFFF ^^^ v)) j 0 (page - 0x010)
  s.wr R.CMN_IRQ_STATUS (s.irqHeld page) (pg := page)

/-- Effects on the ABFT page beyond the plain write. -/
def State.abftEff (s : State) (off v : Nat) : Option State :=
  if off = 0x080 then some (s.abftCtrl v)
  else if off = 0x0CC then some (if bitOf v 0 then s.modAbft (fun x => { x with tainted := false }) else s)
  else if off = 0x310 then some (s.patGo v)
  else if 0x410 ≤ off ∧ off % 16 = 0x0C then some (if bitOf v 0 then s.modPlace ((off - 0x410) / 16) (fun _ => PatPlace.empty) else s)
  else none

/-- Effects on the TRACE page beyond the plain write. -/
def State.traceEff (s : State) (off v : Nat) : Option State :=
  if off = 0x080 then some (s.trcCtrl v)
  else if off = 0x08C then some (if bitOf v 0 then s.trcArm else s)
  else if off = 0x09C then some (if bitOf v 0 then s.trcTrigger (2 ^ 16) else s)
  else if off = 0x100 then some (s.tokCtrl v)
  else if off = 0x104 then some (s.tokData v)
  else if off = 0x10C then some (s.tokRevoke v)
  else none

/-- Effects on the sampling, checking and trace pages 0x008 to 0x025 beyond the plain write. -/
def State.tapEff (s : State) (page off v : Nat) : Option State :=
  if 0x010 ≤ page ∧ page < 0x020 then
    if 0x880 ≤ off ∧ off < 0xC80 then some (s.ctrCfgWrite (256 * (page - 0x010) + (off - 0x880) / 4) v)
    else if 0xC84 ≤ off then some (s.wrappedWrite page off v)
    else none
  else if page = 0x020 then
    if off = 0x09C then some (s.mstArmWrite v) else if s.schedOwned off then some s else none
  else if page = 0x021 then (if off = 0x20C then some (s.clPop v) else none)
  else if page = 0x023 then s.abftEff off v
  else if page = 0x024 then s.traceEff off v
  else if page = 0x025 then (if off = 0x0E0 then some (s.tbRelease v) else none)
  else none

/-- A write of FEAT_LOAD_LO, held back until the shadow copy is done (R263). -/
def State.featLoadLo (s : State) (v : Nat) : State :=
  let s := s.featCopy
  { s with feat := { s.feat with lo := v } }

/-- A budget register of the keeper: the level is brought up to now first (R311). -/
def State.budgetWrite (s : State) (r : Reg) (v : Nat) : State := s.budgetRefill.wr r (v &&& r.mask)

/-- Effects on pages 0x026 to 0x030 beyond the plain write. -/
def State.engEff (s : State) (page off v : Nat) : Option State :=
  if page = 0x026 then
    if off = 0x098 then some (s.featLoadLo v)
    else if off = 0x09C then some (s.featLoadHi v)
    else if off = 0x0A4 then some (s.featSwapWrite v)
    else if 0x100 ≤ off ∧ off < 0x500 then some (s.featStatWrite ((off - 0x100) / 4) v)
    else if 0x900 ≤ off ∧ off < 0xA00 then some (s.featConstWrite ((off - 0x900) / 4) v)
    else none
  else if page = 0x028 then
    if off = 0x098 then some (s.treeLoadCtrl v)
    else if off = 0x09C then some (s.treeLoadData v)
    else if 0x100 ≤ off ∧ off < 0x200 ∧ off % 64 = 0x30 then some (s.tslCancel ((off - 0x100) / 64) v)
    else none
  else if page = 0x029 then
    if 0x0A4 ≤ off ∧ off ≤ 0x0CC ∧ s.convoy.keeper = false then some s
    else if off = 0x0A0 then some (s.outClear v)
    else if off = 0x0A4 then some (if bitOf v 0 then s.stepBoundary else s)
    else if off = 0x0AC then some (s.budgetWrite R.OUT_BUDGET_RATE v)
    else if off = 0x0B0 then some (s.budgetWrite R.OUT_BUDGET_BURST v)
    else if off = 0x0CC then some (s.advAck v)
    else if off = 0x200 then some (s.admitWrite v)
    else none
  else if page = 0x02B then (if off = 0x10C then some (s.flowApply v) else none)
  else none

/-- A write of a port's block (Table 6-9, Table 17-5): EN = 0 takes the port down. -/
def State.portEff (s : State) (p off v : Nat) : Option State :=
  if off = 0x08C then
    let s := s.pwr R.FP_CTRL p (v % 2)
    some (if bitOf v 0 then s else s.linkDown p 2)
  else if off = 0x090 then some (s.quarRelease p v).admitNext
  else if off = 0x300 then some (s.laneCtrl p v)
  else none

/-- A write of PUB_CTRL: sessions open and close with EN (R461). -/
def State.pubCtrlWrite (s : State) (v : Nat) : State :=
  let was := (List.range 8).map (fun e => s.colOn e)
  (s.wr R.PUB_CTRL (v % 2)).colRefresh was

/-- A write of ETH_CTRL: sessions move to the port they should use (R461). -/
def State.ethCtrlWrite (s : State) (p v : Nat) : State := (s.wr R.ETH_CTRL (v &&& 0xFFF3) (pg := p)).sessMoves

/-- A write of a word of ETH_ADDR: the new address is checked for duplicates afresh (R458; log entry 46). -/
def State.ethAddrWrite (s : State) (p i v : Nat) : State :=
  let s := s.wr R.ETH_ADDR v i 0 p
  s.modPub (fun x => { x with dadFail := x.dadFail.set p false })

/-- Effects on pages 0x110 to 0x117 of Selvo-T beyond the plain write. -/
def State.boardEff (s : State) (page off v : Nat) : Option State :=
  if page = 0x111 ∨ page = 0x112 then
    if off = 0x084 then some (s.ethCtrlWrite (page - 0x111) v)
    else if 0x090 ≤ off ∧ off < 0x0A0 then some (s.ethAddrWrite (page - 0x111) ((off - 0x090) / 4) v)
    else if page = 0x111 ∧ off = 0x100 then some (s.pubCtrlWrite v)
    else if page = 0x111 ∧ off = 0x200 then some (s.colWrite v)
    else none
  else if page = 0x117 then
    (if off = 0x088 then some (s.padRelease v)
     else if off = 0x094 then some (s.wr R.PAD_THERM_TRIP v).thermPin
     else none)
  else none

/-- A write of SLOT_POST_LO keeps the low half until SLOT_POST_HI posts both (Table 6-8). -/
def State.slotPostLo (s : State) (k v : Nat) : State :=
  { s with convoy := { s.convoy with slots := modNth s.convoy.slots k (fun (p : Nat × Slot) => (p.1, { p.2 with postLo := v })) } }

/-- A write has left a class of a port blocked by a zero profile that was not blocked before: TRAFFIC interrupt bit 1 (R235, R248). -/
def State.tellBlocked (s old : State) : State :=
  if (List.range (egressPorts s.build)).any (fun p => (List.range 7).any (fun c => s.shapeBlocked p (c + 1) && !old.shapeBlocked p (c + 1))) then s.irq 0x02C 1
  else s

/-- What a write that meets no reason does to the register it names (R12, R13, R73). -/
def State.regEff (s : State) (addr v : Nat) : State :=
  let page := addr / 4096
  let off := addr % 4096
  match s.target addr with
  | .reg r i j pg bk =>
    if off < 0x080 then s.cmnWrite page off v
    else if r.page = 0x02A ∧ r.off = 0x274 then s.slotPostLo bk v
    else if r.page = 0x02A ∧ r.off = 0x278 then s.slotPost bk v
    else
      let eff := match pagePort s.build page off with
        | some (p, o) => s.portEff p o v
        | none =>
          if page < 0x008 then s.aonEff page off v
          else if page < 0x026 then s.tapEff page off v
          else if page < 0x040 then s.engEff page off v
          else if s.build = .t then s.boardEff page off v
          else none
      match eff with
      | some t => t
      | none =>
        if page = 0x02C ∧ (off = 0x084 ∨ (0x100 ≤ off ∧ off < 0x520)) then (s.settle.store r i j pg bk v).tellBlocked s
        else if page = 0x02D ∧ 0x100 ≤ off ∧ off < 0x260 then s.tollSettle.store r i j pg bk v
        else s.store r i j pg bk v
  | _ => s

/-- A register write with its checks. -/
def State.regWrite (s : State) (a : Acc) (addr v : Nat) : State :=
  s.guardedWrite a addr v (s.writeOwned a (addr / 4096) (addr % 4096)) (s.writeBad (addr / 4096) (addr % 4096) v) (fun s => s.regEff addr v)

/-- REGISTER_WRITE (R12 to R14, R73, R515): a write of any register; a register whose write has a row of its own does the same here. -/
def execRegisterWrite (a : Acc) (addr : Nat) (data : Word) (s : State) : Host.Outcome State Fault Refusal :=
  .next (s.regWrite a addr data.toNat)

/-! ### What a read answers -/

/-- SMB_STATUS: a transaction that waits on a domain is in progress and stretches SCL (R533). -/
def State.smbStatus (s : State) : Nat := if s.core.wait.any (fun w => w.acc.path == .smbus) then 3 else 0

/-- A register whose value is not held in the register file. -/
def State.liveWord (s : State) (page off : Nat) : Option Nat :=
  if off < 0x080 then s.cmnLive page off
  else
    match pagePort s.build page off with
    | some (p, o) => s.portLive p o
    | none =>
      if page = 0x000 then s.identLive off
      else if page = 0x001 then s.authLive off
      else if page = 0x002 then s.timeLive off
      else if page = 0x003 then s.pulseLive off
      else if page = 0x004 then s.powerLive off
      else if page = 0x005 then s.droverLive off
      else if page = 0x006 then s.evLive off
      else if page = 0x007 then s.fwLive off
      else if page < 0x010 then s.tapLive page off
      else if page < 0x020 then s.ctrLive page off
      else if page = 0x020 then s.musterLive off
      else if page = 0x021 then s.clLive off
      else if page = 0x023 then s.abftLive off
      else if page = 0x024 then s.tracePageLive off
      else if page = 0x025 then s.traceBufLive off
      else if page = 0x026 ∨ page = 0x027 then s.featLive page off
      else if page = 0x028 then s.treeLive off
      else if page = 0x029 then s.outLive off
      else if page = 0x02A then s.convoyLive off
      else if page = 0x02B then s.flowLive off
      else if page = 0x02C then s.trafficLive off
      else if page = 0x02D then s.tollLive off
      else if page = 0x02E then s.codecLive off
      else if page = 0x02F then s.hangLive off
      else if page = 0x030 then s.repLive off
      else if s.build = .t then
        if page = 0x110 then s.pairLive off
        else if page = 0x111 ∨ page = 0x112 then s.ethLive (page - 0x111) off
        else if page = 0x113 then (if off = 0x094 then some s.bar2Map else none)
        else if page = 0x114 then s.flashLive off
        else if page = 0x115 then (if off = 0x088 then some s.smbStatus else none)
        else if page = 0x116 then s.coolLive off
        else none
      else none

/-- The value an address reads now, and the free values the read draws: the levels of balls that the board drives. -/
def State.peek (s : State) (addr : Nat) : Nat × State :=
  let page := addr / 4096
  let off := addr % 4096
  match s.target addr with
  | .reg r i j pg bk =>
    if r.acc = .wo then (0, s)
    else if page = 0x117 ∧ s.build = .t ∧ 0x080 ≤ off then
      let (f, t) := if off = 0x08C then s.draw else (0, s)
      (((s.padsLive off f).getD (s.rd r i j pg bk)) % 2 ^ 32, t)
    else if page = 0x004 ∧ off = 0x098 then (s.rd R.PWR_LOSS &&& s.rd R.PWR_DOM_PRESENT, s)
    else (((s.liveWord page off).getD (s.rd r i j pg bk)) % 2 ^ 32, s)
  | .adopt idx w => (((s.adoptTable[idx]?).map (fun a => adoptWord a w)).getD 0 % 2 ^ 32, s)
  | _ => (0, s)

/-- The words that a read of one word latches, as byte offsets of its page (R143, R530). -/
def latchedBy (b : Build) (page off : Nat) : List Nat :=
  let next (l : List Nat) : List Nat := l.map (fun d => off + d)
  if off = 0x038 ∨ off = 0x048 then next [4]
  else
    match pagePort b page off with
    | some (_, o) => if (0x0A0 ≤ o ∧ o < 0x1A0 ∧ o % 8 = 0) ∨ o = 0x304 then next [4] else []
    | none =>
      if page = 0x000 then (if off = 0x080 then next [4] else [])
      else if page = 0x001 then (if off = 0x084 ∨ off = 0x098 then next [4] else [])
      else if page = 0x002 then (if off = 0x080 then next [4, 8] else if off = 0x0A8 ∨ off = 0x108 then next [4] else [])
      else if page = 0x003 then (if 0x200 ≤ off ∧ off % 0x20 = 0x04 then next [4, 8] else [])
      else if page = 0x007 then (if off = 0x0C0 then next [4, 8, 12] else [])
      else if 0x010 ≤ page ∧ page < 0x020 then (if 0x080 ≤ off ∧ off < 0x880 ∧ off % 8 = 0 then next [4] else [])
      else if page = 0x020 then (if off = 0x0AC then next [4, 8] else [])
      else if page = 0x022 then (if 0x080 ≤ off ∧ off < 0x180 ∧ off % 0x20 = 0x10 then next [4] else [])
      else if page = 0x023 then (if off = 0x08C ∨ off = 0x0D8 then next [4] else if off = 0x208 then next [4, 8, 12] else [])
      else if page = 0x024 then (if off = 0x114 then next [4, 8, 12] else [])
      else if page = 0x025 then (if 0x0A0 ≤ off ∧ off < 0x0E0 ∧ off % 16 = 8 then next [4] else [])
      else if page = 0x026 then (if off = 0x0CC then next [4] else [])
      else if page = 0x028 then
        if off = 0x0B0 then next [4]
        else if 0x400 ≤ off ∧ off < 0x500 ∧ off % 64 = 0 then
          next ((List.range 15).map (fun k => 4 * k + 4)) ++ [0x600 + (off - 0x400) / 8, 0x604 + (off - 0x400) / 8]
        else []
      else if page = 0x029 then (if off = 0x0D4 then next [4] else if off = 0x0E0 then next [4, 8] else [])
      else if page = 0x02E then (if off = 0x094 ∨ off = 0x09C then next [4] else [])
      else if page = 0x02F then (if 0x100 ≤ off ∧ off < 0x200 ∧ off % 8 = 0 then next [4] else [])
      else if b = .t ∧ page = 0x110 then (if off = 0x114 then next [4] else [])
      else if b = .t ∧ page = 0x111 then (if off = 0x220 then next [4, 8, 12] else [])
      else []

/-- A read latches other words for its path and class, at the values they have now (R530). -/
def State.latchWords (s : State) (a : Acc) (addr : Nat) : State :=
  (latchedBy s.build (addr / 4096) (addr % 4096)).foldl (fun (s : State) off =>
    let key := addr / 4096 * 4096 + off
    let l : Latched := { acc := a, key := key, value := (s.peek key).1 }
    { s with core := { s.core with latches := s.core.latches.filter (fun x => !(x.acc == a && x.key == key)) ++ [l] } }) s

/-- A read of an RC register returns it to its reset value (R13); a keeper register reads 0 away from the keeper and is not touched (R317). -/
def State.rcClear (s : State) (addr : Nat) : State :=
  match s.target addr with
  | .reg r i j pg bk =>
    if r.acc = .rc ∧ !(r.page = 0x029 && decide (r.off ≤ 0x0CC) && !s.convoy.keeper) then s.wr r (r.resetVal s.build s.bs i j pg bk) i j pg bk else s
  | _ => s

/-- What a read that meets no reason answers and does: the latched value at the first read after the latch, else the live value. -/
def State.readEff (s : State) (a : Acc) (addr : Nat) : Nat × State :=
  match s.core.latches.find? (fun x => x.acc == a && x.key == addr) with
  | some l => (l.value, { s with core := { s.core with latches := s.core.latches.filter (fun x => !(x.acc == a && x.key == addr)) } })
  | none =>
    if addr = 0x0070B4 ∧ s.build ≠ .l then s.dataRead
    else
      let (v, s) := s.peek addr
      (v, (s.latchWords a addr).rcClear addr)

/-- A register read with its checks. -/
def State.regRead (s : State) (a : Acc) (addr : Nat) : State := s.guardedRead a addr (fun s => s.readEff a addr)

/-- RC_FIELD_READ (R13, R14): the value is returned, and the register returns to its reset value. -/
def execRcFieldRead (a : Acc) (addr : Nat) (s : State) : Host.Outcome State Fault Refusal := .next (s.regRead a addr)

/-- LATCHING_READ (R143, R530): the value is returned, and the words it goes with are latched. -/
def execLatchingRead (a : Acc) (addr : Nat) (s : State) : Host.Outcome State Fault Refusal := .next (s.regRead a addr)

/-! ### Accesses that waited (R75) -/

/-- The SMBus target ends its transaction: it acknowledges, or NACKs the last byte and holds 0 for 0x12 (R533). -/
def State.smbEnd (s : State) (write counted : Bool) : State :=
  let r := s.core.rspSmb
  let s := { s with core := { s.core with smbAck := !r.err, smbHeld := if r.err then 0 else if write then s.core.smbHeld else r.data } }
  if r.err then
    let s := if counted then s.bumpSat R.SMB_NACK else s
    s.irq 0x115 0
  else s.bumpSat R.SMB_TRANSACTIONS

/-- One access made over a path, to its response or its wait; SMBus adds the end of its transaction. -/
def State.access (s : State) (a : Acc) (addr : Nat) (write : Bool) (data : Nat) : State :=
  let vd := s.verdict a addr write (write && s.writeOwned a (addr / 4096) (addr % 4096)) (write && s.writeBad (addr / 4096) (addr % 4096) data)
  let t := if write then s.regWrite a addr data else s.regRead a addr
  match a.path, vd with
  | .smbus, .wait _ => t
  | .smbus, .off => t.smbEnd write false
  | .smbus, _ => t.smbEnd write true
  | _, _ => t

/-- The register port's responses leave in request order: the last that leaves, and what still waits (R72). -/
def flushWait : List WaitAcc → Option Resp → Option Resp × List WaitAcc
  | [], r => (r, [])
  | w :: l, r =>
    if w.acc.path = .regPort then
      match w.rsp with
      | some x => flushWait l (some x)
      | none => (r, w :: l)
    else ((flushWait l r).1, w :: (flushWait l r).2)

/-- An access that waited is made: it has its response, or waits anew. -/
def State.accessLate (s : State) (w : WaitAcc) : State × List WaitAcc :=
  let s := State.access { s with core := { s.core with wait := [] } } w.acc w.addr w.write w.data
  (s, if !s.core.wait.isEmpty then s.core.wait else if w.acc.path = .regPort then [{ w with rsp := some s.core.rspPort }] else [])

/-- The accesses that waited on a domain are made, in the order in which they came. -/
def State.wakeAccesses (s : State) (d : Nat) : State :=
  let (t, l) := s.core.wait.foldl (fun (x : State × List WaitAcc) w =>
    if w.rsp.isSome || w.dom != d then (x.1, x.2 ++ [w])
    else
      let (t, l) := x.1.accessLate w
      (t, x.2 ++ l)) (s, [])
  let (r, l) := flushWait l none
  { t with core := { t.core with wait := l, rspPort := r.getD s.core.rspPort } }

/-- ACCESS_WAKE_COMPLETE (R72, R75): the accesses that waited on a domain are made once it is in Run. -/
def execAccessWakeComplete (d : Nat) (s : State) : Host.Outcome State Fault Refusal :=
  present (s.dom d).isSome (if s.inRun d then s.wakeAccesses d else s)

end Sys2Proof.Machine
end

