-- ==== Sys2Proof/Machine/Smbus.lean ====
section
/-! DEFINITION. The SMBus target of Selvo-T: its three commands, their refusals and the PEC (R533, R534, Table 22-2). -/

namespace Sys2Proof.Machine

/-- How an SMBus request reaches the window: privilege class 2 (R514, R533). -/
def smbAcc : Acc := { path := .smbus, cls := .bmc }

/-- The target NACKs a byte: the interrupt bit, and the count where R534 names it. -/
def State.smbNack (s : State) (counted : Bool) : State :=
  let s : State := { s with core := { s.core with smbAck := false } }
  (if counted then s.bumpSat R.SMB_NACK else s).irq 0x115 0

/-- An access of 0x10 or 0x11; address bits [23:21] name no page of the window (R529, R533). -/
def State.smbAccess (s : State) (m : SmbMsg) (write : Bool) : State := s.access smbAcc (leAt m.body 0 3) write (leAt m.body 3 4)

/-- The target takes a message: it must be enabled, and it stretches SCL while an earlier access waits. -/
def State.smbTakes (s : State) : Bool := bitOf (s.rd R.SMB_CTRL) 0 && !s.core.wait.any (fun w => w.acc.path == .smbus)

/-- A refused PEC: NACKed at the last byte, counted in SMB_PEC_ERR and not performed (R533). -/
def State.smbPecBad (s : State) : State := ((s.smbNack false).bumpSat R.SMB_PEC_ERR).irq 0x115 1

/-- The PEC of a message is required and not valid. -/
def State.pecRefused (s : State) (m : SmbMsg) : Bool := bitOf (s.rd R.SMB_CTRL) 1 && !(m.pec && m.pecGood)

/-- The word that 0x12 returns. -/
def State.smbReturn (s : State) : State :=
  State.bumpSat { s with core := { s.core with smbAck := true, rspSmb := ⟨s.core.smbHeld, false⟩ } } R.SMB_TRANSACTIONS

/-- One message, by its command code (Table 22-2): another code or byte count is NACKed at the command byte. -/
def State.smbMessage (s : State) (m : SmbMsg) : State :=
  if !s.smbTakes then s
  else if m.code = 0x12 then s.smbReturn
  else if !(m.code == 0x10 && m.body.length == 7) && !(m.code == 0x11 && m.body.length == 3) then s.smbNack true
  else if s.pecRefused m then s.smbPecBad
  else s.smbAccess m (m.code == 0x10)

/-- SMB_WRITE_WORD (R533): 0x10 writes a word after its last data byte. -/
def execSmbWriteWord (m : SmbMsg) (s : State) : Host.Outcome State Fault Refusal := present (s.build == .t) (s.smbMessage m)

/-- SMB_READ_ADDRESS (R533): 0x11 reads a word after its last byte and holds it. -/
def execSmbReadAddress (m : SmbMsg) (s : State) : Host.Outcome State Fault Refusal := present (s.build == .t) (s.smbMessage m)

/-- SMB_READ_WORD (R533): 0x12 returns the word held; it is 0 after power-on. -/
def execSmbReadWord (m : SmbMsg) (s : State) : Host.Outcome State Fault Refusal := present (s.build == .t) (s.smbMessage m)

end Sys2Proof.Machine
end

