-- ==== Sys2Proof/Machine/Dispatch.lean ====
section
/-! DEFINITION. One arm per command: each arm calls the meaning of its command, and nothing else. -/

namespace Sys2Proof.Machine

def exec (i : Instr) (s : State) : Host.Outcome State Fault Refusal :=
  match i with
  | .registerWrite a addr data => Sys2Proof.Machine.execRegisterWrite a addr data s
  | .rcFieldRead a addr => Sys2Proof.Machine.execRcFieldRead a addr s
  | .latchingRead a addr => Sys2Proof.Machine.execLatchingRead a addr s
  | .accessWakeComplete d => Sys2Proof.Machine.execAccessWakeComplete d s
  | .violClear a page data => Sys2Proof.Machine.execViolClear a page data s
  | .irqClear a page data => Sys2Proof.Machine.execIrqClear a page data s
  | .cmnLockSet a page data => Sys2Proof.Machine.execCmnLockSet a page data s
  | .hostVoteWrite a addr data => Sys2Proof.Machine.execHostVoteWrite a addr data s
  | .firmwareVoteWrite a data => Sys2Proof.Machine.execFirmwareVoteWrite a data s
  | .pwrIdleWrite a data => Sys2Proof.Machine.execPwrIdleWrite a data s
  | .powerOnReset => Sys2Proof.Machine.execPowerOnReset s
  | .powerOnResetRelease straps slow => Sys2Proof.Machine.execPowerOnResetRelease straps slow s
  | .railOrThermalTrip kind => Sys2Proof.Machine.execRailOrThermalTrip kind s
  | .warmReset => Sys2Proof.Machine.execWarmReset s
  | .warmResetRelease slow => Sys2Proof.Machine.execWarmResetRelease slow s
  | .tapIslandReset n => Sys2Proof.Machine.execTapIslandReset n s
  | .linkGroupReset g slow => Sys2Proof.Machine.execLinkGroupReset g slow s
  | .quiesceRequest isl => Sys2Proof.Machine.execQuiesceRequest isl s
  | .quiesceDrained isl => Sys2Proof.Machine.execQuiesceDrained isl s
  | .quiesceRelease isl => Sys2Proof.Machine.execQuiesceRelease isl s
  | .discovery answers => Sys2Proof.Machine.execDiscovery answers s
  | .discoveryTimeout port => Sys2Proof.Machine.execDiscoveryTimeout port s
  | .quarantineRelease a port data => Sys2Proof.Machine.execQuarantineRelease a port data s
  | .identityTakesEffect => Sys2Proof.Machine.execIdentityTakesEffect s
  | .recordReceived port tc len rec => Sys2Proof.Machine.execRecordReceived port tc len rec s
  | .unitReceived port u => Sys2Proof.Machine.execUnitReceived port u s
  | .egressUnitBoundary port bad => Sys2Proof.Machine.execEgressUnitBoundary port bad s
  | .linkCtlSend port => Sys2Proof.Machine.execLinkCtlSend port s
  | .linkCtlKeepalive port => Sys2Proof.Machine.execLinkCtlKeepalive port s
  | .linkCtlReceived port entries => Sys2Proof.Machine.execLinkCtlReceived port entries s
  | .creditInitReceived port bitmap rateMax totals => Sys2Proof.Machine.execCreditInitReceived port bitmap rateMax totals s
  | .creditInitAckReceived port bitmap => Sys2Proof.Machine.execCreditInitAckReceived port bitmap s
  | .flowApply a data => Sys2Proof.Machine.execFlowApply a data s
  | .classQuiesceDone port cls => Sys2Proof.Machine.execClassQuiesceDone port cls s
  | .censusMarkSend port => Sys2Proof.Machine.execCensusMarkSend port s
  | .censusMarkReceived port num cls => Sys2Proof.Machine.execCensusMarkReceived port num cls s
  | .censusEchoReceived port num cls f released => Sys2Proof.Machine.execCensusEchoReceived port num cls f released s
  | .censusTimeout port => Sys2Proof.Machine.execCensusTimeout port s
  | .linkTrainingStart port => Sys2Proof.Machine.execLinkTrainingStart port s
  | .linkDown port cause => Sys2Proof.Machine.execLinkDown port cause s
  | .countingTapIncrement tap sum => Sys2Proof.Machine.execCountingTapIncrement tap sum s
  | .sensorReading sns value faulty count => Sys2Proof.Machine.execSensorReading sns value faulty count s
  | .sensorStaleTimeout sns => Sys2Proof.Machine.execSensorStaleTimeout sns s
  | .triggerNotification t => Sys2Proof.Machine.execTriggerNotification t s
  | .tapClockChange n running mhz => Sys2Proof.Machine.execTapClockChange n running mhz s
  | .commandBoundary c start stop tag lost => Sys2Proof.Machine.execCommandBoundary c start stop tag lost s
  | .latchEntryEmit => Sys2Proof.Machine.execLatchEntryEmit s
  | .clPop a data => Sys2Proof.Machine.execClPop a data s
  | .ctrCfgApply => Sys2Proof.Machine.execCtrCfgApply s
  | .tensorWatchBeat w first last tensor lanes slots lost => Sys2Proof.Machine.execTensorWatchBeat w first last tensor lanes slots lost s
  | .checksumBeat lanes lost => Sys2Proof.Machine.execChecksumBeat lanes lost s
  | .traceItem cls priv ctx data lost => Sys2Proof.Machine.execTraceItem cls priv ctx data lost s
  | .waitStateBeat engine kind target => Sys2Proof.Machine.execWaitStateBeat engine kind target s
  | .refClockFault kind => Sys2Proof.Machine.execRefClockFault kind s
  | .refClockRecovered => Sys2Proof.Machine.execRefClockRecovered s
  | .timeExchangeStart => Sys2Proof.Machine.execTimeExchangeStart s
  | .probeReceived port num => Sys2Proof.Machine.execProbeReceived port num s
  | .replyReceived port num => Sys2Proof.Machine.execReplyReceived port num s
  | .resultReceived port res => Sys2Proof.Machine.execResultReceived port res s
  | .resultTimeout port => Sys2Proof.Machine.execResultTimeout port s
  | .probeTimeout port => Sys2Proof.Machine.execProbeTimeout port s
  | .holdoverExpiry => Sys2Proof.Machine.execHoldoverExpiry s
  | .timeModeReq a data => Sys2Proof.Machine.execTimeModeReq a data s
  | .timeSet a data => Sys2Proof.Machine.execTimeSet a data s
  | .timeAnchorDue stream tc => Sys2Proof.Machine.execTimeAnchorDue stream tc s
  | .ptpSyncReceived p m => Sys2Proof.Machine.execPtpSyncReceived p m s
  | .ptpDelayRespReceived p m mine => Sys2Proof.Machine.execPtpDelayRespReceived p m mine s
  | .ptpAnnounceReceived p m ann => Sys2Proof.Machine.execPtpAnnounceReceived p m ann s
  | .ptpAnnounceTimeout p => Sys2Proof.Machine.execPtpAnnounceTimeout p s
  | .pulseArm a data => Sys2Proof.Machine.execPulseArm a data s
  | .pulseDisarm a data => Sys2Proof.Machine.execPulseDisarm a data s
  | .pulseEdge n => Sys2Proof.Machine.execPulseEdge n s
  | .captureEdge c rising => Sys2Proof.Machine.execCaptureEdge c rising s
  | .capPop a c data => Sys2Proof.Machine.execCapPop a c data s
  | .mstArm a data => Sys2Proof.Machine.execMstArm a data s
  | .mstStop a data => Sys2Proof.Machine.execMstStop a data s
  | .mstRelease a data => Sys2Proof.Machine.execMstRelease a data s
  | .scheduleRecordReceived port rec => Sys2Proof.Machine.execScheduleRecordReceived port rec s
  | .scheduleActionTime => Sys2Proof.Machine.execScheduleActionTime s
  | .musterLead => Sys2Proof.Machine.execMusterLead s
  | .musterCut => Sys2Proof.Machine.execMusterCut s
  | .musterImageComplete cb tr tw ck => Sys2Proof.Machine.execMusterImageComplete cb tr tw ck s
  | .musterLateIslandTimeout n => Sys2Proof.Machine.execMusterLateIslandTimeout n s
  | .musterLateLatch => Sys2Proof.Machine.execMusterLateLatch s
  | .musterRecordEmit => Sys2Proof.Machine.execMusterRecordEmit s
  | .holdMaxExpiry => Sys2Proof.Machine.execHoldMaxExpiry s
  | .convoyContribution slot => Sys2Proof.Machine.execConvoyContribution slot s
  | .convoyPacketReceived port rec => Sys2Proof.Machine.execConvoyPacketReceived port rec s
  | .convoyDeadline slot => Sys2Proof.Machine.execConvoyDeadline slot s
  | .broadcastResultReceived port rec => Sys2Proof.Machine.execBroadcastResultReceived port rec s
  | .broadcastRetryTimeout slot child => Sys2Proof.Machine.execBroadcastRetryTimeout slot child s
  | .reachReportReceived port rec => Sys2Proof.Machine.execReachReportReceived port rec s
  | .reachReportTimeout slot => Sys2Proof.Machine.execReachReportTimeout slot s
  | .reattachHoldExpiry slot child => Sys2Proof.Machine.execReattachHoldExpiry slot child s
  | .slotPost a slot data => Sys2Proof.Machine.execSlotPost a slot data s
  | .planRecordReceived rec => Sys2Proof.Machine.execPlanRecordReceived rec s
  | .summariseDownWindow ethShare => Sys2Proof.Machine.execSummariseDownWindow ethShare s
  | .coalesceWindowClose entry => Sys2Proof.Machine.execCoalesceWindowClose entry s
  | .featurePassGrant => Sys2Proof.Machine.execFeaturePassGrant s
  | .featurePassCommit lost => Sys2Proof.Machine.execFeaturePassCommit lost s
  | .featLoadHi a data => Sys2Proof.Machine.execFeatLoadHi a data s
  | .featSwapRequest a data => Sys2Proof.Machine.execFeatSwapRequest a data s
  | .featSwapValidated => Sys2Proof.Machine.execFeatSwapValidated s
  | .featSwapCancel a data => Sys2Proof.Machine.execFeatSwapCancel a data s
  | .featSwapApplyIdle => Sys2Proof.Machine.execFeatSwapApplyIdle s
  | .featBankCopyDone => Sys2Proof.Machine.execFeatBankCopyDone s
  | .treeSampleGrant slot => Sys2Proof.Machine.execTreeSampleGrant slot s
  | .treeResultCommit poison => Sys2Proof.Machine.execTreeResultCommit poison s
  | .treeLoadBegin a data => Sys2Proof.Machine.execTreeLoadBegin a data s
  | .treeLoadData a data => Sys2Proof.Machine.execTreeLoadData a data s
  | .treeLoadEnd a data => Sys2Proof.Machine.execTreeLoadEnd a data s
  | .treeLoadAbort a data => Sys2Proof.Machine.execTreeLoadAbort a data s
  | .modelChunkReceived port rec => Sys2Proof.Machine.execModelChunkReceived port rec s
  | .modelVerifyDone => Sys2Proof.Machine.execModelVerifyDone s
  | .tslCancel a slot data => Sys2Proof.Machine.execTslCancel a slot data s
  | .verdictScoring => Sys2Proof.Machine.execVerdictScoring s
  | .escalationRestate => Sys2Proof.Machine.execEscalationRestate s
  | .escalationRequestReceived port rec => Sys2Proof.Machine.execEscalationRequestReceived port rec s
  | .deferEntryExpiry entry => Sys2Proof.Machine.execDeferEntryExpiry entry s
  | .stepBoundary a data => Sys2Proof.Machine.execStepBoundary a data s
  | .outClear a data => Sys2Proof.Machine.execOutClear a data s
  | .outAdvAck a data => Sys2Proof.Machine.execOutAdvAck a data s
  | .dieEntryFree entry => Sys2Proof.Machine.execDieEntryFree entry s
  | .outAdmitGo a data => Sys2Proof.Machine.execOutAdmitGo a data s
  | .admissionTestComplete pass => Sys2Proof.Machine.execAdmissionTestComplete pass s
  | .admissionTimeout => Sys2Proof.Machine.execAdmissionTimeout s
  | .taintNoticeReceived port rec => Sys2Proof.Machine.execTaintNoticeReceived port rec s
  | .taintNoticeResend port => Sys2Proof.Machine.execTaintNoticeResend port s
  | .abftTaintClear a data => Sys2Proof.Machine.execAbftTaintClear a data s
  | .patternChunkReceived port rec => Sys2Proof.Machine.execPatternChunkReceived port rec s
  | .patternVerifyDone => Sys2Proof.Machine.execPatternVerifyDone s
  | .patPlaceDrop a place data => Sys2Proof.Machine.execPatPlaceDrop a place data s
  | .idleWindowOffer => Sys2Proof.Machine.execIdleWindowOffer s
  | .patternRunStart a data => Sys2Proof.Machine.execPatternRunStart a data s
  | .patternRunEnd a data => Sys2Proof.Machine.execPatternRunEnd a data s
  | .patternRunTimeout => Sys2Proof.Machine.execPatternRunTimeout s
  | .traceEnable a data => Sys2Proof.Machine.execTraceEnable a data s
  | .trcArm a data => Sys2Proof.Machine.execTrcArm a data s
  | .trcTrigSw a data => Sys2Proof.Machine.execTrcTrigSw a data s
  | .trcTokBegin a data => Sys2Proof.Machine.execTrcTokBegin a data s
  | .trcTokData a data => Sys2Proof.Machine.execTrcTokData a data s
  | .trcTokEnd a data => Sys2Proof.Machine.execTrcTokEnd a data s
  | .trcTokAbort a data => Sys2Proof.Machine.execTrcTokAbort a data s
  | .tokenVerifyDone => Sys2Proof.Machine.execTokenVerifyDone s
  | .trcTokRevoke a data => Sys2Proof.Machine.execTrcTokRevoke a data s
  | .tokenWindowOpen entry => Sys2Proof.Machine.execTokenWindowOpen entry s
  | .tokenWindowExpiry entry => Sys2Proof.Machine.execTokenWindowExpiry entry s
  | .traceBlockAgeExpiry => Sys2Proof.Machine.execTraceBlockAgeExpiry s
  | .plaramPsyncTimeout => Sys2Proof.Machine.execPlaramPsyncTimeout s
  | .traceDrainBlock bad => Sys2Proof.Machine.execTraceDrainBlock bad s
  | .tbWinRelease a data => Sys2Proof.Machine.execTbWinRelease a data s
  | .aggregationStoreAdmit => Sys2Proof.Machine.execAggregationStoreAdmit s
  | .hangWatchCheck => Sys2Proof.Machine.execHangWatchCheck s
  | .snapshotRequestReceived port rec => Sys2Proof.Machine.execSnapshotRequestReceived port rec s
  | .snapshotLatch => Sys2Proof.Machine.execSnapshotLatch s
  | .packageAssemblyStart => Sys2Proof.Machine.execPackageAssemblyStart s
  | .packageGraphSend => Sys2Proof.Machine.execPackageGraphSend s
  | .trayMergeClose => Sys2Proof.Machine.execTrayMergeClose s
  | .voteChange d client held => Sys2Proof.Machine.execVoteChange d client held s
  | .domainIdleTimeout d => Sys2Proof.Machine.execDomainIdleTimeout d s
  | .powerAck d => Sys2Proof.Machine.execPowerAck d s
  | .powerHandshakeTimeout d => Sys2Proof.Machine.execPowerHandshakeTimeout d s
  | .padRelease a data => Sys2Proof.Machine.execPadRelease a data s
  | .droverTick grant => Sys2Proof.Machine.execDroverTick grant s
  | .emergencyCauseChange cause present => Sys2Proof.Machine.execEmergencyCauseChange cause present s
  | .emergencyExitHoldExpiry => Sys2Proof.Machine.execEmergencyExitHoldExpiry s
  | .thermalIdTick => Sys2Proof.Machine.execThermalIdTick s
  | .excitationWindowEnd m => Sys2Proof.Machine.execExcitationWindowEnd m s
  | .coolingDemandTick => Sys2Proof.Machine.execCoolingDemandTick s
  | .tachFaultTimeout k rpm => Sys2Proof.Machine.execTachFaultTimeout k rpm s
  | .tachFaultClear k rpm => Sys2Proof.Machine.execTachFaultClear k rpm s
  | .peerPresenceChange low => Sys2Proof.Machine.execPeerPresenceChange low s
  | .pcieReset kind => Sys2Proof.Machine.execPcieReset kind s
  | .pcieBar2Read off => Sys2Proof.Machine.execPcieBar2Read off s
  | .testAccessInstruction code => Sys2Proof.Machine.execTestAccessInstruction code s
  | .laneTrainingStart port => Sys2Proof.Machine.execLaneTrainingStart port s
  | .codewordLock port src => Sys2Proof.Machine.execCodewordLock port src s
  | .markerLoss port => Sys2Proof.Machine.execMarkerLoss port s
  | .fecUncorrectable port => Sys2Proof.Machine.execFecUncorrectable port s
  | .replayReceived port entries => Sys2Proof.Machine.execReplayReceived port entries s
  | .laneDegradeCheck port codewords corrected symbols => Sys2Proof.Machine.execLaneDegradeCheck port codewords corrected symbols s
  | .heldDownRelease a port data => Sys2Proof.Machine.execHeldDownRelease a port data s
  | .forceRetrain a port data => Sys2Proof.Machine.execForceRetrain a port data s
  | .dozeReceived port => Sys2Proof.Machine.execDozeReceived port s
  | .wakeReceived port => Sys2Proof.Machine.execWakeReceived port s
  | .wakeSequenceDone port => Sys2Proof.Machine.execWakeSequenceDone port s
  | .cursorSend all => Sys2Proof.Machine.execCursorSend all s
  | .cursorReceived entries => Sys2Proof.Machine.execCursorReceived entries s
  | .pairLaneSilenceTimeout => Sys2Proof.Machine.execPairLaneSilenceTimeout s
  | .partnerLostTimeout => Sys2Proof.Machine.execPartnerLostTimeout s
  | .publicationStoreAdmit => Sys2Proof.Machine.execPublicationStoreAdmit s
  | .ethLinkChange p up => Sys2Proof.Machine.execEthLinkChange p up s
  | .collectorEnable a data => Sys2Proof.Machine.execCollectorEnable a data s
  | .pubOpenRetry e => Sys2Proof.Machine.execPubOpenRetry e s
  | .openOk e session => Sys2Proof.Machine.execOpenOk e session s
  | .ack e session ack => Sys2Proof.Machine.execAck e session ack s
  | .dataDgram e session dseq flags recs => Sys2Proof.Machine.execDataDgram e session dseq flags recs s
  | .close e session => Sys2Proof.Machine.execClose e session s
  | .pubRtoExpiry e => Sys2Proof.Machine.execPubRtoExpiry e s
  | .pubSessionDead e => Sys2Proof.Machine.execPubSessionDead e s
  | .pfcPauseReceived p prio on => Sys2Proof.Machine.execPfcPauseReceived p prio on s
  | .neighborDiscoveryMessage p msg => Sys2Proof.Machine.execNeighborDiscoveryMessage p msg s
  | .icmpv6Echo p request body => Sys2Proof.Machine.execIcmpv6Echo p request body s
  | .commandSlotSubmit a slot data => Sys2Proof.Machine.execCommandSlotSubmit a slot data s
  | .firmwareTick => Sys2Proof.Machine.execFirmwareTick s
  | .planLoad slot => Sys2Proof.Machine.execPlanLoad slot s
  | .imgStage slot => Sys2Proof.Machine.execImgStage slot s
  | .imgCommit slot => Sys2Proof.Machine.execImgCommit slot s
  | .imgActivate slot => Sys2Proof.Machine.execImgActivate slot s
  | .bulkSend slot => Sys2Proof.Machine.execBulkSend slot s
  | .signedReq slot => Sys2Proof.Machine.execSignedReq slot s
  | .abortCmd slot => Sys2Proof.Machine.execAbortCmd slot s
  | .fwDataAccess a write data => Sys2Proof.Machine.execFwDataAccess a write data s
  | .activationResume => Sys2Proof.Machine.execActivationResume s
  | .activationAbandonTimeout => Sys2Proof.Machine.execActivationAbandonTimeout s
  | .activationBlackoutEnd => Sys2Proof.Machine.execActivationBlackoutEnd s
  | .trialConfirm => Sys2Proof.Machine.execTrialConfirm s
  | .managementWatchdogExpiry => Sys2Proof.Machine.execManagementWatchdogExpiry s
  | .romBoot => Sys2Proof.Machine.execRomBoot s
  | .fwHeartbeat a data => Sys2Proof.Machine.execFwHeartbeat a data s
  | .heartbeatLate => Sys2Proof.Machine.execHeartbeatLate s
  | .unattendedEntry => Sys2Proof.Machine.execUnattendedEntry s
  | .modeNoticeReceived rec => Sys2Proof.Machine.execModeNoticeReceived rec s
  | .fwUaAck a data => Sys2Proof.Machine.execFwUaAck a data s
  | .eventFlashCopy => Sys2Proof.Machine.execEventFlashCopy s
  | .signedRequestReceived req => Sys2Proof.Machine.execSignedRequestReceived req s
  | .otpChangeCommit ok => Sys2Proof.Machine.execOtpChangeCommit ok s
  | .authFloorRaise a data => Sys2Proof.Machine.execAuthFloorRaise a data s
  | .floorRiseApply => Sys2Proof.Machine.execFloorRiseApply s
  | .selfTestComplete point d fails => Sys2Proof.Machine.execSelfTestComplete point d fails s
  | .patrolPeriod fixes bad => Sys2Proof.Machine.execPatrolPeriod fixes bad s
  | .rowRepair kind inst bank row cause => Sys2Proof.Machine.execRowRepair kind inst bank row cause s
  | .bankRetire kind inst bank => Sys2Proof.Machine.execBankRetire kind inst bank s
  | .remapRecordWrite ok => Sys2Proof.Machine.execRemapRecordWrite ok s
  | .smbWriteWord m => Sys2Proof.Machine.execSmbWriteWord m s
  | .smbReadAddress m => Sys2Proof.Machine.execSmbReadAddress m s
  | .smbReadWord m => Sys2Proof.Machine.execSmbReadWord m s
  | .operatingHoursAdvance => Sys2Proof.Machine.execOperatingHoursAdvance s
  | .pcieLinkChange up speed width => Sys2Proof.Machine.execPcieLinkChange up speed width s
  | .openDgram e session src => Sys2Proof.Machine.execOpenDgram e session src s

end Sys2Proof.Machine
end

