-- ==== Sys2Proof/Safety.lean ====
section
/-! DEFINITION. What a safe run is, the invariant that every step keeps, and what the fuses never take back. -/

namespace Sys2Proof.Machine

/-- The step answers a next state. -/
def Completes (s : State) : Prop := ∃ t, step s = .next t

/-- The next k steps all answer a next state. -/
def SafeFor : Nat → State → Prop
  | 0, _ => True
  | k + 1, s => ∃ t, step s = .next t ∧ SafeFor k t

/-- What holds of the state whatever commands come: the register file and the addressed memories stay canonical (the data store reads 0
and an image region 0xFF where nothing is listed), and the block keeps the link and Ethernet ports, exchanges, pulse generators and power
domains of its build and its 16 sensors (R69, R128, R244, Table 15-1). -/
structure State.Inv (s : State) : Prop where
  regs : regWf s.regs = true
  ports : s.link.ports.length = egressPorts s.build
  exch : s.time.exch.length = linkPorts s.build
  sensors : s.samp.sensors.length = 16
  gens : s.pulse.gens.length = pulseGens s.build
  doms : s.power.doms.map Prod.fst = domains s.build
  data : Memory.wf 0 s.fw.data = true
  image : ∀ r ∈ s.fw.regions, Memory.wf 0xFF r.mem = true

/-- The fuses `o'` are at least as far on as `o`: the privacy floor, the rollback counter, the identity writes and the change count never
fall, an installed fleet authority or identity stays installed, and the change log only grows at its end (R505 to R507, R513). -/
structure OtpSt.Le (o o' : OtpSt) : Prop where
  floor : o.floor ≤ o'.floor
  rollback : o.rollback ≤ o'.rollback
  idWrites : o.idWrites ≤ o'.idWrites
  changes : o.changes ≤ o'.changes
  fa : o.fa.isSome = true → o'.fa.isSome = true
  identity : o.identity.isSome = true → o'.identity.isSome = true
  log : o.log <+: o'.log

/-- The parts of the state that a frame names. The last four are pieces of parts before them. -/
inductive Part where
  /-- the register file -/
  | regs
  /-- resets, responses, waiting accesses, latches, board inputs -/
  | core
  /-- fleet time -/
  | time
  /-- pulse generators and capture inputs -/
  | pulse
  /-- the event recorder -/
  | ev
  /-- ports, queues and fates -/
  | link
  /-- tallies and the duplicate table -/
  | tally
  /-- the coalescing table -/
  | coal
  /-- counters, sensors, latches and command pairs -/
  | samp
  /-- the muster schedule and image -/
  | muster
  /-- the convoy plan, slots and epochs -/
  | convoy
  /-- feature programs -/
  | feat
  /-- the tree engine -/
  | tree
  /-- the outrider -/
  | out
  /-- trace -/
  | trace
  /-- silent error checks -/
  | abft
  /-- the codec -/
  | codec
  /-- wait state and package graphs -/
  | hang
  /-- the pair and publication -/
  | pub
  /-- power domains -/
  | power
  /-- the drover and thermal models -/
  | drover
  /-- identity and authority -/
  | auth
  /-- firmware -/
  | fw
  /-- repair -/
  | rep
  /-- how many free values were drawn -/
  | free
  /-- whether the unit is held in a reset, and the straps as sampled -/
  | reset
  /-- the fuses -/
  | otp
  /-- the image regions of the flash -/
  | flash
  /-- the source ID in effect -/
  | ident
  deriving DecidableEq, Repr

/-- A part of the state is the same in two states. -/
def Part.Same (z s : State) : Part → Prop
  | .regs => s.regs = z.regs
  | .core => s.core = z.core
  | .time => s.time = z.time
  | .pulse => s.pulse = z.pulse
  | .ev => s.ev = z.ev
  | .link => s.link = z.link
  | .tally => s.tally = z.tally
  | .coal => s.coal = z.coal
  | .samp => s.samp = z.samp
  | .muster => s.muster = z.muster
  | .convoy => s.convoy = z.convoy
  | .feat => s.feat = z.feat
  | .tree => s.tree = z.tree
  | .out => s.out = z.out
  | .trace => s.trace = z.trace
  | .abft => s.abft = z.abft
  | .codec => s.codec = z.codec
  | .hang => s.hang = z.hang
  | .pub => s.pub = z.pub
  | .power => s.power = z.power
  | .drover => s.drover = z.drover
  | .auth => s.auth = z.auth
  | .fw => s.fw = z.fw
  | .rep => s.rep = z.rep
  | .free => s.free = z.free
  | .reset => s.core.por = z.core.por ∧ s.core.warm = z.core.warm ∧ s.core.straps = z.core.straps
  | .otp => s.auth.otp = z.auth.otp
  | .flash => s.fw.regions = z.fw.regions
  | .ident => s.auth.srcId = z.auth.srcId

end Sys2Proof.Machine
end

