-- ==== Sys2Proof/Machine/Frames.lean ====
section
/-! DEFINITION. Which parts of the state each command may change at most. -/

namespace Sys2Proof.Machine

/-- What an event may do: the recorder and its registers, the coalescing table, the record on its way out with its tally, an anchor
before it, and the wake of a link (R102, R241, R493, R500). -/
def eventParts : List Part := [.regs, .core, .time, .ev, .link, .tally, .coal, .convoy, .power]

/-- The parts that a command may change. -/
def touches : Instr → List Part
  | .registerWrite _ _ _ => eventParts ++ [.pulse, .samp, .muster, .feat, .tree, .out, .trace, .abft, .hang, .pub, .drover, .auth, .fw, .free]
  | .rcFieldRead _ _ => eventParts ++ [.free]
  | .latchingRead _ _ => eventParts ++ [.free]
  | .accessWakeComplete _ => eventParts ++ [.pulse, .samp, .muster, .feat, .tree, .out, .trace, .abft, .hang, .pub, .drover, .auth, .fw, .free]
  | .violClear _ _ _ => eventParts
  | .irqClear _ _ _ => eventParts
  | .cmnLockSet _ _ _ => eventParts
  | .hostVoteWrite _ _ _ => eventParts
  | .firmwareVoteWrite _ _ => eventParts
  | .pwrIdleWrite _ _ => eventParts
  | .powerOnReset => eventParts ++ [.pulse, .samp, .muster, .feat, .tree, .out, .trace, .abft, .codec, .hang, .pub, .drover, .auth, .fw, .rep, .reset, .otp, .ident]
  | .powerOnResetRelease _ _ => eventParts ++ [.out, .codec, .pub, .auth, .fw, .rep, .reset, .ident]
  | .railOrThermalTrip _ => eventParts ++ [.pulse, .samp, .muster, .feat, .tree, .out, .trace, .abft, .codec, .hang, .pub, .drover, .auth, .fw, .rep, .reset, .otp, .ident]
  | .warmReset => eventParts ++ [.samp, .muster, .feat, .tree, .out, .trace, .abft, .codec, .hang, .pub, .drover, .fw, .free, .reset]
  | .warmResetRelease _ => eventParts ++ [.samp, .out, .trace, .abft, .codec, .hang, .pub, .drover, .free, .reset]
  | .tapIslandReset _ => eventParts ++ [.samp, .out, .trace, .abft, .hang, .pub, .drover, .free]
  | .linkGroupReset _ _ => eventParts ++ [.samp, .out, .trace, .abft, .hang, .pub, .drover, .free]
  | .quiesceRequest _ => [.regs, .core, .link, .out]
  | .quiesceDrained _ => eventParts ++ [.samp, .out, .trace, .abft, .hang, .pub, .drover, .free]
  | .quiesceRelease _ => eventParts ++ [.samp, .out, .trace, .abft, .hang, .pub, .drover, .free]
  | .discovery _ => eventParts ++ [.out]
  | .discoveryTimeout _ => eventParts
  | .quarantineRelease _ _ _ => eventParts ++ [.out]
  | .identityTakesEffect => [.auth, .ident]
  | .recordReceived _ _ _ _ => eventParts ++ [.pulse, .samp, .muster, .tree, .out, .trace, .abft, .codec, .hang, .pub, .drover, .auth, .fw, .free]
  | .unitReceived _ _ => eventParts ++ [.pulse, .samp, .muster, .tree, .out, .trace, .abft, .codec, .hang, .pub, .drover, .auth, .fw, .free]
  | .egressUnitBoundary _ _ => eventParts ++ [.codec, .drover, .free]
  | .linkCtlSend _ => [.link]
  | .linkCtlKeepalive _ => [.link]
  | .linkCtlReceived _ _ => eventParts ++ [.out, .pub]
  | .creditInitReceived _ _ _ _ => [.regs, .core, .time, .ev, .link, .tally, .convoy, .out, .codec, .pub, .power]
  | .creditInitAckReceived _ _ => [.regs, .core, .time, .ev, .link, .tally, .convoy, .codec, .pub, .power]
  | .flowApply _ _ => eventParts
  | .classQuiesceDone _ _ => [.regs, .link]
  | .censusMarkSend _ => [.regs, .link, .out]
  | .censusMarkReceived _ _ _ => [.link]
  | .censusEchoReceived _ _ _ _ _ => eventParts ++ [.out]
  | .censusTimeout _ => [.regs, .link, .out]
  | .linkTrainingStart _ => [.link, .tree, .trace, .abft, .pub]
  | .linkDown _ _ => eventParts ++ [.samp, .out, .trace, .abft, .hang, .pub, .drover, .free]
  | .countingTapIncrement _ _ => eventParts ++ [.samp, .out, .trace, .abft, .hang, .pub, .drover, .free]
  | .sensorReading _ _ _ _ => eventParts ++ [.samp, .feat, .out, .trace, .abft, .hang, .pub, .drover, .free]
  | .sensorStaleTimeout _ => eventParts ++ [.samp, .feat, .out, .pub, .drover, .free]
  | .triggerNotification _ => eventParts ++ [.samp, .out, .trace, .abft, .hang, .pub, .drover, .free]
  | .tapClockChange _ _ _ => eventParts ++ [.samp, .out, .trace, .abft, .hang, .pub, .drover, .free]
  | .commandBoundary _ _ _ _ _ => eventParts ++ [.samp, .out, .trace, .abft, .hang, .pub, .drover, .free]
  | .latchEntryEmit => [.regs, .time, .ev, .link, .tally, .samp, .convoy, .power]
  | .clPop _ _ => eventParts ++ [.samp]
  | .ctrCfgApply => [.samp]
  | .tensorWatchBeat _ _ _ _ _ _ _ => eventParts ++ [.samp, .out, .trace, .abft, .hang, .pub, .drover, .free]
  | .checksumBeat _ _ => eventParts ++ [.samp, .out, .trace, .abft, .hang, .pub, .drover, .free]
  | .traceItem _ _ _ _ _ => eventParts ++ [.samp, .out, .trace, .abft, .hang, .pub, .drover, .free]
  | .waitStateBeat _ _ _ => eventParts ++ [.samp, .out, .trace, .abft, .hang, .pub, .drover, .free]
  | .refClockFault _ => eventParts ++ [.samp, .out, .trace, .abft, .hang, .pub, .drover, .free]
  | .refClockRecovered => eventParts ++ [.samp, .out, .trace, .abft, .hang, .pub, .drover, .free]
  | .timeExchangeStart => [.regs, .time, .ev, .link, .tally, .convoy, .power]
  | .probeReceived _ _ => [.regs, .time, .ev, .link, .tally, .convoy, .power]
  | .replyReceived _ _ => [.regs, .ev, .link, .tally, .convoy, .power]
  | .resultReceived _ _ => eventParts ++ [.pulse, .samp, .muster, .out, .trace, .abft, .hang, .pub, .drover, .free]
  | .resultTimeout _ => eventParts ++ [.samp, .out, .trace, .abft, .hang, .pub, .drover, .free]
  | .probeTimeout _ => eventParts ++ [.samp, .out, .trace, .abft, .hang, .pub, .drover, .free]
  | .holdoverExpiry => eventParts ++ [.samp, .out, .trace, .abft, .hang, .pub, .drover, .free]
  | .timeModeReq _ _ => eventParts ++ [.samp, .out, .trace, .abft, .hang, .pub, .drover, .free]
  | .timeSet _ _ => eventParts ++ [.pulse, .samp, .muster, .out, .trace, .abft, .hang, .pub, .drover, .free]
  | .timeAnchorDue _ _ => [.regs, .time, .ev, .link, .tally, .convoy, .power]
  | .ptpSyncReceived _ _ => eventParts ++ [.pulse, .samp, .muster, .out, .trace, .abft, .hang, .pub, .drover, .free]
  | .ptpDelayRespReceived _ _ _ => [.regs, .time]
  | .ptpAnnounceReceived _ _ _ => eventParts ++ [.samp, .out, .trace, .abft, .hang, .pub, .drover, .free]
  | .ptpAnnounceTimeout _ => eventParts ++ [.samp, .out, .trace, .abft, .hang, .pub, .drover, .free]
  | .pulseArm _ _ => eventParts ++ [.pulse]
  | .pulseDisarm _ _ => eventParts ++ [.pulse]
  | .pulseEdge _ => [.pulse]
  | .captureEdge _ _ => eventParts ++ [.pulse]
  | .capPop _ _ _ => eventParts ++ [.pulse]
  | .mstArm _ _ => eventParts ++ [.muster]
  | .mstStop _ _ => eventParts ++ [.muster]
  | .mstRelease _ _ => eventParts ++ [.muster]
  | .scheduleRecordReceived _ _ => eventParts ++ [.muster]
  | .scheduleActionTime => eventParts ++ [.samp, .muster, .out, .trace, .abft, .hang, .pub, .drover, .free]
  | .musterLead => [.muster, .power]
  | .musterCut => eventParts ++ [.samp, .muster, .tree, .out, .trace, .abft, .codec, .hang, .pub, .drover, .free]
  | .musterImageComplete _ _ _ _ => eventParts ++ [.muster, .feat, .out, .pub, .drover, .free]
  | .musterLateIslandTimeout _ => [.muster]
  | .musterLateLatch => eventParts ++ [.samp, .muster, .tree, .out, .pub, .drover, .free]
  | .musterRecordEmit => [.regs, .time, .ev, .link, .tally, .muster, .convoy, .power]
  | .holdMaxExpiry => eventParts ++ [.samp, .muster, .out, .trace, .abft, .hang, .pub, .drover, .free]
  | .convoyContribution _ => eventParts ++ [.out, .pub, .drover, .free]
  | .convoyPacketReceived _ _ => eventParts ++ [.out, .pub, .drover, .free]
  | .convoyDeadline _ => eventParts ++ [.out, .pub, .drover, .free]
  | .broadcastResultReceived _ _ => eventParts ++ [.out, .pub, .drover]
  | .broadcastRetryTimeout _ _ => eventParts ++ [.out, .pub]
  | .reachReportReceived _ _ => eventParts ++ [.out, .pub]
  | .reachReportTimeout _ => [.regs, .ev, .link, .tally, .convoy, .out, .pub, .power]
  | .reattachHoldExpiry _ _ => [.regs, .link, .convoy]
  | .slotPost _ _ _ => eventParts ++ [.out, .pub, .drover, .free]
  | .planRecordReceived _ => eventParts ++ [.samp, .muster, .out, .trace, .abft, .hang, .pub, .drover, .free]
  | .summariseDownWindow _ => eventParts ++ [.free]
  | .coalesceWindowClose _ => eventParts
  | .featurePassGrant => [.regs, .core, .feat, .drover]
  | .featurePassCommit _ => [.regs, .core, .time, .ev, .link, .tally, .convoy, .feat, .tree, .out, .power, .free]
  | .featLoadHi _ _ => eventParts ++ [.feat]
  | .featSwapRequest _ _ => eventParts ++ [.feat]
  | .featSwapValidated => [.regs, .core, .feat]
  | .featSwapCancel _ _ => eventParts ++ [.feat]
  | .featSwapApplyIdle => [.regs, .core, .feat]
  | .featBankCopyDone => [.feat]
  | .treeSampleGrant _ => [.regs, .core, .time, .ev, .link, .tally, .convoy, .tree, .out, .power, .drover]
  | .treeResultCommit _ => eventParts ++ [.tree, .out, .free]
  | .treeLoadBegin _ _ => eventParts ++ [.tree]
  | .treeLoadData _ _ => eventParts ++ [.tree]
  | .treeLoadEnd _ _ => eventParts ++ [.tree]
  | .treeLoadAbort _ _ => eventParts ++ [.tree]
  | .modelChunkReceived _ _ => eventParts ++ [.tree, .codec, .drover, .fw]
  | .modelVerifyDone => eventParts ++ [.tree, .drover]
  | .tslCancel _ _ _ => eventParts ++ [.tree]
  | .verdictScoring => eventParts ++ [.samp, .out, .trace, .abft, .hang, .pub, .drover, .free]
  | .escalationRestate => eventParts ++ [.samp, .out, .trace, .abft, .hang, .pub, .drover, .free]
  | .escalationRequestReceived _ _ => eventParts ++ [.samp, .out, .trace, .abft, .hang, .pub, .drover, .free]
  | .deferEntryExpiry _ => eventParts ++ [.samp, .out, .trace, .abft, .hang, .pub, .drover, .free]
  | .stepBoundary _ _ => eventParts ++ [.samp, .out, .trace, .abft, .hang, .pub, .drover, .free]
  | .outClear _ _ => eventParts ++ [.samp, .out, .trace, .abft, .hang, .pub, .drover, .free]
  | .outAdvAck _ _ => eventParts ++ [.out]
  | .dieEntryFree _ => [.out]
  | .outAdmitGo _ _ => eventParts ++ [.out]
  | .admissionTestComplete _ => eventParts ++ [.samp, .out, .trace, .abft, .hang, .pub, .drover, .free]
  | .admissionTimeout => eventParts ++ [.out]
  | .taintNoticeReceived _ _ => eventParts ++ [.samp, .out, .trace, .abft, .codec, .hang, .pub, .drover, .free]
  | .taintNoticeResend _ => [.regs, .link, .abft]
  | .abftTaintClear _ _ => eventParts ++ [.abft]
  | .patternChunkReceived _ _ => eventParts ++ [.abft, .codec, .drover, .fw]
  | .patternVerifyDone => [.regs, .core, .abft, .drover]
  | .patPlaceDrop _ _ _ => eventParts ++ [.abft]
  | .idleWindowOffer => [.regs, .core, .time, .ev, .link, .tally, .convoy, .abft, .power]
  | .patternRunStart _ _ => eventParts ++ [.abft]
  | .patternRunEnd _ _ => eventParts ++ [.abft]
  | .patternRunTimeout => [.regs, .core, .time, .ev, .link, .tally, .convoy, .abft, .power]
  | .traceEnable _ _ => eventParts ++ [.samp, .out, .trace, .abft, .hang, .pub, .drover, .free]
  | .trcArm _ _ => eventParts ++ [.samp, .out, .trace, .abft, .hang, .pub, .drover, .free]
  | .trcTrigSw _ _ => eventParts ++ [.samp, .out, .trace, .abft, .hang, .pub, .drover, .free]
  | .trcTokBegin _ _ => eventParts ++ [.trace]
  | .trcTokData _ _ => eventParts ++ [.trace]
  | .trcTokEnd _ _ => eventParts ++ [.trace]
  | .trcTokAbort _ _ => eventParts ++ [.trace]
  | .tokenVerifyDone => eventParts ++ [.samp, .out, .trace, .abft, .hang, .pub, .drover, .free]
  | .trcTokRevoke _ _ => eventParts ++ [.samp, .out, .trace, .abft, .hang, .pub, .drover, .free]
  | .tokenWindowOpen _ => eventParts ++ [.samp, .out, .trace, .abft, .hang, .pub, .drover, .free]
  | .tokenWindowExpiry _ => eventParts ++ [.samp, .out, .trace, .abft, .hang, .pub, .drover, .free]
  | .traceBlockAgeExpiry => [.trace]
  | .plaramPsyncTimeout => [.trace]
  | .traceDrainBlock _ => eventParts ++ [.samp, .out, .trace, .abft, .hang, .pub, .drover, .free]
  | .tbWinRelease _ _ => eventParts ++ [.samp, .out, .trace, .abft, .hang, .pub, .drover, .free]
  | .aggregationStoreAdmit => [.regs, .ev, .link, .tally, .convoy, .trace, .power]
  | .hangWatchCheck => eventParts ++ [.hang]
  | .snapshotRequestReceived _ _ => eventParts ++ [.hang]
  | .snapshotLatch => [.regs, .time, .ev, .link, .tally, .convoy, .hang, .power]
  | .packageAssemblyStart => [.regs, .ev, .link, .tally, .convoy, .hang, .power]
  | .packageGraphSend => [.regs, .core, .time, .ev, .link, .tally, .convoy, .hang, .power, .drover]
  | .trayMergeClose => [.regs, .core, .time, .ev, .link, .tally, .convoy, .hang, .power, .drover]
  | .voteChange _ _ _ => [.power]
  | .domainIdleTimeout _ => eventParts ++ [.samp, .out, .trace, .abft, .hang, .pub, .drover, .free]
  | .powerAck _ => eventParts ++ [.samp, .muster, .feat, .tree, .out, .trace, .abft, .codec, .hang, .pub, .drover, .fw, .free]
  | .powerHandshakeTimeout _ => eventParts
  | .padRelease _ _ => eventParts
  | .droverTick _ => eventParts ++ [.feat, .tree, .out, .abft, .pub, .drover, .free]
  | .emergencyCauseChange _ _ => eventParts ++ [.feat, .out, .pub, .drover, .free]
  | .emergencyExitHoldExpiry => eventParts ++ [.feat, .out, .pub, .drover, .free]
  | .thermalIdTick => eventParts ++ [.samp, .feat, .out, .pub, .drover, .free]
  | .excitationWindowEnd _ => [.regs, .core, .drover]
  | .coolingDemandTick => [.regs, .core, .free]
  | .tachFaultTimeout _ _ => eventParts
  | .tachFaultClear _ _ => [.regs, .core]
  | .peerPresenceChange _ => eventParts ++ [.out, .codec, .pub]
  | .pcieReset _ => [.regs, .core]
  | .pcieBar2Read _ => [.regs, .core, .abft, .free]
  | .testAccessInstruction _ => [.core, .power]
  | .laneTrainingStart _ => eventParts ++ [.samp, .tree, .out, .trace, .abft, .hang, .pub, .drover, .free]
  | .codewordLock _ _ => eventParts
  | .markerLoss _ => eventParts ++ [.samp, .tree, .out, .trace, .abft, .hang, .pub, .drover, .free]
  | .fecUncorrectable _ => eventParts ++ [.samp, .tree, .out, .trace, .abft, .hang, .pub, .drover, .free]
  | .replayReceived _ _ => [.regs, .link, .out]
  | .laneDegradeCheck _ _ _ _ => eventParts
  | .heldDownRelease _ _ _ => eventParts ++ [.samp, .tree, .out, .trace, .abft, .hang, .pub, .drover, .free]
  | .forceRetrain _ _ _ => eventParts ++ [.samp, .tree, .out, .trace, .abft, .hang, .pub, .drover, .free]
  | .dozeReceived _ => [.link]
  | .wakeReceived _ => [.link, .power]
  | .wakeSequenceDone _ => eventParts ++ [.codec, .drover, .free]
  | .cursorSend _ => [.regs, .ev, .link, .tally, .convoy, .pub, .power]
  | .cursorReceived _ => eventParts ++ [.pub]
  | .pairLaneSilenceTimeout => eventParts ++ [.samp, .out, .trace, .abft, .codec, .hang, .pub, .drover, .free]
  | .partnerLostTimeout => eventParts ++ [.out, .codec, .pub]
  | .publicationStoreAdmit => eventParts ++ [.out, .codec, .pub, .drover, .free]
  | .ethLinkChange _ _ => [.regs, .core, .link, .out, .pub, .power]
  | .collectorEnable _ _ => eventParts ++ [.out, .pub]
  | .pubOpenRetry _ => [.pub, .power]
  | .openOk _ _ => [.regs, .link, .out, .pub, .power]
  | .ack _ _ _ => eventParts ++ [.out, .pub]
  | .dataDgram _ _ _ _ _ => eventParts ++ [.pulse, .samp, .muster, .tree, .out, .trace, .abft, .codec, .hang, .pub, .drover, .auth, .fw, .free]
  | .close _ _ => eventParts ++ [.out, .pub]
  | .pubRtoExpiry _ => [.pub, .power]
  | .pubSessionDead _ => eventParts ++ [.out, .pub]
  | .pfcPauseReceived _ _ _ => [.regs, .core, .link, .out, .pub, .power]
  | .neighborDiscoveryMessage _ _ => [.pub]
  | .icmpv6Echo _ _ _ => [.regs, .pub]
  | .commandSlotSubmit _ _ _ => eventParts
  | .firmwareTick => [.regs, .core, .fw]
  | .planLoad _ => eventParts ++ [.samp, .muster, .out, .trace, .abft, .hang, .pub, .drover, .fw, .free]
  | .imgStage _ => [.regs, .core, .fw, .flash]
  | .imgCommit _ => [.regs, .core, .fw, .flash]
  | .imgActivate _ => [.regs, .core, .hang, .fw, .flash]
  | .bulkSend _ => eventParts ++ [.tree, .abft, .codec, .drover, .fw]
  | .signedReq _ => eventParts ++ [.auth, .fw, .free]
  | .abortCmd _ => [.regs, .core, .fw]
  | .fwDataAccess _ _ _ => eventParts ++ [.fw, .free]
  | .activationResume => [.regs, .core, .hang, .fw, .flash]
  | .activationAbandonTimeout => eventParts ++ [.fw]
  | .activationBlackoutEnd => [.regs, .core, .ev, .link, .tally, .convoy, .power, .fw]
  | .trialConfirm => eventParts ++ [.auth, .fw, .flash]
  | .managementWatchdogExpiry => [.regs, .core, .hang, .fw]
  | .romBoot => eventParts ++ [.fw, .flash]
  | .fwHeartbeat _ _ => eventParts ++ [.fw]
  | .heartbeatLate => [.regs, .core, .fw]
  | .unattendedEntry => eventParts ++ [.fw]
  | .modeNoticeReceived _ => [.core]
  | .fwUaAck _ _ => eventParts
  | .eventFlashCopy => eventParts
  | .signedRequestReceived _ => eventParts ++ [.auth, .fw]
  | .otpChangeCommit _ => eventParts ++ [.samp, .out, .trace, .abft, .hang, .pub, .drover, .auth, .fw, .free, .otp]
  | .authFloorRaise _ _ => eventParts ++ [.auth, .fw]
  | .floorRiseApply => eventParts ++ [.samp, .out, .trace, .abft, .hang, .pub, .drover, .auth, .free]
  | .selfTestComplete _ _ _ => eventParts ++ [.samp, .muster, .feat, .tree, .out, .trace, .abft, .codec, .hang, .pub, .drover, .fw, .free, .reset]
  | .patrolPeriod _ _ => eventParts ++ [.samp, .feat, .out, .trace, .abft, .hang, .pub, .drover, .rep, .free]
  | .rowRepair _ _ _ _ _ => eventParts ++ [.samp, .out, .trace, .abft, .hang, .pub, .drover, .rep, .free]
  | .bankRetire _ _ _ => eventParts ++ [.samp, .out, .trace, .abft, .hang, .pub, .drover, .rep, .free]
  | .remapRecordWrite _ => eventParts ++ [.rep]
  | .smbWriteWord _ => eventParts ++ [.pulse, .samp, .muster, .feat, .tree, .out, .trace, .abft, .hang, .pub, .drover, .auth, .fw, .free]
  | .smbReadAddress _ => eventParts ++ [.pulse, .samp, .muster, .feat, .tree, .out, .trace, .abft, .hang, .pub, .drover, .auth, .fw, .free]
  | .smbReadWord _ => eventParts ++ [.pulse, .samp, .muster, .feat, .tree, .out, .trace, .abft, .hang, .pub, .drover, .auth, .fw, .free]
  | .operatingHoursAdvance => [.ev]
  | .pcieLinkChange _ _ _ => [.regs, .core]
  | .openDgram _ _ _ => [.regs, .pub]

end Sys2Proof.Machine
end

