-- ==== Sys2Proof/Machine/There.lean ====
section
/-! DEFINITION. Which commands a state has the parts for. Every other names a port, slot, domain, island, tap, session or unit that the build
or the board does not have, and stops with the fault absent. -/

namespace Sys2Proof.Machine

/-- The state's build and board have what the command names (Tables 1-7, 3-1 and 15-1, R17, R69, R78, R244, R387, R418, R424). -/
def State.there (s : State) : Instr → Bool
  | .registerWrite _ _ _ => true
  | .rcFieldRead _ _ => true
  | .latchingRead _ _ => true
  | .accessWakeComplete d => (s.dom d).isSome
  | .violClear _ _ _ => true
  | .irqClear _ _ _ => true
  | .cmnLockSet _ _ _ => true
  | .hostVoteWrite _ addr _ => addr == 0x004090 || addr % 4096 == 0x01C
  | .firmwareVoteWrite _ _ => true
  | .pwrIdleWrite _ _ => true
  | .powerOnReset => true
  | .powerOnResetRelease _ _ => true
  | .railOrThermalTrip kind => s.build == .t && (kind == 1 || kind == 2)
  | .warmReset => true
  | .warmResetRelease _ => true
  | .tapIslandReset n => hasTaps s.build && decide (n.num < 8) && s.tapPresent n.num
  | .linkGroupReset g _ => decide (g.num < linkGroups s.build)
  | .quiesceRequest isl => s.islandThere isl
  | .quiesceDrained isl => s.islandThere isl
  | .quiesceRelease isl => s.islandThere isl
  | .discovery _ => s.build != .l
  | .discoveryTimeout port => s.build != .l && decide (port < linkPorts s.build)
  | .quarantineRelease _ _ _ => true
  | .identityTakesEffect => true
  | .recordReceived port _ _ _ => decide (port < linkPorts s.build)
  | .unitReceived port u => decide (port < linkPorts s.build) && decide (u.tc < 8)
  | .egressUnitBoundary port _ => decide (port < linkPorts s.build)
  | .linkCtlSend port => decide (port < linkPorts s.build)
  | .linkCtlKeepalive port => decide (port < linkPorts s.build)
  | .linkCtlReceived port _ => decide (port < linkPorts s.build)
  | .creditInitReceived port _ _ _ => decide (port < linkPorts s.build)
  | .creditInitAckReceived port _ => decide (port < linkPorts s.build)
  | .flowApply _ _ => true
  | .classQuiesceDone port cls => decide (port < linkPorts s.build) && decide (cls < 8)
  | .censusMarkSend port => decide (port < linkPorts s.build)
  | .censusMarkReceived port _ cls => decide (port < linkPorts s.build) && decide (cls < 8)
  | .censusEchoReceived port _ _ _ _ => decide (port < linkPorts s.build)
  | .censusTimeout port => decide (port < linkPorts s.build)
  | .linkTrainingStart port => decide (port < linkPorts s.build)
  | .linkDown port _ => decide (port < linkPorts s.build)
  | .countingTapIncrement tap _ => hasTaps s.build && decide (tap < 256)
  | .sensorReading sns _ _ _ => decide (sns < 16) && (s.build != .t || decide (sns < 13))
  | .sensorStaleTimeout sns => decide (sns < 16)
  | .triggerNotification t => hasTaps s.build && decide (t < 16)
  | .tapClockChange n _ _ => hasTaps s.build && s.tapPresent n
  | .commandBoundary c _ _ _ _ => hasTaps s.build && decide (c < 32)
  | .latchEntryEmit => hasTaps s.build
  | .clPop _ _ => true
  | .ctrCfgApply => true
  | .tensorWatchBeat w _ _ _ _ _ _ => hasTaps s.build && decide (w < 8)
  | .checksumBeat _ _ => hasTaps s.build
  | .traceItem _ _ _ _ _ => hasTaps s.build
  | .waitStateBeat _ _ _ => hasTaps s.build
  | .refClockFault _ => true
  | .refClockRecovered => true
  | .timeExchangeStart => true
  | .probeReceived port _ => decide (port < linkPorts s.build)
  | .replyReceived port _ => decide (port < linkPorts s.build)
  | .resultReceived port _ => decide (port < linkPorts s.build)
  | .resultTimeout port => decide (port < linkPorts s.build)
  | .probeTimeout port => decide (port < linkPorts s.build)
  | .holdoverExpiry => true
  | .timeModeReq _ _ => true
  | .timeSet _ _ => true
  | .timeAnchorDue _ _ => true
  | .ptpSyncReceived p _ => s.build == .t && decide (p < 2)
  | .ptpDelayRespReceived p _ _ => s.build == .t && decide (p < 2)
  | .ptpAnnounceReceived p _ _ => s.build == .t && decide (p < 2)
  | .ptpAnnounceTimeout p => s.build == .t && decide (p < 2)
  | .pulseArm _ _ => true
  | .pulseDisarm _ _ => true
  | .pulseEdge n => decide (n < pulseGens s.build)
  | .captureEdge c _ => s.build == .t && decide (c < 4)
  | .capPop _ _ _ => true
  | .mstArm _ _ => true
  | .mstStop _ _ => true
  | .mstRelease _ _ => true
  | .scheduleRecordReceived port _ => decide (port < linkPorts s.build)
  | .scheduleActionTime => true
  | .musterLead => true
  | .musterCut => true
  | .musterImageComplete _ _ _ _ => true
  | .musterLateIslandTimeout n => hasTaps s.build && s.tapPresent n
  | .musterLateLatch => true
  | .musterRecordEmit => true
  | .holdMaxExpiry => true
  | .convoyContribution slot => decide (slot < slotCount s.build)
  | .convoyPacketReceived port _ => s.build != .l && convoyPortOk s.build port
  | .convoyDeadline slot => decide (slot < slotCount s.build) || decide (slot < s.convoy.slots.length)
  | .broadcastResultReceived port _ => convoyPortOk s.build port
  | .broadcastRetryTimeout slot _ => decide (slot < slotCount s.build)
  | .reachReportReceived port _ => convoyPortOk s.build port
  | .reachReportTimeout slot => decide (slot < slotCount s.build)
  | .reattachHoldExpiry slot _ => decide (slot < slotCount s.build)
  | .slotPost _ _ _ => true
  | .planRecordReceived _ => s.build == .l
  | .summariseDownWindow _ => true
  | .coalesceWindowClose entry => decide (entry ≤ 256)
  | .featurePassGrant => true
  | .featurePassCommit _ => true
  | .featLoadHi _ _ => true
  | .featSwapRequest _ _ => true
  | .featSwapValidated => true
  | .featSwapCancel _ _ => true
  | .featSwapApplyIdle => true
  | .featBankCopyDone => true
  | .treeSampleGrant slot => decide (slot < 4)
  | .treeResultCommit _ => true
  | .treeLoadBegin _ _ => true
  | .treeLoadData _ _ => true
  | .treeLoadEnd _ _ => true
  | .treeLoadAbort _ _ => true
  | .modelChunkReceived port _ => decide (port < linkPorts s.build)
  | .modelVerifyDone => true
  | .tslCancel _ _ _ => true
  | .verdictScoring => true
  | .escalationRestate => true
  | .escalationRequestReceived port _ => decide (port < linkPorts s.build)
  | .deferEntryExpiry entry => decide (entry < deferMax s.build)
  | .stepBoundary _ _ => true
  | .outClear _ _ => true
  | .outAdvAck _ _ => true
  | .dieEntryFree entry => decide (entry < dieMax s.build)
  | .outAdmitGo _ _ => true
  | .admissionTestComplete _ => s.build == .h
  | .admissionTimeout => s.build == .h
  | .taintNoticeReceived port _ => decide (port < linkPorts s.build)
  | .taintNoticeResend port => decide (port < linkPorts s.build)
  | .abftTaintClear _ _ => true
  | .patternChunkReceived port _ => s.build == .t && decide (port < linkPorts s.build)
  | .patternVerifyDone => s.build == .t
  | .patPlaceDrop _ _ _ => true
  | .idleWindowOffer => hasTaps s.build
  | .patternRunStart _ _ => true
  | .patternRunEnd _ _ => true
  | .patternRunTimeout => hasTaps s.build
  | .traceEnable _ _ => true
  | .trcArm _ _ => true
  | .trcTrigSw _ _ => true
  | .trcTokBegin _ _ => true
  | .trcTokData _ _ => true
  | .trcTokEnd _ _ => true
  | .trcTokAbort _ _ => true
  | .tokenVerifyDone => true
  | .trcTokRevoke _ _ => true
  | .tokenWindowOpen entry => decide (entry < 8)
  | .tokenWindowExpiry entry => decide (entry < 8)
  | .traceBlockAgeExpiry => true
  | .plaramPsyncTimeout => true
  | .traceDrainBlock _ => hasTaps s.build
  | .tbWinRelease _ _ => true
  | .aggregationStoreAdmit => s.build == .h
  | .hangWatchCheck => hasTaps s.build
  | .snapshotRequestReceived port _ => hasTaps s.build && decide (port < linkPorts s.build)
  | .snapshotLatch => hasTaps s.build
  | .packageAssemblyStart => s.build == .h
  | .packageGraphSend => s.build == .h
  | .trayMergeClose => s.build == .t
  | .voteChange d client _ => (domains s.build).contains d && decide (client < 13)
  | .domainIdleTimeout d => (domains s.build).contains d
  | .powerAck d => (domains s.build).contains d.num
  | .powerHandshakeTimeout d => (domains s.build).contains d
  | .padRelease _ _ => true
  | .droverTick _ => true
  | .emergencyCauseChange cause _ => decide (cause < 7) && (s.build == .t || (cause != 2 && cause != 3))
  | .emergencyExitHoldExpiry => true
  | .thermalIdTick => true
  | .excitationWindowEnd m => decide (m < 4)
  | .coolingDemandTick => s.build == .t
  | .tachFaultTimeout k _ => s.build == .t && decide (k < 4)
  | .tachFaultClear k _ => s.build == .t && decide (k < 4)
  | .peerPresenceChange _ => s.build == .t
  | .pcieReset kind => s.build == .t && decide (kind < 3)
  | .pcieBar2Read off => s.build == .t && decide (off < 16777216)
  | .testAccessInstruction _ => s.build == .t
  | .laneTrainingStart port => isLane s.build port
  | .codewordLock port _ => isLane s.build port
  | .markerLoss port => isLane s.build port
  | .fecUncorrectable port => isLane s.build port
  | .replayReceived port _ => isLane s.build port
  | .laneDegradeCheck port _ _ _ => isLane s.build port
  | .heldDownRelease _ _ _ => true
  | .forceRetrain _ _ _ => true
  | .dozeReceived port => isLane s.build port
  | .wakeReceived port => isLane s.build port
  | .wakeSequenceDone port => isLane s.build port
  | .cursorSend _ => s.build == .t
  | .cursorReceived _ => s.build == .t
  | .pairLaneSilenceTimeout => s.build == .t
  | .partnerLostTimeout => s.build == .t
  | .publicationStoreAdmit => s.build == .t
  | .ethLinkChange p _ => s.build == .t && decide (p < 2)
  | .collectorEnable _ _ => true
  | .pubOpenRetry e => s.build == .t && decide (e < 8)
  | .openOk _ _ => s.build == .t
  | .ack _ _ _ => s.build == .t
  | .dataDgram _ _ _ _ _ => s.build == .t
  | .close _ _ => s.build == .t
  | .pubRtoExpiry e => s.build == .t && decide (e < 8)
  | .pubSessionDead e => s.build == .t && decide (e < 8)
  | .pfcPauseReceived p prio _ => s.build == .t && decide (p < 2) && decide (prio < 8)
  | .neighborDiscoveryMessage p _ => s.build == .t && decide (p < 2)
  | .icmpv6Echo p _ _ => s.build == .t && decide (p < 2)
  | .commandSlotSubmit _ _ _ => true
  | .firmwareTick => s.build != .l
  | .planLoad slot => s.build != .l && decide (slot < 64)
  | .imgStage slot => s.build != .l && decide (slot < 64)
  | .imgCommit slot => s.build != .l && decide (slot < 64)
  | .imgActivate slot => s.build != .l && decide (slot < 64)
  | .bulkSend slot => s.build != .l && decide (slot < 64)
  | .signedReq slot => s.build != .l && decide (slot < 64)
  | .abortCmd slot => s.build != .l && decide (slot < 64)
  | .fwDataAccess _ _ _ => true
  | .activationResume => s.build != .l
  | .activationAbandonTimeout => s.build != .l
  | .activationBlackoutEnd => s.build != .l
  | .trialConfirm => s.build != .l
  | .managementWatchdogExpiry => s.build != .l
  | .romBoot => s.build != .l
  | .fwHeartbeat _ _ => true
  | .heartbeatLate => s.build != .l
  | .unattendedEntry => s.build != .l
  | .modeNoticeReceived _ => s.build == .l
  | .fwUaAck _ _ => true
  | .eventFlashCopy => s.build == .t
  | .signedRequestReceived _ => true
  | .otpChangeCommit _ => true
  | .authFloorRaise _ _ => true
  | .floorRiseApply => true
  | .selfTestComplete point d _ => (domains s.build).contains d && decide (point < 3)
  | .patrolPeriod _ _ => true
  | .rowRepair kind _ _ _ cause => decide (1 ≤ kind) && decide (kind ≤ 6) && decide (cause < 3)
  | .bankRetire _ _ _ => true
  | .remapRecordWrite _ => s.build == .t
  | .smbWriteWord _ => s.build == .t
  | .smbReadAddress _ => s.build == .t
  | .smbReadWord _ => s.build == .t
  | .operatingHoursAdvance => true
  | .pcieLinkChange _ _ _ => s.build == .t
  | .openDgram _ _ _ => s.build == .t

end Sys2Proof.Machine
end

