-- ==== Sys2Proof/WellFormed.lean ====
section
/-! DEFINITION. The range of every operand that names one of a fixed number of things: ports, slots, sessions, classes, places. A value
outside it names nothing in any build (Table 1-7, R69, R244 and the rules of each command). A command that
writes a register is an access, which any address answers (R72, R75), and slots that an earlier plan left may stand behind the last one
(R181). -/

namespace Sys2Proof

/-- Every operand that names one of a fixed number of things lies in the range that some build has. -/
def Instr.wf : Instr → Bool
  | .hostVoteWrite _ addr _ => (addr == 0x004090 || addr % 4096 == 0x01C)
  | .railOrThermalTrip kind => (kind == 1 || kind == 2)
  | .tapIslandReset n => decide (n.num < 8)
  | .discoveryTimeout port => decide (port < 64)
  | .recordReceived port _ _ _ => decide (port < 64)
  | .unitReceived port _ => decide (port < 64)
  | .egressUnitBoundary port _ => decide (port < 64)
  | .linkCtlSend port => decide (port < 64)
  | .linkCtlKeepalive port => decide (port < 64)
  | .linkCtlReceived port _ => decide (port < 64)
  | .creditInitReceived port _ _ _ => decide (port < 64)
  | .creditInitAckReceived port _ => decide (port < 64)
  | .classQuiesceDone port cls => decide (port < 64) && decide (cls < 8)
  | .censusMarkSend port => decide (port < 64)
  | .censusMarkReceived port _ cls => decide (port < 64) && decide (cls < 8)
  | .censusEchoReceived port _ _ _ _ => decide (port < 64)
  | .censusTimeout port => decide (port < 64)
  | .linkTrainingStart port => decide (port < 64)
  | .linkDown port _ => decide (port < 64)
  | .countingTapIncrement tap _ => decide (tap < 256)
  | .sensorReading sns _ _ _ => decide (sns < 16)
  | .sensorStaleTimeout sns => decide (sns < 16)
  | .triggerNotification t => decide (t < 16)
  | .tapClockChange n _ _ => decide (n < 8)
  | .commandBoundary c _ _ _ _ => decide (c < 32)
  | .tensorWatchBeat w _ _ _ _ _ _ => decide (w < 8)
  | .probeReceived port _ => decide (port < 64)
  | .replyReceived port _ => decide (port < 64)
  | .resultReceived port _ => decide (port < 64)
  | .resultTimeout port => decide (port < 64)
  | .probeTimeout port => decide (port < 64)
  | .ptpSyncReceived p _ => decide (p < 2)
  | .ptpDelayRespReceived p _ _ => decide (p < 2)
  | .ptpAnnounceReceived p _ _ => decide (p < 2)
  | .ptpAnnounceTimeout p => decide (p < 2)
  | .pulseEdge n => decide (n < 8)
  | .captureEdge c _ => decide (c < 4)
  | .scheduleRecordReceived port _ => decide (port < 64)
  | .musterLateIslandTimeout n => decide (n < 8)
  | .convoyContribution slot => decide (slot < 1024)
  | .convoyPacketReceived port _ => decide (port < 95)
  | .broadcastResultReceived port _ => decide (port < 95)
  | .broadcastRetryTimeout slot _ => decide (slot < 1024)
  | .reachReportReceived port _ => decide (port < 95)
  | .reachReportTimeout slot => decide (slot < 1024)
  | .reattachHoldExpiry slot _ => decide (slot < 1024)
  | .coalesceWindowClose entry => decide (entry ≤ 256)
  | .treeSampleGrant slot => decide (slot < 4)
  | .modelChunkReceived port _ => decide (port < 64)
  | .escalationRequestReceived port _ => decide (port < 64)
  | .deferEntryExpiry entry => decide (entry < 1024)
  | .dieEntryFree entry => decide (entry < 256)
  | .taintNoticeReceived port _ => decide (port < 64)
  | .taintNoticeResend port => decide (port < 64)
  | .patternChunkReceived port _ => decide (port < 64)
  | .tokenWindowOpen entry => decide (entry < 8)
  | .tokenWindowExpiry entry => decide (entry < 8)
  | .snapshotRequestReceived port _ => decide (port < 64)
  | .voteChange _ client _ => decide (client < 13)
  | .emergencyCauseChange cause _ => decide (cause < 7)
  | .excitationWindowEnd m => decide (m < 4)
  | .tachFaultTimeout k _ => decide (k < 4)
  | .tachFaultClear k _ => decide (k < 4)
  | .pcieReset kind => decide (kind < 3)
  | .pcieBar2Read off => decide (off < 16777216)
  | .laneTrainingStart port => decide (port < 64)
  | .codewordLock port _ => decide (port < 64)
  | .markerLoss port => decide (port < 64)
  | .fecUncorrectable port => decide (port < 64)
  | .replayReceived port _ => decide (port < 64)
  | .laneDegradeCheck port _ _ _ => decide (port < 64)
  | .dozeReceived port => decide (port < 64)
  | .wakeReceived port => decide (port < 64)
  | .wakeSequenceDone port => decide (port < 64)
  | .ethLinkChange p _ => decide (p < 2)
  | .pubOpenRetry e => decide (e < 8)
  | .pubRtoExpiry e => decide (e < 8)
  | .pubSessionDead e => decide (e < 8)
  | .pfcPauseReceived p prio _ => decide (p < 2) && decide (prio < 8)
  | .neighborDiscoveryMessage p _ => decide (p < 2)
  | .icmpv6Echo p _ _ => decide (p < 2)
  | .planLoad slot => decide (slot < 64)
  | .imgStage slot => decide (slot < 64)
  | .imgCommit slot => decide (slot < 64)
  | .imgActivate slot => decide (slot < 64)
  | .bulkSend slot => decide (slot < 64)
  | .signedReq slot => decide (slot < 64)
  | .abortCmd slot => decide (slot < 64)
  | .selfTestComplete point _ _ => decide (point < 3)
  | .rowRepair kind _ _ _ cause => decide (1 ≤ kind) && decide (kind ≤ 6) && decide (cause < 3)
  | .registerWrite _ _ _ | .rcFieldRead _ _ | .latchingRead _ _ | .accessWakeComplete _ | .violClear _ _ _ | .irqClear _ _ _
  | .cmnLockSet _ _ _ | .firmwareVoteWrite _ _ | .pwrIdleWrite _ _ | .powerOnReset | .powerOnResetRelease _ _ | .warmReset
  | .warmResetRelease _ | .linkGroupReset _ _ | .quiesceRequest _ | .quiesceDrained _ | .quiesceRelease _ | .discovery _
  | .identityTakesEffect | .flowApply _ _ | .latchEntryEmit | .clPop _ _ | .ctrCfgApply | .checksumBeat _ _ | .traceItem _ _ _ _ _
  | .waitStateBeat _ _ _ | .refClockFault _ | .refClockRecovered | .timeExchangeStart | .holdoverExpiry | .timeModeReq _ _
  | .timeSet _ _ | .timeAnchorDue _ _ | .pulseArm _ _ | .pulseDisarm _ _ | .mstArm _ _ | .mstStop _ _ | .mstRelease _ _
  | .scheduleActionTime | .musterLead | .musterCut | .musterImageComplete _ _ _ _ | .musterLateLatch | .musterRecordEmit
  | .holdMaxExpiry | .planRecordReceived _ | .summariseDownWindow _ | .featurePassGrant | .featurePassCommit _ | .featLoadHi _ _
  | .featSwapRequest _ _ | .featSwapValidated | .featSwapCancel _ _ | .featSwapApplyIdle | .featBankCopyDone | .treeResultCommit _
  | .treeLoadBegin _ _ | .treeLoadData _ _ | .treeLoadEnd _ _ | .treeLoadAbort _ _ | .modelVerifyDone | .verdictScoring
  | .escalationRestate | .stepBoundary _ _ | .outClear _ _ | .outAdvAck _ _ | .outAdmitGo _ _ | .admissionTestComplete _
  | .admissionTimeout | .abftTaintClear _ _ | .patternVerifyDone | .idleWindowOffer | .patternRunStart _ _ | .patternRunEnd _ _
  | .patternRunTimeout | .traceEnable _ _ | .trcArm _ _ | .trcTrigSw _ _ | .trcTokBegin _ _ | .trcTokData _ _ | .trcTokEnd _ _
  | .trcTokAbort _ _ | .tokenVerifyDone | .trcTokRevoke _ _ | .traceBlockAgeExpiry | .plaramPsyncTimeout | .traceDrainBlock _
  | .tbWinRelease _ _ | .aggregationStoreAdmit | .hangWatchCheck | .snapshotLatch | .packageAssemblyStart | .packageGraphSend
  | .trayMergeClose | .domainIdleTimeout _ | .powerAck _ | .powerHandshakeTimeout _ | .padRelease _ _ | .droverTick _
  | .emergencyExitHoldExpiry | .thermalIdTick | .coolingDemandTick | .peerPresenceChange _ | .testAccessInstruction _ | .cursorSend _
  | .cursorReceived _ | .pairLaneSilenceTimeout | .partnerLostTimeout | .publicationStoreAdmit | .collectorEnable _ _ | .firmwareTick
  | .fwDataAccess _ _ _ | .activationResume | .activationAbandonTimeout | .activationBlackoutEnd | .trialConfirm
  | .managementWatchdogExpiry | .romBoot | .fwHeartbeat _ _ | .heartbeatLate | .unattendedEntry | .modeNoticeReceived _ | .fwUaAck _ _
  | .eventFlashCopy | .signedRequestReceived _ | .otpChangeCommit _ | .authFloorRaise _ _ | .floorRiseApply | .patrolPeriod _ _
  | .bankRetire _ _ _ | .remapRecordWrite _ | .smbWriteWord _ | .smbReadAddress _ | .smbReadWord _ | .operatingHoursAdvance
  | .pcieLinkChange _ _ _ | .openOk _ _ | .ack _ _ _ | .dataDgram _ _ _ _ _ | .close _ _ | .openDgram _ _ _
  | .quarantineRelease _ _ _ | .capPop _ _ _ | .tslCancel _ _ _ | .heldDownRelease _ _ _ | .forceRetrain _ _ _
  | .commandSlotSubmit _ _ _ | .slotPost _ _ _ | .patPlaceDrop _ _ _
  | .convoyDeadline _ => true

end Sys2Proof
end

