-- ==== Sys2Proof/Certificates/Slice0/Obligations.lean ====
section
/-! DEFINITION. The statements for the provers. -/

open Sys2Proof Sys2Proof.Machine

/-- O1, tier 1. For every command and state, a step of a state with that command at the front of its queue is exec of the command on the
state with the rest of the queue. -/
def Obligations.StepRunsTheFrontCommand : Prop :=
  ∀ (c : Instr) (rest : List Instr) (s : State), s.pending = c :: rest → step s = exec c { s with pending := rest }

/-- O2, tier 1. When no command waits, a step answers a next state. While aon_rst_n is asserted it is the same state. Otherwise fleet time
grows by the addend in units of 2^-64 s, modulo 2^112, the cycle count grows by one, a cycle in which every upward port that is up lacks
TC5 credit for a full packet is counted for the summarise-down window, and the rest of the state is as before. That an idle step is one
cycle of the time island is the choice of log entry 2; what counts as lacking credit is that of log entry 73. -/
def Obligations.IdleStepIsOneCycleOfTheTimeIsland : Prop :=
  ∀ s : State, s.pending = [] →
    (s.core.por = true → step s = .next s) ∧
    (s.core.por = false → step s = .next { s with
      time := { s.time with acc := (s.time.acc + s.time.addend) % 2 ^ 112, cycles := s.time.cycles + 1 },
      convoy := { s.convoy with sdNone := s.convoy.sdNone + (if s.noCredit = true then 1 else 0) } })

/-- O3, tier 1. In the power-on state of each build no command waits, the unit is held in reset, fleet time is 0 with the nominal addend
0x55E63B88C and code 4, nothing is stored in the event recorder, no record waits, the data store lists nothing, and every copy of every
register reads its reset value modulo 2^32. State.reset is that state of a Selvo-H, which build is the choice of log entry 1; the values
of Build-set registers are those of log entry 3. -/
def Obligations.ResetLeavesWhatTheSpecGives : Prop :=
  State.reset = State.resetOf .h ∧
  ∀ b : Build, (State.resetOf b).pending = [] ∧ (State.resetOf b).build = b ∧ (State.resetOf b).core.por = true ∧
    (State.resetOf b).now = 0 ∧ (State.resetOf b).time.addend = 0x55E63B88C ∧ (State.resetOf b).qcode = 4 ∧
    (State.resetOf b).ev.store = [] ∧ (State.resetOf b).link.pend = [] ∧ (State.resetOf b).fw.data = [] ∧
    ∀ (r : Reg) (i j pg bk : Nat), (State.resetOf b).rd r i j pg bk = r.resetVal b (buildSet b) i j pg bk % 2 ^ 32

/-- O4, tier 1. State.Inv (canonical register file and memories, and the link and Ethernet ports, exchanges, sensors, pulse generators and
power domains of the build) holds of the power-on state of each build, State.reset among them. -/
def Obligations.ResetSatisfiesTheInvariant : Prop :=
  (∀ b : Build, (State.resetOf b).Inv) ∧ State.reset.Inv

/-- O5, tier 3. If State.Inv holds of a state, whatever commands wait, and a step answers a next state, it holds of that state: the
register file, the data store and the image regions keep their canonical form, and the block keeps the link and Ethernet ports, time
exchanges, sensors, pulse generators and power domains of its build. -/
def Obligations.EveryStepKeepsTheInvariant : Prop :=
  ∀ s t : State, s.Inv → step s = .next t → t.Inv

/-- O6, tier 3. Whatever command runs, a next state has a privacy floor, a rollback counter, an identity write count and a change count no
lower than before, an installed fleet authority or identity stays installed, and the change log holds the old log as its beginning. -/
def Obligations.FusesOnlyGoForward : Prop :=
  ∀ s t : State, step s = .next t → OtpSt.Le s.auth.otp t.auth.otp

/-- O7, tier 3. For every command and every state from which it gives a next state, each part of the state that `touches` does not list
for the command is the same after as before: the fuses, the reset flags and straps, the source ID and the image regions are parts of their
own. The queue, the build and the Build-set values are never changed. -/
def Obligations.EachCommandStaysWithinItsFrame : Prop :=
  ∀ (c : Instr) (s t : State), exec c s = .next t →
    t.pending = s.pending ∧ t.build = s.build ∧ t.bs = s.bs ∧ ∀ p : Part, p ∉ touches c → Part.Same s t p

/-- O8, tier 2. A command that gives a next state leaves the fuses as they are unless it is OTP_CHANGE_COMMIT, POWER_ON_RESET or
RAIL_OR_THERMAL_TRIP; it leaves the source ID in effect unless it is one of the last two, POWER_ON_RESET_RELEASE or IDENTITY_TAKES_EFFECT;
and it leaves the reset flags and the straps as sampled unless it is one of the resets, their releases, or SELF_TEST_COMPLETE. -/
def Obligations.OnlyResetsAndTheOtpWriterChangeTheFuses : Prop :=
  ∀ (c : Instr) (s t : State), exec c s = .next t →
    ((∀ ok, c ≠ .otpChangeCommit ok) → c ≠ .powerOnReset → (∀ k, c ≠ .railOrThermalTrip k) → t.auth.otp = s.auth.otp) ∧
    (c ≠ .identityTakesEffect → c ≠ .powerOnReset → (∀ k, c ≠ .railOrThermalTrip k) → (∀ st sl, c ≠ .powerOnResetRelease st sl) →
      t.auth.srcId = s.auth.srcId) ∧
    (c ≠ .powerOnReset → (∀ k, c ≠ .railOrThermalTrip k) → (∀ st sl, c ≠ .powerOnResetRelease st sl) → c ≠ .warmReset →
      (∀ sl, c ≠ .warmResetRelease sl) → (∀ pt d f, c ≠ .selfTestComplete pt d f) →
      t.core.por = s.core.por ∧ t.core.warm = s.core.warm ∧ t.core.straps = s.core.straps)

/-- O9, tier 2. From every state with a canonical register file: a REGISTER_WRITE that the register port still takes and that meets no
reason, and whose register has no effect of its own beyond Table 0-3, completes. The register then holds the written bits that its mask
defines (RW, and RWL with its lock open), the old bits less those written 1 (W1C), the old bits and those written 1 (W1S), or its old
value (RO, RC). Every other copy of every register reads as before; nothing but the register file and the response of the path changes;
and on the register port, with no earlier request outstanding, the response is rsp_err = 0 at once. -/
def Obligations.AWriteThatDrawsNoErrorIsStored : Prop :=
  ∀ (s : State) (a : Acc) (addr : Nat) (data : Word) (r : Reg) (i j pg bk : Nat), s.Inv → s.portFull a = false → s.target addr = .reg r i j pg bk → r.acc ≠ .wo →
    s.verdict a addr true (s.writeOwned a (addr / 4096) (addr % 4096)) (s.writeBad (addr / 4096) (addr % 4096) data.toNat) = .perform →
    s.regEff addr data.toNat = s.store r i j pg bk data.toNat →
    ∃ t, exec (.registerWrite a addr data) s = .next t ∧
      t.rd r i j pg bk = (match r.acc with
        | .rw | .rwl => data.toNat &&& r.mask
        | .w1c => s.rd r i j pg bk &&& (r.mask ^^^ (data.toNat &&& r.mask))
        | .w1s => s.rd r i j pg bk ||| (data.toNat &&& r.mask)
        | .ro | .rc | .wo | .otp => s.rd r i j pg bk) ∧
      (∀ (r' : Reg) (i' j' pg' bk' : Nat), r'.key i' j' pg' bk' ≠ r.key i j pg bk → t.rd r' i' j' pg' bk' = s.rd r' i' j' pg' bk') ∧
      t = { s with regs := t.regs, core := t.core } ∧
      (a.path = .regPort → s.outstanding = 0 → t.core = { s.core with rspPort := ⟨0, false⟩ })

/-- O10, tier 2. From every state with a canonical register file: an RC_FIELD_READ of an RC register that the register port still takes,
that meets no reason and finds no latched word answers on the register port, with no earlier request outstanding, the value that the
register had, with no error, and leaves the register at its reset value; every other copy of every register reads as before. Registers of
the OUTRIDER page, which only the keeper clears, are left to another rule (R317). -/
def Obligations.AReadOfAnRcRegisterReturnsItToReset : Prop :=
  ∀ (s : State) (a : Acc) (addr : Nat) (r : Reg) (i j pg bk : Nat), s.Inv → s.portFull a = false → s.target addr = .reg r i j pg bk → r.acc = .rc → r.page ≠ 0x029 →
    s.verdict a addr false false false = .perform → s.core.latches = [] → addr ≠ 0x0070B4 →
    ∃ t, exec (.rcFieldRead a addr) s = .next t ∧
      t.rd r i j pg bk = r.resetVal s.build s.bs i j pg bk % 2 ^ 32 ∧
      (∀ (r' : Reg) (i' j' pg' bk' : Nat), r'.key i' j' pg' bk' ≠ r.key i j pg bk → t.rd r' i' j' pg' bk' = s.rd r' i' j' pg' bk') ∧
      (a.path = .regPort → s.outstanding = 0 → t.core.rspPort = ⟨(s.peek addr).1, false⟩)

/-- O11, tier 2. From every state in which the accesses meet no reason, no earlier request is outstanding and no word is latched: a read
of TIME_NOW_LO answers bits [31:0] of fleet time and latches the other words for its path and class. In any later state that still holds
those latches, whatever fleet time is then, the first read of TIME_NOW_MID over the same path and class answers bits [63:32] of the time
of the first read, and its latch is used up. -/
def Obligations.ReadingTheLowWordOfTimeLatchesTheRest : Prop :=
  ∀ (s : State) (a : Acc), a.path = .regPort → s.outstanding = 0 → s.verdict a 0x002080 false false false = .perform → s.core.latches = [] →
    ∃ t, exec (.latchingRead a 0x002080) s = .next t ∧ t.core.rspPort = ⟨s.now % 2 ^ 32, false⟩ ∧
      ∀ u : State, u.core.latches = t.core.latches → u.outstanding = 0 → u.verdict a 0x002084 false false false = .perform →
        ∃ v, exec (.latchingRead a 0x002084) u = .next v ∧ v.core.rspPort = ⟨s.now / 2 ^ 32 % 2 ^ 32, false⟩ ∧
          v.core.latches.find? (fun x => x.acc == a && x.key == 0x002084) = none

/-- O12, tier 2. From every state with a canonical register file, a REGISTER_WRITE on the register port that the port still takes, and
whose verdict is a violation logged in a page for a reason, completes: the LAST set takes the address and the information word, VIOL_COUNT
takes the reason and one more violation, saturating at 24 bits, the FIRST set is filled only if its information word was 0, no register
outside the set changes, and then event 0x801 is written and the path answers rsp_err = 1 with rsp_rdata 0, at once where no earlier
request is outstanding. An RC_FIELD_READ that violates does the same with the information word of a read. -/
def Obligations.AViolatingAccessIsLoggedAndHasNoOtherEffect : Prop :=
  ∀ (s : State) (a : Acc) (addr : Nat) (page reason : Nat), s.Inv → a.path = .regPort → s.portFull a = false → reason < 16 →
    (let logged (u : State) (info : Nat) : Prop :=
      u = { s with regs := u.regs } ∧ u.rd R.CMN_VIOL_LAST_ADDR (pg := page) = addr % 2 ^ 21 ∧ u.rd R.CMN_VIOL_LAST_INFO (pg := page) = info ∧
      u.rd R.CMN_VIOL_COUNT (pg := page) = reason * 2 ^ 24 + min (s.rd R.CMN_VIOL_COUNT (pg := page) % 2 ^ 24 + 1) (2 ^ 24 - 1) ∧
      u.rd R.CMN_VIOL_FIRST_INFO (pg := page) =
        (if s.rd R.CMN_VIOL_FIRST_INFO (pg := page) = 0 then info else s.rd R.CMN_VIOL_FIRST_INFO (pg := page)) ∧
      u.rd R.CMN_VIOL_FIRST_ADDR (pg := page) =
        (if s.rd R.CMN_VIOL_FIRST_INFO (pg := page) = 0 then addr % 2 ^ 21 else s.rd R.CMN_VIOL_FIRST_ADDR (pg := page)) ∧
      ∀ (r : Reg) (i j pg bk : Nat), (∀ off ∈ [0x028, 0x030, 0x034, 0x038, 0x03C, 0x040, 0x044, 0x048, 0x04C],
        r.key i j pg bk ≠ page * 4096 + off) → u.rd r i j pg bk = s.rd r i j pg bk
     (∀ data : Word,
        s.verdict a addr true (s.writeOwned a (addr / 4096) (addr % 4096)) (s.writeBad (addr / 4096) (addr % 4096) data.toNat) = .viol page reason →
        ∃ u t, exec (.registerWrite a addr data) s = .next t ∧ logged u (reason + 16 * clsNum a.cls + 64 + data.toNat % 65536 * 65536) ∧
          t = (u.event 0x801 (leBytes 4 (addr % 2 ^ 21) ++ leBytes 4 (reason + 16 * clsNum a.cls + 64 + data.toNat % 65536 * 65536))).respond a true 0 true ∧
          (s.outstanding = 0 → t.core.rspPort = ⟨0, true⟩)) ∧
     (s.verdict a addr false false false = .viol page reason →
        ∃ u t, exec (.rcFieldRead a addr) s = .next t ∧ logged u (reason + 16 * clsNum a.cls) ∧
          t = (u.event 0x801 (leBytes 4 (addr % 2 ^ 21) ++ leBytes 4 (reason + 16 * clsNum a.cls))).respond a false 0 true ∧
          (s.outstanding = 0 → t.core.rspPort = ⟨0, true⟩)))

/-- O13, tier 1. An access to an unmapped page is reason 4, logged in IDENT. Where the page is mapped and its domain performs accesses: a
write by a class that may not write the page is reason 3, whatever else it meets; otherwise a write of a reserved offset is reason 1, of a
locked register (CMN_LOCK set on an RWL register, an OTP register, or an owned command slot) reason 2, with a refused value reason 5, and
any other write of a register whose meaning names no class is performed. -/
def Obligations.TheFirstReasonInOrderIsLogged : Prop :=
  ∀ (s : State) (a : Acc) (addr : Nat) (owned bad : Bool),
    (∀ w, pageInfo s.build (addr / 4096) = none → s.verdict a addr w owned bad = .viol 0 4) ∧
    (∀ info, pageInfo s.build (addr / 4096) = some info → s.domVerdict (addrDom s.build addr) = .perform →
      (classWrites info.cls a.cls = false → s.verdict a addr true owned bad = .viol (addr / 4096) 3) ∧
      (classWrites info.cls a.cls = true → s.target addr = .reserved → s.verdict a addr true owned bad = .viol (addr / 4096) 1) ∧
      (∀ r i j pg bk, classWrites info.cls a.cls = true → onlyClass addr = none → s.target addr = .reg r i j pg bk →
        (owned = true ∨ s.lockedReg r (addr / 4096) = true → s.verdict a addr true owned bad = .viol (addr / 4096) 2) ∧
        (owned = false → s.lockedReg r (addr / 4096) = false → bad = true → s.verdict a addr true owned bad = .viol (addr / 4096) 5) ∧
        (owned = false → s.lockedReg r (addr / 4096) = false → bad = false → s.verdict a addr true owned bad = .perform)))

/-- O14, tier 2. From every state with a canonical register file: an access to a mapped page whose domain stands in Off, and is not in its
exit self-test, meets the verdict off. A REGISTER_WRITE or RC_FIELD_READ with that verdict, taken by the register port, completes with
rsp_err = 1 and rsp_rdata 0, at once where no earlier request is outstanding; PWR_OFF_ACCESS is one higher, saturating at 32 bits;
interrupt bit 1 of the POWER page is set; no other register changes, so no violation is logged. -/
def Obligations.AnAccessToAnOffDomainIsRefusedButNoViolation : Prop :=
  ∀ (s : State) (a : Acc) (addr : Nat), s.Inv → a.path = .regPort → s.portFull a = false →
    (∀ info x w o b, pageInfo s.build (addr / 4096) = some info → s.dom (addrDom s.build addr) = some x → x.st = 3 → x.testing = false →
      s.verdict a addr w o b = .off) ∧
    (let refused (t : State) : Prop :=
      (s.outstanding = 0 → t.core.rspPort = ⟨0, true⟩) ∧ t.rd R.PWR_OFF_ACCESS = min (s.rd R.PWR_OFF_ACCESS + 1) (2 ^ 32 - 1) ∧
      t.rd R.CMN_IRQ_STATUS (pg := 4) = s.rd R.CMN_IRQ_STATUS (pg := 4) ||| 2 ∧
      ∀ (r : Reg) (i j pg bk : Nat), r.key i j pg bk ≠ R.PWR_OFF_ACCESS.key 0 0 0 0 → r.key i j pg bk ≠ R.CMN_IRQ_STATUS.key 0 0 4 0 →
        t.rd r i j pg bk = s.rd r i j pg bk
     (∀ data : Word,
        s.verdict a addr true (s.writeOwned a (addr / 4096) (addr % 4096)) (s.writeBad (addr / 4096) (addr % 4096) data.toNat) = .off →
        ∃ t, exec (.registerWrite a addr data) s = .next t ∧ refused t) ∧
     (s.verdict a addr false false false = .off → ∃ t, exec (.rcFieldRead a addr) s = .next t ∧ refused t))

/-- O15, tier 2. A REGISTER_WRITE or LATCHING_READ whose verdict is to wait on a domain completes without a response: it joins the
accesses that wait, the wake of the domain begins, and no register changes. ACCESS_WAKE_COMPLETE on a domain of the build in Run makes the
accesses that wait on it in the order in which they came: where one, or two, of the register port wait on that domain and nothing else
waits, it is those accesses made one after the other; on a domain not yet in Run it changes nothing. Eight requests of the register port
may be outstanding; what becomes of a ninth is the choice of log entry 68: it is not taken. -/
def Obligations.AnAccessToASleepingDomainWaitsForItsWake : Prop :=
  ∀ (s : State) (a : Acc) (addr : Nat) (d : Nat),
    (s.portFull a = true → (∀ data : Word, exec (.registerWrite a addr data) s = .next s) ∧ exec (.rcFieldRead a addr) s = .next s ∧
      exec (.latchingRead a addr) s = .next s) ∧
    (∀ data : Word, s.portFull a = false →
      s.verdict a addr true (s.writeOwned a (addr / 4096) (addr % 4096)) (s.writeBad (addr / 4096) (addr % 4096) data.toNat) = .wait d →
      ∃ t, exec (.registerWrite a addr data) s = .next t ∧ t.regs = s.regs ∧ t.core = { s.core with wait := s.core.wait ++
        [{ acc := a, addr := addr, write := true, data := data.toNat, dom := d, rsp := none }] }) ∧
    (s.portFull a = false → s.verdict a addr false false false = .wait d →
      ∃ t, exec (.latchingRead a addr) s = .next t ∧ t.regs = s.regs ∧ t.core = { s.core with wait := s.core.wait ++
        [{ acc := a, addr := addr, write := false, data := 0, dom := d, rsp := none }] }) ∧
    ((s.dom d).isSome = true →
      (s.inRun d = true → ∃ t, exec (.accessWakeComplete d) s = .next t ∧
        ((∀ w ∈ s.core.wait, w.rsp = none ∧ w.dom ≠ d) → t = s) ∧
        ∀ w : WaitAcc, w.dom = d → w.rsp = none → w.acc.path = .regPort →
          let made (u : State) (w : WaitAcc) : State := State.access { u with core := { u.core with wait := [] } } w.acc w.addr w.write w.data
          (s.core.wait = [w] → (made s w).core.wait = [] → t = made s w) ∧
          (∀ w' : WaitAcc, w'.dom = d → w'.rsp = none → w'.acc.path = .regPort → s.core.wait = [w, w'] →
            (made s w).core.wait = [] → (made (made s w) w').core.wait = [] → t = made (made s w) w')) ∧
      (s.inRun d = false → exec (.accessWakeComplete d) s = .next s))

/-- O16, tier 2. From every state with a canonical register file, writes that the port takes and that meet no reason complete. VIOL_CLEAR
with bit 0 alone leaves FIRST, LAST and the count of the page at 0 and every register outside them as before. IRQ_CLEAR with bit 1 alone
leaves CMN_IRQ_STATUS of the page with no bit but one that a level holds. CMN_LOCK_SET leaves CMN_LOCK at its old bits and bit 0 of the
write, so a lock that is set stays set, and changes no other register. From every state with a canonical register file, writes that the
port takes and that meet no reason complete: HOST_VOTE_WRITE of PWR_VOTE_HOST and FIRMWARE_VOTE_WRITE of PWR_VOTE_FW leave there the
written bits of the domains present, PWR_IDLE_WRITE leaves in PWR_IDLE the written fields of the domains of the build, and no other
register changes. A write of PWR_VOTE_FW by another class than firmware, to a domain that performs, is a violation for privilege.
VOTE_CHANGE of a domain and a client of the build completes with no register changed, and the vote of the debug port stands on every
domain or on none. -/
def Obligations.HeaderCommandsAndVotesAreWritten : Prop :=
  (∀ (s : State) (a : Acc) (page : Nat) (data : Word), s.Inv → s.portFull a = false →
    (s.verdict a (page * 4096 + 0x010) true false false = .perform → data.toNat % 4 = 1 →
      ∃ t, exec (.violClear a page data) s = .next t ∧ t.rd R.CMN_VIOL_COUNT (pg := page) = 0 ∧ t.rd R.CMN_VIOL_FIRST_ADDR (pg := page) = 0 ∧
        t.rd R.CMN_VIOL_FIRST_INFO (pg := page) = 0 ∧ t.rd R.CMN_VIOL_LAST_ADDR (pg := page) = 0 ∧ t.rd R.CMN_VIOL_LAST_INFO (pg := page) = 0 ∧
        ∀ (r : Reg) (i j pg bk : Nat), (r.key i j pg bk < page * 4096 + 0x028 ∨ page * 4096 + 0x04C < r.key i j pg bk) →
          t.rd r i j pg bk = s.rd r i j pg bk) ∧
    (s.verdict a (page * 4096 + 0x010) true false false = .perform → data.toNat % 4 = 2 →
      ∃ t, exec (.irqClear a page data) s = .next t ∧ t.rd R.CMN_IRQ_STATUS (pg := page) = s.irqHeld page) ∧
    (s.verdict a (page * 4096 + 0x018) true false false = .perform →
      ∃ t, exec (.cmnLockSet a page data) s = .next t ∧ t.rd R.CMN_LOCK (pg := page) = s.rd R.CMN_LOCK (pg := page) ||| data.toNat % 2 ∧
        ∀ (r : Reg) (i j pg bk : Nat), r.key i j pg bk ≠ R.CMN_LOCK.key 0 0 page 0 → t.rd r i j pg bk = s.rd r i j pg bk)) ∧
  (∀ (s : State) (a : Acc) (data : Word), s.Inv → s.portFull a = false →
    (s.verdict a 0x004090 true false false = .perform →
      ∃ t, exec (.hostVoteWrite a 0x004090 data) s = .next t ∧ t.rd R.PWR_VOTE_HOST = data.toNat &&& s.rd R.PWR_DOM_PRESENT ∧
        ∀ (r : Reg) (i j pg bk : Nat), r.key i j pg bk ≠ R.PWR_VOTE_HOST.key 0 0 0 0 → t.rd r i j pg bk = s.rd r i j pg bk) ∧
    (s.verdict a 0x004094 true false false = .perform →
      ∃ t, exec (.firmwareVoteWrite a data) s = .next t ∧ t.rd R.PWR_VOTE_FW = data.toNat &&& s.rd R.PWR_DOM_PRESENT ∧
        ∀ (r : Reg) (i j pg bk : Nat), r.key i j pg bk ≠ R.PWR_VOTE_FW.key 0 0 0 0 → t.rd r i j pg bk = s.rd r i j pg bk) ∧
    (a.cls ≠ .firmware → s.domVerdict 0 = .perform → s.verdict a 0x004094 true false false = .viol 4 3) ∧
    (data.toNat % 4 = 0 → s.verdict a 0x004088 true false false = .perform →
      ∃ t, exec (.pwrIdleWrite a data) s = .next t ∧ t.rd R.PWR_IDLE = data.toNat &&& idleMask s.build ∧
        ∀ (r : Reg) (i j pg bk : Nat), r.key i j pg bk ≠ R.PWR_IDLE.key 0 0 0 0 → t.rd r i j pg bk = s.rd r i j pg bk) ∧
    (∀ (d client : Nat) (held : Bool), d ∈ domains s.build → client < 13 →
      ∃ t, exec (.voteChange d client held) s = .next t ∧ t.regs = s.regs ∧ t.power.dbg = (if client = 2 then held else s.power.dbg)))

/-- O17, tier 2. On Selvo-T, with the target enabled and no earlier access waiting: command 0x12 is acknowledged and answers the word
held, counted as a transaction; command 0x11 with three address bytes, and 0x10 with seven, whose PEC is not refused, make a read or a
write of the 24-bit address as class 2 over the SMBus path, and a read that meets no reason leaves its word held; another command code or
byte count is not acknowledged, is counted in SMB_NACK and sets bit 0 of the page. -/
def Obligations.TheSmbusTargetReadsBackWhatItHolds : Prop :=
  ∀ (s : State) (m : SmbMsg), s.Inv → s.build = .t → s.smbTakes = true →
    (m.code = 0x12 → ∃ t, exec (.smbReadWord m) s = .next t ∧ t.core = { s.core with smbAck := true, rspSmb := ⟨s.core.smbHeld, false⟩ } ∧
      t.rd R.SMB_TRANSACTIONS = min (s.rd R.SMB_TRANSACTIONS + 1) (2 ^ 32 - 1)) ∧
    (m.code = 0x11 → m.body.length = 3 → s.pecRefused m = false →
      ∃ t, exec (.smbReadAddress m) s = .next t ∧ t = s.access ⟨.smbus, .bmc⟩ (leAt m.body 0 3) false 0 ∧
        (s.verdict ⟨.smbus, .bmc⟩ (leAt m.body 0 3) false false false = .perform →
          t.core.smbAck = true ∧ t.core.smbHeld = (s.readEff ⟨.smbus, .bmc⟩ (leAt m.body 0 3)).1)) ∧
    (m.code = 0x10 → m.body.length = 7 → s.pecRefused m = false →
      exec (.smbWriteWord m) s = .next (s.access ⟨.smbus, .bmc⟩ (leAt m.body 0 3) true (leAt m.body 3 4))) ∧
    (m.code ≠ 0x10 → m.code ≠ 0x11 → m.code ≠ 0x12 →
      ∃ t, exec (.smbWriteWord m) s = .next t ∧ t.core.smbAck = false ∧ t.rd R.SMB_NACK = min (s.rd R.SMB_NACK + 1) (2 ^ 32 - 1) ∧
        bitOf (t.rd R.CMN_IRQ_STATUS (pg := 0x115)) 0 = true)

/-- O18, tier 2. DOMAIN_IDLE_TIMEOUT of a domain in Run, on which no vote has been held for PWR_IDLE_DELAY and whose PWR_IDLE names an
idle state, quiesces the island and, where that raised no vote, asks for that state; CORE bound for Off waits for what it would lose, and
any other domain or moment leaves the state alone. The domains whose quiescing changes nothing move at once, pwr_req rising while pwr_ack
is low. POWER_ACK at 1 while pwr_req is 1 lowers pwr_req: a move to an idle state leaves a domain other than a LINK group in that state (a
LINK group passes through the model operation enterIdle); a move to Run starts the exit self-test from Retain and Off, and from Run and
Drowse, which have none, reaches Run. POWER_ACK at 0 ends the hand-shake, and a further move starts then. A level that is no change of the
hand-shake has no effect. A move whose acknowledgement is ten times its bound late sets the alarm mark of the domain, counts in
PWR_HS_ALARMS, sets interrupt bit 0 of the POWER page and writes event 0x313 with the domain and the target; the domain stays as it is. -/
def Obligations.AnIdleDomainIsMovedByItsHandShake : Prop :=
  ∀ (s : State) (d : Nat) (x : Dom), s.Inv → d ∈ domains s.build → s.dom d = some x →
    (exec (.domainIdleTimeout d) s = .next (if s.idleDue d = true ∧ s.quietFor d (domField (s.rd R.PWR_IDLE) d) = true then
        (let t := s.leaving d (domField (s.rd R.PWR_IDLE) d); if t.idleDue d = true then t.startMove d (domField (s.rd R.PWR_IDLE) d) else t) else s)) ∧
    (d ≠ 0 → d ≠ 1 → d ≠ 4 → x.st = 0 → x.testing = false → x.moving = none → x.req = false → x.ack = false → s.votes d = 0 →
      domField (s.rd R.PWR_IDLE) d ≠ 0 → s.after x.voteAt (s.rd R.PWR_IDLE_DELAY % 65536) = true →
      ∃ t y, exec (.domainIdleTimeout d) s = .next t ∧ t.dom d = some y ∧ y.moving = some (domField (s.rd R.PWR_IDLE) d) ∧ y.req = true ∧
        y.ack = false ∧ y.alarmed = false) ∧
    (x.req = false ∨ x.ack = true → exec (.powerAck ⟨d, true⟩) s = .next s) ∧
    (x.req = true → x.ack = false → ∀ tgt, x.moving = some tgt →
      let u := s.modDom d (fun x => { x with ack := true, req := false })
      (tgt ≠ 0 → ∃ t, exec (.powerAck ⟨d, true⟩) s = .next t ∧ t = u.enterIdle d tgt ∧ (d < 6 → ∃ y, t.dom d = some y ∧ y.st = tgt ∧ y.ack = true)) ∧
      (tgt = 0 → 2 ≤ x.st → exec (.powerAck ⟨d, true⟩) s = .next (u.modDom d (fun x => { x with testing := true, alarmed := false }))) ∧
      (tgt = 0 → x.st ≤ 1 → exec (.powerAck ⟨d, true⟩) s = .next (u.becomeRun d))) ∧
    (x.req = true ∨ x.ack = false → exec (.powerAck ⟨d, false⟩) s = .next s) ∧
    (x.req = false → x.ack = true →
      exec (.powerAck ⟨d, false⟩) s = .next (let u := s.modDom d (fun x => { x with ack := false }); match x.thenTo with
        | some tgt => u.startMove d tgt
        | none => u)) ∧
    (∀ tgt, x.moving = some tgt → x.req = true → x.testing = false → x.alarmed = false →
      s.after x.reqAt (10 * (if tgt ≠ 0 then 100 else if x.st ≤ 1 then 2 else if x.st = 2 then 60 else 480000)) = true →
      exec (.powerHandshakeTimeout d) s = .next
        ((((s.modDom d (fun x => { x with alarmed := true })).bumpSat R.PWR_HS_ALARMS).irq 0x004 0).event 0x313 (bytes [d, tgt])))

/-- O19, tier 2. For any bursts and refills and any levels, the refill answers one level for each class; none is above its burst; and the
new levels with what passes below W6 sum to the levels, each clipped to its burst and 0 where that is 0, with all the refill. DROVER_TICK
samples pwr_grant, refills by it, re-evaluates the emergency causes, lets waiting convoy work, chunks and on Selvo-T frames go on, counts
starved classes and refreshes the votes, and always completes. -/
def Obligations.TheRefillFillsFromTheTopAndLosesNothing : Prop :=
  (∀ (burst own : Nat → Int) (n c : Nat) (carry : Int) (levels : List Int), (∀ k, 0 ≤ own k) → 0 ≤ carry → levels.length = n →
    (refillFrom burst own n c carry levels).1.length = n ∧
    (∀ k, k < n → (refillFrom burst own n c carry levels).1.getD k 0 ≤ burst (c + k)) ∧
    0 ≤ (refillFrom burst own n c carry levels).2 ∧
    (refillFrom burst own n c carry levels).1.sum + (refillFrom burst own n c carry levels).2 =
      ((List.range n).map (fun k => (if burst (c + k) = 0 then 0 else min (levels.getD k 0) (burst (c + k))) + own (c + k))).sum + carry) ∧
  (∀ (s : State) (g : Nat), (s.refill g).drover.grant = g ∧
    exec (.droverTick g) s = .next
      (let u := (s.refill (g % 65536)).setCauses (s.refill (g % 65536)).causesNow
       let u := u.convoyDrain
       let u := u.chunkDrain u.tree.chunks.length
       let u := u.patDrain u.abft.chunks.length
       let u := if s.build = .t then (u.pumpPort 0).pumpPort 1 else u
       u.starve.refreshVotes))

/-- O20, tier 2. With the drover enabled, an item of a work class from 1 to 6 is granted exactly when the emergency state grants the
class, its burst, as the last tick took it, is not 0, and the level of its bucket is at least the cost, or the cost exceeds the burst and
the bucket is full; the grant then takes the cost from that bucket and from no other, changes no other part of the state than the drover
and DRV_CHARGED, and leaves every other register. In Emergency only W1 is granted; in Constrained W4 and W6 are not. With the drover
disabled, a granted class is never charged. -/
def Obligations.TheDroverGrantsOnlyWhatIsCovered : Prop :=
  ∀ (s : State) (c cost : Nat), s.Inv → 1 ≤ c → c ≤ 6 →
    (let burst : Int := s.drover.bursts.getD (c - 1) 0 * nJ
     let lvl : Int := s.drover.levels.getD (c - 1) 0
     let need : Int := cost * nJ
     (bitOf (s.rd R.DRV_CTRL) 0 = true →
      ((s.grant c cost).isSome = true ↔ classGranted s.drover.emerg c = true ∧ burst ≠ 0 ∧ (need ≤ lvl ∨ (burst < need ∧ burst ≤ lvl))) ∧
      ∀ t, s.grant c cost = some t → t.drover.levels = s.drover.levels.set (c - 1) (lvl - need) ∧
        t = { s with regs := t.regs, drover := t.drover } ∧
        ∀ (r : Reg) (i j pg bk : Nat), r.key i j pg bk ≠ R.DRV_CHARGED.key (c - 1) 0 0 0 → t.rd r i j pg bk = s.rd r i j pg bk) ∧
     (bitOf (s.rd R.DRV_CTRL) 0 = false → s.grant c cost = if classGranted s.drover.emerg c = true then some s else none) ∧
     (s.drover.emerg = 2 → c ≠ 1 → s.grant c cost = none) ∧
     (s.drover.emerg = 1 → c = 4 ∨ c = 6 → s.grant c cost = none))

/-- O21, tier 2. EMERGENCY_CAUSE_CHANGE of cause 0 or 1 sets the level of pwr_emerg, which gives one of the two at a time; causes 2 and 3
set their pins of a Selvo-T; causes 4 to 6 follow the thermal models. The causes then stand as the inputs and models have them, and the
state becomes the worse of what it was and what they now require; the hold starts again when the last cause of the state goes.
EMERGENCY_EXIT_HOLD_EXPIRY, once every cause of the state has been absent for DRV_EXIT_HOLD ms, lowers the state by one and starts the
next hold; while a cause of it is present it changes nothing. -/
def Obligations.TheEmergencyStateFollowsItsCauses : Prop :=
  ∀ (s : State),
    (∀ (cause : Nat) (on : Bool), cause < 7 → s.build = .t ∨ (cause ≠ 2 ∧ cause ≠ 3) →
      let p := if cause < 2 then (if on = true then cause + 1 else if s.drover.pin = cause + 1 then 0 else s.drover.pin) else s.drover.pin
      ∃ t c, exec (.emergencyCauseChange cause on) s = .next t ∧ t.drover.cause = c ∧ t.drover.pin = p ∧
        t.core.pwrEmergLow = (if cause = 2 then on else s.core.pwrEmergLow) ∧ t.core.thermLowIn = (if cause = 3 then on else s.core.thermLowIn) ∧
        bitOf c 0 = decide (p = 1) ∧ bitOf c 1 = decide (2 ≤ p) ∧ bitOf c 2 = t.core.pwrEmergLow ∧
        bitOf c 3 = (t.core.thermLowIn || s.core.thermDrive) ∧ (cause ≠ 2 → cause ≠ 3 → c / 16 = s.thermCauses / 16) ∧
        t.drover.emerg = max s.drover.emerg (emergOf c) ∧
        (s.drover.emerg < emergOf c ∨ (emergOf c < s.drover.emerg ∧ s.drover.emerg ≤ emergOf s.drover.cause) → t.drover.clearAt = s.time.cycles)) ∧
    (0 < s.drover.emerg → emergOf s.drover.cause < s.drover.emerg →
      s.after s.drover.clearAt (1000 * max 1 (s.rd R.DRV_EXIT_HOLD % 65536)) = true →
      ∃ t, exec .emergencyExitHoldExpiry s = .next t ∧ t.drover = { s.drover with emerg := s.drover.emerg - 1, clearAt := s.time.cycles }) ∧
    (s.drover.emerg ≤ emergOf s.drover.cause → exec .emergencyExitHoldExpiry s = .next s) ∧
    (∀ c, emergOf c = if bitOf c 1 || bitOf c 2 || bitOf c 3 || bitOf c 5 then 2 else if bitOf c 0 || bitOf c 4 || bitOf c 6 then 1 else 0)

/-- O22, tier 2. From every state, THERMAL_ID_TICK completes, leaves causes 0 to 3 as they are, and ends with an emergency state no lower
than its causes require. EXCITATION_WINDOW_END of a model whose window has run its ticks closes the window and counts the outcome. Where
the poles and responses of the candidate satisfy R413 and the residual is at most DRV_RESID_MAX, the candidate becomes the model, which is
VALID, and interrupt bit 1 of the DROVER page is set; else the parameters and VALID stay, and bit 2 is set. -/
def Obligations.ThermalTicksSetTheirCausesAndWindowsEndJudged : Prop :=
  (∀ s : State, ∃ t, exec .thermalIdTick s = .next t ∧ t.drover.cause % 16 = s.drover.cause % 16 ∧
    emergOf t.drover.cause ≤ t.drover.emerg) ∧
  ∀ (s : State) (m : Nat) (x : Therm), s.Inv → m < 4 → s.drover.models[m]? = some x → x.window = true → x.ticks = 0 →
    (let rms := fSqrt b64 (fDiv b64 x.resid2 (fOfNat b64 x.residN))
     let good := (thmTerms x.th).isSome = true ∧ fLe b64 rms (f32to64 (s.rd R.DRV_RESID_MAX)) = true
     ∃ t y, exec (.excitationWindowEnd m) s = .next t ∧ t.drover.models[m]? = some y ∧ y.window = false ∧
       (good → y.valid = true ∧ [y.a1, y.a2, y.b1, y.b2, y.c] = (List.range 5).map (fun i => x.th.getD i 0) ∧
         bitOf (t.rd R.CMN_IRQ_STATUS (pg := 5)) 1 = true ∧ fld (t.rd R.THM_STATUS m) 15 8 = min (fld (s.rd R.THM_STATUS m) 15 8 + 1) 255) ∧
       (¬ good → y.valid = x.valid ∧ [y.a1, y.a2, y.b1, y.b2, y.c] = [x.a1, x.a2, x.b1, x.b2, x.c] ∧
         bitOf (t.rd R.CMN_IRQ_STATUS (pg := 5)) 2 = true ∧ fld (t.rd R.THM_STATUS m) 23 16 = min (fld (s.rd R.THM_STATUS m) 23 16 + 1) 255))

/-- O23, tier 2. On a Selvo-T: with CORE in Run, COOLING_DEMAND_TICK gives each of the four outputs the duty and reason of R436, which are
100 and the forcing reason whenever one is present. TACH_FAULT_TIMEOUT of an output whose duty in force is above 0 and whose speed is
below a minimum that is set puts it in fault, sets its bit in COOL_FAULT, writes event 0xA02 and, with CORE in Run, gives every output 100
% with the first reason that forces it. TACH_FAULT_CLEAR at or above the minimum ends that fault only. A PAD_RELEASE that meets no reason
releases the written outputs of the domains in Run and no others. -/
def Obligations.CoolingAndHeldOutputsOfTheChip : Prop :=
  ∀ (s : State), s.Inv → s.build = .t →
    (s.inRun 1 = true → ∃ t, exec .coolingDemandTick s = .next t ∧
      ∀ k, k < 4 → t.rd R.COOL_DUTY k =
        ((s.coolH.2.2.coolDuty s.coolH.1 s.coolH.2.1 k).1 + 256 * (s.coolH.2.2.coolDuty s.coolH.1 s.coolH.2.1 k).2) % 2 ^ 32) ∧
    (∀ r, s.inRun 1 = true → s.coolForce = some r → r < 8 → ∃ t, exec .coolingDemandTick s = .next t ∧ ∀ k, k < 4 → t.rd R.COOL_DUTY k = 100 + 256 * r) ∧
    (∀ (k rpm : Nat), k < 4 → rpm < s.rd R.COOL_TACH_MIN k % 65536 → fld (s.coolInForce k) 6 0 ≠ 0 → k ∉ s.core.tachFault →
      ∃ t u v : State, exec (.tachFaultTimeout k rpm) s = .next t ∧
        v = u.event 0xA02 (bytes [k, 0] ++ leBytes 2 rpm ++ leBytes 2 (s.rd R.COOL_TACH_MIN k % 65536)) ∧
        t = (if s.inRun 1 = true then v.coolSet (fun _ => (100, v.coolForce.getD 5)) else v) ∧
        u.core.tachFault = s.core.tachFault ++ [k] ∧ u.rd R.COOL_TACH k = rpm ∧ u.rd R.COOL_FAULT = s.rd R.COOL_FAULT ||| 2 ^ k) ∧
    (∀ (k rpm : Nat), k < 4 → s.rd R.COOL_TACH_MIN k % 65536 ≤ rpm → rpm < 65536 →
      ∃ t, exec (.tachFaultClear k rpm) s = .next t ∧ t.core = { s.core with tachFault := s.core.tachFault.filter (· != k) } ∧
        t.rd R.COOL_TACH k = rpm) ∧
    (∀ (a : Acc) (data : Word), s.portFull a = false → s.verdict a 0x117088 true false false = .perform →
      ∃ t, exec (.padRelease a data) s = .next t ∧ t.rd R.PAD_HOLD = s.rd R.PAD_HOLD &&&
        (0x1F ^^^ (data.toNat &&& ((if s.inRun 1 then 0x0F else 0) + (if s.inRun 5 then 0x10 else 0)))))

/-- O24, tier 2. On a Selvo-T: while PERST# is low the function is in reset and PCIE_STATUS reads 0x100; its rise ends that; a reset of
any kind clears the MSI-X counts and the completions of the function. A link that trains outside reset reads up with its speed and width.
A read of BAR2 wholly inside a verified pattern package returns the little-endian word there; a read of a place that holds none, or whose
package holds an uncorrectable word, which refuses it with reason 5, completes with Completer Abort and counts it. EXTEST, HIGHZ and CLAMP
(codes 3 to 5) raise the debug vote, the other codes drop it, and a code past 5 is BYPASS. -/
def Obligations.ThePcieFunctionAndTheTestPort : Prop :=
  ∀ (s : State), s.Inv → s.build = .t →
    (∃ t, exec (.pcieReset 0) s = .next t ∧ t.core.pcieReset = true ∧ t.rd R.PCIE_STATUS = 0x100 ∧ t.core.msix = [0, 0, 0, 0] ∧
      t.core.rspPcie = ⟨0, false⟩) ∧
    (∃ t, exec (.pcieReset 1) s = .next t ∧ t.core = { s.core with pcieReset := false } ∧ t.rd R.PCIE_STATUS = s.rd R.PCIE_STATUS % 256) ∧
    (∃ t, exec (.pcieReset 2) s = .next t ∧ t.regs = s.regs ∧ t.core.msix = [0, 0, 0, 0] ∧ t.core.pcieReset = s.core.pcieReset) ∧
    (∀ (speed width : Nat), s.core.pcieReset = false → speed < 8 → width < 16 →
      ∃ t, exec (.pcieLinkChange true speed width) s = .next t ∧ t.rd R.PCIE_STATUS = 1 + 2 * speed + 16 * width) ∧
    (∀ (off : Nat) (x : PatPlace), off < 16777216 → s.core.pcieReset = false → s.abft.places[off / 4194304]? = some x → x.st = 2 → x.bad = false →
      off % 4194304 / 4 * 4 + 4 ≤ x.data.length →
      exec (.pcieBar2Read off) s = .next { s with core := { s.core with bar2 := ⟨leAt x.data (off % 4194304 / 4 * 4) 4, false⟩ } }) ∧
    (∀ (off : Nat) (x : PatPlace), off < 16777216 → s.core.pcieReset = false → s.abft.places[off / 4194304]? = some x → x.st ≠ 2 ∨ x.bad = true →
      ∃ t, exec (.pcieBar2Read off) s = .next t ∧ t.core.bar2 = ⟨0, true⟩ ∧ (t.place (off / 4194304)).st ≠ 2 ∧
      (x.st = 2 → (t.place (off / 4194304)).reason = 5) ∧ t.rd R.PCIE_ERR_CA = min (s.rd R.PCIE_ERR_CA + 1) (2 ^ 32 - 1)) ∧
    (∀ code : Nat, ∃ t, exec (.testAccessInstruction code) s = .next t ∧ t.core = { s.core with jtag := if code < 6 then code else 0 } ∧
      t.power.dbg = decide (3 ≤ code ∧ code < 6))

/-- O25, tier 2. On a port of the build: a PROBE on a port of the unit's time path that is not quarantined is stamped t2 and awaits its
RESULT; on another port it changes nothing. A REPLY that answers the last PROBE of a port on which the unit is time parent, and which is
not quarantined, is answered with the RESULT of Table 4-5. A matching RESULT gives offset ((t2 - t1) - (t4 - t3))/2 - asym and mean delay
((t2 - t1) + (t4 - t3))/2, here in units of 2^-33 s / 10^12, and keeps the code and hops of the parent; one whose number is not that of
the latest REPLY is a miss, and one more of an exchange that is over changes nothing (the choice of log entry 64). A RESULT 100 us late is
a miss, and so is a PROBE later than twice the interval, on a port that is up or serves the parent. A miss that is not the third in a row
counts and ends the wait. TIME_EXCHANGE_START sends PROBE, with the next exchange number, on each port on which it is due, and wakes the
group of the parent or of a locked candidate whose exchange falls due. -/
def Obligations.TheLinkExchangeMeasuresOffsetAndDelay : Prop :=
  ∀ (s : State) (p : Nat), s.Inv → p < linkPorts s.build →
    (∀ num, num < 2 ^ 32 → s.childPort p = true → (s.port p).quar = false → ∃ t, exec (.probeReceived p num) s = .next t ∧
      t.exch p = { s.exch p with rxNum := num, t2 := s.now, repliedNum := some num, awaiting := true, replyAt := s.time.cycles,
                                 probeAt := s.time.cycles }) ∧
    (∀ num, s.childPort p = false ∨ (s.port p).quar = true → exec (.probeReceived p num) s = .next s) ∧
    (∀ num, num < 2 ^ 32 → s.masterPort p = true → (s.port p).quar = false → (s.exch p).txNum = num →
      exec (.replyReceived p num) s = .next (s.sendLocal p (s.localRec 0x23 2 num (leBytes 4 num ++ leBytes 10 (s.exch p).t1 ++ leBytes 10 s.now ++
        bytes [s.qcode + b2n s.time.refFault * 8, s.timeHops] ++ leBytes 2 (min 65535 s.holdLeft) ++ zeros 4)))) ∧
    (∀ res : TimeResult, s.childPort p = true → (s.port p).quar = false → (s.exch p).awaiting = true → (s.exch p).repliedNum = some res.num → res.code ≤ 4 →
      (let down : Int := ((s.exch p).t2 : Int) - res.t1
       let up : Int := (res.t4 : Int) - (s.exch p).t3
       let o := 10 ^ 12 * (down - up) - 2 ^ 33 * sgn32 (s.rd R.TIME_ASYM p)
       let md := 10 ^ 12 * (down + up)
       ∃ u : State, exec (.resultReceived p res) s = .next (u.applyOffset p o md (s.now - (s.exch p).lastAt)) ∧ u.regs = s.regs ∧
         u.exch p = { s.exch p with awaiting := false, misses := 0, offset := o, delay := md, code := res.code, refFault := res.refFault,
                                    hops := res.hops, holdover := res.holdover, lastAt := s.now, resAt := s.time.cycles })) ∧
    (∀ res : TimeResult, s.childPort p = true → (s.port p).quar = false → (s.exch p).repliedNum ≠ some res.num →
      exec (.resultReceived p res) s = .next (s.missOn p)) ∧
    (∀ res : TimeResult, s.childPort p = false ∨ (s.port p).quar = true ∨ ((s.exch p).awaiting = false ∧ (s.exch p).repliedNum = some res.num) →
      exec (.resultReceived p res) s = .next s) ∧
    ((s.exch p).awaiting = true → s.after (s.exch p).replyAt 100 = true → exec (.resultTimeout p) s = .next (s.missOn p)) ∧
    (s.childPort p = true → (s.port p).usable = true ∨ s.time.parent = some p →
      s.after (s.exch p).probeAt (2 * (s.rd R.TIME_EXCH_INTERVAL % 65536)) = true →
      exec (.probeTimeout p) s = .next ((s.modExch p (fun e => { e with probeAt := s.time.cycles })).missOn p)) ∧
    ((s.exch p).misses ≤ 1 → (s.missOn p).exch p = { s.exch p with awaiting := false, misses := (s.exch p).misses + 1 } ∧
      (s.missOn p).rd R.TIME_EXCH_MISS = min (s.rd R.TIME_EXCH_MISS + 1) (2 ^ 32 - 1)) ∧
    exec .timeExchangeStart s = .next ((List.range (linkPorts s.build)).foldl (fun s p => if s.probeDue p then s.sendProbe p else s.exchWake p) s) ∧
    ((s.sendProbe p).exch p).txNum = ((s.exch p).txNum + 1) % 2 ^ 32

/-- O26, tier 2. For every state, offset and interval, the servo leaves an addend within 200 ppm of nominal and a learned rate within 200
ppm of 0, and changes nothing else. A step of any amount leaves fleet time at its old value plus the amount modulo 2^80 and the addend,
the learned rate and the cycle count as they were, and is told with its cause in event 0x102 after the streams have their anchors. -/
def Obligations.TheServoStaysWithinItsBoundsAndAStepMovesTime : Prop :=
  (∀ (s : State) (o : Int) (delta : Nat),
    nominalAddend - nominalAddend / 5000 ≤ (s.servo o delta).time.addend ∧ (s.servo o delta).time.addend ≤ nominalAddend + nominalAddend / 5000 ∧
    (s.servo o delta).time.rho.natAbs ≤ 2 ^ 64 / 5000 ∧
    s.servo o delta = { s with time := { s.time with rho := (s.servo o delta).time.rho, addend := (s.servo o delta).time.addend } }) ∧
  (∀ (s : State) (d : Int) (cause : Nat), ((s.stepTime d cause).now : Int) = ((s.now : Int) + d) % 2 ^ 80 ∧
    (s.stepTime d cause).time.addend = s.time.addend ∧ (s.stepTime d cause).time.rho = s.time.rho ∧
    (s.stepTime d cause).time.cycles = s.time.cycles ∧
    s.stepTime d cause = (s.stepClock d).event 0x102 (leBytes 8 (unsN 64 d) ++ bytes [cause]))

/-- O27, tier 2. A reference fault sets REF_FAULT and takes code 3; recovery ends it, drops every lock and the parent, and leaves code 3,
or 1 at the group time root while its mode allows. A holdover that has run out leaves code 3, or 1 at that root. A TIME_CTRL write that
meets no reason and selects free running leaves no parent and code 3; one that selects another service applies it. TIME_SET_GO with bit 0,
accepted in code 3, 4 or, at the root, 1, sets fleet time to the written 80 bits; in another code it leaves time alone and sets interrupt
bit 5. TIME_ANCHOR_DUE writes an anchor with the time, code, leap and UTC fields of Table 4-2 into a stream that the unit originates, in
its class, and into no other. On an Ethernet port of a Selvo-T enabled for IEEE 1588: a message that Table 4-7 does not support is counted
in PTP_DISCARDED and changes no other register. A supported Sync of the best master keeps its stamps and gives the offset 2 (arrival -
stamp) - correction - delay - asymmetry, in the doubled offset unit: at once for a one-step Sync, for a two-step Sync with its Follow_Up,
by the arrival of the Sync and both corrections; on the selected port the offset then takes effect, a Delay_Req is sent and the registers
show it, on another nothing else happens. The answer of the best master to the last Delay_Req of this port gives the mean of the two one-
way times. A supported Announce is kept with its sender; after three intervals without one the port hears no master. A port not enabled
takes no message. -/
def Obligations.TheReferenceTheModeAndTheGrandmaster : Prop :=
  (∀ (s : State), s.Inv →
    (∀ kind, s.time.refFault = false → ∃ t, exec (.refClockFault kind) s = .next t ∧ t.time.refFault = true ∧ t.qcode = 3 ∧ t.now = s.now) ∧
    (s.time.refFault = true → ∃ t, exec .refClockRecovered s = .next t ∧ t.time.refFault = false ∧ t.time.parent = none ∧
      t.qcode = (if s.time.groupRoot = true ∧ s.modeReq ≤ 1 then 1 else 3) ∧ ∀ e ∈ t.time.exch, e.locked = false) ∧
    (∀ h, s.time.holdUntil = some h → s.time.code = 2 → h ≤ s.time.cycles → ∃ t, exec .holdoverExpiry s = .next t ∧ t.time.holdUntil = none ∧
      t.time.code = (if s.time.groupRoot = true ∧ s.modeReq ≤ 1 ∧ s.time.refFault = false then 1 else 3)) ∧
    (∀ (a : Acc) (data : Word), s.portFull a = false → s.verdict a 0x002090 true false false = .perform → data.toNat % 4 ≠ 3 →
      exec (.timeModeReq a data) s = .next ((s.timeMode data.toNat).respond a true 0 false) ∧
      (data.toNat % 4 = 2 → (s.timeMode data.toNat).time.parent = none ∧ (s.timeMode data.toNat).time.code = 3)) ∧
    (∀ (a : Acc) (data : Word), s.portFull a = false → s.verdict a 0x0020DC true false false = .perform → bitOf data.toNat 0 = true →
      (s.qcode = 3 ∨ s.qcode = 4 ∨ (s.time.groupRoot = true ∧ s.qcode = 1) → ∃ t, exec (.timeSet a data) s = .next t ∧
        t.now = s.rd R.TIME_SET_FRAC + s.rd R.TIME_SET_SEC_LO * 2 ^ 32 + s.rd R.TIME_SET_SEC_HI % 65536 * 2 ^ 64) ∧
      (s.qcode ≤ 2 → ¬ (s.time.groupRoot = true ∧ s.qcode = 1) → ∃ t, exec (.timeSet a data) s = .next t ∧ t.time = s.time ∧
        bitOf (t.rd R.CMN_IRQ_STATUS (pg := 2)) 5 = true)) ∧
    (∀ stream tc : Nat, ((stream, tc) ∈ s.time.anchored → exec (.timeAnchorDue stream tc) s = .next (s.anchor stream tc false)) ∧
      ((stream, tc) ∉ s.time.anchored → exec (.timeAnchorDue stream tc) s = .next s) ∧
      s.anchorBytes false = leBytes 10 s.now ++ leBytes 1 s.qcode ++ leBytes 1 (s.rd R.TIME_UTC / 65536 % 8) ++
        leBytes 2 (s.rd R.TIME_UTC % 65536) ++ zeros 2)) ∧
  (∀ (s : State) (p : Nat) (m : PtpMsg), s.Inv → s.build = .t → p < 2 → p < s.time.ptp.length →
    (∀ ann, s.ptpOn p = true → s.ptpTaken m = false → ∀ c ∈ [Instr.ptpSyncReceived p m, .ptpDelayRespReceived p m true, .ptpDelayRespReceived p m false, .ptpAnnounceReceived p m ann],
      ∃ t, exec c s = .next t ∧ t = { s with regs := t.regs } ∧ t.rd R.PTP_DISCARDED = min (s.rd R.PTP_DISCARDED + 1) (2 ^ 32 - 1) ∧
        ∀ (r : Reg) (i j pg bk : Nat), r.key i j pg bk ≠ R.PTP_DISCARDED.key 0 0 0 0 → t.rd r i j pg bk = s.rd r i j pg bk) ∧
    (s.ptpOn p = true → s.ptpTaken m = true →
      (let okI : Bool := decide (-7 ≤ m.logInterval ∧ m.logInterval ≤ 1)
       let synced (v : State) (t2 : Nat) (corr : Int) (ok : Bool) : State :=
         let o : Int := 2 * 10 ^ 12 * ((t2 : Int) - m.stamp) - 2 ^ 33 * corr - (s.ptp p).delay -
           2 ^ 33 * sgn32 (s.rd (if p = 0 then R.PTP_ASYM0 else R.PTP_ASYM1))
         let u := v.modPtp p (fun q => { q with t1 := m.stamp, t2 := t2, corr := corr, intervalOk := ok, offset := o })
         if p = s.time.ptpSel then ((u.ptpOffset p o (t2 - (s.ptp p).t2) ok).delayReq p).ptpShow else u
       let u := s.modPtp p (fun q => { q with twoStep := none })
       (s.fromBest p m = false → exec (.ptpSyncReceived p m) s = .next s) ∧
       (s.fromBest p m = true → m.kind = .oneStep → exec (.ptpSyncReceived p m) s = .next (synced u s.now m.correction okI)) ∧
       (s.fromBest p m = true → m.kind = .twoStep → exec (.ptpSyncReceived p m) s = .next (s.modPtp p (fun q => { q with twoStep := some { seq := m.seq, source := m.source, t2 := s.now, corr := m.correction, intervalOk := okI } }))) ∧
       (s.fromBest p m = true → m.kind = .followUp → exec (.ptpSyncReceived p m) s = .next (match (s.ptp p).twoStep with
         | some w => if w.seq = m.seq ∧ w.source = m.source then synced u w.t2 (w.corr + m.correction) w.intervalOk else s
         | none => s)))) ∧
    (∀ t3, s.ptpOn p = true → s.ptpTaken m = true → s.fromBest p m = true → (s.ptp p).t3 = some t3 → m.seq = (s.ptp p).reqSeq →
      ∃ t, exec (.ptpDelayRespReceived p m true) s = .next t ∧ (t.ptp p).t3 = none ∧
      (t.ptp p).delay = ((2 * 10 ^ 12 * (((s.ptp p).t2 : Int) - (s.ptp p).t1) - 2 ^ 33 * (s.ptp p).corr) +
        (2 * 10 ^ 12 * ((m.stamp : Int) - t3) - 2 ^ 33 * m.correction)) / 2) ∧
    (∀ mine, s.ptpOn p = true → s.ptpTaken m = true → mine = false ∨ s.fromBest p m = false ∨ (s.ptp p).t3 = none ∨ m.seq ≠ (s.ptp p).reqSeq →
      exec (.ptpDelayRespReceived p m mine) s = .next s) ∧
    (∀ ann, s.ptpOn p = true → s.ptpTaken m = true → ∃ t, exec (.ptpAnnounceReceived p m ann) s = .next t ∧
      (t.ptp p).masters = assocSet m.source ann (s.ptp p).masters) ∧
    (∃ t, exec (.ptpAnnounceTimeout p) s = .next t ∧ (t.ptp p).masters = [] ∧ (t.ptp p).twoStep = none) ∧
    (s.ptpOn p = false → exec (.ptpSyncReceived p m) s = .next s ∧ (∀ mine, exec (.ptpDelayRespReceived p m mine) s = .next s) ∧
      ∀ ann, exec (.ptpAnnounceReceived p m ann) s = .next s))

/-- O28, tier 2. A PULSE_ARM that meets no reason arms every generator whose bit is written from its START, PERIOD and WIDTH and no other:
a periodic one with no phase in progress takes the least index whose edge is at or after START and at least 200 ns (859 units of 2^-32 s)
ahead; a one-shot fires unless its edge is nearer than that, which counts as missed. PULSE_EDGE of a generator in its active phase ends
the phase once its time has come; of a running one whose edge has come it begins the phase with a code at most QGATE, and else emits
nothing, counts the edge as missed and sets GATED. PULSE_DISARM stops a generator at rest at once, and one in its active phase after it.
On a Selvo-T, an edge that CAP_CTRL selects and that lies at least 10 ns after the last one on the local clock is put at the end of the
FIFO of its input with fleet time, the quality code and its direction while the FIFO holds fewer than 16, and is otherwise counted in
CAP_OVERFLOW with the FIFO as it was; an edge not selected, or closer, changes nothing. A CAP_POP of 1 that meets no reason removes the
head of its FIFO. -/
def Obligations.PulsesAreEmittedAndCapturesStamped : Prop :=
  (∀ (s : State) (n : Nat) (g : Pulse), s.Inv → n < pulseGens s.build → s.pulse.gens[n]? = some g →
    (∀ (a : Acc) (data : Word), s.portFull a = false → s.verdict a 0x003180 true false false = .perform → ∃ t h, exec (.pulseArm a data) s = .next t ∧
      t.pulse.gens[n]? = some h ∧ (bitOf data.toNat n = false → h = g) ∧
      (bitOf data.toNat n = true → h.start = s.plsStart n ∧ h.period = s.plsPeriod n ∧ h.missed = b2n (h.period == 0 && decide (h.start < s.now + 859)) ∧
        (h.period ≠ 0 → g.activeUntil = none → h.running = true ∧ s.now + 859 ≤ h.start + h.k * h.period ∧
          ∀ k, k < h.k → h.start + k * h.period < s.now + 859) ∧
        (h.period = 0 → g.activeUntil = none → (h.running = true ↔ s.now + 859 ≤ h.start)))) ∧
    (∃ t h, exec (.pulseEdge n) s = .next t ∧ t.pulse.gens[n]? = some h ∧
      (∀ u, g.activeUntil = some u → u ≤ s.now → h.activeUntil = none ∧ h.k = g.k) ∧
      (g.activeUntil = none → g.running = true → g.start + g.k * g.period ≤ s.now →
        (s.qcode ≤ g.qgate → h = { g with activeUntil := some (g.start + g.k * g.period + g.width), k := g.k + 1 }) ∧
        (g.qgate < s.qcode → h = { g with k := g.k + 1, missed := min (g.missed + 1) 255, gated := true, running := g.period != 0 }))) ∧
    (∀ (a : Acc) (data : Word), s.portFull a = false → s.verdict a 0x003184 true false false = .perform → ∃ t h, exec (.pulseDisarm a data) s = .next t ∧
      t.pulse.gens[n]? = some h ∧ h = (if bitOf data.toNat n = true then
        (if g.activeUntil.isSome = true then { g with stopping := true } else { g with running := false }) else g))) ∧
  (∀ (s : State) (c : Nat) (q : CapIn), s.Inv → s.build = .t → c < 4 → s.pulse.caps[c]? = some q →
    (∀ rising : Bool, edgeSelected (s.rd R.CAP_CTRL c % 4) rising = true → closeEdge q.lastAt s.time.cycles = false →
      (q.fifo.length < 16 → ∃ t, exec (.captureEdge c rising) s = .next t ∧
        t.pulse.caps[c]? = some { fifo := q.fifo ++ [{ time := s.now, code := s.qcode, rising := rising }], lastAt := some s.time.cycles }) ∧
      (16 ≤ q.fifo.length → ∃ t, exec (.captureEdge c rising) s = .next t ∧ t.pulse.caps[c]? = some { q with lastAt := some s.time.cycles } ∧
        t.rd R.CAP_OVERFLOW c = min (s.rd R.CAP_OVERFLOW c + 1) (2 ^ 32 - 1))) ∧
    (∀ rising : Bool, edgeSelected (s.rd R.CAP_CTRL c % 4) rising = false ∨ closeEdge q.lastAt s.time.cycles = true →
      exec (.captureEdge c rising) s = .next s) ∧
    (∀ (a : Acc) (data : Word), bitOf data.toNat 0 = true → s.portFull a = false → s.verdict a (0x003210 + 0x20 * c) true false false = .perform →
      ∃ t, exec (.capPop a c data) s = .next t ∧ t.pulse.caps[c]? = some { q with fifo := q.fifo.drop 1 }))

/-- O29, tier 2. From every state not in power-on reset, POWER_ON_RESET, and on a Selvo-T a trip of kind 1 or 2, leave the unit in reset
with the register file at its reset values, fleet time 0 at the nominal addend and an empty event store; the fuses (but for a commit in
progress, which becomes VOID in the count), the image regions, the flash ring and the operating hours stay, and the cause is kept for the
record. The release of that reset takes the five straps on a Selvo-T, brings the identity and the privacy floor of the fuses into force,
raises the power cycle count, saturating at 24 bits, and starts fleet time at 0. From every state in no reset, WARM_RESET leaves the unit
in warm reset with bit 1 of PWR_RESET_CAUSE set, and the fuses, flash, identity and fleet time as they were. From a warm reset,
WARM_RESET_RELEASE leaves it. A warm reset within a reset, and a release of none, change nothing. -/
def Obligations.WhatPowerOnAndWarmResetsKeep : Prop :=
  (∀ (s : State),
    (s.core.por = false → (∃ t, exec .powerOnReset s = .next t) ∧
      (s.build = .t → (∃ t, exec (.railOrThermalTrip 1) s = .next t) ∧ ∃ t, exec (.railOrThermalTrip 2) s = .next t) ∧
      ∀ t cause, (exec .powerOnReset s = .next t ∧ cause = 0) ∨ (s.build = .t ∧ exec (.railOrThermalTrip cause) s = .next t ∧ (cause = 1 ∨ cause = 2)) →
        t.core.por = true ∧ t.core.porCause = cause ∧ t.regs = [] ∧ t.now = 0 ∧ t.time.addend = nominalAddend ∧
        t.ev.store = [] ∧ t.ev.ring = s.ev.ring ∧ t.ev.hours = s.ev.hours ∧ t.fw.regions = s.fw.regions ∧ t.build = s.build ∧
        t.auth.otp = (match s.auth.busy, s.auth.queue with
          | true, c :: _ => (s.otpCount c true).auth.otp
          | _, _ => s.auth.otp)) ∧
    (∀ straps slow, s.core.por = true → ∃ t, exec (.powerOnResetRelease straps slow) s = .next t ∧ t.core.por = false ∧ t.core.warm = false ∧
      t.core.straps = (if s.build = .t then straps % 32 else 0) ∧ t.auth.floorNow = s.auth.otp.floor ∧
      (s.auth.otp.identity = none → t.auth.srcId = 0x7FFFFF) ∧ (∀ v, s.auth.otp.identity = some v → t.auth.srcId = t.idOf v) ∧
      t.ev.pcycles = min (s.ev.pcycles + 1) (2 ^ 24 - 1) ∧ t.now = 0)) ∧
  (∀ (s : State), s.Inv →
    (s.core.por = false → s.core.warm = false → ∃ t, exec .warmReset s = .next t ∧ t.core.warm = true ∧ t.core.por = false ∧
      bitOf (t.rd R.PWR_RESET_CAUSE) 1 = true ∧ t.auth = s.auth ∧ t.fw.regions = s.fw.regions ∧ t.now = s.now) ∧
    (∀ slow, s.core.por = false → s.core.warm = true → ∃ t, exec (.warmResetRelease slow) s = .next t ∧ t.core.warm = false ∧ t.now = s.now ∧
      t.auth = s.auth) ∧
    (s.core.por = true ∨ s.core.warm = true → exec .warmReset s = .next s) ∧
    (∀ slow, s.core.por = true ∨ s.core.warm = false → exec (.warmResetRelease slow) s = .next s))

/-- O30, tier 2. For every state with a canonical register file, every domain and every choice of lost classes: each copy of a register
whose address answers in the domain and whose class is lost reads its reset value, each other copy reads as before (CMN_STATUS, PWR_LOSS
and the interrupt status of the POWER page apart), DEFAULTED is set on every mapped page of the domain, and the bit of the domain is set
in PWR_LOSS. -/
def Obligations.WhatADomainLosesReadsItsResetValueAndIsMarked : Prop :=
  ∀ (s : State) (d : Nat) (lost : Retention → Bool), s.Inv → d < 15 →
    (∀ (r : Reg) (i j pg bk : Nat), r.key i j pg bk % 4096 ≠ 0x014 → r.key i j pg bk ≠ R.PWR_LOSS.key 0 0 0 0 →
      r.key i j pg bk ≠ R.CMN_IRQ_STATUS.key 0 0 4 0 →
      (s.loseRegs d lost).rd r i j pg bk =
        if addrDom s.build (r.key i j pg bk % 2 ^ 21) = d ∧ lost (keyRet s.build (r.key i j pg bk)) = true
        then r.resetVal s.build s.bs i j pg bk % 2 ^ 32 else s.rd r i j pg bk) ∧
    (∀ page, pageInfo s.build page ≠ none → addrDom s.build (page * 4096) = d →
      bitOf ((s.loseRegs d lost).rd R.CMN_STATUS (pg := page)) 0 = true) ∧
    bitOf ((s.loseRegs d lost).rd R.PWR_LOSS) d = true

/-- O31, tier 2. On an island of the build: QUIESCE_REQUEST raises its request, and changes nothing else but that a link group abandons
the census in flight on its ports; QUIESCE_DRAINED of an island that was asked lets it launch what waits, and marks it drained where
nothing is left (the time island at once: the choice of log entry 67); QUIESCE_RELEASE ends both. TAP_ISLAND_RESET asserted closes the
open commands of the command island, and then either writes the reset notice 0x004 of an island that was drained, which loses nothing, or
takes what waits and notes the island for a discontinuity marker; the island stays in reset until the command releases it, when what
waited lands. LINK_GROUP_RESET asserted cuts the ports of the group, writes the notice of a group that was drained, and tells of the links
that fell; released, it checks the clock of the group. Each edge changes nothing where the level already stands. -/
def Obligations.QuiesceAndTheResetOfOneIsland : Prop :=
  ∀ (s : State), s.Inv →
    (∀ isl, s.islandThere isl = true → isl ∉ s.core.qscReq → ∃ t, exec (.quiesceRequest isl) s = .next t ∧
      t.core = { s.core with qscReq := s.core.qscReq ++ [isl], qscAt := assocSet isl s.time.cycles s.core.qscAt } ∧
      (isLinkIsland isl = false → t = { s with core := t.core }) ∧
      (isLinkIsland isl = true → ∀ p ∈ groupPorts s.build (isl - 9), (t.port p).census = none)) ∧
    (∀ isl, s.islandThere isl = true → isl ∈ s.core.qscReq → exec (.quiesceRequest isl) s = .next s) ∧
    (∀ isl, s.islandThere isl = true → isl ∈ s.core.qscReq → isl ∉ s.core.qscDrained →
      exec (.quiesceDrained isl) s = .next (if (s.drain isl).isDrained isl = true
        then { s.drain isl with core := { (s.drain isl).core with qscDrained := (s.drain isl).core.qscDrained ++ [isl] } } else s.drain isl) ∧
      (isl = 18 → exec (.quiesceDrained isl) s = .next { s with core := { s.core with qscDrained := s.core.qscDrained ++ [isl] } })) ∧
    (∀ isl, s.islandThere isl = true → isl ∉ s.core.qscReq ∨ isl ∈ s.core.qscDrained → exec (.quiesceDrained isl) s = .next s) ∧
    (∀ isl, s.islandThere isl = true → ∃ t, exec (.quiesceRelease isl) s = .next t ∧ isl ∉ t.core.qscReq ∧ isl ∉ t.core.qscDrained) ∧
    (∀ n, hasTaps s.build = true → n < 8 → s.tapPresent n = true →
      let u := if s.portIsland 4 = n then s.samp.cmds.foldl (fun v o => v.cmdClose o.stream 4) s else s
      (n ∉ s.core.inReset → ∃ t, exec (.tapIslandReset ⟨n, true⟩) s = .next t ∧ n ∈ t.core.inReset ∧
        (n ∈ u.core.qscDrained → t = (u.event 0x004 (bytes [n, 1])).setInReset n true) ∧
        (n ∉ u.core.qscDrained → t = ((u.tapLose n).discAdd n).setInReset n true ∧ n ∈ t.core.discIslands.map Prod.fst)) ∧
      (n ∈ s.core.inReset → exec (.tapIslandReset ⟨n, true⟩) s = .next s ∧
        exec (.tapIslandReset ⟨n, false⟩) s = .next ((s.setInReset n false).landHeld n)) ∧
      (n ∉ s.core.inReset → exec (.tapIslandReset ⟨n, false⟩) s = .next s)) ∧
    (∀ g slow, g < linkGroups s.build →
      let ps := groupPorts s.build g
      let u := s.linksCut ps
      (9 + g ∉ s.core.inReset → ∃ t, exec (.linkGroupReset ⟨g, true⟩ slow) s = .next t ∧ 9 + g ∈ t.core.inReset ∧
        (9 + g ∈ u.core.qscDrained → t = ((u.event 0x004 (bytes [9 + g, 1])).linksTold (s.linksLive ps) (s.linksUp ps) 0 false).setInReset (9 + g) true) ∧
        (9 + g ∉ u.core.qscDrained → t = (u.linksTold (s.linksLive ps) (s.linksUp ps) 0 false).setInReset (9 + g) true)) ∧
      (9 + g ∈ s.core.inReset → exec (.linkGroupReset ⟨g, true⟩ slow) s = .next s ∧
        exec (.linkGroupReset ⟨g, false⟩ slow) s = .next ((s.setInReset (9 + g) false).clockCheck [g] slow)) ∧
      (9 + g ∉ s.core.inReset → exec (.linkGroupReset ⟨g, false⟩ slow) s = .next s))

/-- O32, tier 2. At a usable port of a group in Run whose far end does not doze, a unit boundary takes the lowest-numbered class whose
head may leave as far as all but its credits go: it is coded where it is to be, and sent where its credits then cover it, else the search
goes on with the classes after it; with no such class nothing changes. Towards a dozing far end WAKE blocks begin where a class is
eligible, and else nothing changes. Sending the head unit puts its header and bytes on the wire, takes ceil((n + 8) / 64) credits for its
n data bytes, and for a class other than TC0 (n + 8) bytes of tokens from the level now; the packet stays at the head with n bytes more
sent, or with its last unit moves to the held list; every other class of the port is as it was. A port that is not usable sends nothing. -/
def Obligations.UnitsLeaveByPriorityAndSpendTheirCredits : Prop :=
  ∀ (s : State) (p : Nat), s.Inv → p < linkPorts s.build →
    (∀ bad, (s.port p).usable = false ∨ s.groupRuns p = false ∨ (∀ c < 8, s.mayLeave p c = false ∨ ((s.port p).tx8 c).usable ≤ 0) →
      exec (.egressUnitBoundary p bad) s = .next s) ∧
    (∀ bad, (s.port p).usable = true → s.groupRuns p = true → (s.port p).farDoze = true →
      ((∃ c < 8, s.eligible p c = true) → exec (.egressUnitBoundary p bad) s = .next (s.wakeFar p)) ∧
      ((∀ c < 8, s.eligible p c = false) → exec (.egressUnitBoundary p bad) s = .next s)) ∧
    (∀ bad c, (s.port p).usable = true → s.groupRuns p = true → (s.port p).farDoze = false → c < 8 →
      s.mayLeave p c = true → 0 < ((s.port p).tx8 c).usable → (∀ d < c, s.mayLeave p d = false ∨ ((s.port p).tx8 d).usable ≤ 0) →
      (let u := s.codeHead p c
       (u.eligible p c = true → exec (.egressUnitBoundary p bad) s = .next ((if bad = [] then u else (u.poisonHead p c).badWord bad).sendUnit p c)) ∧
       (u.eligible p c = false → exec (.egressUnitBoundary p bad) s = .next (State.unitFrom p bad ((List.range 8).drop (c + 1)) u)))) ∧
    (∀ c, s.eligible p c = true ↔ s.mayLeave p c = true ∧ (((s.port p).tx8 c).headNeed : Int) ≤ ((s.port p).tx8 c).usable) ∧
    (∀ c i rest, c < (s.port p).cls.length → ((s.port p).tx8 c).q = i :: rest →
      (let x := (s.port p).tx8 c
       let y := ((s.sendUnit p c).port p).tx8 c
       y.credits = x.credits - ((i.nextLen + 8 + 63) / 64 : Nat) ∧
       (c = 0 → y.tokens = x.tokens) ∧ (c ≠ 0 → y.tokens = s.tokensNow p c - ((i.nextLen : Int) + 8) * byteUnit) ∧
       (∃ pkt, ((s.sendUnit p c).port p).tx = some (UnitIn.make pkt c (i.sent == 0) (i.sent + i.nextLen == i.r.payload.length + 24)
         (((packet i.r).drop i.sent).take i.nextLen))) ∧
       (i.sent + i.nextLen ≠ i.r.payload.length + 24 → y.held = x.held ∧ ∃ j, y.q = j :: rest ∧ j.uid = i.uid ∧ j.r = i.r ∧ j.sent = i.sent + i.nextLen) ∧
       (i.sent + i.nextLen = i.r.payload.length + 24 → y.q = rest ∧ ∃ j, y.held = x.held ++ [j] ∧ j.uid = i.uid ∧ j.r = i.r) ∧
       ∀ d, d ≠ c → ((s.sendUnit p c).port p).tx8 d = (s.port p).tx8 d))

/-- O33, tier 2. On a trained port with something to report and 400 ns after the last packet, LINK_CTL_SEND sends a census echo that
waits, and else the cumulative counts of exactly the classes that changed, after which nothing is unreported; with nothing to report, or
sooner, it sends nothing, and towards a dozing far end it begins WAKE blocks. A keepalive lists all eight classes. A LINK_CTL_RECEIVED of
one class adds to its credits what the released count has grown by modulo 2^32, and takes the acknowledged packets from the front of the
held list, at most all of it. What is received ends the far end's doze. -/
def Obligations.LinkControlCarriesCumulativeCounts : Prop :=
  ∀ (s : State) (p : Nat), s.Inv → p < linkPorts s.build →
    (s.port p).trained = true →
    ((s.port p).unreported ≠ [] → (s.port p).lastCtlAt + 320 ≤ s.time.cycles → (s.port p).farDoze = false →
      (s.port p).echo = none → ∃ t, exec (.linkCtlSend p) s = .next t ∧ (t.port p).unreported = [] ∧ (t.port p).lastCtlAt = s.time.cycles ∧
        (t.port p).ctl = some (CtlPkt.make 0x10 (clsBits (s.port p).unreported) 0 0
          ((s.port p).unreported.map (fun c => [((s.port p).tx8 c).released, ((s.port p).tx8 c).rxAcked % 2 ^ 32])).flatten)) ∧
    (∀ k, (s.port p).echo = some k → (s.port p).lastCtlAt + 320 ≤ s.time.cycles → (s.port p).farDoze = false →
      ∃ t, exec (.linkCtlSend p) s = .next t ∧ (t.port p).echo = none ∧ (t.port p).lastCtlAt = s.time.cycles ∧ (t.port p).ctl = some k ∧
        (t.port p).cls = (s.port p).cls) ∧
    ((s.port p).unreported ≠ [] ∨ (s.port p).echo ≠ none → (s.port p).lastCtlAt + 320 ≤ s.time.cycles → (s.port p).farDoze = true →
      exec (.linkCtlSend p) s = .next (s.wakeFar p)) ∧
    (((s.port p).unreported = [] ∧ (s.port p).echo = none) ∨ s.time.cycles < (s.port p).lastCtlAt + 320 → exec (.linkCtlSend p) s = .next s) ∧
    ((s.port p).unreported = [] → (s.port p).farDoze = false → (s.port p).dozing = false → s.after (s.port p).lastReportAt 10 = true →
      (s.port p).echo = none → (s.port p).lastCtlAt + 320 ≤ s.time.cycles → ∃ t k, exec (.linkCtlKeepalive p) s = .next t ∧ (t.port p).ctl = some k ∧ k.type = 0x10 ∧ k.bitmap = 255 ∧ k.flags = 1 ∧ k.values.length = 16) ∧
    (∀ c rel ack, c < 8 → c < (s.port p).cls.length →
      (let x := (s.port p).tx8 c
       let da := (ack + 2 ^ 32 - x.ackApplied) % 2 ^ 32
       ∃ t, exec (.linkCtlReceived p [(c, rel, ack)]) s = .next t ∧ (t.port p).farDoze = false ∧ (t.port p).rxAt = s.time.cycles ∧
         ((t.port p).tx8 c).credits = x.credits + ((rel + 2 ^ 32 - x.relApplied) % 2 ^ 32 : Nat) ∧
         ((t.port p).tx8 c).relApplied = rel % 2 ^ 32 ∧ ((t.port p).tx8 c).held = x.held.drop da ∧
         ((t.port p).tx8 c).ackApplied = (x.ackApplied + min da x.held.length) % 2 ^ 32))

/-- O34, tier 2. Training of a leaf port or fabric lane that may train sets every count of its classes to 0, brings accepted totals into
force and puts what was held and queued back in its order; a Selvo-L then sends CREDIT_INIT for all classes at once, another build after
discovery. CREDIT_INIT_RECEIVED bounds the rate, and gives the listed classes the totals as credits: at once in training or where no
credit is outstanding, else at their quiescent point; it ends the census of such a class. With the acknowledgement and all eight classes
ready the link is UP, unless disabled or held down. CREDIT_INIT_ACK_RECEIVED puts a total that was sent in force. CLASS_QUIESCE_DONE of a
sender whose head is not covered and whose credits have returned, or after two round trips, sets the total and answers a CREDIT_INIT that
waits; after a REPLAY it sends again. At a receiver whose buffer of the class is empty and whose releases are reported it sends the
CREDIT_INIT of a new total. FLOW_APPLY with totals that sum to the buffer and meet every minimum sets each class whose total differs on
its way; else it is refused, with interrupt bit 3. -/
def Obligations.CreditsAreSetUpAndTotalsAreApplied : Prop :=
  ∀ (s : State) (p : Nat), s.Inv → p < linkPorts s.build →
    (s.mayTrain p = false ∨ 2 ≤ portKind s.build p → exec (.linkTrainingStart p) s = .next s) ∧
    (s.mayTrain p = true → portKind s.build p < 2 → ∃ t, exec (.linkTrainingStart p) s = .next t ∧ (t.port p).training = true ∧ (t.port p).up = false ∧
      (s.build = .l → (t.port p).ctl = some (CtlPkt.make 0x13 255 0 0
        (rateMaxOf (portKind s.build p) (s.port p).buf :: (s.port p).cls.map (fun x => x.newT.getD x.t)))) ∧
      (s.build ≠ .l → (t.port p).step = 1 ∧ (t.port p).ctl = (s.port p).ctl) ∧
      ∀ c < (s.port p).cls.length,
        (let x := (s.port p).tx8 c
         let y := (t.port p).tx8 c
         y.credits = 0 ∧ y.txSent = 0 ∧ y.rxRecv = 0 ∧ y.released = 0 ∧ y.relApplied = 0 ∧ y.ready = false ∧ y.held = [] ∧
         y.t = x.newT.getD x.t ∧ y.newT = none ∧
         y.q.map (fun i => (i.uid, i.r)) = (x.held ++ x.q).map (fun i => (i.uid, i.r)))) ∧
    (∀ bitmap rate totals, ∃ t, exec (.creditInitReceived p bitmap rate totals) s = .next t ∧ (t.port p).rate = min (lineRate (portKind s.build p)) rate ∧
      (∀ c < 8, c < (s.port p).cls.length → bitOf bitmap c = true →
        (let x := (s.port p).tx8 c
         let y := (t.port p).tx8 c
         let wait : Quiesce := { why := .init, since := s.time.cycles, newT := totals.getD c 0, owe := true, left := 0 }
         ((s.port p).training = true ∨ (x.quiesce = none ∧ (x.farT : Int) ≤ x.credits) →
           y.farT = totals.getD c 0 ∧ y.credits = (totals.getD c 0 : Nat) ∧ y.ready = true ∧ y.quiesce = none) ∧
         ((s.port p).training = false → x.quiesce = none → x.credits < x.farT → y.quiesce = some wait ∧ y.credits = x.credits ∧ y.farT = x.farT) ∧
         (∀ z, (s.port p).training = false → x.quiesce = some z → y.quiesce = some { wait with why := z.why, since := z.since } ∧ y.credits = x.credits))) ∧
      (∀ k, (s.port p).census = some k → bitOf bitmap k.cls = true → (t.port p).census = none) ∧
      ((s.port p).cls.length = 8 → (∀ c < 8, bitOf bitmap c = true) → (s.port p).training = true → (s.port p).initAcked = true →
        (t.port p).up = (!(s.port p).disabled && !(s.port p).heldDown) ∧ (t.port p).trained = true ∧ (t.port p).training = false ∧
        (t.port p).trainCount = min ((s.port p).trainCount + 1) (2 ^ 32 - 1))) ∧
    (∀ bitmap c n, c < 8 → c < (s.port p).cls.length → bitOf bitmap c = true → ((s.port p).tx8 c).newT = some n → ((s.port p).tx8 c).initSent = true →
      ∃ t, exec (.creditInitAckReceived p bitmap) s = .next t ∧ ((t.port p).tx8 c).t = n ∧ ((t.port p).tx8 c).newT = none) ∧
    (∀ c, c < 8 → c < (s.port p).cls.length →
      (let x := (s.port p).tx8 c
       (x.quiesce = none → x.newT = none → exec (.classQuiesceDone p c) s = .next s) ∧
       (∀ z, x.quiesce = some z → x.newT = none → x.q = [] ∨ z.left < x.headNeed →
         (x.farT : Int) ≤ x.credits ∨ z.since + 2 * portRtt (portKind s.build p) * 4 / 5 ≤ s.time.cycles →
         ∃ t, exec (.classQuiesceDone p c) s = .next t ∧ t.rd R.FLOW_REINIT = min (s.rd R.FLOW_REINIT + 1) (2 ^ 32 - 1) ∧
           (z.why ≠ .replay → (t.port p).tx8 c = { x with credits := z.newT, farT := z.newT, quiesce := none }) ∧
           (z.why = .replay → (t.port p).tx8 c = { x with credits := z.newT, farT := z.newT, quiesce := none, q := x.held.map Item.again ++ x.q.map Item.again, held := [] }) ∧
           (t.port p).ctl = (if z.owe = true then some (CtlPkt.make 0x14 (2 ^ c) 0 0 []) else (s.port p).ctl)) ∧
       (∀ z, x.quiesce = some z → x.newT = none → (x.q ≠ [] ∧ (x.headNeed : Int) ≤ z.left) ∨
         (x.credits < x.farT ∧ s.time.cycles < z.since + 2 * portRtt (portKind s.build p) * 4 / 5) → exec (.classQuiesceDone p c) s = .next s) ∧
       (∀ n, x.quiesce = none → x.newT = some n → x.initSent = false → (s.port p).trained = true → x.occ = 0 →
         x.released = x.relReported ∨ s.twoTrips p x.newAt = true →
         exec (.classQuiesceDone p c) s = .next ((s.modCls p c (fun x => { x with initSent := true })).sendInit p (2 ^ c))))) ∧
    (∀ (a : Acc) (data : Word), s.portFull a = false → s.verdict a 0x02B10C true false false = .perform → bitOf data.toNat 0 = true →
      s.rd R.FLOW_SEL % 256 = p →
      (let T := fun c => s.rd R.FLOW_T_CFG c (bk := p) % 1024
       let ok := ((List.range 8).map T).sum = (s.port p).buf ∧ ∀ c < 8, minT c ≤ T c
       ∃ t, exec (.flowApply a data) s = .next t ∧
         (ok → (t.port p).refused = false ∧ ∀ c < 8, c < (s.port p).cls.length → (t.port p).tx8 c =
           if ((s.port p).tx8 c).newT.getD ((s.port p).tx8 c).t = T c then (s.port p).tx8 c
           else { (s.port p).tx8 c with newT := if ((s.port p).tx8 c).t = T c then none else some (T c), newAt := s.time.cycles, initSent := false }) ∧
         (¬ ok → (t.port p).refused = true ∧ (t.port p).cls = (s.port p).cls ∧ bitOf (t.rd R.CMN_IRQ_STATUS (pg := 0x02B)) 3 = true)))

/-- O35, tier 2. With the census enabled, a usable port with no mark outstanding whose round is due, 400 ns after its last link-control
packet, sends the mark of its next class and keeps what is outstanding; while that class is being quiesced the census is skipped. A mark
received is answered with the free credits and the cumulative credits released, at once or, within those 400 ns, with the next link-
control packet. An echo of the mark outstanding ends it; where outstanding less returned plus free equals the total the class passes, and
where it does not, the class is brought to a quiescent point, at once where credits were created and after those it holds where they were
lost, the mismatch is counted and alarmed with event 0x201. An echo of another mark changes nothing; one that has not come in four round
trips is skipped and counted. LINK_DOWN of a port that is up leaves it neither up, trained nor training, with no packet held, no class
ready and no census outstanding, after each packet it held or queued has been sent another way or dropped link-down, and ends with event
0x204 of the port, cause and neighbour, before which a Ralud lane with a twin raises the guarantee alarm. A port that only trained falls
without an event; one that is down is not changed. -/
def Obligations.TheCensusAndTheFallOfALink : Prop :=
  (∀ (s : State) (p : Nat), s.Inv → p < linkPorts s.build →
    (bitOf (s.rd R.FLOW_CTRL) 0 = true → (s.port p).usable = true → (s.port p).census = none →
      (s.port p).lastCtlAt + 320 ≤ s.time.cycles → (s.port p).censusNext ≠ 0 ∨ s.after (s.port p).censusAt (1000 * (s.rd R.FLOW_CTRL / 65536)) = true →
      (let c := (s.port p).censusNext
       let x := (s.port p).tx8 c
       let num := ((s.port p).censusNum + 1) % 2 ^ 32
       ∃ t, exec (.censusMarkSend p) s = .next t ∧ (t.port p).censusNum = num ∧
         (t.port p).ctl = some (CtlPkt.make 0x11 0 0 num [c]) ∧ (t.port p).lastCtlAt = s.time.cycles ∧
         (x.quiesce = none → x.ready = true → (t.port p).census = some
           { num := num, cls := c, outstanding := (x.farT : Int) - x.credits, credited := x.relApplied, since := s.time.cycles }) ∧
         (x.quiesce ≠ none ∨ x.ready = false → (t.port p).census = none ∧
            t.rd R.FLOW_CENSUS_SKIPPED = min (s.rd R.FLOW_CENSUS_SKIPPED + 1) (2 ^ 32 - 1)))) ∧
    (∀ num c, c < 8 → (s.port p).trained = true →
      (let k := CtlPkt.make 0x12 0 0 (num % 2 ^ 32) [c, ((s.port p).tx8 c).t - ((s.port p).tx8 c).occ, ((s.port p).tx8 c).released]
       ∃ t, exec (.censusMarkReceived p num c) s = .next t ∧ (t.port p).cls = (s.port p).cls ∧
         ((s.port p).lastCtlAt + 320 ≤ s.time.cycles → (t.port p).ctl = some k ∧ (t.port p).lastCtlAt = s.time.cycles) ∧
         (s.time.cycles < (s.port p).lastCtlAt + 320 → (t.port p).echo = some k ∧ (t.port p).ctl = (s.port p).ctl))) ∧
    (∀ num c, c < 8 → (s.port p).trained = false → exec (.censusMarkReceived p num c) s = .next s) ∧
    (∀ (k : Census) (f rel : Nat), (s.port p).census = some k → k.num < 2 ^ 32 → k.cls < 8 → ((s.port p).tx8 k.cls).quiesce ≠ none →
      exec (.censusEchoReceived p k.num k.cls f rel) s = .next (s.censusSkip p)) ∧
    (∀ (k : Census) (f rel : Nat), (s.port p).census = some k → k.num < 2 ^ 32 → k.cls < 8 → k.cls < (s.port p).cls.length → ((s.port p).tx8 k.cls).quiesce = none →
      (let diff : Int := k.outstanding - ((rel + 2 ^ 32 - k.credited) % 2 ^ 32 : Nat) + f - ((s.port p).tx8 k.cls).farT
       (diff = 0 → ∃ t, exec (.censusEchoReceived p k.num k.cls f rel) s = .next t ∧ (t.port p).census = none ∧
         (t.port p).cls = (s.port p).cls ∧ t.rd R.FLOW_CENSUS_RUN = min (s.rd R.FLOW_CENSUS_RUN + 1) (2 ^ 32 - 1) ∧
         t.rd R.FLOW_CENSUS_LAST k.cls (bk := p) = 1 + k.num % 65536 * 65536) ∧
       (diff ≠ 0 → ∃ u : State, exec (.censusEchoReceived p k.num k.cls f rel) s =
           .next (u.event 0x201 (bytes [p, k.cls, b2n (decide (0 < diff)), 0] ++ leBytes 4 (min diff.natAbs (2 ^ 32 - 1)))) ∧
         (u.port p).census = none ∧
         ((u.port p).tx8 k.cls).quiesce = some { why := .mismatch, since := s.time.cycles, newT := ((s.port p).tx8 k.cls).farT, owe := false, left := if 0 < diff then 0 else ((s.port p).tx8 k.cls).credits } ∧
         u.rd R.FLOW_CENSUS_MISMATCH = min (s.rd R.FLOW_CENSUS_MISMATCH + 1) (2 ^ 32 - 1)))) ∧
    (∀ num c f rel, (∀ k, (s.port p).census = some k → k.num ≠ num % 2 ^ 32 ∨ k.cls ≠ c) → exec (.censusEchoReceived p num c f rel) s = .next s) ∧
    (∀ k, (s.port p).census = some k → k.since + 4 * portRtt (portKind s.build p) * 4 / 5 ≤ s.time.cycles →
      ∃ t, exec (.censusTimeout p) s = .next t ∧ (t.port p).census = none ∧
        t.rd R.FLOW_CENSUS_SKIPPED = min (s.rd R.FLOW_CENSUS_SKIPPED + 1) (2 ^ 32 - 1))) ∧
  (∀ (s : State) (p cause : Nat), s.Inv → p < linkPorts s.build → cause < 4 →
    ((s.port p).up = true → ∃ u : State, exec (.linkDown p cause) s =
        .next ((u.laneLost p).event 0x204 (bytes [p, cause, 0, 0] ++ leBytes 3 (s.port p).neighbour)) ∧
      (u.port p).up = false ∧ (u.port p).trained = false ∧ (u.port p).training = false ∧ (u.port p).census = none ∧
      ∀ x ∈ (u.port p).cls, x.held = [] ∧ x.ready = false ∧ x.quiesce = none) ∧
    ((s.port p).up = false → (s.port p).training = true → ∃ t, exec (.linkDown p cause) s = .next t ∧ (t.port p).training = false ∧
      ∀ x ∈ (t.port p).cls, x.held = [] ∧ x.ready = false) ∧
    ((s.port p).up = false → (s.port p).training = false → exec (.linkDown p cause) s = .next s))

/-- O36, tier 2. On a Selvo-H or Selvo-T, DISCOVERY keeps the ID of the first answer of each port and of no other, leaves the ports that
answer with this unit's own ID in quarantine as duplicates before any admission starts, and on a Selvo-H says whether a Ralud lane has
answered. A planned neighbour, or a leaf, that has not answered within 1 ms of the start of discovery on its port is marked missing, with
event 0x208. A release that meets no reason lets a quarantined port, whose ID is not this unit's own and which no other port presents,
join at an epoch boundary, a leaf by its admission; one that presents the own ID stays, with event 0x207; writing 0 has no effect.
IDENTITY_TAKES_EFFECT makes a waiting identity the source ID, and changes nothing else. -/
def Obligations.NeighboursAttachAreQuarantinedOrMissing : Prop :=
  ∀ s : State, s.Inv →
    (s.build ≠ .l → ∀ answers, exec (.discovery answers) s = .next (s.discover answers).admitNext ∧
      (∀ p < linkPorts s.build, (((s.discover answers).admitNext).port p).neighbour =
        match answers.find? (fun a => a.1 == p) with
        | some a => a.2 % 2 ^ 24
        | none => (s.port p).neighbour) ∧
      (∀ p < linkPorts s.build, ∀ a, answers.find? (fun a => a.1 == p) = some a → ((s.discover answers).port p).answered = true) ∧
      (∀ p < linkPorts s.build, ∀ a, answers.find? (fun a => a.1 == p) = some a → a.2 % 2 ^ 24 = s.srcId → s.srcId ≠ 0x7FFFFF →
        ((s.discover answers).port p).quar = true ∧ ((s.discover answers).port p).dupId = true) ∧
      (s.build = .h → ((s.discover answers).link.trayOrphan = true ↔ ∀ a ∈ answers, a.1 < 36 ∨ 40 ≤ a.1))) ∧
    (∀ p, s.build ≠ .l → p < linkPorts s.build → (s.build = .h ∧ 40 ≤ p) ∨ s.plannedId p ≠ 0x7FFFFF → (s.port p).answered = false →
      (s.port p).missing = false → s.after (s.port p).discAt 1000 = true →
      ∃ u : State, exec (.discoveryTimeout p) s = .next (u.event 0x208 (bytes [p, 0, 0, 0] ++ leBytes 3 (s.plannedId p))) ∧
        u.port p = { s.port p with missing := true, expected := true }) ∧
    (∀ (a : Acc) p (data : Word), s.portFull a = false → s.verdict a (portAddr s.build p 0x090) true false false = .perform →
      (bitOf data.toNat 0 = false ∨ (s.port p).quar = false → exec (.quarantineRelease a p data) s = .next (s.admitNext.respond a true 0 false)) ∧
      (bitOf data.toNat 0 = true → (s.port p).quar = true → (s.port p).dupId = true → (s.port p).neighbour = s.srcId →
        exec (.quarantineRelease a p data) s =
          .next (((s.event 0x207 (bytes [p, 255, 0, 0] ++ leBytes 3 (s.port p).neighbour)).admitNext).respond a true 0 false)) ∧
      (bitOf data.toNat 0 = true → (s.port p).quar = true → (s.port p).dupId = false ∨ (s.port p).neighbour ≠ s.srcId →
        (s.port p).neighbour = 0x7FFFFF ∨ s.dupPort p (s.port p).neighbour = none →
        exec (.quarantineRelease a p data) s =
          .next ((((s.modPort p (fun q => { q with released := true })).rejoin p).admitNext).respond a true 0 false))) ∧
    (∀ (u : State) p, u.build ≠ .h ∨ p < 40 → u.rejoin p = u.modPort p (fun q => { q with joining := true })) ∧
    (s.auth.pendId = none → exec .identityTakesEffect s = .next s) ∧
    (∀ id, s.auth.pendId = some id → exec .identityTakesEffect s = .next { s with auth := { s.auth with srcId := id, pendId := none } })

/-- O37, tier 2. Taking a part whose reason is 0 makes it the pending plan and shows its generation and activation; one with another
reason changes nothing of the convoy state, shows REJECTED with the reason, and writes event 0x401. PLAN_RECORD_RECEIVED takes the part
that a plan record addressed to this leaf carries, and a record that does not parse has no effect. At a cut at or after its activation the
pending plan becomes the plan in force; at an earlier cut nothing changes, but that the plan before the one in force is forgotten 2^30
cuts after the activation (the choice of log entry 28). -/
def Obligations.APlanPartIsTakenOrRejectedWhole : Prop :=
  ∀ s : State, s.Inv →
    (∀ p : Plan, (s.takePlan p).1 = s.planReason p ∧
      (s.planReason p = 0 → (s.takePlan p).2.convoy.pending = some p ∧
        (s.build = .l → (s.takePlan p).2.rd R.CVY_PLAN_PENDING = p.gen % 2 ^ 32 ∧ (s.takePlan p).2.rd R.CVY_PLAN_ACT = p.act % 2 ^ 32 ∧
          bitOf ((s.takePlan p).2.rd R.CVY_PLAN_STATUS) 4 = false)) ∧
      (s.planReason p ≠ 0 → ∃ u : State,
        (s.takePlan p).2 = u.event 0x401 (bytes [s.planReason p, 0, 0, 0] ++ leBytes 4 p.gen ++ leBytes 4 p.act) ∧
        u = { s with regs := u.regs, core := u.core } ∧ u.rd R.CVY_PLAN_STATUS % 32 = 16 + s.planReason p)) ∧
    (s.build = .l → ∀ rec,
      (∀ p, rec.type = 0x80 → parsePlan .l s.srcId rec.payload = some p → exec (.planRecordReceived rec) s = .next (s.takePlan p).2) ∧
      (rec.type ≠ 0x80 ∨ parsePlan .l s.srcId rec.payload = none → exec (.planRecordReceived rec) s = .next s)) ∧
    (∀ p num, s.convoy.pending = some p →
      (atOrLater num p.act = true → (s.planAtCut num).convoy.plan = some { p with leafParts := [] } ∧ (s.planAtCut num).convoy.pending = none ∧
        (∀ e ∈ p.entries, ∃ sl, (e.stream, sl) ∈ (s.planAtCut num).convoy.slots ∧ sl.entry = some e)) ∧
      (atOrLater num p.act = false → ∃ v, s.planAtCut num = { s with convoy := { s.convoy with prev := v } }))

/-- O38, tier 2. At a port of the build a record meets the toll, and is then dropped as quarantined, for a reserved source, as malformed
(on a stream that the plan gives to a convoy any other type is), or as red, in that order, produced and dropped where it is not link-
local; else it is used if it is link-local or a convoy packet, and otherwise judged by the duplicate table and counted dup, or produced
and used. A record judged twice running is a duplicate the second time. A beat of a leaf port or fabric lane whose group idles only raises
the vote. A unit that arrives at an up port releases ceil((n + 8) / 64) credits, a link-control unit none; a whole packet, or the last
unit of one, gives its bytes as a record, of the colour of its first unit. In-order DATA of a peer session is taken and acknowledged,
other DATA of it only acknowledged; any other is discarded. A window that has passed closes its entry. -/
def Obligations.RecordsAreCheckedJudgedAndTallied : Prop :=
  (∀ (c : DupCtx) (seq : Nat), ((c.judge seq).2.judge seq).1 = true) ∧
  ∀ (s : State) (p : Nat), s.Inv → p < linkPorts s.build →
    (∀ tc len r,
      let red := (s.tollRed p tc len).1
      let u := (s.tollRed p tc len).2
      let done (v : State) : Prop := exec (.recordReceived p tc len r) s = .next v
      ((u.port p).quar = true → done ((u.takeDrop r 8).pbump R.FP_DROP_QUAR p)) ∧
      ((u.port p).quar = false →
        (s.build ≠ .l → reservedSource r.source = true → done (u.takeDrop r 4)) ∧
        (s.build = .l ∨ reservedSource r.source = false →
          (u.convoyAlien r = true ∨ (s.build ≠ .l ∧ malformed r tc len = true) → done (u.takeDrop r 5)) ∧
          (u.convoyAlien r = false → s.build = .l ∨ malformed r tc len = false →
            (red = true → done (u.takeDrop r 3)) ∧
            (red = false →
              (linkLocal r.type r.stream = true ∨ (0x40 ≤ r.type ∧ r.type ≤ 0x42) → done (u.recordUse p 0 r)) ∧
              (linkLocal r.type r.stream = false → r.type < 0x40 ∨ 0x42 < r.type →
                ((u.dupJudge r).1 = true → done ((u.dupJudge r).2.dupCounted r.stream)) ∧
                ((u.dupJudge r).1 = false → done (((u.dupJudge r).2.produced r.stream).recordUse p 0 r)))))))) ∧
    (∀ (v : State) (r : Rec) (k : Nat), v.takeDrop r k = if linkLocal r.type r.stream = true then v else (v.produced r.stream).dropped r.stream k) ∧
    (∀ tc len, s.build = .l ∨ tc < 5 → s.tollRed p tc len = (false, s)) ∧
    (∀ u : UnitIn, u.tc < 8 →
      (s.beatHeld p = true → exec (.unitReceived p u) s = .next (s.wake (6 + portGroup s.build p))) ∧
      (s.beatHeld p = false → (s.port p).up = false → exec (.unitReceived p u) s = .next s) ∧
      (u.tc < (s.port p).cls.length → u.linkCtl = false → (((s.unitIn p u).2.port p).tx8 u.tc).released =
        (((s.port p).tx8 u.tc).released + (u.data.length + 8 + 63) / 64) % 2 ^ 32) ∧
      (u.linkCtl = true → (s.unitIn p u).1 = none ∧ ((s.unitIn p u).2.port p).cls = (s.port p).cls) ∧
      (u.tc < (s.port p).cls.length → u.linkCtl = false → ((s.port p).tx8 u.tc).replayPkt = none →
        (((s.port p).tx8 u.tc).asm = none → u.first = true → u.last = true → (s.unitIn p u).1 = some u.data) ∧
        (∀ a, ((s.port p).tx8 u.tc).asm = some a → u.first = false → u.last = true → u.pkt = a.pkt → (s.unitIn p u).1 = some (a.bytes ++ u.data))) ∧
      (s.beatHeld p = false → (s.port p).up = true →
        (let w := if s.groupRuns p = true then s else s.wake (6 + portGroup s.build p)
         let red := (w.unitToll p u).1
         let v := (w.unitToll p u).2.unitIn p u
         (v.1 = none → exec (.unitReceived p u) s = .next (v.2.modCls p u.tc (fun x => { x with asm := x.asm.map (fun a => { a with red := red }) }))) ∧
         (∀ b, v.1 = some b → exec (.unitReceived p u) s =
          .next ((v.2.recordIn p u.tc b.length (unitCredits u.data.length) red (parsePacket b)).pubHold p u.tc (unitCredits u.data.length)
            w.link.nextUid))))) ∧
    (∀ e ses dseq flags recs, s.build = .t →
      (e < 8 → s.colOn e = true → s.colPeer e = true → (s.sess e).peerId ≠ 0 → ses = (s.sess e).peerId →
        (dseq = ((s.sess e).peerAck + 1) % 2 ^ 64 → exec (.dataDgram e ses dseq flags recs) s =
          .next (let v := s.peerTake e dseq (if bitOf flags 0 = true ∧ bitOf flags 1 = false then [] else recs)
                 v.ethOut 2 e none (pubHdr 2 8 0 v.srcId ses 0 (v.sess e).peerAck))) ∧
        (dseq ≠ ((s.sess e).peerAck + 1) % 2 ^ 64 → exec (.dataDgram e ses dseq flags recs) s =
          .next (s.ethOut 2 e none (pubHdr 2 8 0 s.srcId ses 0 (s.sess e).peerAck)))) ∧
      (8 ≤ e ∨ s.colOn e = false ∨ s.colPeer e = false ∨ (s.sess e).peerId = 0 ∨ ses ≠ (s.sess e).peerId →
        exec (.dataDgram e ses dseq flags recs) s = .next (s.rxDiscard (s.sess e).port))) ∧
    (∀ k e, k ≤ 256 → s.coal.entries.find? (fun e => e.idx == k) = some e →
      (s.after e.openedAt (s.rd R.TRF_CTRL % 65536) = true → exec (.coalesceWindowClose k) s = .next (s.coalClose e) ∧
        (∃ u : State, u = { s with coal := { s.coal with entries := s.coal.entries.filter (fun x => x.idx != k) } } ∧ (e.count = 0 → s.coalClose e = u))) ∧
      (s.after e.openedAt (s.rd R.TRF_CTRL % 65536) = false → exec (.coalesceWindowClose k) s = .next s))

/-- O39, tier 2. A sum of an island in reset is not taken; where the island launches (clock running, neither quiesced nor in reset, the
core not in reset) what waits there lands, then the sum: its light-set part in its counter, the rest in the optional counters, or, with
CORE not in Run, it waits and wakes CORE, and with CORE in Off it is gone; else it waits, added exactly to what its tap already holds.
Adding to a counter gives the sum modulo 2^64, leaves every other counter, and on a wrap sets its bit in CTR_WRAPPED. Any other item
crosses the same way: none from a stopped clock or a reset, at once where it may land, else it waits and its losses are counted. A tap
clock that stops is noted and shown; one that runs again lets what waits land. A trigger that lands sets its bit. Pending configurations
apply together, raise CTR_GEN once, and do not apply while a schedule runs. SENSOR_READING crosses as an item of its tap island, or on a
Selvo-T is taken at once. A good reading of a sensor becomes its value, ends stale, fault and no-reading, and outside a hold leaves a
minimum and maximum that bound it in the order of its kind; a faulty one keeps the value and marks the sensor stale and faulty, with
interrupt bit 3 of page 0x008. Either adds the readings presented to the counts modulo 2^32 and leaves every other sensor. Two readings of
a temperature pair of a Selvo-T more than 2 °C apart make both faulty. After STALE_TIME without a good reading the value is stale; with
STALE_TIME 0, or before it, nothing changes. -/
def Obligations.CountersAddExactlyAndSensorsKeepGoodReadings : Prop :=
  (∀ s : State, s.Inv →
    (∀ n d, (s.addCtr n d).ctr n = (s.ctr n + d) % 2 ^ 64 ∧ (∀ m, m ≠ n → (s.addCtr n d).ctr m = s.ctr m) ∧
      (n < 4096 → 2 ^ 64 ≤ s.ctr n + d → bitOf ((s.addCtr n d).rd R.CTR_WRAPPED (n % 256 / 32) 0 (n / 256)) (n % 32) = true)) ∧
    (∀ n, (s.launches n = true ↔ n ∉ s.core.tapStopped ∧ n ∉ s.core.qscReq ∧ n ∉ s.core.inReset ∧ s.core.warm = false) ∧
      (s.core.tapSums = [] → s.core.tapItems = [] → s.core.tapLost = [] → s.landHeld n = s)) ∧
    (∀ (x : TapSum) (l : List TapSum) k, (((addSum x l).filter (fun y => y.tap == k)).map (fun y => y.light)).sum =
        ((l.filter (fun y => y.tap == k)).map (fun y => y.light)).sum + (if x.tap = k then x.light else 0) ∧
      (((addSum x l).filter (fun y => y.tap == k)).map (fun y => y.opt)).sum =
        ((l.filter (fun y => y.tap == k)).map (fun y => y.opt)).sum + (if x.tap = k then x.opt else 0)) ∧
    (hasTaps s.build = true → ∀ tap sum, tap < 256 →
      (let x : TapSum := { tap := tap, light := if tap < 64 then sum else 0, opt := sum }
       let n := s.tapIsland tap
       (n ∈ s.core.inReset → exec (.countingTapIncrement tap sum) s = .next s) ∧
       (s.launches n = true → exec (.countingTapIncrement tap sum) s = .next ((s.landHeld n).sumLand x)) ∧
       (n ∉ s.core.inReset → s.launches n = false →
         exec (.countingTapIncrement tap sum) s = .next { s with core := { s.core with tapSums := addSum x s.core.tapSums } }))) ∧
    (∀ (x : TapSum) d, s.dom 1 = some d →
      (let u := if x.tap < 64 ∧ x.light ≠ 0 then s.addCtr x.tap x.light else s
       (x.opt = 0 ∨ d.st = 3 → s.sumLand x = u) ∧
       (x.opt ≠ 0 → s.coreRuns = true → d.st ≠ 3 → s.sumLand x = u.countSrc x.tap x.opt) ∧
       (x.opt ≠ 0 → s.coreRuns = false → d.st ≠ 3 → s.sumLand x =
         State.wake { u with core := { u.core with tapSums := u.core.tapSums ++ [{ x with light := 0 }] } } 1))) ∧
    (∀ (x : TapItem) lost,
      (let n := s.portIsland x.bit
       (n ∈ s.core.tapStopped ∨ n ∈ s.core.inReset → s.tapItem x lost = s) ∧
       (s.launches n = true → s.itemReady x = true →
         s.tapItem x lost = (lost.foldl (fun u p => u.lostLand p.1 p.2) (s.landHeld n)).itemLand x) ∧
       (n ∉ s.core.tapStopped → n ∉ s.core.inReset → s.launches n = false →
         s.tapItem x lost = (lost.foldl (fun u p => u.lostHold p.1 p.2) s).itemHold x))) ∧
    (hasTaps s.build = true → ∀ n mhz, s.tapPresent n = true → n < 8 →
      (∃ t, exec (.tapClockChange n false mhz) s = .next t ∧ n ∈ t.core.tapStopped ∧ bitOf (t.rd R.TAP_ISL_STATUS (pg := n)) 0 = false ∧ t.samp = s.samp) ∧
      (∃ u : State, exec (.tapClockChange n true mhz) s = .next (u.landHeld n) ∧ n ∉ u.core.tapStopped ∧
        bitOf (u.rd R.TAP_ISL_STATUS (pg := n)) 0 = true ∧ u.core.tapSums = s.core.tapSums ∧ u.core.tapItems = s.core.tapItems ∧ u.samp = s.samp) ∧
      (s.launches n = true → s.coreRuns = true → s.core.tapItems = [] → s.core.tapLost = [] → ∀ x ∈ (s.landHeld n).core.tapSums, s.tapIsland x.tap ≠ n)) ∧
    (hasTaps s.build = true → ∀ k, k < 16 → exec (.triggerNotification k) s = .next (s.tapItem (.trigger k) []) ∧
      s.itemLand (.trigger k) = (s.trigSeen k).trcTrigger (2 ^ k) ∧ bitOf ((s.trigSeen k).rd R.TRIG_SEEN) k = true) ∧
    (s.scheduleRuns = true ∨ s.samp.cfgPend = [] → exec .ctrCfgApply s = .next s) ∧
    (s.scheduleRuns = false → s.samp.cfgPend ≠ [] →
      exec .ctrCfgApply s = .next { s with samp := { s.samp with cfgPend := [], gen := (s.samp.gen + 1) % 2 ^ 32 } })) ∧
  (∀ (s : State) (n : Nat), s.Inv → n < 16 →
    (s.build ≠ .t → ∀ v f cnt, exec (.sensorReading n v f cnt) s = .next (s.tapItem (.sensor n v f (min (max cnt 1) 65535)) [])) ∧
    (∀ v f cnt, s.itemLand (.sensor n v f cnt) = s.sensorReading n v f cnt) ∧
    (s.build = .t → 6 ≤ n → n < 13 → ∀ v f cnt, exec (.sensorReading n v f cnt) s = .next (s.sensorReading n v f cnt)) ∧
    (s.build = .t → n < 6 → ∀ v f cnt,
      (let o := if n % 2 = 0 then n + 1 else n - 1
       let apart : Bool := !(s.sensor o).noReading && decide (128 < (sgnN 16 (v % 65536) - sgnN 16 (s.sensor o).raw).natAbs)
       ∃ u : State, exec (.sensorReading n v f cnt) s = .next u.thermPin ∧
         (apart = false → u = s.sensorReading n v f cnt) ∧
         (apart = true → (u.sensor n).fault = true ∧ (u.sensor o).fault = true ∧ (u.sensor n).stale = true ∧ (u.sensor o).stale = true))) ∧
    (∀ v cnt,
      (let x := s.sensor n
       let t := s.sensorReading n v false cnt
       let y := t.sensor n
       y.value = v % 65536 ∧ y.stale = false ∧ y.fault = false ∧ y.noReading = false ∧ y.goodAt = s.time.cycles ∧
       y.readings = (x.readings + max cnt 1) % 2 ^ 32 ∧ y.unseen = (x.unseen + (max cnt 1 - 1)) % 2 ^ 32 ∧
       (s.muster.held = false → snsLt (s.snsKind n) (v % 65536) y.minV = false ∧ snsLt (s.snsKind n) y.maxV (v % 65536) = false) ∧
       (s.muster.held = true → y.minV = x.minV ∧ y.maxV = x.maxV) ∧
       ∀ m, m ≠ n → t.sensor m = s.sensor m)) ∧
    (∀ v cnt,
      (let t := s.sensorReading n v true cnt
       (t.sensor n).value = (s.sensor n).value ∧ (t.sensor n).stale = true ∧ (t.sensor n).fault = true ∧
       (t.sensor n).readings = ((s.sensor n).readings + max cnt 1) % 2 ^ 32 ∧ bitOf (t.rd R.CMN_IRQ_STATUS (pg := 0x008)) 3 = true ∧
       ∀ m, m ≠ n → t.sensor m = s.sensor m)) ∧
    (let late := s.rd R.SNS_CFG n / 256 % 256
     let t := s.modSensor n (fun x => { x with stale := true })
     (late ≠ 0 → s.after (s.sensor n).goodAt (10 * late) = true →
       exec (.sensorStaleTimeout n) s = .next (if s.build = .t then t.thermPin else t)) ∧
     (late = 0 ∨ s.after (s.sensor n).goodAt (10 * late) = false → exec (.sensorStaleTimeout n) s = .next s)))

/-- O40, tier 2. A boundary crosses as an item of its tap island, lost ones before it as a count. Outside a hold a start leaves the stream
open under the next command number, and a stop leaves it closed. The stop of an open command that latches, with room in the queue, appends
one entry with the number, start stamp, set and, of each counter, its value now less its value at the start modulo 2^64; with no room the
entry is lost and counted. In a hold boundaries are lost and counted. A boundary that lands then marks the thermal models, a step boundary
and the ABFT stream. LATCH_ENTRY_EMIT with EMIT = 1 takes the oldest entry; CL_POP with EMIT = 0 drops it. -/
def Obligations.CommandsAreLatchedWithWhatTheirCountersGained : Prop :=
  ∀ (s : State), s.Inv → hasTaps s.build = true →
    (∀ c start stop tag lost, c < 32 → exec (.commandBoundary c start stop tag lost) s = .next (s.tapItem (.boundary c start stop tag) [(0, lost)])) ∧
    (∀ n, 0 < n → (s.lostLand 0 n).rd R.TAP_LOST_CB (pg := s.portIsland 4) = min (s.rd R.TAP_LOST_CB (pg := s.portIsland 4) + n) (2 ^ 32 - 1)) ∧
    (∀ c start stop tag, s.muster.held = true → (s.boundary c start stop tag).samp =
      { s.samp with lost := s.samp.lost + (b2n start + b2n stop) }) ∧
    (∀ c start stop tag, s.itemLand (.boundary c start stop tag) =
      (let u := (s.boundary c start stop (tag % 65536)).thermBoundary c
       let cfg := u.rd R.OUT_STEP_CFG
       let v := if stop = true ∧ s.muster.held = false ∧ u.build = .h ∧ u.convoy.keeper = true ∧ bitOf cfg 5 = true ∧ cfg % 32 = c
         then u.stepBoundary else u
       if start = true ∧ s.muster.held = false then v.abftOpen c else v)) ∧
    (∀ c tag, s.muster.held = false → (s.boundary c true false tag).cmdOpen c = true ∧ (s.boundary c false true tag).cmdOpen c = false ∧
      (s.boundary c true true tag).cmdOpen c = true) ∧
    (∀ c tag o, s.muster.held = false → s.samp.cmds.find? (fun o => o.stream == c) = some o → o.latching = true →
      (s.samp.queue.length < s.capOf 5 0 1024 → ∃ e, (s.boundary c false true tag).samp.queue = s.samp.queue ++ [e] ∧ e.stream = c ∧ e.num = o.num ∧
        e.start = o.stamp ∧ e.stop = s.stamp ∧ e.set = o.set ∧ e.ctrs = o.ctrs ∧ e.lost = min s.samp.lost 65535 ∧
        e.diffs = (o.ctrs.zip o.values).map (fun p => (s.ctr p.1 + 2 ^ 64 - p.2) % 2 ^ 64)) ∧
      (s.capOf 5 0 1024 ≤ s.samp.queue.length → (s.boundary c false true tag).samp.queue = s.samp.queue ∧
        (s.boundary c false true tag).samp.lost = s.samp.lost + 1 ∧
        (s.boundary c false true tag).rd R.CL_LOST = min (s.rd R.CL_LOST + 1) (2 ^ 32 - 1))) ∧
    (bitOf (s.rd R.CL_CTRL) 1 = true → ∃ t, exec .latchEntryEmit s = .next t ∧ t.samp = { s.samp with queue := s.samp.queue.drop 1 }) ∧
    (bitOf (s.rd R.CL_CTRL) 1 = false ∨ s.samp.queue = [] → exec .latchEntryEmit s = .next s) ∧
    (∀ (a : Acc) (data : Word), s.portFull a = false → s.verdict a 0x02120C true false false = .perform → ∃ t, exec (.clPop a data) s = .next t ∧
      t.samp = (if bitOf data.toNat 0 = true ∧ bitOf (s.rd R.CL_CTRL) 1 = false then { s.samp with queue := s.samp.queue.drop 1 } else s.samp))

/-- O41, tier 2. For any values: each counts once, and once as a NaN, an infinity of its sign or a finite value; and for a tensor whose
stream is not positional the digest and all counts are the same in whatever order the values come. A beat crosses as an item of its tap
island and is summarised on its stream; one outside any tensor is counted, up to 65,535; in a hold no tensor opens for a summary, and only
the stream and that count change; lost beats mark an open tensor and are counted for the island. -/
def Obligations.TensorsAreCountedAndHashedInAnyOrder : Prop :=
  (∀ (t : Tensor) (vs ws : List Nat), t.positional = false → vs.Perm ws →
    (vs.foldl Tensor.value t).digest = (ws.foldl Tensor.value t).digest ∧ (vs.foldl Tensor.value t).nan = (ws.foldl Tensor.value t).nan ∧
    (vs.foldl Tensor.value t).zero = (ws.foldl Tensor.value t).zero ∧ (vs.foldl Tensor.value t).maxAbs = (ws.foldl Tensor.value t).maxAbs) ∧
  (∀ (t : Tensor) (vs : List Nat), t.count = t.nan + t.pinf + t.ninf + t.finite.length →
    (vs.foldl Tensor.value t).count = t.count + vs.length ∧
    (vs.foldl Tensor.value t).count = (vs.foldl Tensor.value t).nan + (vs.foldl Tensor.value t).pinf + (vs.foldl Tensor.value t).ninf +
      (vs.foldl Tensor.value t).finite.length) ∧
  ∀ (s : State) (w id lanes : Nat) (first last : Bool) (slots : List Word), s.Inv → hasTaps s.build = true → w < 8 →
    (∀ lost, exec (.tensorWatchBeat w first last id lanes slots lost) s = .next (s.tapItem (.tensor w first last id lanes slots) [(8 + w, lost)])) ∧
    s.itemLand (.tensor w first last id lanes slots) = s.tensorBeat w first last (id % 65536) (lanes % 256) slots ∧
    (first = false → s.tensor w = none → (s.tensorBeat w first last id lanes slots).rd R.TW_ERR w / 65536 = min (s.rd R.TW_ERR w / 65536 + 1) 65535) ∧
    (s.muster.held = true → (∀ x, s.tensor w = some x → x.matched = false) →
      (let t := s.tensorBeat w first last id lanes slots
       t = { s with regs := t.regs, samp := { s.samp with tensors := t.samp.tensors } } ∧ ∀ x, t.tensor w = some x → x.matched = false)) ∧
    (∀ n, 0 < n → (s.lostLand (8 + w) n).rd R.TAP_LOST_TW (pg := s.portIsland 6) = min (s.rd R.TAP_LOST_TW (pg := s.portIsland 6) + n) (2 ^ 32 - 1) ∧
      ∀ x, s.tensor w = some x → (s.lostLand (8 + w) n).tensor w = some { x with lost := true })

/-- O42, tier 2. A MST_ARM write that meets no reason has no effect at a unit that is not the root. At the root, an arm with START less
than 1 ms ahead is refused, with interrupt bit 4 and the schedule as it was; any other joins the schedules to come under the next
generation, at its first cut; STOP and RELEASE add an action 1 ms ahead. A schedule record admitted is applied if its generation is later,
its unit has an identity and it is not poisoned, else the schedule stays. A STOP acts when its time has come, on the schedule in force and
on those armed before it that have not started; a RELEASE ends the hold; epochs that await nothing more are then published. LEAD us before
a cut the vote on CORE is raised, unless the time island is quiesced. A hold ends at its limit and not before. -/
def Obligations.SchedulesAreArmedRepeatedAndEnded : Prop :=
  ∀ s : State, s.Inv →
    (∀ (a : Acc) (data : Word), s.portFull a = false → s.verdict a 0x02009C true false (s.mstArmBad data.toNat) = .perform →
        (s.muster.root = false → exec (.mstArm a data) s = .next (s.respond a true 0 false) ∧
          exec (.mstStop a data) s = .next (s.respond a true 0 false) ∧ exec (.mstRelease a data) s = .next (s.respond a true 0 false)) ∧
        (s.muster.root = true → bitOf data.toNat 0 = true → s.startReg < s.now + usTime 1000 → ∃ t,
          exec (.mstArm a data) s = .next t ∧ exec (.mstStop a data) s = .next t ∧ exec (.mstRelease a data) s = .next t ∧ t.muster = s.muster ∧
          bitOf (t.rd R.MST_STATUS) 4 = true ∧ bitOf (t.rd R.CMN_IRQ_STATUS (pg := 0x020)) 4 = true) ∧
        (s.muster.root = true → bitOf data.toNat 0 = true → s.now + usTime 1000 ≤ s.startReg → ∃ t x,
          exec (.mstArm a data) s = .next t ∧ exec (.mstStop a data) s = .next t ∧ exec (.mstRelease a data) s = .next t ∧
          t.muster.gen = (s.muster.gen + 1) % 2 ^ 32 ∧ t.muster.next = s.muster.next ++ [x] ∧ x.gen = t.muster.gen ∧ x.start = s.startReg ∧
          x.interval = s.rd R.MST_INTERVAL ∧ x.hold = bitOf (s.rd R.MST_SCHED_FLAGS) 0 ∧ x.k = 0 ∧ x.stopped = false) ∧
        (s.muster.root = true → bitOf data.toNat 0 = false → bitOf data.toNat 1 = true ∨ bitOf data.toNat 2 = true → ∃ t,
          exec (.mstArm a data) s = .next t ∧ exec (.mstStop a data) s = .next t ∧ exec (.mstRelease a data) s = .next t ∧
          t.muster.gen = (s.muster.gen + 1) % 2 ^ 32 ∧ t.muster.next = s.muster.next ∧
          t.muster.action = s.muster.action ++ [(bitOf data.toNat 1, !bitOf data.toNat 1, (s.now + usTime 1000) % 2 ^ 80, t.muster.gen)])) ∧
    (∀ p r, p < linkPorts s.build →
      (r.type ≠ 0x24 → exec (.scheduleRecordReceived p r) s = .next s) ∧
      (r.type = 0x24 → (s.admitRec p r).1 = true → exec (.scheduleRecordReceived p r) s = .next ((s.admitRec p r).2.schedTake p r)) ∧
      (r.type = 0x24 → (s.admitRec p r).1 = false → exec (.scheduleRecordReceived p r) s = .next (s.admitRec p r).2) ∧
      (s.srcId = 0x7FFFFF ∨ laterThan (leAt r.payload 0 4) s.muster.gen = false ∨ recPoison r = true → (s.schedTake p r).muster = s.muster) ∧
      (s.srcId ≠ 0x7FFFFF → laterThan (leAt r.payload 0 4) s.muster.gen = true → recPoison r = false →
        (s.schedTake p r).muster.gen = leAt r.payload 0 4)) ∧
    ((∀ x ∈ s.muster.action, s.now < x.2.2.1) → exec .scheduleActionTime s = .next s.publishDone) ∧
    (∀ t g, s.muster.action = [(true, false, t, g)] → t ≤ s.now → (∀ c ∈ s.muster.next, t < c.start ∧ laterThan g c.gen = true) →
      exec .scheduleActionTime s = .next (State.publishDone (s.modMuster (fun m => { m with action := [], next := [], cur := m.cur.map (fun c =>
        if laterThan g c.gen = true then { c with stopped := true } else c) })))) ∧
    (∀ t g, s.muster.action = [(false, true, t, g)] → t ≤ s.now → s.muster.next = [] →
      exec .scheduleActionTime s = .next (State.publishDone (State.holdLeave (s.modMuster (fun m => { m with action := [], cur := m.cur.map (fun c =>
        if laterThan g c.gen = true then { c with released := true } else c) }))))) ∧
    (∀ x lead, s.nextCut = some x → lead = (if s.rd R.MST_CTRL / 256 % 256 = 0 then 4 else s.rd R.MST_CTRL / 256 % 256) →
      (x.1 ≤ s.now + usTime lead → s.muster.leadRaised = false → 18 ∉ s.core.qscReq →
        exec .musterLead s = .next ((s.modMuster (fun m => { m with leadRaised := true })).hwVote 1 161 true)) ∧
      (s.now + usTime lead < x.1 ∨ s.muster.leadRaised = true ∨ 18 ∈ s.core.qscReq → exec .musterLead s = .next s)) ∧
    (s.nextCut = none → exec .musterLead s = .next s) ∧
    (s.muster.held = true → s.muster.heldUntil ≤ s.now → ∃ t, exec .holdMaxExpiry s = .next t ∧ t.muster.held = false ∧
      t.muster.heldGap = some (min ((s.now - s.muster.heldAt) * 1000000 / 2 ^ 32) (2 ^ 32 - 1))) ∧
    (s.muster.held = false ∨ s.now < s.muster.heldUntil → exec .holdMaxExpiry s = .next s)

/-- O43, tier 2. With one schedule in force whose next cut alone is due, the time island not quiesced, no step, no hold and an identity,
MUSTER_CUT leaves that cut's number and T_k as the last muster and the schedule at its next index; in a hold the cut is missed and
counted. An image that class W1 grants becomes complete with the four counts, to which what still waits in the senders adds, and its
records, head first, wait to leave; not granted, nothing changes. MUSTER_RECORD_EMIT takes the first of them. An island late by 200 ns is
noted in an image that is not complete. A late latch is taken, with its own stamp, once CORE is in Run. -/
def Obligations.ACutIsTakenOnceAndItsRecordsLeaveInOrder : Prop :=
  ∀ s : State, s.Inv →
    (18 ∈ s.core.qscReq → exec .musterCut s = .next s.publishDone) ∧
    (∀ c, 18 ∉ s.core.qscReq → s.muster.cur = some c → s.muster.next = [] → c.stopped = false → s.cutsBy c s.now = c.k + 1 → s.muster.stepped = false →
      (s.muster.held = false → s.srcId ≠ 0x7FFFFF → ∃ t, exec .musterCut s = .next t ∧ t.muster.lastNum = (c.base + c.k) % 2 ^ 32 ∧
        t.muster.lastT = c.start + usTime (c.k * c.interval) ∧ t.muster.anyCut = true ∧ t.muster.cur = some { c with k := c.k + 1 } ∧
        ∃ img, t.muster.image = some img ∧ img.num = (c.base + c.k) % 2 ^ 32 ∧ img.gen = c.gen ∧ img.complete = false) ∧
      (s.muster.held = true ∨ s.srcId = 0x7FFFFF → ∃ t, exec .musterCut s = .next t ∧ t.muster.lastNum = s.muster.lastNum ∧
        t.muster.cur = some { c with k := c.k + 1 } ∧ t.muster.image = s.muster.image ∧
        t.rd R.MST_MISSED = min (s.rd R.MST_MISSED + 1) (2 ^ 32 - 1))) ∧
    (18 ∉ s.core.qscReq → s.muster.cur = none → s.muster.next = [] →
      exec .musterCut s = .next (State.publishDone (s.modMuster (fun m => { m with stepped := false })))) ∧
    (∀ cb tr tw ck, s.muster.image = none → exec (.musterImageComplete cb tr tw ck) s = .next s) ∧
    (∀ img cb tr tw ck, s.muster.image = some img →
      (img.complete = true ∨ s.muster.lateLatch = true ∨ s.grant 1 (s.costImage img.en.length) = none →
        exec (.musterImageComplete cb tr tw ck) s = .next s) ∧
      (img.complete = false → s.muster.lateLatch = false → ∀ g, s.grant 1 (s.costImage img.en.length) = some g →
        ∃ t i, exec (.musterImageComplete cb tr tw ck) s = .next t ∧ t.muster.image = some i ∧
          i = { img with cb := min 65535 (cb + min img.cb (s.itemsOf 4)), tr := min 65535 (tr + min img.tr (s.itemsOf 7)), tw := min 65535 (tw + min img.tw (s.itemsOf 6)), ck := min 65535 (ck + min img.ck (s.itemsOf 5)), stamp := if img.late = true then img.stamp else s.stamp, truncPrev := !s.muster.emit.isEmpty, complete := true } ∧
          t.muster.emit.map (fun r => (r.type, r.payload)) = i.recs (s.rd R.MST_CTRL)) ∧
      (∀ n, hasTaps s.build = true → s.tapPresent n = true →
        (img.complete = false → img.t + nsTime 200 ≤ s.now → n ∉ img.lateIslands → exec (.musterLateIslandTimeout n) s =
          .next (s.modMuster (fun m => { m with image := some { img with lateIslands := img.lateIslands ++ [n] } }))) ∧
        (img.complete = true ∨ s.now < img.t + nsTime 200 ∨ n ∈ img.lateIslands → exec (.musterLateIslandTimeout n) s = .next s)) ∧
      (s.muster.lateLatch = true → s.inRun 1 = true → ∃ t, exec .musterLateLatch s = .next t ∧ t.muster.lateLatch = false ∧
        ∃ i, t.muster.image = some i ∧ i.num = img.num ∧ i.ctrGen = s.samp.gen ∧ i.stamp = s.stamp)) ∧
    (s.muster.lateLatch = false ∨ s.inRun 1 = false ∨ s.muster.image = none → exec .musterLateLatch s = .next s) ∧
    (∀ e rest, s.muster.emit = e :: rest → ∃ t, exec .musterRecordEmit s = .next t ∧ t.muster = { s.muster with emit := rest }) ∧
    (s.muster.emit = [] → exec .musterRecordEmit s = .next s)

/-- O44, tier 2. For any payloads: operators COUNT, ANY, OR and AND give the same merged payload and the same saturation mark in whatever
order they come; a COUNT lane is the sum of the lanes, at most 2^64 - 1, and the mark is set exactly when a sum reaches 2^64. MIN and MAX
of payloads that hold an entry keep one entry of the inputs, and no entry of an input ranks before it. The NaN count of the ranking
operators is the sum of the counts, at most 2^32 - 1. -/
def Obligations.MergesAreExactBoundedAndInAnyOrder : Prop :=
  (∀ (op ty par : Nat) (dir : Bool) (e0 : Int) (o1 o2 : List Nat) (l m : List Pay), op = 1 ∨ op = 8 ∨ op = 9 ∨ op = 0xA → l.Perm m →
    mergePays op ty par dir e0 o1 l = mergePays op ty par dir e0 o2 m) ∧
  (∀ (ty par : Nat) (dir : Bool) (e0 : Int) (order : List Nat) (l : List Pay),
    (∀ i < par, (mergePays 1 ty par dir e0 order l).1.vals.getD i 0 = min ((l.map (fun p => p.vals.getD i 0)).sum) (2 ^ 64 - 1)) ∧
    ((mergePays 1 ty par dir e0 order l).2 = true ↔ ∃ i < par, 2 ^ 64 ≤ (l.map (fun p => p.vals.getD i 0)).sum)) ∧
  (∀ (op ty par : Nat) (dir : Bool) (e0 : Int) (order : List Nat) (l : List Pay), op = 3 ∨ op = 4 →
    (mergePays op ty par dir e0 order l).1.nan = min ((l.map Pay.nan).sum) (2 ^ 32 - 1) ∧
    ((∃ p ∈ l, p.ents ≠ []) → ∃ x, (mergePays op ty par dir e0 order l).1.ents = [x] ∧ (∃ p ∈ l, x ∈ p.ents) ∧
      ∀ p ∈ l, ∀ y ∈ p.ents, rankLt ty (op == 3) y x = false))

/-- O45, tier 2. On a Selvo-H or Selvo-T a convoy packet that is admitted is dropped (malformed where convoys are off or there is no
identity, poisoned where marked), waits behind other work or for class W1, or is taken. Taken, it is dropped on a stream that is no convoy
or on a port absent from convoys, a duplicate where its input is already in its open epoch, and late where a later epoch has opened; what
fits the plan merges, its epoch opening first, and waits where that falls in a hold. The counter value of a complete image, and a value
posted with CVY_CTRL.EN set, join the open epoch that lacks them. A deadline publishes an epoch whose time has come, and none before. A
published epoch is no longer open. -/
def Obligations.ConvoyPacketsMergeOnceAndLeaveAtTheDeadline : Prop :=
  ∀ s : State, s.Inv → s.build ≠ .l →
    (∀ p r, convoyPortOk s.build p = true →
      ((s.convoyAdmit p r).1 = false → exec (.convoyPacketReceived p r) s = .next (s.convoyAdmit p r).2) ∧
      (∀ u, s.convoyAdmit p r = (true, u) →
        (r.type ≠ 0x40 ∨ r.level ≠ 0 ∨ u.hasId = false ∨ bitOf (u.rd R.CVY_CTRL) 0 = false →
          exec (.convoyPacketReceived p r) s = .next ((u.produced r.stream).dropped r.stream 5)) ∧
        (r.type = 0x40 → r.level = 0 → u.build ≠ .l → u.hasId = true → bitOf (u.rd R.CVY_CTRL) 0 = true →
          (recPoison r = true → exec (.convoyPacketReceived p r) s = .next ((u.produced r.stream).dropped r.stream 2)) ∧
          (recPoison r = false → u.convoy.work ≠ [] ∨ u.grant 1 u.costConvoy = none → exec (.convoyPacketReceived p r) s =
            .next { u with convoy := { u.convoy with work := u.convoy.work ++ [.packet p r] } }) ∧
          (recPoison r = false → u.convoy.work = [] → ∀ t, u.grant 1 u.costConvoy = some t →
            exec (.convoyPacketReceived p r) s = .next (t.convoyTake p r))))) ∧
    (∀ p r, s.slotAt r.stream = none → s.convoyTake p r = (s.produced r.stream).dropped r.stream 5) ∧
    (∀ p r i sl e b g, s.slotAt r.stream = some (i, sl) → s.entryFor r.stream (parseHdr r.payload).epoch = some e → s.convoy.adopts = [] →
      s.genFor (parseHdr r.payload).epoch = some g → bitOf (parseHdr r.payload).flags 6 = false → s.portBit p = some b → e.inputs.testBit b = true →
      (s.absentPort p = true → s.convoyTake p r = (s.produced r.stream).dropped r.stream 5) ∧
      (s.absentPort p = false →
        ((∃ o ∈ sl.opens, o.epoch = (parseHdr r.payload).epoch ∧ ∃ c ∈ o.inputs, c.bit = b) → s.convoyTake p r = s.convoyDup i r) ∧
        ((∀ o ∈ sl.opens, o.epoch ≠ (parseHdr r.payload).epoch) → (∀ m ∈ sl.members, m.1 ≠ (parseHdr r.payload).epoch) →
          (sl.canOpen (parseHdr r.payload).epoch = false → s.convoyTake p r = s.convoyLate i r (parseHdr r.payload).epoch b) ∧
          (sl.canOpen (parseHdr r.payload).epoch = true → (parseHdr r.payload).gen = g → fitsEntry e (parseHdr r.payload) r.payload = true →
            e.takes (parseHdr r.payload).epoch = true →
            (s.muster.held = true → s.convoyTake p r = { s with convoy := { s.convoy with heldBack := s.convoy.heldBack ++ [(p, r)] } }) ∧
            (s.muster.held = false → s.convoyTake p r =
              (s.openEpoch r.stream (parseHdr r.payload).epoch).convoyMerge i p b r (parseHdr r.payload)))))) ∧
    (∀ k, k < slotCount s.build →
      ((s.muster.image = none ∧ s.muster.older = none) ∨ s.slotNo k = none → exec (.convoyContribution k) s = .next s) ∧
      (∀ stream sl i sl' img e o, s.slotNo k = some (stream, sl) → s.muster.image = some img → s.muster.older = none → img.complete = true →
        s.entryFor stream img.num = some e → e.srcKind = 2 → e.takes img.num = true → s.hasId = true → bitOf (s.rd R.CVY_CTRL) 0 = true →
        s.slotAt stream = some (i, sl') → sl'.opens.find? (fun o => o.epoch == img.num) = some o → (∀ c ∈ o.inputs, c.bit ≠ 0) →
        exec (.convoyContribution k) s = .next (s.contribute stream o (.nat (assocD 0 e.srcArg img.ctrs)))) ∧
      (∀ (a : Acc) (data : Word), s.portFull a = false →
        s.verdict a (if s.build = .h then (0x068 + k / 16) * 4096 + 0x080 + 0x80 * (k % 16) + 0x78 else 0x02A278) true false false = .perform →
        ∀ stream sl, s.slotNo k = some (stream, sl) →
          (∀ o, sl.opens.find? (fun o => o.entry.srcKind == 7 && !o.inputs.any (fun c => c.bit == 0)) = some o →
            (s.hasId = true → bitOf (s.rd R.CVY_CTRL) 0 = true → exec (.slotPost a k data) s =
              .next ((s.contribute stream o (.raw (data.toNat * 2 ^ 32 + sl.postLo))).respond a true 0 false)) ∧
            (s.hasId = false ∨ bitOf (s.rd R.CVY_CTRL) 0 = false → exec (.slotPost a k data) s = .next (s.respond a true 0 false))) ∧
          (sl.opens.find? (fun o => o.entry.srcKind == 7 && !o.inputs.any (fun c => c.bit == 0)) = none →
            exec (.slotPost a k data) s = .next (s.respond a true 0 false))) ∧
      (∀ stream sl, s.slotNo k = some (stream, sl) →
        ((∀ o ∈ sl.opens, s.now < o.deadline) → exec (.convoyDeadline k) s = .next s) ∧
        (∀ o, sl.opens = [o] → o.deadline ≤ s.now → exec (.convoyDeadline k) s = .next (s.publish stream o.epoch false)))) ∧
    (∀ stream epoch forced i sl, s.slotAt stream = some (i, sl) → ∃ j x, (s.publishNow stream epoch forced).slotAt stream = some (j, x) ∧
      ∀ o ∈ x.opens, o.epoch ≠ epoch)

/-- O46, tier 2. A result packet that is admitted, on a unit with an identity and unless poisoned, is taken as class W1 covers it, and is
dropped otherwise; one of a stream or a generation that the unit does not hold for its epoch is dropped malformed. Of a later epoch it is
applied and forwarded, of the epoch applied it is a duplicate, of an earlier one it is counted stale. A child that has not acknowledged in
CVY_BC_RETRY is sent the result again up to the limit, and then is an orphan. A unit whose wait for reports is over reports. At the
adopter a re-attached child's entries become idle. A window is judged once SD_WINDOW has passed, by the share of its cycles without credit
upwards, on a Selvo-T as the command gives it (log entry 73): one above the bound enters summarise-down, and the fourth quiet window in a
row leaves it with no span open; that SD_EN cleared leaves it at the end of a window is the model's choice (log entry 73). -/
def Obligations.BroadcastsAreAppliedForwardedAndReported : Prop :=
  ∀ s : State, s.Inv →
    (∀ p r, convoyPortOk s.build p = true →
      ((s.convoyAdmit p r).1 = false → exec (.broadcastResultReceived p r) s = .next (s.convoyAdmit p r).2 ∧
        exec (.reachReportReceived p r) s = .next (s.convoyAdmit p r).2) ∧
      (∀ u, s.convoyAdmit p r = (true, u) →
        exec (.reachReportReceived p r) s = .next (u.reachPacket p r) ∧
        (r.type ≠ 0x41 ∨ u.hasId = false → exec (.broadcastResultReceived p r) s = .next ((u.produced r.stream).dropped r.stream 5)) ∧
        (r.type = 0x41 → u.hasId = true → recPoison r = true → exec (.broadcastResultReceived p r) s = .next ((u.produced r.stream).dropped r.stream 2)) ∧
        (r.type = 0x41 → u.hasId = true → recPoison r = false → u.convoy.work = [] → ∀ t, u.grant 1 u.costConvoy = some t →
          exec (.broadcastResultReceived p r) s = .next (t.resultTake p r)))) ∧
    (∀ p r, s.slotAt r.stream = none → s.resultTake p r = (s.produced r.stream).dropped r.stream 5) ∧
    (∀ p r i sl e, s.slotAt r.stream = some (i, sl) → s.entryFor r.stream (parseHdr r.payload).epoch = some e →
      s.genFor (parseHdr r.payload).epoch ≠ some (parseHdr r.payload).gen → s.resultTake p r = (s.produced r.stream).dropped r.stream 5) ∧
    (∀ p r i sl e, s.slotAt r.stream = some (i, sl) → s.entryFor r.stream (parseHdr r.payload).epoch = some e →
      s.genFor (parseHdr r.payload).epoch = some (parseHdr r.payload).gen → (parseHdr r.payload).op = e.op →
      (parseHdr r.payload).ty = e.ty → (parseHdr r.payload).par = e.par →
      (sl.applied = some (parseHdr r.payload).epoch → s.resultTake p r = s.convoyDup i r) ∧
      (∀ a, sl.applied = some a → a ≠ (parseHdr r.payload).epoch → laterThan (parseHdr r.payload).epoch a = false →
        s.resultTake p r = s.bumpSat R.SLOT_STALE 1 (bk := i)) ∧
      (sl.applied = none →
        s.resultTake p r = (s.applyResult i e r).bcastStart e (recHop r) (parseHdr r.payload).epoch none)) ∧
    (∀ k stream sl b, k < slotCount s.build → s.slotNo k = some (stream, sl) → sl.bcasts = [b] →
      (∀ child x, b.kids.find? (fun y => y.bit == child) = some x →
        (x.acked = true ∨ x.orphan = true ∨ s.after x.sentAt (s.rd R.CVY_BC_CFG % 256) = false → exec (.broadcastRetryTimeout k child) s = .next s) ∧
        (x.acked = false → x.orphan = false → s.after x.sentAt (s.rd R.CVY_BC_CFG % 256) = true →
          (x.resends < s.rd R.CVY_BC_CFG / 256 % 16 → exec (.broadcastRetryTimeout k child) s = .next (s.bcastTo stream b.epoch child true)) ∧
          (s.rd R.CVY_BC_CFG / 256 % 16 ≤ x.resends → exec (.broadcastRetryTimeout k child) s = .next (s.orphan stream b.epoch child)))) ∧
      (s.after b.sentAt (s.rd R.CVY_BC_CFG / 65536 % 65536) = false → exec (.reachReportTimeout k) s = .next s) ∧
      (s.after b.sentAt (s.rd R.CVY_BC_CFG / 65536 % 65536) = true → exec (.reachReportTimeout k) s = .next (s.reachReport stream b.epoch))) ∧
    (∀ k stream sl, k < slotCount s.build → s.slotNo k = some (stream, sl) → sl.bcasts = [] →
      (∀ child, exec (.broadcastRetryTimeout k child) s = .next s) ∧ exec (.reachReportTimeout k) s = .next s) ∧
    (∀ k child stream sl, k < slotCount s.build → s.slotNo k = some (stream, sl) → child ≠ s.srcId →
      ∃ t, exec (.reattachHoldExpiry k child) s = .next t ∧ (∀ a ∈ t.convoy.adopts, a.stream = stream → a.child = child → a.st = 0) ∧
        t.convoy.slots = s.convoy.slots ∧ t.convoy.adopts.length = s.convoy.adopts.length) ∧
    (∀ w, s.after s.convoy.sdAt (max 1 (s.rd R.CVY_SD_CFG / 65536 % 4096)) = false → exec (.summariseDownWindow w) s = .next s) ∧
    (∀ w n, n = (if s.build = .t then w else 100 * s.convoy.sdNone / (s.time.cycles - s.convoy.sdAt)) →
      s.after s.convoy.sdAt (max 1 (s.rd R.CVY_SD_CFG / 65536 % 4096)) = true →
      (s.convoy.sdActive = false → bitOf (s.rd R.CVY_CTRL) 1 = false ∨ n < s.rd R.CVY_SD_CFG % 256 → exec (.summariseDownWindow w) s =
        .next { s with convoy := { s.convoy with sdAt := s.time.cycles, sdNone := 0 } }) ∧
      (s.convoy.sdActive = false → bitOf (s.rd R.CVY_CTRL) 1 = true → s.rd R.CVY_SD_CFG % 256 ≤ n → ∃ t, exec (.summariseDownWindow w) s = .next t ∧
        t.convoy.sdActive = true ∧ t.convoy.sdQuiet = 0 ∧ t.convoy.sdRaised = min 7 (s.rd R.CVY_SD_CFG2 / 256 % 8)) ∧
      (s.convoy.sdActive = true → bitOf (s.rd R.CVY_CTRL) 1 = true → n < s.rd R.CVY_SD_CFG / 256 % 256 → s.convoy.sdQuiet ≠ 3 →
        exec (.summariseDownWindow w) s =
          .next { s with convoy := { s.convoy with sdAt := s.time.cycles, sdNone := 0, sdQuiet := s.convoy.sdQuiet + 1 } }) ∧
      (s.convoy.sdActive = true → bitOf (s.rd R.CVY_CTRL) 1 = false ∨ (n < s.rd R.CVY_SD_CFG / 256 % 256 ∧ s.convoy.sdQuiet = 3) →
        ∃ t, exec (.summariseDownWindow w) s = .next t ∧ t.convoy.sdActive = false ∧ t.convoy.spans = [] ∧ t.convoy.sdRaised = 0))

/-- O47, tier 2. A FEAT_LOAD_HI write that meets no reason stores the word of both halves at FEAT_LOAD_IDX of the shadow bank, which it
moves on, and leaves every other word and the active bank; at or above the capacity it stores nothing. FEAT_SWAP writes request and
cancel. A request judged fit waits for its muster; another shows its reason with interrupt bit 3. An idle swap exchanges the banks, takes
FEAT_LEN and raises FEAT_GEN. A pass that class W3 grants takes the muster awaited; one not granted is marked denied. A commit of a muster
whose image the core holds leaves exactly one feature per instruction and that muster as the last; else it changes nothing. -/
def Obligations.FeatureProgramsLoadSwapAndCommit : Prop :=
  ∀ s : State, s.Inv →
    (∀ (a : Acc) (data : Word), s.portFull a = false → s.verdict a 0x02609C true false false = .perform → ∃ t, exec (.featLoadHi a data) s = .next t ∧
      t.feat.active = s.feat.active ∧ t.feat.lo = 0 ∧
      (s.rd R.FEAT_LOAD_IDX < featMax s.build → t.rd R.FEAT_LOAD_IDX = s.rd R.FEAT_LOAD_IDX + 1 ∧
        t.feat.shadow.ins (s.rd R.FEAT_LOAD_IDX) = data.toNat * 2 ^ 32 + s.feat.lo ∧
        ∀ i, i ≠ s.rd R.FEAT_LOAD_IDX → t.feat.shadow.ins i = s.featCopy.feat.shadow.ins i) ∧
      (featMax s.build ≤ s.rd R.FEAT_LOAD_IDX → t.feat.shadow = s.featCopy.feat.shadow)) ∧
    (∀ (a : Acc) (data : Word), s.portFull a = false → s.verdict a 0x0260A4 true false false = .perform →
      ∃ t, exec (.featSwapRequest a data) s = .next t ∧ exec (.featSwapCancel a data) s = .next t ∧
        t.feat = { s.feat with swap := if bitOf data.toNat 1 = true then none else s.feat.swap, validating := s.feat.validating || bitOf data.toNat 0 }) ∧
    (s.feat.validating = false → exec .featSwapValidated s = .next s) ∧
    (s.feat.validating = true → ∃ t, exec .featSwapValidated s = .next t ∧ t.feat.validating = false ∧ t.feat.active = s.feat.active ∧
      (let why := swapReject s.build s.featCopy.feat.shadow (s.rd R.FEAT_LEN)
       (why = 0 → t.feat.swap = some (s.rd R.FEAT_SWAP_AT) ∧ t.feat.reject = 0) ∧
       (why ≠ 0 → t.feat.swap = s.feat.swap ∧ t.feat.reject = why ∧ bitOf (t.rd R.CMN_IRQ_STATUS (pg := 0x026)) 3 = true))) ∧
    (s.feat.swap ≠ none → s.feat.run = none → s.scheduleRuns = false ∨ bitOf (s.rd R.FEAT_CTRL) 0 = false → ∃ t, exec .featSwapApplyIdle s = .next t ∧
      t.feat.active = s.featCopy.feat.shadow ∧ t.feat.shadow = s.feat.active ∧ t.feat.len = s.rd R.FEAT_LEN ∧ t.feat.swap = none ∧
      t.feat.copying = true ∧ t.feat.loaded = true ∧ t.rd R.FEAT_GEN = (s.rd R.FEAT_GEN + 1) % 2 ^ 32) ∧
    (s.feat.swap = none ∨ s.feat.run ≠ none ∨ (s.scheduleRuns = true ∧ bitOf (s.rd R.FEAT_CTRL) 0 = true) → exec .featSwapApplyIdle s = .next s) ∧
    exec .featBankCopyDone s = .next (if s.feat.copying = true
      then { s with feat := { s.feat with shadow := s.feat.active, copying := false } } else s) ∧
    (s.feat.await = none ∨ s.feat.run ≠ none → exec .featurePassGrant s = .next s) ∧
    (∀ n, s.feat.await = some n → s.feat.run = none → s.feat.swap = none → s.feat.loaded = true → bitOf (s.rd R.FEAT_CTRL) 0 = true → s.inRun 1 = true →
      (let g := s.grant 3 (s.costFeature s.feat.len (s.feat.active.sumW s.feat.len))
       (g = none → exec .featurePassGrant s = .next { s with feat := { s.feat with denied := true } }) ∧
       (g ≠ none → ∃ t p, exec .featurePassGrant s = .next t ∧ t.feat.run = some p ∧ p.num = n ∧ t.feat.await = none ∧ t.feat.active = s.feat.active))) ∧
    (∀ p lost, s.feat.run = some p →
      (s.muster.imageOf p.num = none → exec (.featurePassCommit lost) s = .next s) ∧
      (s.muster.imageOf p.num ≠ none → ∃ t, exec (.featurePassCommit lost) s = .next t ∧ t.feat.run = none ∧ t.feat.lastNum = p.num ∧
        t.feat.committed = true ∧ t.feat.vals.length = s.feat.len ∧ t.feat.hist.map Prod.fst = List.range s.feat.len)) ∧
    (∀ lost, s.feat.run = none → exec (.featurePassCommit lost) s = .next s)

/-- O48, tier 2. A walk of depth D from the root ends at one of the 2^D leaves. A package is accepted only with its format right, its key
slot installed, and the digest and signature of its bytes right. BEGIN starts a register load unless one is under way, DATA appends its
word in little-endian order, END hands it to verification, ABORT drops it; a chunk out of order ends the load. MODEL_VERIFY_DONE stages
the model of an accepted package granted under W6, and refuses any other. TSL_CANCEL drops the staged model. The sample that has waited
longest, with a model, room and a W2 grant, is admitted behind the others; the oldest admitted sample's result leaves the queue, poisoned
as NaN when it read a bad word. -/
def Obligations.ModelsAreVerifiedStagedAndWalkedToALeaf : Prop :=
  (∀ (nodes feats : List Nat) (d : Nat), 2 ^ d - 1 ≤ walk nodes feats d 0 ∧ walk nodes feats d 0 < 2 ^ (d + 1) - 1) ∧
  ∀ s : State, s.Inv →
    (∀ l : TLoad, s.pkgReason l = 0 → pkgFormat l.data = false ∧ (s.auth.otp.model.getD (leAt l.data 7 1) ⟨0, []⟩).st = 1 ∧
      sha384 ((l.data.drop 128).take (pkgNode l.data + pkgLeaf l.data)) = (l.data.drop 64).take 48 ∧
      ecdsaOk (s.auth.otp.model.getD (leAt l.data 7 1) ⟨0, []⟩).key (l.data.take 128) (l.data.drop (l.data.length - 96)) = true ∧
      s.core.unattended = false ∧ s.rd R.TSL_VER_FLOOR l.slot ≤ leAt l.data 12 4) ∧
    (∀ (a : Acc) (data : Word), s.portFull a = false → s.verdict a 0x028098 true false false = .perform →
      exec (.treeLoadBegin a data) s = .next ((s.treeLoadCtrl data.toNat).respond a true 0 false) ∧
      exec (.treeLoadEnd a data) s = .next ((s.treeLoadCtrl data.toNat).respond a true 0 false) ∧
      exec (.treeLoadAbort a data) s = .next ((s.treeLoadCtrl data.toNat).respond a true 0 false)) ∧
    (∀ k, k < 4 → s.tree.load = none → (s.treeLoadCtrl (1 + 16 * k)).tree.load = some (TLoad.start false k)) ∧
    (∀ l, s.tree.load = some l → (s.treeLoadCtrl 4).tree.load = none ∧
      (l.chunks = false → l.verifying = false → (s.treeLoadCtrl 2).tree.load = some { l with verifying := true })) ∧
    (∀ (a : Acc) (data : Word) (l : TLoad), s.tree.load = some l → l.chunks = false → l.verifying = false →
      s.portFull a = false → s.verdict a 0x02809C true false false = .perform → l.data.length + 4 ≤ pkgMax →
      ∃ t m, exec (.treeLoadData a data) s = .next t ∧ t.tree.load = some m ∧ m.data = l.data ++ leBytes 4 data.toNat ∧ m.slot = l.slot) ∧
    (∀ p r, p < linkPorts s.build → (s.takesModel r = false → exec (.modelChunkReceived p r) s = .next s) ∧
      (s.takesModel r = true → (s.admitRec p r).1 = true →
        exec (.modelChunkReceived p r) s = .next ((s.admitRec p r).2.bulkIn p r true (fun s => s.modelChunk p 0 r)))) ∧
    (∀ (l : TLoad) (r : Rec), s.tree.load = some l → l.chunks = true → l.verifying = false →
      leAt r.payload 0 4 ≠ l.data.length ∨ leAt r.payload 4 1 % 4 ≠ l.slot → (s.chunkTake r).tree.load = none ∧ (s.chunkTake r).tree.chunkSkip = !bitOf (leAt r.payload 4 1) 2) ∧
    (∀ l, s.tree.load = some l →
      (l.verifying = false ∨ s.grant 6 (s.costBulk l.data.length) = none → exec .modelVerifyDone s = .next s) ∧
      (l.verifying = true → ∀ g, s.grant 6 (s.costBulk l.data.length) = some g →
        (g.pkgReason l = 0 → ∃ t, exec .modelVerifyDone s = .next t ∧ t.tree.load = none ∧
          (l.slot < s.tree.slots.length → (t.tslot l.slot).staged = some (pkgModel l.data) ∧ (t.tslot l.slot).force = (s.tslot l.slot).force)) ∧
        (g.pkgReason l ≠ 0 → exec .modelVerifyDone s = .next (g.loadFail (g.pkgReason l)) ∧ (g.loadFail (g.pkgReason l)).tree.load = none ∧
          ∀ k, ((g.loadFail (g.pkgReason l)).tslot k).staged = (s.tslot k).staged))) ∧
    (s.tree.load = none → exec .modelVerifyDone s = .next s) ∧
    (∀ (a : Acc) (k : Nat) (data : Word), k < 4 → s.portFull a = false → s.verdict a (0x028130 + 64 * k) true false false = .perform → ∃ t, exec (.tslCancel a k data) s = .next t ∧
      t.tree = (if bitOf data.toNat 0 = true then (s.modTslot k (fun x => { x with staged := none, loading := false })).tree else s.tree)) ∧
    (∀ k, k < 4 → ((∀ x, s.tree.wait.head? = some x → x.slot ≠ k) → exec (.treeSampleGrant k) s = .next s) ∧
      (∀ x m g, s.tree.wait.head? = some x → x.slot = k → bitOf (s.rd R.TREE_CTRL) 0 = true → s.inRun 2 = true → (s.tslot k).staged = none →
        (s.tslot k).modelFor x.num = some m → s.treeRoom m = true → s.grant 2 (s.costTree m.trees.length m.depth) = some g →
        exec (.treeSampleGrant k) s = .next { g with tree := { g.tree with wait := s.tree.wait.filter (fun y => y.slot != k),
                                                                           queue := s.tree.queue ++ [(x, m)] } })) ∧
    (∀ poison, s.tree.queue = [] → exec (.treeResultCommit poison) s = .next s) ∧
    (∀ poison x m rest, s.tree.queue = (x, m) :: rest → ∃ t, exec (.treeResultCommit poison) s = .next t ∧ t.tree.queue = rest ∧
      (bitOf (s.rd R.OUT_CTRL) 0 = true → ∃ r, t.out.results = s.out.results ++ [r] ∧ r.sample = x ∧ r.outs.length = m.cls ∧
        r.poison = !poison.isEmpty ∧ (poison ≠ [] → r.outs = List.replicate m.cls b32.nan)) ∧
      (bitOf (s.rd R.OUT_CTRL) 0 = false → t.out = s.out))

/-- O49, tier 2. A rule score lies in 0 to 1,023, and a NaN has none. VERDICT_SCORING scores the first result that is ready, once class W2
covers it. At a keeper outside Emergency a step boundary that meets no reason leaves the budget less exactly one token for each new
advice, with at most 64 advised; in Emergency it spends nothing and is counted; elsewhere it has no effect. An acknowledged advice, an
expired entry and an unused die entry leave their lists. OUT_CLEAR of the own ID drops its latches. An admission starts with GO for a leaf
slot (another slot starts none, log entry 33), takes its tests in turn, judging identity and links by what the unit itself holds, and ends
READY, FAILED, or FAILED at its time limit. -/
def Obligations.VerdictsAreScoredEscalatedAndBudgeted : Prop :=
  (∀ free x lo hi y, ruleScore free x lo hi = some y → y ≤ 1023 ∧ fIsNan b64 x = false) ∧
  (∀ mask t k, nextTest mask t = some k → t < k ∧ k ≤ 6 ∧ (k = 5 → bitOf mask 0 = true) ∧ (k = 6 → bitOf mask 1 = true)) ∧
  ∀ s : State, s.Inv →
    (s.out.results.find? s.ready = none → exec .verdictScoring s = .next s) ∧
    (∀ x, s.out.results.find? s.ready = some x →
      (s.grant 2 (s.costVerdict * (s.out.results.filter x.with).length) = none → exec .verdictScoring s = .next s) ∧
      (∀ g, x.sample.self = true → s.grant 2 (s.costVerdict * (s.out.results.filter x.with).length) = some g → exec .verdictScoring s =
        .next (({ g with out := { g.out with results := g.out.results.filter (fun y => !x.with y) } } : State).scoreDie 0 (s.out.results.filter x.with)))) ∧
    ((∀ p ∈ s.out.dies, escalates p.2.cls = false ∨ p.2.esc = 0 ∨ (s.muster.lastNum + 2 ^ 32 - p.2.escAt % 2 ^ 32) % 2 ^ 32 < s.reqRepeat) →
      exec .escalationRestate s = .next s) ∧
    (∀ i d, s.out.dies = [(i, d)] → escalates d.cls = true → d.esc ≠ 0 → s.reqRepeat ≤ (s.muster.lastNum + 2 ^ 32 - d.escAt % 2 ^ 32) % 2 ^ 32 →
      exec .escalationRestate s = .next (s.escalate i s.muster.lastNum true)) ∧
    (∀ p r, p < linkPorts s.build → (r.type ≠ 0x45 → exec (.escalationRequestReceived p r) s = .next s) ∧
      (r.type = 0x45 → exec (.escalationRequestReceived p r) s = .next
        (if (s.admitRec p r).1 = true then (s.admitRec p r).2.requestIn r else (s.admitRec p r).2))) ∧
    (∀ k e, k < deferMax s.build → s.out.deferred[k]? = some e →
      (s.convoy.keeper = true → 4 * s.reqRepeat ≤ (s.muster.lastNum + 2 ^ 32 - e.seen % 2 ^ 32) % 2 ^ 32 → ∃ t, exec (.deferEntryExpiry k) s = .next t ∧
        t.out.deferred = s.out.deferred.filter (fun x => x.id != e.id)) ∧
      (s.convoy.keeper = false ∨ (s.muster.lastNum + 2 ^ 32 - e.seen % 2 ^ 32) % 2 ^ 32 < 4 * s.reqRepeat →
        exec (.deferEntryExpiry k) s = .next s)) ∧
    (∀ (a : Acc) (data : Word), s.portFull a = false → s.verdict a 0x0290A4 true false false = .perform →
      exec (.stepBoundary a data) s = .next ((if bitOf data.toNat 0 = true then s.stepBoundary else s).respond a true 0 false)) ∧
    (s.convoy.keeper = false → s.stepBoundary = s) ∧
    (s.convoy.keeper = true → s.drover.emerg = 2 → s.stepBoundary.out = { s.out with level := s.budgetNow, levelAt := s.now, steps := s.out.steps + 1 } ∧
      s.stepBoundary.rd R.OUT_STEP_SKIPPED = min (s.rd R.OUT_STEP_SKIPPED + 1) (2 ^ 32 - 1)) ∧
    (s.convoy.keeper = true → s.drover.emerg ≠ 2 →
      s.stepBoundary.out.level + 1000000 * 2 ^ 32 * (s.stepBoundary.out.advised.length - s.out.advised.length) = s.budgetNow ∧
      s.out.advised.length ≤ s.stepBoundary.out.advised.length ∧ s.stepBoundary.out.advised.length ≤ max 64 s.out.advised.length) ∧
    (∀ (a : Acc) (data : Word), s.portFull a = false → s.verdict a 0x0290CC true false false = .perform → ∃ t, exec (.outAdvAck a data) s = .next t ∧
      t.out = (if s.convoy.keeper = true then { s.out with advised := s.out.advised.filter (fun e => e.id != data.toNat % 2 ^ 24) } else s.out)) ∧
    (∀ (a : Acc) (data : Word), s.portFull a = false → s.verdict a 0x0290A0 true false false = .perform →
      (data.toNat % 2 ^ 24 = s.srcId → ∃ t, exec (.outClear a data) s = .next t ∧ t.out.sdc = false ∧ t.out.cond = none) ∧
      (data.toNat % 2 ^ 24 ≠ s.srcId → exec (.outClear a data) s = .next (s.respond a true 0 false))) ∧
    (∀ k d, k < dieMax s.build → s.die k = some d →
      (k ≠ 0 → d.cls ≤ 1 → 1024 ≤ (s.muster.lastNum + 2 ^ 32 - d.last % 2 ^ 32) % 2 ^ 32 → exec (.dieEntryFree k) s =
        .next { s with out := { s.out with dies := s.out.dies.filter (fun p => p.1 != k) } }) ∧
      (k = 0 ∨ 1 < d.cls ∨ (s.muster.lastNum + 2 ^ 32 - d.last % 2 ^ 32) % 2 ^ 32 < 1024 → exec (.dieEntryFree k) s = .next s)) ∧
    (∀ (a : Acc) (data : Word), s.portFull a = false → s.verdict a 0x029200 true false (s.admitBad data.toNat) = .perform → ∃ t, exec (.outAdmitGo a data) s = .next t ∧
      t.out.admission = (if bitOf data.toNat 15 = true ∧ 1 ≤ data.toNat % 32 ∧ data.toNat % 32 ≤ 24 then
        { st := 1, slot := data.toNat % 32, test := 0, mask := data.toNat / 4096 % 4, trees := data.toNat / 256 % 16, startAt := s.time.cycles, epoch := 0, rounds := [] }
        else s.out.admission)) ∧
    (s.build = .h → ∀ ok, s.out.admission.st ≠ 1 → exec (.admissionTestComplete ok) s = .next s ∧ exec .admissionTimeout s = .next s) ∧
    (s.build = .h → s.out.admission.st = 1 → s.link.admitDue = [] →
      (∀ pass, s.admitVerdict pass = none → exec (.admissionTestComplete pass) s = .next s) ∧
      (∀ pass, s.admitVerdict pass = some false → ∃ t, exec (.admissionTestComplete pass) s = .next t ∧
        t.out.admission = { s.out.admission with st := 3 }) ∧
      (∀ pass k, s.admitVerdict pass = some true → nextTest s.out.admission.mask s.out.admission.test = some k →
        exec (.admissionTestComplete pass) s =
          .next { s with out := { s.out with admission := { s.out.admission with test := k, rounds := List.replicate 8 0 } } }) ∧
      (∀ pass, s.admitVerdict pass = some true → nextTest s.out.admission.mask s.out.admission.test = none →
        ∃ t, exec (.admissionTestComplete pass) s = .next t ∧ t.out.admission.st = 2) ∧
      (∀ pass, (s.out.admission.test = 0 → s.admitVerdict pass = some ((s.port (39 + s.out.admission.slot)).neighbour == s.srcId / 32 * 32 + s.out.admission.slot &&
          !(s.port (39 + s.out.admission.slot)).dupId)) ∧
        (s.out.admission.test = 3 → (∀ c, c < 8 → 3 ≤ s.out.admission.rounds.getD c 0) → s.admitVerdict pass = some true) ∧
        (s.out.admission.test = 3 → (∃ c, c < 8 ∧ s.out.admission.rounds.getD c 0 < 3) → s.admitVerdict pass = if pass = true then none else some false) ∧
        (s.out.admission.test ≠ 0 → s.out.admission.test ≠ 3 → s.admitVerdict pass = some pass)) ∧
      (∀ ms, ms = (if s.rd R.OUT_ADMIT_TIMEOUT % 65536 = 0 then 200 else s.rd R.OUT_ADMIT_TIMEOUT % 65536) →
        (s.after s.out.admission.startAt (1000 * ms) = true → ∃ t, exec .admissionTimeout s = .next t ∧ t.out.admission = { s.out.admission with st := 3 }) ∧
        (s.after s.out.admission.startAt (1000 * ms) = false → exec .admissionTimeout s = .next s)))

/-- O50, tier 2. A pair whose magnitude is NaN, or whose two sums are, cannot be checked; one whose sums are NaN only once fails. A beat
that lands is judged whole while checks are enabled and is ignored otherwise; a stopped island takes none; the fail of a lone pair outside
a run leaves the die tainted; a pass leaves the taint as it was. The taint ends by its clear. A notice admitted at a leaf heads its log of
at most 16, and one held unacknowledged for 1.5 us is queued again. GO opens a run; END or the time limit closes it FAIL with a failed
check, PASS with enough, else INCOMPLETE. An idle window is offered once. A place is verified only under the right digest and signature,
and DROP empties it. -/
def Obligations.SilentErrorsAreJudgedAndPatternsAreVerified : Prop :=
  (∀ a b m ta tr, (fIsNan b64 m = true → compare a b m ta tr = .uncheckable) ∧
    (fIsNan b64 m = false → fIsNan b64 a = true → fIsNan b64 b = true → compare a b m ta tr = .uncheckable) ∧
    (m < b64.inf → fIsNan b64 a ≠ fIsNan b64 b → fIsNan b64 m = false → compare a b m ta tr = .fail)) ∧
  ∀ s : State, s.Inv →
    (hasTaps s.build = true → ∀ lanes lost, exec (.checksumBeat lanes lost) s = .next (s.tapItem (.checksum lanes) [(16, lost)])) ∧
    (∀ lanes, (bitOf (s.rd R.ABFT_CTRL) 0 = false → s.itemLand (.checksum lanes) = s) ∧
      (bitOf (s.rd R.ABFT_CTRL) 0 = true → s.itemLand (.checksum lanes) = s.beat (lanes.map (fun l => { l with engine := l.engine % 32, prec := l.prec % 8 })))) ∧
    (∀ x, s.core.tapSums = [] → s.core.tapItems = [] → s.core.tapLost = [] → s.launches (s.portIsland x.bit) = true →
      s.itemReady x = true → s.tapItem x [] = s.itemLand x) ∧
    (∀ x lost, s.portIsland x.bit ∈ s.core.tapStopped ∨ s.portIsland x.bit ∈ s.core.inReset → s.tapItem x lost = s) ∧
    (∀ l : CkLane, l.engine < 32 → l.prec < 7 → l.epoch < 2 ^ 32 → s.abft.run = none → bitOf (s.rd R.ABFT_ENG_EN) l.engine = true →
      (s.laneCheck l = .fail → (s.beat [l]).abft.tainted = true) ∧ (s.laneCheck l = .pass → (s.beat [l]).abft.tainted = s.abft.tainted)) ∧
    (∀ (a : Acc) (data : Word), s.portFull a = false → s.verdict a 0x0230CC true false false = .perform → ∃ t, exec (.abftTaintClear a data) s = .next t ∧
      t.abft = { s.abft with tainted := s.abft.tainted && !bitOf data.toNat 0 }) ∧
    (∀ p r, p < linkPorts s.build → (r.type ≠ 0x48 → exec (.taintNoticeReceived p r) s = .next s) ∧
      (r.type = 0x48 → exec (.taintNoticeReceived p r) s = .next
        (if (s.admitRec p r).1 = true then (s.admitRec p r).2.noticeIn p r else (s.admitRec p r).2))) ∧
    (∀ p r, s.build = .l → linkLocal r.type r.stream = false → recPoison r = false → (s.noticeIn p r).abft.log =
      ([leAt r.payload 0 3, leAt r.payload 3 1 % 2, leAt r.payload 4 4, leAt r.payload 8 4, r.seq] :: s.abft.log).take 16) ∧
    (∀ p, p < linkPorts s.build → s.abft.sent = [] → exec (.taintNoticeResend p) s = .next s) ∧
    (∀ p uid at_ i, p < linkPorts s.build → 0 < (s.port p).cls.length → s.abft.sent = [(p, uid, at_)] → at_ + 1200 ≤ s.time.cycles → (s.port p).usable = true →
      ((s.port p).tx8 0).held.find? (fun i => i.uid == uid) = some i → ∃ t, exec (.taintNoticeResend p) s = .next t ∧
        t.abft.sent = [(p, uid, s.time.cycles)] ∧
        ((t.port p).tx8 0).q = ((s.port p).tx8 0).q ++ [{ i with sent := 0, pkt := 0, resent := true }]) ∧
    (∀ (a : Acc) (data : Word), s.portFull a = false → s.verdict a 0x023310 true false (s.patGoBad data.toNat) = .perform →
      exec (.patternRunStart a data) s = .next ((s.patGo data.toNat).respond a true 0 false) ∧
      exec (.patternRunEnd a data) s = .next ((s.patGo data.toNat).respond a true 0 false)) ∧
    (s.patGo 1).abft.run = some { checks := 0, fails := 0, startStamp := s.stamp, startAt := s.time.cycles } ∧
    (∀ r, s.abft.run = some r → (s.patGo 2).abft.run = none ∧ (s.patGo 2).rd R.ABFT_PAT_STATUS =
      (if 0 < r.fails then 3 else if s.rd R.ABFT_PAT_EXPECT ≤ r.checks then 2 else 4)) ∧
    (hasTaps s.build = true → s.abft.run = none → exec .patternRunTimeout s = .next s) ∧
    (hasTaps s.build = true → ∀ r ms, s.abft.run = some r →
      ms = (if s.rd R.ABFT_PAT_TIMEOUT % 65536 = 0 then 1000 else s.rd R.ABFT_PAT_TIMEOUT % 65536) →
      (s.after r.startAt (1000 * ms) = false → exec .patternRunTimeout s = .next s) ∧
      (s.after r.startAt (1000 * ms) = true → ∃ t, exec .patternRunTimeout s = .next t ∧ t.abft.run = none ∧
        t.rd R.ABFT_PAT_STATUS = (if 0 < r.fails then 11 else 12))) ∧
    (hasTaps s.build = true →
      (s.abft.offer ≠ none ∨ bitOf (s.rd R.ABFT_CTRL) 1 = false ∨ s.drover.emerg ≠ 0 ∨ s.core.unattended = true →
        exec .idleWindowOffer s = .next s) ∧
      (s.abft.offer = none → bitOf (s.rd R.ABFT_CTRL) 1 = true → s.drover.emerg = 0 → s.core.unattended = false →
        (∀ c < 32, bitOf (s.rd R.ABFT_IDLE_STREAMS) c = true → s.cmdOpen c = false ∧
          s.after (assocD 0 c s.samp.cmdIdleAt) (s.rd R.ABFT_IDLE_MIN % 65536) = true) →
        ∃ t x, exec .idleWindowOffer s = .next t ∧ t.abft.offer = some (s.abft.offers, x) ∧ t.abft.offers = s.abft.offers + 1)) ∧
    (∀ x : PatPlace, s.patReason x = 0 → 224 ≤ x.data.length ∧
      sha384 ((x.data.drop 128).take (leAt x.data 16 4)) = (x.data.drop 32).take 48 ∧
      ecdsaOk (s.auth.otp.model.getD (leAt x.data 7 1) ⟨0, []⟩).key (x.data.take 128) (x.data.drop (x.data.length - 96)) = true ∧
      (s.auth.otp.model.getD (leAt x.data 7 1) ⟨0, []⟩).st = 1 ∧ s.core.unattended = false) ∧
    (s.build = .t →
      (∀ p r, p < linkPorts s.build → (s.takesPattern r = false → exec (.patternChunkReceived p r) s = .next s) ∧
        (s.takesPattern r = true → exec (.patternChunkReceived p r) s = .next
          (if (s.admitRec p r).1 = true then (s.admitRec p r).2.bulkIn p r true (fun s => s.patChunk p 0 r) else (s.admitRec p r).2))) ∧
      (s.abft.places.findIdx? (fun p => p.verifying) = none → exec .patternVerifyDone s = .next s) ∧
      (∀ q, s.abft.places.findIdx? (fun p => p.verifying) = some q →
        (s.grant 6 (s.costBulk (s.place q).data.length) = none → exec .patternVerifyDone s = .next s) ∧
        (∀ g, s.grant 6 (s.costBulk (s.place q).data.length) = some g → ∃ t, exec .patternVerifyDone s = .next t ∧ (t.place q).verifying = false ∧
          (t.place q).st = (if g.patReason (s.place q) = 0 then 2 else 3) ∧ (t.place q).data = (s.place q).data))) ∧
    (∀ (a : Acc) k (data : Word), k < 4 → s.portFull a = false → s.verdict a (0x02341C + 16 * k) true false false = .perform → bitOf data.toNat 0 = true →
      ∃ t, exec (.patPlaceDrop a k data) s = .next t ∧ t.abft = { s.abft with places := modNth s.abft.places k (fun _ => PatPlace.empty) })

/-- O51, tier 2. A token has no refusal reason only with its magic, 160 bytes, a good signature, a window that ends in the future and
lasts at most 24 hours, and nothing the floor forbids. A load runs BEGIN, data, END; a verified token is held, one refused leaves the
tokens as they were. Tokens open and go in time, and by their ID. EN = 0 stops the trace and EN = 1 starts it with MODE and FORMAT as
written; ARM discards the blocks. An excluded item changes no block and no base. No block grows past 4,000 bytes. The block age closes a
block, the PSYNC time makes one due, the oldest stored record enters the store when it fits, a drained block is marked, and released
windows are free. -/
def Obligations.TraceTokensBlocksAndTheDrain : Prop :=
  (∀ (s : State) l, s.tokReason l = 0 → l.length = 160 ∧ leAt l 0 4 = 0x32545653 ∧ leAt l 4 1 ≤ 3 ∧
    ecdsaOk (s.auth.otp.trace.getD (leAt l 4 1) ⟨0, []⟩).key (l.take 64) (l.drop 64) = true ∧ (s.auth.otp.trace.getD (leAt l 4 1) ⟨0, []⟩).st = 1 ∧
    leAt l 16 10 < leAt l 26 10 ∧ leAt l 26 10 ≤ leAt l 16 10 + 86400 * 2 ^ 32 ∧ s.now < leAt l 26 10 ∧
    Token.forbidden (leAt l 6 1) s.auth.floorNow = false ∧ s.core.unattended = false) ∧
  (∀ (s : State) pkt item trig, pkt.length ≤ 4000 → (∀ b ∈ s.trace.blocks, b.data.length ≤ 4000) →
    ∀ b ∈ (s.trcRaw pkt item trig).2.trace.blocks, b.data.length ≤ 4000) ∧
  ∀ s : State, s.Inv →
    (∀ (a : Acc) (data : Word), s.portFull a = false → s.verdict a 0x024080 true false (fld data.toNat 3 2 == 3) = .perform →
      exec (.traceEnable a data) s = .next ((s.trcCtrl data.toNat).respond a true 0 false) ∧
      (bitOf data.toNat 0 = false → (s.trcCtrl data.toNat).trace.running = false) ∧
      (bitOf data.toNat 0 = true → s.trace.running = false → (s.trcCtrl data.toNat).trace.running = true ∧
        (s.trcCtrl data.toNat).trace.mode = fld data.toNat 3 2 ∧ (s.trcCtrl data.toNat).trace.plaram = bitOf data.toNat 4)) ∧
    (∀ (a : Acc) (data : Word), s.portFull a = false → s.verdict a 0x02408C true false false = .perform → ∃ t, exec (.trcArm a data) s = .next t ∧
      (bitOf data.toNat 0 = true → s.trace.running = false → t.trace.blocks = [] ∧ t.trace.stopped = false ∧ t.trace.summary = false)) ∧
    (∀ (a : Acc) (data : Word), s.portFull a = false → s.verdict a 0x02409C true false false = .perform →
      exec (.trcTrigSw a data) s = .next ((if bitOf data.toNat 0 = true then s.trcTrigger (2 ^ 16) else s).respond a true 0 false)) ∧
    (∀ n, n < 22 → (s.trace.running = false ∨ bitOf (s.rd R.TRC_TRIG_EN) n = false → s.trcTrigger (2 ^ n) = s) ∧
      (s.trace.running = true → bitOf (s.rd R.TRC_TRIG_EN) n = true → (s.trcTrigger (2 ^ n)).trace.trigNum = s.trace.trigNum + 1)) ∧
    (∀ (a : Acc) (data : Word), s.portFull a = false → s.verdict a 0x024100 true false false = .perform →
      exec (.trcTokBegin a data) s = .next ((s.tokCtrl data.toNat).respond a true 0 false) ∧
      exec (.trcTokEnd a data) s = .next ((s.tokCtrl data.toNat).respond a true 0 false) ∧
      exec (.trcTokAbort a data) s = .next ((s.tokCtrl data.toNat).respond a true 0 false)) ∧
    (s.trace.load = none → s.trace.verify = none → (s.tokCtrl 1).trace = { s.trace with load := some [] }) ∧
    (∀ l, s.trace.load = some l → (s.tokCtrl 2).trace = { s.trace with load := none, verify := some l }) ∧
    (s.tokCtrl 4).trace = { s.trace with load := none, verify := none } ∧
    (∀ (a : Acc) (data : Word) l, s.trace.load = some l → s.portFull a = false → s.verdict a 0x024104 true false false = .perform → ∃ t, exec (.trcTokData a data) s = .next t ∧
      (l.length ≤ 160 → t.trace.load = some (l ++ leBytes 4 data.toNat))) ∧
    (s.trace.verify = none → exec .tokenVerifyDone s = .next s) ∧
    (∀ l, s.trace.verify = some l →
      (s.tokReason l ≠ 0 → ∃ t, exec .tokenVerifyDone s = .next t ∧ t.trace = { s.trace with verify := none, reason := s.tokReason l }) ∧
      (s.tokReason l = 0 → ∃ t, exec .tokenVerifyDone s = .next t ∧ t.trace.verify = none ∧
        ∃ p ∈ t.trace.tokens, p.2.id = leAt l 12 4 ∧ p.2.cls = leAt l 7 1 ∧ p.2.notBefore = leAt l 16 10 ∧ p.2.notAfter = leAt l 26 10)) ∧
    (∀ (a : Acc) (data : Word), s.portFull a = false → s.verdict a 0x02410C true false false = .perform → ∃ t, exec (.trcTokRevoke a data) s = .next t ∧
      (∀ p, s.trace.tokens.find? (fun q => q.2.id == data.toNat) = some p → ∀ q ∈ t.trace.tokens, q.1 ≠ p.1) ∧
      (s.trace.tokens.find? (fun q => q.2.id == data.toNat) = none → t.trace = s.trace)) ∧
    (∀ e, e < 8 → s.trace.tokens.find? (fun q => q.1 == e) = none → exec (.tokenWindowOpen e) s = .next s ∧ exec (.tokenWindowExpiry e) s = .next s) ∧
    (∀ e p, e < 8 → s.trace.tokens.find? (fun q => q.1 == e) = some p →
      (p.2.notAfter ≤ s.now → exec (.tokenWindowOpen e) s = .next s) ∧
      (s.qcode ≤ 1 → p.2.notBefore ≤ s.now → s.now < p.2.notAfter → ∃ t, exec (.tokenWindowOpen e) s = .next t ∧ ∃ q ∈ t.trace.tokens, q.1 = e ∧ q.2.st = 1) ∧
      (s.now < p.2.notAfter → exec (.tokenWindowExpiry e) s = .next s) ∧
      (p.2.notAfter ≤ s.now → ∃ t, exec (.tokenWindowExpiry e) s = .next t ∧ ∀ q ∈ t.trace.tokens, q.1 ≠ e)) ∧
    (s.trace.current = none → exec .traceBlockAgeExpiry s = .next s) ∧
    (∀ b, s.trace.current = some b → exec .traceBlockAgeExpiry s =
      .next (if fld (s.rd R.TRC_CTRL) 15 8 ≠ 0 ∧ s.after b.openAt (10 * fld (s.rd R.TRC_CTRL) 15 8) = true ∧ b.data ≠ [] then s.trcClose else s)) ∧
    s.trcClose.trace.current = none ∧
    (s.trace.running = true → s.trace.plaram = true → s.after s.trace.syncAt 128000000 = true →
      exec .plaramPsyncTimeout s = .next { s with trace := { s.trace with psyncDue := true } }) ∧
    (s.trace.running = false ∨ s.trace.plaram = false ∨ s.after s.trace.syncAt 128000000 = false → exec .plaramPsyncTimeout s = .next s) ∧
    (s.build = .h → (s.trace.agg = [] → exec .aggregationStoreAdmit s = .next s) ∧
      ∀ w rest, s.trace.agg = w :: rest → (s.aggRoom w.r = false → exec .aggregationStoreAdmit s = .next s) ∧
        (s.aggRoom w.r = true → ∃ t, exec .aggregationStoreAdmit s = .next t ∧ t.trace.agg.map (fun x => x.r) = rest.map (fun x => x.r))) ∧
    (hasTaps s.build = true → ∀ cls priv ctx data lost, exec (.traceItem cls priv ctx data lost) s =
      .next (s.tapItem (.trace cls priv ctx data) ((lost.take 5).zipIdx.map (fun p => (1 + p.2, p.1))))) ∧
    (∀ cls priv ctx data,
      (5 ≤ cls → (s.itemLand (.trace cls priv ctx data)).trace = s.trace) ∧
      (cls < 5 → s.traceDom = 0 → s.trace.running = false → s.itemLand (.trace cls priv ctx data) = s) ∧
      (cls < 5 → s.traceDom = 0 → s.trace.running = true → priv % 4 ≠ 0 →
        (∀ p ∈ s.trace.tokens, p.2.covers { cls := cls, priv := priv % 4, ctx := ctx % 256, data := data % 2 ^ 64 } = false) →
        (s.itemLand (.trace cls priv ctx data)).trace = { s.trace with excl := some (s.trace.excl.getD s.now) }) ∧
      (cls < 5 → s.traceDom ≠ 0 → bitOf (s.rd R.TRC_CTRL) 0 = false → s.itemLand (.trace cls priv ctx data) = s) ∧
      (cls < 5 → s.traceDom = 3 → bitOf (s.rd R.TRC_CTRL) 0 = true → (s.itemLand (.trace cls priv ctx data)).trace =
        { s.trace with offCounts := modNth s.trace.offCounts cls (fun n => satAdd 32 n 1) })) ∧
    (hasTaps s.build = true → ∀ bad,
      (s.trcDrains = false ∨ s.inRun 4 = false ∨ s.drainNext = none → exec (.traceDrainBlock bad) s = .next s) ∧
      (∀ b, s.trcDrains = true → s.inRun 4 = true → s.drainNext = some b →
        (bad ≠ [] → ∃ t, exec (.traceDrainBlock bad) s = .next t) ∧
        (bad = [] → s.build ≠ .h ∨ (s.trace.agg = [] ∧ s.aggFill + b.data.length + 40 ≤ s.aggCap) →
          (s.grant 5 (s.costTrace (b.data.length + 40)) = none → exec (.traceDrainBlock bad) s = .next s) ∧
          (∀ g, s.grant 5 (s.costTrace (b.data.length + 40)) = some g → exec (.traceDrainBlock bad) s = .next (g.drainBlock b) ∧
            (s.trace.summary = false → ∀ x ∈ (g.drainBlock b).trace.blocks, x.seq = b.seq → x.drained = true))))) ∧
    (∀ (a : Acc) (data : Word), s.portFull a = false → s.verdict a 0x0250E0 true false false = .perform → ∃ t, exec (.tbWinRelease a data) s = .next t ∧
      (s.trace.summary = false → ∀ w, w < 4 → bitOf data.toNat w = true → t.trace.wins.getD w none = none))

/-- O52, tier 2. A confirmed edge stands in both latches. Every node of a cycle is the waiter of an edge that leads on, and the cycle
starts at its lowest node. A merge keeps at most 65,536 edges and 65,536 nodes and counts every edge beyond. A landed wait state replaces
that of its engine alone and adds its readings to its count. The watch, once enabled, makes the unit a suspect only after its time with
something waiting and no progress. A request is admitted as a record; each latch waits for its time, the first keeping the code of then;
an assembly starts only when due, its time over 20 us ahead, and ends with the graph; a merge closes with all answers or in time. Without
power nothing of these is sent. -/
def Obligations.WaitGraphsAreConfirmedAndBounded : Prop :=
  (∀ (a : PkgAsm) x, x ∈ a.edges.1 → x ∈ a.ents1 ∧ x.edge = true ∧ ∃ y ∈ a.ents2, x.same y = true) ∧
  (∀ es c, c ∈ cyclesOfEdges es → ∃ e ∈ es, c.head? = some e.node ∧ (∀ n ∈ c, e.node ≤ n) ∧ ∀ n ∈ c, ∃ x ∈ es, x.node = n ∧ x.next.isSome = true) ∧
  (∀ es, (mergeLimit es).1.length ≤ 65536 ∧ (mergeLimit es).2.1 ≤ 65536 ∧ (mergeLimit es).1.length + (mergeLimit es).2.2 = es.length) ∧
  ∀ s : State, s.Inv →
    (hasTaps s.build = true → ∀ e k tg n, exec (.waitStateBeat e k ⟨tg, n⟩) s = .next (s.tapItem (.waitState e k tg (min (max n 1) 65535)) [])) ∧
    (∀ e k tg n, (32 ≤ e → s.itemLand (.waitState e k tg n) = s.bumpSat R.HANG_MALFORMED) ∧
      (e < 32 → ∃ t, s.itemLand (.waitState e k tg n) = t ∧
        t.hang.ws.find? (fun x => x.engine == e) = some { die := s.srcId, engine := e, kind := k % 4, target := w32 tg, stamp := s.stamp } ∧
        (∀ x : WsEnt, x.engine ≠ e → (x ∈ t.hang.ws ↔ x ∈ s.hang.ws)) ∧
        (t.hang.wsCounts.find? (fun x => x.1 == e)).map (fun x => x.2.1) =
          some (w32 (((s.hang.wsCounts.find? (fun x => x.1 == e)).map (fun x => x.2.1)).getD 0 + n)))) ∧
    (hasTaps s.build = true → bitOf (s.rd R.HANG_CTRL) 0 = false →
      exec .hangWatchCheck s = .next { s with hang := { s.hang with prog := [], progAt := s.time.cycles, suspect := false } }) ∧
    (hasTaps s.build = true → bitOf (s.rd R.HANG_CTRL) 0 = true → s.progNow ≠ [] → fld (s.rd R.HANG_TIMEOUT) 23 0 ≠ 0 →
      (s.progNow ≠ s.hang.prog →
        exec .hangWatchCheck s = .next { s with hang := { s.hang with prog := s.progNow, progAt := s.time.cycles, suspect := false } }) ∧
      (s.progNow = s.hang.prog → s.hang.suspect = true ∨ s.waiting = [] ∨ s.after s.hang.progAt (fld (s.rd R.HANG_TIMEOUT) 23 0) = false →
        exec .hangWatchCheck s = .next s) ∧
      (s.progNow = s.hang.prog → s.hang.suspect = false → s.waiting ≠ [] → s.after s.hang.progAt (fld (s.rd R.HANG_TIMEOUT) 23 0) = true →
        ∃ t, exec .hangWatchCheck s = .next t ∧ t.hang.suspect = true ∧ t.hang.ws = s.hang.ws)) ∧
    (hasTaps s.build = true → ∀ p r, p < linkPorts s.build → (r.type ≠ 0x74 → exec (.snapshotRequestReceived p r) s = .next s) ∧
      (r.type = 0x74 → exec (.snapshotRequestReceived p r) s = .next
        (if (s.admitRec p r).1 = true then (s.admitRec p r).2.snapTake r else (s.admitRec p r).2))) ∧
    (hasTaps s.build = true → (s.hang.snap = none → exec .snapshotLatch s = .next s) ∧
      ∀ x, s.hang.snap = some x → (s.now < s.snapDue x → exec .snapshotLatch s = .next s) ∧
        (s.snapDue x ≤ s.now → ∃ t, exec .snapshotLatch s = .next t ∧ t.hang.snap = if x.second = true then none else some { x with second := true, code := s.qcode })) ∧
    (s.build = .h →
      (s.fw.st ≠ 1 ∨ s.fw.blackout ≠ none ∨ s.hang.asm ≠ none ∨ s.drover.emerg = 2 ∨ (s.hang.pendSuspect = false ∧ s.hang.pendTray = none) →
        exec .packageAssemblyStart s = .next s) ∧
      (s.fw.st = 1 → s.fw.blackout = none → s.hang.asm = none → s.drover.emerg ≠ 2 → s.hang.pendSuspect = true ∨ s.hang.pendTray ≠ none →
        ∃ t a, exec .packageAssemblyStart s = .next t ∧ t.hang.asm = some a ∧ s.now + usTime 20 < a.ts ∧ a.first = [] ∧ a.second = [] ∧
          t.hang.snap = some { num := a.num, ts := a.ts, code := 4, second := false } ∧ t.hang.pendSuspect = false ∧ t.hang.pendTray = none) ∧
      (s.hang.asm = none → exec .packageGraphSend s = .next s) ∧
      (∀ a, s.hang.asm = some a →
        (s.asmDue a = false ∨ s.grant 2 (s.costHang (a.ents1.length + a.ents2.length)) = none → exec .packageGraphSend s = .next s) ∧
        (∀ g, s.asmDue a = true → s.grant 2 (s.costHang (a.ents1.length + a.ents2.length)) = some g →
          ∃ t, exec .packageGraphSend s = .next t ∧ t.hang = { s.hang with asm := none }))) ∧
    (s.build = .t → (s.hang.merge = none → exec .trayMergeClose s = .next s) ∧
      ∀ m, s.hang.merge = some m →
        ((m.need ≠ [] ∧ s.after m.openedAt 5000 = false) ∨ s.grant 2 (s.costHang m.ents.length) = none → exec .trayMergeClose s = .next s) ∧
        (∀ g, m.need = [] ∨ s.after m.openedAt 5000 = true → s.grant 2 (s.costHang m.ents.length) = some g →
          ∃ t, exec .trayMergeClose s = .next t ∧ t.hang = { s.hang with merge := none }))

/-- O53, tier 2. A lane in use that loses its MARKERs retrains, and the third retrain within 10 s holds it down until it is released.
After the lock the neighbour is known and CREDIT_INIT covers every class. An uncorrectable codeword within the limit has REPLAY sent and
drops every partly received packet; a REPLAY takes every class to its quiescent point at once. A lane is degraded above DEG_CORR and no
longer below half of it. DOZE and WAKE set what is known of the far end. A CURSOR leaves no mirror copy of its context at or below it. A
take-over leaves no mirror copy, and publishes them. Members without a role, or without a lane, send no CURSOR. -/
def Obligations.LanesTrainReplayAndThePairSwitchesOver : Prop :=
  ∀ s : State, s.Inv →
    (s.build = .t → ∀ low, (s.core.peerLow = low → exec (.peerPresenceChange low) s = .next s) ∧
      (s.core.peerLow ≠ low → exec (.peerPresenceChange low) s =
        .next (State.irq { s with core := { s.core with peerLow := low } } 0x110 0).peerCheck)) ∧
    (s.build = .t → s.pub.lost = false → s.pairTake.pub.takeover = true ∧ s.pairTake.pub.lost = true ∧ ∀ x ∈ s.pairTake.pub.store, x.mirror = false) ∧
    (s.build = .t → (s.rolePair = false ∨ s.pairLanes = [] → exec .pairLaneSilenceTimeout s = .next s) ∧
      (∀ p ∈ [16, 17], (s.port p).up = true → (s.port p).farDoze = true ∨ s.after (s.port p).rxAt 30 = false → exec .pairLaneSilenceTimeout s = .next s) ∧
      (s.rolePair = true → s.pairLanes ≠ [] → (∀ p ∈ [16, 17], (s.port p).up = true →
        (s.port p).farDoze = false ∧ (s.port p).dozing = false ∧ s.after (s.port p).rxAt 30 = true) → ∃ t, exec .pairLaneSilenceTimeout s = .next t ∧
        (t.port 16).up = false ∧ (t.port 17).up = false)) ∧
    (s.build = .t → (s.pub.downAt = none → exec .partnerLostTimeout s = .next s) ∧
      (∀ t0, s.pub.downAt = some t0 →
        (s.rolePair = false ∨ s.pairLanes ≠ [] ∨ (s.core.peerLow = true ∧ s.after t0 (fld (s.rd R.PAIR_LOST_WAIT) 15 0) = false) →
          exec .partnerLostTimeout s = .next s) ∧
        (s.rolePair = true → s.pairLanes = [] → s.core.peerLow = false ∨ s.after t0 (fld (s.rd R.PAIR_LOST_WAIT) 15 0) = true →
          exec .partnerLostTimeout s = .next s.pairTake))) ∧
    (s.build = .t → ∀ all, (s.rolePair = false ∨ s.pairLanes = [] → exec (.cursorSend all) s = .next s) ∧
      (s.rolePair = true → s.pairLanes ≠ [] → s.after (if all = true then s.pub.fullAt else s.pub.curAt) (if all = true then 10000 else 10) = true →
        ∃ t, exec (.cursorSend all) s = .next t ∧ t.pub.curAt = s.time.cycles ∧ ∀ x ∈ t.pub.ctxs, x.changed = false)) ∧
    (s.build = .t → ∀ l, (s.rolePair = false → exec (.cursorReceived l) s = .next s) ∧
      (s.rolePair = true → ∃ t, exec (.cursorReceived l) s = .next t ∧ t.pub.cursorAt = s.time.cycles)) ∧
    (s.build = .t → s.rolePair = true → ∀ e : CursorEntry, ∃ t, exec (.cursorReceived [e]) s = .next t ∧
      ∀ x ∈ t.pub.store, x.mirror = true → x.r.source = e.source → x.r.stream = e.stream → laterThan x.r.seq (w32 e.cursor) = true) ∧
    (∀ p, isLane s.build p = true →
      ((s.port p).training = true ∨ s.mayTrain p = false → exec (.laneTrainingStart p) s = .next s) ∧
      ((s.port p).training = false → s.mayTrain p = true → (s.port p).up = true → exec (.laneTrainingStart p) s = .next (s.laneRetrain p)) ∧
      ((s.port p).training = false → s.mayTrain p = true → (s.port p).up = false → ∃ t, exec (.laneTrainingStart p) s = .next t ∧
        (t.port p).training = true ∧ (t.port p).step = 2 ∧ (t.port p).up = false) ∧
      (2 ≤ (((s.linkDown p 1).port p).retrains.filter (fun x => decide ((s.linkDown p 1).time.cycles < x + cyclesOf 10000000))).length →
        ((s.laneRetrain p).port p).heldDown = true ∧ ((s.laneRetrain p).port p).training = false) ∧
      (∀ src, ((s.port p).training = false ∨ (s.port p).step ≠ 2 → exec (.codewordLock p src) s = .next s) ∧
        ((s.port p).training = true → (s.port p).step = 2 → ∃ t c, exec (.codewordLock p src) s = .next t ∧ (t.port p).neighbour = src % 2 ^ 24 ∧
          (t.port p).ctl = some c ∧ c.type = 0x13 ∧ c.bitmap = 255)) ∧
      ((s.port p).up = true ∨ (s.port p).training = true → exec (.markerLoss p) s = .next (s.laneRetrain p)) ∧
      ((s.port p).up = false → (s.port p).training = false → exec (.markerLoss p) s = .next s) ∧
      ((s.port p).up = false → exec (.fecUncorrectable p) s = .next s) ∧
      ((s.port p).up = true → ((s.port p).uncorrAt.filter (fun x => decide (s.time.cycles < x + cyclesOf 1000))).length + 1 ≤ fld (s.degCfg p) 31 24 →
        ∃ t c, exec (.fecUncorrectable p) s = .next t ∧ (t.port p).ctl = some c ∧ c.type = 0x15 ∧ c.bitmap = 255 ∧
          c.values = (s.port p).cls.map (fun x => x.lastPkt) ∧ ∀ x ∈ (t.port p).cls, x.asm = none) ∧
      (∀ l, ((s.port p).up = false ∨ l = [] → exec (.replayReceived p l) s = .next s) ∧
        ((s.port p).up = true → l ≠ [] → ∃ t, exec (.replayReceived p l) s = .next t ∧
          ∀ x ∈ (t.port p).cls, ∃ q, x.quiesce = some q ∧ q.why = .replay ∧ q.since = s.time.cycles ∧ q.left = 0)) ∧
      (∀ n c y, ((s.port p).up = false → exec (.laneDegradeCheck p n c y) s = .next s) ∧
        ((s.port p).up = true → ∃ t, exec (.laneDegradeCheck p n c y) s = .next t ∧ (t.port p).up = true ∧ (t.port p).degraded =
          (if fld (s.degCfg p) 23 0 < c then true else if 2 * c < fld (s.degCfg p) 23 0 then false else (s.port p).degraded))) ∧
      (∀ (a : Acc) (data : Word), portKind s.build p = 2 → s.portFull a = false →
        s.verdict a (laneCtrlAddr s.build p) true false false = .perform →
        exec (.heldDownRelease a p data) s = .next ((s.laneCtrl p data.toNat).respond a true 0 false) ∧
        exec (.forceRetrain a p data) s = .next ((s.laneCtrl p data.toNat).respond a true 0 false) ∧
        (bitOf data.toNat 0 = true → bitOf data.toNat 1 = false → ((s.laneCtrl p data.toNat).port p).heldDown = false)) ∧
      (∃ t, exec (.dozeReceived p) s = .next t ∧ (t.port p).farDoze = true ∧ (t.port p).wakeSeq = none) ∧
      (∃ t, exec (.wakeReceived p) s = .next t ∧ (t.port p).farDoze = false ∧ (t.port p).rxAt = s.time.cycles) ∧
      ((s.port p).wakeSeq = none → exec (.wakeSequenceDone p) s = .next s) ∧
      (∀ t0, (s.port p).wakeSeq = some t0 → (s.after t0 2 = false → exec (.wakeSequenceDone p) s = .next s) ∧
        (s.after t0 2 = true → exec (.wakeSequenceDone p) s =
          .next (State.unitOut (s.modPort p (fun q => { q with farDoze := false, wakeSeq := none })) p []))))

/-- O54, tier 2. The oldest record enters the store only when it fits, and its withheld credits are then released. A session that opens
takes a new ID and DSEQ 1; OPEN_OK with its ID opens it; a datagram of another ID is discarded and counted. An ACK moves the cumulative
point only forward and never past what was sent. A session never has more unacknowledged datagrams than its window, unless it had them
before. RTO doubles up to 12.8 ms; a dead session, and one closed by the far end, open anew. A pause holds for a priority with PFC. A
solicitation of the own address and an echo request are answered by a frame whose DSCP follows its priority. -/
def Obligations.PublicationHoldsRecordsUntilTheyAreAcknowledged : Prop :=
  (∀ (s : State) e, e < 8 → s.pub.sess.length = 8 →
    (((s.pump e).sess e).out.length ≤ max (s.sess e).out.length s.pubWindow ∧ ((s.pump e).sess e).st = (s.sess e).st ∧ ((s.pump e).sess e).ack = (s.sess e).ack) ∧
    (((s.openSession e).sess e).st = 1 ∧ ((s.openSession e).sess e).id = w32 (s.pub.sessions + 1) ∧ ((s.openSession e).sess e).next = 1 ∧
      ((s.openSession e).sess e).out = [] ∧ ∀ k, k ≠ e → (s.openSession e).sess k = s.sess k)) ∧
  ∀ s : State, s.Inv → s.build = .t →
    (s.link.pubQ = [] → exec .publicationStoreAdmit s = .next s) ∧
    (∀ i rest, s.link.pubQ = i :: rest →
      (s.capOf 5 4 storeMax < s.storeUsed + recSize i.r → exec .publicationStoreAdmit s = .next s.storeFull ∧ s.storeFull.pub.store = s.pub.store ∧
        s.storeFull.link = s.link) ∧
      (s.storeUsed + recSize i.r ≤ s.capOf 5 4 storeMax → ∃ t, exec .publicationStoreAdmit s = .next t ∧
        ∀ o ∈ t.pub.owed, o.1 ≠ i.uid)) ∧
    (∀ p up, p < 2 → (s.pub.ethUp.getD p false = up → exec (.ethLinkChange p up) s = .next s) ∧
      (s.pub.ethUp.getD p false ≠ up → ∃ t, exec (.ethLinkChange p up) s = .next t ∧ t.pub.ethUp = s.pub.ethUp.set p up)) ∧
    (∀ (a : Acc) (data : Word), s.portFull a = false → s.verdict a 0x111200 true false false = .perform →
      exec (.collectorEnable a data) s = .next ((s.colWrite data.toNat).respond a true 0 false)) ∧
    (∀ e, e < 8 →
      ((s.sess e).st = 1 → s.after (s.sess e).openAt 10000 = true → exec (.pubOpenRetry e) s = .next (s.sendOpen e)) ∧
      ((s.sess e).st ≠ 1 ∨ s.after (s.sess e).openAt 10000 = false → exec (.pubOpenRetry e) s = .next s) ∧
      (∀ id, (s.sess e).st = 0 ∨ id ≠ (s.sess e).id → exec (.openOk e id) s = .next (s.bumpSat R.ETH_RX_DISCARD (pg := (s.sess e).port))) ∧
      (s.pub.sess.length = 8 → (s.sess e).st = 1 → ∃ t, exec (.openOk e (s.sess e).id) s = .next t ∧ (t.sess e).st = 2 ∧ (t.sess e).id = (s.sess e).id) ∧
      ((s.sess e).st ≠ 0 → (s.sess e).st ≠ 1 → exec (.openOk e (s.sess e).id) s = .next s) ∧
      (∀ id n, (s.sess e).st ≠ 2 ∨ id ≠ (s.sess e).id → exec (.ack e id n) s = .next (s.bumpSat R.ETH_RX_DISCARD (pg := (s.sess e).port))) ∧
      (∀ n, (s.sess e).st = 2 → n ≤ (s.sess e).ack ∨ (s.sess e).next ≤ n → exec (.ack e (s.sess e).id n) s = .next s) ∧
      (∀ n, s.pub.sess.length = 8 → (s.sess e).st = 2 → (s.sess e).ack < n → n < (s.sess e).next → ∃ t, exec (.ack e (s.sess e).id n) s = .next t ∧
        (t.sess e).ack = n) ∧
      (∀ id, s.colPeer e = false → (s.sess e).st = 0 ∨ id ≠ (s.sess e).id → exec (.close e id) s =
        .next (s.bumpSat R.ETH_RX_DISCARD (pg := (s.sess e).port))) ∧
      (s.pub.sess.length = 8 → s.colOn e = true → (s.sess e).st ≠ 0 → ∃ t, exec (.close e (s.sess e).id) s = .next t ∧ (t.sess e).st = 1 ∧
        (t.sess e).id = w32 (s.pub.sessions + 1)) ∧
      ((s.sess e).st ≠ 2 ∨ (s.sess e).out = [] → exec (.pubRtoExpiry e) s = .next s ∧ exec (.pubSessionDead e) s = .next s) ∧
      ((s.sess e).st = 2 → (s.sess e).out ≠ [] →
        (s.after (s.sess e).rtoAt (s.sess e).rto = false → exec (.pubRtoExpiry e) s = .next s) ∧
        (s.pub.sess.length = 8 → s.after (s.sess e).rtoAt (s.sess e).rto = true → ∃ t, exec (.pubRtoExpiry e) s = .next t ∧
          (t.sess e).rto = max (s.sess e).rto (min 12800 (2 * (s.sess e).rto)) ∧ (t.sess e).out = (s.sess e).out) ∧
        (s.after (s.sess e).advAt (1000 * s.pubDead) = false → exec (.pubSessionDead e) s = .next s) ∧
        (s.pub.sess.length = 8 → s.after (s.sess e).advAt (1000 * s.pubDead) = true → ∃ t, exec (.pubSessionDead e) s = .next t ∧
          (t.sess e).st = 1 ∧ (t.sess e).id = w32 (s.pub.sessions + 1))) ∧
      (∀ id src, s.colOn e = true → s.colPeer e = true → fld (s.rd R.COL_PEER_ID 0 0 0 e) 23 0 = src % 2 ^ 24 → ∃ t, exec (.openDgram e id src) s = .next t ∧
        ∃ o, t.pub.sent = some o ∧ o.kind = 4 ∧ o.port = (s.sess e).port ∧ o.entry = e ∧ o.payload = pubHdr 4 8 0 s.srcId id 0 0) ∧
      (∀ id src, s.colOn e = false ∨ s.colPeer e = false ∨ fld (s.rd R.COL_PEER_ID 0 0 0 e) 23 0 ≠ src % 2 ^ 24 → exec (.openDgram e id src) s =
        .next (s.bumpSat R.ETH_RX_DISCARD (pg := (s.sess e).port)))) ∧
    (∀ p k, p < 2 → k < 8 →
      (∀ on, bitOf (s.rd R.ETH_PFC (pg := p)) k = false → exec (.pfcPauseReceived p k on) s = .next s) ∧
      (bitOf (s.rd R.ETH_PFC (pg := p)) k = true → p < s.link.paused.length → ∀ on, ∃ t, exec (.pfcPauseReceived p k on) s = .next t ∧
        (t.link.paused.getD p []).contains k = on)) ∧
    (∀ p (m : NdMsg), p < 2 →
      (m.solicitation = true → s.ethAddr p ≠ 0 → m.target = s.ethAddr p → exec (.neighborDiscoveryMessage p m) s = .next (s.sendFrame 8 p 0 none
        (leBytes 16 (s.ethAddr p) ++ leBytes 6 (s.rd R.ETH_MAC_LO (pg := p) + s.rd R.ETH_MAC_HI (pg := p) * 2 ^ 32)))) ∧
      (m.solicitation = true → s.ethAddr p = 0 ∨ m.target ≠ s.ethAddr p → exec (.neighborDiscoveryMessage p m) s = .next s) ∧
      (m.solicitation = false → s.ethAddr p ≠ 0 → m.target = s.ethAddr p → m.mac ≠ s.rd R.ETH_MAC_LO (pg := p) + s.rd R.ETH_MAC_HI (pg := p) * 2 ^ 32 →
        exec (.neighborDiscoveryMessage p m) s = .next { s with pub := { s.pub with dadFail := s.pub.dadFail.set p true } }) ∧
      (m.solicitation = false → s.ethAddr p = 0 ∨ m.target ≠ s.ethAddr p → ∃ t, exec (.neighborDiscoveryMessage p m) s = .next t ∧
        (p, m.target, m.mac) ∈ t.pub.nbrs)) ∧
    (∀ p body, p < 2 →
      exec (.icmpv6Echo p true body) s = .next (s.sendFrame 9 p 0 none body) ∧
      exec (.icmpv6Echo p false body) s = .next (s.bumpSat R.ETH_RX_DISCARD (pg := p))) ∧
    (∀ k p e tc pl, ∃ o, s.sendFrame k p e tc pl = { s with pub := { s.pub with sent := some o } } ∧ o.kind = k ∧ o.port = p ∧ o.entry = e ∧
      o.payload = pl ∧ o.dscp = 8 * o.pcp ∧ (o.vlan.isSome = bitOf (s.rd R.ETH_CTRL (pg := p)) 1))

/-- O55, tier 2. A completed command writes RESULT, frees its slot and ends there. A submitted slot is dirty and owned. A tick of firmware
with no dirty slot only notes its time; a taken slot with a zero length, an unknown opcode or a wrong length completes with that status. A
command of no running slot has no effect. PLAN_LOAD, IMG_STAGE, IMG_COMMIT, IMG_ACTIVATE, BULK_SEND, SIGNED_REQ and ABORT end with the
stated results; staged bytes read back, a committed region is STAGED, and an activation makes its region TRIAL under a blackout, or is
deferred in Emergency. The ROM starts only an image that verifies, else recovery. A written word of the data store reads back. A trial is
confirmed after 60 s. Heartbeats end unattended mode, their lack begins it. A flash copy heads the ring. -/
def Obligations.FirmwareServesSlotsImagesAndHeartbeats : Prop :=
  ∀ s : State, s.Inv →
    (∀ k st d, k < 64 → st < 256 → (s.cmdDone k st d).rd R.CMD_RESULT k = st + d % 2 ^ 24 * 256 ∧ (s.cmdDone k st d).slotOwned k = false ∧
      (s.cmdDone k st d).fw = { s.fw with busy := s.fw.busy.filter (fun b => b.2 != k) }) ∧
    (∀ (a : Acc) k (data : Word), k < 64 → s.portFull a = false → s.verdict a (0x007200 + 0x30 * k) true (s.slotOwned k && a.cls == .host) false = .perform →
      exec (.commandSlotSubmit a k data) s = .next ((s.slotSubmit k data.toNat).respond a true 0 false) ∧
      (bitOf data.toNat 0 = true → (s.slotSubmit k data.toNat).dirty k = true ∧ (s.slotSubmit k data.toNat).slotOwned k = true)) ∧
    (∀ (a : Acc) (data : Word), s.portFull a = false → s.verdict a 0x0070B4 true false false = .perform →
      exec (.fwDataAccess a true data) s = .next ((s.dataWrite data.toNat).respond a true 0 false)) ∧
    (∀ (a : Acc) (data : Word), s.portFull a = false → s.verdict a 0x0070B4 false false false = .perform →
      exec (.fwDataAccess a false data) s = .next (s.dataRead.2.respond a false s.dataRead.1 false)) ∧
    (∀ v, v < 2 ^ 32 → s.rd R.FW_DATA_ADDR / 4 * 4 + 4 ≤ s.storeSize →
      ((s.dataWrite v).wr R.FW_DATA_ADDR (s.rd R.FW_DATA_ADDR)).dataRead.1 = v) ∧
    (∀ (a : Acc) (data : Word), s.portFull a = false → s.verdict a 0x0070A0 true false false = .perform → ∃ t, exec (.fwHeartbeat a data) s = .next t ∧
      t.core.unattended = false ∧ t.fw.hbAt = s.now ∧ t.fw.hbSeen = true) ∧
    (∀ (a : Acc) (data : Word), s.portFull a = false → s.verdict a 0x0070E4 true false false = .perform → ∃ t, exec (.fwUaAck a data) s = .next t ∧
      (bitOf data.toNat 0 = true → t.rd R.FW_UA_INTERVALS = 0 ∧ t.rd R.FW_UA_ALARMS = 0 ∧ t.rd R.FW_UA_REFUSED = 0 ∧ t.rd R.FW_UA_TRACE_SKIP = 0)) ∧
    (s.build = .l → ∀ r, (r.type = 0x81 → r.payload ≠ [] → exec (.modeNoticeReceived r) s =
        .next { s with core := { s.core with unattended := bitOf (leAt r.payload 0 1) 0 } }) ∧
      (r.type ≠ 0x81 ∨ r.payload = [] → exec (.modeNoticeReceived r) s = .next s)) ∧
    (s.build = .t → (s.fwServes = false ∨ s.ev.flashQ = [] → exec .eventFlashCopy s = .next s) ∧
      ∀ e rest, s.fwServes = true → s.ev.flashQ = e :: rest → ∃ t, exec .eventFlashCopy s = .next t ∧ t.ev.ring.head? = some e) ∧
    (s.build ≠ .l →
      (s.fwTicks = false → exec .firmwareTick s = .next s) ∧
      (s.fwTicks = true → s.fw.bulk = [] → s.fw.defer = none → (∀ k < 64, s.dirty k = false) →
        exec .firmwareTick s = .next { s with fw := { s.fw with tickAt := s.time.cycles } }) ∧
      (s.fwTicks = true → ∃ t, exec .firmwareTick s = .next t ∧ ∀ k < 64, t.dirty k = false) ∧
      (∀ k u, k < 64 → s.fw.st = 1 → u = (s.setDirty k false).wr R.CMD_RESULT 0 k →
        (fld (s.rd R.CMD_CTRL k) 31 16 = 0 → s.cmdTake k = u.cmdDone k 1 0) ∧
        (fld (s.rd R.CMD_CTRL k) 31 16 ≠ 0 → opLen (fld (s.rd R.CMD_CTRL k) 15 8) = none → s.cmdTake k = u.cmdDone k 2 0) ∧
        (∀ n, fld (s.rd R.CMD_CTRL k) 31 16 ≠ 0 → opLen (fld (s.rd R.CMD_CTRL k) 15 8) = some n → fld (s.rd R.CMD_CTRL k) 31 16 ≠ n →
          s.cmdTake k = u.cmdDone k 3 0)) ∧
      (∀ k, k < 64 → ∀ p ∈ [(1, Instr.planLoad k), (2, Instr.imgStage k), (3, Instr.imgCommit k), (4, Instr.imgActivate k), (5, Instr.bulkSend k),
          (6, Instr.signedReq k), (7, Instr.abortCmd k)],
        s.fwTicks = false ∨ s.fw.busy.contains (p.1, k) = false → exec p.2 s = .next s) ∧
      (∀ k, k < 64 → s.fwTicks = true →
        (s.fw.busy.contains (1, k) = true →
          (∀ i, s.badRange k = some i → exec (.planLoad k) s = .next (s.cmdDone k 4 i)) ∧
          (s.badRange k = none → parsePlan s.build s.srcId (s.cmdData k) = none → exec (.planLoad k) s = .next (s.cmdDone k 4 1)) ∧
          (∀ p, s.badRange k = none → parsePlan s.build s.srcId (s.cmdData k) = some p → exec (.planLoad k) s = .next
            (if (s.takePlan p).1 = 0 then (s.takePlan p).2.cmdDone k 1 0 else (s.takePlan p).2.cmdDone k 6 (s.takePlan p).1))) ∧
        (s.fw.busy.contains (2, k) = true →
          (∀ i, s.badRange k = some i → exec (.imgStage k) s = .next (s.cmdDone k 4 i)) ∧
          (s.badRange k = none → imageMax < s.cmdArg k 2 + s.cmdArg k 1 → exec (.imgStage k) s = .next (s.cmdDone k 4 2)) ∧
          (s.badRange k = none → s.cmdArg k 2 + s.cmdArg k 1 ≤ imageMax → 2 ≤ s.fw.regions.length → ∃ t, exec (.imgStage k) s = .next t ∧
            (t.region s.stageRegion).st = 0 ∧ (t.region s.stageRegion).bytesAt (s.cmdArg k 2) (s.cmdArg k 1) = s.cmdData k)) ∧
        (s.fw.busy.contains (3, k) = true →
          (s.verifyImage (s.region s.stageRegion) ≠ 0 → exec (.imgCommit k) s = .next (s.cmdDone k 6 (s.verifyImage (s.region s.stageRegion)))) ∧
          (s.verifyImage (s.region s.stageRegion) = 0 → (s.region s.stageRegion).field 8 4 ≠ s.cmdArg k 0 →
            exec (.imgCommit k) s = .next (s.cmdDone k 6 6)) ∧
          (s.verifyImage (s.region s.stageRegion) = 0 → (s.region s.stageRegion).field 8 4 = s.cmdArg k 0 → 2 ≤ s.fw.regions.length →
            ∃ t, exec (.imgCommit k) s = .next t ∧ (t.region s.stageRegion).st = 1 ∧ (t.region s.stageRegion).mem = (s.region s.stageRegion).mem)) ∧
        (s.fw.busy.contains (4, k) = true →
          (s.fw.defer ≠ none → exec (.imgActivate k) s = .next s) ∧
          (s.fw.defer = none → s.stagedOf (s.cmdArg k 0) = none → exec (.imgActivate k) s = .next (s.cmdDone k 6 6)) ∧
          (∀ i, s.fw.defer = none → s.stagedOf (s.cmdArg k 0) = some i →
            (s.drover.emerg ≠ 2 → exec (.imgActivate k) s = .next (s.actStart i)) ∧
            (s.drover.emerg = 2 → ∃ t, exec (.imgActivate k) s = .next t ∧ t.fw = { s.fw with defer := some s.time.cycles }))) ∧
        (s.fw.busy.contains (5, k) = true →
          (s.fw.bulk ≠ [] → exec (.bulkSend k) s = .next s) ∧
          (∀ i, s.fw.bulk = [] → s.badRange k = some i → exec (.bulkSend k) s = .next (s.cmdDone k 4 i)) ∧
          (s.fw.bulk = [] → s.badRange k = none → s.cmdArg k 2 % 256 ≠ 0x50 → s.cmdArg k 2 % 256 ≠ 0x51 →
            exec (.bulkSend k) s = .next (s.cmdDone k 4 2)) ∧
          (s.fw.bulk = [] → exec (.bulkSend k) s = .next (s.bulkSend k))) ∧
        (s.fw.busy.contains (6, k) = true →
          (s.auth.queue.any (fun c => c.asker == k) = true → exec (.signedReq k) s = .next s) ∧
          (∀ i, s.auth.queue.any (fun c => c.asker == k) = false → s.badRange k = some i → exec (.signedReq k) s = .next (s.cmdDone k 4 i)) ∧
          (s.auth.queue.any (fun c => c.asker == k) = false → s.badRange k = none → s.build = .t →
            exec (.signedReq k) s = .next (s.signedIn (s.cmdData k) k))) ∧
        (s.fw.busy.contains (7, k) = true →
          (s.fw.busy.contains (4, s.cmdArg k 0) = false → s.fw.busy.contains (5, s.cmdArg k 0) = true → exec (.abortCmd k) s =
            .next ((State.cmdDone { s with fw := { s.fw with bulk := [] } } (s.cmdArg k 0) 8 0).cmdDone k 1 0)) ∧
          (s.fw.busy.contains (4, s.cmdArg k 0) = true → s.fw.defer ≠ none → exec (.abortCmd k) s =
            .next ((State.cmdDone { s with fw := { s.fw with defer := none } } (s.cmdArg k 0) 8 0).cmdDone k 1 0)) ∧
          (s.fw.busy.contains (4, s.cmdArg k 0) = false → s.fw.busy.contains (5, s.cmdArg k 0) = false →
            exec (.abortCmd k) s = .next (s.cmdDone k 4 0)))) ∧
      (∀ i, i < s.fw.regions.length → (s.actStart i).fw.blackout = some s.time.cycles ∧ (s.actStart i).fw.region = i ∧ (s.actStart i).fw.defer = none ∧
        ((s.actStart i).region i).st = 5 ∧ ((s.actStart i).region i).attempt = 1) ∧
      (s.fw.defer = none → exec .activationResume s = .next s ∧ exec .activationAbandonTimeout s = .next s) ∧
      (∀ t0 k, s.fw.defer = some t0 → s.slotOf 4 = some k →
        (s.drover.emerg ≠ 0 ∨ s.fwTicks = false ∨ s.after s.drover.clearAt 1000000 = false → exec .activationResume s = .next s) ∧
        (∀ i, s.drover.emerg = 0 → s.fwTicks = true → s.after s.drover.clearAt 1000000 = true → s.stagedOf (s.cmdArg k 0) = some i →
          exec .activationResume s = .next (s.actStart i)) ∧
        (s.after t0 60000000 = false → exec .activationAbandonTimeout s = .next s) ∧
        (s.after t0 60000000 = true → ∃ t, exec .activationAbandonTimeout s = .next t ∧ t.fw.defer = none)) ∧
      (s.fw.blackout = none → exec .activationBlackoutEnd s = .next s) ∧
      (s.fw.blackout ≠ none → ∃ t, exec .activationBlackoutEnd s = .next t ∧ t.fw.blackout = none ∧ t.fw.st = 1 ∧ t.fw.held = []) ∧
      (s.fw.st ≠ 1 ∨ s.fw.blackout ≠ none ∨ (s.region s.fw.region).st ≠ 5 ∨ s.after s.fw.startAt 60000000 = false → exec .trialConfirm s = .next s) ∧
      (s.fw.st = 1 → s.fw.blackout = none → s.fw.region < 2 → 2 ≤ s.fw.regions.length → (s.region s.fw.region).st = 5 →
        s.after s.fw.startAt 60000000 = true → ∃ t, exec .trialConfirm s = .next t ∧ (t.region s.fw.region).st = 2) ∧
      (s.fw.st ≠ 1 ∨ s.fw.blackout ≠ none ∨ s.inRun 5 = false ∨ s.after s.fw.tickAt 100000 = false → exec .managementWatchdogExpiry s = .next s) ∧
      (s.fw.st = 1 → s.fw.blackout = none → s.inRun 5 = true → s.after s.fw.tickAt 100000 = true →
        ∃ t, exec .managementWatchdogExpiry s = .next t ∧ t.fw = { s.fw with st := 0, defer := none }) ∧
      (s.fw.st ≠ 0 ∨ s.inRun 5 = false ∨ s.core.por = true ∨ s.core.warm = true → exec .romBoot s = .next s) ∧
      (s.fw.st = 0 → s.inRun 5 = true → s.core.por = false → s.core.warm = false → 4 ≤ s.fw.regions.length → ∃ t, exec .romBoot s = .next t ∧
        (t.fw.st = 2 ∨ (t.fw.st = 1 ∧ t.verifyImage (t.region t.fw.region) = 0))) ∧
      (s.fw.hbLate = true ∨ s.now < s.fw.hbAt + usTime 100000 → exec .heartbeatLate s = .next s) ∧
      (s.fw.hbLate = false → s.fw.hbAt + usTime 100000 ≤ s.now → ∃ t, exec .heartbeatLate s = .next t ∧ t.fw = { s.fw with hbLate := true }) ∧
      (s.core.unattended = true ∨ s.now < s.fw.hbAt + usTime 1000000 → exec .unattendedEntry s = .next s) ∧
      (s.core.unattended = false → s.fw.hbAt + usTime 1000000 ≤ s.now → ∃ t, exec .unattendedEntry s = .next t ∧ t.core.unattended = true ∧
        t.fw.uaAt = s.now))

/-- O56, tier 2. A request has no refusal reason only with a good signature, the serial of this die, its change count and no Emergency; a
refused one changes no fuse and queues nothing, one that is accepted while the writer is at rest is at work. A change that the writer
holds is programmed, counted and logged, or leaves the fuses. A self-test that ends leaves its domain tested; a failing AON keeps the unit
in reset, and a failure of no item makes it FATAL. A floor raise that names the present floor changes nothing; the rise applies after its
commit, and no token that it forbids stays. A failed row takes the first spare of its group, or its bank fails; the corrected limit acts
only when it is enabled. A bank that was marked retires. A patrol that is due counts what it corrected and takes each uncorrectable word
it met: one of an optional counter restarts that at 0, one of a feature history ends that history, one of pattern staging marks its place,
and one that Table 11-5 does not name does nothing beyond its event. The remap record grows by the oldest remap that waits, unless it is
full or the write fails. An operating hour counts up to the top and no further, and not in power-on reset. -/
def Obligations.AuthorityRepairAndHoursAreLaidDown : Prop :=
  (∀ (s : State) l, s.reqReason l = 0 → reqFormat l = false ∧ leAt l 8 8 = s.serial ∧ leAt l 16 2 = s.auth.otp.changes ∧ s.drover.emerg ≠ 2 ∧
    (leAt l 4 1 = 2 → badIdentity s.build (leAt l 20 4) = false) ∧
    ((leAt l 4 1 = 1 ∧ s.auth.otp.fa = none ∧ ecdsaOk ((l.drop 32).take 96) (l.take 128) (l.drop 128) = true) ∨
      ∃ k, leAt l 4 1 ≠ 1 ∧ s.auth.otp.fa = some k ∧ ecdsaOk k (l.take 128) (l.drop 128) = true)) ∧
  ∀ s : State, s.Inv →
    (∀ l, s.reqReason l ≠ 0 → ∃ t, exec (.signedRequestReceived l) s = .next t ∧ t.auth = s.auth) ∧
    (∀ l, s.reqReason l = 0 → s.auth.queue = [] → s.auth.busy = false → ∃ t c, exec (.signedRequestReceived l) s = .next t ∧ t.auth.otp = s.auth.otp ∧
      t.auth.busy = true ∧ t.auth.queue = [c] ∧ c.signed = true ∧ c.kind = leAt l 4 1 ∧ c.value = leAt l 20 4 ∧ c.key = (l.drop 32).take 96) ∧
    (∀ l, s.reqReason l = 0 → s.auth.busy = true → ∃ t c, exec (.signedRequestReceived l) s = .next t ∧
      t.auth = { s.auth with queue := s.auth.queue ++ [c] } ∧ c.signed = true) ∧
    (∀ ok, (s.auth.queue = [] ∨ (s.auth.busy = false ∧ s.drover.emerg = 2 ∧ ∀ c ∈ s.auth.queue, c.signed = false) →
        exec (.otpChangeCommit ok) s = .next s) ∧
      (∀ c rest, s.auth.busy = true → s.auth.queue = c :: rest → ∃ t, exec (.otpChangeCommit ok) s = .next t ∧
        (ok = true → t.auth.otp = (s.otpProgram c).auth.otp ∧ t.auth.otp.changes = s.auth.otp.changes + 1) ∧ (ok = false → t.auth.otp = s.auth.otp))) ∧
    (∀ pt d fails, (domains s.build).contains d = true → pt < 3 → ∀ x, s.dom d = some x →
      (x.testing = false ∨ pt ≠ (if x.st = 3 then 1 else if x.st = 2 then 2 else 0) → exec (.selfTestComplete pt d fails) s = .next s) ∧
      (x.testing = true → pt = (if x.st = 3 then 1 else if x.st = 2 then 2 else 0) →
        (d = 0 → fails ≠ [] → exec (.selfTestComplete pt d fails) s = .next { s with core := { s.core with por := true } }) ∧
        (d ≠ 0 ∨ fails = [] → ∃ t y, exec (.selfTestComplete pt d fails) s = .next t ∧ t.dom d = some y ∧ y.testing = false ∧
          (d = 0 → t.core.present = (s.build == .t)) ∧ ((∃ f ∈ fails, 3 ≤ f.1) → t.fatal = true)))) ∧
    (∀ (a : Acc) (data : Word), s.portFull a = false → s.verdict a 0x0010A4 true false (s.floorBad data.toNat) = .perform →
      exec (.authFloorRaise a data) s = .next ((s.floorRaise data.toNat).respond a true 0 false) ∧
      (s.floorWaits = none → data.toNat % 8 = s.auth.otp.floor → s.floorRaise data.toNat = s)) ∧
    (∀ v, s.floorBad v = false → fld v 31 16 = 0xF100 ∧ s.auth.otp.floor ≤ v % 8) ∧
    (s.auth.otp.floor ≤ s.auth.floorNow → exec .floorRiseApply s = .next s) ∧
    (s.auth.floorNow < s.auth.otp.floor → ∃ t, exec .floorRiseApply s = .next t ∧ t.auth = { s.auth with floorNow := s.auth.otp.floor } ∧
      ∀ p ∈ t.trace.tokens, Token.forbidden p.2.priv s.auth.otp.floor = false) ∧
    (∀ n m, (s.after s.rep.patrolAt (1000 * fld (s.rd R.REP_SCRUB_PERIOD) 15 0) = false → exec (.patrolPeriod n m) s = .next s) ∧
      (s.after s.rep.patrolAt (1000 * fld (s.rd R.REP_SCRUB_PERIOD) 15 0) = true → exec (.patrolPeriod n m) s =
        .next (m.foldl (fun u w => u.patrolBad w)
          (({ s with rep := { s.rep with patrolAt := s.time.cycles } } : State).bumpSat R.REP_CORR n)))) ∧
    (∀ w k, w.at_ = .counter k → 64 ≤ k → k < 4096 → (s.patrolBad w).ctr k = 0 ∧ k ∈ (s.patrolBad w).samp.badCtrs) ∧
    (∀ w i, w.at_ = .history i → (s.patrolBad w).feat.hist = s.feat.hist.filter (fun p => p.1 != i)) ∧
    (∀ w q x, w.at_ = .pattern q → s.abft.places[q]? = some x → (s.patrolBad w).place q = { x with bad := true }) ∧
    (∀ w, w.at_ = .other → s.patrolBad w = s.badWord [w.kind, w.inst, w.bank, w.addr]) ∧
    (∀ kind inst bank row cause, 1 ≤ kind → kind ≤ 6 → cause < 3 →
      (cause = 2 → bitOf (s.rd R.REP_CTRL) 0 = false → exec (.rowRepair kind inst bank row cause) s = .next s) ∧
      (cause ≠ 2 ∨ bitOf (s.rd R.REP_CTRL) 0 = true →
        (∀ i, i < 4 → (∀ m ∈ s.groupOf kind inst bank row, m.row ≠ row ∧ m.spare ≠ i) → (∀ j < i, ∃ m ∈ s.groupOf kind inst bank row, m.spare = j) →
          ∃ t, exec (.rowRepair kind inst bank row cause) s = .next t ∧
            t.rep.remaps = s.rep.remaps ++ [{ kind := kind, inst := inst, bank := bank, row := row, spare := i }] ∧ t.rep.retired = s.rep.retired) ∧
        ((∃ m ∈ s.groupOf kind inst bank row, m.row = row) ∨ (∀ j < 4, ∃ m ∈ s.groupOf kind inst bank row, m.spare = j) →
          exec (.rowRepair kind inst bank row cause) s = .next (s.bankFail kind inst bank)))) ∧
    (∀ kind inst bank, (s.rep.marked.contains (kind, inst, bank) = false → exec (.bankRetire kind inst bank) s = .next s) ∧
      (s.rep.marked.contains (kind, inst, bank) = true → ∃ t, exec (.bankRetire kind inst bank) s = .next t ∧
        t.rep.retired = s.rep.retired ++ [(kind, inst, bank)] ∧ (kind, inst, bank) ∉ t.rep.marked)) ∧
    (s.build = .t → ∀ ok, (s.fwServes = false ∨ s.rep.toFlash = [] → exec (.remapRecordWrite ok) s = .next s) ∧
      (∀ m rest, s.fwServes = true → s.rep.toFlash = m :: rest → ∃ t, exec (.remapRecordWrite ok) s = .next t ∧
        t.rep = { s.rep with toFlash := rest, record := if s.rep.record.length < 4095 ∧ ok = true then s.rep.record ++ [m] else s.rep.record })) ∧
    (s.core.por = true → exec .operatingHoursAdvance s = .next s) ∧
    (s.core.por = false → exec .operatingHoursAdvance s = .next { s with ev := { s.ev with hours := min (s.ev.hours + 1) (2 ^ 32 - 1) } })

/-- O57, tier 2. A host write of DRV_CTRL with EN = 0, while the AON domain takes accesses and the port is not full, leaves EN 0. With EN
= 0 an item of any class and cost is granted in an unchanged state when the emergency state grants its class, and is not granted
otherwise. A tick refills the buckets whatever EN is: the levels after it are those of the same state with EN = 1, none above its burst,
and the bucket of W1 is at its burst after a tick whose reserve covers that burst. -/
def Obligations.TheDroverDisabledGrantsWithoutCharge : Prop :=
  (∀ (s : State) (a : Acc) (data : Word), s.Inv → a.cls = .host → s.portFull a = false → s.domVerdict 0 = .perform → bitOf data.toNat 0 = false →
    ∃ t, exec (.registerWrite a 0x005080 data) s = .next t ∧ bitOf (t.rd R.DRV_CTRL) 0 = false) ∧
  (∀ (s : State) c cost, bitOf (s.rd R.DRV_CTRL) 0 = false → s.grant c cost = if classGranted s.drover.emerg c = true then some s else none) ∧
  (∀ c, 1 ≤ c → c ≤ 6 → classGranted 0 c = true ∧ (classGranted 1 c = true ↔ c ≠ 4 ∧ c ≠ 6) ∧ (classGranted 2 c = true ↔ c = 1)) ∧
  (∀ (s : State) g v, s.Inv → v < 2 ^ 32 → ((s.wr R.DRV_CTRL v).refill g).drover.levels = (s.refill g).drover.levels) ∧
  (∀ (s : State) g c, c < 6 → (s.refill g).drover.levels.getD c 0 ≤ (fld (s.rd R.DRV_BURST c) 27 0 : Int) * nJ) ∧
  (∀ (s : State) g, fld (s.rd R.DRV_BURST 0) 27 0 ≤ min (10 * g) (fld (s.rd R.DRV_W1_RESERVE) 15 0) → 0 ≤ s.drover.levels.getD 0 0 →
    (s.refill g).drover.levels.getD 0 0 = (fld (s.rd R.DRV_BURST 0) 27 0 : Int) * nJ)

/-- O58, tier 2. While the AON domain takes accesses and the port is not full: a host write of DRV_SHARE0 or DRV_SHARE1 that would make
the six shares sum above 100 is the violation with reason 5, invalid-value, and both registers keep their values. One that leaves the sum
at most 100 is stored. So a share moves from one class to another: a write that lowers one class, when the sum was at most 100, is stored,
and the write that then raises another is stored as long as the sum stays at most 100. -/
def Obligations.SharesAboveOneHundredAreRefused : Prop :=
  ∀ (s : State) (a : Acc) (data : Word), s.Inv → a.cls = .host → s.portFull a = false → s.domVerdict 0 = .perform →
    (100 < shareSum data.toNat (s.rd R.DRV_SHARE1) → ∃ t, exec (.registerWrite a 0x005098 data) s = .next t ∧
      t = s.violated a 5 5 0x005098 true data.toNat ∧ t.rd R.DRV_SHARE0 = s.rd R.DRV_SHARE0 ∧ t.rd R.DRV_SHARE1 = s.rd R.DRV_SHARE1) ∧
    (100 < shareSum (s.rd R.DRV_SHARE0) data.toNat → ∃ t, exec (.registerWrite a 0x00509C data) s = .next t ∧
      t = s.violated a 5 5 0x00509C true data.toNat ∧ t.rd R.DRV_SHARE0 = s.rd R.DRV_SHARE0 ∧ t.rd R.DRV_SHARE1 = s.rd R.DRV_SHARE1) ∧
    (shareSum data.toNat (s.rd R.DRV_SHARE1) ≤ 100 → ∃ t, exec (.registerWrite a 0x005098 data) s = .next t ∧
      t.rd R.DRV_SHARE0 = data.toNat &&& 0x7F7F7F7F ∧ t.rd R.DRV_SHARE1 = s.rd R.DRV_SHARE1 ∧ t.domVerdict 0 = .perform) ∧
    (shareSum (s.rd R.DRV_SHARE0) data.toNat ≤ 100 → ∃ t, exec (.registerWrite a 0x00509C data) s = .next t ∧
      t.rd R.DRV_SHARE1 = data.toNat &&& 0x00007F7F ∧ t.rd R.DRV_SHARE0 = s.rd R.DRV_SHARE0 ∧ t.domVerdict 0 = .perform)

/-- O59, tier 1. For an instruction of opcode 5 (EWMA) with input x: a non-finite x leaves the state; a finite x sets an unset state to x,
and one that holds s to s + (x - s) times 2 to the power of minus K in binary64; K = 0 gives x. The feature is the state after that, or
NaN while it is unset, rounded to binary32 as every feature is. After a reset no instruction has a state. -/
def Obligations.EwmaKeepsItsStateAsLaidDown : Prop :=
  ∀ (e : FeatEnv) (order new : List Nat) (i w : Nat) (h : FeatHist) (x : Nat), insOp w = 5 → x = e.src new i h.fresh (insStaleNan w) (insA w) →
    (State.reset.feat.hist = []) ∧
    (nonFin x = 1 → (e.ins order new i w h).2.1.ewma = h.ewma) ∧
    (nonFin x = 0 → h.ewma = none → (e.ins order new i w h).2.1.ewma = some x) ∧
    (∀ a, nonFin x = 0 → h.ewma = some a → insK w ≠ 0 →
      (e.ins order new i w h).2.1.ewma = some (fAdd b64 a (fMul b64 (fSub b64 x a) (fOfRat b64 1 (2 ^ insK w))))) ∧
    (∀ a, nonFin x = 0 → h.ewma = some a → insK w = 0 → (e.ins order new i w h).2.1.ewma = some x) ∧
    (e.ins order new i w h).1 = f64to32 ((e.ins order new i w h).2.1.ewma.getD b64.nan)

/-- O60, tier 1. A state has what a command names where its build and board have the port, slot, session, domain, island, tap or unit
(State.there). There every command answers a next state, whatever else the state holds. Everywhere else it stops with the fault absent. A
command whose numbered operand lies outside the range of every build (Instr.wf is false) names nothing in any state. No command is
refused, and none stops in another way. -/
def Obligations.EveryCommandAnswersWhereItsPartsAreThere : Prop :=
  (∀ (s : State) (c : Instr), s.there c = true → ∃ t, exec c s = .next t) ∧
  (∀ (s : State) (c : Instr), s.there c = false → exec c s = .fault .absent) ∧
  (∀ (s : State) (c : Instr), c.wf = false → s.there c = false) ∧
  (∀ (s : State) (c : Instr) r, exec c s ≠ .refused r)
end

