-- ==== Sys2Proof/Laws/Mem.lean ====
section
/-! SUPPORT. Addressed memories: reading after writing, and the canonical form that every write keeps. -/

set_option Elab.async false

namespace Sys2Proof.Machine

theorem Memory.wf_cons (d : Byte) (p : Host.Cell) (l : List Host.Cell) :
    Memory.wf d (p :: l) = true ↔ p.2 ≠ d ∧ (∀ q ∈ l, p.1 < q.1) ∧ Memory.wf d l = true := by
  induction l generalizing p with
  | nil => obtain ⟨k, v⟩ := p; simp [Memory.wf]
  | cons q r ih =>
    obtain ⟨k, v⟩ := p
    obtain ⟨k', v'⟩ := q
    have hq := ih (k', v')
    simp only [Memory.wf, Bool.and_eq_true, bne_iff_ne, decide_eq_true_eq]
    constructor
    · rintro ⟨⟨h1, h2⟩, h3⟩
      refine ⟨h1, fun x hx => ?_, h3⟩
      rcases List.mem_cons.mp hx with rfl | hx
      · exact h2
      · exact Nat.lt_trans h2 ((hq.mp h3).2.1 x hx)
    · rintro ⟨h1, h2, h3⟩
      exact ⟨⟨h1, h2 (k', v') (by simp)⟩, h3⟩

/-- An address below every listed one reads as unlisted. -/
theorem memGet_below (d : Byte) (l : List Host.Cell) (k : Nat) (h : ∀ p ∈ l, k < p.1) : memGet d l k = d := by
  induction l with
  | nil => rfl
  | cons p r ih =>
    have h1 : k < p.1 := h p (by simp)
    simp only [memGet]
    rw [if_neg (by omega)]
    exact ih (fun q hq => h q (by simp [hq]))

/-- A byte put reads back. -/
theorem memGet_memPut_same (d : Byte) (x : Nat) (v : Byte) (l : List Host.Cell) (h : Memory.wf d l = true) :
    memGet d (memPut d x v l) x = v := by
  induction l with
  | nil => simp only [memPut]; split <;> simp_all [memGet]
  | cons p r ih =>
    have hw := (Memory.wf_cons d p r).mp h
    simp only [memPut]
    split
    · rename_i h1
      split
      · subst_vars
        exact memGet_below _ _ _ (fun q hq => by
          rcases List.mem_cons.mp hq with rfl | hq
          · exact h1
          · exact Nat.lt_trans h1 (hw.2.1 q hq))
      · simp [memGet]
    · split
      · rename_i h2
        subst h2
        split
        · subst_vars; exact memGet_below _ _ _ hw.2.1
        · simp [memGet]
      · rename_i h1 h2
        simp only [memGet]
        rw [if_neg (fun e => h2 e.symm)]
        exact ih hw.2.2

/-- A byte put leaves every other address alone. -/
theorem memGet_memPut_other (d : Byte) (x y : Nat) (v : Byte) (l : List Host.Cell) (h : y ≠ x) :
    memGet d (memPut d x v l) y = memGet d l y := by
  induction l with
  | nil => simp only [memPut]; split <;> simp [memGet, Ne.symm h]
  | cons p r ih =>
    simp only [memPut]
    split
    · split <;> simp [memGet, Ne.symm h]
    · split
      · subst_vars
        split <;> simp [memGet, Ne.symm h]
      · simp only [memGet, ih]

theorem mem_memPut (d : Byte) (x : Nat) (v : Byte) (l : List Host.Cell) (q : Host.Cell) (h : q ∈ memPut d x v l) : q = (x, v) ∨ q ∈ l := by
  induction l with
  | nil =>
    simp only [memPut] at h
    split at h <;> simp_all
  | cons p r ih =>
    simp only [memPut] at h
    split at h
    · split at h
      · exact .inr h
      · simpa using h
    · split at h
      · split at h
        · exact .inr (by simp [h])
        · rcases List.mem_cons.mp h with h | h
          · exact .inl h
          · exact .inr (by simp [h])
      · rcases List.mem_cons.mp h with h | h
        · exact .inr (by simp [h])
        · rcases ih h with h | h
          · exact .inl h
          · exact .inr (by simp [h])

/-- Putting a byte keeps the canonical form. -/
theorem memPut_wf (d : Byte) (x : Nat) (v : Byte) (l : List Host.Cell) (h : Memory.wf d l = true) : Memory.wf d (memPut d x v l) = true := by
  induction l with
  | nil => simp only [memPut]; split <;> simp_all [Memory.wf]
  | cons p r ih =>
    have hw := (Memory.wf_cons d p r).mp h
    simp only [memPut]
    split
    · rename_i h1
      split
      · exact h
      · rename_i h2
        refine (Memory.wf_cons _ _ _).mpr ⟨h2, fun q hq => ?_, h⟩
        rcases List.mem_cons.mp hq with rfl | hq
        · exact h1
        · exact Nat.lt_trans h1 (hw.2.1 q hq)
    · rename_i h1
      split
      · rename_i h2
        split
        · exact hw.2.2
        · rename_i h3
          subst h2
          exact (Memory.wf_cons _ _ _).mpr ⟨h3, hw.2.1, hw.2.2⟩
      · rename_i h2
        refine (Memory.wf_cons _ _ _).mpr ⟨hw.1, fun q hq => ?_, ih hw.2.2⟩
        rcases mem_memPut _ _ _ _ _ hq with rfl | hq
        · show p.1 < x
          omega
        · exact hw.2.1 q hq

/-- Writing bytes keeps the canonical form. -/
theorem memWrite_wf (d : Byte) (x : Nat) (bs : List Byte) (l : List Host.Cell) (h : Memory.wf d l = true) : Memory.wf d (memWrite d x bs l) = true := by
  induction bs generalizing x l with
  | nil => exact h
  | cons v r ih => exact ih _ _ (memPut_wf _ _ _ _ h)

/-- Writing bytes leaves every address outside them alone. -/
theorem memGet_memWrite_other (d : Byte) (x y : Nat) (bs : List Byte) (l : List Host.Cell) (h : y < x ∨ x + bs.length ≤ y) :
    memGet d (memWrite d x bs l) y = memGet d l y := by
  induction bs generalizing x l with
  | nil => rfl
  | cons v r ih =>
    simp only [List.length_cons] at h
    rw [memWrite, ih (x + 1) _ (by omega), memGet_memPut_other _ _ _ _ _ (by omega)]

/-- Bytes written read back. -/
theorem memGet_memWrite_same (d : Byte) (x i : Nat) (bs : List Byte) (l : List Host.Cell) (h : Memory.wf d l = true) (hi : i < bs.length) :
    memGet d (memWrite d x bs l) (x + i) = bs.getD i 0 := by
  induction bs generalizing x i l with
  | nil => simp at hi
  | cons v r ih =>
    rw [memWrite]
    cases i with
    | zero =>
      rw [memGet_memWrite_other _ _ _ _ _ (by omega), Nat.add_zero, memGet_memPut_same _ _ _ _ h]
      simp
    | succ i =>
      have e : x + (i + 1) = x + 1 + i := by omega
      rw [e, ih (x + 1) i _ (memPut_wf _ _ _ _ h) (by simpa using hi)]
      simp

end Sys2Proof.Machine
end

