-- ==== Sys2Proof/Laws/Regs.lean ====
section
/-! SUPPORT. The register file: reading after writing, and the canonical form that every write keeps. -/

set_option Elab.async false

namespace Sys2Proof.Machine

theorem regGet_regIns_same (l : List (Nat × Word)) (k : Nat) (v : Word) : regGet (regIns k v l) k = v := by
  induction l with
  | nil => simp [regIns, regGet]
  | cons p r ih =>
    obtain ⟨k', v'⟩ := p
    simp only [regIns]
    split
    · simp [regGet]
    · split
      · simp [regGet]
      · rename_i h
        simp only [regGet]
        rw [if_neg (fun e => h e.symm)]
        exact ih

theorem regGet_regIns_other (l : List (Nat × Word)) (k k2 : Nat) (v : Word) (h : k2 ≠ k) : regGet (regIns k v l) k2 = regGet l k2 := by
  induction l with
  | nil => simp [regIns, regGet, Ne.symm h]
  | cons p r ih =>
    obtain ⟨k', v'⟩ := p
    simp only [regIns]
    split
    · simp [regGet, Ne.symm h]
    · split
      · subst_vars
        simp [regGet, Ne.symm h]
      · simp only [regGet, ih]

/-- A key below every listed key reads 0. -/
theorem regGet_below (l : List (Nat × Word)) (k : Nat) (h : ∀ p ∈ l, k < p.1) : regGet l k = 0 := by
  induction l with
  | nil => rfl
  | cons p r ih =>
    obtain ⟨k', v'⟩ := p
    have h1 : k < k' := h (k', v') (by simp)
    simp only [regGet]
    rw [if_neg (by omega)]
    exact ih (fun q hq => h q (by simp [hq]))

theorem regWf_cons (p : Nat × Word) (l : List (Nat × Word)) :
    regWf (p :: l) = true ↔ p.2 ≠ 0 ∧ (∀ q ∈ l, p.1 < q.1) ∧ regWf l = true := by
  induction l generalizing p with
  | nil => obtain ⟨k, v⟩ := p; simp [regWf]
  | cons q r ih =>
    obtain ⟨k, v⟩ := p
    obtain ⟨k', v'⟩ := q
    have hq := ih (k', v')
    constructor
    · intro h
      simp only [regWf, Bool.and_eq_true, bne_iff_ne, decide_eq_true_eq] at h
      obtain ⟨⟨h1, h2⟩, h3⟩ := h
      refine ⟨h1, ?_, h3⟩
      intro x hx
      rcases List.mem_cons.mp hx with rfl | hx
      · exact h2
      · exact Nat.lt_trans h2 ((hq.mp h3).2.1 x hx)
    · rintro ⟨h1, h2, h3⟩
      simp only [regWf, Bool.and_eq_true, bne_iff_ne, decide_eq_true_eq]
      exact ⟨⟨h1, h2 (k', v') (by simp)⟩, h3⟩

theorem regGet_regDel_same (l : List (Nat × Word)) (k : Nat) (h : regWf l = true) : regGet (regDel k l) k = 0 := by
  induction l with
  | nil => rfl
  | cons p r ih =>
    obtain ⟨k', v'⟩ := p
    have hw := (regWf_cons (k', v') r).mp h
    simp only [regDel]
    split
    · subst_vars; exact regGet_below _ _ hw.2.1
    · rename_i h2
      simp only [regGet]
      rw [if_neg (fun e => h2 e.symm)]
      exact ih hw.2.2

theorem regGet_regDel_other (l : List (Nat × Word)) (k k2 : Nat) (h : k2 ≠ k) : regGet (regDel k l) k2 = regGet l k2 := by
  induction l with
  | nil => rfl
  | cons p r ih =>
    obtain ⟨k', v'⟩ := p
    simp only [regDel]
    split
    · subst_vars
      simp [regGet, Ne.symm h]
    · simp only [regGet, ih]

/-- A store reads back. -/
theorem regGet_regPut_same (l : List (Nat × Word)) (k : Nat) (v : Word) (h : regWf l = true) : regGet (regPut l k v) k = v := by
  unfold regPut
  split
  · subst_vars; exact regGet_regDel_same l k h
  · exact regGet_regIns_same l k v

/-- A store leaves every other key alone. -/
theorem regGet_regPut_other (l : List (Nat × Word)) (k k2 : Nat) (v : Word) (h : k2 ≠ k) : regGet (regPut l k v) k2 = regGet l k2 := by
  unfold regPut
  split
  · exact regGet_regDel_other l k k2 h
  · exact regGet_regIns_other l k k2 v h

theorem mem_regIns (l : List (Nat × Word)) (k : Nat) (v : Word) (q : Nat × Word) (h : q ∈ regIns k v l) : q = (k, v) ∨ q ∈ l := by
  induction l with
  | nil => simpa [regIns] using h
  | cons p r ih =>
    obtain ⟨k', v'⟩ := p
    simp only [regIns] at h
    split at h
    · simpa using h
    · split at h
      · rcases List.mem_cons.mp h with h | h
        · exact .inl h
        · exact .inr (by simp [h])
      · rcases List.mem_cons.mp h with h | h
        · exact .inr (by simp [h])
        · rcases ih h with h | h
          · exact .inl h
          · exact .inr (by simp [h])

theorem regWf_regIns (l : List (Nat × Word)) (k : Nat) (v : Word) (hv : v ≠ 0) (h : regWf l = true) : regWf (regIns k v l) = true := by
  induction l with
  | nil => simpa [regIns, regWf] using hv
  | cons p r ih =>
    obtain ⟨k', v'⟩ := p
    have hw := (regWf_cons (k', v') r).mp h
    simp only [regIns]
    split
    · rename_i h1
      refine (regWf_cons _ _).mpr ⟨hv, ?_, h⟩
      intro q hq
      rcases List.mem_cons.mp hq with rfl | hq
      · exact h1
      · exact Nat.lt_trans h1 (hw.2.1 q hq)
    · split
      · subst_vars
        exact (regWf_cons _ _).mpr ⟨hv, hw.2.1, hw.2.2⟩
      · refine (regWf_cons _ _).mpr ⟨hw.1, ?_, ih hw.2.2⟩
        intro q hq
        rcases mem_regIns r k v q hq with rfl | hq
        · show k' < k
          omega
        · exact hw.2.1 q hq

theorem mem_regDel (l : List (Nat × Word)) (k : Nat) (q : Nat × Word) (h : q ∈ regDel k l) : q ∈ l := by
  induction l with
  | nil => simp [regDel] at h
  | cons p r ih =>
    obtain ⟨k', v'⟩ := p
    simp only [regDel] at h
    split at h
    · simp [h]
    · rcases List.mem_cons.mp h with h | h
      · simp [h]
      · simp [ih h]

theorem regWf_regDel (l : List (Nat × Word)) (k : Nat) (h : regWf l = true) : regWf (regDel k l) = true := by
  induction l with
  | nil => rfl
  | cons p r ih =>
    obtain ⟨k', v'⟩ := p
    have hw := (regWf_cons (k', v') r).mp h
    simp only [regDel]
    split
    · exact hw.2.2
    · exact (regWf_cons _ _).mpr ⟨hw.1, fun q hq => hw.2.1 q (mem_regDel r k q hq), ih hw.2.2⟩

/-- Every store keeps the canonical form. -/
theorem regWf_regPut (l : List (Nat × Word)) (k : Nat) (v : Word) (h : regWf l = true) : regWf (regPut l k v) = true := by
  unfold regPut
  split
  · exact regWf_regDel l k h
  · exact regWf_regIns l k v ‹_› h

/-- Taking rows away keeps the canonical form. -/
theorem regWf_filter (l : List (Nat × Word)) (f : Nat × Word → Bool) (h : regWf l = true) : regWf (l.filter f) = true := by
  induction l with
  | nil => rfl
  | cons p r ih =>
    have hw := (regWf_cons p r).mp h
    rw [List.filter_cons]
    split
    · exact (regWf_cons _ _).mpr ⟨hw.1, fun q hq => hw.2.1 q (List.mem_filter.mp hq).1, ih hw.2.2⟩
    · exact ih hw.2.2

/-- A register written reads back, low 32 bits. -/
theorem State.rd_wr_same (s : State) (r : Reg) (v i j pg bk : Nat) (h : regWf s.regs = true) :
    (s.wr r v i j pg bk).rd r i j pg bk = v % 2 ^ 32 := by
  simp only [State.rd, State.wr, regGet_regPut_same _ _ _ h]
  rw [BitVec.xor_assoc, BitVec.xor_self, BitVec.xor_zero, BitVec.toNat_ofNat]

/-- A register write leaves every register with another key alone. -/
theorem State.rd_wr_other (s : State) (r r2 : Reg) (v i j pg bk i2 j2 pg2 bk2 : Nat) (h : r2.key i2 j2 pg2 bk2 ≠ r.key i j pg bk) :
    (s.wr r v i j pg bk).rd r2 i2 j2 pg2 bk2 = s.rd r2 i2 j2 pg2 bk2 := by
  simp only [State.rd, State.wr, regGet_regPut_other _ _ _ _ h]

/-- A register write keeps the canonical form. -/
theorem State.wr_wf (s : State) (r : Reg) (v i j pg bk : Nat) (h : regWf s.regs = true) : regWf (s.wr r v i j pg bk).regs = true :=
  regWf_regPut _ _ _ h

end Sys2Proof.Machine
end

