-- ==== Sys2Proof/Laws/Keeps.lean ====
section
/-! SUPPORT. What every operation of the model keeps: the queue of waiting commands, the build, the values set when the part is built,
the invariant and the fuses. The rules here compose operations; the files KeepsXxx go through the model file by file. -/

set_option Elab.async false

namespace Sys2Proof.Machine

theorem OtpSt.Le.refl (o : OtpSt) : OtpSt.Le o o :=
  ⟨Nat.le_refl _, Nat.le_refl _, Nat.le_refl _, Nat.le_refl _, id, id, List.prefix_refl _⟩

theorem OtpSt.Le.trans {a b c : OtpSt} (h : OtpSt.Le a b) (g : OtpSt.Le b c) : OtpSt.Le a c :=
  ⟨Nat.le_trans h.floor g.floor, Nat.le_trans h.rollback g.rollback, Nat.le_trans h.idWrites g.idWrites, Nat.le_trans h.changes g.changes,
    fun x => g.fa (h.fa x), fun x => g.identity (h.identity x), h.log.trans g.log⟩

theorem modNth_length {α : Type} (l : List α) (i : Nat) (f : α → α) : (modNth l i f).length = l.length := by
  unfold modNth; split <;> simp

theorem modNth_all {α : Type} {P : α → Prop} (l : List α) (i : Nat) (f : α → α) (h : ∀ x ∈ l, P x) (hf : ∀ x, P x → P (f x)) :
    ∀ x ∈ modNth l i f, P x := by
  unfold modNth
  split
  · rename_i y hy
    intro x hx
    rcases List.mem_or_eq_of_mem_set hx with hx | rfl
    · exact h x hx
    · exact hf _ (h y (List.mem_of_getElem? hy))
  · exact h

theorem map_fst_keep {β : Type} (l : List (Nat × β)) (g : Nat × β → Nat × β) (hg : ∀ p, (g p).1 = p.1) :
    (l.map g).map Prod.fst = l.map Prod.fst := by
  simp [hg]

theorem map_fst_modDom (l : List (Nat × Dom)) (d : Nat) (f : Dom → Dom) :
    (l.map (fun p => if p.1 = d then (d, f p.2) else p)).map Prod.fst = l.map Prod.fst :=
  map_fst_keep _ _ (fun p => by split <;> simp_all)

/-- The place of a part in a mask. -/
def Part.bit (p : Part) : Nat := p.ctorIdx

/-- What the mask `m` does not name is the same. -/
def Frame (m : Nat) (z s : State) : Prop := ∀ p : Part, m.testBit p.bit = false → Part.Same z s p

theorem Part.Same.refl (s : State) (p : Part) : Part.Same s s p := by
  cases p <;> simp [Part.Same]

theorem Part.Same.trans {a b c : State} {p : Part} (h : Part.Same a b p) (g : Part.Same b c p) : Part.Same a c p := by
  cases p <;> simp_all [Part.Same]

/-- One mask lies in another. -/
def Sub (k m : Nat) : Prop := k &&& m = k

theorem Sub.of {k m : Nat} (h : (k &&& m == k) = true) : Sub k m := by simpa [Sub] using h

theorem Sub.trans {a b c : Nat} (h : Sub a b) (g : Sub b c) : Sub a c := by
  unfold Sub at *
  rw [← h, Nat.and_assoc, g]

theorem Sub.bit {k m i : Nat} (h : Sub k m) (hi : m.testBit i = false) : k.testBit i = false := by
  unfold Sub at h
  rw [← h, Nat.testBit_and, hi, Bool.and_false]

/-- From `z` on, the queue, the build and the Build-set values have not changed, the invariant holds if it did, no fuse went back, and
the parts that the mask `m` does not name are the same. -/
structure Keeps (m : Nat) (z s : State) : Prop where
  pending : s.pending = z.pending
  build : s.build = z.build
  bs : s.bs = z.bs
  inv : z.Inv → s.Inv
  otp : OtpSt.Le z.auth.otp s.auth.otp
  frame : Frame m z s

variable {m : Nat}

theorem Keeps.refl (s : State) : Keeps m s s := ⟨rfl, rfl, rfl, id, .refl _, fun p _ => .refl _ p⟩

theorem Keeps.trans {a b c : State} (h : Keeps m a b) (g : Keeps m b c) : Keeps m a c :=
  ⟨g.pending.trans h.pending, g.build.trans h.build, g.bs.trans h.bs, fun w => g.inv (h.inv w), h.otp.trans g.otp,
    fun p hp => (h.frame p hp).trans (g.frame p hp)⟩

/-- A step on from `s` that leaves the queue, the build and the Build-set values, keeps the invariant and takes no fuse back. -/
theorem Keeps.of {z s t : State} (h : Keeps m z s) (h1 : t.pending = s.pending) (h2 : t.build = s.build) (h3 : t.bs = s.bs)
    (h4 : s.Inv → t.Inv) (h5 : OtpSt.Le s.auth.otp t.auth.otp) (h6 : Frame m s t) : Keeps m z t :=
  h.trans ⟨h1, h2, h3, h4, h5, h6⟩

theorem Keeps.weaken {k : Nat} {s t : State} (hm : Sub k m) (g : Keeps k s t) : Keeps m s t :=
  ⟨g.pending, g.build, g.bs, g.inv, g.otp, fun p hp => g.frame p (hm.bit hp)⟩

/-- An operation with a frame of its own, within a wider one. -/
theorem Keeps.within {k : Nat} {z s t : State} (h : Keeps m z s) (hm : Sub k m) (g : Keeps k s t) : Keeps m z t :=
  h.trans (g.weaken hm)

/-- What an update of the other fields must leave as it is. -/
structure Same (s : State) (time : TimeSt) (pulse : PulseSt) (link : LinkSt) (samp : SampSt) (power : PowerSt) (auth : AuthSt)
    (fw : FwSt) : Prop where
  exch : time.exch.length = s.time.exch.length
  gens : pulse.gens.length = s.pulse.gens.length
  ports : link.ports.length = s.link.ports.length
  sensors : samp.sensors.length = s.samp.sensors.length
  doms : power.doms.map Prod.fst = s.power.doms.map Prod.fst
  otp : auth.otp = s.auth.otp
  data : fw.data = s.fw.data
  regions : fw.regions = s.fw.regions

theorem pick {m i k : Nat} {P : Prop} (h : Nat.beq (Nat.land m k) k = true ∨ P) (e : k = 2 ^ i) (g : m.testBit i = false) : P := by
  refine h.resolve_left (fun b => ?_)
  have b1 : m &&& k = k := Nat.eq_of_beq_eq_true b
  have b2 : (m &&& k).testBit i = k.testBit i := by rw [b1]
  rw [Nat.testBit_and, g, e, Nat.testBit_two_pow_self] at b2
  cases b2

/-- An update of any other fields keeps all of it. -/
theorem Keeps.mk' {z s : State} {core : CoreSt} {time : TimeSt} {pulse : PulseSt} {ev : EvSt} {link : LinkSt} {tally : TallySt} {coal : CoalSt} {samp : SampSt} {muster : MusterSt} {convoy : ConvoySt} {feat : FeatSt} {tree : TreeSt} {out : OutSt} {trace : TraceSt} {abft : AbftSt} {codec : CodecSt} {hang : HangSt} {pub : PubSt} {power : PowerSt} {drover : DroverSt} {auth : AuthSt} {fw : FwSt} {rep : RepSt} {free : Nat} (h : Keeps m z s)
    (c : Same s time pulse link samp power auth fw := by
      first
        | exact ⟨rfl, rfl, rfl, rfl, rfl, rfl, rfl, rfl⟩
        | (constructor <;> first | rfl | simp only [List.length_map, List.length_zipIdx, List.map_map, Function.comp_def]))
    (d : (Nat.beq (Nat.land m 2) 2 = true ∨ core = s.core) ∧
      (Nat.beq (Nat.land m 4) 4 = true ∨ time = s.time) ∧
      (Nat.beq (Nat.land m 8) 8 = true ∨ pulse = s.pulse) ∧
      (Nat.beq (Nat.land m 16) 16 = true ∨ ev = s.ev) ∧
      (Nat.beq (Nat.land m 32) 32 = true ∨ link = s.link) ∧
      (Nat.beq (Nat.land m 64) 64 = true ∨ tally = s.tally) ∧
      (Nat.beq (Nat.land m 128) 128 = true ∨ coal = s.coal) ∧
      (Nat.beq (Nat.land m 256) 256 = true ∨ samp = s.samp) ∧
      (Nat.beq (Nat.land m 512) 512 = true ∨ muster = s.muster) ∧
      (Nat.beq (Nat.land m 1024) 1024 = true ∨ convoy = s.convoy) ∧
      (Nat.beq (Nat.land m 2048) 2048 = true ∨ feat = s.feat) ∧
      (Nat.beq (Nat.land m 4096) 4096 = true ∨ tree = s.tree) ∧
      (Nat.beq (Nat.land m 8192) 8192 = true ∨ out = s.out) ∧
      (Nat.beq (Nat.land m 16384) 16384 = true ∨ trace = s.trace) ∧
      (Nat.beq (Nat.land m 32768) 32768 = true ∨ abft = s.abft) ∧
      (Nat.beq (Nat.land m 65536) 65536 = true ∨ codec = s.codec) ∧
      (Nat.beq (Nat.land m 131072) 131072 = true ∨ hang = s.hang) ∧
      (Nat.beq (Nat.land m 262144) 262144 = true ∨ pub = s.pub) ∧
      (Nat.beq (Nat.land m 524288) 524288 = true ∨ power = s.power) ∧
      (Nat.beq (Nat.land m 1048576) 1048576 = true ∨ drover = s.drover) ∧
      (Nat.beq (Nat.land m 2097152) 2097152 = true ∨ auth = s.auth) ∧
      (Nat.beq (Nat.land m 4194304) 4194304 = true ∨ fw = s.fw) ∧
      (Nat.beq (Nat.land m 8388608) 8388608 = true ∨ rep = s.rep) ∧
      (Nat.beq (Nat.land m 16777216) 16777216 = true ∨ free = s.free) ∧
      (Nat.beq (Nat.land m 33554432) 33554432 = true ∨ (core.por = s.core.por ∧ core.warm = s.core.warm ∧ core.straps = s.core.straps)) ∧
      (Nat.beq (Nat.land m 67108864) 67108864 = true ∨ auth.otp = s.auth.otp) ∧
      (Nat.beq (Nat.land m 134217728) 134217728 = true ∨ fw.regions = s.fw.regions) ∧
      (Nat.beq (Nat.land m 268435456) 268435456 = true ∨ auth.srcId = s.auth.srcId) := by
      refine ⟨?_, ?_, ?_, ?_, ?_, ?_, ?_, ?_, ?_, ?_, ?_, ?_, ?_, ?_, ?_, ?_, ?_, ?_, ?_, ?_, ?_, ?_, ?_, ?_, ?_, ?_, ?_, ?_⟩ <;> first | exact .inl rfl | exact .inr rfl | exact .inr ⟨rfl, rfl, rfl⟩) :
    Keeps m z ⟨s.pending, s.build, s.bs, s.regs,
      core, time, pulse, ev, link, tally, coal, samp, muster, convoy, feat, tree, out, trace, abft, codec, hang, pub, power, drover, auth, fw, rep, free⟩ :=
  h.of rfl rfl rfl (fun i => ⟨i.regs, c.ports.trans i.ports, c.exch.trans i.exch, c.sensors.trans i.sensors, c.gens.trans i.gens,
    c.doms.trans i.doms, by rw [c.data]; exact i.data, by rw [c.regions]; exact i.image⟩)
    (by rw [c.otp]; exact .refl _) (by
      obtain ⟨d1, d2, d3, d4, d5, d6, d7, d8, d9, d10, d11, d12, d13, d14, d15, d16, d17, d18, d19, d20, d21, d22, d23, d24, d25, d26, d27, d28⟩ := d
      intro p hp
      cases p
      case regs => rfl
      case core => exact pick d1 rfl hp
      case time => exact pick d2 rfl hp
      case pulse => exact pick d3 rfl hp
      case ev => exact pick d4 rfl hp
      case link => exact pick d5 rfl hp
      case tally => exact pick d6 rfl hp
      case coal => exact pick d7 rfl hp
      case samp => exact pick d8 rfl hp
      case muster => exact pick d9 rfl hp
      case convoy => exact pick d10 rfl hp
      case feat => exact pick d11 rfl hp
      case tree => exact pick d12 rfl hp
      case out => exact pick d13 rfl hp
      case trace => exact pick d14 rfl hp
      case abft => exact pick d15 rfl hp
      case codec => exact pick d16 rfl hp
      case hang => exact pick d17 rfl hp
      case pub => exact pick d18 rfl hp
      case power => exact pick d19 rfl hp
      case drover => exact pick d20 rfl hp
      case auth => exact pick d21 rfl hp
      case fw => exact pick d22 rfl hp
      case rep => exact pick d23 rfl hp
      case free => exact pick d24 rfl hp
      case reset => exact pick d25 rfl hp
      case otp => exact pick d26 rfl hp
      case flash => exact pick d27 rfl hp
      case ident => exact pick d28 rfl hp)

/-- The update of a state that keeps it: first that the state does, then that the update does. -/
theorem Keeps.mk0 {z s : State} {core : CoreSt} {time : TimeSt} {pulse : PulseSt} {ev : EvSt} {link : LinkSt} {tally : TallySt} {coal : CoalSt} {samp : SampSt} {muster : MusterSt} {convoy : ConvoySt} {feat : FeatSt} {tree : TreeSt} {out : OutSt} {trace : TraceSt} {abft : AbftSt} {codec : CodecSt} {hang : HangSt} {pub : PubSt} {power : PowerSt} {drover : DroverSt} {auth : AuthSt} {fw : FwSt} {rep : RepSt} {free : Nat}
    (h : Keeps m z s) (g : Keeps m z s → Keeps m z ⟨s.pending, s.build, s.bs, s.regs,
      core, time, pulse, ev, link, tally, coal, samp, muster, convoy, feat, tree, out, trace, abft, codec, hang, pub, power, drover, auth, fw, rep, free⟩) :
    Keeps m z ⟨s.pending, s.build, s.bs, s.regs,
      core, time, pulse, ev, link, tally, coal, samp, muster, convoy, feat, tree, out, trace, abft, codec, hang, pub, power, drover, auth, fw, rep, free⟩ := g h

/-- The invariant says nothing of the register file but its canonical form. -/
theorem State.Inv.regsOnly {s : State} {r : List (Nat × Word)} (i : s.Inv) (h : regWf r = true) : State.Inv { s with regs := r } :=
  ⟨h, i.ports, i.exch, i.sensors, i.gens, i.doms, i.data, i.image⟩

/-- A new register file in canonical form, the rest as before. -/
theorem Keeps.regsOf {z s : State} (h : Keeps m z s) (r : List (Nat × Word)) (hr : regWf s.regs = true → regWf r = true)
    (hm : Sub 1 m := by exact Sub.of rfl) :
    Keeps m z { s with regs := r } :=
  h.of rfl rfl rfl (fun i => i.regsOnly (hr i.regs)) (.refl _) (fun p hp => by
    cases p
    case regs => exact absurd (hm.bit hp) (by decide)
    all_goals first | exact rfl | exact ⟨rfl, rfl, rfl⟩)

theorem Keeps.ite {z a b : State} {c : Prop} [Decidable c] (ha : Keeps m z a) (hb : Keeps m z b) : Keeps m z (if c then a else b) := by
  split <;> assumption

/-- A cut: the result of an inner step, then what follows from it. -/
theorem Keeps.cut {z v : State} {G : Prop} (h : Keeps m z v) (g : Keeps m z v → G) : G := g h

theorem Keeps.foldl {α : Type _} {z : State} (f : State → α → State) (l : List α) (s : State) (h : Keeps m z s)
    (hf : ∀ t, Keeps m z t → ∀ a, Keeps m z (f t a)) : Keeps m z (l.foldl f s) := by
  induction l generalizing s with
  | nil => exact h
  | cons a r ih => exact ih _ (hf s h a)

theorem Keeps.foldr {α : Type _} {z : State} (f : α → State → State) (l : List α) (s : State) (h : Keeps m z s)
    (hf : ∀ t, Keeps m z t → ∀ a, Keeps m z (f a t)) : Keeps m z (l.foldr f s) := by
  induction l with
  | nil => exact h
  | cons a r ih => exact hf _ ih a

/-- A fold that carries a value beside the state. -/
theorem Keeps.foldlSnd {α β : Type _} {z : State} (f : β × State → α → β × State) (l : List α) (p : β × State) (h : Keeps m z p.2)
    (hf : ∀ q : β × State, Keeps m z q.2 → ∀ a, Keeps m z (f q a).2) : Keeps m z (l.foldl f p).2 := by
  induction l generalizing p with
  | nil => exact h
  | cons a r ih => exact ih _ (hf p h a)

theorem Keeps.foldlFst {α β : Type _} {z : State} (f : State × β → α → State × β) (l : List α) (p : State × β) (h : Keeps m z p.1)
    (hf : ∀ q : State × β, Keeps m z q.1 → ∀ a, Keeps m z (f q a).1) : Keeps m z (l.foldl f p).1 := by
  induction l generalizing p with
  | nil => exact h
  | cons a r ih => exact ih _ (hf p h a)

theorem Keeps.snd {β : Type _} {z : State} {p : β × State} {a : β} {t : State} (h : Keeps m z p.2) (e : p = (a, t)) : Keeps m z t := by
  subst e; exact h

theorem Keeps.fst {β : Type _} {z : State} {p : State × β} {a : β} {t : State} (h : Keeps m z p.1) (e : p = (t, a)) : Keeps m z t := by
  subst e; exact h

theorem Keeps.snd3 {β γ : Type _} {z : State} {p : β × γ × State} {a : β} {c : γ} {t : State} (h : Keeps m z p.2.2) (e : p = (a, c, t)) : Keeps m z t := by
  subst e; exact h

/-- Every state that an optional result holds keeps it. -/
def KeepsO (m : Nat) (z : State) (o : Option State) : Prop := ∀ t, o = some t → Keeps m z t

theorem Keeps.some {z t : State} {o : Option State} (h : KeepsO m z o) (e : o = some t) : Keeps m z t := h t e
theorem KeepsO.none {z : State} : KeepsO m z none := fun _ e => by cases e
theorem KeepsO.some {z t : State} (h : Keeps m z t) : KeepsO m z (some t) := fun _ e => by cases e; exact h

/-- Every next state that an outcome holds keeps it. -/
def KeepsR (m : Nat) (z : State) (o : Host.Outcome State Fault Refusal) : Prop := ∀ t, o = .next t → Keeps m z t

theorem KeepsR.next {z t : State} (h : Keeps m z t) : KeepsR m z (.next t) := fun _ e => by cases e; exact h
theorem KeepsR.fault {z : State} {f : Fault} : KeepsR m z (.fault f) := fun _ e => by cases e
theorem KeepsR.refused {z : State} {f : Refusal} : KeepsR m z (.refused f) := fun _ e => by cases e
theorem KeepsR.present {z t : State} {c : Bool} (h : Keeps m z t) : KeepsR m z (Machine.present c t) := by
  unfold Machine.present; split
  · exact KeepsR.next h
  · exact KeepsR.fault

theorem KeepsO.within {m k : Nat} {z s : State} {o : Option State} (h : Keeps m z s) (hm : Sub k m) (g : KeepsO k s o) : KeepsO m z o :=
  fun t e => h.within hm (g t e)

theorem KeepsR.within {m k : Nat} {z s : State} {o : Host.Outcome State Fault Refusal} (h : Keeps m z s) (hm : Sub k m) (g : KeepsR k s o) :
    KeepsR m z o := fun t e => h.within hm (g t e)

/-- The shape that a build gives its power-on state. -/
structure StartShape (s : State) : Prop where
  ports : s.link.ports.length = egressPorts s.build
  exch : s.time.exch.length = linkPorts s.build
  sensors : s.samp.sensors.length = 16
  gens : s.pulse.gens.length = pulseGens s.build
  doms : s.power.doms.map Prod.fst = domains s.build

theorem State.resetOf_shape (b : Build) : StartShape (State.resetOf b) := by
  cases b <;> constructor <;> decide

/-- A register write. -/
theorem State.wr_keeps {z s : State} (h : Keeps m z s) (r : Reg) (v i j pg bk : Nat) (hm : Sub 1 m := by exact Sub.of rfl) : Keeps m z (s.wr r v i j pg bk) :=
  h.regsOf _ (fun w => regWf_regPut _ _ _ w) hm

end Sys2Proof.Machine
end

