-- ==== Sys2Proof/Laws/KeepsRegs.lean ====
section
/-! SUPPORT. What the operations of Machine/Regs.lean keep. -/

set_option Elab.async false

namespace Sys2Proof.Machine

theorem State.bump_keeps {mk : Nat} {z s : State} (hk : Keeps mk z s) (r : Reg) (d : Nat) (i : Nat) (j : Nat) (pg : Nat) (bk : Nat) (hm : Sub 0x1 mk := by exact Sub.of rfl) :
    Keeps mk z (State.bump s r d i j pg bk) := by
  refine hk.within hm ?_
  replace hk : Keeps 0x1 s s := .refl _
  unfold State.bump
  repeat' first
    | with_reducible assumption
    | with_reducible apply State.wr_keeps
    | exact Sub.of rfl
    | dsimp only

theorem State.bumpSat_keeps {mk : Nat} {z s : State} (hk : Keeps mk z s) (r : Reg) (d : Nat) (i : Nat) (j : Nat) (pg : Nat) (bk : Nat) (hm : Sub 0x1 mk := by exact Sub.of rfl) :
    Keeps mk z (State.bumpSat s r d i j pg bk) := by
  refine hk.within hm ?_
  replace hk : Keeps 0x1 s s := .refl _
  unfold State.bumpSat
  repeat' first
    | with_reducible assumption
    | with_reducible apply State.wr_keeps
    | exact Sub.of rfl
    | dsimp only

theorem State.pwr_keeps {mk : Nat} {z s : State} (hk : Keeps mk z s) (r : Reg) (p v : Nat) (i : Nat) (hm : Sub 0x1 mk := by exact Sub.of rfl) :
    Keeps mk z (State.pwr s r p v i) := by
  refine hk.within hm ?_
  replace hk : Keeps 0x1 s s := .refl _
  unfold State.pwr
  repeat' first
    | with_reducible assumption
    | with_reducible apply State.wr_keeps
    | (with_reducible refine Keeps.mk0 ?_ ?g; (first | with_reducible assumption | (refine Keeps.snd ?_ (by assumption)) | (refine Keeps.some ?_ (by assumption)) | (with_reducible first | apply State.wr_keeps)); with_reducible case g => exact fun h => Keeps.mk' h)
    | split
    | (refine Keeps.some ?_ (by assumption))
    | exact Sub.of rfl
    | dsimp only

theorem State.pbump_keeps {mk : Nat} {z s : State} (hk : Keeps mk z s) (r : Reg) (p : Nat) (d : Nat) (hm : Sub 0x1 mk := by exact Sub.of rfl) :
    Keeps mk z (State.pbump s r p d) := by
  refine hk.within hm ?_
  replace hk : Keeps 0x1 s s := .refl _
  unfold State.pbump
  repeat' first
    | with_reducible assumption
    | with_reducible apply State.pwr_keeps
    | exact Sub.of rfl
    | dsimp only

end Sys2Proof.Machine
end

