-- ==== Sys2Proof/Laws/KeepsFlags.lean ====
section
/-! SUPPORT. What the operations of Machine/Flags.lean keep. -/

set_option Elab.async false

namespace Sys2Proof.Machine

theorem State.msixRise_keeps {mk : Nat} {z s : State} (hk : Keeps mk z s) (n : Nat) (was : Bool) (hm : Sub 0x2 mk := by exact Sub.of rfl) :
    Keeps mk z (State.msixRise s n was) := by
  refine hk.within hm ?_
  replace hk : Keeps 0x2 s s := .refl _
  unfold State.msixRise
  repeat' first
    | with_reducible assumption
    | (with_reducible refine Keeps.mk0 ?_ ?g; (first | with_reducible assumption | (refine Keeps.snd ?_ (by assumption)) | (refine Keeps.some ?_ (by assumption))); with_reducible case g => exact fun h => Keeps.mk' h)
    | (with_reducible apply Keeps.ite)
    | split
    | exact Sub.of rfl
    | dsimp only

theorem State.irqMask_keeps {mk : Nat} {z s : State} (hk : Keeps mk z s) (p bits : Nat) (hm : Sub 0x3 mk := by exact Sub.of rfl) :
    Keeps mk z (State.irqMask s p bits) := by
  refine hk.within hm ?_
  replace hk : Keeps 0x3 s s := .refl _
  unfold State.irqMask
  repeat' first
    | (extract_lets -descend +onlyGivenNames x0; refine Keeps.cut (m := 0x3) (z := s) (v := x0) ?_ (fun h0 => ?_); rotate_left; clear_value x0; rotate_left; dsimp -zeta only [x0]; clear x0)
    | (extract_lets -descend +onlyGivenNames x0; clear_value x0)
    | lift_lets
    | with_reducible assumption
    | (with_reducible first | apply State.wr_keeps | apply State.msixRise_keeps)
    | (with_reducible apply Keeps.ite)
    | split
    | exact Sub.of rfl
    | dsimp only

theorem State.irq_keeps {mk : Nat} {z s : State} (hk : Keeps mk z s) (p bit : Nat) (hm : Sub 0x3 mk := by exact Sub.of rfl) :
    Keeps mk z (State.irq s p bit) := by
  refine hk.within hm ?_
  replace hk : Keeps 0x3 s s := .refl _
  unfold State.irq
  repeat' first
    | with_reducible assumption
    | with_reducible apply State.irqMask_keeps
    | exact Sub.of rfl
    | dsimp only

end Sys2Proof.Machine
end

