-- ==== Sys2Proof/Laws/KeepsClock.lean ====
section
/-! SUPPORT. What the operations of Machine/Clock.lean keep. -/

set_option Elab.async false

namespace Sys2Proof.Machine

theorem State.draw_keeps {mk : Nat} {z s : State} (hk : Keeps mk z s) (hm : Sub 0x1000000 mk := by exact Sub.of rfl) :
    Keeps mk z (State.draw s).2 := by
  refine hk.within hm ?_
  replace hk : Keeps 0x1000000 s s := .refl _
  unfold State.draw
  repeat' first
    | with_reducible assumption
    | (with_reducible refine Keeps.mk0 ?_ ?g; (first | with_reducible assumption | (refine Keeps.snd ?_ (by assumption)) | (refine Keeps.some ?_ (by assumption))); with_reducible case g => exact fun h => Keeps.mk' h)
    | exact Sub.of rfl
    | dsimp only

theorem State.cycle_keeps {mk : Nat} {z s : State} (hk : Keeps mk z s) (hm : Sub 0x404 mk := by exact Sub.of rfl) :
    Keeps mk z (State.cycle s) := by
  refine hk.within hm ?_
  replace hk : Keeps 0x404 s s := .refl _
  unfold State.cycle
  repeat' first
    | with_reducible assumption
    | (with_reducible refine Keeps.mk0 ?_ ?g; (first | with_reducible assumption | (refine Keeps.snd ?_ (by assumption)) | (refine Keeps.some ?_ (by assumption))); with_reducible case g => exact fun h => Keeps.mk' h)
    | (with_reducible apply Keeps.ite)
    | split
    | exact Sub.of rfl
    | dsimp only

end Sys2Proof.Machine
end

