-- ==== Sys2Proof/Laws/KeepsTraceCore.lean ====
section
/-! SUPPORT. What the operations of Machine/TraceCore.lean keep. -/

set_option Elab.async false

namespace Sys2Proof.Machine

theorem State.modTrace_keeps {mk : Nat} {z s : State} (hk : Keeps mk z s) (f : TraceSt → TraceSt) (hm : Sub 0x4000 mk := by exact Sub.of rfl) :
    Keeps mk z (State.modTrace s f) := by
  refine hk.within hm ?_
  replace hk : Keeps 0x4000 s s := .refl _
  unfold State.modTrace
  repeat' first
    | with_reducible assumption
    | (with_reducible refine Keeps.mk0 ?_ ?g; (first | with_reducible assumption | (refine Keeps.snd ?_ (by assumption)) | (refine Keeps.some ?_ (by assumption))); with_reducible case g => exact fun h => Keeps.mk' h)
    | exact Sub.of rfl
    | dsimp only

theorem State.trcClose_keeps {mk : Nat} {z s : State} (hk : Keeps mk z s) (hm : Sub 0x4000 mk := by exact Sub.of rfl) :
    Keeps mk z (State.trcClose s) := by
  refine hk.within hm ?_
  replace hk : Keeps 0x4000 s s := .refl _
  unfold State.trcClose
  repeat' first
    | with_reducible intro _
    | with_reducible assumption
    | with_reducible apply State.modTrace_keeps
    | (with_reducible refine Keeps.mk0 ?_ ?g; (first | with_reducible assumption | (refine Keeps.snd ?_ (by assumption)) | (refine Keeps.some ?_ (by assumption)) | (with_reducible first | apply State.modTrace_keeps)); with_reducible case g => exact fun h => Keeps.mk' h)
    | exact Sub.of rfl
    | dsimp only

theorem State.blockLost_keeps {mk : Nat} {z s : State} (hk : Keeps mk z s) (b : TBlock) (hm : Sub 0x11EE5F7 mk := by exact Sub.of rfl) :
    Keeps mk z (State.blockLost s b) := by
  refine hk.within hm ?_
  replace hk : Keeps 0x11EE5F7 s s := .refl _
  unfold State.blockLost
  repeat' first
    | with_reducible intro _
    | with_reducible assumption
    | (with_reducible first | apply State.modTrace_keeps | apply State.drained_keeps)
    | (with_reducible refine Keeps.mk0 ?_ ?g; (first | with_reducible assumption | (refine Keeps.snd ?_ (by assumption)) | (refine Keeps.some ?_ (by assumption)) | (with_reducible first | apply State.modTrace_keeps | apply State.drained_keeps)); with_reducible case g => exact fun h => Keeps.mk' h)
    | (with_reducible apply Keeps.ite)
    | split
    | exact Sub.of rfl
    | dsimp only

theorem State.trcTake_keeps {mk : Nat} {z s : State} (hk : Keeps mk z s) (n : Nat) (hm : Sub 0x11EE5F7 mk := by exact Sub.of rfl) :
    Keeps mk z (State.trcTake s n) := by
  refine hk.within hm ?_
  replace hk : Keeps 0x11EE5F7 s s := .refl _
  unfold State.trcTake
  repeat' first
    | (extract_lets -descend +onlyGivenNames x0; refine Keeps.cut (m := 0x11EE5F7) (z := s) (v := x0) ?_ (fun h0 => ?_); rotate_left; clear_value x0; rotate_left; dsimp -zeta only [x0]; clear x0)
    | (extract_lets -descend +onlyGivenNames x0; clear_value x0)
    | with_reducible intro _
    | lift_lets
    | with_reducible assumption
    | (with_reducible first | apply State.modTrace_keeps | apply State.blockLost_keeps)
    | (with_reducible refine Keeps.mk0 ?_ ?g; (first | with_reducible assumption | (refine Keeps.snd ?_ (by assumption)) | (refine Keeps.some ?_ (by assumption)) | (with_reducible first | apply State.modTrace_keeps | apply State.blockLost_keeps)); with_reducible case g => exact fun h => Keeps.mk' h)
    | split
    | (refine Keeps.some ?_ (by assumption))
    | exact Sub.of rfl
    | dsimp only

theorem State.trcAlloc_keeps {mk : Nat} {z s : State} (hk : Keeps mk z s) (hm : Sub 0x11EE5F7 mk := by exact Sub.of rfl) :
    Keeps mk z (State.trcAlloc s) := by
  refine hk.within hm ?_
  replace hk : Keeps 0x11EE5F7 s s := .refl _
  unfold State.trcAlloc
  repeat' first
    | with_reducible intro _
    | with_reducible assumption
    | (with_reducible first | apply State.irq_keeps | apply State.modTrace_keeps | apply State.trcTake_keeps)
    | (with_reducible refine Keeps.mk0 ?_ ?g; (first | with_reducible assumption | (refine Keeps.snd ?_ (by assumption)) | (refine Keeps.some ?_ (by assumption)) | (with_reducible first | apply State.irq_keeps | apply State.modTrace_keeps | apply State.trcTake_keeps)); with_reducible case g => exact fun h => Keeps.mk' h)
    | (with_reducible apply Keeps.ite)
    | split
    | (refine Keeps.some ?_ (by assumption))
    | exact Sub.of rfl
    | dsimp only

theorem State.winAdvance_keeps {mk : Nat} {z s : State} (hk : Keeps mk z s) (n : Nat) (hm : Sub 0x4003 mk := by exact Sub.of rfl) :
    Keeps mk z (State.winAdvance s n) := by
  refine hk.within hm ?_
  replace hk : Keeps 0x4003 s s := .refl _
  unfold State.winAdvance
  repeat' first
    | (extract_lets -descend +onlyGivenNames x0; refine Keeps.cut (m := 0x4003) (z := s) (v := x0) ?_ (fun h0 => ?_); rotate_left; clear_value x0; rotate_left; dsimp -zeta only [x0]; clear x0)
    | (extract_lets -descend +onlyGivenNames x0; clear_value x0)
    | with_reducible intro _
    | lift_lets
    | with_reducible assumption
    | (with_reducible first | apply State.irq_keeps | apply State.modTrace_keeps | apply State.trcClose_keeps)
    | (with_reducible refine Keeps.mk0 ?_ ?g; (first | with_reducible assumption | (refine Keeps.snd ?_ (by assumption)) | (refine Keeps.some ?_ (by assumption)) | (with_reducible first | apply State.irq_keeps | apply State.modTrace_keeps | apply State.trcClose_keeps)); with_reducible case g => exact fun h => Keeps.mk' h)
    | (with_reducible apply Keeps.ite)
    | split
    | (refine Keeps.some ?_ (by assumption))
    | exact Sub.of rfl
    | dsimp only

theorem State.trcRaw_keeps {mk : Nat} {z s : State} (hk : Keeps mk z s) (pkt : List Byte) (item trig : Bool) (hm : Sub 0x11EE5F7 mk := by exact Sub.of rfl) :
    Keeps mk z (State.trcRaw s pkt item trig).2 := by
  refine hk.within hm ?_
  replace hk : Keeps 0x11EE5F7 s s := .refl _
  unfold State.trcRaw
  repeat' first
    | (extract_lets -descend +onlyGivenNames x0; refine Keeps.cut (m := 0x11EE5F7) (z := s) (v := x0) ?_ (fun h0 => ?_); rotate_left; clear_value x0; rotate_left; dsimp -zeta only [x0]; clear x0)
    | (extract_lets -descend +onlyGivenNames x0; clear_value x0)
    | with_reducible intro _
    | lift_lets
    | with_reducible assumption
    | (with_reducible first | apply State.modTrace_keeps | apply State.trcClose_keeps | apply State.trcAlloc_keeps | apply State.winAdvance_keeps)
    | (with_reducible refine Keeps.mk0 ?_ ?g; (first | with_reducible assumption | (refine Keeps.snd ?_ (by assumption)) | (refine Keeps.some ?_ (by assumption)) | (with_reducible first | apply State.modTrace_keeps | apply State.trcClose_keeps | apply State.trcAlloc_keeps | apply State.winAdvance_keeps)); with_reducible case g => exact fun h => Keeps.mk' h)
    | (with_reducible apply Keeps.ite)
    | split
    | (refine Keeps.some ?_ (by assumption))
    | (refine Keeps.snd ?_ (by assumption))
    | exact Sub.of rfl
    | dsimp only

theorem State.trcSync_keeps {mk : Nat} {z s : State} (hk : Keeps mk z s) (reason : Nat) (hm : Sub 0x11EE5F7 mk := by exact Sub.of rfl) :
    Keeps mk z (State.trcSync s reason) := by
  refine hk.within hm ?_
  replace hk : Keeps 0x11EE5F7 s s := .refl _
  unfold State.trcSync
  repeat' first
    | (extract_lets -descend +onlyGivenNames x0; refine Keeps.cut (m := 0x11EE5F7) (z := s) (v := x0) ?_ (fun h0 => ?_); rotate_left; clear_value x0; rotate_left; dsimp -zeta only [x0]; clear x0)
    | (extract_lets -descend +onlyGivenNames x0; clear_value x0)
    | with_reducible intro _
    | lift_lets
    | with_reducible assumption
    | (with_reducible first | apply State.modTrace_keeps | apply State.trcRaw_keeps)
    | (with_reducible refine Keeps.mk0 ?_ ?g; (first | with_reducible assumption | (refine Keeps.snd ?_ (by assumption)) | (refine Keeps.some ?_ (by assumption)) | (with_reducible first | apply State.modTrace_keeps | apply State.trcRaw_keeps)); with_reducible case g => exact fun h => Keeps.mk' h)
    | (with_reducible apply Keeps.ite)
    | split
    | exact Sub.of rfl
    | dsimp only

theorem State.trcPut_keeps {mk : Nat} {z s : State} (hk : Keeps mk z s) (pkt : List Byte) (item trig : Bool) (hm : Sub 0x11EE5F7 mk := by exact Sub.of rfl) :
    Keeps mk z (State.trcPut s pkt item trig).2 := by
  refine hk.within hm ?_
  replace hk : Keeps 0x11EE5F7 s s := .refl _
  unfold State.trcPut
  repeat' first
    | with_reducible assumption
    | (with_reducible first | apply State.trcRaw_keeps | apply State.trcSync_keeps)
    | (with_reducible apply Keeps.ite)
    | split
    | exact Sub.of rfl
    | dsimp only

theorem State.trcOverflow_keeps {mk : Nat} {z s : State} (hk : Keeps mk z s) (reason flags : Nat) (counts : List Nat) (t0 c0 sync : Nat) (hm : Sub 0x11EE5F7 mk := by exact Sub.of rfl) :
    Keeps mk z (State.trcOverflow s reason flags counts t0 c0 sync).2 := by
  refine hk.within hm ?_
  replace hk : Keeps 0x11EE5F7 s s := .refl _
  unfold State.trcOverflow
  repeat' first
    | (extract_lets -descend +onlyGivenNames x0; refine Keeps.cut (m := 0x11EE5F7) (z := s) (v := x0) ?_ (fun h0 => ?_); rotate_left; clear_value x0; rotate_left; dsimp -zeta only [x0]; clear x0)
    | (extract_lets -descend +onlyGivenNames x0; clear_value x0)
    | with_reducible intro _
    | lift_lets
    | with_reducible assumption
    | (with_reducible first | apply State.bumpSat_keeps | apply State.trcSync_keeps | apply State.trcPut_keeps)
    | (with_reducible apply Keeps.ite)
    | (with_reducible apply Keeps.foldl)
    | (with_reducible apply Keeps.foldlSnd)
    | split
    | (refine Keeps.snd ?_ (by assumption))
    | exact Sub.of rfl
    | dsimp only

theorem State.trcGap_keeps {mk : Nat} {z s : State} (hk : Keeps mk z s) (reason sync : Nat) (hm : Sub 0x11EE5F7 mk := by exact Sub.of rfl) :
    Keeps mk z (State.trcGap s reason sync) := by
  refine hk.within hm ?_
  replace hk : Keeps 0x11EE5F7 s s := .refl _
  unfold State.trcGap
  repeat' first
    | (extract_lets -descend +onlyGivenNames x0; refine Keeps.cut (m := 0x11EE5F7) (z := s) (v := x0) ?_ (fun h0 => ?_); rotate_left; clear_value x0; rotate_left; dsimp -zeta only [x0]; clear x0)
    | (extract_lets -descend +onlyGivenNames x0; clear_value x0)
    | with_reducible intro _
    | lift_lets
    | with_reducible assumption
    | (with_reducible first | apply State.modTrace_keeps | apply State.trcOverflow_keeps)
    | (with_reducible refine Keeps.mk0 ?_ ?g; (first | with_reducible assumption | (refine Keeps.snd ?_ (by assumption)) | (refine Keeps.some ?_ (by assumption)) | (with_reducible first | apply State.modTrace_keeps | apply State.trcOverflow_keeps)); with_reducible case g => exact fun h => Keeps.mk' h)
    | (with_reducible apply Keeps.ite)
    | split
    | (refine Keeps.snd ?_ (by assumption))
    | exact Sub.of rfl
    | dsimp only

theorem State.trcResume_keeps {mk : Nat} {z s : State} (hk : Keeps mk z s) (hm : Sub 0x11EE5F7 mk := by exact Sub.of rfl) :
    Keeps mk z (State.trcResume s) := by
  refine hk.within hm ?_
  replace hk : Keeps 0x11EE5F7 s s := .refl _
  unfold State.trcResume
  repeat' first
    | with_reducible intro _
    | with_reducible assumption
    | (with_reducible first | apply State.modTrace_keeps | apply State.trcGap_keeps)
    | (with_reducible refine Keeps.mk0 ?_ ?g; (first | with_reducible assumption | (refine Keeps.snd ?_ (by assumption)) | (refine Keeps.some ?_ (by assumption)) | (with_reducible first | apply State.modTrace_keeps | apply State.trcGap_keeps)); with_reducible case g => exact fun h => Keeps.mk' h)
    | (with_reducible apply Keeps.ite)
    | split
    | exact Sub.of rfl
    | dsimp only

theorem State.exclClose_keeps {mk : Nat} {z s : State} (hk : Keeps mk z s) (hm : Sub 0x11EE5F7 mk := by exact Sub.of rfl) :
    Keeps mk z (State.exclClose s) := by
  refine hk.within hm ?_
  replace hk : Keeps 0x11EE5F7 s s := .refl _
  unfold State.exclClose
  repeat' first
    | (extract_lets -descend +onlyGivenNames x0; refine Keeps.cut (m := 0x11EE5F7) (z := s) (v := x0) ?_ (fun h0 => ?_); rotate_left; clear_value x0; rotate_left; dsimp -zeta only [x0]; clear x0)
    | (extract_lets -descend +onlyGivenNames x0; clear_value x0)
    | with_reducible intro _
    | lift_lets
    | with_reducible assumption
    | (with_reducible first | apply State.bumpSat_keeps | apply State.modTrace_keeps | apply State.trcPut_keeps)
    | (with_reducible refine Keeps.mk0 ?_ ?g; (first | with_reducible assumption | (refine Keeps.snd ?_ (by assumption)) | (refine Keeps.some ?_ (by assumption)) | (with_reducible first | apply State.bumpSat_keeps | apply State.modTrace_keeps | apply State.trcPut_keeps)); with_reducible case g => exact fun h => Keeps.mk' h)
    | (with_reducible apply Keeps.ite)
    | split
    | (refine Keeps.some ?_ (by assumption))
    | exact Sub.of rfl
    | dsimp only

theorem State.itemCount_keeps {mk : Nat} {z s : State} (hk : Keeps mk z s) (k : Nat) (hm : Sub 0x4001 mk := by exact Sub.of rfl) :
    Keeps mk z (State.itemCount s k) := by
  refine hk.within hm ?_
  replace hk : Keeps 0x4001 s s := .refl _
  unfold State.itemCount
  repeat' first
    | with_reducible intro _
    | with_reducible assumption
    | (with_reducible first | apply State.bumpSat_keeps | apply State.modTrace_keeps)
    | (with_reducible refine Keeps.mk0 ?_ ?g; (first | with_reducible assumption | (refine Keeps.snd ?_ (by assumption)) | (refine Keeps.some ?_ (by assumption)) | (with_reducible first | apply State.bumpSat_keeps | apply State.modTrace_keeps)); with_reducible case g => exact fun h => Keeps.mk' h)
    | exact Sub.of rfl
    | dsimp only

theorem State.itemEncode_keeps {mk : Nat} {z s : State} (hk : Keeps mk z s) (i0 : TItem) (hm : Sub 0x11EE5F7 mk := by exact Sub.of rfl) :
    Keeps mk z (State.itemEncode s i0) := by
  refine hk.within hm ?_
  replace hk : Keeps 0x11EE5F7 s s := .refl _
  unfold State.itemEncode
  repeat' first
    | (extract_lets -descend +onlyGivenNames x0; refine Keeps.cut (m := 0x11EE5F7) (z := s) (v := x0) ?_ (fun h0 => ?_); rotate_left; clear_value x0; rotate_left; dsimp -zeta only [x0]; clear x0)
    | (extract_lets -descend +onlyGivenNames x0; clear_value x0)
    | with_reducible intro _
    | lift_lets
    | with_reducible assumption
    | (with_reducible first | apply State.modTrace_keeps | apply State.trcRaw_keeps | apply State.trcSync_keeps | apply State.itemCount_keeps)
    | (with_reducible refine Keeps.mk0 ?_ ?g; (first | with_reducible assumption | (refine Keeps.snd ?_ (by assumption)) | (refine Keeps.some ?_ (by assumption)) | (with_reducible first | apply State.modTrace_keeps | apply State.trcRaw_keeps | apply State.trcSync_keeps | apply State.itemCount_keeps)); with_reducible case g => exact fun h => Keeps.mk' h)
    | (with_reducible apply Keeps.ite)
    | split
    | (refine Keeps.snd ?_ (by assumption))
    | exact Sub.of rfl
    | dsimp only

theorem State.winOpenAt_keeps {mk : Nat} {z s : State} (hk : Keeps mk z s) (num : Nat) (hm : Sub 0x1004003 mk := by exact Sub.of rfl) :
    Keeps mk z (State.winOpenAt s num) := by
  refine hk.within hm ?_
  replace hk : Keeps 0x1004003 s s := .refl _
  unfold State.winOpenAt
  repeat' first
    | (extract_lets -descend +onlyGivenNames x0; refine Keeps.cut (m := 0x1004003) (z := s) (v := x0) ?_ (fun h0 => ?_); rotate_left; clear_value x0; rotate_left; dsimp -zeta only [x0]; clear x0)
    | (extract_lets -descend +onlyGivenNames x0; clear_value x0)
    | with_reducible intro _
    | lift_lets
    | with_reducible assumption
    | (with_reducible first | apply State.draw_keeps | apply State.modTrace_keeps | apply State.winAdvance_keeps)
    | (with_reducible refine Keeps.mk0 ?_ ?g; (first | with_reducible assumption | (refine Keeps.snd ?_ (by assumption)) | (refine Keeps.some ?_ (by assumption)) | (with_reducible first | apply State.draw_keeps | apply State.modTrace_keeps | apply State.winAdvance_keeps)); with_reducible case g => exact fun h => Keeps.mk' h)
    | (with_reducible apply Keeps.ite)
    | split
    | (refine Keeps.some ?_ (by assumption))
    | (refine Keeps.snd ?_ (by assumption))
    | exact Sub.of rfl
    | dsimp only

theorem State.trcTrigger_keeps {mk : Nat} {z s : State} (hk : Keeps mk z s) (srcs : Nat) (hm : Sub 0x11EE5F7 mk := by exact Sub.of rfl) :
    Keeps mk z (State.trcTrigger s srcs) := by
  refine hk.within hm ?_
  replace hk : Keeps 0x11EE5F7 s s := .refl _
  unfold State.trcTrigger
  repeat' first
    | (extract_lets -descend +onlyGivenNames x0; refine Keeps.cut (m := 0x11EE5F7) (z := s) (v := x0) ?_ (fun h0 => ?_); rotate_left; clear_value x0; rotate_left; dsimp -zeta only [x0]; clear x0)
    | (extract_lets -descend +onlyGivenNames x0; clear_value x0)
    | with_reducible intro _
    | lift_lets
    | with_reducible assumption
    | (with_reducible first | apply State.bumpSat_keeps | apply State.irq_keeps | apply State.modTrace_keeps | apply State.trcPut_keeps | apply State.winOpenAt_keeps)
    | (with_reducible refine Keeps.mk0 ?_ ?g; (first | with_reducible assumption | (refine Keeps.snd ?_ (by assumption)) | (refine Keeps.some ?_ (by assumption)) | (with_reducible first | apply State.bumpSat_keeps | apply State.irq_keeps | apply State.modTrace_keeps | apply State.trcPut_keeps | apply State.winOpenAt_keeps)); with_reducible case g => exact fun h => Keeps.mk' h)
    | (with_reducible apply Keeps.ite)
    | split
    | (refine Keeps.snd ?_ (by assumption))
    | exact Sub.of rfl
    | dsimp only

theorem State.authChange_keeps {mk : Nat} {z s : State} (hk : Keeps mk z s) (id action : Nat) (hm : Sub 0x11EE5F7 mk := by exact Sub.of rfl) :
    Keeps mk z (State.authChange s id action) := by
  refine hk.within hm ?_
  replace hk : Keeps 0x11EE5F7 s s := .refl _
  unfold State.authChange
  repeat' first
    | (extract_lets -descend +onlyGivenNames x0; refine Keeps.cut (m := 0x11EE5F7) (z := s) (v := x0) ?_ (fun h0 => ?_); rotate_left; clear_value x0; rotate_left; dsimp -zeta only [x0]; clear x0)
    | (extract_lets -descend +onlyGivenNames x0; clear_value x0)
    | lift_lets
    | with_reducible assumption
    | (with_reducible first | apply State.irq_keeps | apply State.trcSync_keeps | apply State.trcPut_keeps | apply State.exclClose_keeps)
    | (with_reducible apply Keeps.ite)
    | split
    | exact Sub.of rfl
    | dsimp only

theorem State.tokJudge_keeps {mk : Nat} {z s : State} (hk : Keeps mk z s) (e : Nat) (hm : Sub 0x11EE5F7 mk := by exact Sub.of rfl) :
    Keeps mk z (State.tokJudge s e) := by
  refine hk.within hm ?_
  replace hk : Keeps 0x11EE5F7 s s := .refl _
  unfold State.tokJudge
  repeat' first
    | (extract_lets -descend +onlyGivenNames x0; refine Keeps.cut (m := 0x11EE5F7) (z := s) (v := x0) ?_ (fun h0 => ?_); rotate_left; clear_value x0; rotate_left; dsimp -zeta only [x0]; clear x0)
    | (extract_lets -descend +onlyGivenNames x0; clear_value x0)
    | with_reducible intro _
    | lift_lets
    | with_reducible assumption
    | (with_reducible first | apply State.modTrace_keeps | apply State.authChange_keeps)
    | (with_reducible refine Keeps.mk0 ?_ ?g; (first | with_reducible assumption | (refine Keeps.snd ?_ (by assumption)) | (refine Keeps.some ?_ (by assumption)) | (with_reducible first | apply State.modTrace_keeps | apply State.authChange_keeps)); with_reducible case g => exact fun h => Keeps.mk' h)
    | (with_reducible apply Keeps.ite)
    | split
    | (refine Keeps.some ?_ (by assumption))
    | exact Sub.of rfl
    | dsimp only

theorem State.tokJudgeAll_keeps {mk : Nat} {z s : State} (hk : Keeps mk z s) (hm : Sub 0x11EE5F7 mk := by exact Sub.of rfl) :
    Keeps mk z (State.tokJudgeAll s) := by
  refine hk.within hm ?_
  replace hk : Keeps 0x11EE5F7 s s := .refl _
  unfold State.tokJudgeAll
  repeat' first
    | with_reducible intro _
    | with_reducible assumption
    | with_reducible apply State.tokJudge_keeps
    | (with_reducible apply Keeps.foldl)
    | exact Sub.of rfl
    | dsimp only

theorem State.tokRemove_keeps {mk : Nat} {z s : State} (hk : Keeps mk z s) (e : Nat) (hm : Sub 0x11EE5F7 mk := by exact Sub.of rfl) :
    Keeps mk z (State.tokRemove s e) := by
  refine hk.within hm ?_
  replace hk : Keeps 0x11EE5F7 s s := .refl _
  unfold State.tokRemove
  repeat' first
    | with_reducible intro _
    | with_reducible assumption
    | (with_reducible first | apply State.modTrace_keeps | apply State.authChange_keeps)
    | (with_reducible refine Keeps.mk0 ?_ ?g; (first | with_reducible assumption | (refine Keeps.snd ?_ (by assumption)) | (refine Keeps.some ?_ (by assumption)) | (with_reducible first | apply State.modTrace_keeps | apply State.authChange_keeps)); with_reducible case g => exact fun h => Keeps.mk' h)
    | split
    | (refine Keeps.some ?_ (by assumption))
    | exact Sub.of rfl
    | dsimp only

theorem State.floorRisen_keeps {mk : Nat} {z s : State} (hk : Keeps mk z s) (hm : Sub 0x11EE5F7 mk := by exact Sub.of rfl) :
    Keeps mk z (State.floorRisen s) := by
  refine hk.within hm ?_
  replace hk : Keeps 0x11EE5F7 s s := .refl _
  unfold State.floorRisen
  repeat' first
    | (extract_lets -descend +onlyGivenNames x0; refine Keeps.cut (m := 0x11EE5F7) (z := s) (v := x0) ?_ (fun h0 => ?_); rotate_left; clear_value x0; rotate_left; dsimp -zeta only [x0]; clear x0)
    | (extract_lets -descend +onlyGivenNames x0; clear_value x0)
    | with_reducible intro _
    | lift_lets
    | with_reducible assumption
    | (with_reducible first | apply State.modTrace_keeps | apply State.exclClose_keeps | apply State.authChange_keeps | apply State.tokRemove_keeps)
    | (with_reducible refine Keeps.mk0 ?_ ?g; (first | with_reducible assumption | (refine Keeps.snd ?_ (by assumption)) | (refine Keeps.some ?_ (by assumption)) | (with_reducible first | apply State.modTrace_keeps | apply State.exclClose_keeps | apply State.authChange_keeps | apply State.tokRemove_keeps)); with_reducible case g => exact fun h => Keeps.mk' h)
    | (with_reducible apply Keeps.ite)
    | (with_reducible apply Keeps.foldl)
    | split
    | exact Sub.of rfl
    | dsimp only

theorem State.traceKeyRevoked_keeps {mk : Nat} {z s : State} (hk : Keeps mk z s) (slot : Nat) (hm : Sub 0x11EE5F7 mk := by exact Sub.of rfl) :
    Keeps mk z (State.traceKeyRevoked s slot) := by
  refine hk.within hm ?_
  replace hk : Keeps 0x11EE5F7 s s := .refl _
  unfold State.traceKeyRevoked
  repeat' first
    | with_reducible intro _
    | with_reducible assumption
    | with_reducible apply State.tokRemove_keeps
    | (with_reducible apply Keeps.foldl)
    | exact Sub.of rfl
    | dsimp only

theorem State.trcQual_keeps {mk : Nat} {z s : State} (hk : Keeps mk z s) (step : Bool) (hm : Sub 0x11EE5F7 mk := by exact Sub.of rfl) :
    Keeps mk z (State.trcQual s step) := by
  refine hk.within hm ?_
  replace hk : Keeps 0x11EE5F7 s s := .refl _
  unfold State.trcQual
  repeat' first
    | (extract_lets -descend +onlyGivenNames x0; refine Keeps.cut (m := 0x11EE5F7) (z := s) (v := x0) ?_ (fun h0 => ?_); rotate_left; clear_value x0; rotate_left; dsimp -zeta only [x0]; clear x0)
    | (extract_lets -descend +onlyGivenNames x0; clear_value x0)
    | lift_lets
    | with_reducible assumption
    | (with_reducible first | apply State.trcPut_keeps | apply State.tokJudgeAll_keeps)
    | (with_reducible apply Keeps.ite)
    | split
    | exact Sub.of rfl
    | dsimp only

theorem State.trcStep_keeps {mk : Nat} {z s : State} (hk : Keeps mk z s) (old : Nat) (hm : Sub 0x11EE5F7 mk := by exact Sub.of rfl) :
    Keeps mk z (State.trcStep s old) := by
  refine hk.within hm ?_
  replace hk : Keeps 0x11EE5F7 s s := .refl _
  unfold State.trcStep
  repeat' first
    | (extract_lets -descend +onlyGivenNames x0; refine Keeps.cut (m := 0x11EE5F7) (z := s) (v := x0) ?_ (fun h0 => ?_); rotate_left; clear_value x0; rotate_left; dsimp -zeta only [x0]; clear x0)
    | (extract_lets -descend +onlyGivenNames x0; clear_value x0)
    | with_reducible intro _
    | lift_lets
    | with_reducible assumption
    | (with_reducible first | apply State.modTrace_keeps | apply State.trcSync_keeps)
    | (with_reducible refine Keeps.mk0 ?_ ?g; (first | with_reducible assumption | (refine Keeps.snd ?_ (by assumption)) | (refine Keeps.some ?_ (by assumption)) | (with_reducible first | apply State.modTrace_keeps | apply State.trcSync_keeps)); with_reducible case g => exact fun h => Keeps.mk' h)
    | exact Sub.of rfl
    | dsimp only

theorem State.trcHold_keeps {mk : Nat} {z s : State} (hk : Keeps mk z s) (stamp : Nat) (hm : Sub 0x11EE5F7 mk := by exact Sub.of rfl) :
    Keeps mk z (State.trcHold s stamp) := by
  refine hk.within hm ?_
  replace hk : Keeps 0x11EE5F7 s s := .refl _
  unfold State.trcHold
  repeat' first
    | (extract_lets -descend +onlyGivenNames x0; refine Keeps.cut (m := 0x11EE5F7) (z := s) (v := x0) ?_ (fun h0 => ?_); rotate_left; clear_value x0; rotate_left; dsimp -zeta only [x0]; clear x0)
    | (extract_lets -descend +onlyGivenNames x0; clear_value x0)
    | with_reducible intro _
    | lift_lets
    | with_reducible assumption
    | (with_reducible first | apply State.modTrace_keeps | apply State.trcClose_keeps | apply State.trcPut_keeps | apply State.exclClose_keeps | apply State.trcTrigger_keeps)
    | (with_reducible refine Keeps.mk0 ?_ ?g; (first | with_reducible assumption | (refine Keeps.snd ?_ (by assumption)) | (refine Keeps.some ?_ (by assumption)) | (with_reducible first | apply State.modTrace_keeps | apply State.trcClose_keeps | apply State.trcPut_keeps | apply State.exclClose_keeps | apply State.trcTrigger_keeps)); with_reducible case g => exact fun h => Keeps.mk' h)
    | (with_reducible apply Keeps.ite)
    | split
    | exact Sub.of rfl
    | dsimp only

theorem State.trcRelease_keeps {mk : Nat} {z s : State} (hk : Keeps mk z s) (hm : Sub 0x11EE5F7 mk := by exact Sub.of rfl) :
    Keeps mk z (State.trcRelease s) := by
  refine hk.within hm ?_
  replace hk : Keeps 0x11EE5F7 s s := .refl _
  unfold State.trcRelease
  repeat' first
    | (extract_lets -descend +onlyGivenNames x0; refine Keeps.cut (m := 0x11EE5F7) (z := s) (v := x0) ?_ (fun h0 => ?_); rotate_left; clear_value x0; rotate_left; dsimp -zeta only [x0]; clear x0)
    | (extract_lets -descend +onlyGivenNames x0; clear_value x0)
    | with_reducible intro _
    | lift_lets
    | with_reducible assumption
    | (with_reducible first | apply State.modTrace_keeps | apply State.trcGap_keeps)
    | (with_reducible refine Keeps.mk0 ?_ ?g; (first | with_reducible assumption | (refine Keeps.snd ?_ (by assumption)) | (refine Keeps.some ?_ (by assumption)) | (with_reducible first | apply State.modTrace_keeps | apply State.trcGap_keeps)); with_reducible case g => exact fun h => Keeps.mk' h)
    | (with_reducible apply Keeps.ite)
    | split
    | exact Sub.of rfl
    | dsimp only

end Sys2Proof.Machine
end

