-- ==== Sys2Proof/Laws/KeepsOps.lean ====
section
/-! SUPPORT. What the operations of Machine/Ops.lean keep. -/

set_option Elab.async false

namespace Sys2Proof.Machine

theorem present_keeps {mk : Nat} {z t : State} (hk : Keeps mk z t) (c : Bool) (hm : Sub 0x0 mk := by exact Sub.of rfl) :
    KeepsR mk z (present c t) := by
  refine KeepsR.within hk hm ?_
  replace hk : Keeps 0x0 t t := .refl _
  unfold present
  repeat' first
    | with_reducible assumption
    | (with_reducible first | apply KeepsR.present | apply KeepsR.next | exact KeepsR.fault)
    | (with_reducible apply Keeps.ite)
    | split
    | exact Sub.of rfl
    | dsimp only

theorem State.tallyMod_keeps {mk : Nat} {z s : State} (hk : Keeps mk z s) (stream : Nat) (f : Tally → Tally) (hm : Sub 0x40 mk := by exact Sub.of rfl) :
    Keeps mk z (State.tallyMod s stream f) := by
  refine hk.within hm ?_
  replace hk : Keeps 0x40 s s := .refl _
  unfold State.tallyMod
  repeat' first
    | with_reducible assumption
    | (with_reducible refine Keeps.mk0 ?_ ?g; (first | with_reducible assumption | (refine Keeps.snd ?_ (by assumption)) | (refine Keeps.some ?_ (by assumption))); with_reducible case g => exact fun h => Keeps.mk' h)
    | exact Sub.of rfl
    | dsimp only

theorem State.produced_keeps {mk : Nat} {z s : State} (hk : Keeps mk z s) (stream : Nat) (hm : Sub 0x40 mk := by exact Sub.of rfl) :
    Keeps mk z (State.produced s stream) := by
  refine hk.within hm ?_
  replace hk : Keeps 0x40 s s := .refl _
  unfold State.produced
  repeat' first
    | with_reducible intro _
    | with_reducible assumption
    | with_reducible apply State.tallyMod_keeps
    | (with_reducible refine Keeps.mk0 ?_ ?g; (first | with_reducible assumption | (refine Keeps.snd ?_ (by assumption)) | (refine Keeps.some ?_ (by assumption)) | (with_reducible first | apply State.tallyMod_keeps)); with_reducible case g => exact fun h => Keeps.mk' h)
    | exact Sub.of rfl
    | dsimp only

theorem State.delivered_keeps {mk : Nat} {z s : State} (hk : Keeps mk z s) (stream : Nat) (hm : Sub 0x40 mk := by exact Sub.of rfl) :
    Keeps mk z (State.delivered s stream) := by
  refine hk.within hm ?_
  replace hk : Keeps 0x40 s s := .refl _
  unfold State.delivered
  repeat' first
    | with_reducible intro _
    | with_reducible assumption
    | with_reducible apply State.tallyMod_keeps
    | (with_reducible refine Keeps.mk0 ?_ ?g; (first | with_reducible assumption | (refine Keeps.snd ?_ (by assumption)) | (refine Keeps.some ?_ (by assumption)) | (with_reducible first | apply State.tallyMod_keeps)); with_reducible case g => exact fun h => Keeps.mk' h)
    | exact Sub.of rfl
    | dsimp only

theorem State.merged_keeps {mk : Nat} {z s : State} (hk : Keeps mk z s) (stream : Nat) (hm : Sub 0x40 mk := by exact Sub.of rfl) :
    Keeps mk z (State.merged s stream) := by
  refine hk.within hm ?_
  replace hk : Keeps 0x40 s s := .refl _
  unfold State.merged
  repeat' first
    | with_reducible intro _
    | with_reducible assumption
    | with_reducible apply State.tallyMod_keeps
    | (with_reducible refine Keeps.mk0 ?_ ?g; (first | with_reducible assumption | (refine Keeps.snd ?_ (by assumption)) | (refine Keeps.some ?_ (by assumption)) | (with_reducible first | apply State.tallyMod_keeps)); with_reducible case g => exact fun h => Keeps.mk' h)
    | exact Sub.of rfl
    | dsimp only

theorem State.dupCounted_keeps {mk : Nat} {z s : State} (hk : Keeps mk z s) (stream : Nat) (hm : Sub 0x40 mk := by exact Sub.of rfl) :
    Keeps mk z (State.dupCounted s stream) := by
  refine hk.within hm ?_
  replace hk : Keeps 0x40 s s := .refl _
  unfold State.dupCounted
  repeat' first
    | with_reducible intro _
    | with_reducible assumption
    | with_reducible apply State.tallyMod_keeps
    | (with_reducible refine Keeps.mk0 ?_ ?g; (first | with_reducible assumption | (refine Keeps.snd ?_ (by assumption)) | (refine Keeps.some ?_ (by assumption)) | (with_reducible first | apply State.tallyMod_keeps)); with_reducible case g => exact fun h => Keeps.mk' h)
    | exact Sub.of rfl
    | dsimp only

theorem State.dropped_keeps {mk : Nat} {z s : State} (hk : Keeps mk z s) (stream reason : Nat) (hm : Sub 0x440 mk := by exact Sub.of rfl) :
    Keeps mk z (State.dropped s stream reason) := by
  refine hk.within hm ?_
  replace hk : Keeps 0x440 s s := .refl _
  unfold State.dropped
  repeat' first
    | (extract_lets -descend +onlyGivenNames x0; refine Keeps.cut (m := 0x440) (z := s) (v := x0) ?_ (fun h0 => ?_); rotate_left; clear_value x0; rotate_left; dsimp -zeta only [x0]; clear x0)
    | (extract_lets -descend +onlyGivenNames x0; clear_value x0)
    | with_reducible intro _
    | lift_lets
    | with_reducible assumption
    | with_reducible apply State.tallyMod_keeps
    | (with_reducible refine Keeps.mk0 ?_ ?g; (first | with_reducible assumption | (refine Keeps.snd ?_ (by assumption)) | (refine Keeps.some ?_ (by assumption)) | (with_reducible first | apply State.tallyMod_keeps)); with_reducible case g => exact fun h => Keeps.mk' h)
    | (with_reducible apply Keeps.ite)
    | split
    | (refine Keeps.some ?_ (by assumption))
    | exact Sub.of rfl
    | dsimp only

theorem State.originateRaw_keeps {mk : Nat} {z s : State} (hk : Keeps mk z s) (type tc stream : Nat) (payload : List Byte) (hm : Sub 0x60 mk := by exact Sub.of rfl) :
    Keeps mk z (State.originateRaw s type tc stream payload).2 := by
  refine hk.within hm ?_
  replace hk : Keeps 0x60 s s := .refl _
  unfold State.originateRaw
  repeat' first
    | (extract_lets -descend +onlyGivenNames x0; refine Keeps.cut (m := 0x60) (z := s) (v := x0) ?_ (fun h0 => ?_); rotate_left; clear_value x0; rotate_left; dsimp -zeta only [x0]; clear x0)
    | (extract_lets -descend +onlyGivenNames x0; first
        | ((with_reducible first | have _w : LinkSt := x0 | have _w : TimeSt := x0 | have _w : PowerSt := x0 | have _w : SampSt := x0 | have _w : FwSt := x0 | have _w : AuthSt := x0 | have _w : PulseSt := x0 | have _w : CoreSt := x0); clear _w; dsimp -zeta only [x0]; clear x0)
        | clear_value x0)
    | with_reducible intro _
    | lift_lets
    | with_reducible assumption
    | (with_reducible first | apply KeepsR.present | apply KeepsR.next | exact KeepsR.fault | exact KeepsO.none | apply KeepsO.some | apply State.produced_keeps)
    | (with_reducible refine State.modRegion_keeps ?_ _ _ (fun _ w => w))
    | (with_reducible refine State.modFw_keeps ?_ _ ⟨rfl, rfl⟩)
    | (with_reducible refine State.modAuth_keeps ?_ _ ⟨rfl, rfl⟩)
    | (with_reducible refine Keeps.mk0 ?_ ?g; (first | with_reducible assumption | (refine Keeps.snd ?_ (by assumption)) | (refine Keeps.some ?_ (by assumption)) | (with_reducible first | apply State.produced_keeps)); with_reducible case g => exact fun h => Keeps.mk' h)
    | (with_reducible apply Keeps.ite)
    | (with_reducible apply Keeps.foldl)
    | (with_reducible apply Keeps.foldlSnd)
    | (with_reducible apply Keeps.foldlFst)
    | split
    | (refine Keeps.some ?_ (by assumption))
    | (refine Keeps.snd ?_ (by assumption))
    | exact Sub.of rfl
    | dsimp only

theorem State.modPort_keeps {mk : Nat} {z s : State} (h : Keeps mk z s) (p : Nat) (f : Port → Port) (hm : Sub 0x20 mk := by exact Sub.of rfl) :
    Keeps mk z (State.modPort s p f) := by
  refine h.within hm ?_
  replace h : Keeps 0x20 s s := .refl _
  exact h.mk' ⟨rfl, rfl, modNth_length _ _ _, rfl, rfl, rfl, rfl, rfl⟩

theorem State.modCls_keeps {mk : Nat} {z s : State} (hk : Keeps mk z s) (p c : Nat) (f : TxRx → TxRx) (hm : Sub 0x20 mk := by exact Sub.of rfl) :
    Keeps mk z (State.modCls s p c f) := by
  refine hk.within hm ?_
  replace hk : Keeps 0x20 s s := .refl _
  unfold State.modCls
  repeat' first
    | with_reducible intro _
    | with_reducible assumption
    | with_reducible apply State.modPort_keeps
    | exact Sub.of rfl
    | dsimp only

theorem State.withhold_keeps {mk : Nat} {z s : State} (hk : Keeps mk z s) (p c credits : Nat) (hm : Sub 0x20 mk := by exact Sub.of rfl) :
    Keeps mk z (State.withhold s p c credits) := by
  refine hk.within hm ?_
  replace hk : Keeps 0x20 s s := .refl _
  unfold State.withhold
  repeat' first
    | with_reducible intro _
    | with_reducible assumption
    | with_reducible apply State.modCls_keeps
    | (with_reducible refine Keeps.mk0 ?_ ?g; (first | with_reducible assumption | (refine Keeps.snd ?_ (by assumption)) | (refine Keeps.some ?_ (by assumption)) | (with_reducible first | apply State.modCls_keeps)); with_reducible case g => exact fun h => Keeps.mk' h)
    | (with_reducible apply Keeps.ite)
    | split
    | exact Sub.of rfl
    | dsimp only

theorem State.letGo_keeps {mk : Nat} {z s : State} (hk : Keeps mk z s) (p c credits : Nat) (hm : Sub 0x20 mk := by exact Sub.of rfl) :
    Keeps mk z (State.letGo s p c credits) := by
  refine hk.within hm ?_
  replace hk : Keeps 0x20 s s := .refl _
  unfold State.letGo
  repeat' first
    | with_reducible intro _
    | with_reducible assumption
    | with_reducible apply State.modCls_keeps
    | (with_reducible refine Keeps.mk0 ?_ ?g; (first | with_reducible assumption | (refine Keeps.snd ?_ (by assumption)) | (refine Keeps.some ?_ (by assumption)) | (with_reducible first | apply State.modCls_keeps)); with_reducible case g => exact fun h => Keeps.mk' h)
    | (with_reducible apply Keeps.ite)
    | split
    | exact Sub.of rfl
    | dsimp only

theorem State.modDom_keeps {mk : Nat} {z s : State} (h : Keeps mk z s) (d : Nat) (f : Dom → Dom) (hm : Sub 0x80000 mk := by exact Sub.of rfl) :
    Keeps mk z (State.modDom s d f) := by
  refine h.within hm ?_
  replace h : Keeps 0x80000 s s := .refl _
  exact h.mk' ⟨rfl, rfl, rfl, rfl, map_fst_modDom _ _ _, rfl, rfl, rfl⟩

theorem State.startMove_keeps {mk : Nat} {z s : State} (hk : Keeps mk z s) (d tgt : Nat) (hm : Sub 0x80000 mk := by exact Sub.of rfl) :
    Keeps mk z (State.startMove s d tgt) := by
  refine hk.within hm ?_
  replace hk : Keeps 0x80000 s s := .refl _
  unfold State.startMove
  repeat' first
    | with_reducible intro _
    | with_reducible assumption
    | with_reducible apply State.modDom_keeps
    | (with_reducible refine Keeps.mk0 ?_ ?g; (first | with_reducible assumption | (refine Keeps.snd ?_ (by assumption)) | (refine Keeps.some ?_ (by assumption)) | (with_reducible first | apply State.modDom_keeps)); with_reducible case g => exact fun h => Keeps.mk' h)
    | (with_reducible apply Keeps.ite)
    | split
    | exact Sub.of rfl
    | dsimp only

theorem State.wakeOne_keeps {mk : Nat} {z s : State} (hk : Keeps mk z s) (d : Nat) (hm : Sub 0x80000 mk := by exact Sub.of rfl) :
    Keeps mk z (State.wakeOne s d) := by
  refine hk.within hm ?_
  replace hk : Keeps 0x80000 s s := .refl _
  unfold State.wakeOne
  repeat' first
    | (extract_lets -descend +onlyGivenNames x0; refine Keeps.cut (m := 0x80000) (z := s) (v := x0) ?_ (fun h0 => ?_); rotate_left; clear_value x0; rotate_left; dsimp -zeta only [x0]; clear x0)
    | (extract_lets -descend +onlyGivenNames x0; clear_value x0)
    | with_reducible intro _
    | lift_lets
    | with_reducible assumption
    | (with_reducible first | apply State.modDom_keeps | apply State.startMove_keeps)
    | (with_reducible refine Keeps.mk0 ?_ ?g; (first | with_reducible assumption | (refine Keeps.snd ?_ (by assumption)) | (refine Keeps.some ?_ (by assumption)) | (with_reducible first | apply State.modDom_keeps | apply State.startMove_keeps)); with_reducible case g => exact fun h => Keeps.mk' h)
    | (with_reducible apply Keeps.ite)
    | split
    | (refine Keeps.some ?_ (by assumption))
    | exact Sub.of rfl
    | dsimp only

theorem State.wake_keeps {mk : Nat} {z s : State} (hk : Keeps mk z s) (d : Nat) (hm : Sub 0x80000 mk := by exact Sub.of rfl) :
    Keeps mk z (State.wake s d) := by
  refine hk.within hm ?_
  replace hk : Keeps 0x80000 s s := .refl _
  unfold State.wake
  repeat' first
    | with_reducible assumption
    | with_reducible apply State.wakeOne_keeps
    | (with_reducible apply Keeps.ite)
    | split
    | exact Sub.of rfl
    | dsimp only

theorem State.wakeVoted_keeps {mk : Nat} {z s : State} (hk : Keeps mk z s) (hm : Sub 0x80000 mk := by exact Sub.of rfl) :
    Keeps mk z (State.wakeVoted s) := by
  refine hk.within hm ?_
  replace hk : Keeps 0x80000 s s := .refl _
  unfold State.wakeVoted
  repeat' first
    | with_reducible intro _
    | with_reducible assumption
    | with_reducible apply State.wake_keeps
    | (with_reducible apply Keeps.ite)
    | (with_reducible apply Keeps.foldl)
    | split
    | exact Sub.of rfl
    | dsimp only

theorem State.hwVote_keeps {mk : Nat} {z s : State} (hk : Keeps mk z s) (d rule : Nat) (held : Bool) (hm : Sub 0x80000 mk := by exact Sub.of rfl) :
    Keeps mk z (State.hwVote s d rule held) := by
  refine hk.within hm ?_
  replace hk : Keeps 0x80000 s s := .refl _
  unfold State.hwVote
  repeat' first
    | (extract_lets -descend +onlyGivenNames x0; refine Keeps.cut (m := 0x80000) (z := s) (v := x0) ?_ (fun h0 => ?_); rotate_left; clear_value x0; rotate_left; dsimp -zeta only [x0]; clear x0)
    | (extract_lets -descend +onlyGivenNames x0; clear_value x0)
    | with_reducible intro _
    | lift_lets
    | with_reducible assumption
    | (with_reducible first | apply State.modDom_keeps | apply State.wake_keeps)
    | (with_reducible refine Keeps.mk0 ?_ ?g; (first | with_reducible assumption | (refine Keeps.snd ?_ (by assumption)) | (refine Keeps.some ?_ (by assumption)) | (with_reducible first | apply State.modDom_keeps | apply State.wake_keeps)); with_reducible case g => exact fun h => Keeps.mk' h)
    | (with_reducible apply Keeps.ite)
    | split
    | exact Sub.of rfl
    | dsimp only

theorem State.enqueue_keeps {mk : Nat} {z s : State} (hk : Keeps mk z s) (p : Nat) (uid : Nat) (r : Rec) (hm : Sub 0x80020 mk := by exact Sub.of rfl) :
    Keeps mk z (State.enqueue s p uid r) := by
  refine hk.within hm ?_
  replace hk : Keeps 0x80020 s s := .refl _
  unfold State.enqueue
  repeat' first
    | (extract_lets -descend +onlyGivenNames x0; refine Keeps.cut (m := 0x80020) (z := s) (v := x0) ?_ (fun h0 => ?_); rotate_left; clear_value x0; rotate_left; dsimp -zeta only [x0]; clear x0)
    | (extract_lets -descend +onlyGivenNames x0; clear_value x0)
    | with_reducible intro _
    | lift_lets
    | with_reducible assumption
    | (with_reducible first | apply State.modCls_keeps | apply State.wake_keeps)
    | (with_reducible refine Keeps.mk0 ?_ ?g; (first | with_reducible assumption | (refine Keeps.snd ?_ (by assumption)) | (refine Keeps.some ?_ (by assumption)) | (with_reducible first | apply State.modCls_keeps | apply State.wake_keeps)); with_reducible case g => exact fun h => Keeps.mk' h)
    | (with_reducible apply Keeps.ite)
    | split
    | exact Sub.of rfl
    | dsimp only

theorem State.newPend_keeps {mk : Nat} {z s : State} (hk : Keeps mk z s) (stream : Nat) (tallied : Bool) (ev : Option Nat) (copies : Nat) (hm : Sub 0x30 mk := by exact Sub.of rfl) :
    Keeps mk z (State.newPend s stream tallied ev copies).2 := by
  refine hk.within hm ?_
  replace hk : Keeps 0x30 s s := .refl _
  unfold State.newPend
  repeat' first
    | with_reducible assumption
    | (with_reducible refine Keeps.mk0 ?_ ?g; (first | with_reducible assumption | (refine Keeps.snd ?_ (by assumption)) | (refine Keeps.some ?_ (by assumption))); with_reducible case g => exact fun h => Keeps.mk' h)
    | exact Sub.of rfl
    | dsimp only

theorem State.setBucket_keeps {mk : Nat} {z s : State} (hk : Keeps mk z s) (code level : Nat) (hm : Sub 0x10 mk := by exact Sub.of rfl) :
    Keeps mk z (State.setBucket s code level) := by
  refine hk.within hm ?_
  replace hk : Keeps 0x10 s s := .refl _
  unfold State.setBucket
  repeat' first
    | with_reducible assumption
    | (with_reducible refine Keeps.mk0 ?_ ?g; (first | with_reducible assumption | (refine Keeps.snd ?_ (by assumption)) | (refine Keeps.some ?_ (by assumption))); with_reducible case g => exact fun h => Keeps.mk' h)
    | exact Sub.of rfl
    | dsimp only

theorem State.emitUp_keeps {mk : Nat} {z s : State} (hk : Keeps mk z s) (r : Rec) (ev : Option Nat) (hm : Sub 0x80471 mk := by exact Sub.of rfl) :
    Keeps mk z (State.emitUp s r ev) := by
  refine hk.within hm ?_
  replace hk : Keeps 0x80471 s s := .refl _
  unfold State.emitUp
  repeat' first
    | (extract_lets -descend +onlyGivenNames x0; refine Keeps.cut (m := 0x80471) (z := s) (v := x0) ?_ (fun h0 => ?_); rotate_left; clear_value x0; rotate_left; dsimp -zeta only [x0]; clear x0)
    | (extract_lets -descend +onlyGivenNames x0; clear_value x0)
    | with_reducible intro _
    | lift_lets
    | with_reducible assumption
    | (with_reducible first | apply State.pbump_keeps | apply State.dropped_keeps | apply State.enqueue_keeps | apply State.newPend_keeps | apply State.store_keeps)
    | (with_reducible refine Keeps.mk0 ?_ ?g; (first | with_reducible assumption | (refine Keeps.snd ?_ (by assumption)) | (refine Keeps.some ?_ (by assumption)) | (with_reducible first | apply State.pbump_keeps | apply State.dropped_keeps | apply State.enqueue_keeps | apply State.newPend_keeps | apply State.store_keeps)); with_reducible case g => exact fun h => Keeps.mk' h)
    | (with_reducible apply Keeps.ite)
    | (with_reducible apply Keeps.foldl)
    | (with_reducible apply Keeps.foldlSnd)
    | split
    | (refine Keeps.some ?_ (by assumption))
    | (refine Keeps.snd ?_ (by assumption))
    | exact Sub.of rfl
    | dsimp only

theorem State.holdSpan_keeps {mk : Nat} {z s : State} (hk : Keeps mk z s) (r : Rec) (hm : Sub 0x440 mk := by exact Sub.of rfl) :
    Keeps mk z (State.holdSpan s r) := by
  refine hk.within hm ?_
  replace hk : Keeps 0x440 s s := .refl _
  unfold State.holdSpan
  repeat' first
    | (extract_lets -descend +onlyGivenNames x0; refine Keeps.cut (m := 0x440) (z := s) (v := x0) ?_ (fun h0 => ?_); rotate_left; clear_value x0; rotate_left; dsimp -zeta only [x0]; clear x0)
    | (extract_lets -descend +onlyGivenNames x0; clear_value x0)
    | with_reducible intro _
    | lift_lets
    | with_reducible assumption
    | with_reducible apply State.merged_keeps
    | (with_reducible refine Keeps.mk0 ?_ ?g; (first | with_reducible assumption | (refine Keeps.snd ?_ (by assumption)) | (refine Keeps.some ?_ (by assumption)) | (with_reducible first | apply State.merged_keeps)); with_reducible case g => exact fun h => Keeps.mk' h)
    | (with_reducible apply Keeps.ite)
    | split
    | exact Sub.of rfl
    | dsimp only

theorem State.emitSample_keeps {mk : Nat} {z s : State} (hk : Keeps mk z s) (r : Rec) (hm : Sub 0x80471 mk := by exact Sub.of rfl) :
    Keeps mk z (State.emitSample s r) := by
  refine hk.within hm ?_
  replace hk : Keeps 0x80471 s s := .refl _
  unfold State.emitSample
  repeat' first
    | with_reducible assumption
    | (with_reducible first | apply State.emitUp_keeps | apply State.holdSpan_keeps)
    | (with_reducible apply Keeps.ite)
    | split
    | exact Sub.of rfl
    | dsimp only

theorem State.anchor_keeps {mk : Nat} {z s : State} (hk : Keeps mk z s) (stream tc : Nat) (step : Bool) (hm : Sub 0x80475 mk := by exact Sub.of rfl) :
    Keeps mk z (State.anchor s stream tc step) := by
  refine hk.within hm ?_
  replace hk : Keeps 0x80475 s s := .refl _
  unfold State.anchor
  repeat' first
    | (extract_lets -descend +onlyGivenNames x0; refine Keeps.cut (m := 0x80475) (z := s) (v := x0) ?_ (fun h0 => ?_); rotate_left; clear_value x0; rotate_left; dsimp -zeta only [x0]; clear x0)
    | (extract_lets -descend +onlyGivenNames x0; clear_value x0)
    | lift_lets
    | with_reducible assumption
    | (with_reducible first | apply State.originateRaw_keeps | apply State.emitUp_keeps)
    | (with_reducible refine Keeps.mk0 ?_ ?g; (first | with_reducible assumption | (refine Keeps.snd ?_ (by assumption)) | (refine Keeps.some ?_ (by assumption)) | (with_reducible first | apply State.originateRaw_keeps | apply State.emitUp_keeps)); with_reducible case g => exact fun h => Keeps.mk' h)
    | split
    | (refine Keeps.snd ?_ (by assumption))
    | exact Sub.of rfl
    | dsimp only

theorem State.anchorAll_keeps {mk : Nat} {z s : State} (hk : Keeps mk z s) (step : Bool) (hm : Sub 0x80475 mk := by exact Sub.of rfl) :
    Keeps mk z (State.anchorAll s step) := by
  refine hk.within hm ?_
  replace hk : Keeps 0x80475 s s := .refl _
  unfold State.anchorAll
  repeat' first
    | with_reducible intro _
    | with_reducible assumption
    | with_reducible apply State.anchor_keeps
    | (with_reducible apply Keeps.foldl)
    | exact Sub.of rfl
    | dsimp only

theorem State.originate_keeps {mk : Nat} {z s : State} (hk : Keeps mk z s) (type tc stream : Nat) (payload : List Byte) (hm : Sub 0x80475 mk := by exact Sub.of rfl) :
    Keeps mk z (State.originate s type tc stream payload).2 := by
  refine hk.within hm ?_
  replace hk : Keeps 0x80475 s s := .refl _
  unfold State.originate
  repeat' first
    | (extract_lets -descend +onlyGivenNames x0; refine Keeps.cut (m := 0x80475) (z := s) (v := x0) ?_ (fun h0 => ?_); rotate_left; clear_value x0; rotate_left; dsimp -zeta only [x0]; clear x0)
    | (extract_lets -descend +onlyGivenNames x0; clear_value x0)
    | with_reducible intro _
    | lift_lets
    | with_reducible assumption
    | (with_reducible first | apply State.originateRaw_keeps | apply State.anchor_keeps)
    | (with_reducible apply Keeps.ite)
    | split
    | exact Sub.of rfl
    | dsimp only

theorem State.alarmOut_keeps {mk : Nat} {z s : State} (hk : Keeps mk z s) (r : Rec) (slot : Option Nat) (hm : Sub 0x804F3 mk := by exact Sub.of rfl) :
    Keeps mk z (State.alarmOut s r slot) := by
  refine hk.within hm ?_
  replace hk : Keeps 0x804F3 s s := .refl _
  unfold State.alarmOut
  repeat' first
    | (extract_lets -descend +onlyGivenNames x0; refine Keeps.cut (m := 0x804F3) (z := s) (v := x0) ?_ (fun h0 => ?_); rotate_left; clear_value x0; rotate_left; dsimp -zeta only [x0]; clear x0)
    | (extract_lets -descend +onlyGivenNames x0; clear_value x0)
    | lift_lets
    | with_reducible assumption
    | (with_reducible first | apply State.bump_keeps | apply State.irq_keeps | apply State.merged_keeps | apply State.emitUp_keeps)
    | (with_reducible refine Keeps.mk0 ?_ ?g; (first | with_reducible assumption | (refine Keeps.snd ?_ (by assumption)) | (refine Keeps.some ?_ (by assumption)) | (with_reducible first | apply State.bump_keeps | apply State.irq_keeps | apply State.merged_keeps | apply State.emitUp_keeps)); with_reducible case g => exact fun h => Keeps.mk' h)
    | (with_reducible apply Keeps.ite)
    | split
    | (refine Keeps.some ?_ (by assumption))
    | exact Sub.of rfl
    | dsimp only

theorem State.evSend_keeps {mk : Nat} {z s : State} (hk : Keeps mk z s) (e : EvRec) (id : Nat) (alarm noCoal : Bool) (hm : Sub 0x804F7 mk := by exact Sub.of rfl) :
    Keeps mk z (State.evSend s e id alarm noCoal) := by
  refine hk.within hm ?_
  replace hk : Keeps 0x804F7 s s := .refl _
  unfold State.evSend
  repeat' first
    | (extract_lets -descend +onlyGivenNames x0; refine Keeps.cut (m := 0x804F7) (z := s) (v := x0) ?_ (fun h0 => ?_); rotate_left; clear_value x0; rotate_left; dsimp -zeta only [x0]; clear x0)
    | (extract_lets -descend +onlyGivenNames x0; clear_value x0)
    | lift_lets
    | with_reducible assumption
    | (with_reducible first | apply State.bumpSat_keeps | apply State.emitUp_keeps | apply State.originate_keeps | apply State.alarmOut_keeps)
    | (with_reducible apply Keeps.ite)
    | split
    | (refine Keeps.snd ?_ (by assumption))
    | exact Sub.of rfl
    | dsimp only

theorem State.evWrite_keeps {mk : Nat} {z s : State} (hk : Keeps mk z s) (store : List EvSlot) (code suppr stampV : Nat) (payload : List Byte) (hm : Sub 0x804F7 mk := by exact Sub.of rfl) :
    Keeps mk z (State.evWrite s store code suppr stampV payload) := by
  refine hk.within hm ?_
  replace hk : Keeps 0x804F7 s s := .refl _
  unfold State.evWrite
  repeat' first
    | (extract_lets -descend +onlyGivenNames x0; refine Keeps.cut (m := 0x804F7) (z := s) (v := x0) ?_ (fun h0 => ?_); rotate_left; clear_value x0; rotate_left; dsimp -zeta only [x0]; clear x0)
    | (extract_lets -descend +onlyGivenNames x0; clear_value x0)
    | lift_lets
    | with_reducible assumption
    | (with_reducible first | apply State.irq_keeps | apply State.evSend_keeps)
    | (with_reducible refine Keeps.mk0 ?_ ?g; (first | with_reducible assumption | (refine Keeps.snd ?_ (by assumption)) | (refine Keeps.some ?_ (by assumption)) | (with_reducible first | apply State.irq_keeps | apply State.evSend_keeps)); with_reducible case g => exact fun h => Keeps.mk' h)
    | (with_reducible apply Keeps.ite)
    | split
    | (refine Keeps.some ?_ (by assumption))
    | exact Sub.of rfl
    | dsimp only

theorem State.lossRecord_keeps {mk : Nat} {z s : State} (hk : Keeps mk z s) (hm : Sub 0x804F7 mk := by exact Sub.of rfl) :
    Keeps mk z (State.lossRecord s) := by
  refine hk.within hm ?_
  replace hk : Keeps 0x804F7 s s := .refl _
  unfold State.lossRecord
  repeat' first
    | (extract_lets -descend +onlyGivenNames x0; refine Keeps.cut (m := 0x804F7) (z := s) (v := x0) ?_ (fun h0 => ?_); rotate_left; clear_value x0; rotate_left; dsimp -zeta only [x0]; clear x0)
    | (extract_lets -descend +onlyGivenNames x0; clear_value x0)
    | lift_lets
    | with_reducible assumption
    | (with_reducible first | apply State.evWrite_keeps | apply State.store_keeps)
    | (with_reducible refine Keeps.mk0 ?_ ?g; (first | with_reducible assumption | (refine Keeps.snd ?_ (by assumption)) | (refine Keeps.some ?_ (by assumption)) | (with_reducible first | apply State.evWrite_keeps | apply State.store_keeps)); with_reducible case g => exact fun h => Keeps.mk' h)
    | (with_reducible apply Keeps.ite)
    | split
    | (refine Keeps.some ?_ (by assumption))
    | exact Sub.of rfl
    | dsimp only

theorem State.eventAt_keeps {mk : Nat} {z s : State} (hk : Keeps mk z s) (code stampV : Nat) (payload : List Byte) (hm : Sub 0x804F7 mk := by exact Sub.of rfl) :
    Keeps mk z (State.eventAt s code stampV payload) := by
  refine hk.within hm ?_
  replace hk : Keeps 0x804F7 s s := .refl _
  unfold State.eventAt
  repeat' first
    | (extract_lets -descend +onlyGivenNames x0; refine Keeps.cut (m := 0x804F7) (z := s) (v := x0) ?_ (fun h0 => ?_); rotate_left; clear_value x0; rotate_left; dsimp -zeta only [x0]; clear x0)
    | (extract_lets -descend +onlyGivenNames x0; clear_value x0)
    | lift_lets
    | with_reducible assumption
    | (with_reducible first | apply State.bumpSat_keeps | apply State.irq_keeps | apply State.setBucket_keeps | apply State.evWrite_keeps | apply State.lossRecord_keeps | apply State.store_keeps)
    | (with_reducible refine Keeps.mk0 ?_ ?g; (first | with_reducible assumption | (refine Keeps.snd ?_ (by assumption)) | (refine Keeps.some ?_ (by assumption)) | (with_reducible first | apply State.bumpSat_keeps | apply State.irq_keeps | apply State.setBucket_keeps | apply State.evWrite_keeps | apply State.lossRecord_keeps | apply State.store_keeps)); with_reducible case g => exact fun h => Keeps.mk' h)
    | (with_reducible apply Keeps.ite)
    | split
    | (refine Keeps.some ?_ (by assumption))
    | exact Sub.of rfl
    | dsimp only

theorem State.event_keeps {mk : Nat} {z s : State} (hk : Keeps mk z s) (code : Nat) (payload : List Byte) (hm : Sub 0x804F7 mk := by exact Sub.of rfl) :
    Keeps mk z (State.event s code payload) := by
  refine hk.within hm ?_
  replace hk : Keeps 0x804F7 s s := .refl _
  unfold State.event
  repeat' first
    | with_reducible assumption
    | with_reducible apply State.eventAt_keeps
    | exact Sub.of rfl
    | dsimp only

theorem State.marker_keeps {mk : Nat} {z s : State} (hk : Keeps mk z s) (island last at_ : Nat) (hm : Sub 0x904F7 mk := by exact Sub.of rfl) :
    Keeps mk z (State.marker s island last at_) := by
  refine hk.within hm ?_
  replace hk : Keeps 0x904F7 s s := .refl _
  unfold State.marker
  repeat' first
    | (extract_lets -descend +onlyGivenNames x0; refine Keeps.cut (m := 0x904F7) (z := s) (v := x0) ?_ (fun h0 => ?_); rotate_left; clear_value x0; rotate_left; dsimp -zeta only [x0]; clear x0)
    | (extract_lets -descend +onlyGivenNames x0; clear_value x0)
    | with_reducible intro _
    | lift_lets
    | with_reducible assumption
    | (with_reducible first | apply State.anchorAll_keeps | apply State.eventAt_keeps)
    | (with_reducible refine Keeps.mk0 ?_ ?g; (first | with_reducible assumption | (refine Keeps.snd ?_ (by assumption)) | (refine Keeps.some ?_ (by assumption)) | (with_reducible first | apply State.anchorAll_keeps | apply State.eventAt_keeps)); with_reducible case g => exact fun h => Keeps.mk' h)
    | exact Sub.of rfl
    | dsimp only

theorem State.slotDone_keeps {mk : Nat} {z s : State} (hk : Keeps mk z s) (id : Option Nat) (hm : Sub 0x804F7 mk := by exact Sub.of rfl) :
    Keeps mk z (State.slotDone s id) := by
  refine hk.within hm ?_
  replace hk : Keeps 0x804F7 s s := .refl _
  unfold State.slotDone
  repeat' first
    | with_reducible assumption
    | (with_reducible first | apply State.lossRecord_keeps | apply State.store_keeps)
    | (with_reducible refine Keeps.mk0 ?_ ?g; (first | with_reducible assumption | (refine Keeps.snd ?_ (by assumption)) | (refine Keeps.some ?_ (by assumption)) | (with_reducible first | apply State.lossRecord_keeps | apply State.store_keeps)); with_reducible case g => exact fun h => Keeps.mk' h)
    | split
    | (refine Keeps.some ?_ (by assumption))
    | exact Sub.of rfl
    | dsimp only

theorem State.purge_keeps {mk : Nat} {z s : State} (hk : Keeps mk z s) (uid : Nat) (hm : Sub 0x20 mk := by exact Sub.of rfl) :
    Keeps mk z (State.purge s uid) := by
  refine hk.within hm ?_
  replace hk : Keeps 0x20 s s := .refl _
  unfold State.purge
  repeat' first
    | with_reducible intro _
    | with_reducible assumption
    | (with_reducible refine Keeps.mk0 ?_ ?g; (first | with_reducible assumption | (refine Keeps.snd ?_ (by assumption)) | (refine Keeps.some ?_ (by assumption))); with_reducible case g => exact fun h => Keeps.mk' h)
    | exact Sub.of rfl
    | dsimp only

theorem State.owedDone_keeps {mk : Nat} {z s : State} (hk : Keeps mk z s) (uid : Nat) (hm : Sub 0x804F7 mk := by exact Sub.of rfl) :
    Keeps mk z (State.owedDone s uid) := by
  refine hk.within hm ?_
  replace hk : Keeps 0x804F7 s s := .refl _
  unfold State.owedDone
  repeat' first
    | (extract_lets -descend +onlyGivenNames x0; refine Keeps.cut (m := 0x804F7) (z := s) (v := x0) ?_ (fun h0 => ?_); rotate_left; clear_value x0; rotate_left; dsimp -zeta only [x0]; clear x0)
    | (extract_lets -descend +onlyGivenNames x0; clear_value x0)
    | with_reducible intro _
    | lift_lets
    | with_reducible assumption
    | with_reducible apply State.slotDone_keeps
    | (with_reducible refine Keeps.mk0 ?_ ?g; (first | with_reducible assumption | (refine Keeps.snd ?_ (by assumption)) | (refine Keeps.some ?_ (by assumption)) | (with_reducible first | apply State.slotDone_keeps)); with_reducible case g => exact fun h => Keeps.mk' h)
    | (with_reducible apply Keeps.foldl)
    | split
    | (refine Keeps.some ?_ (by assumption))
    | exact Sub.of rfl
    | dsimp only

theorem State.fateDelivered_keeps {mk : Nat} {z s : State} (hk : Keeps mk z s) (uid : Nat) (hm : Sub 0x804F7 mk := by exact Sub.of rfl) :
    Keeps mk z (State.fateDelivered s uid) := by
  refine hk.within hm ?_
  replace hk : Keeps 0x804F7 s s := .refl _
  unfold State.fateDelivered
  repeat' first
    | (extract_lets -descend +onlyGivenNames x0; refine Keeps.cut (m := 0x804F7) (z := s) (v := x0) ?_ (fun h0 => ?_); rotate_left; clear_value x0; rotate_left; dsimp -zeta only [x0]; clear x0)
    | (extract_lets -descend +onlyGivenNames x0; first
        | ((with_reducible first | have _w : LinkSt := x0 | have _w : TimeSt := x0 | have _w : PowerSt := x0 | have _w : SampSt := x0 | have _w : FwSt := x0 | have _w : AuthSt := x0 | have _w : PulseSt := x0 | have _w : CoreSt := x0); clear _w; dsimp -zeta only [x0]; clear x0)
        | clear_value x0)
    | with_reducible intro _
    | lift_lets
    | with_reducible assumption
    | (with_reducible first | apply KeepsR.present | apply KeepsR.next | exact KeepsR.fault | exact KeepsO.none | apply KeepsO.some | apply State.delivered_keeps | apply State.slotDone_keeps | apply State.owedDone_keeps)
    | (with_reducible refine State.modRegion_keeps ?_ _ _ (fun _ w => w))
    | (with_reducible refine State.modFw_keeps ?_ _ ⟨rfl, rfl⟩)
    | (with_reducible refine State.modAuth_keeps ?_ _ ⟨rfl, rfl⟩)
    | (with_reducible refine Keeps.mk0 ?_ ?g; (first | with_reducible assumption | (refine Keeps.snd ?_ (by assumption)) | (refine Keeps.some ?_ (by assumption)) | (with_reducible first | apply State.delivered_keeps | apply State.slotDone_keeps | apply State.owedDone_keeps)); with_reducible case g => exact fun h => Keeps.mk' h)
    | (with_reducible apply Keeps.ite)
    | (with_reducible apply Keeps.foldl)
    | (with_reducible apply Keeps.foldlSnd)
    | (with_reducible apply Keeps.foldlFst)
    | split
    | (refine Keeps.some ?_ (by assumption))
    | (refine Keeps.snd ?_ (by assumption))
    | exact Sub.of rfl
    | dsimp only

theorem State.fateLost_keeps {mk : Nat} {z s : State} (hk : Keeps mk z s) (uid reason : Nat) (hm : Sub 0x804F7 mk := by exact Sub.of rfl) :
    Keeps mk z (State.fateLost s uid reason) := by
  refine hk.within hm ?_
  replace hk : Keeps 0x804F7 s s := .refl _
  unfold State.fateLost
  repeat' first
    | (extract_lets -descend +onlyGivenNames x0; refine Keeps.cut (m := 0x804F7) (z := s) (v := x0) ?_ (fun h0 => ?_); rotate_left; clear_value x0; rotate_left; dsimp -zeta only [x0]; clear x0)
    | (extract_lets -descend +onlyGivenNames x0; first
        | ((with_reducible first | have _w : LinkSt := x0 | have _w : TimeSt := x0 | have _w : PowerSt := x0 | have _w : SampSt := x0 | have _w : FwSt := x0 | have _w : AuthSt := x0 | have _w : PulseSt := x0 | have _w : CoreSt := x0); clear _w; dsimp -zeta only [x0]; clear x0)
        | clear_value x0)
    | with_reducible intro _
    | lift_lets
    | with_reducible assumption
    | (with_reducible first | apply KeepsR.present | apply KeepsR.next | exact KeepsR.fault | exact KeepsO.none | apply KeepsO.some | apply State.dropped_keeps | apply State.slotDone_keeps | apply State.owedDone_keeps)
    | (with_reducible refine State.modRegion_keeps ?_ _ _ (fun _ w => w))
    | (with_reducible refine State.modFw_keeps ?_ _ ⟨rfl, rfl⟩)
    | (with_reducible refine State.modAuth_keeps ?_ _ ⟨rfl, rfl⟩)
    | (with_reducible refine Keeps.mk0 ?_ ?g; (first | with_reducible assumption | (refine Keeps.snd ?_ (by assumption)) | (refine Keeps.some ?_ (by assumption)) | (with_reducible first | apply State.dropped_keeps | apply State.slotDone_keeps | apply State.owedDone_keeps)); with_reducible case g => exact fun h => Keeps.mk' h)
    | (with_reducible apply Keeps.ite)
    | (with_reducible apply Keeps.foldl)
    | (with_reducible apply Keeps.foldlSnd)
    | (with_reducible apply Keeps.foldlFst)
    | split
    | (refine Keeps.some ?_ (by assumption))
    | (refine Keeps.snd ?_ (by assumption))
    | exact Sub.of rfl
    | dsimp only

theorem State.sendPort_keeps {mk : Nat} {z s : State} (hk : Keeps mk z s) (p : Nat) (r : Rec) (tallied : Bool) (hm : Sub 0x80471 mk := by exact Sub.of rfl) :
    Keeps mk z (State.sendPort s p r tallied) := by
  refine hk.within hm ?_
  replace hk : Keeps 0x80471 s s := .refl _
  unfold State.sendPort
  repeat' first
    | (extract_lets -descend +onlyGivenNames x0; refine Keeps.cut (m := 0x80471) (z := s) (v := x0) ?_ (fun h0 => ?_); rotate_left; clear_value x0; rotate_left; dsimp -zeta only [x0]; clear x0)
    | (extract_lets -descend +onlyGivenNames x0; clear_value x0)
    | lift_lets
    | with_reducible assumption
    | (with_reducible first | apply State.pbump_keeps | apply State.dropped_keeps | apply State.enqueue_keeps | apply State.newPend_keeps)
    | (with_reducible apply Keeps.ite)
    | split
    | (refine Keeps.snd ?_ (by assumption))
    | exact Sub.of rfl
    | dsimp only

theorem State.sendLocal_keeps {mk : Nat} {z s : State} (hk : Keeps mk z s) (p : Nat) (r : Rec) (hm : Sub 0x80471 mk := by exact Sub.of rfl) :
    Keeps mk z (State.sendLocal s p r) := by
  refine hk.within hm ?_
  replace hk : Keeps 0x80471 s s := .refl _
  unfold State.sendLocal
  repeat' first
    | with_reducible assumption
    | with_reducible apply State.sendPort_keeps
    | exact Sub.of rfl
    | dsimp only

theorem State.stepBuckets_keeps {mk : Nat} {z s : State} (hk : Keeps mk z s) (d : Int) (hm : Sub 0x30 mk := by exact Sub.of rfl) :
    Keeps mk z (State.stepBuckets s d) := by
  refine hk.within hm ?_
  replace hk : Keeps 0x30 s s := .refl _
  unfold State.stepBuckets
  repeat' first
    | with_reducible intro _
    | with_reducible assumption
    | (with_reducible refine Keeps.mk0 ?_ ?g; (first | with_reducible assumption | (refine Keeps.snd ?_ (by assumption)) | (refine Keeps.some ?_ (by assumption))); with_reducible case g => exact fun h => Keeps.mk' h)
    | exact Sub.of rfl
    | dsimp only

theorem State.stepClock_keeps {mk : Nat} {z s : State} (hk : Keeps mk z s) (d : Int) (hm : Sub 0x11EE7FF mk := by exact Sub.of rfl) :
    Keeps mk z (State.stepClock s d) := by
  refine hk.within hm ?_
  replace hk : Keeps 0x11EE7FF s s := .refl _
  unfold State.stepClock
  repeat' first
    | (extract_lets -descend +onlyGivenNames x0; refine Keeps.cut (m := 0x11EE7FF) (z := s) (v := x0) ?_ (fun h0 => ?_); rotate_left; clear_value x0; rotate_left; dsimp -zeta only [x0]; clear x0)
    | (extract_lets -descend +onlyGivenNames x0; clear_value x0)
    | with_reducible intro _
    | lift_lets
    | with_reducible assumption
    | (with_reducible first | apply State.bumpSat_keeps | apply State.irq_keeps | apply State.trcStep_keeps | apply State.anchorAll_keeps | apply State.stepBuckets_keeps)
    | (with_reducible refine Keeps.mk0 ?_ ?g; (first | with_reducible assumption | (refine Keeps.snd ?_ (by assumption)) | (refine Keeps.some ?_ (by assumption)) | (with_reducible first | apply State.bumpSat_keeps | apply State.irq_keeps | apply State.trcStep_keeps | apply State.anchorAll_keeps | apply State.stepBuckets_keeps)); with_reducible case g => exact fun h => Keeps.mk' h)
    | (with_reducible apply Keeps.ite)
    | split
    | exact Sub.of rfl
    | dsimp only

theorem State.stepTold_keeps {mk : Nat} {z s : State} (hk : Keeps mk z s) (d : Int) (cause : Nat) (hm : Sub 0x804F7 mk := by exact Sub.of rfl) :
    Keeps mk z (State.stepTold s d cause) := by
  refine hk.within hm ?_
  replace hk : Keeps 0x804F7 s s := .refl _
  unfold State.stepTold
  repeat' first
    | with_reducible assumption
    | with_reducible apply State.event_keeps
    | exact Sub.of rfl
    | dsimp only

theorem State.stepTime_keeps {mk : Nat} {z s : State} (hk : Keeps mk z s) (d : Int) (cause : Nat) (hm : Sub 0x11EE7FF mk := by exact Sub.of rfl) :
    Keeps mk z (State.stepTime s d cause) := by
  refine hk.within hm ?_
  replace hk : Keeps 0x11EE7FF s s := .refl _
  unfold State.stepTime
  repeat' first
    | with_reducible assumption
    | (with_reducible first | apply State.stepClock_keeps | apply State.stepTold_keeps)
    | exact Sub.of rfl
    | dsimp only

theorem State.logViol_keeps {mk : Nat} {z s : State} (hk : Keeps mk z s) (page addr info : Nat) (hm : Sub 0x804F7 mk := by exact Sub.of rfl) :
    Keeps mk z (State.logViol s page addr info) := by
  refine hk.within hm ?_
  replace hk : Keeps 0x804F7 s s := .refl _
  unfold State.logViol
  repeat' first
    | (extract_lets -descend +onlyGivenNames x0; refine Keeps.cut (m := 0x804F7) (z := s) (v := x0) ?_ (fun h0 => ?_); rotate_left; clear_value x0; rotate_left; dsimp -zeta only [x0]; clear x0)
    | (extract_lets -descend +onlyGivenNames x0; clear_value x0)
    | lift_lets
    | with_reducible assumption
    | (with_reducible first | apply State.wr_keeps | apply State.event_keeps)
    | (with_reducible apply Keeps.ite)
    | split
    | exact Sub.of rfl
    | dsimp only

theorem State.badWord_keeps {mk : Nat} {z s : State} (hk : Keeps mk z s) (w : List Nat) (hm : Sub 0x804F7 mk := by exact Sub.of rfl) :
    Keeps mk z (State.badWord s w) := by
  refine hk.within hm ?_
  replace hk : Keeps 0x804F7 s s := .refl _
  unfold State.badWord
  repeat' first
    | with_reducible assumption
    | (with_reducible first | apply State.bumpSat_keeps | apply State.irq_keeps | apply State.event_keeps)
    | (with_reducible apply Keeps.ite)
    | split
    | exact Sub.of rfl
    | dsimp only

theorem State.grant_keeps {mk : Nat} {z s : State} (hk : Keeps mk z s) (c cost : Nat) (hm : Sub 0x100001 mk := by exact Sub.of rfl) :
    KeepsO mk z (State.grant s c cost) := by
  refine KeepsO.within hk hm ?_
  replace hk : Keeps 0x100001 s s := .refl _
  unfold State.grant
  repeat' first
    | (extract_lets -descend +onlyGivenNames x0; refine Keeps.cut (m := 0x100001) (z := s) (v := x0) ?_ (fun h0 => ?_); rotate_left; clear_value x0; rotate_left; dsimp -zeta only [x0]; clear x0)
    | (extract_lets -descend +onlyGivenNames x0; clear_value x0)
    | with_reducible intro _
    | lift_lets
    | with_reducible assumption
    | (with_reducible first | exact KeepsO.none | apply KeepsO.some | apply State.bump_keeps)
    | (with_reducible refine Keeps.mk0 ?_ ?g; (first | with_reducible assumption | (refine Keeps.snd ?_ (by assumption)) | (refine Keeps.some ?_ (by assumption)) | (with_reducible first | apply State.bump_keeps)); with_reducible case g => exact fun h => Keeps.mk' h)
    | (with_reducible apply Keeps.ite)
    | split
    | exact Sub.of rfl
    | dsimp only

end Sys2Proof.Machine
end

