-- ==== Sys2Proof/Laws/KeepsOperands.lean ====
section
/-! SUPPORT. What the operations of Machine/Operands.lean keep. -/

set_option Elab.async false

namespace Sys2Proof.Machine

theorem State.respond_keeps {mk : Nat} {z s : State} (hk : Keeps mk z s) (a : Acc) (write : Bool) (data : Nat) (err : Bool) (hm : Sub 0x2 mk := by exact Sub.of rfl) :
    Keeps mk z (State.respond s a write data err) := by
  refine hk.within hm ?_
  replace hk : Keeps 0x2 s s := .refl _
  unfold State.respond
  repeat' first
    | with_reducible assumption
    | (with_reducible refine Keeps.mk0 ?_ ?g; (first | with_reducible assumption | (refine Keeps.snd ?_ (by assumption)) | (refine Keeps.some ?_ (by assumption))); with_reducible case g => exact fun h => Keeps.mk' h)
    | (with_reducible apply Keeps.ite)
    | split
    | (refine Keeps.some ?_ (by assumption))
    | exact Sub.of rfl
    | dsimp only

theorem State.offRefused_keeps {mk : Nat} {z s : State} (hk : Keeps mk z s) (a : Acc) (write : Bool) (hm : Sub 0x3 mk := by exact Sub.of rfl) :
    Keeps mk z (State.offRefused s a write) := by
  refine hk.within hm ?_
  replace hk : Keeps 0x3 s s := .refl _
  unfold State.offRefused
  repeat' first
    | with_reducible assumption
    | (with_reducible first | apply State.bumpSat_keeps | apply State.irq_keeps | apply State.respond_keeps)
    | exact Sub.of rfl
    | dsimp only

theorem State.violated_keeps {mk : Nat} {z s : State} (hk : Keeps mk z s) (a : Acc) (page reason addr : Nat) (write : Bool) (data : Nat) (hm : Sub 0x804F7 mk := by exact Sub.of rfl) :
    Keeps mk z (State.violated s a page reason addr write data) := by
  refine hk.within hm ?_
  replace hk : Keeps 0x804F7 s s := .refl _
  unfold State.violated
  repeat' first
    | (extract_lets -descend +onlyGivenNames x0; refine Keeps.cut (m := 0x804F7) (z := s) (v := x0) ?_ (fun h0 => ?_); rotate_left; clear_value x0; rotate_left; dsimp -zeta only [x0]; clear x0)
    | (extract_lets -descend +onlyGivenNames x0; clear_value x0)
    | lift_lets
    | with_reducible assumption
    | (with_reducible first | apply State.bumpSat_keeps | apply State.irq_keeps | apply State.logViol_keeps | apply State.respond_keeps)
    | (with_reducible apply Keeps.ite)
    | split
    | (refine Keeps.some ?_ (by assumption))
    | exact Sub.of rfl
    | dsimp only

theorem State.accessWait_keeps {mk : Nat} {z s : State} (hk : Keeps mk z s) (a : Acc) (addr : Nat) (write : Bool) (data d : Nat) (hm : Sub 0x80002 mk := by exact Sub.of rfl) :
    Keeps mk z (State.accessWait s a addr write data d) := by
  refine hk.within hm ?_
  replace hk : Keeps 0x80002 s s := .refl _
  unfold State.accessWait
  repeat' first
    | (extract_lets -descend +onlyGivenNames x0; refine Keeps.cut (m := 0x80002) (z := s) (v := x0) ?_ (fun h0 => ?_); rotate_left; clear_value x0; rotate_left; dsimp -zeta only [x0]; clear x0)
    | (extract_lets -descend +onlyGivenNames x0; first
        | ((with_reducible first | have _w : LinkSt := x0 | have _w : TimeSt := x0 | have _w : PowerSt := x0 | have _w : SampSt := x0 | have _w : FwSt := x0 | have _w : AuthSt := x0 | have _w : PulseSt := x0 | have _w : CoreSt := x0); clear _w; dsimp -zeta only [x0]; clear x0)
        | clear_value x0)
    | with_reducible intro _
    | lift_lets
    | with_reducible assumption
    | (with_reducible first | apply KeepsR.present | apply KeepsR.next | exact KeepsR.fault | exact KeepsO.none | apply KeepsO.some | apply State.wake_keeps)
    | (with_reducible refine State.modRegion_keeps ?_ _ _ (fun _ w => w))
    | (with_reducible refine State.modFw_keeps ?_ _ ⟨rfl, rfl⟩)
    | (with_reducible refine State.modAuth_keeps ?_ _ ⟨rfl, rfl⟩)
    | (with_reducible refine Keeps.mk0 ?_ ?g; (first | with_reducible assumption | (refine Keeps.snd ?_ (by assumption)) | (refine Keeps.some ?_ (by assumption)) | (with_reducible first | apply State.wake_keeps)); with_reducible case g => exact fun h => Keeps.mk' h)
    | (with_reducible apply Keeps.ite)
    | (with_reducible apply Keeps.foldl)
    | (with_reducible apply Keeps.foldlSnd)
    | (with_reducible apply Keeps.foldlFst)
    | split
    | (refine Keeps.some ?_ (by assumption))
    | (refine Keeps.snd ?_ (by assumption))
    | exact Sub.of rfl
    | dsimp only

theorem State.guardedWrite_keeps {mk : Nat} {z s : State} (h : Keeps mk z s) (a : Acc) (addr data : Nat) (owned bad : Bool) (eff : State → State)
    (he : ∀ t, Keeps mk z t → Keeps mk z (eff t)) (hm : Sub 0x804F7 mk := by exact Sub.of rfl) :
    Keeps mk z (State.guardedWrite s a addr data owned bad eff) := by
  unfold State.guardedWrite
  refine Keeps.ite h ?_
  split
  · exact State.respond_keeps (he _ h) _ _ _ _ ((Sub.of rfl).trans hm)
  · exact State.accessWait_keeps h _ _ _ _ _ ((Sub.of rfl).trans hm)
  · exact State.offRefused_keeps h _ _ ((Sub.of rfl).trans hm)
  · exact State.violated_keeps h _ _ _ _ _ _ ((Sub.of rfl).trans hm)

theorem State.guardedRead_keeps {mk : Nat} {z s : State} (h : Keeps mk z s) (a : Acc) (addr : Nat) (eff : State → Nat × State)
    (he : ∀ t, Keeps mk z t → Keeps mk z (eff t).2) (hm : Sub 0x804F7 mk := by exact Sub.of rfl) : Keeps mk z (State.guardedRead s a addr eff) := by
  unfold State.guardedRead
  refine Keeps.ite h ?_
  split
  · exact State.respond_keeps (he _ h) _ _ _ _ ((Sub.of rfl).trans hm)
  · exact State.accessWait_keeps h _ _ _ _ _ ((Sub.of rfl).trans hm)
  · exact State.offRefused_keeps h _ _ ((Sub.of rfl).trans hm)
  · exact State.violated_keeps h _ _ _ _ _ _ ((Sub.of rfl).trans hm)

theorem State.store_keeps {mk : Nat} {z s : State} (hk : Keeps mk z s) (r : Reg) (i j pg bk data : Nat) (hm : Sub 0x1 mk := by exact Sub.of rfl) :
    Keeps mk z (State.store s r i j pg bk data) := by
  refine hk.within hm ?_
  replace hk : Keeps 0x1 s s := .refl _
  unfold State.store
  repeat' first
    | with_reducible assumption
    | with_reducible apply State.wr_keeps
    | split
    | (refine Keeps.some ?_ (by assumption))
    | exact Sub.of rfl
    | dsimp only

theorem State.violClear_keeps {mk : Nat} {z s : State} (h : Keeps mk z s) (page : Nat) (hm : Sub 0x1 mk := by exact Sub.of rfl) :
    Keeps mk z (State.violClear s page) := by
  refine h.within hm ?_
  replace h : Keeps 0x1 s s := .refl _
  exact h.regsOf _ (fun w => regWf_filter _ _ w)

theorem State.irqClear_keeps {mk : Nat} {z s : State} (hk : Keeps mk z s) (page : Nat) (hm : Sub 0x1 mk := by exact Sub.of rfl) :
    Keeps mk z (State.irqClear s page) := by
  refine hk.within hm ?_
  replace hk : Keeps 0x1 s s := .refl _
  unfold State.irqClear
  repeat' first
    | with_reducible assumption
    | with_reducible apply State.wr_keeps
    | exact Sub.of rfl
    | dsimp only

theorem State.cmnCtrl_keeps {mk : Nat} {z s : State} (hk : Keeps mk z s) (page data : Nat) (hm : Sub 0x1 mk := by exact Sub.of rfl) :
    Keeps mk z (State.cmnCtrl s page data) := by
  refine hk.within hm ?_
  replace hk : Keeps 0x1 s s := .refl _
  unfold State.cmnCtrl
  repeat' first
    | (extract_lets -descend +onlyGivenNames x0; refine Keeps.cut (m := 0x1) (z := s) (v := x0) ?_ (fun h0 => ?_); rotate_left; clear_value x0; rotate_left; dsimp -zeta only [x0]; clear x0)
    | (extract_lets -descend +onlyGivenNames x0; clear_value x0)
    | lift_lets
    | with_reducible assumption
    | (with_reducible first | apply State.violClear_keeps | apply State.irqClear_keeps)
    | (with_reducible apply Keeps.ite)
    | split
    | exact Sub.of rfl
    | dsimp only

theorem State.setHostVotes_keeps {mk : Nat} {z s : State} (hk : Keeps mk z s) (v : Nat) (hm : Sub 0x80001 mk := by exact Sub.of rfl) :
    Keeps mk z (State.setHostVotes s v) := by
  refine hk.within hm ?_
  replace hk : Keeps 0x80001 s s := .refl _
  unfold State.setHostVotes
  repeat' first
    | (extract_lets -descend +onlyGivenNames x0; refine Keeps.cut (m := 0x80001) (z := s) (v := x0) ?_ (fun h0 => ?_); rotate_left; clear_value x0; rotate_left; dsimp -zeta only [x0]; clear x0)
    | (extract_lets -descend +onlyGivenNames x0; clear_value x0)
    | with_reducible intro _
    | lift_lets
    | with_reducible assumption
    | (with_reducible first | apply State.wr_keeps | apply State.modDom_keeps | apply State.wake_keeps)
    | (with_reducible refine Keeps.mk0 ?_ ?g; (first | with_reducible assumption | (refine Keeps.snd ?_ (by assumption)) | (refine Keeps.some ?_ (by assumption)) | (with_reducible first | apply State.wr_keeps | apply State.modDom_keeps | apply State.wake_keeps)); with_reducible case g => exact fun h => Keeps.mk' h)
    | (with_reducible apply Keeps.ite)
    | (with_reducible apply Keeps.foldl)
    | split
    | exact Sub.of rfl
    | dsimp only

theorem State.setFwVotes_keeps {mk : Nat} {z s : State} (hk : Keeps mk z s) (v : Nat) (hm : Sub 0x80001 mk := by exact Sub.of rfl) :
    Keeps mk z (State.setFwVotes s v) := by
  refine hk.within hm ?_
  replace hk : Keeps 0x80001 s s := .refl _
  unfold State.setFwVotes
  repeat' first
    | (extract_lets -descend +onlyGivenNames x0; refine Keeps.cut (m := 0x80001) (z := s) (v := x0) ?_ (fun h0 => ?_); rotate_left; clear_value x0; rotate_left; dsimp -zeta only [x0]; clear x0)
    | (extract_lets -descend +onlyGivenNames x0; clear_value x0)
    | with_reducible intro _
    | lift_lets
    | with_reducible assumption
    | (with_reducible first | apply State.wr_keeps | apply State.modDom_keeps | apply State.wake_keeps)
    | (with_reducible refine Keeps.mk0 ?_ ?g; (first | with_reducible assumption | (refine Keeps.snd ?_ (by assumption)) | (refine Keeps.some ?_ (by assumption)) | (with_reducible first | apply State.wr_keeps | apply State.modDom_keeps | apply State.wake_keeps)); with_reducible case g => exact fun h => Keeps.mk' h)
    | (with_reducible apply Keeps.ite)
    | (with_reducible apply Keeps.foldl)
    | split
    | exact Sub.of rfl
    | dsimp only

theorem State.cmnWrite_keeps {mk : Nat} {z s : State} (hk : Keeps mk z s) (page off data : Nat) (hm : Sub 0x80003 mk := by exact Sub.of rfl) :
    Keeps mk z (State.cmnWrite s page off data) := by
  refine hk.within hm ?_
  replace hk : Keeps 0x80003 s s := .refl _
  unfold State.cmnWrite
  repeat' first
    | (extract_lets -descend +onlyGivenNames x0; refine Keeps.cut (m := 0x80003) (z := s) (v := x0) ?_ (fun h0 => ?_); rotate_left; clear_value x0; rotate_left; dsimp -zeta only [x0]; clear x0)
    | (extract_lets -descend +onlyGivenNames x0; clear_value x0)
    | lift_lets
    | with_reducible assumption
    | (with_reducible first | apply State.wr_keeps | apply State.msixRise_keeps | apply State.cmnCtrl_keeps | apply State.setHostVotes_keeps)
    | (with_reducible apply Keeps.ite)
    | split
    | exact Sub.of rfl
    | dsimp only

theorem State.setDefaulted_keeps {mk : Nat} {z s : State} (hk : Keeps mk z s) (page : Nat) (hm : Sub 0x1 mk := by exact Sub.of rfl) :
    Keeps mk z (State.setDefaulted s page) := by
  refine hk.within hm ?_
  replace hk : Keeps 0x1 s s := .refl _
  unfold State.setDefaulted
  repeat' first
    | with_reducible assumption
    | with_reducible apply State.wr_keeps
    | exact Sub.of rfl
    | dsimp only

theorem State.markLoss_keeps {mk : Nat} {z s : State} (hk : Keeps mk z s) (d : Nat) (hm : Sub 0x3 mk := by exact Sub.of rfl) :
    Keeps mk z (State.markLoss s d) := by
  refine hk.within hm ?_
  replace hk : Keeps 0x3 s s := .refl _
  unfold State.markLoss
  repeat' first
    | (extract_lets -descend +onlyGivenNames x0; refine Keeps.cut (m := 0x3) (z := s) (v := x0) ?_ (fun h0 => ?_); rotate_left; clear_value x0; rotate_left; dsimp -zeta only [x0]; clear x0)
    | (extract_lets -descend +onlyGivenNames x0; clear_value x0)
    | with_reducible intro _
    | lift_lets
    | with_reducible assumption
    | (with_reducible first | apply State.wr_keeps | apply State.irq_keeps | apply State.setDefaulted_keeps)
    | (with_reducible apply Keeps.ite)
    | (with_reducible apply Keeps.foldl)
    | split
    | exact Sub.of rfl
    | dsimp only

theorem State.loseRegs_keeps {mk : Nat} {z s : State} (h : Keeps mk z s) (d : Nat) (lost : Retention → Bool) (hm : Sub 0x3 mk := by exact Sub.of rfl) :
    Keeps mk z (State.loseRegs s d lost) := by
  refine h.within hm ?_
  replace h : Keeps 0x3 s s := .refl _
  unfold State.loseRegs
  refine State.markLoss_keeps ?_ _
  exact h.regsOf _ (fun w => regWf_filter _ _ w)

theorem State.sendFrame_keeps {mk : Nat} {z s : State} (hk : Keeps mk z s) (kind port entry : Nat) (tc : Option Nat) (payload : List Byte) (hm : Sub 0x40000 mk := by exact Sub.of rfl) :
    Keeps mk z (State.sendFrame s kind port entry tc payload) := by
  refine hk.within hm ?_
  replace hk : Keeps 0x40000 s s := .refl _
  unfold State.sendFrame
  repeat' first
    | (extract_lets -descend +onlyGivenNames x0; refine Keeps.cut (m := 0x40000) (z := s) (v := x0) ?_ (fun h0 => ?_); rotate_left; clear_value x0; rotate_left; dsimp -zeta only [x0]; clear x0)
    | (extract_lets -descend +onlyGivenNames x0; clear_value x0)
    | with_reducible intro _
    | lift_lets
    | with_reducible assumption
    | (with_reducible refine Keeps.mk0 ?_ ?g; (first | with_reducible assumption | (refine Keeps.snd ?_ (by assumption)) | (refine Keeps.some ?_ (by assumption))); with_reducible case g => exact fun h => Keeps.mk' h)
    | (with_reducible apply Keeps.ite)
    | (with_reducible apply Keeps.foldl)
    | split
    | exact Sub.of rfl
    | dsimp only

end Sys2Proof.Machine
end

