-- ==== Sys2Proof/Laws/KeepsCost.lean ====
section
/-! SUPPORT. What the operations of Machine/Cost.lean keep. -/

set_option Elab.async false

namespace Sys2Proof.Machine

theorem State.tryGrant_keeps {mk : Nat} {z s : State} (hk : Keeps mk z s) (c cost : Nat) (hm : Sub 0x100001 mk := by exact Sub.of rfl) :
    Keeps mk z (State.tryGrant s c cost).2 := by
  refine hk.within hm ?_
  replace hk : Keeps 0x100001 s s := .refl _
  unfold State.tryGrant
  repeat' first
    | with_reducible assumption
    | with_reducible apply State.grant_keeps
    | split
    | (refine Keeps.some ?_ (by assumption))
    | (refine Keeps.snd ?_ (by assumption))
    | exact Sub.of rfl
    | dsimp only

end Sys2Proof.Machine
end

