-- ==== Sys2Proof/Laws/KeepsCodec.lean ====
section
/-! SUPPORT. What the operations of Machine/Codec.lean keep. -/

set_option Elab.async false

namespace Sys2Proof.Machine

theorem State.ctxEvict_keeps {mk : Nat} {z s : State} (hk : Keeps mk z s) (yes : Bool) (hm : Sub 0x3 mk := by exact Sub.of rfl) :
    Keeps mk z (State.ctxEvict s yes) := by
  refine hk.within hm ?_
  replace hk : Keeps 0x3 s s := .refl _
  unfold State.ctxEvict
  repeat' first
    | with_reducible assumption
    | (with_reducible first | apply State.bumpSat_keeps | apply State.irq_keeps)
    | (with_reducible apply Keeps.ite)
    | split
    | exact Sub.of rfl
    | dsimp only

theorem State.codecReject_keeps {mk : Nat} {z s : State} (hk : Keeps mk z s) (r : Rec) (reason : Nat) (hm : Sub 0x3 mk := by exact Sub.of rfl) :
    Keeps mk z (State.codecReject s r reason) := by
  refine hk.within hm ?_
  replace hk : Keeps 0x3 s s := .refl _
  unfold State.codecReject
  repeat' first
    | (extract_lets -descend +onlyGivenNames x0; refine Keeps.cut (m := 0x3) (z := s) (v := x0) ?_ (fun h0 => ?_); rotate_left; clear_value x0; rotate_left; dsimp -zeta only [x0]; clear x0)
    | (extract_lets -descend +onlyGivenNames x0; clear_value x0)
    | lift_lets
    | with_reducible assumption
    | (with_reducible first | apply State.wr_keeps | apply State.bumpSat_keeps | apply State.irq_keeps)
    | exact Sub.of rfl
    | dsimp only

theorem State.openRec_keeps {mk : Nat} {z s : State} (hk : Keeps mk z s) (r : Rec) (hm : Sub 0x10003 mk := by exact Sub.of rfl) :
    Keeps mk z (State.openRec s r).2 := by
  refine hk.within hm ?_
  replace hk : Keeps 0x10003 s s := .refl _
  unfold State.openRec
  repeat' first
    | (extract_lets -descend +onlyGivenNames x0; refine Keeps.cut (m := 0x10003) (z := s) (v := x0) ?_ (fun h0 => ?_); rotate_left; clear_value x0; rotate_left; dsimp -zeta only [x0]; clear x0)
    | (extract_lets -descend +onlyGivenNames x0; clear_value x0)
    | with_reducible intro _
    | lift_lets
    | with_reducible assumption
    | (with_reducible first | apply State.bumpSat_keeps | apply State.ctxEvict_keeps | apply State.codecReject_keeps)
    | (with_reducible refine Keeps.mk0 ?_ ?g; (first | with_reducible assumption | (refine Keeps.snd ?_ (by assumption)) | (refine Keeps.some ?_ (by assumption)) | (with_reducible first | apply State.bumpSat_keeps | apply State.ctxEvict_keeps | apply State.codecReject_keeps)); with_reducible case g => exact fun h => Keeps.mk' h)
    | (with_reducible apply Keeps.ite)
    | split
    | (refine Keeps.some ?_ (by assumption))
    | (refine Keeps.snd ?_ (by assumption))
    | exact Sub.of rfl
    | dsimp only

theorem State.openOrDrop_keeps {mk : Nat} {z s : State} (hk : Keeps mk z s) (r : Rec) (ok : Rec → Bool) (use : Rec → State → State) (h_use : ∀ a0 a1, Keeps mk z a1 → Keeps mk z (use a0 a1))
    (hm : Sub 0x10443 mk := by exact Sub.of rfl) : Keeps mk z (State.openOrDrop s r ok use) := by
  unfold State.openOrDrop
  repeat' first
    | with_reducible assumption
    | (with_reducible first | apply h_use | apply State.dropped_keeps | apply State.openRec_keeps)
    | (with_reducible apply Keeps.ite)
    | split
    | (refine Keeps.some ?_ (by assumption))
    | (refine Keeps.snd ?_ (by assumption))
    | exact (Sub.of rfl).trans hm
    | dsimp only

theorem State.drawShape_keeps {mk : Nat} {z s : State} (hk : Keeps mk z s) (counter : Bool) (n : Nat) (hm : Sub 0x1000000 mk := by exact Sub.of rfl) :
    Keeps mk z (State.drawShape s counter n).2 := by
  refine hk.within hm ?_
  replace hk : Keeps 0x1000000 s s := .refl _
  unfold State.drawShape
  repeat' first
    | (extract_lets -descend +onlyGivenNames x0; refine Keeps.cut (m := 0x1000000) (z := s) (v := x0) ?_ (fun h0 => ?_); rotate_left; clear_value x0; rotate_left; dsimp -zeta only [x0]; clear x0)
    | (extract_lets -descend +onlyGivenNames x0; clear_value x0)
    | lift_lets
    | with_reducible assumption
    | with_reducible apply State.draw_keeps
    | split
    | (refine Keeps.snd ?_ (by assumption))
    | exact Sub.of rfl
    | dsimp only

theorem State.add64_keeps {mk : Nat} {z s : State} (hk : Keeps mk z s) (lo hi : Reg) (n : Nat) (hm : Sub 0x1 mk := by exact Sub.of rfl) :
    Keeps mk z (State.add64 s lo hi n) := by
  refine hk.within hm ?_
  replace hk : Keeps 0x1 s s := .refl _
  unfold State.add64
  repeat' first
    | (extract_lets -descend +onlyGivenNames x0; refine Keeps.cut (m := 0x1) (z := s) (v := x0) ?_ (fun h0 => ?_); rotate_left; clear_value x0; rotate_left; dsimp -zeta only [x0]; clear x0)
    | (extract_lets -descend +onlyGivenNames x0; clear_value x0)
    | lift_lets
    | with_reducible assumption
    | with_reducible apply State.wr_keeps
    | exact Sub.of rfl
    | dsimp only

theorem State.compressAt_keeps {mk : Nat} {z s : State} (hk : Keeps mk z s) (r : Rec) (level : Nat) (hm : Sub 0x1010003 mk := by exact Sub.of rfl) :
    Keeps mk z (State.compressAt s r level).2 := by
  refine hk.within hm ?_
  replace hk : Keeps 0x1010003 s s := .refl _
  unfold State.compressAt
  repeat' first
    | (extract_lets -descend +onlyGivenNames x0; refine Keeps.cut (m := 0x1010003) (z := s) (v := x0) ?_ (fun h0 => ?_); rotate_left; clear_value x0; rotate_left; dsimp -zeta only [x0]; clear x0)
    | (extract_lets -descend +onlyGivenNames x0; dsimp -zeta only [x0]; clear x0)
    | with_reducible intro _
    | lift_lets
    | with_reducible assumption
    | (with_reducible first | apply KeepsR.present | apply KeepsR.next | exact KeepsR.fault | exact KeepsO.none | apply KeepsO.some | apply State.bumpSat_keeps | apply State.ctxEvict_keeps | apply State.drawShape_keeps | apply State.add64_keeps)
    | (with_reducible refine State.modRegion_keeps ?_ _ _ (fun _ w => w))
    | (with_reducible refine State.modFw_keeps ?_ _ ⟨rfl, rfl⟩)
    | (with_reducible refine State.modAuth_keeps ?_ _ ⟨rfl, rfl⟩)
    | (with_reducible refine Keeps.mk0 ?_ ?g; (first | with_reducible assumption | (refine Keeps.snd ?_ (by assumption)) | (refine Keeps.some ?_ (by assumption)) | (with_reducible first | apply State.bumpSat_keeps | apply State.ctxEvict_keeps | apply State.drawShape_keeps | apply State.add64_keeps)); with_reducible case g => exact fun h => Keeps.mk' h)
    | (with_reducible apply Keeps.ite)
    | (with_reducible apply Keeps.foldl)
    | (with_reducible apply Keeps.foldlSnd)
    | (with_reducible apply Keeps.foldlFst)
    | split
    | (refine Keeps.some ?_ (by assumption))
    | (refine Keeps.snd ?_ (by assumption))
    | exact Sub.of rfl
    | dsimp only

theorem State.codeRec_keeps {mk : Nat} {z s : State} (hk : Keeps mk z s) (r : Rec) (hm : Sub 0x1110003 mk := by exact Sub.of rfl) :
    Keeps mk z (State.codeRec s r).2 := by
  refine hk.within hm ?_
  replace hk : Keeps 0x1110003 s s := .refl _
  unfold State.codeRec
  repeat' first
    | (extract_lets -descend +onlyGivenNames x0; refine Keeps.cut (m := 0x1110003) (z := s) (v := x0) ?_ (fun h0 => ?_); rotate_left; clear_value x0; rotate_left; dsimp -zeta only [x0]; clear x0)
    | (extract_lets -descend +onlyGivenNames x0; clear_value x0)
    | lift_lets
    | with_reducible assumption
    | (with_reducible first | apply State.bumpSat_keeps | apply State.irq_keeps | apply State.grant_keeps | apply State.compressAt_keeps)
    | (with_reducible apply Keeps.ite)
    | split
    | (refine Keeps.some ?_ (by assumption))
    | (refine Keeps.snd ?_ (by assumption))
    | exact Sub.of rfl
    | dsimp only

end Sys2Proof.Machine
end

