-- ==== Sys2Proof/Laws/KeepsRecords.lean ====
section
/-! SUPPORT. What the operations of Machine/Records.lean keep. -/

set_option Elab.async false

namespace Sys2Proof.Machine

theorem State.dupRoom_keeps {mk : Nat} {z s : State} (hk : Keeps mk z s) (hm : Sub 0x41 mk := by exact Sub.of rfl) :
    Keeps mk z (State.dupRoom s) := by
  refine hk.within hm ?_
  replace hk : Keeps 0x41 s s := .refl _
  unfold State.dupRoom
  repeat' first
    | with_reducible assumption
    | with_reducible apply State.bumpSat_keeps
    | (with_reducible refine Keeps.mk0 ?_ ?g; (first | with_reducible assumption | (refine Keeps.snd ?_ (by assumption)) | (refine Keeps.some ?_ (by assumption)) | (with_reducible first | apply State.bumpSat_keeps)); with_reducible case g => exact fun h => Keeps.mk' h)
    | (with_reducible apply Keeps.ite)
    | split
    | exact Sub.of rfl
    | dsimp only

theorem State.dupFront_keeps {mk : Nat} {z s : State} (hk : Keeps mk z s) (c : DupCtx) (l : List DupCtx) (hm : Sub 0x40 mk := by exact Sub.of rfl) :
    Keeps mk z (State.dupFront s c l) := by
  refine hk.within hm ?_
  replace hk : Keeps 0x40 s s := .refl _
  unfold State.dupFront
  repeat' first
    | with_reducible assumption
    | (with_reducible refine Keeps.mk0 ?_ ?g; (first | with_reducible assumption | (refine Keeps.snd ?_ (by assumption)) | (refine Keeps.some ?_ (by assumption))); with_reducible case g => exact fun h => Keeps.mk' h)
    | exact Sub.of rfl
    | dsimp only

theorem State.dupJudge_keeps {mk : Nat} {z s : State} (h : Keeps mk z s) (r : Rec) (hm : Sub 0x804F7 mk := by exact Sub.of rfl) :
    Keeps mk z (State.dupJudge s r).2 := by
  refine h.within hm ?_
  replace h : Keeps 0x804F7 s s := .refl _
  unfold State.dupJudge
  split
  · exact State.dupFront_keeps h _ _
  · exact State.dupFront_keeps (State.dupRoom_keeps h) _ _

theorem State.tollSettle_keeps {mk : Nat} {z s : State} (hk : Keeps mk z s) (hm : Sub 0x20 mk := by exact Sub.of rfl) :
    Keeps mk z (State.tollSettle s) := by
  refine hk.within hm ?_
  replace hk : Keeps 0x20 s s := .refl _
  unfold State.tollSettle
  repeat' first
    | with_reducible intro _
    | with_reducible assumption
    | (with_reducible refine Keeps.mk0 ?_ ?g; (first | with_reducible assumption | (refine Keeps.snd ?_ (by assumption)) | (refine Keeps.some ?_ (by assumption))); with_reducible case g => exact fun h => Keeps.mk' h)
    | exact Sub.of rfl
    | dsimp only

theorem State.tollMeter_keeps {mk : Nat} {z s : State} (hk : Keeps mk z s) (port cls len : Nat) (hm : Sub 0x23 mk := by exact Sub.of rfl) :
    Keeps mk z (State.tollMeter s port cls len).2 := by
  refine hk.within hm ?_
  replace hk : Keeps 0x23 s s := .refl _
  unfold State.tollMeter
  repeat' first
    | (extract_lets -descend +onlyGivenNames x0; refine Keeps.cut (m := 0x23) (z := s) (v := x0) ?_ (fun h0 => ?_); rotate_left; clear_value x0; rotate_left; dsimp -zeta only [x0]; clear x0)
    | (extract_lets -descend +onlyGivenNames x0; dsimp -zeta only [x0]; clear x0)
    | with_reducible intro _
    | lift_lets
    | with_reducible assumption
    | (with_reducible first | apply KeepsR.present | apply KeepsR.next | exact KeepsR.fault | exact KeepsO.none | apply KeepsO.some | apply State.wr_keeps | apply State.bumpSat_keeps | apply State.irq_keeps | apply State.modPort_keeps)
    | (with_reducible refine State.modRegion_keeps ?_ _ _ (fun _ w => w))
    | (with_reducible refine State.modFw_keeps ?_ _ ⟨rfl, rfl⟩)
    | (with_reducible refine State.modAuth_keeps ?_ _ ⟨rfl, rfl⟩)
    | (with_reducible refine Keeps.mk0 ?_ ?g; (first | with_reducible assumption | (refine Keeps.snd ?_ (by assumption)) | (refine Keeps.some ?_ (by assumption)) | (with_reducible first | apply State.wr_keeps | apply State.bumpSat_keeps | apply State.irq_keeps | apply State.modPort_keeps)); with_reducible case g => exact fun h => Keeps.mk' h)
    | (with_reducible apply Keeps.ite)
    | (with_reducible apply Keeps.foldl)
    | (with_reducible apply Keeps.foldlSnd)
    | (with_reducible apply Keeps.foldlFst)
    | split
    | (refine Keeps.some ?_ (by assumption))
    | (refine Keeps.snd ?_ (by assumption))
    | exact Sub.of rfl
    | dsimp only

theorem State.tollRed_keeps {mk : Nat} {z s : State} (hk : Keeps mk z s) (port cls len : Nat) (hm : Sub 0x23 mk := by exact Sub.of rfl) :
    Keeps mk z (State.tollRed s port cls len).2 := by
  refine hk.within hm ?_
  replace hk : Keeps 0x23 s s := .refl _
  unfold State.tollRed
  repeat' first
    | (extract_lets -descend +onlyGivenNames x0; refine Keeps.cut (m := 0x23) (z := s) (v := x0) ?_ (fun h0 => ?_); rotate_left; clear_value x0; rotate_left; dsimp -zeta only [x0]; clear x0)
    | (extract_lets -descend +onlyGivenNames x0; clear_value x0)
    | lift_lets
    | with_reducible assumption
    | with_reducible apply State.tollMeter_keeps
    | split
    | (refine Keeps.snd ?_ (by assumption))
    | exact Sub.of rfl
    | dsimp only

theorem State.takeDrop_keeps {mk : Nat} {z s : State} (hk : Keeps mk z s) (r : Rec) (reason : Nat) (hm : Sub 0x440 mk := by exact Sub.of rfl) :
    Keeps mk z (State.takeDrop s r reason) := by
  refine hk.within hm ?_
  replace hk : Keeps 0x440 s s := .refl _
  unfold State.takeDrop
  repeat' first
    | with_reducible assumption
    | (with_reducible first | apply State.produced_keeps | apply State.dropped_keeps)
    | (with_reducible apply Keeps.ite)
    | split
    | exact Sub.of rfl
    | dsimp only

theorem State.admitUnit_keeps {mk : Nat} {z s : State} (hk : Keeps mk z s) (port tc len : Nat) (red : Bool) (r : Rec) (hm : Sub 0x804F7 mk := by exact Sub.of rfl) :
    Keeps mk z (State.admitUnit s port tc len red r).2 := by
  refine hk.within hm ?_
  replace hk : Keeps 0x804F7 s s := .refl _
  unfold State.admitUnit
  repeat' first
    | (extract_lets -descend +onlyGivenNames x0; refine Keeps.cut (m := 0x804F7) (z := s) (v := x0) ?_ (fun h0 => ?_); rotate_left; clear_value x0; rotate_left; dsimp -zeta only [x0]; clear x0)
    | (extract_lets -descend +onlyGivenNames x0; clear_value x0)
    | lift_lets
    | with_reducible assumption
    | (with_reducible first | apply State.pbump_keeps | apply State.produced_keeps | apply State.dupCounted_keeps | apply State.dupJudge_keeps | apply State.takeDrop_keeps)
    | (with_reducible apply Keeps.ite)
    | split
    | (refine Keeps.snd ?_ (by assumption))
    | exact Sub.of rfl
    | dsimp only

theorem State.admitRec_keeps {mk : Nat} {z s : State} (hk : Keeps mk z s) (port : Nat) (r : Rec) (hm : Sub 0x804F7 mk := by exact Sub.of rfl) :
    Keeps mk z (State.admitRec s port r).2 := by
  refine hk.within hm ?_
  replace hk : Keeps 0x804F7 s s := .refl _
  unfold State.admitRec
  repeat' first
    | (extract_lets -descend +onlyGivenNames x0; refine Keeps.cut (m := 0x804F7) (z := s) (v := x0) ?_ (fun h0 => ?_); rotate_left; clear_value x0; rotate_left; dsimp -zeta only [x0]; clear x0)
    | (extract_lets -descend +onlyGivenNames x0; clear_value x0)
    | lift_lets
    | with_reducible assumption
    | (with_reducible first | apply State.tollRed_keeps | apply State.admitUnit_keeps)
    | split
    | (refine Keeps.snd ?_ (by assumption))
    | exact Sub.of rfl
    | dsimp only

theorem State.inspectOn_keeps {mk : Nat} {z s : State} (hk : Keeps mk z s) (r : Rec) (use : Rec → State → State) (pass : Rec → State → State) (h_use : ∀ a0 a1, Keeps mk z a1 → Keeps mk z (use a0 a1)) (h_pass : ∀ a0 a1, Keeps mk z a1 → Keeps mk z (pass a0 a1))
    (hm : Sub 0x10443 mk := by exact Sub.of rfl) : Keeps mk z (State.inspectOn s r use pass) := by
  unfold State.inspectOn
  repeat' first
    | with_reducible intro _
    | with_reducible assumption
    | (with_reducible first | apply h_use | apply h_pass | apply State.dropped_keeps | apply State.openOrDrop_keeps)
    | (with_reducible apply Keeps.ite)
    | split
    | exact (Sub.of rfl).trans hm
    | dsimp only

theorem State.passSample_keeps {mk : Nat} {z s : State} (hk : Keeps mk z s) (r : Rec) (hm : Sub 0x90473 mk := by exact Sub.of rfl) :
    Keeps mk z (State.passSample s r) := by
  refine hk.within hm ?_
  replace hk : Keeps 0x90473 s s := .refl _
  unfold State.passSample
  repeat' first
    | with_reducible intro _
    | with_reducible assumption
    | (with_reducible first | apply State.emitUp_keeps | apply State.holdSpan_keeps | apply State.inspectOn_keeps)
    | (with_reducible apply Keeps.ite)
    | split
    | exact Sub.of rfl
    | dsimp only

theorem State.forwardUp_keeps {mk : Nat} {z s : State} (hk : Keeps mk z s) (r : Rec) (hm : Sub 0x904F3 mk := by exact Sub.of rfl) :
    Keeps mk z (State.forwardUp s r) := by
  refine hk.within hm ?_
  replace hk : Keeps 0x904F3 s s := .refl _
  unfold State.forwardUp
  repeat' first
    | with_reducible assumption
    | (with_reducible first | apply State.emitUp_keeps | apply State.alarmOut_keeps | apply State.passSample_keeps)
    | (with_reducible apply Keeps.ite)
    | split
    | (refine Keeps.some ?_ (by assumption))
    | exact Sub.of rfl
    | dsimp only

theorem State.sendMany_keeps {mk : Nat} {z s : State} (hk : Keeps mk z s) (ports : List Nat) (r : Rec) (hm : Sub 0x80470 mk := by exact Sub.of rfl) :
    Keeps mk z (State.sendMany s ports r) := by
  refine hk.within hm ?_
  replace hk : Keeps 0x80470 s s := .refl _
  unfold State.sendMany
  repeat' first
    | (extract_lets -descend +onlyGivenNames x0; refine Keeps.cut (m := 0x80470) (z := s) (v := x0) ?_ (fun h0 => ?_); rotate_left; clear_value x0; rotate_left; dsimp -zeta only [x0]; clear x0)
    | (extract_lets -descend +onlyGivenNames x0; clear_value x0)
    | with_reducible intro _
    | lift_lets
    | with_reducible assumption
    | (with_reducible first | apply State.dropped_keeps | apply State.enqueue_keeps | apply State.newPend_keeps)
    | (with_reducible apply Keeps.ite)
    | (with_reducible apply Keeps.foldl)
    | (with_reducible apply Keeps.foldlSnd)
    | split
    | (refine Keeps.snd ?_ (by assumption))
    | exact Sub.of rfl
    | dsimp only

theorem State.consume_keeps {mk : Nat} {z s : State} (hk : Keeps mk z s) (r : Rec) (use : State → State) (h_use : ∀ a0, Keeps mk z a0 → Keeps mk z (use a0))
    (hm : Sub 0x440 mk := by exact Sub.of rfl) : Keeps mk z (State.consume s r use) := by
  unfold State.consume
  repeat' first
    | with_reducible assumption
    | (with_reducible first | apply h_use | apply State.delivered_keeps | apply State.dropped_keeps)
    | (with_reducible apply Keeps.ite)
    | split
    | exact (Sub.of rfl).trans hm
    | dsimp only

theorem State.consumeOpen_keeps {mk : Nat} {z s : State} (hk : Keeps mk z s) (r : Rec) (use : Rec → State → State) (h_use : ∀ a0 a1, Keeps mk z a1 → Keeps mk z (use a0 a1))
    (hm : Sub 0x10443 mk := by exact Sub.of rfl) : Keeps mk z (State.consumeOpen s r use) := by
  unfold State.consumeOpen
  repeat' first
    | with_reducible intro _
    | with_reducible assumption
    | (with_reducible first | apply h_use | apply State.openOrDrop_keeps | apply State.consume_keeps)
    | (with_reducible apply Keeps.ite)
    | split
    | exact (Sub.of rfl).trans hm
    | dsimp only

theorem State.waitIn_keeps {mk : Nat} {z s : State} (hk : Keeps mk z s) (port credits : Nat) (r : Rec) (use : InWait → State → State) (h_use : ∀ a0 a1, Keeps mk z a1 → Keeps mk z (use a0 a1))
    (hm : Sub 0x10463 mk := by exact Sub.of rfl) : Keeps mk z (State.waitIn s port credits r use) := by
  unfold State.waitIn
  repeat' first
    | with_reducible intro _
    | with_reducible assumption
    | (with_reducible first | apply h_use | apply State.withhold_keeps | apply State.openOrDrop_keeps | apply State.consume_keeps)
    | (with_reducible apply Keeps.ite)
    | split
    | exact (Sub.of rfl).trans hm
    | dsimp only

theorem State.waitOver_keeps {mk : Nat} {z s : State} (hk : Keeps mk z s) (w : InWait) (use : State → State) (h_use : ∀ a0, Keeps mk z a0 → Keeps mk z (use a0))
    (hm : Sub 0x460 mk := by exact Sub.of rfl) : Keeps mk z (State.waitOver s w use) := by
  unfold State.waitOver
  repeat' first
    | with_reducible assumption
    | (with_reducible first | apply h_use | apply State.letGo_keeps | apply State.consume_keeps)
    | exact (Sub.of rfl).trans hm
    | dsimp only

theorem State.coalClose_keeps {mk : Nat} {z s : State} (hk : Keeps mk z s) (e : CoalEnt) (hm : Sub 0x804F7 mk := by exact Sub.of rfl) :
    Keeps mk z (State.coalClose s e) := by
  refine hk.within hm ?_
  replace hk : Keeps 0x804F7 s s := .refl _
  unfold State.coalClose
  repeat' first
    | (extract_lets -descend +onlyGivenNames x0; refine Keeps.cut (m := 0x804F7) (z := s) (v := x0) ?_ (fun h0 => ?_); rotate_left; clear_value x0; rotate_left; dsimp -zeta only [x0]; clear x0)
    | (extract_lets -descend +onlyGivenNames x0; clear_value x0)
    | with_reducible intro _
    | lift_lets
    | with_reducible assumption
    | (with_reducible first | apply State.emitUp_keeps | apply State.originate_keeps | apply State.slotDone_keeps)
    | (with_reducible refine Keeps.mk0 ?_ ?g; (first | with_reducible assumption | (refine Keeps.snd ?_ (by assumption)) | (refine Keeps.some ?_ (by assumption)) | (with_reducible first | apply State.emitUp_keeps | apply State.originate_keeps | apply State.slotDone_keeps)); with_reducible case g => exact fun h => Keeps.mk' h)
    | (with_reducible apply Keeps.ite)
    | (with_reducible apply Keeps.foldl)
    | (with_reducible apply Keeps.foldlSnd)
    | split
    | (refine Keeps.snd ?_ (by assumption))
    | exact Sub.of rfl
    | dsimp only

theorem execCoalesceWindowClose_keeps {mk : Nat} {z s : State} (hk : Keeps mk z s) (entry : Nat) (hm : Sub 0x804F7 mk := by exact Sub.of rfl) :
    KeepsR mk z (execCoalesceWindowClose entry s) := by
  refine KeepsR.within hk hm ?_
  replace hk : Keeps 0x804F7 s s := .refl _
  unfold execCoalesceWindowClose
  repeat' first
    | with_reducible intro _
    | with_reducible assumption
    | (with_reducible first | apply KeepsR.present | apply KeepsR.next | exact KeepsR.fault | apply present_keeps | apply State.coalClose_keeps)
    | (with_reducible apply Keeps.ite)
    | split
    | (refine Keeps.some ?_ (by assumption))
    | exact Sub.of rfl
    | dsimp only

theorem State.coalFlush_keeps {mk : Nat} {z s : State} (hk : Keeps mk z s) (hm : Sub 0x804F7 mk := by exact Sub.of rfl) :
    Keeps mk z (State.coalFlush s) := by
  refine hk.within hm ?_
  replace hk : Keeps 0x804F7 s s := .refl _
  unfold State.coalFlush
  repeat' first
    | with_reducible intro _
    | with_reducible assumption
    | with_reducible apply State.coalClose_keeps
    | (with_reducible apply Keeps.foldl)
    | exact Sub.of rfl
    | dsimp only

end Sys2Proof.Machine
end

