-- ==== Sys2Proof/Laws/KeepsTime.lean ====
section
/-! SUPPORT. What the operations of Machine/Time.lean keep. -/

set_option Elab.async false

namespace Sys2Proof.Machine

theorem State.modExch_keeps {mk : Nat} {z s : State} (h : Keeps mk z s) (p : Nat) (f : Exch → Exch) (hm : Sub 0x4 mk := by exact Sub.of rfl) :
    Keeps mk z (State.modExch s p f) := by
  refine h.within hm ?_
  replace h : Keeps 0x4 s s := .refl _
  exact h.mk' ⟨modNth_length _ _ _, rfl, rfl, rfl, rfl, rfl, rfl, rfl⟩

theorem State.codeTo_keeps {mk : Nat} {z s : State} (hk : Keeps mk z s) (c : Nat) (hm : Sub 0x4 mk := by exact Sub.of rfl) :
    Keeps mk z (State.codeTo s c) := by
  refine hk.within hm ?_
  replace hk : Keeps 0x4 s s := .refl _
  unfold State.codeTo
  repeat' first
    | (extract_lets -descend +onlyGivenNames x0; refine Keeps.cut (m := 0x4) (z := s) (v := x0) ?_ (fun h0 => ?_); rotate_left; clear_value x0; rotate_left; dsimp -zeta only [x0]; clear x0)
    | (extract_lets -descend +onlyGivenNames x0; first
        | ((with_reducible first | have _w : LinkSt := x0 | have _w : TimeSt := x0 | have _w : PowerSt := x0 | have _w : SampSt := x0 | have _w : FwSt := x0 | have _w : AuthSt := x0 | have _w : PulseSt := x0 | have _w : CoreSt := x0); clear _w; dsimp -zeta only [x0]; clear x0)
        | clear_value x0)
    | with_reducible intro _
    | lift_lets
    | with_reducible assumption
    | (with_reducible first | apply KeepsR.present | apply KeepsR.next | exact KeepsR.fault | exact KeepsO.none | apply KeepsO.some)
    | (with_reducible refine State.modRegion_keeps ?_ _ _ (fun _ w => w))
    | (with_reducible refine State.modFw_keeps ?_ _ ⟨rfl, rfl⟩)
    | (with_reducible refine State.modAuth_keeps ?_ _ ⟨rfl, rfl⟩)
    | (with_reducible refine Keeps.mk0 ?_ ?g; (first | with_reducible assumption | (refine Keeps.snd ?_ (by assumption)) | (refine Keeps.some ?_ (by assumption))); with_reducible case g => exact fun h => Keeps.mk' h)
    | (with_reducible apply Keeps.ite)
    | (with_reducible apply Keeps.foldl)
    | (with_reducible apply Keeps.foldlSnd)
    | (with_reducible apply Keeps.foldlFst)
    | split
    | (refine Keeps.some ?_ (by assumption))
    | (refine Keeps.snd ?_ (by assumption))
    | exact Sub.of rfl
    | dsimp only

theorem State.codeTold_keeps {mk : Nat} {z s : State} (hk : Keeps mk z s) (before cause : Nat) (hm : Sub 0x11EE5F7 mk := by exact Sub.of rfl) :
    Keeps mk z (State.codeTold s before cause) := by
  refine hk.within hm ?_
  replace hk : Keeps 0x11EE5F7 s s := .refl _
  unfold State.codeTold
  repeat' first
    | with_reducible assumption
    | (with_reducible first | apply State.irq_keeps | apply State.trcQual_keeps | apply State.event_keeps)
    | (with_reducible apply Keeps.ite)
    | split
    | exact Sub.of rfl
    | dsimp only

theorem State.setCode_keeps {mk : Nat} {z s : State} (hk : Keeps mk z s) (c cause : Nat) (hm : Sub 0x11EE5F7 mk := by exact Sub.of rfl) :
    Keeps mk z (State.setCode s c cause) := by
  refine hk.within hm ?_
  replace hk : Keeps 0x11EE5F7 s s := .refl _
  unfold State.setCode
  repeat' first
    | with_reducible assumption
    | (with_reducible first | apply State.codeTo_keeps | apply State.codeTold_keeps)
    | exact Sub.of rfl
    | dsimp only

theorem State.holdTo_keeps {mk : Nat} {z s : State} (hk : Keeps mk z s) (t : Nat) (hm : Sub 0x4 mk := by exact Sub.of rfl) :
    Keeps mk z (State.holdTo s t) := by
  refine hk.within hm ?_
  replace hk : Keeps 0x4 s s := .refl _
  unfold State.holdTo
  repeat' first
    | (extract_lets -descend +onlyGivenNames x0; refine Keeps.cut (m := 0x4) (z := s) (v := x0) ?_ (fun h0 => ?_); rotate_left; clear_value x0; rotate_left; dsimp -zeta only [x0]; clear x0)
    | (extract_lets -descend +onlyGivenNames x0; first
        | ((with_reducible first | have _w : LinkSt := x0 | have _w : TimeSt := x0 | have _w : PowerSt := x0 | have _w : SampSt := x0 | have _w : FwSt := x0 | have _w : AuthSt := x0 | have _w : PulseSt := x0 | have _w : CoreSt := x0); clear _w; dsimp -zeta only [x0]; clear x0)
        | clear_value x0)
    | with_reducible intro _
    | lift_lets
    | with_reducible assumption
    | (with_reducible first | apply KeepsR.present | apply KeepsR.next | exact KeepsR.fault | exact KeepsO.none | apply KeepsO.some)
    | (with_reducible refine State.modRegion_keeps ?_ _ _ (fun _ w => w))
    | (with_reducible refine State.modFw_keeps ?_ _ ⟨rfl, rfl⟩)
    | (with_reducible refine State.modAuth_keeps ?_ _ ⟨rfl, rfl⟩)
    | (with_reducible refine Keeps.mk0 ?_ ?g; (first | with_reducible assumption | (refine Keeps.snd ?_ (by assumption)) | (refine Keeps.some ?_ (by assumption))); with_reducible case g => exact fun h => Keeps.mk' h)
    | (with_reducible apply Keeps.ite)
    | (with_reducible apply Keeps.foldl)
    | (with_reducible apply Keeps.foldlSnd)
    | (with_reducible apply Keeps.foldlFst)
    | split
    | (refine Keeps.some ?_ (by assumption))
    | (refine Keeps.snd ?_ (by assumption))
    | exact Sub.of rfl
    | dsimp only

theorem State.holdOwn_keeps {mk : Nat} {z s : State} (hk : Keeps mk z s) (cause : Nat) (hm : Sub 0x11EE5F7 mk := by exact Sub.of rfl) :
    Keeps mk z (State.holdOwn s cause) := by
  refine hk.within hm ?_
  replace hk : Keeps 0x11EE5F7 s s := .refl _
  unfold State.holdOwn
  repeat' first
    | with_reducible assumption
    | (with_reducible first | apply State.setCode_keeps | apply State.holdTo_keeps)
    | exact Sub.of rfl
    | dsimp only

theorem State.codeFrom_keeps {mk : Nat} {z s : State} (hk : Keeps mk z s) (p cause : Nat) (hm : Sub 0x11EE5F7 mk := by exact Sub.of rfl) :
    Keeps mk z (State.codeFrom s p cause) := by
  refine hk.within hm ?_
  replace hk : Keeps 0x11EE5F7 s s := .refl _
  unfold State.codeFrom
  repeat' first
    | (extract_lets -descend +onlyGivenNames x0; refine Keeps.cut (m := 0x11EE5F7) (z := s) (v := x0) ?_ (fun h0 => ?_); rotate_left; clear_value x0; rotate_left; dsimp -zeta only [x0]; clear x0)
    | (extract_lets -descend +onlyGivenNames x0; clear_value x0)
    | lift_lets
    | with_reducible assumption
    | (with_reducible first | apply State.setCode_keeps | apply State.holdTo_keeps | apply State.holdOwn_keeps)
    | (with_reducible apply Keeps.ite)
    | split
    | exact Sub.of rfl
    | dsimp only

theorem State.rootCode_keeps {mk : Nat} {z s : State} (hk : Keeps mk z s) (cause : Nat) (hm : Sub 0x11EE5F7 mk := by exact Sub.of rfl) :
    Keeps mk z (State.rootCode s cause) := by
  refine hk.within hm ?_
  replace hk : Keeps 0x11EE5F7 s s := .refl _
  unfold State.rootCode
  repeat' first
    | (extract_lets -descend +onlyGivenNames x0; refine Keeps.cut (m := 0x11EE5F7) (z := s) (v := x0) ?_ (fun h0 => ?_); rotate_left; clear_value x0; rotate_left; dsimp -zeta only [x0]; clear x0)
    | (extract_lets -descend +onlyGivenNames x0; clear_value x0)
    | lift_lets
    | with_reducible assumption
    | with_reducible apply State.setCode_keeps
    | (with_reducible apply Keeps.ite)
    | split
    | exact Sub.of rfl
    | dsimp only

theorem State.codeAlone_keeps {mk : Nat} {z s : State} (hk : Keeps mk z s) (cause : Nat) (lost : Bool) (hm : Sub 0x11EE5F7 mk := by exact Sub.of rfl) :
    Keeps mk z (State.codeAlone s cause lost) := by
  refine hk.within hm ?_
  replace hk : Keeps 0x11EE5F7 s s := .refl _
  unfold State.codeAlone
  repeat' first
    | with_reducible assumption
    | (with_reducible first | apply State.setCode_keeps | apply State.holdOwn_keeps | apply State.rootCode_keeps)
    | (with_reducible apply Keeps.ite)
    | split
    | (refine Keeps.some ?_ (by assumption))
    | exact Sub.of rfl
    | dsimp only

theorem State.chooseParent_keeps {mk : Nat} {z s : State} (hk : Keeps mk z s) (cause : Nat) (lost : Bool) (hm : Sub 0x11EE5F7 mk := by exact Sub.of rfl) :
    Keeps mk z (State.chooseParent s cause lost) := by
  refine hk.within hm ?_
  replace hk : Keeps 0x11EE5F7 s s := .refl _
  unfold State.chooseParent
  repeat' first
    | (extract_lets -descend +onlyGivenNames x0; refine Keeps.cut (m := 0x11EE5F7) (z := s) (v := x0) ?_ (fun h0 => ?_); rotate_left; clear_value x0; rotate_left; dsimp -zeta only [x0]; clear x0)
    | (extract_lets -descend +onlyGivenNames x0; first
        | ((with_reducible first | have _w : LinkSt := x0 | have _w : TimeSt := x0 | have _w : PowerSt := x0 | have _w : SampSt := x0 | have _w : FwSt := x0 | have _w : AuthSt := x0 | have _w : PulseSt := x0 | have _w : CoreSt := x0); clear _w; dsimp -zeta only [x0]; clear x0)
        | clear_value x0)
    | with_reducible intro _
    | lift_lets
    | with_reducible assumption
    | (with_reducible first | apply KeepsR.present | apply KeepsR.next | exact KeepsR.fault | exact KeepsO.none | apply KeepsO.some | apply State.codeFrom_keeps | apply State.codeAlone_keeps)
    | (with_reducible refine State.modRegion_keeps ?_ _ _ (fun _ w => w))
    | (with_reducible refine State.modFw_keeps ?_ _ ⟨rfl, rfl⟩)
    | (with_reducible refine State.modAuth_keeps ?_ _ ⟨rfl, rfl⟩)
    | (with_reducible refine Keeps.mk0 ?_ ?g; (first | with_reducible assumption | (refine Keeps.snd ?_ (by assumption)) | (refine Keeps.some ?_ (by assumption)) | (with_reducible first | apply State.codeFrom_keeps | apply State.codeAlone_keeps)); with_reducible case g => exact fun h => Keeps.mk' h)
    | (with_reducible apply Keeps.ite)
    | (with_reducible apply Keeps.foldl)
    | (with_reducible apply Keeps.foldlSnd)
    | (with_reducible apply Keeps.foldlFst)
    | split
    | (refine Keeps.some ?_ (by assumption))
    | (refine Keeps.snd ?_ (by assumption))
    | exact Sub.of rfl
    | dsimp only

theorem State.reacquire_keeps {mk : Nat} {z s : State} (hk : Keeps mk z s) (p : Nat) (hm : Sub 0x4 mk := by exact Sub.of rfl) :
    Keeps mk z (State.reacquire s p) := by
  refine hk.within hm ?_
  replace hk : Keeps 0x4 s s := .refl _
  unfold State.reacquire
  repeat' first
    | with_reducible intro _
    | with_reducible assumption
    | with_reducible apply State.modExch_keeps
    | (with_reducible refine Keeps.mk0 ?_ ?g; (first | with_reducible assumption | (refine Keeps.snd ?_ (by assumption)) | (refine Keeps.some ?_ (by assumption)) | (with_reducible first | apply State.modExch_keeps)); with_reducible case g => exact fun h => Keeps.mk' h)
    | exact Sub.of rfl
    | dsimp only

theorem State.exchEnd_keeps {mk : Nat} {z s : State} (hk : Keeps mk z s) (p : Nat) (hm : Sub 0x4 mk := by exact Sub.of rfl) :
    Keeps mk z (State.exchEnd s p) := by
  refine hk.within hm ?_
  replace hk : Keeps 0x4 s s := .refl _
  unfold State.exchEnd
  repeat' first
    | with_reducible intro _
    | with_reducible assumption
    | with_reducible apply State.modExch_keeps
    | (with_reducible refine Keeps.mk0 ?_ ?g; (first | with_reducible assumption | (refine Keeps.snd ?_ (by assumption)) | (refine Keeps.some ?_ (by assumption)) | (with_reducible first | apply State.modExch_keeps)); with_reducible case g => exact fun h => Keeps.mk' h)
    | exact Sub.of rfl
    | dsimp only

theorem State.timeTree_keeps {mk : Nat} {z s : State} (hk : Keeps mk z s) (root : Bool) (pod alt : Option Nat) (hm : Sub 0x11EE5F7 mk := by exact Sub.of rfl) :
    Keeps mk z (State.timeTree s root pod alt) := by
  refine hk.within hm ?_
  replace hk : Keeps 0x11EE5F7 s s := .refl _
  unfold State.timeTree
  repeat' first
    | (extract_lets -descend +onlyGivenNames x0; refine Keeps.cut (m := 0x11EE5F7) (z := s) (v := x0) ?_ (fun h0 => ?_); rotate_left; clear_value x0; rotate_left; dsimp -zeta only [x0]; clear x0)
    | (extract_lets -descend +onlyGivenNames x0; first
        | ((with_reducible first | have _w : LinkSt := x0 | have _w : TimeSt := x0 | have _w : PowerSt := x0 | have _w : SampSt := x0 | have _w : FwSt := x0 | have _w : AuthSt := x0 | have _w : PulseSt := x0 | have _w : CoreSt := x0); clear _w; dsimp -zeta only [x0]; clear x0)
        | clear_value x0)
    | with_reducible intro _
    | lift_lets
    | with_reducible assumption
    | (with_reducible first | apply KeepsR.present | apply KeepsR.next | exact KeepsR.fault | exact KeepsO.none | apply KeepsO.some | apply State.draw_keeps | apply State.rootCode_keeps | apply State.chooseParent_keeps | apply State.reacquire_keeps | apply State.exchEnd_keeps)
    | (with_reducible refine State.modRegion_keeps ?_ _ _ (fun _ w => w))
    | (with_reducible refine State.modFw_keeps ?_ _ ⟨rfl, rfl⟩)
    | (with_reducible refine State.modAuth_keeps ?_ _ ⟨rfl, rfl⟩)
    | (with_reducible refine Keeps.mk0 ?_ ?g; (first | with_reducible assumption | (refine Keeps.snd ?_ (by assumption)) | (refine Keeps.some ?_ (by assumption)) | (with_reducible first | apply State.draw_keeps | apply State.rootCode_keeps | apply State.chooseParent_keeps | apply State.reacquire_keeps | apply State.exchEnd_keeps)); with_reducible case g => exact fun h => Keeps.mk' h)
    | (with_reducible apply Keeps.ite)
    | (with_reducible apply Keeps.foldl)
    | (with_reducible apply Keeps.foldlSnd)
    | (with_reducible apply Keeps.foldlFst)
    | split
    | (refine Keeps.some ?_ (by assumption))
    | (refine Keeps.snd ?_ (by assumption))
    | exact Sub.of rfl
    | dsimp only

theorem State.parentLost_keeps {mk : Nat} {z s : State} (hk : Keeps mk z s) (p cause : Nat) (hm : Sub 0x11EE5F7 mk := by exact Sub.of rfl) :
    Keeps mk z (State.parentLost s p cause) := by
  refine hk.within hm ?_
  replace hk : Keeps 0x11EE5F7 s s := .refl _
  unfold State.parentLost
  repeat' first
    | (extract_lets -descend +onlyGivenNames x0; refine Keeps.cut (m := 0x11EE5F7) (z := s) (v := x0) ?_ (fun h0 => ?_); rotate_left; clear_value x0; rotate_left; dsimp -zeta only [x0]; clear x0)
    | (extract_lets -descend +onlyGivenNames x0; first
        | ((with_reducible first | have _w : LinkSt := x0 | have _w : TimeSt := x0 | have _w : PowerSt := x0 | have _w : SampSt := x0 | have _w : FwSt := x0 | have _w : AuthSt := x0 | have _w : PulseSt := x0 | have _w : CoreSt := x0); clear _w; dsimp -zeta only [x0]; clear x0)
        | clear_value x0)
    | with_reducible intro _
    | lift_lets
    | with_reducible assumption
    | (with_reducible first | apply KeepsR.present | apply KeepsR.next | exact KeepsR.fault | exact KeepsO.none | apply KeepsO.some | apply State.bumpSat_keeps | apply State.irq_keeps | apply State.eventAt_keeps | apply State.modExch_keeps | apply State.chooseParent_keeps)
    | (with_reducible refine State.modRegion_keeps ?_ _ _ (fun _ w => w))
    | (with_reducible refine State.modFw_keeps ?_ _ ⟨rfl, rfl⟩)
    | (with_reducible refine State.modAuth_keeps ?_ _ ⟨rfl, rfl⟩)
    | (with_reducible refine Keeps.mk0 ?_ ?g; (first | with_reducible assumption | (refine Keeps.snd ?_ (by assumption)) | (refine Keeps.some ?_ (by assumption)) | (with_reducible first | apply State.bumpSat_keeps | apply State.irq_keeps | apply State.eventAt_keeps | apply State.modExch_keeps | apply State.chooseParent_keeps)); with_reducible case g => exact fun h => Keeps.mk' h)
    | (with_reducible apply Keeps.ite)
    | (with_reducible apply Keeps.foldl)
    | (with_reducible apply Keeps.foldlSnd)
    | (with_reducible apply Keeps.foldlFst)
    | split
    | (refine Keeps.some ?_ (by assumption))
    | (refine Keeps.snd ?_ (by assumption))
    | exact Sub.of rfl
    | dsimp only

theorem State.exchVote_keeps {mk : Nat} {z s : State} (hk : Keeps mk z s) (p : Nat) (held : Bool) (hm : Sub 0x80000 mk := by exact Sub.of rfl) :
    Keeps mk z (State.exchVote s p held) := by
  refine hk.within hm ?_
  replace hk : Keeps 0x80000 s s := .refl _
  unfold State.exchVote
  repeat' first
    | with_reducible assumption
    | with_reducible apply State.hwVote_keeps
    | (with_reducible apply Keeps.ite)
    | split
    | exact Sub.of rfl
    | dsimp only

theorem State.exchWake_keeps {mk : Nat} {z s : State} (hk : Keeps mk z s) (p : Nat) (hm : Sub 0x80000 mk := by exact Sub.of rfl) :
    Keeps mk z (State.exchWake s p) := by
  refine hk.within hm ?_
  replace hk : Keeps 0x80000 s s := .refl _
  unfold State.exchWake
  repeat' first
    | (extract_lets -descend +onlyGivenNames x0; refine Keeps.cut (m := 0x80000) (z := s) (v := x0) ?_ (fun h0 => ?_); rotate_left; clear_value x0; rotate_left; dsimp -zeta only [x0]; clear x0)
    | (extract_lets -descend +onlyGivenNames x0; clear_value x0)
    | lift_lets
    | with_reducible assumption
    | with_reducible apply State.exchVote_keeps
    | (with_reducible apply Keeps.ite)
    | split
    | exact Sub.of rfl
    | dsimp only

theorem State.sendProbe_keeps {mk : Nat} {z s : State} (hk : Keeps mk z s) (p : Nat) (hm : Sub 0x80475 mk := by exact Sub.of rfl) :
    Keeps mk z (State.sendProbe s p) := by
  refine hk.within hm ?_
  replace hk : Keeps 0x80475 s s := .refl _
  unfold State.sendProbe
  repeat' first
    | (extract_lets -descend +onlyGivenNames x0; refine Keeps.cut (m := 0x80475) (z := s) (v := x0) ?_ (fun h0 => ?_); rotate_left; clear_value x0; rotate_left; dsimp -zeta only [x0]; clear x0)
    | (extract_lets -descend +onlyGivenNames x0; clear_value x0)
    | with_reducible intro _
    | lift_lets
    | with_reducible assumption
    | (with_reducible first | apply State.sendLocal_keeps | apply State.modExch_keeps)
    | (with_reducible refine Keeps.mk0 ?_ ?g; (first | with_reducible assumption | (refine Keeps.snd ?_ (by assumption)) | (refine Keeps.some ?_ (by assumption)) | (with_reducible first | apply State.sendLocal_keeps | apply State.modExch_keeps)); with_reducible case g => exact fun h => Keeps.mk' h)
    | exact Sub.of rfl
    | dsimp only

theorem execTimeExchangeStart_keeps {mk : Nat} {z s : State} (hk : Keeps mk z s) (hm : Sub 0x80475 mk := by exact Sub.of rfl) :
    KeepsR mk z (execTimeExchangeStart s) := by
  refine KeepsR.within hk hm ?_
  replace hk : Keeps 0x80475 s s := .refl _
  unfold execTimeExchangeStart
  repeat' first
    | with_reducible intro _
    | with_reducible assumption
    | (with_reducible first | apply KeepsR.present | apply KeepsR.next | exact KeepsR.fault | apply State.exchWake_keeps | apply State.sendProbe_keeps)
    | (with_reducible apply Keeps.ite)
    | (with_reducible apply Keeps.foldl)
    | split
    | exact Sub.of rfl
    | dsimp only

theorem State.probeIn_keeps {mk : Nat} {z s : State} (hk : Keeps mk z s) (port num : Nat) (hm : Sub 0x80475 mk := by exact Sub.of rfl) :
    Keeps mk z (State.probeIn s port num) := by
  refine hk.within hm ?_
  replace hk : Keeps 0x80475 s s := .refl _
  unfold State.probeIn
  repeat' first
    | (extract_lets -descend +onlyGivenNames x0; refine Keeps.cut (m := 0x80475) (z := s) (v := x0) ?_ (fun h0 => ?_); rotate_left; clear_value x0; rotate_left; dsimp -zeta only [x0]; clear x0)
    | (extract_lets -descend +onlyGivenNames x0; clear_value x0)
    | with_reducible intro _
    | lift_lets
    | with_reducible assumption
    | (with_reducible first | apply State.sendLocal_keeps | apply State.modExch_keeps | apply State.exchVote_keeps)
    | (with_reducible refine Keeps.mk0 ?_ ?g; (first | with_reducible assumption | (refine Keeps.snd ?_ (by assumption)) | (refine Keeps.some ?_ (by assumption)) | (with_reducible first | apply State.sendLocal_keeps | apply State.modExch_keeps | apply State.exchVote_keeps)); with_reducible case g => exact fun h => Keeps.mk' h)
    | (with_reducible apply Keeps.ite)
    | split
    | exact Sub.of rfl
    | dsimp only

theorem execProbeReceived_keeps {mk : Nat} {z s : State} (hk : Keeps mk z s) (port num : Nat) (hm : Sub 0x80475 mk := by exact Sub.of rfl) :
    KeepsR mk z (execProbeReceived port num s) := by
  refine KeepsR.within hk hm ?_
  replace hk : Keeps 0x80475 s s := .refl _
  unfold execProbeReceived
  repeat' first
    | with_reducible assumption
    | (with_reducible first | apply KeepsR.present | apply KeepsR.next | exact KeepsR.fault | apply present_keeps | apply State.probeIn_keeps)
    | exact Sub.of rfl
    | dsimp only

theorem State.replyIn_keeps {mk : Nat} {z s : State} (hk : Keeps mk z s) (port num : Nat) (hm : Sub 0x80471 mk := by exact Sub.of rfl) :
    Keeps mk z (State.replyIn s port num) := by
  refine hk.within hm ?_
  replace hk : Keeps 0x80471 s s := .refl _
  unfold State.replyIn
  repeat' first
    | with_reducible assumption
    | with_reducible apply State.sendLocal_keeps
    | (with_reducible apply Keeps.ite)
    | split
    | exact Sub.of rfl
    | dsimp only

theorem execReplyReceived_keeps {mk : Nat} {z s : State} (hk : Keeps mk z s) (port num : Nat) (hm : Sub 0x80471 mk := by exact Sub.of rfl) :
    KeepsR mk z (execReplyReceived port num s) := by
  refine KeepsR.within hk hm ?_
  replace hk : Keeps 0x80471 s s := .refl _
  unfold execReplyReceived
  repeat' first
    | with_reducible assumption
    | (with_reducible first | apply KeepsR.present | apply KeepsR.next | exact KeepsR.fault | apply present_keeps | apply State.replyIn_keeps)
    | exact Sub.of rfl
    | dsimp only

theorem State.missOn_keeps {mk : Nat} {z s : State} (hk : Keeps mk z s) (p : Nat) (hm : Sub 0x11EE5F7 mk := by exact Sub.of rfl) :
    Keeps mk z (State.missOn s p) := by
  refine hk.within hm ?_
  replace hk : Keeps 0x11EE5F7 s s := .refl _
  unfold State.missOn
  repeat' first
    | (extract_lets -descend +onlyGivenNames x0; refine Keeps.cut (m := 0x11EE5F7) (z := s) (v := x0) ?_ (fun h0 => ?_); rotate_left; clear_value x0; rotate_left; dsimp -zeta only [x0]; clear x0)
    | (extract_lets -descend +onlyGivenNames x0; clear_value x0)
    | with_reducible intro _
    | lift_lets
    | with_reducible assumption
    | (with_reducible first | apply State.bumpSat_keeps | apply State.modExch_keeps | apply State.reacquire_keeps | apply State.parentLost_keeps | apply State.exchVote_keeps)
    | (with_reducible refine Keeps.mk0 ?_ ?g; (first | with_reducible assumption | (refine Keeps.snd ?_ (by assumption)) | (refine Keeps.some ?_ (by assumption)) | (with_reducible first | apply State.bumpSat_keeps | apply State.modExch_keeps | apply State.reacquire_keeps | apply State.parentLost_keeps | apply State.exchVote_keeps)); with_reducible case g => exact fun h => Keeps.mk' h)
    | (with_reducible apply Keeps.ite)
    | split
    | exact Sub.of rfl
    | dsimp only

theorem State.servo_keeps {mk : Nat} {z s : State} (hk : Keeps mk z s) (o : Int) (delta : Nat) (hm : Sub 0x4 mk := by exact Sub.of rfl) :
    Keeps mk z (State.servo s o delta) := by
  refine hk.within hm ?_
  replace hk : Keeps 0x4 s s := .refl _
  unfold State.servo
  repeat' first
    | (extract_lets -descend +onlyGivenNames x0; refine Keeps.cut (m := 0x4) (z := s) (v := x0) ?_ (fun h0 => ?_); rotate_left; clear_value x0; rotate_left; dsimp -zeta only [x0]; clear x0)
    | (extract_lets -descend +onlyGivenNames x0; first
        | ((with_reducible first | have _w : LinkSt := x0 | have _w : TimeSt := x0 | have _w : PowerSt := x0 | have _w : SampSt := x0 | have _w : FwSt := x0 | have _w : AuthSt := x0 | have _w : PulseSt := x0 | have _w : CoreSt := x0); clear _w; dsimp -zeta only [x0]; clear x0)
        | clear_value x0)
    | with_reducible intro _
    | lift_lets
    | with_reducible assumption
    | (with_reducible first | apply KeepsR.present | apply KeepsR.next | exact KeepsR.fault | exact KeepsO.none | apply KeepsO.some)
    | (with_reducible refine State.modRegion_keeps ?_ _ _ (fun _ w => w))
    | (with_reducible refine State.modFw_keeps ?_ _ ⟨rfl, rfl⟩)
    | (with_reducible refine State.modAuth_keeps ?_ _ ⟨rfl, rfl⟩)
    | (with_reducible refine Keeps.mk0 ?_ ?g; (first | with_reducible assumption | (refine Keeps.snd ?_ (by assumption)) | (refine Keeps.some ?_ (by assumption))); with_reducible case g => exact fun h => Keeps.mk' h)
    | (with_reducible apply Keeps.ite)
    | (with_reducible apply Keeps.foldl)
    | (with_reducible apply Keeps.foldlSnd)
    | (with_reducible apply Keeps.foldlFst)
    | split
    | (refine Keeps.some ?_ (by assumption))
    | (refine Keeps.snd ?_ (by assumption))
    | exact Sub.of rfl
    | dsimp only

theorem State.crossCheck_keeps {mk : Nat} {z s : State} (hk : Keeps mk z s) (p : Nat) (o : Int) (hm : Sub 0x7 mk := by exact Sub.of rfl) :
    Keeps mk z (State.crossCheck s p o) := by
  refine hk.within hm ?_
  replace hk : Keeps 0x7 s s := .refl _
  unfold State.crossCheck
  repeat' first
    | (extract_lets -descend +onlyGivenNames x0; refine Keeps.cut (m := 0x7) (z := s) (v := x0) ?_ (fun h0 => ?_); rotate_left; clear_value x0; rotate_left; dsimp -zeta only [x0]; clear x0)
    | (extract_lets -descend +onlyGivenNames x0; clear_value x0)
    | with_reducible intro _
    | lift_lets
    | with_reducible assumption
    | (with_reducible first | apply State.wr_keeps | apply State.irq_keeps | apply State.modExch_keeps)
    | (with_reducible refine Keeps.mk0 ?_ ?g; (first | with_reducible assumption | (refine Keeps.snd ?_ (by assumption)) | (refine Keeps.some ?_ (by assumption)) | (with_reducible first | apply State.wr_keeps | apply State.irq_keeps | apply State.modExch_keeps)); with_reducible case g => exact fun h => Keeps.mk' h)
    | (with_reducible apply Keeps.ite)
    | split
    | exact Sub.of rfl
    | dsimp only

theorem State.firstEstimate_keeps {mk : Nat} {z s : State} (hk : Keeps mk z s) (p : Nat) (o : Int) (hm : Sub 0x11EE7FF mk := by exact Sub.of rfl) :
    Keeps mk z (State.firstEstimate s p o) := by
  refine hk.within hm ?_
  replace hk : Keeps 0x11EE7FF s s := .refl _
  unfold State.firstEstimate
  repeat' first
    | (extract_lets -descend +onlyGivenNames x0; refine Keeps.cut (m := 0x11EE7FF) (z := s) (v := x0) ?_ (fun h0 => ?_); rotate_left; clear_value x0; rotate_left; dsimp -zeta only [x0]; clear x0)
    | (extract_lets -descend +onlyGivenNames x0; first
        | ((with_reducible first | have _w : LinkSt := x0 | have _w : TimeSt := x0 | have _w : PowerSt := x0 | have _w : SampSt := x0 | have _w : FwSt := x0 | have _w : AuthSt := x0 | have _w : PulseSt := x0 | have _w : CoreSt := x0); clear _w; dsimp -zeta only [x0]; clear x0)
        | clear_value x0)
    | with_reducible intro _
    | lift_lets
    | with_reducible assumption
    | (with_reducible first | apply KeepsR.present | apply KeepsR.next | exact KeepsR.fault | exact KeepsO.none | apply KeepsO.some | apply State.stepTime_keeps | apply State.modExch_keeps)
    | (with_reducible refine State.modRegion_keeps ?_ _ _ (fun _ w => w))
    | (with_reducible refine State.modFw_keeps ?_ _ ⟨rfl, rfl⟩)
    | (with_reducible refine State.modAuth_keeps ?_ _ ⟨rfl, rfl⟩)
    | (with_reducible refine Keeps.mk0 ?_ ?g; (first | with_reducible assumption | (refine Keeps.snd ?_ (by assumption)) | (refine Keeps.some ?_ (by assumption)) | (with_reducible first | apply State.stepTime_keeps | apply State.modExch_keeps)); with_reducible case g => exact fun h => Keeps.mk' h)
    | (with_reducible apply Keeps.ite)
    | (with_reducible apply Keeps.foldl)
    | (with_reducible apply Keeps.foldlSnd)
    | (with_reducible apply Keeps.foldlFst)
    | split
    | (refine Keeps.some ?_ (by assumption))
    | (refine Keeps.snd ?_ (by assumption))
    | exact Sub.of rfl
    | dsimp only

theorem State.towardLock_keeps {mk : Nat} {z s : State} (hk : Keeps mk z s) (p : Nat) (o : Int) (hm : Sub 0x4 mk := by exact Sub.of rfl) :
    Keeps mk z (State.towardLock s p o) := by
  refine hk.within hm ?_
  replace hk : Keeps 0x4 s s := .refl _
  unfold State.towardLock
  repeat' first
    | (extract_lets -descend +onlyGivenNames x0; refine Keeps.cut (m := 0x4) (z := s) (v := x0) ?_ (fun h0 => ?_); rotate_left; clear_value x0; rotate_left; dsimp -zeta only [x0]; clear x0)
    | (extract_lets -descend +onlyGivenNames x0; clear_value x0)
    | with_reducible intro _
    | lift_lets
    | with_reducible assumption
    | with_reducible apply State.modExch_keeps
    | (with_reducible refine Keeps.mk0 ?_ ?g; (first | with_reducible assumption | (refine Keeps.snd ?_ (by assumption)) | (refine Keeps.some ?_ (by assumption)) | (with_reducible first | apply State.modExch_keeps)); with_reducible case g => exact fun h => Keeps.mk' h)
    | (with_reducible apply Keeps.ite)
    | split
    | exact Sub.of rfl
    | dsimp only

theorem State.offsetTaken_keeps {mk : Nat} {z s : State} (hk : Keeps mk z s) (p : Nat) (o : Int) (delta : Nat) (hm : Sub 0x11EE7FF mk := by exact Sub.of rfl) :
    Keeps mk z (State.offsetTaken s p o delta) := by
  refine hk.within hm ?_
  replace hk : Keeps 0x11EE7FF s s := .refl _
  unfold State.offsetTaken
  repeat' first
    | (extract_lets -descend +onlyGivenNames x0; refine Keeps.cut (m := 0x11EE7FF) (z := s) (v := x0) ?_ (fun h0 => ?_); rotate_left; clear_value x0; rotate_left; dsimp -zeta only [x0]; clear x0)
    | (extract_lets -descend +onlyGivenNames x0; clear_value x0)
    | with_reducible intro _
    | lift_lets
    | with_reducible assumption
    | (with_reducible first | apply State.modExch_keeps | apply State.chooseParent_keeps | apply State.servo_keeps | apply State.firstEstimate_keeps | apply State.towardLock_keeps)
    | (with_reducible refine Keeps.mk0 ?_ ?g; (first | with_reducible assumption | (refine Keeps.snd ?_ (by assumption)) | (refine Keeps.some ?_ (by assumption)) | (with_reducible first | apply State.modExch_keeps | apply State.chooseParent_keeps | apply State.servo_keeps | apply State.firstEstimate_keeps | apply State.towardLock_keeps)); with_reducible case g => exact fun h => Keeps.mk' h)
    | (with_reducible apply Keeps.ite)
    | split
    | exact Sub.of rfl
    | dsimp only

theorem State.applyOffset_keeps {mk : Nat} {z s : State} (hk : Keeps mk z s) (p : Nat) (o md : Int) (delta : Nat) (hm : Sub 0x11EE7FF mk := by exact Sub.of rfl) :
    Keeps mk z (State.applyOffset s p o md delta) := by
  refine hk.within hm ?_
  replace hk : Keeps 0x11EE7FF s s := .refl _
  unfold State.applyOffset
  repeat' first
    | (extract_lets -descend +onlyGivenNames x0; refine Keeps.cut (m := 0x11EE7FF) (z := s) (v := x0) ?_ (fun h0 => ?_); rotate_left; clear_value x0; rotate_left; dsimp -zeta only [x0]; clear x0)
    | (extract_lets -descend +onlyGivenNames x0; clear_value x0)
    | lift_lets
    | with_reducible assumption
    | (with_reducible first | apply State.wr_keeps | apply State.eventAt_keeps | apply State.reacquire_keeps | apply State.parentLost_keeps | apply State.crossCheck_keeps | apply State.offsetTaken_keeps)
    | (with_reducible apply Keeps.ite)
    | split
    | exact Sub.of rfl
    | dsimp only

theorem State.resultIn_keeps {mk : Nat} {z s : State} (hk : Keeps mk z s) (port : Nat) (res : TimeResult) (hm : Sub 0x11EE7FF mk := by exact Sub.of rfl) :
    Keeps mk z (State.resultIn s port res) := by
  refine hk.within hm ?_
  replace hk : Keeps 0x11EE7FF s s := .refl _
  unfold State.resultIn
  repeat' first
    | (extract_lets -descend +onlyGivenNames x0; refine Keeps.cut (m := 0x11EE7FF) (z := s) (v := x0) ?_ (fun h0 => ?_); rotate_left; clear_value x0; rotate_left; dsimp -zeta only [x0]; clear x0)
    | (extract_lets -descend +onlyGivenNames x0; clear_value x0)
    | with_reducible intro _
    | lift_lets
    | with_reducible assumption
    | (with_reducible first | apply State.modExch_keeps | apply State.exchVote_keeps | apply State.missOn_keeps | apply State.applyOffset_keeps)
    | (with_reducible refine Keeps.mk0 ?_ ?g; (first | with_reducible assumption | (refine Keeps.snd ?_ (by assumption)) | (refine Keeps.some ?_ (by assumption)) | (with_reducible first | apply State.modExch_keeps | apply State.exchVote_keeps | apply State.missOn_keeps | apply State.applyOffset_keeps)); with_reducible case g => exact fun h => Keeps.mk' h)
    | (with_reducible apply Keeps.ite)
    | split
    | exact Sub.of rfl
    | dsimp only

theorem execResultReceived_keeps {mk : Nat} {z s : State} (hk : Keeps mk z s) (port : Nat) (res : TimeResult) (hm : Sub 0x11EE7FF mk := by exact Sub.of rfl) :
    KeepsR mk z (execResultReceived port res s) := by
  refine KeepsR.within hk hm ?_
  replace hk : Keeps 0x11EE7FF s s := .refl _
  unfold execResultReceived
  repeat' first
    | with_reducible assumption
    | (with_reducible first | apply KeepsR.present | apply KeepsR.next | exact KeepsR.fault | apply present_keeps | apply State.resultIn_keeps)
    | exact Sub.of rfl
    | dsimp only

theorem execResultTimeout_keeps {mk : Nat} {z s : State} (hk : Keeps mk z s) (port : Nat) (hm : Sub 0x11EE5F7 mk := by exact Sub.of rfl) :
    KeepsR mk z (execResultTimeout port s) := by
  refine KeepsR.within hk hm ?_
  replace hk : Keeps 0x11EE5F7 s s := .refl _
  unfold execResultTimeout
  repeat' first
    | with_reducible assumption
    | (with_reducible first | apply KeepsR.present | apply KeepsR.next | exact KeepsR.fault | apply present_keeps | apply State.missOn_keeps)
    | (with_reducible apply Keeps.ite)
    | split
    | exact Sub.of rfl
    | dsimp only

theorem execProbeTimeout_keeps {mk : Nat} {z s : State} (hk : Keeps mk z s) (port : Nat) (hm : Sub 0x11EE5F7 mk := by exact Sub.of rfl) :
    KeepsR mk z (execProbeTimeout port s) := by
  refine KeepsR.within hk hm ?_
  replace hk : Keeps 0x11EE5F7 s s := .refl _
  unfold execProbeTimeout
  repeat' first
    | with_reducible intro _
    | with_reducible assumption
    | (with_reducible first | apply KeepsR.present | apply KeepsR.next | exact KeepsR.fault | apply present_keeps | apply State.modExch_keeps | apply State.missOn_keeps)
    | (with_reducible refine Keeps.mk0 ?_ ?g; (first | with_reducible assumption | (refine Keeps.snd ?_ (by assumption)) | (refine Keeps.some ?_ (by assumption)) | (with_reducible first | apply present_keeps | apply State.modExch_keeps | apply State.missOn_keeps)); with_reducible case g => exact fun h => Keeps.mk' h)
    | (with_reducible apply Keeps.ite)
    | split
    | exact Sub.of rfl
    | dsimp only

theorem execHoldoverExpiry_keeps {mk : Nat} {z s : State} (hk : Keeps mk z s) (hm : Sub 0x11EE5F7 mk := by exact Sub.of rfl) :
    KeepsR mk z (execHoldoverExpiry s) := by
  refine KeepsR.within hk hm ?_
  replace hk : Keeps 0x11EE5F7 s s := .refl _
  unfold execHoldoverExpiry
  repeat' first
    | with_reducible assumption
    | (with_reducible first | apply KeepsR.present | apply KeepsR.next | exact KeepsR.fault | apply State.setCode_keeps)
    | (with_reducible apply Keeps.ite)
    | split
    | (refine Keeps.some ?_ (by assumption))
    | exact Sub.of rfl
    | dsimp only

theorem execRefClockFault_keeps {mk : Nat} {z s : State} (hk : Keeps mk z s) (kind : Nat) (hm : Sub 0x11EE5F7 mk := by exact Sub.of rfl) :
    KeepsR mk z (execRefClockFault kind s) := by
  refine KeepsR.within hk hm ?_
  replace hk : Keeps 0x11EE5F7 s s := .refl _
  unfold execRefClockFault
  repeat' first
    | (extract_lets -descend +onlyGivenNames x0; refine Keeps.cut (m := 0x11EE5F7) (z := s) (v := x0) ?_ (fun h0 => ?_); rotate_left; clear_value x0; rotate_left; dsimp -zeta only [x0]; clear x0)
    | (extract_lets -descend +onlyGivenNames x0; first
        | ((with_reducible first | have _w : LinkSt := x0 | have _w : TimeSt := x0 | have _w : PowerSt := x0 | have _w : SampSt := x0 | have _w : FwSt := x0 | have _w : AuthSt := x0 | have _w : PulseSt := x0 | have _w : CoreSt := x0); clear _w; dsimp -zeta only [x0]; clear x0)
        | clear_value x0)
    | with_reducible intro _
    | lift_lets
    | with_reducible assumption
    | (with_reducible first | apply KeepsR.present | apply KeepsR.next | exact KeepsR.fault | exact KeepsO.none | apply KeepsO.some | apply State.irq_keeps | apply State.trcQual_keeps | apply State.event_keeps)
    | (with_reducible refine State.modRegion_keeps ?_ _ _ (fun _ w => w))
    | (with_reducible refine State.modFw_keeps ?_ _ ⟨rfl, rfl⟩)
    | (with_reducible refine State.modAuth_keeps ?_ _ ⟨rfl, rfl⟩)
    | (with_reducible refine Keeps.mk0 ?_ ?g; (first | with_reducible assumption | (refine Keeps.snd ?_ (by assumption)) | (refine Keeps.some ?_ (by assumption)) | (with_reducible first | apply State.irq_keeps | apply State.trcQual_keeps | apply State.event_keeps)); with_reducible case g => exact fun h => Keeps.mk' h)
    | (with_reducible apply Keeps.ite)
    | (with_reducible apply Keeps.foldl)
    | (with_reducible apply Keeps.foldlSnd)
    | (with_reducible apply Keeps.foldlFst)
    | split
    | (refine Keeps.some ?_ (by assumption))
    | (refine Keeps.snd ?_ (by assumption))
    | exact Sub.of rfl
    | dsimp only

theorem execRefClockRecovered_keeps {mk : Nat} {z s : State} (hk : Keeps mk z s) (hm : Sub 0x11EE5F7 mk := by exact Sub.of rfl) :
    KeepsR mk z (execRefClockRecovered s) := by
  refine KeepsR.within hk hm ?_
  replace hk : Keeps 0x11EE5F7 s s := .refl _
  unfold execRefClockRecovered
  repeat' first
    | (extract_lets -descend +onlyGivenNames x0; refine Keeps.cut (m := 0x11EE5F7) (z := s) (v := x0) ?_ (fun h0 => ?_); rotate_left; clear_value x0; rotate_left; dsimp -zeta only [x0]; clear x0)
    | (extract_lets -descend +onlyGivenNames x0; dsimp -zeta only [x0]; clear x0)
    | with_reducible intro _
    | lift_lets
    | with_reducible assumption
    | (with_reducible first | apply KeepsR.present | apply KeepsR.next | exact KeepsR.fault | exact KeepsO.none | apply KeepsO.some | apply State.setCode_keeps | apply State.reacquire_keeps)
    | (with_reducible refine State.modRegion_keeps ?_ _ _ (fun _ w => w))
    | (with_reducible refine State.modFw_keeps ?_ _ ⟨rfl, rfl⟩)
    | (with_reducible refine State.modAuth_keeps ?_ _ ⟨rfl, rfl⟩)
    | (with_reducible refine Keeps.mk0 ?_ ?g; (first | with_reducible assumption | (refine Keeps.snd ?_ (by assumption)) | (refine Keeps.some ?_ (by assumption)) | (with_reducible first | apply State.setCode_keeps | apply State.reacquire_keeps)); with_reducible case g => exact fun h => Keeps.mk' h)
    | (with_reducible apply Keeps.ite)
    | (with_reducible apply Keeps.foldl)
    | (with_reducible apply Keeps.foldlSnd)
    | (with_reducible apply Keeps.foldlFst)
    | split
    | (refine Keeps.some ?_ (by assumption))
    | (refine Keeps.snd ?_ (by assumption))
    | exact Sub.of rfl
    | dsimp only

theorem State.timeMode_keeps {mk : Nat} {z s : State} (hk : Keeps mk z s) (v : Nat) (hm : Sub 0x11EE5F7 mk := by exact Sub.of rfl) :
    Keeps mk z (State.timeMode s v) := by
  refine hk.within hm ?_
  replace hk : Keeps 0x11EE5F7 s s := .refl _
  unfold State.timeMode
  repeat' first
    | (extract_lets -descend +onlyGivenNames x0; refine Keeps.cut (m := 0x11EE5F7) (z := s) (v := x0) ?_ (fun h0 => ?_); rotate_left; clear_value x0; rotate_left; dsimp -zeta only [x0]; clear x0)
    | (extract_lets -descend +onlyGivenNames x0; first
        | ((with_reducible first | have _w : LinkSt := x0 | have _w : TimeSt := x0 | have _w : PowerSt := x0 | have _w : SampSt := x0 | have _w : FwSt := x0 | have _w : AuthSt := x0 | have _w : PulseSt := x0 | have _w : CoreSt := x0); clear _w; dsimp -zeta only [x0]; clear x0)
        | clear_value x0)
    | with_reducible intro _
    | lift_lets
    | with_reducible assumption
    | (with_reducible first | apply KeepsR.present | apply KeepsR.next | exact KeepsR.fault | exact KeepsO.none | apply KeepsO.some | apply State.wr_keeps | apply State.setCode_keeps | apply State.rootCode_keeps | apply State.chooseParent_keeps)
    | (with_reducible refine State.modRegion_keeps ?_ _ _ (fun _ w => w))
    | (with_reducible refine State.modFw_keeps ?_ _ ⟨rfl, rfl⟩)
    | (with_reducible refine State.modAuth_keeps ?_ _ ⟨rfl, rfl⟩)
    | (with_reducible refine Keeps.mk0 ?_ ?g; (first | with_reducible assumption | (refine Keeps.snd ?_ (by assumption)) | (refine Keeps.some ?_ (by assumption)) | (with_reducible first | apply State.wr_keeps | apply State.setCode_keeps | apply State.rootCode_keeps | apply State.chooseParent_keeps)); with_reducible case g => exact fun h => Keeps.mk' h)
    | (with_reducible apply Keeps.ite)
    | (with_reducible apply Keeps.foldl)
    | (with_reducible apply Keeps.foldlSnd)
    | (with_reducible apply Keeps.foldlFst)
    | split
    | (refine Keeps.some ?_ (by assumption))
    | (refine Keeps.snd ?_ (by assumption))
    | exact Sub.of rfl
    | dsimp only

theorem execTimeModeReq_keeps {mk : Nat} {z s : State} (hk : Keeps mk z s) (a : Acc) (data : Word) (hm : Sub 0x11EE5F7 mk := by exact Sub.of rfl) :
    KeepsR mk z (execTimeModeReq a data s) := by
  refine KeepsR.within hk hm ?_
  replace hk : Keeps 0x11EE5F7 s s := .refl _
  unfold execTimeModeReq
  repeat' first
    | with_reducible intro _
    | with_reducible assumption
    | (with_reducible first | apply KeepsR.present | apply KeepsR.next | exact KeepsR.fault | apply State.guardedWrite_keeps | apply State.timeMode_keeps)
    | exact Sub.of rfl
    | dsimp only

theorem State.timeSet_keeps {mk : Nat} {z s : State} (hk : Keeps mk z s) (v : Nat) (hm : Sub 0x11EE7FF mk := by exact Sub.of rfl) :
    Keeps mk z (State.timeSet s v) := by
  refine hk.within hm ?_
  replace hk : Keeps 0x11EE7FF s s := .refl _
  unfold State.timeSet
  repeat' first
    | (extract_lets -descend +onlyGivenNames x0; refine Keeps.cut (m := 0x11EE7FF) (z := s) (v := x0) ?_ (fun h0 => ?_); rotate_left; clear_value x0; rotate_left; dsimp -zeta only [x0]; clear x0)
    | (extract_lets -descend +onlyGivenNames x0; clear_value x0)
    | lift_lets
    | with_reducible assumption
    | (with_reducible first | apply State.irq_keeps | apply State.stepClock_keeps | apply State.stepTold_keeps | apply State.codeTo_keeps | apply State.codeTold_keeps)
    | (with_reducible apply Keeps.ite)
    | split
    | exact Sub.of rfl
    | dsimp only

theorem execTimeSet_keeps {mk : Nat} {z s : State} (hk : Keeps mk z s) (a : Acc) (data : Word) (hm : Sub 0x11EE7FF mk := by exact Sub.of rfl) :
    KeepsR mk z (execTimeSet a data s) := by
  refine KeepsR.within hk hm ?_
  replace hk : Keeps 0x11EE7FF s s := .refl _
  unfold execTimeSet
  repeat' first
    | with_reducible intro _
    | with_reducible assumption
    | (with_reducible first | apply KeepsR.present | apply KeepsR.next | exact KeepsR.fault | apply State.guardedWrite_keeps | apply State.timeSet_keeps)
    | exact Sub.of rfl
    | dsimp only

theorem execTimeAnchorDue_keeps {mk : Nat} {z s : State} (hk : Keeps mk z s) (stream tc : Nat) (hm : Sub 0x80475 mk := by exact Sub.of rfl) :
    KeepsR mk z (execTimeAnchorDue stream tc s) := by
  refine KeepsR.within hk hm ?_
  replace hk : Keeps 0x80475 s s := .refl _
  unfold execTimeAnchorDue
  repeat' first
    | with_reducible assumption
    | (with_reducible first | apply KeepsR.present | apply KeepsR.next | exact KeepsR.fault | apply State.anchor_keeps)
    | (with_reducible apply Keeps.ite)
    | split
    | exact Sub.of rfl
    | dsimp only

theorem State.modPtp_keeps {mk : Nat} {z s : State} (hk : Keeps mk z s) (p : Nat) (f : PtpPort → PtpPort) (hm : Sub 0x4 mk := by exact Sub.of rfl) :
    Keeps mk z (State.modPtp s p f) := by
  refine hk.within hm ?_
  replace hk : Keeps 0x4 s s := .refl _
  unfold State.modPtp
  repeat' first
    | with_reducible assumption
    | (with_reducible refine Keeps.mk0 ?_ ?g; (first | with_reducible assumption | (refine Keeps.snd ?_ (by assumption)) | (refine Keeps.some ?_ (by assumption))); with_reducible case g => exact fun h => Keeps.mk' h)
    | exact Sub.of rfl
    | dsimp only

theorem State.ptpShow_keeps {mk : Nat} {z s : State} (hk : Keeps mk z s) (hm : Sub 0x1 mk := by exact Sub.of rfl) :
    Keeps mk z (State.ptpShow s) := by
  refine hk.within hm ?_
  replace hk : Keeps 0x1 s s := .refl _
  unfold State.ptpShow
  repeat' first
    | (extract_lets -descend +onlyGivenNames x0; refine Keeps.cut (m := 0x1) (z := s) (v := x0) ?_ (fun h0 => ?_); rotate_left; clear_value x0; rotate_left; dsimp -zeta only [x0]; clear x0)
    | (extract_lets -descend +onlyGivenNames x0; clear_value x0)
    | lift_lets
    | with_reducible assumption
    | with_reducible apply State.wr_keeps
    | split
    | (refine Keeps.some ?_ (by assumption))
    | exact Sub.of rfl
    | dsimp only

theorem State.ptpUnlock_keeps {mk : Nat} {z s : State} (hk : Keeps mk z s) (p : Nat) (hm : Sub 0x4 mk := by exact Sub.of rfl) :
    Keeps mk z (State.ptpUnlock s p) := by
  refine hk.within hm ?_
  replace hk : Keeps 0x4 s s := .refl _
  unfold State.ptpUnlock
  repeat' first
    | with_reducible intro _
    | with_reducible assumption
    | with_reducible apply State.modPtp_keeps
    | (with_reducible refine Keeps.mk0 ?_ ?g; (first | with_reducible assumption | (refine Keeps.snd ?_ (by assumption)) | (refine Keeps.some ?_ (by assumption)) | (with_reducible first | apply State.modPtp_keeps)); with_reducible case g => exact fun h => Keeps.mk' h)
    | exact Sub.of rfl
    | dsimp only

theorem State.ptpLost_keeps {mk : Nat} {z s : State} (hk : Keeps mk z s) (p : Nat) (cause : Nat) (hm : Sub 0x11EE5F7 mk := by exact Sub.of rfl) :
    Keeps mk z (State.ptpLost s p cause) := by
  refine hk.within hm ?_
  replace hk : Keeps 0x11EE5F7 s s := .refl _
  unfold State.ptpLost
  repeat' first
    | (extract_lets -descend +onlyGivenNames x0; refine Keeps.cut (m := 0x11EE5F7) (z := s) (v := x0) ?_ (fun h0 => ?_); rotate_left; clear_value x0; rotate_left; dsimp -zeta only [x0]; clear x0)
    | (extract_lets -descend +onlyGivenNames x0; first
        | ((with_reducible first | have _w : LinkSt := x0 | have _w : TimeSt := x0 | have _w : PowerSt := x0 | have _w : SampSt := x0 | have _w : FwSt := x0 | have _w : AuthSt := x0 | have _w : PulseSt := x0 | have _w : CoreSt := x0); clear _w; dsimp -zeta only [x0]; clear x0)
        | clear_value x0)
    | with_reducible intro _
    | lift_lets
    | with_reducible assumption
    | (with_reducible first | apply KeepsR.present | apply KeepsR.next | exact KeepsR.fault | exact KeepsO.none | apply KeepsO.some | apply State.bumpSat_keeps | apply State.irq_keeps | apply State.eventAt_keeps | apply State.codeAlone_keeps | apply State.ptpUnlock_keeps)
    | (with_reducible refine State.modRegion_keeps ?_ _ _ (fun _ w => w))
    | (with_reducible refine State.modFw_keeps ?_ _ ⟨rfl, rfl⟩)
    | (with_reducible refine State.modAuth_keeps ?_ _ ⟨rfl, rfl⟩)
    | (with_reducible refine Keeps.mk0 ?_ ?g; (first | with_reducible assumption | (refine Keeps.snd ?_ (by assumption)) | (refine Keeps.some ?_ (by assumption)) | (with_reducible first | apply State.bumpSat_keeps | apply State.irq_keeps | apply State.eventAt_keeps | apply State.codeAlone_keeps | apply State.ptpUnlock_keeps)); with_reducible case g => exact fun h => Keeps.mk' h)
    | (with_reducible apply Keeps.ite)
    | (with_reducible apply Keeps.foldl)
    | (with_reducible apply Keeps.foldlSnd)
    | (with_reducible apply Keeps.foldlFst)
    | split
    | (refine Keeps.some ?_ (by assumption))
    | (refine Keeps.snd ?_ (by assumption))
    | exact Sub.of rfl
    | dsimp only

theorem State.ptpOffset_keeps {mk : Nat} {z s : State} (hk : Keeps mk z s) (p : Nat) (o : Int) (delta : Nat) (intervalOk : Bool) (hm : Sub 0x11EE7FF mk := by exact Sub.of rfl) :
    Keeps mk z (State.ptpOffset s p o delta intervalOk) := by
  refine hk.within hm ?_
  replace hk : Keeps 0x11EE7FF s s := .refl _
  unfold State.ptpOffset
  repeat' first
    | (extract_lets -descend +onlyGivenNames x0; refine Keeps.cut (m := 0x11EE7FF) (z := s) (v := x0) ?_ (fun h0 => ?_); rotate_left; clear_value x0; rotate_left; dsimp -zeta only [x0]; clear x0)
    | (extract_lets -descend +onlyGivenNames x0; clear_value x0)
    | with_reducible intro _
    | lift_lets
    | with_reducible assumption
    | (with_reducible first | apply State.wr_keeps | apply State.eventAt_keeps | apply State.stepTime_keeps | apply State.setCode_keeps | apply State.servo_keeps | apply State.modPtp_keeps | apply State.ptpLost_keeps)
    | (with_reducible refine Keeps.mk0 ?_ ?g; (first | with_reducible assumption | (refine Keeps.snd ?_ (by assumption)) | (refine Keeps.some ?_ (by assumption)) | (with_reducible first | apply State.wr_keeps | apply State.eventAt_keeps | apply State.stepTime_keeps | apply State.setCode_keeps | apply State.servo_keeps | apply State.modPtp_keeps | apply State.ptpLost_keeps)); with_reducible case g => exact fun h => Keeps.mk' h)
    | (with_reducible apply Keeps.ite)
    | split
    | (refine Keeps.some ?_ (by assumption))
    | exact Sub.of rfl
    | dsimp only

theorem State.delayReq_keeps {mk : Nat} {z s : State} (hk : Keeps mk z s) (p : Nat) (hm : Sub 0x40004 mk := by exact Sub.of rfl) :
    Keeps mk z (State.delayReq s p) := by
  refine hk.within hm ?_
  replace hk : Keeps 0x40004 s s := .refl _
  unfold State.delayReq
  repeat' first
    | (extract_lets -descend +onlyGivenNames x0; refine Keeps.cut (m := 0x40004) (z := s) (v := x0) ?_ (fun h0 => ?_); rotate_left; clear_value x0; rotate_left; dsimp -zeta only [x0]; clear x0)
    | (extract_lets -descend +onlyGivenNames x0; clear_value x0)
    | with_reducible intro _
    | lift_lets
    | with_reducible assumption
    | (with_reducible first | apply State.sendFrame_keeps | apply State.modPtp_keeps)
    | (with_reducible refine Keeps.mk0 ?_ ?g; (first | with_reducible assumption | (refine Keeps.snd ?_ (by assumption)) | (refine Keeps.some ?_ (by assumption)) | (with_reducible first | apply State.sendFrame_keeps | apply State.modPtp_keeps)); with_reducible case g => exact fun h => Keeps.mk' h)
    | exact Sub.of rfl
    | dsimp only

theorem State.ptpSync_keeps {mk : Nat} {z s : State} (hk : Keeps mk z s) (p t1 t2 : Nat) (corr : Int) (okI : Bool) (hm : Sub 0x11EE7FF mk := by exact Sub.of rfl) :
    Keeps mk z (State.ptpSync s p t1 t2 corr okI) := by
  refine hk.within hm ?_
  replace hk : Keeps 0x11EE7FF s s := .refl _
  unfold State.ptpSync
  repeat' first
    | (extract_lets -descend +onlyGivenNames x0; refine Keeps.cut (m := 0x11EE7FF) (z := s) (v := x0) ?_ (fun h0 => ?_); rotate_left; clear_value x0; rotate_left; dsimp -zeta only [x0]; clear x0)
    | (extract_lets -descend +onlyGivenNames x0; clear_value x0)
    | with_reducible intro _
    | lift_lets
    | with_reducible assumption
    | (with_reducible first | apply State.modPtp_keeps | apply State.ptpShow_keeps | apply State.ptpOffset_keeps | apply State.delayReq_keeps)
    | (with_reducible refine Keeps.mk0 ?_ ?g; (first | with_reducible assumption | (refine Keeps.snd ?_ (by assumption)) | (refine Keeps.some ?_ (by assumption)) | (with_reducible first | apply State.modPtp_keeps | apply State.ptpShow_keeps | apply State.ptpOffset_keeps | apply State.delayReq_keeps)); with_reducible case g => exact fun h => Keeps.mk' h)
    | (with_reducible apply Keeps.ite)
    | split
    | exact Sub.of rfl
    | dsimp only

theorem State.syncIn_keeps {mk : Nat} {z s : State} (hk : Keeps mk z s) (p : Nat) (m : PtpMsg) (hm : Sub 0x11EE7FF mk := by exact Sub.of rfl) :
    Keeps mk z (State.syncIn s p m) := by
  refine hk.within hm ?_
  replace hk : Keeps 0x11EE7FF s s := .refl _
  unfold State.syncIn
  repeat' first
    | (extract_lets -descend +onlyGivenNames x0; refine Keeps.cut (m := 0x11EE7FF) (z := s) (v := x0) ?_ (fun h0 => ?_); rotate_left; clear_value x0; rotate_left; dsimp -zeta only [x0]; clear x0)
    | (extract_lets -descend +onlyGivenNames x0; clear_value x0)
    | with_reducible intro _
    | lift_lets
    | with_reducible assumption
    | (with_reducible first | apply State.modPtp_keeps | apply State.ptpSync_keeps)
    | (with_reducible refine Keeps.mk0 ?_ ?g; (first | with_reducible assumption | (refine Keeps.snd ?_ (by assumption)) | (refine Keeps.some ?_ (by assumption)) | (with_reducible first | apply State.modPtp_keeps | apply State.ptpSync_keeps)); with_reducible case g => exact fun h => Keeps.mk' h)
    | (with_reducible apply Keeps.ite)
    | split
    | (refine Keeps.some ?_ (by assumption))
    | exact Sub.of rfl
    | dsimp only

theorem execPtpSyncReceived_keeps {mk : Nat} {z s : State} (hk : Keeps mk z s) (p : Nat) (m : PtpMsg) (hm : Sub 0x11EE7FF mk := by exact Sub.of rfl) :
    KeepsR mk z (execPtpSyncReceived p m s) := by
  refine KeepsR.within hk hm ?_
  replace hk : Keeps 0x11EE7FF s s := .refl _
  unfold execPtpSyncReceived
  repeat' first
    | with_reducible assumption
    | (with_reducible first | apply KeepsR.present | apply KeepsR.next | exact KeepsR.fault | apply State.bumpSat_keeps | apply present_keeps | apply State.syncIn_keeps)
    | (with_reducible apply Keeps.ite)
    | split
    | exact Sub.of rfl
    | dsimp only

theorem execPtpDelayRespReceived_keeps {mk : Nat} {z s : State} (hk : Keeps mk z s) (p : Nat) (m : PtpMsg) (mine : Bool) (hm : Sub 0x5 mk := by exact Sub.of rfl) :
    KeepsR mk z (execPtpDelayRespReceived p m mine s) := by
  refine KeepsR.within hk hm ?_
  replace hk : Keeps 0x5 s s := .refl _
  unfold execPtpDelayRespReceived
  repeat' first
    | (extract_lets -descend +onlyGivenNames x0; refine Keeps.cut (m := 0x5) (z := s) (v := x0) ?_ (fun h0 => ?_); rotate_left; clear_value x0; rotate_left; dsimp -zeta only [x0]; clear x0)
    | (extract_lets -descend +onlyGivenNames x0; clear_value x0)
    | with_reducible intro _
    | lift_lets
    | with_reducible assumption
    | (with_reducible first | apply KeepsR.present | apply KeepsR.next | exact KeepsR.fault | apply State.wr_keeps | apply State.bumpSat_keeps | apply present_keeps | apply State.modPtp_keeps)
    | (with_reducible refine Keeps.mk0 ?_ ?g; (first | with_reducible assumption | (refine Keeps.snd ?_ (by assumption)) | (refine Keeps.some ?_ (by assumption)) | (with_reducible first | apply State.wr_keeps | apply State.bumpSat_keeps | apply present_keeps | apply State.modPtp_keeps)); with_reducible case g => exact fun h => Keeps.mk' h)
    | (with_reducible apply Keeps.ite)
    | split
    | (refine Keeps.some ?_ (by assumption))
    | exact Sub.of rfl
    | dsimp only

theorem State.ptpSelect_keeps {mk : Nat} {z s : State} (hk : Keeps mk z s) (hm : Sub 0x4 mk := by exact Sub.of rfl) :
    Keeps mk z (State.ptpSelect s) := by
  refine hk.within hm ?_
  replace hk : Keeps 0x4 s s := .refl _
  unfold State.ptpSelect
  repeat' first
    | (extract_lets -descend +onlyGivenNames x0; refine Keeps.cut (m := 0x4) (z := s) (v := x0) ?_ (fun h0 => ?_); rotate_left; clear_value x0; rotate_left; dsimp -zeta only [x0]; clear x0)
    | (extract_lets -descend +onlyGivenNames x0; first
        | ((with_reducible first | have _w : LinkSt := x0 | have _w : TimeSt := x0 | have _w : PowerSt := x0 | have _w : SampSt := x0 | have _w : FwSt := x0 | have _w : AuthSt := x0 | have _w : PulseSt := x0 | have _w : CoreSt := x0); clear _w; dsimp -zeta only [x0]; clear x0)
        | clear_value x0)
    | with_reducible intro _
    | lift_lets
    | with_reducible assumption
    | (with_reducible first | apply KeepsR.present | apply KeepsR.next | exact KeepsR.fault | exact KeepsO.none | apply KeepsO.some | apply State.ptpUnlock_keeps)
    | (with_reducible refine State.modRegion_keeps ?_ _ _ (fun _ w => w))
    | (with_reducible refine State.modFw_keeps ?_ _ ⟨rfl, rfl⟩)
    | (with_reducible refine State.modAuth_keeps ?_ _ ⟨rfl, rfl⟩)
    | (with_reducible refine Keeps.mk0 ?_ ?g; (first | with_reducible assumption | (refine Keeps.snd ?_ (by assumption)) | (refine Keeps.some ?_ (by assumption)) | (with_reducible first | apply State.ptpUnlock_keeps)); with_reducible case g => exact fun h => Keeps.mk' h)
    | (with_reducible apply Keeps.ite)
    | (with_reducible apply Keeps.foldl)
    | (with_reducible apply Keeps.foldlSnd)
    | (with_reducible apply Keeps.foldlFst)
    | split
    | (refine Keeps.some ?_ (by assumption))
    | (refine Keeps.snd ?_ (by assumption))
    | exact Sub.of rfl
    | dsimp only

theorem State.ptpClass_keeps {mk : Nat} {z s : State} (hk : Keeps mk z s) (hm : Sub 0x11EE5F7 mk := by exact Sub.of rfl) :
    Keeps mk z (State.ptpClass s) := by
  refine hk.within hm ?_
  replace hk : Keeps 0x11EE5F7 s s := .refl _
  unfold State.ptpClass
  repeat' first
    | (extract_lets -descend +onlyGivenNames x0; refine Keeps.cut (m := 0x11EE5F7) (z := s) (v := x0) ?_ (fun h0 => ?_); rotate_left; clear_value x0; rotate_left; dsimp -zeta only [x0]; clear x0)
    | (extract_lets -descend +onlyGivenNames x0; clear_value x0)
    | lift_lets
    | with_reducible assumption
    | with_reducible apply State.ptpLost_keeps
    | (with_reducible apply Keeps.ite)
    | split
    | (refine Keeps.some ?_ (by assumption))
    | exact Sub.of rfl
    | dsimp only

theorem State.annIn_keeps {mk : Nat} {z s : State} (hk : Keeps mk z s) (p : Nat) (m : PtpMsg) (ann : Announce) (hm : Sub 0x11EE5F7 mk := by exact Sub.of rfl) :
    Keeps mk z (State.annIn s p m ann) := by
  refine hk.within hm ?_
  replace hk : Keeps 0x11EE5F7 s s := .refl _
  unfold State.annIn
  repeat' first
    | (extract_lets -descend +onlyGivenNames x0; refine Keeps.cut (m := 0x11EE5F7) (z := s) (v := x0) ?_ (fun h0 => ?_); rotate_left; clear_value x0; rotate_left; dsimp -zeta only [x0]; clear x0)
    | (extract_lets -descend +onlyGivenNames x0; clear_value x0)
    | with_reducible intro _
    | lift_lets
    | with_reducible assumption
    | (with_reducible first | apply State.modPtp_keeps | apply State.ptpShow_keeps | apply State.ptpUnlock_keeps | apply State.ptpSelect_keeps | apply State.ptpClass_keeps)
    | (with_reducible refine Keeps.mk0 ?_ ?g; (first | with_reducible assumption | (refine Keeps.snd ?_ (by assumption)) | (refine Keeps.some ?_ (by assumption)) | (with_reducible first | apply State.modPtp_keeps | apply State.ptpShow_keeps | apply State.ptpUnlock_keeps | apply State.ptpSelect_keeps | apply State.ptpClass_keeps)); with_reducible case g => exact fun h => Keeps.mk' h)
    | (with_reducible apply Keeps.ite)
    | split
    | exact Sub.of rfl
    | dsimp only

theorem execPtpAnnounceReceived_keeps {mk : Nat} {z s : State} (hk : Keeps mk z s) (p : Nat) (m : PtpMsg) (ann : Announce) (hm : Sub 0x11EE5F7 mk := by exact Sub.of rfl) :
    KeepsR mk z (execPtpAnnounceReceived p m ann s) := by
  refine KeepsR.within hk hm ?_
  replace hk : Keeps 0x11EE5F7 s s := .refl _
  unfold execPtpAnnounceReceived
  repeat' first
    | with_reducible assumption
    | (with_reducible first | apply KeepsR.present | apply KeepsR.next | exact KeepsR.fault | apply State.bumpSat_keeps | apply present_keeps | apply State.annIn_keeps)
    | (with_reducible apply Keeps.ite)
    | split
    | exact Sub.of rfl
    | dsimp only

theorem State.ptpSilent_keeps {mk : Nat} {z s : State} (hk : Keeps mk z s) (p : Nat) (hm : Sub 0x11EE5F7 mk := by exact Sub.of rfl) :
    Keeps mk z (State.ptpSilent s p) := by
  refine hk.within hm ?_
  replace hk : Keeps 0x11EE5F7 s s := .refl _
  unfold State.ptpSilent
  repeat' first
    | with_reducible intro _
    | with_reducible assumption
    | (with_reducible first | apply State.modPtp_keeps | apply State.ptpShow_keeps | apply State.ptpLost_keeps | apply State.ptpSelect_keeps)
    | (with_reducible refine Keeps.mk0 ?_ ?g; (first | with_reducible assumption | (refine Keeps.snd ?_ (by assumption)) | (refine Keeps.some ?_ (by assumption)) | (with_reducible first | apply State.modPtp_keeps | apply State.ptpShow_keeps | apply State.ptpLost_keeps | apply State.ptpSelect_keeps)); with_reducible case g => exact fun h => Keeps.mk' h)
    | exact Sub.of rfl
    | dsimp only

theorem execPtpAnnounceTimeout_keeps {mk : Nat} {z s : State} (hk : Keeps mk z s) (p : Nat) (hm : Sub 0x11EE5F7 mk := by exact Sub.of rfl) :
    KeepsR mk z (execPtpAnnounceTimeout p s) := by
  refine KeepsR.within hk hm ?_
  replace hk : Keeps 0x11EE5F7 s s := .refl _
  unfold execPtpAnnounceTimeout
  repeat' first
    | with_reducible assumption
    | (with_reducible first | apply KeepsR.present | apply KeepsR.next | exact KeepsR.fault | apply present_keeps | apply State.ptpSilent_keeps)
    | exact Sub.of rfl
    | dsimp only

theorem State.ptpCtrl_keeps {mk : Nat} {z s : State} (hk : Keeps mk z s) (v : Nat) (hm : Sub 0x11EE5F7 mk := by exact Sub.of rfl) :
    Keeps mk z (State.ptpCtrl s v) := by
  refine hk.within hm ?_
  replace hk : Keeps 0x11EE5F7 s s := .refl _
  unfold State.ptpCtrl
  repeat' first
    | (extract_lets -descend +onlyGivenNames x0; refine Keeps.cut (m := 0x11EE5F7) (z := s) (v := x0) ?_ (fun h0 => ?_); rotate_left; clear_value x0; rotate_left; dsimp -zeta only [x0]; clear x0)
    | (extract_lets -descend +onlyGivenNames x0; clear_value x0)
    | with_reducible intro _
    | lift_lets
    | with_reducible assumption
    | (with_reducible first | apply State.wr_keeps | apply State.ptpShow_keeps | apply State.ptpSilent_keeps)
    | (with_reducible apply Keeps.ite)
    | (with_reducible apply Keeps.foldl)
    | split
    | exact Sub.of rfl
    | dsimp only

end Sys2Proof.Machine
end

