-- ==== Sys2Proof/Laws/KeepsLinks.lean ====
section
/-! SUPPORT. What the operations of Machine/Links.lean keep. -/

set_option Elab.async false

namespace Sys2Proof.Machine

theorem State.settle_keeps {mk : Nat} {z s : State} (hk : Keeps mk z s) (hm : Sub 0x20 mk := by exact Sub.of rfl) :
    Keeps mk z (State.settle s) := by
  refine hk.within hm ?_
  replace hk : Keeps 0x20 s s := .refl _
  unfold State.settle
  repeat' first
    | with_reducible intro _
    | with_reducible assumption
    | (with_reducible refine Keeps.mk0 ?_ ?g; (first | with_reducible assumption | (refine Keeps.snd ?_ (by assumption)) | (refine Keeps.some ?_ (by assumption))); with_reducible case g => exact fun h => Keeps.mk' h)
    | exact Sub.of rfl
    | dsimp only

theorem State.charge_keeps {mk : Nat} {z s : State} (hk : Keeps mk z s) (p c n : Nat) (hm : Sub 0x20 mk := by exact Sub.of rfl) :
    Keeps mk z (State.charge s p c n) := by
  refine hk.within hm ?_
  replace hk : Keeps 0x20 s s := .refl _
  unfold State.charge
  repeat' first
    | (extract_lets -descend +onlyGivenNames x0; refine Keeps.cut (m := 0x20) (z := s) (v := x0) ?_ (fun h0 => ?_); rotate_left; clear_value x0; rotate_left; dsimp -zeta only [x0]; clear x0)
    | (extract_lets -descend +onlyGivenNames x0; clear_value x0)
    | with_reducible intro _
    | lift_lets
    | with_reducible assumption
    | (with_reducible first | apply State.modPort_keeps | apply State.modCls_keeps)
    | (with_reducible refine Keeps.mk0 ?_ ?g; (first | with_reducible assumption | (refine Keeps.snd ?_ (by assumption)) | (refine Keeps.some ?_ (by assumption)) | (with_reducible first | apply State.modPort_keeps | apply State.modCls_keeps)); with_reducible case g => exact fun h => Keeps.mk' h)
    | (with_reducible apply Keeps.ite)
    | split
    | exact Sub.of rfl
    | dsimp only

theorem State.exchSent_keeps {mk : Nat} {z s : State} (hk : Keeps mk z s) (p : Nat) (r : Rec) (hm : Sub 0x4 mk := by exact Sub.of rfl) :
    Keeps mk z (State.exchSent s p r) := by
  refine hk.within hm ?_
  replace hk : Keeps 0x4 s s := .refl _
  unfold State.exchSent
  repeat' first
    | with_reducible intro _
    | with_reducible assumption
    | with_reducible apply State.modExch_keeps
    | (with_reducible refine Keeps.mk0 ?_ ?g; (first | with_reducible assumption | (refine Keeps.snd ?_ (by assumption)) | (refine Keeps.some ?_ (by assumption)) | (with_reducible first | apply State.modExch_keeps)); with_reducible case g => exact fun h => Keeps.mk' h)
    | (with_reducible apply Keeps.ite)
    | split
    | exact Sub.of rfl
    | dsimp only

theorem State.sendUnit_keeps {mk : Nat} {z s : State} (hk : Keeps mk z s) (p c : Nat) (hm : Sub 0x24 mk := by exact Sub.of rfl) :
    Keeps mk z (State.sendUnit s p c) := by
  refine hk.within hm ?_
  replace hk : Keeps 0x24 s s := .refl _
  unfold State.sendUnit
  repeat' first
    | (extract_lets -descend +onlyGivenNames x0; refine Keeps.cut (m := 0x24) (z := s) (v := x0) ?_ (fun h0 => ?_); rotate_left; clear_value x0; rotate_left; dsimp -zeta only [x0]; clear x0)
    | (extract_lets -descend +onlyGivenNames x0; clear_value x0)
    | with_reducible intro _
    | lift_lets
    | with_reducible assumption
    | (with_reducible first | apply State.modPort_keeps | apply State.modCls_keeps | apply State.charge_keeps | apply State.exchSent_keeps)
    | (with_reducible refine Keeps.mk0 ?_ ?g; (first | with_reducible assumption | (refine Keeps.snd ?_ (by assumption)) | (refine Keeps.some ?_ (by assumption)) | (with_reducible first | apply State.modPort_keeps | apply State.modCls_keeps | apply State.charge_keeps | apply State.exchSent_keeps)); with_reducible case g => exact fun h => Keeps.mk' h)
    | (with_reducible apply Keeps.ite)
    | split
    | (refine Keeps.some ?_ (by assumption))
    | exact Sub.of rfl
    | dsimp only

theorem State.poisonHead_keeps {mk : Nat} {z s : State} (hk : Keeps mk z s) (p c : Nat) (hm : Sub 0x20 mk := by exact Sub.of rfl) :
    Keeps mk z (State.poisonHead s p c) := by
  refine hk.within hm ?_
  replace hk : Keeps 0x20 s s := .refl _
  unfold State.poisonHead
  repeat' first
    | with_reducible intro _
    | with_reducible assumption
    | with_reducible apply State.modCls_keeps
    | (with_reducible refine Keeps.mk0 ?_ ?g; (first | with_reducible assumption | (refine Keeps.snd ?_ (by assumption)) | (refine Keeps.some ?_ (by assumption)) | (with_reducible first | apply State.modCls_keeps)); with_reducible case g => exact fun h => Keeps.mk' h)
    | split
    | (refine Keeps.some ?_ (by assumption))
    | exact Sub.of rfl
    | dsimp only

theorem State.codeHead_keeps {mk : Nat} {z s : State} (hk : Keeps mk z s) (p c : Nat) (hm : Sub 0x1110023 mk := by exact Sub.of rfl) :
    Keeps mk z (State.codeHead s p c) := by
  refine hk.within hm ?_
  replace hk : Keeps 0x1110023 s s := .refl _
  unfold State.codeHead
  repeat' first
    | (extract_lets -descend +onlyGivenNames x0; refine Keeps.cut (m := 0x1110023) (z := s) (v := x0) ?_ (fun h0 => ?_); rotate_left; clear_value x0; rotate_left; dsimp -zeta only [x0]; clear x0)
    | (extract_lets -descend +onlyGivenNames x0; clear_value x0)
    | with_reducible intro _
    | lift_lets
    | with_reducible assumption
    | with_reducible apply State.codeRec_keeps
    | (with_reducible refine Keeps.mk0 ?_ ?g; (first | with_reducible assumption | (refine Keeps.snd ?_ (by assumption)) | (refine Keeps.some ?_ (by assumption)) | (with_reducible first | apply State.codeRec_keeps)); with_reducible case g => exact fun h => Keeps.mk' h)
    | (with_reducible apply Keeps.ite)
    | split
    | (refine Keeps.some ?_ (by assumption))
    | (refine Keeps.snd ?_ (by assumption))
    | exact Sub.of rfl
    | dsimp only

theorem State.wakeFar_keeps {mk : Nat} {z s : State} (hk : Keeps mk z s) (p : Nat) (hm : Sub 0x20 mk := by exact Sub.of rfl) :
    Keeps mk z (State.wakeFar s p) := by
  refine hk.within hm ?_
  replace hk : Keeps 0x20 s s := .refl _
  unfold State.wakeFar
  repeat' first
    | with_reducible intro _
    | with_reducible assumption
    | with_reducible apply State.modPort_keeps
    | (with_reducible refine Keeps.mk0 ?_ ?g; (first | with_reducible assumption | (refine Keeps.snd ?_ (by assumption)) | (refine Keeps.some ?_ (by assumption)) | (with_reducible first | apply State.modPort_keeps)); with_reducible case g => exact fun h => Keeps.mk' h)
    | split
    | (refine Keeps.some ?_ (by assumption))
    | exact Sub.of rfl
    | dsimp only

theorem State.unitFrom_keeps {mk : Nat} {z s : State} (h : Keeps mk z s) (port : Nat) (bad cs : List Nat) (hm : Sub 0x11904F7 mk := by exact Sub.of rfl) :
    Keeps mk z (State.unitFrom port bad cs s) := by
  refine h.within hm ?_
  clear h hm
  induction cs generalizing s with
  | nil => exact .refl _
  | cons c cs ih =>
    unfold State.unitFrom
    refine Keeps.ite ?_ ih
    have h1 : Keeps 0x11904F7 s (s.codeHead port c) := State.codeHead_keeps (.refl _) port c
    refine Keeps.ite ?_ (h1.trans ih)
    refine State.sendUnit_keeps (Keeps.ite h1 ?_) _ _
    exact State.badWord_keeps (State.poisonHead_keeps h1 _ _) _

theorem State.unitOut_keeps {mk : Nat} {z s : State} (hk : Keeps mk z s) (port : Nat) (bad : List Nat) (hm : Sub 0x11904F7 mk := by exact Sub.of rfl) :
    Keeps mk z (State.unitOut s port bad) := by
  refine hk.within hm ?_
  replace hk : Keeps 0x11904F7 s s := .refl _
  unfold State.unitOut
  repeat' first
    | with_reducible assumption
    | (with_reducible first | apply State.wakeFar_keeps | apply State.unitFrom_keeps)
    | (with_reducible apply Keeps.ite)
    | split
    | exact Sub.of rfl
    | dsimp only

theorem execEgressUnitBoundary_keeps {mk : Nat} {z s : State} (hk : Keeps mk z s) (port : Nat) (bad : List Nat) (hm : Sub 0x11904F7 mk := by exact Sub.of rfl) :
    KeepsR mk z (execEgressUnitBoundary port bad s) := by
  refine KeepsR.within hk hm ?_
  replace hk : Keeps 0x11904F7 s s := .refl _
  unfold execEgressUnitBoundary
  repeat' first
    | with_reducible assumption
    | (with_reducible first | apply KeepsR.present | apply KeepsR.next | exact KeepsR.fault | apply present_keeps | apply State.unitOut_keeps)
    | exact Sub.of rfl
    | dsimp only

theorem State.bcastAcked_keeps {mk : Nat} {z s : State} (hk : Keeps mk z s) (uid : Nat) (hm : Sub 0x804F7 mk := by exact Sub.of rfl) :
    Keeps mk z (State.bcastAcked s uid) := by
  refine hk.within hm ?_
  replace hk : Keeps 0x804F7 s s := .refl _
  unfold State.bcastAcked
  repeat' first
    | (extract_lets -descend +onlyGivenNames x0; refine Keeps.cut (m := 0x804F7) (z := s) (v := x0) ?_ (fun h0 => ?_); rotate_left; clear_value x0; rotate_left; dsimp -zeta only [x0]; clear x0)
    | (extract_lets -descend +onlyGivenNames x0; clear_value x0)
    | with_reducible intro _
    | lift_lets
    | with_reducible assumption
    | with_reducible apply State.fateDelivered_keeps
    | (with_reducible refine Keeps.mk0 ?_ ?g; (first | with_reducible assumption | (refine Keeps.snd ?_ (by assumption)) | (refine Keeps.some ?_ (by assumption)) | (with_reducible first | apply State.fateDelivered_keeps)); with_reducible case g => exact fun h => Keeps.mk' h)
    | (with_reducible apply Keeps.ite)
    | (with_reducible apply Keeps.foldl)
    | split
    | exact Sub.of rfl
    | dsimp only

theorem State.ackHeld_keepsAux {z s : State} (hk : Keeps 0x804F7 z s) (n : Nat) (a0 : Nat) (a1 : Nat) : Keeps 0x804F7 z (State.ackHeld n a0 a1 s) := by
  induction n generalizing a0 a1 s with
  | zero => exact hk
  | succ n ih =>
    unfold State.ackHeld
    repeat' first
      | (extract_lets -descend +onlyGivenNames x0; refine Keeps.cut (m := 0x804F7) (z := z) (v := x0) ?_ (fun h0 => ?_); rotate_left; clear_value x0; rotate_left; dsimp -zeta only [x0]; clear x0)
      | (extract_lets -descend +onlyGivenNames x0; clear_value x0)
      | with_reducible intro _
      | lift_lets
      | with_reducible assumption
      | (with_reducible first | apply ih | apply State.modCls_keeps | apply State.fateDelivered_keeps | apply State.bcastAcked_keeps)
      | (with_reducible refine Keeps.mk0 ?_ ?g; (first | with_reducible assumption | (refine Keeps.snd ?_ (by assumption)) | (refine Keeps.some ?_ (by assumption)) | (with_reducible first | apply ih | apply State.modCls_keeps | apply State.fateDelivered_keeps | apply State.bcastAcked_keeps)); with_reducible case g => exact fun h => Keeps.mk' h)
      | split
      | (refine Keeps.some ?_ (by assumption))
      | exact Sub.of rfl
      | dsimp only

theorem State.ackHeld_keeps {mk : Nat} {z s : State} (h : Keeps mk z s) (n : Nat) (a0 : Nat) (a1 : Nat) (hm : Sub 0x804F7 mk := by exact Sub.of rfl) : Keeps mk z (State.ackHeld n a0 a1 s) :=
  h.within hm (State.ackHeld_keepsAux (.refl _) n a0 a1)

theorem State.applyCtl_keeps {mk : Nat} {z s : State} (hk : Keeps mk z s) (p c released acked : Nat) (hm : Sub 0x804F7 mk := by exact Sub.of rfl) :
    Keeps mk z (State.applyCtl s p c released acked) := by
  refine hk.within hm ?_
  replace hk : Keeps 0x804F7 s s := .refl _
  unfold State.applyCtl
  repeat' first
    | (extract_lets -descend +onlyGivenNames x0; refine Keeps.cut (m := 0x804F7) (z := s) (v := x0) ?_ (fun h0 => ?_); rotate_left; clear_value x0; rotate_left; dsimp -zeta only [x0]; clear x0)
    | (extract_lets -descend +onlyGivenNames x0; clear_value x0)
    | with_reducible intro _
    | lift_lets
    | with_reducible assumption
    | (with_reducible first | apply State.modCls_keeps | apply State.ackHeld_keeps)
    | (with_reducible refine Keeps.mk0 ?_ ?g; (first | with_reducible assumption | (refine Keeps.snd ?_ (by assumption)) | (refine Keeps.some ?_ (by assumption)) | (with_reducible first | apply State.modCls_keeps | apply State.ackHeld_keeps)); with_reducible case g => exact fun h => Keeps.mk' h)
    | exact Sub.of rfl
    | dsimp only

theorem State.linkCtl_keeps {mk : Nat} {z s : State} (hk : Keeps mk z s) (port : Nat) (entries : List (Nat × Nat × Nat)) (hm : Sub 0x804F7 mk := by exact Sub.of rfl) :
    Keeps mk z (State.linkCtl s port entries) := by
  refine hk.within hm ?_
  replace hk : Keeps 0x804F7 s s := .refl _
  unfold State.linkCtl
  repeat' first
    | (extract_lets -descend +onlyGivenNames x0; refine Keeps.cut (m := 0x804F7) (z := s) (v := x0) ?_ (fun h0 => ?_); rotate_left; clear_value x0; rotate_left; dsimp -zeta only [x0]; clear x0)
    | (extract_lets -descend +onlyGivenNames x0; clear_value x0)
    | with_reducible intro _
    | lift_lets
    | with_reducible assumption
    | (with_reducible first | apply State.modPort_keeps | apply State.applyCtl_keeps)
    | (with_reducible refine Keeps.mk0 ?_ ?g; (first | with_reducible assumption | (refine Keeps.snd ?_ (by assumption)) | (refine Keeps.some ?_ (by assumption)) | (with_reducible first | apply State.modPort_keeps | apply State.applyCtl_keeps)); with_reducible case g => exact fun h => Keeps.mk' h)
    | (with_reducible apply Keeps.ite)
    | (with_reducible apply Keeps.foldl)
    | split
    | exact Sub.of rfl
    | dsimp only

theorem State.putCtl_keeps {mk : Nat} {z s : State} (hk : Keeps mk z s) (p : Nat) (k : CtlPkt) (hm : Sub 0x20 mk := by exact Sub.of rfl) :
    Keeps mk z (State.putCtl s p k) := by
  refine hk.within hm ?_
  replace hk : Keeps 0x20 s s := .refl _
  unfold State.putCtl
  repeat' first
    | with_reducible intro _
    | with_reducible assumption
    | with_reducible apply State.modPort_keeps
    | (with_reducible refine Keeps.mk0 ?_ ?g; (first | with_reducible assumption | (refine Keeps.snd ?_ (by assumption)) | (refine Keeps.some ?_ (by assumption)) | (with_reducible first | apply State.modPort_keeps)); with_reducible case g => exact fun h => Keeps.mk' h)
    | exact Sub.of rfl
    | dsimp only

theorem State.sendCtl_keeps {mk : Nat} {z s : State} (hk : Keeps mk z s) (p : Nat) (l : List Nat) (keep : Bool) (hm : Sub 0x20 mk := by exact Sub.of rfl) :
    Keeps mk z (State.sendCtl s p l keep) := by
  refine hk.within hm ?_
  replace hk : Keeps 0x20 s s := .refl _
  unfold State.sendCtl
  repeat' first
    | (extract_lets -descend +onlyGivenNames x0; refine Keeps.cut (m := 0x20) (z := s) (v := x0) ?_ (fun h0 => ?_); rotate_left; clear_value x0; rotate_left; dsimp -zeta only [x0]; clear x0)
    | (extract_lets -descend +onlyGivenNames x0; clear_value x0)
    | with_reducible intro _
    | lift_lets
    | with_reducible assumption
    | (with_reducible first | apply State.modPort_keeps | apply State.modCls_keeps | apply State.putCtl_keeps)
    | (with_reducible refine Keeps.mk0 ?_ ?g; (first | with_reducible assumption | (refine Keeps.snd ?_ (by assumption)) | (refine Keeps.some ?_ (by assumption)) | (with_reducible first | apply State.modPort_keeps | apply State.modCls_keeps | apply State.putCtl_keeps)); with_reducible case g => exact fun h => Keeps.mk' h)
    | (with_reducible apply Keeps.foldl)
    | exact Sub.of rfl
    | dsimp only

theorem execLinkCtlSend_keeps {mk : Nat} {z s : State} (hk : Keeps mk z s) (port : Nat) (hm : Sub 0x20 mk := by exact Sub.of rfl) :
    KeepsR mk z (execLinkCtlSend port s) := by
  refine KeepsR.within hk hm ?_
  replace hk : Keeps 0x20 s s := .refl _
  unfold execLinkCtlSend
  repeat' first
    | (extract_lets -descend +onlyGivenNames x0; refine Keeps.cut (m := 0x20) (z := s) (v := x0) ?_ (fun h0 => ?_); rotate_left; clear_value x0; rotate_left; dsimp -zeta only [x0]; clear x0)
    | (extract_lets -descend +onlyGivenNames x0; clear_value x0)
    | with_reducible intro _
    | lift_lets
    | with_reducible assumption
    | (with_reducible first | apply KeepsR.present | apply KeepsR.next | exact KeepsR.fault | apply present_keeps | apply State.modPort_keeps | apply State.wakeFar_keeps | apply State.putCtl_keeps | apply State.sendCtl_keeps)
    | (with_reducible refine Keeps.mk0 ?_ ?g; (first | with_reducible assumption | (refine Keeps.snd ?_ (by assumption)) | (refine Keeps.some ?_ (by assumption)) | (with_reducible first | apply present_keeps | apply State.modPort_keeps | apply State.wakeFar_keeps | apply State.putCtl_keeps | apply State.sendCtl_keeps)); with_reducible case g => exact fun h => Keeps.mk' h)
    | (with_reducible apply Keeps.ite)
    | split
    | (refine Keeps.some ?_ (by assumption))
    | exact Sub.of rfl
    | dsimp only

theorem execLinkCtlKeepalive_keeps {mk : Nat} {z s : State} (hk : Keeps mk z s) (port : Nat) (hm : Sub 0x20 mk := by exact Sub.of rfl) :
    KeepsR mk z (execLinkCtlKeepalive port s) := by
  refine KeepsR.within hk hm ?_
  replace hk : Keeps 0x20 s s := .refl _
  unfold execLinkCtlKeepalive
  repeat' first
    | with_reducible assumption
    | (with_reducible first | apply KeepsR.present | apply KeepsR.next | exact KeepsR.fault | apply present_keeps | apply State.sendCtl_keeps)
    | (with_reducible apply Keeps.ite)
    | split
    | exact Sub.of rfl
    | dsimp only

theorem State.portIrq_keeps {mk : Nat} {z s : State} (hk : Keeps mk z s) (p bit : Nat) (hm : Sub 0x3 mk := by exact Sub.of rfl) :
    Keeps mk z (State.portIrq s p bit) := by
  refine hk.within hm ?_
  replace hk : Keeps 0x3 s s := .refl _
  unfold State.portIrq
  repeat' first
    | with_reducible assumption
    | with_reducible apply State.irq_keeps
    | (with_reducible apply Keeps.ite)
    | split
    | (refine Keeps.some ?_ (by assumption))
    | exact Sub.of rfl
    | dsimp only

theorem State.pairUp_keeps {mk : Nat} {z s : State} (hk : Keeps mk z s) (hm : Sub 0x40001 mk := by exact Sub.of rfl) :
    Keeps mk z (State.pairUp s) := by
  refine hk.within hm ?_
  replace hk : Keeps 0x40001 s s := .refl _
  unfold State.pairUp
  repeat' first
    | (extract_lets -descend +onlyGivenNames x0; refine Keeps.cut (m := 0x40001) (z := s) (v := x0) ?_ (fun h0 => ?_); rotate_left; clear_value x0; rotate_left; dsimp -zeta only [x0]; clear x0)
    | (extract_lets -descend +onlyGivenNames x0; clear_value x0)
    | with_reducible intro _
    | lift_lets
    | with_reducible assumption
    | with_reducible apply State.wr_keeps
    | (with_reducible refine Keeps.mk0 ?_ ?g; (first | with_reducible assumption | (refine Keeps.snd ?_ (by assumption)) | (refine Keeps.some ?_ (by assumption)) | (with_reducible first | apply State.wr_keeps)); with_reducible case g => exact fun h => Keeps.mk' h)
    | (with_reducible apply Keeps.ite)
    | split
    | exact Sub.of rfl
    | dsimp only

theorem State.linkUp_keeps {mk : Nat} {z s : State} (hk : Keeps mk z s) (p : Nat) (hm : Sub 0xD0477 mk := by exact Sub.of rfl) :
    Keeps mk z (State.linkUp s p) := by
  refine hk.within hm ?_
  replace hk : Keeps 0xD0477 s s := .refl _
  unfold State.linkUp
  repeat' first
    | (extract_lets -descend +onlyGivenNames x0; refine Keeps.cut (m := 0xD0477) (z := s) (v := x0) ?_ (fun h0 => ?_); rotate_left; clear_value x0; rotate_left; dsimp -zeta only [x0]; clear x0)
    | (extract_lets -descend +onlyGivenNames x0; clear_value x0)
    | with_reducible intro _
    | lift_lets
    | with_reducible assumption
    | (with_reducible first | apply State.pwr_keeps | apply State.modPort_keeps | apply State.sendLocal_keeps | apply State.modExch_keeps | apply State.portIrq_keeps | apply State.pairUp_keeps)
    | (with_reducible refine Keeps.mk0 ?_ ?g; (first | with_reducible assumption | (refine Keeps.snd ?_ (by assumption)) | (refine Keeps.some ?_ (by assumption)) | (with_reducible first | apply State.pwr_keeps | apply State.modPort_keeps | apply State.sendLocal_keeps | apply State.modExch_keeps | apply State.portIrq_keeps | apply State.pairUp_keeps)); with_reducible case g => exact fun h => Keeps.mk' h)
    | (with_reducible apply Keeps.ite)
    | split
    | exact Sub.of rfl
    | dsimp only

theorem State.admitRound_keeps {mk : Nat} {z s : State} (hk : Keeps mk z s) (p c : Nat) (ok : Bool) (hm : Sub 0x2000 mk := by exact Sub.of rfl) :
    Keeps mk z (State.admitRound s p c ok) := by
  refine hk.within hm ?_
  replace hk : Keeps 0x2000 s s := .refl _
  unfold State.admitRound
  repeat' first
    | (extract_lets -descend +onlyGivenNames x0; refine Keeps.cut (m := 0x2000) (z := s) (v := x0) ?_ (fun h0 => ?_); rotate_left; clear_value x0; rotate_left; dsimp -zeta only [x0]; clear x0)
    | (extract_lets -descend +onlyGivenNames x0; clear_value x0)
    | with_reducible intro _
    | lift_lets
    | with_reducible assumption
    | (with_reducible refine Keeps.mk0 ?_ ?g; (first | with_reducible assumption | (refine Keeps.snd ?_ (by assumption)) | (refine Keeps.some ?_ (by assumption))); with_reducible case g => exact fun h => Keeps.mk' h)
    | (with_reducible apply Keeps.ite)
    | split
    | exact Sub.of rfl
    | dsimp only

theorem State.censusSkip_keeps {mk : Nat} {z s : State} (hk : Keeps mk z s) (p : Nat) (hm : Sub 0x2021 mk := by exact Sub.of rfl) :
    Keeps mk z (State.censusSkip s p) := by
  refine hk.within hm ?_
  replace hk : Keeps 0x2021 s s := .refl _
  unfold State.censusSkip
  repeat' first
    | (extract_lets -descend +onlyGivenNames x0; refine Keeps.cut (m := 0x2021) (z := s) (v := x0) ?_ (fun h0 => ?_); rotate_left; clear_value x0; rotate_left; dsimp -zeta only [x0]; clear x0)
    | (extract_lets -descend +onlyGivenNames x0; clear_value x0)
    | with_reducible intro _
    | lift_lets
    | with_reducible assumption
    | (with_reducible first | apply State.wr_keeps | apply State.bumpSat_keeps | apply State.modPort_keeps | apply State.admitRound_keeps)
    | (with_reducible refine Keeps.mk0 ?_ ?g; (first | with_reducible assumption | (refine Keeps.snd ?_ (by assumption)) | (refine Keeps.some ?_ (by assumption)) | (with_reducible first | apply State.wr_keeps | apply State.bumpSat_keeps | apply State.modPort_keeps | apply State.admitRound_keeps)); with_reducible case g => exact fun h => Keeps.mk' h)
    | split
    | (refine Keeps.some ?_ (by assumption))
    | exact Sub.of rfl
    | dsimp only

theorem State.creditInit_keeps {mk : Nat} {z s : State} (hk : Keeps mk z s) (p bitmap rateMax : Nat) (totals : List Nat) (hm : Sub 0xD2477 mk := by exact Sub.of rfl) :
    Keeps mk z (State.creditInit s p bitmap rateMax totals) := by
  refine hk.within hm ?_
  replace hk : Keeps 0xD2477 s s := .refl _
  unfold State.creditInit
  repeat' first
    | (extract_lets -descend +onlyGivenNames x0; refine Keeps.cut (m := 0xD2477) (z := s) (v := x0) ?_ (fun h0 => ?_); rotate_left; clear_value x0; rotate_left; dsimp -zeta only [x0]; clear x0)
    | (extract_lets -descend +onlyGivenNames x0; clear_value x0)
    | with_reducible intro _
    | lift_lets
    | with_reducible assumption
    | (with_reducible first | apply State.modPort_keeps | apply State.modCls_keeps | apply State.linkUp_keeps | apply State.censusSkip_keeps)
    | (with_reducible refine Keeps.mk0 ?_ ?g; (first | with_reducible assumption | (refine Keeps.snd ?_ (by assumption)) | (refine Keeps.some ?_ (by assumption)) | (with_reducible first | apply State.modPort_keeps | apply State.modCls_keeps | apply State.linkUp_keeps | apply State.censusSkip_keeps)); with_reducible case g => exact fun h => Keeps.mk' h)
    | (with_reducible apply Keeps.ite)
    | (with_reducible apply Keeps.foldl)
    | split
    | (refine Keeps.some ?_ (by assumption))
    | exact Sub.of rfl
    | dsimp only

theorem execCreditInitReceived_keeps {mk : Nat} {z s : State} (hk : Keeps mk z s) (port bitmap rateMax : Nat) (totals : List Nat) (hm : Sub 0xD2477 mk := by exact Sub.of rfl) :
    KeepsR mk z (execCreditInitReceived port bitmap rateMax totals s) := by
  refine KeepsR.within hk hm ?_
  replace hk : Keeps 0xD2477 s s := .refl _
  unfold execCreditInitReceived
  repeat' first
    | with_reducible assumption
    | (with_reducible first | apply KeepsR.present | apply KeepsR.next | exact KeepsR.fault | apply present_keeps | apply State.creditInit_keeps)
    | exact Sub.of rfl
    | dsimp only

theorem State.creditAck_keeps {mk : Nat} {z s : State} (hk : Keeps mk z s) (p bitmap : Nat) (hm : Sub 0xD0477 mk := by exact Sub.of rfl) :
    Keeps mk z (State.creditAck s p bitmap) := by
  refine hk.within hm ?_
  replace hk : Keeps 0xD0477 s s := .refl _
  unfold State.creditAck
  repeat' first
    | (extract_lets -descend +onlyGivenNames x0; refine Keeps.cut (m := 0xD0477) (z := s) (v := x0) ?_ (fun h0 => ?_); rotate_left; clear_value x0; rotate_left; dsimp -zeta only [x0]; clear x0)
    | (extract_lets -descend +onlyGivenNames x0; clear_value x0)
    | with_reducible intro _
    | lift_lets
    | with_reducible assumption
    | (with_reducible first | apply State.bumpSat_keeps | apply State.irq_keeps | apply State.modPort_keeps | apply State.modCls_keeps | apply State.linkUp_keeps)
    | (with_reducible refine Keeps.mk0 ?_ ?g; (first | with_reducible assumption | (refine Keeps.snd ?_ (by assumption)) | (refine Keeps.some ?_ (by assumption)) | (with_reducible first | apply State.bumpSat_keeps | apply State.irq_keeps | apply State.modPort_keeps | apply State.modCls_keeps | apply State.linkUp_keeps)); with_reducible case g => exact fun h => Keeps.mk' h)
    | (with_reducible apply Keeps.ite)
    | (with_reducible apply Keeps.foldl)
    | split
    | exact Sub.of rfl
    | dsimp only

theorem execCreditInitAckReceived_keeps {mk : Nat} {z s : State} (hk : Keeps mk z s) (port bitmap : Nat) (hm : Sub 0xD0477 mk := by exact Sub.of rfl) :
    KeepsR mk z (execCreditInitAckReceived port bitmap s) := by
  refine KeepsR.within hk hm ?_
  replace hk : Keeps 0xD0477 s s := .refl _
  unfold execCreditInitAckReceived
  repeat' first
    | with_reducible assumption
    | (with_reducible first | apply KeepsR.present | apply KeepsR.next | exact KeepsR.fault | apply present_keeps | apply State.creditAck_keeps)
    | exact Sub.of rfl
    | dsimp only

theorem State.sendInit_keeps {mk : Nat} {z s : State} (hk : Keeps mk z s) (p bitmap : Nat) (hm : Sub 0x20 mk := by exact Sub.of rfl) :
    Keeps mk z (State.sendInit s p bitmap) := by
  refine hk.within hm ?_
  replace hk : Keeps 0x20 s s := .refl _
  unfold State.sendInit
  repeat' first
    | (extract_lets -descend +onlyGivenNames x0; refine Keeps.cut (m := 0x20) (z := s) (v := x0) ?_ (fun h0 => ?_); rotate_left; clear_value x0; rotate_left; dsimp -zeta only [x0]; clear x0)
    | (extract_lets -descend +onlyGivenNames x0; clear_value x0)
    | with_reducible intro _
    | lift_lets
    | with_reducible assumption
    | with_reducible apply State.modPort_keeps
    | (with_reducible refine Keeps.mk0 ?_ ?g; (first | with_reducible assumption | (refine Keeps.snd ?_ (by assumption)) | (refine Keeps.some ?_ (by assumption)) | (with_reducible first | apply State.modPort_keeps)); with_reducible case g => exact fun h => Keeps.mk' h)
    | exact Sub.of rfl
    | dsimp only

theorem State.quiesceDone_keeps {mk : Nat} {z s : State} (hk : Keeps mk z s) (p c : Nat) (hm : Sub 0x21 mk := by exact Sub.of rfl) :
    Keeps mk z (State.quiesceDone s p c) := by
  refine hk.within hm ?_
  replace hk : Keeps 0x21 s s := .refl _
  unfold State.quiesceDone
  repeat' first
    | (extract_lets -descend +onlyGivenNames x0; refine Keeps.cut (m := 0x21) (z := s) (v := x0) ?_ (fun h0 => ?_); rotate_left; clear_value x0; rotate_left; dsimp -zeta only [x0]; clear x0)
    | (extract_lets -descend +onlyGivenNames x0; clear_value x0)
    | with_reducible intro _
    | lift_lets
    | with_reducible assumption
    | (with_reducible first | apply State.bumpSat_keeps | apply State.modPort_keeps | apply State.modCls_keeps)
    | (with_reducible refine Keeps.mk0 ?_ ?g; (first | with_reducible assumption | (refine Keeps.snd ?_ (by assumption)) | (refine Keeps.some ?_ (by assumption)) | (with_reducible first | apply State.bumpSat_keeps | apply State.modPort_keeps | apply State.modCls_keeps)); with_reducible case g => exact fun h => Keeps.mk' h)
    | (with_reducible apply Keeps.ite)
    | split
    | (refine Keeps.some ?_ (by assumption))
    | exact Sub.of rfl
    | dsimp only

theorem State.totalsReady_keeps {mk : Nat} {z s : State} (hk : Keeps mk z s) (p c : Nat) (hm : Sub 0x20 mk := by exact Sub.of rfl) :
    Keeps mk z (State.totalsReady s p c) := by
  refine hk.within hm ?_
  replace hk : Keeps 0x20 s s := .refl _
  unfold State.totalsReady
  repeat' first
    | (extract_lets -descend +onlyGivenNames x0; refine Keeps.cut (m := 0x20) (z := s) (v := x0) ?_ (fun h0 => ?_); rotate_left; clear_value x0; rotate_left; dsimp -zeta only [x0]; clear x0)
    | (extract_lets -descend +onlyGivenNames x0; clear_value x0)
    | with_reducible intro _
    | lift_lets
    | with_reducible assumption
    | (with_reducible first | apply State.modCls_keeps | apply State.sendInit_keeps)
    | (with_reducible refine Keeps.mk0 ?_ ?g; (first | with_reducible assumption | (refine Keeps.snd ?_ (by assumption)) | (refine Keeps.some ?_ (by assumption)) | (with_reducible first | apply State.modCls_keeps | apply State.sendInit_keeps)); with_reducible case g => exact fun h => Keeps.mk' h)
    | (with_reducible apply Keeps.ite)
    | split
    | exact Sub.of rfl
    | dsimp only

theorem execClassQuiesceDone_keeps {mk : Nat} {z s : State} (hk : Keeps mk z s) (port cls : Nat) (hm : Sub 0x21 mk := by exact Sub.of rfl) :
    KeepsR mk z (execClassQuiesceDone port cls s) := by
  refine KeepsR.within hk hm ?_
  replace hk : Keeps 0x21 s s := .refl _
  unfold execClassQuiesceDone
  repeat' first
    | with_reducible assumption
    | (with_reducible first | apply KeepsR.present | apply KeepsR.next | exact KeepsR.fault | apply present_keeps | apply State.quiesceDone_keeps | apply State.totalsReady_keeps)
    | exact Sub.of rfl
    | dsimp only

theorem State.applyTotals_keeps {mk : Nat} {z s : State} (hk : Keeps mk z s) (p : Nat) (newT : List Nat) (hm : Sub 0x20 mk := by exact Sub.of rfl) :
    Keeps mk z (State.applyTotals s p newT) := by
  refine hk.within hm ?_
  replace hk : Keeps 0x20 s s := .refl _
  unfold State.applyTotals
  repeat' first
    | (extract_lets -descend +onlyGivenNames x0; refine Keeps.cut (m := 0x20) (z := s) (v := x0) ?_ (fun h0 => ?_); rotate_left; clear_value x0; rotate_left; dsimp -zeta only [x0]; clear x0)
    | (extract_lets -descend +onlyGivenNames x0; clear_value x0)
    | with_reducible intro _
    | lift_lets
    | with_reducible assumption
    | (with_reducible first | apply State.modPort_keeps | apply State.modCls_keeps)
    | (with_reducible refine Keeps.mk0 ?_ ?g; (first | with_reducible assumption | (refine Keeps.snd ?_ (by assumption)) | (refine Keeps.some ?_ (by assumption)) | (with_reducible first | apply State.modPort_keeps | apply State.modCls_keeps)); with_reducible case g => exact fun h => Keeps.mk' h)
    | (with_reducible apply Keeps.ite)
    | (with_reducible apply Keeps.foldl)
    | split
    | exact Sub.of rfl
    | dsimp only

theorem State.reinitAll_keeps {mk : Nat} {z s : State} (hk : Keeps mk z s) (p : Nat) (hm : Sub 0x20 mk := by exact Sub.of rfl) :
    Keeps mk z (State.reinitAll s p) := by
  refine hk.within hm ?_
  replace hk : Keeps 0x20 s s := .refl _
  unfold State.reinitAll
  repeat' first
    | with_reducible intro _
    | with_reducible assumption
    | with_reducible apply State.modPort_keeps
    | (with_reducible refine Keeps.mk0 ?_ ?g; (first | with_reducible assumption | (refine Keeps.snd ?_ (by assumption)) | (refine Keeps.some ?_ (by assumption)) | (with_reducible first | apply State.modPort_keeps)); with_reducible case g => exact fun h => Keeps.mk' h)
    | exact Sub.of rfl
    | dsimp only

theorem State.flowApply_keeps {mk : Nat} {z s : State} (hk : Keeps mk z s) (v : Nat) (hm : Sub 0x23 mk := by exact Sub.of rfl) :
    Keeps mk z (State.flowApply s v) := by
  refine hk.within hm ?_
  replace hk : Keeps 0x23 s s := .refl _
  unfold State.flowApply
  repeat' first
    | (extract_lets -descend +onlyGivenNames x0; refine Keeps.cut (m := 0x23) (z := s) (v := x0) ?_ (fun h0 => ?_); rotate_left; clear_value x0; rotate_left; dsimp -zeta only [x0]; clear x0)
    | (extract_lets -descend +onlyGivenNames x0; clear_value x0)
    | with_reducible intro _
    | lift_lets
    | with_reducible assumption
    | (with_reducible first | apply State.irq_keeps | apply State.modPort_keeps | apply State.applyTotals_keeps)
    | (with_reducible refine Keeps.mk0 ?_ ?g; (first | with_reducible assumption | (refine Keeps.snd ?_ (by assumption)) | (refine Keeps.some ?_ (by assumption)) | (with_reducible first | apply State.irq_keeps | apply State.modPort_keeps | apply State.applyTotals_keeps)); with_reducible case g => exact fun h => Keeps.mk' h)
    | (with_reducible apply Keeps.ite)
    | (with_reducible apply Keeps.foldl)
    | split
    | exact Sub.of rfl
    | dsimp only

theorem execFlowApply_keeps {mk : Nat} {z s : State} (hk : Keeps mk z s) (a : Acc) (data : Word) (hm : Sub 0x804F7 mk := by exact Sub.of rfl) :
    KeepsR mk z (execFlowApply a data s) := by
  refine KeepsR.within hk hm ?_
  replace hk : Keeps 0x804F7 s s := .refl _
  unfold execFlowApply
  repeat' first
    | with_reducible intro _
    | with_reducible assumption
    | (with_reducible first | apply KeepsR.present | apply KeepsR.next | exact KeepsR.fault | apply State.guardedWrite_keeps | apply State.flowApply_keeps)
    | exact Sub.of rfl
    | dsimp only

theorem execCensusMarkSend_keeps {mk : Nat} {z s : State} (hk : Keeps mk z s) (port : Nat) (hm : Sub 0x2021 mk := by exact Sub.of rfl) :
    KeepsR mk z (execCensusMarkSend port s) := by
  refine KeepsR.within hk hm ?_
  replace hk : Keeps 0x2021 s s := .refl _
  unfold execCensusMarkSend
  repeat' first
    | (extract_lets -descend +onlyGivenNames x0; refine Keeps.cut (m := 0x2021) (z := s) (v := x0) ?_ (fun h0 => ?_); rotate_left; clear_value x0; rotate_left; dsimp -zeta only [x0]; clear x0)
    | (extract_lets -descend +onlyGivenNames x0; clear_value x0)
    | with_reducible intro _
    | lift_lets
    | with_reducible assumption
    | (with_reducible first | apply KeepsR.present | apply KeepsR.next | exact KeepsR.fault | apply present_keeps | apply State.modPort_keeps | apply State.putCtl_keeps | apply State.censusSkip_keeps)
    | (with_reducible refine Keeps.mk0 ?_ ?g; (first | with_reducible assumption | (refine Keeps.snd ?_ (by assumption)) | (refine Keeps.some ?_ (by assumption)) | (with_reducible first | apply present_keeps | apply State.modPort_keeps | apply State.putCtl_keeps | apply State.censusSkip_keeps)); with_reducible case g => exact fun h => Keeps.mk' h)
    | (with_reducible apply Keeps.ite)
    | split
    | exact Sub.of rfl
    | dsimp only

theorem execCensusMarkReceived_keeps {mk : Nat} {z s : State} (hk : Keeps mk z s) (port num cls : Nat) (hm : Sub 0x20 mk := by exact Sub.of rfl) :
    KeepsR mk z (execCensusMarkReceived port num cls s) := by
  refine KeepsR.within hk hm ?_
  replace hk : Keeps 0x20 s s := .refl _
  unfold execCensusMarkReceived
  repeat' first
    | (extract_lets -descend +onlyGivenNames x0; refine Keeps.cut (m := 0x20) (z := s) (v := x0) ?_ (fun h0 => ?_); rotate_left; clear_value x0; rotate_left; dsimp -zeta only [x0]; clear x0)
    | (extract_lets -descend +onlyGivenNames x0; clear_value x0)
    | with_reducible intro _
    | lift_lets
    | with_reducible assumption
    | (with_reducible first | apply KeepsR.present | apply KeepsR.next | exact KeepsR.fault | apply present_keeps | apply State.modPort_keeps | apply State.putCtl_keeps)
    | (with_reducible refine Keeps.mk0 ?_ ?g; (first | with_reducible assumption | (refine Keeps.snd ?_ (by assumption)) | (refine Keeps.some ?_ (by assumption)) | (with_reducible first | apply present_keeps | apply State.modPort_keeps | apply State.putCtl_keeps)); with_reducible case g => exact fun h => Keeps.mk' h)
    | (with_reducible apply Keeps.ite)
    | split
    | exact Sub.of rfl
    | dsimp only

theorem State.mismatch_keeps {mk : Nat} {z s : State} (hk : Keeps mk z s) (p c : Nat) (diff : Int) (num : Nat) (hm : Sub 0x804F7 mk := by exact Sub.of rfl) :
    Keeps mk z (State.mismatch s p c diff num) := by
  refine hk.within hm ?_
  replace hk : Keeps 0x804F7 s s := .refl _
  unfold State.mismatch
  repeat' first
    | (extract_lets -descend +onlyGivenNames x0; refine Keeps.cut (m := 0x804F7) (z := s) (v := x0) ?_ (fun h0 => ?_); rotate_left; clear_value x0; rotate_left; dsimp -zeta only [x0]; clear x0)
    | (extract_lets -descend +onlyGivenNames x0; clear_value x0)
    | with_reducible intro _
    | lift_lets
    | with_reducible assumption
    | (with_reducible first | apply State.wr_keeps | apply State.bumpSat_keeps | apply State.irq_keeps | apply State.modCls_keeps | apply State.event_keeps)
    | (with_reducible refine Keeps.mk0 ?_ ?g; (first | with_reducible assumption | (refine Keeps.snd ?_ (by assumption)) | (refine Keeps.some ?_ (by assumption)) | (with_reducible first | apply State.wr_keeps | apply State.bumpSat_keeps | apply State.irq_keeps | apply State.modCls_keeps | apply State.event_keeps)); with_reducible case g => exact fun h => Keeps.mk' h)
    | (with_reducible apply Keeps.ite)
    | split
    | (refine Keeps.some ?_ (by assumption))
    | exact Sub.of rfl
    | dsimp only

theorem execCensusEchoReceived_keeps {mk : Nat} {z s : State} (hk : Keeps mk z s) (port num cls f released : Nat) (hm : Sub 0x824F7 mk := by exact Sub.of rfl) :
    KeepsR mk z (execCensusEchoReceived port num cls f released s) := by
  refine KeepsR.within hk hm ?_
  replace hk : Keeps 0x824F7 s s := .refl _
  unfold execCensusEchoReceived
  repeat' first
    | (extract_lets -descend +onlyGivenNames x0; refine Keeps.cut (m := 0x824F7) (z := s) (v := x0) ?_ (fun h0 => ?_); rotate_left; clear_value x0; rotate_left; dsimp -zeta only [x0]; clear x0)
    | (extract_lets -descend +onlyGivenNames x0; clear_value x0)
    | with_reducible intro _
    | lift_lets
    | with_reducible assumption
    | (with_reducible first | apply KeepsR.present | apply KeepsR.next | exact KeepsR.fault | apply State.wr_keeps | apply State.bumpSat_keeps | apply present_keeps | apply State.modPort_keeps | apply State.admitRound_keeps | apply State.censusSkip_keeps | apply State.mismatch_keeps)
    | (with_reducible refine Keeps.mk0 ?_ ?g; (first | with_reducible assumption | (refine Keeps.snd ?_ (by assumption)) | (refine Keeps.some ?_ (by assumption)) | (with_reducible first | apply State.wr_keeps | apply State.bumpSat_keeps | apply present_keeps | apply State.modPort_keeps | apply State.admitRound_keeps | apply State.censusSkip_keeps | apply State.mismatch_keeps)); with_reducible case g => exact fun h => Keeps.mk' h)
    | (with_reducible apply Keeps.ite)
    | split
    | (refine Keeps.some ?_ (by assumption))
    | exact Sub.of rfl
    | dsimp only

theorem execCensusTimeout_keeps {mk : Nat} {z s : State} (hk : Keeps mk z s) (port : Nat) (hm : Sub 0x2021 mk := by exact Sub.of rfl) :
    KeepsR mk z (execCensusTimeout port s) := by
  refine KeepsR.within hk hm ?_
  replace hk : Keeps 0x2021 s s := .refl _
  unfold execCensusTimeout
  repeat' first
    | with_reducible assumption
    | (with_reducible first | apply KeepsR.present | apply KeepsR.next | exact KeepsR.fault | apply present_keeps | apply State.censusSkip_keeps)
    | (with_reducible apply Keeps.ite)
    | split
    | (refine Keeps.some ?_ (by assumption))
    | exact Sub.of rfl
    | dsimp only

theorem State.ingressCredits_keeps {mk : Nat} {z s : State} (hk : Keeps mk z s) (p c n : Nat) (hm : Sub 0x20 mk := by exact Sub.of rfl) :
    Keeps mk z (State.ingressCredits s p c n) := by
  refine hk.within hm ?_
  replace hk : Keeps 0x20 s s := .refl _
  unfold State.ingressCredits
  repeat' first
    | with_reducible intro _
    | with_reducible assumption
    | with_reducible apply State.modCls_keeps
    | (with_reducible refine Keeps.mk0 ?_ ?g; (first | with_reducible assumption | (refine Keeps.snd ?_ (by assumption)) | (refine Keeps.some ?_ (by assumption)) | (with_reducible first | apply State.modCls_keeps)); with_reducible case g => exact fun h => Keeps.mk' h)
    | exact Sub.of rfl
    | dsimp only

theorem State.unitDrop_keeps {mk : Nat} {z s : State} (hk : Keeps mk z s) (d : Option (List Byte)) (hm : Sub 0x440 mk := by exact Sub.of rfl) :
    Keeps mk z (State.unitDrop s d) := by
  refine hk.within hm ?_
  replace hk : Keeps 0x440 s s := .refl _
  unfold State.unitDrop
  repeat' first
    | with_reducible assumption
    | with_reducible apply State.takeDrop_keeps
    | (with_reducible apply Keeps.ite)
    | split
    | (refine Keeps.some ?_ (by assumption))
    | exact Sub.of rfl
    | dsimp only

theorem State.rlBump_keeps {mk : Nat} {z s : State} (hk : Keeps mk z s) (r : Reg) (p : Nat) (d : Nat) (hm : Sub 0x1 mk := by exact Sub.of rfl) :
    Keeps mk z (State.rlBump s r p d) := by
  refine hk.within hm ?_
  replace hk : Keeps 0x1 s s := .refl _
  unfold State.rlBump
  repeat' first
    | with_reducible assumption
    | with_reducible apply State.pbump_keeps
    | (with_reducible apply Keeps.ite)
    | split
    | exact Sub.of rfl
    | dsimp only

theorem State.unitIn_keeps {mk : Nat} {z s : State} (hk : Keeps mk z s) (p : Nat) (u : UnitIn) (hm : Sub 0x804F7 mk := by exact Sub.of rfl) :
    Keeps mk z (State.unitIn s p u).2 := by
  refine hk.within hm ?_
  replace hk : Keeps 0x804F7 s s := .refl _
  unfold State.unitIn
  repeat' first
    | (extract_lets -descend +onlyGivenNames x0; refine Keeps.cut (m := 0x804F7) (z := s) (v := x0) ?_ (fun h0 => ?_); rotate_left; clear_value x0; rotate_left; dsimp -zeta only [x0]; clear x0)
    | (extract_lets -descend +onlyGivenNames x0; clear_value x0)
    | with_reducible intro _
    | lift_lets
    | with_reducible assumption
    | (with_reducible first | apply State.modPort_keeps | apply State.modCls_keeps | apply State.linkCtl_keeps | apply State.ingressCredits_keeps | apply State.unitDrop_keeps | apply State.rlBump_keeps)
    | (with_reducible refine Keeps.mk0 ?_ ?g; (first | with_reducible assumption | (refine Keeps.snd ?_ (by assumption)) | (refine Keeps.some ?_ (by assumption)) | (with_reducible first | apply State.modPort_keeps | apply State.modCls_keeps | apply State.linkCtl_keeps | apply State.ingressCredits_keeps | apply State.unitDrop_keeps | apply State.rlBump_keeps)); with_reducible case g => exact fun h => Keeps.mk' h)
    | (with_reducible apply Keeps.ite)
    | split
    | (refine Keeps.some ?_ (by assumption))
    | (refine Keeps.snd ?_ (by assumption))
    | exact Sub.of rfl
    | dsimp only

theorem State.creditsVoid_keeps {mk : Nat} {z s : State} (hk : Keeps mk z s) (mine : Nat → Bool) (hm : Sub 0x4D000 mk := by exact Sub.of rfl) :
    Keeps mk z (State.creditsVoid s mine) := by
  refine hk.within hm ?_
  replace hk : Keeps 0x4D000 s s := .refl _
  unfold State.creditsVoid
  repeat' first
    | (extract_lets -descend +onlyGivenNames x0; refine Keeps.cut (m := 0x4D000) (z := s) (v := x0) ?_ (fun h0 => ?_); rotate_left; clear_value x0; rotate_left; dsimp -zeta only [x0]; clear x0)
    | (extract_lets -descend +onlyGivenNames x0; clear_value x0)
    | with_reducible intro _
    | lift_lets
    | with_reducible assumption
    | (with_reducible refine Keeps.mk0 ?_ ?g; (first | with_reducible assumption | (refine Keeps.snd ?_ (by assumption)) | (refine Keeps.some ?_ (by assumption))); with_reducible case g => exact fun h => Keeps.mk' h)
    | (with_reducible apply Keeps.ite)
    | split
    | exact Sub.of rfl
    | dsimp only

theorem State.trainStart_keeps {mk : Nat} {z s : State} (hk : Keeps mk z s) (p : Nat) (hm : Sub 0x4D020 mk := by exact Sub.of rfl) :
    Keeps mk z (State.trainStart s p) := by
  refine hk.within hm ?_
  replace hk : Keeps 0x4D020 s s := .refl _
  unfold State.trainStart
  repeat' first
    | (extract_lets -descend +onlyGivenNames x0; refine Keeps.cut (m := 0x4D020) (z := s) (v := x0) ?_ (fun h0 => ?_); rotate_left; clear_value x0; rotate_left; dsimp -zeta only [x0]; clear x0)
    | (extract_lets -descend +onlyGivenNames x0; clear_value x0)
    | with_reducible intro _
    | lift_lets
    | with_reducible assumption
    | (with_reducible first | apply State.modPort_keeps | apply State.sendInit_keeps | apply State.creditsVoid_keeps)
    | (with_reducible refine Keeps.mk0 ?_ ?g; (first | with_reducible assumption | (refine Keeps.snd ?_ (by assumption)) | (refine Keeps.some ?_ (by assumption)) | (with_reducible first | apply State.modPort_keeps | apply State.sendInit_keeps | apply State.creditsVoid_keeps)); with_reducible case g => exact fun h => Keeps.mk' h)
    | (with_reducible apply Keeps.ite)
    | split
    | exact Sub.of rfl
    | dsimp only

theorem State.discDone_keeps {mk : Nat} {z s : State} (hk : Keeps mk z s) (p : Nat) (hm : Sub 0x20 mk := by exact Sub.of rfl) :
    Keeps mk z (State.discDone s p) := by
  refine hk.within hm ?_
  replace hk : Keeps 0x20 s s := .refl _
  unfold State.discDone
  repeat' first
    | with_reducible intro _
    | with_reducible assumption
    | (with_reducible first | apply State.modPort_keeps | apply State.sendInit_keeps)
    | (with_reducible refine Keeps.mk0 ?_ ?g; (first | with_reducible assumption | (refine Keeps.snd ?_ (by assumption)) | (refine Keeps.some ?_ (by assumption)) | (with_reducible first | apply State.modPort_keeps | apply State.sendInit_keeps)); with_reducible case g => exact fun h => Keeps.mk' h)
    | (with_reducible apply Keeps.ite)
    | split
    | exact Sub.of rfl
    | dsimp only

theorem execLinkTrainingStart_keeps {mk : Nat} {z s : State} (hk : Keeps mk z s) (port : Nat) (hm : Sub 0x4D020 mk := by exact Sub.of rfl) :
    KeepsR mk z (execLinkTrainingStart port s) := by
  refine KeepsR.within hk hm ?_
  replace hk : Keeps 0x4D020 s s := .refl _
  unfold execLinkTrainingStart
  repeat' first
    | with_reducible assumption
    | (with_reducible first | apply KeepsR.present | apply KeepsR.next | exact KeepsR.fault | apply present_keeps | apply State.trainStart_keeps)
    | (with_reducible apply Keeps.ite)
    | split
    | exact Sub.of rfl
    | dsimp only

theorem State.modPub_keeps {mk : Nat} {z s : State} (hk : Keeps mk z s) (f : PubSt → PubSt) (hm : Sub 0x40000 mk := by exact Sub.of rfl) :
    Keeps mk z (State.modPub s f) := by
  refine hk.within hm ?_
  replace hk : Keeps 0x40000 s s := .refl _
  unfold State.modPub
  repeat' first
    | with_reducible assumption
    | (with_reducible refine Keeps.mk0 ?_ ?g; (first | with_reducible assumption | (refine Keeps.snd ?_ (by assumption)) | (refine Keeps.some ?_ (by assumption))); with_reducible case g => exact fun h => Keeps.mk' h)
    | exact Sub.of rfl
    | dsimp only

theorem State.modSess_keeps {mk : Nat} {z s : State} (hk : Keeps mk z s) (e : Nat) (f : Session → Session) (hm : Sub 0x40000 mk := by exact Sub.of rfl) :
    Keeps mk z (State.modSess s e f) := by
  refine hk.within hm ?_
  replace hk : Keeps 0x40000 s s := .refl _
  unfold State.modSess
  repeat' first
    | with_reducible intro _
    | with_reducible assumption
    | with_reducible apply State.modPub_keeps
    | (with_reducible refine Keeps.mk0 ?_ ?g; (first | with_reducible assumption | (refine Keeps.snd ?_ (by assumption)) | (refine Keeps.some ?_ (by assumption)) | (with_reducible first | apply State.modPub_keeps)); with_reducible case g => exact fun h => Keeps.mk' h)
    | exact Sub.of rfl
    | dsimp only

theorem State.resendAt_keeps {mk : Nat} {z s : State} (hk : Keeps mk z s) (q : Nat) (i : Item) (hm : Sub 0x40021 mk := by exact Sub.of rfl) :
    Keeps mk z (State.resendAt s q i) := by
  refine hk.within hm ?_
  replace hk : Keeps 0x40021 s s := .refl _
  unfold State.resendAt
  repeat' first
    | with_reducible intro _
    | with_reducible assumption
    | (with_reducible first | apply State.modCls_keeps | apply State.store_keeps | apply State.modPub_keeps | apply State.modSess_keeps)
    | (with_reducible refine Keeps.mk0 ?_ ?g; (first | with_reducible assumption | (refine Keeps.snd ?_ (by assumption)) | (refine Keeps.some ?_ (by assumption)) | (with_reducible first | apply State.modCls_keeps | apply State.store_keeps | apply State.modPub_keeps | apply State.modSess_keeps)); with_reducible case g => exact fun h => Keeps.mk' h)
    | (with_reducible apply Keeps.ite)
    | split
    | (refine Keeps.some ?_ (by assumption))
    | exact Sub.of rfl
    | dsimp only

theorem State.reroute_keeps {mk : Nat} {z s : State} (hk : Keeps mk z s) (p : Nat) (i : Item) (hm : Sub 0xC04F7 mk := by exact Sub.of rfl) :
    Keeps mk z (State.reroute s p i) := by
  refine hk.within hm ?_
  replace hk : Keeps 0xC04F7 s s := .refl _
  unfold State.reroute
  repeat' first
    | (extract_lets -descend +onlyGivenNames x0; refine Keeps.cut (m := 0xC04F7) (z := s) (v := x0) ?_ (fun h0 => ?_); rotate_left; clear_value x0; rotate_left; dsimp -zeta only [x0]; clear x0)
    | (extract_lets -descend +onlyGivenNames x0; clear_value x0)
    | with_reducible intro _
    | lift_lets
    | with_reducible assumption
    | (with_reducible first | apply State.pbump_keeps | apply State.fateLost_keeps | apply State.resendAt_keeps)
    | (with_reducible refine Keeps.mk0 ?_ ?g; (first | with_reducible assumption | (refine Keeps.snd ?_ (by assumption)) | (refine Keeps.some ?_ (by assumption)) | (with_reducible first | apply State.pbump_keeps | apply State.fateLost_keeps | apply State.resendAt_keeps)); with_reducible case g => exact fun h => Keeps.mk' h)
    | (with_reducible apply Keeps.ite)
    | split
    | (refine Keeps.some ?_ (by assumption))
    | exact Sub.of rfl
    | dsimp only

theorem State.laneLost_keeps {mk : Nat} {z s : State} (hk : Keeps mk z s) (p : Nat) (hm : Sub 0x804F7 mk := by exact Sub.of rfl) :
    Keeps mk z (State.laneLost s p) := by
  refine hk.within hm ?_
  replace hk : Keeps 0x804F7 s s := .refl _
  unfold State.laneLost
  repeat' first
    | with_reducible assumption
    | with_reducible apply State.event_keeps
    | (with_reducible apply Keeps.ite)
    | split
    | exact Sub.of rfl
    | dsimp only

theorem State.toAlternate_keeps {mk : Nat} {z s : State} (hk : Keeps mk z s) (p : Nat) (hm : Sub 0x400 mk := by exact Sub.of rfl) :
    Keeps mk z (State.toAlternate s p) := by
  refine hk.within hm ?_
  replace hk : Keeps 0x400 s s := .refl _
  unfold State.toAlternate
  repeat' first
    | (extract_lets -descend +onlyGivenNames x0; refine Keeps.cut (m := 0x400) (z := s) (v := x0) ?_ (fun h0 => ?_); rotate_left; clear_value x0; rotate_left; dsimp -zeta only [x0]; clear x0)
    | (extract_lets -descend +onlyGivenNames x0; clear_value x0)
    | with_reducible intro _
    | lift_lets
    | with_reducible assumption
    | (with_reducible refine Keeps.mk0 ?_ ?g; (first | with_reducible assumption | (refine Keeps.snd ?_ (by assumption)) | (refine Keeps.some ?_ (by assumption))); with_reducible case g => exact fun h => Keeps.mk' h)
    | exact Sub.of rfl
    | dsimp only

theorem State.exchFall_keeps {mk : Nat} {z s : State} (hk : Keeps mk z s) (p : Nat) (keepTime : Bool) (hm : Sub 0x11EE5F7 mk := by exact Sub.of rfl) :
    Keeps mk z (State.exchFall s p keepTime) := by
  refine hk.within hm ?_
  replace hk : Keeps 0x11EE5F7 s s := .refl _
  unfold State.exchFall
  repeat' first
    | (extract_lets -descend +onlyGivenNames x0; refine Keeps.cut (m := 0x11EE5F7) (z := s) (v := x0) ?_ (fun h0 => ?_); rotate_left; clear_value x0; rotate_left; dsimp -zeta only [x0]; clear x0)
    | (extract_lets -descend +onlyGivenNames x0; clear_value x0)
    | with_reducible intro _
    | lift_lets
    | with_reducible assumption
    | (with_reducible first | apply State.modExch_keeps | apply State.parentLost_keeps | apply State.exchVote_keeps)
    | (with_reducible refine Keeps.mk0 ?_ ?g; (first | with_reducible assumption | (refine Keeps.snd ?_ (by assumption)) | (refine Keeps.some ?_ (by assumption)) | (with_reducible first | apply State.modExch_keeps | apply State.parentLost_keeps | apply State.exchVote_keeps)); with_reducible case g => exact fun h => Keeps.mk' h)
    | (with_reducible apply Keeps.ite)
    | split
    | exact Sub.of rfl
    | dsimp only

theorem State.linkCut_keeps {mk : Nat} {z s : State} (hk : Keeps mk z s) (p : Nat) (hm : Sub 0xC24F7 mk := by exact Sub.of rfl) :
    Keeps mk z (State.linkCut s p) := by
  refine hk.within hm ?_
  replace hk : Keeps 0xC24F7 s s := .refl _
  unfold State.linkCut
  repeat' first
    | (extract_lets -descend +onlyGivenNames x0; refine Keeps.cut (m := 0xC24F7) (z := s) (v := x0) ?_ (fun h0 => ?_); rotate_left; clear_value x0; rotate_left; dsimp -zeta only [x0]; clear x0)
    | (extract_lets -descend +onlyGivenNames x0; clear_value x0)
    | with_reducible intro _
    | lift_lets
    | with_reducible assumption
    | (with_reducible first | apply State.modPort_keeps | apply State.censusSkip_keeps | apply State.reroute_keeps | apply State.toAlternate_keeps)
    | (with_reducible refine Keeps.mk0 ?_ ?g; (first | with_reducible assumption | (refine Keeps.snd ?_ (by assumption)) | (refine Keeps.some ?_ (by assumption)) | (with_reducible first | apply State.modPort_keeps | apply State.censusSkip_keeps | apply State.reroute_keeps | apply State.toAlternate_keeps)); with_reducible case g => exact fun h => Keeps.mk' h)
    | (with_reducible apply Keeps.foldl)
    | exact Sub.of rfl
    | dsimp only

theorem State.pairFall_keeps {mk : Nat} {z s : State} (hk : Keeps mk z s) (p : Nat) (hm : Sub 0x40000 mk := by exact Sub.of rfl) :
    Keeps mk z (State.pairFall s p) := by
  refine hk.within hm ?_
  replace hk : Keeps 0x40000 s s := .refl _
  unfold State.pairFall
  repeat' first
    | with_reducible assumption
    | (with_reducible refine Keeps.mk0 ?_ ?g; (first | with_reducible assumption | (refine Keeps.snd ?_ (by assumption)) | (refine Keeps.some ?_ (by assumption))); with_reducible case g => exact fun h => Keeps.mk' h)
    | (with_reducible apply Keeps.ite)
    | split
    | exact Sub.of rfl
    | dsimp only

theorem State.fallCount_keeps {mk : Nat} {z s : State} (hk : Keeps mk z s) (p : Nat) (hm : Sub 0x3 mk := by exact Sub.of rfl) :
    Keeps mk z (State.fallCount s p) := by
  refine hk.within hm ?_
  replace hk : Keeps 0x3 s s := .refl _
  unfold State.fallCount
  repeat' first
    | with_reducible assumption
    | (with_reducible first | apply State.pbump_keeps | apply State.portIrq_keeps)
    | exact Sub.of rfl
    | dsimp only

theorem State.fallTold_keeps {mk : Nat} {z s : State} (hk : Keeps mk z s) (cause p : Nat) (hm : Sub 0x804F7 mk := by exact Sub.of rfl) :
    Keeps mk z (State.fallTold s cause p) := by
  refine hk.within hm ?_
  replace hk : Keeps 0x804F7 s s := .refl _
  unfold State.fallTold
  repeat' first
    | with_reducible assumption
    | with_reducible apply State.event_keeps
    | exact Sub.of rfl
    | dsimp only

theorem State.linksTold_keeps {mk : Nat} {z s : State} (hk : Keeps mk z s) (live was : List Nat) (cause : Nat) (keepTime : Bool) (hm : Sub 0x11EE5F7 mk := by exact Sub.of rfl) :
    Keeps mk z (State.linksTold s live was cause keepTime) := by
  refine hk.within hm ?_
  replace hk : Keeps 0x11EE5F7 s s := .refl _
  unfold State.linksTold
  repeat' first
    | (extract_lets -descend +onlyGivenNames x0; refine Keeps.cut (m := 0x11EE5F7) (z := s) (v := x0) ?_ (fun h0 => ?_); rotate_left; clear_value x0; rotate_left; dsimp -zeta only [x0]; clear x0)
    | (extract_lets -descend +onlyGivenNames x0; clear_value x0)
    | with_reducible intro _
    | lift_lets
    | with_reducible assumption
    | (with_reducible first | apply State.laneLost_keeps | apply State.exchFall_keeps | apply State.pairFall_keeps | apply State.fallCount_keeps | apply State.fallTold_keeps)
    | (with_reducible apply Keeps.foldl)
    | exact Sub.of rfl
    | dsimp only

theorem State.linksCut_keeps {mk : Nat} {z s : State} (hk : Keeps mk z s) (ps : List Nat) (hm : Sub 0xC24F7 mk := by exact Sub.of rfl) :
    Keeps mk z (State.linksCut s ps) := by
  refine hk.within hm ?_
  replace hk : Keeps 0xC24F7 s s := .refl _
  unfold State.linksCut
  repeat' first
    | with_reducible intro _
    | with_reducible assumption
    | with_reducible apply State.linkCut_keeps
    | (with_reducible apply Keeps.foldl)
    | exact Sub.of rfl
    | dsimp only

theorem State.linksFall_keeps {mk : Nat} {z s : State} (hk : Keeps mk z s) (ps : List Nat) (cause : Nat) (keepTime : Bool) (hm : Sub 0x11EE5F7 mk := by exact Sub.of rfl) :
    Keeps mk z (State.linksFall s ps cause keepTime) := by
  refine hk.within hm ?_
  replace hk : Keeps 0x11EE5F7 s s := .refl _
  unfold State.linksFall
  repeat' first
    | with_reducible assumption
    | (with_reducible first | apply State.linksTold_keeps | apply State.linksCut_keeps)
    | exact Sub.of rfl
    | dsimp only

theorem State.linkDown_keeps {mk : Nat} {z s : State} (hk : Keeps mk z s) (p cause : Nat) (hm : Sub 0x11EE5F7 mk := by exact Sub.of rfl) :
    Keeps mk z (State.linkDown s p cause) := by
  refine hk.within hm ?_
  replace hk : Keeps 0x11EE5F7 s s := .refl _
  unfold State.linkDown
  repeat' first
    | with_reducible assumption
    | with_reducible apply State.linksFall_keeps
    | exact Sub.of rfl
    | dsimp only

theorem execLinkDown_keeps {mk : Nat} {z s : State} (hk : Keeps mk z s) (port cause : Nat) (hm : Sub 0x11EE5F7 mk := by exact Sub.of rfl) :
    KeepsR mk z (execLinkDown port cause s) := by
  refine KeepsR.within hk hm ?_
  replace hk : Keeps 0x11EE5F7 s s := .refl _
  unfold execLinkDown
  repeat' first
    | with_reducible assumption
    | (with_reducible first | apply KeepsR.present | apply KeepsR.next | exact KeepsR.fault | apply present_keeps | apply State.linkDown_keeps)
    | exact Sub.of rfl
    | dsimp only

theorem State.loseBank_keeps {mk : Nat} {z s : State} (hk : Keeps mk z s) (p : Nat) (hm : Sub 0x11EE5F7 mk := by exact Sub.of rfl) :
    Keeps mk z (State.loseBank s p) := by
  refine hk.within hm ?_
  replace hk : Keeps 0x11EE5F7 s s := .refl _
  unfold State.loseBank
  repeat' first
    | (extract_lets -descend +onlyGivenNames x0; refine Keeps.cut (m := 0x11EE5F7) (z := s) (v := x0) ?_ (fun h0 => ?_); rotate_left; clear_value x0; rotate_left; dsimp -zeta only [x0]; clear x0)
    | (extract_lets -descend +onlyGivenNames x0; clear_value x0)
    | with_reducible intro _
    | lift_lets
    | with_reducible assumption
    | (with_reducible first | apply State.irq_keeps | apply State.modPort_keeps | apply State.event_keeps | apply State.applyTotals_keeps | apply State.linksTold_keeps | apply State.linksCut_keeps)
    | (with_reducible refine Keeps.mk0 ?_ ?g; (first | with_reducible assumption | (refine Keeps.snd ?_ (by assumption)) | (refine Keeps.some ?_ (by assumption)) | (with_reducible first | apply State.irq_keeps | apply State.modPort_keeps | apply State.event_keeps | apply State.applyTotals_keeps | apply State.linksTold_keeps | apply State.linksCut_keeps)); with_reducible case g => exact fun h => Keeps.mk' h)
    | (with_reducible apply Keeps.ite)
    | split
    | exact Sub.of rfl
    | dsimp only

end Sys2Proof.Machine
end

