-- ==== Sys2Proof/Laws/KeepsPlan.lean ====
section
/-! SUPPORT. What the operations of Machine/Plan.lean keep. -/

set_option Elab.async false

namespace Sys2Proof.Machine

theorem State.quarantine_keeps {mk : Nat} {z s : State} (hk : Keeps mk z s) (p : Nat) (dup : Bool) (hm : Sub 0x23 mk := by exact Sub.of rfl) :
    Keeps mk z (State.quarantine s p dup) := by
  refine hk.within hm ?_
  replace hk : Keeps 0x23 s s := .refl _
  unfold State.quarantine
  repeat' first
    | with_reducible intro _
    | with_reducible assumption
    | (with_reducible first | apply State.modPort_keeps | apply State.portIrq_keeps)
    | (with_reducible refine Keeps.mk0 ?_ ?g; (first | with_reducible assumption | (refine Keeps.snd ?_ (by assumption)) | (refine Keeps.some ?_ (by assumption)) | (with_reducible first | apply State.modPort_keeps | apply State.portIrq_keeps)); with_reducible case g => exact fun h => Keeps.mk' h)
    | (with_reducible apply Keeps.ite)
    | split
    | exact Sub.of rfl
    | dsimp only

theorem State.offerSchedule_keeps {mk : Nat} {z s : State} (hk : Keeps mk z s) (p : Nat) (hm : Sub 0x80471 mk := by exact Sub.of rfl) :
    Keeps mk z (State.offerSchedule s p) := by
  refine hk.within hm ?_
  replace hk : Keeps 0x80471 s s := .refl _
  unfold State.offerSchedule
  repeat' first
    | with_reducible intro _
    | with_reducible assumption
    | with_reducible apply State.sendLocal_keeps
    | (with_reducible apply Keeps.ite)
    | (with_reducible apply Keeps.foldl)
    | split
    | exact Sub.of rfl
    | dsimp only

theorem State.rejoin_keeps {mk : Nat} {z s : State} (hk : Keeps mk z s) (p : Nat) (hm : Sub 0x20 mk := by exact Sub.of rfl) :
    Keeps mk z (State.rejoin s p) := by
  refine hk.within hm ?_
  replace hk : Keeps 0x20 s s := .refl _
  unfold State.rejoin
  repeat' first
    | with_reducible intro _
    | with_reducible assumption
    | with_reducible apply State.modPort_keeps
    | (with_reducible refine Keeps.mk0 ?_ ?g; (first | with_reducible assumption | (refine Keeps.snd ?_ (by assumption)) | (refine Keeps.some ?_ (by assumption)) | (with_reducible first | apply State.modPort_keeps)); with_reducible case g => exact fun h => Keeps.mk' h)
    | (with_reducible apply Keeps.ite)
    | split
    | exact Sub.of rfl
    | dsimp only

theorem State.judge_keeps {mk : Nat} {z s : State} (hk : Keeps mk z s) (p id : Nat) (hm : Sub 0x804F7 mk := by exact Sub.of rfl) :
    Keeps mk z (State.judge s p id) := by
  refine hk.within hm ?_
  replace hk : Keeps 0x804F7 s s := .refl _
  unfold State.judge
  repeat' first
    | (extract_lets -descend +onlyGivenNames x0; refine Keeps.cut (m := 0x804F7) (z := s) (v := x0) ?_ (fun h0 => ?_); rotate_left; clear_value x0; rotate_left; dsimp -zeta only [x0]; clear x0)
    | (extract_lets -descend +onlyGivenNames x0; clear_value x0)
    | with_reducible intro _
    | lift_lets
    | with_reducible assumption
    | (with_reducible first | apply State.modPort_keeps | apply State.event_keeps | apply State.quarantine_keeps | apply State.offerSchedule_keeps | apply State.rejoin_keeps)
    | (with_reducible refine Keeps.mk0 ?_ ?g; (first | with_reducible assumption | (refine Keeps.snd ?_ (by assumption)) | (refine Keeps.some ?_ (by assumption)) | (with_reducible first | apply State.modPort_keeps | apply State.event_keeps | apply State.quarantine_keeps | apply State.offerSchedule_keeps | apply State.rejoin_keeps)); with_reducible case g => exact fun h => Keeps.mk' h)
    | (with_reducible apply Keeps.ite)
    | split
    | (refine Keeps.some ?_ (by assumption))
    | exact Sub.of rfl
    | dsimp only

theorem State.discAnswer_keeps {mk : Nat} {z s : State} (hk : Keeps mk z s) (p id : Nat) (hm : Sub 0x804F7 mk := by exact Sub.of rfl) :
    Keeps mk z (State.discAnswer s p id) := by
  refine hk.within hm ?_
  replace hk : Keeps 0x804F7 s s := .refl _
  unfold State.discAnswer
  repeat' first
    | with_reducible intro _
    | with_reducible assumption
    | (with_reducible first | apply State.modPort_keeps | apply State.discDone_keeps | apply State.judge_keeps)
    | (with_reducible refine Keeps.mk0 ?_ ?g; (first | with_reducible assumption | (refine Keeps.snd ?_ (by assumption)) | (refine Keeps.some ?_ (by assumption)) | (with_reducible first | apply State.modPort_keeps | apply State.discDone_keeps | apply State.judge_keeps)); with_reducible case g => exact fun h => Keeps.mk' h)
    | exact Sub.of rfl
    | dsimp only

theorem State.discover_keeps {mk : Nat} {z s : State} (hk : Keeps mk z s) (answers : List (Nat × Nat)) (hm : Sub 0x804F7 mk := by exact Sub.of rfl) :
    Keeps mk z (State.discover s answers) := by
  refine hk.within hm ?_
  replace hk : Keeps 0x804F7 s s := .refl _
  unfold State.discover
  repeat' first
    | (extract_lets -descend +onlyGivenNames x0; refine Keeps.cut (m := 0x804F7) (z := s) (v := x0) ?_ (fun h0 => ?_); rotate_left; clear_value x0; rotate_left; dsimp -zeta only [x0]; clear x0)
    | (extract_lets -descend +onlyGivenNames x0; first
        | ((with_reducible first | have _w : LinkSt := x0 | have _w : TimeSt := x0 | have _w : PowerSt := x0 | have _w : SampSt := x0 | have _w : FwSt := x0 | have _w : AuthSt := x0 | have _w : PulseSt := x0 | have _w : CoreSt := x0); clear _w; dsimp -zeta only [x0]; clear x0)
        | clear_value x0)
    | with_reducible intro _
    | lift_lets
    | with_reducible assumption
    | (with_reducible first | apply KeepsR.present | apply KeepsR.next | exact KeepsR.fault | exact KeepsO.none | apply KeepsO.some | apply State.event_keeps | apply State.discAnswer_keeps)
    | (with_reducible refine State.modRegion_keeps ?_ _ _ (fun _ w => w))
    | (with_reducible refine State.modFw_keeps ?_ _ ⟨rfl, rfl⟩)
    | (with_reducible refine State.modAuth_keeps ?_ _ ⟨rfl, rfl⟩)
    | (with_reducible refine Keeps.mk0 ?_ ?g; (first | with_reducible assumption | (refine Keeps.snd ?_ (by assumption)) | (refine Keeps.some ?_ (by assumption)) | (with_reducible first | apply State.event_keeps | apply State.discAnswer_keeps)); with_reducible case g => exact fun h => Keeps.mk' h)
    | (with_reducible apply Keeps.ite)
    | (with_reducible apply Keeps.foldl)
    | (with_reducible apply Keeps.foldlSnd)
    | (with_reducible apply Keeps.foldlFst)
    | split
    | (refine Keeps.some ?_ (by assumption))
    | (refine Keeps.snd ?_ (by assumption))
    | exact Sub.of rfl
    | dsimp only

theorem execDiscoveryTimeout_keeps {mk : Nat} {z s : State} (hk : Keeps mk z s) (port : Nat) (hm : Sub 0x804F7 mk := by exact Sub.of rfl) :
    KeepsR mk z (execDiscoveryTimeout port s) := by
  refine KeepsR.within hk hm ?_
  replace hk : Keeps 0x804F7 s s := .refl _
  unfold execDiscoveryTimeout
  repeat' first
    | (extract_lets -descend +onlyGivenNames x0; refine Keeps.cut (m := 0x804F7) (z := s) (v := x0) ?_ (fun h0 => ?_); rotate_left; clear_value x0; rotate_left; dsimp -zeta only [x0]; clear x0)
    | (extract_lets -descend +onlyGivenNames x0; clear_value x0)
    | with_reducible intro _
    | lift_lets
    | with_reducible assumption
    | (with_reducible first | apply KeepsR.present | apply KeepsR.next | exact KeepsR.fault | apply present_keeps | apply State.modPort_keeps | apply State.event_keeps | apply State.portIrq_keeps)
    | (with_reducible refine Keeps.mk0 ?_ ?g; (first | with_reducible assumption | (refine Keeps.snd ?_ (by assumption)) | (refine Keeps.some ?_ (by assumption)) | (with_reducible first | apply present_keeps | apply State.modPort_keeps | apply State.event_keeps | apply State.portIrq_keeps)); with_reducible case g => exact fun h => Keeps.mk' h)
    | (with_reducible apply Keeps.ite)
    | split
    | exact Sub.of rfl
    | dsimp only

theorem State.quarRelease_keeps {mk : Nat} {z s : State} (hk : Keeps mk z s) (p v : Nat) (hm : Sub 0x804F7 mk := by exact Sub.of rfl) :
    Keeps mk z (State.quarRelease s p v) := by
  refine hk.within hm ?_
  replace hk : Keeps 0x804F7 s s := .refl _
  unfold State.quarRelease
  repeat' first
    | (extract_lets -descend +onlyGivenNames x0; refine Keeps.cut (m := 0x804F7) (z := s) (v := x0) ?_ (fun h0 => ?_); rotate_left; clear_value x0; rotate_left; dsimp -zeta only [x0]; clear x0)
    | (extract_lets -descend +onlyGivenNames x0; clear_value x0)
    | with_reducible intro _
    | lift_lets
    | with_reducible assumption
    | (with_reducible first | apply State.modPort_keeps | apply State.event_keeps | apply State.rejoin_keeps)
    | (with_reducible refine Keeps.mk0 ?_ ?g; (first | with_reducible assumption | (refine Keeps.snd ?_ (by assumption)) | (refine Keeps.some ?_ (by assumption)) | (with_reducible first | apply State.modPort_keeps | apply State.event_keeps | apply State.rejoin_keeps)); with_reducible case g => exact fun h => Keeps.mk' h)
    | (with_reducible apply Keeps.ite)
    | split
    | (refine Keeps.some ?_ (by assumption))
    | exact Sub.of rfl
    | dsimp only

theorem State.replanPorts_keeps {mk : Nat} {z s : State} (hk : Keeps mk z s) (hm : Sub 0x804F7 mk := by exact Sub.of rfl) :
    Keeps mk z (State.replanPorts s) := by
  refine hk.within hm ?_
  replace hk : Keeps 0x804F7 s s := .refl _
  unfold State.replanPorts
  repeat' first
    | (extract_lets -descend +onlyGivenNames x0; refine Keeps.cut (m := 0x804F7) (z := s) (v := x0) ?_ (fun h0 => ?_); rotate_left; clear_value x0; rotate_left; dsimp -zeta only [x0]; clear x0)
    | (extract_lets -descend +onlyGivenNames x0; clear_value x0)
    | with_reducible intro _
    | lift_lets
    | with_reducible assumption
    | (with_reducible first | apply State.modPort_keeps | apply State.rejoin_keeps | apply State.judge_keeps)
    | (with_reducible refine Keeps.mk0 ?_ ?g; (first | with_reducible assumption | (refine Keeps.snd ?_ (by assumption)) | (refine Keeps.some ?_ (by assumption)) | (with_reducible first | apply State.modPort_keeps | apply State.rejoin_keeps | apply State.judge_keeps)); with_reducible case g => exact fun h => Keeps.mk' h)
    | (with_reducible apply Keeps.ite)
    | (with_reducible apply Keeps.foldl)
    | split
    | exact Sub.of rfl
    | dsimp only

theorem State.budgetRefill_keeps {mk : Nat} {z s : State} (hk : Keeps mk z s) (hm : Sub 0x2000 mk := by exact Sub.of rfl) :
    Keeps mk z (State.budgetRefill s) := by
  refine hk.within hm ?_
  replace hk : Keeps 0x2000 s s := .refl _
  unfold State.budgetRefill
  repeat' first
    | with_reducible assumption
    | (with_reducible refine Keeps.mk0 ?_ ?g; (first | with_reducible assumption | (refine Keeps.snd ?_ (by assumption)) | (refine Keeps.some ?_ (by assumption))); with_reducible case g => exact fun h => Keeps.mk' h)
    | exact Sub.of rfl
    | dsimp only

theorem State.setKeeper_keeps {mk : Nat} {z s : State} (hk : Keeps mk z s) (on : Bool) (hm : Sub 0x2400 mk := by exact Sub.of rfl) :
    Keeps mk z (State.setKeeper s on) := by
  refine hk.within hm ?_
  replace hk : Keeps 0x2400 s s := .refl _
  unfold State.setKeeper
  repeat' first
    | (extract_lets -descend +onlyGivenNames x0; refine Keeps.cut (m := 0x2400) (z := s) (v := x0) ?_ (fun h0 => ?_); rotate_left; clear_value x0; rotate_left; dsimp -zeta only [x0]; clear x0)
    | (extract_lets -descend +onlyGivenNames x0; clear_value x0)
    | lift_lets
    | with_reducible assumption
    | with_reducible apply State.budgetRefill_keeps
    | (with_reducible refine Keeps.mk0 ?_ ?g; (first | with_reducible assumption | (refine Keeps.snd ?_ (by assumption)) | (refine Keeps.some ?_ (by assumption)) | (with_reducible first | apply State.budgetRefill_keeps)); with_reducible case g => exact fun h => Keeps.mk' h)
    | (with_reducible apply Keeps.ite)
    | split
    | exact Sub.of rfl
    | dsimp only

theorem State.planRoles_keeps {mk : Nat} {z s : State} (hk : Keeps mk z s) (p : Plan) (hm : Sub 0x11EE7F7 mk := by exact Sub.of rfl) :
    Keeps mk z (State.planRoles s p) := by
  refine hk.within hm ?_
  replace hk : Keeps 0x11EE7F7 s s := .refl _
  unfold State.planRoles
  repeat' first
    | (extract_lets -descend +onlyGivenNames x0; refine Keeps.cut (m := 0x11EE7F7) (z := s) (v := x0) ?_ (fun h0 => ?_); rotate_left; clear_value x0; rotate_left; dsimp -zeta only [x0]; clear x0)
    | (extract_lets -descend +onlyGivenNames x0; clear_value x0)
    | with_reducible intro _
    | lift_lets
    | with_reducible assumption
    | (with_reducible first | apply State.wr_keeps | apply State.pwr_keeps | apply State.timeTree_keeps | apply State.replanPorts_keeps | apply State.setKeeper_keeps)
    | (with_reducible refine Keeps.mk0 ?_ ?g; (first | with_reducible assumption | (refine Keeps.snd ?_ (by assumption)) | (refine Keeps.some ?_ (by assumption)) | (with_reducible first | apply State.wr_keeps | apply State.pwr_keeps | apply State.timeTree_keeps | apply State.replanPorts_keeps | apply State.setKeeper_keeps)); with_reducible case g => exact fun h => Keeps.mk' h)
    | (with_reducible apply Keeps.ite)
    | (with_reducible apply Keeps.foldl)
    | split
    | (refine Keeps.some ?_ (by assumption))
    | exact Sub.of rfl
    | dsimp only

theorem State.sendLeafParts_keeps {mk : Nat} {z s : State} (hk : Keeps mk z s) (p : Plan) (hm : Sub 0x80471 mk := by exact Sub.of rfl) :
    Keeps mk z (State.sendLeafParts s p) := by
  refine hk.within hm ?_
  replace hk : Keeps 0x80471 s s := .refl _
  unfold State.sendLeafParts
  repeat' first
    | with_reducible intro _
    | with_reducible assumption
    | with_reducible apply State.sendLocal_keeps
    | (with_reducible apply Keeps.ite)
    | (with_reducible apply Keeps.foldl)
    | split
    | exact Sub.of rfl
    | dsimp only

theorem State.takePlan_keeps {mk : Nat} {z s : State} (hk : Keeps mk z s) (p : Plan) (hm : Sub 0x11EE7F7 mk := by exact Sub.of rfl) :
    Keeps mk z (State.takePlan s p).2 := by
  refine hk.within hm ?_
  replace hk : Keeps 0x11EE7F7 s s := .refl _
  unfold State.takePlan
  repeat' first
    | (extract_lets -descend +onlyGivenNames x0; refine Keeps.cut (m := 0x11EE7F7) (z := s) (v := x0) ?_ (fun h0 => ?_); rotate_left; clear_value x0; rotate_left; dsimp -zeta only [x0]; clear x0)
    | (extract_lets -descend +onlyGivenNames x0; clear_value x0)
    | with_reducible intro _
    | lift_lets
    | with_reducible assumption
    | (with_reducible first | apply State.wr_keeps | apply State.irq_keeps | apply State.event_keeps | apply State.planRoles_keeps | apply State.sendLeafParts_keeps)
    | (with_reducible refine Keeps.mk0 ?_ ?g; (first | with_reducible assumption | (refine Keeps.snd ?_ (by assumption)) | (refine Keeps.some ?_ (by assumption)) | (with_reducible first | apply State.wr_keeps | apply State.irq_keeps | apply State.event_keeps | apply State.planRoles_keeps | apply State.sendLeafParts_keeps)); with_reducible case g => exact fun h => Keeps.mk' h)
    | (with_reducible apply Keeps.ite)
    | split
    | exact Sub.of rfl
    | dsimp only

theorem State.writeDescr_keeps {mk : Nat} {z s : State} (hk : Keeps mk z s) (i : Nat) (e : Entry) (hm : Sub 0x1 mk := by exact Sub.of rfl) :
    Keeps mk z (State.writeDescr s i e) := by
  refine hk.within hm ?_
  replace hk : Keeps 0x1 s s := .refl _
  unfold State.writeDescr
  repeat' first
    | (extract_lets -descend +onlyGivenNames x0; refine Keeps.cut (m := 0x1) (z := s) (v := x0) ?_ (fun h0 => ?_); rotate_left; clear_value x0; rotate_left; dsimp -zeta only [x0]; clear x0)
    | (extract_lets -descend +onlyGivenNames x0; clear_value x0)
    | with_reducible intro _
    | lift_lets
    | with_reducible assumption
    | with_reducible apply State.wr_keeps
    | (with_reducible apply Keeps.ite)
    | (with_reducible apply Keeps.foldl)
    | split
    | exact Sub.of rfl
    | dsimp only

theorem State.clearSlotRegs_keeps {mk : Nat} {z s : State} (h : Keeps mk z s) (i : Nat) (hm : Sub 0x1 mk := by exact Sub.of rfl) :
    Keeps mk z (State.clearSlotRegs s i) := by
  refine h.within hm ?_
  replace h : Keeps 0x1 s s := .refl _
  exact h.regsOf _ (fun w => regWf_filter _ _ w)

theorem State.showAdopted_keeps {mk : Nat} {z s : State} (hk : Keeps mk z s) (hm : Sub 0x21 mk := by exact Sub.of rfl) :
    Keeps mk z (State.showAdopted s) := by
  refine hk.within hm ?_
  replace hk : Keeps 0x21 s s := .refl _
  unfold State.showAdopted
  repeat' first
    | (extract_lets -descend +onlyGivenNames x0; refine Keeps.cut (m := 0x21) (z := s) (v := x0) ?_ (fun h0 => ?_); rotate_left; clear_value x0; rotate_left; dsimp -zeta only [x0]; clear x0)
    | (extract_lets -descend +onlyGivenNames x0; clear_value x0)
    | with_reducible intro _
    | lift_lets
    | with_reducible assumption
    | with_reducible apply State.wr_keeps
    | (with_reducible refine Keeps.mk0 ?_ ?g; (first | with_reducible assumption | (refine Keeps.snd ?_ (by assumption)) | (refine Keeps.some ?_ (by assumption)) | (with_reducible first | apply State.wr_keeps)); with_reducible case g => exact fun h => Keeps.mk' h)
    | exact Sub.of rfl
    | dsimp only

theorem State.applyPlan_keeps {mk : Nat} {z s : State} (hk : Keeps mk z s) (p : Plan) (hm : Sub 0x423 mk := by exact Sub.of rfl) :
    Keeps mk z (State.applyPlan s p) := by
  refine hk.within hm ?_
  replace hk : Keeps 0x423 s s := .refl _
  unfold State.applyPlan
  repeat' first
    | (extract_lets -descend +onlyGivenNames x0; refine Keeps.cut (m := 0x423) (z := s) (v := x0) ?_ (fun h0 => ?_); rotate_left; clear_value x0; rotate_left; dsimp -zeta only [x0]; clear x0)
    | (extract_lets -descend +onlyGivenNames x0; clear_value x0)
    | with_reducible intro _
    | lift_lets
    | with_reducible assumption
    | (with_reducible first | apply State.wr_keeps | apply State.irq_keeps | apply State.writeDescr_keeps | apply State.clearSlotRegs_keeps | apply State.showAdopted_keeps)
    | (with_reducible refine Keeps.mk0 ?_ ?g; (first | with_reducible assumption | (refine Keeps.snd ?_ (by assumption)) | (refine Keeps.some ?_ (by assumption)) | (with_reducible first | apply State.wr_keeps | apply State.irq_keeps | apply State.writeDescr_keeps | apply State.clearSlotRegs_keeps | apply State.showAdopted_keeps)); with_reducible case g => exact fun h => Keeps.mk' h)
    | (with_reducible apply Keeps.ite)
    | (with_reducible apply Keeps.foldl)
    | split
    | (refine Keeps.some ?_ (by assumption))
    | exact Sub.of rfl
    | dsimp only

theorem State.planAged_keeps {mk : Nat} {z s : State} (hk : Keeps mk z s) (num : Nat) (hm : Sub 0x400 mk := by exact Sub.of rfl) :
    Keeps mk z (State.planAged s num) := by
  refine hk.within hm ?_
  replace hk : Keeps 0x400 s s := .refl _
  unfold State.planAged
  repeat' first
    | with_reducible assumption
    | (with_reducible refine Keeps.mk0 ?_ ?g; (first | with_reducible assumption | (refine Keeps.snd ?_ (by assumption)) | (refine Keeps.some ?_ (by assumption))); with_reducible case g => exact fun h => Keeps.mk' h)
    | (with_reducible apply Keeps.ite)
    | split
    | (refine Keeps.some ?_ (by assumption))
    | exact Sub.of rfl
    | dsimp only

theorem State.planAtCut_keeps {mk : Nat} {z s : State} (hk : Keeps mk z s) (num : Nat) (hm : Sub 0x423 mk := by exact Sub.of rfl) :
    Keeps mk z (State.planAtCut s num) := by
  refine hk.within hm ?_
  replace hk : Keeps 0x423 s s := .refl _
  unfold State.planAtCut
  repeat' first
    | with_reducible assumption
    | (with_reducible first | apply State.applyPlan_keeps | apply State.planAged_keeps)
    | (with_reducible apply Keeps.ite)
    | split
    | (refine Keeps.some ?_ (by assumption))
    | exact Sub.of rfl
    | dsimp only

theorem execPlanRecordReceived_keeps {mk : Nat} {z s : State} (hk : Keeps mk z s) (rec : Rec) (hm : Sub 0x11EE7F7 mk := by exact Sub.of rfl) :
    KeepsR mk z (execPlanRecordReceived rec s) := by
  refine KeepsR.within hk hm ?_
  replace hk : Keeps 0x11EE7F7 s s := .refl _
  unfold execPlanRecordReceived
  repeat' first
    | with_reducible assumption
    | (with_reducible first | apply KeepsR.present | apply KeepsR.next | exact KeepsR.fault | apply present_keeps | apply State.takePlan_keeps)
    | (with_reducible apply Keeps.ite)
    | split
    | (refine Keeps.some ?_ (by assumption))
    | exact Sub.of rfl
    | dsimp only

end Sys2Proof.Machine
end

