-- ==== Sys2Proof/Laws/KeepsEth.lean ====
section
/-! SUPPORT. What the operations of Machine/Eth.lean keep. -/

set_option Elab.async false

namespace Sys2Proof.Machine

theorem State.ethOut_keeps {mk : Nat} {z s : State} (hk : Keeps mk z s) (kind e : Nat) (tc : Option Nat) (payload : List Byte) (hm : Sub 0x40000 mk := by exact Sub.of rfl) :
    Keeps mk z (State.ethOut s kind e tc payload) := by
  refine hk.within hm ?_
  replace hk : Keeps 0x40000 s s := .refl _
  unfold State.ethOut
  repeat' first
    | with_reducible assumption
    | with_reducible apply State.sendFrame_keeps
    | exact Sub.of rfl
    | dsimp only

theorem State.pubOne_keeps {mk : Nat} {z s : State} (hk : Keeps mk z s) (e : Nat) (x : PubItem) (hm : Sub 0x42020 mk := by exact Sub.of rfl) :
    Keeps mk z (State.pubOne s e x) := by
  refine hk.within hm ?_
  replace hk : Keeps 0x42020 s s := .refl _
  unfold State.pubOne
  repeat' first
    | (extract_lets -descend +onlyGivenNames x0; refine Keeps.cut (m := 0x42020) (z := s) (v := x0) ?_ (fun h0 => ?_); rotate_left; clear_value x0; rotate_left; dsimp -zeta only [x0]; clear x0)
    | (extract_lets -descend +onlyGivenNames x0; clear_value x0)
    | with_reducible intro _
    | lift_lets
    | with_reducible assumption
    | (with_reducible first | apply State.charge_keeps | apply State.modSess_keeps | apply State.ethOut_keeps)
    | (with_reducible refine Keeps.mk0 ?_ ?g; (first | with_reducible assumption | (refine Keeps.snd ?_ (by assumption)) | (refine Keeps.some ?_ (by assumption)) | (with_reducible first | apply State.charge_keeps | apply State.modSess_keeps | apply State.ethOut_keeps)); with_reducible case g => exact fun h => Keeps.mk' h)
    | (with_reducible apply Keeps.ite)
    | split
    | exact Sub.of rfl
    | dsimp only

theorem State.pubPump_keepsAux {z s : State} (hk : Keeps 0xC2020 z s) (n : Nat) (a0 : Nat) : Keeps 0xC2020 z (State.pubPump n a0 s) := by
  induction n generalizing a0 s with
  | zero => exact hk
  | succ n ih =>
    unfold State.pubPump
    repeat' first
      | (extract_lets -descend +onlyGivenNames x0; refine Keeps.cut (m := 0xC2020) (z := z) (v := x0) ?_ (fun h0 => ?_); rotate_left; clear_value x0; rotate_left; dsimp -zeta only [x0]; clear x0)
      | (extract_lets -descend +onlyGivenNames x0; clear_value x0)
      | lift_lets
      | with_reducible assumption
      | (with_reducible first | apply ih | apply State.wake_keeps | apply State.pubOne_keeps)
      | (with_reducible apply Keeps.ite)
      | split
      | (refine Keeps.some ?_ (by assumption))
      | exact Sub.of rfl
      | dsimp only

theorem State.pubPump_keeps {mk : Nat} {z s : State} (h : Keeps mk z s) (n : Nat) (a0 : Nat) (hm : Sub 0xC2020 mk := by exact Sub.of rfl) : Keeps mk z (State.pubPump n a0 s) :=
  h.within hm (State.pubPump_keepsAux (.refl _) n a0)

theorem State.pump_keeps {mk : Nat} {z s : State} (hk : Keeps mk z s) (e : Nat) (hm : Sub 0xC2020 mk := by exact Sub.of rfl) :
    Keeps mk z (State.pump s e) := by
  refine hk.within hm ?_
  replace hk : Keeps 0xC2020 s s := .refl _
  unfold State.pump
  repeat' first
    | with_reducible assumption
    | with_reducible apply State.pubPump_keeps
    | exact Sub.of rfl
    | dsimp only

theorem State.pumpPort_keeps {mk : Nat} {z s : State} (hk : Keeps mk z s) (p : Nat) (hm : Sub 0xC2020 mk := by exact Sub.of rfl) :
    Keeps mk z (State.pumpPort s p) := by
  refine hk.within hm ?_
  replace hk : Keeps 0xC2020 s s := .refl _
  unfold State.pumpPort
  repeat' first
    | with_reducible intro _
    | with_reducible assumption
    | with_reducible apply State.pump_keeps
    | (with_reducible apply Keeps.ite)
    | (with_reducible apply Keeps.foldl)
    | split
    | exact Sub.of rfl
    | dsimp only

theorem State.pubAdd_keeps {mk : Nat} {z s : State} (hk : Keeps mk z s) (x : PubItem) (hm : Sub 0xC2021 mk := by exact Sub.of rfl) :
    Keeps mk z (State.pubAdd s x) := by
  refine hk.within hm ?_
  replace hk : Keeps 0xC2021 s s := .refl _
  unfold State.pubAdd
  repeat' first
    | (extract_lets -descend +onlyGivenNames x0; refine Keeps.cut (m := 0xC2021) (z := s) (v := x0) ?_ (fun h0 => ?_); rotate_left; clear_value x0; rotate_left; dsimp -zeta only [x0]; clear x0)
    | (extract_lets -descend +onlyGivenNames x0; clear_value x0)
    | with_reducible intro _
    | lift_lets
    | with_reducible assumption
    | (with_reducible first | apply State.store_keeps | apply State.modPub_keeps | apply State.modSess_keeps | apply State.pump_keeps)
    | (with_reducible refine Keeps.mk0 ?_ ?g; (first | with_reducible assumption | (refine Keeps.snd ?_ (by assumption)) | (refine Keeps.some ?_ (by assumption)) | (with_reducible first | apply State.store_keeps | apply State.modPub_keeps | apply State.modSess_keeps | apply State.pump_keeps)); with_reducible case g => exact fun h => Keeps.mk' h)
    | (with_reducible apply Keeps.foldl)
    | exact Sub.of rfl
    | dsimp only

theorem State.peerSend_keeps {mk : Nat} {z s : State} (hk : Keeps mk z s) (p uid : Nat) (r : Rec) (hm : Sub 0xC2021 mk := by exact Sub.of rfl) :
    Keeps mk z (State.peerSend s p uid r) := by
  refine hk.within hm ?_
  replace hk : Keeps 0xC2021 s s := .refl _
  unfold State.peerSend
  repeat' first
    | with_reducible assumption
    | with_reducible apply State.pubAdd_keeps
    | split
    | (refine Keeps.some ?_ (by assumption))
    | exact Sub.of rfl
    | dsimp only

theorem State.pubLast_keeps {mk : Nat} {z s : State} (hk : Keeps mk z s) (r : Rec) (hm : Sub 0x40000 mk := by exact Sub.of rfl) :
    Keeps mk z (State.pubLast s r) := by
  refine hk.within hm ?_
  replace hk : Keeps 0x40000 s s := .refl _
  unfold State.pubLast
  repeat' first
    | with_reducible intro _
    | with_reducible assumption
    | with_reducible apply State.modPub_keeps
    | (with_reducible refine Keeps.mk0 ?_ ?g; (first | with_reducible assumption | (refine Keeps.snd ?_ (by assumption)) | (refine Keeps.some ?_ (by assumption)) | (with_reducible first | apply State.modPub_keeps)); with_reducible case g => exact fun h => Keeps.mk' h)
    | (with_reducible apply Keeps.ite)
    | split
    | exact Sub.of rfl
    | dsimp only

theorem State.ctxAcked_keeps {mk : Nat} {z s : State} (hk : Keeps mk z s) (r : Rec) (hm : Sub 0x40001 mk := by exact Sub.of rfl) :
    Keeps mk z (State.ctxAcked s r) := by
  refine hk.within hm ?_
  replace hk : Keeps 0x40001 s s := .refl _
  unfold State.ctxAcked
  repeat' first
    | (extract_lets -descend +onlyGivenNames x0; refine Keeps.cut (m := 0x40001) (z := s) (v := x0) ?_ (fun h0 => ?_); rotate_left; clear_value x0; rotate_left; dsimp -zeta only [x0]; clear x0)
    | (extract_lets -descend +onlyGivenNames x0; clear_value x0)
    | with_reducible intro _
    | lift_lets
    | with_reducible assumption
    | (with_reducible first | apply State.store_keeps | apply State.modPub_keeps | apply State.pubLast_keeps)
    | (with_reducible apply Keeps.ite)
    | split
    | exact Sub.of rfl
    | dsimp only

theorem State.pubSettle_keeps {mk : Nat} {z s : State} (hk : Keeps mk z s) (e uid : Nat) (hm : Sub 0xC04F7 mk := by exact Sub.of rfl) :
    Keeps mk z (State.pubSettle s e uid) := by
  refine hk.within hm ?_
  replace hk : Keeps 0xC04F7 s s := .refl _
  unfold State.pubSettle
  repeat' first
    | (extract_lets -descend +onlyGivenNames x0; refine Keeps.cut (m := 0xC04F7) (z := s) (v := x0) ?_ (fun h0 => ?_); rotate_left; clear_value x0; rotate_left; dsimp -zeta only [x0]; clear x0)
    | (extract_lets -descend +onlyGivenNames x0; clear_value x0)
    | with_reducible intro _
    | lift_lets
    | with_reducible assumption
    | (with_reducible first | apply State.fateDelivered_keeps | apply State.store_keeps | apply State.bcastAcked_keeps | apply State.modPub_keeps | apply State.ctxAcked_keeps)
    | (with_reducible refine Keeps.mk0 ?_ ?g; (first | with_reducible assumption | (refine Keeps.snd ?_ (by assumption)) | (refine Keeps.some ?_ (by assumption)) | (with_reducible first | apply State.fateDelivered_keeps | apply State.store_keeps | apply State.bcastAcked_keeps | apply State.modPub_keeps | apply State.ctxAcked_keeps)); with_reducible case g => exact fun h => Keeps.mk' h)
    | (with_reducible apply Keeps.ite)
    | split
    | (refine Keeps.some ?_ (by assumption))
    | exact Sub.of rfl
    | dsimp only

theorem State.pubAdvance_keeps {mk : Nat} {z s : State} (hk : Keeps mk z s) (e ack : Nat) (hm : Sub 0xC24F7 mk := by exact Sub.of rfl) :
    Keeps mk z (State.pubAdvance s e ack) := by
  refine hk.within hm ?_
  replace hk : Keeps 0xC24F7 s s := .refl _
  unfold State.pubAdvance
  repeat' first
    | (extract_lets -descend +onlyGivenNames x0; refine Keeps.cut (m := 0xC24F7) (z := s) (v := x0) ?_ (fun h0 => ?_); rotate_left; clear_value x0; rotate_left; dsimp -zeta only [x0]; clear x0)
    | (extract_lets -descend +onlyGivenNames x0; clear_value x0)
    | with_reducible intro _
    | lift_lets
    | with_reducible assumption
    | (with_reducible first | apply State.modSess_keeps | apply State.pump_keeps | apply State.pubSettle_keeps)
    | (with_reducible refine Keeps.mk0 ?_ ?g; (first | with_reducible assumption | (refine Keeps.snd ?_ (by assumption)) | (refine Keeps.some ?_ (by assumption)) | (with_reducible first | apply State.modSess_keeps | apply State.pump_keeps | apply State.pubSettle_keeps)); with_reducible case g => exact fun h => Keeps.mk' h)
    | (with_reducible apply Keeps.foldl)
    | exact Sub.of rfl
    | dsimp only

theorem State.pubForget_keeps {mk : Nat} {z s : State} (hk : Keeps mk z s) (e : Nat) (hm : Sub 0xC04F7 mk := by exact Sub.of rfl) :
    Keeps mk z (State.pubForget s e) := by
  refine hk.within hm ?_
  replace hk : Keeps 0xC04F7 s s := .refl _
  unfold State.pubForget
  repeat' first
    | (extract_lets -descend +onlyGivenNames x0; refine Keeps.cut (m := 0xC04F7) (z := s) (v := x0) ?_ (fun h0 => ?_); rotate_left; clear_value x0; rotate_left; dsimp -zeta only [x0]; clear x0)
    | (extract_lets -descend +onlyGivenNames x0; clear_value x0)
    | with_reducible intro _
    | lift_lets
    | with_reducible assumption
    | (with_reducible first | apply State.fateLost_keeps | apply State.store_keeps | apply State.modPub_keeps | apply State.ctxAcked_keeps)
    | (with_reducible refine Keeps.mk0 ?_ ?g; (first | with_reducible assumption | (refine Keeps.snd ?_ (by assumption)) | (refine Keeps.some ?_ (by assumption)) | (with_reducible first | apply State.fateLost_keeps | apply State.store_keeps | apply State.modPub_keeps | apply State.ctxAcked_keeps)); with_reducible case g => exact fun h => Keeps.mk' h)
    | (with_reducible apply Keeps.ite)
    | (with_reducible apply Keeps.foldl)
    | split
    | exact Sub.of rfl
    | dsimp only

end Sys2Proof.Machine
end

