-- ==== Sys2Proof/Laws/KeepsSampling.lean ====
section
/-! SUPPORT. What the operations of Machine/Sampling.lean keep. -/

set_option Elab.async false

namespace Sys2Proof.Machine

theorem State.setCtr_keeps {mk : Nat} {z s : State} (hk : Keeps mk z s) (n v : Nat) (hm : Sub 0x100 mk := by exact Sub.of rfl) :
    Keeps mk z (State.setCtr s n v) := by
  refine hk.within hm ?_
  replace hk : Keeps 0x100 s s := .refl _
  unfold State.setCtr
  repeat' first
    | with_reducible assumption
    | (with_reducible refine Keeps.mk0 ?_ ?g; (first | with_reducible assumption | (refine Keeps.snd ?_ (by assumption)) | (refine Keeps.some ?_ (by assumption))); with_reducible case g => exact fun h => Keeps.mk' h)
    | (with_reducible apply Keeps.ite)
    | split
    | exact Sub.of rfl
    | dsimp only

theorem State.addCtr_keeps {mk : Nat} {z s : State} (hk : Keeps mk z s) (n d : Nat) (hm : Sub 0x103 mk := by exact Sub.of rfl) :
    Keeps mk z (State.addCtr s n d) := by
  refine hk.within hm ?_
  replace hk : Keeps 0x103 s s := .refl _
  unfold State.addCtr
  repeat' first
    | (extract_lets -descend +onlyGivenNames x0; refine Keeps.cut (m := 0x103) (z := s) (v := x0) ?_ (fun h0 => ?_); rotate_left; clear_value x0; rotate_left; dsimp -zeta only [x0]; clear x0)
    | (extract_lets -descend +onlyGivenNames x0; clear_value x0)
    | lift_lets
    | with_reducible assumption
    | (with_reducible first | apply State.wr_keeps | apply State.irq_keeps | apply State.setCtr_keeps)
    | (with_reducible apply Keeps.ite)
    | split
    | exact Sub.of rfl
    | dsimp only

theorem State.countSrc_keeps {mk : Nat} {z s : State} (hk : Keeps mk z s) (src amount : Nat) (hm : Sub 0x103 mk := by exact Sub.of rfl) :
    Keeps mk z (State.countSrc s src amount) := by
  refine hk.within hm ?_
  replace hk : Keeps 0x103 s s := .refl _
  unfold State.countSrc
  repeat' first
    | with_reducible intro _
    | with_reducible assumption
    | with_reducible apply State.addCtr_keeps
    | (with_reducible apply Keeps.ite)
    | (with_reducible apply Keeps.foldl)
    | split
    | exact Sub.of rfl
    | dsimp only

theorem State.applyCfg_keeps {mk : Nat} {z s : State} (hk : Keeps mk z s) (hm : Sub 0x100 mk := by exact Sub.of rfl) :
    Keeps mk z (State.applyCfg s) := by
  refine hk.within hm ?_
  replace hk : Keeps 0x100 s s := .refl _
  unfold State.applyCfg
  repeat' first
    | with_reducible assumption
    | (with_reducible refine Keeps.mk0 ?_ ?g; (first | with_reducible assumption | (refine Keeps.snd ?_ (by assumption)) | (refine Keeps.some ?_ (by assumption))); with_reducible case g => exact fun h => Keeps.mk' h)
    | (with_reducible apply Keeps.ite)
    | split
    | exact Sub.of rfl
    | dsimp only

theorem execCtrCfgApply_keeps {mk : Nat} {z s : State} (hk : Keeps mk z s) (hm : Sub 0x100 mk := by exact Sub.of rfl) :
    KeepsR mk z (execCtrCfgApply s) := by
  refine KeepsR.within hk hm ?_
  replace hk : Keeps 0x100 s s := .refl _
  unfold execCtrCfgApply
  repeat' first
    | with_reducible assumption
    | (with_reducible first | apply KeepsR.present | apply KeepsR.next | exact KeepsR.fault | apply State.applyCfg_keeps)
    | (with_reducible apply Keeps.ite)
    | split
    | exact Sub.of rfl
    | dsimp only

theorem State.ctrCfgWrite_keeps {mk : Nat} {z s : State} (hk : Keeps mk z s) (n v : Nat) (hm : Sub 0x101 mk := by exact Sub.of rfl) :
    Keeps mk z (State.ctrCfgWrite s n v) := by
  refine hk.within hm ?_
  replace hk : Keeps 0x101 s s := .refl _
  unfold State.ctrCfgWrite
  repeat' first
    | (extract_lets -descend +onlyGivenNames x0; refine Keeps.cut (m := 0x101) (z := s) (v := x0) ?_ (fun h0 => ?_); rotate_left; clear_value x0; rotate_left; dsimp -zeta only [x0]; clear x0)
    | (extract_lets -descend +onlyGivenNames x0; first
        | ((with_reducible first | have _w : LinkSt := x0 | have _w : TimeSt := x0 | have _w : PowerSt := x0 | have _w : SampSt := x0 | have _w : FwSt := x0 | have _w : AuthSt := x0 | have _w : PulseSt := x0 | have _w : CoreSt := x0); clear _w; dsimp -zeta only [x0]; clear x0)
        | clear_value x0)
    | with_reducible intro _
    | lift_lets
    | with_reducible assumption
    | (with_reducible first | apply KeepsR.present | apply KeepsR.next | exact KeepsR.fault | exact KeepsO.none | apply KeepsO.some | apply State.wr_keeps)
    | (with_reducible refine State.modRegion_keeps ?_ _ _ (fun _ w => w))
    | (with_reducible refine State.modFw_keeps ?_ _ ⟨rfl, rfl⟩)
    | (with_reducible refine State.modAuth_keeps ?_ _ ⟨rfl, rfl⟩)
    | (with_reducible refine Keeps.mk0 ?_ ?g; (first | with_reducible assumption | (refine Keeps.snd ?_ (by assumption)) | (refine Keeps.some ?_ (by assumption)) | (with_reducible first | apply State.wr_keeps)); with_reducible case g => exact fun h => Keeps.mk' h)
    | (with_reducible apply Keeps.ite)
    | (with_reducible apply Keeps.foldl)
    | (with_reducible apply Keeps.foldlSnd)
    | (with_reducible apply Keeps.foldlFst)
    | split
    | (refine Keeps.some ?_ (by assumption))
    | (refine Keeps.snd ?_ (by assumption))
    | exact Sub.of rfl
    | dsimp only

theorem State.modSensor_keeps {mk : Nat} {z s : State} (h : Keeps mk z s) (n : Nat) (f : Sensor → Sensor) (hm : Sub 0x100 mk := by exact Sub.of rfl) :
    Keeps mk z (State.modSensor s n f) := by
  refine h.within hm ?_
  replace h : Keeps 0x100 s s := .refl _
  exact h.mk' ⟨rfl, rfl, rfl, modNth_length _ _ _, rfl, rfl, rfl, rfl⟩

theorem State.sensorReading_keeps {mk : Nat} {z s : State} (hk : Keeps mk z s) (sns value : Nat) (faulty : Bool) (count : Nat) (hm : Sub 0x103 mk := by exact Sub.of rfl) :
    Keeps mk z (State.sensorReading s sns value faulty count) := by
  refine hk.within hm ?_
  replace hk : Keeps 0x103 s s := .refl _
  unfold State.sensorReading
  repeat' first
    | (extract_lets -descend +onlyGivenNames x0; refine Keeps.cut (m := 0x103) (z := s) (v := x0) ?_ (fun h0 => ?_); rotate_left; clear_value x0; rotate_left; dsimp -zeta only [x0]; clear x0)
    | (extract_lets -descend +onlyGivenNames x0; clear_value x0)
    | with_reducible intro _
    | lift_lets
    | with_reducible assumption
    | (with_reducible first | apply State.irq_keeps | apply State.countSrc_keeps | apply State.modSensor_keeps)
    | (with_reducible refine Keeps.mk0 ?_ ?g; (first | with_reducible assumption | (refine Keeps.snd ?_ (by assumption)) | (refine Keeps.some ?_ (by assumption)) | (with_reducible first | apply State.irq_keeps | apply State.countSrc_keeps | apply State.modSensor_keeps)); with_reducible case g => exact fun h => Keeps.mk' h)
    | (with_reducible apply Keeps.ite)
    | split
    | exact Sub.of rfl
    | dsimp only

theorem State.trigSeen_keeps {mk : Nat} {z s : State} (hk : Keeps mk z s) (t : Nat) (hm : Sub 0x103 mk := by exact Sub.of rfl) :
    Keeps mk z (State.trigSeen s t) := by
  refine hk.within hm ?_
  replace hk : Keeps 0x103 s s := .refl _
  unfold State.trigSeen
  repeat' first
    | with_reducible assumption
    | (with_reducible first | apply State.wr_keeps | apply State.countSrc_keeps)
    | exact Sub.of rfl
    | dsimp only

theorem State.clWrite_keeps {mk : Nat} {z s : State} (hk : Keeps mk z s) (e : LatchEnt) (hm : Sub 0x103 mk := by exact Sub.of rfl) :
    Keeps mk z (State.clWrite s e) := by
  refine hk.within hm ?_
  replace hk : Keeps 0x103 s s := .refl _
  unfold State.clWrite
  repeat' first
    | (extract_lets -descend +onlyGivenNames x0; refine Keeps.cut (m := 0x103) (z := s) (v := x0) ?_ (fun h0 => ?_); rotate_left; clear_value x0; rotate_left; dsimp -zeta only [x0]; clear x0)
    | (extract_lets -descend +onlyGivenNames x0; clear_value x0)
    | lift_lets
    | with_reducible assumption
    | (with_reducible first | apply State.bumpSat_keeps | apply State.irq_keeps)
    | (with_reducible refine Keeps.mk0 ?_ ?g; (first | with_reducible assumption | (refine Keeps.snd ?_ (by assumption)) | (refine Keeps.some ?_ (by assumption)) | (with_reducible first | apply State.bumpSat_keeps | apply State.irq_keeps)); with_reducible case g => exact fun h => Keeps.mk' h)
    | (with_reducible apply Keeps.ite)
    | split
    | exact Sub.of rfl
    | dsimp only

theorem State.cmdClose_keeps {mk : Nat} {z s : State} (hk : Keeps mk z s) (c flags : Nat) (hm : Sub 0x103 mk := by exact Sub.of rfl) :
    Keeps mk z (State.cmdClose s c flags) := by
  refine hk.within hm ?_
  replace hk : Keeps 0x103 s s := .refl _
  unfold State.cmdClose
  repeat' first
    | (extract_lets -descend +onlyGivenNames x0; refine Keeps.cut (m := 0x103) (z := s) (v := x0) ?_ (fun h0 => ?_); rotate_left; clear_value x0; rotate_left; dsimp -zeta only [x0]; clear x0)
    | (extract_lets -descend +onlyGivenNames x0; first
        | ((with_reducible first | have _w : LinkSt := x0 | have _w : TimeSt := x0 | have _w : PowerSt := x0 | have _w : SampSt := x0 | have _w : FwSt := x0 | have _w : AuthSt := x0 | have _w : PulseSt := x0 | have _w : CoreSt := x0); clear _w; dsimp -zeta only [x0]; clear x0)
        | clear_value x0)
    | with_reducible intro _
    | lift_lets
    | with_reducible assumption
    | (with_reducible first | apply KeepsR.present | apply KeepsR.next | exact KeepsR.fault | exact KeepsO.none | apply KeepsO.some | apply State.countSrc_keeps | apply State.clWrite_keeps)
    | (with_reducible refine State.modRegion_keeps ?_ _ _ (fun _ w => w))
    | (with_reducible refine State.modFw_keeps ?_ _ ⟨rfl, rfl⟩)
    | (with_reducible refine State.modAuth_keeps ?_ _ ⟨rfl, rfl⟩)
    | (with_reducible refine Keeps.mk0 ?_ ?g; (first | with_reducible assumption | (refine Keeps.snd ?_ (by assumption)) | (refine Keeps.some ?_ (by assumption)) | (with_reducible first | apply State.countSrc_keeps | apply State.clWrite_keeps)); with_reducible case g => exact fun h => Keeps.mk' h)
    | (with_reducible apply Keeps.ite)
    | (with_reducible apply Keeps.foldl)
    | (with_reducible apply Keeps.foldlSnd)
    | (with_reducible apply Keeps.foldlFst)
    | split
    | (refine Keeps.some ?_ (by assumption))
    | (refine Keeps.snd ?_ (by assumption))
    | exact Sub.of rfl
    | dsimp only

theorem State.cmdStart_keeps {mk : Nat} {z s : State} (hk : Keeps mk z s) (c tag : Nat) (hm : Sub 0x100 mk := by exact Sub.of rfl) :
    Keeps mk z (State.cmdStart s c tag) := by
  refine hk.within hm ?_
  replace hk : Keeps 0x100 s s := .refl _
  unfold State.cmdStart
  repeat' first
    | (extract_lets -descend +onlyGivenNames x0; refine Keeps.cut (m := 0x100) (z := s) (v := x0) ?_ (fun h0 => ?_); rotate_left; clear_value x0; rotate_left; dsimp -zeta only [x0]; clear x0)
    | (extract_lets -descend +onlyGivenNames x0; first
        | ((with_reducible first | have _w : LinkSt := x0 | have _w : TimeSt := x0 | have _w : PowerSt := x0 | have _w : SampSt := x0 | have _w : FwSt := x0 | have _w : AuthSt := x0 | have _w : PulseSt := x0 | have _w : CoreSt := x0); clear _w; dsimp -zeta only [x0]; clear x0)
        | clear_value x0)
    | with_reducible intro _
    | lift_lets
    | with_reducible assumption
    | (with_reducible first | apply KeepsR.present | apply KeepsR.next | exact KeepsR.fault | exact KeepsO.none | apply KeepsO.some)
    | (with_reducible refine State.modRegion_keeps ?_ _ _ (fun _ w => w))
    | (with_reducible refine State.modFw_keeps ?_ _ ⟨rfl, rfl⟩)
    | (with_reducible refine State.modAuth_keeps ?_ _ ⟨rfl, rfl⟩)
    | (with_reducible refine Keeps.mk0 ?_ ?g; (first | with_reducible assumption | (refine Keeps.snd ?_ (by assumption)) | (refine Keeps.some ?_ (by assumption))); with_reducible case g => exact fun h => Keeps.mk' h)
    | (with_reducible apply Keeps.ite)
    | (with_reducible apply Keeps.foldl)
    | (with_reducible apply Keeps.foldlSnd)
    | (with_reducible apply Keeps.foldlFst)
    | split
    | (refine Keeps.some ?_ (by assumption))
    | (refine Keeps.snd ?_ (by assumption))
    | exact Sub.of rfl
    | dsimp only

theorem State.cmdNoStart_keeps {mk : Nat} {z s : State} (hk : Keeps mk z s) (c tag : Nat) (hm : Sub 0x103 mk := by exact Sub.of rfl) :
    Keeps mk z (State.cmdNoStart s c tag) := by
  refine hk.within hm ?_
  replace hk : Keeps 0x103 s s := .refl _
  unfold State.cmdNoStart
  repeat' first
    | (extract_lets -descend +onlyGivenNames x0; refine Keeps.cut (m := 0x103) (z := s) (v := x0) ?_ (fun h0 => ?_); rotate_left; clear_value x0; rotate_left; dsimp -zeta only [x0]; clear x0)
    | (extract_lets -descend +onlyGivenNames x0; clear_value x0)
    | with_reducible intro _
    | lift_lets
    | with_reducible assumption
    | (with_reducible first | apply State.countSrc_keeps | apply State.clWrite_keeps)
    | (with_reducible apply Keeps.ite)
    | split
    | exact Sub.of rfl
    | dsimp only

theorem State.thermBoundary_keeps {mk : Nat} {z s : State} (hk : Keeps mk z s) (c : Nat) (hm : Sub 0x100000 mk := by exact Sub.of rfl) :
    Keeps mk z (State.thermBoundary s c) := by
  refine hk.within hm ?_
  replace hk : Keeps 0x100000 s s := .refl _
  unfold State.thermBoundary
  repeat' first
    | with_reducible intro _
    | with_reducible assumption
    | (with_reducible refine Keeps.mk0 ?_ ?g; (first | with_reducible assumption | (refine Keeps.snd ?_ (by assumption)) | (refine Keeps.some ?_ (by assumption))); with_reducible case g => exact fun h => Keeps.mk' h)
    | (with_reducible apply Keeps.ite)
    | (with_reducible apply Keeps.foldl)
    | split
    | exact Sub.of rfl
    | dsimp only

theorem State.boundary_keeps {mk : Nat} {z s : State} (hk : Keeps mk z s) (c : Nat) (start stop : Bool) (tag : Nat) (hm : Sub 0x103 mk := by exact Sub.of rfl) :
    Keeps mk z (State.boundary s c start stop tag) := by
  refine hk.within hm ?_
  replace hk : Keeps 0x103 s s := .refl _
  unfold State.boundary
  repeat' first
    | (extract_lets -descend +onlyGivenNames x0; refine Keeps.cut (m := 0x103) (z := s) (v := x0) ?_ (fun h0 => ?_); rotate_left; clear_value x0; rotate_left; dsimp -zeta only [x0]; clear x0)
    | (extract_lets -descend +onlyGivenNames x0; first
        | ((with_reducible first | have _w : LinkSt := x0 | have _w : TimeSt := x0 | have _w : PowerSt := x0 | have _w : SampSt := x0 | have _w : FwSt := x0 | have _w : AuthSt := x0 | have _w : PulseSt := x0 | have _w : CoreSt := x0); clear _w; dsimp -zeta only [x0]; clear x0)
        | clear_value x0)
    | with_reducible intro _
    | lift_lets
    | with_reducible assumption
    | (with_reducible first | apply KeepsR.present | apply KeepsR.next | exact KeepsR.fault | exact KeepsO.none | apply KeepsO.some | apply State.bumpSat_keeps | apply State.irq_keeps | apply State.cmdClose_keeps | apply State.cmdStart_keeps | apply State.cmdNoStart_keeps)
    | (with_reducible refine State.modRegion_keeps ?_ _ _ (fun _ w => w))
    | (with_reducible refine State.modFw_keeps ?_ _ ⟨rfl, rfl⟩)
    | (with_reducible refine State.modAuth_keeps ?_ _ ⟨rfl, rfl⟩)
    | (with_reducible refine Keeps.mk0 ?_ ?g; (first | with_reducible assumption | (refine Keeps.snd ?_ (by assumption)) | (refine Keeps.some ?_ (by assumption)) | (with_reducible first | apply State.bumpSat_keeps | apply State.irq_keeps | apply State.cmdClose_keeps | apply State.cmdStart_keeps | apply State.cmdNoStart_keeps)); with_reducible case g => exact fun h => Keeps.mk' h)
    | (with_reducible apply Keeps.ite)
    | (with_reducible apply Keeps.foldl)
    | (with_reducible apply Keeps.foldlSnd)
    | (with_reducible apply Keeps.foldlFst)
    | split
    | (refine Keeps.some ?_ (by assumption))
    | (refine Keeps.snd ?_ (by assumption))
    | exact Sub.of rfl
    | dsimp only

theorem execLatchEntryEmit_keeps {mk : Nat} {z s : State} (hk : Keeps mk z s) (hm : Sub 0x80575 mk := by exact Sub.of rfl) :
    KeepsR mk z (execLatchEntryEmit s) := by
  refine KeepsR.within hk hm ?_
  replace hk : Keeps 0x80575 s s := .refl _
  unfold execLatchEntryEmit
  repeat' first
    | (extract_lets -descend +onlyGivenNames x0; refine Keeps.cut (m := 0x80575) (z := s) (v := x0) ?_ (fun h0 => ?_); rotate_left; clear_value x0; rotate_left; dsimp -zeta only [x0]; clear x0)
    | (extract_lets -descend +onlyGivenNames x0; first
        | ((with_reducible first | have _w : LinkSt := x0 | have _w : TimeSt := x0 | have _w : PowerSt := x0 | have _w : SampSt := x0 | have _w : FwSt := x0 | have _w : AuthSt := x0 | have _w : PulseSt := x0 | have _w : CoreSt := x0); clear _w; dsimp -zeta only [x0]; clear x0)
        | clear_value x0)
    | with_reducible intro _
    | lift_lets
    | with_reducible assumption
    | (with_reducible first | apply KeepsR.present | apply KeepsR.next | exact KeepsR.fault | exact KeepsO.none | apply KeepsO.some | apply present_keeps | apply State.emitSample_keeps | apply State.originate_keeps)
    | (with_reducible refine State.modRegion_keeps ?_ _ _ (fun _ w => w))
    | (with_reducible refine State.modFw_keeps ?_ _ ⟨rfl, rfl⟩)
    | (with_reducible refine State.modAuth_keeps ?_ _ ⟨rfl, rfl⟩)
    | (with_reducible refine Keeps.mk0 ?_ ?g; (first | with_reducible assumption | (refine Keeps.snd ?_ (by assumption)) | (refine Keeps.some ?_ (by assumption)) | (with_reducible first | apply present_keeps | apply State.emitSample_keeps | apply State.originate_keeps)); with_reducible case g => exact fun h => Keeps.mk' h)
    | (with_reducible apply Keeps.ite)
    | (with_reducible apply Keeps.foldl)
    | (with_reducible apply Keeps.foldlSnd)
    | (with_reducible apply Keeps.foldlFst)
    | split
    | (refine Keeps.some ?_ (by assumption))
    | (refine Keeps.snd ?_ (by assumption))
    | exact Sub.of rfl
    | dsimp only

theorem State.clPop_keeps {mk : Nat} {z s : State} (hk : Keeps mk z s) (v : Nat) (hm : Sub 0x100 mk := by exact Sub.of rfl) :
    Keeps mk z (State.clPop s v) := by
  refine hk.within hm ?_
  replace hk : Keeps 0x100 s s := .refl _
  unfold State.clPop
  repeat' first
    | with_reducible assumption
    | (with_reducible refine Keeps.mk0 ?_ ?g; (first | with_reducible assumption | (refine Keeps.snd ?_ (by assumption)) | (refine Keeps.some ?_ (by assumption))); with_reducible case g => exact fun h => Keeps.mk' h)
    | (with_reducible apply Keeps.ite)
    | split
    | exact Sub.of rfl
    | dsimp only

theorem execClPop_keeps {mk : Nat} {z s : State} (hk : Keeps mk z s) (a : Acc) (data : Word) (hm : Sub 0x805F7 mk := by exact Sub.of rfl) :
    KeepsR mk z (execClPop a data s) := by
  refine KeepsR.within hk hm ?_
  replace hk : Keeps 0x805F7 s s := .refl _
  unfold execClPop
  repeat' first
    | with_reducible intro _
    | with_reducible assumption
    | (with_reducible first | apply KeepsR.present | apply KeepsR.next | exact KeepsR.fault | apply State.guardedWrite_keeps | apply State.clPop_keeps)
    | exact Sub.of rfl
    | dsimp only

theorem State.drawOrder_keeps {mk : Nat} {z s : State} (hk : Keeps mk z s) (n : Nat) (hm : Sub 0x1000000 mk := by exact Sub.of rfl) :
    Keeps mk z (State.drawOrder s n).2 := by
  refine hk.within hm ?_
  replace hk : Keeps 0x1000000 s s := .refl _
  unfold State.drawOrder
  repeat' first
    | with_reducible assumption
    | (with_reducible refine Keeps.mk0 ?_ ?g; (first | with_reducible assumption | (refine Keeps.snd ?_ (by assumption)) | (refine Keeps.some ?_ (by assumption))); with_reducible case g => exact fun h => Keeps.mk' h)
    | exact Sub.of rfl
    | dsimp only

theorem State.setTensor_keeps {mk : Nat} {z s : State} (hk : Keeps mk z s) (w : Nat) (t : Tensor) (hm : Sub 0x100 mk := by exact Sub.of rfl) :
    Keeps mk z (State.setTensor s w t) := by
  refine hk.within hm ?_
  replace hk : Keeps 0x100 s s := .refl _
  unfold State.setTensor
  repeat' first
    | with_reducible assumption
    | (with_reducible refine Keeps.mk0 ?_ ?g; (first | with_reducible assumption | (refine Keeps.snd ?_ (by assumption)) | (refine Keeps.some ?_ (by assumption))); with_reducible case g => exact fun h => Keeps.mk' h)
    | exact Sub.of rfl
    | dsimp only

theorem State.delTensor_keeps {mk : Nat} {z s : State} (hk : Keeps mk z s) (w : Nat) (hm : Sub 0x100 mk := by exact Sub.of rfl) :
    Keeps mk z (State.delTensor s w) := by
  refine hk.within hm ?_
  replace hk : Keeps 0x100 s s := .refl _
  unfold State.delTensor
  repeat' first
    | with_reducible assumption
    | (with_reducible refine Keeps.mk0 ?_ ?g; (first | with_reducible assumption | (refine Keeps.snd ?_ (by assumption)) | (refine Keeps.some ?_ (by assumption))); with_reducible case g => exact fun h => Keeps.mk' h)
    | exact Sub.of rfl
    | dsimp only

theorem State.tensorClose_keeps {mk : Nat} {z s : State} (hk : Keeps mk z s) (w flags : Nat) (hm : Sub 0x1080577 mk := by exact Sub.of rfl) :
    Keeps mk z (State.tensorClose s w flags) := by
  refine hk.within hm ?_
  replace hk : Keeps 0x1080577 s s := .refl _
  unfold State.tensorClose
  repeat' first
    | (extract_lets -descend +onlyGivenNames x0; refine Keeps.cut (m := 0x1080577) (z := s) (v := x0) ?_ (fun h0 => ?_); rotate_left; clear_value x0; rotate_left; dsimp -zeta only [x0]; clear x0)
    | (extract_lets -descend +onlyGivenNames x0; clear_value x0)
    | with_reducible intro _
    | lift_lets
    | with_reducible assumption
    | (with_reducible first | apply State.wr_keeps | apply State.bump_keeps | apply State.irq_keeps | apply State.emitSample_keeps | apply State.originate_keeps | apply State.drawOrder_keeps | apply State.delTensor_keeps)
    | (with_reducible refine Keeps.mk0 ?_ ?g; (first | with_reducible assumption | (refine Keeps.snd ?_ (by assumption)) | (refine Keeps.some ?_ (by assumption)) | (with_reducible first | apply State.wr_keeps | apply State.bump_keeps | apply State.irq_keeps | apply State.emitSample_keeps | apply State.originate_keeps | apply State.drawOrder_keeps | apply State.delTensor_keeps)); with_reducible case g => exact fun h => Keeps.mk' h)
    | (with_reducible apply Keeps.ite)
    | split
    | (refine Keeps.some ?_ (by assumption))
    | (refine Keeps.snd ?_ (by assumption))
    | exact Sub.of rfl
    | dsimp only

theorem State.tensorBeat_keeps {mk : Nat} {z s : State} (hk : Keeps mk z s) (w : Nat) (first last : Bool) (id lanes : Nat) (slots : List Word) (hm : Sub 0x1080577 mk := by exact Sub.of rfl) :
    Keeps mk z (State.tensorBeat s w first last id lanes slots) := by
  refine hk.within hm ?_
  replace hk : Keeps 0x1080577 s s := .refl _
  unfold State.tensorBeat
  repeat' first
    | (extract_lets -descend +onlyGivenNames x0; refine Keeps.cut (m := 0x1080577) (z := s) (v := x0) ?_ (fun h0 => ?_); rotate_left; clear_value x0; rotate_left; dsimp -zeta only [x0]; clear x0)
    | (extract_lets -descend +onlyGivenNames x0; clear_value x0)
    | with_reducible intro _
    | lift_lets
    | with_reducible assumption
    | (with_reducible first | apply State.wr_keeps | apply State.setTensor_keeps | apply State.tensorClose_keeps)
    | (with_reducible refine Keeps.mk0 ?_ ?g; (first | with_reducible assumption | (refine Keeps.snd ?_ (by assumption)) | (refine Keeps.some ?_ (by assumption)) | (with_reducible first | apply State.wr_keeps | apply State.setTensor_keeps | apply State.tensorClose_keeps)); with_reducible case g => exact fun h => Keeps.mk' h)
    | (with_reducible apply Keeps.ite)
    | (with_reducible apply Keeps.foldl)
    | split
    | (refine Keeps.some ?_ (by assumption))
    | exact Sub.of rfl
    | dsimp only

end Sys2Proof.Machine
end

