-- ==== Sys2Proof/Laws/KeepsFeatures.lean ====
section
/-! SUPPORT. What the operations of Machine/Features.lean keep. -/

set_option Elab.async false

namespace Sys2Proof.Machine

theorem State.featCopy_keeps {mk : Nat} {z s : State} (hk : Keeps mk z s) (hm : Sub 0x800 mk := by exact Sub.of rfl) :
    Keeps mk z (State.featCopy s) := by
  refine hk.within hm ?_
  replace hk : Keeps 0x800 s s := .refl _
  unfold State.featCopy
  repeat' first
    | with_reducible assumption
    | (with_reducible refine Keeps.mk0 ?_ ?g; (first | with_reducible assumption | (refine Keeps.snd ?_ (by assumption)) | (refine Keeps.some ?_ (by assumption))); with_reducible case g => exact fun h => Keeps.mk' h)
    | (with_reducible apply Keeps.ite)
    | split
    | exact Sub.of rfl
    | dsimp only

theorem State.featLoadHi_keeps {mk : Nat} {z s : State} (hk : Keeps mk z s) (v : Nat) (hm : Sub 0x801 mk := by exact Sub.of rfl) :
    Keeps mk z (State.featLoadHi s v) := by
  refine hk.within hm ?_
  replace hk : Keeps 0x801 s s := .refl _
  unfold State.featLoadHi
  repeat' first
    | (extract_lets -descend +onlyGivenNames x0; refine Keeps.cut (m := 0x801) (z := s) (v := x0) ?_ (fun h0 => ?_); rotate_left; clear_value x0; rotate_left; dsimp -zeta only [x0]; clear x0)
    | (extract_lets -descend +onlyGivenNames x0; clear_value x0)
    | lift_lets
    | with_reducible assumption
    | (with_reducible first | apply State.wr_keeps | apply State.featCopy_keeps)
    | (with_reducible refine Keeps.mk0 ?_ ?g; (first | with_reducible assumption | (refine Keeps.snd ?_ (by assumption)) | (refine Keeps.some ?_ (by assumption)) | (with_reducible first | apply State.wr_keeps | apply State.featCopy_keeps)); with_reducible case g => exact fun h => Keeps.mk' h)
    | (with_reducible apply Keeps.ite)
    | split
    | exact Sub.of rfl
    | dsimp only

theorem execFeatLoadHi_keeps {mk : Nat} {z s : State} (hk : Keeps mk z s) (a : Acc) (data : Word) (hm : Sub 0x80CF7 mk := by exact Sub.of rfl) :
    KeepsR mk z (execFeatLoadHi a data s) := by
  refine KeepsR.within hk hm ?_
  replace hk : Keeps 0x80CF7 s s := .refl _
  unfold execFeatLoadHi
  repeat' first
    | with_reducible intro _
    | with_reducible assumption
    | (with_reducible first | apply KeepsR.present | apply KeepsR.next | exact KeepsR.fault | apply State.guardedWrite_keeps | apply State.featLoadHi_keeps)
    | exact Sub.of rfl
    | dsimp only

theorem State.featStatWrite_keeps {mk : Nat} {z s : State} (hk : Keeps mk z s) (j v : Nat) (hm : Sub 0x800 mk := by exact Sub.of rfl) :
    Keeps mk z (State.featStatWrite s j v) := by
  refine hk.within hm ?_
  replace hk : Keeps 0x800 s s := .refl _
  unfold State.featStatWrite
  repeat' first
    | (extract_lets -descend +onlyGivenNames x0; refine Keeps.cut (m := 0x800) (z := s) (v := x0) ?_ (fun h0 => ?_); rotate_left; clear_value x0; rotate_left; dsimp -zeta only [x0]; clear x0)
    | (extract_lets -descend +onlyGivenNames x0; clear_value x0)
    | lift_lets
    | with_reducible assumption
    | with_reducible apply State.featCopy_keeps
    | (with_reducible refine Keeps.mk0 ?_ ?g; (first | with_reducible assumption | (refine Keeps.snd ?_ (by assumption)) | (refine Keeps.some ?_ (by assumption)) | (with_reducible first | apply State.featCopy_keeps)); with_reducible case g => exact fun h => Keeps.mk' h)
    | exact Sub.of rfl
    | dsimp only

theorem State.featConstWrite_keeps {mk : Nat} {z s : State} (hk : Keeps mk z s) (c v : Nat) (hm : Sub 0x800 mk := by exact Sub.of rfl) :
    Keeps mk z (State.featConstWrite s c v) := by
  refine hk.within hm ?_
  replace hk : Keeps 0x800 s s := .refl _
  unfold State.featConstWrite
  repeat' first
    | (extract_lets -descend +onlyGivenNames x0; refine Keeps.cut (m := 0x800) (z := s) (v := x0) ?_ (fun h0 => ?_); rotate_left; clear_value x0; rotate_left; dsimp -zeta only [x0]; clear x0)
    | (extract_lets -descend +onlyGivenNames x0; clear_value x0)
    | lift_lets
    | with_reducible assumption
    | with_reducible apply State.featCopy_keeps
    | (with_reducible refine Keeps.mk0 ?_ ?g; (first | with_reducible assumption | (refine Keeps.snd ?_ (by assumption)) | (refine Keeps.some ?_ (by assumption)) | (with_reducible first | apply State.featCopy_keeps)); with_reducible case g => exact fun h => Keeps.mk' h)
    | exact Sub.of rfl
    | dsimp only

theorem State.featSwapWrite_keeps {mk : Nat} {z s : State} (hk : Keeps mk z s) (v : Nat) (hm : Sub 0x800 mk := by exact Sub.of rfl) :
    Keeps mk z (State.featSwapWrite s v) := by
  refine hk.within hm ?_
  replace hk : Keeps 0x800 s s := .refl _
  unfold State.featSwapWrite
  repeat' first
    | (extract_lets -descend +onlyGivenNames x0; refine Keeps.cut (m := 0x800) (z := s) (v := x0) ?_ (fun h0 => ?_); rotate_left; clear_value x0; rotate_left; dsimp -zeta only [x0]; clear x0)
    | (extract_lets -descend +onlyGivenNames x0; clear_value x0)
    | lift_lets
    | with_reducible assumption
    | (with_reducible refine Keeps.mk0 ?_ ?g; (first | with_reducible assumption | (refine Keeps.snd ?_ (by assumption)) | (refine Keeps.some ?_ (by assumption))); with_reducible case g => exact fun h => Keeps.mk' h)
    | (with_reducible apply Keeps.ite)
    | split
    | exact Sub.of rfl
    | dsimp only

theorem execFeatSwapRequest_keeps {mk : Nat} {z s : State} (hk : Keeps mk z s) (a : Acc) (data : Word) (hm : Sub 0x80CF7 mk := by exact Sub.of rfl) :
    KeepsR mk z (execFeatSwapRequest a data s) := by
  refine KeepsR.within hk hm ?_
  replace hk : Keeps 0x80CF7 s s := .refl _
  unfold execFeatSwapRequest
  repeat' first
    | with_reducible intro _
    | with_reducible assumption
    | (with_reducible first | apply KeepsR.present | apply KeepsR.next | exact KeepsR.fault | apply State.guardedWrite_keeps | apply State.featSwapWrite_keeps)
    | exact Sub.of rfl
    | dsimp only

theorem execFeatSwapCancel_keeps {mk : Nat} {z s : State} (hk : Keeps mk z s) (a : Acc) (data : Word) (hm : Sub 0x80CF7 mk := by exact Sub.of rfl) :
    KeepsR mk z (execFeatSwapCancel a data s) := by
  refine KeepsR.within hk hm ?_
  replace hk : Keeps 0x80CF7 s s := .refl _
  unfold execFeatSwapCancel
  repeat' first
    | with_reducible intro _
    | with_reducible assumption
    | (with_reducible first | apply KeepsR.present | apply KeepsR.next | exact KeepsR.fault | apply State.guardedWrite_keeps | apply State.featSwapWrite_keeps)
    | exact Sub.of rfl
    | dsimp only

theorem execFeatSwapValidated_keeps {mk : Nat} {z s : State} (hk : Keeps mk z s) (hm : Sub 0x803 mk := by exact Sub.of rfl) :
    KeepsR mk z (execFeatSwapValidated s) := by
  refine KeepsR.within hk hm ?_
  replace hk : Keeps 0x803 s s := .refl _
  unfold execFeatSwapValidated
  repeat' first
    | (extract_lets -descend +onlyGivenNames x0; refine Keeps.cut (m := 0x803) (z := s) (v := x0) ?_ (fun h0 => ?_); rotate_left; clear_value x0; rotate_left; dsimp -zeta only [x0]; clear x0)
    | (extract_lets -descend +onlyGivenNames x0; clear_value x0)
    | lift_lets
    | with_reducible assumption
    | (with_reducible first | apply KeepsR.present | apply KeepsR.next | exact KeepsR.fault | apply State.irq_keeps | apply State.featCopy_keeps)
    | (with_reducible refine Keeps.mk0 ?_ ?g; (first | with_reducible assumption | (refine Keeps.snd ?_ (by assumption)) | (refine Keeps.some ?_ (by assumption)) | (with_reducible first | apply State.irq_keeps | apply State.featCopy_keeps)); with_reducible case g => exact fun h => Keeps.mk' h)
    | (with_reducible apply Keeps.ite)
    | split
    | exact Sub.of rfl
    | dsimp only

theorem State.featSwap_keeps {mk : Nat} {z s : State} (hk : Keeps mk z s) (hm : Sub 0x803 mk := by exact Sub.of rfl) :
    Keeps mk z (State.featSwap s) := by
  refine hk.within hm ?_
  replace hk : Keeps 0x803 s s := .refl _
  unfold State.featSwap
  repeat' first
    | (extract_lets -descend +onlyGivenNames x0; refine Keeps.cut (m := 0x803) (z := s) (v := x0) ?_ (fun h0 => ?_); rotate_left; clear_value x0; rotate_left; dsimp -zeta only [x0]; clear x0)
    | (extract_lets -descend +onlyGivenNames x0; clear_value x0)
    | with_reducible intro _
    | lift_lets
    | with_reducible assumption
    | (with_reducible first | apply State.wr_keeps | apply State.bump_keeps | apply State.irq_keeps | apply State.featCopy_keeps)
    | (with_reducible refine Keeps.mk0 ?_ ?g; (first | with_reducible assumption | (refine Keeps.snd ?_ (by assumption)) | (refine Keeps.some ?_ (by assumption)) | (with_reducible first | apply State.wr_keeps | apply State.bump_keeps | apply State.irq_keeps | apply State.featCopy_keeps)); with_reducible case g => exact fun h => Keeps.mk' h)
    | (with_reducible apply Keeps.foldl)
    | exact Sub.of rfl
    | dsimp only

theorem execFeatSwapApplyIdle_keeps {mk : Nat} {z s : State} (hk : Keeps mk z s) (hm : Sub 0x803 mk := by exact Sub.of rfl) :
    KeepsR mk z (execFeatSwapApplyIdle s) := by
  refine KeepsR.within hk hm ?_
  replace hk : Keeps 0x803 s s := .refl _
  unfold execFeatSwapApplyIdle
  repeat' first
    | with_reducible assumption
    | (with_reducible first | apply KeepsR.present | apply KeepsR.next | exact KeepsR.fault | apply State.featSwap_keeps)
    | (with_reducible apply Keeps.ite)
    | split
    | exact Sub.of rfl
    | dsimp only

theorem execFeatBankCopyDone_keeps {mk : Nat} {z s : State} (hk : Keeps mk z s) (hm : Sub 0x800 mk := by exact Sub.of rfl) :
    KeepsR mk z (execFeatBankCopyDone s) := by
  refine KeepsR.within hk hm ?_
  replace hk : Keeps 0x800 s s := .refl _
  unfold execFeatBankCopyDone
  repeat' first
    | with_reducible assumption
    | (with_reducible first | apply KeepsR.present | apply KeepsR.next | exact KeepsR.fault | apply State.featCopy_keeps)
    | exact Sub.of rfl
    | dsimp only

theorem State.featAbandon_keeps {mk : Nat} {z s : State} (hk : Keeps mk z s) (reason : Nat) (hm : Sub 0x803 mk := by exact Sub.of rfl) :
    Keeps mk z (State.featAbandon s reason) := by
  refine hk.within hm ?_
  replace hk : Keeps 0x803 s s := .refl _
  unfold State.featAbandon
  repeat' first
    | (extract_lets -descend +onlyGivenNames x0; refine Keeps.cut (m := 0x803) (z := s) (v := x0) ?_ (fun h0 => ?_); rotate_left; clear_value x0; rotate_left; dsimp -zeta only [x0]; clear x0)
    | (extract_lets -descend +onlyGivenNames x0; clear_value x0)
    | lift_lets
    | with_reducible assumption
    | (with_reducible first | apply State.bumpSat_keeps | apply State.irq_keeps)
    | (with_reducible refine Keeps.mk0 ?_ ?g; (first | with_reducible assumption | (refine Keeps.snd ?_ (by assumption)) | (refine Keeps.some ?_ (by assumption)) | (with_reducible first | apply State.bumpSat_keeps | apply State.irq_keeps)); with_reducible case g => exact fun h => Keeps.mk' h)
    | exact Sub.of rfl
    | dsimp only

theorem State.featImage_keeps {mk : Nat} {z s : State} (hk : Keeps mk z s) (num : Nat) (heldGap : Bool) (hm : Sub 0x803 mk := by exact Sub.of rfl) :
    Keeps mk z (State.featImage s num heldGap) := by
  refine hk.within hm ?_
  replace hk : Keeps 0x803 s s := .refl _
  unfold State.featImage
  repeat' first
    | (extract_lets -descend +onlyGivenNames x0; refine Keeps.cut (m := 0x803) (z := s) (v := x0) ?_ (fun h0 => ?_); rotate_left; clear_value x0; rotate_left; dsimp -zeta only [x0]; clear x0)
    | (extract_lets -descend +onlyGivenNames x0; clear_value x0)
    | lift_lets
    | with_reducible assumption
    | with_reducible apply State.featAbandon_keeps
    | (with_reducible refine Keeps.mk0 ?_ ?g; (first | with_reducible assumption | (refine Keeps.snd ?_ (by assumption)) | (refine Keeps.some ?_ (by assumption)) | (with_reducible first | apply State.featAbandon_keeps)); with_reducible case g => exact fun h => Keeps.mk' h)
    | (with_reducible apply Keeps.ite)
    | split
    | (refine Keeps.some ?_ (by assumption))
    | exact Sub.of rfl
    | dsimp only

theorem State.featGrant_keeps {mk : Nat} {z s : State} (hk : Keeps mk z s) (hm : Sub 0x100803 mk := by exact Sub.of rfl) :
    Keeps mk z (State.featGrant s) := by
  refine hk.within hm ?_
  replace hk : Keeps 0x100803 s s := .refl _
  unfold State.featGrant
  repeat' first
    | (extract_lets -descend +onlyGivenNames x0; refine Keeps.cut (m := 0x100803) (z := s) (v := x0) ?_ (fun h0 => ?_); rotate_left; clear_value x0; rotate_left; dsimp -zeta only [x0]; clear x0)
    | (extract_lets -descend +onlyGivenNames x0; clear_value x0)
    | with_reducible intro _
    | lift_lets
    | with_reducible assumption
    | (with_reducible first | apply State.bumpSat_keeps | apply State.irq_keeps | apply State.grant_keeps | apply State.featSwap_keeps)
    | (with_reducible refine Keeps.mk0 ?_ ?g; (first | with_reducible assumption | (refine Keeps.snd ?_ (by assumption)) | (refine Keeps.some ?_ (by assumption)) | (with_reducible first | apply State.bumpSat_keeps | apply State.irq_keeps | apply State.grant_keeps | apply State.featSwap_keeps)); with_reducible case g => exact fun h => Keeps.mk' h)
    | (with_reducible apply Keeps.ite)
    | split
    | (refine Keeps.some ?_ (by assumption))
    | exact Sub.of rfl
    | dsimp only

theorem execFeaturePassGrant_keeps {mk : Nat} {z s : State} (hk : Keeps mk z s) (hm : Sub 0x100803 mk := by exact Sub.of rfl) :
    KeepsR mk z (execFeaturePassGrant s) := by
  refine KeepsR.within hk hm ?_
  replace hk : Keeps 0x100803 s s := .refl _
  unfold execFeaturePassGrant
  repeat' first
    | with_reducible assumption
    | (with_reducible first | apply KeepsR.present | apply KeepsR.next | exact KeepsR.fault | apply State.featGrant_keeps)
    | exact Sub.of rfl
    | dsimp only

theorem State.histLost_keeps {mk : Nat} {z s : State} (hk : Keeps mk z s) (lost : List Nat) (hm : Sub 0x800 mk := by exact Sub.of rfl) :
    Keeps mk z (State.histLost s lost) := by
  refine hk.within hm ?_
  replace hk : Keeps 0x800 s s := .refl _
  unfold State.histLost
  repeat' first
    | with_reducible intro _
    | with_reducible assumption
    | (with_reducible refine Keeps.mk0 ?_ ?g; (first | with_reducible assumption | (refine Keeps.snd ?_ (by assumption)) | (refine Keeps.some ?_ (by assumption))); with_reducible case g => exact fun h => Keeps.mk' h)
    | exact Sub.of rfl
    | dsimp only

theorem State.featCommit_keeps {mk : Nat} {z s : State} (hk : Keeps mk z s) (hm : Sub 0x1080C77 mk := by exact Sub.of rfl) :
    Keeps mk z (State.featCommit s) := by
  refine hk.within hm ?_
  replace hk : Keeps 0x1080C77 s s := .refl _
  unfold State.featCommit
  repeat' first
    | (extract_lets -descend +onlyGivenNames x0; refine Keeps.cut (m := 0x1080C77) (z := s) (v := x0) ?_ (fun h0 => ?_); rotate_left; clear_value x0; rotate_left; dsimp -zeta only [x0]; clear x0)
    | (extract_lets -descend +onlyGivenNames x0; clear_value x0)
    | with_reducible intro _
    | lift_lets
    | with_reducible assumption
    | (with_reducible first | apply State.wr_keeps | apply State.bumpSat_keeps | apply State.irq_keeps | apply State.emitUp_keeps | apply State.originate_keeps | apply State.drawOrder_keeps)
    | (with_reducible refine Keeps.mk0 ?_ ?g; (first | with_reducible assumption | (refine Keeps.snd ?_ (by assumption)) | (refine Keeps.some ?_ (by assumption)) | (with_reducible first | apply State.wr_keeps | apply State.bumpSat_keeps | apply State.irq_keeps | apply State.emitUp_keeps | apply State.originate_keeps | apply State.drawOrder_keeps)); with_reducible case g => exact fun h => Keeps.mk' h)
    | (with_reducible apply Keeps.ite)
    | (with_reducible apply Keeps.foldl)
    | (with_reducible apply Keeps.foldlSnd)
    | split
    | (refine Keeps.some ?_ (by assumption))
    | (refine Keeps.snd ?_ (by assumption))
    | exact Sub.of rfl
    | dsimp only

end Sys2Proof.Machine
end

