-- ==== Sys2Proof/Laws/KeepsConvoy.lean ====
section
/-! SUPPORT. What the operations of Machine/Convoy.lean keep. -/

set_option Elab.async false

namespace Sys2Proof.Machine

theorem State.modSlot_keeps {mk : Nat} {z s : State} (hk : Keeps mk z s) (stream : Nat) (f : Slot → Slot) (hm : Sub 0x400 mk := by exact Sub.of rfl) :
    Keeps mk z (State.modSlot s stream f) := by
  refine hk.within hm ?_
  replace hk : Keeps 0x400 s s := .refl _
  unfold State.modSlot
  repeat' first
    | with_reducible intro _
    | with_reducible assumption
    | (with_reducible refine Keeps.mk0 ?_ ?g; (first | with_reducible assumption | (refine Keeps.snd ?_ (by assumption)) | (refine Keeps.some ?_ (by assumption))); with_reducible case g => exact fun h => Keeps.mk' h)
    | (with_reducible apply Keeps.ite)
    | split
    | exact Sub.of rfl
    | dsimp only

theorem State.sendNeighbour_keeps {mk : Nat} {z s : State} (hk : Keeps mk z s) (p : Nat) (r : Rec) (tallied : Bool) (hm : Sub 0xC2471 mk := by exact Sub.of rfl) :
    Keeps mk z (State.sendNeighbour s p r tallied) := by
  refine hk.within hm ?_
  replace hk : Keeps 0xC2471 s s := .refl _
  unfold State.sendNeighbour
  repeat' first
    | (extract_lets -descend +onlyGivenNames x0; refine Keeps.cut (m := 0xC2471) (z := s) (v := x0) ?_ (fun h0 => ?_); rotate_left; clear_value x0; rotate_left; dsimp -zeta only [x0]; clear x0)
    | (extract_lets -descend +onlyGivenNames x0; clear_value x0)
    | lift_lets
    | with_reducible assumption
    | (with_reducible first | apply State.dropped_keeps | apply State.newPend_keeps | apply State.sendPort_keeps | apply State.peerSend_keeps)
    | (with_reducible apply Keeps.ite)
    | split
    | (refine Keeps.snd ?_ (by assumption))
    | exact Sub.of rfl
    | dsimp only

theorem State.noWay_keeps {mk : Nat} {z s : State} (hk : Keeps mk z s) (port : Nat) (r : Rec) (tallied : Bool) (hm : Sub 0x441 mk := by exact Sub.of rfl) :
    Keeps mk z (State.noWay s port r tallied) := by
  refine hk.within hm ?_
  replace hk : Keeps 0x441 s s := .refl _
  unfold State.noWay
  repeat' first
    | with_reducible assumption
    | (with_reducible first | apply State.pbump_keeps | apply State.dropped_keeps)
    | (with_reducible apply Keeps.ite)
    | split
    | exact Sub.of rfl
    | dsimp only

theorem State.sendRoot_keeps {mk : Nat} {z s : State} (hk : Keeps mk z s) (e : Entry) (r : Rec) (tallied : Bool) (hm : Sub 0xC2471 mk := by exact Sub.of rfl) :
    Keeps mk z (State.sendRoot s e r tallied) := by
  refine hk.within hm ?_
  replace hk : Keeps 0xC2471 s s := .refl _
  unfold State.sendRoot
  repeat' first
    | with_reducible assumption
    | (with_reducible first | apply State.sendNeighbour_keeps | apply State.noWay_keeps)
    | (with_reducible apply Keeps.ite)
    | split
    | (refine Keeps.some ?_ (by assumption))
    | exact Sub.of rfl
    | dsimp only

theorem State.sendParent_keeps {mk : Nat} {z s : State} (hk : Keeps mk z s) (e : Entry) (r : Rec) (tallied : Bool) (hm : Sub 0xC2471 mk := by exact Sub.of rfl) :
    Keeps mk z (State.sendParent s e r tallied) := by
  refine hk.within hm ?_
  replace hk : Keeps 0xC2471 s s := .refl _
  unfold State.sendParent
  repeat' first
    | (extract_lets -descend +onlyGivenNames x0; refine Keeps.cut (m := 0xC2471) (z := s) (v := x0) ?_ (fun h0 => ?_); rotate_left; clear_value x0; rotate_left; dsimp -zeta only [x0]; clear x0)
    | (extract_lets -descend +onlyGivenNames x0; clear_value x0)
    | with_reducible intro _
    | lift_lets
    | with_reducible assumption
    | (with_reducible first | apply State.enqueue_keeps | apply State.newPend_keeps | apply State.sendPort_keeps | apply State.sendNeighbour_keeps | apply State.noWay_keeps | apply State.sendRoot_keeps)
    | (with_reducible refine Keeps.mk0 ?_ ?g; (first | with_reducible assumption | (refine Keeps.snd ?_ (by assumption)) | (refine Keeps.some ?_ (by assumption)) | (with_reducible first | apply State.enqueue_keeps | apply State.newPend_keeps | apply State.sendPort_keeps | apply State.sendNeighbour_keeps | apply State.noWay_keeps | apply State.sendRoot_keeps)); with_reducible case g => exact fun h => Keeps.mk' h)
    | (with_reducible apply Keeps.ite)
    | (with_reducible apply Keeps.foldl)
    | (with_reducible apply Keeps.foldlSnd)
    | split
    | (refine Keeps.some ?_ (by assumption))
    | (refine Keeps.snd ?_ (by assumption))
    | exact Sub.of rfl
    | dsimp only

theorem State.epochRec_keeps {mk : Nat} {z s : State} (hk : Keeps mk z s) (type stream epoch : Nat) (payload : List Byte) (hm : Sub 0x20 mk := by exact Sub.of rfl) :
    Keeps mk z (State.epochRec s type stream epoch payload).2 := by
  refine hk.within hm ?_
  replace hk : Keeps 0x20 s s := .refl _
  unfold State.epochRec
  repeat' first
    | with_reducible assumption
    | (with_reducible refine Keeps.mk0 ?_ ?g; (first | with_reducible assumption | (refine Keeps.snd ?_ (by assumption)) | (refine Keeps.some ?_ (by assumption))); with_reducible case g => exact fun h => Keeps.mk' h)
    | exact Sub.of rfl
    | dsimp only

theorem State.sendReach_keeps {mk : Nat} {z s : State} (hk : Keeps mk z s) (e : Entry) (h : CHdr) (reached : Nat) (orphans : List Nat) (hm : Sub 0xC2471 mk := by exact Sub.of rfl) :
    Keeps mk z (State.sendReach s e h reached orphans) := by
  refine hk.within hm ?_
  replace hk : Keeps 0xC2471 s s := .refl _
  unfold State.sendReach
  repeat' first
    | (extract_lets -descend +onlyGivenNames x0; refine Keeps.cut (m := 0xC2471) (z := s) (v := x0) ?_ (fun h0 => ?_); rotate_left; clear_value x0; rotate_left; dsimp -zeta only [x0]; clear x0)
    | (extract_lets -descend +onlyGivenNames x0; clear_value x0)
    | lift_lets
    | with_reducible assumption
    | (with_reducible first | apply State.sendParent_keeps | apply State.epochRec_keeps)
    | split
    | (refine Keeps.snd ?_ (by assumption))
    | exact Sub.of rfl
    | dsimp only

theorem State.modBcast_keeps {mk : Nat} {z s : State} (hk : Keeps mk z s) (stream epoch : Nat) (f : Bcast → Bcast) (hm : Sub 0x400 mk := by exact Sub.of rfl) :
    Keeps mk z (State.modBcast s stream epoch f) := by
  refine hk.within hm ?_
  replace hk : Keeps 0x400 s s := .refl _
  unfold State.modBcast
  repeat' first
    | with_reducible intro _
    | with_reducible assumption
    | with_reducible apply State.modSlot_keeps
    | (with_reducible refine Keeps.mk0 ?_ ?g; (first | with_reducible assumption | (refine Keeps.snd ?_ (by assumption)) | (refine Keeps.some ?_ (by assumption)) | (with_reducible first | apply State.modSlot_keeps)); with_reducible case g => exact fun h => Keeps.mk' h)
    | (with_reducible apply Keeps.ite)
    | split
    | exact Sub.of rfl
    | dsimp only

theorem State.showReached_keeps {mk : Nat} {z s : State} (hk : Keeps mk z s) (stream : Nat) (hm : Sub 0x1 mk := by exact Sub.of rfl) :
    Keeps mk z (State.showReached s stream) := by
  refine hk.within hm ?_
  replace hk : Keeps 0x1 s s := .refl _
  unfold State.showReached
  repeat' first
    | with_reducible intro _
    | with_reducible assumption
    | with_reducible apply State.wr_keeps
    | split
    | (refine Keeps.some ?_ (by assumption))
    | exact Sub.of rfl
    | dsimp only

theorem State.reachReport_keeps {mk : Nat} {z s : State} (hk : Keeps mk z s) (stream epoch : Nat) (hm : Sub 0xC2471 mk := by exact Sub.of rfl) :
    Keeps mk z (State.reachReport s stream epoch) := by
  refine hk.within hm ?_
  replace hk : Keeps 0xC2471 s s := .refl _
  unfold State.reachReport
  repeat' first
    | (extract_lets -descend +onlyGivenNames x0; refine Keeps.cut (m := 0xC2471) (z := s) (v := x0) ?_ (fun h0 => ?_); rotate_left; clear_value x0; rotate_left; dsimp -zeta only [x0]; clear x0)
    | (extract_lets -descend +onlyGivenNames x0; clear_value x0)
    | with_reducible intro _
    | lift_lets
    | with_reducible assumption
    | (with_reducible first | apply State.sendNeighbour_keeps | apply State.epochRec_keeps | apply State.sendReach_keeps | apply State.modBcast_keeps | apply State.showReached_keeps)
    | (with_reducible refine Keeps.mk0 ?_ ?g; (first | with_reducible assumption | (refine Keeps.snd ?_ (by assumption)) | (refine Keeps.some ?_ (by assumption)) | (with_reducible first | apply State.sendNeighbour_keeps | apply State.epochRec_keeps | apply State.sendReach_keeps | apply State.modBcast_keeps | apply State.showReached_keeps)); with_reducible case g => exact fun h => Keeps.mk' h)
    | (with_reducible apply Keeps.ite)
    | (with_reducible apply Keeps.foldl)
    | (with_reducible apply Keeps.foldlSnd)
    | split
    | (refine Keeps.some ?_ (by assumption))
    | (refine Keeps.snd ?_ (by assumption))
    | exact Sub.of rfl
    | dsimp only

theorem State.bcastFate_keeps {mk : Nat} {z s : State} (hk : Keeps mk z s) (stream epoch : Nat) (hm : Sub 0xC24F7 mk := by exact Sub.of rfl) :
    Keeps mk z (State.bcastFate s stream epoch) := by
  refine hk.within hm ?_
  replace hk : Keeps 0xC24F7 s s := .refl _
  unfold State.bcastFate
  repeat' first
    | (extract_lets -descend +onlyGivenNames x0; refine Keeps.cut (m := 0xC24F7) (z := s) (v := x0) ?_ (fun h0 => ?_); rotate_left; clear_value x0; rotate_left; dsimp -zeta only [x0]; clear x0)
    | (extract_lets -descend +onlyGivenNames x0; clear_value x0)
    | with_reducible intro _
    | lift_lets
    | with_reducible assumption
    | (with_reducible first | apply State.fateDelivered_keeps | apply State.fateLost_keeps | apply State.modBcast_keeps | apply State.orphan_keeps)
    | (with_reducible refine Keeps.mk0 ?_ ?g; (first | with_reducible assumption | (refine Keeps.snd ?_ (by assumption)) | (refine Keeps.some ?_ (by assumption)) | (with_reducible first | apply State.fateDelivered_keeps | apply State.fateLost_keeps | apply State.modBcast_keeps | apply State.orphan_keeps)); with_reducible case g => exact fun h => Keeps.mk' h)
    | (with_reducible apply Keeps.ite)
    | split
    | (refine Keeps.some ?_ (by assumption))
    | exact Sub.of rfl
    | dsimp only

theorem State.reachCheck_keeps {mk : Nat} {z s : State} (hk : Keeps mk z s) (stream epoch : Nat) (hm : Sub 0xC24F7 mk := by exact Sub.of rfl) :
    Keeps mk z (State.reachCheck s stream epoch) := by
  refine hk.within hm ?_
  replace hk : Keeps 0xC24F7 s s := .refl _
  unfold State.reachCheck
  repeat' first
    | (extract_lets -descend +onlyGivenNames x0; refine Keeps.cut (m := 0xC24F7) (z := s) (v := x0) ?_ (fun h0 => ?_); rotate_left; clear_value x0; rotate_left; dsimp -zeta only [x0]; clear x0)
    | (extract_lets -descend +onlyGivenNames x0; clear_value x0)
    | lift_lets
    | with_reducible assumption
    | (with_reducible first | apply State.reachReport_keeps | apply State.bcastFate_keeps)
    | (with_reducible apply Keeps.ite)
    | split
    | (refine Keeps.some ?_ (by assumption))
    | exact Sub.of rfl
    | dsimp only

theorem State.reachLate_keeps {mk : Nat} {z s : State} (hk : Keeps mk z s) (stream epoch n : Nat) (orphans : List Nat) (hm : Sub 0xC2471 mk := by exact Sub.of rfl) :
    Keeps mk z (State.reachLate s stream epoch n orphans) := by
  refine hk.within hm ?_
  replace hk : Keeps 0xC2471 s s := .refl _
  unfold State.reachLate
  repeat' first
    | (extract_lets -descend +onlyGivenNames x0; refine Keeps.cut (m := 0xC2471) (z := s) (v := x0) ?_ (fun h0 => ?_); rotate_left; clear_value x0; rotate_left; dsimp -zeta only [x0]; clear x0)
    | (extract_lets -descend +onlyGivenNames x0; clear_value x0)
    | with_reducible intro _
    | lift_lets
    | with_reducible assumption
    | (with_reducible first | apply State.sendReach_keeps | apply State.modBcast_keeps | apply State.showReached_keeps)
    | (with_reducible refine Keeps.mk0 ?_ ?g; (first | with_reducible assumption | (refine Keeps.snd ?_ (by assumption)) | (refine Keeps.some ?_ (by assumption)) | (with_reducible first | apply State.sendReach_keeps | apply State.modBcast_keeps | apply State.showReached_keeps)); with_reducible case g => exact fun h => Keeps.mk' h)
    | (with_reducible apply Keeps.ite)
    | split
    | (refine Keeps.some ?_ (by assumption))
    | exact Sub.of rfl
    | dsimp only

theorem State.reachSettle_keeps {mk : Nat} {z s : State} (hk : Keeps mk z s) (hm : Sub 0xC24F7 mk := by exact Sub.of rfl) :
    Keeps mk z (State.reachSettle s) := by
  refine hk.within hm ?_
  replace hk : Keeps 0xC24F7 s s := .refl _
  unfold State.reachSettle
  repeat' first
    | (extract_lets -descend +onlyGivenNames x0; refine Keeps.cut (m := 0xC24F7) (z := s) (v := x0) ?_ (fun h0 => ?_); rotate_left; clear_value x0; rotate_left; dsimp -zeta only [x0]; clear x0)
    | (extract_lets -descend +onlyGivenNames x0; clear_value x0)
    | with_reducible intro _
    | lift_lets
    | with_reducible assumption
    | (with_reducible first | apply State.modBcast_keeps | apply State.reachCheck_keeps | apply State.reachLate_keeps)
    | (with_reducible refine Keeps.mk0 ?_ ?g; (first | with_reducible assumption | (refine Keeps.snd ?_ (by assumption)) | (refine Keeps.some ?_ (by assumption)) | (with_reducible first | apply State.modBcast_keeps | apply State.reachCheck_keeps | apply State.reachLate_keeps)); with_reducible case g => exact fun h => Keeps.mk' h)
    | (with_reducible apply Keeps.ite)
    | (with_reducible apply Keeps.foldl)
    | split
    | exact Sub.of rfl
    | dsimp only

theorem execLinkCtlReceived_keeps {mk : Nat} {z s : State} (hk : Keeps mk z s) (port : Nat) (entries : List (Nat × Nat × Nat)) (hm : Sub 0xC24F7 mk := by exact Sub.of rfl) :
    KeepsR mk z (execLinkCtlReceived port entries s) := by
  refine KeepsR.within hk hm ?_
  replace hk : Keeps 0xC24F7 s s := .refl _
  unfold execLinkCtlReceived
  repeat' first
    | with_reducible assumption
    | (with_reducible first | apply KeepsR.present | apply KeepsR.next | exact KeepsR.fault | apply present_keeps | apply State.linkCtl_keeps | apply State.reachSettle_keeps)
    | exact Sub.of rfl
    | dsimp only

theorem State.orphan_keeps {mk : Nat} {z s : State} (hk : Keeps mk z s) (stream epoch bit : Nat) (hm : Sub 0xC24F7 mk := by exact Sub.of rfl) :
    Keeps mk z (State.orphan s stream epoch bit) := by
  refine hk.within hm ?_
  replace hk : Keeps 0xC24F7 s s := .refl _
  unfold State.orphan
  repeat' first
    | (extract_lets -descend +onlyGivenNames x0; refine Keeps.cut (m := 0xC24F7) (z := s) (v := x0) ?_ (fun h0 => ?_); rotate_left; clear_value x0; rotate_left; dsimp -zeta only [x0]; clear x0)
    | (extract_lets -descend +onlyGivenNames x0; clear_value x0)
    | with_reducible intro _
    | lift_lets
    | with_reducible assumption
    | (with_reducible first | apply State.bumpSat_keeps | apply State.irq_keeps | apply State.modBcast_keeps | apply State.reachCheck_keeps)
    | (with_reducible refine Keeps.mk0 ?_ ?g; (first | with_reducible assumption | (refine Keeps.snd ?_ (by assumption)) | (refine Keeps.some ?_ (by assumption)) | (with_reducible first | apply State.bumpSat_keeps | apply State.irq_keeps | apply State.modBcast_keeps | apply State.reachCheck_keeps)); with_reducible case g => exact fun h => Keeps.mk' h)
    | (with_reducible apply Keeps.ite)
    | split
    | exact Sub.of rfl
    | dsimp only

theorem State.bcastTo_keeps {mk : Nat} {z s : State} (hk : Keeps mk z s) (stream epoch bit : Nat) (resend : Bool) (hm : Sub 0xC24F7 mk := by exact Sub.of rfl) :
    Keeps mk z (State.bcastTo s stream epoch bit resend) := by
  refine hk.within hm ?_
  replace hk : Keeps 0xC24F7 s s := .refl _
  unfold State.bcastTo
  repeat' first
    | (extract_lets -descend +onlyGivenNames x0; refine Keeps.cut (m := 0xC24F7) (z := s) (v := x0) ?_ (fun h0 => ?_); rotate_left; clear_value x0; rotate_left; dsimp -zeta only [x0]; clear x0)
    | (extract_lets -descend +onlyGivenNames x0; clear_value x0)
    | with_reducible intro _
    | lift_lets
    | with_reducible assumption
    | (with_reducible first | apply State.enqueue_keeps | apply State.newPend_keeps | apply State.peerSend_keeps | apply State.modBcast_keeps | apply State.orphan_keeps)
    | (with_reducible refine Keeps.mk0 ?_ ?g; (first | with_reducible assumption | (refine Keeps.snd ?_ (by assumption)) | (refine Keeps.some ?_ (by assumption)) | (with_reducible first | apply State.enqueue_keeps | apply State.newPend_keeps | apply State.peerSend_keeps | apply State.modBcast_keeps | apply State.orphan_keeps)); with_reducible case g => exact fun h => Keeps.mk' h)
    | (with_reducible apply Keeps.ite)
    | split
    | (refine Keeps.some ?_ (by assumption))
    | (refine Keeps.snd ?_ (by assumption))
    | exact Sub.of rfl
    | dsimp only

theorem State.bcastDrop_keeps {mk : Nat} {z s : State} (hk : Keeps mk z s) (b : Bcast) (hm : Sub 0x804F7 mk := by exact Sub.of rfl) :
    Keeps mk z (State.bcastDrop s b) := by
  refine hk.within hm ?_
  replace hk : Keeps 0x804F7 s s := .refl _
  unfold State.bcastDrop
  repeat' first
    | with_reducible assumption
    | with_reducible apply State.fateLost_keeps
    | split
    | (refine Keeps.some ?_ (by assumption))
    | exact Sub.of rfl
    | dsimp only

theorem State.bcastStart_keeps {mk : Nat} {z s : State} (hk : Keeps mk z s) (e : Entry) (r : Rec) (epoch : Nat) (fate : Option Nat) (hm : Sub 0xC24F7 mk := by exact Sub.of rfl) :
    Keeps mk z (State.bcastStart s e r epoch fate) := by
  refine hk.within hm ?_
  replace hk : Keeps 0xC24F7 s s := .refl _
  unfold State.bcastStart
  repeat' first
    | (extract_lets -descend +onlyGivenNames x0; refine Keeps.cut (m := 0xC24F7) (z := s) (v := x0) ?_ (fun h0 => ?_); rotate_left; clear_value x0; rotate_left; dsimp -zeta only [x0]; clear x0)
    | (extract_lets -descend +onlyGivenNames x0; clear_value x0)
    | with_reducible intro _
    | lift_lets
    | with_reducible assumption
    | (with_reducible first | apply State.modSlot_keeps | apply State.reachCheck_keeps | apply State.bcastTo_keeps | apply State.bcastDrop_keeps)
    | (with_reducible refine Keeps.mk0 ?_ ?g; (first | with_reducible assumption | (refine Keeps.snd ?_ (by assumption)) | (refine Keeps.some ?_ (by assumption)) | (with_reducible first | apply State.modSlot_keeps | apply State.reachCheck_keeps | apply State.bcastTo_keeps | apply State.bcastDrop_keeps)); with_reducible case g => exact fun h => Keeps.mk' h)
    | (with_reducible apply Keeps.foldl)
    | split
    | (refine Keeps.some ?_ (by assumption))
    | exact Sub.of rfl
    | dsimp only

theorem State.applyResult_keeps {mk : Nat} {z s : State} (hk : Keeps mk z s) (i : Nat) (e : Entry) (r : Rec) (hm : Sub 0x401 mk := by exact Sub.of rfl) :
    Keeps mk z (State.applyResult s i e r) := by
  refine hk.within hm ?_
  replace hk : Keeps 0x401 s s := .refl _
  unfold State.applyResult
  repeat' first
    | (extract_lets -descend +onlyGivenNames x0; refine Keeps.cut (m := 0x401) (z := s) (v := x0) ?_ (fun h0 => ?_); rotate_left; clear_value x0; rotate_left; dsimp -zeta only [x0]; clear x0)
    | (extract_lets -descend +onlyGivenNames x0; clear_value x0)
    | with_reducible intro _
    | lift_lets
    | with_reducible assumption
    | (with_reducible first | apply State.wr_keeps | apply State.store_keeps | apply State.modSlot_keeps)
    | (with_reducible refine Keeps.mk0 ?_ ?g; (first | with_reducible assumption | (refine Keeps.snd ?_ (by assumption)) | (refine Keeps.some ?_ (by assumption)) | (with_reducible first | apply State.wr_keeps | apply State.store_keeps | apply State.modSlot_keeps)); with_reducible case g => exact fun h => Keeps.mk' h)
    | (with_reducible apply Keeps.ite)
    | split
    | exact Sub.of rfl
    | dsimp only

theorem State.conservation_keeps {mk : Nat} {z s : State} (hk : Keeps mk z s) (e : Entry) (h : CHdr) (body : List Byte) (hm : Sub 0x804F7 mk := by exact Sub.of rfl) :
    Keeps mk z (State.conservation s e h body) := by
  refine hk.within hm ?_
  replace hk : Keeps 0x804F7 s s := .refl _
  unfold State.conservation
  repeat' first
    | (extract_lets -descend +onlyGivenNames x0; refine Keeps.cut (m := 0x804F7) (z := s) (v := x0) ?_ (fun h0 => ?_); rotate_left; clear_value x0; rotate_left; dsimp -zeta only [x0]; clear x0)
    | (extract_lets -descend +onlyGivenNames x0; clear_value x0)
    | lift_lets
    | with_reducible assumption
    | (with_reducible first | apply State.irq_keeps | apply State.event_keeps)
    | (with_reducible apply Keeps.ite)
    | split
    | exact Sub.of rfl
    | dsimp only

theorem State.convoyDrop_keeps {mk : Nat} {z s : State} (hk : Keeps mk z s) (r : Rec) (reason : Nat) (hm : Sub 0x440 mk := by exact Sub.of rfl) :
    Keeps mk z (State.convoyDrop s r reason) := by
  refine hk.within hm ?_
  replace hk : Keeps 0x440 s s := .refl _
  unfold State.convoyDrop
  repeat' first
    | with_reducible assumption
    | (with_reducible first | apply State.produced_keeps | apply State.dropped_keeps)
    | exact Sub.of rfl
    | dsimp only

theorem State.convoyDup_keeps {mk : Nat} {z s : State} (hk : Keeps mk z s) (i : Nat) (r : Rec) (hm : Sub 0x41 mk := by exact Sub.of rfl) :
    Keeps mk z (State.convoyDup s i r) := by
  refine hk.within hm ?_
  replace hk : Keeps 0x41 s s := .refl _
  unfold State.convoyDup
  repeat' first
    | with_reducible assumption
    | (with_reducible first | apply State.bumpSat_keeps | apply State.dupCounted_keeps)
    | (with_reducible apply Keeps.ite)
    | split
    | exact Sub.of rfl
    | dsimp only

theorem State.mergeHeld_keeps {mk : Nat} {z s : State} (hk : Keeps mk z s) (i stream : Nat) (o : Open) (hm : Sub 0x41 mk := by exact Sub.of rfl) :
    Keeps mk z (State.mergeHeld s i stream o).2 := by
  refine hk.within hm ?_
  replace hk : Keeps 0x41 s s := .refl _
  unfold State.mergeHeld
  repeat' first
    | (extract_lets -descend +onlyGivenNames x0; refine Keeps.cut (m := 0x41) (z := s) (v := x0) ?_ (fun h0 => ?_); rotate_left; clear_value x0; rotate_left; dsimp -zeta only [x0]; clear x0)
    | (extract_lets -descend +onlyGivenNames x0; clear_value x0)
    | with_reducible intro _
    | lift_lets
    | with_reducible assumption
    | (with_reducible first | apply State.produced_keeps | apply State.merged_keeps | apply State.convoyDup_keeps)
    | (with_reducible refine Keeps.mk0 ?_ ?g; (first | with_reducible assumption | (refine Keeps.snd ?_ (by assumption)) | (refine Keeps.some ?_ (by assumption)) | (with_reducible first | apply State.produced_keeps | apply State.merged_keeps | apply State.convoyDup_keeps)); with_reducible case g => exact fun h => Keeps.mk' h)
    | (with_reducible apply Keeps.ite)
    | (with_reducible apply Keeps.foldl)
    | (with_reducible apply Keeps.foldlSnd)
    | split
    | (refine Keeps.snd ?_ (by assumption))
    | exact Sub.of rfl
    | dsimp only

theorem State.publishShow_keeps {mk : Nat} {z s : State} (hk : Keeps mk z s) (i stream epoch : Nat) (o : Open) (h : CHdr) (forced : Bool) (hm : Sub 0x401 mk := by exact Sub.of rfl) :
    Keeps mk z (State.publishShow s i stream epoch o h forced) := by
  refine hk.within hm ?_
  replace hk : Keeps 0x401 s s := .refl _
  unfold State.publishShow
  repeat' first
    | (extract_lets -descend +onlyGivenNames x0; refine Keeps.cut (m := 0x401) (z := s) (v := x0) ?_ (fun h0 => ?_); rotate_left; clear_value x0; rotate_left; dsimp -zeta only [x0]; clear x0)
    | (extract_lets -descend +onlyGivenNames x0; clear_value x0)
    | with_reducible intro _
    | lift_lets
    | with_reducible assumption
    | (with_reducible first | apply State.wr_keeps | apply State.bumpSat_keeps | apply State.modSlot_keeps)
    | (with_reducible refine Keeps.mk0 ?_ ?g; (first | with_reducible assumption | (refine Keeps.snd ?_ (by assumption)) | (refine Keeps.some ?_ (by assumption)) | (with_reducible first | apply State.wr_keeps | apply State.bumpSat_keeps | apply State.modSlot_keeps)); with_reducible case g => exact fun h => Keeps.mk' h)
    | (with_reducible apply Keeps.ite)
    | (with_reducible apply Keeps.foldl)
    | split
    | exact Sub.of rfl
    | dsimp only

theorem State.publishSend_keeps {mk : Nat} {z s : State} (hk : Keeps mk z s) (i stream epoch : Nat) (e : Entry) (h : CHdr) (payload : List Byte) (hm : Sub 0xC24F7 mk := by exact Sub.of rfl) :
    Keeps mk z (State.publishSend s i stream epoch e h payload) := by
  refine hk.within hm ?_
  replace hk : Keeps 0xC24F7 s s := .refl _
  unfold State.publishSend
  repeat' first
    | (extract_lets -descend +onlyGivenNames x0; refine Keeps.cut (m := 0xC24F7) (z := s) (v := x0) ?_ (fun h0 => ?_); rotate_left; clear_value x0; rotate_left; dsimp -zeta only [x0]; clear x0)
    | (extract_lets -descend +onlyGivenNames x0; clear_value x0)
    | lift_lets
    | with_reducible assumption
    | (with_reducible first | apply State.irq_keeps | apply State.produced_keeps | apply State.originateRaw_keeps | apply State.newPend_keeps | apply State.sendParent_keeps | apply State.epochRec_keeps | apply State.bcastStart_keeps | apply State.applyResult_keeps | apply State.conservation_keeps)
    | (with_reducible apply Keeps.ite)
    | split
    | (refine Keeps.snd ?_ (by assumption))
    | exact Sub.of rfl
    | dsimp only

theorem State.publishNow_keeps {mk : Nat} {z s : State} (hk : Keeps mk z s) (stream epoch : Nat) (forced : Bool) (hm : Sub 0x10C24F7 mk := by exact Sub.of rfl) :
    Keeps mk z (State.publishNow s stream epoch forced) := by
  refine hk.within hm ?_
  replace hk : Keeps 0x10C24F7 s s := .refl _
  unfold State.publishNow
  repeat' first
    | (extract_lets -descend +onlyGivenNames x0; refine Keeps.cut (m := 0x10C24F7) (z := s) (v := x0) ?_ (fun h0 => ?_); rotate_left; clear_value x0; rotate_left; dsimp -zeta only [x0]; clear x0)
    | (extract_lets -descend +onlyGivenNames x0; clear_value x0)
    | with_reducible intro _
    | lift_lets
    | with_reducible assumption
    | (with_reducible first | apply State.drawOrder_keeps | apply State.mergeHeld_keeps | apply State.publishShow_keeps | apply State.publishSend_keeps)
    | split
    | (refine Keeps.some ?_ (by assumption))
    | (refine Keeps.snd ?_ (by assumption))
    | exact Sub.of rfl
    | dsimp only

theorem State.workWait_keeps {mk : Nat} {z s : State} (hk : Keeps mk z s) (w : ConvoyWork) (hm : Sub 0x400 mk := by exact Sub.of rfl) :
    Keeps mk z (State.workWait s w) := by
  refine hk.within hm ?_
  replace hk : Keeps 0x400 s s := .refl _
  unfold State.workWait
  repeat' first
    | with_reducible assumption
    | (with_reducible refine Keeps.mk0 ?_ ?g; (first | with_reducible assumption | (refine Keeps.snd ?_ (by assumption)) | (refine Keeps.some ?_ (by assumption))); with_reducible case g => exact fun h => Keeps.mk' h)
    | exact Sub.of rfl
    | dsimp only

theorem State.workOr_keeps {mk : Nat} {z s : State} (hk : Keeps mk z s) (w : ConvoyWork) (now : State → State) (h_now : ∀ a0, Keeps mk z a0 → Keeps mk z (now a0))
    (hm : Sub 0x100401 mk := by exact Sub.of rfl) : Keeps mk z (State.workOr s w now) := by
  unfold State.workOr
  repeat' first
    | with_reducible assumption
    | (with_reducible first | apply h_now | apply State.grant_keeps | apply State.workWait_keeps)
    | (with_reducible apply Keeps.ite)
    | split
    | (refine Keeps.some ?_ (by assumption))
    | exact (Sub.of rfl).trans hm
    | dsimp only

theorem State.publish_keeps {mk : Nat} {z s : State} (hk : Keeps mk z s) (stream epoch : Nat) (forced : Bool) (hm : Sub 0x11C24F7 mk := by exact Sub.of rfl) :
    Keeps mk z (State.publish s stream epoch forced) := by
  refine hk.within hm ?_
  replace hk : Keeps 0x11C24F7 s s := .refl _
  unfold State.publish
  repeat' first
    | with_reducible intro _
    | with_reducible assumption
    | (with_reducible first | apply State.publishNow_keeps | apply State.workOr_keeps)
    | (with_reducible apply Keeps.ite)
    | split
    | (refine Keeps.some ?_ (by assumption))
    | exact Sub.of rfl
    | dsimp only

theorem State.publishIfDone_keeps {mk : Nat} {z s : State} (hk : Keeps mk z s) (stream epoch : Nat) (hm : Sub 0x11C24F7 mk := by exact Sub.of rfl) :
    Keeps mk z (State.publishIfDone s stream epoch) := by
  refine hk.within hm ?_
  replace hk : Keeps 0x11C24F7 s s := .refl _
  unfold State.publishIfDone
  repeat' first
    | with_reducible intro _
    | with_reducible assumption
    | with_reducible apply State.publish_keeps
    | (with_reducible apply Keeps.ite)
    | split
    | (refine Keeps.some ?_ (by assumption))
    | exact Sub.of rfl
    | dsimp only

theorem State.publishDone_keeps {mk : Nat} {z s : State} (hk : Keeps mk z s) (hm : Sub 0x11C24F7 mk := by exact Sub.of rfl) :
    Keeps mk z (State.publishDone s) := by
  refine hk.within hm ?_
  replace hk : Keeps 0x11C24F7 s s := .refl _
  unfold State.publishDone
  repeat' first
    | with_reducible intro _
    | with_reducible assumption
    | with_reducible apply State.publishIfDone_keeps
    | (with_reducible apply Keeps.foldl)
    | exact Sub.of rfl
    | dsimp only

theorem State.openEpoch_keeps {mk : Nat} {z s : State} (hk : Keeps mk z s) (stream epoch : Nat) (hm : Sub 0x10C24F7 mk := by exact Sub.of rfl) :
    Keeps mk z (State.openEpoch s stream epoch) := by
  refine hk.within hm ?_
  replace hk : Keeps 0x10C24F7 s s := .refl _
  unfold State.openEpoch
  repeat' first
    | (extract_lets -descend +onlyGivenNames x0; refine Keeps.cut (m := 0x10C24F7) (z := s) (v := x0) ?_ (fun h0 => ?_); rotate_left; clear_value x0; rotate_left; dsimp -zeta only [x0]; clear x0)
    | (extract_lets -descend +onlyGivenNames x0; clear_value x0)
    | with_reducible intro _
    | lift_lets
    | with_reducible assumption
    | (with_reducible first | apply State.modSlot_keeps | apply State.publishNow_keeps)
    | (with_reducible refine Keeps.mk0 ?_ ?g; (first | with_reducible assumption | (refine Keeps.snd ?_ (by assumption)) | (refine Keeps.some ?_ (by assumption)) | (with_reducible first | apply State.modSlot_keeps | apply State.publishNow_keeps)); with_reducible case g => exact fun h => Keeps.mk' h)
    | (with_reducible apply Keeps.ite)
    | (with_reducible apply Keeps.foldl)
    | split
    | (refine Keeps.some ?_ (by assumption))
    | exact Sub.of rfl
    | dsimp only

theorem State.modOpen_keeps {mk : Nat} {z s : State} (hk : Keeps mk z s) (stream epoch : Nat) (f : Open → Open) (hm : Sub 0x400 mk := by exact Sub.of rfl) :
    Keeps mk z (State.modOpen s stream epoch f) := by
  refine hk.within hm ?_
  replace hk : Keeps 0x400 s s := .refl _
  unfold State.modOpen
  repeat' first
    | with_reducible intro _
    | with_reducible assumption
    | with_reducible apply State.modSlot_keeps
    | (with_reducible refine Keeps.mk0 ?_ ?g; (first | with_reducible assumption | (refine Keeps.snd ?_ (by assumption)) | (refine Keeps.some ?_ (by assumption)) | (with_reducible first | apply State.modSlot_keeps)); with_reducible case g => exact fun h => Keeps.mk' h)
    | (with_reducible apply Keeps.ite)
    | split
    | exact Sub.of rfl
    | dsimp only

theorem State.logCtr_keeps {mk : Nat} {z s : State} (hk : Keeps mk z s) (stream : Nat) (e : Entry) (num : Nat) (hm : Sub 0x400 mk := by exact Sub.of rfl) :
    Keeps mk z (State.logCtr s stream e num) := by
  refine hk.within hm ?_
  replace hk : Keeps 0x400 s s := .refl _
  unfold State.logCtr
  repeat' first
    | with_reducible intro _
    | with_reducible assumption
    | with_reducible apply State.modSlot_keeps
    | (with_reducible refine Keeps.mk0 ?_ ?g; (first | with_reducible assumption | (refine Keeps.snd ?_ (by assumption)) | (refine Keeps.some ?_ (by assumption)) | (with_reducible first | apply State.modSlot_keeps)); with_reducible case g => exact fun h => Keeps.mk' h)
    | (with_reducible apply Keeps.ite)
    | split
    | (refine Keeps.some ?_ (by assumption))
    | exact Sub.of rfl
    | dsimp only

theorem State.openAtCut_keeps {mk : Nat} {z s : State} (hk : Keeps mk z s) (num : Nat) (hm : Sub 0x11C24F7 mk := by exact Sub.of rfl) :
    Keeps mk z (State.openAtCut s num) := by
  refine hk.within hm ?_
  replace hk : Keeps 0x11C24F7 s s := .refl _
  unfold State.openAtCut
  repeat' first
    | (extract_lets -descend +onlyGivenNames x0; refine Keeps.cut (m := 0x11C24F7) (z := s) (v := x0) ?_ (fun h0 => ?_); rotate_left; clear_value x0; rotate_left; dsimp -zeta only [x0]; clear x0)
    | (extract_lets -descend +onlyGivenNames x0; clear_value x0)
    | with_reducible intro _
    | lift_lets
    | with_reducible assumption
    | (with_reducible first | apply State.publishIfDone_keeps | apply State.openEpoch_keeps | apply State.modOpen_keeps | apply State.logCtr_keeps)
    | (with_reducible refine Keeps.mk0 ?_ ?g; (first | with_reducible assumption | (refine Keeps.snd ?_ (by assumption)) | (refine Keeps.some ?_ (by assumption)) | (with_reducible first | apply State.publishIfDone_keeps | apply State.openEpoch_keeps | apply State.modOpen_keeps | apply State.logCtr_keeps)); with_reducible case g => exact fun h => Keeps.mk' h)
    | (with_reducible apply Keeps.ite)
    | (with_reducible apply Keeps.foldl)
    | split
    | (refine Keeps.some ?_ (by assumption))
    | exact Sub.of rfl
    | dsimp only

theorem State.convoyLate_keeps {mk : Nat} {z s : State} (hk : Keeps mk z s) (i : Nat) (r : Rec) (epoch bit : Nat) (hm : Sub 0x443 mk := by exact Sub.of rfl) :
    Keeps mk z (State.convoyLate s i r epoch bit) := by
  refine hk.within hm ?_
  replace hk : Keeps 0x443 s s := .refl _
  unfold State.convoyLate
  repeat' first
    | (extract_lets -descend +onlyGivenNames x0; refine Keeps.cut (m := 0x443) (z := s) (v := x0) ?_ (fun h0 => ?_); rotate_left; clear_value x0; rotate_left; dsimp -zeta only [x0]; clear x0)
    | (extract_lets -descend +onlyGivenNames x0; clear_value x0)
    | with_reducible intro _
    | lift_lets
    | with_reducible assumption
    | (with_reducible first | apply State.wr_keeps | apply State.bumpSat_keeps | apply State.irq_keeps | apply State.modSlot_keeps | apply State.convoyDrop_keeps)
    | (with_reducible refine Keeps.mk0 ?_ ?g; (first | with_reducible assumption | (refine Keeps.snd ?_ (by assumption)) | (refine Keeps.some ?_ (by assumption)) | (with_reducible first | apply State.wr_keeps | apply State.bumpSat_keeps | apply State.irq_keeps | apply State.modSlot_keeps | apply State.convoyDrop_keeps)); with_reducible case g => exact fun h => Keeps.mk' h)
    | (with_reducible apply Keeps.ite)
    | (with_reducible apply Keeps.foldl)
    | split
    | (refine Keeps.some ?_ (by assumption))
    | exact Sub.of rfl
    | dsimp only

theorem State.mergeAdopted_keeps {mk : Nat} {z s : State} (hk : Keeps mk z s) (stream epoch : Nat) (c : Contr) (hm : Sub 0x440 mk := by exact Sub.of rfl) :
    Keeps mk z (State.mergeAdopted s stream epoch c) := by
  refine hk.within hm ?_
  replace hk : Keeps 0x440 s s := .refl _
  unfold State.mergeAdopted
  repeat' first
    | with_reducible intro _
    | with_reducible assumption
    | (with_reducible first | apply State.produced_keeps | apply State.merged_keeps | apply State.modOpen_keeps)
    | (with_reducible refine Keeps.mk0 ?_ ?g; (first | with_reducible assumption | (refine Keeps.snd ?_ (by assumption)) | (refine Keeps.some ?_ (by assumption)) | (with_reducible first | apply State.produced_keeps | apply State.merged_keeps | apply State.modOpen_keeps)); with_reducible case g => exact fun h => Keeps.mk' h)
    | exact Sub.of rfl
    | dsimp only

theorem State.resolveAdopted_keeps {mk : Nat} {z s : State} (hk : Keeps mk z s) (i stream epoch port : Nat) (h : CHdr) (hm : Sub 0x441 mk := by exact Sub.of rfl) :
    Keeps mk z (State.resolveAdopted s i stream epoch port h) := by
  refine hk.within hm ?_
  replace hk : Keeps 0x441 s s := .refl _
  unfold State.resolveAdopted
  repeat' first
    | (extract_lets -descend +onlyGivenNames x0; refine Keeps.cut (m := 0x441) (z := s) (v := x0) ?_ (fun h0 => ?_); rotate_left; clear_value x0; rotate_left; dsimp -zeta only [x0]; clear x0)
    | (extract_lets -descend +onlyGivenNames x0; clear_value x0)
    | with_reducible intro _
    | lift_lets
    | with_reducible assumption
    | (with_reducible first | apply State.convoyDup_keeps | apply State.modOpen_keeps | apply State.mergeAdopted_keeps)
    | (with_reducible refine Keeps.mk0 ?_ ?g; (first | with_reducible assumption | (refine Keeps.snd ?_ (by assumption)) | (refine Keeps.some ?_ (by assumption)) | (with_reducible first | apply State.convoyDup_keeps | apply State.modOpen_keeps | apply State.mergeAdopted_keeps)); with_reducible case g => exact fun h => Keeps.mk' h)
    | (with_reducible apply Keeps.ite)
    | (with_reducible apply Keeps.foldl)
    | split
    | (refine Keeps.some ?_ (by assumption))
    | exact Sub.of rfl
    | dsimp only

theorem State.convoyMerge_keeps {mk : Nat} {z s : State} (hk : Keeps mk z s) (i port bit : Nat) (r : Rec) (h : CHdr) (hm : Sub 0x11C24F7 mk := by exact Sub.of rfl) :
    Keeps mk z (State.convoyMerge s i port bit r h) := by
  refine hk.within hm ?_
  replace hk : Keeps 0x11C24F7 s s := .refl _
  unfold State.convoyMerge
  repeat' first
    | (extract_lets -descend +onlyGivenNames x0; refine Keeps.cut (m := 0x11C24F7) (z := s) (v := x0) ?_ (fun h0 => ?_); rotate_left; clear_value x0; rotate_left; dsimp -zeta only [x0]; clear x0)
    | (extract_lets -descend +onlyGivenNames x0; clear_value x0)
    | with_reducible intro _
    | lift_lets
    | with_reducible assumption
    | (with_reducible first | apply State.produced_keeps | apply State.merged_keeps | apply State.convoyDup_keeps | apply State.publishIfDone_keeps | apply State.modOpen_keeps | apply State.resolveAdopted_keeps)
    | (with_reducible refine Keeps.mk0 ?_ ?g; (first | with_reducible assumption | (refine Keeps.snd ?_ (by assumption)) | (refine Keeps.some ?_ (by assumption)) | (with_reducible first | apply State.produced_keeps | apply State.merged_keeps | apply State.convoyDup_keeps | apply State.publishIfDone_keeps | apply State.modOpen_keeps | apply State.resolveAdopted_keeps)); with_reducible case g => exact fun h => Keeps.mk' h)
    | (with_reducible apply Keeps.ite)
    | (with_reducible apply Keeps.foldl)
    | split
    | (refine Keeps.some ?_ (by assumption))
    | exact Sub.of rfl
    | dsimp only

theorem State.beginAdopt_keeps {mk : Nat} {z s : State} (hk : Keeps mk z s) (a : Adopt) (hm : Sub 0x423 mk := by exact Sub.of rfl) :
    Keeps mk z (State.beginAdopt s a).2 := by
  refine hk.within hm ?_
  replace hk : Keeps 0x423 s s := .refl _
  unfold State.beginAdopt
  repeat' first
    | (extract_lets -descend +onlyGivenNames x0; refine Keeps.cut (m := 0x423) (z := s) (v := x0) ?_ (fun h0 => ?_); rotate_left; clear_value x0; rotate_left; dsimp -zeta only [x0]; clear x0)
    | (extract_lets -descend +onlyGivenNames x0; clear_value x0)
    | with_reducible intro _
    | lift_lets
    | with_reducible assumption
    | (with_reducible first | apply State.irq_keeps | apply State.showAdopted_keeps)
    | (with_reducible refine Keeps.mk0 ?_ ?g; (first | with_reducible assumption | (refine Keeps.snd ?_ (by assumption)) | (refine Keeps.some ?_ (by assumption)) | (with_reducible first | apply State.irq_keeps | apply State.showAdopted_keeps)); with_reducible case g => exact fun h => Keeps.mk' h)
    | (with_reducible apply Keeps.ite)
    | split
    | (refine Keeps.snd ?_ (by assumption))
    | exact Sub.of rfl
    | dsimp only

theorem State.adoptPacket_keeps {mk : Nat} {z s : State} (hk : Keeps mk z s) (k i : Nat) (a : Adopt) (e : Entry) (r : Rec) (h : CHdr) (hm : Sub 0xC24F7 mk := by exact Sub.of rfl) :
    Keeps mk z (State.adoptPacket s k i a e r h) := by
  refine hk.within hm ?_
  replace hk : Keeps 0xC24F7 s s := .refl _
  unfold State.adoptPacket
  repeat' first
    | (extract_lets -descend +onlyGivenNames x0; refine Keeps.cut (m := 0xC24F7) (z := s) (v := x0) ?_ (fun h0 => ?_); rotate_left; clear_value x0; rotate_left; dsimp -zeta only [x0]; clear x0)
    | (extract_lets -descend +onlyGivenNames x0; clear_value x0)
    | with_reducible intro _
    | lift_lets
    | with_reducible assumption
    | (with_reducible first | apply State.produced_keeps | apply State.event_keeps | apply State.sendRoot_keeps | apply State.convoyDup_keeps | apply State.modOpen_keeps | apply State.mergeAdopted_keeps | apply State.beginAdopt_keeps)
    | (with_reducible refine Keeps.mk0 ?_ ?g; (first | with_reducible assumption | (refine Keeps.snd ?_ (by assumption)) | (refine Keeps.some ?_ (by assumption)) | (with_reducible first | apply State.produced_keeps | apply State.event_keeps | apply State.sendRoot_keeps | apply State.convoyDup_keeps | apply State.modOpen_keeps | apply State.mergeAdopted_keeps | apply State.beginAdopt_keeps)); with_reducible case g => exact fun h => Keeps.mk' h)
    | (with_reducible apply Keeps.ite)
    | split
    | (refine Keeps.some ?_ (by assumption))
    | (refine Keeps.snd ?_ (by assumption))
    | exact Sub.of rfl
    | dsimp only

theorem State.convoyTake_keeps {mk : Nat} {z s : State} (hk : Keeps mk z s) (port : Nat) (r : Rec) (hm : Sub 0x11C24F7 mk := by exact Sub.of rfl) :
    Keeps mk z (State.convoyTake s port r) := by
  refine hk.within hm ?_
  replace hk : Keeps 0x11C24F7 s s := .refl _
  unfold State.convoyTake
  repeat' first
    | (extract_lets -descend +onlyGivenNames x0; refine Keeps.cut (m := 0x11C24F7) (z := s) (v := x0) ?_ (fun h0 => ?_); rotate_left; clear_value x0; rotate_left; dsimp -zeta only [x0]; clear x0)
    | (extract_lets -descend +onlyGivenNames x0; clear_value x0)
    | with_reducible intro _
    | lift_lets
    | with_reducible assumption
    | (with_reducible first | apply State.convoyDrop_keeps | apply State.convoyDup_keeps | apply State.openEpoch_keeps | apply State.convoyLate_keeps | apply State.convoyMerge_keeps | apply State.adoptPacket_keeps)
    | (with_reducible refine Keeps.mk0 ?_ ?g; (first | with_reducible assumption | (refine Keeps.snd ?_ (by assumption)) | (refine Keeps.some ?_ (by assumption)) | (with_reducible first | apply State.convoyDrop_keeps | apply State.convoyDup_keeps | apply State.openEpoch_keeps | apply State.convoyLate_keeps | apply State.convoyMerge_keeps | apply State.adoptPacket_keeps)); with_reducible case g => exact fun h => Keeps.mk' h)
    | (with_reducible apply Keeps.ite)
    | split
    | (refine Keeps.some ?_ (by assumption))
    | exact Sub.of rfl
    | dsimp only

theorem State.convoyPacket_keeps {mk : Nat} {z s : State} (hk : Keeps mk z s) (port : Nat) (r : Rec) (hm : Sub 0x11C24F7 mk := by exact Sub.of rfl) :
    Keeps mk z (State.convoyPacket s port r) := by
  refine hk.within hm ?_
  replace hk : Keeps 0x11C24F7 s s := .refl _
  unfold State.convoyPacket
  repeat' first
    | with_reducible intro _
    | with_reducible assumption
    | (with_reducible first | apply State.convoyDrop_keeps | apply State.workOr_keeps | apply State.convoyTake_keeps)
    | (with_reducible apply Keeps.ite)
    | split
    | exact Sub.of rfl
    | dsimp only

theorem State.holdBackGo_keeps {mk : Nat} {z s : State} (hk : Keeps mk z s) (hm : Sub 0x11C24F7 mk := by exact Sub.of rfl) :
    Keeps mk z (State.holdBackGo s) := by
  refine hk.within hm ?_
  replace hk : Keeps 0x11C24F7 s s := .refl _
  unfold State.holdBackGo
  repeat' first
    | (extract_lets -descend +onlyGivenNames x0; refine Keeps.cut (m := 0x11C24F7) (z := s) (v := x0) ?_ (fun h0 => ?_); rotate_left; clear_value x0; rotate_left; dsimp -zeta only [x0]; clear x0)
    | (extract_lets -descend +onlyGivenNames x0; clear_value x0)
    | with_reducible intro _
    | lift_lets
    | with_reducible assumption
    | with_reducible apply State.convoyPacket_keeps
    | (with_reducible refine Keeps.mk0 ?_ ?g; (first | with_reducible assumption | (refine Keeps.snd ?_ (by assumption)) | (refine Keeps.some ?_ (by assumption)) | (with_reducible first | apply State.convoyPacket_keeps)); with_reducible case g => exact fun h => Keeps.mk' h)
    | (with_reducible apply Keeps.foldl)
    | exact Sub.of rfl
    | dsimp only

theorem State.peerAdmit_keeps {mk : Nat} {z s : State} (hk : Keeps mk z s) (r : Rec) (hm : Sub 0x440 mk := by exact Sub.of rfl) :
    Keeps mk z (State.peerAdmit s r).2 := by
  refine hk.within hm ?_
  replace hk : Keeps 0x440 s s := .refl _
  unfold State.peerAdmit
  repeat' first
    | with_reducible assumption
    | with_reducible apply State.takeDrop_keeps
    | (with_reducible apply Keeps.ite)
    | split
    | (refine Keeps.snd ?_ (by assumption))
    | exact Sub.of rfl
    | dsimp only

theorem State.convoyAdmit_keeps {mk : Nat} {z s : State} (hk : Keeps mk z s) (port : Nat) (r : Rec) (hm : Sub 0x804F7 mk := by exact Sub.of rfl) :
    Keeps mk z (State.convoyAdmit s port r).2 := by
  refine hk.within hm ?_
  replace hk : Keeps 0x804F7 s s := .refl _
  unfold State.convoyAdmit
  repeat' first
    | with_reducible assumption
    | (with_reducible first | apply State.admitRec_keeps | apply State.peerAdmit_keeps)
    | (with_reducible apply Keeps.ite)
    | split
    | exact Sub.of rfl
    | dsimp only

theorem execConvoyPacketReceived_keeps {mk : Nat} {z s : State} (hk : Keeps mk z s) (port : Nat) (rec : Rec) (hm : Sub 0x11C24F7 mk := by exact Sub.of rfl) :
    KeepsR mk z (execConvoyPacketReceived port rec s) := by
  refine KeepsR.within hk hm ?_
  replace hk : Keeps 0x11C24F7 s s := .refl _
  unfold execConvoyPacketReceived
  repeat' first
    | (extract_lets -descend +onlyGivenNames x0; refine Keeps.cut (m := 0x11C24F7) (z := s) (v := x0) ?_ (fun h0 => ?_); rotate_left; clear_value x0; rotate_left; dsimp -zeta only [x0]; clear x0)
    | (extract_lets -descend +onlyGivenNames x0; clear_value x0)
    | lift_lets
    | with_reducible assumption
    | (with_reducible first | apply KeepsR.present | apply KeepsR.next | exact KeepsR.fault | apply present_keeps | apply State.convoyPacket_keeps | apply State.convoyAdmit_keeps)
    | (with_reducible apply Keeps.ite)
    | split
    | (refine Keeps.snd ?_ (by assumption))
    | exact Sub.of rfl
    | dsimp only

theorem State.contribute_keeps {mk : Nat} {z s : State} (hk : Keeps mk z s) (stream : Nat) (o : Open) (sv : SrcVal) (hm : Sub 0x11C24F7 mk := by exact Sub.of rfl) :
    Keeps mk z (State.contribute s stream o sv) := by
  refine hk.within hm ?_
  replace hk : Keeps 0x11C24F7 s s := .refl _
  unfold State.contribute
  repeat' first
    | (extract_lets -descend +onlyGivenNames x0; refine Keeps.cut (m := 0x11C24F7) (z := s) (v := x0) ?_ (fun h0 => ?_); rotate_left; clear_value x0; rotate_left; dsimp -zeta only [x0]; clear x0)
    | (extract_lets -descend +onlyGivenNames x0; clear_value x0)
    | with_reducible intro _
    | lift_lets
    | with_reducible assumption
    | (with_reducible first | apply State.publish_keeps | apply State.publishIfDone_keeps | apply State.modOpen_keeps)
    | (with_reducible refine Keeps.mk0 ?_ ?g; (first | with_reducible assumption | (refine Keeps.snd ?_ (by assumption)) | (refine Keeps.some ?_ (by assumption)) | (with_reducible first | apply State.publish_keeps | apply State.publishIfDone_keeps | apply State.modOpen_keeps)); with_reducible case g => exact fun h => Keeps.mk' h)
    | (with_reducible apply Keeps.ite)
    | split
    | exact Sub.of rfl
    | dsimp only

theorem State.ownFrom_keeps {mk : Nat} {z s : State} (hk : Keeps mk z s) (stream : Nat) (img : Image) (hm : Sub 0x11C24F7 mk := by exact Sub.of rfl) :
    Keeps mk z (State.ownFrom s stream img) := by
  refine hk.within hm ?_
  replace hk : Keeps 0x11C24F7 s s := .refl _
  unfold State.ownFrom
  repeat' first
    | (extract_lets -descend +onlyGivenNames x0; refine Keeps.cut (m := 0x11C24F7) (z := s) (v := x0) ?_ (fun h0 => ?_); rotate_left; clear_value x0; rotate_left; dsimp -zeta only [x0]; clear x0)
    | (extract_lets -descend +onlyGivenNames x0; clear_value x0)
    | with_reducible intro _
    | lift_lets
    | with_reducible assumption
    | (with_reducible first | apply State.publishIfDone_keeps | apply State.openEpoch_keeps | apply State.contribute_keeps)
    | (with_reducible apply Keeps.ite)
    | split
    | (refine Keeps.some ?_ (by assumption))
    | exact Sub.of rfl
    | dsimp only

theorem State.ownContribution_keeps {mk : Nat} {z s : State} (hk : Keeps mk z s) (i : Nat) (hm : Sub 0x11C24F7 mk := by exact Sub.of rfl) :
    Keeps mk z (State.ownContribution s i) := by
  refine hk.within hm ?_
  replace hk : Keeps 0x11C24F7 s s := .refl _
  unfold State.ownContribution
  repeat' first
    | with_reducible intro _
    | with_reducible assumption
    | with_reducible apply State.ownFrom_keeps
    | (with_reducible apply Keeps.foldl)
    | split
    | (refine Keeps.some ?_ (by assumption))
    | exact Sub.of rfl
    | dsimp only

theorem execConvoyContribution_keeps {mk : Nat} {z s : State} (hk : Keeps mk z s) (slot : Nat) (hm : Sub 0x11C24F7 mk := by exact Sub.of rfl) :
    KeepsR mk z (execConvoyContribution slot s) := by
  refine KeepsR.within hk hm ?_
  replace hk : Keeps 0x11C24F7 s s := .refl _
  unfold execConvoyContribution
  repeat' first
    | with_reducible assumption
    | (with_reducible first | apply KeepsR.present | apply KeepsR.next | exact KeepsR.fault | apply present_keeps | apply State.ownContribution_keeps)
    | exact Sub.of rfl
    | dsimp only

theorem execConvoyDeadline_keeps {mk : Nat} {z s : State} (hk : Keeps mk z s) (slot : Nat) (hm : Sub 0x11C24F7 mk := by exact Sub.of rfl) :
    KeepsR mk z (execConvoyDeadline slot s) := by
  refine KeepsR.within hk hm ?_
  replace hk : Keeps 0x11C24F7 s s := .refl _
  unfold execConvoyDeadline
  repeat' first
    | with_reducible intro _
    | with_reducible assumption
    | (with_reducible first | apply KeepsR.present | apply KeepsR.next | exact KeepsR.fault | apply present_keeps | apply State.publish_keeps)
    | (with_reducible apply Keeps.ite)
    | (with_reducible apply Keeps.foldl)
    | split
    | (refine Keeps.some ?_ (by assumption))
    | exact Sub.of rfl
    | dsimp only

theorem State.slotPost_keeps {mk : Nat} {z s : State} (hk : Keeps mk z s) (i hi : Nat) (hm : Sub 0x11C24F7 mk := by exact Sub.of rfl) :
    Keeps mk z (State.slotPost s i hi) := by
  refine hk.within hm ?_
  replace hk : Keeps 0x11C24F7 s s := .refl _
  unfold State.slotPost
  repeat' first
    | with_reducible intro _
    | with_reducible assumption
    | with_reducible apply State.contribute_keeps
    | (with_reducible apply Keeps.ite)
    | split
    | (refine Keeps.some ?_ (by assumption))
    | exact Sub.of rfl
    | dsimp only

theorem execSlotPost_keeps {mk : Nat} {z s : State} (hk : Keeps mk z s) (a : Acc) (slot : Nat) (data : Word) (hm : Sub 0x11C24F7 mk := by exact Sub.of rfl) :
    KeepsR mk z (execSlotPost a slot data s) := by
  refine KeepsR.within hk hm ?_
  replace hk : Keeps 0x11C24F7 s s := .refl _
  unfold execSlotPost
  repeat' first
    | (extract_lets -descend +onlyGivenNames x0; refine Keeps.cut (m := 0x11C24F7) (z := s) (v := x0) ?_ (fun h0 => ?_); rotate_left; clear_value x0; rotate_left; dsimp -zeta only [x0]; clear x0)
    | (extract_lets -descend +onlyGivenNames x0; clear_value x0)
    | with_reducible intro _
    | lift_lets
    | with_reducible assumption
    | (with_reducible first | apply KeepsR.present | apply KeepsR.next | exact KeepsR.fault | apply State.guardedWrite_keeps | apply State.slotPost_keeps)
    | (with_reducible apply Keeps.ite)
    | split
    | exact Sub.of rfl
    | dsimp only

theorem State.resultTake_keeps {mk : Nat} {z s : State} (hk : Keeps mk z s) (_port : Nat) (r : Rec) (hm : Sub 0xC24F7 mk := by exact Sub.of rfl) :
    Keeps mk z (State.resultTake s _port r) := by
  refine hk.within hm ?_
  replace hk : Keeps 0xC24F7 s s := .refl _
  unfold State.resultTake
  repeat' first
    | (extract_lets -descend +onlyGivenNames x0; refine Keeps.cut (m := 0xC24F7) (z := s) (v := x0) ?_ (fun h0 => ?_); rotate_left; clear_value x0; rotate_left; dsimp -zeta only [x0]; clear x0)
    | (extract_lets -descend +onlyGivenNames x0; first
        | ((with_reducible first | have _w : LinkSt := x0 | have _w : TimeSt := x0 | have _w : PowerSt := x0 | have _w : SampSt := x0 | have _w : FwSt := x0 | have _w : AuthSt := x0 | have _w : PulseSt := x0 | have _w : CoreSt := x0); clear _w; dsimp -zeta only [x0]; clear x0)
        | clear_value x0)
    | with_reducible intro _
    | lift_lets
    | with_reducible assumption
    | (with_reducible first | apply KeepsR.present | apply KeepsR.next | exact KeepsR.fault | exact KeepsO.none | apply KeepsO.some | apply State.bumpSat_keeps | apply State.bcastStart_keeps | apply State.applyResult_keeps | apply State.convoyDrop_keeps | apply State.convoyDup_keeps)
    | (with_reducible refine State.modRegion_keeps ?_ _ _ (fun _ w => w))
    | (with_reducible refine State.modFw_keeps ?_ _ ⟨rfl, rfl⟩)
    | (with_reducible refine State.modAuth_keeps ?_ _ ⟨rfl, rfl⟩)
    | (with_reducible refine Keeps.mk0 ?_ ?g; (first | with_reducible assumption | (refine Keeps.snd ?_ (by assumption)) | (refine Keeps.some ?_ (by assumption)) | (with_reducible first | apply State.bumpSat_keeps | apply State.bcastStart_keeps | apply State.applyResult_keeps | apply State.convoyDrop_keeps | apply State.convoyDup_keeps)); with_reducible case g => exact fun h => Keeps.mk' h)
    | (with_reducible apply Keeps.ite)
    | (with_reducible apply Keeps.foldl)
    | (with_reducible apply Keeps.foldlSnd)
    | (with_reducible apply Keeps.foldlFst)
    | split
    | (refine Keeps.some ?_ (by assumption))
    | (refine Keeps.snd ?_ (by assumption))
    | exact Sub.of rfl
    | dsimp only

theorem State.resultPacket_keeps {mk : Nat} {z s : State} (hk : Keeps mk z s) (port : Nat) (r : Rec) (hm : Sub 0x1C24F7 mk := by exact Sub.of rfl) :
    Keeps mk z (State.resultPacket s port r) := by
  refine hk.within hm ?_
  replace hk : Keeps 0x1C24F7 s s := .refl _
  unfold State.resultPacket
  repeat' first
    | with_reducible intro _
    | with_reducible assumption
    | (with_reducible first | apply State.convoyDrop_keeps | apply State.workOr_keeps | apply State.resultTake_keeps)
    | (with_reducible apply Keeps.ite)
    | split
    | exact Sub.of rfl
    | dsimp only

theorem execBroadcastResultReceived_keeps {mk : Nat} {z s : State} (hk : Keeps mk z s) (port : Nat) (rec : Rec) (hm : Sub 0x1C24F7 mk := by exact Sub.of rfl) :
    KeepsR mk z (execBroadcastResultReceived port rec s) := by
  refine KeepsR.within hk hm ?_
  replace hk : Keeps 0x1C24F7 s s := .refl _
  unfold execBroadcastResultReceived
  repeat' first
    | (extract_lets -descend +onlyGivenNames x0; refine Keeps.cut (m := 0x1C24F7) (z := s) (v := x0) ?_ (fun h0 => ?_); rotate_left; clear_value x0; rotate_left; dsimp -zeta only [x0]; clear x0)
    | (extract_lets -descend +onlyGivenNames x0; clear_value x0)
    | lift_lets
    | with_reducible assumption
    | (with_reducible first | apply KeepsR.present | apply KeepsR.next | exact KeepsR.fault | apply present_keeps | apply State.convoyAdmit_keeps | apply State.resultPacket_keeps)
    | (with_reducible apply Keeps.ite)
    | split
    | (refine Keeps.snd ?_ (by assumption))
    | exact Sub.of rfl
    | dsimp only

theorem State.bcastRetry_keeps {mk : Nat} {z s : State} (hk : Keeps mk z s) (stream child : Nat) (b : Bcast) (hm : Sub 0xC24F7 mk := by exact Sub.of rfl) :
    Keeps mk z (State.bcastRetry s stream child b) := by
  refine hk.within hm ?_
  replace hk : Keeps 0xC24F7 s s := .refl _
  unfold State.bcastRetry
  repeat' first
    | (extract_lets -descend +onlyGivenNames x0; refine Keeps.cut (m := 0xC24F7) (z := s) (v := x0) ?_ (fun h0 => ?_); rotate_left; clear_value x0; rotate_left; dsimp -zeta only [x0]; clear x0)
    | (extract_lets -descend +onlyGivenNames x0; clear_value x0)
    | with_reducible intro _
    | lift_lets
    | with_reducible assumption
    | (with_reducible first | apply State.orphan_keeps | apply State.bcastTo_keeps)
    | (with_reducible apply Keeps.ite)
    | split
    | (refine Keeps.some ?_ (by assumption))
    | exact Sub.of rfl
    | dsimp only

theorem execBroadcastRetryTimeout_keeps {mk : Nat} {z s : State} (hk : Keeps mk z s) (slot child : Nat) (hm : Sub 0xC24F7 mk := by exact Sub.of rfl) :
    KeepsR mk z (execBroadcastRetryTimeout slot child s) := by
  refine KeepsR.within hk hm ?_
  replace hk : Keeps 0xC24F7 s s := .refl _
  unfold execBroadcastRetryTimeout
  repeat' first
    | with_reducible intro _
    | with_reducible assumption
    | (with_reducible first | apply KeepsR.present | apply KeepsR.next | exact KeepsR.fault | apply present_keeps | apply State.bcastRetry_keeps)
    | (with_reducible apply Keeps.foldl)
    | split
    | (refine Keeps.some ?_ (by assumption))
    | exact Sub.of rfl
    | dsimp only

theorem State.reachOrphan_keeps {mk : Nat} {z s : State} (hk : Keeps mk z s) (stream epoch id : Nat) (hm : Sub 0xC2431 mk := by exact Sub.of rfl) :
    Keeps mk z (State.reachOrphan s stream epoch id) := by
  refine hk.within hm ?_
  replace hk : Keeps 0xC2431 s s := .refl _
  unfold State.reachOrphan
  repeat' first
    | (extract_lets -descend +onlyGivenNames x0; refine Keeps.cut (m := 0xC2431) (z := s) (v := x0) ?_ (fun h0 => ?_); rotate_left; clear_value x0; rotate_left; dsimp -zeta only [x0]; clear x0)
    | (extract_lets -descend +onlyGivenNames x0; clear_value x0)
    | with_reducible intro _
    | lift_lets
    | with_reducible assumption
    | (with_reducible first | apply State.enqueue_keeps | apply State.newPend_keeps | apply State.peerSend_keeps | apply State.modBcast_keeps)
    | (with_reducible refine Keeps.mk0 ?_ ?g; (first | with_reducible assumption | (refine Keeps.snd ?_ (by assumption)) | (refine Keeps.some ?_ (by assumption)) | (with_reducible first | apply State.enqueue_keeps | apply State.newPend_keeps | apply State.peerSend_keeps | apply State.modBcast_keeps)); with_reducible case g => exact fun h => Keeps.mk' h)
    | (with_reducible apply Keeps.ite)
    | split
    | (refine Keeps.some ?_ (by assumption))
    | (refine Keeps.snd ?_ (by assumption))
    | exact Sub.of rfl
    | dsimp only

theorem State.reachPacket_keeps {mk : Nat} {z s : State} (hk : Keeps mk z s) (port : Nat) (r : Rec) (hm : Sub 0xC24F7 mk := by exact Sub.of rfl) :
    Keeps mk z (State.reachPacket s port r) := by
  refine hk.within hm ?_
  replace hk : Keeps 0xC24F7 s s := .refl _
  unfold State.reachPacket
  repeat' first
    | (extract_lets -descend +onlyGivenNames x0; refine Keeps.cut (m := 0xC24F7) (z := s) (v := x0) ?_ (fun h0 => ?_); rotate_left; clear_value x0; rotate_left; dsimp -zeta only [x0]; clear x0)
    | (extract_lets -descend +onlyGivenNames x0; clear_value x0)
    | with_reducible intro _
    | lift_lets
    | with_reducible assumption
    | (with_reducible first | apply State.modBcast_keeps | apply State.reachCheck_keeps | apply State.reachLate_keeps | apply State.convoyDrop_keeps | apply State.reachOrphan_keeps)
    | (with_reducible refine Keeps.mk0 ?_ ?g; (first | with_reducible assumption | (refine Keeps.snd ?_ (by assumption)) | (refine Keeps.some ?_ (by assumption)) | (with_reducible first | apply State.modBcast_keeps | apply State.reachCheck_keeps | apply State.reachLate_keeps | apply State.convoyDrop_keeps | apply State.reachOrphan_keeps)); with_reducible case g => exact fun h => Keeps.mk' h)
    | (with_reducible apply Keeps.ite)
    | (with_reducible apply Keeps.foldl)
    | split
    | (refine Keeps.some ?_ (by assumption))
    | exact Sub.of rfl
    | dsimp only

theorem execReachReportReceived_keeps {mk : Nat} {z s : State} (hk : Keeps mk z s) (port : Nat) (rec : Rec) (hm : Sub 0xC24F7 mk := by exact Sub.of rfl) :
    KeepsR mk z (execReachReportReceived port rec s) := by
  refine KeepsR.within hk hm ?_
  replace hk : Keeps 0xC24F7 s s := .refl _
  unfold execReachReportReceived
  repeat' first
    | (extract_lets -descend +onlyGivenNames x0; refine Keeps.cut (m := 0xC24F7) (z := s) (v := x0) ?_ (fun h0 => ?_); rotate_left; clear_value x0; rotate_left; dsimp -zeta only [x0]; clear x0)
    | (extract_lets -descend +onlyGivenNames x0; clear_value x0)
    | lift_lets
    | with_reducible assumption
    | (with_reducible first | apply KeepsR.present | apply KeepsR.next | exact KeepsR.fault | apply present_keeps | apply State.convoyAdmit_keeps | apply State.reachPacket_keeps)
    | (with_reducible apply Keeps.ite)
    | split
    | (refine Keeps.snd ?_ (by assumption))
    | exact Sub.of rfl
    | dsimp only

theorem execReachReportTimeout_keeps {mk : Nat} {z s : State} (hk : Keeps mk z s) (slot : Nat) (hm : Sub 0xC2471 mk := by exact Sub.of rfl) :
    KeepsR mk z (execReachReportTimeout slot s) := by
  refine KeepsR.within hk hm ?_
  replace hk : Keeps 0xC2471 s s := .refl _
  unfold execReachReportTimeout
  repeat' first
    | with_reducible intro _
    | with_reducible assumption
    | (with_reducible first | apply KeepsR.present | apply KeepsR.next | exact KeepsR.fault | apply present_keeps | apply State.reachReport_keeps)
    | (with_reducible apply Keeps.ite)
    | (with_reducible apply Keeps.foldl)
    | split
    | (refine Keeps.some ?_ (by assumption))
    | exact Sub.of rfl
    | dsimp only

theorem State.reattach_keeps {mk : Nat} {z s : State} (hk : Keeps mk z s) (i child : Nat) (hm : Sub 0x421 mk := by exact Sub.of rfl) :
    Keeps mk z (State.reattach s i child) := by
  refine hk.within hm ?_
  replace hk : Keeps 0x421 s s := .refl _
  unfold State.reattach
  repeat' first
    | (extract_lets -descend +onlyGivenNames x0; refine Keeps.cut (m := 0x421) (z := s) (v := x0) ?_ (fun h0 => ?_); rotate_left; clear_value x0; rotate_left; dsimp -zeta only [x0]; clear x0)
    | (extract_lets -descend +onlyGivenNames x0; clear_value x0)
    | with_reducible intro _
    | lift_lets
    | with_reducible assumption
    | with_reducible apply State.showAdopted_keeps
    | (with_reducible refine Keeps.mk0 ?_ ?g; (first | with_reducible assumption | (refine Keeps.snd ?_ (by assumption)) | (refine Keeps.some ?_ (by assumption)) | (with_reducible first | apply State.showAdopted_keeps)); with_reducible case g => exact fun h => Keeps.mk' h)
    | (with_reducible apply Keeps.ite)
    | split
    | (refine Keeps.some ?_ (by assumption))
    | exact Sub.of rfl
    | dsimp only

theorem execReattachHoldExpiry_keeps {mk : Nat} {z s : State} (hk : Keeps mk z s) (slot child : Nat) (hm : Sub 0x421 mk := by exact Sub.of rfl) :
    KeepsR mk z (execReattachHoldExpiry slot child s) := by
  refine KeepsR.within hk hm ?_
  replace hk : Keeps 0x421 s s := .refl _
  unfold execReattachHoldExpiry
  repeat' first
    | with_reducible assumption
    | (with_reducible first | apply KeepsR.present | apply KeepsR.next | exact KeepsR.fault | apply present_keeps | apply State.reattach_keeps)
    | exact Sub.of rfl
    | dsimp only

theorem State.convoyWork_keepsAux {z s : State} (hk : Keeps 0x11C24F7 z s) (n : Nat) : Keeps 0x11C24F7 z (State.convoyWork n s) := by
  induction n generalizing s with
  | zero => exact hk
  | succ n ih =>
    unfold State.convoyWork
    repeat' first
      | (extract_lets -descend +onlyGivenNames x0; refine Keeps.cut (m := 0x11C24F7) (z := z) (v := x0) ?_ (fun h0 => ?_); rotate_left; clear_value x0; rotate_left; dsimp -zeta only [x0]; clear x0)
      | (extract_lets -descend +onlyGivenNames x0; clear_value x0)
      | lift_lets
      | with_reducible assumption
      | (with_reducible first | apply ih | apply State.grant_keeps | apply State.publishNow_keeps | apply State.publish_keeps | apply State.convoyTake_keeps | apply State.resultTake_keeps)
      | (with_reducible refine Keeps.mk0 ?_ ?g; (first | with_reducible assumption | (refine Keeps.snd ?_ (by assumption)) | (refine Keeps.some ?_ (by assumption)) | (with_reducible first | apply ih | apply State.grant_keeps | apply State.publishNow_keeps | apply State.publish_keeps | apply State.convoyTake_keeps | apply State.resultTake_keeps)); with_reducible case g => exact fun h => Keeps.mk' h)
      | split
      | (refine Keeps.some ?_ (by assumption))
      | exact Sub.of rfl
      | dsimp only

theorem State.convoyWork_keeps {mk : Nat} {z s : State} (h : Keeps mk z s) (n : Nat) (hm : Sub 0x11C24F7 mk := by exact Sub.of rfl) : Keeps mk z (State.convoyWork n s) :=
  h.within hm (State.convoyWork_keepsAux (.refl _) n)

theorem State.convoyDrain_keeps {mk : Nat} {z s : State} (hk : Keeps mk z s) (hm : Sub 0x11C24F7 mk := by exact Sub.of rfl) :
    Keeps mk z (State.convoyDrain s) := by
  refine hk.within hm ?_
  replace hk : Keeps 0x11C24F7 s s := .refl _
  unfold State.convoyDrain
  repeat' first
    | with_reducible assumption
    | with_reducible apply State.convoyWork_keeps
    | exact Sub.of rfl
    | dsimp only

end Sys2Proof.Machine
end

