-- ==== Sys2Proof/Laws/KeepsThermal.lean ====
section
/-! SUPPORT. What the operations of Machine/Thermal.lean keep. -/

set_option Elab.async false

namespace Sys2Proof.Machine

theorem State.emergCount_keeps {mk : Nat} {z s : State} (hk : Keeps mk z s) (old n : Nat) (hm : Sub 0x1 mk := by exact Sub.of rfl) :
    Keeps mk z (State.emergCount s old n) := by
  refine hk.within hm ?_
  replace hk : Keeps 0x1 s s := .refl _
  unfold State.emergCount
  repeat' first
    | (extract_lets -descend +onlyGivenNames x0; refine Keeps.cut (m := 0x1) (z := s) (v := x0) ?_ (fun h0 => ?_); rotate_left; clear_value x0; rotate_left; dsimp -zeta only [x0]; clear x0)
    | (extract_lets -descend +onlyGivenNames x0; clear_value x0)
    | lift_lets
    | with_reducible assumption
    | with_reducible apply State.wr_keeps
    | (with_reducible apply Keeps.ite)
    | split
    | exact Sub.of rfl
    | dsimp only

theorem State.setEmerg_keeps {mk : Nat} {z s : State} (hk : Keeps mk z s) (n : Nat) (hm : Sub 0x100000 mk := by exact Sub.of rfl) :
    Keeps mk z (State.setEmerg s n) := by
  refine hk.within hm ?_
  replace hk : Keeps 0x100000 s s := .refl _
  unfold State.setEmerg
  repeat' first
    | with_reducible assumption
    | (with_reducible refine Keeps.mk0 ?_ ?g; (first | with_reducible assumption | (refine Keeps.snd ?_ (by assumption)) | (refine Keeps.some ?_ (by assumption))); with_reducible case g => exact fun h => Keeps.mk' h)
    | exact Sub.of rfl
    | dsimp only

theorem State.emergTo_keeps {mk : Nat} {z s : State} (hk : Keeps mk z s) (n : Nat) (hm : Sub 0x11C2CF7 mk := by exact Sub.of rfl) :
    Keeps mk z (State.emergTo s n) := by
  refine hk.within hm ?_
  replace hk : Keeps 0x11C2CF7 s s := .refl _
  unfold State.emergTo
  repeat' first
    | (extract_lets -descend +onlyGivenNames x0; refine Keeps.cut (m := 0x11C2CF7) (z := s) (v := x0) ?_ (fun h0 => ?_); rotate_left; clear_value x0; rotate_left; dsimp -zeta only [x0]; clear x0)
    | (extract_lets -descend +onlyGivenNames x0; clear_value x0)
    | lift_lets
    | with_reducible assumption
    | (with_reducible first | apply State.irq_keeps | apply State.event_keeps | apply State.featAbandon_keeps | apply State.publishDone_keeps | apply State.emergCount_keeps | apply State.setEmerg_keeps)
    | (with_reducible apply Keeps.ite)
    | split
    | exact Sub.of rfl
    | dsimp only

theorem State.setCauses_keeps {mk : Nat} {z s : State} (hk : Keeps mk z s) (cause : Nat) (hm : Sub 0x11C2CF7 mk := by exact Sub.of rfl) :
    Keeps mk z (State.setCauses s cause) := by
  refine hk.within hm ?_
  replace hk : Keeps 0x11C2CF7 s s := .refl _
  unfold State.setCauses
  repeat' first
    | (extract_lets -descend +onlyGivenNames x0; refine Keeps.cut (m := 0x11C2CF7) (z := s) (v := x0) ?_ (fun h0 => ?_); rotate_left; clear_value x0; rotate_left; dsimp -zeta only [x0]; clear x0)
    | (extract_lets -descend +onlyGivenNames x0; clear_value x0)
    | lift_lets
    | with_reducible assumption
    | with_reducible apply State.emergTo_keeps
    | (with_reducible refine Keeps.mk0 ?_ ?g; (first | with_reducible assumption | (refine Keeps.snd ?_ (by assumption)) | (refine Keeps.some ?_ (by assumption)) | (with_reducible first | apply State.emergTo_keeps)); with_reducible case g => exact fun h => Keeps.mk' h)
    | (with_reducible apply Keeps.ite)
    | split
    | exact Sub.of rfl
    | dsimp only

theorem execEmergencyExitHoldExpiry_keeps {mk : Nat} {z s : State} (hk : Keeps mk z s) (hm : Sub 0x11C2CF7 mk := by exact Sub.of rfl) :
    KeepsR mk z (execEmergencyExitHoldExpiry s) := by
  refine KeepsR.within hk hm ?_
  replace hk : Keeps 0x11C2CF7 s s := .refl _
  unfold execEmergencyExitHoldExpiry
  repeat' first
    | with_reducible assumption
    | (with_reducible first | apply KeepsR.present | apply KeepsR.next | exact KeepsR.fault | apply State.emergTo_keeps)
    | (with_reducible apply Keeps.ite)
    | split
    | exact Sub.of rfl
    | dsimp only

theorem State.modTherm_keeps {mk : Nat} {z s : State} (hk : Keeps mk z s) (m : Nat) (f : Therm → Therm) (hm : Sub 0x100000 mk := by exact Sub.of rfl) :
    Keeps mk z (State.modTherm s m f) := by
  refine hk.within hm ?_
  replace hk : Keeps 0x100000 s s := .refl _
  unfold State.modTherm
  repeat' first
    | with_reducible assumption
    | (with_reducible refine Keeps.mk0 ?_ ?g; (first | with_reducible assumption | (refine Keeps.snd ?_ (by assumption)) | (refine Keeps.some ?_ (by assumption))); with_reducible case g => exact fun h => Keeps.mk' h)
    | exact Sub.of rfl
    | dsimp only

theorem State.thmReject_keeps {mk : Nat} {z s : State} (hk : Keeps mk z s) (m : Nat) (hm : Sub 0x100003 mk := by exact Sub.of rfl) :
    Keeps mk z (State.thmReject s m) := by
  refine hk.within hm ?_
  replace hk : Keeps 0x100003 s s := .refl _
  unfold State.thmReject
  repeat' first
    | (extract_lets -descend +onlyGivenNames x0; refine Keeps.cut (m := 0x100003) (z := s) (v := x0) ?_ (fun h0 => ?_); rotate_left; clear_value x0; rotate_left; dsimp -zeta only [x0]; clear x0)
    | (extract_lets -descend +onlyGivenNames x0; clear_value x0)
    | with_reducible intro _
    | lift_lets
    | with_reducible assumption
    | (with_reducible first | apply State.wr_keeps | apply State.irq_keeps | apply State.modTherm_keeps)
    | (with_reducible refine Keeps.mk0 ?_ ?g; (first | with_reducible assumption | (refine Keeps.snd ?_ (by assumption)) | (refine Keeps.some ?_ (by assumption)) | (with_reducible first | apply State.wr_keeps | apply State.irq_keeps | apply State.modTherm_keeps)); with_reducible case g => exact fun h => Keeps.mk' h)
    | exact Sub.of rfl
    | dsimp only

theorem State.thmEnd_keeps {mk : Nat} {z s : State} (hk : Keeps mk z s) (m : Nat) (hm : Sub 0x100003 mk := by exact Sub.of rfl) :
    Keeps mk z (State.thmEnd s m) := by
  refine hk.within hm ?_
  replace hk : Keeps 0x100003 s s := .refl _
  unfold State.thmEnd
  repeat' first
    | (extract_lets -descend +onlyGivenNames x0; refine Keeps.cut (m := 0x100003) (z := s) (v := x0) ?_ (fun h0 => ?_); rotate_left; clear_value x0; rotate_left; dsimp -zeta only [x0]; clear x0)
    | (extract_lets -descend +onlyGivenNames x0; clear_value x0)
    | with_reducible intro _
    | lift_lets
    | with_reducible assumption
    | (with_reducible first | apply State.wr_keeps | apply State.irq_keeps | apply State.modTherm_keeps | apply State.thmReject_keeps)
    | (with_reducible refine Keeps.mk0 ?_ ?g; (first | with_reducible assumption | (refine Keeps.snd ?_ (by assumption)) | (refine Keeps.some ?_ (by assumption)) | (with_reducible first | apply State.wr_keeps | apply State.irq_keeps | apply State.modTherm_keeps | apply State.thmReject_keeps)); with_reducible case g => exact fun h => Keeps.mk' h)
    | (with_reducible apply Keeps.ite)
    | split
    | (refine Keeps.some ?_ (by assumption))
    | exact Sub.of rfl
    | dsimp only

theorem execExcitationWindowEnd_keeps {mk : Nat} {z s : State} (hk : Keeps mk z s) (m : Nat) (hm : Sub 0x100003 mk := by exact Sub.of rfl) :
    KeepsR mk z (execExcitationWindowEnd m s) := by
  refine KeepsR.within hk hm ?_
  replace hk : Keeps 0x100003 s s := .refl _
  unfold execExcitationWindowEnd
  repeat' first
    | with_reducible assumption
    | (with_reducible first | apply KeepsR.present | apply KeepsR.next | exact KeepsR.fault | apply present_keeps | apply State.thmEnd_keeps)
    | (with_reducible apply Keeps.ite)
    | split
    | exact Sub.of rfl
    | dsimp only

theorem State.thmRecfg_keeps {mk : Nat} {z s : State} (hk : Keeps mk z s) (m : Nat) (hm : Sub 0x100001 mk := by exact Sub.of rfl) :
    Keeps mk z (State.thmRecfg s m) := by
  refine hk.within hm ?_
  replace hk : Keeps 0x100001 s s := .refl _
  unfold State.thmRecfg
  repeat' first
    | (extract_lets -descend +onlyGivenNames x0; refine Keeps.cut (m := 0x100001) (z := s) (v := x0) ?_ (fun h0 => ?_); rotate_left; clear_value x0; rotate_left; dsimp -zeta only [x0]; clear x0)
    | (extract_lets -descend +onlyGivenNames x0; clear_value x0)
    | with_reducible intro _
    | lift_lets
    | with_reducible assumption
    | (with_reducible first | apply State.wr_keeps | apply State.setDefaulted_keeps | apply State.modTherm_keeps)
    | (with_reducible refine Keeps.mk0 ?_ ?g; (first | with_reducible assumption | (refine Keeps.snd ?_ (by assumption)) | (refine Keeps.some ?_ (by assumption)) | (with_reducible first | apply State.wr_keeps | apply State.setDefaulted_keeps | apply State.modTherm_keeps)); with_reducible case g => exact fun h => Keeps.mk' h)
    | (with_reducible apply Keeps.ite)
    | split
    | exact Sub.of rfl
    | dsimp only

theorem State.thmSample_keeps {mk : Nat} {z s : State} (hk : Keeps mk z s) (m : Nat) (hm : Sub 0x1100103 mk := by exact Sub.of rfl) :
    Keeps mk z (State.thmSample s m) := by
  refine hk.within hm ?_
  replace hk : Keeps 0x1100103 s s := .refl _
  unfold State.thmSample
  repeat' first
    | (extract_lets -descend +onlyGivenNames x0; refine Keeps.cut (m := 0x1100103) (z := s) (v := x0) ?_ (fun h0 => ?_); rotate_left; clear_value x0; rotate_left; dsimp -zeta only [x0]; clear x0)
    | (extract_lets -descend +onlyGivenNames x0; clear_value x0)
    | with_reducible intro _
    | lift_lets
    | with_reducible assumption
    | (with_reducible first | apply State.boundary_keeps | apply State.drawOrder_keeps | apply State.modTherm_keeps)
    | (with_reducible refine Keeps.mk0 ?_ ?g; (first | with_reducible assumption | (refine Keeps.snd ?_ (by assumption)) | (refine Keeps.some ?_ (by assumption)) | (with_reducible first | apply State.boundary_keeps | apply State.drawOrder_keeps | apply State.modTherm_keeps)); with_reducible case g => exact fun h => Keeps.mk' h)
    | (with_reducible apply Keeps.ite)
    | split
    | (refine Keeps.snd ?_ (by assumption))
    | exact Sub.of rfl
    | dsimp only

theorem State.thmForecast_keeps {mk : Nat} {z s : State} (hk : Keeps mk z s) (m : Nat) (hm : Sub 0x1000001 mk := by exact Sub.of rfl) :
    Keeps mk z (State.thmForecast s m) := by
  refine hk.within hm ?_
  replace hk : Keeps 0x1000001 s s := .refl _
  unfold State.thmForecast
  repeat' first
    | (extract_lets -descend +onlyGivenNames x0; refine Keeps.cut (m := 0x1000001) (z := s) (v := x0) ?_ (fun h0 => ?_); rotate_left; clear_value x0; rotate_left; dsimp -zeta only [x0]; clear x0)
    | (extract_lets -descend +onlyGivenNames x0; clear_value x0)
    | lift_lets
    | with_reducible assumption
    | (with_reducible first | apply State.wr_keeps | apply State.draw_keeps | apply State.drawOrder_keeps)
    | (with_reducible apply Keeps.ite)
    | split
    | (refine Keeps.some ?_ (by assumption))
    | (refine Keeps.snd ?_ (by assumption))
    | exact Sub.of rfl
    | dsimp only

theorem State.thmTick_keeps {mk : Nat} {z s : State} (hk : Keeps mk z s) (m : Nat) (hm : Sub 0x1100103 mk := by exact Sub.of rfl) :
    Keeps mk z (State.thmTick s m) := by
  refine hk.within hm ?_
  replace hk : Keeps 0x1100103 s s := .refl _
  unfold State.thmTick
  repeat' first
    | (extract_lets -descend +onlyGivenNames x0; refine Keeps.cut (m := 0x1100103) (z := s) (v := x0) ?_ (fun h0 => ?_); rotate_left; clear_value x0; rotate_left; dsimp -zeta only [x0]; clear x0)
    | (extract_lets -descend +onlyGivenNames x0; clear_value x0)
    | with_reducible intro _
    | lift_lets
    | with_reducible assumption
    | (with_reducible first | apply State.irq_keeps | apply State.boundary_keeps | apply State.modTherm_keeps | apply State.thmReject_keeps | apply State.thmRecfg_keeps | apply State.thmSample_keeps | apply State.thmForecast_keeps)
    | (with_reducible refine Keeps.mk0 ?_ ?g; (first | with_reducible assumption | (refine Keeps.snd ?_ (by assumption)) | (refine Keeps.some ?_ (by assumption)) | (with_reducible first | apply State.irq_keeps | apply State.boundary_keeps | apply State.modTherm_keeps | apply State.thmReject_keeps | apply State.thmRecfg_keeps | apply State.thmSample_keeps | apply State.thmForecast_keeps)); with_reducible case g => exact fun h => Keeps.mk' h)
    | (with_reducible apply Keeps.ite)
    | split
    | exact Sub.of rfl
    | dsimp only

theorem State.derate_keeps {mk : Nat} {z s : State} (hk : Keeps mk z s) (hm : Sub 0x1000000 mk := by exact Sub.of rfl) :
    Keeps mk z (State.derate s).2 := by
  refine hk.within hm ?_
  replace hk : Keeps 0x1000000 s s := .refl _
  unfold State.derate
  repeat' first
    | (extract_lets -descend +onlyGivenNames x0; refine Keeps.cut (m := 0x1000000) (z := s) (v := x0) ?_ (fun h0 => ?_); rotate_left; clear_value x0; rotate_left; dsimp -zeta only [x0]; clear x0)
    | (extract_lets -descend +onlyGivenNames x0; clear_value x0)
    | lift_lets
    | with_reducible assumption
    | with_reducible apply State.draw_keeps
    | (with_reducible apply Keeps.ite)
    | split
    | (refine Keeps.some ?_ (by assumption))
    | (refine Keeps.snd ?_ (by assumption))
    | exact Sub.of rfl
    | dsimp only

theorem execThermalIdTick_keeps {mk : Nat} {z s : State} (hk : Keeps mk z s) (hm : Sub 0x11C2DF7 mk := by exact Sub.of rfl) :
    KeepsR mk z (execThermalIdTick s) := by
  refine KeepsR.within hk hm ?_
  replace hk : Keeps 0x11C2DF7 s s := .refl _
  unfold execThermalIdTick
  repeat' first
    | (extract_lets -descend +onlyGivenNames x0; refine Keeps.cut (m := 0x11C2DF7) (z := s) (v := x0) ?_ (fun h0 => ?_); rotate_left; clear_value x0; rotate_left; dsimp -zeta only [x0]; clear x0)
    | (extract_lets -descend +onlyGivenNames x0; clear_value x0)
    | with_reducible intro _
    | lift_lets
    | with_reducible assumption
    | (with_reducible first | apply KeepsR.present | apply KeepsR.next | exact KeepsR.fault | apply State.wr_keeps | apply State.setCauses_keeps | apply State.thmTick_keeps | apply State.derate_keeps)
    | (with_reducible apply Keeps.foldl)
    | (with_reducible apply Keeps.foldlSnd)
    | split
    | (refine Keeps.snd ?_ (by assumption))
    | exact Sub.of rfl
    | dsimp only

theorem State.padEvent_keeps {mk : Nat} {z s : State} (hk : Keeps mk z s) (k bit : Nat) (hm : Sub 0x3 mk := by exact Sub.of rfl) :
    Keeps mk z (State.padEvent s k bit) := by
  refine hk.within hm ?_
  replace hk : Keeps 0x3 s s := .refl _
  unfold State.padEvent
  repeat' first
    | (extract_lets -descend +onlyGivenNames x0; refine Keeps.cut (m := 0x3) (z := s) (v := x0) ?_ (fun h0 => ?_); rotate_left; clear_value x0; rotate_left; dsimp -zeta only [x0]; clear x0)
    | (extract_lets -descend +onlyGivenNames x0; clear_value x0)
    | lift_lets
    | with_reducible assumption
    | (with_reducible first | apply State.wr_keeps | apply State.irq_keeps)
    | (with_reducible apply Keeps.ite)
    | split
    | exact Sub.of rfl
    | dsimp only

theorem execEmergencyCauseChange_keeps {mk : Nat} {z s : State} (hk : Keeps mk z s) (cause : Nat) (on : Bool) (hm : Sub 0x11C2CF7 mk := by exact Sub.of rfl) :
    KeepsR mk z (execEmergencyCauseChange cause on s) := by
  refine KeepsR.within hk hm ?_
  replace hk : Keeps 0x11C2CF7 s s := .refl _
  unfold execEmergencyCauseChange
  repeat' first
    | (extract_lets -descend +onlyGivenNames x0; refine Keeps.cut (m := 0x11C2CF7) (z := s) (v := x0) ?_ (fun h0 => ?_); rotate_left; clear_value x0; rotate_left; dsimp -zeta only [x0]; clear x0)
    | (extract_lets -descend +onlyGivenNames x0; first
        | ((with_reducible first | have _w : LinkSt := x0 | have _w : TimeSt := x0 | have _w : PowerSt := x0 | have _w : SampSt := x0 | have _w : FwSt := x0 | have _w : AuthSt := x0 | have _w : PulseSt := x0 | have _w : CoreSt := x0); clear _w; dsimp -zeta only [x0]; clear x0)
        | clear_value x0)
    | with_reducible intro _
    | lift_lets
    | with_reducible assumption
    | (with_reducible first | apply KeepsR.present | apply KeepsR.next | exact KeepsR.fault | exact KeepsO.none | apply KeepsO.some | apply present_keeps | apply State.setCauses_keeps | apply State.padEvent_keeps)
    | (with_reducible refine State.modRegion_keeps ?_ _ _ (fun _ w => w))
    | (with_reducible refine State.modFw_keeps ?_ _ ⟨rfl, rfl⟩)
    | (with_reducible refine State.modAuth_keeps ?_ _ ⟨rfl, rfl⟩)
    | (with_reducible refine Keeps.mk0 ?_ ?g; (first | with_reducible assumption | (refine Keeps.snd ?_ (by assumption)) | (refine Keeps.some ?_ (by assumption)) | (with_reducible first | apply present_keeps | apply State.setCauses_keeps | apply State.padEvent_keeps)); with_reducible case g => exact fun h => Keeps.mk' h)
    | (with_reducible apply Keeps.ite)
    | (with_reducible apply Keeps.foldl)
    | (with_reducible apply Keeps.foldlSnd)
    | (with_reducible apply Keeps.foldlFst)
    | split
    | (refine Keeps.some ?_ (by assumption))
    | (refine Keeps.snd ?_ (by assumption))
    | exact Sub.of rfl
    | dsimp only

theorem State.endOfCause_keeps {mk : Nat} {z s : State} (hk : Keeps mk z s) (thr : Nat) (hm : Sub 0x1000000 mk := by exact Sub.of rfl) :
    Keeps mk z (State.endOfCause s thr).2 := by
  refine hk.within hm ?_
  replace hk : Keeps 0x1000000 s s := .refl _
  unfold State.endOfCause
  repeat' first
    | (extract_lets -descend +onlyGivenNames x0; refine Keeps.cut (m := 0x1000000) (z := s) (v := x0) ?_ (fun h0 => ?_); rotate_left; clear_value x0; rotate_left; dsimp -zeta only [x0]; clear x0)
    | (extract_lets -descend +onlyGivenNames x0; clear_value x0)
    | with_reducible intro _
    | lift_lets
    | with_reducible assumption
    | with_reducible apply State.drawOrder_keeps
    | split
    | (refine Keeps.some ?_ (by assumption))
    | (refine Keeps.snd ?_ (by assumption))
    | exact Sub.of rfl
    | dsimp only

end Sys2Proof.Machine
end

