-- ==== Sys2Proof/Laws/KeepsOutrider.lean ====
section
/-! SUPPORT. What the operations of Machine/Outrider.lean keep. -/

set_option Elab.async false

namespace Sys2Proof.Machine

theorem State.modDie_keeps {mk : Nat} {z s : State} (hk : Keeps mk z s) (i : Nat) (f : DieEnt → DieEnt) (hm : Sub 0x2000 mk := by exact Sub.of rfl) :
    Keeps mk z (State.modDie s i f) := by
  refine hk.within hm ?_
  replace hk : Keeps 0x2000 s s := .refl _
  unfold State.modDie
  repeat' first
    | with_reducible intro _
    | with_reducible assumption
    | (with_reducible refine Keeps.mk0 ?_ ?g; (first | with_reducible assumption | (refine Keeps.snd ?_ (by assumption)) | (refine Keeps.some ?_ (by assumption))); with_reducible case g => exact fun h => Keeps.mk' h)
    | (with_reducible apply Keeps.ite)
    | split
    | exact Sub.of rfl
    | dsimp only

theorem State.takeRules_keeps {mk : Nat} {z s : State} (hk : Keeps mk z s) (hm : Sub 0x2003 mk := by exact Sub.of rfl) :
    Keeps mk z (State.takeRules s) := by
  refine hk.within hm ?_
  replace hk : Keeps 0x2003 s s := .refl _
  unfold State.takeRules
  repeat' first
    | (extract_lets -descend +onlyGivenNames x0; refine Keeps.cut (m := 0x2003) (z := s) (v := x0) ?_ (fun h0 => ?_); rotate_left; clear_value x0; rotate_left; dsimp -zeta only [x0]; clear x0)
    | (extract_lets -descend +onlyGivenNames x0; clear_value x0)
    | with_reducible intro _
    | lift_lets
    | with_reducible assumption
    | with_reducible apply State.irq_keeps
    | (with_reducible refine Keeps.mk0 ?_ ?g; (first | with_reducible assumption | (refine Keeps.snd ?_ (by assumption)) | (refine Keeps.some ?_ (by assumption)) | (with_reducible first | apply State.irq_keeps)); with_reducible case g => exact fun h => Keeps.mk' h)
    | (with_reducible apply Keeps.ite)
    | (with_reducible apply Keeps.foldl)
    | split
    | exact Sub.of rfl
    | dsimp only

theorem State.verdictRec_keeps {mk : Nat} {z s : State} (hk : Keeps mk z s) (i n : Nat) (swap : Bool) (hm : Sub 0x80475 mk := by exact Sub.of rfl) :
    Keeps mk z (State.verdictRec s i n swap) := by
  refine hk.within hm ?_
  replace hk : Keeps 0x80475 s s := .refl _
  unfold State.verdictRec
  repeat' first
    | (extract_lets -descend +onlyGivenNames x0; refine Keeps.cut (m := 0x80475) (z := s) (v := x0) ?_ (fun h0 => ?_); rotate_left; clear_value x0; rotate_left; dsimp -zeta only [x0]; clear x0)
    | (extract_lets -descend +onlyGivenNames x0; clear_value x0)
    | with_reducible intro _
    | lift_lets
    | with_reducible assumption
    | (with_reducible first | apply State.emitUp_keeps | apply State.originate_keeps)
    | (with_reducible apply Keeps.ite)
    | split
    | (refine Keeps.some ?_ (by assumption))
    | (refine Keeps.snd ?_ (by assumption))
    | exact Sub.of rfl
    | dsimp only

theorem State.viewTold_keeps {mk : Nat} {z s : State} (hk : Keeps mk z s) (i n : Nat) (was : Nat × Nat) (hm : Sub 0x80477 mk := by exact Sub.of rfl) :
    Keeps mk z (State.viewTold s i n was) := by
  refine hk.within hm ?_
  replace hk : Keeps 0x80477 s s := .refl _
  unfold State.viewTold
  repeat' first
    | (extract_lets -descend +onlyGivenNames x0; refine Keeps.cut (m := 0x80477) (z := s) (v := x0) ?_ (fun h0 => ?_); rotate_left; clear_value x0; rotate_left; dsimp -zeta only [x0]; clear x0)
    | (extract_lets -descend +onlyGivenNames x0; clear_value x0)
    | lift_lets
    | with_reducible assumption
    | (with_reducible first | apply State.irq_keeps | apply State.verdictRec_keeps)
    | (with_reducible apply Keeps.ite)
    | split
    | (refine Keeps.some ?_ (by assumption))
    | exact Sub.of rfl
    | dsimp only

theorem State.viewTrigger_keeps {mk : Nat} {z s : State} (hk : Keeps mk z s) (was : Nat × Nat) (hm : Sub 0x11EE5F7 mk := by exact Sub.of rfl) :
    Keeps mk z (State.viewTrigger s was) := by
  refine hk.within hm ?_
  replace hk : Keeps 0x11EE5F7 s s := .refl _
  unfold State.viewTrigger
  repeat' first
    | with_reducible assumption
    | with_reducible apply State.trcTrigger_keeps
    | (with_reducible apply Keeps.ite)
    | split
    | exact Sub.of rfl
    | dsimp only

theorem State.viewChanged_keeps {mk : Nat} {z s : State} (hk : Keeps mk z s) (i n : Nat) (was : Nat × Nat) (hm : Sub 0x11EE5F7 mk := by exact Sub.of rfl) :
    Keeps mk z (State.viewChanged s i n was) := by
  refine hk.within hm ?_
  replace hk : Keeps 0x11EE5F7 s s := .refl _
  unfold State.viewChanged
  repeat' first
    | (extract_lets -descend +onlyGivenNames x0; refine Keeps.cut (m := 0x11EE5F7) (z := s) (v := x0) ?_ (fun h0 => ?_); rotate_left; clear_value x0; rotate_left; dsimp -zeta only [x0]; clear x0)
    | (extract_lets -descend +onlyGivenNames x0; clear_value x0)
    | lift_lets
    | with_reducible assumption
    | (with_reducible first | apply State.viewTold_keeps | apply State.viewTrigger_keeps)
    | (with_reducible apply Keeps.ite)
    | split
    | exact Sub.of rfl
    | dsimp only

theorem State.reclass_keeps {mk : Nat} {z s : State} (hk : Keeps mk z s) (i n : Nat) (hm : Sub 0x2000 mk := by exact Sub.of rfl) :
    Keeps mk z (State.reclass s i n) := by
  refine hk.within hm ?_
  replace hk : Keeps 0x2000 s s := .refl _
  unfold State.reclass
  repeat' first
    | (extract_lets -descend +onlyGivenNames x0; refine Keeps.cut (m := 0x2000) (z := s) (v := x0) ?_ (fun h0 => ?_); rotate_left; clear_value x0; rotate_left; dsimp -zeta only [x0]; clear x0)
    | (extract_lets -descend +onlyGivenNames x0; clear_value x0)
    | with_reducible intro _
    | lift_lets
    | with_reducible assumption
    | with_reducible apply State.modDie_keeps
    | (with_reducible refine Keeps.mk0 ?_ ?g; (first | with_reducible assumption | (refine Keeps.snd ?_ (by assumption)) | (refine Keeps.some ?_ (by assumption)) | (with_reducible first | apply State.modDie_keeps)); with_reducible case g => exact fun h => Keeps.mk' h)
    | (with_reducible apply Keeps.ite)
    | split
    | (refine Keeps.some ?_ (by assumption))
    | exact Sub.of rfl
    | dsimp only

theorem State.ownDecision_keeps {mk : Nat} {z s : State} (hk : Keeps mk z s) (id decision rank why : Nat) (hm : Sub 0x11EE5F7 mk := by exact Sub.of rfl) :
    Keeps mk z (State.ownDecision s id decision rank why) := by
  refine hk.within hm ?_
  replace hk : Keeps 0x11EE5F7 s s := .refl _
  unfold State.ownDecision
  repeat' first
    | (extract_lets -descend +onlyGivenNames x0; refine Keeps.cut (m := 0x11EE5F7) (z := s) (v := x0) ?_ (fun h0 => ?_); rotate_left; clear_value x0; rotate_left; dsimp -zeta only [x0]; clear x0)
    | (extract_lets -descend +onlyGivenNames x0; clear_value x0)
    | with_reducible intro _
    | lift_lets
    | with_reducible assumption
    | (with_reducible first | apply State.modDie_keeps | apply State.viewChanged_keeps)
    | (with_reducible refine Keeps.mk0 ?_ ?g; (first | with_reducible assumption | (refine Keeps.snd ?_ (by assumption)) | (refine Keeps.some ?_ (by assumption)) | (with_reducible first | apply State.modDie_keeps | apply State.viewChanged_keeps)); with_reducible case g => exact fun h => Keeps.mk' h)
    | (with_reducible apply Keeps.ite)
    | split
    | exact Sub.of rfl
    | dsimp only

theorem State.decisionRec_keeps {mk : Nat} {z s : State} (hk : Keeps mk z s) (e : DefEnt) (decision rank why : Nat) (hm : Sub 0x11EE5F7 mk := by exact Sub.of rfl) :
    Keeps mk z (State.decisionRec s e decision rank why) := by
  refine hk.within hm ?_
  replace hk : Keeps 0x11EE5F7 s s := .refl _
  unfold State.decisionRec
  repeat' first
    | (extract_lets -descend +onlyGivenNames x0; refine Keeps.cut (m := 0x11EE5F7) (z := s) (v := x0) ?_ (fun h0 => ?_); rotate_left; clear_value x0; rotate_left; dsimp -zeta only [x0]; clear x0)
    | (extract_lets -descend +onlyGivenNames x0; clear_value x0)
    | lift_lets
    | with_reducible assumption
    | (with_reducible first | apply State.emitUp_keeps | apply State.originate_keeps | apply State.ownDecision_keeps)
    | split
    | (refine Keeps.snd ?_ (by assumption))
    | exact Sub.of rfl
    | dsimp only

theorem State.setDeferred_keeps {mk : Nat} {z s : State} (hk : Keeps mk z s) (l : List DefEnt) (hm : Sub 0x2000 mk := by exact Sub.of rfl) :
    Keeps mk z (State.setDeferred s l) := by
  refine hk.within hm ?_
  replace hk : Keeps 0x2000 s s := .refl _
  unfold State.setDeferred
  repeat' first
    | with_reducible assumption
    | (with_reducible refine Keeps.mk0 ?_ ?g; (first | with_reducible assumption | (refine Keeps.snd ?_ (by assumption)) | (refine Keeps.some ?_ (by assumption))); with_reducible case g => exact fun h => Keeps.mk' h)
    | exact Sub.of rfl
    | dsimp only

theorem State.keeperReq_keeps {mk : Nat} {z s : State} (hk : Keeps mk z s) (e : DefEnt) (withdraw : Bool) (hm : Sub 0x11EE5F7 mk := by exact Sub.of rfl) :
    Keeps mk z (State.keeperReq s e withdraw) := by
  refine hk.within hm ?_
  replace hk : Keeps 0x11EE5F7 s s := .refl _
  unfold State.keeperReq
  repeat' first
    | (extract_lets -descend +onlyGivenNames x0; refine Keeps.cut (m := 0x11EE5F7) (z := s) (v := x0) ?_ (fun h0 => ?_); rotate_left; clear_value x0; rotate_left; dsimp -zeta only [x0]; clear x0)
    | (extract_lets -descend +onlyGivenNames x0; clear_value x0)
    | with_reducible intro _
    | lift_lets
    | with_reducible assumption
    | (with_reducible first | apply State.bumpSat_keeps | apply State.irq_keeps | apply State.decisionRec_keeps | apply State.setDeferred_keeps)
    | (with_reducible refine Keeps.mk0 ?_ ?g; (first | with_reducible assumption | (refine Keeps.snd ?_ (by assumption)) | (refine Keeps.some ?_ (by assumption)) | (with_reducible first | apply State.bumpSat_keeps | apply State.irq_keeps | apply State.decisionRec_keeps | apply State.setDeferred_keeps)); with_reducible case g => exact fun h => Keeps.mk' h)
    | (with_reducible apply Keeps.ite)
    | split
    | (refine Keeps.some ?_ (by assumption))
    | exact Sub.of rfl
    | dsimp only

theorem State.decide1_keeps {mk : Nat} {z s : State} (hk : Keeps mk z s) (rank : Nat) (e : DefEnt) (hm : Sub 0x11EE5F7 mk := by exact Sub.of rfl) :
    Keeps mk z (State.decide1 s rank e).2 := by
  refine hk.within hm ?_
  replace hk : Keeps 0x11EE5F7 s s := .refl _
  unfold State.decide1
  repeat' first
    | (extract_lets -descend +onlyGivenNames x0; refine Keeps.cut (m := 0x11EE5F7) (z := s) (v := x0) ?_ (fun h0 => ?_); rotate_left; clear_value x0; rotate_left; dsimp -zeta only [x0]; clear x0)
    | (extract_lets -descend +onlyGivenNames x0; dsimp -zeta only [x0]; clear x0)
    | with_reducible intro _
    | lift_lets
    | with_reducible assumption
    | (with_reducible first | apply KeepsR.present | apply KeepsR.next | exact KeepsR.fault | exact KeepsO.none | apply KeepsO.some | apply State.bumpSat_keeps | apply State.irq_keeps | apply State.decisionRec_keeps | apply State.setDeferred_keeps)
    | (with_reducible refine State.modRegion_keeps ?_ _ _ (fun _ w => w))
    | (with_reducible refine State.modFw_keeps ?_ _ ⟨rfl, rfl⟩)
    | (with_reducible refine State.modAuth_keeps ?_ _ ⟨rfl, rfl⟩)
    | (with_reducible refine Keeps.mk0 ?_ ?g; (first | with_reducible assumption | (refine Keeps.snd ?_ (by assumption)) | (refine Keeps.some ?_ (by assumption)) | (with_reducible first | apply State.bumpSat_keeps | apply State.irq_keeps | apply State.decisionRec_keeps | apply State.setDeferred_keeps)); with_reducible case g => exact fun h => Keeps.mk' h)
    | (with_reducible apply Keeps.ite)
    | (with_reducible apply Keeps.foldl)
    | (with_reducible apply Keeps.foldlSnd)
    | (with_reducible apply Keeps.foldlFst)
    | split
    | (refine Keeps.some ?_ (by assumption))
    | (refine Keeps.snd ?_ (by assumption))
    | exact Sub.of rfl
    | dsimp only

theorem State.stepBoundary_keeps {mk : Nat} {z s : State} (hk : Keeps mk z s) (hm : Sub 0x11EE5F7 mk := by exact Sub.of rfl) :
    Keeps mk z (State.stepBoundary s) := by
  refine hk.within hm ?_
  replace hk : Keeps 0x11EE5F7 s s := .refl _
  unfold State.stepBoundary
  repeat' first
    | (extract_lets -descend +onlyGivenNames x0; refine Keeps.cut (m := 0x11EE5F7) (z := s) (v := x0) ?_ (fun h0 => ?_); rotate_left; clear_value x0; rotate_left; dsimp -zeta only [x0]; clear x0)
    | (extract_lets -descend +onlyGivenNames x0; clear_value x0)
    | with_reducible intro _
    | lift_lets
    | with_reducible assumption
    | (with_reducible first | apply State.bumpSat_keeps | apply State.budgetRefill_keeps | apply State.decide1_keeps)
    | (with_reducible refine Keeps.mk0 ?_ ?g; (first | with_reducible assumption | (refine Keeps.snd ?_ (by assumption)) | (refine Keeps.some ?_ (by assumption)) | (with_reducible first | apply State.bumpSat_keeps | apply State.budgetRefill_keeps | apply State.decide1_keeps)); with_reducible case g => exact fun h => Keeps.mk' h)
    | (with_reducible apply Keeps.ite)
    | (with_reducible apply Keeps.foldl)
    | (with_reducible apply Keeps.foldlSnd)
    | split
    | (refine Keeps.snd ?_ (by assumption))
    | exact Sub.of rfl
    | dsimp only

theorem execStepBoundary_keeps {mk : Nat} {z s : State} (hk : Keeps mk z s) (a : Acc) (data : Word) (hm : Sub 0x11EE5F7 mk := by exact Sub.of rfl) :
    KeepsR mk z (execStepBoundary a data s) := by
  refine KeepsR.within hk hm ?_
  replace hk : Keeps 0x11EE5F7 s s := .refl _
  unfold execStepBoundary
  repeat' first
    | with_reducible intro _
    | with_reducible assumption
    | (with_reducible first | apply KeepsR.present | apply KeepsR.next | exact KeepsR.fault | apply State.guardedWrite_keeps | apply State.stepBoundary_keeps)
    | (with_reducible apply Keeps.ite)
    | split
    | exact Sub.of rfl
    | dsimp only

theorem State.advAck_keeps {mk : Nat} {z s : State} (hk : Keeps mk z s) (id : Nat) (hm : Sub 0x2000 mk := by exact Sub.of rfl) :
    Keeps mk z (State.advAck s id) := by
  refine hk.within hm ?_
  replace hk : Keeps 0x2000 s s := .refl _
  unfold State.advAck
  repeat' first
    | with_reducible intro _
    | with_reducible assumption
    | (with_reducible refine Keeps.mk0 ?_ ?g; (first | with_reducible assumption | (refine Keeps.snd ?_ (by assumption)) | (refine Keeps.some ?_ (by assumption))); with_reducible case g => exact fun h => Keeps.mk' h)
    | (with_reducible apply Keeps.ite)
    | split
    | exact Sub.of rfl
    | dsimp only

theorem execOutAdvAck_keeps {mk : Nat} {z s : State} (hk : Keeps mk z s) (a : Acc) (data : Word) (hm : Sub 0x824F7 mk := by exact Sub.of rfl) :
    KeepsR mk z (execOutAdvAck a data s) := by
  refine KeepsR.within hk hm ?_
  replace hk : Keeps 0x824F7 s s := .refl _
  unfold execOutAdvAck
  repeat' first
    | with_reducible intro _
    | with_reducible assumption
    | (with_reducible first | apply KeepsR.present | apply KeepsR.next | exact KeepsR.fault | apply State.guardedWrite_keeps | apply State.advAck_keeps)
    | exact Sub.of rfl
    | dsimp only

theorem execDeferEntryExpiry_keeps {mk : Nat} {z s : State} (hk : Keeps mk z s) (entry : Nat) (hm : Sub 0x11EE5F7 mk := by exact Sub.of rfl) :
    KeepsR mk z (execDeferEntryExpiry entry s) := by
  refine KeepsR.within hk hm ?_
  replace hk : Keeps 0x11EE5F7 s s := .refl _
  unfold execDeferEntryExpiry
  repeat' first
    | with_reducible intro _
    | with_reducible assumption
    | (with_reducible first | apply KeepsR.present | apply KeepsR.next | exact KeepsR.fault | apply State.bumpSat_keeps | apply State.irq_keeps | apply present_keeps | apply State.decisionRec_keeps | apply State.setDeferred_keeps)
    | (with_reducible apply Keeps.ite)
    | split
    | (refine Keeps.some ?_ (by assumption))
    | exact Sub.of rfl
    | dsimp only

theorem State.towardKeeper_keeps {mk : Nat} {z s : State} (hk : Keeps mk z s) (r : Rec) (hm : Sub 0xC2471 mk := by exact Sub.of rfl) :
    Keeps mk z (State.towardKeeper s r) := by
  refine hk.within hm ?_
  replace hk : Keeps 0xC2471 s s := .refl _
  unfold State.towardKeeper
  repeat' first
    | with_reducible assumption
    | (with_reducible first | apply State.emitUp_keeps | apply State.sendParent_keeps)
    | split
    | (refine Keeps.some ?_ (by assumption))
    | exact Sub.of rfl
    | dsimp only

theorem State.request_keeps {mk : Nat} {z s : State} (hk : Keeps mk z s) (id cls score since n : Nat) (chronic withdraw : Bool) (hm : Sub 0x11EE5F7 mk := by exact Sub.of rfl) :
    Keeps mk z (State.request s id cls score since n chronic withdraw) := by
  refine hk.within hm ?_
  replace hk : Keeps 0x11EE5F7 s s := .refl _
  unfold State.request
  repeat' first
    | (extract_lets -descend +onlyGivenNames x0; refine Keeps.cut (m := 0x11EE5F7) (z := s) (v := x0) ?_ (fun h0 => ?_); rotate_left; clear_value x0; rotate_left; dsimp -zeta only [x0]; clear x0)
    | (extract_lets -descend +onlyGivenNames x0; clear_value x0)
    | lift_lets
    | with_reducible assumption
    | (with_reducible first | apply State.delivered_keeps | apply State.originate_keeps | apply State.keeperReq_keeps | apply State.towardKeeper_keeps)
    | (with_reducible apply Keeps.ite)
    | split
    | (refine Keeps.snd ?_ (by assumption))
    | exact Sub.of rfl
    | dsimp only

theorem State.escalate_keeps {mk : Nat} {z s : State} (hk : Keeps mk z s) (i n : Nat) (restate : Bool) (hm : Sub 0x11EE5F7 mk := by exact Sub.of rfl) :
    Keeps mk z (State.escalate s i n restate) := by
  refine hk.within hm ?_
  replace hk : Keeps 0x11EE5F7 s s := .refl _
  unfold State.escalate
  repeat' first
    | with_reducible intro _
    | with_reducible assumption
    | (with_reducible first | apply State.modDie_keeps | apply State.request_keeps)
    | (with_reducible refine Keeps.mk0 ?_ ?g; (first | with_reducible assumption | (refine Keeps.snd ?_ (by assumption)) | (refine Keeps.some ?_ (by assumption)) | (with_reducible first | apply State.modDie_keeps | apply State.request_keeps)); with_reducible case g => exact fun h => Keeps.mk' h)
    | (with_reducible apply Keeps.ite)
    | split
    | (refine Keeps.some ?_ (by assumption))
    | exact Sub.of rfl
    | dsimp only

theorem execEscalationRestate_keeps {mk : Nat} {z s : State} (hk : Keeps mk z s) (hm : Sub 0x11EE5F7 mk := by exact Sub.of rfl) :
    KeepsR mk z (execEscalationRestate s) := by
  refine KeepsR.within hk hm ?_
  replace hk : Keeps 0x11EE5F7 s s := .refl _
  unfold execEscalationRestate
  repeat' first
    | with_reducible intro _
    | with_reducible assumption
    | (with_reducible first | apply KeepsR.present | apply KeepsR.next | exact KeepsR.fault | apply State.escalate_keeps)
    | (with_reducible apply Keeps.ite)
    | (with_reducible apply Keeps.foldl)
    | split
    | exact Sub.of rfl
    | dsimp only

theorem State.requestIn_keeps {mk : Nat} {z s : State} (hk : Keeps mk z s) (r : Rec) (hm : Sub 0x11EE5F7 mk := by exact Sub.of rfl) :
    Keeps mk z (State.requestIn s r) := by
  refine hk.within hm ?_
  replace hk : Keeps 0x11EE5F7 s s := .refl _
  unfold State.requestIn
  repeat' first
    | (extract_lets -descend +onlyGivenNames x0; refine Keeps.cut (m := 0x11EE5F7) (z := s) (v := x0) ?_ (fun h0 => ?_); rotate_left; clear_value x0; rotate_left; dsimp -zeta only [x0]; clear x0)
    | (extract_lets -descend +onlyGivenNames x0; clear_value x0)
    | with_reducible intro _
    | lift_lets
    | with_reducible assumption
    | (with_reducible first | apply State.consume_keeps | apply State.keeperReq_keeps | apply State.towardKeeper_keeps)
    | (with_reducible apply Keeps.ite)
    | split
    | exact Sub.of rfl
    | dsimp only

theorem execEscalationRequestReceived_keeps {mk : Nat} {z s : State} (hk : Keeps mk z s) (port : Nat) (rec : Rec) (hm : Sub 0x11EE5F7 mk := by exact Sub.of rfl) :
    KeepsR mk z (execEscalationRequestReceived port rec s) := by
  refine KeepsR.within hk hm ?_
  replace hk : Keeps 0x11EE5F7 s s := .refl _
  unfold execEscalationRequestReceived
  repeat' first
    | (extract_lets -descend +onlyGivenNames x0; refine Keeps.cut (m := 0x11EE5F7) (z := s) (v := x0) ?_ (fun h0 => ?_); rotate_left; clear_value x0; rotate_left; dsimp -zeta only [x0]; clear x0)
    | (extract_lets -descend +onlyGivenNames x0; clear_value x0)
    | lift_lets
    | with_reducible assumption
    | (with_reducible first | apply KeepsR.present | apply KeepsR.next | exact KeepsR.fault | apply present_keeps | apply State.admitRec_keeps | apply State.requestIn_keeps)
    | (with_reducible apply Keeps.ite)
    | split
    | (refine Keeps.snd ?_ (by assumption))
    | exact Sub.of rfl
    | dsimp only

theorem State.decisionIn_keeps {mk : Nat} {z s : State} (hk : Keeps mk z s) (r : Rec) (hm : Sub 0x11EE5F7 mk := by exact Sub.of rfl) :
    Keeps mk z (State.decisionIn s r) := by
  refine hk.within hm ?_
  replace hk : Keeps 0x11EE5F7 s s := .refl _
  unfold State.decisionIn
  repeat' first
    | (extract_lets -descend +onlyGivenNames x0; refine Keeps.cut (m := 0x11EE5F7) (z := s) (v := x0) ?_ (fun h0 => ?_); rotate_left; clear_value x0; rotate_left; dsimp -zeta only [x0]; clear x0)
    | (extract_lets -descend +onlyGivenNames x0; clear_value x0)
    | lift_lets
    | with_reducible assumption
    | with_reducible apply State.ownDecision_keeps
    | exact Sub.of rfl
    | dsimp only

theorem State.forecast_keeps {mk : Nat} {z s : State} (hk : Keeps mk z s) (n : Nat) (feats : List Nat) (fin : Bool) (hm : Sub 0x1080475 mk := by exact Sub.of rfl) :
    Keeps mk z (State.forecast s n feats fin) := by
  refine hk.within hm ?_
  replace hk : Keeps 0x1080475 s s := .refl _
  unfold State.forecast
  repeat' first
    | (extract_lets -descend +onlyGivenNames x0; refine Keeps.cut (m := 0x1080475) (z := s) (v := x0) ?_ (fun h0 => ?_); rotate_left; clear_value x0; rotate_left; dsimp -zeta only [x0]; clear x0)
    | (extract_lets -descend +onlyGivenNames x0; clear_value x0)
    | lift_lets
    | with_reducible assumption
    | (with_reducible first | apply State.emitUp_keeps | apply State.originate_keeps | apply State.endOfCause_keeps)
    | (with_reducible apply Keeps.ite)
    | split
    | (refine Keeps.some ?_ (by assumption))
    | (refine Keeps.snd ?_ (by assumption))
    | exact Sub.of rfl
    | dsimp only

theorem State.tkLeave_keeps {mk : Nat} {z s : State} (hk : Keeps mk z s) (n : Nat) (feats : List Nat) (hm : Sub 0x1082475 mk := by exact Sub.of rfl) :
    Keeps mk z (State.tkLeave s n feats) := by
  refine hk.within hm ?_
  replace hk : Keeps 0x1082475 s s := .refl _
  unfold State.tkLeave
  repeat' first
    | with_reducible intro _
    | with_reducible assumption
    | (with_reducible first | apply State.modDie_keeps | apply State.forecast_keeps)
    | (with_reducible refine Keeps.mk0 ?_ ?g; (first | with_reducible assumption | (refine Keeps.snd ?_ (by assumption)) | (refine Keeps.some ?_ (by assumption)) | (with_reducible first | apply State.modDie_keeps | apply State.forecast_keeps)); with_reducible case g => exact fun h => Keeps.mk' h)
    | exact Sub.of rfl
    | dsimp only

theorem State.thermalKnown_keeps {mk : Nat} {z s : State} (hk : Keeps mk z s) (n : Nat) (raised : List Nat) (feats : List Nat) (part : Bool) (hm : Sub 0x1082477 mk := by exact Sub.of rfl) :
    Keeps mk z (State.thermalKnown s n raised feats part) := by
  refine hk.within hm ?_
  replace hk : Keeps 0x1082477 s s := .refl _
  unfold State.thermalKnown
  repeat' first
    | (extract_lets -descend +onlyGivenNames x0; refine Keeps.cut (m := 0x1082477) (z := s) (v := x0) ?_ (fun h0 => ?_); rotate_left; clear_value x0; rotate_left; dsimp -zeta only [x0]; clear x0)
    | (extract_lets -descend +onlyGivenNames x0; clear_value x0)
    | with_reducible intro _
    | lift_lets
    | with_reducible assumption
    | (with_reducible first | apply State.irq_keeps | apply State.modDie_keeps | apply State.forecast_keeps | apply State.tkLeave_keeps)
    | (with_reducible refine Keeps.mk0 ?_ ?g; (first | with_reducible assumption | (refine Keeps.snd ?_ (by assumption)) | (refine Keeps.some ?_ (by assumption)) | (with_reducible first | apply State.irq_keeps | apply State.modDie_keeps | apply State.forecast_keeps | apply State.tkLeave_keeps)); with_reducible case g => exact fun h => Keeps.mk' h)
    | (with_reducible apply Keeps.ite)
    | split
    | (refine Keeps.some ?_ (by assumption))
    | exact Sub.of rfl
    | dsimp only

theorem State.scoreDie_keeps {mk : Nat} {z s : State} (hk : Keeps mk z s) (i : Nat) (rs : List OutRes) (hm : Sub 0x11EE5F7 mk := by exact Sub.of rfl) :
    Keeps mk z (State.scoreDie s i rs) := by
  refine hk.within hm ?_
  replace hk : Keeps 0x11EE5F7 s s := .refl _
  unfold State.scoreDie
  repeat' first
    | (extract_lets -descend +onlyGivenNames x0; refine Keeps.cut (m := 0x11EE5F7) (z := s) (v := x0) ?_ (fun h0 => ?_); rotate_left; clear_value x0; rotate_left; dsimp -zeta only [x0]; clear x0)
    | (extract_lets -descend +onlyGivenNames x0; clear_value x0)
    | with_reducible intro _
    | lift_lets
    | with_reducible assumption
    | (with_reducible first | apply State.draw_keeps | apply State.modDie_keeps | apply State.viewChanged_keeps | apply State.reclass_keeps | apply State.escalate_keeps | apply State.thermalKnown_keeps)
    | (with_reducible refine Keeps.mk0 ?_ ?g; (first | with_reducible assumption | (refine Keeps.snd ?_ (by assumption)) | (refine Keeps.some ?_ (by assumption)) | (with_reducible first | apply State.draw_keeps | apply State.modDie_keeps | apply State.viewChanged_keeps | apply State.reclass_keeps | apply State.escalate_keeps | apply State.thermalKnown_keeps)); with_reducible case g => exact fun h => Keeps.mk' h)
    | (with_reducible apply Keeps.ite)
    | (with_reducible apply Keeps.foldl)
    | (with_reducible apply Keeps.foldlSnd)
    | split
    | (refine Keeps.some ?_ (by assumption))
    | (refine Keeps.snd ?_ (by assumption))
    | exact Sub.of rfl
    | dsimp only

theorem execVerdictScoring_keeps {mk : Nat} {z s : State} (hk : Keeps mk z s) (hm : Sub 0x11EE5F7 mk := by exact Sub.of rfl) :
    KeepsR mk z (execVerdictScoring s) := by
  refine KeepsR.within hk hm ?_
  replace hk : Keeps 0x11EE5F7 s s := .refl _
  unfold execVerdictScoring
  repeat' first
    | (extract_lets -descend +onlyGivenNames x0; refine Keeps.cut (m := 0x11EE5F7) (z := s) (v := x0) ?_ (fun h0 => ?_); rotate_left; clear_value x0; rotate_left; dsimp -zeta only [x0]; clear x0)
    | (extract_lets -descend +onlyGivenNames x0; clear_value x0)
    | with_reducible intro _
    | lift_lets
    | with_reducible assumption
    | (with_reducible first | apply KeepsR.present | apply KeepsR.next | exact KeepsR.fault | apply State.bumpSat_keeps | apply State.irq_keeps | apply State.grant_keeps | apply State.scoreDie_keeps)
    | (with_reducible refine Keeps.mk0 ?_ ?g; (first | with_reducible assumption | (refine Keeps.snd ?_ (by assumption)) | (refine Keeps.some ?_ (by assumption)) | (with_reducible first | apply State.bumpSat_keeps | apply State.irq_keeps | apply State.grant_keeps | apply State.scoreDie_keeps)); with_reducible case g => exact fun h => Keeps.mk' h)
    | (with_reducible apply Keeps.ite)
    | split
    | (refine Keeps.some ?_ (by assumption))
    | exact Sub.of rfl
    | dsimp only

theorem execDieEntryFree_keeps {mk : Nat} {z s : State} (hk : Keeps mk z s) (entry : Nat) (hm : Sub 0x2000 mk := by exact Sub.of rfl) :
    KeepsR mk z (execDieEntryFree entry s) := by
  refine KeepsR.within hk hm ?_
  replace hk : Keeps 0x2000 s s := .refl _
  unfold execDieEntryFree
  repeat' first
    | with_reducible intro _
    | with_reducible assumption
    | (with_reducible first | apply KeepsR.present | apply KeepsR.next | exact KeepsR.fault | apply present_keeps)
    | (with_reducible refine Keeps.mk0 ?_ ?g; (first | with_reducible assumption | (refine Keeps.snd ?_ (by assumption)) | (refine Keeps.some ?_ (by assumption)) | (with_reducible first | apply present_keeps)); with_reducible case g => exact fun h => Keeps.mk' h)
    | (with_reducible apply Keeps.ite)
    | split
    | (refine Keeps.some ?_ (by assumption))
    | exact Sub.of rfl
    | dsimp only

theorem State.outSwap_keeps {mk : Nat} {z s : State} (hk : Keeps mk z s) (slot : Nat) (hm : Sub 0x82475 mk := by exact Sub.of rfl) :
    Keeps mk z (State.outSwap s slot) := by
  refine hk.within hm ?_
  replace hk : Keeps 0x82475 s s := .refl _
  unfold State.outSwap
  repeat' first
    | (extract_lets -descend +onlyGivenNames x0; refine Keeps.cut (m := 0x82475) (z := s) (v := x0) ?_ (fun h0 => ?_); rotate_left; clear_value x0; rotate_left; dsimp -zeta only [x0]; clear x0)
    | (extract_lets -descend +onlyGivenNames x0; clear_value x0)
    | with_reducible intro _
    | lift_lets
    | with_reducible assumption
    | (with_reducible first | apply State.modDie_keeps | apply State.verdictRec_keeps)
    | (with_reducible refine Keeps.mk0 ?_ ?g; (first | with_reducible assumption | (refine Keeps.snd ?_ (by assumption)) | (refine Keeps.some ?_ (by assumption)) | (with_reducible first | apply State.modDie_keeps | apply State.verdictRec_keeps)); with_reducible case g => exact fun h => Keeps.mk' h)
    | (with_reducible apply Keeps.ite)
    | (with_reducible apply Keeps.foldl)
    | split
    | exact Sub.of rfl
    | dsimp only

theorem State.ownLatched_keeps {mk : Nat} {z s : State} (hk : Keeps mk z s) (hm : Sub 0x11EE5F7 mk := by exact Sub.of rfl) :
    Keeps mk z (State.ownLatched s) := by
  refine hk.within hm ?_
  replace hk : Keeps 0x11EE5F7 s s := .refl _
  unfold State.ownLatched
  repeat' first
    | (extract_lets -descend +onlyGivenNames x0; refine Keeps.cut (m := 0x11EE5F7) (z := s) (v := x0) ?_ (fun h0 => ?_); rotate_left; clear_value x0; rotate_left; dsimp -zeta only [x0]; clear x0)
    | (extract_lets -descend +onlyGivenNames x0; clear_value x0)
    | lift_lets
    | with_reducible assumption
    | (with_reducible first | apply State.viewTold_keeps | apply State.reclass_keeps | apply State.escalate_keeps)
    | (with_reducible apply Keeps.ite)
    | split
    | exact Sub.of rfl
    | dsimp only

theorem State.latchSdc_keeps {mk : Nat} {z s : State} (hk : Keeps mk z s) (hm : Sub 0x11EE5F7 mk := by exact Sub.of rfl) :
    Keeps mk z (State.latchSdc s) := by
  refine hk.within hm ?_
  replace hk : Keeps 0x11EE5F7 s s := .refl _
  unfold State.latchSdc
  repeat' first
    | with_reducible assumption
    | with_reducible apply State.ownLatched_keeps
    | (with_reducible refine Keeps.mk0 ?_ ?g; (first | with_reducible assumption | (refine Keeps.snd ?_ (by assumption)) | (refine Keeps.some ?_ (by assumption)) | (with_reducible first | apply State.ownLatched_keeps)); with_reducible case g => exact fun h => Keeps.mk' h)
    | exact Sub.of rfl
    | dsimp only

theorem State.latchCond_keeps {mk : Nat} {z s : State} (hk : Keeps mk z s) (bins : Nat) (hm : Sub 0x11EE5F7 mk := by exact Sub.of rfl) :
    Keeps mk z (State.latchCond s bins) := by
  refine hk.within hm ?_
  replace hk : Keeps 0x11EE5F7 s s := .refl _
  unfold State.latchCond
  repeat' first
    | with_reducible assumption
    | with_reducible apply State.ownLatched_keeps
    | (with_reducible refine Keeps.mk0 ?_ ?g; (first | with_reducible assumption | (refine Keeps.snd ?_ (by assumption)) | (refine Keeps.some ?_ (by assumption)) | (with_reducible first | apply State.ownLatched_keeps)); with_reducible case g => exact fun h => Keeps.mk' h)
    | exact Sub.of rfl
    | dsimp only

theorem State.outClear_keeps {mk : Nat} {z s : State} (hk : Keeps mk z s) (id : Nat) (hm : Sub 0x11EE5F7 mk := by exact Sub.of rfl) :
    Keeps mk z (State.outClear s id) := by
  refine hk.within hm ?_
  replace hk : Keeps 0x11EE5F7 s s := .refl _
  unfold State.outClear
  repeat' first
    | (extract_lets -descend +onlyGivenNames x0; refine Keeps.cut (m := 0x11EE5F7) (z := s) (v := x0) ?_ (fun h0 => ?_); rotate_left; clear_value x0; rotate_left; dsimp -zeta only [x0]; clear x0)
    | (extract_lets -descend +onlyGivenNames x0; clear_value x0)
    | lift_lets
    | with_reducible assumption
    | (with_reducible first | apply State.viewTrigger_keeps | apply State.ownLatched_keeps)
    | (with_reducible refine Keeps.mk0 ?_ ?g; (first | with_reducible assumption | (refine Keeps.snd ?_ (by assumption)) | (refine Keeps.some ?_ (by assumption)) | (with_reducible first | apply State.viewTrigger_keeps | apply State.ownLatched_keeps)); with_reducible case g => exact fun h => Keeps.mk' h)
    | (with_reducible apply Keeps.ite)
    | split
    | exact Sub.of rfl
    | dsimp only

theorem execOutClear_keeps {mk : Nat} {z s : State} (hk : Keeps mk z s) (a : Acc) (data : Word) (hm : Sub 0x11EE5F7 mk := by exact Sub.of rfl) :
    KeepsR mk z (execOutClear a data s) := by
  refine KeepsR.within hk hm ?_
  replace hk : Keeps 0x11EE5F7 s s := .refl _
  unfold execOutClear
  repeat' first
    | with_reducible intro _
    | with_reducible assumption
    | (with_reducible first | apply KeepsR.present | apply KeepsR.next | exact KeepsR.fault | apply State.guardedWrite_keeps | apply State.outClear_keeps)
    | exact Sub.of rfl
    | dsimp only

end Sys2Proof.Machine
end

