-- ==== Sys2Proof/Laws/KeepsTrees.lean ====
section
/-! SUPPORT. What the operations of Machine/Trees.lean keep. -/

set_option Elab.async false

namespace Sys2Proof.Machine

theorem State.modTslot_keeps {mk : Nat} {z s : State} (hk : Keeps mk z s) (k : Nat) (f : TSlot → TSlot) (hm : Sub 0x1000 mk := by exact Sub.of rfl) :
    Keeps mk z (State.modTslot s k f) := by
  refine hk.within hm ?_
  replace hk : Keeps 0x1000 s s := .refl _
  unfold State.modTslot
  repeat' first
    | with_reducible assumption
    | (with_reducible refine Keeps.mk0 ?_ ?g; (first | with_reducible assumption | (refine Keeps.snd ?_ (by assumption)) | (refine Keeps.some ?_ (by assumption))); with_reducible case g => exact fun h => Keeps.mk' h)
    | exact Sub.of rfl
    | dsimp only

theorem State.treeSwap_keeps {mk : Nat} {z s : State} (hk : Keeps mk z s) (k : Nat) (hm : Sub 0x83477 mk := by exact Sub.of rfl) :
    Keeps mk z (State.treeSwap s k) := by
  refine hk.within hm ?_
  replace hk : Keeps 0x83477 s s := .refl _
  unfold State.treeSwap
  repeat' first
    | (extract_lets -descend +onlyGivenNames x0; refine Keeps.cut (m := 0x83477) (z := s) (v := x0) ?_ (fun h0 => ?_); rotate_left; clear_value x0; rotate_left; dsimp -zeta only [x0]; clear x0)
    | (extract_lets -descend +onlyGivenNames x0; clear_value x0)
    | with_reducible intro _
    | lift_lets
    | with_reducible assumption
    | (with_reducible first | apply State.wr_keeps | apply State.irq_keeps | apply State.outSwap_keeps | apply State.modTslot_keeps)
    | (with_reducible refine Keeps.mk0 ?_ ?g; (first | with_reducible assumption | (refine Keeps.snd ?_ (by assumption)) | (refine Keeps.some ?_ (by assumption)) | (with_reducible first | apply State.wr_keeps | apply State.irq_keeps | apply State.outSwap_keeps | apply State.modTslot_keeps)); with_reducible case g => exact fun h => Keeps.mk' h)
    | (with_reducible apply Keeps.ite)
    | split
    | (refine Keeps.some ?_ (by assumption))
    | exact Sub.of rfl
    | dsimp only

theorem State.swapDue_keeps {mk : Nat} {z s : State} (hk : Keeps mk z s) (k n : Nat) (hm : Sub 0x83477 mk := by exact Sub.of rfl) :
    Keeps mk z (State.swapDue s k n) := by
  refine hk.within hm ?_
  replace hk : Keeps 0x83477 s s := .refl _
  unfold State.swapDue
  repeat' first
    | (extract_lets -descend +onlyGivenNames x0; refine Keeps.cut (m := 0x83477) (z := s) (v := x0) ?_ (fun h0 => ?_); rotate_left; clear_value x0; rotate_left; dsimp -zeta only [x0]; clear x0)
    | (extract_lets -descend +onlyGivenNames x0; clear_value x0)
    | lift_lets
    | with_reducible assumption
    | with_reducible apply State.treeSwap_keeps
    | (with_reducible apply Keeps.ite)
    | split
    | exact Sub.of rfl
    | dsimp only

theorem State.treeCut_keeps {mk : Nat} {z s : State} (hk : Keeps mk z s) (n : Nat) (hm : Sub 0x83477 mk := by exact Sub.of rfl) :
    Keeps mk z (State.treeCut s n) := by
  refine hk.within hm ?_
  replace hk : Keeps 0x83477 s s := .refl _
  unfold State.treeCut
  repeat' first
    | (extract_lets -descend +onlyGivenNames x0; refine Keeps.cut (m := 0x83477) (z := s) (v := x0) ?_ (fun h0 => ?_); rotate_left; clear_value x0; rotate_left; dsimp -zeta only [x0]; clear x0)
    | (extract_lets -descend +onlyGivenNames x0; clear_value x0)
    | with_reducible intro _
    | lift_lets
    | with_reducible assumption
    | (with_reducible first | apply State.modTslot_keeps | apply State.swapDue_keeps)
    | (with_reducible refine Keeps.mk0 ?_ ?g; (first | with_reducible assumption | (refine Keeps.snd ?_ (by assumption)) | (refine Keeps.some ?_ (by assumption)) | (with_reducible first | apply State.modTslot_keeps | apply State.swapDue_keeps)); with_reducible case g => exact fun h => Keeps.mk' h)
    | (with_reducible apply Keeps.foldl)
    | exact Sub.of rfl
    | dsimp only

theorem State.loadFit_keeps {mk : Nat} {z s : State} (hk : Keeps mk z s) (hm : Sub 0x1000 mk := by exact Sub.of rfl) :
    Keeps mk z (State.loadFit s) := by
  refine hk.within hm ?_
  replace hk : Keeps 0x1000 s s := .refl _
  unfold State.loadFit
  repeat' first
    | (extract_lets -descend +onlyGivenNames x0; refine Keeps.cut (m := 0x1000) (z := s) (v := x0) ?_ (fun h0 => ?_); rotate_left; clear_value x0; rotate_left; dsimp -zeta only [x0]; clear x0)
    | (extract_lets -descend +onlyGivenNames x0; dsimp -zeta only [x0]; clear x0)
    | with_reducible intro _
    | lift_lets
    | with_reducible assumption
    | (with_reducible first | apply KeepsR.present | apply KeepsR.next | exact KeepsR.fault | exact KeepsO.none | apply KeepsO.some | apply State.modTslot_keeps)
    | (with_reducible refine State.modRegion_keeps ?_ _ _ (fun _ w => w))
    | (with_reducible refine State.modFw_keeps ?_ _ ⟨rfl, rfl⟩)
    | (with_reducible refine State.modAuth_keeps ?_ _ ⟨rfl, rfl⟩)
    | (with_reducible refine Keeps.mk0 ?_ ?g; (first | with_reducible assumption | (refine Keeps.snd ?_ (by assumption)) | (refine Keeps.some ?_ (by assumption)) | (with_reducible first | apply State.modTslot_keeps)); with_reducible case g => exact fun h => Keeps.mk' h)
    | (with_reducible apply Keeps.ite)
    | (with_reducible apply Keeps.foldl)
    | (with_reducible apply Keeps.foldlSnd)
    | (with_reducible apply Keeps.foldlFst)
    | split
    | (refine Keeps.some ?_ (by assumption))
    | (refine Keeps.snd ?_ (by assumption))
    | exact Sub.of rfl
    | dsimp only

theorem State.loadRefuse_keeps {mk : Nat} {z s : State} (hk : Keeps mk z s) (slot reason : Nat) (chunks : Bool) (data : List Byte) (hm : Sub 0x814F7 mk := by exact Sub.of rfl) :
    Keeps mk z (State.loadRefuse s slot reason chunks data) := by
  refine hk.within hm ?_
  replace hk : Keeps 0x814F7 s s := .refl _
  unfold State.loadRefuse
  repeat' first
    | (extract_lets -descend +onlyGivenNames x0; refine Keeps.cut (m := 0x814F7) (z := s) (v := x0) ?_ (fun h0 => ?_); rotate_left; clear_value x0; rotate_left; dsimp -zeta only [x0]; clear x0)
    | (extract_lets -descend +onlyGivenNames x0; clear_value x0)
    | lift_lets
    | with_reducible assumption
    | (with_reducible first | apply State.wr_keeps | apply State.irq_keeps | apply State.event_keeps)
    | (with_reducible refine Keeps.mk0 ?_ ?g; (first | with_reducible assumption | (refine Keeps.snd ?_ (by assumption)) | (refine Keeps.some ?_ (by assumption)) | (with_reducible first | apply State.wr_keeps | apply State.irq_keeps | apply State.event_keeps)); with_reducible case g => exact fun h => Keeps.mk' h)
    | (with_reducible apply Keeps.ite)
    | split
    | exact Sub.of rfl
    | dsimp only

theorem State.loadDrop_keeps {mk : Nat} {z s : State} (hk : Keeps mk z s) (hm : Sub 0x1000 mk := by exact Sub.of rfl) :
    Keeps mk z (State.loadDrop s) := by
  refine hk.within hm ?_
  replace hk : Keeps 0x1000 s s := .refl _
  unfold State.loadDrop
  repeat' first
    | with_reducible intro _
    | with_reducible assumption
    | with_reducible apply State.modTslot_keeps
    | (with_reducible refine Keeps.mk0 ?_ ?g; (first | with_reducible assumption | (refine Keeps.snd ?_ (by assumption)) | (refine Keeps.some ?_ (by assumption)) | (with_reducible first | apply State.modTslot_keeps)); with_reducible case g => exact fun h => Keeps.mk' h)
    | split
    | (refine Keeps.some ?_ (by assumption))
    | exact Sub.of rfl
    | dsimp only

theorem State.loadFail_keeps {mk : Nat} {z s : State} (hk : Keeps mk z s) (reason : Nat) (hm : Sub 0x814F7 mk := by exact Sub.of rfl) :
    Keeps mk z (State.loadFail s reason) := by
  refine hk.within hm ?_
  replace hk : Keeps 0x814F7 s s := .refl _
  unfold State.loadFail
  repeat' first
    | with_reducible assumption
    | (with_reducible first | apply State.loadRefuse_keeps | apply State.loadDrop_keeps)
    | split
    | (refine Keeps.some ?_ (by assumption))
    | exact Sub.of rfl
    | dsimp only

theorem State.loadBytes_keeps {mk : Nat} {z s : State} (hk : Keeps mk z s) (b : List Byte) (hm : Sub 0x814F7 mk := by exact Sub.of rfl) :
    Keeps mk z (State.loadBytes s b) := by
  refine hk.within hm ?_
  replace hk : Keeps 0x814F7 s s := .refl _
  unfold State.loadBytes
  repeat' first
    | (extract_lets -descend +onlyGivenNames x0; refine Keeps.cut (m := 0x814F7) (z := s) (v := x0) ?_ (fun h0 => ?_); rotate_left; clear_value x0; rotate_left; dsimp -zeta only [x0]; clear x0)
    | (extract_lets -descend +onlyGivenNames x0; clear_value x0)
    | lift_lets
    | with_reducible assumption
    | (with_reducible first | apply State.loadFit_keeps | apply State.loadFail_keeps)
    | (with_reducible refine Keeps.mk0 ?_ ?g; (first | with_reducible assumption | (refine Keeps.snd ?_ (by assumption)) | (refine Keeps.some ?_ (by assumption)) | (with_reducible first | apply State.loadFit_keeps | apply State.loadFail_keeps)); with_reducible case g => exact fun h => Keeps.mk' h)
    | (with_reducible apply Keeps.ite)
    | split
    | (refine Keeps.some ?_ (by assumption))
    | exact Sub.of rfl
    | dsimp only

theorem State.treeLoadCtrl_keeps {mk : Nat} {z s : State} (hk : Keeps mk z s) (v : Nat) (hm : Sub 0x814F7 mk := by exact Sub.of rfl) :
    Keeps mk z (State.treeLoadCtrl s v) := by
  refine hk.within hm ?_
  replace hk : Keeps 0x814F7 s s := .refl _
  unfold State.treeLoadCtrl
  repeat' first
    | (extract_lets -descend +onlyGivenNames x0; refine Keeps.cut (m := 0x814F7) (z := s) (v := x0) ?_ (fun h0 => ?_); rotate_left; clear_value x0; rotate_left; dsimp -zeta only [x0]; clear x0)
    | (extract_lets -descend +onlyGivenNames x0; clear_value x0)
    | lift_lets
    | with_reducible assumption
    | (with_reducible first | apply State.loadRefuse_keeps | apply State.loadDrop_keeps)
    | (with_reducible refine Keeps.mk0 ?_ ?g; (first | with_reducible assumption | (refine Keeps.snd ?_ (by assumption)) | (refine Keeps.some ?_ (by assumption)) | (with_reducible first | apply State.loadRefuse_keeps | apply State.loadDrop_keeps)); with_reducible case g => exact fun h => Keeps.mk' h)
    | (with_reducible apply Keeps.ite)
    | split
    | (refine Keeps.some ?_ (by assumption))
    | exact Sub.of rfl
    | dsimp only

theorem execTreeLoadBegin_keeps {mk : Nat} {z s : State} (hk : Keeps mk z s) (a : Acc) (data : Word) (hm : Sub 0x814F7 mk := by exact Sub.of rfl) :
    KeepsR mk z (execTreeLoadBegin a data s) := by
  refine KeepsR.within hk hm ?_
  replace hk : Keeps 0x814F7 s s := .refl _
  unfold execTreeLoadBegin
  repeat' first
    | with_reducible intro _
    | with_reducible assumption
    | (with_reducible first | apply KeepsR.present | apply KeepsR.next | exact KeepsR.fault | apply State.guardedWrite_keeps | apply State.treeLoadCtrl_keeps)
    | exact Sub.of rfl
    | dsimp only

theorem execTreeLoadEnd_keeps {mk : Nat} {z s : State} (hk : Keeps mk z s) (a : Acc) (data : Word) (hm : Sub 0x814F7 mk := by exact Sub.of rfl) :
    KeepsR mk z (execTreeLoadEnd a data s) := by
  refine KeepsR.within hk hm ?_
  replace hk : Keeps 0x814F7 s s := .refl _
  unfold execTreeLoadEnd
  repeat' first
    | with_reducible intro _
    | with_reducible assumption
    | (with_reducible first | apply KeepsR.present | apply KeepsR.next | exact KeepsR.fault | apply State.guardedWrite_keeps | apply State.treeLoadCtrl_keeps)
    | exact Sub.of rfl
    | dsimp only

theorem execTreeLoadAbort_keeps {mk : Nat} {z s : State} (hk : Keeps mk z s) (a : Acc) (data : Word) (hm : Sub 0x814F7 mk := by exact Sub.of rfl) :
    KeepsR mk z (execTreeLoadAbort a data s) := by
  refine KeepsR.within hk hm ?_
  replace hk : Keeps 0x814F7 s s := .refl _
  unfold execTreeLoadAbort
  repeat' first
    | with_reducible intro _
    | with_reducible assumption
    | (with_reducible first | apply KeepsR.present | apply KeepsR.next | exact KeepsR.fault | apply State.guardedWrite_keeps | apply State.treeLoadCtrl_keeps)
    | exact Sub.of rfl
    | dsimp only

theorem State.treeLoadData_keeps {mk : Nat} {z s : State} (hk : Keeps mk z s) (v : Nat) (hm : Sub 0x814F7 mk := by exact Sub.of rfl) :
    Keeps mk z (State.treeLoadData s v) := by
  refine hk.within hm ?_
  replace hk : Keeps 0x814F7 s s := .refl _
  unfold State.treeLoadData
  repeat' first
    | with_reducible assumption
    | with_reducible apply State.loadBytes_keeps
    | (with_reducible apply Keeps.ite)
    | split
    | (refine Keeps.some ?_ (by assumption))
    | exact Sub.of rfl
    | dsimp only

theorem execTreeLoadData_keeps {mk : Nat} {z s : State} (hk : Keeps mk z s) (a : Acc) (data : Word) (hm : Sub 0x814F7 mk := by exact Sub.of rfl) :
    KeepsR mk z (execTreeLoadData a data s) := by
  refine KeepsR.within hk hm ?_
  replace hk : Keeps 0x814F7 s s := .refl _
  unfold execTreeLoadData
  repeat' first
    | with_reducible intro _
    | with_reducible assumption
    | (with_reducible first | apply KeepsR.present | apply KeepsR.next | exact KeepsR.fault | apply State.guardedWrite_keeps | apply State.treeLoadData_keeps)
    | exact Sub.of rfl
    | dsimp only

theorem State.chunkTake_keeps {mk : Nat} {z s : State} (hk : Keeps mk z s) (r : Rec) (hm : Sub 0x814F7 mk := by exact Sub.of rfl) :
    Keeps mk z (State.chunkTake s r) := by
  refine hk.within hm ?_
  replace hk : Keeps 0x814F7 s s := .refl _
  unfold State.chunkTake
  repeat' first
    | (extract_lets -descend +onlyGivenNames x0; refine Keeps.cut (m := 0x814F7) (z := s) (v := x0) ?_ (fun h0 => ?_); rotate_left; clear_value x0; rotate_left; dsimp -zeta only [x0]; clear x0)
    | (extract_lets -descend +onlyGivenNames x0; dsimp -zeta only [x0]; clear x0)
    | with_reducible intro _
    | lift_lets
    | with_reducible assumption
    | (with_reducible first | apply KeepsR.present | apply KeepsR.next | exact KeepsR.fault | exact KeepsO.none | apply KeepsO.some | apply State.loadRefuse_keeps | apply State.loadFail_keeps | apply State.loadBytes_keeps)
    | (with_reducible refine State.modRegion_keeps ?_ _ _ (fun _ w => w))
    | (with_reducible refine State.modFw_keeps ?_ _ ⟨rfl, rfl⟩)
    | (with_reducible refine State.modAuth_keeps ?_ _ ⟨rfl, rfl⟩)
    | (with_reducible refine Keeps.mk0 ?_ ?g; (first | with_reducible assumption | (refine Keeps.snd ?_ (by assumption)) | (refine Keeps.some ?_ (by assumption)) | (with_reducible first | apply State.loadRefuse_keeps | apply State.loadFail_keeps | apply State.loadBytes_keeps)); with_reducible case g => exact fun h => Keeps.mk' h)
    | (with_reducible apply Keeps.ite)
    | (with_reducible apply Keeps.foldl)
    | (with_reducible apply Keeps.foldlSnd)
    | (with_reducible apply Keeps.foldlFst)
    | split
    | (refine Keeps.some ?_ (by assumption))
    | (refine Keeps.snd ?_ (by assumption))
    | exact Sub.of rfl
    | dsimp only

theorem State.chunkDrain_keepsAux {z s : State} (hk : Keeps 0x1814F7 z s) (n : Nat) : Keeps 0x1814F7 z (State.chunkDrain n s) := by
  induction n generalizing s with
  | zero => exact hk
  | succ n ih =>
    unfold State.chunkDrain
    repeat' first
      | with_reducible intro _
      | with_reducible assumption
      | (with_reducible first | apply ih | apply State.grant_keeps | apply State.waitOver_keeps | apply State.chunkTake_keeps)
      | (with_reducible refine Keeps.mk0 ?_ ?g; (first | with_reducible assumption | (refine Keeps.snd ?_ (by assumption)) | (refine Keeps.some ?_ (by assumption)) | (with_reducible first | apply ih | apply State.grant_keeps | apply State.waitOver_keeps | apply State.chunkTake_keeps)); with_reducible case g => exact fun h => Keeps.mk' h)
      | (with_reducible apply Keeps.ite)
      | split
      | (refine Keeps.some ?_ (by assumption))
      | exact Sub.of rfl
      | dsimp only

theorem State.chunkDrain_keeps {mk : Nat} {z s : State} (h : Keeps mk z s) (n : Nat) (hm : Sub 0x1814F7 mk := by exact Sub.of rfl) : Keeps mk z (State.chunkDrain n s) :=
  h.within hm (State.chunkDrain_keepsAux (.refl _) n)

theorem State.modelChunk_keeps {mk : Nat} {z s : State} (hk : Keeps mk z s) (port credits : Nat) (r : Rec) (hm : Sub 0x1914F7 mk := by exact Sub.of rfl) :
    Keeps mk z (State.modelChunk s port credits r) := by
  refine hk.within hm ?_
  replace hk : Keeps 0x1914F7 s s := .refl _
  unfold State.modelChunk
  repeat' first
    | (extract_lets -descend +onlyGivenNames x0; refine Keeps.cut (m := 0x1914F7) (z := s) (v := x0) ?_ (fun h0 => ?_); rotate_left; clear_value x0; rotate_left; dsimp -zeta only [x0]; clear x0)
    | (extract_lets -descend +onlyGivenNames x0; clear_value x0)
    | with_reducible intro _
    | lift_lets
    | with_reducible assumption
    | (with_reducible first | apply State.wake_keeps | apply State.waitIn_keeps | apply State.chunkDrain_keeps)
    | (with_reducible refine Keeps.mk0 ?_ ?g; (first | with_reducible assumption | (refine Keeps.snd ?_ (by assumption)) | (refine Keeps.some ?_ (by assumption)) | (with_reducible first | apply State.wake_keeps | apply State.waitIn_keeps | apply State.chunkDrain_keeps)); with_reducible case g => exact fun h => Keeps.mk' h)
    | (with_reducible apply Keeps.ite)
    | split
    | exact Sub.of rfl
    | dsimp only

theorem execModelVerifyDone_keeps {mk : Nat} {z s : State} (hk : Keeps mk z s) (hm : Sub 0x1814F7 mk := by exact Sub.of rfl) :
    KeepsR mk z (execModelVerifyDone s) := by
  refine KeepsR.within hk hm ?_
  replace hk : Keeps 0x1814F7 s s := .refl _
  unfold execModelVerifyDone
  repeat' first
    | (extract_lets -descend +onlyGivenNames x0; refine Keeps.cut (m := 0x1814F7) (z := s) (v := x0) ?_ (fun h0 => ?_); rotate_left; clear_value x0; rotate_left; dsimp -zeta only [x0]; clear x0)
    | (extract_lets -descend +onlyGivenNames x0; clear_value x0)
    | with_reducible intro _
    | lift_lets
    | with_reducible assumption
    | (with_reducible first | apply KeepsR.present | apply KeepsR.next | exact KeepsR.fault | apply State.irq_keeps | apply State.grant_keeps | apply State.modTslot_keeps | apply State.loadFail_keeps)
    | (with_reducible refine Keeps.mk0 ?_ ?g; (first | with_reducible assumption | (refine Keeps.snd ?_ (by assumption)) | (refine Keeps.some ?_ (by assumption)) | (with_reducible first | apply State.irq_keeps | apply State.grant_keeps | apply State.modTslot_keeps | apply State.loadFail_keeps)); with_reducible case g => exact fun h => Keeps.mk' h)
    | (with_reducible apply Keeps.ite)
    | split
    | (refine Keeps.some ?_ (by assumption))
    | exact Sub.of rfl
    | dsimp only

theorem State.tslCancel_keeps {mk : Nat} {z s : State} (hk : Keeps mk z s) (k v : Nat) (hm : Sub 0x1000 mk := by exact Sub.of rfl) :
    Keeps mk z (State.tslCancel s k v) := by
  refine hk.within hm ?_
  replace hk : Keeps 0x1000 s s := .refl _
  unfold State.tslCancel
  repeat' first
    | with_reducible intro _
    | with_reducible assumption
    | with_reducible apply State.modTslot_keeps
    | (with_reducible refine Keeps.mk0 ?_ ?g; (first | with_reducible assumption | (refine Keeps.snd ?_ (by assumption)) | (refine Keeps.some ?_ (by assumption)) | (with_reducible first | apply State.modTslot_keeps)); with_reducible case g => exact fun h => Keeps.mk' h)
    | (with_reducible apply Keeps.ite)
    | split
    | exact Sub.of rfl
    | dsimp only

theorem execTslCancel_keeps {mk : Nat} {z s : State} (hk : Keeps mk z s) (a : Acc) (slot : Nat) (data : Word) (hm : Sub 0x814F7 mk := by exact Sub.of rfl) :
    KeepsR mk z (execTslCancel a slot data s) := by
  refine KeepsR.within hk hm ?_
  replace hk : Keeps 0x814F7 s s := .refl _
  unfold execTslCancel
  repeat' first
    | with_reducible intro _
    | with_reducible assumption
    | (with_reducible first | apply KeepsR.present | apply KeepsR.next | exact KeepsR.fault | apply State.guardedWrite_keeps | apply State.tslCancel_keeps)
    | exact Sub.of rfl
    | dsimp only

theorem State.sampleSkip_keeps {mk : Nat} {z s : State} (hk : Keeps mk z s) (x : Sample) (hm : Sub 0x2003 mk := by exact Sub.of rfl) :
    Keeps mk z (State.sampleSkip s x) := by
  refine hk.within hm ?_
  replace hk : Keeps 0x2003 s s := .refl _
  unfold State.sampleSkip
  repeat' first
    | (extract_lets -descend +onlyGivenNames x0; refine Keeps.cut (m := 0x2003) (z := s) (v := x0) ?_ (fun h0 => ?_); rotate_left; clear_value x0; rotate_left; dsimp -zeta only [x0]; clear x0)
    | (extract_lets -descend +onlyGivenNames x0; clear_value x0)
    | lift_lets
    | with_reducible assumption
    | (with_reducible first | apply State.bumpSat_keeps | apply State.irq_keeps)
    | (with_reducible refine Keeps.mk0 ?_ ?g; (first | with_reducible assumption | (refine Keeps.snd ?_ (by assumption)) | (refine Keeps.some ?_ (by assumption)) | (with_reducible first | apply State.bumpSat_keeps | apply State.irq_keeps)); with_reducible case g => exact fun h => Keeps.mk' h)
    | (with_reducible apply Keeps.ite)
    | split
    | exact Sub.of rfl
    | dsimp only

theorem State.recordAdmit_keeps {mk : Nat} {z s : State} (hk : Keeps mk z s) (x : Sample) (hm : Sub 0x183477 mk := by exact Sub.of rfl) :
    Keeps mk z (State.recordAdmit s x) := by
  refine hk.within hm ?_
  replace hk : Keeps 0x183477 s s := .refl _
  unfold State.recordAdmit
  repeat' first
    | (extract_lets -descend +onlyGivenNames x0; refine Keeps.cut (m := 0x183477) (z := s) (v := x0) ?_ (fun h0 => ?_); rotate_left; clear_value x0; rotate_left; dsimp -zeta only [x0]; clear x0)
    | (extract_lets -descend +onlyGivenNames x0; clear_value x0)
    | lift_lets
    | with_reducible assumption
    | (with_reducible first | apply State.grant_keeps | apply State.swapDue_keeps | apply State.sampleSkip_keeps)
    | (with_reducible refine Keeps.mk0 ?_ ?g; (first | with_reducible assumption | (refine Keeps.snd ?_ (by assumption)) | (refine Keeps.some ?_ (by assumption)) | (with_reducible first | apply State.grant_keeps | apply State.swapDue_keeps | apply State.sampleSkip_keeps)); with_reducible case g => exact fun h => Keeps.mk' h)
    | (with_reducible apply Keeps.ite)
    | split
    | (refine Keeps.some ?_ (by assumption))
    | exact Sub.of rfl
    | dsimp only

theorem State.treeSamples_keeps {mk : Nat} {z s : State} (hk : Keeps mk z s) (r : Rec) (hm : Sub 0x183477 mk := by exact Sub.of rfl) :
    Keeps mk z (State.treeSamples s r) := by
  refine hk.within hm ?_
  replace hk : Keeps 0x183477 s s := .refl _
  unfold State.treeSamples
  repeat' first
    | (extract_lets -descend +onlyGivenNames x0; refine Keeps.cut (m := 0x183477) (z := s) (v := x0) ?_ (fun h0 => ?_); rotate_left; clear_value x0; rotate_left; dsimp -zeta only [x0]; clear x0)
    | (extract_lets -descend +onlyGivenNames x0; clear_value x0)
    | with_reducible intro _
    | lift_lets
    | with_reducible assumption
    | (with_reducible first | apply State.wake_keeps | apply State.recordAdmit_keeps)
    | (with_reducible refine Keeps.mk0 ?_ ?g; (first | with_reducible assumption | (refine Keeps.snd ?_ (by assumption)) | (refine Keeps.some ?_ (by assumption)) | (with_reducible first | apply State.wake_keeps | apply State.recordAdmit_keeps)); with_reducible case g => exact fun h => Keeps.mk' h)
    | (with_reducible apply Keeps.ite)
    | (with_reducible apply Keeps.foldl)
    | split
    | exact Sub.of rfl
    | dsimp only

theorem State.treeRun_keeps {mk : Nat} {z s : State} (hk : Keeps mk z s) (hm : Sub 0x183477 mk := by exact Sub.of rfl) :
    Keeps mk z (State.treeRun s) := by
  refine hk.within hm ?_
  replace hk : Keeps 0x183477 s s := .refl _
  unfold State.treeRun
  repeat' first
    | with_reducible intro _
    | with_reducible assumption
    | with_reducible apply State.recordAdmit_keeps
    | (with_reducible refine Keeps.mk0 ?_ ?g; (first | with_reducible assumption | (refine Keeps.snd ?_ (by assumption)) | (refine Keeps.some ?_ (by assumption)) | (with_reducible first | apply State.recordAdmit_keeps)); with_reducible case g => exact fun h => Keeps.mk' h)
    | (with_reducible apply Keeps.foldl)
    | exact Sub.of rfl
    | dsimp only

theorem State.sampleDrop_keeps {mk : Nat} {z s : State} (hk : Keeps mk z s) (k : Nat) (hm : Sub 0x3003 mk := by exact Sub.of rfl) :
    Keeps mk z (State.sampleDrop s k) := by
  refine hk.within hm ?_
  replace hk : Keeps 0x3003 s s := .refl _
  unfold State.sampleDrop
  repeat' first
    | with_reducible intro _
    | with_reducible assumption
    | with_reducible apply State.sampleSkip_keeps
    | (with_reducible refine Keeps.mk0 ?_ ?g; (first | with_reducible assumption | (refine Keeps.snd ?_ (by assumption)) | (refine Keeps.some ?_ (by assumption)) | (with_reducible first | apply State.sampleSkip_keeps)); with_reducible case g => exact fun h => Keeps.mk' h)
    | split
    | (refine Keeps.some ?_ (by assumption))
    | exact Sub.of rfl
    | dsimp only

theorem State.sampleWait_keeps {mk : Nat} {z s : State} (hk : Keeps mk z s) (x : Sample) (hm : Sub 0x81000 mk := by exact Sub.of rfl) :
    Keeps mk z (State.sampleWait s x) := by
  refine hk.within hm ?_
  replace hk : Keeps 0x81000 s s := .refl _
  unfold State.sampleWait
  repeat' first
    | (extract_lets -descend +onlyGivenNames x0; refine Keeps.cut (m := 0x81000) (z := s) (v := x0) ?_ (fun h0 => ?_); rotate_left; clear_value x0; rotate_left; dsimp -zeta only [x0]; clear x0)
    | (extract_lets -descend +onlyGivenNames x0; clear_value x0)
    | lift_lets
    | with_reducible assumption
    | with_reducible apply State.wake_keeps
    | (with_reducible refine Keeps.mk0 ?_ ?g; (first | with_reducible assumption | (refine Keeps.snd ?_ (by assumption)) | (refine Keeps.some ?_ (by assumption)) | (with_reducible first | apply State.wake_keeps)); with_reducible case g => exact fun h => Keeps.mk' h)
    | (with_reducible apply Keeps.ite)
    | split
    | exact Sub.of rfl
    | dsimp only

theorem State.selfSamples_keeps {mk : Nat} {z s : State} (hk : Keeps mk z s) (num : Nat) (statNan : Bool) (hm : Sub 0x83003 mk := by exact Sub.of rfl) :
    Keeps mk z (State.selfSamples s num statNan) := by
  refine hk.within hm ?_
  replace hk : Keeps 0x83003 s s := .refl _
  unfold State.selfSamples
  repeat' first
    | (extract_lets -descend +onlyGivenNames x0; refine Keeps.cut (m := 0x83003) (z := s) (v := x0) ?_ (fun h0 => ?_); rotate_left; clear_value x0; rotate_left; dsimp -zeta only [x0]; clear x0)
    | (extract_lets -descend +onlyGivenNames x0; clear_value x0)
    | with_reducible intro _
    | lift_lets
    | with_reducible assumption
    | (with_reducible first | apply State.sampleSkip_keeps | apply State.sampleDrop_keeps | apply State.sampleWait_keeps)
    | (with_reducible apply Keeps.ite)
    | (with_reducible apply Keeps.foldl)
    | split
    | (refine Keeps.some ?_ (by assumption))
    | exact Sub.of rfl
    | dsimp only

theorem execFeaturePassCommit_keeps {mk : Nat} {z s : State} (hk : Keeps mk z s) (lost : List Nat) (hm : Sub 0x1083C77 mk := by exact Sub.of rfl) :
    KeepsR mk z (execFeaturePassCommit lost s) := by
  refine KeepsR.within hk hm ?_
  replace hk : Keeps 0x1083C77 s s := .refl _
  unfold execFeaturePassCommit
  repeat' first
    | with_reducible assumption
    | (with_reducible first | apply KeepsR.present | apply KeepsR.next | exact KeepsR.fault | apply State.histLost_keeps | apply State.featCommit_keeps | apply State.selfSamples_keeps)
    | (with_reducible apply Keeps.ite)
    | split
    | (refine Keeps.some ?_ (by assumption))
    | exact Sub.of rfl
    | dsimp only

theorem execTreeSampleGrant_keeps {mk : Nat} {z s : State} (hk : Keeps mk z s) (slot : Nat) (hm : Sub 0x183477 mk := by exact Sub.of rfl) :
    KeepsR mk z (execTreeSampleGrant slot s) := by
  refine KeepsR.within hk hm ?_
  replace hk : Keeps 0x183477 s s := .refl _
  unfold execTreeSampleGrant
  repeat' first
    | (extract_lets -descend +onlyGivenNames x0; refine Keeps.cut (m := 0x183477) (z := s) (v := x0) ?_ (fun h0 => ?_); rotate_left; clear_value x0; rotate_left; dsimp -zeta only [x0]; clear x0)
    | (extract_lets -descend +onlyGivenNames x0; clear_value x0)
    | with_reducible intro _
    | lift_lets
    | with_reducible assumption
    | (with_reducible first | apply KeepsR.present | apply KeepsR.next | exact KeepsR.fault | apply present_keeps | apply State.grant_keeps | apply State.swapDue_keeps | apply State.sampleSkip_keeps)
    | (with_reducible refine Keeps.mk0 ?_ ?g; (first | with_reducible assumption | (refine Keeps.snd ?_ (by assumption)) | (refine Keeps.some ?_ (by assumption)) | (with_reducible first | apply present_keeps | apply State.grant_keeps | apply State.swapDue_keeps | apply State.sampleSkip_keeps)); with_reducible case g => exact fun h => Keeps.mk' h)
    | (with_reducible apply Keeps.ite)
    | split
    | (refine Keeps.some ?_ (by assumption))
    | exact Sub.of rfl
    | dsimp only

theorem State.showResult_keeps {mk : Nat} {z s : State} (hk : Keeps mk z s) (x : Sample) (flags : Nat) (ms os : List Nat) (hm : Sub 0x1 mk := by exact Sub.of rfl) :
    Keeps mk z (State.showResult s x flags ms os) := by
  refine hk.within hm ?_
  replace hk : Keeps 0x1 s s := .refl _
  unfold State.showResult
  repeat' first
    | (extract_lets -descend +onlyGivenNames x0; refine Keeps.cut (m := 0x1) (z := s) (v := x0) ?_ (fun h0 => ?_); rotate_left; clear_value x0; rotate_left; dsimp -zeta only [x0]; clear x0)
    | (extract_lets -descend +onlyGivenNames x0; clear_value x0)
    | with_reducible intro _
    | lift_lets
    | with_reducible assumption
    | with_reducible apply State.wr_keeps
    | (with_reducible apply Keeps.ite)
    | (with_reducible apply Keeps.foldl)
    | split
    | exact Sub.of rfl
    | dsimp only

theorem State.countEvals_keeps {mk : Nat} {z s : State} (hk : Keeps mk z s) (n : Nat) (hm : Sub 0x1 mk := by exact Sub.of rfl) :
    Keeps mk z (State.countEvals s n) := by
  refine hk.within hm ?_
  replace hk : Keeps 0x1 s s := .refl _
  unfold State.countEvals
  repeat' first
    | (extract_lets -descend +onlyGivenNames x0; refine Keeps.cut (m := 0x1) (z := s) (v := x0) ?_ (fun h0 => ?_); rotate_left; clear_value x0; rotate_left; dsimp -zeta only [x0]; clear x0)
    | (extract_lets -descend +onlyGivenNames x0; clear_value x0)
    | lift_lets
    | with_reducible assumption
    | with_reducible apply State.wr_keeps
    | exact Sub.of rfl
    | dsimp only

theorem execTreeResultCommit_keeps {mk : Nat} {z s : State} (hk : Keeps mk z s) (poison : List Nat) (hm : Sub 0x10834F7 mk := by exact Sub.of rfl) :
    KeepsR mk z (execTreeResultCommit poison s) := by
  refine KeepsR.within hk hm ?_
  replace hk : Keeps 0x10834F7 s s := .refl _
  unfold execTreeResultCommit
  repeat' first
    | (extract_lets -descend +onlyGivenNames x0; refine Keeps.cut (m := 0x10834F7) (z := s) (v := x0) ?_ (fun h0 => ?_); rotate_left; clear_value x0; rotate_left; dsimp -zeta only [x0]; clear x0)
    | (extract_lets -descend +onlyGivenNames x0; clear_value x0)
    | with_reducible intro _
    | lift_lets
    | with_reducible assumption
    | (with_reducible first | apply KeepsR.present | apply KeepsR.next | exact KeepsR.fault | apply State.bump_keeps | apply State.bumpSat_keeps | apply State.irq_keeps | apply State.draw_keeps | apply State.emitUp_keeps | apply State.originate_keeps | apply State.event_keeps | apply State.drawOrder_keeps | apply State.modTslot_keeps | apply State.showResult_keeps | apply State.countEvals_keeps)
    | (with_reducible refine Keeps.mk0 ?_ ?g; (first | with_reducible assumption | (refine Keeps.snd ?_ (by assumption)) | (refine Keeps.some ?_ (by assumption)) | (with_reducible first | apply State.bump_keeps | apply State.bumpSat_keeps | apply State.irq_keeps | apply State.draw_keeps | apply State.emitUp_keeps | apply State.originate_keeps | apply State.event_keeps | apply State.drawOrder_keeps | apply State.modTslot_keeps | apply State.showResult_keeps | apply State.countEvals_keeps)); with_reducible case g => exact fun h => Keeps.mk' h)
    | (with_reducible apply Keeps.ite)
    | split
    | (refine Keeps.some ?_ (by assumption))
    | (refine Keeps.snd ?_ (by assumption))
    | exact Sub.of rfl
    | dsimp only

theorem State.bulkOn_keeps {mk : Nat} {z s : State} (hk : Keeps mk z s) (ports : List Nat) (r : Rec) (fate : Bool) (hm : Sub 0x80471 mk := by exact Sub.of rfl) :
    Keeps mk z (State.bulkOn s ports r fate) := by
  refine hk.within hm ?_
  replace hk : Keeps 0x80471 s s := .refl _
  unfold State.bulkOn
  repeat' first
    | with_reducible intro _
    | with_reducible assumption
    | (with_reducible first | apply State.sendPort_keeps | apply State.sendMany_keeps)
    | (with_reducible apply Keeps.ite)
    | (with_reducible apply Keeps.foldl)
    | split
    | exact Sub.of rfl
    | dsimp only

theorem State.bulkIn_keeps {mk : Nat} {z s : State} (hk : Keeps mk z s) (port : Nat) (r : Rec) (mine : Bool) (use : State → State)
    (h_use : ∀ a0, Keeps mk z a0 → Keeps mk z (use a0)) (hm : Sub 0x480471 mk := by exact Sub.of rfl) : Keeps mk z (State.bulkIn s port r mine use) := by
  unfold State.bulkIn
  dsimp only
  have cut : ∀ t, Keeps mk z t → Keeps mk z (if mine = true then use t else t) := fun t ht => Keeps.ite (h_use _ ht) ht
  exact cut _ (hk.within hm (Keeps.ite (Keeps.mk' (.refl _)) (State.bulkOn_keeps (.refl _) _ _ _)))

theorem execModelChunkReceived_keeps {mk : Nat} {z s : State} (hk : Keeps mk z s) (port : Nat) (rec : Rec) (hm : Sub 0x5914F7 mk := by exact Sub.of rfl) :
    KeepsR mk z (execModelChunkReceived port rec s) := by
  refine KeepsR.within hk hm ?_
  replace hk : Keeps 0x5914F7 s s := .refl _
  unfold execModelChunkReceived
  repeat' first
    | (extract_lets -descend +onlyGivenNames x0; refine Keeps.cut (m := 0x5914F7) (z := s) (v := x0) ?_ (fun h0 => ?_); rotate_left; clear_value x0; rotate_left; dsimp -zeta only [x0]; clear x0)
    | (extract_lets -descend +onlyGivenNames x0; clear_value x0)
    | with_reducible intro _
    | lift_lets
    | with_reducible assumption
    | (with_reducible first | apply KeepsR.present | apply KeepsR.next | exact KeepsR.fault | apply present_keeps | apply State.admitRec_keeps | apply State.modelChunk_keeps | apply State.bulkIn_keeps)
    | (with_reducible apply Keeps.ite)
    | split
    | (refine Keeps.snd ?_ (by assumption))
    | exact Sub.of rfl
    | dsimp only

end Sys2Proof.Machine
end

