-- ==== Sys2Proof/Laws/KeepsTrace.lean ====
section
/-! SUPPORT. What the operations of Machine/Trace.lean keep. -/

set_option Elab.async false

namespace Sys2Proof.Machine

theorem State.trcStart_keeps {mk : Nat} {z s : State} (hk : Keeps mk z s) (sync : Nat) (hm : Sub 0x11EE5F7 mk := by exact Sub.of rfl) :
    Keeps mk z (State.trcStart s sync) := by
  refine hk.within hm ?_
  replace hk : Keeps 0x11EE5F7 s s := .refl _
  unfold State.trcStart
  repeat' first
    | (extract_lets -descend +onlyGivenNames x0; refine Keeps.cut (m := 0x11EE5F7) (z := s) (v := x0) ?_ (fun h0 => ?_); rotate_left; clear_value x0; rotate_left; dsimp -zeta only [x0]; clear x0)
    | (extract_lets -descend +onlyGivenNames x0; clear_value x0)
    | with_reducible intro _
    | lift_lets
    | with_reducible assumption
    | (with_reducible first | apply State.modTrace_keeps | apply State.trcSync_keeps)
    | (with_reducible refine Keeps.mk0 ?_ ?g; (first | with_reducible assumption | (refine Keeps.snd ?_ (by assumption)) | (refine Keeps.some ?_ (by assumption)) | (with_reducible first | apply State.modTrace_keeps | apply State.trcSync_keeps)); with_reducible case g => exact fun h => Keeps.mk' h)
    | exact Sub.of rfl
    | dsimp only

theorem State.trcCtrl_keeps {mk : Nat} {z s : State} (hk : Keeps mk z s) (v : Nat) (hm : Sub 0x11EE5F7 mk := by exact Sub.of rfl) :
    Keeps mk z (State.trcCtrl s v) := by
  refine hk.within hm ?_
  replace hk : Keeps 0x11EE5F7 s s := .refl _
  unfold State.trcCtrl
  repeat' first
    | (extract_lets -descend +onlyGivenNames x0; refine Keeps.cut (m := 0x11EE5F7) (z := s) (v := x0) ?_ (fun h0 => ?_); rotate_left; clear_value x0; rotate_left; dsimp -zeta only [x0]; clear x0)
    | (extract_lets -descend +onlyGivenNames x0; clear_value x0)
    | with_reducible intro _
    | lift_lets
    | with_reducible assumption
    | (with_reducible first | apply State.wr_keeps | apply State.modTrace_keeps | apply State.trcClose_keeps | apply State.trcResume_keeps | apply State.exclClose_keeps | apply State.trcStart_keeps)
    | (with_reducible refine Keeps.mk0 ?_ ?g; (first | with_reducible assumption | (refine Keeps.snd ?_ (by assumption)) | (refine Keeps.some ?_ (by assumption)) | (with_reducible first | apply State.wr_keeps | apply State.modTrace_keeps | apply State.trcClose_keeps | apply State.trcResume_keeps | apply State.exclClose_keeps | apply State.trcStart_keeps)); with_reducible case g => exact fun h => Keeps.mk' h)
    | (with_reducible apply Keeps.ite)
    | split
    | exact Sub.of rfl
    | dsimp only

theorem execTraceEnable_keeps {mk : Nat} {z s : State} (hk : Keeps mk z s) (a : Acc) (data : Word) (hm : Sub 0x11EE5F7 mk := by exact Sub.of rfl) :
    KeepsR mk z (execTraceEnable a data s) := by
  refine KeepsR.within hk hm ?_
  replace hk : Keeps 0x11EE5F7 s s := .refl _
  unfold execTraceEnable
  repeat' first
    | with_reducible intro _
    | with_reducible assumption
    | (with_reducible first | apply KeepsR.present | apply KeepsR.next | exact KeepsR.fault | apply State.guardedWrite_keeps | apply State.trcCtrl_keeps)
    | exact Sub.of rfl
    | dsimp only

theorem State.winFree_keeps {mk : Nat} {z s : State} (hk : Keeps mk z s) (w : Nat) (hm : Sub 0x4003 mk := by exact Sub.of rfl) :
    Keeps mk z (State.winFree s w) := by
  refine hk.within hm ?_
  replace hk : Keeps 0x4003 s s := .refl _
  unfold State.winFree
  repeat' first
    | with_reducible intro _
    | with_reducible assumption
    | (with_reducible first | apply State.irq_keeps | apply State.modTrace_keeps)
    | (with_reducible refine Keeps.mk0 ?_ ?g; (first | with_reducible assumption | (refine Keeps.snd ?_ (by assumption)) | (refine Keeps.some ?_ (by assumption)) | (with_reducible first | apply State.irq_keeps | apply State.modTrace_keeps)); with_reducible case g => exact fun h => Keeps.mk' h)
    | split
    | (refine Keeps.some ?_ (by assumption))
    | exact Sub.of rfl
    | dsimp only

theorem State.trcArm_keeps {mk : Nat} {z s : State} (hk : Keeps mk z s) (hm : Sub 0x11EE5F7 mk := by exact Sub.of rfl) :
    Keeps mk z (State.trcArm s) := by
  refine hk.within hm ?_
  replace hk : Keeps 0x11EE5F7 s s := .refl _
  unfold State.trcArm
  repeat' first
    | (extract_lets -descend +onlyGivenNames x0; refine Keeps.cut (m := 0x11EE5F7) (z := s) (v := x0) ?_ (fun h0 => ?_); rotate_left; clear_value x0; rotate_left; dsimp -zeta only [x0]; clear x0)
    | (extract_lets -descend +onlyGivenNames x0; clear_value x0)
    | with_reducible intro _
    | lift_lets
    | with_reducible assumption
    | (with_reducible first | apply State.modTrace_keeps | apply State.trcClose_keeps | apply State.blockLost_keeps | apply State.trcSync_keeps | apply State.trcGap_keeps | apply State.winFree_keeps)
    | (with_reducible refine Keeps.mk0 ?_ ?g; (first | with_reducible assumption | (refine Keeps.snd ?_ (by assumption)) | (refine Keeps.some ?_ (by assumption)) | (with_reducible first | apply State.modTrace_keeps | apply State.trcClose_keeps | apply State.blockLost_keeps | apply State.trcSync_keeps | apply State.trcGap_keeps | apply State.winFree_keeps)); with_reducible case g => exact fun h => Keeps.mk' h)
    | (with_reducible apply Keeps.ite)
    | (with_reducible apply Keeps.foldl)
    | split
    | exact Sub.of rfl
    | dsimp only

theorem execTrcArm_keeps {mk : Nat} {z s : State} (hk : Keeps mk z s) (a : Acc) (data : Word) (hm : Sub 0x11EE5F7 mk := by exact Sub.of rfl) :
    KeepsR mk z (execTrcArm a data s) := by
  refine KeepsR.within hk hm ?_
  replace hk : Keeps 0x11EE5F7 s s := .refl _
  unfold execTrcArm
  repeat' first
    | with_reducible intro _
    | with_reducible assumption
    | (with_reducible first | apply KeepsR.present | apply KeepsR.next | exact KeepsR.fault | apply State.guardedWrite_keeps | apply State.trcArm_keeps)
    | (with_reducible apply Keeps.ite)
    | split
    | exact Sub.of rfl
    | dsimp only

theorem execTrcTrigSw_keeps {mk : Nat} {z s : State} (hk : Keeps mk z s) (a : Acc) (data : Word) (hm : Sub 0x11EE5F7 mk := by exact Sub.of rfl) :
    KeepsR mk z (execTrcTrigSw a data s) := by
  refine KeepsR.within hk hm ?_
  replace hk : Keeps 0x11EE5F7 s s := .refl _
  unfold execTrcTrigSw
  repeat' first
    | with_reducible intro _
    | with_reducible assumption
    | (with_reducible first | apply KeepsR.present | apply KeepsR.next | exact KeepsR.fault | apply State.trcTrigger_keeps | apply State.guardedWrite_keeps)
    | (with_reducible apply Keeps.ite)
    | split
    | exact Sub.of rfl
    | dsimp only

theorem State.trcItem_keeps {mk : Nat} {z s : State} (hk : Keeps mk z s) (i : TItem) (hm : Sub 0x11EE5F7 mk := by exact Sub.of rfl) :
    Keeps mk z (State.trcItem s i) := by
  refine hk.within hm ?_
  replace hk : Keeps 0x11EE5F7 s s := .refl _
  unfold State.trcItem
  repeat' first
    | (extract_lets -descend +onlyGivenNames x0; refine Keeps.cut (m := 0x11EE5F7) (z := s) (v := x0) ?_ (fun h0 => ?_); rotate_left; clear_value x0; rotate_left; dsimp -zeta only [x0]; clear x0)
    | (extract_lets -descend +onlyGivenNames x0; clear_value x0)
    | with_reducible intro _
    | lift_lets
    | with_reducible assumption
    | (with_reducible first | apply State.modTrace_keeps | apply State.trcOverflow_keeps | apply State.exclClose_keeps | apply State.itemEncode_keeps | apply State.trcTrigger_keeps)
    | (with_reducible refine Keeps.mk0 ?_ ?g; (first | with_reducible assumption | (refine Keeps.snd ?_ (by assumption)) | (refine Keeps.some ?_ (by assumption)) | (with_reducible first | apply State.modTrace_keeps | apply State.trcOverflow_keeps | apply State.exclClose_keeps | apply State.itemEncode_keeps | apply State.trcTrigger_keeps)); with_reducible case g => exact fun h => Keeps.mk' h)
    | (with_reducible apply Keeps.ite)
    | split
    | (refine Keeps.some ?_ (by assumption))
    | (refine Keeps.snd ?_ (by assumption))
    | exact Sub.of rfl
    | dsimp only

theorem State.trcLost_keeps {mk : Nat} {z s : State} (hk : Keeps mk z s) (l : List Nat) (hm : Sub 0x4003 mk := by exact Sub.of rfl) :
    Keeps mk z (State.trcLost s l) := by
  refine hk.within hm ?_
  replace hk : Keeps 0x4003 s s := .refl _
  unfold State.trcLost
  repeat' first
    | (extract_lets -descend +onlyGivenNames x0; refine Keeps.cut (m := 0x4003) (z := s) (v := x0) ?_ (fun h0 => ?_); rotate_left; clear_value x0; rotate_left; dsimp -zeta only [x0]; clear x0)
    | (extract_lets -descend +onlyGivenNames x0; clear_value x0)
    | with_reducible intro _
    | lift_lets
    | with_reducible assumption
    | (with_reducible first | apply State.bumpSat_keeps | apply State.irq_keeps | apply State.modTrace_keeps)
    | (with_reducible refine Keeps.mk0 ?_ ?g; (first | with_reducible assumption | (refine Keeps.snd ?_ (by assumption)) | (refine Keeps.some ?_ (by assumption)) | (with_reducible first | apply State.bumpSat_keeps | apply State.irq_keeps | apply State.modTrace_keeps)); with_reducible case g => exact fun h => Keeps.mk' h)
    | (with_reducible apply Keeps.ite)
    | (with_reducible apply Keeps.foldl)
    | split
    | exact Sub.of rfl
    | dsimp only

theorem State.trcPresent_keeps {mk : Nat} {z s : State} (hk : Keeps mk z s) (cls priv ctx data : Nat) (hm : Sub 0x11EE5F7 mk := by exact Sub.of rfl) :
    Keeps mk z (State.trcPresent s cls priv ctx data) := by
  refine hk.within hm ?_
  replace hk : Keeps 0x11EE5F7 s s := .refl _
  unfold State.trcPresent
  repeat' first
    | (extract_lets -descend +onlyGivenNames x0; refine Keeps.cut (m := 0x11EE5F7) (z := s) (v := x0) ?_ (fun h0 => ?_); rotate_left; clear_value x0; rotate_left; dsimp -zeta only [x0]; clear x0)
    | (extract_lets -descend +onlyGivenNames x0; clear_value x0)
    | with_reducible intro _
    | lift_lets
    | with_reducible assumption
    | (with_reducible first | apply State.bumpSat_keeps | apply State.modTrace_keeps | apply State.wake_keeps | apply State.trcItem_keeps | apply State.trcLost_keeps)
    | (with_reducible refine Keeps.mk0 ?_ ?g; (first | with_reducible assumption | (refine Keeps.snd ?_ (by assumption)) | (refine Keeps.some ?_ (by assumption)) | (with_reducible first | apply State.bumpSat_keeps | apply State.modTrace_keeps | apply State.wake_keeps | apply State.trcItem_keeps | apply State.trcLost_keeps)); with_reducible case g => exact fun h => Keeps.mk' h)
    | (with_reducible apply Keeps.ite)
    | split
    | exact Sub.of rfl
    | dsimp only

theorem State.tokRefuse_keeps {mk : Nat} {z s : State} (hk : Keeps mk z s) (reason id : Nat) (hm : Sub 0x844F7 mk := by exact Sub.of rfl) :
    Keeps mk z (State.tokRefuse s reason id) := by
  refine hk.within hm ?_
  replace hk : Keeps 0x844F7 s s := .refl _
  unfold State.tokRefuse
  repeat' first
    | (extract_lets -descend +onlyGivenNames x0; refine Keeps.cut (m := 0x844F7) (z := s) (v := x0) ?_ (fun h0 => ?_); rotate_left; clear_value x0; rotate_left; dsimp -zeta only [x0]; clear x0)
    | (extract_lets -descend +onlyGivenNames x0; clear_value x0)
    | with_reducible intro _
    | lift_lets
    | with_reducible assumption
    | (with_reducible first | apply State.wr_keeps | apply State.irq_keeps | apply State.modTrace_keeps | apply State.event_keeps)
    | (with_reducible refine Keeps.mk0 ?_ ?g; (first | with_reducible assumption | (refine Keeps.snd ?_ (by assumption)) | (refine Keeps.some ?_ (by assumption)) | (with_reducible first | apply State.wr_keeps | apply State.irq_keeps | apply State.modTrace_keeps | apply State.event_keeps)); with_reducible case g => exact fun h => Keeps.mk' h)
    | (with_reducible apply Keeps.ite)
    | split
    | exact Sub.of rfl
    | dsimp only

theorem State.tokHold_keeps {mk : Nat} {z s : State} (hk : Keeps mk z s) (l : List Byte) (hm : Sub 0x11EE5F7 mk := by exact Sub.of rfl) :
    Keeps mk z (State.tokHold s l) := by
  refine hk.within hm ?_
  replace hk : Keeps 0x11EE5F7 s s := .refl _
  unfold State.tokHold
  repeat' first
    | (extract_lets -descend +onlyGivenNames x0; refine Keeps.cut (m := 0x11EE5F7) (z := s) (v := x0) ?_ (fun h0 => ?_); rotate_left; clear_value x0; rotate_left; dsimp -zeta only [x0]; clear x0)
    | (extract_lets -descend +onlyGivenNames x0; clear_value x0)
    | with_reducible intro _
    | lift_lets
    | with_reducible assumption
    | (with_reducible first | apply State.modTrace_keeps | apply State.authChange_keeps | apply State.tokJudge_keeps)
    | (with_reducible refine Keeps.mk0 ?_ ?g; (first | with_reducible assumption | (refine Keeps.snd ?_ (by assumption)) | (refine Keeps.some ?_ (by assumption)) | (with_reducible first | apply State.modTrace_keeps | apply State.authChange_keeps | apply State.tokJudge_keeps)); with_reducible case g => exact fun h => Keeps.mk' h)
    | (with_reducible apply Keeps.ite)
    | split
    | (refine Keeps.some ?_ (by assumption))
    | exact Sub.of rfl
    | dsimp only

theorem State.tokCtrl_keeps {mk : Nat} {z s : State} (hk : Keeps mk z s) (v : Nat) (hm : Sub 0x844F7 mk := by exact Sub.of rfl) :
    Keeps mk z (State.tokCtrl s v) := by
  refine hk.within hm ?_
  replace hk : Keeps 0x844F7 s s := .refl _
  unfold State.tokCtrl
  repeat' first
    | (extract_lets -descend +onlyGivenNames x0; refine Keeps.cut (m := 0x844F7) (z := s) (v := x0) ?_ (fun h0 => ?_); rotate_left; clear_value x0; rotate_left; dsimp -zeta only [x0]; clear x0)
    | (extract_lets -descend +onlyGivenNames x0; clear_value x0)
    | with_reducible intro _
    | lift_lets
    | with_reducible assumption
    | (with_reducible first | apply State.modTrace_keeps | apply State.tokRefuse_keeps)
    | (with_reducible refine Keeps.mk0 ?_ ?g; (first | with_reducible assumption | (refine Keeps.snd ?_ (by assumption)) | (refine Keeps.some ?_ (by assumption)) | (with_reducible first | apply State.modTrace_keeps | apply State.tokRefuse_keeps)); with_reducible case g => exact fun h => Keeps.mk' h)
    | (with_reducible apply Keeps.ite)
    | split
    | (refine Keeps.some ?_ (by assumption))
    | exact Sub.of rfl
    | dsimp only

theorem execTrcTokBegin_keeps {mk : Nat} {z s : State} (hk : Keeps mk z s) (a : Acc) (data : Word) (hm : Sub 0x844F7 mk := by exact Sub.of rfl) :
    KeepsR mk z (execTrcTokBegin a data s) := by
  refine KeepsR.within hk hm ?_
  replace hk : Keeps 0x844F7 s s := .refl _
  unfold execTrcTokBegin
  repeat' first
    | with_reducible intro _
    | with_reducible assumption
    | (with_reducible first | apply KeepsR.present | apply KeepsR.next | exact KeepsR.fault | apply State.guardedWrite_keeps | apply State.tokCtrl_keeps)
    | exact Sub.of rfl
    | dsimp only

theorem execTrcTokEnd_keeps {mk : Nat} {z s : State} (hk : Keeps mk z s) (a : Acc) (data : Word) (hm : Sub 0x844F7 mk := by exact Sub.of rfl) :
    KeepsR mk z (execTrcTokEnd a data s) := by
  refine KeepsR.within hk hm ?_
  replace hk : Keeps 0x844F7 s s := .refl _
  unfold execTrcTokEnd
  repeat' first
    | with_reducible intro _
    | with_reducible assumption
    | (with_reducible first | apply KeepsR.present | apply KeepsR.next | exact KeepsR.fault | apply State.guardedWrite_keeps | apply State.tokCtrl_keeps)
    | exact Sub.of rfl
    | dsimp only

theorem execTrcTokAbort_keeps {mk : Nat} {z s : State} (hk : Keeps mk z s) (a : Acc) (data : Word) (hm : Sub 0x844F7 mk := by exact Sub.of rfl) :
    KeepsR mk z (execTrcTokAbort a data s) := by
  refine KeepsR.within hk hm ?_
  replace hk : Keeps 0x844F7 s s := .refl _
  unfold execTrcTokAbort
  repeat' first
    | with_reducible intro _
    | with_reducible assumption
    | (with_reducible first | apply KeepsR.present | apply KeepsR.next | exact KeepsR.fault | apply State.guardedWrite_keeps | apply State.tokCtrl_keeps)
    | exact Sub.of rfl
    | dsimp only

theorem State.tokData_keeps {mk : Nat} {z s : State} (hk : Keeps mk z s) (v : Nat) (hm : Sub 0x4000 mk := by exact Sub.of rfl) :
    Keeps mk z (State.tokData s v) := by
  refine hk.within hm ?_
  replace hk : Keeps 0x4000 s s := .refl _
  unfold State.tokData
  repeat' first
    | with_reducible intro _
    | with_reducible assumption
    | with_reducible apply State.modTrace_keeps
    | (with_reducible refine Keeps.mk0 ?_ ?g; (first | with_reducible assumption | (refine Keeps.snd ?_ (by assumption)) | (refine Keeps.some ?_ (by assumption)) | (with_reducible first | apply State.modTrace_keeps)); with_reducible case g => exact fun h => Keeps.mk' h)
    | (with_reducible apply Keeps.ite)
    | split
    | exact Sub.of rfl
    | dsimp only

theorem execTrcTokData_keeps {mk : Nat} {z s : State} (hk : Keeps mk z s) (a : Acc) (data : Word) (hm : Sub 0x844F7 mk := by exact Sub.of rfl) :
    KeepsR mk z (execTrcTokData a data s) := by
  refine KeepsR.within hk hm ?_
  replace hk : Keeps 0x844F7 s s := .refl _
  unfold execTrcTokData
  repeat' first
    | with_reducible intro _
    | with_reducible assumption
    | (with_reducible first | apply KeepsR.present | apply KeepsR.next | exact KeepsR.fault | apply State.guardedWrite_keeps | apply State.tokData_keeps)
    | exact Sub.of rfl
    | dsimp only

theorem execTokenVerifyDone_keeps {mk : Nat} {z s : State} (hk : Keeps mk z s) (hm : Sub 0x11EE5F7 mk := by exact Sub.of rfl) :
    KeepsR mk z (execTokenVerifyDone s) := by
  refine KeepsR.within hk hm ?_
  replace hk : Keeps 0x11EE5F7 s s := .refl _
  unfold execTokenVerifyDone
  repeat' first
    | (extract_lets -descend +onlyGivenNames x0; refine Keeps.cut (m := 0x11EE5F7) (z := s) (v := x0) ?_ (fun h0 => ?_); rotate_left; clear_value x0; rotate_left; dsimp -zeta only [x0]; clear x0)
    | (extract_lets -descend +onlyGivenNames x0; clear_value x0)
    | with_reducible intro _
    | lift_lets
    | with_reducible assumption
    | (with_reducible first | apply KeepsR.present | apply KeepsR.next | exact KeepsR.fault | apply State.modTrace_keeps | apply State.tokRefuse_keeps | apply State.tokHold_keeps)
    | (with_reducible refine Keeps.mk0 ?_ ?g; (first | with_reducible assumption | (refine Keeps.snd ?_ (by assumption)) | (refine Keeps.some ?_ (by assumption)) | (with_reducible first | apply State.modTrace_keeps | apply State.tokRefuse_keeps | apply State.tokHold_keeps)); with_reducible case g => exact fun h => Keeps.mk' h)
    | (with_reducible apply Keeps.ite)
    | split
    | (refine Keeps.some ?_ (by assumption))
    | exact Sub.of rfl
    | dsimp only

theorem State.tokRevoke_keeps {mk : Nat} {z s : State} (hk : Keeps mk z s) (id : Nat) (hm : Sub 0x11EE5F7 mk := by exact Sub.of rfl) :
    Keeps mk z (State.tokRevoke s id) := by
  refine hk.within hm ?_
  replace hk : Keeps 0x11EE5F7 s s := .refl _
  unfold State.tokRevoke
  repeat' first
    | with_reducible intro _
    | with_reducible assumption
    | with_reducible apply State.tokRemove_keeps
    | split
    | (refine Keeps.some ?_ (by assumption))
    | exact Sub.of rfl
    | dsimp only

theorem execTrcTokRevoke_keeps {mk : Nat} {z s : State} (hk : Keeps mk z s) (a : Acc) (data : Word) (hm : Sub 0x11EE5F7 mk := by exact Sub.of rfl) :
    KeepsR mk z (execTrcTokRevoke a data s) := by
  refine KeepsR.within hk hm ?_
  replace hk : Keeps 0x11EE5F7 s s := .refl _
  unfold execTrcTokRevoke
  repeat' first
    | with_reducible intro _
    | with_reducible assumption
    | (with_reducible first | apply KeepsR.present | apply KeepsR.next | exact KeepsR.fault | apply State.guardedWrite_keeps | apply State.tokRevoke_keeps)
    | exact Sub.of rfl
    | dsimp only

theorem execTokenWindowOpen_keeps {mk : Nat} {z s : State} (hk : Keeps mk z s) (entry : Nat) (hm : Sub 0x11EE5F7 mk := by exact Sub.of rfl) :
    KeepsR mk z (execTokenWindowOpen entry s) := by
  refine KeepsR.within hk hm ?_
  replace hk : Keeps 0x11EE5F7 s s := .refl _
  unfold execTokenWindowOpen
  repeat' first
    | with_reducible assumption
    | (with_reducible first | apply KeepsR.present | apply KeepsR.next | exact KeepsR.fault | apply State.tokJudge_keeps | apply present_keeps)
    | exact Sub.of rfl
    | dsimp only

theorem execTokenWindowExpiry_keeps {mk : Nat} {z s : State} (hk : Keeps mk z s) (entry : Nat) (hm : Sub 0x11EE5F7 mk := by exact Sub.of rfl) :
    KeepsR mk z (execTokenWindowExpiry entry s) := by
  refine KeepsR.within hk hm ?_
  replace hk : Keeps 0x11EE5F7 s s := .refl _
  unfold execTokenWindowExpiry
  repeat' first
    | with_reducible intro _
    | with_reducible assumption
    | (with_reducible first | apply KeepsR.present | apply KeepsR.next | exact KeepsR.fault | apply State.tokRemove_keeps | apply present_keeps)
    | (with_reducible apply Keeps.ite)
    | split
    | (refine Keeps.some ?_ (by assumption))
    | exact Sub.of rfl
    | dsimp only

theorem execTraceBlockAgeExpiry_keeps {mk : Nat} {z s : State} (hk : Keeps mk z s) (hm : Sub 0x4000 mk := by exact Sub.of rfl) :
    KeepsR mk z (execTraceBlockAgeExpiry s) := by
  refine KeepsR.within hk hm ?_
  replace hk : Keeps 0x4000 s s := .refl _
  unfold execTraceBlockAgeExpiry
  repeat' first
    | (extract_lets -descend +onlyGivenNames x0; refine Keeps.cut (m := 0x4000) (z := s) (v := x0) ?_ (fun h0 => ?_); rotate_left; clear_value x0; rotate_left; dsimp -zeta only [x0]; clear x0)
    | (extract_lets -descend +onlyGivenNames x0; clear_value x0)
    | lift_lets
    | with_reducible assumption
    | (with_reducible first | apply KeepsR.present | apply KeepsR.next | exact KeepsR.fault | apply State.trcClose_keeps)
    | (with_reducible apply Keeps.ite)
    | split
    | (refine Keeps.some ?_ (by assumption))
    | exact Sub.of rfl
    | dsimp only

theorem execPlaramPsyncTimeout_keeps {mk : Nat} {z s : State} (hk : Keeps mk z s) (hm : Sub 0x4000 mk := by exact Sub.of rfl) :
    KeepsR mk z (execPlaramPsyncTimeout s) := by
  refine KeepsR.within hk hm ?_
  replace hk : Keeps 0x4000 s s := .refl _
  unfold execPlaramPsyncTimeout
  repeat' first
    | with_reducible intro _
    | with_reducible assumption
    | (with_reducible first | apply KeepsR.present | apply KeepsR.next | exact KeepsR.fault | apply State.modTrace_keeps)
    | (with_reducible refine Keeps.mk0 ?_ ?g; (first | with_reducible assumption | (refine Keeps.snd ?_ (by assumption)) | (refine Keeps.some ?_ (by assumption)) | (with_reducible first | apply State.modTrace_keeps)); with_reducible case g => exact fun h => Keeps.mk' h)
    | (with_reducible apply Keeps.ite)
    | split
    | exact Sub.of rfl
    | dsimp only

theorem State.aggEnter_keeps {mk : Nat} {z s : State} (hk : Keeps mk z s) (r : Rec) (hm : Sub 0x80471 mk := by exact Sub.of rfl) :
    Keeps mk z (State.aggEnter s r) := by
  refine hk.within hm ?_
  replace hk : Keeps 0x80471 s s := .refl _
  unfold State.aggEnter
  repeat' first
    | with_reducible assumption
    | (with_reducible first | apply State.bumpSat_keeps | apply State.emitUp_keeps)
    | exact Sub.of rfl
    | dsimp only

theorem State.aggIn_keeps {mk : Nat} {z s : State} (hk : Keeps mk z s) (port credits : Nat) (r : Rec) (hm : Sub 0x84473 mk := by exact Sub.of rfl) :
    Keeps mk z (State.aggIn s port credits r) := by
  refine hk.within hm ?_
  replace hk : Keeps 0x84473 s s := .refl _
  unfold State.aggIn
  repeat' first
    | (extract_lets -descend +onlyGivenNames x0; refine Keeps.cut (m := 0x84473) (z := s) (v := x0) ?_ (fun h0 => ?_); rotate_left; clear_value x0; rotate_left; dsimp -zeta only [x0]; clear x0)
    | (extract_lets -descend +onlyGivenNames x0; clear_value x0)
    | with_reducible intro _
    | lift_lets
    | with_reducible assumption
    | (with_reducible first | apply State.irq_keeps | apply State.modTrace_keeps | apply State.withhold_keeps | apply State.aggEnter_keeps)
    | (with_reducible refine Keeps.mk0 ?_ ?g; (first | with_reducible assumption | (refine Keeps.snd ?_ (by assumption)) | (refine Keeps.some ?_ (by assumption)) | (with_reducible first | apply State.irq_keeps | apply State.modTrace_keeps | apply State.withhold_keeps | apply State.aggEnter_keeps)); with_reducible case g => exact fun h => Keeps.mk' h)
    | (with_reducible apply Keeps.ite)
    | split
    | exact Sub.of rfl
    | dsimp only

theorem execAggregationStoreAdmit_keeps {mk : Nat} {z s : State} (hk : Keeps mk z s) (hm : Sub 0x84471 mk := by exact Sub.of rfl) :
    KeepsR mk z (execAggregationStoreAdmit s) := by
  refine KeepsR.within hk hm ?_
  replace hk : Keeps 0x84471 s s := .refl _
  unfold execAggregationStoreAdmit
  repeat' first
    | (extract_lets -descend +onlyGivenNames x0; refine Keeps.cut (m := 0x84471) (z := s) (v := x0) ?_ (fun h0 => ?_); rotate_left; clear_value x0; rotate_left; dsimp -zeta only [x0]; clear x0)
    | (extract_lets -descend +onlyGivenNames x0; clear_value x0)
    | with_reducible intro _
    | lift_lets
    | with_reducible assumption
    | (with_reducible first | apply KeepsR.present | apply KeepsR.next | exact KeepsR.fault | apply State.bumpSat_keeps | apply State.modTrace_keeps | apply present_keeps | apply State.letGo_keeps | apply State.aggEnter_keeps)
    | (with_reducible refine Keeps.mk0 ?_ ?g; (first | with_reducible assumption | (refine Keeps.snd ?_ (by assumption)) | (refine Keeps.some ?_ (by assumption)) | (with_reducible first | apply State.bumpSat_keeps | apply State.modTrace_keeps | apply present_keeps | apply State.letGo_keeps | apply State.aggEnter_keeps)); with_reducible case g => exact fun h => Keeps.mk' h)
    | (with_reducible apply Keeps.ite)
    | split
    | (refine Keeps.some ?_ (by assumption))
    | exact Sub.of rfl
    | dsimp only

theorem State.winDrained_keeps {mk : Nat} {z s : State} (hk : Keeps mk z s) (hm : Sub 0x11EE5F7 mk := by exact Sub.of rfl) :
    Keeps mk z (State.winDrained s) := by
  refine hk.within hm ?_
  replace hk : Keeps 0x11EE5F7 s s := .refl _
  unfold State.winDrained
  repeat' first
    | with_reducible intro _
    | with_reducible assumption
    | (with_reducible first | apply State.winFree_keeps | apply State.drained_keeps)
    | (with_reducible apply Keeps.ite)
    | (with_reducible apply Keeps.foldl)
    | split
    | (refine Keeps.some ?_ (by assumption))
    | exact Sub.of rfl
    | dsimp only

theorem State.drainGap_keeps {mk : Nat} {z s : State} (hk : Keeps mk z s) (b : TBlock) (items : Nat) (flags : Nat) (hm : Sub 0x1080475 mk := by exact Sub.of rfl) :
    Keeps mk z (State.drainGap s b items flags).2 := by
  refine hk.within hm ?_
  replace hk : Keeps 0x1080475 s s := .refl _
  unfold State.drainGap
  repeat' first
    | (extract_lets -descend +onlyGivenNames x0; refine Keeps.cut (m := 0x1080475) (z := s) (v := x0) ?_ (fun h0 => ?_); rotate_left; clear_value x0; rotate_left; dsimp -zeta only [x0]; clear x0)
    | (extract_lets -descend +onlyGivenNames x0; clear_value x0)
    | lift_lets
    | with_reducible assumption
    | (with_reducible first | apply State.draw_keeps | apply State.anchor_keeps)
    | (with_reducible apply Keeps.ite)
    | split
    | (refine Keeps.snd ?_ (by assumption))
    | exact Sub.of rfl
    | dsimp only

theorem State.drainBlock_keeps {mk : Nat} {z s : State} (hk : Keeps mk z s) (b : TBlock) (hm : Sub 0x11EE5F7 mk := by exact Sub.of rfl) :
    Keeps mk z (State.drainBlock s b) := by
  refine hk.within hm ?_
  replace hk : Keeps 0x11EE5F7 s s := .refl _
  unfold State.drainBlock
  repeat' first
    | (extract_lets -descend +onlyGivenNames x0; refine Keeps.cut (m := 0x11EE5F7) (z := s) (v := x0) ?_ (fun h0 => ?_); rotate_left; clear_value x0; rotate_left; dsimp -zeta only [x0]; clear x0)
    | (extract_lets -descend +onlyGivenNames x0; clear_value x0)
    | with_reducible intro _
    | lift_lets
    | with_reducible assumption
    | (with_reducible first | apply State.bumpSat_keeps | apply State.irq_keeps | apply State.modTrace_keeps | apply State.trcResume_keeps | apply State.emitUp_keeps | apply State.originate_keeps | apply State.aggEnter_keeps | apply State.winDrained_keeps | apply State.drainGap_keeps | apply State.drained_keeps)
    | (with_reducible refine Keeps.mk0 ?_ ?g; (first | with_reducible assumption | (refine Keeps.snd ?_ (by assumption)) | (refine Keeps.some ?_ (by assumption)) | (with_reducible first | apply State.bumpSat_keeps | apply State.irq_keeps | apply State.modTrace_keeps | apply State.trcResume_keeps | apply State.emitUp_keeps | apply State.originate_keeps | apply State.aggEnter_keeps | apply State.winDrained_keeps | apply State.drainGap_keeps | apply State.drained_keeps)); with_reducible case g => exact fun h => Keeps.mk' h)
    | (with_reducible apply Keeps.ite)
    | (with_reducible apply Keeps.foldl)
    | (with_reducible apply Keeps.foldlSnd)
    | split
    | (refine Keeps.snd ?_ (by assumption))
    | exact Sub.of rfl
    | dsimp only

theorem execTraceDrainBlock_keeps {mk : Nat} {z s : State} (hk : Keeps mk z s) (bad : List Nat) (hm : Sub 0x11EE5F7 mk := by exact Sub.of rfl) :
    KeepsR mk z (execTraceDrainBlock bad s) := by
  refine KeepsR.within hk hm ?_
  replace hk : Keeps 0x11EE5F7 s s := .refl _
  unfold execTraceDrainBlock
  repeat' first
    | (extract_lets -descend +onlyGivenNames x0; refine Keeps.cut (m := 0x11EE5F7) (z := s) (v := x0) ?_ (fun h0 => ?_); rotate_left; clear_value x0; rotate_left; dsimp -zeta only [x0]; clear x0)
    | (extract_lets -descend +onlyGivenNames x0; clear_value x0)
    | with_reducible intro _
    | lift_lets
    | with_reducible assumption
    | (with_reducible first | apply KeepsR.present | apply KeepsR.next | exact KeepsR.fault | apply State.modTrace_keeps | apply State.trcResume_keeps | apply present_keeps | apply State.badWord_keeps | apply State.grant_keeps | apply State.winDrained_keeps | apply State.drainBlock_keeps)
    | (with_reducible refine Keeps.mk0 ?_ ?g; (first | with_reducible assumption | (refine Keeps.snd ?_ (by assumption)) | (refine Keeps.some ?_ (by assumption)) | (with_reducible first | apply State.modTrace_keeps | apply State.trcResume_keeps | apply present_keeps | apply State.badWord_keeps | apply State.grant_keeps | apply State.winDrained_keeps | apply State.drainBlock_keeps)); with_reducible case g => exact fun h => Keeps.mk' h)
    | (with_reducible apply Keeps.ite)
    | split
    | (refine Keeps.some ?_ (by assumption))
    | exact Sub.of rfl
    | dsimp only

theorem State.tbRelease_keeps {mk : Nat} {z s : State} (hk : Keeps mk z s) (v : Nat) (hm : Sub 0x11EE5F7 mk := by exact Sub.of rfl) :
    Keeps mk z (State.tbRelease s v) := by
  refine hk.within hm ?_
  replace hk : Keeps 0x11EE5F7 s s := .refl _
  unfold State.tbRelease
  repeat' first
    | with_reducible intro _
    | with_reducible assumption
    | (with_reducible first | apply State.trcResume_keeps | apply State.winFree_keeps)
    | (with_reducible apply Keeps.ite)
    | (with_reducible apply Keeps.foldl)
    | split
    | exact Sub.of rfl
    | dsimp only

theorem execTbWinRelease_keeps {mk : Nat} {z s : State} (hk : Keeps mk z s) (a : Acc) (data : Word) (hm : Sub 0x11EE5F7 mk := by exact Sub.of rfl) :
    KeepsR mk z (execTbWinRelease a data s) := by
  refine KeepsR.within hk hm ?_
  replace hk : Keeps 0x11EE5F7 s s := .refl _
  unfold execTbWinRelease
  repeat' first
    | with_reducible intro _
    | with_reducible assumption
    | (with_reducible first | apply KeepsR.present | apply KeepsR.next | exact KeepsR.fault | apply State.guardedWrite_keeps | apply State.tbRelease_keeps)
    | exact Sub.of rfl
    | dsimp only

theorem State.traceLeave_keeps {mk : Nat} {z s : State} (hk : Keeps mk z s) (hm : Sub 0x11EE5F7 mk := by exact Sub.of rfl) :
    Keeps mk z (State.traceLeave s) := by
  refine hk.within hm ?_
  replace hk : Keeps 0x11EE5F7 s s := .refl _
  unfold State.traceLeave
  repeat' first
    | with_reducible assumption
    | (with_reducible first | apply State.trcClose_keeps | apply State.exclClose_keeps)
    | exact Sub.of rfl
    | dsimp only

theorem State.traceLose_keeps {mk : Nat} {z s : State} (hk : Keeps mk z s) (hm : Sub 0x4000 mk := by exact Sub.of rfl) :
    Keeps mk z (State.traceLose s) := by
  refine hk.within hm ?_
  replace hk : Keeps 0x4000 s s := .refl _
  unfold State.traceLose
  repeat' first
    | with_reducible intro _
    | with_reducible assumption
    | with_reducible apply State.modTrace_keeps
    | (with_reducible refine Keeps.mk0 ?_ ?g; (first | with_reducible assumption | (refine Keeps.snd ?_ (by assumption)) | (refine Keeps.some ?_ (by assumption)) | (with_reducible first | apply State.modTrace_keeps)); with_reducible case g => exact fun h => Keeps.mk' h)
    | exact Sub.of rfl
    | dsimp only

theorem State.traceBack_keeps {mk : Nat} {z s : State} (hk : Keeps mk z s) (was : Nat) (hm : Sub 0x11EE5F7 mk := by exact Sub.of rfl) :
    Keeps mk z (State.traceBack s was) := by
  refine hk.within hm ?_
  replace hk : Keeps 0x11EE5F7 s s := .refl _
  unfold State.traceBack
  repeat' first
    | (extract_lets -descend +onlyGivenNames x0; refine Keeps.cut (m := 0x11EE5F7) (z := s) (v := x0) ?_ (fun h0 => ?_); rotate_left; clear_value x0; rotate_left; dsimp -zeta only [x0]; clear x0)
    | (extract_lets -descend +onlyGivenNames x0; clear_value x0)
    | with_reducible intro _
    | lift_lets
    | with_reducible assumption
    | (with_reducible first | apply State.modTrace_keeps | apply State.trcSync_keeps | apply State.trcOverflow_keeps | apply State.trcGap_keeps | apply State.trcItem_keeps)
    | (with_reducible refine Keeps.mk0 ?_ ?g; (first | with_reducible assumption | (refine Keeps.snd ?_ (by assumption)) | (refine Keeps.some ?_ (by assumption)) | (with_reducible first | apply State.modTrace_keeps | apply State.trcSync_keeps | apply State.trcOverflow_keeps | apply State.trcGap_keeps | apply State.trcItem_keeps)); with_reducible case g => exact fun h => Keeps.mk' h)
    | (with_reducible apply Keeps.ite)
    | (with_reducible apply Keeps.foldl)
    | (with_reducible apply Keeps.foldlSnd)
    | split
    | (refine Keeps.snd ?_ (by assumption))
    | exact Sub.of rfl
    | dsimp only

theorem State.traceWarm_keeps {mk : Nat} {z s : State} (hk : Keeps mk z s) (hm : Sub 0x11EE5F7 mk := by exact Sub.of rfl) :
    Keeps mk z (State.traceWarm s) := by
  refine hk.within hm ?_
  replace hk : Keeps 0x11EE5F7 s s := .refl _
  unfold State.traceWarm
  repeat' first
    | (extract_lets -descend +onlyGivenNames x0; refine Keeps.cut (m := 0x11EE5F7) (z := s) (v := x0) ?_ (fun h0 => ?_); rotate_left; clear_value x0; rotate_left; dsimp -zeta only [x0]; clear x0)
    | (extract_lets -descend +onlyGivenNames x0; clear_value x0)
    | with_reducible intro _
    | lift_lets
    | with_reducible assumption
    | (with_reducible first | apply State.modTrace_keeps | apply State.trcOverflow_keeps)
    | (with_reducible refine Keeps.mk0 ?_ ?g; (first | with_reducible assumption | (refine Keeps.snd ?_ (by assumption)) | (refine Keeps.some ?_ (by assumption)) | (with_reducible first | apply State.modTrace_keeps | apply State.trcOverflow_keeps)); with_reducible case g => exact fun h => Keeps.mk' h)
    | (with_reducible apply Keeps.ite)
    | split
    | exact Sub.of rfl
    | dsimp only

theorem State.traceTapReset_keeps {mk : Nat} {z s : State} (hk : Keeps mk z s) (hm : Sub 0x11EE5F7 mk := by exact Sub.of rfl) :
    Keeps mk z (State.traceTapReset s) := by
  refine hk.within hm ?_
  replace hk : Keeps 0x11EE5F7 s s := .refl _
  unfold State.traceTapReset
  repeat' first
    | with_reducible assumption
    | with_reducible apply State.trcOverflow_keeps
    | (with_reducible apply Keeps.ite)
    | split
    | exact Sub.of rfl
    | dsimp only

end Sys2Proof.Machine
end

