-- ==== Sys2Proof/Laws/KeepsAbft.lean ====
section
/-! SUPPORT. What the operations of Machine/Abft.lean keep. -/

set_option Elab.async false

namespace Sys2Proof.Machine

theorem State.modAbft_keeps {mk : Nat} {z s : State} (hk : Keeps mk z s) (f : AbftSt → AbftSt) (hm : Sub 0x8000 mk := by exact Sub.of rfl) :
    Keeps mk z (State.modAbft s f) := by
  refine hk.within hm ?_
  replace hk : Keeps 0x8000 s s := .refl _
  unfold State.modAbft
  repeat' first
    | with_reducible assumption
    | (with_reducible refine Keeps.mk0 ?_ ?g; (first | with_reducible assumption | (refine Keeps.snd ?_ (by assumption)) | (refine Keeps.some ?_ (by assumption))); with_reducible case g => exact fun h => Keeps.mk' h)
    | exact Sub.of rfl
    | dsimp only

theorem State.enterCell_keeps {mk : Nat} {z s : State} (hk : Keeps mk z s) (cell : Option Nat) (fail : Bool) (hm : Sub 0x8001 mk := by exact Sub.of rfl) :
    Keeps mk z (State.enterCell s cell fail) := by
  refine hk.within hm ?_
  replace hk : Keeps 0x8001 s s := .refl _
  unfold State.enterCell
  repeat' first
    | (extract_lets -descend +onlyGivenNames x0; refine Keeps.cut (m := 0x8001) (z := s) (v := x0) ?_ (fun h0 => ?_); rotate_left; clear_value x0; rotate_left; dsimp -zeta only [x0]; clear x0)
    | (extract_lets -descend +onlyGivenNames x0; clear_value x0)
    | with_reducible intro _
    | lift_lets
    | with_reducible assumption
    | (with_reducible first | apply State.bumpSat_keeps | apply State.modAbft_keeps)
    | (with_reducible refine Keeps.mk0 ?_ ?g; (first | with_reducible assumption | (refine Keeps.snd ?_ (by assumption)) | (refine Keeps.some ?_ (by assumption)) | (with_reducible first | apply State.bumpSat_keeps | apply State.modAbft_keeps)); with_reducible case g => exact fun h => Keeps.mk' h)
    | (with_reducible apply Keeps.ite)
    | split
    | (refine Keeps.some ?_ (by assumption))
    | exact Sub.of rfl
    | dsimp only

theorem State.classify_keeps {mk : Nat} {z s : State} (hk : Keeps mk z s) (cell : Option Nat) (hm : Sub 0x11EE5F7 mk := by exact Sub.of rfl) :
    Keeps mk z (State.classify s cell) := by
  refine hk.within hm ?_
  replace hk : Keeps 0x11EE5F7 s s := .refl _
  unfold State.classify
  repeat' first
    | (extract_lets -descend +onlyGivenNames x0; refine Keeps.cut (m := 0x11EE5F7) (z := s) (v := x0) ?_ (fun h0 => ?_); rotate_left; clear_value x0; rotate_left; dsimp -zeta only [x0]; clear x0)
    | (extract_lets -descend +onlyGivenNames x0; clear_value x0)
    | with_reducible intro _
    | lift_lets
    | with_reducible assumption
    | (with_reducible first | apply State.latchSdc_keeps | apply State.latchCond_keeps)
    | (with_reducible apply Keeps.ite)
    | split
    | exact Sub.of rfl
    | dsimp only

theorem State.passCount_keeps {mk : Nat} {z s : State} (hk : Keeps mk z s) (hm : Sub 0x1 mk := by exact Sub.of rfl) :
    Keeps mk z (State.passCount s) := by
  refine hk.within hm ?_
  replace hk : Keeps 0x1 s s := .refl _
  unfold State.passCount
  repeat' first
    | (extract_lets -descend +onlyGivenNames x0; refine Keeps.cut (m := 0x1) (z := s) (v := x0) ?_ (fun h0 => ?_); rotate_left; clear_value x0; rotate_left; dsimp -zeta only [x0]; clear x0)
    | (extract_lets -descend +onlyGivenNames x0; clear_value x0)
    | lift_lets
    | with_reducible assumption
    | with_reducible apply State.wr_keeps
    | exact Sub.of rfl
    | dsimp only

theorem State.markIn_keeps {mk : Nat} {z s : State} (hk : Keeps mk z s) (g e : Nat) (hm : Sub 0x8001 mk := by exact Sub.of rfl) :
    Keeps mk z (State.markIn s g e) := by
  refine hk.within hm ?_
  replace hk : Keeps 0x8001 s s := .refl _
  unfold State.markIn
  repeat' first
    | (extract_lets -descend +onlyGivenNames x0; refine Keeps.cut (m := 0x8001) (z := s) (v := x0) ?_ (fun h0 => ?_); rotate_left; clear_value x0; rotate_left; dsimp -zeta only [x0]; clear x0)
    | (extract_lets -descend +onlyGivenNames x0; clear_value x0)
    | with_reducible intro _
    | lift_lets
    | with_reducible assumption
    | (with_reducible first | apply State.wr_keeps | apply State.modAbft_keeps)
    | (with_reducible apply Keeps.ite)
    | split
    | exact Sub.of rfl
    | dsimp only

theorem State.sendNotice_keeps {mk : Nat} {z s : State} (hk : Keeps mk z s) (r : Rec) (ports : List Nat) (hm : Sub 0x88470 mk := by exact Sub.of rfl) :
    Keeps mk z (State.sendNotice s r ports) := by
  refine hk.within hm ?_
  replace hk : Keeps 0x88470 s s := .refl _
  unfold State.sendNotice
  repeat' first
    | (extract_lets -descend +onlyGivenNames x0; refine Keeps.cut (m := 0x88470) (z := s) (v := x0) ?_ (fun h0 => ?_); rotate_left; clear_value x0; rotate_left; dsimp -zeta only [x0]; clear x0)
    | (extract_lets -descend +onlyGivenNames x0; clear_value x0)
    | with_reducible intro _
    | lift_lets
    | with_reducible assumption
    | (with_reducible first | apply State.dropped_keeps | apply State.enqueue_keeps | apply State.newPend_keeps | apply State.modAbft_keeps)
    | (with_reducible refine Keeps.mk0 ?_ ?g; (first | with_reducible assumption | (refine Keeps.snd ?_ (by assumption)) | (refine Keeps.some ?_ (by assumption)) | (with_reducible first | apply State.dropped_keeps | apply State.enqueue_keeps | apply State.newPend_keeps | apply State.modAbft_keeps)); with_reducible case g => exact fun h => Keeps.mk' h)
    | (with_reducible apply Keeps.ite)
    | (with_reducible apply Keeps.foldl)
    | (with_reducible apply Keeps.foldlSnd)
    | split
    | (refine Keeps.snd ?_ (by assumption))
    | exact Sub.of rfl
    | dsimp only

theorem State.taintNotice_keeps {mk : Nat} {z s : State} (hk : Keeps mk z s) (revised old : Bool) (c u f su g p lim cell : Nat) (hm : Sub 0x88475 mk := by exact Sub.of rfl) :
    Keeps mk z (State.taintNotice s revised old c u f su g p lim cell) := by
  refine hk.within hm ?_
  replace hk : Keeps 0x88475 s s := .refl _
  unfold State.taintNotice
  repeat' first
    | (extract_lets -descend +onlyGivenNames x0; refine Keeps.cut (m := 0x88475) (z := s) (v := x0) ?_ (fun h0 => ?_); rotate_left; clear_value x0; rotate_left; dsimp -zeta only [x0]; clear x0)
    | (extract_lets -descend +onlyGivenNames x0; clear_value x0)
    | lift_lets
    | with_reducible assumption
    | (with_reducible first | apply State.originate_keeps | apply State.sendNotice_keeps)
    | split
    | (refine Keeps.snd ?_ (by assumption))
    | exact Sub.of rfl
    | dsimp only

theorem State.taint_keeps {mk : Nat} {z s : State} (hk : Keeps mk z s) (l : CkLane) (cell : Nat) (hm : Sub 0x88475 mk := by exact Sub.of rfl) :
    Keeps mk z (State.taint s l cell) := by
  refine hk.within hm ?_
  replace hk : Keeps 0x88475 s s := .refl _
  unfold State.taint
  repeat' first
    | (extract_lets -descend +onlyGivenNames x0; refine Keeps.cut (m := 0x88475) (z := s) (v := x0) ?_ (fun h0 => ?_); rotate_left; clear_value x0; rotate_left; dsimp -zeta only [x0]; clear x0)
    | (extract_lets -descend +onlyGivenNames x0; clear_value x0)
    | with_reducible intro _
    | lift_lets
    | with_reducible assumption
    | (with_reducible first | apply State.wr_keeps | apply State.modAbft_keeps | apply State.taintNotice_keeps)
    | (with_reducible refine Keeps.mk0 ?_ ?g; (first | with_reducible assumption | (refine Keeps.snd ?_ (by assumption)) | (refine Keeps.some ?_ (by assumption)) | (with_reducible first | apply State.wr_keeps | apply State.modAbft_keeps | apply State.taintNotice_keeps)); with_reducible case g => exact fun h => Keeps.mk' h)
    | (with_reducible apply Keeps.ite)
    | split
    | exact Sub.of rfl
    | dsimp only

theorem State.failCommon_keeps {mk : Nat} {z s : State} (hk : Keeps mk z s) (l : CkLane) (code : Nat) (tail : List Byte) (hm : Sub 0x11EE5F7 mk := by exact Sub.of rfl) :
    Keeps mk z (State.failCommon s l code tail).2 := by
  refine hk.within hm ?_
  replace hk : Keeps 0x11EE5F7 s s := .refl _
  unfold State.failCommon
  repeat' first
    | (extract_lets -descend +onlyGivenNames x0; refine Keeps.cut (m := 0x11EE5F7) (z := s) (v := x0) ?_ (fun h0 => ?_); rotate_left; clear_value x0; rotate_left; dsimp -zeta only [x0]; clear x0)
    | (extract_lets -descend +onlyGivenNames x0; clear_value x0)
    | lift_lets
    | with_reducible assumption
    | (with_reducible first | apply State.bumpSat_keeps | apply State.draw_keeps | apply State.event_keeps | apply State.enterCell_keeps | apply State.classify_keeps)
    | (with_reducible apply Keeps.ite)
    | split
    | (refine Keeps.snd ?_ (by assumption))
    | exact Sub.of rfl
    | dsimp only

theorem State.checkFail_keeps {mk : Nat} {z s : State} (hk : Keeps mk z s) (l : CkLane) (hm : Sub 0x11EE5F7 mk := by exact Sub.of rfl) :
    Keeps mk z (State.checkFail s l) := by
  refine hk.within hm ?_
  replace hk : Keeps 0x11EE5F7 s s := .refl _
  unfold State.checkFail
  repeat' first
    | (extract_lets -descend +onlyGivenNames x0; refine Keeps.cut (m := 0x11EE5F7) (z := s) (v := x0) ?_ (fun h0 => ?_); rotate_left; clear_value x0; rotate_left; dsimp -zeta only [x0]; clear x0)
    | (extract_lets -descend +onlyGivenNames x0; clear_value x0)
    | lift_lets
    | with_reducible assumption
    | (with_reducible first | apply State.irq_keeps | apply State.taint_keeps | apply State.failCommon_keeps)
    | split
    | (refine Keeps.snd ?_ (by assumption))
    | exact Sub.of rfl
    | dsimp only

theorem State.patFail_keeps {mk : Nat} {z s : State} (hk : Keeps mk z s) (l : CkLane) (hm : Sub 0x11EE5F7 mk := by exact Sub.of rfl) :
    Keeps mk z (State.patFail s l) := by
  refine hk.within hm ?_
  replace hk : Keeps 0x11EE5F7 s s := .refl _
  unfold State.patFail
  repeat' first
    | with_reducible assumption
    | with_reducible apply State.failCommon_keeps
    | exact Sub.of rfl
    | dsimp only

theorem State.patCounts_keeps {mk : Nat} {z s : State} (hk : Keeps mk z s) (hm : Sub 0x1 mk := by exact Sub.of rfl) :
    Keeps mk z (State.patCounts s) := by
  refine hk.within hm ?_
  replace hk : Keeps 0x1 s s := .refl _
  unfold State.patCounts
  repeat' first
    | with_reducible assumption
    | with_reducible apply State.wr_keeps
    | split
    | (refine Keeps.some ?_ (by assumption))
    | exact Sub.of rfl
    | dsimp only

theorem State.pairIn_keeps {mk : Nat} {z s : State} (hk : Keeps mk z s) (l : CkLane) (hm : Sub 0x11EE5F7 mk := by exact Sub.of rfl) :
    Keeps mk z (State.pairIn s l) := by
  refine hk.within hm ?_
  replace hk : Keeps 0x11EE5F7 s s := .refl _
  unfold State.pairIn
  repeat' first
    | (extract_lets -descend +onlyGivenNames x0; refine Keeps.cut (m := 0x11EE5F7) (z := s) (v := x0) ?_ (fun h0 => ?_); rotate_left; clear_value x0; rotate_left; dsimp -zeta only [x0]; clear x0)
    | (extract_lets -descend +onlyGivenNames x0; clear_value x0)
    | with_reducible intro _
    | lift_lets
    | with_reducible assumption
    | (with_reducible first | apply State.bumpSat_keeps | apply State.modAbft_keeps | apply State.enterCell_keeps | apply State.passCount_keeps | apply State.patFail_keeps | apply State.patCounts_keeps)
    | (with_reducible refine Keeps.mk0 ?_ ?g; (first | with_reducible assumption | (refine Keeps.snd ?_ (by assumption)) | (refine Keeps.some ?_ (by assumption)) | (with_reducible first | apply State.bumpSat_keeps | apply State.modAbft_keeps | apply State.enterCell_keeps | apply State.passCount_keeps | apply State.patFail_keeps | apply State.patCounts_keeps)); with_reducible case g => exact fun h => Keeps.mk' h)
    | (with_reducible apply Keeps.ite)
    | split
    | (refine Keeps.some ?_ (by assumption))
    | exact Sub.of rfl
    | dsimp only

theorem State.beat_keeps {mk : Nat} {z s : State} (hk : Keeps mk z s) (lanes : List CkLane) (hm : Sub 0x11EE5F7 mk := by exact Sub.of rfl) :
    Keeps mk z (State.beat s lanes) := by
  refine hk.within hm ?_
  replace hk : Keeps 0x11EE5F7 s s := .refl _
  unfold State.beat
  repeat' first
    | (extract_lets -descend +onlyGivenNames x0; refine Keeps.cut (m := 0x11EE5F7) (z := s) (v := x0) ?_ (fun h0 => ?_); rotate_left; clear_value x0; rotate_left; dsimp -zeta only [x0]; clear x0)
    | (extract_lets -descend +onlyGivenNames x0; clear_value x0)
    | with_reducible intro _
    | lift_lets
    | with_reducible assumption
    | (with_reducible first | apply State.bumpSat_keeps | apply State.trcTrigger_keeps | apply State.markIn_keeps | apply State.checkFail_keeps | apply State.pairIn_keeps)
    | (with_reducible refine Keeps.mk0 ?_ ?g; (first | with_reducible assumption | (refine Keeps.snd ?_ (by assumption)) | (refine Keeps.some ?_ (by assumption)) | (with_reducible first | apply State.bumpSat_keeps | apply State.trcTrigger_keeps | apply State.markIn_keeps | apply State.checkFail_keeps | apply State.pairIn_keeps)); with_reducible case g => exact fun h => Keeps.mk' h)
    | (with_reducible apply Keeps.ite)
    | (with_reducible apply Keeps.foldl)
    | split
    | (refine Keeps.some ?_ (by assumption))
    | exact Sub.of rfl
    | dsimp only

theorem State.noticeLog_keeps {mk : Nat} {z s : State} (hk : Keeps mk z s) (r : Rec) (hm : Sub 0x11EE5F7 mk := by exact Sub.of rfl) :
    Keeps mk z (State.noticeLog s r) := by
  refine hk.within hm ?_
  replace hk : Keeps 0x11EE5F7 s s := .refl _
  unfold State.noticeLog
  repeat' first
    | (extract_lets -descend +onlyGivenNames x0; refine Keeps.cut (m := 0x11EE5F7) (z := s) (v := x0) ?_ (fun h0 => ?_); rotate_left; clear_value x0; rotate_left; dsimp -zeta only [x0]; clear x0)
    | (extract_lets -descend +onlyGivenNames x0; clear_value x0)
    | with_reducible intro _
    | lift_lets
    | with_reducible assumption
    | (with_reducible first | apply State.bumpSat_keeps | apply State.irq_keeps | apply State.trcTrigger_keeps | apply State.modAbft_keeps)
    | (with_reducible refine Keeps.mk0 ?_ ?g; (first | with_reducible assumption | (refine Keeps.snd ?_ (by assumption)) | (refine Keeps.some ?_ (by assumption)) | (with_reducible first | apply State.bumpSat_keeps | apply State.irq_keeps | apply State.trcTrigger_keeps | apply State.modAbft_keeps)); with_reducible case g => exact fun h => Keeps.mk' h)
    | exact Sub.of rfl
    | dsimp only

theorem State.noticeIn_keeps {mk : Nat} {z s : State} (hk : Keeps mk z s) (port : Nat) (r : Rec) (hm : Sub 0x11FE5F7 mk := by exact Sub.of rfl) :
    Keeps mk z (State.noticeIn s port r) := by
  refine hk.within hm ?_
  replace hk : Keeps 0x11FE5F7 s s := .refl _
  unfold State.noticeIn
  repeat' first
    | with_reducible intro _
    | with_reducible assumption
    | (with_reducible first | apply State.emitUp_keeps | apply State.sendPort_keeps | apply State.inspectOn_keeps | apply State.consume_keeps | apply State.sendNotice_keeps | apply State.noticeLog_keeps)
    | (with_reducible apply Keeps.foldl)
    | split
    | (refine Keeps.some ?_ (by assumption))
    | exact Sub.of rfl
    | dsimp only

theorem execTaintNoticeReceived_keeps {mk : Nat} {z s : State} (hk : Keeps mk z s) (port : Nat) (rec : Rec) (hm : Sub 0x11FE5F7 mk := by exact Sub.of rfl) :
    KeepsR mk z (execTaintNoticeReceived port rec s) := by
  refine KeepsR.within hk hm ?_
  replace hk : Keeps 0x11FE5F7 s s := .refl _
  unfold execTaintNoticeReceived
  repeat' first
    | (extract_lets -descend +onlyGivenNames x0; refine Keeps.cut (m := 0x11FE5F7) (z := s) (v := x0) ?_ (fun h0 => ?_); rotate_left; clear_value x0; rotate_left; dsimp -zeta only [x0]; clear x0)
    | (extract_lets -descend +onlyGivenNames x0; clear_value x0)
    | lift_lets
    | with_reducible assumption
    | (with_reducible first | apply KeepsR.present | apply KeepsR.next | exact KeepsR.fault | apply present_keeps | apply State.admitRec_keeps | apply State.noticeIn_keeps)
    | (with_reducible apply Keeps.ite)
    | split
    | (refine Keeps.snd ?_ (by assumption))
    | exact Sub.of rfl
    | dsimp only

theorem execTaintNoticeResend_keeps {mk : Nat} {z s : State} (hk : Keeps mk z s) (port : Nat) (hm : Sub 0x8021 mk := by exact Sub.of rfl) :
    KeepsR mk z (execTaintNoticeResend port s) := by
  refine KeepsR.within hk hm ?_
  replace hk : Keeps 0x8021 s s := .refl _
  unfold execTaintNoticeResend
  repeat' first
    | (extract_lets -descend +onlyGivenNames x0; refine Keeps.cut (m := 0x8021) (z := s) (v := x0) ?_ (fun h0 => ?_); rotate_left; clear_value x0; rotate_left; dsimp -zeta only [x0]; clear x0)
    | (extract_lets -descend +onlyGivenNames x0; clear_value x0)
    | with_reducible intro _
    | lift_lets
    | with_reducible assumption
    | (with_reducible first | apply KeepsR.present | apply KeepsR.next | exact KeepsR.fault | apply State.pbump_keeps | apply present_keeps | apply State.modCls_keeps | apply State.modAbft_keeps)
    | (with_reducible refine Keeps.mk0 ?_ ?g; (first | with_reducible assumption | (refine Keeps.snd ?_ (by assumption)) | (refine Keeps.some ?_ (by assumption)) | (with_reducible first | apply State.pbump_keeps | apply present_keeps | apply State.modCls_keeps | apply State.modAbft_keeps)); with_reducible case g => exact fun h => Keeps.mk' h)
    | (with_reducible apply Keeps.ite)
    | (with_reducible apply Keeps.foldl)
    | split
    | (refine Keeps.some ?_ (by assumption))
    | exact Sub.of rfl
    | dsimp only

theorem execAbftTaintClear_keeps {mk : Nat} {z s : State} (hk : Keeps mk z s) (a : Acc) (data : Word) (hm : Sub 0x884F7 mk := by exact Sub.of rfl) :
    KeepsR mk z (execAbftTaintClear a data s) := by
  refine KeepsR.within hk hm ?_
  replace hk : Keeps 0x884F7 s s := .refl _
  unfold execAbftTaintClear
  repeat' first
    | with_reducible intro _
    | with_reducible assumption
    | (with_reducible first | apply KeepsR.present | apply KeepsR.next | exact KeepsR.fault | apply State.guardedWrite_keeps | apply State.modAbft_keeps)
    | (with_reducible refine Keeps.mk0 ?_ ?g; (first | with_reducible assumption | (refine Keeps.snd ?_ (by assumption)) | (refine Keeps.some ?_ (by assumption)) | (with_reducible first | apply State.guardedWrite_keeps | apply State.modAbft_keeps)); with_reducible case g => exact fun h => Keeps.mk' h)
    | (with_reducible apply Keeps.ite)
    | split
    | exact Sub.of rfl
    | dsimp only

theorem State.abftCtrl_keeps {mk : Nat} {z s : State} (hk : Keeps mk z s) (v : Nat) (hm : Sub 0x80001 mk := by exact Sub.of rfl) :
    Keeps mk z (State.abftCtrl s v) := by
  refine hk.within hm ?_
  replace hk : Keeps 0x80001 s s := .refl _
  unfold State.abftCtrl
  repeat' first
    | with_reducible assumption
    | (with_reducible first | apply State.wr_keeps | apply State.hwVote_keeps)
    | exact Sub.of rfl
    | dsimp only

theorem State.offerRec_keeps {mk : Nat} {z s : State} (hk : Keeps mk z s) (num stamp : Nat) (end_ : Bool) (hm : Sub 0x80475 mk := by exact Sub.of rfl) :
    Keeps mk z (State.offerRec s num stamp end_) := by
  refine hk.within hm ?_
  replace hk : Keeps 0x80475 s s := .refl _
  unfold State.offerRec
  repeat' first
    | (extract_lets -descend +onlyGivenNames x0; refine Keeps.cut (m := 0x80475) (z := s) (v := x0) ?_ (fun h0 => ?_); rotate_left; clear_value x0; rotate_left; dsimp -zeta only [x0]; clear x0)
    | (extract_lets -descend +onlyGivenNames x0; clear_value x0)
    | lift_lets
    | with_reducible assumption
    | (with_reducible first | apply State.emitUp_keeps | apply State.originate_keeps)
    | split
    | (refine Keeps.snd ?_ (by assumption))
    | exact Sub.of rfl
    | dsimp only

theorem execIdleWindowOffer_keeps {mk : Nat} {z s : State} (hk : Keeps mk z s) (hm : Sub 0x88477 mk := by exact Sub.of rfl) :
    KeepsR mk z (execIdleWindowOffer s) := by
  refine KeepsR.within hk hm ?_
  replace hk : Keeps 0x88477 s s := .refl _
  unfold execIdleWindowOffer
  repeat' first
    | (extract_lets -descend +onlyGivenNames x0; refine Keeps.cut (m := 0x88477) (z := s) (v := x0) ?_ (fun h0 => ?_); rotate_left; clear_value x0; rotate_left; dsimp -zeta only [x0]; clear x0)
    | (extract_lets -descend +onlyGivenNames x0; clear_value x0)
    | with_reducible intro _
    | lift_lets
    | with_reducible assumption
    | (with_reducible first | apply KeepsR.present | apply KeepsR.next | exact KeepsR.fault | apply State.irq_keeps | apply present_keeps | apply State.modAbft_keeps | apply State.offerRec_keeps)
    | (with_reducible refine Keeps.mk0 ?_ ?g; (first | with_reducible assumption | (refine Keeps.snd ?_ (by assumption)) | (refine Keeps.some ?_ (by assumption)) | (with_reducible first | apply State.irq_keeps | apply present_keeps | apply State.modAbft_keeps | apply State.offerRec_keeps)); with_reducible case g => exact fun h => Keeps.mk' h)
    | (with_reducible apply Keeps.ite)
    | (with_reducible apply Keeps.foldl)
    | split
    | exact Sub.of rfl
    | dsimp only

theorem State.runEnd_keeps {mk : Nat} {z s : State} (hk : Keeps mk z s) (ended timedOut byCommand : Bool) (hm : Sub 0x88477 mk := by exact Sub.of rfl) :
    Keeps mk z (State.runEnd s ended timedOut byCommand) := by
  refine hk.within hm ?_
  replace hk : Keeps 0x88477 s s := .refl _
  unfold State.runEnd
  repeat' first
    | (extract_lets -descend +onlyGivenNames x0; refine Keeps.cut (m := 0x88477) (z := s) (v := x0) ?_ (fun h0 => ?_); rotate_left; clear_value x0; rotate_left; dsimp -zeta only [x0]; clear x0)
    | (extract_lets -descend +onlyGivenNames x0; clear_value x0)
    | with_reducible intro _
    | lift_lets
    | with_reducible assumption
    | (with_reducible first | apply State.wr_keeps | apply State.irq_keeps | apply State.emitUp_keeps | apply State.originate_keeps | apply State.modAbft_keeps)
    | (with_reducible refine Keeps.mk0 ?_ ?g; (first | with_reducible assumption | (refine Keeps.snd ?_ (by assumption)) | (refine Keeps.some ?_ (by assumption)) | (with_reducible first | apply State.wr_keeps | apply State.irq_keeps | apply State.emitUp_keeps | apply State.originate_keeps | apply State.modAbft_keeps)); with_reducible case g => exact fun h => Keeps.mk' h)
    | (with_reducible apply Keeps.ite)
    | split
    | (refine Keeps.some ?_ (by assumption))
    | (refine Keeps.snd ?_ (by assumption))
    | exact Sub.of rfl
    | dsimp only

theorem State.patGo_keeps {mk : Nat} {z s : State} (hk : Keeps mk z s) (v : Nat) (hm : Sub 0x88477 mk := by exact Sub.of rfl) :
    Keeps mk z (State.patGo s v) := by
  refine hk.within hm ?_
  replace hk : Keeps 0x88477 s s := .refl _
  unfold State.patGo
  repeat' first
    | (extract_lets -descend +onlyGivenNames x0; refine Keeps.cut (m := 0x88477) (z := s) (v := x0) ?_ (fun h0 => ?_); rotate_left; clear_value x0; rotate_left; dsimp -zeta only [x0]; clear x0)
    | (extract_lets -descend +onlyGivenNames x0; clear_value x0)
    | with_reducible intro _
    | lift_lets
    | with_reducible assumption
    | (with_reducible first | apply State.wr_keeps | apply State.modAbft_keeps | apply State.runEnd_keeps)
    | (with_reducible refine Keeps.mk0 ?_ ?g; (first | with_reducible assumption | (refine Keeps.snd ?_ (by assumption)) | (refine Keeps.some ?_ (by assumption)) | (with_reducible first | apply State.wr_keeps | apply State.modAbft_keeps | apply State.runEnd_keeps)); with_reducible case g => exact fun h => Keeps.mk' h)
    | (with_reducible apply Keeps.ite)
    | split
    | exact Sub.of rfl
    | dsimp only

theorem execPatternRunStart_keeps {mk : Nat} {z s : State} (hk : Keeps mk z s) (a : Acc) (data : Word) (hm : Sub 0x884F7 mk := by exact Sub.of rfl) :
    KeepsR mk z (execPatternRunStart a data s) := by
  refine KeepsR.within hk hm ?_
  replace hk : Keeps 0x884F7 s s := .refl _
  unfold execPatternRunStart
  repeat' first
    | with_reducible intro _
    | with_reducible assumption
    | (with_reducible first | apply KeepsR.present | apply KeepsR.next | exact KeepsR.fault | apply State.guardedWrite_keeps | apply State.patGo_keeps)
    | exact Sub.of rfl
    | dsimp only

theorem execPatternRunEnd_keeps {mk : Nat} {z s : State} (hk : Keeps mk z s) (a : Acc) (data : Word) (hm : Sub 0x884F7 mk := by exact Sub.of rfl) :
    KeepsR mk z (execPatternRunEnd a data s) := by
  refine KeepsR.within hk hm ?_
  replace hk : Keeps 0x884F7 s s := .refl _
  unfold execPatternRunEnd
  repeat' first
    | with_reducible intro _
    | with_reducible assumption
    | (with_reducible first | apply KeepsR.present | apply KeepsR.next | exact KeepsR.fault | apply State.guardedWrite_keeps | apply State.patGo_keeps)
    | exact Sub.of rfl
    | dsimp only

theorem execPatternRunTimeout_keeps {mk : Nat} {z s : State} (hk : Keeps mk z s) (hm : Sub 0x88477 mk := by exact Sub.of rfl) :
    KeepsR mk z (execPatternRunTimeout s) := by
  refine KeepsR.within hk hm ?_
  replace hk : Keeps 0x88477 s s := .refl _
  unfold execPatternRunTimeout
  repeat' first
    | (extract_lets -descend +onlyGivenNames x0; refine Keeps.cut (m := 0x88477) (z := s) (v := x0) ?_ (fun h0 => ?_); rotate_left; clear_value x0; rotate_left; dsimp -zeta only [x0]; clear x0)
    | (extract_lets -descend +onlyGivenNames x0; clear_value x0)
    | lift_lets
    | with_reducible assumption
    | (with_reducible first | apply KeepsR.present | apply KeepsR.next | exact KeepsR.fault | apply present_keeps | apply State.runEnd_keeps)
    | (with_reducible apply Keeps.ite)
    | split
    | (refine Keeps.some ?_ (by assumption))
    | exact Sub.of rfl
    | dsimp only

theorem State.abftOpen_keeps {mk : Nat} {z s : State} (hk : Keeps mk z s) (c : Nat) (hm : Sub 0x88477 mk := by exact Sub.of rfl) :
    Keeps mk z (State.abftOpen s c) := by
  refine hk.within hm ?_
  replace hk : Keeps 0x88477 s s := .refl _
  unfold State.abftOpen
  repeat' first
    | (extract_lets -descend +onlyGivenNames x0; refine Keeps.cut (m := 0x88477) (z := s) (v := x0) ?_ (fun h0 => ?_); rotate_left; clear_value x0; rotate_left; dsimp -zeta only [x0]; clear x0)
    | (extract_lets -descend +onlyGivenNames x0; clear_value x0)
    | with_reducible intro _
    | lift_lets
    | with_reducible assumption
    | (with_reducible first | apply State.modAbft_keeps | apply State.offerRec_keeps | apply State.runEnd_keeps)
    | (with_reducible refine Keeps.mk0 ?_ ?g; (first | with_reducible assumption | (refine Keeps.snd ?_ (by assumption)) | (refine Keeps.some ?_ (by assumption)) | (with_reducible first | apply State.modAbft_keeps | apply State.offerRec_keeps | apply State.runEnd_keeps)); with_reducible case g => exact fun h => Keeps.mk' h)
    | (with_reducible apply Keeps.ite)
    | split
    | (refine Keeps.some ?_ (by assumption))
    | exact Sub.of rfl
    | dsimp only

theorem State.modPlace_keeps {mk : Nat} {z s : State} (hk : Keeps mk z s) (q : Nat) (f : PatPlace → PatPlace) (hm : Sub 0x8000 mk := by exact Sub.of rfl) :
    Keeps mk z (State.modPlace s q f) := by
  refine hk.within hm ?_
  replace hk : Keeps 0x8000 s s := .refl _
  unfold State.modPlace
  repeat' first
    | with_reducible intro _
    | with_reducible assumption
    | with_reducible apply State.modAbft_keeps
    | (with_reducible refine Keeps.mk0 ?_ ?g; (first | with_reducible assumption | (refine Keeps.snd ?_ (by assumption)) | (refine Keeps.some ?_ (by assumption)) | (with_reducible first | apply State.modAbft_keeps)); with_reducible case g => exact fun h => Keeps.mk' h)
    | exact Sub.of rfl
    | dsimp only

theorem State.placeRefuse_keeps {mk : Nat} {z s : State} (hk : Keeps mk z s) (q reason : Nat) (hm : Sub 0x8003 mk := by exact Sub.of rfl) :
    Keeps mk z (State.placeRefuse s q reason) := by
  refine hk.within hm ?_
  replace hk : Keeps 0x8003 s s := .refl _
  unfold State.placeRefuse
  repeat' first
    | (extract_lets -descend +onlyGivenNames x0; refine Keeps.cut (m := 0x8003) (z := s) (v := x0) ?_ (fun h0 => ?_); rotate_left; clear_value x0; rotate_left; dsimp -zeta only [x0]; clear x0)
    | (extract_lets -descend +onlyGivenNames x0; clear_value x0)
    | with_reducible intro _
    | lift_lets
    | with_reducible assumption
    | (with_reducible first | apply State.wr_keeps | apply State.irq_keeps | apply State.modPlace_keeps)
    | (with_reducible refine Keeps.mk0 ?_ ?g; (first | with_reducible assumption | (refine Keeps.snd ?_ (by assumption)) | (refine Keeps.some ?_ (by assumption)) | (with_reducible first | apply State.wr_keeps | apply State.irq_keeps | apply State.modPlace_keeps)); with_reducible case g => exact fun h => Keeps.mk' h)
    | (with_reducible apply Keeps.ite)
    | split
    | exact Sub.of rfl
    | dsimp only

theorem State.patTake_keeps {mk : Nat} {z s : State} (hk : Keeps mk z s) (r : Rec) (hm : Sub 0x8003 mk := by exact Sub.of rfl) :
    Keeps mk z (State.patTake s r) := by
  refine hk.within hm ?_
  replace hk : Keeps 0x8003 s s := .refl _
  unfold State.patTake
  repeat' first
    | (extract_lets -descend +onlyGivenNames x0; refine Keeps.cut (m := 0x8003) (z := s) (v := x0) ?_ (fun h0 => ?_); rotate_left; clear_value x0; rotate_left; dsimp -zeta only [x0]; clear x0)
    | (extract_lets -descend +onlyGivenNames x0; dsimp -zeta only [x0]; clear x0)
    | with_reducible intro _
    | lift_lets
    | with_reducible assumption
    | (with_reducible first | apply KeepsR.present | apply KeepsR.next | exact KeepsR.fault | exact KeepsO.none | apply KeepsO.some | apply State.modPlace_keeps | apply State.placeRefuse_keeps)
    | (with_reducible refine State.modRegion_keeps ?_ _ _ (fun _ w => w))
    | (with_reducible refine State.modFw_keeps ?_ _ ⟨rfl, rfl⟩)
    | (with_reducible refine State.modAuth_keeps ?_ _ ⟨rfl, rfl⟩)
    | (with_reducible refine Keeps.mk0 ?_ ?g; (first | with_reducible assumption | (refine Keeps.snd ?_ (by assumption)) | (refine Keeps.some ?_ (by assumption)) | (with_reducible first | apply State.modPlace_keeps | apply State.placeRefuse_keeps)); with_reducible case g => exact fun h => Keeps.mk' h)
    | (with_reducible apply Keeps.ite)
    | (with_reducible apply Keeps.foldl)
    | (with_reducible apply Keeps.foldlSnd)
    | (with_reducible apply Keeps.foldlFst)
    | split
    | (refine Keeps.some ?_ (by assumption))
    | (refine Keeps.snd ?_ (by assumption))
    | exact Sub.of rfl
    | dsimp only

theorem State.patDrain_keepsAux {z s : State} (hk : Keeps 0x108463 z s) (n : Nat) : Keeps 0x108463 z (State.patDrain n s) := by
  induction n generalizing s with
  | zero => exact hk
  | succ n ih =>
    unfold State.patDrain
    repeat' first
      | with_reducible intro _
      | with_reducible assumption
      | (with_reducible first | apply ih | apply State.grant_keeps | apply State.waitOver_keeps | apply State.modAbft_keeps | apply State.patTake_keeps)
      | (with_reducible refine Keeps.mk0 ?_ ?g; (first | with_reducible assumption | (refine Keeps.snd ?_ (by assumption)) | (refine Keeps.some ?_ (by assumption)) | (with_reducible first | apply ih | apply State.grant_keeps | apply State.waitOver_keeps | apply State.modAbft_keeps | apply State.patTake_keeps)); with_reducible case g => exact fun h => Keeps.mk' h)
      | split
      | (refine Keeps.some ?_ (by assumption))
      | exact Sub.of rfl
      | dsimp only

theorem State.patDrain_keeps {mk : Nat} {z s : State} (h : Keeps mk z s) (n : Nat) (hm : Sub 0x108463 mk := by exact Sub.of rfl) : Keeps mk z (State.patDrain n s) :=
  h.within hm (State.patDrain_keepsAux (.refl _) n)

theorem State.patChunk_keeps {mk : Nat} {z s : State} (hk : Keeps mk z s) (port credits : Nat) (r : Rec) (hm : Sub 0x118463 mk := by exact Sub.of rfl) :
    Keeps mk z (State.patChunk s port credits r) := by
  refine hk.within hm ?_
  replace hk : Keeps 0x118463 s s := .refl _
  unfold State.patChunk
  repeat' first
    | (extract_lets -descend +onlyGivenNames x0; refine Keeps.cut (m := 0x118463) (z := s) (v := x0) ?_ (fun h0 => ?_); rotate_left; clear_value x0; rotate_left; dsimp -zeta only [x0]; clear x0)
    | (extract_lets -descend +onlyGivenNames x0; clear_value x0)
    | with_reducible intro _
    | lift_lets
    | with_reducible assumption
    | (with_reducible first | apply State.waitIn_keeps | apply State.modAbft_keeps | apply State.patDrain_keeps)
    | (with_reducible refine Keeps.mk0 ?_ ?g; (first | with_reducible assumption | (refine Keeps.snd ?_ (by assumption)) | (refine Keeps.some ?_ (by assumption)) | (with_reducible first | apply State.waitIn_keeps | apply State.modAbft_keeps | apply State.patDrain_keeps)); with_reducible case g => exact fun h => Keeps.mk' h)
    | exact Sub.of rfl
    | dsimp only

theorem execPatternChunkReceived_keeps {mk : Nat} {z s : State} (hk : Keeps mk z s) (port : Nat) (rec : Rec) (hm : Sub 0x5984F7 mk := by exact Sub.of rfl) :
    KeepsR mk z (execPatternChunkReceived port rec s) := by
  refine KeepsR.within hk hm ?_
  replace hk : Keeps 0x5984F7 s s := .refl _
  unfold execPatternChunkReceived
  repeat' first
    | (extract_lets -descend +onlyGivenNames x0; refine Keeps.cut (m := 0x5984F7) (z := s) (v := x0) ?_ (fun h0 => ?_); rotate_left; clear_value x0; rotate_left; dsimp -zeta only [x0]; clear x0)
    | (extract_lets -descend +onlyGivenNames x0; clear_value x0)
    | with_reducible intro _
    | lift_lets
    | with_reducible assumption
    | (with_reducible first | apply KeepsR.present | apply KeepsR.next | exact KeepsR.fault | apply present_keeps | apply State.admitRec_keeps | apply State.bulkIn_keeps | apply State.patChunk_keeps)
    | (with_reducible apply Keeps.ite)
    | split
    | (refine Keeps.snd ?_ (by assumption))
    | exact Sub.of rfl
    | dsimp only

theorem execPatternVerifyDone_keeps {mk : Nat} {z s : State} (hk : Keeps mk z s) (hm : Sub 0x108003 mk := by exact Sub.of rfl) :
    KeepsR mk z (execPatternVerifyDone s) := by
  refine KeepsR.within hk hm ?_
  replace hk : Keeps 0x108003 s s := .refl _
  unfold execPatternVerifyDone
  repeat' first
    | (extract_lets -descend +onlyGivenNames x0; refine Keeps.cut (m := 0x108003) (z := s) (v := x0) ?_ (fun h0 => ?_); rotate_left; clear_value x0; rotate_left; dsimp -zeta only [x0]; clear x0)
    | (extract_lets -descend +onlyGivenNames x0; clear_value x0)
    | with_reducible intro _
    | lift_lets
    | with_reducible assumption
    | (with_reducible first | apply KeepsR.present | apply KeepsR.next | exact KeepsR.fault | apply State.irq_keeps | apply present_keeps | apply State.grant_keeps | apply State.modPlace_keeps | apply State.placeRefuse_keeps)
    | (with_reducible refine Keeps.mk0 ?_ ?g; (first | with_reducible assumption | (refine Keeps.snd ?_ (by assumption)) | (refine Keeps.some ?_ (by assumption)) | (with_reducible first | apply State.irq_keeps | apply present_keeps | apply State.grant_keeps | apply State.modPlace_keeps | apply State.placeRefuse_keeps)); with_reducible case g => exact fun h => Keeps.mk' h)
    | (with_reducible apply Keeps.ite)
    | split
    | (refine Keeps.some ?_ (by assumption))
    | exact Sub.of rfl
    | dsimp only

theorem execPatPlaceDrop_keeps {mk : Nat} {z s : State} (hk : Keeps mk z s) (a : Acc) (place : Nat) (data : Word) (hm : Sub 0x884F7 mk := by exact Sub.of rfl) :
    KeepsR mk z (execPatPlaceDrop a place data s) := by
  refine KeepsR.within hk hm ?_
  replace hk : Keeps 0x884F7 s s := .refl _
  unfold execPatPlaceDrop
  repeat' first
    | with_reducible intro _
    | with_reducible assumption
    | (with_reducible first | apply KeepsR.present | apply KeepsR.next | exact KeepsR.fault | apply State.guardedWrite_keeps | apply State.modPlace_keeps)
    | (with_reducible apply Keeps.ite)
    | split
    | exact Sub.of rfl
    | dsimp only

end Sys2Proof.Machine
end

