-- ==== Sys2Proof/Laws/KeepsAdmission.lean ====
section
/-! SUPPORT. What the operations of Machine/Admission.lean keep. -/

set_option Elab.async false

namespace Sys2Proof.Machine

theorem State.admitStart_keeps {mk : Nat} {z s : State} (hk : Keeps mk z s) (slot mask trees : Nat) (hm : Sub 0x2020 mk := by exact Sub.of rfl) :
    Keeps mk z (State.admitStart s slot mask trees) := by
  refine hk.within hm ?_
  replace hk : Keeps 0x2020 s s := .refl _
  unfold State.admitStart
  repeat' first
    | (extract_lets -descend +onlyGivenNames x0; refine Keeps.cut (m := 0x2020) (z := s) (v := x0) ?_ (fun h0 => ?_); rotate_left; clear_value x0; rotate_left; dsimp -zeta only [x0]; clear x0)
    | (extract_lets -descend +onlyGivenNames x0; clear_value x0)
    | with_reducible intro _
    | lift_lets
    | with_reducible assumption
    | with_reducible apply State.modPort_keeps
    | (with_reducible refine Keeps.mk0 ?_ ?g; (first | with_reducible assumption | (refine Keeps.snd ?_ (by assumption)) | (refine Keeps.some ?_ (by assumption)) | (with_reducible first | apply State.modPort_keeps)); with_reducible case g => exact fun h => Keeps.mk' h)
    | exact Sub.of rfl
    | dsimp only

theorem State.admitNext_keeps {mk : Nat} {z s : State} (hk : Keeps mk z s) (hm : Sub 0x2020 mk := by exact Sub.of rfl) :
    Keeps mk z (State.admitNext s) := by
  refine hk.within hm ?_
  replace hk : Keeps 0x2020 s s := .refl _
  unfold State.admitNext
  repeat' first
    | (extract_lets -descend +onlyGivenNames x0; refine Keeps.cut (m := 0x2020) (z := s) (v := x0) ?_ (fun h0 => ?_); rotate_left; clear_value x0; rotate_left; dsimp -zeta only [x0]; clear x0)
    | (extract_lets -descend +onlyGivenNames x0; first
        | ((with_reducible first | have _w : LinkSt := x0 | have _w : TimeSt := x0 | have _w : PowerSt := x0 | have _w : SampSt := x0 | have _w : FwSt := x0 | have _w : AuthSt := x0 | have _w : PulseSt := x0 | have _w : CoreSt := x0); clear _w; dsimp -zeta only [x0]; clear x0)
        | clear_value x0)
    | with_reducible intro _
    | lift_lets
    | with_reducible assumption
    | (with_reducible first | apply KeepsR.present | apply KeepsR.next | exact KeepsR.fault | exact KeepsO.none | apply KeepsO.some | apply State.admitStart_keeps)
    | (with_reducible refine State.modRegion_keeps ?_ _ _ (fun _ w => w))
    | (with_reducible refine State.modFw_keeps ?_ _ ⟨rfl, rfl⟩)
    | (with_reducible refine State.modAuth_keeps ?_ _ ⟨rfl, rfl⟩)
    | (with_reducible refine Keeps.mk0 ?_ ?g; (first | with_reducible assumption | (refine Keeps.snd ?_ (by assumption)) | (refine Keeps.some ?_ (by assumption)) | (with_reducible first | apply State.admitStart_keeps)); with_reducible case g => exact fun h => Keeps.mk' h)
    | (with_reducible apply Keeps.ite)
    | (with_reducible apply Keeps.foldl)
    | (with_reducible apply Keeps.foldlSnd)
    | (with_reducible apply Keeps.foldlFst)
    | split
    | (refine Keeps.some ?_ (by assumption))
    | (refine Keeps.snd ?_ (by assumption))
    | exact Sub.of rfl
    | dsimp only

theorem execDiscovery_keeps {mk : Nat} {z s : State} (hk : Keeps mk z s) (answers : List (Nat × Nat)) (hm : Sub 0x824F7 mk := by exact Sub.of rfl) :
    KeepsR mk z (execDiscovery answers s) := by
  refine KeepsR.within hk hm ?_
  replace hk : Keeps 0x824F7 s s := .refl _
  unfold execDiscovery
  repeat' first
    | with_reducible assumption
    | (with_reducible first | apply KeepsR.present | apply KeepsR.next | exact KeepsR.fault | apply present_keeps | apply State.discover_keeps | apply State.admitNext_keeps)
    | exact Sub.of rfl
    | dsimp only

theorem execQuarantineRelease_keeps {mk : Nat} {z s : State} (hk : Keeps mk z s) (a : Acc) (port : Nat) (data : Word) (hm : Sub 0x824F7 mk := by exact Sub.of rfl) :
    KeepsR mk z (execQuarantineRelease a port data s) := by
  refine KeepsR.within hk hm ?_
  replace hk : Keeps 0x824F7 s s := .refl _
  unfold execQuarantineRelease
  repeat' first
    | with_reducible intro _
    | with_reducible assumption
    | (with_reducible first | apply KeepsR.present | apply KeepsR.next | exact KeepsR.fault | apply State.guardedWrite_keeps | apply State.quarRelease_keeps | apply State.admitNext_keeps)
    | exact Sub.of rfl
    | dsimp only

theorem State.identity_keeps {mk : Nat} {z s : State} (hk : Keeps mk z s) (hm : Sub 0x10200000 mk := by exact Sub.of rfl) :
    Keeps mk z (State.identity s) := by
  refine hk.within hm ?_
  replace hk : Keeps 0x10200000 s s := .refl _
  unfold State.identity
  repeat' first
    | with_reducible assumption
    | (with_reducible refine Keeps.mk0 ?_ ?g; (first | with_reducible assumption | (refine Keeps.snd ?_ (by assumption)) | (refine Keeps.some ?_ (by assumption))); with_reducible case g => exact fun h => Keeps.mk' h)
    | split
    | (refine Keeps.some ?_ (by assumption))
    | exact Sub.of rfl
    | dsimp only

theorem execIdentityTakesEffect_keeps {mk : Nat} {z s : State} (hk : Keeps mk z s) (hm : Sub 0x10200000 mk := by exact Sub.of rfl) :
    KeepsR mk z (execIdentityTakesEffect s) := by
  refine KeepsR.within hk hm ?_
  replace hk : Keeps 0x10200000 s s := .refl _
  unfold execIdentityTakesEffect
  repeat' first
    | with_reducible assumption
    | (with_reducible first | apply KeepsR.present | apply KeepsR.next | exact KeepsR.fault | apply State.identity_keeps)
    | exact Sub.of rfl
    | dsimp only

theorem State.admitReady_keeps {mk : Nat} {z s : State} (hk : Keeps mk z s) (hm : Sub 0x11EE5F7 mk := by exact Sub.of rfl) :
    Keeps mk z (State.admitReady s) := by
  refine hk.within hm ?_
  replace hk : Keeps 0x11EE5F7 s s := .refl _
  unfold State.admitReady
  repeat' first
    | (extract_lets -descend +onlyGivenNames x0; refine Keeps.cut (m := 0x11EE5F7) (z := s) (v := x0) ?_ (fun h0 => ?_); rotate_left; clear_value x0; rotate_left; dsimp -zeta only [x0]; clear x0)
    | (extract_lets -descend +onlyGivenNames x0; dsimp -zeta only [x0]; clear x0)
    | with_reducible intro _
    | lift_lets
    | with_reducible assumption
    | (with_reducible first | apply KeepsR.present | apply KeepsR.next | exact KeepsR.fault | exact KeepsO.none | apply KeepsO.some | apply State.irq_keeps | apply State.modPort_keeps | apply State.event_keeps | apply State.request_keeps | apply State.admitNext_keeps)
    | (with_reducible refine State.modRegion_keeps ?_ _ _ (fun _ w => w))
    | (with_reducible refine State.modFw_keeps ?_ _ ⟨rfl, rfl⟩)
    | (with_reducible refine State.modAuth_keeps ?_ _ ⟨rfl, rfl⟩)
    | (with_reducible refine Keeps.mk0 ?_ ?g; (first | with_reducible assumption | (refine Keeps.snd ?_ (by assumption)) | (refine Keeps.some ?_ (by assumption)) | (with_reducible first | apply State.irq_keeps | apply State.modPort_keeps | apply State.event_keeps | apply State.request_keeps | apply State.admitNext_keeps)); with_reducible case g => exact fun h => Keeps.mk' h)
    | (with_reducible apply Keeps.ite)
    | (with_reducible apply Keeps.foldl)
    | (with_reducible apply Keeps.foldlSnd)
    | (with_reducible apply Keeps.foldlFst)
    | split
    | (refine Keeps.some ?_ (by assumption))
    | (refine Keeps.snd ?_ (by assumption))
    | exact Sub.of rfl
    | dsimp only

theorem State.admitFail_keeps {mk : Nat} {z s : State} (hk : Keeps mk z s) (timeout : Bool) (hm : Sub 0x824F7 mk := by exact Sub.of rfl) :
    Keeps mk z (State.admitFail s timeout) := by
  refine hk.within hm ?_
  replace hk : Keeps 0x824F7 s s := .refl _
  unfold State.admitFail
  repeat' first
    | (extract_lets -descend +onlyGivenNames x0; refine Keeps.cut (m := 0x824F7) (z := s) (v := x0) ?_ (fun h0 => ?_); rotate_left; clear_value x0; rotate_left; dsimp -zeta only [x0]; clear x0)
    | (extract_lets -descend +onlyGivenNames x0; clear_value x0)
    | lift_lets
    | with_reducible assumption
    | (with_reducible first | apply State.irq_keeps | apply State.event_keeps | apply State.admitNext_keeps)
    | (with_reducible refine Keeps.mk0 ?_ ?g; (first | with_reducible assumption | (refine Keeps.snd ?_ (by assumption)) | (refine Keeps.some ?_ (by assumption)) | (with_reducible first | apply State.irq_keeps | apply State.event_keeps | apply State.admitNext_keeps)); with_reducible case g => exact fun h => Keeps.mk' h)
    | exact Sub.of rfl
    | dsimp only

theorem execAdmissionTestComplete_keeps {mk : Nat} {z s : State} (hk : Keeps mk z s) (pass : Bool) (hm : Sub 0x11EE5F7 mk := by exact Sub.of rfl) :
    KeepsR mk z (execAdmissionTestComplete pass s) := by
  refine KeepsR.within hk hm ?_
  replace hk : Keeps 0x11EE5F7 s s := .refl _
  unfold execAdmissionTestComplete
  repeat' first
    | (extract_lets -descend +onlyGivenNames x0; refine Keeps.cut (m := 0x11EE5F7) (z := s) (v := x0) ?_ (fun h0 => ?_); rotate_left; clear_value x0; rotate_left; dsimp -zeta only [x0]; clear x0)
    | (extract_lets -descend +onlyGivenNames x0; clear_value x0)
    | lift_lets
    | with_reducible assumption
    | (with_reducible first | apply KeepsR.present | apply KeepsR.next | exact KeepsR.fault | apply present_keeps | apply State.admitReady_keeps | apply State.admitFail_keeps)
    | (with_reducible refine Keeps.mk0 ?_ ?g; (first | with_reducible assumption | (refine Keeps.snd ?_ (by assumption)) | (refine Keeps.some ?_ (by assumption)) | (with_reducible first | apply present_keeps | apply State.admitReady_keeps | apply State.admitFail_keeps)); with_reducible case g => exact fun h => Keeps.mk' h)
    | (with_reducible apply Keeps.ite)
    | split
    | (refine Keeps.some ?_ (by assumption))
    | exact Sub.of rfl
    | dsimp only

theorem execAdmissionTimeout_keeps {mk : Nat} {z s : State} (hk : Keeps mk z s) (hm : Sub 0x824F7 mk := by exact Sub.of rfl) :
    KeepsR mk z (execAdmissionTimeout s) := by
  refine KeepsR.within hk hm ?_
  replace hk : Keeps 0x824F7 s s := .refl _
  unfold execAdmissionTimeout
  repeat' first
    | (extract_lets -descend +onlyGivenNames x0; refine Keeps.cut (m := 0x824F7) (z := s) (v := x0) ?_ (fun h0 => ?_); rotate_left; clear_value x0; rotate_left; dsimp -zeta only [x0]; clear x0)
    | (extract_lets -descend +onlyGivenNames x0; clear_value x0)
    | lift_lets
    | with_reducible assumption
    | (with_reducible first | apply KeepsR.present | apply KeepsR.next | exact KeepsR.fault | apply present_keeps | apply State.admitFail_keeps)
    | (with_reducible apply Keeps.ite)
    | split
    | exact Sub.of rfl
    | dsimp only

theorem State.admitWrite_keeps {mk : Nat} {z s : State} (hk : Keeps mk z s) (v : Nat) (hm : Sub 0x2021 mk := by exact Sub.of rfl) :
    Keeps mk z (State.admitWrite s v) := by
  refine hk.within hm ?_
  replace hk : Keeps 0x2021 s s := .refl _
  unfold State.admitWrite
  repeat' first
    | (extract_lets -descend +onlyGivenNames x0; refine Keeps.cut (m := 0x2021) (z := s) (v := x0) ?_ (fun h0 => ?_); rotate_left; clear_value x0; rotate_left; dsimp -zeta only [x0]; clear x0)
    | (extract_lets -descend +onlyGivenNames x0; clear_value x0)
    | lift_lets
    | with_reducible assumption
    | (with_reducible first | apply State.wr_keeps | apply State.admitStart_keeps)
    | (with_reducible apply Keeps.ite)
    | split
    | exact Sub.of rfl
    | dsimp only

theorem execOutAdmitGo_keeps {mk : Nat} {z s : State} (hk : Keeps mk z s) (a : Acc) (data : Word) (hm : Sub 0x824F7 mk := by exact Sub.of rfl) :
    KeepsR mk z (execOutAdmitGo a data s) := by
  refine KeepsR.within hk hm ?_
  replace hk : Keeps 0x824F7 s s := .refl _
  unfold execOutAdmitGo
  repeat' first
    | with_reducible intro _
    | with_reducible assumption
    | (with_reducible first | apply KeepsR.present | apply KeepsR.next | exact KeepsR.fault | apply State.guardedWrite_keeps | apply State.admitWrite_keeps)
    | exact Sub.of rfl
    | dsimp only

end Sys2Proof.Machine
end

