-- ==== Sys2Proof/Laws/KeepsSummarise.lean ====
section
/-! SUPPORT. What the operations of Machine/Summarise.lean keep. -/

set_option Elab.async false

namespace Sys2Proof.Machine

theorem State.closeSpan_keeps {mk : Nat} {z s : State} (hk : Keeps mk z s) (x : Span) (hm : Sub 0x1080475 mk := by exact Sub.of rfl) :
    Keeps mk z (State.closeSpan s x) := by
  refine hk.within hm ?_
  replace hk : Keeps 0x1080475 s s := .refl _
  unfold State.closeSpan
  repeat' first
    | (extract_lets -descend +onlyGivenNames x0; refine Keeps.cut (m := 0x1080475) (z := s) (v := x0) ?_ (fun h0 => ?_); rotate_left; clear_value x0; rotate_left; dsimp -zeta only [x0]; clear x0)
    | (extract_lets -descend +onlyGivenNames x0; clear_value x0)
    | with_reducible intro _
    | lift_lets
    | with_reducible assumption
    | (with_reducible first | apply State.emitUp_keeps | apply State.originate_keeps | apply State.drawOrder_keeps)
    | (with_reducible refine Keeps.mk0 ?_ ?g; (first | with_reducible assumption | (refine Keeps.snd ?_ (by assumption)) | (refine Keeps.some ?_ (by assumption)) | (with_reducible first | apply State.emitUp_keeps | apply State.originate_keeps | apply State.drawOrder_keeps)); with_reducible case g => exact fun h => Keeps.mk' h)
    | split
    | (refine Keeps.snd ?_ (by assumption))
    | exact Sub.of rfl
    | dsimp only

theorem State.closeSpans_keeps {mk : Nat} {z s : State} (hk : Keeps mk z s) (hm : Sub 0x1080475 mk := by exact Sub.of rfl) :
    Keeps mk z (State.closeSpans s) := by
  refine hk.within hm ?_
  replace hk : Keeps 0x1080475 s s := .refl _
  unfold State.closeSpans
  repeat' first
    | (extract_lets -descend +onlyGivenNames x0; refine Keeps.cut (m := 0x1080475) (z := s) (v := x0) ?_ (fun h0 => ?_); rotate_left; clear_value x0; rotate_left; dsimp -zeta only [x0]; clear x0)
    | (extract_lets -descend +onlyGivenNames x0; clear_value x0)
    | with_reducible intro _
    | lift_lets
    | with_reducible assumption
    | with_reducible apply State.closeSpan_keeps
    | (with_reducible refine Keeps.mk0 ?_ ?g; (first | with_reducible assumption | (refine Keeps.snd ?_ (by assumption)) | (refine Keeps.some ?_ (by assumption)) | (with_reducible first | apply State.closeSpan_keeps)); with_reducible case g => exact fun h => Keeps.mk' h)
    | (with_reducible apply Keeps.foldl)
    | exact Sub.of rfl
    | dsimp only

theorem State.sdMuster_keeps {mk : Nat} {z s : State} (hk : Keeps mk z s) (hm : Sub 0x1080475 mk := by exact Sub.of rfl) :
    Keeps mk z (State.sdMuster s) := by
  refine hk.within hm ?_
  replace hk : Keeps 0x1080475 s s := .refl _
  unfold State.sdMuster
  repeat' first
    | (extract_lets -descend +onlyGivenNames x0; refine Keeps.cut (m := 0x1080475) (z := s) (v := x0) ?_ (fun h0 => ?_); rotate_left; clear_value x0; rotate_left; dsimp -zeta only [x0]; clear x0)
    | (extract_lets -descend +onlyGivenNames x0; clear_value x0)
    | lift_lets
    | with_reducible assumption
    | with_reducible apply State.closeSpans_keeps
    | (with_reducible refine Keeps.mk0 ?_ ?g; (first | with_reducible assumption | (refine Keeps.snd ?_ (by assumption)) | (refine Keeps.some ?_ (by assumption)) | (with_reducible first | apply State.closeSpans_keeps)); with_reducible case g => exact fun h => Keeps.mk' h)
    | (with_reducible apply Keeps.ite)
    | split
    | exact Sub.of rfl
    | dsimp only

theorem State.sdSet_keeps {mk : Nat} {z s : State} (hk : Keeps mk z s) (on : Bool) (hm : Sub 0x10804F7 mk := by exact Sub.of rfl) :
    Keeps mk z (State.sdSet s on) := by
  refine hk.within hm ?_
  replace hk : Keeps 0x10804F7 s s := .refl _
  unfold State.sdSet
  repeat' first
    | (extract_lets -descend +onlyGivenNames x0; refine Keeps.cut (m := 0x10804F7) (z := s) (v := x0) ?_ (fun h0 => ?_); rotate_left; clear_value x0; rotate_left; dsimp -zeta only [x0]; clear x0)
    | (extract_lets -descend +onlyGivenNames x0; clear_value x0)
    | lift_lets
    | with_reducible assumption
    | (with_reducible first | apply State.wr_keeps | apply State.irq_keeps | apply State.event_keeps | apply State.closeSpans_keeps)
    | (with_reducible refine Keeps.mk0 ?_ ?g; (first | with_reducible assumption | (refine Keeps.snd ?_ (by assumption)) | (refine Keeps.some ?_ (by assumption)) | (with_reducible first | apply State.wr_keeps | apply State.irq_keeps | apply State.event_keeps | apply State.closeSpans_keeps)); with_reducible case g => exact fun h => Keeps.mk' h)
    | (with_reducible apply Keeps.ite)
    | split
    | exact Sub.of rfl
    | dsimp only

theorem State.sdJudge_keeps {mk : Nat} {z s : State} (hk : Keeps mk z s) (share : Nat) (hm : Sub 0x10804F7 mk := by exact Sub.of rfl) :
    Keeps mk z (State.sdJudge s share) := by
  refine hk.within hm ?_
  replace hk : Keeps 0x10804F7 s s := .refl _
  unfold State.sdJudge
  repeat' first
    | (extract_lets -descend +onlyGivenNames x0; refine Keeps.cut (m := 0x10804F7) (z := s) (v := x0) ?_ (fun h0 => ?_); rotate_left; clear_value x0; rotate_left; dsimp -zeta only [x0]; clear x0)
    | (extract_lets -descend +onlyGivenNames x0; clear_value x0)
    | lift_lets
    | with_reducible assumption
    | with_reducible apply State.sdSet_keeps
    | (with_reducible refine Keeps.mk0 ?_ ?g; (first | with_reducible assumption | (refine Keeps.snd ?_ (by assumption)) | (refine Keeps.some ?_ (by assumption)) | (with_reducible first | apply State.sdSet_keeps)); with_reducible case g => exact fun h => Keeps.mk' h)
    | (with_reducible apply Keeps.ite)
    | split
    | exact Sub.of rfl
    | dsimp only

theorem execSummariseDownWindow_keeps {mk : Nat} {z s : State} (hk : Keeps mk z s) (ethShare : Nat) (hm : Sub 0x10804F7 mk := by exact Sub.of rfl) :
    KeepsR mk z (execSummariseDownWindow ethShare s) := by
  refine KeepsR.within hk hm ?_
  replace hk : Keeps 0x10804F7 s s := .refl _
  unfold execSummariseDownWindow
  repeat' first
    | (extract_lets -descend +onlyGivenNames x0; refine Keeps.cut (m := 0x10804F7) (z := s) (v := x0) ?_ (fun h0 => ?_); rotate_left; clear_value x0; rotate_left; dsimp -zeta only [x0]; clear x0)
    | (extract_lets -descend +onlyGivenNames x0; clear_value x0)
    | lift_lets
    | with_reducible assumption
    | (with_reducible first | apply KeepsR.present | apply KeepsR.next | exact KeepsR.fault | apply State.sdJudge_keeps)
    | (with_reducible refine Keeps.mk0 ?_ ?g; (first | with_reducible assumption | (refine Keeps.snd ?_ (by assumption)) | (refine Keeps.some ?_ (by assumption)) | (with_reducible first | apply State.sdJudge_keeps)); with_reducible case g => exact fun h => Keeps.mk' h)
    | (with_reducible apply Keeps.ite)
    | split
    | exact Sub.of rfl
    | dsimp only

end Sys2Proof.Machine
end

