-- ==== Sys2Proof/Laws/KeepsMuster.lean ====
section
/-! SUPPORT. What the operations of Machine/Muster.lean keep. -/

set_option Elab.async false

namespace Sys2Proof.Machine

theorem State.modMuster_keeps {mk : Nat} {z s : State} (hk : Keeps mk z s) (f : MusterSt → MusterSt) (hm : Sub 0x200 mk := by exact Sub.of rfl) :
    Keeps mk z (State.modMuster s f) := by
  refine hk.within hm ?_
  replace hk : Keeps 0x200 s s := .refl _
  unfold State.modMuster
  repeat' first
    | with_reducible assumption
    | (with_reducible refine Keeps.mk0 ?_ ?g; (first | with_reducible assumption | (refine Keeps.snd ?_ (by assumption)) | (refine Keeps.some ?_ (by assumption))); with_reducible case g => exact fun h => Keeps.mk' h)
    | exact Sub.of rfl
    | dsimp only

theorem State.mstMissed_keeps {mk : Nat} {z s : State} (hk : Keeps mk z s) (n : Nat) (hm : Sub 0x3 mk := by exact Sub.of rfl) :
    Keeps mk z (State.mstMissed s n) := by
  refine hk.within hm ?_
  replace hk : Keeps 0x3 s s := .refl _
  unfold State.mstMissed
  repeat' first
    | with_reducible assumption
    | (with_reducible first | apply State.bumpSat_keeps | apply State.irq_keeps)
    | (with_reducible apply Keeps.ite)
    | split
    | exact Sub.of rfl
    | dsimp only

theorem State.joinSched_keeps {mk : Nat} {z s : State} (hk : Keeps mk z s) (c : Sched) (hm : Sub 0x203 mk := by exact Sub.of rfl) :
    Keeps mk z (State.joinSched s c) := by
  refine hk.within hm ?_
  replace hk : Keeps 0x203 s s := .refl _
  unfold State.joinSched
  repeat' first
    | (extract_lets -descend +onlyGivenNames x0; refine Keeps.cut (m := 0x203) (z := s) (v := x0) ?_ (fun h0 => ?_); rotate_left; clear_value x0; rotate_left; dsimp -zeta only [x0]; clear x0)
    | (extract_lets -descend +onlyGivenNames x0; clear_value x0)
    | with_reducible intro _
    | lift_lets
    | with_reducible assumption
    | (with_reducible first | apply State.modMuster_keeps | apply State.mstMissed_keeps)
    | (with_reducible refine Keeps.mk0 ?_ ?g; (first | with_reducible assumption | (refine Keeps.snd ?_ (by assumption)) | (refine Keeps.some ?_ (by assumption)) | (with_reducible first | apply State.modMuster_keeps | apply State.mstMissed_keeps)); with_reducible case g => exact fun h => Keeps.mk' h)
    | (with_reducible apply Keeps.ite)
    | split
    | exact Sub.of rfl
    | dsimp only

theorem State.showSched_keeps {mk : Nat} {z s : State} (hk : Keeps mk z s) (c : Sched) (hm : Sub 0x1 mk := by exact Sub.of rfl) :
    Keeps mk z (State.showSched s c) := by
  refine hk.within hm ?_
  replace hk : Keeps 0x1 s s := .refl _
  unfold State.showSched
  repeat' first
    | (extract_lets -descend +onlyGivenNames x0; refine Keeps.cut (m := 0x1) (z := s) (v := x0) ?_ (fun h0 => ?_); rotate_left; clear_value x0; rotate_left; dsimp -zeta only [x0]; clear x0)
    | (extract_lets -descend +onlyGivenNames x0; clear_value x0)
    | lift_lets
    | with_reducible assumption
    | with_reducible apply State.wr_keeps
    | (with_reducible apply Keeps.ite)
    | split
    | exact Sub.of rfl
    | dsimp only

theorem State.applySched_keeps {mk : Nat} {z s : State} (hk : Keeps mk z s) (p : List Byte) (hm : Sub 0x203 mk := by exact Sub.of rfl) :
    Keeps mk z (State.applySched s p) := by
  refine hk.within hm ?_
  replace hk : Keeps 0x203 s s := .refl _
  unfold State.applySched
  repeat' first
    | (extract_lets -descend +onlyGivenNames x0; refine Keeps.cut (m := 0x203) (z := s) (v := x0) ?_ (fun h0 => ?_); rotate_left; clear_value x0; rotate_left; dsimp -zeta only [x0]; clear x0)
    | (extract_lets -descend +onlyGivenNames x0; clear_value x0)
    | with_reducible intro _
    | lift_lets
    | with_reducible assumption
    | (with_reducible first | apply State.modMuster_keeps | apply State.joinSched_keeps | apply State.showSched_keeps)
    | (with_reducible refine Keeps.mk0 ?_ ?g; (first | with_reducible assumption | (refine Keeps.snd ?_ (by assumption)) | (refine Keeps.some ?_ (by assumption)) | (with_reducible first | apply State.modMuster_keeps | apply State.joinSched_keeps | apply State.showSched_keeps)); with_reducible case g => exact fun h => Keeps.mk' h)
    | (with_reducible apply Keeps.ite)
    | split
    | exact Sub.of rfl
    | dsimp only

theorem State.schedToTray_keeps {mk : Nat} {z s : State} (hk : Keeps mk z s) (p : List Byte) (hm : Sub 0x80471 mk := by exact Sub.of rfl) :
    Keeps mk z (State.schedToTray s p) := by
  refine hk.within hm ?_
  replace hk : Keeps 0x80471 s s := .refl _
  unfold State.schedToTray
  repeat' first
    | (extract_lets -descend +onlyGivenNames x0; refine Keeps.cut (m := 0x80471) (z := s) (v := x0) ?_ (fun h0 => ?_); rotate_left; clear_value x0; rotate_left; dsimp -zeta only [x0]; clear x0)
    | (extract_lets -descend +onlyGivenNames x0; clear_value x0)
    | with_reducible intro _
    | lift_lets
    | with_reducible assumption
    | with_reducible apply State.sendLocal_keeps
    | (with_reducible apply Keeps.ite)
    | (with_reducible apply Keeps.foldl)
    | split
    | exact Sub.of rfl
    | dsimp only

theorem State.schedTake_keeps {mk : Nat} {z s : State} (hk : Keeps mk z s) (port : Nat) (r : Rec) (hm : Sub 0x80673 mk := by exact Sub.of rfl) :
    Keeps mk z (State.schedTake s port r) := by
  refine hk.within hm ?_
  replace hk : Keeps 0x80673 s s := .refl _
  unfold State.schedTake
  repeat' first
    | (extract_lets -descend +onlyGivenNames x0; refine Keeps.cut (m := 0x80673) (z := s) (v := x0) ?_ (fun h0 => ?_); rotate_left; clear_value x0; rotate_left; dsimp -zeta only [x0]; clear x0)
    | (extract_lets -descend +onlyGivenNames x0; clear_value x0)
    | with_reducible intro _
    | lift_lets
    | with_reducible assumption
    | (with_reducible first | apply State.originateRaw_keeps | apply State.sendMany_keeps | apply State.consume_keeps | apply State.applySched_keeps | apply State.schedToTray_keeps)
    | (with_reducible apply Keeps.ite)
    | split
    | (refine Keeps.snd ?_ (by assumption))
    | exact Sub.of rfl
    | dsimp only

theorem State.schedIn_keeps {mk : Nat} {z s : State} (hk : Keeps mk z s) (port : Nat) (r : Rec) (hm : Sub 0x806F7 mk := by exact Sub.of rfl) :
    Keeps mk z (State.schedIn s port r) := by
  refine hk.within hm ?_
  replace hk : Keeps 0x806F7 s s := .refl _
  unfold State.schedIn
  repeat' first
    | (extract_lets -descend +onlyGivenNames x0; refine Keeps.cut (m := 0x806F7) (z := s) (v := x0) ?_ (fun h0 => ?_); rotate_left; clear_value x0; rotate_left; dsimp -zeta only [x0]; clear x0)
    | (extract_lets -descend +onlyGivenNames x0; clear_value x0)
    | lift_lets
    | with_reducible assumption
    | (with_reducible first | apply State.admitRec_keeps | apply State.schedTake_keeps)
    | (with_reducible apply Keeps.ite)
    | split
    | (refine Keeps.snd ?_ (by assumption))
    | exact Sub.of rfl
    | dsimp only

theorem execScheduleRecordReceived_keeps {mk : Nat} {z s : State} (hk : Keeps mk z s) (port : Nat) (rec : Rec) (hm : Sub 0x806F7 mk := by exact Sub.of rfl) :
    KeepsR mk z (execScheduleRecordReceived port rec s) := by
  refine KeepsR.within hk hm ?_
  replace hk : Keeps 0x806F7 s s := .refl _
  unfold execScheduleRecordReceived
  repeat' first
    | with_reducible assumption
    | (with_reducible first | apply KeepsR.present | apply KeepsR.next | exact KeepsR.fault | apply present_keeps | apply State.schedIn_keeps)
    | (with_reducible apply Keeps.ite)
    | split
    | exact Sub.of rfl
    | dsimp only

theorem State.rootSend_keeps {mk : Nat} {z s : State} (hk : Keeps mk z s) (p : List Byte) (hm : Sub 0x80673 mk := by exact Sub.of rfl) :
    Keeps mk z (State.rootSend s p) := by
  refine hk.within hm ?_
  replace hk : Keeps 0x80673 s s := .refl _
  unfold State.rootSend
  repeat' first
    | (extract_lets -descend +onlyGivenNames x0; refine Keeps.cut (m := 0x80673) (z := s) (v := x0) ?_ (fun h0 => ?_); rotate_left; clear_value x0; rotate_left; dsimp -zeta only [x0]; clear x0)
    | (extract_lets -descend +onlyGivenNames x0; clear_value x0)
    | lift_lets
    | with_reducible assumption
    | (with_reducible first | apply State.originateRaw_keeps | apply State.sendMany_keeps | apply State.applySched_keeps | apply State.schedToTray_keeps)
    | split
    | (refine Keeps.snd ?_ (by assumption))
    | exact Sub.of rfl
    | dsimp only

theorem State.mstArm_keeps {mk : Nat} {z s : State} (hk : Keeps mk z s) (hm : Sub 0x80673 mk := by exact Sub.of rfl) :
    Keeps mk z (State.mstArm s) := by
  refine hk.within hm ?_
  replace hk : Keeps 0x80673 s s := .refl _
  unfold State.mstArm
  repeat' first
    | (extract_lets -descend +onlyGivenNames x0; refine Keeps.cut (m := 0x80673) (z := s) (v := x0) ?_ (fun h0 => ?_); rotate_left; clear_value x0; rotate_left; dsimp -zeta only [x0]; clear x0)
    | (extract_lets -descend +onlyGivenNames x0; clear_value x0)
    | lift_lets
    | with_reducible assumption
    | (with_reducible first | apply State.wr_keeps | apply State.irq_keeps | apply State.rootSend_keeps)
    | (with_reducible apply Keeps.ite)
    | split
    | exact Sub.of rfl
    | dsimp only

theorem State.mstAct_keeps {mk : Nat} {z s : State} (hk : Keeps mk z s) (stop : Bool) (hm : Sub 0x80673 mk := by exact Sub.of rfl) :
    Keeps mk z (State.mstAct s stop) := by
  refine hk.within hm ?_
  replace hk : Keeps 0x80673 s s := .refl _
  unfold State.mstAct
  repeat' first
    | (extract_lets -descend +onlyGivenNames x0; refine Keeps.cut (m := 0x80673) (z := s) (v := x0) ?_ (fun h0 => ?_); rotate_left; clear_value x0; rotate_left; dsimp -zeta only [x0]; clear x0)
    | (extract_lets -descend +onlyGivenNames x0; clear_value x0)
    | lift_lets
    | with_reducible assumption
    | with_reducible apply State.rootSend_keeps
    | exact Sub.of rfl
    | dsimp only

theorem State.mstArmWrite_keeps {mk : Nat} {z s : State} (hk : Keeps mk z s) (v : Nat) (hm : Sub 0x80673 mk := by exact Sub.of rfl) :
    Keeps mk z (State.mstArmWrite s v) := by
  refine hk.within hm ?_
  replace hk : Keeps 0x80673 s s := .refl _
  unfold State.mstArmWrite
  repeat' first
    | with_reducible assumption
    | (with_reducible first | apply State.mstArm_keeps | apply State.mstAct_keeps)
    | (with_reducible apply Keeps.ite)
    | split
    | exact Sub.of rfl
    | dsimp only

theorem execMstArm_keeps {mk : Nat} {z s : State} (hk : Keeps mk z s) (a : Acc) (data : Word) (hm : Sub 0x806F7 mk := by exact Sub.of rfl) :
    KeepsR mk z (execMstArm a data s) := by
  refine KeepsR.within hk hm ?_
  replace hk : Keeps 0x806F7 s s := .refl _
  unfold execMstArm
  repeat' first
    | with_reducible intro _
    | with_reducible assumption
    | (with_reducible first | apply KeepsR.present | apply KeepsR.next | exact KeepsR.fault | apply State.guardedWrite_keeps | apply State.mstArmWrite_keeps)
    | exact Sub.of rfl
    | dsimp only

theorem execMstStop_keeps {mk : Nat} {z s : State} (hk : Keeps mk z s) (a : Acc) (data : Word) (hm : Sub 0x806F7 mk := by exact Sub.of rfl) :
    KeepsR mk z (execMstStop a data s) := by
  refine KeepsR.within hk hm ?_
  replace hk : Keeps 0x806F7 s s := .refl _
  unfold execMstStop
  repeat' first
    | with_reducible intro _
    | with_reducible assumption
    | (with_reducible first | apply KeepsR.present | apply KeepsR.next | exact KeepsR.fault | apply State.guardedWrite_keeps | apply State.mstArmWrite_keeps)
    | exact Sub.of rfl
    | dsimp only

theorem execMstRelease_keeps {mk : Nat} {z s : State} (hk : Keeps mk z s) (a : Acc) (data : Word) (hm : Sub 0x806F7 mk := by exact Sub.of rfl) :
    KeepsR mk z (execMstRelease a data s) := by
  refine KeepsR.within hk hm ?_
  replace hk : Keeps 0x806F7 s s := .refl _
  unfold execMstRelease
  repeat' first
    | with_reducible intro _
    | with_reducible assumption
    | (with_reducible first | apply KeepsR.present | apply KeepsR.next | exact KeepsR.fault | apply State.guardedWrite_keeps | apply State.mstArmWrite_keeps)
    | exact Sub.of rfl
    | dsimp only

theorem State.holdEnter_keeps {mk : Nat} {z s : State} (hk : Keeps mk z s) (c : Sched) (t : Nat) (hm : Sub 0x11EE7F7 mk := by exact Sub.of rfl) :
    Keeps mk z (State.holdEnter s c t) := by
  refine hk.within hm ?_
  replace hk : Keeps 0x11EE7F7 s s := .refl _
  unfold State.holdEnter
  repeat' first
    | (extract_lets -descend +onlyGivenNames x0; refine Keeps.cut (m := 0x11EE7F7) (z := s) (v := x0) ?_ (fun h0 => ?_); rotate_left; clear_value x0; rotate_left; dsimp -zeta only [x0]; clear x0)
    | (extract_lets -descend +onlyGivenNames x0; clear_value x0)
    | with_reducible intro _
    | lift_lets
    | with_reducible assumption
    | (with_reducible first | apply State.irq_keeps | apply State.trcHold_keeps | apply State.cmdClose_keeps | apply State.tensorClose_keeps | apply State.modMuster_keeps)
    | (with_reducible refine Keeps.mk0 ?_ ?g; (first | with_reducible assumption | (refine Keeps.snd ?_ (by assumption)) | (refine Keeps.some ?_ (by assumption)) | (with_reducible first | apply State.irq_keeps | apply State.trcHold_keeps | apply State.cmdClose_keeps | apply State.tensorClose_keeps | apply State.modMuster_keeps)); with_reducible case g => exact fun h => Keeps.mk' h)
    | (with_reducible apply Keeps.ite)
    | (with_reducible apply Keeps.foldl)
    | split
    | exact Sub.of rfl
    | dsimp only

theorem State.holdLeave_keeps {mk : Nat} {z s : State} (hk : Keeps mk z s) (hm : Sub 0x11EE7F7 mk := by exact Sub.of rfl) :
    Keeps mk z (State.holdLeave s) := by
  refine hk.within hm ?_
  replace hk : Keeps 0x11EE7F7 s s := .refl _
  unfold State.holdLeave
  repeat' first
    | (extract_lets -descend +onlyGivenNames x0; refine Keeps.cut (m := 0x11EE7F7) (z := s) (v := x0) ?_ (fun h0 => ?_); rotate_left; clear_value x0; rotate_left; dsimp -zeta only [x0]; clear x0)
    | (extract_lets -descend +onlyGivenNames x0; clear_value x0)
    | with_reducible intro _
    | lift_lets
    | with_reducible assumption
    | (with_reducible first | apply State.irq_keeps | apply State.trcRelease_keeps | apply State.holdBackGo_keeps | apply State.modMuster_keeps)
    | (with_reducible refine Keeps.mk0 ?_ ?g; (first | with_reducible assumption | (refine Keeps.snd ?_ (by assumption)) | (refine Keeps.some ?_ (by assumption)) | (with_reducible first | apply State.irq_keeps | apply State.trcRelease_keeps | apply State.holdBackGo_keeps | apply State.modMuster_keeps)); with_reducible case g => exact fun h => Keeps.mk' h)
    | (with_reducible apply Keeps.ite)
    | split
    | exact Sub.of rfl
    | dsimp only

theorem execHoldMaxExpiry_keeps {mk : Nat} {z s : State} (hk : Keeps mk z s) (hm : Sub 0x11EE7F7 mk := by exact Sub.of rfl) :
    KeepsR mk z (execHoldMaxExpiry s) := by
  refine KeepsR.within hk hm ?_
  replace hk : Keeps 0x11EE7F7 s s := .refl _
  unfold execHoldMaxExpiry
  repeat' first
    | with_reducible assumption
    | (with_reducible first | apply KeepsR.present | apply KeepsR.next | exact KeepsR.fault | apply State.holdLeave_keeps)
    | (with_reducible apply Keeps.ite)
    | split
    | exact Sub.of rfl
    | dsimp only

theorem State.takeOver_keeps {mk : Nat} {z s : State} (hk : Keeps mk z s) (t : Nat) (hm : Sub 0x203 mk := by exact Sub.of rfl) :
    Keeps mk z (State.takeOver s t) := by
  refine hk.within hm ?_
  replace hk : Keeps 0x203 s s := .refl _
  unfold State.takeOver
  repeat' first
    | (extract_lets -descend +onlyGivenNames x0; refine Keeps.cut (m := 0x203) (z := s) (v := x0) ?_ (fun h0 => ?_); rotate_left; clear_value x0; rotate_left; dsimp -zeta only [x0]; clear x0)
    | (extract_lets -descend +onlyGivenNames x0; clear_value x0)
    | with_reducible intro _
    | lift_lets
    | with_reducible assumption
    | (with_reducible first | apply State.modMuster_keeps | apply State.mstMissed_keeps)
    | (with_reducible refine Keeps.mk0 ?_ ?g; (first | with_reducible assumption | (refine Keeps.snd ?_ (by assumption)) | (refine Keeps.some ?_ (by assumption)) | (with_reducible first | apply State.modMuster_keeps | apply State.mstMissed_keeps)); with_reducible case g => exact fun h => Keeps.mk' h)
    | (with_reducible apply Keeps.ite)
    | split
    | (refine Keeps.some ?_ (by assumption))
    | exact Sub.of rfl
    | dsimp only

theorem State.schedAct_keeps {mk : Nat} {z s : State} (hk : Keeps mk z s) (hm : Sub 0x11EE7F7 mk := by exact Sub.of rfl) :
    Keeps mk z (State.schedAct s) := by
  refine hk.within hm ?_
  replace hk : Keeps 0x11EE7F7 s s := .refl _
  unfold State.schedAct
  repeat' first
    | (extract_lets -descend +onlyGivenNames x0; refine Keeps.cut (m := 0x11EE7F7) (z := s) (v := x0) ?_ (fun h0 => ?_); rotate_left; clear_value x0; rotate_left; dsimp -zeta only [x0]; clear x0)
    | (extract_lets -descend +onlyGivenNames x0; clear_value x0)
    | with_reducible intro _
    | lift_lets
    | with_reducible assumption
    | (with_reducible first | apply State.modMuster_keeps | apply State.holdLeave_keeps | apply State.takeOver_keeps)
    | (with_reducible refine Keeps.mk0 ?_ ?g; (first | with_reducible assumption | (refine Keeps.snd ?_ (by assumption)) | (refine Keeps.some ?_ (by assumption)) | (with_reducible first | apply State.modMuster_keeps | apply State.holdLeave_keeps | apply State.takeOver_keeps)); with_reducible case g => exact fun h => Keeps.mk' h)
    | (with_reducible apply Keeps.ite)
    | (with_reducible apply Keeps.foldl)
    | split
    | exact Sub.of rfl
    | dsimp only

theorem execScheduleActionTime_keeps {mk : Nat} {z s : State} (hk : Keeps mk z s) (hm : Sub 0x11EE7F7 mk := by exact Sub.of rfl) :
    KeepsR mk z (execScheduleActionTime s) := by
  refine KeepsR.within hk hm ?_
  replace hk : Keeps 0x11EE7F7 s s := .refl _
  unfold execScheduleActionTime
  repeat' first
    | with_reducible assumption
    | (with_reducible first | apply KeepsR.present | apply KeepsR.next | exact KeepsR.fault | apply State.publishDone_keeps | apply State.schedAct_keeps)
    | exact Sub.of rfl
    | dsimp only

theorem execMusterLead_keeps {mk : Nat} {z s : State} (hk : Keeps mk z s) (hm : Sub 0x80200 mk := by exact Sub.of rfl) :
    KeepsR mk z (execMusterLead s) := by
  refine KeepsR.within hk hm ?_
  replace hk : Keeps 0x80200 s s := .refl _
  unfold execMusterLead
  repeat' first
    | (extract_lets -descend +onlyGivenNames x0; refine Keeps.cut (m := 0x80200) (z := s) (v := x0) ?_ (fun h0 => ?_); rotate_left; clear_value x0; rotate_left; dsimp -zeta only [x0]; clear x0)
    | (extract_lets -descend +onlyGivenNames x0; clear_value x0)
    | with_reducible intro _
    | lift_lets
    | with_reducible assumption
    | (with_reducible first | apply KeepsR.present | apply KeepsR.next | exact KeepsR.fault | apply State.hwVote_keeps | apply State.modMuster_keeps)
    | (with_reducible refine Keeps.mk0 ?_ ?g; (first | with_reducible assumption | (refine Keeps.snd ?_ (by assumption)) | (refine Keeps.some ?_ (by assumption)) | (with_reducible first | apply State.hwVote_keeps | apply State.modMuster_keeps)); with_reducible case g => exact fun h => Keeps.mk' h)
    | (with_reducible apply Keeps.ite)
    | split
    | (refine Keeps.some ?_ (by assumption))
    | exact Sub.of rfl
    | dsimp only

theorem State.dropLead_keeps {mk : Nat} {z s : State} (hk : Keeps mk z s) (hm : Sub 0x80200 mk := by exact Sub.of rfl) :
    Keeps mk z (State.dropLead s) := by
  refine hk.within hm ?_
  replace hk : Keeps 0x80200 s s := .refl _
  unfold State.dropLead
  repeat' first
    | with_reducible intro _
    | with_reducible assumption
    | (with_reducible first | apply State.hwVote_keeps | apply State.modMuster_keeps)
    | (with_reducible refine Keeps.mk0 ?_ ?g; (first | with_reducible assumption | (refine Keeps.snd ?_ (by assumption)) | (refine Keeps.some ?_ (by assumption)) | (with_reducible first | apply State.hwVote_keeps | apply State.modMuster_keeps)); with_reducible case g => exact fun h => Keeps.mk' h)
    | (with_reducible apply Keeps.ite)
    | split
    | exact Sub.of rfl
    | dsimp only

theorem State.coreCut_keeps {mk : Nat} {z s : State} (hk : Keeps mk z s) (img : Image) (ctrs : List (Nat × Nat)) (hm : Sub 0x11C37F7 mk := by exact Sub.of rfl) :
    Keeps mk z (State.coreCut s img ctrs) := by
  refine hk.within hm ?_
  replace hk : Keeps 0x11C37F7 s s := .refl _
  unfold State.coreCut
  repeat' first
    | (extract_lets -descend +onlyGivenNames x0; refine Keeps.cut (m := 0x11C37F7) (z := s) (v := x0) ?_ (fun h0 => ?_); rotate_left; clear_value x0; rotate_left; dsimp -zeta only [x0]; clear x0)
    | (extract_lets -descend +onlyGivenNames x0; clear_value x0)
    | with_reducible intro _
    | lift_lets
    | with_reducible assumption
    | (with_reducible first | apply State.planAtCut_keeps | apply State.applyCfg_keeps | apply State.openAtCut_keeps | apply State.takeRules_keeps | apply State.treeCut_keeps | apply State.sdMuster_keeps | apply State.modMuster_keeps)
    | (with_reducible refine Keeps.mk0 ?_ ?g; (first | with_reducible assumption | (refine Keeps.snd ?_ (by assumption)) | (refine Keeps.some ?_ (by assumption)) | (with_reducible first | apply State.planAtCut_keeps | apply State.applyCfg_keeps | apply State.openAtCut_keeps | apply State.takeRules_keeps | apply State.treeCut_keeps | apply State.sdMuster_keeps | apply State.modMuster_keeps)); with_reducible case g => exact fun h => Keeps.mk' h)
    | (with_reducible apply Keeps.ite)
    | split
    | (refine Keeps.some ?_ (by assumption))
    | exact Sub.of rfl
    | dsimp only

theorem State.cutMarkers_keeps {mk : Nat} {z s : State} (hk : Keeps mk z s) (at_ : Nat) (hm : Sub 0x904F7 mk := by exact Sub.of rfl) :
    Keeps mk z (State.cutMarkers s at_).2 := by
  refine hk.within hm ?_
  replace hk : Keeps 0x904F7 s s := .refl _
  unfold State.cutMarkers
  repeat' first
    | (extract_lets -descend +onlyGivenNames x0; refine Keeps.cut (m := 0x904F7) (z := s) (v := x0) ?_ (fun h0 => ?_); rotate_left; clear_value x0; rotate_left; dsimp -zeta only [x0]; clear x0)
    | (extract_lets -descend +onlyGivenNames x0; first
        | ((with_reducible first | have _w : LinkSt := x0 | have _w : TimeSt := x0 | have _w : PowerSt := x0 | have _w : SampSt := x0 | have _w : FwSt := x0 | have _w : AuthSt := x0 | have _w : PulseSt := x0 | have _w : CoreSt := x0); clear _w; dsimp -zeta only [x0]; clear x0)
        | clear_value x0)
    | with_reducible intro _
    | lift_lets
    | with_reducible assumption
    | (with_reducible first | apply KeepsR.present | apply KeepsR.next | exact KeepsR.fault | exact KeepsO.none | apply KeepsO.some | apply State.marker_keeps)
    | (with_reducible refine State.modRegion_keeps ?_ _ _ (fun _ w => w))
    | (with_reducible refine State.modFw_keeps ?_ _ ⟨rfl, rfl⟩)
    | (with_reducible refine State.modAuth_keeps ?_ _ ⟨rfl, rfl⟩)
    | (with_reducible refine Keeps.mk0 ?_ ?g; (first | with_reducible assumption | (refine Keeps.snd ?_ (by assumption)) | (refine Keeps.some ?_ (by assumption)) | (with_reducible first | apply State.marker_keeps)); with_reducible case g => exact fun h => Keeps.mk' h)
    | (with_reducible apply Keeps.ite)
    | (with_reducible apply Keeps.foldl)
    | (with_reducible apply Keeps.foldlSnd)
    | (with_reducible apply Keeps.foldlFst)
    | split
    | (refine Keeps.some ?_ (by assumption))
    | (refine Keeps.snd ?_ (by assumption))
    | exact Sub.of rfl
    | dsimp only

theorem State.cutNow_keeps {mk : Nat} {z s : State} (hk : Keeps mk z s) (c : Sched) (k : Nat) (stepped : Bool) (hm : Sub 0x11FF7F7 mk := by exact Sub.of rfl) :
    Keeps mk z (State.cutNow s c k stepped) := by
  refine hk.within hm ?_
  replace hk : Keeps 0x11FF7F7 s s := .refl _
  unfold State.cutNow
  repeat' first
    | (extract_lets -descend +onlyGivenNames x0; refine Keeps.cut (m := 0x11FF7F7) (z := s) (v := x0) ?_ (fun h0 => ?_); rotate_left; clear_value x0; rotate_left; dsimp -zeta only [x0]; clear x0)
    | (extract_lets -descend +onlyGivenNames x0; clear_value x0)
    | with_reducible intro _
    | lift_lets
    | with_reducible assumption
    | (with_reducible first | apply State.irq_keeps | apply State.modMuster_keeps | apply State.holdEnter_keeps | apply State.coreCut_keeps | apply State.cutMarkers_keeps)
    | (with_reducible refine Keeps.mk0 ?_ ?g; (first | with_reducible assumption | (refine Keeps.snd ?_ (by assumption)) | (refine Keeps.some ?_ (by assumption)) | (with_reducible first | apply State.irq_keeps | apply State.modMuster_keeps | apply State.holdEnter_keeps | apply State.coreCut_keeps | apply State.cutMarkers_keeps)); with_reducible case g => exact fun h => Keeps.mk' h)
    | (with_reducible apply Keeps.ite)
    | split
    | (refine Keeps.some ?_ (by assumption))
    | (refine Keeps.snd ?_ (by assumption))
    | exact Sub.of rfl
    | dsimp only

theorem State.setK_keeps {mk : Nat} {z s : State} (hk : Keeps mk z s) (k : Nat) (hm : Sub 0x200 mk := by exact Sub.of rfl) :
    Keeps mk z (State.setK s k) := by
  refine hk.within hm ?_
  replace hk : Keeps 0x200 s s := .refl _
  unfold State.setK
  repeat' first
    | with_reducible intro _
    | with_reducible assumption
    | with_reducible apply State.modMuster_keeps
    | (with_reducible refine Keeps.mk0 ?_ ?g; (first | with_reducible assumption | (refine Keeps.snd ?_ (by assumption)) | (refine Keeps.some ?_ (by assumption)) | (with_reducible first | apply State.modMuster_keeps)); with_reducible case g => exact fun h => Keeps.mk' h)
    | exact Sub.of rfl
    | dsimp only

theorem State.takeCuts_keeps {mk : Nat} {z s : State} (hk : Keeps mk z s) (upto : Nat) (stepped : Bool) (hm : Sub 0x11FF7F7 mk := by exact Sub.of rfl) :
    Keeps mk z (State.takeCuts s upto stepped) := by
  refine hk.within hm ?_
  replace hk : Keeps 0x11FF7F7 s s := .refl _
  unfold State.takeCuts
  repeat' first
    | (extract_lets -descend +onlyGivenNames x0; refine Keeps.cut (m := 0x11FF7F7) (z := s) (v := x0) ?_ (fun h0 => ?_); rotate_left; clear_value x0; rotate_left; dsimp -zeta only [x0]; clear x0)
    | (extract_lets -descend +onlyGivenNames x0; clear_value x0)
    | lift_lets
    | with_reducible assumption
    | (with_reducible first | apply State.mstMissed_keeps | apply State.dropLead_keeps | apply State.cutNow_keeps | apply State.setK_keeps)
    | (with_reducible apply Keeps.ite)
    | split
    | (refine Keeps.some ?_ (by assumption))
    | exact Sub.of rfl
    | dsimp only

theorem State.musterCut_keeps {mk : Nat} {z s : State} (hk : Keeps mk z s) (hm : Sub 0x11FF7F7 mk := by exact Sub.of rfl) :
    Keeps mk z (State.musterCut s) := by
  refine hk.within hm ?_
  replace hk : Keeps 0x11FF7F7 s s := .refl _
  unfold State.musterCut
  repeat' first
    | (extract_lets -descend +onlyGivenNames x0; refine Keeps.cut (m := 0x11FF7F7) (z := s) (v := x0) ?_ (fun h0 => ?_); rotate_left; clear_value x0; rotate_left; dsimp -zeta only [x0]; clear x0)
    | (extract_lets -descend +onlyGivenNames x0; clear_value x0)
    | with_reducible intro _
    | lift_lets
    | with_reducible assumption
    | (with_reducible first | apply State.modMuster_keeps | apply State.takeOver_keeps | apply State.takeCuts_keeps)
    | (with_reducible refine Keeps.mk0 ?_ ?g; (first | with_reducible assumption | (refine Keeps.snd ?_ (by assumption)) | (refine Keeps.some ?_ (by assumption)) | (with_reducible first | apply State.modMuster_keeps | apply State.takeOver_keeps | apply State.takeCuts_keeps)); with_reducible case g => exact fun h => Keeps.mk' h)
    | (with_reducible apply Keeps.ite)
    | split
    | (refine Keeps.some ?_ (by assumption))
    | exact Sub.of rfl
    | dsimp only

theorem execMusterCut_keeps {mk : Nat} {z s : State} (hk : Keeps mk z s) (hm : Sub 0x11FF7F7 mk := by exact Sub.of rfl) :
    KeepsR mk z (execMusterCut s) := by
  refine KeepsR.within hk hm ?_
  replace hk : Keeps 0x11FF7F7 s s := .refl _
  unfold execMusterCut
  repeat' first
    | with_reducible assumption
    | (with_reducible first | apply KeepsR.present | apply KeepsR.next | exact KeepsR.fault | apply State.publishDone_keeps | apply State.musterCut_keeps)
    | exact Sub.of rfl
    | dsimp only

theorem execMusterLateLatch_keeps {mk : Nat} {z s : State} (hk : Keeps mk z s) (hm : Sub 0x11C37F7 mk := by exact Sub.of rfl) :
    KeepsR mk z (execMusterLateLatch s) := by
  refine KeepsR.within hk hm ?_
  replace hk : Keeps 0x11C37F7 s s := .refl _
  unfold execMusterLateLatch
  repeat' first
    | with_reducible intro _
    | with_reducible assumption
    | (with_reducible first | apply KeepsR.present | apply KeepsR.next | exact KeepsR.fault | apply State.modMuster_keeps | apply State.coreCut_keeps)
    | (with_reducible refine Keeps.mk0 ?_ ?g; (first | with_reducible assumption | (refine Keeps.snd ?_ (by assumption)) | (refine Keeps.some ?_ (by assumption)) | (with_reducible first | apply State.modMuster_keeps | apply State.coreCut_keeps)); with_reducible case g => exact fun h => Keeps.mk' h)
    | (with_reducible apply Keeps.ite)
    | split
    | (refine Keeps.some ?_ (by assumption))
    | exact Sub.of rfl
    | dsimp only

theorem execMusterLateIslandTimeout_keeps {mk : Nat} {z s : State} (hk : Keeps mk z s) (n : Nat) (hm : Sub 0x200 mk := by exact Sub.of rfl) :
    KeepsR mk z (execMusterLateIslandTimeout n s) := by
  refine KeepsR.within hk hm ?_
  replace hk : Keeps 0x200 s s := .refl _
  unfold execMusterLateIslandTimeout
  repeat' first
    | with_reducible intro _
    | with_reducible assumption
    | (with_reducible first | apply KeepsR.present | apply KeepsR.next | exact KeepsR.fault | apply present_keeps | apply State.modMuster_keeps)
    | (with_reducible refine Keeps.mk0 ?_ ?g; (first | with_reducible assumption | (refine Keeps.snd ?_ (by assumption)) | (refine Keeps.some ?_ (by assumption)) | (with_reducible first | apply present_keeps | apply State.modMuster_keeps)); with_reducible case g => exact fun h => Keeps.mk' h)
    | (with_reducible apply Keeps.ite)
    | split
    | (refine Keeps.some ?_ (by assumption))
    | exact Sub.of rfl
    | dsimp only

theorem State.imageComplete_keeps {mk : Nat} {z s : State} (hk : Keeps mk z s) (cb tr tw ck : Nat) (hm : Sub 0x11C2EF7 mk := by exact Sub.of rfl) :
    Keeps mk z (State.imageComplete s cb tr tw ck) := by
  refine hk.within hm ?_
  replace hk : Keeps 0x11C2EF7 s s := .refl _
  unfold State.imageComplete
  repeat' first
    | (extract_lets -descend +onlyGivenNames x0; refine Keeps.cut (m := 0x11C2EF7) (z := s) (v := x0) ?_ (fun h0 => ?_); rotate_left; clear_value x0; rotate_left; dsimp -zeta only [x0]; clear x0)
    | (extract_lets -descend +onlyGivenNames x0; clear_value x0)
    | with_reducible intro _
    | lift_lets
    | with_reducible assumption
    | (with_reducible first | apply State.wr_keeps | apply State.bumpSat_keeps | apply State.irq_keeps | apply State.grant_keeps | apply State.featImage_keeps | apply State.publishDone_keeps | apply State.modMuster_keeps | apply State.dropLead_keeps)
    | (with_reducible refine Keeps.mk0 ?_ ?g; (first | with_reducible assumption | (refine Keeps.snd ?_ (by assumption)) | (refine Keeps.some ?_ (by assumption)) | (with_reducible first | apply State.wr_keeps | apply State.bumpSat_keeps | apply State.irq_keeps | apply State.grant_keeps | apply State.featImage_keeps | apply State.publishDone_keeps | apply State.modMuster_keeps | apply State.dropLead_keeps)); with_reducible case g => exact fun h => Keeps.mk' h)
    | (with_reducible apply Keeps.ite)
    | split
    | (refine Keeps.some ?_ (by assumption))
    | exact Sub.of rfl
    | dsimp only

theorem execMusterImageComplete_keeps {mk : Nat} {z s : State} (hk : Keeps mk z s) (cb tr tw ck : Nat) (hm : Sub 0x11C2EF7 mk := by exact Sub.of rfl) :
    KeepsR mk z (execMusterImageComplete cb tr tw ck s) := by
  refine KeepsR.within hk hm ?_
  replace hk : Keeps 0x11C2EF7 s s := .refl _
  unfold execMusterImageComplete
  repeat' first
    | with_reducible assumption
    | (with_reducible first | apply KeepsR.present | apply KeepsR.next | exact KeepsR.fault | apply State.imageComplete_keeps)
    | exact Sub.of rfl
    | dsimp only

theorem State.recordEmit_keeps {mk : Nat} {z s : State} (hk : Keeps mk z s) (hm : Sub 0x80675 mk := by exact Sub.of rfl) :
    Keeps mk z (State.recordEmit s) := by
  refine hk.within hm ?_
  replace hk : Keeps 0x80675 s s := .refl _
  unfold State.recordEmit
  repeat' first
    | (extract_lets -descend +onlyGivenNames x0; refine Keeps.cut (m := 0x80675) (z := s) (v := x0) ?_ (fun h0 => ?_); rotate_left; clear_value x0; rotate_left; dsimp -zeta only [x0]; clear x0)
    | (extract_lets -descend +onlyGivenNames x0; clear_value x0)
    | with_reducible intro _
    | lift_lets
    | with_reducible assumption
    | (with_reducible first | apply State.emitSample_keeps | apply State.originate_keeps | apply State.modMuster_keeps)
    | (with_reducible refine Keeps.mk0 ?_ ?g; (first | with_reducible assumption | (refine Keeps.snd ?_ (by assumption)) | (refine Keeps.some ?_ (by assumption)) | (with_reducible first | apply State.emitSample_keeps | apply State.originate_keeps | apply State.modMuster_keeps)); with_reducible case g => exact fun h => Keeps.mk' h)
    | (with_reducible apply Keeps.ite)
    | split
    | (refine Keeps.some ?_ (by assumption))
    | (refine Keeps.snd ?_ (by assumption))
    | exact Sub.of rfl
    | dsimp only

theorem execMusterRecordEmit_keeps {mk : Nat} {z s : State} (hk : Keeps mk z s) (hm : Sub 0x80675 mk := by exact Sub.of rfl) :
    KeepsR mk z (execMusterRecordEmit s) := by
  refine KeepsR.within hk hm ?_
  replace hk : Keeps 0x80675 s s := .refl _
  unfold execMusterRecordEmit
  repeat' first
    | with_reducible assumption
    | (with_reducible first | apply KeepsR.present | apply KeepsR.next | exact KeepsR.fault | apply State.recordEmit_keeps)
    | exact Sub.of rfl
    | dsimp only

end Sys2Proof.Machine
end

