-- ==== Sys2Proof/Laws/KeepsHang.lean ====
section
/-! SUPPORT. What the operations of Machine/Hang.lean keep. -/

set_option Elab.async false

namespace Sys2Proof.Machine

theorem State.modHang_keeps {mk : Nat} {z s : State} (hk : Keeps mk z s) (f : HangSt → HangSt) (hm : Sub 0x20000 mk := by exact Sub.of rfl) :
    Keeps mk z (State.modHang s f) := by
  refine hk.within hm ?_
  replace hk : Keeps 0x20000 s s := .refl _
  unfold State.modHang
  repeat' first
    | with_reducible assumption
    | (with_reducible refine Keeps.mk0 ?_ ?g; (first | with_reducible assumption | (refine Keeps.snd ?_ (by assumption)) | (refine Keeps.some ?_ (by assumption))); with_reducible case g => exact fun h => Keeps.mk' h)
    | exact Sub.of rfl
    | dsimp only

theorem State.wsLand_keeps {mk : Nat} {z s : State} (hk : Keeps mk z s) (engine kind target : Nat) (hm : Sub 0x20001 mk := by exact Sub.of rfl) :
    Keeps mk z (State.wsLand s engine kind target) := by
  refine hk.within hm ?_
  replace hk : Keeps 0x20001 s s := .refl _
  unfold State.wsLand
  repeat' first
    | (extract_lets -descend +onlyGivenNames x0; refine Keeps.cut (m := 0x20001) (z := s) (v := x0) ?_ (fun h0 => ?_); rotate_left; clear_value x0; rotate_left; dsimp -zeta only [x0]; clear x0)
    | (extract_lets -descend +onlyGivenNames x0; clear_value x0)
    | with_reducible intro _
    | lift_lets
    | with_reducible assumption
    | (with_reducible first | apply State.bumpSat_keeps | apply State.modHang_keeps)
    | (with_reducible refine Keeps.mk0 ?_ ?g; (first | with_reducible assumption | (refine Keeps.snd ?_ (by assumption)) | (refine Keeps.some ?_ (by assumption)) | (with_reducible first | apply State.bumpSat_keeps | apply State.modHang_keeps)); with_reducible case g => exact fun h => Keeps.mk' h)
    | (with_reducible apply Keeps.ite)
    | split
    | exact Sub.of rfl
    | dsimp only

theorem State.suspectSeen_keeps {mk : Nat} {z s : State} (hk : Keeps mk z s) (own : Bool) (hm : Sub 0x20001 mk := by exact Sub.of rfl) :
    Keeps mk z (State.suspectSeen s own) := by
  refine hk.within hm ?_
  replace hk : Keeps 0x20001 s s := .refl _
  unfold State.suspectSeen
  repeat' first
    | (extract_lets -descend +onlyGivenNames x0; refine Keeps.cut (m := 0x20001) (z := s) (v := x0) ?_ (fun h0 => ?_); rotate_left; clear_value x0; rotate_left; dsimp -zeta only [x0]; clear x0)
    | (extract_lets -descend +onlyGivenNames x0; clear_value x0)
    | with_reducible intro _
    | lift_lets
    | with_reducible assumption
    | (with_reducible first | apply State.bumpSat_keeps | apply State.modHang_keeps)
    | (with_reducible refine Keeps.mk0 ?_ ?g; (first | with_reducible assumption | (refine Keeps.snd ?_ (by assumption)) | (refine Keeps.some ?_ (by assumption)) | (with_reducible first | apply State.bumpSat_keeps | apply State.modHang_keeps)); with_reducible case g => exact fun h => Keeps.mk' h)
    | (with_reducible apply Keeps.ite)
    | split
    | (refine Keeps.some ?_ (by assumption))
    | exact Sub.of rfl
    | dsimp only

theorem State.hangCheck_keeps {mk : Nat} {z s : State} (hk : Keeps mk z s) (hm : Sub 0xA04F7 mk := by exact Sub.of rfl) :
    Keeps mk z (State.hangCheck s) := by
  refine hk.within hm ?_
  replace hk : Keeps 0xA04F7 s s := .refl _
  unfold State.hangCheck
  repeat' first
    | (extract_lets -descend +onlyGivenNames x0; refine Keeps.cut (m := 0xA04F7) (z := s) (v := x0) ?_ (fun h0 => ?_); rotate_left; clear_value x0; rotate_left; dsimp -zeta only [x0]; clear x0)
    | (extract_lets -descend +onlyGivenNames x0; clear_value x0)
    | with_reducible intro _
    | lift_lets
    | with_reducible assumption
    | (with_reducible first | apply State.bumpSat_keeps | apply State.irq_keeps | apply State.event_keeps | apply State.modHang_keeps | apply State.suspectSeen_keeps)
    | (with_reducible refine Keeps.mk0 ?_ ?g; (first | with_reducible assumption | (refine Keeps.snd ?_ (by assumption)) | (refine Keeps.some ?_ (by assumption)) | (with_reducible first | apply State.bumpSat_keeps | apply State.irq_keeps | apply State.event_keeps | apply State.modHang_keeps | apply State.suspectSeen_keeps)); with_reducible case g => exact fun h => Keeps.mk' h)
    | (with_reducible apply Keeps.ite)
    | split
    | exact Sub.of rfl
    | dsimp only

theorem execHangWatchCheck_keeps {mk : Nat} {z s : State} (hk : Keeps mk z s) (hm : Sub 0xA04F7 mk := by exact Sub.of rfl) :
    KeepsR mk z (execHangWatchCheck s) := by
  refine KeepsR.within hk hm ?_
  replace hk : Keeps 0xA04F7 s s := .refl _
  unfold execHangWatchCheck
  repeat' first
    | with_reducible assumption
    | (with_reducible first | apply KeepsR.present | apply KeepsR.next | exact KeepsR.fault | apply present_keeps | apply State.hangCheck_keeps)
    | exact Sub.of rfl
    | dsimp only

theorem State.snapLatch_keeps {mk : Nat} {z s : State} (hk : Keeps mk z s) (hm : Sub 0xA0475 mk := by exact Sub.of rfl) :
    Keeps mk z (State.snapLatch s) := by
  refine hk.within hm ?_
  replace hk : Keeps 0xA0475 s s := .refl _
  unfold State.snapLatch
  repeat' first
    | (extract_lets -descend +onlyGivenNames x0; refine Keeps.cut (m := 0xA0475) (z := s) (v := x0) ?_ (fun h0 => ?_); rotate_left; clear_value x0; rotate_left; dsimp -zeta only [x0]; clear x0)
    | (extract_lets -descend +onlyGivenNames x0; clear_value x0)
    | with_reducible intro _
    | lift_lets
    | with_reducible assumption
    | (with_reducible first | apply State.emitUp_keeps | apply State.originate_keeps | apply State.modHang_keeps)
    | (with_reducible refine Keeps.mk0 ?_ ?g; (first | with_reducible assumption | (refine Keeps.snd ?_ (by assumption)) | (refine Keeps.some ?_ (by assumption)) | (with_reducible first | apply State.emitUp_keeps | apply State.originate_keeps | apply State.modHang_keeps)); with_reducible case g => exact fun h => Keeps.mk' h)
    | (with_reducible apply Keeps.ite)
    | split
    | (refine Keeps.some ?_ (by assumption))
    | (refine Keeps.snd ?_ (by assumption))
    | exact Sub.of rfl
    | dsimp only

theorem execSnapshotLatch_keeps {mk : Nat} {z s : State} (hk : Keeps mk z s) (hm : Sub 0xA0475 mk := by exact Sub.of rfl) :
    KeepsR mk z (execSnapshotLatch s) := by
  refine KeepsR.within hk hm ?_
  replace hk : Keeps 0xA0475 s s := .refl _
  unfold execSnapshotLatch
  repeat' first
    | with_reducible assumption
    | (with_reducible first | apply KeepsR.present | apply KeepsR.next | exact KeepsR.fault | apply present_keeps | apply State.snapLatch_keeps)
    | exact Sub.of rfl
    | dsimp only

theorem State.snapTake_keeps {mk : Nat} {z s : State} (hk : Keeps mk z s) (r : Rec) (hm : Sub 0x20440 mk := by exact Sub.of rfl) :
    Keeps mk z (State.snapTake s r) := by
  refine hk.within hm ?_
  replace hk : Keeps 0x20440 s s := .refl _
  unfold State.snapTake
  repeat' first
    | (extract_lets -descend +onlyGivenNames x0; refine Keeps.cut (m := 0x20440) (z := s) (v := x0) ?_ (fun h0 => ?_); rotate_left; clear_value x0; rotate_left; dsimp -zeta only [x0]; clear x0)
    | (extract_lets -descend +onlyGivenNames x0; clear_value x0)
    | with_reducible intro _
    | lift_lets
    | with_reducible assumption
    | (with_reducible first | apply State.consume_keeps | apply State.modHang_keeps)
    | (with_reducible refine Keeps.mk0 ?_ ?g; (first | with_reducible assumption | (refine Keeps.snd ?_ (by assumption)) | (refine Keeps.some ?_ (by assumption)) | (with_reducible first | apply State.consume_keeps | apply State.modHang_keeps)); with_reducible case g => exact fun h => Keeps.mk' h)
    | split
    | (refine Keeps.some ?_ (by assumption))
    | exact Sub.of rfl
    | dsimp only

theorem State.snapRequest_keeps {mk : Nat} {z s : State} (hk : Keeps mk z s) (port : Nat) (r : Rec) (hm : Sub 0xA04F7 mk := by exact Sub.of rfl) :
    Keeps mk z (State.snapRequest s port r) := by
  refine hk.within hm ?_
  replace hk : Keeps 0xA04F7 s s := .refl _
  unfold State.snapRequest
  repeat' first
    | (extract_lets -descend +onlyGivenNames x0; refine Keeps.cut (m := 0xA04F7) (z := s) (v := x0) ?_ (fun h0 => ?_); rotate_left; clear_value x0; rotate_left; dsimp -zeta only [x0]; clear x0)
    | (extract_lets -descend +onlyGivenNames x0; clear_value x0)
    | lift_lets
    | with_reducible assumption
    | (with_reducible first | apply State.admitRec_keeps | apply State.snapTake_keeps)
    | (with_reducible apply Keeps.ite)
    | split
    | (refine Keeps.snd ?_ (by assumption))
    | exact Sub.of rfl
    | dsimp only

theorem execSnapshotRequestReceived_keeps {mk : Nat} {z s : State} (hk : Keeps mk z s) (port : Nat) (rec : Rec) (hm : Sub 0xA04F7 mk := by exact Sub.of rfl) :
    KeepsR mk z (execSnapshotRequestReceived port rec s) := by
  refine KeepsR.within hk hm ?_
  replace hk : Keeps 0xA04F7 s s := .refl _
  unfold execSnapshotRequestReceived
  repeat' first
    | with_reducible assumption
    | (with_reducible first | apply KeepsR.present | apply KeepsR.next | exact KeepsR.fault | apply present_keeps | apply State.snapRequest_keeps)
    | (with_reducible apply Keeps.ite)
    | split
    | exact Sub.of rfl
    | dsimp only

theorem State.asmStart_keeps {mk : Nat} {z s : State} (hk : Keeps mk z s) (hm : Sub 0xA0471 mk := by exact Sub.of rfl) :
    Keeps mk z (State.asmStart s) := by
  refine hk.within hm ?_
  replace hk : Keeps 0xA0471 s s := .refl _
  unfold State.asmStart
  repeat' first
    | (extract_lets -descend +onlyGivenNames x0; refine Keeps.cut (m := 0xA0471) (z := s) (v := x0) ?_ (fun h0 => ?_); rotate_left; clear_value x0; rotate_left; dsimp -zeta only [x0]; clear x0)
    | (extract_lets -descend +onlyGivenNames x0; clear_value x0)
    | with_reducible intro _
    | lift_lets
    | with_reducible assumption
    | (with_reducible first | apply State.sendLocal_keeps | apply State.modHang_keeps)
    | (with_reducible refine Keeps.mk0 ?_ ?g; (first | with_reducible assumption | (refine Keeps.snd ?_ (by assumption)) | (refine Keeps.some ?_ (by assumption)) | (with_reducible first | apply State.sendLocal_keeps | apply State.modHang_keeps)); with_reducible case g => exact fun h => Keeps.mk' h)
    | (with_reducible apply Keeps.ite)
    | (with_reducible apply Keeps.foldl)
    | split
    | (refine Keeps.some ?_ (by assumption))
    | exact Sub.of rfl
    | dsimp only

theorem execPackageAssemblyStart_keeps {mk : Nat} {z s : State} (hk : Keeps mk z s) (hm : Sub 0xA0471 mk := by exact Sub.of rfl) :
    KeepsR mk z (execPackageAssemblyStart s) := by
  refine KeepsR.within hk hm ?_
  replace hk : Keeps 0xA0471 s s := .refl _
  unfold execPackageAssemblyStart
  repeat' first
    | with_reducible assumption
    | (with_reducible first | apply KeepsR.present | apply KeepsR.next | exact KeepsR.fault | apply present_keeps | apply State.asmStart_keeps)
    | exact Sub.of rfl
    | dsimp only

theorem State.snapRecord_keeps {mk : Nat} {z s : State} (hk : Keeps mk z s) (r : Rec) (hm : Sub 0x30443 mk := by exact Sub.of rfl) :
    Keeps mk z (State.snapRecord s r) := by
  refine hk.within hm ?_
  replace hk : Keeps 0x30443 s s := .refl _
  unfold State.snapRecord
  repeat' first
    | (extract_lets -descend +onlyGivenNames x0; refine Keeps.cut (m := 0x30443) (z := s) (v := x0) ?_ (fun h0 => ?_); rotate_left; clear_value x0; rotate_left; dsimp -zeta only [x0]; clear x0)
    | (extract_lets -descend +onlyGivenNames x0; clear_value x0)
    | with_reducible intro _
    | lift_lets
    | with_reducible assumption
    | (with_reducible first | apply State.consumeOpen_keeps | apply State.modHang_keeps)
    | (with_reducible refine Keeps.mk0 ?_ ?g; (first | with_reducible assumption | (refine Keeps.snd ?_ (by assumption)) | (refine Keeps.some ?_ (by assumption)) | (with_reducible first | apply State.consumeOpen_keeps | apply State.modHang_keeps)); with_reducible case g => exact fun h => Keeps.mk' h)
    | (with_reducible apply Keeps.ite)
    | split
    | (refine Keeps.some ?_ (by assumption))
    | exact Sub.of rfl
    | dsimp only

theorem State.cycleRec_keeps {mk : Nat} {z s : State} (hk : Keeps mk z s) (num : Nat) (truncated : Bool) (c : List Nat) (hm : Sub 0x80477 mk := by exact Sub.of rfl) :
    Keeps mk z (State.cycleRec s num truncated c) := by
  refine hk.within hm ?_
  replace hk : Keeps 0x80477 s s := .refl _
  unfold State.cycleRec
  repeat' first
    | (extract_lets -descend +onlyGivenNames x0; refine Keeps.cut (m := 0x80477) (z := s) (v := x0) ?_ (fun h0 => ?_); rotate_left; clear_value x0; rotate_left; dsimp -zeta only [x0]; clear x0)
    | (extract_lets -descend +onlyGivenNames x0; clear_value x0)
    | lift_lets
    | with_reducible assumption
    | (with_reducible first | apply State.bumpSat_keeps | apply State.irq_keeps | apply State.emitUp_keeps | apply State.originate_keeps)
    | split
    | (refine Keeps.snd ?_ (by assumption))
    | exact Sub.of rfl
    | dsimp only

theorem State.asmAbandon_keeps {mk : Nat} {z s : State} (hk : Keeps mk z s) (hm : Sub 0x20000 mk := by exact Sub.of rfl) :
    Keeps mk z (State.asmAbandon s) := by
  refine hk.within hm ?_
  replace hk : Keeps 0x20000 s s := .refl _
  unfold State.asmAbandon
  repeat' first
    | with_reducible intro _
    | with_reducible assumption
    | with_reducible apply State.modHang_keeps
    | (with_reducible refine Keeps.mk0 ?_ ?g; (first | with_reducible assumption | (refine Keeps.snd ?_ (by assumption)) | (refine Keeps.some ?_ (by assumption)) | (with_reducible first | apply State.modHang_keeps)); with_reducible case g => exact fun h => Keeps.mk' h)
    | (with_reducible apply Keeps.ite)
    | split
    | (refine Keeps.some ?_ (by assumption))
    | exact Sub.of rfl
    | dsimp only

theorem State.graphSend_keeps {mk : Nat} {z s : State} (hk : Keeps mk z s) (hm : Sub 0x1A0477 mk := by exact Sub.of rfl) :
    Keeps mk z (State.graphSend s) := by
  refine hk.within hm ?_
  replace hk : Keeps 0x1A0477 s s := .refl _
  unfold State.graphSend
  repeat' first
    | (extract_lets -descend +onlyGivenNames x0; refine Keeps.cut (m := 0x1A0477) (z := s) (v := x0) ?_ (fun h0 => ?_); rotate_left; clear_value x0; rotate_left; dsimp -zeta only [x0]; clear x0)
    | (extract_lets -descend +onlyGivenNames x0; clear_value x0)
    | with_reducible intro _
    | lift_lets
    | with_reducible assumption
    | (with_reducible first | apply State.wr_keeps | apply State.irq_keeps | apply State.emitUp_keeps | apply State.originate_keeps | apply State.grant_keeps | apply State.modHang_keeps | apply State.cycleRec_keeps)
    | (with_reducible refine Keeps.mk0 ?_ ?g; (first | with_reducible assumption | (refine Keeps.snd ?_ (by assumption)) | (refine Keeps.some ?_ (by assumption)) | (with_reducible first | apply State.wr_keeps | apply State.irq_keeps | apply State.emitUp_keeps | apply State.originate_keeps | apply State.grant_keeps | apply State.modHang_keeps | apply State.cycleRec_keeps)); with_reducible case g => exact fun h => Keeps.mk' h)
    | (with_reducible apply Keeps.ite)
    | (with_reducible apply Keeps.foldl)
    | (with_reducible apply Keeps.foldlSnd)
    | split
    | (refine Keeps.some ?_ (by assumption))
    | (refine Keeps.snd ?_ (by assumption))
    | exact Sub.of rfl
    | dsimp only

theorem execPackageGraphSend_keeps {mk : Nat} {z s : State} (hk : Keeps mk z s) (hm : Sub 0x1A0477 mk := by exact Sub.of rfl) :
    KeepsR mk z (execPackageGraphSend s) := by
  refine KeepsR.within hk hm ?_
  replace hk : Keeps 0x1A0477 s s := .refl _
  unfold execPackageGraphSend
  repeat' first
    | with_reducible assumption
    | (with_reducible first | apply KeepsR.present | apply KeepsR.next | exact KeepsR.fault | apply present_keeps | apply State.graphSend_keeps)
    | exact Sub.of rfl
    | dsimp only

theorem State.graphIn_keeps {mk : Nat} {z s : State} (hk : Keeps mk z s) (r : Rec) (hm : Sub 0xB0473 mk := by exact Sub.of rfl) :
    Keeps mk z (State.graphIn s r) := by
  refine hk.within hm ?_
  replace hk : Keeps 0xB0473 s s := .refl _
  unfold State.graphIn
  repeat' first
    | (extract_lets -descend +onlyGivenNames x0; refine Keeps.cut (m := 0xB0473) (z := s) (v := x0) ?_ (fun h0 => ?_); rotate_left; clear_value x0; rotate_left; dsimp -zeta only [x0]; clear x0)
    | (extract_lets -descend +onlyGivenNames x0; clear_value x0)
    | with_reducible intro _
    | lift_lets
    | with_reducible assumption
    | (with_reducible first | apply State.wr_keeps | apply State.sendLocal_keeps | apply State.consumeOpen_keeps | apply State.modHang_keeps)
    | (with_reducible refine Keeps.mk0 ?_ ?g; (first | with_reducible assumption | (refine Keeps.snd ?_ (by assumption)) | (refine Keeps.some ?_ (by assumption)) | (with_reducible first | apply State.wr_keeps | apply State.sendLocal_keeps | apply State.consumeOpen_keeps | apply State.modHang_keeps)); with_reducible case g => exact fun h => Keeps.mk' h)
    | (with_reducible apply Keeps.ite)
    | (with_reducible apply Keeps.foldl)
    | split
    | (refine Keeps.some ?_ (by assumption))
    | exact Sub.of rfl
    | dsimp only

theorem State.mergeClose_keeps {mk : Nat} {z s : State} (hk : Keeps mk z s) (hm : Sub 0x1A0477 mk := by exact Sub.of rfl) :
    Keeps mk z (State.mergeClose s) := by
  refine hk.within hm ?_
  replace hk : Keeps 0x1A0477 s s := .refl _
  unfold State.mergeClose
  repeat' first
    | (extract_lets -descend +onlyGivenNames x0; refine Keeps.cut (m := 0x1A0477) (z := s) (v := x0) ?_ (fun h0 => ?_); rotate_left; clear_value x0; rotate_left; dsimp -zeta only [x0]; clear x0)
    | (extract_lets -descend +onlyGivenNames x0; clear_value x0)
    | with_reducible intro _
    | lift_lets
    | with_reducible assumption
    | (with_reducible first | apply State.wr_keeps | apply State.bumpSat_keeps | apply State.irq_keeps | apply State.emitUp_keeps | apply State.originate_keeps | apply State.grant_keeps | apply State.modHang_keeps | apply State.cycleRec_keeps)
    | (with_reducible refine Keeps.mk0 ?_ ?g; (first | with_reducible assumption | (refine Keeps.snd ?_ (by assumption)) | (refine Keeps.some ?_ (by assumption)) | (with_reducible first | apply State.wr_keeps | apply State.bumpSat_keeps | apply State.irq_keeps | apply State.emitUp_keeps | apply State.originate_keeps | apply State.grant_keeps | apply State.modHang_keeps | apply State.cycleRec_keeps)); with_reducible case g => exact fun h => Keeps.mk' h)
    | (with_reducible apply Keeps.ite)
    | (with_reducible apply Keeps.foldl)
    | (with_reducible apply Keeps.foldlSnd)
    | split
    | (refine Keeps.some ?_ (by assumption))
    | (refine Keeps.snd ?_ (by assumption))
    | exact Sub.of rfl
    | dsimp only

theorem execTrayMergeClose_keeps {mk : Nat} {z s : State} (hk : Keeps mk z s) (hm : Sub 0x1A0477 mk := by exact Sub.of rfl) :
    KeepsR mk z (execTrayMergeClose s) := by
  refine KeepsR.within hk hm ?_
  replace hk : Keeps 0x1A0477 s s := .refl _
  unfold execTrayMergeClose
  repeat' first
    | with_reducible assumption
    | (with_reducible first | apply KeepsR.present | apply KeepsR.next | exact KeepsR.fault | apply present_keeps | apply State.mergeClose_keeps)
    | exact Sub.of rfl
    | dsimp only

end Sys2Proof.Machine
end

