-- ==== Sys2Proof/Laws/KeepsRalud.lean ====
section
/-! SUPPORT. What the operations of Machine/Ralud.lean keep. -/

set_option Elab.async false

namespace Sys2Proof.Machine

theorem State.laneStart_keeps {mk : Nat} {z s : State} (hk : Keeps mk z s) (p : Nat) (hm : Sub 0x4D020 mk := by exact Sub.of rfl) :
    Keeps mk z (State.laneStart s p) := by
  refine hk.within hm ?_
  replace hk : Keeps 0x4D020 s s := .refl _
  unfold State.laneStart
  repeat' first
    | with_reducible intro _
    | with_reducible assumption
    | (with_reducible first | apply State.modPort_keeps | apply State.trainStart_keeps)
    | (with_reducible refine Keeps.mk0 ?_ ?g; (first | with_reducible assumption | (refine Keeps.snd ?_ (by assumption)) | (refine Keeps.some ?_ (by assumption)) | (with_reducible first | apply State.modPort_keeps | apply State.trainStart_keeps)); with_reducible case g => exact fun h => Keeps.mk' h)
    | (with_reducible apply Keeps.ite)
    | split
    | exact Sub.of rfl
    | dsimp only

theorem State.laneRetrain_keeps {mk : Nat} {z s : State} (hk : Keeps mk z s) (p : Nat) (hm : Sub 0x11EF5F7 mk := by exact Sub.of rfl) :
    Keeps mk z (State.laneRetrain s p) := by
  refine hk.within hm ?_
  replace hk : Keeps 0x11EF5F7 s s := .refl _
  unfold State.laneRetrain
  repeat' first
    | (extract_lets -descend +onlyGivenNames x0; refine Keeps.cut (m := 0x11EF5F7) (z := s) (v := x0) ?_ (fun h0 => ?_); rotate_left; clear_value x0; rotate_left; dsimp -zeta only [x0]; clear x0)
    | (extract_lets -descend +onlyGivenNames x0; clear_value x0)
    | with_reducible intro _
    | lift_lets
    | with_reducible assumption
    | (with_reducible first | apply State.modPort_keeps | apply State.portIrq_keeps | apply State.linkDown_keeps | apply State.laneStart_keeps)
    | (with_reducible refine Keeps.mk0 ?_ ?g; (first | with_reducible assumption | (refine Keeps.snd ?_ (by assumption)) | (refine Keeps.some ?_ (by assumption)) | (with_reducible first | apply State.modPort_keeps | apply State.portIrq_keeps | apply State.linkDown_keeps | apply State.laneStart_keeps)); with_reducible case g => exact fun h => Keeps.mk' h)
    | (with_reducible apply Keeps.ite)
    | split
    | exact Sub.of rfl
    | dsimp only

theorem execLaneTrainingStart_keeps {mk : Nat} {z s : State} (hk : Keeps mk z s) (port : Nat) (hm : Sub 0x11EF5F7 mk := by exact Sub.of rfl) :
    KeepsR mk z (execLaneTrainingStart port s) := by
  refine KeepsR.within hk hm ?_
  replace hk : Keeps 0x11EF5F7 s s := .refl _
  unfold execLaneTrainingStart
  repeat' first
    | with_reducible assumption
    | (with_reducible first | apply KeepsR.present | apply KeepsR.next | exact KeepsR.fault | apply present_keeps | apply State.laneStart_keeps | apply State.laneRetrain_keeps)
    | (with_reducible apply Keeps.ite)
    | split
    | exact Sub.of rfl
    | dsimp only

theorem State.codewordLock_keeps {mk : Nat} {z s : State} (hk : Keeps mk z s) (p src : Nat) (hm : Sub 0x804F7 mk := by exact Sub.of rfl) :
    Keeps mk z (State.codewordLock s p src) := by
  refine hk.within hm ?_
  replace hk : Keeps 0x804F7 s s := .refl _
  unfold State.codewordLock
  repeat' first
    | (extract_lets -descend +onlyGivenNames x0; refine Keeps.cut (m := 0x804F7) (z := s) (v := x0) ?_ (fun h0 => ?_); rotate_left; clear_value x0; rotate_left; dsimp -zeta only [x0]; clear x0)
    | (extract_lets -descend +onlyGivenNames x0; first
        | ((with_reducible first | have _w : LinkSt := x0 | have _w : TimeSt := x0 | have _w : PowerSt := x0 | have _w : SampSt := x0 | have _w : FwSt := x0 | have _w : AuthSt := x0 | have _w : PulseSt := x0 | have _w : CoreSt := x0); clear _w; dsimp -zeta only [x0]; clear x0)
        | clear_value x0)
    | with_reducible intro _
    | lift_lets
    | with_reducible assumption
    | (with_reducible first | apply KeepsR.present | apply KeepsR.next | exact KeepsR.fault | exact KeepsO.none | apply KeepsO.some | apply State.modPort_keeps | apply State.discAnswer_keeps)
    | (with_reducible refine State.modRegion_keeps ?_ _ _ (fun _ w => w))
    | (with_reducible refine State.modFw_keeps ?_ _ ⟨rfl, rfl⟩)
    | (with_reducible refine State.modAuth_keeps ?_ _ ⟨rfl, rfl⟩)
    | (with_reducible refine Keeps.mk0 ?_ ?g; (first | with_reducible assumption | (refine Keeps.snd ?_ (by assumption)) | (refine Keeps.some ?_ (by assumption)) | (with_reducible first | apply State.modPort_keeps | apply State.discAnswer_keeps)); with_reducible case g => exact fun h => Keeps.mk' h)
    | (with_reducible apply Keeps.ite)
    | (with_reducible apply Keeps.foldl)
    | (with_reducible apply Keeps.foldlSnd)
    | (with_reducible apply Keeps.foldlFst)
    | split
    | (refine Keeps.some ?_ (by assumption))
    | (refine Keeps.snd ?_ (by assumption))
    | exact Sub.of rfl
    | dsimp only

theorem execCodewordLock_keeps {mk : Nat} {z s : State} (hk : Keeps mk z s) (port src : Nat) (hm : Sub 0x804F7 mk := by exact Sub.of rfl) :
    KeepsR mk z (execCodewordLock port src s) := by
  refine KeepsR.within hk hm ?_
  replace hk : Keeps 0x804F7 s s := .refl _
  unfold execCodewordLock
  repeat' first
    | with_reducible assumption
    | (with_reducible first | apply KeepsR.present | apply KeepsR.next | exact KeepsR.fault | apply present_keeps | apply State.codewordLock_keeps)
    | exact Sub.of rfl
    | dsimp only

theorem execMarkerLoss_keeps {mk : Nat} {z s : State} (hk : Keeps mk z s) (port : Nat) (hm : Sub 0x11EF5F7 mk := by exact Sub.of rfl) :
    KeepsR mk z (execMarkerLoss port s) := by
  refine KeepsR.within hk hm ?_
  replace hk : Keeps 0x11EF5F7 s s := .refl _
  unfold execMarkerLoss
  repeat' first
    | with_reducible assumption
    | (with_reducible first | apply KeepsR.present | apply KeepsR.next | exact KeepsR.fault | apply present_keeps | apply State.laneRetrain_keeps)
    | (with_reducible apply Keeps.ite)
    | split
    | exact Sub.of rfl
    | dsimp only

theorem State.uncorrectable_keeps {mk : Nat} {z s : State} (hk : Keeps mk z s) (p : Nat) (hm : Sub 0x11EF5F7 mk := by exact Sub.of rfl) :
    Keeps mk z (State.uncorrectable s p) := by
  refine hk.within hm ?_
  replace hk : Keeps 0x11EF5F7 s s := .refl _
  unfold State.uncorrectable
  repeat' first
    | (extract_lets -descend +onlyGivenNames x0; refine Keeps.cut (m := 0x11EF5F7) (z := s) (v := x0) ?_ (fun h0 => ?_); rotate_left; clear_value x0; rotate_left; dsimp -zeta only [x0]; clear x0)
    | (extract_lets -descend +onlyGivenNames x0; clear_value x0)
    | with_reducible intro _
    | lift_lets
    | with_reducible assumption
    | (with_reducible first | apply State.modPort_keeps | apply State.censusSkip_keeps | apply State.rlBump_keeps | apply State.laneRetrain_keeps)
    | (with_reducible refine Keeps.mk0 ?_ ?g; (first | with_reducible assumption | (refine Keeps.snd ?_ (by assumption)) | (refine Keeps.some ?_ (by assumption)) | (with_reducible first | apply State.modPort_keeps | apply State.censusSkip_keeps | apply State.rlBump_keeps | apply State.laneRetrain_keeps)); with_reducible case g => exact fun h => Keeps.mk' h)
    | (with_reducible apply Keeps.ite)
    | split
    | exact Sub.of rfl
    | dsimp only

theorem execFecUncorrectable_keeps {mk : Nat} {z s : State} (hk : Keeps mk z s) (port : Nat) (hm : Sub 0x11EF5F7 mk := by exact Sub.of rfl) :
    KeepsR mk z (execFecUncorrectable port s) := by
  refine KeepsR.within hk hm ?_
  replace hk : Keeps 0x11EF5F7 s s := .refl _
  unfold execFecUncorrectable
  repeat' first
    | with_reducible assumption
    | (with_reducible first | apply KeepsR.present | apply KeepsR.next | exact KeepsR.fault | apply present_keeps | apply State.uncorrectable_keeps)
    | (with_reducible apply Keeps.ite)
    | split
    | exact Sub.of rfl
    | dsimp only

theorem execReplayReceived_keeps {mk : Nat} {z s : State} (hk : Keeps mk z s) (port : Nat) (entries : List (Nat × Nat)) (hm : Sub 0x2021 mk := by exact Sub.of rfl) :
    KeepsR mk z (execReplayReceived port entries s) := by
  refine KeepsR.within hk hm ?_
  replace hk : Keeps 0x2021 s s := .refl _
  unfold execReplayReceived
  repeat' first
    | with_reducible intro _
    | with_reducible assumption
    | (with_reducible first | apply KeepsR.present | apply KeepsR.next | exact KeepsR.fault | apply present_keeps | apply State.modPort_keeps | apply State.censusSkip_keeps)
    | (with_reducible refine Keeps.mk0 ?_ ?g; (first | with_reducible assumption | (refine Keeps.snd ?_ (by assumption)) | (refine Keeps.some ?_ (by assumption)) | (with_reducible first | apply present_keeps | apply State.modPort_keeps | apply State.censusSkip_keeps)); with_reducible case g => exact fun h => Keeps.mk' h)
    | (with_reducible apply Keeps.ite)
    | split
    | exact Sub.of rfl
    | dsimp only

theorem State.degradeCheck_keeps {mk : Nat} {z s : State} (hk : Keeps mk z s) (p codewords corrected symbols : Nat) (hm : Sub 0x804F7 mk := by exact Sub.of rfl) :
    Keeps mk z (State.degradeCheck s p codewords corrected symbols) := by
  refine hk.within hm ?_
  replace hk : Keeps 0x804F7 s s := .refl _
  unfold State.degradeCheck
  repeat' first
    | (extract_lets -descend +onlyGivenNames x0; refine Keeps.cut (m := 0x804F7) (z := s) (v := x0) ?_ (fun h0 => ?_); rotate_left; clear_value x0; rotate_left; dsimp -zeta only [x0]; clear x0)
    | (extract_lets -descend +onlyGivenNames x0; clear_value x0)
    | with_reducible intro _
    | lift_lets
    | with_reducible assumption
    | (with_reducible first | apply State.pwr_keeps | apply State.pbump_keeps | apply State.modPort_keeps | apply State.event_keeps | apply State.portIrq_keeps)
    | (with_reducible refine Keeps.mk0 ?_ ?g; (first | with_reducible assumption | (refine Keeps.snd ?_ (by assumption)) | (refine Keeps.some ?_ (by assumption)) | (with_reducible first | apply State.pwr_keeps | apply State.pbump_keeps | apply State.modPort_keeps | apply State.event_keeps | apply State.portIrq_keeps)); with_reducible case g => exact fun h => Keeps.mk' h)
    | (with_reducible apply Keeps.ite)
    | split
    | exact Sub.of rfl
    | dsimp only

theorem execLaneDegradeCheck_keeps {mk : Nat} {z s : State} (hk : Keeps mk z s) (port codewords corrected symbols : Nat) (hm : Sub 0x804F7 mk := by exact Sub.of rfl) :
    KeepsR mk z (execLaneDegradeCheck port codewords corrected symbols s) := by
  refine KeepsR.within hk hm ?_
  replace hk : Keeps 0x804F7 s s := .refl _
  unfold execLaneDegradeCheck
  repeat' first
    | with_reducible assumption
    | (with_reducible first | apply KeepsR.present | apply KeepsR.next | exact KeepsR.fault | apply present_keeps | apply State.degradeCheck_keeps)
    | (with_reducible apply Keeps.ite)
    | split
    | exact Sub.of rfl
    | dsimp only

theorem State.laneCtrl_keeps {mk : Nat} {z s : State} (hk : Keeps mk z s) (p v : Nat) (hm : Sub 0x11EF5F7 mk := by exact Sub.of rfl) :
    Keeps mk z (State.laneCtrl s p v) := by
  refine hk.within hm ?_
  replace hk : Keeps 0x11EF5F7 s s := .refl _
  unfold State.laneCtrl
  repeat' first
    | (extract_lets -descend +onlyGivenNames x0; refine Keeps.cut (m := 0x11EF5F7) (z := s) (v := x0) ?_ (fun h0 => ?_); rotate_left; clear_value x0; rotate_left; dsimp -zeta only [x0]; clear x0)
    | (extract_lets -descend +onlyGivenNames x0; clear_value x0)
    | with_reducible intro _
    | lift_lets
    | with_reducible assumption
    | (with_reducible first | apply State.modPort_keeps | apply State.laneRetrain_keeps)
    | (with_reducible refine Keeps.mk0 ?_ ?g; (first | with_reducible assumption | (refine Keeps.snd ?_ (by assumption)) | (refine Keeps.some ?_ (by assumption)) | (with_reducible first | apply State.modPort_keeps | apply State.laneRetrain_keeps)); with_reducible case g => exact fun h => Keeps.mk' h)
    | (with_reducible apply Keeps.ite)
    | split
    | exact Sub.of rfl
    | dsimp only

theorem execHeldDownRelease_keeps {mk : Nat} {z s : State} (hk : Keeps mk z s) (a : Acc) (port : Nat) (data : Word) (hm : Sub 0x11EF5F7 mk := by exact Sub.of rfl) :
    KeepsR mk z (execHeldDownRelease a port data s) := by
  refine KeepsR.within hk hm ?_
  replace hk : Keeps 0x11EF5F7 s s := .refl _
  unfold execHeldDownRelease
  repeat' first
    | with_reducible intro _
    | with_reducible assumption
    | (with_reducible first | apply KeepsR.present | apply KeepsR.next | exact KeepsR.fault | apply State.guardedWrite_keeps | apply State.laneCtrl_keeps)
    | exact Sub.of rfl
    | dsimp only

theorem execForceRetrain_keeps {mk : Nat} {z s : State} (hk : Keeps mk z s) (a : Acc) (port : Nat) (data : Word) (hm : Sub 0x11EF5F7 mk := by exact Sub.of rfl) :
    KeepsR mk z (execForceRetrain a port data s) := by
  refine KeepsR.within hk hm ?_
  replace hk : Keeps 0x11EF5F7 s s := .refl _
  unfold execForceRetrain
  repeat' first
    | with_reducible intro _
    | with_reducible assumption
    | (with_reducible first | apply KeepsR.present | apply KeepsR.next | exact KeepsR.fault | apply State.guardedWrite_keeps | apply State.laneCtrl_keeps)
    | exact Sub.of rfl
    | dsimp only

theorem execDozeReceived_keeps {mk : Nat} {z s : State} (hk : Keeps mk z s) (port : Nat) (hm : Sub 0x20 mk := by exact Sub.of rfl) :
    KeepsR mk z (execDozeReceived port s) := by
  refine KeepsR.within hk hm ?_
  replace hk : Keeps 0x20 s s := .refl _
  unfold execDozeReceived
  repeat' first
    | with_reducible intro _
    | with_reducible assumption
    | (with_reducible first | apply KeepsR.present | apply KeepsR.next | exact KeepsR.fault | apply present_keeps | apply State.modPort_keeps)
    | (with_reducible refine Keeps.mk0 ?_ ?g; (first | with_reducible assumption | (refine Keeps.snd ?_ (by assumption)) | (refine Keeps.some ?_ (by assumption)) | (with_reducible first | apply present_keeps | apply State.modPort_keeps)); with_reducible case g => exact fun h => Keeps.mk' h)
    | exact Sub.of rfl
    | dsimp only

theorem execWakeReceived_keeps {mk : Nat} {z s : State} (hk : Keeps mk z s) (port : Nat) (hm : Sub 0x80020 mk := by exact Sub.of rfl) :
    KeepsR mk z (execWakeReceived port s) := by
  refine KeepsR.within hk hm ?_
  replace hk : Keeps 0x80020 s s := .refl _
  unfold execWakeReceived
  repeat' first
    | with_reducible intro _
    | with_reducible assumption
    | (with_reducible first | apply KeepsR.present | apply KeepsR.next | exact KeepsR.fault | apply present_keeps | apply State.modPort_keeps | apply State.wake_keeps)
    | (with_reducible refine Keeps.mk0 ?_ ?g; (first | with_reducible assumption | (refine Keeps.snd ?_ (by assumption)) | (refine Keeps.some ?_ (by assumption)) | (with_reducible first | apply present_keeps | apply State.modPort_keeps | apply State.wake_keeps)); with_reducible case g => exact fun h => Keeps.mk' h)
    | exact Sub.of rfl
    | dsimp only

theorem execWakeSequenceDone_keeps {mk : Nat} {z s : State} (hk : Keeps mk z s) (port : Nat) (hm : Sub 0x11904F7 mk := by exact Sub.of rfl) :
    KeepsR mk z (execWakeSequenceDone port s) := by
  refine KeepsR.within hk hm ?_
  replace hk : Keeps 0x11904F7 s s := .refl _
  unfold execWakeSequenceDone
  repeat' first
    | with_reducible intro _
    | with_reducible assumption
    | (with_reducible first | apply KeepsR.present | apply KeepsR.next | exact KeepsR.fault | apply present_keeps | apply State.modPort_keeps | apply State.unitOut_keeps)
    | (with_reducible refine Keeps.mk0 ?_ ?g; (first | with_reducible assumption | (refine Keeps.snd ?_ (by assumption)) | (refine Keeps.some ?_ (by assumption)) | (with_reducible first | apply present_keeps | apply State.modPort_keeps | apply State.unitOut_keeps)); with_reducible case g => exact fun h => Keeps.mk' h)
    | (with_reducible apply Keeps.ite)
    | split
    | (refine Keeps.some ?_ (by assumption))
    | exact Sub.of rfl
    | dsimp only

end Sys2Proof.Machine
end

