-- ==== Sys2Proof/Laws/KeepsHeader.lean ====
section
/-! SUPPORT. What the operations of Machine/Header.lean keep. -/

set_option Elab.async false

namespace Sys2Proof.Machine

theorem execViolClear_keeps {mk : Nat} {z s : State} (hk : Keeps mk z s) (a : Acc) (page : Nat) (data : Word) (hm : Sub 0x804F7 mk := by exact Sub.of rfl) :
    KeepsR mk z (execViolClear a page data s) := by
  refine KeepsR.within hk hm ?_
  replace hk : Keeps 0x804F7 s s := .refl _
  unfold execViolClear
  repeat' first
    | with_reducible intro _
    | with_reducible assumption
    | (with_reducible first | apply KeepsR.present | apply KeepsR.next | exact KeepsR.fault | apply State.guardedWrite_keeps | apply State.cmnWrite_keeps)
    | exact Sub.of rfl
    | dsimp only

theorem execIrqClear_keeps {mk : Nat} {z s : State} (hk : Keeps mk z s) (a : Acc) (page : Nat) (data : Word) (hm : Sub 0x804F7 mk := by exact Sub.of rfl) :
    KeepsR mk z (execIrqClear a page data s) := by
  refine KeepsR.within hk hm ?_
  replace hk : Keeps 0x804F7 s s := .refl _
  unfold execIrqClear
  repeat' first
    | with_reducible intro _
    | with_reducible assumption
    | (with_reducible first | apply KeepsR.present | apply KeepsR.next | exact KeepsR.fault | apply State.guardedWrite_keeps | apply State.cmnWrite_keeps)
    | exact Sub.of rfl
    | dsimp only

theorem execCmnLockSet_keeps {mk : Nat} {z s : State} (hk : Keeps mk z s) (a : Acc) (page : Nat) (data : Word) (hm : Sub 0x804F7 mk := by exact Sub.of rfl) :
    KeepsR mk z (execCmnLockSet a page data s) := by
  refine KeepsR.within hk hm ?_
  replace hk : Keeps 0x804F7 s s := .refl _
  unfold execCmnLockSet
  repeat' first
    | with_reducible intro _
    | with_reducible assumption
    | (with_reducible first | apply KeepsR.present | apply KeepsR.next | exact KeepsR.fault | apply State.guardedWrite_keeps | apply State.cmnWrite_keeps)
    | exact Sub.of rfl
    | dsimp only

theorem State.hostVote_keeps {mk : Nat} {z s : State} (hk : Keeps mk z s) (addr data : Nat) (hm : Sub 0x80003 mk := by exact Sub.of rfl) :
    Keeps mk z (State.hostVote s addr data) := by
  refine hk.within hm ?_
  replace hk : Keeps 0x80003 s s := .refl _
  unfold State.hostVote
  repeat' first
    | with_reducible assumption
    | (with_reducible first | apply State.setHostVotes_keeps | apply State.cmnWrite_keeps)
    | (with_reducible apply Keeps.ite)
    | split
    | exact Sub.of rfl
    | dsimp only

theorem execHostVoteWrite_keeps {mk : Nat} {z s : State} (hk : Keeps mk z s) (a : Acc) (addr : Nat) (data : Word) (hm : Sub 0x804F7 mk := by exact Sub.of rfl) :
    KeepsR mk z (execHostVoteWrite a addr data s) := by
  refine KeepsR.within hk hm ?_
  replace hk : Keeps 0x804F7 s s := .refl _
  unfold execHostVoteWrite
  repeat' first
    | with_reducible intro _
    | with_reducible assumption
    | (with_reducible first | apply KeepsR.present | apply KeepsR.next | exact KeepsR.fault | apply present_keeps | apply State.guardedWrite_keeps | apply State.hostVote_keeps)
    | exact Sub.of rfl
    | dsimp only

theorem execFirmwareVoteWrite_keeps {mk : Nat} {z s : State} (hk : Keeps mk z s) (a : Acc) (data : Word) (hm : Sub 0x804F7 mk := by exact Sub.of rfl) :
    KeepsR mk z (execFirmwareVoteWrite a data s) := by
  refine KeepsR.within hk hm ?_
  replace hk : Keeps 0x804F7 s s := .refl _
  unfold execFirmwareVoteWrite
  repeat' first
    | with_reducible intro _
    | with_reducible assumption
    | (with_reducible first | apply KeepsR.present | apply KeepsR.next | exact KeepsR.fault | apply State.guardedWrite_keeps | apply State.setFwVotes_keeps)
    | exact Sub.of rfl
    | dsimp only

theorem State.setIdle_keeps {mk : Nat} {z s : State} (hk : Keeps mk z s) (v : Nat) (hm : Sub 0x80001 mk := by exact Sub.of rfl) :
    Keeps mk z (State.setIdle s v) := by
  refine hk.within hm ?_
  replace hk : Keeps 0x80001 s s := .refl _
  unfold State.setIdle
  repeat' first
    | (extract_lets -descend +onlyGivenNames x0; refine Keeps.cut (m := 0x80001) (z := s) (v := x0) ?_ (fun h0 => ?_); rotate_left; clear_value x0; rotate_left; dsimp -zeta only [x0]; clear x0)
    | (extract_lets -descend +onlyGivenNames x0; clear_value x0)
    | with_reducible intro _
    | lift_lets
    | with_reducible assumption
    | (with_reducible first | apply State.wr_keeps | apply State.wakeOne_keeps)
    | (with_reducible apply Keeps.ite)
    | (with_reducible apply Keeps.foldl)
    | split
    | (refine Keeps.some ?_ (by assumption))
    | exact Sub.of rfl
    | dsimp only

theorem execPwrIdleWrite_keeps {mk : Nat} {z s : State} (hk : Keeps mk z s) (a : Acc) (data : Word) (hm : Sub 0x804F7 mk := by exact Sub.of rfl) :
    KeepsR mk z (execPwrIdleWrite a data s) := by
  refine KeepsR.within hk hm ?_
  replace hk : Keeps 0x804F7 s s := .refl _
  unfold execPwrIdleWrite
  repeat' first
    | with_reducible intro _
    | with_reducible assumption
    | (with_reducible first | apply KeepsR.present | apply KeepsR.next | exact KeepsR.fault | apply State.guardedWrite_keeps | apply State.setIdle_keeps)
    | exact Sub.of rfl
    | dsimp only

end Sys2Proof.Machine
end

