-- ==== Sys2Proof/Laws/KeepsPower.lean ====
section
/-! SUPPORT. What the operations of Machine/Power.lean keep. -/

set_option Elab.async false

namespace Sys2Proof.Machine

theorem State.loseCoreVolatile_keeps {mk : Nat} {z s : State} (hk : Keeps mk z s) (hm : Sub 0x20500 mk := by exact Sub.of rfl) :
    Keeps mk z (State.loseCoreVolatile s) := by
  refine hk.within hm ?_
  replace hk : Keeps 0x20500 s s := .refl _
  unfold State.loseCoreVolatile
  repeat' first
    | with_reducible intro _
    | with_reducible assumption
    | (with_reducible refine Keeps.mk0 ?_ ?g; (first | with_reducible assumption | (refine Keeps.snd ?_ (by assumption)) | (refine Keeps.some ?_ (by assumption))); with_reducible case g => exact fun h => Keeps.mk' h)
    | exact Sub.of rfl
    | dsimp only

theorem State.loseCoreRetained_keeps {mk : Nat} {z s : State} (h : Keeps mk z s) (hm : Sub 0x2AF40 mk := by exact Sub.of rfl) :
    Keeps mk z (State.loseCoreRetained s) := by
  refine h.within hm ?_
  replace h : Keeps 0x2AF40 s s := .refl _
  exact h.of rfl rfl rfl (fun i => ⟨i.regs, i.ports, i.exch, rfl, i.gens, i.doms, i.data, i.image⟩) (.refl _) (by intro p hp; cases p <;> first | exact rfl | exact ⟨rfl, rfl, rfl⟩ | exact absurd hp (by decide))

theorem State.tokensFull_keeps {mk : Nat} {z s : State} (hk : Keeps mk z s) (hm : Sub 0x20 mk := by exact Sub.of rfl) :
    Keeps mk z (State.tokensFull s) := by
  refine hk.within hm ?_
  replace hk : Keeps 0x20 s s := .refl _
  unfold State.tokensFull
  repeat' first
    | with_reducible intro _
    | with_reducible assumption
    | (with_reducible refine Keeps.mk0 ?_ ?g; (first | with_reducible assumption | (refine Keeps.snd ?_ (by assumption)) | (refine Keeps.some ?_ (by assumption))); with_reducible case g => exact fun h => Keeps.mk' h)
    | exact Sub.of rfl
    | dsimp only

theorem State.flightLost_keeps {mk : Nat} {z s : State} (hk : Keeps mk z s) (port : Nat) (hm : Sub 0x40000 mk := by exact Sub.of rfl) :
    Keeps mk z (State.flightLost s port) := by
  refine hk.within hm ?_
  replace hk : Keeps 0x40000 s s := .refl _
  unfold State.flightLost
  repeat' first
    | with_reducible intro _
    | with_reducible assumption
    | (with_reducible refine Keeps.mk0 ?_ ?g; (first | with_reducible assumption | (refine Keeps.snd ?_ (by assumption)) | (refine Keeps.some ?_ (by assumption))); with_reducible case g => exact fun h => Keeps.mk' h)
    | (with_reducible apply Keeps.ite)
    | split
    | exact Sub.of rfl
    | dsimp only

theorem State.loseMgmt_keeps {mk : Nat} {z s : State} (h : Keeps mk z s) (hm : Sub 0x420000 mk := by exact Sub.of rfl) :
    Keeps mk z (State.loseMgmt s) := by
  refine h.within hm ?_
  replace h : Keeps 0x420000 s s := .refl _
  unfold State.loseMgmt
  refine State.asmAbandon_keeps (hm := Sub.of rfl) ?_
  exact h.of rfl rfl rfl (fun i => ⟨i.regs, i.ports, i.exch, i.sensors, i.gens, i.doms, rfl, i.image⟩) (.refl _) (by intro p hp; cases p <;> first | exact rfl | exact ⟨rfl, rfl, rfl⟩ | exact absurd hp (by decide))

theorem State.loseHeld_keeps {mk : Nat} {z s : State} (hk : Keeps mk z s) (d : Nat) (off : Bool) (hm : Sub 0x47FF62 mk := by exact Sub.of rfl) :
    Keeps mk z (State.loseHeld s d off) := by
  refine hk.within hm ?_
  replace hk : Keeps 0x47FF62 s s := .refl _
  unfold State.loseHeld
  repeat' first
    | (extract_lets -descend +onlyGivenNames x0; refine Keeps.cut (m := 0x47FF62) (z := s) (v := x0) ?_ (fun h0 => ?_); rotate_left; clear_value x0; rotate_left; dsimp -zeta only [x0]; clear x0)
    | (extract_lets -descend +onlyGivenNames x0; first
        | ((with_reducible first | have _w : LinkSt := x0 | have _w : TimeSt := x0 | have _w : PowerSt := x0 | have _w : SampSt := x0 | have _w : FwSt := x0 | have _w : AuthSt := x0 | have _w : PulseSt := x0 | have _w : CoreSt := x0); clear _w; dsimp -zeta only [x0]; clear x0)
        | clear_value x0)
    | with_reducible intro _
    | lift_lets
    | with_reducible assumption
    | (with_reducible first | apply KeepsR.present | apply KeepsR.next | exact KeepsR.fault | exact KeepsO.none | apply KeepsO.some | apply State.modPort_keeps | apply State.traceLose_keeps | apply State.loseCoreVolatile_keeps | apply State.loseCoreRetained_keeps | apply State.tokensFull_keeps | apply State.flightLost_keeps | apply State.loseMgmt_keeps)
    | (with_reducible refine State.modRegion_keeps ?_ _ _ (fun _ w => w))
    | (with_reducible refine State.modFw_keeps ?_ _ ⟨rfl, rfl⟩)
    | (with_reducible refine State.modAuth_keeps ?_ _ ⟨rfl, rfl⟩)
    | (with_reducible refine Keeps.mk0 ?_ ?g; (first | with_reducible assumption | (refine Keeps.snd ?_ (by assumption)) | (refine Keeps.some ?_ (by assumption)) | (with_reducible first | apply State.modPort_keeps | apply State.traceLose_keeps | apply State.loseCoreVolatile_keeps | apply State.loseCoreRetained_keeps | apply State.tokensFull_keeps | apply State.flightLost_keeps | apply State.loseMgmt_keeps)); with_reducible case g => exact fun h => Keeps.mk' h)
    | (with_reducible apply Keeps.ite)
    | (with_reducible apply Keeps.foldl)
    | (with_reducible apply Keeps.foldlSnd)
    | (with_reducible apply Keeps.foldlFst)
    | split
    | (refine Keeps.some ?_ (by assumption))
    | (refine Keeps.snd ?_ (by assumption))
    | exact Sub.of rfl
    | dsimp only

theorem State.loseDomain_keeps {mk : Nat} {z s : State} (hk : Keeps mk z s) (d : Nat) (off : Bool) (hm : Sub 0x47FF63 mk := by exact Sub.of rfl) :
    Keeps mk z (State.loseDomain s d off) := by
  refine hk.within hm ?_
  replace hk : Keeps 0x47FF63 s s := .refl _
  unfold State.loseDomain
  repeat' first
    | with_reducible intro _
    | with_reducible assumption
    | (with_reducible first | apply State.loseRegs_keeps | apply State.loseHeld_keeps)
    | exact Sub.of rfl
    | dsimp only

theorem State.padHold_keeps {mk : Nat} {z s : State} (hk : Keeps mk z s) (d : Nat) (hm : Sub 0x3 mk := by exact Sub.of rfl) :
    Keeps mk z (State.padHold s d) := by
  refine hk.within hm ?_
  replace hk : Keeps 0x3 s s := .refl _
  unfold State.padHold
  repeat' first
    | with_reducible assumption
    | (with_reducible first | apply State.wr_keeps | apply State.irq_keeps)
    | (with_reducible apply Keeps.ite)
    | split
    | exact Sub.of rfl
    | dsimp only

theorem State.padRelease_keeps {mk : Nat} {z s : State} (hk : Keeps mk z s) (v : Nat) (hm : Sub 0x1 mk := by exact Sub.of rfl) :
    Keeps mk z (State.padRelease s v) := by
  refine hk.within hm ?_
  replace hk : Keeps 0x1 s s := .refl _
  unfold State.padRelease
  repeat' first
    | (extract_lets -descend +onlyGivenNames x0; refine Keeps.cut (m := 0x1) (z := s) (v := x0) ?_ (fun h0 => ?_); rotate_left; clear_value x0; rotate_left; dsimp -zeta only [x0]; clear x0)
    | (extract_lets -descend +onlyGivenNames x0; clear_value x0)
    | lift_lets
    | with_reducible assumption
    | with_reducible apply State.wr_keeps
    | (with_reducible apply Keeps.ite)
    | split
    | exact Sub.of rfl
    | dsimp only

theorem execPadRelease_keeps {mk : Nat} {z s : State} (hk : Keeps mk z s) (a : Acc) (data : Word) (hm : Sub 0x804F7 mk := by exact Sub.of rfl) :
    KeepsR mk z (execPadRelease a data s) := by
  refine KeepsR.within hk hm ?_
  replace hk : Keeps 0x804F7 s s := .refl _
  unfold execPadRelease
  repeat' first
    | with_reducible intro _
    | with_reducible assumption
    | (with_reducible first | apply KeepsR.present | apply KeepsR.next | exact KeepsR.fault | apply State.guardedWrite_keeps | apply State.padRelease_keeps)
    | exact Sub.of rfl
    | dsimp only

theorem State.voteChange_keeps {mk : Nat} {z s : State} (hk : Keeps mk z s) (d client : Nat) (held : Bool) (hm : Sub 0x80000 mk := by exact Sub.of rfl) :
    Keeps mk z (State.voteChange s d client held) := by
  refine hk.within hm ?_
  replace hk : Keeps 0x80000 s s := .refl _
  unfold State.voteChange
  repeat' first
    | (extract_lets -descend +onlyGivenNames x0; refine Keeps.cut (m := 0x80000) (z := s) (v := x0) ?_ (fun h0 => ?_); rotate_left; clear_value x0; rotate_left; dsimp -zeta only [x0]; clear x0)
    | (extract_lets -descend +onlyGivenNames x0; first
        | ((with_reducible first | have _w : LinkSt := x0 | have _w : TimeSt := x0 | have _w : PowerSt := x0 | have _w : SampSt := x0 | have _w : FwSt := x0 | have _w : AuthSt := x0 | have _w : PulseSt := x0 | have _w : CoreSt := x0); clear _w; dsimp -zeta only [x0]; clear x0)
        | clear_value x0)
    | with_reducible intro _
    | lift_lets
    | with_reducible assumption
    | (with_reducible first | apply KeepsR.present | apply KeepsR.next | exact KeepsR.fault | exact KeepsO.none | apply KeepsO.some | apply State.modDom_keeps | apply State.wake_keeps | apply State.wakeVoted_keeps | apply State.hwVote_keeps)
    | (with_reducible refine State.modRegion_keeps ?_ _ _ (fun _ w => w))
    | (with_reducible refine State.modFw_keeps ?_ _ ⟨rfl, rfl⟩)
    | (with_reducible refine State.modAuth_keeps ?_ _ ⟨rfl, rfl⟩)
    | (with_reducible refine Keeps.mk0 ?_ ?g; (first | with_reducible assumption | (refine Keeps.snd ?_ (by assumption)) | (refine Keeps.some ?_ (by assumption)) | (with_reducible first | apply State.modDom_keeps | apply State.wake_keeps | apply State.wakeVoted_keeps | apply State.hwVote_keeps)); with_reducible case g => exact fun h => Keeps.mk' h)
    | (with_reducible apply Keeps.ite)
    | (with_reducible apply Keeps.foldl)
    | (with_reducible apply Keeps.foldlSnd)
    | (with_reducible apply Keeps.foldlFst)
    | split
    | (refine Keeps.some ?_ (by assumption))
    | (refine Keeps.snd ?_ (by assumption))
    | exact Sub.of rfl
    | dsimp only

theorem execVoteChange_keeps {mk : Nat} {z s : State} (hk : Keeps mk z s) (d client : Nat) (held : Bool) (hm : Sub 0x80000 mk := by exact Sub.of rfl) :
    KeepsR mk z (execVoteChange d client held s) := by
  refine KeepsR.within hk hm ?_
  replace hk : Keeps 0x80000 s s := .refl _
  unfold execVoteChange
  repeat' first
    | with_reducible assumption
    | (with_reducible first | apply KeepsR.present | apply KeepsR.next | exact KeepsR.fault | apply present_keeps | apply State.voteChange_keeps)
    | exact Sub.of rfl
    | dsimp only

theorem State.refreshVotes_keeps {mk : Nat} {z s : State} (hk : Keeps mk z s) (hm : Sub 0x80000 mk := by exact Sub.of rfl) :
    Keeps mk z (State.refreshVotes s) := by
  refine hk.within hm ?_
  replace hk : Keeps 0x80000 s s := .refl _
  unfold State.refreshVotes
  repeat' first
    | (extract_lets -descend +onlyGivenNames x0; refine Keeps.cut (m := 0x80000) (z := s) (v := x0) ?_ (fun h0 => ?_); rotate_left; clear_value x0; rotate_left; dsimp -zeta only [x0]; clear x0)
    | (extract_lets -descend +onlyGivenNames x0; clear_value x0)
    | with_reducible intro _
    | lift_lets
    | with_reducible assumption
    | (with_reducible first | apply State.modDom_keeps | apply State.wake_keeps)
    | (with_reducible refine Keeps.mk0 ?_ ?g; (first | with_reducible assumption | (refine Keeps.snd ?_ (by assumption)) | (refine Keeps.some ?_ (by assumption)) | (with_reducible first | apply State.modDom_keeps | apply State.wake_keeps)); with_reducible case g => exact fun h => Keeps.mk' h)
    | (with_reducible apply Keeps.ite)
    | (with_reducible apply Keeps.foldl)
    | split
    | exact Sub.of rfl
    | dsimp only

theorem State.leaving_keeps {mk : Nat} {z s : State} (hk : Keeps mk z s) (d tgt : Nat) (hm : Sub 0x11EE5F7 mk := by exact Sub.of rfl) :
    Keeps mk z (State.leaving s d tgt) := by
  refine hk.within hm ?_
  replace hk : Keeps 0x11EE5F7 s s := .refl _
  unfold State.leaving
  repeat' first
    | with_reducible assumption
    | (with_reducible first | apply State.coalFlush_keeps | apply State.traceLeave_keeps)
    | (with_reducible apply Keeps.ite)
    | split
    | exact Sub.of rfl
    | dsimp only

theorem execDomainIdleTimeout_keeps {mk : Nat} {z s : State} (hk : Keeps mk z s) (d : Nat) (hm : Sub 0x11EE5F7 mk := by exact Sub.of rfl) :
    KeepsR mk z (execDomainIdleTimeout d s) := by
  refine KeepsR.within hk hm ?_
  replace hk : Keeps 0x11EE5F7 s s := .refl _
  unfold execDomainIdleTimeout
  repeat' first
    | (extract_lets -descend +onlyGivenNames x0; refine Keeps.cut (m := 0x11EE5F7) (z := s) (v := x0) ?_ (fun h0 => ?_); rotate_left; clear_value x0; rotate_left; dsimp -zeta only [x0]; clear x0)
    | (extract_lets -descend +onlyGivenNames x0; clear_value x0)
    | lift_lets
    | with_reducible assumption
    | (with_reducible first | apply KeepsR.present | apply KeepsR.next | exact KeepsR.fault | apply present_keeps | apply State.startMove_keeps | apply State.leaving_keeps)
    | (with_reducible apply Keeps.ite)
    | split
    | exact Sub.of rfl
    | dsimp only

theorem State.enterIdle_keeps {mk : Nat} {z s : State} (hk : Keeps mk z s) (d t : Nat) (hm : Sub 0x11EE5F7 mk := by exact Sub.of rfl) :
    Keeps mk z (State.enterIdle s d t) := by
  refine hk.within hm ?_
  replace hk : Keeps 0x11EE5F7 s s := .refl _
  unfold State.enterIdle
  repeat' first
    | (extract_lets -descend +onlyGivenNames x0; refine Keeps.cut (m := 0x11EE5F7) (z := s) (v := x0) ?_ (fun h0 => ?_); rotate_left; clear_value x0; rotate_left; dsimp -zeta only [x0]; clear x0)
    | (extract_lets -descend +onlyGivenNames x0; clear_value x0)
    | with_reducible intro _
    | lift_lets
    | with_reducible assumption
    | (with_reducible first | apply State.modTrace_keeps | apply State.modPort_keeps | apply State.modDom_keeps | apply State.startMove_keeps | apply State.linksFall_keeps | apply State.padHold_keeps)
    | (with_reducible refine Keeps.mk0 ?_ ?g; (first | with_reducible assumption | (refine Keeps.snd ?_ (by assumption)) | (refine Keeps.some ?_ (by assumption)) | (with_reducible first | apply State.modTrace_keeps | apply State.modPort_keeps | apply State.modDom_keeps | apply State.startMove_keeps | apply State.linksFall_keeps | apply State.padHold_keeps)); with_reducible case g => exact fun h => Keeps.mk' h)
    | (with_reducible apply Keeps.ite)
    | (with_reducible apply Keeps.foldl)
    | split
    | (refine Keeps.some ?_ (by assumption))
    | exact Sub.of rfl
    | dsimp only

theorem State.keepLast_keeps {mk : Nat} {z s : State} (hk : Keeps mk z s) (hm : Sub 0x2 mk := by exact Sub.of rfl) :
    Keeps mk z (State.keepLast s) := by
  refine hk.within hm ?_
  replace hk : Keeps 0x2 s s := .refl _
  unfold State.keepLast
  repeat' first
    | with_reducible intro _
    | with_reducible assumption
    | (with_reducible refine Keeps.mk0 ?_ ?g; (first | with_reducible assumption | (refine Keeps.snd ?_ (by assumption)) | (refine Keeps.some ?_ (by assumption))); with_reducible case g => exact fun h => Keeps.mk' h)
    | exact Sub.of rfl
    | dsimp only

theorem State.becomeRun_keeps {mk : Nat} {z s : State} (hk : Keeps mk z s) (d : Nat) (hm : Sub 0x15FFFF7 mk := by exact Sub.of rfl) :
    Keeps mk z (State.becomeRun s d) := by
  refine hk.within hm ?_
  replace hk : Keeps 0x15FFFF7 s s := .refl _
  unfold State.becomeRun
  repeat' first
    | (extract_lets -descend +onlyGivenNames x0; refine Keeps.cut (m := 0x15FFFF7) (z := s) (v := x0) ?_ (fun h0 => ?_); rotate_left; clear_value x0; rotate_left; dsimp -zeta only [x0]; clear x0)
    | (extract_lets -descend +onlyGivenNames x0; clear_value x0)
    | with_reducible intro _
    | lift_lets
    | with_reducible assumption
    | (with_reducible first | apply State.wr_keeps | apply State.bumpSat_keeps | apply State.modPort_keeps | apply State.modDom_keeps | apply State.event_keeps | apply State.pumpPort_keeps | apply State.treeRun_keeps | apply State.traceBack_keeps | apply State.landAll_keeps | apply State.loseDomain_keeps | apply State.keepLast_keeps)
    | (with_reducible refine Keeps.mk0 ?_ ?g; (first | with_reducible assumption | (refine Keeps.snd ?_ (by assumption)) | (refine Keeps.some ?_ (by assumption)) | (with_reducible first | apply State.wr_keeps | apply State.bumpSat_keeps | apply State.modPort_keeps | apply State.modDom_keeps | apply State.event_keeps | apply State.pumpPort_keeps | apply State.treeRun_keeps | apply State.traceBack_keeps | apply State.landAll_keeps | apply State.loseDomain_keeps | apply State.keepLast_keeps)); with_reducible case g => exact fun h => Keeps.mk' h)
    | (with_reducible apply Keeps.ite)
    | (with_reducible apply Keeps.foldl)
    | split
    | (refine Keeps.some ?_ (by assumption))
    | exact Sub.of rfl
    | dsimp only

theorem State.ackRise_keeps {mk : Nat} {z s : State} (hk : Keeps mk z s) (d : Nat) (hm : Sub 0x15FFFF7 mk := by exact Sub.of rfl) :
    Keeps mk z (State.ackRise s d) := by
  refine hk.within hm ?_
  replace hk : Keeps 0x15FFFF7 s s := .refl _
  unfold State.ackRise
  repeat' first
    | (extract_lets -descend +onlyGivenNames x0; refine Keeps.cut (m := 0x15FFFF7) (z := s) (v := x0) ?_ (fun h0 => ?_); rotate_left; clear_value x0; rotate_left; dsimp -zeta only [x0]; clear x0)
    | (extract_lets -descend +onlyGivenNames x0; clear_value x0)
    | with_reducible intro _
    | lift_lets
    | with_reducible assumption
    | (with_reducible first | apply State.modDom_keeps | apply State.enterIdle_keeps | apply State.becomeRun_keeps)
    | (with_reducible refine Keeps.mk0 ?_ ?g; (first | with_reducible assumption | (refine Keeps.snd ?_ (by assumption)) | (refine Keeps.some ?_ (by assumption)) | (with_reducible first | apply State.modDom_keeps | apply State.enterIdle_keeps | apply State.becomeRun_keeps)); with_reducible case g => exact fun h => Keeps.mk' h)
    | (with_reducible apply Keeps.ite)
    | split
    | (refine Keeps.some ?_ (by assumption))
    | exact Sub.of rfl
    | dsimp only

theorem State.ackFall_keeps {mk : Nat} {z s : State} (hk : Keeps mk z s) (d : Nat) (hm : Sub 0x80000 mk := by exact Sub.of rfl) :
    Keeps mk z (State.ackFall s d) := by
  refine hk.within hm ?_
  replace hk : Keeps 0x80000 s s := .refl _
  unfold State.ackFall
  repeat' first
    | (extract_lets -descend +onlyGivenNames x0; refine Keeps.cut (m := 0x80000) (z := s) (v := x0) ?_ (fun h0 => ?_); rotate_left; clear_value x0; rotate_left; dsimp -zeta only [x0]; clear x0)
    | (extract_lets -descend +onlyGivenNames x0; clear_value x0)
    | with_reducible intro _
    | lift_lets
    | with_reducible assumption
    | (with_reducible first | apply State.modDom_keeps | apply State.startMove_keeps)
    | (with_reducible refine Keeps.mk0 ?_ ?g; (first | with_reducible assumption | (refine Keeps.snd ?_ (by assumption)) | (refine Keeps.some ?_ (by assumption)) | (with_reducible first | apply State.modDom_keeps | apply State.startMove_keeps)); with_reducible case g => exact fun h => Keeps.mk' h)
    | (with_reducible apply Keeps.ite)
    | split
    | (refine Keeps.some ?_ (by assumption))
    | exact Sub.of rfl
    | dsimp only

theorem execPowerAck_keeps {mk : Nat} {z s : State} (hk : Keeps mk z s) (d : Edge) (hm : Sub 0x15FFFF7 mk := by exact Sub.of rfl) :
    KeepsR mk z (execPowerAck d s) := by
  refine KeepsR.within hk hm ?_
  replace hk : Keeps 0x15FFFF7 s s := .refl _
  unfold execPowerAck
  repeat' first
    | with_reducible assumption
    | (with_reducible first | apply KeepsR.present | apply KeepsR.next | exact KeepsR.fault | apply present_keeps | apply State.ackRise_keeps | apply State.ackFall_keeps)
    | (with_reducible apply Keeps.ite)
    | split
    | exact Sub.of rfl
    | dsimp only

theorem execPowerHandshakeTimeout_keeps {mk : Nat} {z s : State} (hk : Keeps mk z s) (d : Nat) (hm : Sub 0x804F7 mk := by exact Sub.of rfl) :
    KeepsR mk z (execPowerHandshakeTimeout d s) := by
  refine KeepsR.within hk hm ?_
  replace hk : Keeps 0x804F7 s s := .refl _
  unfold execPowerHandshakeTimeout
  repeat' first
    | with_reducible intro _
    | with_reducible assumption
    | (with_reducible first | apply KeepsR.present | apply KeepsR.next | exact KeepsR.fault | apply State.bumpSat_keeps | apply State.irq_keeps | apply present_keeps | apply State.modDom_keeps | apply State.event_keeps)
    | (with_reducible refine Keeps.mk0 ?_ ?g; (first | with_reducible assumption | (refine Keeps.snd ?_ (by assumption)) | (refine Keeps.some ?_ (by assumption)) | (with_reducible first | apply State.bumpSat_keeps | apply State.irq_keeps | apply present_keeps | apply State.modDom_keeps | apply State.event_keeps)); with_reducible case g => exact fun h => Keeps.mk' h)
    | (with_reducible apply Keeps.ite)
    | split
    | (refine Keeps.some ?_ (by assumption))
    | exact Sub.of rfl
    | dsimp only

theorem State.refill_keeps {mk : Nat} {z s : State} (hk : Keeps mk z s) (grant : Nat) (hm : Sub 0x100001 mk := by exact Sub.of rfl) :
    Keeps mk z (State.refill s grant) := by
  refine hk.within hm ?_
  replace hk : Keeps 0x100001 s s := .refl _
  unfold State.refill
  repeat' first
    | (extract_lets -descend +onlyGivenNames x0; refine Keeps.cut (m := 0x100001) (z := s) (v := x0) ?_ (fun h0 => ?_); rotate_left; clear_value x0; rotate_left; dsimp -zeta only [x0]; clear x0)
    | (extract_lets -descend +onlyGivenNames x0; clear_value x0)
    | with_reducible intro _
    | lift_lets
    | with_reducible assumption
    | with_reducible apply State.bumpSat_keeps
    | (with_reducible refine Keeps.mk0 ?_ ?g; (first | with_reducible assumption | (refine Keeps.snd ?_ (by assumption)) | (refine Keeps.some ?_ (by assumption)) | (with_reducible first | apply State.bumpSat_keeps)); with_reducible case g => exact fun h => Keeps.mk' h)
    | (with_reducible apply Keeps.ite)
    | (with_reducible apply Keeps.foldl)
    | split
    | exact Sub.of rfl
    | dsimp only

theorem State.starve_keeps {mk : Nat} {z s : State} (hk : Keeps mk z s) (hm : Sub 0x100001 mk := by exact Sub.of rfl) :
    Keeps mk z (State.starve s) := by
  refine hk.within hm ?_
  replace hk : Keeps 0x100001 s s := .refl _
  unfold State.starve
  repeat' first
    | with_reducible intro _
    | with_reducible assumption
    | (with_reducible first | apply State.bumpSat_keeps | apply State.grant_keeps)
    | (with_reducible apply Keeps.ite)
    | (with_reducible apply Keeps.foldl)
    | split
    | (refine Keeps.some ?_ (by assumption))
    | exact Sub.of rfl
    | dsimp only

theorem State.droverTick_keeps {mk : Nat} {z s : State} (hk : Keeps mk z s) (grant : Nat) (hm : Sub 0x11CBCF7 mk := by exact Sub.of rfl) :
    Keeps mk z (State.droverTick s grant) := by
  refine hk.within hm ?_
  replace hk : Keeps 0x11CBCF7 s s := .refl _
  unfold State.droverTick
  repeat' first
    | (extract_lets -descend +onlyGivenNames x0; refine Keeps.cut (m := 0x11CBCF7) (z := s) (v := x0) ?_ (fun h0 => ?_); rotate_left; clear_value x0; rotate_left; dsimp -zeta only [x0]; clear x0)
    | (extract_lets -descend +onlyGivenNames x0; clear_value x0)
    | lift_lets
    | with_reducible assumption
    | (with_reducible first | apply State.pumpPort_keeps | apply State.convoyDrain_keeps | apply State.setCauses_keeps | apply State.chunkDrain_keeps | apply State.patDrain_keeps | apply State.refreshVotes_keeps | apply State.refill_keeps | apply State.starve_keeps)
    | (with_reducible apply Keeps.ite)
    | split
    | exact Sub.of rfl
    | dsimp only

theorem execDroverTick_keeps {mk : Nat} {z s : State} (hk : Keeps mk z s) (grant : Nat) (hm : Sub 0x11CBCF7 mk := by exact Sub.of rfl) :
    KeepsR mk z (execDroverTick grant s) := by
  refine KeepsR.within hk hm ?_
  replace hk : Keeps 0x11CBCF7 s s := .refl _
  unfold execDroverTick
  repeat' first
    | with_reducible assumption
    | (with_reducible first | apply KeepsR.present | apply KeepsR.next | exact KeepsR.fault | apply State.droverTick_keeps)
    | exact Sub.of rfl
    | dsimp only

end Sys2Proof.Machine
end

