-- ==== Sys2Proof/Laws/KeepsBoard.lean ====
section
/-! SUPPORT. What the operations of Machine/Board.lean keep. -/

set_option Elab.async false

namespace Sys2Proof.Machine

theorem State.setTherm_keeps {mk : Nat} {z s : State} (hk : Keeps mk z s) (low : Bool) (hm : Sub 0x11C2CF7 mk := by exact Sub.of rfl) :
    Keeps mk z (State.setTherm s low) := by
  refine hk.within hm ?_
  replace hk : Keeps 0x11C2CF7 s s := .refl _
  unfold State.setTherm
  repeat' first
    | (extract_lets -descend +onlyGivenNames x0; refine Keeps.cut (m := 0x11C2CF7) (z := s) (v := x0) ?_ (fun h0 => ?_); rotate_left; clear_value x0; rotate_left; dsimp -zeta only [x0]; clear x0)
    | (extract_lets -descend +onlyGivenNames x0; first
        | ((with_reducible first | have _w : LinkSt := x0 | have _w : TimeSt := x0 | have _w : PowerSt := x0 | have _w : SampSt := x0 | have _w : FwSt := x0 | have _w : AuthSt := x0 | have _w : PulseSt := x0 | have _w : CoreSt := x0); clear _w; dsimp -zeta only [x0]; clear x0)
        | clear_value x0)
    | with_reducible intro _
    | lift_lets
    | with_reducible assumption
    | (with_reducible first | apply KeepsR.present | apply KeepsR.next | exact KeepsR.fault | exact KeepsO.none | apply KeepsO.some | apply State.setCauses_keeps | apply State.padEvent_keeps)
    | (with_reducible refine State.modRegion_keeps ?_ _ _ (fun _ w => w))
    | (with_reducible refine State.modFw_keeps ?_ _ ⟨rfl, rfl⟩)
    | (with_reducible refine State.modAuth_keeps ?_ _ ⟨rfl, rfl⟩)
    | (with_reducible refine Keeps.mk0 ?_ ?g; (first | with_reducible assumption | (refine Keeps.snd ?_ (by assumption)) | (refine Keeps.some ?_ (by assumption)) | (with_reducible first | apply State.setCauses_keeps | apply State.padEvent_keeps)); with_reducible case g => exact fun h => Keeps.mk' h)
    | (with_reducible apply Keeps.ite)
    | (with_reducible apply Keeps.foldl)
    | (with_reducible apply Keeps.foldlSnd)
    | (with_reducible apply Keeps.foldlFst)
    | split
    | (refine Keeps.some ?_ (by assumption))
    | (refine Keeps.snd ?_ (by assumption))
    | exact Sub.of rfl
    | dsimp only

theorem State.thermPin_keeps {mk : Nat} {z s : State} (hk : Keeps mk z s) (hm : Sub 0x11C2CF7 mk := by exact Sub.of rfl) :
    Keeps mk z (State.thermPin s) := by
  refine hk.within hm ?_
  replace hk : Keeps 0x11C2CF7 s s := .refl _
  unfold State.thermPin
  repeat' first
    | (extract_lets -descend +onlyGivenNames x0; refine Keeps.cut (m := 0x11C2CF7) (z := s) (v := x0) ?_ (fun h0 => ?_); rotate_left; clear_value x0; rotate_left; dsimp -zeta only [x0]; clear x0)
    | (extract_lets -descend +onlyGivenNames x0; clear_value x0)
    | lift_lets
    | with_reducible assumption
    | with_reducible apply State.setTherm_keeps
    | (with_reducible apply Keeps.ite)
    | split
    | (refine Keeps.some ?_ (by assumption))
    | exact Sub.of rfl
    | dsimp only

theorem State.pairReading_keeps {mk : Nat} {z s : State} (hk : Keeps mk z s) (sns value : Nat) (faulty : Bool) (count : Nat) (hm : Sub 0x11C2DF7 mk := by exact Sub.of rfl) :
    Keeps mk z (State.pairReading s sns value faulty count) := by
  refine hk.within hm ?_
  replace hk : Keeps 0x11C2DF7 s s := .refl _
  unfold State.pairReading
  repeat' first
    | (extract_lets -descend +onlyGivenNames x0; refine Keeps.cut (m := 0x11C2DF7) (z := s) (v := x0) ?_ (fun h0 => ?_); rotate_left; clear_value x0; rotate_left; dsimp -zeta only [x0]; clear x0)
    | (extract_lets -descend +onlyGivenNames x0; clear_value x0)
    | with_reducible intro _
    | lift_lets
    | with_reducible assumption
    | (with_reducible first | apply State.modSensor_keeps | apply State.sensorReading_keeps | apply State.thermPin_keeps)
    | (with_reducible refine Keeps.mk0 ?_ ?g; (first | with_reducible assumption | (refine Keeps.snd ?_ (by assumption)) | (refine Keeps.some ?_ (by assumption)) | (with_reducible first | apply State.modSensor_keeps | apply State.sensorReading_keeps | apply State.thermPin_keeps)); with_reducible case g => exact fun h => Keeps.mk' h)
    | (with_reducible apply Keeps.ite)
    | split
    | exact Sub.of rfl
    | dsimp only

theorem execSensorReading_keeps {mk : Nat} {z s : State} (hk : Keeps mk z s) (sns value : Nat) (faulty : Bool) (count : Nat) (hm : Sub 0x11EEDF7 mk := by exact Sub.of rfl) :
    KeepsR mk z (execSensorReading sns value faulty count s) := by
  refine KeepsR.within hk hm ?_
  replace hk : Keeps 0x11EEDF7 s s := .refl _
  unfold execSensorReading
  repeat' first
    | with_reducible assumption
    | (with_reducible first | apply KeepsR.present | apply KeepsR.next | exact KeepsR.fault | apply present_keeps | apply State.sensorReading_keeps | apply State.tapItem_keeps | apply State.pairReading_keeps)
    | (with_reducible apply Keeps.ite)
    | split
    | exact Sub.of rfl
    | dsimp only

theorem execSensorStaleTimeout_keeps {mk : Nat} {z s : State} (hk : Keeps mk z s) (sns : Nat) (hm : Sub 0x11C2DF7 mk := by exact Sub.of rfl) :
    KeepsR mk z (execSensorStaleTimeout sns s) := by
  refine KeepsR.within hk hm ?_
  replace hk : Keeps 0x11C2DF7 s s := .refl _
  unfold execSensorStaleTimeout
  repeat' first
    | (extract_lets -descend +onlyGivenNames x0; refine Keeps.cut (m := 0x11C2DF7) (z := s) (v := x0) ?_ (fun h0 => ?_); rotate_left; clear_value x0; rotate_left; dsimp -zeta only [x0]; clear x0)
    | (extract_lets -descend +onlyGivenNames x0; clear_value x0)
    | with_reducible intro _
    | lift_lets
    | with_reducible assumption
    | (with_reducible first | apply KeepsR.present | apply KeepsR.next | exact KeepsR.fault | apply present_keeps | apply State.modSensor_keeps | apply State.thermPin_keeps)
    | (with_reducible refine Keeps.mk0 ?_ ?g; (first | with_reducible assumption | (refine Keeps.snd ?_ (by assumption)) | (refine Keeps.some ?_ (by assumption)) | (with_reducible first | apply present_keeps | apply State.modSensor_keeps | apply State.thermPin_keeps)); with_reducible case g => exact fun h => Keeps.mk' h)
    | (with_reducible apply Keeps.ite)
    | split
    | exact Sub.of rfl
    | dsimp only

theorem State.coolH_keeps {mk : Nat} {z s : State} (hk : Keeps mk z s) (hm : Sub 0x1000000 mk := by exact Sub.of rfl) :
    Keeps mk z (State.coolH s).2.2 := by
  refine hk.within hm ?_
  replace hk : Keeps 0x1000000 s s := .refl _
  unfold State.coolH
  repeat' first
    | (extract_lets -descend +onlyGivenNames x0; refine Keeps.cut (m := 0x1000000) (z := s) (v := x0) ?_ (fun h0 => ?_); rotate_left; clear_value x0; rotate_left; dsimp -zeta only [x0]; clear x0)
    | (extract_lets -descend +onlyGivenNames x0; clear_value x0)
    | lift_lets
    | with_reducible assumption
    | with_reducible apply State.draw_keeps
    | (with_reducible apply Keeps.ite)
    | split
    | (refine Keeps.some ?_ (by assumption))
    | (refine Keeps.snd ?_ (by assumption))
    | exact Sub.of rfl
    | dsimp only

theorem State.coolSet_keeps {mk : Nat} {z s : State} (hk : Keeps mk z s) (f : Nat → Nat × Nat) (hm : Sub 0x3 mk := by exact Sub.of rfl) :
    Keeps mk z (State.coolSet s f) := by
  refine hk.within hm ?_
  replace hk : Keeps 0x3 s s := .refl _
  unfold State.coolSet
  repeat' first
    | (extract_lets -descend +onlyGivenNames x0; refine Keeps.cut (m := 0x3) (z := s) (v := x0) ?_ (fun h0 => ?_); rotate_left; clear_value x0; rotate_left; dsimp -zeta only [x0]; clear x0)
    | (extract_lets -descend +onlyGivenNames x0; first
        | ((with_reducible first | have _w : LinkSt := x0 | have _w : TimeSt := x0 | have _w : PowerSt := x0 | have _w : SampSt := x0 | have _w : FwSt := x0 | have _w : AuthSt := x0 | have _w : PulseSt := x0 | have _w : CoreSt := x0); clear _w; dsimp -zeta only [x0]; clear x0)
        | clear_value x0)
    | with_reducible intro _
    | lift_lets
    | with_reducible assumption
    | (with_reducible first | apply KeepsR.present | apply KeepsR.next | exact KeepsR.fault | exact KeepsO.none | apply KeepsO.some | apply State.wr_keeps)
    | (with_reducible refine State.modRegion_keeps ?_ _ _ (fun _ w => w))
    | (with_reducible refine State.modFw_keeps ?_ _ ⟨rfl, rfl⟩)
    | (with_reducible refine State.modAuth_keeps ?_ _ ⟨rfl, rfl⟩)
    | (with_reducible refine Keeps.mk0 ?_ ?g; (first | with_reducible assumption | (refine Keeps.snd ?_ (by assumption)) | (refine Keeps.some ?_ (by assumption)) | (with_reducible first | apply State.wr_keeps)); with_reducible case g => exact fun h => Keeps.mk' h)
    | (with_reducible apply Keeps.ite)
    | (with_reducible apply Keeps.foldl)
    | (with_reducible apply Keeps.foldlSnd)
    | (with_reducible apply Keeps.foldlFst)
    | split
    | (refine Keeps.some ?_ (by assumption))
    | (refine Keeps.snd ?_ (by assumption))
    | exact Sub.of rfl
    | dsimp only

theorem State.coolTick_keeps {mk : Nat} {z s : State} (h : Keeps mk z s) (hm : Sub 0x1000003 mk := by exact Sub.of rfl) :
    Keeps mk z (State.coolTick s) := by
  refine h.within hm ?_
  replace h : Keeps 0x1000003 s s := .refl _
  unfold State.coolTick
  have h1 := State.coolH_keeps h
  generalize State.coolH s = p at h1 ⊢
  obtain ⟨hd, stale, t⟩ := p
  dsimp only at h1 ⊢
  have h2 : Keeps 0x1000003 s ((t.wr R.COOL_HEADROOM (f64to32 hd)).coolSet ((t.wr R.COOL_HEADROOM (f64to32 hd)).coolDuty hd stale)) :=
    State.coolSet_keeps (State.wr_keeps h1 _ _ _ _ _ _) _
  generalize (t.wr R.COOL_HEADROOM (f64to32 hd)).coolSet ((t.wr R.COOL_HEADROOM (f64to32 hd)).coolDuty hd stale) = u at h2 ⊢
  have h3 : Keeps 0x1000003 s (if stale && !u.core.coolStale then u.irq 0x116 1 else u) := Keeps.ite (State.irq_keeps h2 _ _) h2
  exact (Keeps.ite (State.irq_keeps h3 _ _) h3).mk'

theorem execCoolingDemandTick_keeps {mk : Nat} {z s : State} (hk : Keeps mk z s) (hm : Sub 0x1000003 mk := by exact Sub.of rfl) :
    KeepsR mk z (execCoolingDemandTick s) := by
  refine KeepsR.within hk hm ?_
  replace hk : Keeps 0x1000003 s s := .refl _
  unfold execCoolingDemandTick
  repeat' first
    | with_reducible assumption
    | (with_reducible first | apply KeepsR.present | apply KeepsR.next | exact KeepsR.fault | apply present_keeps | apply State.coolTick_keeps)
    | (with_reducible apply Keeps.ite)
    | split
    | exact Sub.of rfl
    | dsimp only

theorem State.tachFail_keeps {mk : Nat} {z s : State} (hk : Keeps mk z s) (k rpm : Nat) (hm : Sub 0x804F7 mk := by exact Sub.of rfl) :
    Keeps mk z (State.tachFail s k rpm) := by
  refine hk.within hm ?_
  replace hk : Keeps 0x804F7 s s := .refl _
  unfold State.tachFail
  repeat' first
    | (extract_lets -descend +onlyGivenNames x0; refine Keeps.cut (m := 0x804F7) (z := s) (v := x0) ?_ (fun h0 => ?_); rotate_left; clear_value x0; rotate_left; dsimp -zeta only [x0]; clear x0)
    | (extract_lets -descend +onlyGivenNames x0; first
        | ((with_reducible first | have _w : LinkSt := x0 | have _w : TimeSt := x0 | have _w : PowerSt := x0 | have _w : SampSt := x0 | have _w : FwSt := x0 | have _w : AuthSt := x0 | have _w : PulseSt := x0 | have _w : CoreSt := x0); clear _w; dsimp -zeta only [x0]; clear x0)
        | clear_value x0)
    | with_reducible intro _
    | lift_lets
    | with_reducible assumption
    | (with_reducible first | apply KeepsR.present | apply KeepsR.next | exact KeepsR.fault | exact KeepsO.none | apply KeepsO.some | apply State.wr_keeps | apply State.irqMask_keeps | apply State.event_keeps | apply State.coolSet_keeps)
    | (with_reducible refine State.modRegion_keeps ?_ _ _ (fun _ w => w))
    | (with_reducible refine State.modFw_keeps ?_ _ ⟨rfl, rfl⟩)
    | (with_reducible refine State.modAuth_keeps ?_ _ ⟨rfl, rfl⟩)
    | (with_reducible refine Keeps.mk0 ?_ ?g; (first | with_reducible assumption | (refine Keeps.snd ?_ (by assumption)) | (refine Keeps.some ?_ (by assumption)) | (with_reducible first | apply State.wr_keeps | apply State.irqMask_keeps | apply State.event_keeps | apply State.coolSet_keeps)); with_reducible case g => exact fun h => Keeps.mk' h)
    | (with_reducible apply Keeps.ite)
    | (with_reducible apply Keeps.foldl)
    | (with_reducible apply Keeps.foldlSnd)
    | (with_reducible apply Keeps.foldlFst)
    | split
    | (refine Keeps.some ?_ (by assumption))
    | (refine Keeps.snd ?_ (by assumption))
    | exact Sub.of rfl
    | dsimp only

theorem execTachFaultTimeout_keeps {mk : Nat} {z s : State} (hk : Keeps mk z s) (k rpm : Nat) (hm : Sub 0x804F7 mk := by exact Sub.of rfl) :
    KeepsR mk z (execTachFaultTimeout k rpm s) := by
  refine KeepsR.within hk hm ?_
  replace hk : Keeps 0x804F7 s s := .refl _
  unfold execTachFaultTimeout
  repeat' first
    | with_reducible assumption
    | (with_reducible first | apply KeepsR.present | apply KeepsR.next | exact KeepsR.fault | apply present_keeps | apply State.tachFail_keeps)
    | exact Sub.of rfl
    | dsimp only

theorem execTachFaultClear_keeps {mk : Nat} {z s : State} (hk : Keeps mk z s) (k rpm : Nat) (hm : Sub 0x3 mk := by exact Sub.of rfl) :
    KeepsR mk z (execTachFaultClear k rpm s) := by
  refine KeepsR.within hk hm ?_
  replace hk : Keeps 0x3 s s := .refl _
  unfold execTachFaultClear
  repeat' first
    | (extract_lets -descend +onlyGivenNames x0; refine Keeps.cut (m := 0x3) (z := s) (v := x0) ?_ (fun h0 => ?_); rotate_left; clear_value x0; rotate_left; dsimp -zeta only [x0]; clear x0)
    | (extract_lets -descend +onlyGivenNames x0; first
        | ((with_reducible first | have _w : LinkSt := x0 | have _w : TimeSt := x0 | have _w : PowerSt := x0 | have _w : SampSt := x0 | have _w : FwSt := x0 | have _w : AuthSt := x0 | have _w : PulseSt := x0 | have _w : CoreSt := x0); clear _w; dsimp -zeta only [x0]; clear x0)
        | clear_value x0)
    | with_reducible intro _
    | lift_lets
    | with_reducible assumption
    | (with_reducible first | apply KeepsR.present | apply KeepsR.next | exact KeepsR.fault | exact KeepsO.none | apply KeepsO.some | apply State.wr_keeps | apply present_keeps)
    | (with_reducible refine State.modRegion_keeps ?_ _ _ (fun _ w => w))
    | (with_reducible refine State.modFw_keeps ?_ _ ⟨rfl, rfl⟩)
    | (with_reducible refine State.modAuth_keeps ?_ _ ⟨rfl, rfl⟩)
    | (with_reducible refine Keeps.mk0 ?_ ?g; (first | with_reducible assumption | (refine Keeps.snd ?_ (by assumption)) | (refine Keeps.some ?_ (by assumption)) | (with_reducible first | apply State.wr_keeps | apply present_keeps)); with_reducible case g => exact fun h => Keeps.mk' h)
    | (with_reducible apply Keeps.ite)
    | (with_reducible apply Keeps.foldl)
    | (with_reducible apply Keeps.foldlSnd)
    | (with_reducible apply Keeps.foldlFst)
    | split
    | (refine Keeps.some ?_ (by assumption))
    | (refine Keeps.snd ?_ (by assumption))
    | exact Sub.of rfl
    | dsimp only

theorem State.pcieClear_keeps {mk : Nat} {z s : State} (hk : Keeps mk z s) (hm : Sub 0x2 mk := by exact Sub.of rfl) :
    Keeps mk z (State.pcieClear s) := by
  refine hk.within hm ?_
  replace hk : Keeps 0x2 s s := .refl _
  unfold State.pcieClear
  repeat' first
    | with_reducible intro _
    | with_reducible assumption
    | (with_reducible refine Keeps.mk0 ?_ ?g; (first | with_reducible assumption | (refine Keeps.snd ?_ (by assumption)) | (refine Keeps.some ?_ (by assumption))); with_reducible case g => exact fun h => Keeps.mk' h)
    | exact Sub.of rfl
    | dsimp only

theorem State.pcieDown_keeps {mk : Nat} {z s : State} (hk : Keeps mk z s) (hm : Sub 0x3 mk := by exact Sub.of rfl) :
    Keeps mk z (State.pcieDown s) := by
  refine hk.within hm ?_
  replace hk : Keeps 0x3 s s := .refl _
  unfold State.pcieDown
  repeat' first
    | with_reducible assumption
    | (with_reducible first | apply State.wr_keeps | apply State.bumpSat_keeps | apply State.irq_keeps)
    | (with_reducible apply Keeps.ite)
    | split
    | exact Sub.of rfl
    | dsimp only

theorem execPcieReset_keeps {mk : Nat} {z s : State} (hk : Keeps mk z s) (kind : Nat) (hm : Sub 0x3 mk := by exact Sub.of rfl) :
    KeepsR mk z (execPcieReset kind s) := by
  refine KeepsR.within hk hm ?_
  replace hk : Keeps 0x3 s s := .refl _
  unfold execPcieReset
  repeat' first
    | (extract_lets -descend +onlyGivenNames x0; refine Keeps.cut (m := 0x3) (z := s) (v := x0) ?_ (fun h0 => ?_); rotate_left; clear_value x0; rotate_left; dsimp -zeta only [x0]; clear x0)
    | (extract_lets -descend +onlyGivenNames x0; first
        | ((with_reducible first | have _w : LinkSt := x0 | have _w : TimeSt := x0 | have _w : PowerSt := x0 | have _w : SampSt := x0 | have _w : FwSt := x0 | have _w : AuthSt := x0 | have _w : PulseSt := x0 | have _w : CoreSt := x0); clear _w; dsimp -zeta only [x0]; clear x0)
        | clear_value x0)
    | with_reducible intro _
    | lift_lets
    | with_reducible assumption
    | (with_reducible first | apply KeepsR.present | apply KeepsR.next | exact KeepsR.fault | exact KeepsO.none | apply KeepsO.some | apply State.wr_keeps | apply present_keeps | apply State.pcieClear_keeps | apply State.pcieDown_keeps)
    | (with_reducible refine State.modRegion_keeps ?_ _ _ (fun _ w => w))
    | (with_reducible refine State.modFw_keeps ?_ _ ⟨rfl, rfl⟩)
    | (with_reducible refine State.modAuth_keeps ?_ _ ⟨rfl, rfl⟩)
    | (with_reducible refine Keeps.mk0 ?_ ?g; (first | with_reducible assumption | (refine Keeps.snd ?_ (by assumption)) | (refine Keeps.some ?_ (by assumption)) | (with_reducible first | apply State.wr_keeps | apply present_keeps | apply State.pcieClear_keeps | apply State.pcieDown_keeps)); with_reducible case g => exact fun h => Keeps.mk' h)
    | (with_reducible apply Keeps.ite)
    | (with_reducible apply Keeps.foldl)
    | (with_reducible apply Keeps.foldlSnd)
    | (with_reducible apply Keeps.foldlFst)
    | split
    | (refine Keeps.some ?_ (by assumption))
    | (refine Keeps.snd ?_ (by assumption))
    | exact Sub.of rfl
    | dsimp only

theorem execPcieLinkChange_keeps {mk : Nat} {z s : State} (hk : Keeps mk z s) (up : Bool) (speed width : Nat) (hm : Sub 0x3 mk := by exact Sub.of rfl) :
    KeepsR mk z (execPcieLinkChange up speed width s) := by
  refine KeepsR.within hk hm ?_
  replace hk : Keeps 0x3 s s := .refl _
  unfold execPcieLinkChange
  repeat' first
    | with_reducible assumption
    | (with_reducible first | apply KeepsR.present | apply KeepsR.next | exact KeepsR.fault | apply State.wr_keeps | apply State.irq_keeps | apply present_keeps | apply State.pcieDown_keeps)
    | (with_reducible apply Keeps.ite)
    | split
    | exact Sub.of rfl
    | dsimp only

theorem State.bar2Read_keeps {mk : Nat} {z s : State} (hk : Keeps mk z s) (off : Nat) (hm : Sub 0x1008003 mk := by exact Sub.of rfl) :
    Keeps mk z (State.bar2Read s off) := by
  refine hk.within hm ?_
  replace hk : Keeps 0x1008003 s s := .refl _
  unfold State.bar2Read
  repeat' first
    | (extract_lets -descend +onlyGivenNames x0; refine Keeps.cut (m := 0x1008003) (z := s) (v := x0) ?_ (fun h0 => ?_); rotate_left; clear_value x0; rotate_left; dsimp -zeta only [x0]; clear x0)
    | (extract_lets -descend +onlyGivenNames x0; first
        | ((with_reducible first | have _w : LinkSt := x0 | have _w : TimeSt := x0 | have _w : PowerSt := x0 | have _w : SampSt := x0 | have _w : FwSt := x0 | have _w : AuthSt := x0 | have _w : PulseSt := x0 | have _w : CoreSt := x0); clear _w; dsimp -zeta only [x0]; clear x0)
        | clear_value x0)
    | with_reducible intro _
    | lift_lets
    | with_reducible assumption
    | (with_reducible first | apply KeepsR.present | apply KeepsR.next | exact KeepsR.fault | exact KeepsO.none | apply KeepsO.some | apply State.bumpSat_keeps | apply State.irq_keeps | apply State.draw_keeps | apply State.placeRefuse_keeps)
    | (with_reducible refine State.modRegion_keeps ?_ _ _ (fun _ w => w))
    | (with_reducible refine State.modFw_keeps ?_ _ ⟨rfl, rfl⟩)
    | (with_reducible refine State.modAuth_keeps ?_ _ ⟨rfl, rfl⟩)
    | (with_reducible refine Keeps.mk0 ?_ ?g; (first | with_reducible assumption | (refine Keeps.snd ?_ (by assumption)) | (refine Keeps.some ?_ (by assumption)) | (with_reducible first | apply State.bumpSat_keeps | apply State.irq_keeps | apply State.draw_keeps | apply State.placeRefuse_keeps)); with_reducible case g => exact fun h => Keeps.mk' h)
    | (with_reducible apply Keeps.ite)
    | (with_reducible apply Keeps.foldl)
    | (with_reducible apply Keeps.foldlSnd)
    | (with_reducible apply Keeps.foldlFst)
    | split
    | (refine Keeps.some ?_ (by assumption))
    | (refine Keeps.snd ?_ (by assumption))
    | exact Sub.of rfl
    | dsimp only

theorem execPcieBar2Read_keeps {mk : Nat} {z s : State} (hk : Keeps mk z s) (off : Nat) (hm : Sub 0x1008003 mk := by exact Sub.of rfl) :
    KeepsR mk z (execPcieBar2Read off s) := by
  refine KeepsR.within hk hm ?_
  replace hk : Keeps 0x1008003 s s := .refl _
  unfold execPcieBar2Read
  repeat' first
    | with_reducible assumption
    | (with_reducible first | apply KeepsR.present | apply KeepsR.next | exact KeepsR.fault | apply present_keeps | apply State.bar2Read_keeps)
    | (with_reducible apply Keeps.ite)
    | split
    | exact Sub.of rfl
    | dsimp only

theorem execTestAccessInstruction_keeps {mk : Nat} {z s : State} (hk : Keeps mk z s) (code : Nat) (hm : Sub 0x80002 mk := by exact Sub.of rfl) :
    KeepsR mk z (execTestAccessInstruction code s) := by
  refine KeepsR.within hk hm ?_
  replace hk : Keeps 0x80002 s s := .refl _
  unfold execTestAccessInstruction
  repeat' first
    | (extract_lets -descend +onlyGivenNames x0; refine Keeps.cut (m := 0x80002) (z := s) (v := x0) ?_ (fun h0 => ?_); rotate_left; clear_value x0; rotate_left; dsimp -zeta only [x0]; clear x0)
    | (extract_lets -descend +onlyGivenNames x0; first
        | ((with_reducible first | have _w : LinkSt := x0 | have _w : TimeSt := x0 | have _w : PowerSt := x0 | have _w : SampSt := x0 | have _w : FwSt := x0 | have _w : AuthSt := x0 | have _w : PulseSt := x0 | have _w : CoreSt := x0); clear _w; dsimp -zeta only [x0]; clear x0)
        | clear_value x0)
    | with_reducible intro _
    | lift_lets
    | with_reducible assumption
    | (with_reducible first | apply KeepsR.present | apply KeepsR.next | exact KeepsR.fault | exact KeepsO.none | apply KeepsO.some | apply present_keeps | apply State.voteChange_keeps)
    | (with_reducible refine State.modRegion_keeps ?_ _ _ (fun _ w => w))
    | (with_reducible refine State.modFw_keeps ?_ _ ⟨rfl, rfl⟩)
    | (with_reducible refine State.modAuth_keeps ?_ _ ⟨rfl, rfl⟩)
    | (with_reducible refine Keeps.mk0 ?_ ?g; (first | with_reducible assumption | (refine Keeps.snd ?_ (by assumption)) | (refine Keeps.some ?_ (by assumption)) | (with_reducible first | apply present_keeps | apply State.voteChange_keeps)); with_reducible case g => exact fun h => Keeps.mk' h)
    | (with_reducible apply Keeps.ite)
    | (with_reducible apply Keeps.foldl)
    | (with_reducible apply Keeps.foldlSnd)
    | (with_reducible apply Keeps.foldlFst)
    | split
    | (refine Keeps.some ?_ (by assumption))
    | (refine Keeps.snd ?_ (by assumption))
    | exact Sub.of rfl
    | dsimp only

end Sys2Proof.Machine
end

