-- ==== Sys2Proof/Laws/KeepsPublish.lean ====
section
/-! SUPPORT. What the operations of Machine/Publish.lean keep. -/

set_option Elab.async false

namespace Sys2Proof.Machine

theorem State.trackCtx_keeps {mk : Nat} {z s : State} (hk : Keeps mk z s) (r : Rec) (hm : Sub 0x40001 mk := by exact Sub.of rfl) :
    Keeps mk z (State.trackCtx s r).2 := by
  refine hk.within hm ?_
  replace hk : Keeps 0x40001 s s := .refl _
  unfold State.trackCtx
  repeat' first
    | (extract_lets -descend +onlyGivenNames x0; refine Keeps.cut (m := 0x40001) (z := s) (v := x0) ?_ (fun h0 => ?_); rotate_left; clear_value x0; rotate_left; dsimp -zeta only [x0]; clear x0)
    | (extract_lets -descend +onlyGivenNames x0; clear_value x0)
    | with_reducible intro _
    | lift_lets
    | with_reducible assumption
    | (with_reducible first | apply State.bumpSat_keeps | apply State.store_keeps | apply State.modPub_keeps)
    | (with_reducible refine Keeps.mk0 ?_ ?g; (first | with_reducible assumption | (refine Keeps.snd ?_ (by assumption)) | (refine Keeps.some ?_ (by assumption)) | (with_reducible first | apply State.bumpSat_keeps | apply State.store_keeps | apply State.modPub_keeps)); with_reducible case g => exact fun h => Keeps.mk' h)
    | (with_reducible apply Keeps.ite)
    | split
    | (refine Keeps.snd ?_ (by assumption))
    | exact Sub.of rfl
    | dsimp only

theorem State.pubFlash_keeps {mk : Nat} {z s : State} (hk : Keeps mk z s) (r : Rec) (hm : Sub 0x10013 mk := by exact Sub.of rfl) :
    Keeps mk z (State.pubFlash s r) := by
  refine hk.within hm ?_
  replace hk : Keeps 0x10013 s s := .refl _
  unfold State.pubFlash
  repeat' first
    | (extract_lets -descend +onlyGivenNames x0; refine Keeps.cut (m := 0x10013) (z := s) (v := x0) ?_ (fun h0 => ?_); rotate_left; clear_value x0; rotate_left; dsimp -zeta only [x0]; clear x0)
    | (extract_lets -descend +onlyGivenNames x0; clear_value x0)
    | lift_lets
    | with_reducible assumption
    | (with_reducible first | apply State.bumpSat_keeps | apply State.irq_keeps | apply State.openRec_keeps)
    | (with_reducible refine Keeps.mk0 ?_ ?g; (first | with_reducible assumption | (refine Keeps.snd ?_ (by assumption)) | (refine Keeps.some ?_ (by assumption)) | (with_reducible first | apply State.bumpSat_keeps | apply State.irq_keeps | apply State.openRec_keeps)); with_reducible case g => exact fun h => Keeps.mk' h)
    | (with_reducible apply Keeps.ite)
    | split
    | (refine Keeps.some ?_ (by assumption))
    | exact Sub.of rfl
    | dsimp only

theorem State.pubOwn_keeps {mk : Nat} {z s : State} (hk : Keeps mk z s) (uid : Nat) (r : Rec) (takeover : Bool) (hm : Sub 0xD24F7 mk := by exact Sub.of rfl) :
    Keeps mk z (State.pubOwn s uid r takeover) := by
  refine hk.within hm ?_
  replace hk : Keeps 0xD24F7 s s := .refl _
  unfold State.pubOwn
  repeat' first
    | (extract_lets -descend +onlyGivenNames x0; refine Keeps.cut (m := 0xD24F7) (z := s) (v := x0) ?_ (fun h0 => ?_); rotate_left; clear_value x0; rotate_left; dsimp -zeta only [x0]; clear x0)
    | (extract_lets -descend +onlyGivenNames x0; clear_value x0)
    | lift_lets
    | with_reducible assumption
    | (with_reducible first | apply State.fateLost_keeps | apply State.pubAdd_keeps | apply State.ctxAcked_keeps | apply State.pubFlash_keeps)
    | (with_reducible apply Keeps.ite)
    | split
    | exact Sub.of rfl
    | dsimp only

theorem State.publishRec_keeps {mk : Nat} {z s : State} (hk : Keeps mk z s) (uid : Nat) (r : Rec) (hm : Sub 0xD24F7 mk := by exact Sub.of rfl) :
    Keeps mk z (State.publishRec s uid r) := by
  refine hk.within hm ?_
  replace hk : Keeps 0xD24F7 s s := .refl _
  unfold State.publishRec
  repeat' first
    | (extract_lets -descend +onlyGivenNames x0; refine Keeps.cut (m := 0xD24F7) (z := s) (v := x0) ?_ (fun h0 => ?_); rotate_left; clear_value x0; rotate_left; dsimp -zeta only [x0]; clear x0)
    | (extract_lets -descend +onlyGivenNames x0; clear_value x0)
    | with_reducible intro _
    | lift_lets
    | with_reducible assumption
    | (with_reducible first | apply State.store_keeps | apply State.modPub_keeps | apply State.trackCtx_keeps | apply State.pubOwn_keeps)
    | (with_reducible refine Keeps.mk0 ?_ ?g; (first | with_reducible assumption | (refine Keeps.snd ?_ (by assumption)) | (refine Keeps.some ?_ (by assumption)) | (with_reducible first | apply State.store_keeps | apply State.modPub_keeps | apply State.trackCtx_keeps | apply State.pubOwn_keeps)); with_reducible case g => exact fun h => Keeps.mk' h)
    | (with_reducible apply Keeps.ite)
    | split
    | (refine Keeps.snd ?_ (by assumption))
    | exact Sub.of rfl
    | dsimp only

theorem State.payCredits_keeps {mk : Nat} {z s : State} (hk : Keeps mk z s) (uid : Nat) (hm : Sub 0x40020 mk := by exact Sub.of rfl) :
    Keeps mk z (State.payCredits s uid) := by
  refine hk.within hm ?_
  replace hk : Keeps 0x40020 s s := .refl _
  unfold State.payCredits
  repeat' first
    | (extract_lets -descend +onlyGivenNames x0; refine Keeps.cut (m := 0x40020) (z := s) (v := x0) ?_ (fun h0 => ?_); rotate_left; clear_value x0; rotate_left; dsimp -zeta only [x0]; clear x0)
    | (extract_lets -descend +onlyGivenNames x0; clear_value x0)
    | with_reducible intro _
    | lift_lets
    | with_reducible assumption
    | (with_reducible first | apply State.letGo_keeps | apply State.modPub_keeps)
    | (with_reducible refine Keeps.mk0 ?_ ?g; (first | with_reducible assumption | (refine Keeps.snd ?_ (by assumption)) | (refine Keeps.some ?_ (by assumption)) | (with_reducible first | apply State.letGo_keeps | apply State.modPub_keeps)); with_reducible case g => exact fun h => Keeps.mk' h)
    | (with_reducible apply Keeps.foldl)
    | split
    | exact Sub.of rfl
    | dsimp only

theorem State.storeRoomy_keeps {mk : Nat} {z s : State} (hk : Keeps mk z s) (hm : Sub 0x40001 mk := by exact Sub.of rfl) :
    Keeps mk z (State.storeRoomy s) := by
  refine hk.within hm ?_
  replace hk : Keeps 0x40001 s s := .refl _
  unfold State.storeRoomy
  repeat' first
    | with_reducible intro _
    | with_reducible assumption
    | (with_reducible first | apply State.bumpSat_keeps | apply State.modPub_keeps)
    | (with_reducible refine Keeps.mk0 ?_ ?g; (first | with_reducible assumption | (refine Keeps.snd ?_ (by assumption)) | (refine Keeps.some ?_ (by assumption)) | (with_reducible first | apply State.bumpSat_keeps | apply State.modPub_keeps)); with_reducible case g => exact fun h => Keeps.mk' h)
    | split
    | (refine Keeps.some ?_ (by assumption))
    | exact Sub.of rfl
    | dsimp only

theorem State.storeFull_keeps {mk : Nat} {z s : State} (hk : Keeps mk z s) (hm : Sub 0x40003 mk := by exact Sub.of rfl) :
    Keeps mk z (State.storeFull s) := by
  refine hk.within hm ?_
  replace hk : Keeps 0x40003 s s := .refl _
  unfold State.storeFull
  repeat' first
    | with_reducible intro _
    | with_reducible assumption
    | (with_reducible first | apply State.irq_keeps | apply State.modPub_keeps)
    | (with_reducible refine Keeps.mk0 ?_ ?g; (first | with_reducible assumption | (refine Keeps.snd ?_ (by assumption)) | (refine Keeps.some ?_ (by assumption)) | (with_reducible first | apply State.irq_keeps | apply State.modPub_keeps)); with_reducible case g => exact fun h => Keeps.mk' h)
    | split
    | (refine Keeps.some ?_ (by assumption))
    | exact Sub.of rfl
    | dsimp only

theorem State.storeAdmit_keeps {mk : Nat} {z s : State} (hk : Keeps mk z s) (hm : Sub 0x11D24F7 mk := by exact Sub.of rfl) :
    Keeps mk z (State.storeAdmit s) := by
  refine hk.within hm ?_
  replace hk : Keeps 0x11D24F7 s s := .refl _
  unfold State.storeAdmit
  repeat' first
    | (extract_lets -descend +onlyGivenNames x0; refine Keeps.cut (m := 0x11D24F7) (z := s) (v := x0) ?_ (fun h0 => ?_); rotate_left; clear_value x0; rotate_left; dsimp -zeta only [x0]; clear x0)
    | (extract_lets -descend +onlyGivenNames x0; first
        | ((with_reducible first | have _w : LinkSt := x0 | have _w : TimeSt := x0 | have _w : PowerSt := x0 | have _w : SampSt := x0 | have _w : FwSt := x0 | have _w : AuthSt := x0 | have _w : PulseSt := x0 | have _w : CoreSt := x0); clear _w; dsimp -zeta only [x0]; clear x0)
        | clear_value x0)
    | with_reducible intro _
    | lift_lets
    | with_reducible assumption
    | (with_reducible first | apply KeepsR.present | apply KeepsR.next | exact KeepsR.fault | exact KeepsO.none | apply KeepsO.some | apply State.fateLost_keeps | apply State.codeRec_keeps | apply State.publishRec_keeps | apply State.payCredits_keeps | apply State.storeRoomy_keeps | apply State.storeFull_keeps)
    | (with_reducible refine State.modRegion_keeps ?_ _ _ (fun _ w => w))
    | (with_reducible refine State.modFw_keeps ?_ _ ⟨rfl, rfl⟩)
    | (with_reducible refine State.modAuth_keeps ?_ _ ⟨rfl, rfl⟩)
    | (with_reducible refine Keeps.mk0 ?_ ?g; (first | with_reducible assumption | (refine Keeps.snd ?_ (by assumption)) | (refine Keeps.some ?_ (by assumption)) | (with_reducible first | apply State.fateLost_keeps | apply State.codeRec_keeps | apply State.publishRec_keeps | apply State.payCredits_keeps | apply State.storeRoomy_keeps | apply State.storeFull_keeps)); with_reducible case g => exact fun h => Keeps.mk' h)
    | (with_reducible apply Keeps.ite)
    | (with_reducible apply Keeps.foldl)
    | (with_reducible apply Keeps.foldlSnd)
    | (with_reducible apply Keeps.foldlFst)
    | split
    | (refine Keeps.some ?_ (by assumption))
    | (refine Keeps.snd ?_ (by assumption))
    | exact Sub.of rfl
    | dsimp only

theorem execPublicationStoreAdmit_keeps {mk : Nat} {z s : State} (hk : Keeps mk z s) (hm : Sub 0x11D24F7 mk := by exact Sub.of rfl) :
    KeepsR mk z (execPublicationStoreAdmit s) := by
  refine KeepsR.within hk hm ?_
  replace hk : Keeps 0x11D24F7 s s := .refl _
  unfold execPublicationStoreAdmit
  repeat' first
    | with_reducible assumption
    | (with_reducible first | apply KeepsR.present | apply KeepsR.next | exact KeepsR.fault | apply present_keeps | apply State.storeAdmit_keeps)
    | exact Sub.of rfl
    | dsimp only

theorem State.sendCursors_keeps {mk : Nat} {z s : State} (hk : Keeps mk z s) (l : List PubCtx) (hm : Sub 0x80471 mk := by exact Sub.of rfl) :
    Keeps mk z (State.sendCursors s l) := by
  refine hk.within hm ?_
  replace hk : Keeps 0x80471 s s := .refl _
  unfold State.sendCursors
  repeat' first
    | with_reducible intro _
    | with_reducible assumption
    | with_reducible apply State.sendLocal_keeps
    | (with_reducible apply Keeps.foldl)
    | split
    | (refine Keeps.some ?_ (by assumption))
    | exact Sub.of rfl
    | dsimp only

theorem State.cursorSend_keeps {mk : Nat} {z s : State} (hk : Keeps mk z s) (all : Bool) (hm : Sub 0xC0471 mk := by exact Sub.of rfl) :
    Keeps mk z (State.cursorSend s all) := by
  refine hk.within hm ?_
  replace hk : Keeps 0xC0471 s s := .refl _
  unfold State.cursorSend
  repeat' first
    | (extract_lets -descend +onlyGivenNames x0; refine Keeps.cut (m := 0xC0471) (z := s) (v := x0) ?_ (fun h0 => ?_); rotate_left; clear_value x0; rotate_left; dsimp -zeta only [x0]; clear x0)
    | (extract_lets -descend +onlyGivenNames x0; clear_value x0)
    | with_reducible intro _
    | lift_lets
    | with_reducible assumption
    | (with_reducible first | apply State.modPub_keeps | apply State.sendCursors_keeps)
    | (with_reducible refine Keeps.mk0 ?_ ?g; (first | with_reducible assumption | (refine Keeps.snd ?_ (by assumption)) | (refine Keeps.some ?_ (by assumption)) | (with_reducible first | apply State.modPub_keeps | apply State.sendCursors_keeps)); with_reducible case g => exact fun h => Keeps.mk' h)
    | (with_reducible apply Keeps.ite)
    | split
    | exact Sub.of rfl
    | dsimp only

theorem execCursorSend_keeps {mk : Nat} {z s : State} (hk : Keeps mk z s) (all : Bool) (hm : Sub 0xC0471 mk := by exact Sub.of rfl) :
    KeepsR mk z (execCursorSend all s) := by
  refine KeepsR.within hk hm ?_
  replace hk : Keeps 0xC0471 s s := .refl _
  unfold execCursorSend
  repeat' first
    | with_reducible assumption
    | (with_reducible first | apply KeepsR.present | apply KeepsR.next | exact KeepsR.fault | apply present_keeps | apply State.cursorSend_keeps)
    | exact Sub.of rfl
    | dsimp only

theorem State.storeFree_keeps {mk : Nat} {z s : State} (hk : Keeps mk z s) (uids : List Nat) (hm : Sub 0xC04F7 mk := by exact Sub.of rfl) :
    Keeps mk z (State.storeFree s uids) := by
  refine hk.within hm ?_
  replace hk : Keeps 0xC04F7 s s := .refl _
  unfold State.storeFree
  repeat' first
    | (extract_lets -descend +onlyGivenNames x0; refine Keeps.cut (m := 0xC04F7) (z := s) (v := x0) ?_ (fun h0 => ?_); rotate_left; clear_value x0; rotate_left; dsimp -zeta only [x0]; clear x0)
    | (extract_lets -descend +onlyGivenNames x0; clear_value x0)
    | with_reducible intro _
    | lift_lets
    | with_reducible assumption
    | (with_reducible first | apply State.fateDelivered_keeps | apply State.store_keeps | apply State.modPub_keeps)
    | (with_reducible refine Keeps.mk0 ?_ ?g; (first | with_reducible assumption | (refine Keeps.snd ?_ (by assumption)) | (refine Keeps.some ?_ (by assumption)) | (with_reducible first | apply State.fateDelivered_keeps | apply State.store_keeps | apply State.modPub_keeps)); with_reducible case g => exact fun h => Keeps.mk' h)
    | (with_reducible apply Keeps.foldl)
    | exact Sub.of rfl
    | dsimp only

theorem State.handCtx_keeps {mk : Nat} {z s : State} (hk : Keeps mk z s) (x : PubCtx) (c : Nat) (hm : Sub 0xC04F7 mk := by exact Sub.of rfl) :
    Keeps mk z (State.handCtx s x c) := by
  refine hk.within hm ?_
  replace hk : Keeps 0xC04F7 s s := .refl _
  unfold State.handCtx
  repeat' first
    | (extract_lets -descend +onlyGivenNames x0; refine Keeps.cut (m := 0xC04F7) (z := s) (v := x0) ?_ (fun h0 => ?_); rotate_left; clear_value x0; rotate_left; dsimp -zeta only [x0]; clear x0)
    | (extract_lets -descend +onlyGivenNames x0; clear_value x0)
    | with_reducible intro _
    | lift_lets
    | with_reducible assumption
    | (with_reducible first | apply State.store_keeps | apply State.modPub_keeps | apply State.storeFree_keeps)
    | (with_reducible refine Keeps.mk0 ?_ ?g; (first | with_reducible assumption | (refine Keeps.snd ?_ (by assumption)) | (refine Keeps.some ?_ (by assumption)) | (with_reducible first | apply State.store_keeps | apply State.modPub_keeps | apply State.storeFree_keeps)); with_reducible case g => exact fun h => Keeps.mk' h)
    | (with_reducible apply Keeps.ite)
    | split
    | exact Sub.of rfl
    | dsimp only

theorem State.cursorEntry_keeps {mk : Nat} {z s : State} (hk : Keeps mk z s) (e : CursorEntry) (hm : Sub 0xC04F7 mk := by exact Sub.of rfl) :
    Keeps mk z (State.cursorEntry s e) := by
  refine hk.within hm ?_
  replace hk : Keeps 0xC04F7 s s := .refl _
  unfold State.cursorEntry
  repeat' first
    | (extract_lets -descend +onlyGivenNames x0; refine Keeps.cut (m := 0xC04F7) (z := s) (v := x0) ?_ (fun h0 => ?_); rotate_left; clear_value x0; rotate_left; dsimp -zeta only [x0]; clear x0)
    | (extract_lets -descend +onlyGivenNames x0; clear_value x0)
    | with_reducible intro _
    | lift_lets
    | with_reducible assumption
    | (with_reducible first | apply State.store_keeps | apply State.modPub_keeps | apply State.pubLast_keeps | apply State.storeFree_keeps | apply State.handCtx_keeps)
    | (with_reducible refine Keeps.mk0 ?_ ?g; (first | with_reducible assumption | (refine Keeps.snd ?_ (by assumption)) | (refine Keeps.some ?_ (by assumption)) | (with_reducible first | apply State.store_keeps | apply State.modPub_keeps | apply State.pubLast_keeps | apply State.storeFree_keeps | apply State.handCtx_keeps)); with_reducible case g => exact fun h => Keeps.mk' h)
    | (with_reducible apply Keeps.ite)
    | (with_reducible apply Keeps.foldl)
    | split
    | (refine Keeps.some ?_ (by assumption))
    | exact Sub.of rfl
    | dsimp only

theorem State.handDone_keeps {mk : Nat} {z s : State} (hk : Keeps mk z s) (hm : Sub 0x40003 mk := by exact Sub.of rfl) :
    Keeps mk z (State.handDone s) := by
  refine hk.within hm ?_
  replace hk : Keeps 0x40003 s s := .refl _
  unfold State.handDone
  repeat' first
    | with_reducible intro _
    | with_reducible assumption
    | (with_reducible first | apply State.irq_keeps | apply State.modPub_keeps)
    | (with_reducible refine Keeps.mk0 ?_ ?g; (first | with_reducible assumption | (refine Keeps.snd ?_ (by assumption)) | (refine Keeps.some ?_ (by assumption)) | (with_reducible first | apply State.irq_keeps | apply State.modPub_keeps)); with_reducible case g => exact fun h => Keeps.mk' h)
    | (with_reducible apply Keeps.ite)
    | split
    | exact Sub.of rfl
    | dsimp only

theorem State.cursorIn_keeps {mk : Nat} {z s : State} (hk : Keeps mk z s) (l : List CursorEntry) (hm : Sub 0xC04F7 mk := by exact Sub.of rfl) :
    Keeps mk z (State.cursorIn s l) := by
  refine hk.within hm ?_
  replace hk : Keeps 0xC04F7 s s := .refl _
  unfold State.cursorIn
  repeat' first
    | with_reducible intro _
    | with_reducible assumption
    | (with_reducible first | apply State.modPub_keeps | apply State.cursorEntry_keeps | apply State.handDone_keeps)
    | (with_reducible refine Keeps.mk0 ?_ ?g; (first | with_reducible assumption | (refine Keeps.snd ?_ (by assumption)) | (refine Keeps.some ?_ (by assumption)) | (with_reducible first | apply State.modPub_keeps | apply State.cursorEntry_keeps | apply State.handDone_keeps)); with_reducible case g => exact fun h => Keeps.mk' h)
    | (with_reducible apply Keeps.ite)
    | (with_reducible apply Keeps.foldl)
    | split
    | exact Sub.of rfl
    | dsimp only

theorem execCursorReceived_keeps {mk : Nat} {z s : State} (hk : Keeps mk z s) (entries : List CursorEntry) (hm : Sub 0xC04F7 mk := by exact Sub.of rfl) :
    KeepsR mk z (execCursorReceived entries s) := by
  refine KeepsR.within hk hm ?_
  replace hk : Keeps 0xC04F7 s s := .refl _
  unfold execCursorReceived
  repeat' first
    | with_reducible assumption
    | (with_reducible first | apply KeepsR.present | apply KeepsR.next | exact KeepsR.fault | apply present_keeps | apply State.cursorIn_keeps)
    | exact Sub.of rfl
    | dsimp only

theorem State.takeMirror_keeps {mk : Nat} {z s : State} (hk : Keeps mk z s) (x : PubItem) (hm : Sub 0xD24F7 mk := by exact Sub.of rfl) :
    Keeps mk z (State.takeMirror s x) := by
  refine hk.within hm ?_
  replace hk : Keeps 0xD24F7 s s := .refl _
  unfold State.takeMirror
  repeat' first
    | with_reducible intro _
    | with_reducible assumption
    | (with_reducible first | apply State.store_keeps | apply State.modPub_keeps | apply State.pubOwn_keeps)
    | (with_reducible refine Keeps.mk0 ?_ ?g; (first | with_reducible assumption | (refine Keeps.snd ?_ (by assumption)) | (refine Keeps.some ?_ (by assumption)) | (with_reducible first | apply State.store_keeps | apply State.modPub_keeps | apply State.pubOwn_keeps)); with_reducible case g => exact fun h => Keeps.mk' h)
    | exact Sub.of rfl
    | dsimp only

theorem State.pairTake_keeps {mk : Nat} {z s : State} (hk : Keeps mk z s) (hm : Sub 0xD24F7 mk := by exact Sub.of rfl) :
    Keeps mk z (State.pairTake s) := by
  refine hk.within hm ?_
  replace hk : Keeps 0xD24F7 s s := .refl _
  unfold State.pairTake
  repeat' first
    | (extract_lets -descend +onlyGivenNames x0; refine Keeps.cut (m := 0xD24F7) (z := s) (v := x0) ?_ (fun h0 => ?_); rotate_left; clear_value x0; rotate_left; dsimp -zeta only [x0]; clear x0)
    | (extract_lets -descend +onlyGivenNames x0; clear_value x0)
    | with_reducible intro _
    | lift_lets
    | with_reducible assumption
    | (with_reducible first | apply State.wr_keeps | apply State.bumpSat_keeps | apply State.irq_keeps | apply State.event_keeps | apply State.store_keeps | apply State.modPub_keeps | apply State.takeMirror_keeps)
    | (with_reducible refine Keeps.mk0 ?_ ?g; (first | with_reducible assumption | (refine Keeps.snd ?_ (by assumption)) | (refine Keeps.some ?_ (by assumption)) | (with_reducible first | apply State.wr_keeps | apply State.bumpSat_keeps | apply State.irq_keeps | apply State.event_keeps | apply State.store_keeps | apply State.modPub_keeps | apply State.takeMirror_keeps)); with_reducible case g => exact fun h => Keeps.mk' h)
    | (with_reducible apply Keeps.ite)
    | (with_reducible apply Keeps.foldl)
    | split
    | exact Sub.of rfl
    | dsimp only

theorem State.pairSilence_keeps {mk : Nat} {z s : State} (hk : Keeps mk z s) (hm : Sub 0x11FE5F7 mk := by exact Sub.of rfl) :
    Keeps mk z (State.pairSilence s) := by
  refine hk.within hm ?_
  replace hk : Keeps 0x11FE5F7 s s := .refl _
  unfold State.pairSilence
  repeat' first
    | (extract_lets -descend +onlyGivenNames x0; refine Keeps.cut (m := 0x11FE5F7) (z := s) (v := x0) ?_ (fun h0 => ?_); rotate_left; clear_value x0; rotate_left; dsimp -zeta only [x0]; clear x0)
    | (extract_lets -descend +onlyGivenNames x0; clear_value x0)
    | with_reducible intro _
    | lift_lets
    | with_reducible assumption
    | (with_reducible first | apply State.linksFall_keeps | apply State.pairTake_keeps)
    | (with_reducible apply Keeps.ite)
    | split
    | exact Sub.of rfl
    | dsimp only

theorem execPairLaneSilenceTimeout_keeps {mk : Nat} {z s : State} (hk : Keeps mk z s) (hm : Sub 0x11FE5F7 mk := by exact Sub.of rfl) :
    KeepsR mk z (execPairLaneSilenceTimeout s) := by
  refine KeepsR.within hk hm ?_
  replace hk : Keeps 0x11FE5F7 s s := .refl _
  unfold execPairLaneSilenceTimeout
  repeat' first
    | with_reducible assumption
    | (with_reducible first | apply KeepsR.present | apply KeepsR.next | exact KeepsR.fault | apply present_keeps | apply State.pairSilence_keeps)
    | exact Sub.of rfl
    | dsimp only

theorem State.partnerLost_keeps {mk : Nat} {z s : State} (hk : Keeps mk z s) (hm : Sub 0xD24F7 mk := by exact Sub.of rfl) :
    Keeps mk z (State.partnerLost s) := by
  refine hk.within hm ?_
  replace hk : Keeps 0xD24F7 s s := .refl _
  unfold State.partnerLost
  repeat' first
    | with_reducible assumption
    | with_reducible apply State.pairTake_keeps
    | (with_reducible apply Keeps.ite)
    | split
    | (refine Keeps.some ?_ (by assumption))
    | exact Sub.of rfl
    | dsimp only

theorem execPartnerLostTimeout_keeps {mk : Nat} {z s : State} (hk : Keeps mk z s) (hm : Sub 0xD24F7 mk := by exact Sub.of rfl) :
    KeepsR mk z (execPartnerLostTimeout s) := by
  refine KeepsR.within hk hm ?_
  replace hk : Keeps 0xD24F7 s s := .refl _
  unfold execPartnerLostTimeout
  repeat' first
    | with_reducible assumption
    | (with_reducible first | apply KeepsR.present | apply KeepsR.next | exact KeepsR.fault | apply present_keeps | apply State.partnerLost_keeps)
    | exact Sub.of rfl
    | dsimp only

theorem State.pairMissing_keeps {mk : Nat} {z s : State} (hk : Keeps mk z s) (p : Nat) (missing : Bool) (hm : Sub 0x804F7 mk := by exact Sub.of rfl) :
    Keeps mk z (State.pairMissing s p missing) := by
  refine hk.within hm ?_
  replace hk : Keeps 0x804F7 s s := .refl _
  unfold State.pairMissing
  repeat' first
    | (extract_lets -descend +onlyGivenNames x0; refine Keeps.cut (m := 0x804F7) (z := s) (v := x0) ?_ (fun h0 => ?_); rotate_left; clear_value x0; rotate_left; dsimp -zeta only [x0]; clear x0)
    | (extract_lets -descend +onlyGivenNames x0; clear_value x0)
    | with_reducible intro _
    | lift_lets
    | with_reducible assumption
    | (with_reducible first | apply State.modPort_keeps | apply State.event_keeps | apply State.portIrq_keeps)
    | (with_reducible refine Keeps.mk0 ?_ ?g; (first | with_reducible assumption | (refine Keeps.snd ?_ (by assumption)) | (refine Keeps.some ?_ (by assumption)) | (with_reducible first | apply State.modPort_keeps | apply State.event_keeps | apply State.portIrq_keeps)); with_reducible case g => exact fun h => Keeps.mk' h)
    | (with_reducible apply Keeps.ite)
    | split
    | exact Sub.of rfl
    | dsimp only

theorem State.peerCheck_keeps {mk : Nat} {z s : State} (hk : Keeps mk z s) (hm : Sub 0xD24F7 mk := by exact Sub.of rfl) :
    Keeps mk z (State.peerCheck s) := by
  refine hk.within hm ?_
  replace hk : Keeps 0xD24F7 s s := .refl _
  unfold State.peerCheck
  repeat' first
    | (extract_lets -descend +onlyGivenNames x0; refine Keeps.cut (m := 0xD24F7) (z := s) (v := x0) ?_ (fun h0 => ?_); rotate_left; clear_value x0; rotate_left; dsimp -zeta only [x0]; clear x0)
    | (extract_lets -descend +onlyGivenNames x0; first
        | ((with_reducible first | have _w : LinkSt := x0 | have _w : TimeSt := x0 | have _w : PowerSt := x0 | have _w : SampSt := x0 | have _w : FwSt := x0 | have _w : AuthSt := x0 | have _w : PulseSt := x0 | have _w : CoreSt := x0); clear _w; dsimp -zeta only [x0]; clear x0)
        | clear_value x0)
    | with_reducible intro _
    | lift_lets
    | with_reducible assumption
    | (with_reducible first | apply KeepsR.present | apply KeepsR.next | exact KeepsR.fault | exact KeepsO.none | apply KeepsO.some | apply State.irq_keeps | apply State.event_keeps | apply State.pairTake_keeps | apply State.pairMissing_keeps)
    | (with_reducible refine State.modRegion_keeps ?_ _ _ (fun _ w => w))
    | (with_reducible refine State.modFw_keeps ?_ _ ⟨rfl, rfl⟩)
    | (with_reducible refine State.modAuth_keeps ?_ _ ⟨rfl, rfl⟩)
    | (with_reducible refine Keeps.mk0 ?_ ?g; (first | with_reducible assumption | (refine Keeps.snd ?_ (by assumption)) | (refine Keeps.some ?_ (by assumption)) | (with_reducible first | apply State.irq_keeps | apply State.event_keeps | apply State.pairTake_keeps | apply State.pairMissing_keeps)); with_reducible case g => exact fun h => Keeps.mk' h)
    | (with_reducible apply Keeps.ite)
    | (with_reducible apply Keeps.foldl)
    | (with_reducible apply Keeps.foldlSnd)
    | (with_reducible apply Keeps.foldlFst)
    | split
    | (refine Keeps.some ?_ (by assumption))
    | (refine Keeps.snd ?_ (by assumption))
    | exact Sub.of rfl
    | dsimp only

theorem execPeerPresenceChange_keeps {mk : Nat} {z s : State} (hk : Keeps mk z s) (low : Bool) (hm : Sub 0xD24F7 mk := by exact Sub.of rfl) :
    KeepsR mk z (execPeerPresenceChange low s) := by
  refine KeepsR.within hk hm ?_
  replace hk : Keeps 0xD24F7 s s := .refl _
  unfold execPeerPresenceChange
  repeat' first
    | with_reducible assumption
    | (with_reducible first | apply KeepsR.present | apply KeepsR.next | exact KeepsR.fault | apply State.irq_keeps | apply present_keeps | apply State.peerCheck_keeps)
    | (with_reducible refine Keeps.mk0 ?_ ?g; (first | with_reducible assumption | (refine Keeps.snd ?_ (by assumption)) | (refine Keeps.some ?_ (by assumption)) | (with_reducible first | apply State.irq_keeps | apply present_keeps | apply State.peerCheck_keeps)); with_reducible case g => exact fun h => Keeps.mk' h)
    | (with_reducible apply Keeps.ite)
    | split
    | exact Sub.of rfl
    | dsimp only

theorem State.sendOpen_keeps {mk : Nat} {z s : State} (hk : Keeps mk z s) (e : Nat) (hm : Sub 0xC0000 mk := by exact Sub.of rfl) :
    Keeps mk z (State.sendOpen s e) := by
  refine hk.within hm ?_
  replace hk : Keeps 0xC0000 s s := .refl _
  unfold State.sendOpen
  repeat' first
    | (extract_lets -descend +onlyGivenNames x0; refine Keeps.cut (m := 0xC0000) (z := s) (v := x0) ?_ (fun h0 => ?_); rotate_left; clear_value x0; rotate_left; dsimp -zeta only [x0]; clear x0)
    | (extract_lets -descend +onlyGivenNames x0; clear_value x0)
    | with_reducible intro _
    | lift_lets
    | with_reducible assumption
    | (with_reducible first | apply State.wake_keeps | apply State.modSess_keeps | apply State.ethOut_keeps)
    | (with_reducible refine Keeps.mk0 ?_ ?g; (first | with_reducible assumption | (refine Keeps.snd ?_ (by assumption)) | (refine Keeps.some ?_ (by assumption)) | (with_reducible first | apply State.wake_keeps | apply State.modSess_keeps | apply State.ethOut_keeps)); with_reducible case g => exact fun h => Keeps.mk' h)
    | (with_reducible apply Keeps.ite)
    | split
    | exact Sub.of rfl
    | dsimp only

theorem State.openSession_keeps {mk : Nat} {z s : State} (hk : Keeps mk z s) (e : Nat) (hm : Sub 0xC2000 mk := by exact Sub.of rfl) :
    Keeps mk z (State.openSession s e) := by
  refine hk.within hm ?_
  replace hk : Keeps 0xC2000 s s := .refl _
  unfold State.openSession
  repeat' first
    | (extract_lets -descend +onlyGivenNames x0; refine Keeps.cut (m := 0xC2000) (z := s) (v := x0) ?_ (fun h0 => ?_); rotate_left; clear_value x0; rotate_left; dsimp -zeta only [x0]; clear x0)
    | (extract_lets -descend +onlyGivenNames x0; clear_value x0)
    | with_reducible intro _
    | lift_lets
    | with_reducible assumption
    | (with_reducible first | apply State.modPub_keeps | apply State.modSess_keeps | apply State.sendOpen_keeps)
    | (with_reducible refine Keeps.mk0 ?_ ?g; (first | with_reducible assumption | (refine Keeps.snd ?_ (by assumption)) | (refine Keeps.some ?_ (by assumption)) | (with_reducible first | apply State.modPub_keeps | apply State.modSess_keeps | apply State.sendOpen_keeps)); with_reducible case g => exact fun h => Keeps.mk' h)
    | exact Sub.of rfl
    | dsimp only

theorem State.peerFall_keeps {mk : Nat} {z s : State} (hk : Keeps mk z s) (e : Nat) (hm : Sub 0xC04F7 mk := by exact Sub.of rfl) :
    Keeps mk z (State.peerFall s e) := by
  refine hk.within hm ?_
  replace hk : Keeps 0xC04F7 s s := .refl _
  unfold State.peerFall
  repeat' first
    | (extract_lets -descend +onlyGivenNames x0; refine Keeps.cut (m := 0xC04F7) (z := s) (v := x0) ?_ (fun h0 => ?_); rotate_left; clear_value x0; rotate_left; dsimp -zeta only [x0]; clear x0)
    | (extract_lets -descend +onlyGivenNames x0; clear_value x0)
    | with_reducible intro _
    | lift_lets
    | with_reducible assumption
    | (with_reducible first | apply State.store_keeps | apply State.modPub_keeps | apply State.modSess_keeps | apply State.reroute_keeps | apply State.toAlternate_keeps)
    | (with_reducible refine Keeps.mk0 ?_ ?g; (first | with_reducible assumption | (refine Keeps.snd ?_ (by assumption)) | (refine Keeps.some ?_ (by assumption)) | (with_reducible first | apply State.store_keeps | apply State.modPub_keeps | apply State.modSess_keeps | apply State.reroute_keeps | apply State.toAlternate_keeps)); with_reducible case g => exact fun h => Keeps.mk' h)
    | (with_reducible apply Keeps.ite)
    | (with_reducible apply Keeps.foldl)
    | split
    | (refine Keeps.some ?_ (by assumption))
    | exact Sub.of rfl
    | dsimp only

theorem State.closeSession_keeps {mk : Nat} {z s : State} (hk : Keeps mk z s) (e : Nat) (tell : Bool) (hm : Sub 0xC04F7 mk := by exact Sub.of rfl) :
    Keeps mk z (State.closeSession s e tell) := by
  refine hk.within hm ?_
  replace hk : Keeps 0xC04F7 s s := .refl _
  unfold State.closeSession
  repeat' first
    | (extract_lets -descend +onlyGivenNames x0; refine Keeps.cut (m := 0xC04F7) (z := s) (v := x0) ?_ (fun h0 => ?_); rotate_left; clear_value x0; rotate_left; dsimp -zeta only [x0]; clear x0)
    | (extract_lets -descend +onlyGivenNames x0; clear_value x0)
    | with_reducible intro _
    | lift_lets
    | with_reducible assumption
    | (with_reducible first | apply State.modSess_keeps | apply State.ethOut_keeps | apply State.pubForget_keeps | apply State.peerFall_keeps)
    | (with_reducible refine Keeps.mk0 ?_ ?g; (first | with_reducible assumption | (refine Keeps.snd ?_ (by assumption)) | (refine Keeps.some ?_ (by assumption)) | (with_reducible first | apply State.modSess_keeps | apply State.ethOut_keeps | apply State.pubForget_keeps | apply State.peerFall_keeps)); with_reducible case g => exact fun h => Keeps.mk' h)
    | (with_reducible apply Keeps.ite)
    | split
    | exact Sub.of rfl
    | dsimp only

theorem State.colRefresh_keeps {mk : Nat} {z s : State} (hk : Keeps mk z s) (was : List Bool) (hm : Sub 0xC24F7 mk := by exact Sub.of rfl) :
    Keeps mk z (State.colRefresh s was) := by
  refine hk.within hm ?_
  replace hk : Keeps 0xC24F7 s s := .refl _
  unfold State.colRefresh
  repeat' first
    | (extract_lets -descend +onlyGivenNames x0; refine Keeps.cut (m := 0xC24F7) (z := s) (v := x0) ?_ (fun h0 => ?_); rotate_left; clear_value x0; rotate_left; dsimp -zeta only [x0]; clear x0)
    | (extract_lets -descend +onlyGivenNames x0; clear_value x0)
    | with_reducible intro _
    | lift_lets
    | with_reducible assumption
    | (with_reducible first | apply State.openSession_keeps | apply State.closeSession_keeps)
    | (with_reducible apply Keeps.ite)
    | (with_reducible apply Keeps.foldl)
    | split
    | exact Sub.of rfl
    | dsimp only

theorem State.pubResend_keeps {mk : Nat} {z s : State} (hk : Keeps mk z s) (e : Nat) (hm : Sub 0xC0000 mk := by exact Sub.of rfl) :
    Keeps mk z (State.pubResend s e) := by
  refine hk.within hm ?_
  replace hk : Keeps 0xC0000 s s := .refl _
  unfold State.pubResend
  repeat' first
    | (extract_lets -descend +onlyGivenNames x0; refine Keeps.cut (m := 0xC0000) (z := s) (v := x0) ?_ (fun h0 => ?_); rotate_left; clear_value x0; rotate_left; dsimp -zeta only [x0]; clear x0)
    | (extract_lets -descend +onlyGivenNames x0; clear_value x0)
    | with_reducible intro _
    | lift_lets
    | with_reducible assumption
    | (with_reducible first | apply State.wake_keeps | apply State.modSess_keeps | apply State.ethOut_keeps)
    | (with_reducible refine Keeps.mk0 ?_ ?g; (first | with_reducible assumption | (refine Keeps.snd ?_ (by assumption)) | (refine Keeps.some ?_ (by assumption)) | (with_reducible first | apply State.wake_keeps | apply State.modSess_keeps | apply State.ethOut_keeps)); with_reducible case g => exact fun h => Keeps.mk' h)
    | (with_reducible apply Keeps.ite)
    | (with_reducible apply Keeps.foldl)
    | split
    | exact Sub.of rfl
    | dsimp only

theorem State.sessMove_keeps {mk : Nat} {z s : State} (hk : Keeps mk z s) (e : Nat) (hm : Sub 0xC2020 mk := by exact Sub.of rfl) :
    Keeps mk z (State.sessMove s e) := by
  refine hk.within hm ?_
  replace hk : Keeps 0xC2020 s s := .refl _
  unfold State.sessMove
  repeat' first
    | (extract_lets -descend +onlyGivenNames x0; refine Keeps.cut (m := 0xC2020) (z := s) (v := x0) ?_ (fun h0 => ?_); rotate_left; clear_value x0; rotate_left; dsimp -zeta only [x0]; clear x0)
    | (extract_lets -descend +onlyGivenNames x0; clear_value x0)
    | with_reducible intro _
    | lift_lets
    | with_reducible assumption
    | (with_reducible first | apply State.modSess_keeps | apply State.pump_keeps | apply State.sendOpen_keeps | apply State.pubResend_keeps)
    | (with_reducible refine Keeps.mk0 ?_ ?g; (first | with_reducible assumption | (refine Keeps.snd ?_ (by assumption)) | (refine Keeps.some ?_ (by assumption)) | (with_reducible first | apply State.modSess_keeps | apply State.pump_keeps | apply State.sendOpen_keeps | apply State.pubResend_keeps)); with_reducible case g => exact fun h => Keeps.mk' h)
    | (with_reducible apply Keeps.ite)
    | split
    | exact Sub.of rfl
    | dsimp only

theorem State.sessMoves_keeps {mk : Nat} {z s : State} (hk : Keeps mk z s) (hm : Sub 0xC2020 mk := by exact Sub.of rfl) :
    Keeps mk z (State.sessMoves s) := by
  refine hk.within hm ?_
  replace hk : Keeps 0xC2020 s s := .refl _
  unfold State.sessMoves
  repeat' first
    | with_reducible intro _
    | with_reducible assumption
    | (with_reducible first | apply State.pump_keeps | apply State.sessMove_keeps)
    | (with_reducible apply Keeps.foldl)
    | exact Sub.of rfl
    | dsimp only

theorem execEthLinkChange_keeps {mk : Nat} {z s : State} (hk : Keeps mk z s) (p : Nat) (up : Bool) (hm : Sub 0xC2023 mk := by exact Sub.of rfl) :
    KeepsR mk z (execEthLinkChange p up s) := by
  refine KeepsR.within hk hm ?_
  replace hk : Keeps 0xC2023 s s := .refl _
  unfold execEthLinkChange
  repeat' first
    | with_reducible intro _
    | with_reducible assumption
    | (with_reducible first | apply KeepsR.present | apply KeepsR.next | exact KeepsR.fault | apply State.irq_keeps | apply present_keeps | apply State.modPub_keeps | apply State.sessMoves_keeps)
    | (with_reducible refine Keeps.mk0 ?_ ?g; (first | with_reducible assumption | (refine Keeps.snd ?_ (by assumption)) | (refine Keeps.some ?_ (by assumption)) | (with_reducible first | apply State.irq_keeps | apply present_keeps | apply State.modPub_keeps | apply State.sessMoves_keeps)); with_reducible case g => exact fun h => Keeps.mk' h)
    | (with_reducible apply Keeps.ite)
    | split
    | exact Sub.of rfl
    | dsimp only

theorem State.colWrite_keeps {mk : Nat} {z s : State} (hk : Keeps mk z s) (v : Nat) (hm : Sub 0xC24F7 mk := by exact Sub.of rfl) :
    Keeps mk z (State.colWrite s v) := by
  refine hk.within hm ?_
  replace hk : Keeps 0xC24F7 s s := .refl _
  unfold State.colWrite
  repeat' first
    | (extract_lets -descend +onlyGivenNames x0; refine Keeps.cut (m := 0xC24F7) (z := s) (v := x0) ?_ (fun h0 => ?_); rotate_left; clear_value x0; rotate_left; dsimp -zeta only [x0]; clear x0)
    | (extract_lets -descend +onlyGivenNames x0; clear_value x0)
    | with_reducible intro _
    | lift_lets
    | with_reducible assumption
    | (with_reducible first | apply State.wr_keeps | apply State.colRefresh_keeps | apply State.sessMove_keeps)
    | exact Sub.of rfl
    | dsimp only

theorem execCollectorEnable_keeps {mk : Nat} {z s : State} (hk : Keeps mk z s) (a : Acc) (data : Word) (hm : Sub 0xC24F7 mk := by exact Sub.of rfl) :
    KeepsR mk z (execCollectorEnable a data s) := by
  refine KeepsR.within hk hm ?_
  replace hk : Keeps 0xC24F7 s s := .refl _
  unfold execCollectorEnable
  repeat' first
    | with_reducible intro _
    | with_reducible assumption
    | (with_reducible first | apply KeepsR.present | apply KeepsR.next | exact KeepsR.fault | apply State.guardedWrite_keeps | apply State.colWrite_keeps)
    | exact Sub.of rfl
    | dsimp only

theorem execPubOpenRetry_keeps {mk : Nat} {z s : State} (hk : Keeps mk z s) (e : Nat) (hm : Sub 0xC0000 mk := by exact Sub.of rfl) :
    KeepsR mk z (execPubOpenRetry e s) := by
  refine KeepsR.within hk hm ?_
  replace hk : Keeps 0xC0000 s s := .refl _
  unfold execPubOpenRetry
  repeat' first
    | with_reducible assumption
    | (with_reducible first | apply KeepsR.present | apply KeepsR.next | exact KeepsR.fault | apply present_keeps | apply State.sendOpen_keeps)
    | (with_reducible apply Keeps.ite)
    | split
    | exact Sub.of rfl
    | dsimp only

theorem State.rxDiscard_keeps {mk : Nat} {z s : State} (hk : Keeps mk z s) (p : Nat) (hm : Sub 0x1 mk := by exact Sub.of rfl) :
    Keeps mk z (State.rxDiscard s p) := by
  refine hk.within hm ?_
  replace hk : Keeps 0x1 s s := .refl _
  unfold State.rxDiscard
  repeat' first
    | with_reducible assumption
    | with_reducible apply State.bumpSat_keeps
    | exact Sub.of rfl
    | dsimp only

theorem State.openOk_keeps {mk : Nat} {z s : State} (hk : Keeps mk z s) (e session : Nat) (hm : Sub 0xC2021 mk := by exact Sub.of rfl) :
    Keeps mk z (State.openOk s e session) := by
  refine hk.within hm ?_
  replace hk : Keeps 0xC2021 s s := .refl _
  unfold State.openOk
  repeat' first
    | (extract_lets -descend +onlyGivenNames x0; refine Keeps.cut (m := 0xC2021) (z := s) (v := x0) ?_ (fun h0 => ?_); rotate_left; clear_value x0; rotate_left; dsimp -zeta only [x0]; clear x0)
    | (extract_lets -descend +onlyGivenNames x0; clear_value x0)
    | with_reducible intro _
    | lift_lets
    | with_reducible assumption
    | (with_reducible first | apply State.store_keeps | apply State.modSess_keeps | apply State.pump_keeps | apply State.rxDiscard_keeps)
    | (with_reducible refine Keeps.mk0 ?_ ?g; (first | with_reducible assumption | (refine Keeps.snd ?_ (by assumption)) | (refine Keeps.some ?_ (by assumption)) | (with_reducible first | apply State.store_keeps | apply State.modSess_keeps | apply State.pump_keeps | apply State.rxDiscard_keeps)); with_reducible case g => exact fun h => Keeps.mk' h)
    | (with_reducible apply Keeps.ite)
    | split
    | exact Sub.of rfl
    | dsimp only

theorem execOpenOk_keeps {mk : Nat} {z s : State} (hk : Keeps mk z s) (e session : Nat) (hm : Sub 0xC2021 mk := by exact Sub.of rfl) :
    KeepsR mk z (execOpenOk e session s) := by
  refine KeepsR.within hk hm ?_
  replace hk : Keeps 0xC2021 s s := .refl _
  unfold execOpenOk
  repeat' first
    | with_reducible assumption
    | (with_reducible first | apply KeepsR.present | apply KeepsR.next | exact KeepsR.fault | apply present_keeps | apply State.openOk_keeps)
    | exact Sub.of rfl
    | dsimp only

theorem State.ackIn_keeps {mk : Nat} {z s : State} (hk : Keeps mk z s) (e session ack : Nat) (hm : Sub 0xC24F7 mk := by exact Sub.of rfl) :
    Keeps mk z (State.ackIn s e session ack) := by
  refine hk.within hm ?_
  replace hk : Keeps 0xC24F7 s s := .refl _
  unfold State.ackIn
  repeat' first
    | (extract_lets -descend +onlyGivenNames x0; refine Keeps.cut (m := 0xC24F7) (z := s) (v := x0) ?_ (fun h0 => ?_); rotate_left; clear_value x0; rotate_left; dsimp -zeta only [x0]; clear x0)
    | (extract_lets -descend +onlyGivenNames x0; clear_value x0)
    | lift_lets
    | with_reducible assumption
    | (with_reducible first | apply State.pubAdvance_keeps | apply State.reachSettle_keeps | apply State.rxDiscard_keeps)
    | (with_reducible apply Keeps.ite)
    | split
    | exact Sub.of rfl
    | dsimp only

theorem execAck_keeps {mk : Nat} {z s : State} (hk : Keeps mk z s) (e session ack : Nat) (hm : Sub 0xC24F7 mk := by exact Sub.of rfl) :
    KeepsR mk z (execAck e session ack s) := by
  refine KeepsR.within hk hm ?_
  replace hk : Keeps 0xC24F7 s s := .refl _
  unfold execAck
  repeat' first
    | with_reducible assumption
    | (with_reducible first | apply KeepsR.present | apply KeepsR.next | exact KeepsR.fault | apply present_keeps | apply State.ackIn_keeps)
    | exact Sub.of rfl
    | dsimp only

theorem State.closeIn_keeps {mk : Nat} {z s : State} (hk : Keeps mk z s) (e session : Nat) (hm : Sub 0xC24F7 mk := by exact Sub.of rfl) :
    Keeps mk z (State.closeIn s e session) := by
  refine hk.within hm ?_
  replace hk : Keeps 0xC24F7 s s := .refl _
  unfold State.closeIn
  repeat' first
    | (extract_lets -descend +onlyGivenNames x0; refine Keeps.cut (m := 0xC24F7) (z := s) (v := x0) ?_ (fun h0 => ?_); rotate_left; clear_value x0; rotate_left; dsimp -zeta only [x0]; clear x0)
    | (extract_lets -descend +onlyGivenNames x0; clear_value x0)
    | lift_lets
    | with_reducible assumption
    | (with_reducible first | apply State.openSession_keeps | apply State.closeSession_keeps | apply State.rxDiscard_keeps)
    | (with_reducible apply Keeps.ite)
    | split
    | exact Sub.of rfl
    | dsimp only

theorem execClose_keeps {mk : Nat} {z s : State} (hk : Keeps mk z s) (e session : Nat) (hm : Sub 0xC24F7 mk := by exact Sub.of rfl) :
    KeepsR mk z (execClose e session s) := by
  refine KeepsR.within hk hm ?_
  replace hk : Keeps 0xC24F7 s s := .refl _
  unfold execClose
  repeat' first
    | with_reducible assumption
    | (with_reducible first | apply KeepsR.present | apply KeepsR.next | exact KeepsR.fault | apply present_keeps | apply State.closeIn_keeps)
    | exact Sub.of rfl
    | dsimp only

theorem execPubRtoExpiry_keeps {mk : Nat} {z s : State} (hk : Keeps mk z s) (e : Nat) (hm : Sub 0xC0000 mk := by exact Sub.of rfl) :
    KeepsR mk z (execPubRtoExpiry e s) := by
  refine KeepsR.within hk hm ?_
  replace hk : Keeps 0xC0000 s s := .refl _
  unfold execPubRtoExpiry
  repeat' first
    | (extract_lets -descend +onlyGivenNames x0; refine Keeps.cut (m := 0xC0000) (z := s) (v := x0) ?_ (fun h0 => ?_); rotate_left; clear_value x0; rotate_left; dsimp -zeta only [x0]; clear x0)
    | (extract_lets -descend +onlyGivenNames x0; clear_value x0)
    | with_reducible intro _
    | lift_lets
    | with_reducible assumption
    | (with_reducible first | apply KeepsR.present | apply KeepsR.next | exact KeepsR.fault | apply present_keeps | apply State.modSess_keeps | apply State.pubResend_keeps)
    | (with_reducible refine Keeps.mk0 ?_ ?g; (first | with_reducible assumption | (refine Keeps.snd ?_ (by assumption)) | (refine Keeps.some ?_ (by assumption)) | (with_reducible first | apply present_keeps | apply State.modSess_keeps | apply State.pubResend_keeps)); with_reducible case g => exact fun h => Keeps.mk' h)
    | (with_reducible apply Keeps.ite)
    | split
    | exact Sub.of rfl
    | dsimp only

theorem execPubSessionDead_keeps {mk : Nat} {z s : State} (hk : Keeps mk z s) (e : Nat) (hm : Sub 0xC24F7 mk := by exact Sub.of rfl) :
    KeepsR mk z (execPubSessionDead e s) := by
  refine KeepsR.within hk hm ?_
  replace hk : Keeps 0xC24F7 s s := .refl _
  unfold execPubSessionDead
  repeat' first
    | (extract_lets -descend +onlyGivenNames x0; refine Keeps.cut (m := 0xC24F7) (z := s) (v := x0) ?_ (fun h0 => ?_); rotate_left; clear_value x0; rotate_left; dsimp -zeta only [x0]; clear x0)
    | (extract_lets -descend +onlyGivenNames x0; clear_value x0)
    | with_reducible intro _
    | lift_lets
    | with_reducible assumption
    | (with_reducible first | apply KeepsR.present | apply KeepsR.next | exact KeepsR.fault | apply State.irq_keeps | apply present_keeps | apply State.event_keeps | apply State.modSess_keeps | apply State.openSession_keeps | apply State.peerFall_keeps)
    | (with_reducible refine Keeps.mk0 ?_ ?g; (first | with_reducible assumption | (refine Keeps.snd ?_ (by assumption)) | (refine Keeps.some ?_ (by assumption)) | (with_reducible first | apply State.irq_keeps | apply present_keeps | apply State.event_keeps | apply State.modSess_keeps | apply State.openSession_keeps | apply State.peerFall_keeps)); with_reducible case g => exact fun h => Keeps.mk' h)
    | (with_reducible apply Keeps.ite)
    | split
    | exact Sub.of rfl
    | dsimp only

theorem State.openIn_keeps {mk : Nat} {z s : State} (hk : Keeps mk z s) (e session src : Nat) (hm : Sub 0x40001 mk := by exact Sub.of rfl) :
    Keeps mk z (State.openIn s e session src) := by
  refine hk.within hm ?_
  replace hk : Keeps 0x40001 s s := .refl _
  unfold State.openIn
  repeat' first
    | (extract_lets -descend +onlyGivenNames x0; refine Keeps.cut (m := 0x40001) (z := s) (v := x0) ?_ (fun h0 => ?_); rotate_left; clear_value x0; rotate_left; dsimp -zeta only [x0]; clear x0)
    | (extract_lets -descend +onlyGivenNames x0; clear_value x0)
    | with_reducible intro _
    | lift_lets
    | with_reducible assumption
    | (with_reducible first | apply State.modSess_keeps | apply State.ethOut_keeps | apply State.rxDiscard_keeps)
    | (with_reducible refine Keeps.mk0 ?_ ?g; (first | with_reducible assumption | (refine Keeps.snd ?_ (by assumption)) | (refine Keeps.some ?_ (by assumption)) | (with_reducible first | apply State.modSess_keeps | apply State.ethOut_keeps | apply State.rxDiscard_keeps)); with_reducible case g => exact fun h => Keeps.mk' h)
    | (with_reducible apply Keeps.ite)
    | split
    | exact Sub.of rfl
    | dsimp only

theorem execOpenDgram_keeps {mk : Nat} {z s : State} (hk : Keeps mk z s) (e session src : Nat) (hm : Sub 0x40001 mk := by exact Sub.of rfl) :
    KeepsR mk z (execOpenDgram e session src s) := by
  refine KeepsR.within hk hm ?_
  replace hk : Keeps 0x40001 s s := .refl _
  unfold execOpenDgram
  repeat' first
    | with_reducible assumption
    | (with_reducible first | apply KeepsR.present | apply KeepsR.next | exact KeepsR.fault | apply present_keeps | apply State.openIn_keeps)
    | exact Sub.of rfl
    | dsimp only

theorem State.pauseIn_keeps {mk : Nat} {z s : State} (hk : Keeps mk z s) (p prio : Nat) (on : Bool) (hm : Sub 0xC2023 mk := by exact Sub.of rfl) :
    Keeps mk z (State.pauseIn s p prio on) := by
  refine hk.within hm ?_
  replace hk : Keeps 0xC2023 s s := .refl _
  unfold State.pauseIn
  repeat' first
    | (extract_lets -descend +onlyGivenNames x0; refine Keeps.cut (m := 0xC2023) (z := s) (v := x0) ?_ (fun h0 => ?_); rotate_left; clear_value x0; rotate_left; dsimp -zeta only [x0]; clear x0)
    | (extract_lets -descend +onlyGivenNames x0; dsimp -zeta only [x0]; clear x0)
    | with_reducible intro _
    | lift_lets
    | with_reducible assumption
    | (with_reducible first | apply KeepsR.present | apply KeepsR.next | exact KeepsR.fault | exact KeepsO.none | apply KeepsO.some | apply State.bumpSat_keeps | apply State.irq_keeps | apply State.pumpPort_keeps)
    | (with_reducible refine State.modRegion_keeps ?_ _ _ (fun _ w => w))
    | (with_reducible refine State.modFw_keeps ?_ _ ⟨rfl, rfl⟩)
    | (with_reducible refine State.modAuth_keeps ?_ _ ⟨rfl, rfl⟩)
    | (with_reducible refine Keeps.mk0 ?_ ?g; (first | with_reducible assumption | (refine Keeps.snd ?_ (by assumption)) | (refine Keeps.some ?_ (by assumption)) | (with_reducible first | apply State.bumpSat_keeps | apply State.irq_keeps | apply State.pumpPort_keeps)); with_reducible case g => exact fun h => Keeps.mk' h)
    | (with_reducible apply Keeps.ite)
    | (with_reducible apply Keeps.foldl)
    | (with_reducible apply Keeps.foldlSnd)
    | (with_reducible apply Keeps.foldlFst)
    | split
    | (refine Keeps.some ?_ (by assumption))
    | (refine Keeps.snd ?_ (by assumption))
    | exact Sub.of rfl
    | dsimp only

theorem execPfcPauseReceived_keeps {mk : Nat} {z s : State} (hk : Keeps mk z s) (p prio : Nat) (on : Bool) (hm : Sub 0xC2023 mk := by exact Sub.of rfl) :
    KeepsR mk z (execPfcPauseReceived p prio on s) := by
  refine KeepsR.within hk hm ?_
  replace hk : Keeps 0xC2023 s s := .refl _
  unfold execPfcPauseReceived
  repeat' first
    | with_reducible assumption
    | (with_reducible first | apply KeepsR.present | apply KeepsR.next | exact KeepsR.fault | apply present_keeps | apply State.pauseIn_keeps)
    | exact Sub.of rfl
    | dsimp only

theorem State.ndIn_keeps {mk : Nat} {z s : State} (hk : Keeps mk z s) (p : Nat) (m : NdMsg) (hm : Sub 0x40000 mk := by exact Sub.of rfl) :
    Keeps mk z (State.ndIn s p m) := by
  refine hk.within hm ?_
  replace hk : Keeps 0x40000 s s := .refl _
  unfold State.ndIn
  repeat' first
    | (extract_lets -descend +onlyGivenNames x0; refine Keeps.cut (m := 0x40000) (z := s) (v := x0) ?_ (fun h0 => ?_); rotate_left; clear_value x0; rotate_left; dsimp -zeta only [x0]; clear x0)
    | (extract_lets -descend +onlyGivenNames x0; clear_value x0)
    | with_reducible intro _
    | lift_lets
    | with_reducible assumption
    | (with_reducible first | apply State.sendFrame_keeps | apply State.modPub_keeps)
    | (with_reducible refine Keeps.mk0 ?_ ?g; (first | with_reducible assumption | (refine Keeps.snd ?_ (by assumption)) | (refine Keeps.some ?_ (by assumption)) | (with_reducible first | apply State.sendFrame_keeps | apply State.modPub_keeps)); with_reducible case g => exact fun h => Keeps.mk' h)
    | (with_reducible apply Keeps.ite)
    | split
    | exact Sub.of rfl
    | dsimp only

theorem execNeighborDiscoveryMessage_keeps {mk : Nat} {z s : State} (hk : Keeps mk z s) (p : Nat) (msg : NdMsg) (hm : Sub 0x40000 mk := by exact Sub.of rfl) :
    KeepsR mk z (execNeighborDiscoveryMessage p msg s) := by
  refine KeepsR.within hk hm ?_
  replace hk : Keeps 0x40000 s s := .refl _
  unfold execNeighborDiscoveryMessage
  repeat' first
    | with_reducible assumption
    | (with_reducible first | apply KeepsR.present | apply KeepsR.next | exact KeepsR.fault | apply present_keeps | apply State.ndIn_keeps)
    | exact Sub.of rfl
    | dsimp only

theorem execIcmpv6Echo_keeps {mk : Nat} {z s : State} (hk : Keeps mk z s) (p : Nat) (request : Bool) (body : List Byte) (hm : Sub 0x40001 mk := by exact Sub.of rfl) :
    KeepsR mk z (execIcmpv6Echo p request body s) := by
  refine KeepsR.within hk hm ?_
  replace hk : Keeps 0x40001 s s := .refl _
  unfold execIcmpv6Echo
  repeat' first
    | with_reducible assumption
    | (with_reducible first | apply KeepsR.present | apply KeepsR.next | exact KeepsR.fault | apply present_keeps | apply State.sendFrame_keeps | apply State.rxDiscard_keeps)
    | (with_reducible apply Keeps.ite)
    | split
    | exact Sub.of rfl
    | dsimp only

end Sys2Proof.Machine
end

