-- ==== Sys2Proof/Laws/KeepsAuthority.lean ====
section
/-! SUPPORT. What the operations of Machine/Authority.lean keep. -/

set_option Elab.async false

namespace Sys2Proof.Machine

theorem State.modAuth_keeps {mk : Nat} {z s : State} (h : Keeps mk z s) (f : AuthSt → AuthSt) (hf : (f s.auth).otp = s.auth.otp ∧ (f s.auth).srcId = s.auth.srcId) (hm : Sub 0x200000 mk := by exact Sub.of rfl) :
    Keeps mk z (State.modAuth s f) := by
  refine h.within hm ?_
  replace h : Keeps 0x200000 s s := .refl _
  refine h.of rfl rfl rfl (fun i => ⟨i.regs, i.ports, i.exch, i.sensors, i.gens, i.doms, i.data, i.image⟩) ?_
    (by intro p hp; cases p <;> first | exact rfl | exact ⟨rfl, rfl, rfl⟩ | exact absurd hp (by decide) | exact hf.1 | exact hf.2)
  show OtpSt.Le s.auth.otp (f s.auth).otp
  rw [hf.1]
  exact .refl _

theorem State.modOtp_keeps {mk : Nat} {z s : State} (h : Keeps mk z s) (f : OtpSt → OtpSt) (hf : OtpSt.Le s.auth.otp (f s.auth.otp)) (hm : Sub 0x4200000 mk := by exact Sub.of rfl) :
    Keeps mk z (State.modOtp s f) := by
  refine h.within hm ?_
  replace h : Keeps 0x4200000 s s := .refl _
  exact h.of rfl rfl rfl (fun i => ⟨i.regs, i.ports, i.exch, i.sensors, i.gens, i.doms, i.data, i.image⟩) hf (by intro p hp; cases p <;> first | exact rfl | exact ⟨rfl, rfl, rfl⟩ | exact absurd hp (by decide))

theorem State.cmdDone_keeps {mk : Nat} {z s : State} (hk : Keeps mk z s) (slot status detail : Nat) (hm : Sub 0x400003 mk := by exact Sub.of rfl) :
    Keeps mk z (State.cmdDone s slot status detail) := by
  refine hk.within hm ?_
  replace hk : Keeps 0x400003 s s := .refl _
  unfold State.cmdDone
  repeat' first
    | (extract_lets -descend +onlyGivenNames x0; refine Keeps.cut (m := 0x400003) (z := s) (v := x0) ?_ (fun h0 => ?_); rotate_left; clear_value x0; rotate_left; dsimp -zeta only [x0]; clear x0)
    | (extract_lets -descend +onlyGivenNames x0; first
        | ((with_reducible first | have _w : LinkSt := x0 | have _w : TimeSt := x0 | have _w : PowerSt := x0 | have _w : SampSt := x0 | have _w : FwSt := x0 | have _w : AuthSt := x0 | have _w : PulseSt := x0 | have _w : CoreSt := x0); clear _w; dsimp -zeta only [x0]; clear x0)
        | clear_value x0)
    | with_reducible intro _
    | lift_lets
    | with_reducible assumption
    | (with_reducible first | apply KeepsR.present | apply KeepsR.next | exact KeepsR.fault | exact KeepsO.none | apply KeepsO.some | apply State.wr_keeps | apply State.irq_keeps)
    | (with_reducible refine State.modRegion_keeps ?_ _ _ (fun _ w => w))
    | (with_reducible refine State.modFw_keeps ?_ _ ⟨rfl, rfl⟩)
    | (with_reducible refine State.modAuth_keeps ?_ _ ⟨rfl, rfl⟩)
    | (with_reducible refine Keeps.mk0 ?_ ?g; (first | with_reducible assumption | (refine Keeps.snd ?_ (by assumption)) | (refine Keeps.some ?_ (by assumption)) | (with_reducible first | apply State.wr_keeps | apply State.irq_keeps)); with_reducible case g => exact fun h => Keeps.mk' h)
    | (with_reducible apply Keeps.ite)
    | (with_reducible apply Keeps.foldl)
    | (with_reducible apply Keeps.foldlSnd)
    | (with_reducible apply Keeps.foldlFst)
    | split
    | (refine Keeps.some ?_ (by assumption))
    | (refine Keeps.snd ?_ (by assumption))
    | exact Sub.of rfl
    | dsimp only

theorem State.askerDone_keeps {mk : Nat} {z s : State} (hk : Keeps mk z s) (asker status detail : Nat) (hm : Sub 0x400003 mk := by exact Sub.of rfl) :
    Keeps mk z (State.askerDone s asker status detail) := by
  refine hk.within hm ?_
  replace hk : Keeps 0x400003 s s := .refl _
  unfold State.askerDone
  repeat' first
    | with_reducible assumption
    | with_reducible apply State.cmdDone_keeps
    | (with_reducible apply Keeps.ite)
    | split
    | exact Sub.of rfl
    | dsimp only

theorem State.reqRefuse_keeps {mk : Nat} {z s : State} (hk : Keeps mk z s) (c : Change) (reason : Nat) (hm : Sub 0x4804F7 mk := by exact Sub.of rfl) :
    Keeps mk z (State.reqRefuse s c reason) := by
  refine hk.within hm ?_
  replace hk : Keeps 0x4804F7 s s := .refl _
  unfold State.reqRefuse
  repeat' first
    | (extract_lets -descend +onlyGivenNames x0; refine Keeps.cut (m := 0x4804F7) (z := s) (v := x0) ?_ (fun h0 => ?_); rotate_left; clear_value x0; rotate_left; dsimp -zeta only [x0]; clear x0)
    | (extract_lets -descend +onlyGivenNames x0; clear_value x0)
    | lift_lets
    | with_reducible assumption
    | (with_reducible first | apply State.wr_keeps | apply State.irq_keeps | apply State.event_keeps | apply State.logViol_keeps | apply State.askerDone_keeps)
    | (with_reducible apply Keeps.ite)
    | split
    | exact Sub.of rfl
    | dsimp only

theorem State.writerTake_keepsAux {z s : State} (hk : Keeps 0x6804F7 z s) (n : Nat) : Keeps 0x6804F7 z (State.writerTake n s) := by
  induction n generalizing s with
  | zero => exact hk
  | succ n ih =>
    unfold State.writerTake
    repeat' first
      | with_reducible intro _
      | with_reducible assumption
      | (with_reducible first | apply ih | apply State.reqRefuse_keeps)
      | (with_reducible refine State.modAuth_keeps ?_ _ ⟨rfl, rfl⟩)
      | (with_reducible refine Keeps.mk0 ?_ ?g; (first | with_reducible assumption | (refine Keeps.snd ?_ (by assumption)) | (refine Keeps.some ?_ (by assumption)) | (with_reducible first | apply ih | apply State.reqRefuse_keeps)); with_reducible case g => exact fun h => Keeps.mk' h)
      | (with_reducible apply Keeps.ite)
      | split
      | (refine Keeps.some ?_ (by assumption))
      | exact Sub.of rfl
      | dsimp only

theorem State.writerTake_keeps {mk : Nat} {z s : State} (h : Keeps mk z s) (n : Nat) (hm : Sub 0x6804F7 mk := by exact Sub.of rfl) : Keeps mk z (State.writerTake n s) :=
  h.within hm (State.writerTake_keepsAux (.refl _) n)

theorem State.writerQueue_keeps {mk : Nat} {z s : State} (hk : Keeps mk z s) (c : Change) (hm : Sub 0x6804F7 mk := by exact Sub.of rfl) :
    Keeps mk z (State.writerQueue s c) := by
  refine hk.within hm ?_
  replace hk : Keeps 0x6804F7 s s := .refl _
  unfold State.writerQueue
  repeat' first
    | (extract_lets -descend +onlyGivenNames x0; refine Keeps.cut (m := 0x6804F7) (z := s) (v := x0) ?_ (fun h0 => ?_); rotate_left; clear_value x0; rotate_left; dsimp -zeta only [x0]; clear x0)
    | (extract_lets -descend +onlyGivenNames x0; clear_value x0)
    | with_reducible intro _
    | lift_lets
    | with_reducible assumption
    | with_reducible apply State.writerTake_keeps
    | (with_reducible refine State.modAuth_keeps ?_ _ ⟨rfl, rfl⟩)
    | (with_reducible refine Keeps.mk0 ?_ ?g; (first | with_reducible assumption | (refine Keeps.snd ?_ (by assumption)) | (refine Keeps.some ?_ (by assumption)) | (with_reducible first | apply State.writerTake_keeps)); with_reducible case g => exact fun h => Keeps.mk' h)
    | exact Sub.of rfl
    | dsimp only

theorem State.otpCount_keeps {mk : Nat} {z s : State} (h : Keeps mk z s) (c : Change) (void : Bool) (hm : Sub 0x4200000 mk := by exact Sub.of rfl) :
    Keeps mk z (State.otpCount s c void) := by
  refine h.within hm ?_
  replace h : Keeps 0x4200000 s s := .refl _
  unfold State.otpCount
  refine State.modOtp_keeps h _ ⟨Nat.le_refl _, Nat.le_refl _, Nat.le_refl _, Nat.le_succ _, id, id, ?_⟩
  dsimp only
  split
  · exact List.prefix_append _ _
  · exact List.prefix_refl _

theorem State.otpEffect_keeps {mk : Nat} {z s : State} (hk : Keeps mk z s) (c : Change) (hm : Sub 0x13EE5F7 mk := by exact Sub.of rfl) :
    Keeps mk z (State.otpEffect s c) := by
  refine hk.within hm ?_
  replace hk : Keeps 0x13EE5F7 s s := .refl _
  unfold State.otpEffect
  repeat' first
    | with_reducible intro _
    | with_reducible assumption
    | (with_reducible first | apply State.irq_keeps | apply State.traceKeyRevoked_keeps)
    | (with_reducible refine State.modAuth_keeps ?_ _ ⟨rfl, rfl⟩)
    | (with_reducible refine Keeps.mk0 ?_ ?g; (first | with_reducible assumption | (refine Keeps.snd ?_ (by assumption)) | (refine Keeps.some ?_ (by assumption)) | (with_reducible first | apply State.irq_keeps | apply State.traceKeyRevoked_keeps)); with_reducible case g => exact fun h => Keeps.mk' h)
    | (with_reducible apply Keeps.ite)
    | split
    | exact Sub.of rfl
    | dsimp only

theorem OtpSt.apply_le (o : OtpSt) (c : Change) : OtpSt.Le o (o.apply c) := by
  unfold OtpSt.apply
  repeat' split
  all_goals
    refine ⟨?_, ?_, ?_, Nat.le_refl _, ?_, ?_, List.prefix_refl _⟩
    · simp [Nat.le_max_left]
    · simp [Nat.le_max_left]
    · simp
    · simp
    · simp

theorem State.otpProgram_keeps {mk : Nat} {z s : State} (h : Keeps mk z s) (c : Change) (hm : Sub 0x4200000 mk := by exact Sub.of rfl) :
    Keeps mk z (State.otpProgram s c) := by
  refine h.within hm ?_
  replace h : Keeps 0x4200000 s s := .refl _
  exact State.otpCount_keeps (State.modOtp_keeps h _ (OtpSt.apply_le _ _)) _ _

theorem State.otpCommit_keeps {mk : Nat} {z s : State} (hk : Keeps mk z s) (c : Change) (hm : Sub 0x57EE5F7 mk := by exact Sub.of rfl) :
    Keeps mk z (State.otpCommit s c) := by
  refine hk.within hm ?_
  replace hk : Keeps 0x57EE5F7 s s := .refl _
  unfold State.otpCommit
  repeat' first
    | (extract_lets -descend +onlyGivenNames x0; refine Keeps.cut (m := 0x57EE5F7) (z := s) (v := x0) ?_ (fun h0 => ?_); rotate_left; clear_value x0; rotate_left; dsimp -zeta only [x0]; clear x0)
    | (extract_lets -descend +onlyGivenNames x0; clear_value x0)
    | lift_lets
    | with_reducible assumption
    | (with_reducible first | apply State.wr_keeps | apply State.irq_keeps | apply State.event_keeps | apply State.askerDone_keeps | apply State.otpEffect_keeps | apply State.otpProgram_keeps)
    | (with_reducible apply Keeps.ite)
    | split
    | exact Sub.of rfl
    | dsimp only

theorem State.otpFault_keeps {mk : Nat} {z s : State} (hk : Keeps mk z s) (c : Change) (hm : Sub 0x4804F7 mk := by exact Sub.of rfl) :
    Keeps mk z (State.otpFault s c) := by
  refine hk.within hm ?_
  replace hk : Keeps 0x4804F7 s s := .refl _
  unfold State.otpFault
  repeat' first
    | (extract_lets -descend +onlyGivenNames x0; refine Keeps.cut (m := 0x4804F7) (z := s) (v := x0) ?_ (fun h0 => ?_); rotate_left; clear_value x0; rotate_left; dsimp -zeta only [x0]; clear x0)
    | (extract_lets -descend +onlyGivenNames x0; clear_value x0)
    | lift_lets
    | with_reducible assumption
    | (with_reducible first | apply State.irq_keeps | apply State.event_keeps | apply State.reqRefuse_keeps)
    | (with_reducible apply Keeps.ite)
    | split
    | exact Sub.of rfl
    | dsimp only

theorem State.otpDone_keeps {mk : Nat} {z s : State} (hk : Keeps mk z s) (ok : Bool) (hm : Sub 0x57EE5F7 mk := by exact Sub.of rfl) :
    Keeps mk z (State.otpDone s ok) := by
  refine hk.within hm ?_
  replace hk : Keeps 0x57EE5F7 s s := .refl _
  unfold State.otpDone
  repeat' first
    | (extract_lets -descend +onlyGivenNames x0; refine Keeps.cut (m := 0x57EE5F7) (z := s) (v := x0) ?_ (fun h0 => ?_); rotate_left; clear_value x0; rotate_left; dsimp -zeta only [x0]; clear x0)
    | (extract_lets -descend +onlyGivenNames x0; clear_value x0)
    | with_reducible intro _
    | lift_lets
    | with_reducible assumption
    | (with_reducible first | apply State.writerTake_keeps | apply State.otpCommit_keeps | apply State.otpFault_keeps)
    | (with_reducible refine State.modAuth_keeps ?_ _ ⟨rfl, rfl⟩)
    | (with_reducible refine Keeps.mk0 ?_ ?g; (first | with_reducible assumption | (refine Keeps.snd ?_ (by assumption)) | (refine Keeps.some ?_ (by assumption)) | (with_reducible first | apply State.writerTake_keeps | apply State.otpCommit_keeps | apply State.otpFault_keeps)); with_reducible case g => exact fun h => Keeps.mk' h)
    | (with_reducible apply Keeps.ite)
    | split
    | (refine Keeps.some ?_ (by assumption))
    | exact Sub.of rfl
    | dsimp only

theorem execOtpChangeCommit_keeps {mk : Nat} {z s : State} (hk : Keeps mk z s) (ok : Bool) (hm : Sub 0x57EE5F7 mk := by exact Sub.of rfl) :
    KeepsR mk z (execOtpChangeCommit ok s) := by
  refine KeepsR.within hk hm ?_
  replace hk : Keeps 0x57EE5F7 s s := .refl _
  unfold execOtpChangeCommit
  repeat' first
    | with_reducible assumption
    | (with_reducible first | apply KeepsR.present | apply KeepsR.next | exact KeepsR.fault | apply State.otpDone_keeps)
    | exact Sub.of rfl
    | dsimp only

theorem State.signedIn_keeps {mk : Nat} {z s : State} (hk : Keeps mk z s) (l : List Byte) (asker : Nat) (hm : Sub 0x6804F7 mk := by exact Sub.of rfl) :
    Keeps mk z (State.signedIn s l asker) := by
  refine hk.within hm ?_
  replace hk : Keeps 0x6804F7 s s := .refl _
  unfold State.signedIn
  repeat' first
    | (extract_lets -descend +onlyGivenNames x0; refine Keeps.cut (m := 0x6804F7) (z := s) (v := x0) ?_ (fun h0 => ?_); rotate_left; clear_value x0; rotate_left; dsimp -zeta only [x0]; clear x0)
    | (extract_lets -descend +onlyGivenNames x0; clear_value x0)
    | lift_lets
    | with_reducible assumption
    | (with_reducible first | apply State.wr_keeps | apply State.reqRefuse_keeps | apply State.writerQueue_keeps)
    | (with_reducible apply Keeps.ite)
    | split
    | exact Sub.of rfl
    | dsimp only

theorem execSignedRequestReceived_keeps {mk : Nat} {z s : State} (hk : Keeps mk z s) (req : List Byte) (hm : Sub 0x6804F7 mk := by exact Sub.of rfl) :
    KeepsR mk z (execSignedRequestReceived req s) := by
  refine KeepsR.within hk hm ?_
  replace hk : Keeps 0x6804F7 s s := .refl _
  unfold execSignedRequestReceived
  repeat' first
    | with_reducible assumption
    | (with_reducible first | apply KeepsR.present | apply KeepsR.next | exact KeepsR.fault | apply State.signedIn_keeps)
    | exact Sub.of rfl
    | dsimp only

theorem State.floorRaise_keeps {mk : Nat} {z s : State} (hk : Keeps mk z s) (v : Nat) (hm : Sub 0x6804F7 mk := by exact Sub.of rfl) :
    Keeps mk z (State.floorRaise s v) := by
  refine hk.within hm ?_
  replace hk : Keeps 0x6804F7 s s := .refl _
  unfold State.floorRaise
  repeat' first
    | (extract_lets -descend +onlyGivenNames x0; refine Keeps.cut (m := 0x6804F7) (z := s) (v := x0) ?_ (fun h0 => ?_); rotate_left; clear_value x0; rotate_left; dsimp -zeta only [x0]; clear x0)
    | (extract_lets -descend +onlyGivenNames x0; clear_value x0)
    | with_reducible intro _
    | lift_lets
    | with_reducible assumption
    | with_reducible apply State.writerQueue_keeps
    | (with_reducible refine State.modAuth_keeps ?_ _ ⟨rfl, rfl⟩)
    | (with_reducible refine Keeps.mk0 ?_ ?g; (first | with_reducible assumption | (refine Keeps.snd ?_ (by assumption)) | (refine Keeps.some ?_ (by assumption)) | (with_reducible first | apply State.writerQueue_keeps)); with_reducible case g => exact fun h => Keeps.mk' h)
    | (with_reducible apply Keeps.ite)
    | split
    | (refine Keeps.some ?_ (by assumption))
    | exact Sub.of rfl
    | dsimp only

theorem execAuthFloorRaise_keeps {mk : Nat} {z s : State} (hk : Keeps mk z s) (a : Acc) (data : Word) (hm : Sub 0x6804F7 mk := by exact Sub.of rfl) :
    KeepsR mk z (execAuthFloorRaise a data s) := by
  refine KeepsR.within hk hm ?_
  replace hk : Keeps 0x6804F7 s s := .refl _
  unfold execAuthFloorRaise
  repeat' first
    | with_reducible intro _
    | with_reducible assumption
    | (with_reducible first | apply KeepsR.present | apply KeepsR.next | exact KeepsR.fault | apply State.guardedWrite_keeps | apply State.floorRaise_keeps)
    | exact Sub.of rfl
    | dsimp only

theorem execFloorRiseApply_keeps {mk : Nat} {z s : State} (hk : Keeps mk z s) (hm : Sub 0x13EE5F7 mk := by exact Sub.of rfl) :
    KeepsR mk z (execFloorRiseApply s) := by
  refine KeepsR.within hk hm ?_
  replace hk : Keeps 0x13EE5F7 s s := .refl _
  unfold execFloorRiseApply
  repeat' first
    | with_reducible intro _
    | with_reducible assumption
    | (with_reducible first | apply KeepsR.present | apply KeepsR.next | exact KeepsR.fault | apply State.floorRisen_keeps)
    | (with_reducible refine State.modAuth_keeps ?_ _ ⟨rfl, rfl⟩)
    | (with_reducible refine Keeps.mk0 ?_ ?g; (first | with_reducible assumption | (refine Keeps.snd ?_ (by assumption)) | (refine Keeps.some ?_ (by assumption)) | (with_reducible first | apply State.floorRisen_keeps)); with_reducible case g => exact fun h => Keeps.mk' h)
    | (with_reducible apply Keeps.ite)
    | split
    | exact Sub.of rfl
    | dsimp only

end Sys2Proof.Machine
end

