-- ==== Sys2Proof/Laws/KeepsRecorder.lean ====
section
/-! SUPPORT. What the operations of Machine/Recorder.lean keep. -/

set_option Elab.async false

namespace Sys2Proof.Machine

theorem State.ringPut_keeps {mk : Nat} {z s : State} (hk : Keeps mk z s) (e : EvRec) (hm : Sub 0x11 mk := by exact Sub.of rfl) :
    Keeps mk z (State.ringPut s e) := by
  refine hk.within hm ?_
  replace hk : Keeps 0x11 s s := .refl _
  unfold State.ringPut
  repeat' first
    | (extract_lets -descend +onlyGivenNames x0; refine Keeps.cut (m := 0x11) (z := s) (v := x0) ?_ (fun h0 => ?_); rotate_left; clear_value x0; rotate_left; dsimp -zeta only [x0]; clear x0)
    | (extract_lets -descend +onlyGivenNames x0; clear_value x0)
    | lift_lets
    | with_reducible assumption
    | with_reducible apply State.bumpSat_keeps
    | (with_reducible refine Keeps.mk0 ?_ ?g; (first | with_reducible assumption | (refine Keeps.snd ?_ (by assumption)) | (refine Keeps.some ?_ (by assumption)) | (with_reducible first | apply State.bumpSat_keeps)); with_reducible case g => exact fun h => Keeps.mk' h)
    | (with_reducible apply Keeps.ite)
    | split
    | exact Sub.of rfl
    | dsimp only

theorem State.flashCopy_keeps {mk : Nat} {z s : State} (hk : Keeps mk z s) (hm : Sub 0x804F7 mk := by exact Sub.of rfl) :
    Keeps mk z (State.flashCopy s) := by
  refine hk.within hm ?_
  replace hk : Keeps 0x804F7 s s := .refl _
  unfold State.flashCopy
  repeat' first
    | (extract_lets -descend +onlyGivenNames x0; refine Keeps.cut (m := 0x804F7) (z := s) (v := x0) ?_ (fun h0 => ?_); rotate_left; clear_value x0; rotate_left; dsimp -zeta only [x0]; clear x0)
    | (extract_lets -descend +onlyGivenNames x0; clear_value x0)
    | with_reducible intro _
    | lift_lets
    | with_reducible assumption
    | (with_reducible first | apply State.lossRecord_keeps | apply State.store_keeps | apply State.ringPut_keeps)
    | (with_reducible refine Keeps.mk0 ?_ ?g; (first | with_reducible assumption | (refine Keeps.snd ?_ (by assumption)) | (refine Keeps.some ?_ (by assumption)) | (with_reducible first | apply State.lossRecord_keeps | apply State.store_keeps | apply State.ringPut_keeps)); with_reducible case g => exact fun h => Keeps.mk' h)
    | (with_reducible apply Keeps.ite)
    | split
    | (refine Keeps.some ?_ (by assumption))
    | exact Sub.of rfl
    | dsimp only

theorem execEventFlashCopy_keeps {mk : Nat} {z s : State} (hk : Keeps mk z s) (hm : Sub 0x804F7 mk := by exact Sub.of rfl) :
    KeepsR mk z (execEventFlashCopy s) := by
  refine KeepsR.within hk hm ?_
  replace hk : Keeps 0x804F7 s s := .refl _
  unfold execEventFlashCopy
  repeat' first
    | with_reducible assumption
    | (with_reducible first | apply KeepsR.present | apply KeepsR.next | exact KeepsR.fault | apply present_keeps | apply State.flashCopy_keeps)
    | exact Sub.of rfl
    | dsimp only

theorem execOperatingHoursAdvance_keeps {mk : Nat} {z s : State} (hk : Keeps mk z s) (hm : Sub 0x10 mk := by exact Sub.of rfl) :
    KeepsR mk z (execOperatingHoursAdvance s) := by
  refine KeepsR.within hk hm ?_
  replace hk : Keeps 0x10 s s := .refl _
  unfold execOperatingHoursAdvance
  repeat' first
    | with_reducible assumption
    | (with_reducible first | apply KeepsR.present | apply KeepsR.next | exact KeepsR.fault)
    | (with_reducible refine Keeps.mk0 ?_ ?g; (first | with_reducible assumption | (refine Keeps.snd ?_ (by assumption)) | (refine Keeps.some ?_ (by assumption))); with_reducible case g => exact fun h => Keeps.mk' h)
    | (with_reducible apply Keeps.ite)
    | split
    | exact Sub.of rfl
    | dsimp only

end Sys2Proof.Machine
end

