-- ==== Sys2Proof/Laws/KeepsFirmware.lean ====
section
/-! SUPPORT. What the operations of Machine/Firmware.lean keep. -/

set_option Elab.async false

namespace Sys2Proof.Machine

theorem State.modFw_keeps {mk : Nat} {z s : State} (h : Keeps mk z s) (f : FwSt → FwSt) (hf : (f s.fw).data = s.fw.data ∧ (f s.fw).regions = s.fw.regions) (hm : Sub 0x400000 mk := by exact Sub.of rfl) :
    Keeps mk z (State.modFw s f) := by
  refine h.within hm ?_
  replace h : Keeps 0x400000 s s := .refl _
  refine h.of rfl rfl rfl (fun i => ⟨i.regs, i.ports, i.exch, i.sensors, i.gens, i.doms, ?_, ?_⟩) (.refl _)
    (by intro p hp; cases p <;> first | exact rfl | exact ⟨rfl, rfl, rfl⟩ | exact absurd hp (by decide) | exact hf.2)
  · show Memory.wf 0 (f s.fw).data = true
    rw [hf.1]; exact i.data
  · show ∀ r ∈ (f s.fw).regions, _
    rw [hf.2]; exact i.image

theorem State.modRegion_keeps {mk : Nat} {z s : State} (h : Keeps mk z s) (n : Nat) (f : Region → Region)
    (hf : ∀ r : Region, Memory.wf 0xFF r.mem = true → Memory.wf 0xFF (f r).mem = true) (hm : Sub 0x8400000 mk := by exact Sub.of rfl) :
    Keeps mk z (State.modRegion s n f) := by
  refine h.within hm ?_
  replace h : Keeps 0x8400000 s s := .refl _
  exact h.of rfl rfl rfl (fun i => ⟨i.regs, i.ports, i.exch, i.sensors, i.gens, i.doms, i.data, modNth_all _ _ _ i.image hf⟩) (.refl _) (by intro p hp; cases p <;> first | exact rfl | exact ⟨rfl, rfl, rfl⟩ | exact absurd hp (by decide))

theorem State.setDirty_keeps {mk : Nat} {z s : State} (hk : Keeps mk z s) (k : Nat) (b : Bool) (hm : Sub 0x1 mk := by exact Sub.of rfl) :
    Keeps mk z (State.setDirty s k b) := by
  refine hk.within hm ?_
  replace hk : Keeps 0x1 s s := .refl _
  unfold State.setDirty
  repeat' first
    | (extract_lets -descend +onlyGivenNames x0; refine Keeps.cut (m := 0x1) (z := s) (v := x0) ?_ (fun h0 => ?_); rotate_left; clear_value x0; rotate_left; dsimp -zeta only [x0]; clear x0)
    | (extract_lets -descend +onlyGivenNames x0; clear_value x0)
    | lift_lets
    | with_reducible assumption
    | with_reducible apply State.wr_keeps
    | (with_reducible apply Keeps.ite)
    | split
    | exact Sub.of rfl
    | dsimp only

theorem State.slotSubmit_keeps {mk : Nat} {z s : State} (hk : Keeps mk z s) (k v : Nat) (hm : Sub 0x1 mk := by exact Sub.of rfl) :
    Keeps mk z (State.slotSubmit s k v) := by
  refine hk.within hm ?_
  replace hk : Keeps 0x1 s s := .refl _
  unfold State.slotSubmit
  repeat' first
    | (extract_lets -descend +onlyGivenNames x0; refine Keeps.cut (m := 0x1) (z := s) (v := x0) ?_ (fun h0 => ?_); rotate_left; clear_value x0; rotate_left; dsimp -zeta only [x0]; clear x0)
    | (extract_lets -descend +onlyGivenNames x0; clear_value x0)
    | lift_lets
    | with_reducible assumption
    | (with_reducible first | apply State.wr_keeps | apply State.setDirty_keeps)
    | (with_reducible apply Keeps.ite)
    | split
    | exact Sub.of rfl
    | dsimp only

theorem execCommandSlotSubmit_keeps {mk : Nat} {z s : State} (hk : Keeps mk z s) (a : Acc) (slot : Nat) (data : Word) (hm : Sub 0x804F7 mk := by exact Sub.of rfl) :
    KeepsR mk z (execCommandSlotSubmit a slot data s) := by
  refine KeepsR.within hk hm ?_
  replace hk : Keeps 0x804F7 s s := .refl _
  unfold execCommandSlotSubmit
  repeat' first
    | with_reducible intro _
    | with_reducible assumption
    | (with_reducible first | apply KeepsR.present | apply KeepsR.next | exact KeepsR.fault | apply State.guardedWrite_keeps | apply State.slotSubmit_keeps)
    | exact Sub.of rfl
    | dsimp only

theorem State.cmdTake_keeps {mk : Nat} {z s : State} (hk : Keeps mk z s) (k : Nat) (hm : Sub 0x400003 mk := by exact Sub.of rfl) :
    Keeps mk z (State.cmdTake s k) := by
  refine hk.within hm ?_
  replace hk : Keeps 0x400003 s s := .refl _
  unfold State.cmdTake
  repeat' first
    | (extract_lets -descend +onlyGivenNames x0; refine Keeps.cut (m := 0x400003) (z := s) (v := x0) ?_ (fun h0 => ?_); rotate_left; clear_value x0; rotate_left; dsimp -zeta only [x0]; clear x0)
    | (extract_lets -descend +onlyGivenNames x0; clear_value x0)
    | with_reducible intro _
    | lift_lets
    | with_reducible assumption
    | (with_reducible first | apply State.wr_keeps | apply State.cmdDone_keeps | apply State.setDirty_keeps)
    | (with_reducible refine State.modFw_keeps ?_ _ ⟨rfl, rfl⟩)
    | (with_reducible refine Keeps.mk0 ?_ ?g; (first | with_reducible assumption | (refine Keeps.snd ?_ (by assumption)) | (refine Keeps.some ?_ (by assumption)) | (with_reducible first | apply State.wr_keeps | apply State.cmdDone_keeps | apply State.setDirty_keeps)); with_reducible case g => exact fun h => Keeps.mk' h)
    | (with_reducible apply Keeps.ite)
    | split
    | (refine Keeps.some ?_ (by assumption))
    | exact Sub.of rfl
    | dsimp only

theorem State.bulkCheck_keeps {mk : Nat} {z s : State} (hk : Keeps mk z s) (hm : Sub 0x400003 mk := by exact Sub.of rfl) :
    Keeps mk z (State.bulkCheck s) := by
  refine hk.within hm ?_
  replace hk : Keeps 0x400003 s s := .refl _
  unfold State.bulkCheck
  repeat' first
    | with_reducible intro _
    | with_reducible assumption
    | with_reducible apply State.cmdDone_keeps
    | (with_reducible refine State.modFw_keeps ?_ _ ⟨rfl, rfl⟩)
    | (with_reducible refine Keeps.mk0 ?_ ?g; (first | with_reducible assumption | (refine Keeps.snd ?_ (by assumption)) | (refine Keeps.some ?_ (by assumption)) | (with_reducible first | apply State.cmdDone_keeps)); with_reducible case g => exact fun h => Keeps.mk' h)
    | (with_reducible apply Keeps.ite)
    | split
    | (refine Keeps.some ?_ (by assumption))
    | exact Sub.of rfl
    | dsimp only

theorem State.deferShow_keeps {mk : Nat} {z s : State} (hk : Keeps mk z s) (hm : Sub 0x1 mk := by exact Sub.of rfl) :
    Keeps mk z (State.deferShow s) := by
  refine hk.within hm ?_
  replace hk : Keeps 0x1 s s := .refl _
  unfold State.deferShow
  repeat' first
    | with_reducible assumption
    | with_reducible apply State.wr_keeps
    | split
    | (refine Keeps.some ?_ (by assumption))
    | exact Sub.of rfl
    | dsimp only

theorem State.fwTick_keeps {mk : Nat} {z s : State} (hk : Keeps mk z s) (hm : Sub 0x400003 mk := by exact Sub.of rfl) :
    Keeps mk z (State.fwTick s) := by
  refine hk.within hm ?_
  replace hk : Keeps 0x400003 s s := .refl _
  unfold State.fwTick
  repeat' first
    | (extract_lets -descend +onlyGivenNames x0; refine Keeps.cut (m := 0x400003) (z := s) (v := x0) ?_ (fun h0 => ?_); rotate_left; clear_value x0; rotate_left; dsimp -zeta only [x0]; clear x0)
    | (extract_lets -descend +onlyGivenNames x0; clear_value x0)
    | with_reducible intro _
    | lift_lets
    | with_reducible assumption
    | (with_reducible first | apply State.cmdTake_keeps | apply State.bulkCheck_keeps | apply State.deferShow_keeps)
    | (with_reducible refine State.modFw_keeps ?_ _ ⟨rfl, rfl⟩)
    | (with_reducible refine Keeps.mk0 ?_ ?g; (first | with_reducible assumption | (refine Keeps.snd ?_ (by assumption)) | (refine Keeps.some ?_ (by assumption)) | (with_reducible first | apply State.cmdTake_keeps | apply State.bulkCheck_keeps | apply State.deferShow_keeps)); with_reducible case g => exact fun h => Keeps.mk' h)
    | (with_reducible apply Keeps.ite)
    | (with_reducible apply Keeps.foldl)
    | split
    | exact Sub.of rfl
    | dsimp only

theorem execFirmwareTick_keeps {mk : Nat} {z s : State} (hk : Keeps mk z s) (hm : Sub 0x400003 mk := by exact Sub.of rfl) :
    KeepsR mk z (execFirmwareTick s) := by
  refine KeepsR.within hk hm ?_
  replace hk : Keeps 0x400003 s s := .refl _
  unfold execFirmwareTick
  repeat' first
    | with_reducible assumption
    | (with_reducible first | apply KeepsR.present | apply KeepsR.next | exact KeepsR.fault | apply present_keeps | apply State.fwTick_keeps)
    | exact Sub.of rfl
    | dsimp only

theorem State.cmdRun_keeps {mk : Nat} {z s : State} (hk : Keeps mk z s) (op k : Nat) (run : State → State) (h_run : ∀ a0, Keeps mk z a0 → Keeps mk z (run a0))
    (hm : Sub 0x0 mk := by exact Sub.of rfl) : Keeps mk z (State.cmdRun s op k run) := by
  unfold State.cmdRun
  repeat' first
    | with_reducible assumption
    | with_reducible apply h_run
    | (with_reducible apply Keeps.ite)
    | split
    | exact (Sub.of rfl).trans hm
    | dsimp only

theorem State.planLoad_keeps {mk : Nat} {z s : State} (hk : Keeps mk z s) (k : Nat) (hm : Sub 0x15EE7F7 mk := by exact Sub.of rfl) :
    Keeps mk z (State.planLoad s k) := by
  refine hk.within hm ?_
  replace hk : Keeps 0x15EE7F7 s s := .refl _
  unfold State.planLoad
  repeat' first
    | (extract_lets -descend +onlyGivenNames x0; refine Keeps.cut (m := 0x15EE7F7) (z := s) (v := x0) ?_ (fun h0 => ?_); rotate_left; clear_value x0; rotate_left; dsimp -zeta only [x0]; clear x0)
    | (extract_lets -descend +onlyGivenNames x0; clear_value x0)
    | lift_lets
    | with_reducible assumption
    | (with_reducible first | apply State.takePlan_keeps | apply State.cmdDone_keeps)
    | (with_reducible apply Keeps.ite)
    | split
    | (refine Keeps.some ?_ (by assumption))
    | (refine Keeps.snd ?_ (by assumption))
    | exact Sub.of rfl
    | dsimp only

theorem execPlanLoad_keeps {mk : Nat} {z s : State} (hk : Keeps mk z s) (slot : Nat) (hm : Sub 0x15EE7F7 mk := by exact Sub.of rfl) :
    KeepsR mk z (execPlanLoad slot s) := by
  refine KeepsR.within hk hm ?_
  replace hk : Keeps 0x15EE7F7 s s := .refl _
  unfold execPlanLoad
  repeat' first
    | with_reducible intro _
    | with_reducible assumption
    | (with_reducible first | apply KeepsR.present | apply KeepsR.next | exact KeepsR.fault | apply present_keeps | apply State.cmdRun_keeps | apply State.planLoad_keeps)
    | exact Sub.of rfl
    | dsimp only

theorem State.chunkSend_keeps {mk : Nat} {z s : State} (hk : Keeps mk z s) (ports : List Nat) (r : Rec) (hm : Sub 0x1994F7 mk := by exact Sub.of rfl) :
    Keeps mk z (State.chunkSend s ports r) := by
  refine hk.within hm ?_
  replace hk : Keeps 0x1994F7 s s := .refl _
  unfold State.chunkSend
  repeat' first
    | (extract_lets -descend +onlyGivenNames x0; refine Keeps.cut (m := 0x1994F7) (z := s) (v := x0) ?_ (fun h0 => ?_); rotate_left; clear_value x0; rotate_left; dsimp -zeta only [x0]; clear x0)
    | (extract_lets -descend +onlyGivenNames x0; clear_value x0)
    | with_reducible intro _
    | lift_lets
    | with_reducible assumption
    | (with_reducible first | apply State.dropped_keeps | apply State.sendPort_keeps | apply State.modelChunk_keeps | apply State.patChunk_keeps)
    | (with_reducible apply Keeps.ite)
    | (with_reducible apply Keeps.foldl)
    | split
    | exact Sub.of rfl
    | dsimp only

theorem State.bulkSend_keeps {mk : Nat} {z s : State} (hk : Keeps mk z s) (k : Nat) (hm : Sub 0x5994F7 mk := by exact Sub.of rfl) :
    Keeps mk z (State.bulkSend s k) := by
  refine hk.within hm ?_
  replace hk : Keeps 0x5994F7 s s := .refl _
  unfold State.bulkSend
  repeat' first
    | (extract_lets -descend +onlyGivenNames x0; refine Keeps.cut (m := 0x5994F7) (z := s) (v := x0) ?_ (fun h0 => ?_); rotate_left; clear_value x0; rotate_left; dsimp -zeta only [x0]; clear x0)
    | (extract_lets -descend +onlyGivenNames x0; clear_value x0)
    | with_reducible intro _
    | lift_lets
    | with_reducible assumption
    | (with_reducible first | apply State.originate_keeps | apply State.cmdDone_keeps | apply State.chunkSend_keeps)
    | (with_reducible refine State.modFw_keeps ?_ _ ⟨rfl, rfl⟩)
    | (with_reducible refine Keeps.mk0 ?_ ?g; (first | with_reducible assumption | (refine Keeps.snd ?_ (by assumption)) | (refine Keeps.some ?_ (by assumption)) | (with_reducible first | apply State.originate_keeps | apply State.cmdDone_keeps | apply State.chunkSend_keeps)); with_reducible case g => exact fun h => Keeps.mk' h)
    | (with_reducible apply Keeps.ite)
    | (with_reducible apply Keeps.foldl)
    | (with_reducible apply Keeps.foldlSnd)
    | (with_reducible apply Keeps.foldlFst)
    | split
    | (refine Keeps.some ?_ (by assumption))
    | (refine Keeps.snd ?_ (by assumption))
    | exact Sub.of rfl
    | dsimp only

theorem execBulkSend_keeps {mk : Nat} {z s : State} (hk : Keeps mk z s) (slot : Nat) (hm : Sub 0x5994F7 mk := by exact Sub.of rfl) :
    KeepsR mk z (execBulkSend slot s) := by
  refine KeepsR.within hk hm ?_
  replace hk : Keeps 0x5994F7 s s := .refl _
  unfold execBulkSend
  repeat' first
    | with_reducible intro _
    | with_reducible assumption
    | (with_reducible first | apply KeepsR.present | apply KeepsR.next | exact KeepsR.fault | apply present_keeps | apply State.cmdRun_keeps | apply State.bulkSend_keeps)
    | (with_reducible apply Keeps.ite)
    | split
    | exact Sub.of rfl
    | dsimp only

theorem State.signedReq_keeps {mk : Nat} {z s : State} (hk : Keeps mk z s) (k : Nat) (hm : Sub 0x16804F7 mk := by exact Sub.of rfl) :
    Keeps mk z (State.signedReq s k) := by
  refine hk.within hm ?_
  replace hk : Keeps 0x16804F7 s s := .refl _
  unfold State.signedReq
  repeat' first
    | (extract_lets -descend +onlyGivenNames x0; refine Keeps.cut (m := 0x16804F7) (z := s) (v := x0) ?_ (fun h0 => ?_); rotate_left; clear_value x0; rotate_left; dsimp -zeta only [x0]; clear x0)
    | (extract_lets -descend +onlyGivenNames x0; clear_value x0)
    | lift_lets
    | with_reducible assumption
    | (with_reducible first | apply State.draw_keeps | apply State.sendLocal_keeps | apply State.cmdDone_keeps | apply State.signedIn_keeps)
    | (with_reducible apply Keeps.ite)
    | split
    | (refine Keeps.some ?_ (by assumption))
    | (refine Keeps.snd ?_ (by assumption))
    | exact Sub.of rfl
    | dsimp only

theorem execSignedReq_keeps {mk : Nat} {z s : State} (hk : Keeps mk z s) (slot : Nat) (hm : Sub 0x16804F7 mk := by exact Sub.of rfl) :
    KeepsR mk z (execSignedReq slot s) := by
  refine KeepsR.within hk hm ?_
  replace hk : Keeps 0x16804F7 s s := .refl _
  unfold execSignedReq
  repeat' first
    | with_reducible intro _
    | with_reducible assumption
    | (with_reducible first | apply KeepsR.present | apply KeepsR.next | exact KeepsR.fault | apply present_keeps | apply State.cmdRun_keeps | apply State.signedReq_keeps)
    | (with_reducible apply Keeps.ite)
    | split
    | exact Sub.of rfl
    | dsimp only

theorem State.abortSlot_keeps {mk : Nat} {z s : State} (hk : Keeps mk z s) (k : Nat) (hm : Sub 0x400003 mk := by exact Sub.of rfl) :
    Keeps mk z (State.abortSlot s k) := by
  refine hk.within hm ?_
  replace hk : Keeps 0x400003 s s := .refl _
  unfold State.abortSlot
  repeat' first
    | (extract_lets -descend +onlyGivenNames x0; refine Keeps.cut (m := 0x400003) (z := s) (v := x0) ?_ (fun h0 => ?_); rotate_left; clear_value x0; rotate_left; dsimp -zeta only [x0]; clear x0)
    | (extract_lets -descend +onlyGivenNames x0; clear_value x0)
    | with_reducible intro _
    | lift_lets
    | with_reducible assumption
    | with_reducible apply State.cmdDone_keeps
    | (with_reducible refine State.modFw_keeps ?_ _ ⟨rfl, rfl⟩)
    | (with_reducible refine Keeps.mk0 ?_ ?g; (first | with_reducible assumption | (refine Keeps.snd ?_ (by assumption)) | (refine Keeps.some ?_ (by assumption)) | (with_reducible first | apply State.cmdDone_keeps)); with_reducible case g => exact fun h => Keeps.mk' h)
    | (with_reducible apply Keeps.ite)
    | split
    | exact Sub.of rfl
    | dsimp only

theorem execAbortCmd_keeps {mk : Nat} {z s : State} (hk : Keeps mk z s) (slot : Nat) (hm : Sub 0x400003 mk := by exact Sub.of rfl) :
    KeepsR mk z (execAbortCmd slot s) := by
  refine KeepsR.within hk hm ?_
  replace hk : Keeps 0x400003 s s := .refl _
  unfold execAbortCmd
  repeat' first
    | with_reducible intro _
    | with_reducible assumption
    | (with_reducible first | apply KeepsR.present | apply KeepsR.next | exact KeepsR.fault | apply present_keeps | apply State.cmdRun_keeps | apply State.abortSlot_keeps)
    | exact Sub.of rfl
    | dsimp only

theorem State.imgStage_keeps {mk : Nat} {z s : State} (h : Keeps mk z s) (k : Nat) (hm : Sub 0x8400003 mk := by exact Sub.of rfl) :
    Keeps mk z (State.imgStage s k) := by
  refine h.within hm ?_
  replace h : Keeps 0x8400003 s s := .refl _
  unfold State.imgStage
  split
  · exact State.cmdDone_keeps h _ _ _
  · split
    · exact State.cmdDone_keeps h _ _ _
    · exact State.cmdDone_keeps (State.modRegion_keeps h _ _ (fun _ w => memWrite_wf _ _ _ _ w)) _ _ _

theorem execImgStage_keeps {mk : Nat} {z s : State} (hk : Keeps mk z s) (slot : Nat) (hm : Sub 0x8400003 mk := by exact Sub.of rfl) :
    KeepsR mk z (execImgStage slot s) := by
  refine KeepsR.within hk hm ?_
  replace hk : Keeps 0x8400003 s s := .refl _
  unfold execImgStage
  repeat' first
    | with_reducible intro _
    | with_reducible assumption
    | (with_reducible first | apply KeepsR.present | apply KeepsR.next | exact KeepsR.fault | apply present_keeps | apply State.cmdRun_keeps | apply State.imgStage_keeps)
    | exact Sub.of rfl
    | dsimp only

theorem State.imgCommit_keeps {mk : Nat} {z s : State} (hk : Keeps mk z s) (k : Nat) (hm : Sub 0x8400003 mk := by exact Sub.of rfl) :
    Keeps mk z (State.imgCommit s k) := by
  refine hk.within hm ?_
  replace hk : Keeps 0x8400003 s s := .refl _
  unfold State.imgCommit
  repeat' first
    | (extract_lets -descend +onlyGivenNames x0; refine Keeps.cut (m := 0x8400003) (z := s) (v := x0) ?_ (fun h0 => ?_); rotate_left; clear_value x0; rotate_left; dsimp -zeta only [x0]; clear x0)
    | (extract_lets -descend +onlyGivenNames x0; clear_value x0)
    | with_reducible intro _
    | lift_lets
    | with_reducible assumption
    | with_reducible apply State.cmdDone_keeps
    | (with_reducible refine State.modRegion_keeps ?_ _ _ (fun _ w => w))
    | (with_reducible refine Keeps.mk0 ?_ ?g; (first | with_reducible assumption | (refine Keeps.snd ?_ (by assumption)) | (refine Keeps.some ?_ (by assumption)) | (with_reducible first | apply State.cmdDone_keeps)); with_reducible case g => exact fun h => Keeps.mk' h)
    | (with_reducible apply Keeps.ite)
    | split
    | exact Sub.of rfl
    | dsimp only

theorem execImgCommit_keeps {mk : Nat} {z s : State} (hk : Keeps mk z s) (slot : Nat) (hm : Sub 0x8400003 mk := by exact Sub.of rfl) :
    KeepsR mk z (execImgCommit slot s) := by
  refine KeepsR.within hk hm ?_
  replace hk : Keeps 0x8400003 s s := .refl _
  unfold execImgCommit
  repeat' first
    | with_reducible intro _
    | with_reducible assumption
    | (with_reducible first | apply KeepsR.present | apply KeepsR.next | exact KeepsR.fault | apply present_keeps | apply State.cmdRun_keeps | apply State.imgCommit_keeps)
    | exact Sub.of rfl
    | dsimp only

theorem State.actStart_keeps {mk : Nat} {z s : State} (hk : Keeps mk z s) (i : Nat) (hm : Sub 0x8420000 mk := by exact Sub.of rfl) :
    Keeps mk z (State.actStart s i) := by
  refine hk.within hm ?_
  replace hk : Keeps 0x8420000 s s := .refl _
  unfold State.actStart
  repeat' first
    | (extract_lets -descend +onlyGivenNames x0; refine Keeps.cut (m := 0x8420000) (z := s) (v := x0) ?_ (fun h0 => ?_); rotate_left; clear_value x0; rotate_left; dsimp -zeta only [x0]; clear x0)
    | (extract_lets -descend +onlyGivenNames x0; clear_value x0)
    | with_reducible intro _
    | lift_lets
    | with_reducible assumption
    | with_reducible apply State.asmAbandon_keeps
    | (with_reducible refine State.modRegion_keeps ?_ _ _ (fun _ w => w))
    | (with_reducible refine State.modFw_keeps ?_ _ ⟨rfl, rfl⟩)
    | (with_reducible refine Keeps.mk0 ?_ ?g; (first | with_reducible assumption | (refine Keeps.snd ?_ (by assumption)) | (refine Keeps.some ?_ (by assumption)) | (with_reducible first | apply State.asmAbandon_keeps)); with_reducible case g => exact fun h => Keeps.mk' h)
    | (with_reducible apply Keeps.ite)
    | split
    | exact Sub.of rfl
    | dsimp only

theorem State.imgActivate_keeps {mk : Nat} {z s : State} (hk : Keeps mk z s) (k : Nat) (hm : Sub 0x8420003 mk := by exact Sub.of rfl) :
    Keeps mk z (State.imgActivate s k) := by
  refine hk.within hm ?_
  replace hk : Keeps 0x8420003 s s := .refl _
  unfold State.imgActivate
  repeat' first
    | with_reducible intro _
    | with_reducible assumption
    | (with_reducible first | apply State.wr_keeps | apply State.irq_keeps | apply State.cmdDone_keeps | apply State.actStart_keeps)
    | (with_reducible refine State.modFw_keeps ?_ _ ⟨rfl, rfl⟩)
    | (with_reducible refine Keeps.mk0 ?_ ?g; (first | with_reducible assumption | (refine Keeps.snd ?_ (by assumption)) | (refine Keeps.some ?_ (by assumption)) | (with_reducible first | apply State.wr_keeps | apply State.irq_keeps | apply State.cmdDone_keeps | apply State.actStart_keeps)); with_reducible case g => exact fun h => Keeps.mk' h)
    | (with_reducible apply Keeps.ite)
    | split
    | (refine Keeps.some ?_ (by assumption))
    | exact Sub.of rfl
    | dsimp only

theorem execImgActivate_keeps {mk : Nat} {z s : State} (hk : Keeps mk z s) (slot : Nat) (hm : Sub 0x8420003 mk := by exact Sub.of rfl) :
    KeepsR mk z (execImgActivate slot s) := by
  refine KeepsR.within hk hm ?_
  replace hk : Keeps 0x8420003 s s := .refl _
  unfold execImgActivate
  repeat' first
    | with_reducible intro _
    | with_reducible assumption
    | (with_reducible first | apply KeepsR.present | apply KeepsR.next | exact KeepsR.fault | apply present_keeps | apply State.cmdRun_keeps | apply State.imgActivate_keeps)
    | (with_reducible apply Keeps.ite)
    | split
    | exact Sub.of rfl
    | dsimp only

theorem State.actResume_keeps {mk : Nat} {z s : State} (hk : Keeps mk z s) (hm : Sub 0x8420003 mk := by exact Sub.of rfl) :
    Keeps mk z (State.actResume s) := by
  refine hk.within hm ?_
  replace hk : Keeps 0x8420003 s s := .refl _
  unfold State.actResume
  repeat' first
    | with_reducible intro _
    | with_reducible assumption
    | (with_reducible first | apply State.cmdDone_keeps | apply State.actStart_keeps)
    | (with_reducible refine State.modFw_keeps ?_ _ ⟨rfl, rfl⟩)
    | (with_reducible refine Keeps.mk0 ?_ ?g; (first | with_reducible assumption | (refine Keeps.snd ?_ (by assumption)) | (refine Keeps.some ?_ (by assumption)) | (with_reducible first | apply State.cmdDone_keeps | apply State.actStart_keeps)); with_reducible case g => exact fun h => Keeps.mk' h)
    | (with_reducible apply Keeps.ite)
    | split
    | (refine Keeps.some ?_ (by assumption))
    | exact Sub.of rfl
    | dsimp only

theorem execActivationResume_keeps {mk : Nat} {z s : State} (hk : Keeps mk z s) (hm : Sub 0x8420003 mk := by exact Sub.of rfl) :
    KeepsR mk z (execActivationResume s) := by
  refine KeepsR.within hk hm ?_
  replace hk : Keeps 0x8420003 s s := .refl _
  unfold execActivationResume
  repeat' first
    | with_reducible assumption
    | (with_reducible first | apply KeepsR.present | apply KeepsR.next | exact KeepsR.fault | apply present_keeps | apply State.actResume_keeps)
    | exact Sub.of rfl
    | dsimp only

theorem State.actAbandon_keeps {mk : Nat} {z s : State} (hk : Keeps mk z s) (cause : Nat) (hm : Sub 0x4804F7 mk := by exact Sub.of rfl) :
    Keeps mk z (State.actAbandon s cause) := by
  refine hk.within hm ?_
  replace hk : Keeps 0x4804F7 s s := .refl _
  unfold State.actAbandon
  repeat' first
    | with_reducible intro _
    | with_reducible assumption
    | (with_reducible first | apply State.irq_keeps | apply State.event_keeps | apply State.cmdDone_keeps)
    | (with_reducible refine State.modFw_keeps ?_ _ ⟨rfl, rfl⟩)
    | (with_reducible refine Keeps.mk0 ?_ ?g; (first | with_reducible assumption | (refine Keeps.snd ?_ (by assumption)) | (refine Keeps.some ?_ (by assumption)) | (with_reducible first | apply State.irq_keeps | apply State.event_keeps | apply State.cmdDone_keeps)); with_reducible case g => exact fun h => Keeps.mk' h)
    | split
    | (refine Keeps.some ?_ (by assumption))
    | exact Sub.of rfl
    | dsimp only

theorem execActivationAbandonTimeout_keeps {mk : Nat} {z s : State} (hk : Keeps mk z s) (hm : Sub 0x4804F7 mk := by exact Sub.of rfl) :
    KeepsR mk z (execActivationAbandonTimeout s) := by
  refine KeepsR.within hk hm ?_
  replace hk : Keeps 0x4804F7 s s := .refl _
  unfold execActivationAbandonTimeout
  repeat' first
    | with_reducible assumption
    | (with_reducible first | apply KeepsR.present | apply KeepsR.next | exact KeepsR.fault | apply present_keeps | apply State.actAbandon_keeps)
    | (with_reducible apply Keeps.ite)
    | split
    | (refine Keeps.some ?_ (by assumption))
    | exact Sub.of rfl
    | dsimp only

theorem State.heldForward_keeps {mk : Nat} {z s : State} (hk : Keeps mk z s) (hm : Sub 0x480471 mk := by exact Sub.of rfl) :
    Keeps mk z (State.heldForward s) := by
  refine hk.within hm ?_
  replace hk : Keeps 0x480471 s s := .refl _
  unfold State.heldForward
  repeat' first
    | (extract_lets -descend +onlyGivenNames x0; refine Keeps.cut (m := 0x480471) (z := s) (v := x0) ?_ (fun h0 => ?_); rotate_left; clear_value x0; rotate_left; dsimp -zeta only [x0]; clear x0)
    | (extract_lets -descend +onlyGivenNames x0; clear_value x0)
    | with_reducible intro _
    | lift_lets
    | with_reducible assumption
    | with_reducible apply State.bulkOn_keeps
    | (with_reducible refine State.modFw_keeps ?_ _ ⟨rfl, rfl⟩)
    | (with_reducible refine Keeps.mk0 ?_ ?g; (first | with_reducible assumption | (refine Keeps.snd ?_ (by assumption)) | (refine Keeps.some ?_ (by assumption)) | (with_reducible first | apply State.bulkOn_keeps)); with_reducible case g => exact fun h => Keeps.mk' h)
    | (with_reducible apply Keeps.foldl)
    | exact Sub.of rfl
    | dsimp only

theorem State.abortOwned_keeps {mk : Nat} {z s : State} (hk : Keeps mk z s) (but status : Nat) (hm : Sub 0x400003 mk := by exact Sub.of rfl) :
    Keeps mk z (State.abortOwned s but status) := by
  refine hk.within hm ?_
  replace hk : Keeps 0x400003 s s := .refl _
  unfold State.abortOwned
  repeat' first
    | with_reducible intro _
    | with_reducible assumption
    | (with_reducible first | apply State.cmdDone_keeps | apply State.setDirty_keeps)
    | (with_reducible refine State.modFw_keeps ?_ _ ⟨rfl, rfl⟩)
    | (with_reducible refine Keeps.mk0 ?_ ?g; (first | with_reducible assumption | (refine Keeps.snd ?_ (by assumption)) | (refine Keeps.some ?_ (by assumption)) | (with_reducible first | apply State.cmdDone_keeps | apply State.setDirty_keeps)); with_reducible case g => exact fun h => Keeps.mk' h)
    | (with_reducible apply Keeps.ite)
    | (with_reducible apply Keeps.foldl)
    | split
    | exact Sub.of rfl
    | dsimp only

theorem State.blackoutEnd_keeps {mk : Nat} {z s : State} (hk : Keeps mk z s) (hm : Sub 0x480473 mk := by exact Sub.of rfl) :
    Keeps mk z (State.blackoutEnd s) := by
  refine hk.within hm ?_
  replace hk : Keeps 0x480473 s s := .refl _
  unfold State.blackoutEnd
  repeat' first
    | (extract_lets -descend +onlyGivenNames x0; refine Keeps.cut (m := 0x480473) (z := s) (v := x0) ?_ (fun h0 => ?_); rotate_left; clear_value x0; rotate_left; dsimp -zeta only [x0]; clear x0)
    | (extract_lets -descend +onlyGivenNames x0; clear_value x0)
    | with_reducible intro _
    | lift_lets
    | with_reducible assumption
    | (with_reducible first | apply State.wr_keeps | apply State.irq_keeps | apply State.askerDone_keeps | apply State.heldForward_keeps | apply State.abortOwned_keeps)
    | (with_reducible refine State.modFw_keeps ?_ _ ⟨rfl, rfl⟩)
    | (with_reducible refine Keeps.mk0 ?_ ?g; (first | with_reducible assumption | (refine Keeps.snd ?_ (by assumption)) | (refine Keeps.some ?_ (by assumption)) | (with_reducible first | apply State.wr_keeps | apply State.irq_keeps | apply State.askerDone_keeps | apply State.heldForward_keeps | apply State.abortOwned_keeps)); with_reducible case g => exact fun h => Keeps.mk' h)
    | (with_reducible apply Keeps.ite)
    | split
    | (refine Keeps.some ?_ (by assumption))
    | exact Sub.of rfl
    | dsimp only

theorem execActivationBlackoutEnd_keeps {mk : Nat} {z s : State} (hk : Keeps mk z s) (hm : Sub 0x480473 mk := by exact Sub.of rfl) :
    KeepsR mk z (execActivationBlackoutEnd s) := by
  refine KeepsR.within hk hm ?_
  replace hk : Keeps 0x480473 s s := .refl _
  unfold execActivationBlackoutEnd
  repeat' first
    | with_reducible assumption
    | (with_reducible first | apply KeepsR.present | apply KeepsR.next | exact KeepsR.fault | apply present_keeps | apply State.blackoutEnd_keeps)
    | exact Sub.of rfl
    | dsimp only

theorem State.copyRegions_keeps {mk : Nat} {z s : State} (h : Keeps mk z s) (hm : Sub 0x8400000 mk := by exact Sub.of rfl) :
    Keeps mk z (State.copyRegions s) := by
  refine h.within hm ?_
  replace h : Keeps 0x8400000 s s := .refl _
  exact h.of rfl rfl rfl (fun i => ⟨i.regs, i.ports, i.exch, i.sensors, i.gens, i.doms, i.data, fun r hr => by
    rcases List.mem_append.mp hr with hr | hr <;> exact i.image r (List.mem_of_mem_take hr)⟩) (.refl _)
    (by intro p hp; cases p <;> first | exact rfl | exact ⟨rfl, rfl, rfl⟩ | exact absurd hp (by decide))

theorem State.trialConfirm_keeps {mk : Nat} {z s : State} (hk : Keeps mk z s) (hm : Sub 0x86804F7 mk := by exact Sub.of rfl) :
    Keeps mk z (State.trialConfirm s) := by
  refine hk.within hm ?_
  replace hk : Keeps 0x86804F7 s s := .refl _
  unfold State.trialConfirm
  repeat' first
    | (extract_lets -descend +onlyGivenNames x0; refine Keeps.cut (m := 0x86804F7) (z := s) (v := x0) ?_ (fun h0 => ?_); rotate_left; clear_value x0; rotate_left; dsimp -zeta only [x0]; clear x0)
    | (extract_lets -descend +onlyGivenNames x0; clear_value x0)
    | with_reducible intro _
    | lift_lets
    | with_reducible assumption
    | (with_reducible first | apply State.writerQueue_keeps | apply State.copyRegions_keeps)
    | (with_reducible refine State.modRegion_keeps ?_ _ _ (fun _ w => w))
    | (with_reducible refine Keeps.mk0 ?_ ?g; (first | with_reducible assumption | (refine Keeps.snd ?_ (by assumption)) | (refine Keeps.some ?_ (by assumption)) | (with_reducible first | apply State.writerQueue_keeps | apply State.copyRegions_keeps)); with_reducible case g => exact fun h => Keeps.mk' h)
    | (with_reducible apply Keeps.ite)
    | split
    | exact Sub.of rfl
    | dsimp only

theorem execTrialConfirm_keeps {mk : Nat} {z s : State} (hk : Keeps mk z s) (hm : Sub 0x86804F7 mk := by exact Sub.of rfl) :
    KeepsR mk z (execTrialConfirm s) := by
  refine KeepsR.within hk hm ?_
  replace hk : Keeps 0x86804F7 s s := .refl _
  unfold execTrialConfirm
  repeat' first
    | with_reducible assumption
    | (with_reducible first | apply KeepsR.present | apply KeepsR.next | exact KeepsR.fault | apply present_keeps | apply State.trialConfirm_keeps)
    | exact Sub.of rfl
    | dsimp only

theorem execManagementWatchdogExpiry_keeps {mk : Nat} {z s : State} (hk : Keeps mk z s) (hm : Sub 0x420003 mk := by exact Sub.of rfl) :
    KeepsR mk z (execManagementWatchdogExpiry s) := by
  refine KeepsR.within hk hm ?_
  replace hk : Keeps 0x420003 s s := .refl _
  unfold execManagementWatchdogExpiry
  repeat' first
    | with_reducible intro _
    | with_reducible assumption
    | (with_reducible first | apply KeepsR.present | apply KeepsR.next | exact KeepsR.fault | apply State.bumpSat_keeps | apply State.irq_keeps | apply present_keeps | apply State.asmAbandon_keeps)
    | (with_reducible refine State.modFw_keeps ?_ _ ⟨rfl, rfl⟩)
    | (with_reducible refine Keeps.mk0 ?_ ?g; (first | with_reducible assumption | (refine Keeps.snd ?_ (by assumption)) | (refine Keeps.some ?_ (by assumption)) | (with_reducible first | apply State.bumpSat_keeps | apply State.irq_keeps | apply present_keeps | apply State.asmAbandon_keeps)); with_reducible case g => exact fun h => Keeps.mk' h)
    | (with_reducible apply Keeps.ite)
    | split
    | exact Sub.of rfl
    | dsimp only

theorem State.romTry_keeps {mk : Nat} {z s : State} (h : Keeps mk z s) (l : List Nat) (hm : Sub 0x8400000 mk := by exact Sub.of rfl) :
    Keeps mk z (State.romTry l s).2 := by
  induction l generalizing s with
  | nil => exact h
  | cons i r ih =>
    unfold State.romTry
    split
    · exact h
    · exact ih (State.modRegion_keeps h _ _ (fun _ w => w) ((Sub.of rfl).trans hm))

theorem State.romDevice_keeps {mk : Nat} {z s : State} (h : Keeps mk z s) (b : Nat) (hm : Sub 0x8400000 mk := by exact Sub.of rfl) :
    Keeps mk z (State.romDevice s b).2.2 := by
  refine h.within hm ?_
  replace h : Keeps 0x8400000 s s := .refl _
  unfold State.romDevice
  extract_lets t o
  have ht : Keeps 0x8400000 s t := Keeps.foldl _ _ _ h (fun u hu a => Keeps.ite (State.modRegion_keeps hu _ _ (fun _ w => w)) hu)
  clear_value t
  have := State.romTry_keeps ht o
  generalize State.romTry o t = p at this
  exact this

theorem State.markAttempt_keeps {mk : Nat} {z s : State} (h : Keeps mk z s) (i : Nat) (hm : Sub 0x8400000 mk := by exact Sub.of rfl) :
    Keeps mk z (State.markAttempt s i) := by
  refine h.within hm ?_
  replace h : Keeps 0x8400000 s s := .refl _
  exact State.modRegion_keeps h _ _ (fun r w => by split <;> exact w)

theorem State.romStart_keeps {mk : Nat} {z s : State} (hk : Keeps mk z s) (i : Nat) (hm : Sub 0x8480473 mk := by exact Sub.of rfl) :
    Keeps mk z (State.romStart s i) := by
  refine hk.within hm ?_
  replace hk : Keeps 0x8480473 s s := .refl _
  unfold State.romStart
  repeat' first
    | (extract_lets -descend +onlyGivenNames x0; refine Keeps.cut (m := 0x8480473) (z := s) (v := x0) ?_ (fun h0 => ?_); rotate_left; clear_value x0; rotate_left; dsimp -zeta only [x0]; clear x0)
    | (extract_lets -descend +onlyGivenNames x0; clear_value x0)
    | with_reducible intro _
    | lift_lets
    | with_reducible assumption
    | (with_reducible first | apply State.irq_keeps | apply State.cmdDone_keeps | apply State.heldForward_keeps | apply State.markAttempt_keeps)
    | (with_reducible refine State.modFw_keeps ?_ _ ⟨rfl, rfl⟩)
    | (with_reducible refine Keeps.mk0 ?_ ?g; (first | with_reducible assumption | (refine Keeps.snd ?_ (by assumption)) | (refine Keeps.some ?_ (by assumption)) | (with_reducible first | apply State.irq_keeps | apply State.cmdDone_keeps | apply State.heldForward_keeps | apply State.markAttempt_keeps)); with_reducible case g => exact fun h => Keeps.mk' h)
    | (with_reducible apply Keeps.ite)
    | (with_reducible apply Keeps.foldl)
    | split
    | exact Sub.of rfl
    | dsimp only

theorem State.romFail_keeps {mk : Nat} {z s : State} (hk : Keeps mk z s) (tried : Nat) (hm : Sub 0x4804F7 mk := by exact Sub.of rfl) :
    Keeps mk z (State.romFail s tried) := by
  refine hk.within hm ?_
  replace hk : Keeps 0x4804F7 s s := .refl _
  unfold State.romFail
  repeat' first
    | (extract_lets -descend +onlyGivenNames x0; refine Keeps.cut (m := 0x4804F7) (z := s) (v := x0) ?_ (fun h0 => ?_); rotate_left; clear_value x0; rotate_left; dsimp -zeta only [x0]; clear x0)
    | (extract_lets -descend +onlyGivenNames x0; clear_value x0)
    | with_reducible intro _
    | lift_lets
    | with_reducible assumption
    | (with_reducible first | apply State.event_keeps | apply State.cmdDone_keeps)
    | (with_reducible refine State.modFw_keeps ?_ _ ⟨rfl, rfl⟩)
    | (with_reducible refine Keeps.mk0 ?_ ?g; (first | with_reducible assumption | (refine Keeps.snd ?_ (by assumption)) | (refine Keeps.some ?_ (by assumption)) | (with_reducible first | apply State.event_keeps | apply State.cmdDone_keeps)); with_reducible case g => exact fun h => Keeps.mk' h)
    | (with_reducible apply Keeps.foldl)
    | exact Sub.of rfl
    | dsimp only

theorem State.romSecond_keeps {mk : Nat} {z s : State} (h : Keeps mk z s) (bits : Nat) (hm : Sub 0x84804F7 mk := by exact Sub.of rfl) :
    Keeps mk z (State.romSecond s bits) := by
  refine h.within hm ?_
  replace h : Keeps 0x84804F7 s s := .refl _
  unfold State.romSecond
  refine Keeps.ite ?_ (State.romFail_keeps h _)
  have h1 := State.romDevice_keeps h 2
  generalize State.romDevice s 2 = p at h1 ⊢
  obtain ⟨a, y, t⟩ := p
  cases y with
  | none => exact State.romFail_keeps h1 _
  | some i => exact State.romStart_keeps h1 _

theorem State.romDevices_keeps {mk : Nat} {z s : State} (hk : Keeps mk z s) (hm : Sub 0x1 mk := by exact Sub.of rfl) :
    Keeps mk z (State.romDevices s) := by
  refine hk.within hm ?_
  replace hk : Keeps 0x1 s s := .refl _
  unfold State.romDevices
  repeat' first
    | (extract_lets -descend +onlyGivenNames x0; refine Keeps.cut (m := 0x1) (z := s) (v := x0) ?_ (fun h0 => ?_); rotate_left; clear_value x0; rotate_left; dsimp -zeta only [x0]; clear x0)
    | (extract_lets -descend +onlyGivenNames x0; clear_value x0)
    | with_reducible intro _
    | lift_lets
    | with_reducible assumption
    | with_reducible apply State.wr_keeps
    | (with_reducible apply Keeps.ite)
    | (with_reducible apply Keeps.foldl)
    | split
    | exact Sub.of rfl
    | dsimp only

theorem State.romBoot_keeps {mk : Nat} {z s : State} (h : Keeps mk z s) (hm : Sub 0x84804F7 mk := by exact Sub.of rfl) :
    Keeps mk z (State.romBoot s) := by
  refine h.within hm ?_
  replace h : Keeps 0x84804F7 s s := .refl _
  unfold State.romBoot
  refine Keeps.ite h ?_
  have h1 := State.romDevice_keeps (State.romDevices_keeps h) 0
  generalize State.romDevice s.romDevices 0 = p at h1 ⊢
  obtain ⟨a, y, t⟩ := p
  cases y with
  | none => exact State.romSecond_keeps h1 _
  | some i => exact State.romStart_keeps h1 _

theorem execRomBoot_keeps {mk : Nat} {z s : State} (hk : Keeps mk z s) (hm : Sub 0x84804F7 mk := by exact Sub.of rfl) :
    KeepsR mk z (execRomBoot s) := by
  refine KeepsR.within hk hm ?_
  replace hk : Keeps 0x84804F7 s s := .refl _
  unfold execRomBoot
  repeat' first
    | with_reducible assumption
    | (with_reducible first | apply KeepsR.present | apply KeepsR.next | exact KeepsR.fault | apply present_keeps | apply State.romBoot_keeps)
    | exact Sub.of rfl
    | dsimp only

theorem State.dataNext_keeps {mk : Nat} {z s : State} (hk : Keeps mk z s) (hm : Sub 0x1 mk := by exact Sub.of rfl) :
    Keeps mk z (State.dataNext s).2 := by
  refine hk.within hm ?_
  replace hk : Keeps 0x1 s s := .refl _
  unfold State.dataNext
  repeat' first
    | (extract_lets -descend +onlyGivenNames x0; refine Keeps.cut (m := 0x1) (z := s) (v := x0) ?_ (fun h0 => ?_); rotate_left; clear_value x0; rotate_left; dsimp -zeta only [x0]; clear x0)
    | (extract_lets -descend +onlyGivenNames x0; clear_value x0)
    | lift_lets
    | with_reducible assumption
    | with_reducible apply State.wr_keeps
    | exact Sub.of rfl
    | dsimp only

theorem State.dataRead_keeps {mk : Nat} {z s : State} (hk : Keeps mk z s) (hm : Sub 0x1000001 mk := by exact Sub.of rfl) :
    Keeps mk z (State.dataRead s).2 := by
  refine hk.within hm ?_
  replace hk : Keeps 0x1000001 s s := .refl _
  unfold State.dataRead
  repeat' first
    | (extract_lets -descend +onlyGivenNames x0; refine Keeps.cut (m := 0x1000001) (z := s) (v := x0) ?_ (fun h0 => ?_); rotate_left; clear_value x0; rotate_left; dsimp -zeta only [x0]; clear x0)
    | (extract_lets -descend +onlyGivenNames x0; clear_value x0)
    | lift_lets
    | with_reducible assumption
    | (with_reducible first | apply State.draw_keeps | apply State.dataNext_keeps)
    | (with_reducible apply Keeps.ite)
    | split
    | (refine Keeps.snd ?_ (by assumption))
    | exact Sub.of rfl
    | dsimp only

theorem State.dataWrite_keeps {mk : Nat} {z s : State} (h : Keeps mk z s) (v : Nat) (hm : Sub 0x400001 mk := by exact Sub.of rfl) :
    Keeps mk z (State.dataWrite s v) := by
  refine h.within hm ?_
  replace h : Keeps 0x400001 s s := .refl _
  unfold State.dataWrite
  have hn := State.dataNext_keeps h
  generalize State.dataNext s = p at hn
  obtain ⟨a, t⟩ := p
  dsimp only at hn ⊢
  split
  · exact hn.of rfl rfl rfl (fun i => ⟨i.regs, i.ports, i.exch, i.sensors, i.gens, i.doms, memWrite_wf _ _ _ _ i.data, i.image⟩) (.refl _) (by intro p hp; cases p <;> first | exact rfl | exact ⟨rfl, rfl, rfl⟩ | exact absurd hp (by decide))
  · exact hn

theorem execFwDataAccess_keeps {mk : Nat} {z s : State} (hk : Keeps mk z s) (a : Acc) (write : Bool) (data : Word) (hm : Sub 0x14804F7 mk := by exact Sub.of rfl) :
    KeepsR mk z (execFwDataAccess a write data s) := by
  refine KeepsR.within hk hm ?_
  replace hk : Keeps 0x14804F7 s s := .refl _
  unfold execFwDataAccess
  repeat' first
    | with_reducible intro _
    | with_reducible assumption
    | (with_reducible first | apply KeepsR.present | apply KeepsR.next | exact KeepsR.fault | apply State.guardedWrite_keeps | apply State.guardedRead_keeps | apply State.dataRead_keeps | apply State.dataWrite_keeps)
    | (with_reducible apply Keeps.ite)
    | split
    | exact Sub.of rfl
    | dsimp only

theorem State.modeNotify_keeps {mk : Nat} {z s : State} (hk : Keeps mk z s) (hm : Sub 0x80471 mk := by exact Sub.of rfl) :
    Keeps mk z (State.modeNotify s) := by
  refine hk.within hm ?_
  replace hk : Keeps 0x80471 s s := .refl _
  unfold State.modeNotify
  repeat' first
    | with_reducible intro _
    | with_reducible assumption
    | with_reducible apply State.sendLocal_keeps
    | (with_reducible apply Keeps.ite)
    | (with_reducible apply Keeps.foldl)
    | split
    | exact Sub.of rfl
    | dsimp only

theorem State.uaEnter_keeps {mk : Nat} {z s : State} (hk : Keeps mk z s) (hm : Sub 0x4804F7 mk := by exact Sub.of rfl) :
    Keeps mk z (State.uaEnter s) := by
  refine hk.within hm ?_
  replace hk : Keeps 0x4804F7 s s := .refl _
  unfold State.uaEnter
  repeat' first
    | (extract_lets -descend +onlyGivenNames x0; refine Keeps.cut (m := 0x4804F7) (z := s) (v := x0) ?_ (fun h0 => ?_); rotate_left; clear_value x0; rotate_left; dsimp -zeta only [x0]; clear x0)
    | (extract_lets -descend +onlyGivenNames x0; first
        | ((with_reducible first | have _w : LinkSt := x0 | have _w : TimeSt := x0 | have _w : PowerSt := x0 | have _w : SampSt := x0 | have _w : FwSt := x0 | have _w : AuthSt := x0 | have _w : PulseSt := x0 | have _w : CoreSt := x0); clear _w; dsimp -zeta only [x0]; clear x0)
        | clear_value x0)
    | with_reducible intro _
    | lift_lets
    | with_reducible assumption
    | (with_reducible first | apply KeepsR.present | apply KeepsR.next | exact KeepsR.fault | exact KeepsO.none | apply KeepsO.some | apply State.wr_keeps | apply State.bumpSat_keeps | apply State.irq_keeps | apply State.actAbandon_keeps | apply State.modeNotify_keeps)
    | (with_reducible refine State.modRegion_keeps ?_ _ _ (fun _ w => w))
    | (with_reducible refine State.modFw_keeps ?_ _ ⟨rfl, rfl⟩)
    | (with_reducible refine State.modAuth_keeps ?_ _ ⟨rfl, rfl⟩)
    | (with_reducible refine Keeps.mk0 ?_ ?g; (first | with_reducible assumption | (refine Keeps.snd ?_ (by assumption)) | (refine Keeps.some ?_ (by assumption)) | (with_reducible first | apply State.wr_keeps | apply State.bumpSat_keeps | apply State.irq_keeps | apply State.actAbandon_keeps | apply State.modeNotify_keeps)); with_reducible case g => exact fun h => Keeps.mk' h)
    | (with_reducible apply Keeps.ite)
    | (with_reducible apply Keeps.foldl)
    | (with_reducible apply Keeps.foldlSnd)
    | (with_reducible apply Keeps.foldlFst)
    | split
    | (refine Keeps.some ?_ (by assumption))
    | (refine Keeps.snd ?_ (by assumption))
    | exact Sub.of rfl
    | dsimp only

theorem State.uaLeave_keeps {mk : Nat} {z s : State} (hk : Keeps mk z s) (hm : Sub 0x804F7 mk := by exact Sub.of rfl) :
    Keeps mk z (State.uaLeave s) := by
  refine hk.within hm ?_
  replace hk : Keeps 0x804F7 s s := .refl _
  unfold State.uaLeave
  repeat' first
    | (extract_lets -descend +onlyGivenNames x0; refine Keeps.cut (m := 0x804F7) (z := s) (v := x0) ?_ (fun h0 => ?_); rotate_left; clear_value x0; rotate_left; dsimp -zeta only [x0]; clear x0)
    | (extract_lets -descend +onlyGivenNames x0; first
        | ((with_reducible first | have _w : LinkSt := x0 | have _w : TimeSt := x0 | have _w : PowerSt := x0 | have _w : SampSt := x0 | have _w : FwSt := x0 | have _w : AuthSt := x0 | have _w : PulseSt := x0 | have _w : CoreSt := x0); clear _w; dsimp -zeta only [x0]; clear x0)
        | clear_value x0)
    | with_reducible intro _
    | lift_lets
    | with_reducible assumption
    | (with_reducible first | apply KeepsR.present | apply KeepsR.next | exact KeepsR.fault | exact KeepsO.none | apply KeepsO.some | apply State.wr_keeps | apply State.irq_keeps | apply State.event_keeps | apply State.modeNotify_keeps)
    | (with_reducible refine State.modRegion_keeps ?_ _ _ (fun _ w => w))
    | (with_reducible refine State.modFw_keeps ?_ _ ⟨rfl, rfl⟩)
    | (with_reducible refine State.modAuth_keeps ?_ _ ⟨rfl, rfl⟩)
    | (with_reducible refine Keeps.mk0 ?_ ?g; (first | with_reducible assumption | (refine Keeps.snd ?_ (by assumption)) | (refine Keeps.some ?_ (by assumption)) | (with_reducible first | apply State.wr_keeps | apply State.irq_keeps | apply State.event_keeps | apply State.modeNotify_keeps)); with_reducible case g => exact fun h => Keeps.mk' h)
    | (with_reducible apply Keeps.ite)
    | (with_reducible apply Keeps.foldl)
    | (with_reducible apply Keeps.foldlSnd)
    | (with_reducible apply Keeps.foldlFst)
    | split
    | (refine Keeps.some ?_ (by assumption))
    | (refine Keeps.snd ?_ (by assumption))
    | exact Sub.of rfl
    | dsimp only

theorem State.heartbeat_keeps {mk : Nat} {z s : State} (hk : Keeps mk z s) (hm : Sub 0x4804F7 mk := by exact Sub.of rfl) :
    Keeps mk z (State.heartbeat s) := by
  refine hk.within hm ?_
  replace hk : Keeps 0x4804F7 s s := .refl _
  unfold State.heartbeat
  repeat' first
    | (extract_lets -descend +onlyGivenNames x0; refine Keeps.cut (m := 0x4804F7) (z := s) (v := x0) ?_ (fun h0 => ?_); rotate_left; clear_value x0; rotate_left; dsimp -zeta only [x0]; clear x0)
    | (extract_lets -descend +onlyGivenNames x0; clear_value x0)
    | with_reducible intro _
    | lift_lets
    | with_reducible assumption
    | with_reducible apply State.uaLeave_keeps
    | (with_reducible refine State.modFw_keeps ?_ _ ⟨rfl, rfl⟩)
    | (with_reducible refine Keeps.mk0 ?_ ?g; (first | with_reducible assumption | (refine Keeps.snd ?_ (by assumption)) | (refine Keeps.some ?_ (by assumption)) | (with_reducible first | apply State.uaLeave_keeps)); with_reducible case g => exact fun h => Keeps.mk' h)
    | (with_reducible apply Keeps.ite)
    | split
    | exact Sub.of rfl
    | dsimp only

theorem execFwHeartbeat_keeps {mk : Nat} {z s : State} (hk : Keeps mk z s) (a : Acc) (data : Word) (hm : Sub 0x4804F7 mk := by exact Sub.of rfl) :
    KeepsR mk z (execFwHeartbeat a data s) := by
  refine KeepsR.within hk hm ?_
  replace hk : Keeps 0x4804F7 s s := .refl _
  unfold execFwHeartbeat
  repeat' first
    | with_reducible intro _
    | with_reducible assumption
    | (with_reducible first | apply KeepsR.present | apply KeepsR.next | exact KeepsR.fault | apply State.guardedWrite_keeps | apply State.heartbeat_keeps)
    | exact Sub.of rfl
    | dsimp only

theorem execHeartbeatLate_keeps {mk : Nat} {z s : State} (hk : Keeps mk z s) (hm : Sub 0x400003 mk := by exact Sub.of rfl) :
    KeepsR mk z (execHeartbeatLate s) := by
  refine KeepsR.within hk hm ?_
  replace hk : Keeps 0x400003 s s := .refl _
  unfold execHeartbeatLate
  repeat' first
    | with_reducible intro _
    | with_reducible assumption
    | (with_reducible first | apply KeepsR.present | apply KeepsR.next | exact KeepsR.fault | apply State.irq_keeps | apply present_keeps)
    | (with_reducible refine State.modFw_keeps ?_ _ ⟨rfl, rfl⟩)
    | (with_reducible refine Keeps.mk0 ?_ ?g; (first | with_reducible assumption | (refine Keeps.snd ?_ (by assumption)) | (refine Keeps.some ?_ (by assumption)) | (with_reducible first | apply State.irq_keeps | apply present_keeps)); with_reducible case g => exact fun h => Keeps.mk' h)
    | (with_reducible apply Keeps.ite)
    | split
    | exact Sub.of rfl
    | dsimp only

theorem execUnattendedEntry_keeps {mk : Nat} {z s : State} (hk : Keeps mk z s) (hm : Sub 0x4804F7 mk := by exact Sub.of rfl) :
    KeepsR mk z (execUnattendedEntry s) := by
  refine KeepsR.within hk hm ?_
  replace hk : Keeps 0x4804F7 s s := .refl _
  unfold execUnattendedEntry
  repeat' first
    | with_reducible assumption
    | (with_reducible first | apply KeepsR.present | apply KeepsR.next | exact KeepsR.fault | apply present_keeps | apply State.uaEnter_keeps)
    | (with_reducible apply Keeps.ite)
    | split
    | exact Sub.of rfl
    | dsimp only

theorem State.modeNotice_keeps {mk : Nat} {z s : State} (hk : Keeps mk z s) (r : Rec) (hm : Sub 0x2 mk := by exact Sub.of rfl) :
    Keeps mk z (State.modeNotice s r) := by
  refine hk.within hm ?_
  replace hk : Keeps 0x2 s s := .refl _
  unfold State.modeNotice
  repeat' first
    | with_reducible assumption
    | (with_reducible refine Keeps.mk0 ?_ ?g; (first | with_reducible assumption | (refine Keeps.snd ?_ (by assumption)) | (refine Keeps.some ?_ (by assumption))); with_reducible case g => exact fun h => Keeps.mk' h)
    | (with_reducible apply Keeps.ite)
    | split
    | exact Sub.of rfl
    | dsimp only

theorem execModeNoticeReceived_keeps {mk : Nat} {z s : State} (hk : Keeps mk z s) (rec : Rec) (hm : Sub 0x2 mk := by exact Sub.of rfl) :
    KeepsR mk z (execModeNoticeReceived rec s) := by
  refine KeepsR.within hk hm ?_
  replace hk : Keeps 0x2 s s := .refl _
  unfold execModeNoticeReceived
  repeat' first
    | with_reducible assumption
    | (with_reducible first | apply KeepsR.present | apply KeepsR.next | exact KeepsR.fault | apply present_keeps | apply State.modeNotice_keeps)
    | exact Sub.of rfl
    | dsimp only

theorem State.uaAck_keeps {mk : Nat} {z s : State} (hk : Keeps mk z s) (v : Nat) (hm : Sub 0x1 mk := by exact Sub.of rfl) :
    Keeps mk z (State.uaAck s v) := by
  refine hk.within hm ?_
  replace hk : Keeps 0x1 s s := .refl _
  unfold State.uaAck
  repeat' first
    | with_reducible intro _
    | with_reducible assumption
    | with_reducible apply State.wr_keeps
    | (with_reducible apply Keeps.ite)
    | (with_reducible apply Keeps.foldl)
    | split
    | exact Sub.of rfl
    | dsimp only

theorem execFwUaAck_keeps {mk : Nat} {z s : State} (hk : Keeps mk z s) (a : Acc) (data : Word) (hm : Sub 0x804F7 mk := by exact Sub.of rfl) :
    KeepsR mk z (execFwUaAck a data s) := by
  refine KeepsR.within hk hm ?_
  replace hk : Keeps 0x804F7 s s := .refl _
  unfold execFwUaAck
  repeat' first
    | with_reducible intro _
    | with_reducible assumption
    | (with_reducible first | apply KeepsR.present | apply KeepsR.next | exact KeepsR.fault | apply State.guardedWrite_keeps | apply State.uaAck_keeps)
    | exact Sub.of rfl
    | dsimp only

end Sys2Proof.Machine
end

