-- ==== Sys2Proof/Laws/KeepsPulses.lean ====
section
/-! SUPPORT. What the operations of Machine/Pulses.lean keep. -/

set_option Elab.async false

namespace Sys2Proof.Machine

theorem State.modGen_keeps {mk : Nat} {z s : State} (h : Keeps mk z s) (n : Nat) (f : Pulse → Pulse) (hm : Sub 0x8 mk := by exact Sub.of rfl) :
    Keeps mk z (State.modGen s n f) := by
  refine h.within hm ?_
  replace h : Keeps 0x8 s s := .refl _
  exact h.mk' ⟨rfl, modNth_length _ _ _, rfl, rfl, rfl, rfl, rfl, rfl⟩

theorem State.armGen_keeps {mk : Nat} {z s : State} (hk : Keeps mk z s) (n : Nat) (hm : Sub 0x8 mk := by exact Sub.of rfl) :
    Keeps mk z (State.armGen s n) := by
  refine hk.within hm ?_
  replace hk : Keeps 0x8 s s := .refl _
  unfold State.armGen
  repeat' first
    | (extract_lets -descend +onlyGivenNames x0; refine Keeps.cut (m := 0x8) (z := s) (v := x0) ?_ (fun h0 => ?_); rotate_left; clear_value x0; rotate_left; dsimp -zeta only [x0]; clear x0)
    | (extract_lets -descend +onlyGivenNames x0; clear_value x0)
    | with_reducible intro _
    | lift_lets
    | with_reducible assumption
    | with_reducible apply State.modGen_keeps
    | (with_reducible refine Keeps.mk0 ?_ ?g; (first | with_reducible assumption | (refine Keeps.snd ?_ (by assumption)) | (refine Keeps.some ?_ (by assumption)) | (with_reducible first | apply State.modGen_keeps)); with_reducible case g => exact fun h => Keeps.mk' h)
    | (with_reducible apply Keeps.ite)
    | split
    | (refine Keeps.some ?_ (by assumption))
    | exact Sub.of rfl
    | dsimp only

theorem State.pulseArm_keeps {mk : Nat} {z s : State} (hk : Keeps mk z s) (v : Nat) (hm : Sub 0x8 mk := by exact Sub.of rfl) :
    Keeps mk z (State.pulseArm s v) := by
  refine hk.within hm ?_
  replace hk : Keeps 0x8 s s := .refl _
  unfold State.pulseArm
  repeat' first
    | with_reducible intro _
    | with_reducible assumption
    | with_reducible apply State.armGen_keeps
    | (with_reducible apply Keeps.ite)
    | (with_reducible apply Keeps.foldl)
    | split
    | exact Sub.of rfl
    | dsimp only

theorem State.pulseDisarm_keeps {mk : Nat} {z s : State} (hk : Keeps mk z s) (v : Nat) (hm : Sub 0x8 mk := by exact Sub.of rfl) :
    Keeps mk z (State.pulseDisarm s v) := by
  refine hk.within hm ?_
  replace hk : Keeps 0x8 s s := .refl _
  unfold State.pulseDisarm
  repeat' first
    | with_reducible intro _
    | with_reducible assumption
    | with_reducible apply State.modGen_keeps
    | (with_reducible refine Keeps.mk0 ?_ ?g; (first | with_reducible assumption | (refine Keeps.snd ?_ (by assumption)) | (refine Keeps.some ?_ (by assumption)) | (with_reducible first | apply State.modGen_keeps)); with_reducible case g => exact fun h => Keeps.mk' h)
    | (with_reducible apply Keeps.ite)
    | (with_reducible apply Keeps.foldl)
    | split
    | exact Sub.of rfl
    | dsimp only

theorem execPulseArm_keeps {mk : Nat} {z s : State} (hk : Keeps mk z s) (a : Acc) (data : Word) (hm : Sub 0x804FF mk := by exact Sub.of rfl) :
    KeepsR mk z (execPulseArm a data s) := by
  refine KeepsR.within hk hm ?_
  replace hk : Keeps 0x804FF s s := .refl _
  unfold execPulseArm
  repeat' first
    | with_reducible intro _
    | with_reducible assumption
    | (with_reducible first | apply KeepsR.present | apply KeepsR.next | exact KeepsR.fault | apply State.guardedWrite_keeps | apply State.pulseArm_keeps)
    | exact Sub.of rfl
    | dsimp only

theorem execPulseDisarm_keeps {mk : Nat} {z s : State} (hk : Keeps mk z s) (a : Acc) (data : Word) (hm : Sub 0x804FF mk := by exact Sub.of rfl) :
    KeepsR mk z (execPulseDisarm a data s) := by
  refine KeepsR.within hk hm ?_
  replace hk : Keeps 0x804FF s s := .refl _
  unfold execPulseDisarm
  repeat' first
    | with_reducible intro _
    | with_reducible assumption
    | (with_reducible first | apply KeepsR.present | apply KeepsR.next | exact KeepsR.fault | apply State.guardedWrite_keeps | apply State.pulseDisarm_keeps)
    | exact Sub.of rfl
    | dsimp only

theorem execPulseEdge_keeps {mk : Nat} {z s : State} (hk : Keeps mk z s) (n : Nat) (hm : Sub 0x8 mk := by exact Sub.of rfl) :
    KeepsR mk z (execPulseEdge n s) := by
  refine KeepsR.within hk hm ?_
  replace hk : Keeps 0x8 s s := .refl _
  unfold execPulseEdge
  repeat' first
    | with_reducible intro _
    | with_reducible assumption
    | (with_reducible first | apply KeepsR.present | apply KeepsR.next | exact KeepsR.fault | apply present_keeps | apply State.modGen_keeps)
    | exact Sub.of rfl
    | dsimp only

theorem State.modCap_keeps {mk : Nat} {z s : State} (hk : Keeps mk z s) (c : Nat) (f : CapIn → CapIn) (hm : Sub 0x8 mk := by exact Sub.of rfl) :
    Keeps mk z (State.modCap s c f) := by
  refine hk.within hm ?_
  replace hk : Keeps 0x8 s s := .refl _
  unfold State.modCap
  repeat' first
    | with_reducible assumption
    | (with_reducible refine Keeps.mk0 ?_ ?g; (first | with_reducible assumption | (refine Keeps.snd ?_ (by assumption)) | (refine Keeps.some ?_ (by assumption))); with_reducible case g => exact fun h => Keeps.mk' h)
    | exact Sub.of rfl
    | dsimp only

theorem execCaptureEdge_keeps {mk : Nat} {z s : State} (hk : Keeps mk z s) (c : Nat) (rising : Bool) (hm : Sub 0x804FF mk := by exact Sub.of rfl) :
    KeepsR mk z (execCaptureEdge c rising s) := by
  refine KeepsR.within hk hm ?_
  replace hk : Keeps 0x804FF s s := .refl _
  unfold execCaptureEdge
  repeat' first
    | (extract_lets -descend +onlyGivenNames x0; refine Keeps.cut (m := 0x804FF) (z := s) (v := x0) ?_ (fun h0 => ?_); rotate_left; clear_value x0; rotate_left; dsimp -zeta only [x0]; clear x0)
    | (extract_lets -descend +onlyGivenNames x0; clear_value x0)
    | with_reducible intro _
    | lift_lets
    | with_reducible assumption
    | (with_reducible first | apply KeepsR.present | apply KeepsR.next | exact KeepsR.fault | apply State.bumpSat_keeps | apply present_keeps | apply State.event_keeps | apply State.modCap_keeps)
    | (with_reducible refine Keeps.mk0 ?_ ?g; (first | with_reducible assumption | (refine Keeps.snd ?_ (by assumption)) | (refine Keeps.some ?_ (by assumption)) | (with_reducible first | apply State.bumpSat_keeps | apply present_keeps | apply State.event_keeps | apply State.modCap_keeps)); with_reducible case g => exact fun h => Keeps.mk' h)
    | (with_reducible apply Keeps.ite)
    | split
    | exact Sub.of rfl
    | dsimp only

theorem State.capPop_keeps {mk : Nat} {z s : State} (hk : Keeps mk z s) (c v : Nat) (hm : Sub 0x8 mk := by exact Sub.of rfl) :
    Keeps mk z (State.capPop s c v) := by
  refine hk.within hm ?_
  replace hk : Keeps 0x8 s s := .refl _
  unfold State.capPop
  repeat' first
    | with_reducible intro _
    | with_reducible assumption
    | with_reducible apply State.modCap_keeps
    | (with_reducible refine Keeps.mk0 ?_ ?g; (first | with_reducible assumption | (refine Keeps.snd ?_ (by assumption)) | (refine Keeps.some ?_ (by assumption)) | (with_reducible first | apply State.modCap_keeps)); with_reducible case g => exact fun h => Keeps.mk' h)
    | (with_reducible apply Keeps.ite)
    | split
    | exact Sub.of rfl
    | dsimp only

theorem execCapPop_keeps {mk : Nat} {z s : State} (hk : Keeps mk z s) (a : Acc) (c : Nat) (data : Word) (hm : Sub 0x804FF mk := by exact Sub.of rfl) :
    KeepsR mk z (execCapPop a c data s) := by
  refine KeepsR.within hk hm ?_
  replace hk : Keeps 0x804FF s s := .refl _
  unfold execCapPop
  repeat' first
    | with_reducible intro _
    | with_reducible assumption
    | (with_reducible first | apply KeepsR.present | apply KeepsR.next | exact KeepsR.fault | apply State.guardedWrite_keeps | apply State.capPop_keeps)
    | exact Sub.of rfl
    | dsimp only

end Sys2Proof.Machine
end

