-- ==== Sys2Proof/Laws/KeepsRepair.lean ====
section
/-! SUPPORT. What the operations of Machine/Repair.lean keep. -/

set_option Elab.async false

namespace Sys2Proof.Machine

theorem State.modRep_keeps {mk : Nat} {z s : State} (hk : Keeps mk z s) (f : RepSt → RepSt) (hm : Sub 0x800000 mk := by exact Sub.of rfl) :
    Keeps mk z (State.modRep s f) := by
  refine hk.within hm ?_
  replace hk : Keeps 0x800000 s s := .refl _
  unfold State.modRep
  repeat' first
    | with_reducible assumption
    | (with_reducible refine Keeps.mk0 ?_ ?g; (first | with_reducible assumption | (refine Keeps.snd ?_ (by assumption)) | (refine Keeps.some ?_ (by assumption))); with_reducible case g => exact fun h => Keeps.mk' h)
    | exact Sub.of rfl
    | dsimp only

theorem State.showDegraded_keeps {mk : Nat} {z s : State} (hk : Keeps mk z s) (hm : Sub 0x1 mk := by exact Sub.of rfl) :
    Keeps mk z (State.showDegraded s) := by
  refine hk.within hm ?_
  replace hk : Keeps 0x1 s s := .refl _
  unfold State.showDegraded
  repeat' first
    | with_reducible assumption
    | with_reducible apply State.wr_keeps
    | exact Sub.of rfl
    | dsimp only

theorem State.setFatal_keeps {mk : Nat} {z s : State} (hk : Keeps mk z s) (hm : Sub 0x3 mk := by exact Sub.of rfl) :
    Keeps mk z (State.setFatal s) := by
  refine hk.within hm ?_
  replace hk : Keeps 0x3 s s := .refl _
  unfold State.setFatal
  repeat' first
    | with_reducible assumption
    | (with_reducible first | apply State.wr_keeps | apply State.irq_keeps)
    | exact Sub.of rfl
    | dsimp only

theorem State.portBitSet_keeps {mk : Nat} {z s : State} (hk : Keeps mk z s) (p : Nat) (b : Bool) (hm : Sub 0x1 mk := by exact Sub.of rfl) :
    Keeps mk z (State.portBitSet s p b) := by
  refine hk.within hm ?_
  replace hk : Keeps 0x1 s s := .refl _
  unfold State.portBitSet
  repeat' first
    | (extract_lets -descend +onlyGivenNames x0; refine Keeps.cut (m := 0x1) (z := s) (v := x0) ?_ (fun h0 => ?_); rotate_left; clear_value x0; rotate_left; dsimp -zeta only [x0]; clear x0)
    | (extract_lets -descend +onlyGivenNames x0; clear_value x0)
    | lift_lets
    | with_reducible assumption
    | with_reducible apply State.wr_keeps
    | (with_reducible apply Keeps.ite)
    | split
    | exact Sub.of rfl
    | dsimp only

theorem State.itemsFresh_keeps {mk : Nat} {z s : State} (hk : Keeps mk z s) (d : Nat) (hm : Sub 0x21 mk := by exact Sub.of rfl) :
    Keeps mk z (State.itemsFresh s d) := by
  refine hk.within hm ?_
  replace hk : Keeps 0x21 s s := .refl _
  unfold State.itemsFresh
  repeat' first
    | (extract_lets -descend +onlyGivenNames x0; refine Keeps.cut (m := 0x21) (z := s) (v := x0) ?_ (fun h0 => ?_); rotate_left; clear_value x0; rotate_left; dsimp -zeta only [x0]; clear x0)
    | (extract_lets -descend +onlyGivenNames x0; clear_value x0)
    | with_reducible intro _
    | lift_lets
    | with_reducible assumption
    | (with_reducible first | apply State.wr_keeps | apply State.modPort_keeps | apply State.portBitSet_keeps)
    | (with_reducible refine Keeps.mk0 ?_ ?g; (first | with_reducible assumption | (refine Keeps.snd ?_ (by assumption)) | (refine Keeps.some ?_ (by assumption)) | (with_reducible first | apply State.wr_keeps | apply State.modPort_keeps | apply State.portBitSet_keeps)); with_reducible case g => exact fun h => Keeps.mk' h)
    | (with_reducible apply Keeps.ite)
    | (with_reducible apply Keeps.foldl)
    | split
    | exact Sub.of rfl
    | dsimp only

theorem State.unitOut1_keeps {mk : Nat} {z s : State} (hk : Keeps mk z s) (kind : Nat) (hm : Sub 0x3 mk := by exact Sub.of rfl) :
    Keeps mk z (State.unitOut1 s kind) := by
  refine hk.within hm ?_
  replace hk : Keeps 0x3 s s := .refl _
  unfold State.unitOut1
  repeat' first
    | (extract_lets -descend +onlyGivenNames x0; refine Keeps.cut (m := 0x3) (z := s) (v := x0) ?_ (fun h0 => ?_); rotate_left; clear_value x0; rotate_left; dsimp -zeta only [x0]; clear x0)
    | (extract_lets -descend +onlyGivenNames x0; clear_value x0)
    | lift_lets
    | with_reducible assumption
    | (with_reducible first | apply State.wr_keeps | apply State.irq_keeps)
    | (with_reducible apply Keeps.ite)
    | split
    | exact Sub.of rfl
    | dsimp only

theorem State.unitOutOf_keeps {mk : Nat} {z s : State} (hk : Keeps mk z s) (kind index : Nat) (hm : Sub 0x804F7 mk := by exact Sub.of rfl) :
    Keeps mk z (State.unitOutOf s kind index) := by
  refine hk.within hm ?_
  replace hk : Keeps 0x804F7 s s := .refl _
  unfold State.unitOutOf
  repeat' first
    | with_reducible assumption
    | (with_reducible first | apply State.event_keeps | apply State.unitOut1_keeps)
    | exact Sub.of rfl
    | dsimp only

theorem State.testFail_keeps {mk : Nat} {z s : State} (hk : Keeps mk z s) (d kind index : Nat) (hm : Sub 0x23 mk := by exact Sub.of rfl) :
    Keeps mk z (State.testFail s d kind index) := by
  refine hk.within hm ?_
  replace hk : Keeps 0x23 s s := .refl _
  unfold State.testFail
  repeat' first
    | with_reducible intro _
    | with_reducible assumption
    | (with_reducible first | apply State.irq_keeps | apply State.modPort_keeps | apply State.setFatal_keeps | apply State.portBitSet_keeps | apply State.unitOut1_keeps)
    | (with_reducible refine Keeps.mk0 ?_ ?g; (first | with_reducible assumption | (refine Keeps.snd ?_ (by assumption)) | (refine Keeps.some ?_ (by assumption)) | (with_reducible first | apply State.irq_keeps | apply State.modPort_keeps | apply State.setFatal_keeps | apply State.portBitSet_keeps | apply State.unitOut1_keeps)); with_reducible case g => exact fun h => Keeps.mk' h)
    | (with_reducible apply Keeps.ite)
    | split
    | exact Sub.of rfl
    | dsimp only

theorem State.failsTold_keeps {mk : Nat} {z s : State} (hk : Keeps mk z s) (d : Nat) (fails : List (Nat × Nat)) (hm : Sub 0x804F7 mk := by exact Sub.of rfl) :
    Keeps mk z (State.failsTold s d fails) := by
  refine hk.within hm ?_
  replace hk : Keeps 0x804F7 s s := .refl _
  unfold State.failsTold
  repeat' first
    | (extract_lets -descend +onlyGivenNames x0; refine Keeps.cut (m := 0x804F7) (z := s) (v := x0) ?_ (fun h0 => ?_); rotate_left; clear_value x0; rotate_left; dsimp -zeta only [x0]; clear x0)
    | (extract_lets -descend +onlyGivenNames x0; clear_value x0)
    | with_reducible intro _
    | lift_lets
    | with_reducible assumption
    | with_reducible apply State.event_keeps
    | (with_reducible apply Keeps.foldl)
    | exact Sub.of rfl
    | dsimp only

theorem State.testOver_keeps {mk : Nat} {z s : State} (hk : Keeps mk z s) (point d : Nat) (hm : Sub 0x15FFFF7 mk := by exact Sub.of rfl) :
    Keeps mk z (State.testOver s point d) := by
  refine hk.within hm ?_
  replace hk : Keeps 0x15FFFF7 s s := .refl _
  unfold State.testOver
  repeat' first
    | (extract_lets -descend +onlyGivenNames x0; refine Keeps.cut (m := 0x15FFFF7) (z := s) (v := x0) ?_ (fun h0 => ?_); rotate_left; clear_value x0; rotate_left; dsimp -zeta only [x0]; clear x0)
    | (extract_lets -descend +onlyGivenNames x0; clear_value x0)
    | with_reducible intro _
    | lift_lets
    | with_reducible assumption
    | (with_reducible first | apply State.modDom_keeps | apply State.landAll_keeps | apply State.becomeRun_keeps)
    | (with_reducible refine Keeps.mk0 ?_ ?g; (first | with_reducible assumption | (refine Keeps.snd ?_ (by assumption)) | (refine Keeps.some ?_ (by assumption)) | (with_reducible first | apply State.modDom_keeps | apply State.landAll_keeps | apply State.becomeRun_keeps)); with_reducible case g => exact fun h => Keeps.mk' h)
    | (with_reducible apply Keeps.ite)
    | split
    | exact Sub.of rfl
    | dsimp only

theorem State.selfTest_keeps {mk : Nat} {z s : State} (hk : Keeps mk z s) (point d : Nat) (fails : List (Nat × Nat)) (hm : Sub 0x35FFFF7 mk := by exact Sub.of rfl) :
    Keeps mk z (State.selfTest s point d fails) := by
  refine hk.within hm ?_
  replace hk : Keeps 0x35FFFF7 s s := .refl _
  unfold State.selfTest
  repeat' first
    | (extract_lets -descend +onlyGivenNames x0; refine Keeps.cut (m := 0x35FFFF7) (z := s) (v := x0) ?_ (fun h0 => ?_); rotate_left; clear_value x0; rotate_left; dsimp -zeta only [x0]; clear x0)
    | (extract_lets -descend +onlyGivenNames x0; clear_value x0)
    | with_reducible intro _
    | lift_lets
    | with_reducible assumption
    | (with_reducible first | apply State.wr_keeps | apply State.irq_keeps | apply present_keeps | apply State.modDom_keeps | apply State.event_keeps | apply State.linksFall_keeps | apply State.showDegraded_keeps | apply State.itemsFresh_keeps | apply State.testFail_keeps | apply State.failsTold_keeps | apply State.testOver_keeps)
    | (with_reducible refine Keeps.mk0 ?_ ?g; (first | with_reducible assumption | (refine Keeps.snd ?_ (by assumption)) | (refine Keeps.some ?_ (by assumption)) | (with_reducible first | apply State.wr_keeps | apply State.irq_keeps | apply present_keeps | apply State.modDom_keeps | apply State.event_keeps | apply State.linksFall_keeps | apply State.showDegraded_keeps | apply State.itemsFresh_keeps | apply State.testFail_keeps | apply State.failsTold_keeps | apply State.testOver_keeps)); with_reducible case g => exact fun h => Keeps.mk' h)
    | (with_reducible apply Keeps.ite)
    | (with_reducible apply Keeps.foldl)
    | split
    | (refine Keeps.some ?_ (by assumption))
    | exact Sub.of rfl
    | dsimp only

theorem execSelfTestComplete_keeps {mk : Nat} {z s : State} (hk : Keeps mk z s) (point d : Nat) (fails : List (Nat × Nat)) (hm : Sub 0x35FFFF7 mk := by exact Sub.of rfl) :
    KeepsR mk z (execSelfTestComplete point d fails s) := by
  refine KeepsR.within hk hm ?_
  replace hk : Keeps 0x35FFFF7 s s := .refl _
  unfold execSelfTestComplete
  repeat' first
    | with_reducible assumption
    | (with_reducible first | apply KeepsR.present | apply KeepsR.next | exact KeepsR.fault | apply present_keeps | apply State.selfTest_keeps)
    | exact Sub.of rfl
    | dsimp only

theorem State.bankGone_keeps {mk : Nat} {z s : State} (hk : Keeps mk z s) (kind inst : Nat) (hm : Sub 0x11EE5F7 mk := by exact Sub.of rfl) :
    Keeps mk z (State.bankGone s kind inst).2 := by
  refine hk.within hm ?_
  replace hk : Keeps 0x11EE5F7 s s := .refl _
  unfold State.bankGone
  repeat' first
    | (extract_lets -descend +onlyGivenNames x0; refine Keeps.cut (m := 0x11EE5F7) (z := s) (v := x0) ?_ (fun h0 => ?_); rotate_left; clear_value x0; rotate_left; dsimp -zeta only [x0]; clear x0)
    | (extract_lets -descend +onlyGivenNames x0; first
        | ((with_reducible first | have _w : LinkSt := x0 | have _w : TimeSt := x0 | have _w : PowerSt := x0 | have _w : SampSt := x0 | have _w : FwSt := x0 | have _w : AuthSt := x0 | have _w : PulseSt := x0 | have _w : CoreSt := x0); clear _w; dsimp -zeta only [x0]; clear x0)
        | clear_value x0)
    | with_reducible intro _
    | lift_lets
    | with_reducible assumption
    | (with_reducible first | apply KeepsR.present | apply KeepsR.next | exact KeepsR.fault | exact KeepsO.none | apply KeepsO.some | apply State.irq_keeps | apply State.draw_keeps | apply State.reinitAll_keeps | apply State.loseBank_keeps | apply State.setFatal_keeps | apply State.unitOutOf_keeps)
    | (with_reducible refine State.modRegion_keeps ?_ _ _ (fun _ w => w))
    | (with_reducible refine State.modFw_keeps ?_ _ ⟨rfl, rfl⟩)
    | (with_reducible refine State.modAuth_keeps ?_ _ ⟨rfl, rfl⟩)
    | (with_reducible refine Keeps.mk0 ?_ ?g; (first | with_reducible assumption | (refine Keeps.snd ?_ (by assumption)) | (refine Keeps.some ?_ (by assumption)) | (with_reducible first | apply State.irq_keeps | apply State.draw_keeps | apply State.reinitAll_keeps | apply State.loseBank_keeps | apply State.setFatal_keeps | apply State.unitOutOf_keeps)); with_reducible case g => exact fun h => Keeps.mk' h)
    | (with_reducible apply Keeps.ite)
    | (with_reducible apply Keeps.foldl)
    | (with_reducible apply Keeps.foldlSnd)
    | (with_reducible apply Keeps.foldlFst)
    | split
    | (refine Keeps.some ?_ (by assumption))
    | (refine Keeps.snd ?_ (by assumption))
    | exact Sub.of rfl
    | dsimp only

theorem State.bankRetire_keeps {mk : Nat} {z s : State} (hk : Keeps mk z s) (kind inst bank : Nat) (hm : Sub 0x19EE5F7 mk := by exact Sub.of rfl) :
    Keeps mk z (State.bankRetire s kind inst bank) := by
  refine hk.within hm ?_
  replace hk : Keeps 0x19EE5F7 s s := .refl _
  unfold State.bankRetire
  repeat' first
    | (extract_lets -descend +onlyGivenNames x0; refine Keeps.cut (m := 0x19EE5F7) (z := s) (v := x0) ?_ (fun h0 => ?_); rotate_left; clear_value x0; rotate_left; dsimp -zeta only [x0]; clear x0)
    | (extract_lets -descend +onlyGivenNames x0; clear_value x0)
    | with_reducible intro _
    | lift_lets
    | with_reducible assumption
    | (with_reducible first | apply State.wr_keeps | apply State.bumpSat_keeps | apply State.irq_keeps | apply State.event_keeps | apply State.modRep_keeps | apply State.showDegraded_keeps | apply State.bankGone_keeps)
    | (with_reducible refine Keeps.mk0 ?_ ?g; (first | with_reducible assumption | (refine Keeps.snd ?_ (by assumption)) | (refine Keeps.some ?_ (by assumption)) | (with_reducible first | apply State.wr_keeps | apply State.bumpSat_keeps | apply State.irq_keeps | apply State.event_keeps | apply State.modRep_keeps | apply State.showDegraded_keeps | apply State.bankGone_keeps)); with_reducible case g => exact fun h => Keeps.mk' h)
    | (with_reducible apply Keeps.ite)
    | split
    | (refine Keeps.snd ?_ (by assumption))
    | exact Sub.of rfl
    | dsimp only

theorem State.bankFail_keeps {mk : Nat} {z s : State} (hk : Keeps mk z s) (kind inst bank : Nat) (hm : Sub 0x19EE5F7 mk := by exact Sub.of rfl) :
    Keeps mk z (State.bankFail s kind inst bank) := by
  refine hk.within hm ?_
  replace hk : Keeps 0x19EE5F7 s s := .refl _
  unfold State.bankFail
  repeat' first
    | (extract_lets -descend +onlyGivenNames x0; refine Keeps.cut (m := 0x19EE5F7) (z := s) (v := x0) ?_ (fun h0 => ?_); rotate_left; clear_value x0; rotate_left; dsimp -zeta only [x0]; clear x0)
    | (extract_lets -descend +onlyGivenNames x0; clear_value x0)
    | with_reducible intro _
    | lift_lets
    | with_reducible assumption
    | (with_reducible first | apply State.modRep_keeps | apply State.bankRetire_keeps)
    | (with_reducible refine Keeps.mk0 ?_ ?g; (first | with_reducible assumption | (refine Keeps.snd ?_ (by assumption)) | (refine Keeps.some ?_ (by assumption)) | (with_reducible first | apply State.modRep_keeps | apply State.bankRetire_keeps)); with_reducible case g => exact fun h => Keeps.mk' h)
    | (with_reducible apply Keeps.ite)
    | split
    | exact Sub.of rfl
    | dsimp only

theorem State.rowRepair_keeps {mk : Nat} {z s : State} (hk : Keeps mk z s) (kind inst bank row cause : Nat) (hm : Sub 0x19EE5F7 mk := by exact Sub.of rfl) :
    Keeps mk z (State.rowRepair s kind inst bank row cause) := by
  refine hk.within hm ?_
  replace hk : Keeps 0x19EE5F7 s s := .refl _
  unfold State.rowRepair
  repeat' first
    | (extract_lets -descend +onlyGivenNames x0; refine Keeps.cut (m := 0x19EE5F7) (z := s) (v := x0) ?_ (fun h0 => ?_); rotate_left; clear_value x0; rotate_left; dsimp -zeta only [x0]; clear x0)
    | (extract_lets -descend +onlyGivenNames x0; clear_value x0)
    | with_reducible intro _
    | lift_lets
    | with_reducible assumption
    | (with_reducible first | apply State.wr_keeps | apply State.bumpSat_keeps | apply State.irq_keeps | apply State.event_keeps | apply State.modRep_keeps | apply State.bankFail_keeps)
    | (with_reducible refine Keeps.mk0 ?_ ?g; (first | with_reducible assumption | (refine Keeps.snd ?_ (by assumption)) | (refine Keeps.some ?_ (by assumption)) | (with_reducible first | apply State.wr_keeps | apply State.bumpSat_keeps | apply State.irq_keeps | apply State.event_keeps | apply State.modRep_keeps | apply State.bankFail_keeps)); with_reducible case g => exact fun h => Keeps.mk' h)
    | (with_reducible apply Keeps.ite)
    | split
    | (refine Keeps.some ?_ (by assumption))
    | exact Sub.of rfl
    | dsimp only

theorem execRowRepair_keeps {mk : Nat} {z s : State} (hk : Keeps mk z s) (kind inst bank row cause : Nat) (hm : Sub 0x19EE5F7 mk := by exact Sub.of rfl) :
    KeepsR mk z (execRowRepair kind inst bank row cause s) := by
  refine KeepsR.within hk hm ?_
  replace hk : Keeps 0x19EE5F7 s s := .refl _
  unfold execRowRepair
  repeat' first
    | with_reducible assumption
    | (with_reducible first | apply KeepsR.present | apply KeepsR.next | exact KeepsR.fault | apply present_keeps | apply State.rowRepair_keeps)
    | exact Sub.of rfl
    | dsimp only

theorem execBankRetire_keeps {mk : Nat} {z s : State} (hk : Keeps mk z s) (kind inst bank : Nat) (hm : Sub 0x19EE5F7 mk := by exact Sub.of rfl) :
    KeepsR mk z (execBankRetire kind inst bank s) := by
  refine KeepsR.within hk hm ?_
  replace hk : Keeps 0x19EE5F7 s s := .refl _
  unfold execBankRetire
  repeat' first
    | with_reducible assumption
    | (with_reducible first | apply KeepsR.present | apply KeepsR.next | exact KeepsR.fault | apply State.bankRetire_keeps)
    | (with_reducible apply Keeps.ite)
    | split
    | exact Sub.of rfl
    | dsimp only

theorem State.showRecord_keeps {mk : Nat} {z s : State} (hk : Keeps mk z s) (bits : Nat) (hm : Sub 0x1 mk := by exact Sub.of rfl) :
    Keeps mk z (State.showRecord s bits) := by
  refine hk.within hm ?_
  replace hk : Keeps 0x1 s s := .refl _
  unfold State.showRecord
  repeat' first
    | with_reducible assumption
    | with_reducible apply State.wr_keeps
    | exact Sub.of rfl
    | dsimp only

theorem State.recordWrite_keeps {mk : Nat} {z s : State} (hk : Keeps mk z s) (ok : Bool) (hm : Sub 0x8804F7 mk := by exact Sub.of rfl) :
    Keeps mk z (State.recordWrite s ok) := by
  refine hk.within hm ?_
  replace hk : Keeps 0x8804F7 s s := .refl _
  unfold State.recordWrite
  repeat' first
    | (extract_lets -descend +onlyGivenNames x0; refine Keeps.cut (m := 0x8804F7) (z := s) (v := x0) ?_ (fun h0 => ?_); rotate_left; clear_value x0; rotate_left; dsimp -zeta only [x0]; clear x0)
    | (extract_lets -descend +onlyGivenNames x0; clear_value x0)
    | with_reducible intro _
    | lift_lets
    | with_reducible assumption
    | (with_reducible first | apply State.bumpSat_keeps | apply State.irq_keeps | apply State.event_keeps | apply State.modRep_keeps | apply State.showRecord_keeps)
    | (with_reducible refine Keeps.mk0 ?_ ?g; (first | with_reducible assumption | (refine Keeps.snd ?_ (by assumption)) | (refine Keeps.some ?_ (by assumption)) | (with_reducible first | apply State.bumpSat_keeps | apply State.irq_keeps | apply State.event_keeps | apply State.modRep_keeps | apply State.showRecord_keeps)); with_reducible case g => exact fun h => Keeps.mk' h)
    | (with_reducible apply Keeps.ite)
    | split
    | (refine Keeps.some ?_ (by assumption))
    | exact Sub.of rfl
    | dsimp only

theorem execRemapRecordWrite_keeps {mk : Nat} {z s : State} (hk : Keeps mk z s) (ok : Bool) (hm : Sub 0x8804F7 mk := by exact Sub.of rfl) :
    KeepsR mk z (execRemapRecordWrite ok s) := by
  refine KeepsR.within hk hm ?_
  replace hk : Keeps 0x8804F7 s s := .refl _
  unfold execRemapRecordWrite
  repeat' first
    | with_reducible assumption
    | (with_reducible first | apply KeepsR.present | apply KeepsR.next | exact KeepsR.fault | apply present_keeps | apply State.recordWrite_keeps)
    | exact Sub.of rfl
    | dsimp only

end Sys2Proof.Machine
end

