-- ==== Sys2Proof/Laws/KeepsReset.lean ====
section
/-! SUPPORT. What the operations of Machine/Reset.lean keep. -/

set_option Elab.async false

namespace Sys2Proof.Machine

theorem State.quiesceStart_keeps {mk : Nat} {z s : State} (hk : Keeps mk z s) (isl : Nat) (hm : Sub 0x2023 mk := by exact Sub.of rfl) :
    Keeps mk z (State.quiesceStart s isl) := by
  refine hk.within hm ?_
  replace hk : Keeps 0x2023 s s := .refl _
  unfold State.quiesceStart
  repeat' first
    | (extract_lets -descend +onlyGivenNames x0; refine Keeps.cut (m := 0x2023) (z := s) (v := x0) ?_ (fun h0 => ?_); rotate_left; clear_value x0; rotate_left; dsimp -zeta only [x0]; clear x0)
    | (extract_lets -descend +onlyGivenNames x0; first
        | ((with_reducible first | have _w : LinkSt := x0 | have _w : TimeSt := x0 | have _w : PowerSt := x0 | have _w : SampSt := x0 | have _w : FwSt := x0 | have _w : AuthSt := x0 | have _w : PulseSt := x0 | have _w : CoreSt := x0); clear _w; dsimp -zeta only [x0]; clear x0)
        | clear_value x0)
    | with_reducible intro _
    | lift_lets
    | with_reducible assumption
    | (with_reducible first | apply KeepsR.present | apply KeepsR.next | exact KeepsR.fault | exact KeepsO.none | apply KeepsO.some | apply State.censusSkip_keeps)
    | (with_reducible refine State.modRegion_keeps ?_ _ _ (fun _ w => w))
    | (with_reducible refine State.modFw_keeps ?_ _ ⟨rfl, rfl⟩)
    | (with_reducible refine State.modAuth_keeps ?_ _ ⟨rfl, rfl⟩)
    | (with_reducible refine Keeps.mk0 ?_ ?g; (first | with_reducible assumption | (refine Keeps.snd ?_ (by assumption)) | (refine Keeps.some ?_ (by assumption)) | (with_reducible first | apply State.censusSkip_keeps)); with_reducible case g => exact fun h => Keeps.mk' h)
    | (with_reducible apply Keeps.ite)
    | (with_reducible apply Keeps.foldl)
    | (with_reducible apply Keeps.foldlSnd)
    | (with_reducible apply Keeps.foldlFst)
    | split
    | (refine Keeps.some ?_ (by assumption))
    | (refine Keeps.snd ?_ (by assumption))
    | exact Sub.of rfl
    | dsimp only

theorem execQuiesceRequest_keeps {mk : Nat} {z s : State} (hk : Keeps mk z s) (isl : Nat) (hm : Sub 0x2023 mk := by exact Sub.of rfl) :
    KeepsR mk z (execQuiesceRequest isl s) := by
  refine KeepsR.within hk hm ?_
  replace hk : Keeps 0x2023 s s := .refl _
  unfold execQuiesceRequest
  repeat' first
    | with_reducible assumption
    | (with_reducible first | apply KeepsR.present | apply KeepsR.next | exact KeepsR.fault | apply present_keeps | apply State.quiesceStart_keeps)
    | exact Sub.of rfl
    | dsimp only

theorem State.drain_keeps {mk : Nat} {z s : State} (hk : Keeps mk z s) (isl : Nat) (hm : Sub 0x11EE5F7 mk := by exact Sub.of rfl) :
    Keeps mk z (State.drain s isl) := by
  refine hk.within hm ?_
  replace hk : Keeps 0x11EE5F7 s s := .refl _
  unfold State.drain
  repeat' first
    | with_reducible assumption
    | (with_reducible first | apply State.coalFlush_keeps | apply State.traceLeave_keeps | apply State.drainTap_keeps)
    | (with_reducible apply Keeps.ite)
    | split
    | exact Sub.of rfl
    | dsimp only

theorem State.drained_keeps {mk : Nat} {z s : State} (hk : Keeps mk z s) (isl : Nat) (hm : Sub 0x11EE5F7 mk := by exact Sub.of rfl) :
    Keeps mk z (State.drained s isl) := by
  refine hk.within hm ?_
  replace hk : Keeps 0x11EE5F7 s s := .refl _
  unfold State.drained
  repeat' first
    | (extract_lets -descend +onlyGivenNames x0; refine Keeps.cut (m := 0x11EE5F7) (z := s) (v := x0) ?_ (fun h0 => ?_); rotate_left; clear_value x0; rotate_left; dsimp -zeta only [x0]; clear x0)
    | (extract_lets -descend +onlyGivenNames x0; first
        | ((with_reducible first | have _w : LinkSt := x0 | have _w : TimeSt := x0 | have _w : PowerSt := x0 | have _w : SampSt := x0 | have _w : FwSt := x0 | have _w : AuthSt := x0 | have _w : PulseSt := x0 | have _w : CoreSt := x0); clear _w; dsimp -zeta only [x0]; clear x0)
        | clear_value x0)
    | with_reducible intro _
    | lift_lets
    | with_reducible assumption
    | (with_reducible first | apply KeepsR.present | apply KeepsR.next | exact KeepsR.fault | exact KeepsO.none | apply KeepsO.some | apply State.drain_keeps)
    | (with_reducible refine State.modRegion_keeps ?_ _ _ (fun _ w => w))
    | (with_reducible refine State.modFw_keeps ?_ _ ⟨rfl, rfl⟩)
    | (with_reducible refine State.modAuth_keeps ?_ _ ⟨rfl, rfl⟩)
    | (with_reducible refine Keeps.mk0 ?_ ?g; (first | with_reducible assumption | (refine Keeps.snd ?_ (by assumption)) | (refine Keeps.some ?_ (by assumption)) | (with_reducible first | apply State.drain_keeps)); with_reducible case g => exact fun h => Keeps.mk' h)
    | (with_reducible apply Keeps.ite)
    | (with_reducible apply Keeps.foldl)
    | (with_reducible apply Keeps.foldlSnd)
    | (with_reducible apply Keeps.foldlFst)
    | split
    | (refine Keeps.some ?_ (by assumption))
    | (refine Keeps.snd ?_ (by assumption))
    | exact Sub.of rfl
    | dsimp only

theorem execQuiesceDrained_keeps {mk : Nat} {z s : State} (hk : Keeps mk z s) (isl : Nat) (hm : Sub 0x11EE5F7 mk := by exact Sub.of rfl) :
    KeepsR mk z (execQuiesceDrained isl s) := by
  refine KeepsR.within hk hm ?_
  replace hk : Keeps 0x11EE5F7 s s := .refl _
  unfold execQuiesceDrained
  repeat' first
    | with_reducible assumption
    | (with_reducible first | apply KeepsR.present | apply KeepsR.next | exact KeepsR.fault | apply present_keeps | apply State.drained_keeps)
    | exact Sub.of rfl
    | dsimp only

theorem State.unquiesce_keeps {mk : Nat} {z s : State} (hk : Keeps mk z s) (isl : Nat) (hm : Sub 0x11EE5F7 mk := by exact Sub.of rfl) :
    Keeps mk z (State.unquiesce s isl) := by
  refine hk.within hm ?_
  replace hk : Keeps 0x11EE5F7 s s := .refl _
  unfold State.unquiesce
  repeat' first
    | (extract_lets -descend +onlyGivenNames x0; refine Keeps.cut (m := 0x11EE5F7) (z := s) (v := x0) ?_ (fun h0 => ?_); rotate_left; clear_value x0; rotate_left; dsimp -zeta only [x0]; clear x0)
    | (extract_lets -descend +onlyGivenNames x0; first
        | ((with_reducible first | have _w : LinkSt := x0 | have _w : TimeSt := x0 | have _w : PowerSt := x0 | have _w : SampSt := x0 | have _w : FwSt := x0 | have _w : AuthSt := x0 | have _w : PulseSt := x0 | have _w : CoreSt := x0); clear _w; dsimp -zeta only [x0]; clear x0)
        | clear_value x0)
    | with_reducible intro _
    | lift_lets
    | with_reducible assumption
    | (with_reducible first | apply KeepsR.present | apply KeepsR.next | exact KeepsR.fault | exact KeepsO.none | apply KeepsO.some | apply State.landHeld_keeps)
    | (with_reducible refine State.modRegion_keeps ?_ _ _ (fun _ w => w))
    | (with_reducible refine State.modFw_keeps ?_ _ ⟨rfl, rfl⟩)
    | (with_reducible refine State.modAuth_keeps ?_ _ ⟨rfl, rfl⟩)
    | (with_reducible refine Keeps.mk0 ?_ ?g; (first | with_reducible assumption | (refine Keeps.snd ?_ (by assumption)) | (refine Keeps.some ?_ (by assumption)) | (with_reducible first | apply State.landHeld_keeps)); with_reducible case g => exact fun h => Keeps.mk' h)
    | (with_reducible apply Keeps.ite)
    | (with_reducible apply Keeps.foldl)
    | (with_reducible apply Keeps.foldlSnd)
    | (with_reducible apply Keeps.foldlFst)
    | split
    | (refine Keeps.some ?_ (by assumption))
    | (refine Keeps.snd ?_ (by assumption))
    | exact Sub.of rfl
    | dsimp only

theorem execQuiesceRelease_keeps {mk : Nat} {z s : State} (hk : Keeps mk z s) (isl : Nat) (hm : Sub 0x11EE5F7 mk := by exact Sub.of rfl) :
    KeepsR mk z (execQuiesceRelease isl s) := by
  refine KeepsR.within hk hm ?_
  replace hk : Keeps 0x11EE5F7 s s := .refl _
  unfold execQuiesceRelease
  repeat' first
    | with_reducible assumption
    | (with_reducible first | apply KeepsR.present | apply KeepsR.next | exact KeepsR.fault | apply present_keeps | apply State.unquiesce_keeps)
    | exact Sub.of rfl
    | dsimp only

theorem State.discAdd_keeps {mk : Nat} {z s : State} (hk : Keeps mk z s) (isl : Nat) (hm : Sub 0x402 mk := by exact Sub.of rfl) :
    Keeps mk z (State.discAdd s isl) := by
  refine hk.within hm ?_
  replace hk : Keeps 0x402 s s := .refl _
  unfold State.discAdd
  repeat' first
    | with_reducible intro _
    | with_reducible assumption
    | (with_reducible refine Keeps.mk0 ?_ ?g; (first | with_reducible assumption | (refine Keeps.snd ?_ (by assumption)) | (refine Keeps.some ?_ (by assumption))); with_reducible case g => exact fun h => Keeps.mk' h)
    | (with_reducible apply Keeps.ite)
    | split
    | exact Sub.of rfl
    | dsimp only

theorem State.setInReset_keeps {mk : Nat} {z s : State} (hk : Keeps mk z s) (isl : Nat) (on : Bool) (hm : Sub 0x2 mk := by exact Sub.of rfl) :
    Keeps mk z (State.setInReset s isl on) := by
  refine hk.within hm ?_
  replace hk : Keeps 0x2 s s := .refl _
  unfold State.setInReset
  repeat' first
    | with_reducible assumption
    | (with_reducible refine Keeps.mk0 ?_ ?g; (first | with_reducible assumption | (refine Keeps.snd ?_ (by assumption)) | (refine Keeps.some ?_ (by assumption))); with_reducible case g => exact fun h => Keeps.mk' h)
    | (with_reducible apply Keeps.ite)
    | split
    | exact Sub.of rfl
    | dsimp only

theorem State.tapLose_keeps {mk : Nat} {z s : State} (hk : Keeps mk z s) (n : Nat) (hm : Sub 0x11EE5F7 mk := by exact Sub.of rfl) :
    Keeps mk z (State.tapLose s n) := by
  refine hk.within hm ?_
  replace hk : Keeps 0x11EE5F7 s s := .refl _
  unfold State.tapLose
  repeat' first
    | (extract_lets -descend +onlyGivenNames x0; refine Keeps.cut (m := 0x11EE5F7) (z := s) (v := x0) ?_ (fun h0 => ?_); rotate_left; clear_value x0; rotate_left; dsimp -zeta only [x0]; clear x0)
    | (extract_lets -descend +onlyGivenNames x0; first
        | ((with_reducible first | have _w : LinkSt := x0 | have _w : TimeSt := x0 | have _w : PowerSt := x0 | have _w : SampSt := x0 | have _w : FwSt := x0 | have _w : AuthSt := x0 | have _w : PulseSt := x0 | have _w : CoreSt := x0); clear _w; dsimp -zeta only [x0]; clear x0)
        | clear_value x0)
    | with_reducible intro _
    | lift_lets
    | with_reducible assumption
    | (with_reducible first | apply KeepsR.present | apply KeepsR.next | exact KeepsR.fault | exact KeepsO.none | apply KeepsO.some | apply State.bumpSat_keeps | apply State.irq_keeps | apply State.traceTapReset_keeps)
    | (with_reducible refine State.modRegion_keeps ?_ _ _ (fun _ w => w))
    | (with_reducible refine State.modFw_keeps ?_ _ ⟨rfl, rfl⟩)
    | (with_reducible refine State.modAuth_keeps ?_ _ ⟨rfl, rfl⟩)
    | (with_reducible refine Keeps.mk0 ?_ ?g; (first | with_reducible assumption | (refine Keeps.snd ?_ (by assumption)) | (refine Keeps.some ?_ (by assumption)) | (with_reducible first | apply State.bumpSat_keeps | apply State.irq_keeps | apply State.traceTapReset_keeps)); with_reducible case g => exact fun h => Keeps.mk' h)
    | (with_reducible apply Keeps.ite)
    | (with_reducible apply Keeps.foldl)
    | (with_reducible apply Keeps.foldlSnd)
    | (with_reducible apply Keeps.foldlFst)
    | split
    | (refine Keeps.some ?_ (by assumption))
    | (refine Keeps.snd ?_ (by assumption))
    | exact Sub.of rfl
    | dsimp only

theorem State.tapReset_keeps {mk : Nat} {z s : State} (hk : Keeps mk z s) (n : Nat) (hm : Sub 0x11EE5F7 mk := by exact Sub.of rfl) :
    Keeps mk z (State.tapReset s n) := by
  refine hk.within hm ?_
  replace hk : Keeps 0x11EE5F7 s s := .refl _
  unfold State.tapReset
  repeat' first
    | (extract_lets -descend +onlyGivenNames x0; refine Keeps.cut (m := 0x11EE5F7) (z := s) (v := x0) ?_ (fun h0 => ?_); rotate_left; clear_value x0; rotate_left; dsimp -zeta only [x0]; clear x0)
    | (extract_lets -descend +onlyGivenNames x0; clear_value x0)
    | with_reducible intro _
    | lift_lets
    | with_reducible assumption
    | (with_reducible first | apply State.event_keeps | apply State.cmdClose_keeps | apply State.discAdd_keeps | apply State.setInReset_keeps | apply State.tapLose_keeps)
    | (with_reducible apply Keeps.ite)
    | (with_reducible apply Keeps.foldl)
    | split
    | exact Sub.of rfl
    | dsimp only

theorem State.tapBack_keeps {mk : Nat} {z s : State} (hk : Keeps mk z s) (n : Nat) (hm : Sub 0x11EE5F7 mk := by exact Sub.of rfl) :
    Keeps mk z (State.tapBack s n) := by
  refine hk.within hm ?_
  replace hk : Keeps 0x11EE5F7 s s := .refl _
  unfold State.tapBack
  repeat' first
    | with_reducible assumption
    | (with_reducible first | apply State.landHeld_keeps | apply State.setInReset_keeps)
    | (with_reducible apply Keeps.ite)
    | split
    | exact Sub.of rfl
    | dsimp only

theorem execTapIslandReset_keeps {mk : Nat} {z s : State} (hk : Keeps mk z s) (n : Edge) (hm : Sub 0x11EE5F7 mk := by exact Sub.of rfl) :
    KeepsR mk z (execTapIslandReset n s) := by
  refine KeepsR.within hk hm ?_
  replace hk : Keeps 0x11EE5F7 s s := .refl _
  unfold execTapIslandReset
  repeat' first
    | with_reducible assumption
    | (with_reducible first | apply KeepsR.present | apply KeepsR.next | exact KeepsR.fault | apply present_keeps | apply State.tapReset_keeps | apply State.tapBack_keeps)
    | (with_reducible apply Keeps.ite)
    | split
    | exact Sub.of rfl
    | dsimp only

theorem State.clockCheck_keeps {mk : Nat} {z s : State} (hk : Keeps mk z s) (groups : List Nat) (slow : List (Nat × Nat)) (hm : Sub 0x804F7 mk := by exact Sub.of rfl) :
    Keeps mk z (State.clockCheck s groups slow) := by
  refine hk.within hm ?_
  replace hk : Keeps 0x804F7 s s := .refl _
  unfold State.clockCheck
  repeat' first
    | (extract_lets -descend +onlyGivenNames x0; refine Keeps.cut (m := 0x804F7) (z := s) (v := x0) ?_ (fun h0 => ?_); rotate_left; clear_value x0; rotate_left; dsimp -zeta only [x0]; clear x0)
    | (extract_lets -descend +onlyGivenNames x0; clear_value x0)
    | with_reducible intro _
    | lift_lets
    | with_reducible assumption
    | (with_reducible first | apply State.modPort_keeps | apply State.event_keeps)
    | (with_reducible refine Keeps.mk0 ?_ ?g; (first | with_reducible assumption | (refine Keeps.snd ?_ (by assumption)) | (refine Keeps.some ?_ (by assumption)) | (with_reducible first | apply State.modPort_keeps | apply State.event_keeps)); with_reducible case g => exact fun h => Keeps.mk' h)
    | (with_reducible apply Keeps.foldl)
    | split
    | (refine Keeps.some ?_ (by assumption))
    | exact Sub.of rfl
    | dsimp only

theorem State.linkReset_keeps {mk : Nat} {z s : State} (hk : Keeps mk z s) (g : Nat) (hm : Sub 0x11EE5F7 mk := by exact Sub.of rfl) :
    Keeps mk z (State.linkReset s g) := by
  refine hk.within hm ?_
  replace hk : Keeps 0x11EE5F7 s s := .refl _
  unfold State.linkReset
  repeat' first
    | (extract_lets -descend +onlyGivenNames x0; refine Keeps.cut (m := 0x11EE5F7) (z := s) (v := x0) ?_ (fun h0 => ?_); rotate_left; clear_value x0; rotate_left; dsimp -zeta only [x0]; clear x0)
    | (extract_lets -descend +onlyGivenNames x0; clear_value x0)
    | lift_lets
    | with_reducible assumption
    | (with_reducible first | apply State.event_keeps | apply State.linksTold_keeps | apply State.linksCut_keeps | apply State.setInReset_keeps)
    | (with_reducible apply Keeps.ite)
    | split
    | exact Sub.of rfl
    | dsimp only

theorem execLinkGroupReset_keeps {mk : Nat} {z s : State} (hk : Keeps mk z s) (g : Edge) (slow : List (Nat × Nat)) (hm : Sub 0x11EE5F7 mk := by exact Sub.of rfl) :
    KeepsR mk z (execLinkGroupReset g slow s) := by
  refine KeepsR.within hk hm ?_
  replace hk : Keeps 0x11EE5F7 s s := .refl _
  unfold execLinkGroupReset
  repeat' first
    | with_reducible assumption
    | (with_reducible first | apply KeepsR.present | apply KeepsR.next | exact KeepsR.fault | apply present_keeps | apply State.setInReset_keeps | apply State.clockCheck_keeps | apply State.linkReset_keeps)
    | (with_reducible apply Keeps.ite)
    | split
    | exact Sub.of rfl
    | dsimp only

theorem State.portFresh_keeps {mk : Nat} {z s : State} (hk : Keeps mk z s) (keep : Bool) (p : Nat) (hm : Sub 0x20 mk := by exact Sub.of rfl) :
    Keeps mk z (State.portFresh s keep p) := by
  refine hk.within hm ?_
  replace hk : Keeps 0x20 s s := .refl _
  unfold State.portFresh
  repeat' first
    | (extract_lets -descend +onlyGivenNames x0; refine Keeps.cut (m := 0x20) (z := s) (v := x0) ?_ (fun h0 => ?_); rotate_left; clear_value x0; rotate_left; dsimp -zeta only [x0]; clear x0)
    | (extract_lets -descend +onlyGivenNames x0; clear_value x0)
    | with_reducible intro _
    | lift_lets
    | with_reducible assumption
    | with_reducible apply State.modPort_keeps
    | (with_reducible refine Keeps.mk0 ?_ ?g; (first | with_reducible assumption | (refine Keeps.snd ?_ (by assumption)) | (refine Keeps.some ?_ (by assumption)) | (with_reducible first | apply State.modPort_keeps)); with_reducible case g => exact fun h => Keeps.mk' h)
    | (with_reducible apply Keeps.ite)
    | (with_reducible apply Keeps.foldl)
    | split
    | exact Sub.of rfl
    | dsimp only

theorem State.loseLinks_keeps {mk : Nat} {z s : State} (hk : Keeps mk z s) (keep : Bool) (hm : Sub 0x11EF5F7 mk := by exact Sub.of rfl) :
    Keeps mk z (State.loseLinks s keep) := by
  refine hk.within hm ?_
  replace hk : Keeps 0x11EF5F7 s s := .refl _
  unfold State.loseLinks
  repeat' first
    | (extract_lets -descend +onlyGivenNames x0; refine Keeps.cut (m := 0x11EF5F7) (z := s) (v := x0) ?_ (fun h0 => ?_); rotate_left; clear_value x0; rotate_left; dsimp -zeta only [x0]; clear x0)
    | (extract_lets -descend +onlyGivenNames x0; first
        | ((with_reducible first | have _w : LinkSt := x0 | have _w : TimeSt := x0 | have _w : PowerSt := x0 | have _w : SampSt := x0 | have _w : FwSt := x0 | have _w : AuthSt := x0 | have _w : PulseSt := x0 | have _w : CoreSt := x0); clear _w; dsimp -zeta only [x0]; clear x0)
        | clear_value x0)
    | with_reducible intro _
    | lift_lets
    | with_reducible assumption
    | (with_reducible first | apply KeepsR.present | apply KeepsR.next | exact KeepsR.fault | exact KeepsO.none | apply KeepsO.some | apply State.parentLost_keeps | apply State.creditsVoid_keeps | apply State.portFresh_keeps)
    | (with_reducible refine State.modRegion_keeps ?_ _ _ (fun _ w => w))
    | (with_reducible refine State.modFw_keeps ?_ _ ⟨rfl, rfl⟩)
    | (with_reducible refine State.modAuth_keeps ?_ _ ⟨rfl, rfl⟩)
    | (with_reducible refine Keeps.mk0 ?_ ?g; (first | with_reducible assumption | (refine Keeps.snd ?_ (by assumption)) | (refine Keeps.some ?_ (by assumption)) | (with_reducible first | apply State.parentLost_keeps | apply State.creditsVoid_keeps | apply State.portFresh_keeps)); with_reducible case g => exact fun h => Keeps.mk' h)
    | (with_reducible apply Keeps.ite)
    | (with_reducible apply Keeps.foldl)
    | (with_reducible apply Keeps.foldlSnd)
    | (with_reducible apply Keeps.foldlFst)
    | split
    | (refine Keeps.some ?_ (by assumption))
    | (refine Keeps.snd ?_ (by assumption))
    | exact Sub.of rfl
    | dsimp only

theorem State.losePub_keeps {mk : Nat} {z s : State} (hk : Keeps mk z s) (hm : Sub 0x40000 mk := by exact Sub.of rfl) :
    Keeps mk z (State.losePub s) := by
  refine hk.within hm ?_
  replace hk : Keeps 0x40000 s s := .refl _
  unfold State.losePub
  repeat' first
    | with_reducible assumption
    | (with_reducible refine Keeps.mk0 ?_ ?g; (first | with_reducible assumption | (refine Keeps.snd ?_ (by assumption)) | (refine Keeps.some ?_ (by assumption))); with_reducible case g => exact fun h => Keeps.mk' h)
    | (with_reducible apply Keeps.ite)
    | split
    | exact Sub.of rfl
    | dsimp only

theorem State.loseFw_keeps {mk : Nat} {z s : State} (h : Keeps mk z s) (keep : Bool) (hm : Sub 0x400000 mk := by exact Sub.of rfl) :
    Keeps mk z (State.loseFw s keep) := by
  refine h.within hm ?_
  replace h : Keeps 0x400000 s s := .refl _
  exact h.of rfl rfl rfl (fun i => ⟨i.regs, i.ports, i.exch, i.sensors, i.gens, i.doms, rfl, i.image⟩) (.refl _) (by intro p hp; cases p <;> first | exact rfl | exact ⟨rfl, rfl, rfl⟩ | exact absurd hp (by decide))

theorem State.loseDrover_keeps {mk : Nat} {z s : State} (hk : Keeps mk z s) (hm : Sub 0x100010 mk := by exact Sub.of rfl) :
    Keeps mk z (State.loseDrover s) := by
  refine hk.within hm ?_
  replace hk : Keeps 0x100010 s s := .refl _
  unfold State.loseDrover
  repeat' first
    | with_reducible intro _
    | with_reducible assumption
    | (with_reducible refine Keeps.mk0 ?_ ?g; (first | with_reducible assumption | (refine Keeps.snd ?_ (by assumption)) | (refine Keeps.some ?_ (by assumption))); with_reducible case g => exact fun h => Keeps.mk' h)
    | exact Sub.of rfl
    | dsimp only

theorem State.domsFresh_keeps {mk : Nat} {z s : State} (h : Keeps mk z s) (hm : Sub 0x80000 mk := by exact Sub.of rfl) :
    Keeps mk z (State.domsFresh s) := by
  refine h.within hm ?_
  replace h : Keeps 0x80000 s s := .refl _
  exact h.mk' ⟨rfl, rfl, rfl, rfl, map_fst_keep _ _ (fun p => by dsimp only; split <;> rfl), rfl, rfl, rfl⟩

theorem State.keepConvoy_keeps {mk : Nat} {z s : State} (hk : Keeps mk z s) (was : State) (hm : Sub 0x440 mk := by exact Sub.of rfl) :
    Keeps mk z (State.keepConvoy s was) := by
  refine hk.within hm ?_
  replace hk : Keeps 0x440 s s := .refl _
  unfold State.keepConvoy
  repeat' first
    | with_reducible intro _
    | with_reducible assumption
    | (with_reducible refine Keeps.mk0 ?_ ?g; (first | with_reducible assumption | (refine Keeps.snd ?_ (by assumption)) | (refine Keeps.some ?_ (by assumption))); with_reducible case g => exact fun h => Keeps.mk' h)
    | split
    | (refine Keeps.some ?_ (by assumption))
    | exact Sub.of rfl
    | dsimp only

theorem State.warmLose_keeps {mk : Nat} {z s : State} (hk : Keeps mk z s) (keep : Bool) (hm : Sub 0x15FFFF7 mk := by exact Sub.of rfl) :
    Keeps mk z (State.warmLose s keep) := by
  refine hk.within hm ?_
  replace hk : Keeps 0x15FFFF7 s s := .refl _
  unfold State.warmLose
  repeat' first
    | (extract_lets -descend +onlyGivenNames x0; refine Keeps.cut (m := 0x15FFFF7) (z := s) (v := x0) ?_ (fun h0 => ?_); rotate_left; clear_value x0; rotate_left; dsimp -zeta only [x0]; clear x0)
    | (extract_lets -descend +onlyGivenNames x0; first
        | ((with_reducible first | have _w : LinkSt := x0 | have _w : TimeSt := x0 | have _w : PowerSt := x0 | have _w : SampSt := x0 | have _w : FwSt := x0 | have _w : AuthSt := x0 | have _w : PulseSt := x0 | have _w : CoreSt := x0); clear _w; dsimp -zeta only [x0]; clear x0)
        | clear_value x0)
    | with_reducible intro _
    | lift_lets
    | with_reducible assumption
    | (with_reducible first | apply KeepsR.present | apply KeepsR.next | exact KeepsR.fault | exact KeepsO.none | apply KeepsO.some | apply State.loseDomain_keeps | apply State.loseLinks_keeps | apply State.losePub_keeps | apply State.loseFw_keeps | apply State.loseDrover_keeps | apply State.domsFresh_keeps | apply State.keepConvoy_keeps)
    | (with_reducible refine State.modRegion_keeps ?_ _ _ (fun _ w => w))
    | (with_reducible refine State.modFw_keeps ?_ _ ⟨rfl, rfl⟩)
    | (with_reducible refine State.modAuth_keeps ?_ _ ⟨rfl, rfl⟩)
    | (with_reducible refine Keeps.mk0 ?_ ?g; (first | with_reducible assumption | (refine Keeps.snd ?_ (by assumption)) | (refine Keeps.some ?_ (by assumption)) | (with_reducible first | apply State.loseDomain_keeps | apply State.loseLinks_keeps | apply State.losePub_keeps | apply State.loseFw_keeps | apply State.loseDrover_keeps | apply State.domsFresh_keeps | apply State.keepConvoy_keeps)); with_reducible case g => exact fun h => Keeps.mk' h)
    | (with_reducible apply Keeps.ite)
    | (with_reducible apply Keeps.foldl)
    | (with_reducible apply Keeps.foldlSnd)
    | (with_reducible apply Keeps.foldlFst)
    | split
    | (refine Keeps.some ?_ (by assumption))
    | (refine Keeps.snd ?_ (by assumption))
    | exact Sub.of rfl
    | dsimp only

theorem State.warmAssert_keeps {mk : Nat} {z s : State} (hk : Keeps mk z s) (hm : Sub 0x35FFFF7 mk := by exact Sub.of rfl) :
    Keeps mk z (State.warmAssert s) := by
  refine hk.within hm ?_
  replace hk : Keeps 0x35FFFF7 s s := .refl _
  unfold State.warmAssert
  repeat' first
    | (extract_lets -descend +onlyGivenNames x0; refine Keeps.cut (m := 0x35FFFF7) (z := s) (v := x0) ?_ (fun h0 => ?_); rotate_left; clear_value x0; rotate_left; dsimp -zeta only [x0]; clear x0)
    | (extract_lets -descend +onlyGivenNames x0; clear_value x0)
    | lift_lets
    | with_reducible assumption
    | (with_reducible first | apply State.wr_keeps | apply State.padHold_keeps | apply State.keepLast_keeps | apply State.discAdd_keeps | apply State.warmLose_keeps)
    | (with_reducible refine Keeps.mk0 ?_ ?g; (first | with_reducible assumption | (refine Keeps.snd ?_ (by assumption)) | (refine Keeps.some ?_ (by assumption)) | (with_reducible first | apply State.wr_keeps | apply State.padHold_keeps | apply State.keepLast_keeps | apply State.discAdd_keeps | apply State.warmLose_keeps)); with_reducible case g => exact fun h => Keeps.mk' h)
    | (with_reducible apply Keeps.ite)
    | split
    | exact Sub.of rfl
    | dsimp only

theorem execWarmReset_keeps {mk : Nat} {z s : State} (hk : Keeps mk z s) (hm : Sub 0x35FFFF7 mk := by exact Sub.of rfl) :
    KeepsR mk z (execWarmReset s) := by
  refine KeepsR.within hk hm ?_
  replace hk : Keeps 0x35FFFF7 s s := .refl _
  unfold execWarmReset
  repeat' first
    | with_reducible assumption
    | (with_reducible first | apply KeepsR.present | apply KeepsR.next | exact KeepsR.fault | apply State.warmAssert_keeps)
    | exact Sub.of rfl
    | dsimp only

theorem State.resendEvents_keeps {mk : Nat} {z s : State} (hk : Keeps mk z s) (hm : Sub 0x804F7 mk := by exact Sub.of rfl) :
    Keeps mk z (State.resendEvents s) := by
  refine hk.within hm ?_
  replace hk : Keeps 0x804F7 s s := .refl _
  unfold State.resendEvents
  repeat' first
    | (extract_lets -descend +onlyGivenNames x0; refine Keeps.cut (m := 0x804F7) (z := s) (v := x0) ?_ (fun h0 => ?_); rotate_left; clear_value x0; rotate_left; dsimp -zeta only [x0]; clear x0)
    | (extract_lets -descend +onlyGivenNames x0; clear_value x0)
    | with_reducible intro _
    | lift_lets
    | with_reducible assumption
    | (with_reducible first | apply State.evSend_keeps | apply State.store_keeps)
    | (with_reducible apply Keeps.foldl)
    | split
    | (refine Keeps.some ?_ (by assumption))
    | exact Sub.of rfl
    | dsimp only

theorem State.pairMarkers_keeps {mk : Nat} {z s : State} (hk : Keeps mk z s) (hm : Sub 0xD04F7 mk := by exact Sub.of rfl) :
    Keeps mk z (State.pairMarkers s) := by
  refine hk.within hm ?_
  replace hk : Keeps 0xD04F7 s s := .refl _
  unfold State.pairMarkers
  repeat' first
    | with_reducible intro _
    | with_reducible assumption
    | (with_reducible first | apply State.marker_keeps | apply State.modPub_keeps)
    | (with_reducible refine Keeps.mk0 ?_ ?g; (first | with_reducible assumption | (refine Keeps.snd ?_ (by assumption)) | (refine Keeps.some ?_ (by assumption)) | (with_reducible first | apply State.marker_keeps | apply State.modPub_keeps)); with_reducible case g => exact fun h => Keeps.mk' h)
    | (with_reducible apply Keeps.ite)
    | (with_reducible apply Keeps.foldl)
    | split
    | exact Sub.of rfl
    | dsimp only

theorem State.warmRelease_keeps {mk : Nat} {z s : State} (hk : Keeps mk z s) (slow : List (Nat × Nat)) (hm : Sub 0x31FE5F7 mk := by exact Sub.of rfl) :
    Keeps mk z (State.warmRelease s slow) := by
  refine hk.within hm ?_
  replace hk : Keeps 0x31FE5F7 s s := .refl _
  unfold State.warmRelease
  repeat' first
    | (extract_lets -descend +onlyGivenNames x0; refine Keeps.cut (m := 0x31FE5F7) (z := s) (v := x0) ?_ (fun h0 => ?_); rotate_left; clear_value x0; rotate_left; dsimp -zeta only [x0]; clear x0)
    | (extract_lets -descend +onlyGivenNames x0; clear_value x0)
    | with_reducible intro _
    | lift_lets
    | with_reducible assumption
    | (with_reducible first | apply State.event_keeps | apply State.traceWarm_keeps | apply State.landAll_keeps | apply State.clockCheck_keeps | apply State.resendEvents_keeps | apply State.pairMarkers_keeps)
    | (with_reducible refine Keeps.mk0 ?_ ?g; (first | with_reducible assumption | (refine Keeps.snd ?_ (by assumption)) | (refine Keeps.some ?_ (by assumption)) | (with_reducible first | apply State.event_keeps | apply State.traceWarm_keeps | apply State.landAll_keeps | apply State.clockCheck_keeps | apply State.resendEvents_keeps | apply State.pairMarkers_keeps)); with_reducible case g => exact fun h => Keeps.mk' h)
    | (with_reducible apply Keeps.ite)
    | split
    | exact Sub.of rfl
    | dsimp only

theorem execWarmResetRelease_keeps {mk : Nat} {z s : State} (hk : Keeps mk z s) (slow : List (Nat × Nat)) (hm : Sub 0x31FE5F7 mk := by exact Sub.of rfl) :
    KeepsR mk z (execWarmResetRelease slow s) := by
  refine KeepsR.within hk hm ?_
  replace hk : Keeps 0x31FE5F7 s s := .refl _
  unfold execWarmResetRelease
  repeat' first
    | with_reducible assumption
    | (with_reducible first | apply KeepsR.present | apply KeepsR.next | exact KeepsR.fault | apply State.warmRelease_keeps)
    | exact Sub.of rfl
    | dsimp only

theorem State.powerLost_keeps {mk : Nat} {z s : State} (h : Keeps mk z s) (cause : Nat) (hm : Sub 0x16FFFFFF mk := by exact Sub.of rfl) :
    Keeps mk z (State.powerLost s cause) := by
  refine h.within hm ?_
  replace h : Keeps 0x16FFFFFF s s := .refl _
  unfold State.powerLost
  extract_lets t u
  have ht : Keeps 0x16FFFFFF s t := by
    unfold t
    split
    · exact State.otpCount_keeps h _ _
    · exact h
  clear_value t
  refine ht.of rfl rfl rfl (fun i => ?_) (.refl _) (by intro p hp; cases p <;> first | exact rfl | exact ⟨rfl, rfl, rfl⟩ | exact absurd hp (by decide))
  have r := State.resetOf_shape t.build
  exact ⟨rfl, r.ports, r.exch, r.sensors, r.gens, r.doms, rfl, i.image⟩

theorem execPowerOnReset_keeps {mk : Nat} {z s : State} (hk : Keeps mk z s) (hm : Sub 0x16FFFFFF mk := by exact Sub.of rfl) :
    KeepsR mk z (execPowerOnReset s) := by
  refine KeepsR.within hk hm ?_
  replace hk : Keeps 0x16FFFFFF s s := .refl _
  unfold execPowerOnReset
  repeat' first
    | with_reducible assumption
    | (with_reducible first | apply KeepsR.present | apply KeepsR.next | exact KeepsR.fault | apply State.powerLost_keeps)
    | (with_reducible apply Keeps.ite)
    | split
    | exact Sub.of rfl
    | dsimp only

theorem execRailOrThermalTrip_keeps {mk : Nat} {z s : State} (hk : Keeps mk z s) (kind : Nat) (hm : Sub 0x16FFFFFF mk := by exact Sub.of rfl) :
    KeepsR mk z (execRailOrThermalTrip kind s) := by
  refine KeepsR.within hk hm ?_
  replace hk : Keeps 0x16FFFFFF s s := .refl _
  unfold execRailOrThermalTrip
  repeat' first
    | with_reducible assumption
    | (with_reducible first | apply KeepsR.present | apply KeepsR.next | exact KeepsR.fault | apply present_keeps | apply State.powerLost_keeps)
    | (with_reducible apply Keeps.ite)
    | split
    | exact Sub.of rfl
    | dsimp only

theorem State.strapCheck_keeps {mk : Nat} {z s : State} (hk : Keeps mk z s) (hm : Sub 0xD24F7 mk := by exact Sub.of rfl) :
    Keeps mk z (State.strapCheck s) := by
  refine hk.within hm ?_
  replace hk : Keeps 0xD24F7 s s := .refl _
  unfold State.strapCheck
  repeat' first
    | with_reducible assumption
    | (with_reducible first | apply State.irq_keeps | apply State.event_keeps | apply State.peerCheck_keeps)
    | (with_reducible apply Keeps.ite)
    | split
    | exact Sub.of rfl
    | dsimp only

theorem State.latchFuses_keeps {mk : Nat} {z s : State} (hk : Keeps mk z s) (hm : Sub 0x10200000 mk := by exact Sub.of rfl) :
    Keeps mk z (State.latchFuses s) := by
  refine hk.within hm ?_
  replace hk : Keeps 0x10200000 s s := .refl _
  unfold State.latchFuses
  repeat' first
    | with_reducible assumption
    | with_reducible apply State.identity_keeps
    | (with_reducible refine Keeps.mk0 ?_ ?g; (first | with_reducible assumption | (refine Keeps.snd ?_ (by assumption)) | (refine Keeps.some ?_ (by assumption)) | (with_reducible first | apply State.identity_keeps)); with_reducible case g => exact fun h => Keeps.mk' h)
    | split
    | (refine Keeps.some ?_ (by assumption))
    | exact Sub.of rfl
    | dsimp only

theorem State.powerUp_keeps {mk : Nat} {z s : State} (hk : Keeps mk z s) (straps : Nat) (slow : List (Nat × Nat)) (hm : Sub 0x12ED24F7 mk := by exact Sub.of rfl) :
    Keeps mk z (State.powerUp s straps slow) := by
  refine hk.within hm ?_
  replace hk : Keeps 0x12ED24F7 s s := .refl _
  unfold State.powerUp
  repeat' first
    | (extract_lets -descend +onlyGivenNames x0; refine Keeps.cut (m := 0x12ED24F7) (z := s) (v := x0) ?_ (fun h0 => ?_); rotate_left; clear_value x0; rotate_left; dsimp -zeta only [x0]; clear x0)
    | (extract_lets -descend +onlyGivenNames x0; first
        | ((with_reducible first | have _w : LinkSt := x0 | have _w : TimeSt := x0 | have _w : PowerSt := x0 | have _w : SampSt := x0 | have _w : FwSt := x0 | have _w : AuthSt := x0 | have _w : PulseSt := x0 | have _w : CoreSt := x0); clear _w; dsimp -zeta only [x0]; clear x0)
        | clear_value x0)
    | with_reducible intro _
    | lift_lets
    | with_reducible assumption
    | (with_reducible first | apply KeepsR.present | apply KeepsR.next | exact KeepsR.fault | exact KeepsO.none | apply KeepsO.some | apply present_keeps | apply State.event_keeps | apply State.uaEnter_keeps | apply State.modRep_keeps | apply State.showRecord_keeps | apply State.clockCheck_keeps | apply State.pairMarkers_keeps | apply State.strapCheck_keeps | apply State.latchFuses_keeps)
    | (with_reducible refine State.modRegion_keeps ?_ _ _ (fun _ w => w))
    | (with_reducible refine State.modFw_keeps ?_ _ ⟨rfl, rfl⟩)
    | (with_reducible refine State.modAuth_keeps ?_ _ ⟨rfl, rfl⟩)
    | (with_reducible refine Keeps.mk0 ?_ ?g; (first | with_reducible assumption | (refine Keeps.snd ?_ (by assumption)) | (refine Keeps.some ?_ (by assumption)) | (with_reducible first | apply present_keeps | apply State.event_keeps | apply State.uaEnter_keeps | apply State.modRep_keeps | apply State.showRecord_keeps | apply State.clockCheck_keeps | apply State.pairMarkers_keeps | apply State.strapCheck_keeps | apply State.latchFuses_keeps)); with_reducible case g => exact fun h => Keeps.mk' h)
    | (with_reducible apply Keeps.ite)
    | (with_reducible apply Keeps.foldl)
    | (with_reducible apply Keeps.foldlSnd)
    | (with_reducible apply Keeps.foldlFst)
    | split
    | (refine Keeps.some ?_ (by assumption))
    | (refine Keeps.snd ?_ (by assumption))
    | exact Sub.of rfl
    | dsimp only

theorem execPowerOnResetRelease_keeps {mk : Nat} {z s : State} (hk : Keeps mk z s) (straps : Nat) (slow : List (Nat × Nat)) (hm : Sub 0x12ED24F7 mk := by exact Sub.of rfl) :
    KeepsR mk z (execPowerOnResetRelease straps slow s) := by
  refine KeepsR.within hk hm ?_
  replace hk : Keeps 0x12ED24F7 s s := .refl _
  unfold execPowerOnResetRelease
  repeat' first
    | with_reducible assumption
    | (with_reducible first | apply KeepsR.present | apply KeepsR.next | exact KeepsR.fault | apply State.powerUp_keeps)
    | exact Sub.of rfl
    | dsimp only

theorem State.storedBad_keeps {mk : Nat} {z s : State} (hk : Keeps mk z s) (index : Nat) (hm : Sub 0xC04F7 mk := by exact Sub.of rfl) :
    Keeps mk z (State.storedBad s index) := by
  refine hk.within hm ?_
  replace hk : Keeps 0xC04F7 s s := .refl _
  unfold State.storedBad
  repeat' first
    | with_reducible intro _
    | with_reducible assumption
    | (with_reducible first | apply State.fateLost_keeps | apply State.store_keeps | apply State.modPub_keeps | apply State.ctxAcked_keeps)
    | (with_reducible refine Keeps.mk0 ?_ ?g; (first | with_reducible assumption | (refine Keeps.snd ?_ (by assumption)) | (refine Keeps.some ?_ (by assumption)) | (with_reducible first | apply State.fateLost_keeps | apply State.store_keeps | apply State.modPub_keeps | apply State.ctxAcked_keeps)); with_reducible case g => exact fun h => Keeps.mk' h)
    | (with_reducible apply Keeps.ite)
    | split
    | (refine Keeps.some ?_ (by assumption))
    | exact Sub.of rfl
    | dsimp only

theorem State.latchBad_keeps {mk : Nat} {z s : State} (hk : Keeps mk z s) (hm : Sub 0x80575 mk := by exact Sub.of rfl) :
    Keeps mk z (State.latchBad s) := by
  refine hk.within hm ?_
  replace hk : Keeps 0x80575 s s := .refl _
  unfold State.latchBad
  repeat' first
    | (extract_lets -descend +onlyGivenNames x0; refine Keeps.cut (m := 0x80575) (z := s) (v := x0) ?_ (fun h0 => ?_); rotate_left; clear_value x0; rotate_left; dsimp -zeta only [x0]; clear x0)
    | (extract_lets -descend +onlyGivenNames x0; first
        | ((with_reducible first | have _w : LinkSt := x0 | have _w : TimeSt := x0 | have _w : PowerSt := x0 | have _w : SampSt := x0 | have _w : FwSt := x0 | have _w : AuthSt := x0 | have _w : PulseSt := x0 | have _w : CoreSt := x0); clear _w; dsimp -zeta only [x0]; clear x0)
        | clear_value x0)
    | with_reducible intro _
    | lift_lets
    | with_reducible assumption
    | (with_reducible first | apply KeepsR.present | apply KeepsR.next | exact KeepsR.fault | exact KeepsO.none | apply KeepsO.some | apply State.dropped_keeps | apply State.originate_keeps)
    | (with_reducible refine State.modRegion_keeps ?_ _ _ (fun _ w => w))
    | (with_reducible refine State.modFw_keeps ?_ _ ⟨rfl, rfl⟩)
    | (with_reducible refine State.modAuth_keeps ?_ _ ⟨rfl, rfl⟩)
    | (with_reducible refine Keeps.mk0 ?_ ?g; (first | with_reducible assumption | (refine Keeps.snd ?_ (by assumption)) | (refine Keeps.some ?_ (by assumption)) | (with_reducible first | apply State.dropped_keeps | apply State.originate_keeps)); with_reducible case g => exact fun h => Keeps.mk' h)
    | (with_reducible apply Keeps.ite)
    | (with_reducible apply Keeps.foldl)
    | (with_reducible apply Keeps.foldlSnd)
    | (with_reducible apply Keeps.foldlFst)
    | split
    | (refine Keeps.some ?_ (by assumption))
    | (refine Keeps.snd ?_ (by assumption))
    | exact Sub.of rfl
    | dsimp only

theorem State.tensorBad_keeps {mk : Nat} {z s : State} (hk : Keeps mk z s) (w : Nat) (hm : Sub 0x80575 mk := by exact Sub.of rfl) :
    Keeps mk z (State.tensorBad s w) := by
  refine hk.within hm ?_
  replace hk : Keeps 0x80575 s s := .refl _
  unfold State.tensorBad
  repeat' first
    | (extract_lets -descend +onlyGivenNames x0; refine Keeps.cut (m := 0x80575) (z := s) (v := x0) ?_ (fun h0 => ?_); rotate_left; clear_value x0; rotate_left; dsimp -zeta only [x0]; clear x0)
    | (extract_lets -descend +onlyGivenNames x0; clear_value x0)
    | lift_lets
    | with_reducible assumption
    | (with_reducible first | apply State.dropped_keeps | apply State.originate_keeps | apply State.delTensor_keeps)
    | (with_reducible apply Keeps.ite)
    | split
    | (refine Keeps.some ?_ (by assumption))
    | (refine Keeps.snd ?_ (by assumption))
    | exact Sub.of rfl
    | dsimp only

theorem State.checksumBad_keeps {mk : Nat} {z s : State} (hk : Keeps mk z s) (hm : Sub 0x3 mk := by exact Sub.of rfl) :
    Keeps mk z (State.checksumBad s) := by
  refine hk.within hm ?_
  replace hk : Keeps 0x3 s s := .refl _
  unfold State.checksumBad
  repeat' first
    | (extract_lets -descend +onlyGivenNames x0; refine Keeps.cut (m := 0x3) (z := s) (v := x0) ?_ (fun h0 => ?_); rotate_left; clear_value x0; rotate_left; dsimp -zeta only [x0]; clear x0)
    | (extract_lets -descend +onlyGivenNames x0; first
        | ((with_reducible first | have _w : LinkSt := x0 | have _w : TimeSt := x0 | have _w : PowerSt := x0 | have _w : SampSt := x0 | have _w : FwSt := x0 | have _w : AuthSt := x0 | have _w : PulseSt := x0 | have _w : CoreSt := x0); clear _w; dsimp -zeta only [x0]; clear x0)
        | clear_value x0)
    | with_reducible intro _
    | lift_lets
    | with_reducible assumption
    | (with_reducible first | apply KeepsR.present | apply KeepsR.next | exact KeepsR.fault | exact KeepsO.none | apply KeepsO.some | apply State.bumpSat_keeps)
    | (with_reducible refine State.modRegion_keeps ?_ _ _ (fun _ w => w))
    | (with_reducible refine State.modFw_keeps ?_ _ ⟨rfl, rfl⟩)
    | (with_reducible refine State.modAuth_keeps ?_ _ ⟨rfl, rfl⟩)
    | (with_reducible refine Keeps.mk0 ?_ ?g; (first | with_reducible assumption | (refine Keeps.snd ?_ (by assumption)) | (refine Keeps.some ?_ (by assumption)) | (with_reducible first | apply State.bumpSat_keeps)); with_reducible case g => exact fun h => Keeps.mk' h)
    | (with_reducible apply Keeps.ite)
    | (with_reducible apply Keeps.foldl)
    | (with_reducible apply Keeps.foldlSnd)
    | (with_reducible apply Keeps.foldlFst)
    | split
    | (refine Keeps.some ?_ (by assumption))
    | (refine Keeps.snd ?_ (by assumption))
    | exact Sub.of rfl
    | dsimp only

theorem State.badAt_keeps {mk : Nat} {z s : State} (hk : Keeps mk z s) (i0 : BadPlace) (hm : Sub 0x11EEDF7 mk := by exact Sub.of rfl) :
    Keeps mk z (State.badAt s i0) := by
  refine hk.within hm ?_
  replace hk : Keeps 0x11EEDF7 s s := .refl _
  unfold State.badAt
  repeat' first
    | (extract_lets -descend +onlyGivenNames x0; refine Keeps.cut (m := 0x11EEDF7) (z := s) (v := x0) ?_ (fun h0 => ?_); rotate_left; clear_value x0; rotate_left; dsimp -zeta only [x0]; clear x0)
    | (extract_lets -descend +onlyGivenNames x0; first
        | ((with_reducible first | have _w : LinkSt := x0 | have _w : TimeSt := x0 | have _w : PowerSt := x0 | have _w : SampSt := x0 | have _w : FwSt := x0 | have _w : AuthSt := x0 | have _w : PulseSt := x0 | have _w : CoreSt := x0); clear _w; dsimp -zeta only [x0]; clear x0)
        | clear_value x0)
    | with_reducible intro _
    | lift_lets
    | with_reducible assumption
    | (with_reducible first | apply KeepsR.present | apply KeepsR.next | exact KeepsR.fault | exact KeepsO.none | apply KeepsO.some | apply State.modCls_keeps | apply State.setCtr_keeps | apply State.modSensor_keeps | apply State.histLost_keeps | apply State.modPlace_keeps | apply State.setInReset_keeps | apply State.linkReset_keeps | apply State.storedBad_keeps | apply State.latchBad_keeps | apply State.tensorBad_keeps | apply State.checksumBad_keeps)
    | (with_reducible refine State.modRegion_keeps ?_ _ _ (fun _ w => w))
    | (with_reducible refine State.modFw_keeps ?_ _ ⟨rfl, rfl⟩)
    | (with_reducible refine State.modAuth_keeps ?_ _ ⟨rfl, rfl⟩)
    | (with_reducible refine Keeps.mk0 ?_ ?g; (first | with_reducible assumption | (refine Keeps.snd ?_ (by assumption)) | (refine Keeps.some ?_ (by assumption)) | (with_reducible first | apply State.modCls_keeps | apply State.setCtr_keeps | apply State.modSensor_keeps | apply State.histLost_keeps | apply State.modPlace_keeps | apply State.setInReset_keeps | apply State.linkReset_keeps | apply State.storedBad_keeps | apply State.latchBad_keeps | apply State.tensorBad_keeps | apply State.checksumBad_keeps)); with_reducible case g => exact fun h => Keeps.mk' h)
    | (with_reducible apply Keeps.ite)
    | (with_reducible apply Keeps.foldl)
    | (with_reducible apply Keeps.foldlSnd)
    | (with_reducible apply Keeps.foldlFst)
    | split
    | (refine Keeps.some ?_ (by assumption))
    | (refine Keeps.snd ?_ (by assumption))
    | exact Sub.of rfl
    | dsimp only

theorem State.patrolBad_keeps {mk : Nat} {z s : State} (hk : Keeps mk z s) (w : BadWord) (hm : Sub 0x11EEDF7 mk := by exact Sub.of rfl) :
    Keeps mk z (State.patrolBad s w) := by
  refine hk.within hm ?_
  replace hk : Keeps 0x11EEDF7 s s := .refl _
  unfold State.patrolBad
  repeat' first
    | with_reducible assumption
    | (with_reducible first | apply State.badWord_keeps | apply State.badAt_keeps)
    | exact Sub.of rfl
    | dsimp only

theorem execPatrolPeriod_keeps {mk : Nat} {z s : State} (hk : Keeps mk z s) (fixes : Nat) (bad : List BadWord) (hm : Sub 0x19EEDF7 mk := by exact Sub.of rfl) :
    KeepsR mk z (execPatrolPeriod fixes bad s) := by
  refine KeepsR.within hk hm ?_
  replace hk : Keeps 0x19EEDF7 s s := .refl _
  unfold execPatrolPeriod
  repeat' first
    | with_reducible intro _
    | with_reducible assumption
    | (with_reducible first | apply KeepsR.present | apply KeepsR.next | exact KeepsR.fault | apply State.bumpSat_keeps | apply State.modRep_keeps | apply State.patrolBad_keeps)
    | (with_reducible refine Keeps.mk0 ?_ ?g; (first | with_reducible assumption | (refine Keeps.snd ?_ (by assumption)) | (refine Keeps.some ?_ (by assumption)) | (with_reducible first | apply State.bumpSat_keeps | apply State.modRep_keeps | apply State.patrolBad_keeps)); with_reducible case g => exact fun h => Keeps.mk' h)
    | (with_reducible apply Keeps.ite)
    | (with_reducible apply Keeps.foldl)
    | split
    | exact Sub.of rfl
    | dsimp only

end Sys2Proof.Machine
end

