-- ==== Sys2Proof/Laws/KeepsRecordIn.lean ====
section
/-! SUPPORT. What the operations of Machine/RecordIn.lean keep. -/

set_option Elab.async false

namespace Sys2Proof.Machine

theorem State.planRecord_keeps {mk : Nat} {z s : State} (hk : Keeps mk z s) (r : Rec) (hm : Sub 0x11EE7F7 mk := by exact Sub.of rfl) :
    Keeps mk z (State.planRecord s r) := by
  refine hk.within hm ?_
  replace hk : Keeps 0x11EE7F7 s s := .refl _
  unfold State.planRecord
  repeat' first
    | with_reducible assumption
    | with_reducible apply State.takePlan_keeps
    | split
    | (refine Keeps.some ?_ (by assumption))
    | exact Sub.of rfl
    | dsimp only

theorem State.localUse_keeps {mk : Nat} {z s : State} (hk : Keeps mk z s) (port : Nat) (r : Rec) (hm : Sub 0x17EE7FF mk := by exact Sub.of rfl) :
    Keeps mk z (State.localUse s port r) := by
  refine hk.within hm ?_
  replace hk : Keeps 0x17EE7FF s s := .refl _
  unfold State.localUse
  repeat' first
    | with_reducible assumption
    | (with_reducible first | apply State.probeIn_keeps | apply State.replyIn_keeps | apply State.resultIn_keeps | apply State.cursorIn_keeps | apply State.signedIn_keeps | apply State.modeNotice_keeps | apply State.planRecord_keeps)
    | (with_reducible apply Keeps.ite)
    | split
    | (refine Keeps.some ?_ (by assumption))
    | exact Sub.of rfl
    | dsimp only

theorem State.leafSuspect_keeps {mk : Nat} {z s : State} (hk : Keeps mk z s) (port : Nat) (r : Rec) (hm : Sub 0x20001 mk := by exact Sub.of rfl) :
    Keeps mk z (State.leafSuspect s port r) := by
  refine hk.within hm ?_
  replace hk : Keeps 0x20001 s s := .refl _
  unfold State.leafSuspect
  repeat' first
    | with_reducible assumption
    | with_reducible apply State.suspectSeen_keeps
    | (with_reducible apply Keeps.ite)
    | split
    | exact Sub.of rfl
    | dsimp only

theorem State.passOn_keeps {mk : Nat} {z s : State} (hk : Keeps mk z s) (port : Nat) (r : Rec) (hm : Sub 0x904F3 mk := by exact Sub.of rfl) :
    Keeps mk z (State.passOn s port r) := by
  refine hk.within hm ?_
  replace hk : Keeps 0x904F3 s s := .refl _
  unfold State.passOn
  repeat' first
    | (extract_lets -descend +onlyGivenNames x0; refine Keeps.cut (m := 0x904F3) (z := s) (v := x0) ?_ (fun h0 => ?_); rotate_left; clear_value x0; rotate_left; dsimp -zeta only [x0]; clear x0)
    | (extract_lets -descend +onlyGivenNames x0; clear_value x0)
    | with_reducible intro _
    | lift_lets
    | with_reducible assumption
    | (with_reducible first | apply State.forwardUp_keeps | apply State.consume_keeps)
    | (with_reducible apply Keeps.ite)
    | split
    | (refine Keeps.some ?_ (by assumption))
    | exact Sub.of rfl
    | dsimp only

theorem State.readOn_keeps {mk : Nat} {z s : State} (hk : Keeps mk z s) (port : Nat) (r : Rec) (hm : Sub 0x11FF5F7 mk := by exact Sub.of rfl) :
    Keeps mk z (State.readOn s port r) := by
  refine hk.within hm ?_
  replace hk : Keeps 0x11FF5F7 s s := .refl _
  unfold State.readOn
  repeat' first
    | with_reducible intro _
    | with_reducible assumption
    | (with_reducible first | apply State.inspectOn_keeps | apply State.decisionIn_keeps | apply State.treeSamples_keeps | apply State.leafSuspect_keeps | apply State.passOn_keeps)
    | (with_reducible apply Keeps.ite)
    | split
    | exact Sub.of rfl
    | dsimp only

theorem State.recordUse_keeps {mk : Nat} {z s : State} (hk : Keeps mk z s) (port credits : Nat) (r : Rec) (hm : Sub 0x17FF7FF mk := by exact Sub.of rfl) :
    Keeps mk z (State.recordUse s port credits r) := by
  refine hk.within hm ?_
  replace hk : Keeps 0x17FF7FF s s := .refl _
  unfold State.recordUse
  repeat' first
    | with_reducible intro _
    | with_reducible assumption
    | (with_reducible first | apply State.takeDrop_keeps | apply State.convoyPacket_keeps | apply State.resultPacket_keeps | apply State.reachPacket_keeps | apply State.requestIn_keeps | apply State.modelChunk_keeps | apply State.bulkIn_keeps | apply State.aggIn_keeps | apply State.noticeIn_keeps | apply State.patChunk_keeps | apply State.schedTake_keeps | apply State.snapTake_keeps | apply State.snapRecord_keeps | apply State.graphIn_keeps | apply State.localUse_keeps | apply State.readOn_keeps)
    | (with_reducible apply Keeps.ite)
    | split
    | exact Sub.of rfl
    | dsimp only

theorem State.recordIn_keeps {mk : Nat} {z s : State} (hk : Keeps mk z s) (port tc len credits : Nat) (red : Bool) (r : Rec) (hm : Sub 0x17FF7FF mk := by exact Sub.of rfl) :
    Keeps mk z (State.recordIn s port tc len credits red r) := by
  refine hk.within hm ?_
  replace hk : Keeps 0x17FF7FF s s := .refl _
  unfold State.recordIn
  repeat' first
    | (extract_lets -descend +onlyGivenNames x0; refine Keeps.cut (m := 0x17FF7FF) (z := s) (v := x0) ?_ (fun h0 => ?_); rotate_left; clear_value x0; rotate_left; dsimp -zeta only [x0]; clear x0)
    | (extract_lets -descend +onlyGivenNames x0; clear_value x0)
    | lift_lets
    | with_reducible assumption
    | (with_reducible first | apply State.admitUnit_keeps | apply State.recordUse_keeps)
    | (with_reducible apply Keeps.ite)
    | split
    | (refine Keeps.snd ?_ (by assumption))
    | exact Sub.of rfl
    | dsimp only

theorem execRecordReceived_keeps {mk : Nat} {z s : State} (hk : Keeps mk z s) (port tc len : Nat) (rec : Rec) (hm : Sub 0x17FF7FF mk := by exact Sub.of rfl) :
    KeepsR mk z (execRecordReceived port tc len rec s) := by
  refine KeepsR.within hk hm ?_
  replace hk : Keeps 0x17FF7FF s s := .refl _
  unfold execRecordReceived
  repeat' first
    | (extract_lets -descend +onlyGivenNames x0; refine Keeps.cut (m := 0x17FF7FF) (z := s) (v := x0) ?_ (fun h0 => ?_); rotate_left; clear_value x0; rotate_left; dsimp -zeta only [x0]; clear x0)
    | (extract_lets -descend +onlyGivenNames x0; clear_value x0)
    | lift_lets
    | with_reducible assumption
    | (with_reducible first | apply KeepsR.present | apply KeepsR.next | exact KeepsR.fault | apply present_keeps | apply State.tollRed_keeps | apply State.recordIn_keeps)
    | split
    | (refine Keeps.snd ?_ (by assumption))
    | exact Sub.of rfl
    | dsimp only

theorem State.pubHold_keeps {mk : Nat} {z s : State} (hk : Keeps mk z s) (port tc credits first : Nat) (hm : Sub 0x40020 mk := by exact Sub.of rfl) :
    Keeps mk z (State.pubHold s port tc credits first) := by
  refine hk.within hm ?_
  replace hk : Keeps 0x40020 s s := .refl _
  unfold State.pubHold
  repeat' first
    | (extract_lets -descend +onlyGivenNames x0; refine Keeps.cut (m := 0x40020) (z := s) (v := x0) ?_ (fun h0 => ?_); rotate_left; clear_value x0; rotate_left; dsimp -zeta only [x0]; clear x0)
    | (extract_lets -descend +onlyGivenNames x0; clear_value x0)
    | with_reducible intro _
    | lift_lets
    | with_reducible assumption
    | (with_reducible first | apply State.withhold_keeps | apply State.modPub_keeps)
    | (with_reducible refine Keeps.mk0 ?_ ?g; (first | with_reducible assumption | (refine Keeps.snd ?_ (by assumption)) | (refine Keeps.some ?_ (by assumption)) | (with_reducible first | apply State.withhold_keeps | apply State.modPub_keeps)); with_reducible case g => exact fun h => Keeps.mk' h)
    | (with_reducible apply Keeps.ite)
    | (with_reducible apply Keeps.foldl)
    | split
    | (refine Keeps.some ?_ (by assumption))
    | exact Sub.of rfl
    | dsimp only

theorem State.unitToll_keeps {mk : Nat} {z s : State} (hk : Keeps mk z s) (port : Nat) (u : UnitIn) (hm : Sub 0x804F7 mk := by exact Sub.of rfl) :
    Keeps mk z (State.unitToll s port u).2 := by
  refine hk.within hm ?_
  replace hk : Keeps 0x804F7 s s := .refl _
  unfold State.unitToll
  repeat' first
    | with_reducible intro _
    | with_reducible assumption
    | (with_reducible first | apply State.tollRed_keeps | apply State.linkCtl_keeps)
    | (with_reducible apply Keeps.ite)
    | split
    | (refine Keeps.snd ?_ (by assumption))
    | exact Sub.of rfl
    | dsimp only

theorem State.unitArrive_keeps {mk : Nat} {z s : State} (hk : Keeps mk z s) (port : Nat) (u : UnitIn) (hm : Sub 0x17FF7FF mk := by exact Sub.of rfl) :
    Keeps mk z (State.unitArrive s port u) := by
  refine hk.within hm ?_
  replace hk : Keeps 0x17FF7FF s s := .refl _
  unfold State.unitArrive
  repeat' first
    | (extract_lets -descend +onlyGivenNames x0; refine Keeps.cut (m := 0x17FF7FF) (z := s) (v := x0) ?_ (fun h0 => ?_); rotate_left; clear_value x0; rotate_left; dsimp -zeta only [x0]; clear x0)
    | (extract_lets -descend +onlyGivenNames x0; clear_value x0)
    | with_reducible intro _
    | lift_lets
    | with_reducible assumption
    | (with_reducible first | apply State.modCls_keeps | apply State.wake_keeps | apply State.unitIn_keeps | apply State.recordIn_keeps | apply State.pubHold_keeps | apply State.unitToll_keeps)
    | (with_reducible refine Keeps.mk0 ?_ ?g; (first | with_reducible assumption | (refine Keeps.snd ?_ (by assumption)) | (refine Keeps.some ?_ (by assumption)) | (with_reducible first | apply State.modCls_keeps | apply State.wake_keeps | apply State.unitIn_keeps | apply State.recordIn_keeps | apply State.pubHold_keeps | apply State.unitToll_keeps)); with_reducible case g => exact fun h => Keeps.mk' h)
    | (with_reducible apply Keeps.ite)
    | split
    | (refine Keeps.some ?_ (by assumption))
    | (refine Keeps.snd ?_ (by assumption))
    | exact Sub.of rfl
    | dsimp only

theorem execUnitReceived_keeps {mk : Nat} {z s : State} (hk : Keeps mk z s) (port : Nat) (u : UnitIn) (hm : Sub 0x17FF7FF mk := by exact Sub.of rfl) :
    KeepsR mk z (execUnitReceived port u s) := by
  refine KeepsR.within hk hm ?_
  replace hk : Keeps 0x17FF7FF s s := .refl _
  unfold execUnitReceived
  repeat' first
    | with_reducible assumption
    | (with_reducible first | apply KeepsR.present | apply KeepsR.next | exact KeepsR.fault | apply present_keeps | apply State.unitArrive_keeps)
    | exact Sub.of rfl
    | dsimp only

theorem State.peerRecord_keeps {mk : Nat} {z s : State} (hk : Keeps mk z s) (p : Nat) (r : Rec) (hm : Sub 0x17FF7FF mk := by exact Sub.of rfl) :
    Keeps mk z (State.peerRecord s p r) := by
  refine hk.within hm ?_
  replace hk : Keeps 0x17FF7FF s s := .refl _
  unfold State.peerRecord
  repeat' first
    | (extract_lets -descend +onlyGivenNames x0; refine Keeps.cut (m := 0x17FF7FF) (z := s) (v := x0) ?_ (fun h0 => ?_); rotate_left; clear_value x0; rotate_left; dsimp -zeta only [x0]; clear x0)
    | (extract_lets -descend +onlyGivenNames x0; clear_value x0)
    | lift_lets
    | with_reducible assumption
    | (with_reducible first | apply State.peerAdmit_keeps | apply State.recordUse_keeps)
    | (with_reducible apply Keeps.ite)
    | split
    | (refine Keeps.snd ?_ (by assumption))
    | exact Sub.of rfl
    | dsimp only

theorem State.peerTake_keeps {mk : Nat} {z s : State} (hk : Keeps mk z s) (e dseq : Nat) (recs : List Rec) (hm : Sub 0x17FF7FF mk := by exact Sub.of rfl) :
    Keeps mk z (State.peerTake s e dseq recs) := by
  refine hk.within hm ?_
  replace hk : Keeps 0x17FF7FF s s := .refl _
  unfold State.peerTake
  repeat' first
    | (extract_lets -descend +onlyGivenNames x0; refine Keeps.cut (m := 0x17FF7FF) (z := s) (v := x0) ?_ (fun h0 => ?_); rotate_left; clear_value x0; rotate_left; dsimp -zeta only [x0]; clear x0)
    | (extract_lets -descend +onlyGivenNames x0; clear_value x0)
    | with_reducible intro _
    | lift_lets
    | with_reducible assumption
    | (with_reducible first | apply State.modSess_keeps | apply State.peerRecord_keeps)
    | (with_reducible refine Keeps.mk0 ?_ ?g; (first | with_reducible assumption | (refine Keeps.snd ?_ (by assumption)) | (refine Keeps.some ?_ (by assumption)) | (with_reducible first | apply State.modSess_keeps | apply State.peerRecord_keeps)); with_reducible case g => exact fun h => Keeps.mk' h)
    | (with_reducible apply Keeps.foldl)
    | split
    | (refine Keeps.some ?_ (by assumption))
    | exact Sub.of rfl
    | dsimp only

theorem State.dataIn_keeps {mk : Nat} {z s : State} (hk : Keeps mk z s) (e session dseq : Nat) (recs : List Rec) (hm : Sub 0x17FF7FF mk := by exact Sub.of rfl) :
    Keeps mk z (State.dataIn s e session dseq recs) := by
  refine hk.within hm ?_
  replace hk : Keeps 0x17FF7FF s s := .refl _
  unfold State.dataIn
  repeat' first
    | (extract_lets -descend +onlyGivenNames x0; refine Keeps.cut (m := 0x17FF7FF) (z := s) (v := x0) ?_ (fun h0 => ?_); rotate_left; clear_value x0; rotate_left; dsimp -zeta only [x0]; clear x0)
    | (extract_lets -descend +onlyGivenNames x0; clear_value x0)
    | lift_lets
    | with_reducible assumption
    | (with_reducible first | apply State.ethOut_keeps | apply State.rxDiscard_keeps | apply State.peerTake_keeps)
    | (with_reducible apply Keeps.ite)
    | split
    | exact Sub.of rfl
    | dsimp only

theorem execDataDgram_keeps {mk : Nat} {z s : State} (hk : Keeps mk z s) (e session dseq flags : Nat) (recs : List Rec) (hm : Sub 0x17FF7FF mk := by exact Sub.of rfl) :
    KeepsR mk z (execDataDgram e session dseq flags recs s) := by
  refine KeepsR.within hk hm ?_
  replace hk : Keeps 0x17FF7FF s s := .refl _
  unfold execDataDgram
  repeat' first
    | with_reducible assumption
    | (with_reducible first | apply KeepsR.present | apply KeepsR.next | exact KeepsR.fault | apply present_keeps | apply State.dataIn_keeps)
    | (with_reducible apply Keeps.ite)
    | split
    | exact Sub.of rfl
    | dsimp only

end Sys2Proof.Machine
end

