-- ==== Sys2Proof/Laws/KeepsRegAccess.lean ====
section
/-! SUPPORT. What the operations of Machine/RegAccess.lean keep. -/

set_option Elab.async false

namespace Sys2Proof.Machine

theorem State.aonEff_keeps {mk : Nat} {z s : State} (hk : Keeps mk z s) (page off v : Nat) (hm : Sub 0x17EE7FF mk := by exact Sub.of rfl) :
    KeepsO mk z (State.aonEff s page off v) := by
  refine KeepsO.within hk hm ?_
  replace hk : Keeps 0x17EE7FF s s := .refl _
  unfold State.aonEff
  repeat' first
    | with_reducible assumption
    | (with_reducible first | exact KeepsO.none | apply KeepsO.some | apply State.wr_keeps | apply State.setHostVotes_keeps | apply State.setFwVotes_keeps | apply State.timeMode_keeps | apply State.timeSet_keeps | apply State.ptpCtrl_keeps | apply State.setIdle_keeps | apply State.floorRaise_keeps | apply State.slotSubmit_keeps | apply State.dataWrite_keeps | apply State.heartbeat_keeps | apply State.uaAck_keeps | apply State.pulseArm_keeps | apply State.pulseDisarm_keeps | apply State.capPop_keeps)
    | (with_reducible apply Keeps.ite)
    | split
    | (refine Keeps.some ?_ (by assumption))
    | exact Sub.of rfl
    | dsimp only

theorem State.wrappedWrite_keeps {mk : Nat} {z s : State} (hk : Keeps mk z s) (page off v : Nat) (hm : Sub 0x1 mk := by exact Sub.of rfl) :
    Keeps mk z (State.wrappedWrite s page off v) := by
  refine hk.within hm ?_
  replace hk : Keeps 0x1 s s := .refl _
  unfold State.wrappedWrite
  repeat' first
    | (extract_lets -descend +onlyGivenNames x0; refine Keeps.cut (m := 0x1) (z := s) (v := x0) ?_ (fun h0 => ?_); rotate_left; clear_value x0; rotate_left; dsimp -zeta only [x0]; clear x0)
    | (extract_lets -descend +onlyGivenNames x0; clear_value x0)
    | lift_lets
    | with_reducible assumption
    | with_reducible apply State.wr_keeps
    | exact Sub.of rfl
    | dsimp only

theorem State.abftEff_keeps {mk : Nat} {z s : State} (hk : Keeps mk z s) (off v : Nat) (hm : Sub 0x88477 mk := by exact Sub.of rfl) :
    KeepsO mk z (State.abftEff s off v) := by
  refine KeepsO.within hk hm ?_
  replace hk : Keeps 0x88477 s s := .refl _
  unfold State.abftEff
  repeat' first
    | with_reducible intro _
    | with_reducible assumption
    | (with_reducible first | exact KeepsO.none | apply KeepsO.some | apply State.modAbft_keeps | apply State.abftCtrl_keeps | apply State.patGo_keeps | apply State.modPlace_keeps)
    | (with_reducible refine Keeps.mk0 ?_ ?g; (first | with_reducible assumption | (refine Keeps.snd ?_ (by assumption)) | (refine Keeps.some ?_ (by assumption)) | (with_reducible first | apply State.modAbft_keeps | apply State.abftCtrl_keeps | apply State.patGo_keeps | apply State.modPlace_keeps)); with_reducible case g => exact fun h => Keeps.mk' h)
    | (with_reducible apply Keeps.ite)
    | split
    | exact Sub.of rfl
    | dsimp only

theorem State.traceEff_keeps {mk : Nat} {z s : State} (hk : Keeps mk z s) (off v : Nat) (hm : Sub 0x11EE5F7 mk := by exact Sub.of rfl) :
    KeepsO mk z (State.traceEff s off v) := by
  refine KeepsO.within hk hm ?_
  replace hk : Keeps 0x11EE5F7 s s := .refl _
  unfold State.traceEff
  repeat' first
    | with_reducible assumption
    | (with_reducible first | exact KeepsO.none | apply KeepsO.some | apply State.trcTrigger_keeps | apply State.trcCtrl_keeps | apply State.trcArm_keeps | apply State.tokCtrl_keeps | apply State.tokData_keeps | apply State.tokRevoke_keeps)
    | (with_reducible apply Keeps.ite)
    | split
    | exact Sub.of rfl
    | dsimp only

theorem State.tapEff_keeps {mk : Nat} {z s : State} (hk : Keeps mk z s) (page off v : Nat) (hm : Sub 0x11EE7F7 mk := by exact Sub.of rfl) :
    KeepsO mk z (State.tapEff s page off v) := by
  refine KeepsO.within hk hm ?_
  replace hk : Keeps 0x11EE7F7 s s := .refl _
  unfold State.tapEff
  repeat' first
    | with_reducible assumption
    | (with_reducible first | exact KeepsO.none | apply KeepsO.some | apply State.ctrCfgWrite_keeps | apply State.clPop_keeps | apply State.tbRelease_keeps | apply State.mstArmWrite_keeps | apply State.wrappedWrite_keeps | apply State.abftEff_keeps | apply State.traceEff_keeps)
    | (with_reducible apply Keeps.ite)
    | split
    | exact Sub.of rfl
    | dsimp only

theorem State.featLoadLo_keeps {mk : Nat} {z s : State} (hk : Keeps mk z s) (v : Nat) (hm : Sub 0x800 mk := by exact Sub.of rfl) :
    Keeps mk z (State.featLoadLo s v) := by
  refine hk.within hm ?_
  replace hk : Keeps 0x800 s s := .refl _
  unfold State.featLoadLo
  repeat' first
    | (extract_lets -descend +onlyGivenNames x0; refine Keeps.cut (m := 0x800) (z := s) (v := x0) ?_ (fun h0 => ?_); rotate_left; clear_value x0; rotate_left; dsimp -zeta only [x0]; clear x0)
    | (extract_lets -descend +onlyGivenNames x0; clear_value x0)
    | lift_lets
    | with_reducible assumption
    | with_reducible apply State.featCopy_keeps
    | (with_reducible refine Keeps.mk0 ?_ ?g; (first | with_reducible assumption | (refine Keeps.snd ?_ (by assumption)) | (refine Keeps.some ?_ (by assumption)) | (with_reducible first | apply State.featCopy_keeps)); with_reducible case g => exact fun h => Keeps.mk' h)
    | exact Sub.of rfl
    | dsimp only

theorem State.budgetWrite_keeps {mk : Nat} {z s : State} (hk : Keeps mk z s) (r : Reg) (v : Nat) (hm : Sub 0x2001 mk := by exact Sub.of rfl) :
    Keeps mk z (State.budgetWrite s r v) := by
  refine hk.within hm ?_
  replace hk : Keeps 0x2001 s s := .refl _
  unfold State.budgetWrite
  repeat' first
    | with_reducible assumption
    | (with_reducible first | apply State.wr_keeps | apply State.budgetRefill_keeps)
    | exact Sub.of rfl
    | dsimp only

theorem State.engEff_keeps {mk : Nat} {z s : State} (hk : Keeps mk z s) (page off v : Nat) (hm : Sub 0x11EFDF7 mk := by exact Sub.of rfl) :
    KeepsO mk z (State.engEff s page off v) := by
  refine KeepsO.within hk hm ?_
  replace hk : Keeps 0x11EFDF7 s s := .refl _
  unfold State.engEff
  repeat' first
    | with_reducible assumption
    | (with_reducible first | exact KeepsO.none | apply KeepsO.some | apply State.flowApply_keeps | apply State.featLoadHi_keeps | apply State.featStatWrite_keeps | apply State.featConstWrite_keeps | apply State.featSwapWrite_keeps | apply State.stepBoundary_keeps | apply State.advAck_keeps | apply State.outClear_keeps | apply State.treeLoadCtrl_keeps | apply State.treeLoadData_keeps | apply State.tslCancel_keeps | apply State.admitWrite_keeps | apply State.featLoadLo_keeps | apply State.budgetWrite_keeps)
    | (with_reducible apply Keeps.ite)
    | split
    | exact Sub.of rfl
    | dsimp only

theorem State.portEff_keeps {mk : Nat} {z s : State} (hk : Keeps mk z s) (p off v : Nat) (hm : Sub 0x11EF5F7 mk := by exact Sub.of rfl) :
    KeepsO mk z (State.portEff s p off v) := by
  refine KeepsO.within hk hm ?_
  replace hk : Keeps 0x11EF5F7 s s := .refl _
  unfold State.portEff
  repeat' first
    | (extract_lets -descend +onlyGivenNames x0; refine Keeps.cut (m := 0x11EF5F7) (z := s) (v := x0) ?_ (fun h0 => ?_); rotate_left; clear_value x0; rotate_left; dsimp -zeta only [x0]; clear x0)
    | (extract_lets -descend +onlyGivenNames x0; clear_value x0)
    | lift_lets
    | with_reducible assumption
    | (with_reducible first | exact KeepsO.none | apply KeepsO.some | apply State.pwr_keeps | apply State.linkDown_keeps | apply State.quarRelease_keeps | apply State.admitNext_keeps | apply State.laneCtrl_keeps)
    | (with_reducible apply Keeps.ite)
    | split
    | exact Sub.of rfl
    | dsimp only

theorem State.pubCtrlWrite_keeps {mk : Nat} {z s : State} (hk : Keeps mk z s) (v : Nat) (hm : Sub 0xC24F7 mk := by exact Sub.of rfl) :
    Keeps mk z (State.pubCtrlWrite s v) := by
  refine hk.within hm ?_
  replace hk : Keeps 0xC24F7 s s := .refl _
  unfold State.pubCtrlWrite
  repeat' first
    | (extract_lets -descend +onlyGivenNames x0; refine Keeps.cut (m := 0xC24F7) (z := s) (v := x0) ?_ (fun h0 => ?_); rotate_left; clear_value x0; rotate_left; dsimp -zeta only [x0]; clear x0)
    | (extract_lets -descend +onlyGivenNames x0; clear_value x0)
    | with_reducible intro _
    | lift_lets
    | with_reducible assumption
    | (with_reducible first | apply State.wr_keeps | apply State.colRefresh_keeps)
    | exact Sub.of rfl
    | dsimp only

theorem State.ethCtrlWrite_keeps {mk : Nat} {z s : State} (hk : Keeps mk z s) (p v : Nat) (hm : Sub 0xC2021 mk := by exact Sub.of rfl) :
    Keeps mk z (State.ethCtrlWrite s p v) := by
  refine hk.within hm ?_
  replace hk : Keeps 0xC2021 s s := .refl _
  unfold State.ethCtrlWrite
  repeat' first
    | with_reducible assumption
    | (with_reducible first | apply State.wr_keeps | apply State.sessMoves_keeps)
    | exact Sub.of rfl
    | dsimp only

theorem State.ethAddrWrite_keeps {mk : Nat} {z s : State} (hk : Keeps mk z s) (p i v : Nat) (hm : Sub 0x40001 mk := by exact Sub.of rfl) :
    Keeps mk z (State.ethAddrWrite s p i v) := by
  refine hk.within hm ?_
  replace hk : Keeps 0x40001 s s := .refl _
  unfold State.ethAddrWrite
  repeat' first
    | (extract_lets -descend +onlyGivenNames x0; refine Keeps.cut (m := 0x40001) (z := s) (v := x0) ?_ (fun h0 => ?_); rotate_left; clear_value x0; rotate_left; dsimp -zeta only [x0]; clear x0)
    | (extract_lets -descend +onlyGivenNames x0; clear_value x0)
    | with_reducible intro _
    | lift_lets
    | with_reducible assumption
    | (with_reducible first | apply State.wr_keeps | apply State.modPub_keeps)
    | (with_reducible refine Keeps.mk0 ?_ ?g; (first | with_reducible assumption | (refine Keeps.snd ?_ (by assumption)) | (refine Keeps.some ?_ (by assumption)) | (with_reducible first | apply State.wr_keeps | apply State.modPub_keeps)); with_reducible case g => exact fun h => Keeps.mk' h)
    | exact Sub.of rfl
    | dsimp only

theorem State.boardEff_keeps {mk : Nat} {z s : State} (hk : Keeps mk z s) (page off v : Nat) (hm : Sub 0x11C2CF7 mk := by exact Sub.of rfl) :
    KeepsO mk z (State.boardEff s page off v) := by
  refine KeepsO.within hk hm ?_
  replace hk : Keeps 0x11C2CF7 s s := .refl _
  unfold State.boardEff
  repeat' first
    | with_reducible assumption
    | (with_reducible first | exact KeepsO.none | apply KeepsO.some | apply State.wr_keeps | apply State.padRelease_keeps | apply State.thermPin_keeps | apply State.colWrite_keeps | apply State.pubCtrlWrite_keeps | apply State.ethCtrlWrite_keeps | apply State.ethAddrWrite_keeps)
    | (with_reducible apply Keeps.ite)
    | split
    | exact Sub.of rfl
    | dsimp only

theorem State.slotPostLo_keeps {mk : Nat} {z s : State} (hk : Keeps mk z s) (k v : Nat) (hm : Sub 0x400 mk := by exact Sub.of rfl) :
    Keeps mk z (State.slotPostLo s k v) := by
  refine hk.within hm ?_
  replace hk : Keeps 0x400 s s := .refl _
  unfold State.slotPostLo
  repeat' first
    | with_reducible intro _
    | with_reducible assumption
    | (with_reducible refine Keeps.mk0 ?_ ?g; (first | with_reducible assumption | (refine Keeps.snd ?_ (by assumption)) | (refine Keeps.some ?_ (by assumption))); with_reducible case g => exact fun h => Keeps.mk' h)
    | exact Sub.of rfl
    | dsimp only

theorem State.tellBlocked_keeps {mk : Nat} {z s : State} (hk : Keeps mk z s) (old : State) (hm : Sub 0x3 mk := by exact Sub.of rfl) :
    Keeps mk z (State.tellBlocked s old) := by
  refine hk.within hm ?_
  replace hk : Keeps 0x3 s s := .refl _
  unfold State.tellBlocked
  repeat' first
    | with_reducible intro _
    | with_reducible assumption
    | with_reducible apply State.irq_keeps
    | (with_reducible apply Keeps.ite)
    | split
    | exact Sub.of rfl
    | dsimp only

theorem State.regEff_keeps {mk : Nat} {z s : State} (hk : Keeps mk z s) (addr v : Nat) (hm : Sub 0x17EFFFF mk := by exact Sub.of rfl) :
    Keeps mk z (State.regEff s addr v) := by
  refine hk.within hm ?_
  replace hk : Keeps 0x17EFFFF s s := .refl _
  unfold State.regEff
  repeat' first
    | (extract_lets -descend +onlyGivenNames x0; refine Keeps.cut (m := 0x17EFFFF) (z := s) (v := x0) ?_ (fun h0 => ?_); rotate_left; clear_value x0; rotate_left; dsimp -zeta only [x0]; clear x0)
    | (extract_lets -descend +onlyGivenNames x0; dsimp -zeta only [x0]; clear x0)
    | with_reducible intro _
    | lift_lets
    | with_reducible assumption
    | (with_reducible first | apply KeepsR.present | apply KeepsR.next | exact KeepsR.fault | exact KeepsO.none | apply KeepsO.some | apply State.store_keeps | apply State.cmnWrite_keeps | apply State.tollSettle_keeps | apply State.settle_keeps | apply State.slotPost_keeps | apply State.aonEff_keeps | apply State.tapEff_keeps | apply State.engEff_keeps | apply State.portEff_keeps | apply State.boardEff_keeps | apply State.slotPostLo_keeps | apply State.tellBlocked_keeps)
    | (with_reducible refine State.modRegion_keeps ?_ _ _ (fun _ w => w))
    | (with_reducible refine State.modFw_keeps ?_ _ ⟨rfl, rfl⟩)
    | (with_reducible refine State.modAuth_keeps ?_ _ ⟨rfl, rfl⟩)
    | (with_reducible refine Keeps.mk0 ?_ ?g; (first | with_reducible assumption | (refine Keeps.snd ?_ (by assumption)) | (refine Keeps.some ?_ (by assumption)) | (with_reducible first | apply State.store_keeps | apply State.cmnWrite_keeps | apply State.tollSettle_keeps | apply State.settle_keeps | apply State.slotPost_keeps | apply State.aonEff_keeps | apply State.tapEff_keeps | apply State.engEff_keeps | apply State.portEff_keeps | apply State.boardEff_keeps | apply State.slotPostLo_keeps | apply State.tellBlocked_keeps)); with_reducible case g => exact fun h => Keeps.mk' h)
    | (with_reducible apply Keeps.ite)
    | (with_reducible apply Keeps.foldl)
    | (with_reducible apply Keeps.foldlSnd)
    | (with_reducible apply Keeps.foldlFst)
    | split
    | (refine Keeps.some ?_ (by assumption))
    | (refine Keeps.snd ?_ (by assumption))
    | exact Sub.of rfl
    | dsimp only

theorem State.regWrite_keeps {mk : Nat} {z s : State} (hk : Keeps mk z s) (a : Acc) (addr v : Nat) (hm : Sub 0x17EFFFF mk := by exact Sub.of rfl) :
    Keeps mk z (State.regWrite s a addr v) := by
  refine hk.within hm ?_
  replace hk : Keeps 0x17EFFFF s s := .refl _
  unfold State.regWrite
  repeat' first
    | with_reducible intro _
    | with_reducible assumption
    | (with_reducible first | apply State.guardedWrite_keeps | apply State.regEff_keeps)
    | exact Sub.of rfl
    | dsimp only

theorem execRegisterWrite_keeps {mk : Nat} {z s : State} (hk : Keeps mk z s) (a : Acc) (addr : Nat) (data : Word) (hm : Sub 0x17EFFFF mk := by exact Sub.of rfl) :
    KeepsR mk z (execRegisterWrite a addr data s) := by
  refine KeepsR.within hk hm ?_
  replace hk : Keeps 0x17EFFFF s s := .refl _
  unfold execRegisterWrite
  repeat' first
    | with_reducible assumption
    | (with_reducible first | apply KeepsR.present | apply KeepsR.next | exact KeepsR.fault | apply State.regWrite_keeps)
    | exact Sub.of rfl
    | dsimp only

theorem State.peek_keeps {mk : Nat} {z s : State} (hk : Keeps mk z s) (addr : Nat) (hm : Sub 0x1000000 mk := by exact Sub.of rfl) :
    Keeps mk z (State.peek s addr).2 := by
  refine hk.within hm ?_
  replace hk : Keeps 0x1000000 s s := .refl _
  unfold State.peek
  repeat' first
    | (extract_lets -descend +onlyGivenNames x0; refine Keeps.cut (m := 0x1000000) (z := s) (v := x0) ?_ (fun h0 => ?_); rotate_left; clear_value x0; rotate_left; dsimp -zeta only [x0]; clear x0)
    | (extract_lets -descend +onlyGivenNames x0; clear_value x0)
    | with_reducible intro _
    | lift_lets
    | with_reducible assumption
    | with_reducible apply State.draw_keeps
    | (with_reducible apply Keeps.ite)
    | split
    | (refine Keeps.some ?_ (by assumption))
    | (refine Keeps.snd ?_ (by assumption))
    | exact Sub.of rfl
    | dsimp only

theorem State.latchWords_keeps {mk : Nat} {z s : State} (hk : Keeps mk z s) (a : Acc) (addr : Nat) (hm : Sub 0x1000002 mk := by exact Sub.of rfl) :
    Keeps mk z (State.latchWords s a addr) := by
  refine hk.within hm ?_
  replace hk : Keeps 0x1000002 s s := .refl _
  unfold State.latchWords
  repeat' first
    | (extract_lets -descend +onlyGivenNames x0; refine Keeps.cut (m := 0x1000002) (z := s) (v := x0) ?_ (fun h0 => ?_); rotate_left; clear_value x0; rotate_left; dsimp -zeta only [x0]; clear x0)
    | (extract_lets -descend +onlyGivenNames x0; clear_value x0)
    | with_reducible intro _
    | lift_lets
    | with_reducible assumption
    | with_reducible apply State.peek_keeps
    | (with_reducible refine Keeps.mk0 ?_ ?g; (first | with_reducible assumption | (refine Keeps.snd ?_ (by assumption)) | (refine Keeps.some ?_ (by assumption)) | (with_reducible first | apply State.peek_keeps)); with_reducible case g => exact fun h => Keeps.mk' h)
    | (with_reducible apply Keeps.foldl)
    | exact Sub.of rfl
    | dsimp only

theorem State.rcClear_keeps {mk : Nat} {z s : State} (hk : Keeps mk z s) (addr : Nat) (hm : Sub 0x1 mk := by exact Sub.of rfl) :
    Keeps mk z (State.rcClear s addr) := by
  refine hk.within hm ?_
  replace hk : Keeps 0x1 s s := .refl _
  unfold State.rcClear
  repeat' first
    | with_reducible assumption
    | with_reducible apply State.wr_keeps
    | (with_reducible apply Keeps.ite)
    | split
    | (refine Keeps.some ?_ (by assumption))
    | exact Sub.of rfl
    | dsimp only

theorem State.readEff_keeps {mk : Nat} {z s : State} (hk : Keeps mk z s) (a : Acc) (addr : Nat) (hm : Sub 0x1000003 mk := by exact Sub.of rfl) :
    Keeps mk z (State.readEff s a addr).2 := by
  refine hk.within hm ?_
  replace hk : Keeps 0x1000003 s s := .refl _
  unfold State.readEff
  repeat' first
    | (extract_lets -descend +onlyGivenNames x0; refine Keeps.cut (m := 0x1000003) (z := s) (v := x0) ?_ (fun h0 => ?_); rotate_left; clear_value x0; rotate_left; dsimp -zeta only [x0]; clear x0)
    | (extract_lets -descend +onlyGivenNames x0; first
        | ((with_reducible first | have _w : LinkSt := x0 | have _w : TimeSt := x0 | have _w : PowerSt := x0 | have _w : SampSt := x0 | have _w : FwSt := x0 | have _w : AuthSt := x0 | have _w : PulseSt := x0 | have _w : CoreSt := x0); clear _w; dsimp -zeta only [x0]; clear x0)
        | clear_value x0)
    | with_reducible intro _
    | lift_lets
    | with_reducible assumption
    | (with_reducible first | apply KeepsR.present | apply KeepsR.next | exact KeepsR.fault | exact KeepsO.none | apply KeepsO.some | apply State.dataRead_keeps | apply State.peek_keeps | apply State.latchWords_keeps | apply State.rcClear_keeps)
    | (with_reducible refine State.modRegion_keeps ?_ _ _ (fun _ w => w))
    | (with_reducible refine State.modFw_keeps ?_ _ ⟨rfl, rfl⟩)
    | (with_reducible refine State.modAuth_keeps ?_ _ ⟨rfl, rfl⟩)
    | (with_reducible refine Keeps.mk0 ?_ ?g; (first | with_reducible assumption | (refine Keeps.snd ?_ (by assumption)) | (refine Keeps.some ?_ (by assumption)) | (with_reducible first | apply State.dataRead_keeps | apply State.peek_keeps | apply State.latchWords_keeps | apply State.rcClear_keeps)); with_reducible case g => exact fun h => Keeps.mk' h)
    | (with_reducible apply Keeps.ite)
    | (with_reducible apply Keeps.foldl)
    | (with_reducible apply Keeps.foldlSnd)
    | (with_reducible apply Keeps.foldlFst)
    | split
    | (refine Keeps.some ?_ (by assumption))
    | (refine Keeps.snd ?_ (by assumption))
    | exact Sub.of rfl
    | dsimp only

theorem State.regRead_keeps {mk : Nat} {z s : State} (hk : Keeps mk z s) (a : Acc) (addr : Nat) (hm : Sub 0x10804F7 mk := by exact Sub.of rfl) :
    Keeps mk z (State.regRead s a addr) := by
  refine hk.within hm ?_
  replace hk : Keeps 0x10804F7 s s := .refl _
  unfold State.regRead
  repeat' first
    | with_reducible intro _
    | with_reducible assumption
    | (with_reducible first | apply State.guardedRead_keeps | apply State.readEff_keeps)
    | exact Sub.of rfl
    | dsimp only

theorem execRcFieldRead_keeps {mk : Nat} {z s : State} (hk : Keeps mk z s) (a : Acc) (addr : Nat) (hm : Sub 0x10804F7 mk := by exact Sub.of rfl) :
    KeepsR mk z (execRcFieldRead a addr s) := by
  refine KeepsR.within hk hm ?_
  replace hk : Keeps 0x10804F7 s s := .refl _
  unfold execRcFieldRead
  repeat' first
    | with_reducible assumption
    | (with_reducible first | apply KeepsR.present | apply KeepsR.next | exact KeepsR.fault | apply State.regRead_keeps)
    | exact Sub.of rfl
    | dsimp only

theorem execLatchingRead_keeps {mk : Nat} {z s : State} (hk : Keeps mk z s) (a : Acc) (addr : Nat) (hm : Sub 0x10804F7 mk := by exact Sub.of rfl) :
    KeepsR mk z (execLatchingRead a addr s) := by
  refine KeepsR.within hk hm ?_
  replace hk : Keeps 0x10804F7 s s := .refl _
  unfold execLatchingRead
  repeat' first
    | with_reducible assumption
    | (with_reducible first | apply KeepsR.present | apply KeepsR.next | exact KeepsR.fault | apply State.regRead_keeps)
    | exact Sub.of rfl
    | dsimp only

theorem State.smbEnd_keeps {mk : Nat} {z s : State} (hk : Keeps mk z s) (write counted : Bool) (hm : Sub 0x3 mk := by exact Sub.of rfl) :
    Keeps mk z (State.smbEnd s write counted) := by
  refine hk.within hm ?_
  replace hk : Keeps 0x3 s s := .refl _
  unfold State.smbEnd
  repeat' first
    | (extract_lets -descend +onlyGivenNames x0; refine Keeps.cut (m := 0x3) (z := s) (v := x0) ?_ (fun h0 => ?_); rotate_left; clear_value x0; rotate_left; dsimp -zeta only [x0]; clear x0)
    | (extract_lets -descend +onlyGivenNames x0; first
        | ((with_reducible first | have _w : LinkSt := x0 | have _w : TimeSt := x0 | have _w : PowerSt := x0 | have _w : SampSt := x0 | have _w : FwSt := x0 | have _w : AuthSt := x0 | have _w : PulseSt := x0 | have _w : CoreSt := x0); clear _w; dsimp -zeta only [x0]; clear x0)
        | clear_value x0)
    | with_reducible intro _
    | lift_lets
    | with_reducible assumption
    | (with_reducible first | apply KeepsR.present | apply KeepsR.next | exact KeepsR.fault | exact KeepsO.none | apply KeepsO.some | apply State.bumpSat_keeps | apply State.irq_keeps)
    | (with_reducible refine State.modRegion_keeps ?_ _ _ (fun _ w => w))
    | (with_reducible refine State.modFw_keeps ?_ _ ⟨rfl, rfl⟩)
    | (with_reducible refine State.modAuth_keeps ?_ _ ⟨rfl, rfl⟩)
    | (with_reducible refine Keeps.mk0 ?_ ?g; (first | with_reducible assumption | (refine Keeps.snd ?_ (by assumption)) | (refine Keeps.some ?_ (by assumption)) | (with_reducible first | apply State.bumpSat_keeps | apply State.irq_keeps)); with_reducible case g => exact fun h => Keeps.mk' h)
    | (with_reducible apply Keeps.ite)
    | (with_reducible apply Keeps.foldl)
    | (with_reducible apply Keeps.foldlSnd)
    | (with_reducible apply Keeps.foldlFst)
    | split
    | (refine Keeps.some ?_ (by assumption))
    | (refine Keeps.snd ?_ (by assumption))
    | exact Sub.of rfl
    | dsimp only

theorem State.access_keeps {mk : Nat} {z s : State} (hk : Keeps mk z s) (a : Acc) (addr : Nat) (write : Bool) (data : Nat) (hm : Sub 0x17EFFFF mk := by exact Sub.of rfl) :
    Keeps mk z (State.access s a addr write data) := by
  refine hk.within hm ?_
  replace hk : Keeps 0x17EFFFF s s := .refl _
  unfold State.access
  repeat' first
    | (extract_lets -descend +onlyGivenNames x0; refine Keeps.cut (m := 0x17EFFFF) (z := s) (v := x0) ?_ (fun h0 => ?_); rotate_left; clear_value x0; rotate_left; dsimp -zeta only [x0]; clear x0)
    | (extract_lets -descend +onlyGivenNames x0; clear_value x0)
    | lift_lets
    | with_reducible assumption
    | (with_reducible first | apply State.regWrite_keeps | apply State.regRead_keeps | apply State.smbEnd_keeps)
    | (with_reducible apply Keeps.ite)
    | split
    | (refine Keeps.some ?_ (by assumption))
    | exact Sub.of rfl
    | dsimp only

theorem State.accessLate_keeps {mk : Nat} {z s : State} (hk : Keeps mk z s) (w : WaitAcc) (hm : Sub 0x17EFFFF mk := by exact Sub.of rfl) :
    Keeps mk z (State.accessLate s w).1 := by
  refine hk.within hm ?_
  replace hk : Keeps 0x17EFFFF s s := .refl _
  unfold State.accessLate
  repeat' first
    | (extract_lets -descend +onlyGivenNames x0; refine Keeps.cut (m := 0x17EFFFF) (z := s) (v := x0) ?_ (fun h0 => ?_); rotate_left; clear_value x0; rotate_left; dsimp -zeta only [x0]; clear x0)
    | (extract_lets -descend +onlyGivenNames x0; first
        | ((with_reducible first | have _w : LinkSt := x0 | have _w : TimeSt := x0 | have _w : PowerSt := x0 | have _w : SampSt := x0 | have _w : FwSt := x0 | have _w : AuthSt := x0 | have _w : PulseSt := x0 | have _w : CoreSt := x0); clear _w; dsimp -zeta only [x0]; clear x0)
        | clear_value x0)
    | with_reducible intro _
    | lift_lets
    | with_reducible assumption
    | (with_reducible first | apply KeepsR.present | apply KeepsR.next | exact KeepsR.fault | exact KeepsO.none | apply KeepsO.some | apply State.access_keeps)
    | (with_reducible refine State.modRegion_keeps ?_ _ _ (fun _ w => w))
    | (with_reducible refine State.modFw_keeps ?_ _ ⟨rfl, rfl⟩)
    | (with_reducible refine State.modAuth_keeps ?_ _ ⟨rfl, rfl⟩)
    | (with_reducible refine Keeps.mk0 ?_ ?g; (first | with_reducible assumption | (refine Keeps.snd ?_ (by assumption)) | (refine Keeps.some ?_ (by assumption)) | (with_reducible first | apply State.access_keeps)); with_reducible case g => exact fun h => Keeps.mk' h)
    | (with_reducible apply Keeps.ite)
    | (with_reducible apply Keeps.foldl)
    | (with_reducible apply Keeps.foldlSnd)
    | (with_reducible apply Keeps.foldlFst)
    | split
    | (refine Keeps.some ?_ (by assumption))
    | (refine Keeps.snd ?_ (by assumption))
    | exact Sub.of rfl
    | dsimp only

theorem State.wakeAccesses_keeps {mk : Nat} {z s : State} (h : Keeps mk z s) (d : Nat) (hm : Sub 0x17EFFFF mk := by exact Sub.of rfl) :
    Keeps mk z (State.wakeAccesses s d) := by
  refine h.within hm ?_
  replace h : Keeps 0x17EFFFF s s := .refl _
  unfold State.wakeAccesses
  split
  rename_i t l e
  have h1 : Keeps 0x17EFFFF s t := by
    refine Keeps.fst ?_ e
    refine Keeps.foldlFst _ _ _ h (fun q hq a => ?_)
    dsimp only
    split
    · exact hq
    · exact State.accessLate_keeps hq a
  exact h1.mk'

theorem execAccessWakeComplete_keeps {mk : Nat} {z s : State} (hk : Keeps mk z s) (d : Nat) (hm : Sub 0x17EFFFF mk := by exact Sub.of rfl) :
    KeepsR mk z (execAccessWakeComplete d s) := by
  refine KeepsR.within hk hm ?_
  replace hk : Keeps 0x17EFFFF s s := .refl _
  unfold execAccessWakeComplete
  repeat' first
    | with_reducible assumption
    | (with_reducible first | apply KeepsR.present | apply KeepsR.next | exact KeepsR.fault | apply present_keeps | apply State.wakeAccesses_keeps)
    | (with_reducible apply Keeps.ite)
    | split
    | exact Sub.of rfl
    | dsimp only

end Sys2Proof.Machine
end

