-- ==== Sys2Proof/Laws/KeepsSmbus.lean ====
section
/-! SUPPORT. What the operations of Machine/Smbus.lean keep. -/

set_option Elab.async false

namespace Sys2Proof.Machine

theorem State.smbNack_keeps {mk : Nat} {z s : State} (hk : Keeps mk z s) (counted : Bool) (hm : Sub 0x3 mk := by exact Sub.of rfl) :
    Keeps mk z (State.smbNack s counted) := by
  refine hk.within hm ?_
  replace hk : Keeps 0x3 s s := .refl _
  unfold State.smbNack
  repeat' first
    | (extract_lets -descend +onlyGivenNames x0; refine Keeps.cut (m := 0x3) (z := s) (v := x0) ?_ (fun h0 => ?_); rotate_left; clear_value x0; rotate_left; dsimp -zeta only [x0]; clear x0)
    | (extract_lets -descend +onlyGivenNames x0; first
        | ((with_reducible first | have _w : LinkSt := x0 | have _w : TimeSt := x0 | have _w : PowerSt := x0 | have _w : SampSt := x0 | have _w : FwSt := x0 | have _w : AuthSt := x0 | have _w : PulseSt := x0 | have _w : CoreSt := x0); clear _w; dsimp -zeta only [x0]; clear x0)
        | clear_value x0)
    | with_reducible intro _
    | lift_lets
    | with_reducible assumption
    | (with_reducible first | apply KeepsR.present | apply KeepsR.next | exact KeepsR.fault | exact KeepsO.none | apply KeepsO.some | apply State.bumpSat_keeps | apply State.irq_keeps)
    | (with_reducible refine State.modRegion_keeps ?_ _ _ (fun _ w => w))
    | (with_reducible refine State.modFw_keeps ?_ _ ⟨rfl, rfl⟩)
    | (with_reducible refine State.modAuth_keeps ?_ _ ⟨rfl, rfl⟩)
    | (with_reducible refine Keeps.mk0 ?_ ?g; (first | with_reducible assumption | (refine Keeps.snd ?_ (by assumption)) | (refine Keeps.some ?_ (by assumption)) | (with_reducible first | apply State.bumpSat_keeps | apply State.irq_keeps)); with_reducible case g => exact fun h => Keeps.mk' h)
    | (with_reducible apply Keeps.ite)
    | (with_reducible apply Keeps.foldl)
    | (with_reducible apply Keeps.foldlSnd)
    | (with_reducible apply Keeps.foldlFst)
    | split
    | (refine Keeps.some ?_ (by assumption))
    | (refine Keeps.snd ?_ (by assumption))
    | exact Sub.of rfl
    | dsimp only

theorem State.smbAccess_keeps {mk : Nat} {z s : State} (hk : Keeps mk z s) (m : SmbMsg) (write : Bool) (hm : Sub 0x17EFFFF mk := by exact Sub.of rfl) :
    Keeps mk z (State.smbAccess s m write) := by
  refine hk.within hm ?_
  replace hk : Keeps 0x17EFFFF s s := .refl _
  unfold State.smbAccess
  repeat' first
    | with_reducible assumption
    | with_reducible apply State.access_keeps
    | exact Sub.of rfl
    | dsimp only

theorem State.smbPecBad_keeps {mk : Nat} {z s : State} (hk : Keeps mk z s) (hm : Sub 0x3 mk := by exact Sub.of rfl) :
    Keeps mk z (State.smbPecBad s) := by
  refine hk.within hm ?_
  replace hk : Keeps 0x3 s s := .refl _
  unfold State.smbPecBad
  repeat' first
    | with_reducible assumption
    | (with_reducible first | apply State.bumpSat_keeps | apply State.irq_keeps | apply State.smbNack_keeps)
    | exact Sub.of rfl
    | dsimp only

theorem State.smbReturn_keeps {mk : Nat} {z s : State} (hk : Keeps mk z s) (hm : Sub 0x3 mk := by exact Sub.of rfl) :
    Keeps mk z (State.smbReturn s) := by
  refine hk.within hm ?_
  replace hk : Keeps 0x3 s s := .refl _
  unfold State.smbReturn
  repeat' first
    | with_reducible assumption
    | with_reducible apply State.bumpSat_keeps
    | (with_reducible refine Keeps.mk0 ?_ ?g; (first | with_reducible assumption | (refine Keeps.snd ?_ (by assumption)) | (refine Keeps.some ?_ (by assumption)) | (with_reducible first | apply State.bumpSat_keeps)); with_reducible case g => exact fun h => Keeps.mk' h)
    | exact Sub.of rfl
    | dsimp only

theorem State.smbMessage_keeps {mk : Nat} {z s : State} (hk : Keeps mk z s) (m : SmbMsg) (hm : Sub 0x17EFFFF mk := by exact Sub.of rfl) :
    Keeps mk z (State.smbMessage s m) := by
  refine hk.within hm ?_
  replace hk : Keeps 0x17EFFFF s s := .refl _
  unfold State.smbMessage
  repeat' first
    | with_reducible assumption
    | (with_reducible first | apply State.smbNack_keeps | apply State.smbAccess_keeps | apply State.smbPecBad_keeps | apply State.smbReturn_keeps)
    | (with_reducible apply Keeps.ite)
    | split
    | exact Sub.of rfl
    | dsimp only

theorem execSmbWriteWord_keeps {mk : Nat} {z s : State} (hk : Keeps mk z s) (m : SmbMsg) (hm : Sub 0x17EFFFF mk := by exact Sub.of rfl) :
    KeepsR mk z (execSmbWriteWord m s) := by
  refine KeepsR.within hk hm ?_
  replace hk : Keeps 0x17EFFFF s s := .refl _
  unfold execSmbWriteWord
  repeat' first
    | with_reducible assumption
    | (with_reducible first | apply KeepsR.present | apply KeepsR.next | exact KeepsR.fault | apply present_keeps | apply State.smbMessage_keeps)
    | exact Sub.of rfl
    | dsimp only

theorem execSmbReadAddress_keeps {mk : Nat} {z s : State} (hk : Keeps mk z s) (m : SmbMsg) (hm : Sub 0x17EFFFF mk := by exact Sub.of rfl) :
    KeepsR mk z (execSmbReadAddress m s) := by
  refine KeepsR.within hk hm ?_
  replace hk : Keeps 0x17EFFFF s s := .refl _
  unfold execSmbReadAddress
  repeat' first
    | with_reducible assumption
    | (with_reducible first | apply KeepsR.present | apply KeepsR.next | exact KeepsR.fault | apply present_keeps | apply State.smbMessage_keeps)
    | exact Sub.of rfl
    | dsimp only

theorem execSmbReadWord_keeps {mk : Nat} {z s : State} (hk : Keeps mk z s) (m : SmbMsg) (hm : Sub 0x17EFFFF mk := by exact Sub.of rfl) :
    KeepsR mk z (execSmbReadWord m s) := by
  refine KeepsR.within hk hm ?_
  replace hk : Keeps 0x17EFFFF s s := .refl _
  unfold execSmbReadWord
  repeat' first
    | with_reducible assumption
    | (with_reducible first | apply KeepsR.present | apply KeepsR.next | exact KeepsR.fault | apply present_keeps | apply State.smbMessage_keeps)
    | exact Sub.of rfl
    | dsimp only

end Sys2Proof.Machine
end

