-- ==== Sys2Proof/Laws/State.lean ====
section
/-! SUPPORT. Each small update of the state, field by field: what it leaves, and what it writes. -/

namespace Sys2Proof.Machine

/-! ### Regs -/

@[simp] theorem State.wr_pending (s : State) (r : Reg) (v : Nat) (i : Nat) (j : Nat) (pg : Nat) (bk : Nat) : (State.wr s r v i j pg bk).pending = s.pending := rfl
@[simp] theorem State.wr_build (s : State) (r : Reg) (v : Nat) (i : Nat) (j : Nat) (pg : Nat) (bk : Nat) : (State.wr s r v i j pg bk).build = s.build := rfl
@[simp] theorem State.wr_bs (s : State) (r : Reg) (v : Nat) (i : Nat) (j : Nat) (pg : Nat) (bk : Nat) : (State.wr s r v i j pg bk).bs = s.bs := rfl
@[simp] theorem State.wr_core (s : State) (r : Reg) (v : Nat) (i : Nat) (j : Nat) (pg : Nat) (bk : Nat) : (State.wr s r v i j pg bk).core = s.core := rfl
@[simp] theorem State.wr_time (s : State) (r : Reg) (v : Nat) (i : Nat) (j : Nat) (pg : Nat) (bk : Nat) : (State.wr s r v i j pg bk).time = s.time := rfl
@[simp] theorem State.wr_pulse (s : State) (r : Reg) (v : Nat) (i : Nat) (j : Nat) (pg : Nat) (bk : Nat) : (State.wr s r v i j pg bk).pulse = s.pulse := rfl
@[simp] theorem State.wr_ev (s : State) (r : Reg) (v : Nat) (i : Nat) (j : Nat) (pg : Nat) (bk : Nat) : (State.wr s r v i j pg bk).ev = s.ev := rfl
@[simp] theorem State.wr_link (s : State) (r : Reg) (v : Nat) (i : Nat) (j : Nat) (pg : Nat) (bk : Nat) : (State.wr s r v i j pg bk).link = s.link := rfl
@[simp] theorem State.wr_tally (s : State) (r : Reg) (v : Nat) (i : Nat) (j : Nat) (pg : Nat) (bk : Nat) : (State.wr s r v i j pg bk).tally = s.tally := rfl
@[simp] theorem State.wr_coal (s : State) (r : Reg) (v : Nat) (i : Nat) (j : Nat) (pg : Nat) (bk : Nat) : (State.wr s r v i j pg bk).coal = s.coal := rfl
@[simp] theorem State.wr_samp (s : State) (r : Reg) (v : Nat) (i : Nat) (j : Nat) (pg : Nat) (bk : Nat) : (State.wr s r v i j pg bk).samp = s.samp := rfl
@[simp] theorem State.wr_muster (s : State) (r : Reg) (v : Nat) (i : Nat) (j : Nat) (pg : Nat) (bk : Nat) : (State.wr s r v i j pg bk).muster = s.muster := rfl
@[simp] theorem State.wr_convoy (s : State) (r : Reg) (v : Nat) (i : Nat) (j : Nat) (pg : Nat) (bk : Nat) : (State.wr s r v i j pg bk).convoy = s.convoy := rfl
@[simp] theorem State.wr_feat (s : State) (r : Reg) (v : Nat) (i : Nat) (j : Nat) (pg : Nat) (bk : Nat) : (State.wr s r v i j pg bk).feat = s.feat := rfl
@[simp] theorem State.wr_tree (s : State) (r : Reg) (v : Nat) (i : Nat) (j : Nat) (pg : Nat) (bk : Nat) : (State.wr s r v i j pg bk).tree = s.tree := rfl
@[simp] theorem State.wr_out (s : State) (r : Reg) (v : Nat) (i : Nat) (j : Nat) (pg : Nat) (bk : Nat) : (State.wr s r v i j pg bk).out = s.out := rfl
@[simp] theorem State.wr_trace (s : State) (r : Reg) (v : Nat) (i : Nat) (j : Nat) (pg : Nat) (bk : Nat) : (State.wr s r v i j pg bk).trace = s.trace := rfl
@[simp] theorem State.wr_abft (s : State) (r : Reg) (v : Nat) (i : Nat) (j : Nat) (pg : Nat) (bk : Nat) : (State.wr s r v i j pg bk).abft = s.abft := rfl
@[simp] theorem State.wr_codec (s : State) (r : Reg) (v : Nat) (i : Nat) (j : Nat) (pg : Nat) (bk : Nat) : (State.wr s r v i j pg bk).codec = s.codec := rfl
@[simp] theorem State.wr_hang (s : State) (r : Reg) (v : Nat) (i : Nat) (j : Nat) (pg : Nat) (bk : Nat) : (State.wr s r v i j pg bk).hang = s.hang := rfl
@[simp] theorem State.wr_pub (s : State) (r : Reg) (v : Nat) (i : Nat) (j : Nat) (pg : Nat) (bk : Nat) : (State.wr s r v i j pg bk).pub = s.pub := rfl
@[simp] theorem State.wr_power (s : State) (r : Reg) (v : Nat) (i : Nat) (j : Nat) (pg : Nat) (bk : Nat) : (State.wr s r v i j pg bk).power = s.power := rfl
@[simp] theorem State.wr_drover (s : State) (r : Reg) (v : Nat) (i : Nat) (j : Nat) (pg : Nat) (bk : Nat) : (State.wr s r v i j pg bk).drover = s.drover := rfl
@[simp] theorem State.wr_auth (s : State) (r : Reg) (v : Nat) (i : Nat) (j : Nat) (pg : Nat) (bk : Nat) : (State.wr s r v i j pg bk).auth = s.auth := rfl
@[simp] theorem State.wr_fw (s : State) (r : Reg) (v : Nat) (i : Nat) (j : Nat) (pg : Nat) (bk : Nat) : (State.wr s r v i j pg bk).fw = s.fw := rfl
@[simp] theorem State.wr_rep (s : State) (r : Reg) (v : Nat) (i : Nat) (j : Nat) (pg : Nat) (bk : Nat) : (State.wr s r v i j pg bk).rep = s.rep := rfl
@[simp] theorem State.wr_free (s : State) (r : Reg) (v : Nat) (i : Nat) (j : Nat) (pg : Nat) (bk : Nat) : (State.wr s r v i j pg bk).free = s.free := rfl

@[simp] theorem State.bump_pending (s : State) (r : Reg) (d : Nat) (i : Nat) (j : Nat) (pg : Nat) (bk : Nat) : (State.bump s r d i j pg bk).pending = s.pending := rfl
@[simp] theorem State.bump_build (s : State) (r : Reg) (d : Nat) (i : Nat) (j : Nat) (pg : Nat) (bk : Nat) : (State.bump s r d i j pg bk).build = s.build := rfl
@[simp] theorem State.bump_bs (s : State) (r : Reg) (d : Nat) (i : Nat) (j : Nat) (pg : Nat) (bk : Nat) : (State.bump s r d i j pg bk).bs = s.bs := rfl
@[simp] theorem State.bump_core (s : State) (r : Reg) (d : Nat) (i : Nat) (j : Nat) (pg : Nat) (bk : Nat) : (State.bump s r d i j pg bk).core = s.core := rfl
@[simp] theorem State.bump_time (s : State) (r : Reg) (d : Nat) (i : Nat) (j : Nat) (pg : Nat) (bk : Nat) : (State.bump s r d i j pg bk).time = s.time := rfl
@[simp] theorem State.bump_pulse (s : State) (r : Reg) (d : Nat) (i : Nat) (j : Nat) (pg : Nat) (bk : Nat) : (State.bump s r d i j pg bk).pulse = s.pulse := rfl
@[simp] theorem State.bump_ev (s : State) (r : Reg) (d : Nat) (i : Nat) (j : Nat) (pg : Nat) (bk : Nat) : (State.bump s r d i j pg bk).ev = s.ev := rfl
@[simp] theorem State.bump_link (s : State) (r : Reg) (d : Nat) (i : Nat) (j : Nat) (pg : Nat) (bk : Nat) : (State.bump s r d i j pg bk).link = s.link := rfl
@[simp] theorem State.bump_tally (s : State) (r : Reg) (d : Nat) (i : Nat) (j : Nat) (pg : Nat) (bk : Nat) : (State.bump s r d i j pg bk).tally = s.tally := rfl
@[simp] theorem State.bump_coal (s : State) (r : Reg) (d : Nat) (i : Nat) (j : Nat) (pg : Nat) (bk : Nat) : (State.bump s r d i j pg bk).coal = s.coal := rfl
@[simp] theorem State.bump_samp (s : State) (r : Reg) (d : Nat) (i : Nat) (j : Nat) (pg : Nat) (bk : Nat) : (State.bump s r d i j pg bk).samp = s.samp := rfl
@[simp] theorem State.bump_muster (s : State) (r : Reg) (d : Nat) (i : Nat) (j : Nat) (pg : Nat) (bk : Nat) : (State.bump s r d i j pg bk).muster = s.muster := rfl
@[simp] theorem State.bump_convoy (s : State) (r : Reg) (d : Nat) (i : Nat) (j : Nat) (pg : Nat) (bk : Nat) : (State.bump s r d i j pg bk).convoy = s.convoy := rfl
@[simp] theorem State.bump_feat (s : State) (r : Reg) (d : Nat) (i : Nat) (j : Nat) (pg : Nat) (bk : Nat) : (State.bump s r d i j pg bk).feat = s.feat := rfl
@[simp] theorem State.bump_tree (s : State) (r : Reg) (d : Nat) (i : Nat) (j : Nat) (pg : Nat) (bk : Nat) : (State.bump s r d i j pg bk).tree = s.tree := rfl
@[simp] theorem State.bump_out (s : State) (r : Reg) (d : Nat) (i : Nat) (j : Nat) (pg : Nat) (bk : Nat) : (State.bump s r d i j pg bk).out = s.out := rfl
@[simp] theorem State.bump_trace (s : State) (r : Reg) (d : Nat) (i : Nat) (j : Nat) (pg : Nat) (bk : Nat) : (State.bump s r d i j pg bk).trace = s.trace := rfl
@[simp] theorem State.bump_abft (s : State) (r : Reg) (d : Nat) (i : Nat) (j : Nat) (pg : Nat) (bk : Nat) : (State.bump s r d i j pg bk).abft = s.abft := rfl
@[simp] theorem State.bump_codec (s : State) (r : Reg) (d : Nat) (i : Nat) (j : Nat) (pg : Nat) (bk : Nat) : (State.bump s r d i j pg bk).codec = s.codec := rfl
@[simp] theorem State.bump_hang (s : State) (r : Reg) (d : Nat) (i : Nat) (j : Nat) (pg : Nat) (bk : Nat) : (State.bump s r d i j pg bk).hang = s.hang := rfl
@[simp] theorem State.bump_pub (s : State) (r : Reg) (d : Nat) (i : Nat) (j : Nat) (pg : Nat) (bk : Nat) : (State.bump s r d i j pg bk).pub = s.pub := rfl
@[simp] theorem State.bump_power (s : State) (r : Reg) (d : Nat) (i : Nat) (j : Nat) (pg : Nat) (bk : Nat) : (State.bump s r d i j pg bk).power = s.power := rfl
@[simp] theorem State.bump_drover (s : State) (r : Reg) (d : Nat) (i : Nat) (j : Nat) (pg : Nat) (bk : Nat) : (State.bump s r d i j pg bk).drover = s.drover := rfl
@[simp] theorem State.bump_auth (s : State) (r : Reg) (d : Nat) (i : Nat) (j : Nat) (pg : Nat) (bk : Nat) : (State.bump s r d i j pg bk).auth = s.auth := rfl
@[simp] theorem State.bump_fw (s : State) (r : Reg) (d : Nat) (i : Nat) (j : Nat) (pg : Nat) (bk : Nat) : (State.bump s r d i j pg bk).fw = s.fw := rfl
@[simp] theorem State.bump_rep (s : State) (r : Reg) (d : Nat) (i : Nat) (j : Nat) (pg : Nat) (bk : Nat) : (State.bump s r d i j pg bk).rep = s.rep := rfl
@[simp] theorem State.bump_free (s : State) (r : Reg) (d : Nat) (i : Nat) (j : Nat) (pg : Nat) (bk : Nat) : (State.bump s r d i j pg bk).free = s.free := rfl

@[simp] theorem State.bumpSat_pending (s : State) (r : Reg) (d : Nat) (i : Nat) (j : Nat) (pg : Nat) (bk : Nat) : (State.bumpSat s r d i j pg bk).pending = s.pending := rfl
@[simp] theorem State.bumpSat_build (s : State) (r : Reg) (d : Nat) (i : Nat) (j : Nat) (pg : Nat) (bk : Nat) : (State.bumpSat s r d i j pg bk).build = s.build := rfl
@[simp] theorem State.bumpSat_bs (s : State) (r : Reg) (d : Nat) (i : Nat) (j : Nat) (pg : Nat) (bk : Nat) : (State.bumpSat s r d i j pg bk).bs = s.bs := rfl
@[simp] theorem State.bumpSat_core (s : State) (r : Reg) (d : Nat) (i : Nat) (j : Nat) (pg : Nat) (bk : Nat) : (State.bumpSat s r d i j pg bk).core = s.core := rfl
@[simp] theorem State.bumpSat_time (s : State) (r : Reg) (d : Nat) (i : Nat) (j : Nat) (pg : Nat) (bk : Nat) : (State.bumpSat s r d i j pg bk).time = s.time := rfl
@[simp] theorem State.bumpSat_pulse (s : State) (r : Reg) (d : Nat) (i : Nat) (j : Nat) (pg : Nat) (bk : Nat) : (State.bumpSat s r d i j pg bk).pulse = s.pulse := rfl
@[simp] theorem State.bumpSat_ev (s : State) (r : Reg) (d : Nat) (i : Nat) (j : Nat) (pg : Nat) (bk : Nat) : (State.bumpSat s r d i j pg bk).ev = s.ev := rfl
@[simp] theorem State.bumpSat_link (s : State) (r : Reg) (d : Nat) (i : Nat) (j : Nat) (pg : Nat) (bk : Nat) : (State.bumpSat s r d i j pg bk).link = s.link := rfl
@[simp] theorem State.bumpSat_tally (s : State) (r : Reg) (d : Nat) (i : Nat) (j : Nat) (pg : Nat) (bk : Nat) : (State.bumpSat s r d i j pg bk).tally = s.tally := rfl
@[simp] theorem State.bumpSat_coal (s : State) (r : Reg) (d : Nat) (i : Nat) (j : Nat) (pg : Nat) (bk : Nat) : (State.bumpSat s r d i j pg bk).coal = s.coal := rfl
@[simp] theorem State.bumpSat_samp (s : State) (r : Reg) (d : Nat) (i : Nat) (j : Nat) (pg : Nat) (bk : Nat) : (State.bumpSat s r d i j pg bk).samp = s.samp := rfl
@[simp] theorem State.bumpSat_muster (s : State) (r : Reg) (d : Nat) (i : Nat) (j : Nat) (pg : Nat) (bk : Nat) : (State.bumpSat s r d i j pg bk).muster = s.muster := rfl
@[simp] theorem State.bumpSat_convoy (s : State) (r : Reg) (d : Nat) (i : Nat) (j : Nat) (pg : Nat) (bk : Nat) : (State.bumpSat s r d i j pg bk).convoy = s.convoy := rfl
@[simp] theorem State.bumpSat_feat (s : State) (r : Reg) (d : Nat) (i : Nat) (j : Nat) (pg : Nat) (bk : Nat) : (State.bumpSat s r d i j pg bk).feat = s.feat := rfl
@[simp] theorem State.bumpSat_tree (s : State) (r : Reg) (d : Nat) (i : Nat) (j : Nat) (pg : Nat) (bk : Nat) : (State.bumpSat s r d i j pg bk).tree = s.tree := rfl
@[simp] theorem State.bumpSat_out (s : State) (r : Reg) (d : Nat) (i : Nat) (j : Nat) (pg : Nat) (bk : Nat) : (State.bumpSat s r d i j pg bk).out = s.out := rfl
@[simp] theorem State.bumpSat_trace (s : State) (r : Reg) (d : Nat) (i : Nat) (j : Nat) (pg : Nat) (bk : Nat) : (State.bumpSat s r d i j pg bk).trace = s.trace := rfl
@[simp] theorem State.bumpSat_abft (s : State) (r : Reg) (d : Nat) (i : Nat) (j : Nat) (pg : Nat) (bk : Nat) : (State.bumpSat s r d i j pg bk).abft = s.abft := rfl
@[simp] theorem State.bumpSat_codec (s : State) (r : Reg) (d : Nat) (i : Nat) (j : Nat) (pg : Nat) (bk : Nat) : (State.bumpSat s r d i j pg bk).codec = s.codec := rfl
@[simp] theorem State.bumpSat_hang (s : State) (r : Reg) (d : Nat) (i : Nat) (j : Nat) (pg : Nat) (bk : Nat) : (State.bumpSat s r d i j pg bk).hang = s.hang := rfl
@[simp] theorem State.bumpSat_pub (s : State) (r : Reg) (d : Nat) (i : Nat) (j : Nat) (pg : Nat) (bk : Nat) : (State.bumpSat s r d i j pg bk).pub = s.pub := rfl
@[simp] theorem State.bumpSat_power (s : State) (r : Reg) (d : Nat) (i : Nat) (j : Nat) (pg : Nat) (bk : Nat) : (State.bumpSat s r d i j pg bk).power = s.power := rfl
@[simp] theorem State.bumpSat_drover (s : State) (r : Reg) (d : Nat) (i : Nat) (j : Nat) (pg : Nat) (bk : Nat) : (State.bumpSat s r d i j pg bk).drover = s.drover := rfl
@[simp] theorem State.bumpSat_auth (s : State) (r : Reg) (d : Nat) (i : Nat) (j : Nat) (pg : Nat) (bk : Nat) : (State.bumpSat s r d i j pg bk).auth = s.auth := rfl
@[simp] theorem State.bumpSat_fw (s : State) (r : Reg) (d : Nat) (i : Nat) (j : Nat) (pg : Nat) (bk : Nat) : (State.bumpSat s r d i j pg bk).fw = s.fw := rfl
@[simp] theorem State.bumpSat_rep (s : State) (r : Reg) (d : Nat) (i : Nat) (j : Nat) (pg : Nat) (bk : Nat) : (State.bumpSat s r d i j pg bk).rep = s.rep := rfl
@[simp] theorem State.bumpSat_free (s : State) (r : Reg) (d : Nat) (i : Nat) (j : Nat) (pg : Nat) (bk : Nat) : (State.bumpSat s r d i j pg bk).free = s.free := rfl

/-! ### TraceCore -/

@[simp] theorem State.modTrace_pending (s : State) (f : TraceSt → TraceSt) : (State.modTrace s f).pending = s.pending := rfl
@[simp] theorem State.modTrace_build (s : State) (f : TraceSt → TraceSt) : (State.modTrace s f).build = s.build := rfl
@[simp] theorem State.modTrace_bs (s : State) (f : TraceSt → TraceSt) : (State.modTrace s f).bs = s.bs := rfl
@[simp] theorem State.modTrace_regs (s : State) (f : TraceSt → TraceSt) : (State.modTrace s f).regs = s.regs := rfl
@[simp] theorem State.modTrace_core (s : State) (f : TraceSt → TraceSt) : (State.modTrace s f).core = s.core := rfl
@[simp] theorem State.modTrace_time (s : State) (f : TraceSt → TraceSt) : (State.modTrace s f).time = s.time := rfl
@[simp] theorem State.modTrace_pulse (s : State) (f : TraceSt → TraceSt) : (State.modTrace s f).pulse = s.pulse := rfl
@[simp] theorem State.modTrace_ev (s : State) (f : TraceSt → TraceSt) : (State.modTrace s f).ev = s.ev := rfl
@[simp] theorem State.modTrace_link (s : State) (f : TraceSt → TraceSt) : (State.modTrace s f).link = s.link := rfl
@[simp] theorem State.modTrace_tally (s : State) (f : TraceSt → TraceSt) : (State.modTrace s f).tally = s.tally := rfl
@[simp] theorem State.modTrace_coal (s : State) (f : TraceSt → TraceSt) : (State.modTrace s f).coal = s.coal := rfl
@[simp] theorem State.modTrace_samp (s : State) (f : TraceSt → TraceSt) : (State.modTrace s f).samp = s.samp := rfl
@[simp] theorem State.modTrace_muster (s : State) (f : TraceSt → TraceSt) : (State.modTrace s f).muster = s.muster := rfl
@[simp] theorem State.modTrace_convoy (s : State) (f : TraceSt → TraceSt) : (State.modTrace s f).convoy = s.convoy := rfl
@[simp] theorem State.modTrace_feat (s : State) (f : TraceSt → TraceSt) : (State.modTrace s f).feat = s.feat := rfl
@[simp] theorem State.modTrace_tree (s : State) (f : TraceSt → TraceSt) : (State.modTrace s f).tree = s.tree := rfl
@[simp] theorem State.modTrace_out (s : State) (f : TraceSt → TraceSt) : (State.modTrace s f).out = s.out := rfl
@[simp] theorem State.modTrace_abft (s : State) (f : TraceSt → TraceSt) : (State.modTrace s f).abft = s.abft := rfl
@[simp] theorem State.modTrace_codec (s : State) (f : TraceSt → TraceSt) : (State.modTrace s f).codec = s.codec := rfl
@[simp] theorem State.modTrace_hang (s : State) (f : TraceSt → TraceSt) : (State.modTrace s f).hang = s.hang := rfl
@[simp] theorem State.modTrace_pub (s : State) (f : TraceSt → TraceSt) : (State.modTrace s f).pub = s.pub := rfl
@[simp] theorem State.modTrace_power (s : State) (f : TraceSt → TraceSt) : (State.modTrace s f).power = s.power := rfl
@[simp] theorem State.modTrace_drover (s : State) (f : TraceSt → TraceSt) : (State.modTrace s f).drover = s.drover := rfl
@[simp] theorem State.modTrace_auth (s : State) (f : TraceSt → TraceSt) : (State.modTrace s f).auth = s.auth := rfl
@[simp] theorem State.modTrace_fw (s : State) (f : TraceSt → TraceSt) : (State.modTrace s f).fw = s.fw := rfl
@[simp] theorem State.modTrace_rep (s : State) (f : TraceSt → TraceSt) : (State.modTrace s f).rep = s.rep := rfl
@[simp] theorem State.modTrace_free (s : State) (f : TraceSt → TraceSt) : (State.modTrace s f).free = s.free := rfl
@[simp] theorem State.modTrace_trace (s : State) (f : TraceSt → TraceSt) : (State.modTrace s f).trace = f s.trace := rfl

/-! ### Ops -/

@[simp] theorem State.setBucket_pending (s : State) (code level : Nat) : (State.setBucket s code level).pending = s.pending := rfl
@[simp] theorem State.setBucket_build (s : State) (code level : Nat) : (State.setBucket s code level).build = s.build := rfl
@[simp] theorem State.setBucket_bs (s : State) (code level : Nat) : (State.setBucket s code level).bs = s.bs := rfl
@[simp] theorem State.setBucket_regs (s : State) (code level : Nat) : (State.setBucket s code level).regs = s.regs := rfl
@[simp] theorem State.setBucket_core (s : State) (code level : Nat) : (State.setBucket s code level).core = s.core := rfl
@[simp] theorem State.setBucket_time (s : State) (code level : Nat) : (State.setBucket s code level).time = s.time := rfl
@[simp] theorem State.setBucket_pulse (s : State) (code level : Nat) : (State.setBucket s code level).pulse = s.pulse := rfl
@[simp] theorem State.setBucket_link (s : State) (code level : Nat) : (State.setBucket s code level).link = s.link := rfl
@[simp] theorem State.setBucket_tally (s : State) (code level : Nat) : (State.setBucket s code level).tally = s.tally := rfl
@[simp] theorem State.setBucket_coal (s : State) (code level : Nat) : (State.setBucket s code level).coal = s.coal := rfl
@[simp] theorem State.setBucket_samp (s : State) (code level : Nat) : (State.setBucket s code level).samp = s.samp := rfl
@[simp] theorem State.setBucket_muster (s : State) (code level : Nat) : (State.setBucket s code level).muster = s.muster := rfl
@[simp] theorem State.setBucket_convoy (s : State) (code level : Nat) : (State.setBucket s code level).convoy = s.convoy := rfl
@[simp] theorem State.setBucket_feat (s : State) (code level : Nat) : (State.setBucket s code level).feat = s.feat := rfl
@[simp] theorem State.setBucket_tree (s : State) (code level : Nat) : (State.setBucket s code level).tree = s.tree := rfl
@[simp] theorem State.setBucket_out (s : State) (code level : Nat) : (State.setBucket s code level).out = s.out := rfl
@[simp] theorem State.setBucket_trace (s : State) (code level : Nat) : (State.setBucket s code level).trace = s.trace := rfl
@[simp] theorem State.setBucket_abft (s : State) (code level : Nat) : (State.setBucket s code level).abft = s.abft := rfl
@[simp] theorem State.setBucket_codec (s : State) (code level : Nat) : (State.setBucket s code level).codec = s.codec := rfl
@[simp] theorem State.setBucket_hang (s : State) (code level : Nat) : (State.setBucket s code level).hang = s.hang := rfl
@[simp] theorem State.setBucket_pub (s : State) (code level : Nat) : (State.setBucket s code level).pub = s.pub := rfl
@[simp] theorem State.setBucket_power (s : State) (code level : Nat) : (State.setBucket s code level).power = s.power := rfl
@[simp] theorem State.setBucket_drover (s : State) (code level : Nat) : (State.setBucket s code level).drover = s.drover := rfl
@[simp] theorem State.setBucket_auth (s : State) (code level : Nat) : (State.setBucket s code level).auth = s.auth := rfl
@[simp] theorem State.setBucket_fw (s : State) (code level : Nat) : (State.setBucket s code level).fw = s.fw := rfl
@[simp] theorem State.setBucket_rep (s : State) (code level : Nat) : (State.setBucket s code level).rep = s.rep := rfl
@[simp] theorem State.setBucket_free (s : State) (code level : Nat) : (State.setBucket s code level).free = s.free := rfl

@[simp] theorem State.modPort_pending (s : State) (p : Nat) (f : Port → Port) : (State.modPort s p f).pending = s.pending := rfl
@[simp] theorem State.modPort_build (s : State) (p : Nat) (f : Port → Port) : (State.modPort s p f).build = s.build := rfl
@[simp] theorem State.modPort_bs (s : State) (p : Nat) (f : Port → Port) : (State.modPort s p f).bs = s.bs := rfl
@[simp] theorem State.modPort_regs (s : State) (p : Nat) (f : Port → Port) : (State.modPort s p f).regs = s.regs := rfl
@[simp] theorem State.modPort_core (s : State) (p : Nat) (f : Port → Port) : (State.modPort s p f).core = s.core := rfl
@[simp] theorem State.modPort_time (s : State) (p : Nat) (f : Port → Port) : (State.modPort s p f).time = s.time := rfl
@[simp] theorem State.modPort_pulse (s : State) (p : Nat) (f : Port → Port) : (State.modPort s p f).pulse = s.pulse := rfl
@[simp] theorem State.modPort_ev (s : State) (p : Nat) (f : Port → Port) : (State.modPort s p f).ev = s.ev := rfl
@[simp] theorem State.modPort_tally (s : State) (p : Nat) (f : Port → Port) : (State.modPort s p f).tally = s.tally := rfl
@[simp] theorem State.modPort_coal (s : State) (p : Nat) (f : Port → Port) : (State.modPort s p f).coal = s.coal := rfl
@[simp] theorem State.modPort_samp (s : State) (p : Nat) (f : Port → Port) : (State.modPort s p f).samp = s.samp := rfl
@[simp] theorem State.modPort_muster (s : State) (p : Nat) (f : Port → Port) : (State.modPort s p f).muster = s.muster := rfl
@[simp] theorem State.modPort_convoy (s : State) (p : Nat) (f : Port → Port) : (State.modPort s p f).convoy = s.convoy := rfl
@[simp] theorem State.modPort_feat (s : State) (p : Nat) (f : Port → Port) : (State.modPort s p f).feat = s.feat := rfl
@[simp] theorem State.modPort_tree (s : State) (p : Nat) (f : Port → Port) : (State.modPort s p f).tree = s.tree := rfl
@[simp] theorem State.modPort_out (s : State) (p : Nat) (f : Port → Port) : (State.modPort s p f).out = s.out := rfl
@[simp] theorem State.modPort_trace (s : State) (p : Nat) (f : Port → Port) : (State.modPort s p f).trace = s.trace := rfl
@[simp] theorem State.modPort_abft (s : State) (p : Nat) (f : Port → Port) : (State.modPort s p f).abft = s.abft := rfl
@[simp] theorem State.modPort_codec (s : State) (p : Nat) (f : Port → Port) : (State.modPort s p f).codec = s.codec := rfl
@[simp] theorem State.modPort_hang (s : State) (p : Nat) (f : Port → Port) : (State.modPort s p f).hang = s.hang := rfl
@[simp] theorem State.modPort_pub (s : State) (p : Nat) (f : Port → Port) : (State.modPort s p f).pub = s.pub := rfl
@[simp] theorem State.modPort_power (s : State) (p : Nat) (f : Port → Port) : (State.modPort s p f).power = s.power := rfl
@[simp] theorem State.modPort_drover (s : State) (p : Nat) (f : Port → Port) : (State.modPort s p f).drover = s.drover := rfl
@[simp] theorem State.modPort_auth (s : State) (p : Nat) (f : Port → Port) : (State.modPort s p f).auth = s.auth := rfl
@[simp] theorem State.modPort_fw (s : State) (p : Nat) (f : Port → Port) : (State.modPort s p f).fw = s.fw := rfl
@[simp] theorem State.modPort_rep (s : State) (p : Nat) (f : Port → Port) : (State.modPort s p f).rep = s.rep := rfl
@[simp] theorem State.modPort_free (s : State) (p : Nat) (f : Port → Port) : (State.modPort s p f).free = s.free := rfl

@[simp] theorem State.modCls_pending (s : State) (p c : Nat) (f : TxRx → TxRx) : (State.modCls s p c f).pending = s.pending := rfl
@[simp] theorem State.modCls_build (s : State) (p c : Nat) (f : TxRx → TxRx) : (State.modCls s p c f).build = s.build := rfl
@[simp] theorem State.modCls_bs (s : State) (p c : Nat) (f : TxRx → TxRx) : (State.modCls s p c f).bs = s.bs := rfl
@[simp] theorem State.modCls_regs (s : State) (p c : Nat) (f : TxRx → TxRx) : (State.modCls s p c f).regs = s.regs := rfl
@[simp] theorem State.modCls_core (s : State) (p c : Nat) (f : TxRx → TxRx) : (State.modCls s p c f).core = s.core := rfl
@[simp] theorem State.modCls_time (s : State) (p c : Nat) (f : TxRx → TxRx) : (State.modCls s p c f).time = s.time := rfl
@[simp] theorem State.modCls_pulse (s : State) (p c : Nat) (f : TxRx → TxRx) : (State.modCls s p c f).pulse = s.pulse := rfl
@[simp] theorem State.modCls_ev (s : State) (p c : Nat) (f : TxRx → TxRx) : (State.modCls s p c f).ev = s.ev := rfl
@[simp] theorem State.modCls_tally (s : State) (p c : Nat) (f : TxRx → TxRx) : (State.modCls s p c f).tally = s.tally := rfl
@[simp] theorem State.modCls_coal (s : State) (p c : Nat) (f : TxRx → TxRx) : (State.modCls s p c f).coal = s.coal := rfl
@[simp] theorem State.modCls_samp (s : State) (p c : Nat) (f : TxRx → TxRx) : (State.modCls s p c f).samp = s.samp := rfl
@[simp] theorem State.modCls_muster (s : State) (p c : Nat) (f : TxRx → TxRx) : (State.modCls s p c f).muster = s.muster := rfl
@[simp] theorem State.modCls_convoy (s : State) (p c : Nat) (f : TxRx → TxRx) : (State.modCls s p c f).convoy = s.convoy := rfl
@[simp] theorem State.modCls_feat (s : State) (p c : Nat) (f : TxRx → TxRx) : (State.modCls s p c f).feat = s.feat := rfl
@[simp] theorem State.modCls_tree (s : State) (p c : Nat) (f : TxRx → TxRx) : (State.modCls s p c f).tree = s.tree := rfl
@[simp] theorem State.modCls_out (s : State) (p c : Nat) (f : TxRx → TxRx) : (State.modCls s p c f).out = s.out := rfl
@[simp] theorem State.modCls_trace (s : State) (p c : Nat) (f : TxRx → TxRx) : (State.modCls s p c f).trace = s.trace := rfl
@[simp] theorem State.modCls_abft (s : State) (p c : Nat) (f : TxRx → TxRx) : (State.modCls s p c f).abft = s.abft := rfl
@[simp] theorem State.modCls_codec (s : State) (p c : Nat) (f : TxRx → TxRx) : (State.modCls s p c f).codec = s.codec := rfl
@[simp] theorem State.modCls_hang (s : State) (p c : Nat) (f : TxRx → TxRx) : (State.modCls s p c f).hang = s.hang := rfl
@[simp] theorem State.modCls_pub (s : State) (p c : Nat) (f : TxRx → TxRx) : (State.modCls s p c f).pub = s.pub := rfl
@[simp] theorem State.modCls_power (s : State) (p c : Nat) (f : TxRx → TxRx) : (State.modCls s p c f).power = s.power := rfl
@[simp] theorem State.modCls_drover (s : State) (p c : Nat) (f : TxRx → TxRx) : (State.modCls s p c f).drover = s.drover := rfl
@[simp] theorem State.modCls_auth (s : State) (p c : Nat) (f : TxRx → TxRx) : (State.modCls s p c f).auth = s.auth := rfl
@[simp] theorem State.modCls_fw (s : State) (p c : Nat) (f : TxRx → TxRx) : (State.modCls s p c f).fw = s.fw := rfl
@[simp] theorem State.modCls_rep (s : State) (p c : Nat) (f : TxRx → TxRx) : (State.modCls s p c f).rep = s.rep := rfl
@[simp] theorem State.modCls_free (s : State) (p c : Nat) (f : TxRx → TxRx) : (State.modCls s p c f).free = s.free := rfl

@[simp] theorem State.modDom_pending (s : State) (d : Nat) (f : Dom → Dom) : (State.modDom s d f).pending = s.pending := rfl
@[simp] theorem State.modDom_build (s : State) (d : Nat) (f : Dom → Dom) : (State.modDom s d f).build = s.build := rfl
@[simp] theorem State.modDom_bs (s : State) (d : Nat) (f : Dom → Dom) : (State.modDom s d f).bs = s.bs := rfl
@[simp] theorem State.modDom_regs (s : State) (d : Nat) (f : Dom → Dom) : (State.modDom s d f).regs = s.regs := rfl
@[simp] theorem State.modDom_core (s : State) (d : Nat) (f : Dom → Dom) : (State.modDom s d f).core = s.core := rfl
@[simp] theorem State.modDom_time (s : State) (d : Nat) (f : Dom → Dom) : (State.modDom s d f).time = s.time := rfl
@[simp] theorem State.modDom_pulse (s : State) (d : Nat) (f : Dom → Dom) : (State.modDom s d f).pulse = s.pulse := rfl
@[simp] theorem State.modDom_ev (s : State) (d : Nat) (f : Dom → Dom) : (State.modDom s d f).ev = s.ev := rfl
@[simp] theorem State.modDom_link (s : State) (d : Nat) (f : Dom → Dom) : (State.modDom s d f).link = s.link := rfl
@[simp] theorem State.modDom_tally (s : State) (d : Nat) (f : Dom → Dom) : (State.modDom s d f).tally = s.tally := rfl
@[simp] theorem State.modDom_coal (s : State) (d : Nat) (f : Dom → Dom) : (State.modDom s d f).coal = s.coal := rfl
@[simp] theorem State.modDom_samp (s : State) (d : Nat) (f : Dom → Dom) : (State.modDom s d f).samp = s.samp := rfl
@[simp] theorem State.modDom_muster (s : State) (d : Nat) (f : Dom → Dom) : (State.modDom s d f).muster = s.muster := rfl
@[simp] theorem State.modDom_convoy (s : State) (d : Nat) (f : Dom → Dom) : (State.modDom s d f).convoy = s.convoy := rfl
@[simp] theorem State.modDom_feat (s : State) (d : Nat) (f : Dom → Dom) : (State.modDom s d f).feat = s.feat := rfl
@[simp] theorem State.modDom_tree (s : State) (d : Nat) (f : Dom → Dom) : (State.modDom s d f).tree = s.tree := rfl
@[simp] theorem State.modDom_out (s : State) (d : Nat) (f : Dom → Dom) : (State.modDom s d f).out = s.out := rfl
@[simp] theorem State.modDom_trace (s : State) (d : Nat) (f : Dom → Dom) : (State.modDom s d f).trace = s.trace := rfl
@[simp] theorem State.modDom_abft (s : State) (d : Nat) (f : Dom → Dom) : (State.modDom s d f).abft = s.abft := rfl
@[simp] theorem State.modDom_codec (s : State) (d : Nat) (f : Dom → Dom) : (State.modDom s d f).codec = s.codec := rfl
@[simp] theorem State.modDom_hang (s : State) (d : Nat) (f : Dom → Dom) : (State.modDom s d f).hang = s.hang := rfl
@[simp] theorem State.modDom_pub (s : State) (d : Nat) (f : Dom → Dom) : (State.modDom s d f).pub = s.pub := rfl
@[simp] theorem State.modDom_drover (s : State) (d : Nat) (f : Dom → Dom) : (State.modDom s d f).drover = s.drover := rfl
@[simp] theorem State.modDom_auth (s : State) (d : Nat) (f : Dom → Dom) : (State.modDom s d f).auth = s.auth := rfl
@[simp] theorem State.modDom_fw (s : State) (d : Nat) (f : Dom → Dom) : (State.modDom s d f).fw = s.fw := rfl
@[simp] theorem State.modDom_rep (s : State) (d : Nat) (f : Dom → Dom) : (State.modDom s d f).rep = s.rep := rfl
@[simp] theorem State.modDom_free (s : State) (d : Nat) (f : Dom → Dom) : (State.modDom s d f).free = s.free := rfl

@[simp] theorem State.tallyMod_pending (s : State) (stream : Nat) (f : Tally → Tally) : (State.tallyMod s stream f).pending = s.pending := rfl
@[simp] theorem State.tallyMod_build (s : State) (stream : Nat) (f : Tally → Tally) : (State.tallyMod s stream f).build = s.build := rfl
@[simp] theorem State.tallyMod_bs (s : State) (stream : Nat) (f : Tally → Tally) : (State.tallyMod s stream f).bs = s.bs := rfl
@[simp] theorem State.tallyMod_regs (s : State) (stream : Nat) (f : Tally → Tally) : (State.tallyMod s stream f).regs = s.regs := rfl
@[simp] theorem State.tallyMod_core (s : State) (stream : Nat) (f : Tally → Tally) : (State.tallyMod s stream f).core = s.core := rfl
@[simp] theorem State.tallyMod_time (s : State) (stream : Nat) (f : Tally → Tally) : (State.tallyMod s stream f).time = s.time := rfl
@[simp] theorem State.tallyMod_pulse (s : State) (stream : Nat) (f : Tally → Tally) : (State.tallyMod s stream f).pulse = s.pulse := rfl
@[simp] theorem State.tallyMod_ev (s : State) (stream : Nat) (f : Tally → Tally) : (State.tallyMod s stream f).ev = s.ev := rfl
@[simp] theorem State.tallyMod_link (s : State) (stream : Nat) (f : Tally → Tally) : (State.tallyMod s stream f).link = s.link := rfl
@[simp] theorem State.tallyMod_coal (s : State) (stream : Nat) (f : Tally → Tally) : (State.tallyMod s stream f).coal = s.coal := rfl
@[simp] theorem State.tallyMod_samp (s : State) (stream : Nat) (f : Tally → Tally) : (State.tallyMod s stream f).samp = s.samp := rfl
@[simp] theorem State.tallyMod_muster (s : State) (stream : Nat) (f : Tally → Tally) : (State.tallyMod s stream f).muster = s.muster := rfl
@[simp] theorem State.tallyMod_convoy (s : State) (stream : Nat) (f : Tally → Tally) : (State.tallyMod s stream f).convoy = s.convoy := rfl
@[simp] theorem State.tallyMod_feat (s : State) (stream : Nat) (f : Tally → Tally) : (State.tallyMod s stream f).feat = s.feat := rfl
@[simp] theorem State.tallyMod_tree (s : State) (stream : Nat) (f : Tally → Tally) : (State.tallyMod s stream f).tree = s.tree := rfl
@[simp] theorem State.tallyMod_out (s : State) (stream : Nat) (f : Tally → Tally) : (State.tallyMod s stream f).out = s.out := rfl
@[simp] theorem State.tallyMod_trace (s : State) (stream : Nat) (f : Tally → Tally) : (State.tallyMod s stream f).trace = s.trace := rfl
@[simp] theorem State.tallyMod_abft (s : State) (stream : Nat) (f : Tally → Tally) : (State.tallyMod s stream f).abft = s.abft := rfl
@[simp] theorem State.tallyMod_codec (s : State) (stream : Nat) (f : Tally → Tally) : (State.tallyMod s stream f).codec = s.codec := rfl
@[simp] theorem State.tallyMod_hang (s : State) (stream : Nat) (f : Tally → Tally) : (State.tallyMod s stream f).hang = s.hang := rfl
@[simp] theorem State.tallyMod_pub (s : State) (stream : Nat) (f : Tally → Tally) : (State.tallyMod s stream f).pub = s.pub := rfl
@[simp] theorem State.tallyMod_power (s : State) (stream : Nat) (f : Tally → Tally) : (State.tallyMod s stream f).power = s.power := rfl
@[simp] theorem State.tallyMod_drover (s : State) (stream : Nat) (f : Tally → Tally) : (State.tallyMod s stream f).drover = s.drover := rfl
@[simp] theorem State.tallyMod_auth (s : State) (stream : Nat) (f : Tally → Tally) : (State.tallyMod s stream f).auth = s.auth := rfl
@[simp] theorem State.tallyMod_fw (s : State) (stream : Nat) (f : Tally → Tally) : (State.tallyMod s stream f).fw = s.fw := rfl
@[simp] theorem State.tallyMod_rep (s : State) (stream : Nat) (f : Tally → Tally) : (State.tallyMod s stream f).rep = s.rep := rfl
@[simp] theorem State.tallyMod_free (s : State) (stream : Nat) (f : Tally → Tally) : (State.tallyMod s stream f).free = s.free := rfl

@[simp] theorem State.startMove_pending (s : State) (d tgt : Nat) : (State.startMove s d tgt).pending = s.pending := rfl
@[simp] theorem State.startMove_build (s : State) (d tgt : Nat) : (State.startMove s d tgt).build = s.build := rfl
@[simp] theorem State.startMove_bs (s : State) (d tgt : Nat) : (State.startMove s d tgt).bs = s.bs := rfl
@[simp] theorem State.startMove_regs (s : State) (d tgt : Nat) : (State.startMove s d tgt).regs = s.regs := rfl
@[simp] theorem State.startMove_core (s : State) (d tgt : Nat) : (State.startMove s d tgt).core = s.core := rfl
@[simp] theorem State.startMove_time (s : State) (d tgt : Nat) : (State.startMove s d tgt).time = s.time := rfl
@[simp] theorem State.startMove_pulse (s : State) (d tgt : Nat) : (State.startMove s d tgt).pulse = s.pulse := rfl
@[simp] theorem State.startMove_ev (s : State) (d tgt : Nat) : (State.startMove s d tgt).ev = s.ev := rfl
@[simp] theorem State.startMove_link (s : State) (d tgt : Nat) : (State.startMove s d tgt).link = s.link := rfl
@[simp] theorem State.startMove_tally (s : State) (d tgt : Nat) : (State.startMove s d tgt).tally = s.tally := rfl
@[simp] theorem State.startMove_coal (s : State) (d tgt : Nat) : (State.startMove s d tgt).coal = s.coal := rfl
@[simp] theorem State.startMove_samp (s : State) (d tgt : Nat) : (State.startMove s d tgt).samp = s.samp := rfl
@[simp] theorem State.startMove_muster (s : State) (d tgt : Nat) : (State.startMove s d tgt).muster = s.muster := rfl
@[simp] theorem State.startMove_convoy (s : State) (d tgt : Nat) : (State.startMove s d tgt).convoy = s.convoy := rfl
@[simp] theorem State.startMove_feat (s : State) (d tgt : Nat) : (State.startMove s d tgt).feat = s.feat := rfl
@[simp] theorem State.startMove_tree (s : State) (d tgt : Nat) : (State.startMove s d tgt).tree = s.tree := rfl
@[simp] theorem State.startMove_out (s : State) (d tgt : Nat) : (State.startMove s d tgt).out = s.out := rfl
@[simp] theorem State.startMove_trace (s : State) (d tgt : Nat) : (State.startMove s d tgt).trace = s.trace := rfl
@[simp] theorem State.startMove_abft (s : State) (d tgt : Nat) : (State.startMove s d tgt).abft = s.abft := rfl
@[simp] theorem State.startMove_codec (s : State) (d tgt : Nat) : (State.startMove s d tgt).codec = s.codec := rfl
@[simp] theorem State.startMove_hang (s : State) (d tgt : Nat) : (State.startMove s d tgt).hang = s.hang := rfl
@[simp] theorem State.startMove_pub (s : State) (d tgt : Nat) : (State.startMove s d tgt).pub = s.pub := rfl
@[simp] theorem State.startMove_drover (s : State) (d tgt : Nat) : (State.startMove s d tgt).drover = s.drover := rfl
@[simp] theorem State.startMove_auth (s : State) (d tgt : Nat) : (State.startMove s d tgt).auth = s.auth := rfl
@[simp] theorem State.startMove_fw (s : State) (d tgt : Nat) : (State.startMove s d tgt).fw = s.fw := rfl
@[simp] theorem State.startMove_rep (s : State) (d tgt : Nat) : (State.startMove s d tgt).rep = s.rep := rfl
@[simp] theorem State.startMove_free (s : State) (d tgt : Nat) : (State.startMove s d tgt).free = s.free := rfl

/-! ### Operands -/

@[simp] theorem State.respond_pending (s : State) (a : Acc) (w : Bool) (v : Nat) (e : Bool) : (s.respond a w v e).pending = s.pending := by
  unfold State.respond; split <;> (try split) <;> rfl
@[simp] theorem State.respond_build (s : State) (a : Acc) (w : Bool) (v : Nat) (e : Bool) : (s.respond a w v e).build = s.build := by
  unfold State.respond; split <;> (try split) <;> rfl
@[simp] theorem State.respond_bs (s : State) (a : Acc) (w : Bool) (v : Nat) (e : Bool) : (s.respond a w v e).bs = s.bs := by
  unfold State.respond; split <;> (try split) <;> rfl
@[simp] theorem State.respond_regs (s : State) (a : Acc) (w : Bool) (v : Nat) (e : Bool) : (s.respond a w v e).regs = s.regs := by
  unfold State.respond; split <;> (try split) <;> rfl
@[simp] theorem State.respond_time (s : State) (a : Acc) (w : Bool) (v : Nat) (e : Bool) : (s.respond a w v e).time = s.time := by
  unfold State.respond; split <;> (try split) <;> rfl
@[simp] theorem State.respond_pulse (s : State) (a : Acc) (w : Bool) (v : Nat) (e : Bool) : (s.respond a w v e).pulse = s.pulse := by
  unfold State.respond; split <;> (try split) <;> rfl
@[simp] theorem State.respond_ev (s : State) (a : Acc) (w : Bool) (v : Nat) (e : Bool) : (s.respond a w v e).ev = s.ev := by
  unfold State.respond; split <;> (try split) <;> rfl
@[simp] theorem State.respond_link (s : State) (a : Acc) (w : Bool) (v : Nat) (e : Bool) : (s.respond a w v e).link = s.link := by
  unfold State.respond; split <;> (try split) <;> rfl
@[simp] theorem State.respond_tally (s : State) (a : Acc) (w : Bool) (v : Nat) (e : Bool) : (s.respond a w v e).tally = s.tally := by
  unfold State.respond; split <;> (try split) <;> rfl
@[simp] theorem State.respond_coal (s : State) (a : Acc) (w : Bool) (v : Nat) (e : Bool) : (s.respond a w v e).coal = s.coal := by
  unfold State.respond; split <;> (try split) <;> rfl
@[simp] theorem State.respond_samp (s : State) (a : Acc) (w : Bool) (v : Nat) (e : Bool) : (s.respond a w v e).samp = s.samp := by
  unfold State.respond; split <;> (try split) <;> rfl
@[simp] theorem State.respond_muster (s : State) (a : Acc) (w : Bool) (v : Nat) (e : Bool) : (s.respond a w v e).muster = s.muster := by
  unfold State.respond; split <;> (try split) <;> rfl
@[simp] theorem State.respond_convoy (s : State) (a : Acc) (w : Bool) (v : Nat) (e : Bool) : (s.respond a w v e).convoy = s.convoy := by
  unfold State.respond; split <;> (try split) <;> rfl
@[simp] theorem State.respond_feat (s : State) (a : Acc) (w : Bool) (v : Nat) (e : Bool) : (s.respond a w v e).feat = s.feat := by
  unfold State.respond; split <;> (try split) <;> rfl
@[simp] theorem State.respond_tree (s : State) (a : Acc) (w : Bool) (v : Nat) (e : Bool) : (s.respond a w v e).tree = s.tree := by
  unfold State.respond; split <;> (try split) <;> rfl
@[simp] theorem State.respond_out (s : State) (a : Acc) (w : Bool) (v : Nat) (e : Bool) : (s.respond a w v e).out = s.out := by
  unfold State.respond; split <;> (try split) <;> rfl
@[simp] theorem State.respond_trace (s : State) (a : Acc) (w : Bool) (v : Nat) (e : Bool) : (s.respond a w v e).trace = s.trace := by
  unfold State.respond; split <;> (try split) <;> rfl
@[simp] theorem State.respond_abft (s : State) (a : Acc) (w : Bool) (v : Nat) (e : Bool) : (s.respond a w v e).abft = s.abft := by
  unfold State.respond; split <;> (try split) <;> rfl
@[simp] theorem State.respond_codec (s : State) (a : Acc) (w : Bool) (v : Nat) (e : Bool) : (s.respond a w v e).codec = s.codec := by
  unfold State.respond; split <;> (try split) <;> rfl
@[simp] theorem State.respond_hang (s : State) (a : Acc) (w : Bool) (v : Nat) (e : Bool) : (s.respond a w v e).hang = s.hang := by
  unfold State.respond; split <;> (try split) <;> rfl
@[simp] theorem State.respond_pub (s : State) (a : Acc) (w : Bool) (v : Nat) (e : Bool) : (s.respond a w v e).pub = s.pub := by
  unfold State.respond; split <;> (try split) <;> rfl
@[simp] theorem State.respond_power (s : State) (a : Acc) (w : Bool) (v : Nat) (e : Bool) : (s.respond a w v e).power = s.power := by
  unfold State.respond; split <;> (try split) <;> rfl
@[simp] theorem State.respond_drover (s : State) (a : Acc) (w : Bool) (v : Nat) (e : Bool) : (s.respond a w v e).drover = s.drover := by
  unfold State.respond; split <;> (try split) <;> rfl
@[simp] theorem State.respond_auth (s : State) (a : Acc) (w : Bool) (v : Nat) (e : Bool) : (s.respond a w v e).auth = s.auth := by
  unfold State.respond; split <;> (try split) <;> rfl
@[simp] theorem State.respond_fw (s : State) (a : Acc) (w : Bool) (v : Nat) (e : Bool) : (s.respond a w v e).fw = s.fw := by
  unfold State.respond; split <;> (try split) <;> rfl
@[simp] theorem State.respond_rep (s : State) (a : Acc) (w : Bool) (v : Nat) (e : Bool) : (s.respond a w v e).rep = s.rep := by
  unfold State.respond; split <;> (try split) <;> rfl
@[simp] theorem State.respond_free (s : State) (a : Acc) (w : Bool) (v : Nat) (e : Bool) : (s.respond a w v e).free = s.free := by
  unfold State.respond; split <;> (try split) <;> rfl

/-! ### Records -/

@[simp] theorem State.dupFront_pending (s : State) (c : DupCtx) (l : List DupCtx) : (State.dupFront s c l).pending = s.pending := rfl
@[simp] theorem State.dupFront_build (s : State) (c : DupCtx) (l : List DupCtx) : (State.dupFront s c l).build = s.build := rfl
@[simp] theorem State.dupFront_bs (s : State) (c : DupCtx) (l : List DupCtx) : (State.dupFront s c l).bs = s.bs := rfl
@[simp] theorem State.dupFront_regs (s : State) (c : DupCtx) (l : List DupCtx) : (State.dupFront s c l).regs = s.regs := rfl
@[simp] theorem State.dupFront_core (s : State) (c : DupCtx) (l : List DupCtx) : (State.dupFront s c l).core = s.core := rfl
@[simp] theorem State.dupFront_time (s : State) (c : DupCtx) (l : List DupCtx) : (State.dupFront s c l).time = s.time := rfl
@[simp] theorem State.dupFront_pulse (s : State) (c : DupCtx) (l : List DupCtx) : (State.dupFront s c l).pulse = s.pulse := rfl
@[simp] theorem State.dupFront_ev (s : State) (c : DupCtx) (l : List DupCtx) : (State.dupFront s c l).ev = s.ev := rfl
@[simp] theorem State.dupFront_link (s : State) (c : DupCtx) (l : List DupCtx) : (State.dupFront s c l).link = s.link := rfl
@[simp] theorem State.dupFront_coal (s : State) (c : DupCtx) (l : List DupCtx) : (State.dupFront s c l).coal = s.coal := rfl
@[simp] theorem State.dupFront_samp (s : State) (c : DupCtx) (l : List DupCtx) : (State.dupFront s c l).samp = s.samp := rfl
@[simp] theorem State.dupFront_muster (s : State) (c : DupCtx) (l : List DupCtx) : (State.dupFront s c l).muster = s.muster := rfl
@[simp] theorem State.dupFront_convoy (s : State) (c : DupCtx) (l : List DupCtx) : (State.dupFront s c l).convoy = s.convoy := rfl
@[simp] theorem State.dupFront_feat (s : State) (c : DupCtx) (l : List DupCtx) : (State.dupFront s c l).feat = s.feat := rfl
@[simp] theorem State.dupFront_tree (s : State) (c : DupCtx) (l : List DupCtx) : (State.dupFront s c l).tree = s.tree := rfl
@[simp] theorem State.dupFront_out (s : State) (c : DupCtx) (l : List DupCtx) : (State.dupFront s c l).out = s.out := rfl
@[simp] theorem State.dupFront_trace (s : State) (c : DupCtx) (l : List DupCtx) : (State.dupFront s c l).trace = s.trace := rfl
@[simp] theorem State.dupFront_abft (s : State) (c : DupCtx) (l : List DupCtx) : (State.dupFront s c l).abft = s.abft := rfl
@[simp] theorem State.dupFront_codec (s : State) (c : DupCtx) (l : List DupCtx) : (State.dupFront s c l).codec = s.codec := rfl
@[simp] theorem State.dupFront_hang (s : State) (c : DupCtx) (l : List DupCtx) : (State.dupFront s c l).hang = s.hang := rfl
@[simp] theorem State.dupFront_pub (s : State) (c : DupCtx) (l : List DupCtx) : (State.dupFront s c l).pub = s.pub := rfl
@[simp] theorem State.dupFront_power (s : State) (c : DupCtx) (l : List DupCtx) : (State.dupFront s c l).power = s.power := rfl
@[simp] theorem State.dupFront_drover (s : State) (c : DupCtx) (l : List DupCtx) : (State.dupFront s c l).drover = s.drover := rfl
@[simp] theorem State.dupFront_auth (s : State) (c : DupCtx) (l : List DupCtx) : (State.dupFront s c l).auth = s.auth := rfl
@[simp] theorem State.dupFront_fw (s : State) (c : DupCtx) (l : List DupCtx) : (State.dupFront s c l).fw = s.fw := rfl
@[simp] theorem State.dupFront_rep (s : State) (c : DupCtx) (l : List DupCtx) : (State.dupFront s c l).rep = s.rep := rfl
@[simp] theorem State.dupFront_free (s : State) (c : DupCtx) (l : List DupCtx) : (State.dupFront s c l).free = s.free := rfl

/-! ### Time -/

@[simp] theorem State.modExch_pending (s : State) (p : Nat) (f : Exch → Exch) : (State.modExch s p f).pending = s.pending := rfl
@[simp] theorem State.modExch_build (s : State) (p : Nat) (f : Exch → Exch) : (State.modExch s p f).build = s.build := rfl
@[simp] theorem State.modExch_bs (s : State) (p : Nat) (f : Exch → Exch) : (State.modExch s p f).bs = s.bs := rfl
@[simp] theorem State.modExch_regs (s : State) (p : Nat) (f : Exch → Exch) : (State.modExch s p f).regs = s.regs := rfl
@[simp] theorem State.modExch_core (s : State) (p : Nat) (f : Exch → Exch) : (State.modExch s p f).core = s.core := rfl
@[simp] theorem State.modExch_pulse (s : State) (p : Nat) (f : Exch → Exch) : (State.modExch s p f).pulse = s.pulse := rfl
@[simp] theorem State.modExch_ev (s : State) (p : Nat) (f : Exch → Exch) : (State.modExch s p f).ev = s.ev := rfl
@[simp] theorem State.modExch_link (s : State) (p : Nat) (f : Exch → Exch) : (State.modExch s p f).link = s.link := rfl
@[simp] theorem State.modExch_tally (s : State) (p : Nat) (f : Exch → Exch) : (State.modExch s p f).tally = s.tally := rfl
@[simp] theorem State.modExch_coal (s : State) (p : Nat) (f : Exch → Exch) : (State.modExch s p f).coal = s.coal := rfl
@[simp] theorem State.modExch_samp (s : State) (p : Nat) (f : Exch → Exch) : (State.modExch s p f).samp = s.samp := rfl
@[simp] theorem State.modExch_muster (s : State) (p : Nat) (f : Exch → Exch) : (State.modExch s p f).muster = s.muster := rfl
@[simp] theorem State.modExch_convoy (s : State) (p : Nat) (f : Exch → Exch) : (State.modExch s p f).convoy = s.convoy := rfl
@[simp] theorem State.modExch_feat (s : State) (p : Nat) (f : Exch → Exch) : (State.modExch s p f).feat = s.feat := rfl
@[simp] theorem State.modExch_tree (s : State) (p : Nat) (f : Exch → Exch) : (State.modExch s p f).tree = s.tree := rfl
@[simp] theorem State.modExch_out (s : State) (p : Nat) (f : Exch → Exch) : (State.modExch s p f).out = s.out := rfl
@[simp] theorem State.modExch_trace (s : State) (p : Nat) (f : Exch → Exch) : (State.modExch s p f).trace = s.trace := rfl
@[simp] theorem State.modExch_abft (s : State) (p : Nat) (f : Exch → Exch) : (State.modExch s p f).abft = s.abft := rfl
@[simp] theorem State.modExch_codec (s : State) (p : Nat) (f : Exch → Exch) : (State.modExch s p f).codec = s.codec := rfl
@[simp] theorem State.modExch_hang (s : State) (p : Nat) (f : Exch → Exch) : (State.modExch s p f).hang = s.hang := rfl
@[simp] theorem State.modExch_pub (s : State) (p : Nat) (f : Exch → Exch) : (State.modExch s p f).pub = s.pub := rfl
@[simp] theorem State.modExch_power (s : State) (p : Nat) (f : Exch → Exch) : (State.modExch s p f).power = s.power := rfl
@[simp] theorem State.modExch_drover (s : State) (p : Nat) (f : Exch → Exch) : (State.modExch s p f).drover = s.drover := rfl
@[simp] theorem State.modExch_auth (s : State) (p : Nat) (f : Exch → Exch) : (State.modExch s p f).auth = s.auth := rfl
@[simp] theorem State.modExch_fw (s : State) (p : Nat) (f : Exch → Exch) : (State.modExch s p f).fw = s.fw := rfl
@[simp] theorem State.modExch_rep (s : State) (p : Nat) (f : Exch → Exch) : (State.modExch s p f).rep = s.rep := rfl
@[simp] theorem State.modExch_free (s : State) (p : Nat) (f : Exch → Exch) : (State.modExch s p f).free = s.free := rfl

@[simp] theorem State.modPtp_pending (s : State) (p : Nat) (f : PtpPort → PtpPort) : (State.modPtp s p f).pending = s.pending := rfl
@[simp] theorem State.modPtp_build (s : State) (p : Nat) (f : PtpPort → PtpPort) : (State.modPtp s p f).build = s.build := rfl
@[simp] theorem State.modPtp_bs (s : State) (p : Nat) (f : PtpPort → PtpPort) : (State.modPtp s p f).bs = s.bs := rfl
@[simp] theorem State.modPtp_regs (s : State) (p : Nat) (f : PtpPort → PtpPort) : (State.modPtp s p f).regs = s.regs := rfl
@[simp] theorem State.modPtp_core (s : State) (p : Nat) (f : PtpPort → PtpPort) : (State.modPtp s p f).core = s.core := rfl
@[simp] theorem State.modPtp_pulse (s : State) (p : Nat) (f : PtpPort → PtpPort) : (State.modPtp s p f).pulse = s.pulse := rfl
@[simp] theorem State.modPtp_ev (s : State) (p : Nat) (f : PtpPort → PtpPort) : (State.modPtp s p f).ev = s.ev := rfl
@[simp] theorem State.modPtp_link (s : State) (p : Nat) (f : PtpPort → PtpPort) : (State.modPtp s p f).link = s.link := rfl
@[simp] theorem State.modPtp_tally (s : State) (p : Nat) (f : PtpPort → PtpPort) : (State.modPtp s p f).tally = s.tally := rfl
@[simp] theorem State.modPtp_coal (s : State) (p : Nat) (f : PtpPort → PtpPort) : (State.modPtp s p f).coal = s.coal := rfl
@[simp] theorem State.modPtp_samp (s : State) (p : Nat) (f : PtpPort → PtpPort) : (State.modPtp s p f).samp = s.samp := rfl
@[simp] theorem State.modPtp_muster (s : State) (p : Nat) (f : PtpPort → PtpPort) : (State.modPtp s p f).muster = s.muster := rfl
@[simp] theorem State.modPtp_convoy (s : State) (p : Nat) (f : PtpPort → PtpPort) : (State.modPtp s p f).convoy = s.convoy := rfl
@[simp] theorem State.modPtp_feat (s : State) (p : Nat) (f : PtpPort → PtpPort) : (State.modPtp s p f).feat = s.feat := rfl
@[simp] theorem State.modPtp_tree (s : State) (p : Nat) (f : PtpPort → PtpPort) : (State.modPtp s p f).tree = s.tree := rfl
@[simp] theorem State.modPtp_out (s : State) (p : Nat) (f : PtpPort → PtpPort) : (State.modPtp s p f).out = s.out := rfl
@[simp] theorem State.modPtp_trace (s : State) (p : Nat) (f : PtpPort → PtpPort) : (State.modPtp s p f).trace = s.trace := rfl
@[simp] theorem State.modPtp_abft (s : State) (p : Nat) (f : PtpPort → PtpPort) : (State.modPtp s p f).abft = s.abft := rfl
@[simp] theorem State.modPtp_codec (s : State) (p : Nat) (f : PtpPort → PtpPort) : (State.modPtp s p f).codec = s.codec := rfl
@[simp] theorem State.modPtp_hang (s : State) (p : Nat) (f : PtpPort → PtpPort) : (State.modPtp s p f).hang = s.hang := rfl
@[simp] theorem State.modPtp_pub (s : State) (p : Nat) (f : PtpPort → PtpPort) : (State.modPtp s p f).pub = s.pub := rfl
@[simp] theorem State.modPtp_power (s : State) (p : Nat) (f : PtpPort → PtpPort) : (State.modPtp s p f).power = s.power := rfl
@[simp] theorem State.modPtp_drover (s : State) (p : Nat) (f : PtpPort → PtpPort) : (State.modPtp s p f).drover = s.drover := rfl
@[simp] theorem State.modPtp_auth (s : State) (p : Nat) (f : PtpPort → PtpPort) : (State.modPtp s p f).auth = s.auth := rfl
@[simp] theorem State.modPtp_fw (s : State) (p : Nat) (f : PtpPort → PtpPort) : (State.modPtp s p f).fw = s.fw := rfl
@[simp] theorem State.modPtp_rep (s : State) (p : Nat) (f : PtpPort → PtpPort) : (State.modPtp s p f).rep = s.rep := rfl
@[simp] theorem State.modPtp_free (s : State) (p : Nat) (f : PtpPort → PtpPort) : (State.modPtp s p f).free = s.free := rfl

/-! ### Links -/

@[simp] theorem State.modSess_pending (s : State) (e : Nat) (f : Session → Session) : (State.modSess s e f).pending = s.pending := rfl
@[simp] theorem State.modSess_build (s : State) (e : Nat) (f : Session → Session) : (State.modSess s e f).build = s.build := rfl
@[simp] theorem State.modSess_bs (s : State) (e : Nat) (f : Session → Session) : (State.modSess s e f).bs = s.bs := rfl
@[simp] theorem State.modSess_regs (s : State) (e : Nat) (f : Session → Session) : (State.modSess s e f).regs = s.regs := rfl
@[simp] theorem State.modSess_core (s : State) (e : Nat) (f : Session → Session) : (State.modSess s e f).core = s.core := rfl
@[simp] theorem State.modSess_time (s : State) (e : Nat) (f : Session → Session) : (State.modSess s e f).time = s.time := rfl
@[simp] theorem State.modSess_pulse (s : State) (e : Nat) (f : Session → Session) : (State.modSess s e f).pulse = s.pulse := rfl
@[simp] theorem State.modSess_ev (s : State) (e : Nat) (f : Session → Session) : (State.modSess s e f).ev = s.ev := rfl
@[simp] theorem State.modSess_link (s : State) (e : Nat) (f : Session → Session) : (State.modSess s e f).link = s.link := rfl
@[simp] theorem State.modSess_tally (s : State) (e : Nat) (f : Session → Session) : (State.modSess s e f).tally = s.tally := rfl
@[simp] theorem State.modSess_coal (s : State) (e : Nat) (f : Session → Session) : (State.modSess s e f).coal = s.coal := rfl
@[simp] theorem State.modSess_samp (s : State) (e : Nat) (f : Session → Session) : (State.modSess s e f).samp = s.samp := rfl
@[simp] theorem State.modSess_muster (s : State) (e : Nat) (f : Session → Session) : (State.modSess s e f).muster = s.muster := rfl
@[simp] theorem State.modSess_convoy (s : State) (e : Nat) (f : Session → Session) : (State.modSess s e f).convoy = s.convoy := rfl
@[simp] theorem State.modSess_feat (s : State) (e : Nat) (f : Session → Session) : (State.modSess s e f).feat = s.feat := rfl
@[simp] theorem State.modSess_tree (s : State) (e : Nat) (f : Session → Session) : (State.modSess s e f).tree = s.tree := rfl
@[simp] theorem State.modSess_out (s : State) (e : Nat) (f : Session → Session) : (State.modSess s e f).out = s.out := rfl
@[simp] theorem State.modSess_trace (s : State) (e : Nat) (f : Session → Session) : (State.modSess s e f).trace = s.trace := rfl
@[simp] theorem State.modSess_abft (s : State) (e : Nat) (f : Session → Session) : (State.modSess s e f).abft = s.abft := rfl
@[simp] theorem State.modSess_codec (s : State) (e : Nat) (f : Session → Session) : (State.modSess s e f).codec = s.codec := rfl
@[simp] theorem State.modSess_hang (s : State) (e : Nat) (f : Session → Session) : (State.modSess s e f).hang = s.hang := rfl
@[simp] theorem State.modSess_power (s : State) (e : Nat) (f : Session → Session) : (State.modSess s e f).power = s.power := rfl
@[simp] theorem State.modSess_drover (s : State) (e : Nat) (f : Session → Session) : (State.modSess s e f).drover = s.drover := rfl
@[simp] theorem State.modSess_auth (s : State) (e : Nat) (f : Session → Session) : (State.modSess s e f).auth = s.auth := rfl
@[simp] theorem State.modSess_fw (s : State) (e : Nat) (f : Session → Session) : (State.modSess s e f).fw = s.fw := rfl
@[simp] theorem State.modSess_rep (s : State) (e : Nat) (f : Session → Session) : (State.modSess s e f).rep = s.rep := rfl
@[simp] theorem State.modSess_free (s : State) (e : Nat) (f : Session → Session) : (State.modSess s e f).free = s.free := rfl

@[simp] theorem State.modPub_pending (s : State) (f : PubSt → PubSt) : (State.modPub s f).pending = s.pending := rfl
@[simp] theorem State.modPub_build (s : State) (f : PubSt → PubSt) : (State.modPub s f).build = s.build := rfl
@[simp] theorem State.modPub_bs (s : State) (f : PubSt → PubSt) : (State.modPub s f).bs = s.bs := rfl
@[simp] theorem State.modPub_regs (s : State) (f : PubSt → PubSt) : (State.modPub s f).regs = s.regs := rfl
@[simp] theorem State.modPub_core (s : State) (f : PubSt → PubSt) : (State.modPub s f).core = s.core := rfl
@[simp] theorem State.modPub_time (s : State) (f : PubSt → PubSt) : (State.modPub s f).time = s.time := rfl
@[simp] theorem State.modPub_pulse (s : State) (f : PubSt → PubSt) : (State.modPub s f).pulse = s.pulse := rfl
@[simp] theorem State.modPub_ev (s : State) (f : PubSt → PubSt) : (State.modPub s f).ev = s.ev := rfl
@[simp] theorem State.modPub_link (s : State) (f : PubSt → PubSt) : (State.modPub s f).link = s.link := rfl
@[simp] theorem State.modPub_tally (s : State) (f : PubSt → PubSt) : (State.modPub s f).tally = s.tally := rfl
@[simp] theorem State.modPub_coal (s : State) (f : PubSt → PubSt) : (State.modPub s f).coal = s.coal := rfl
@[simp] theorem State.modPub_samp (s : State) (f : PubSt → PubSt) : (State.modPub s f).samp = s.samp := rfl
@[simp] theorem State.modPub_muster (s : State) (f : PubSt → PubSt) : (State.modPub s f).muster = s.muster := rfl
@[simp] theorem State.modPub_convoy (s : State) (f : PubSt → PubSt) : (State.modPub s f).convoy = s.convoy := rfl
@[simp] theorem State.modPub_feat (s : State) (f : PubSt → PubSt) : (State.modPub s f).feat = s.feat := rfl
@[simp] theorem State.modPub_tree (s : State) (f : PubSt → PubSt) : (State.modPub s f).tree = s.tree := rfl
@[simp] theorem State.modPub_out (s : State) (f : PubSt → PubSt) : (State.modPub s f).out = s.out := rfl
@[simp] theorem State.modPub_trace (s : State) (f : PubSt → PubSt) : (State.modPub s f).trace = s.trace := rfl
@[simp] theorem State.modPub_abft (s : State) (f : PubSt → PubSt) : (State.modPub s f).abft = s.abft := rfl
@[simp] theorem State.modPub_codec (s : State) (f : PubSt → PubSt) : (State.modPub s f).codec = s.codec := rfl
@[simp] theorem State.modPub_hang (s : State) (f : PubSt → PubSt) : (State.modPub s f).hang = s.hang := rfl
@[simp] theorem State.modPub_power (s : State) (f : PubSt → PubSt) : (State.modPub s f).power = s.power := rfl
@[simp] theorem State.modPub_drover (s : State) (f : PubSt → PubSt) : (State.modPub s f).drover = s.drover := rfl
@[simp] theorem State.modPub_auth (s : State) (f : PubSt → PubSt) : (State.modPub s f).auth = s.auth := rfl
@[simp] theorem State.modPub_fw (s : State) (f : PubSt → PubSt) : (State.modPub s f).fw = s.fw := rfl
@[simp] theorem State.modPub_rep (s : State) (f : PubSt → PubSt) : (State.modPub s f).rep = s.rep := rfl
@[simp] theorem State.modPub_free (s : State) (f : PubSt → PubSt) : (State.modPub s f).free = s.free := rfl
@[simp] theorem State.modPub_pub (s : State) (f : PubSt → PubSt) : (State.modPub s f).pub = f s.pub := rfl

/-! ### Sampling -/

@[simp] theorem State.modSensor_pending (s : State) (n : Nat) (f : Sensor → Sensor) : (State.modSensor s n f).pending = s.pending := rfl
@[simp] theorem State.modSensor_build (s : State) (n : Nat) (f : Sensor → Sensor) : (State.modSensor s n f).build = s.build := rfl
@[simp] theorem State.modSensor_bs (s : State) (n : Nat) (f : Sensor → Sensor) : (State.modSensor s n f).bs = s.bs := rfl
@[simp] theorem State.modSensor_regs (s : State) (n : Nat) (f : Sensor → Sensor) : (State.modSensor s n f).regs = s.regs := rfl
@[simp] theorem State.modSensor_core (s : State) (n : Nat) (f : Sensor → Sensor) : (State.modSensor s n f).core = s.core := rfl
@[simp] theorem State.modSensor_time (s : State) (n : Nat) (f : Sensor → Sensor) : (State.modSensor s n f).time = s.time := rfl
@[simp] theorem State.modSensor_pulse (s : State) (n : Nat) (f : Sensor → Sensor) : (State.modSensor s n f).pulse = s.pulse := rfl
@[simp] theorem State.modSensor_ev (s : State) (n : Nat) (f : Sensor → Sensor) : (State.modSensor s n f).ev = s.ev := rfl
@[simp] theorem State.modSensor_link (s : State) (n : Nat) (f : Sensor → Sensor) : (State.modSensor s n f).link = s.link := rfl
@[simp] theorem State.modSensor_tally (s : State) (n : Nat) (f : Sensor → Sensor) : (State.modSensor s n f).tally = s.tally := rfl
@[simp] theorem State.modSensor_coal (s : State) (n : Nat) (f : Sensor → Sensor) : (State.modSensor s n f).coal = s.coal := rfl
@[simp] theorem State.modSensor_muster (s : State) (n : Nat) (f : Sensor → Sensor) : (State.modSensor s n f).muster = s.muster := rfl
@[simp] theorem State.modSensor_convoy (s : State) (n : Nat) (f : Sensor → Sensor) : (State.modSensor s n f).convoy = s.convoy := rfl
@[simp] theorem State.modSensor_feat (s : State) (n : Nat) (f : Sensor → Sensor) : (State.modSensor s n f).feat = s.feat := rfl
@[simp] theorem State.modSensor_tree (s : State) (n : Nat) (f : Sensor → Sensor) : (State.modSensor s n f).tree = s.tree := rfl
@[simp] theorem State.modSensor_out (s : State) (n : Nat) (f : Sensor → Sensor) : (State.modSensor s n f).out = s.out := rfl
@[simp] theorem State.modSensor_trace (s : State) (n : Nat) (f : Sensor → Sensor) : (State.modSensor s n f).trace = s.trace := rfl
@[simp] theorem State.modSensor_abft (s : State) (n : Nat) (f : Sensor → Sensor) : (State.modSensor s n f).abft = s.abft := rfl
@[simp] theorem State.modSensor_codec (s : State) (n : Nat) (f : Sensor → Sensor) : (State.modSensor s n f).codec = s.codec := rfl
@[simp] theorem State.modSensor_hang (s : State) (n : Nat) (f : Sensor → Sensor) : (State.modSensor s n f).hang = s.hang := rfl
@[simp] theorem State.modSensor_pub (s : State) (n : Nat) (f : Sensor → Sensor) : (State.modSensor s n f).pub = s.pub := rfl
@[simp] theorem State.modSensor_power (s : State) (n : Nat) (f : Sensor → Sensor) : (State.modSensor s n f).power = s.power := rfl
@[simp] theorem State.modSensor_drover (s : State) (n : Nat) (f : Sensor → Sensor) : (State.modSensor s n f).drover = s.drover := rfl
@[simp] theorem State.modSensor_auth (s : State) (n : Nat) (f : Sensor → Sensor) : (State.modSensor s n f).auth = s.auth := rfl
@[simp] theorem State.modSensor_fw (s : State) (n : Nat) (f : Sensor → Sensor) : (State.modSensor s n f).fw = s.fw := rfl
@[simp] theorem State.modSensor_rep (s : State) (n : Nat) (f : Sensor → Sensor) : (State.modSensor s n f).rep = s.rep := rfl
@[simp] theorem State.modSensor_free (s : State) (n : Nat) (f : Sensor → Sensor) : (State.modSensor s n f).free = s.free := rfl

@[simp] theorem State.setCtr_pending (s : State) (n v : Nat) : (State.setCtr s n v).pending = s.pending := rfl
@[simp] theorem State.setCtr_build (s : State) (n v : Nat) : (State.setCtr s n v).build = s.build := rfl
@[simp] theorem State.setCtr_bs (s : State) (n v : Nat) : (State.setCtr s n v).bs = s.bs := rfl
@[simp] theorem State.setCtr_regs (s : State) (n v : Nat) : (State.setCtr s n v).regs = s.regs := rfl
@[simp] theorem State.setCtr_core (s : State) (n v : Nat) : (State.setCtr s n v).core = s.core := rfl
@[simp] theorem State.setCtr_time (s : State) (n v : Nat) : (State.setCtr s n v).time = s.time := rfl
@[simp] theorem State.setCtr_pulse (s : State) (n v : Nat) : (State.setCtr s n v).pulse = s.pulse := rfl
@[simp] theorem State.setCtr_ev (s : State) (n v : Nat) : (State.setCtr s n v).ev = s.ev := rfl
@[simp] theorem State.setCtr_link (s : State) (n v : Nat) : (State.setCtr s n v).link = s.link := rfl
@[simp] theorem State.setCtr_tally (s : State) (n v : Nat) : (State.setCtr s n v).tally = s.tally := rfl
@[simp] theorem State.setCtr_coal (s : State) (n v : Nat) : (State.setCtr s n v).coal = s.coal := rfl
@[simp] theorem State.setCtr_muster (s : State) (n v : Nat) : (State.setCtr s n v).muster = s.muster := rfl
@[simp] theorem State.setCtr_convoy (s : State) (n v : Nat) : (State.setCtr s n v).convoy = s.convoy := rfl
@[simp] theorem State.setCtr_feat (s : State) (n v : Nat) : (State.setCtr s n v).feat = s.feat := rfl
@[simp] theorem State.setCtr_tree (s : State) (n v : Nat) : (State.setCtr s n v).tree = s.tree := rfl
@[simp] theorem State.setCtr_out (s : State) (n v : Nat) : (State.setCtr s n v).out = s.out := rfl
@[simp] theorem State.setCtr_trace (s : State) (n v : Nat) : (State.setCtr s n v).trace = s.trace := rfl
@[simp] theorem State.setCtr_abft (s : State) (n v : Nat) : (State.setCtr s n v).abft = s.abft := rfl
@[simp] theorem State.setCtr_codec (s : State) (n v : Nat) : (State.setCtr s n v).codec = s.codec := rfl
@[simp] theorem State.setCtr_hang (s : State) (n v : Nat) : (State.setCtr s n v).hang = s.hang := rfl
@[simp] theorem State.setCtr_pub (s : State) (n v : Nat) : (State.setCtr s n v).pub = s.pub := rfl
@[simp] theorem State.setCtr_power (s : State) (n v : Nat) : (State.setCtr s n v).power = s.power := rfl
@[simp] theorem State.setCtr_drover (s : State) (n v : Nat) : (State.setCtr s n v).drover = s.drover := rfl
@[simp] theorem State.setCtr_auth (s : State) (n v : Nat) : (State.setCtr s n v).auth = s.auth := rfl
@[simp] theorem State.setCtr_fw (s : State) (n v : Nat) : (State.setCtr s n v).fw = s.fw := rfl
@[simp] theorem State.setCtr_rep (s : State) (n v : Nat) : (State.setCtr s n v).rep = s.rep := rfl
@[simp] theorem State.setCtr_free (s : State) (n v : Nat) : (State.setCtr s n v).free = s.free := rfl

@[simp] theorem State.setTensor_pending (s : State) (w : Nat) (t : Tensor) : (State.setTensor s w t).pending = s.pending := rfl
@[simp] theorem State.setTensor_build (s : State) (w : Nat) (t : Tensor) : (State.setTensor s w t).build = s.build := rfl
@[simp] theorem State.setTensor_bs (s : State) (w : Nat) (t : Tensor) : (State.setTensor s w t).bs = s.bs := rfl
@[simp] theorem State.setTensor_regs (s : State) (w : Nat) (t : Tensor) : (State.setTensor s w t).regs = s.regs := rfl
@[simp] theorem State.setTensor_core (s : State) (w : Nat) (t : Tensor) : (State.setTensor s w t).core = s.core := rfl
@[simp] theorem State.setTensor_time (s : State) (w : Nat) (t : Tensor) : (State.setTensor s w t).time = s.time := rfl
@[simp] theorem State.setTensor_pulse (s : State) (w : Nat) (t : Tensor) : (State.setTensor s w t).pulse = s.pulse := rfl
@[simp] theorem State.setTensor_ev (s : State) (w : Nat) (t : Tensor) : (State.setTensor s w t).ev = s.ev := rfl
@[simp] theorem State.setTensor_link (s : State) (w : Nat) (t : Tensor) : (State.setTensor s w t).link = s.link := rfl
@[simp] theorem State.setTensor_tally (s : State) (w : Nat) (t : Tensor) : (State.setTensor s w t).tally = s.tally := rfl
@[simp] theorem State.setTensor_coal (s : State) (w : Nat) (t : Tensor) : (State.setTensor s w t).coal = s.coal := rfl
@[simp] theorem State.setTensor_muster (s : State) (w : Nat) (t : Tensor) : (State.setTensor s w t).muster = s.muster := rfl
@[simp] theorem State.setTensor_convoy (s : State) (w : Nat) (t : Tensor) : (State.setTensor s w t).convoy = s.convoy := rfl
@[simp] theorem State.setTensor_feat (s : State) (w : Nat) (t : Tensor) : (State.setTensor s w t).feat = s.feat := rfl
@[simp] theorem State.setTensor_tree (s : State) (w : Nat) (t : Tensor) : (State.setTensor s w t).tree = s.tree := rfl
@[simp] theorem State.setTensor_out (s : State) (w : Nat) (t : Tensor) : (State.setTensor s w t).out = s.out := rfl
@[simp] theorem State.setTensor_trace (s : State) (w : Nat) (t : Tensor) : (State.setTensor s w t).trace = s.trace := rfl
@[simp] theorem State.setTensor_abft (s : State) (w : Nat) (t : Tensor) : (State.setTensor s w t).abft = s.abft := rfl
@[simp] theorem State.setTensor_codec (s : State) (w : Nat) (t : Tensor) : (State.setTensor s w t).codec = s.codec := rfl
@[simp] theorem State.setTensor_hang (s : State) (w : Nat) (t : Tensor) : (State.setTensor s w t).hang = s.hang := rfl
@[simp] theorem State.setTensor_pub (s : State) (w : Nat) (t : Tensor) : (State.setTensor s w t).pub = s.pub := rfl
@[simp] theorem State.setTensor_power (s : State) (w : Nat) (t : Tensor) : (State.setTensor s w t).power = s.power := rfl
@[simp] theorem State.setTensor_drover (s : State) (w : Nat) (t : Tensor) : (State.setTensor s w t).drover = s.drover := rfl
@[simp] theorem State.setTensor_auth (s : State) (w : Nat) (t : Tensor) : (State.setTensor s w t).auth = s.auth := rfl
@[simp] theorem State.setTensor_fw (s : State) (w : Nat) (t : Tensor) : (State.setTensor s w t).fw = s.fw := rfl
@[simp] theorem State.setTensor_rep (s : State) (w : Nat) (t : Tensor) : (State.setTensor s w t).rep = s.rep := rfl
@[simp] theorem State.setTensor_free (s : State) (w : Nat) (t : Tensor) : (State.setTensor s w t).free = s.free := rfl

@[simp] theorem State.delTensor_pending (s : State) (w : Nat) : (State.delTensor s w).pending = s.pending := rfl
@[simp] theorem State.delTensor_build (s : State) (w : Nat) : (State.delTensor s w).build = s.build := rfl
@[simp] theorem State.delTensor_bs (s : State) (w : Nat) : (State.delTensor s w).bs = s.bs := rfl
@[simp] theorem State.delTensor_regs (s : State) (w : Nat) : (State.delTensor s w).regs = s.regs := rfl
@[simp] theorem State.delTensor_core (s : State) (w : Nat) : (State.delTensor s w).core = s.core := rfl
@[simp] theorem State.delTensor_time (s : State) (w : Nat) : (State.delTensor s w).time = s.time := rfl
@[simp] theorem State.delTensor_pulse (s : State) (w : Nat) : (State.delTensor s w).pulse = s.pulse := rfl
@[simp] theorem State.delTensor_ev (s : State) (w : Nat) : (State.delTensor s w).ev = s.ev := rfl
@[simp] theorem State.delTensor_link (s : State) (w : Nat) : (State.delTensor s w).link = s.link := rfl
@[simp] theorem State.delTensor_tally (s : State) (w : Nat) : (State.delTensor s w).tally = s.tally := rfl
@[simp] theorem State.delTensor_coal (s : State) (w : Nat) : (State.delTensor s w).coal = s.coal := rfl
@[simp] theorem State.delTensor_muster (s : State) (w : Nat) : (State.delTensor s w).muster = s.muster := rfl
@[simp] theorem State.delTensor_convoy (s : State) (w : Nat) : (State.delTensor s w).convoy = s.convoy := rfl
@[simp] theorem State.delTensor_feat (s : State) (w : Nat) : (State.delTensor s w).feat = s.feat := rfl
@[simp] theorem State.delTensor_tree (s : State) (w : Nat) : (State.delTensor s w).tree = s.tree := rfl
@[simp] theorem State.delTensor_out (s : State) (w : Nat) : (State.delTensor s w).out = s.out := rfl
@[simp] theorem State.delTensor_trace (s : State) (w : Nat) : (State.delTensor s w).trace = s.trace := rfl
@[simp] theorem State.delTensor_abft (s : State) (w : Nat) : (State.delTensor s w).abft = s.abft := rfl
@[simp] theorem State.delTensor_codec (s : State) (w : Nat) : (State.delTensor s w).codec = s.codec := rfl
@[simp] theorem State.delTensor_hang (s : State) (w : Nat) : (State.delTensor s w).hang = s.hang := rfl
@[simp] theorem State.delTensor_pub (s : State) (w : Nat) : (State.delTensor s w).pub = s.pub := rfl
@[simp] theorem State.delTensor_power (s : State) (w : Nat) : (State.delTensor s w).power = s.power := rfl
@[simp] theorem State.delTensor_drover (s : State) (w : Nat) : (State.delTensor s w).drover = s.drover := rfl
@[simp] theorem State.delTensor_auth (s : State) (w : Nat) : (State.delTensor s w).auth = s.auth := rfl
@[simp] theorem State.delTensor_fw (s : State) (w : Nat) : (State.delTensor s w).fw = s.fw := rfl
@[simp] theorem State.delTensor_rep (s : State) (w : Nat) : (State.delTensor s w).rep = s.rep := rfl
@[simp] theorem State.delTensor_free (s : State) (w : Nat) : (State.delTensor s w).free = s.free := rfl

/-! ### Convoy -/

@[simp] theorem State.modSlot_pending (s : State) (stream : Nat) (f : Slot → Slot) : (State.modSlot s stream f).pending = s.pending := rfl
@[simp] theorem State.modSlot_build (s : State) (stream : Nat) (f : Slot → Slot) : (State.modSlot s stream f).build = s.build := rfl
@[simp] theorem State.modSlot_bs (s : State) (stream : Nat) (f : Slot → Slot) : (State.modSlot s stream f).bs = s.bs := rfl
@[simp] theorem State.modSlot_regs (s : State) (stream : Nat) (f : Slot → Slot) : (State.modSlot s stream f).regs = s.regs := rfl
@[simp] theorem State.modSlot_core (s : State) (stream : Nat) (f : Slot → Slot) : (State.modSlot s stream f).core = s.core := rfl
@[simp] theorem State.modSlot_time (s : State) (stream : Nat) (f : Slot → Slot) : (State.modSlot s stream f).time = s.time := rfl
@[simp] theorem State.modSlot_pulse (s : State) (stream : Nat) (f : Slot → Slot) : (State.modSlot s stream f).pulse = s.pulse := rfl
@[simp] theorem State.modSlot_ev (s : State) (stream : Nat) (f : Slot → Slot) : (State.modSlot s stream f).ev = s.ev := rfl
@[simp] theorem State.modSlot_link (s : State) (stream : Nat) (f : Slot → Slot) : (State.modSlot s stream f).link = s.link := rfl
@[simp] theorem State.modSlot_tally (s : State) (stream : Nat) (f : Slot → Slot) : (State.modSlot s stream f).tally = s.tally := rfl
@[simp] theorem State.modSlot_coal (s : State) (stream : Nat) (f : Slot → Slot) : (State.modSlot s stream f).coal = s.coal := rfl
@[simp] theorem State.modSlot_samp (s : State) (stream : Nat) (f : Slot → Slot) : (State.modSlot s stream f).samp = s.samp := rfl
@[simp] theorem State.modSlot_muster (s : State) (stream : Nat) (f : Slot → Slot) : (State.modSlot s stream f).muster = s.muster := rfl
@[simp] theorem State.modSlot_feat (s : State) (stream : Nat) (f : Slot → Slot) : (State.modSlot s stream f).feat = s.feat := rfl
@[simp] theorem State.modSlot_tree (s : State) (stream : Nat) (f : Slot → Slot) : (State.modSlot s stream f).tree = s.tree := rfl
@[simp] theorem State.modSlot_out (s : State) (stream : Nat) (f : Slot → Slot) : (State.modSlot s stream f).out = s.out := rfl
@[simp] theorem State.modSlot_trace (s : State) (stream : Nat) (f : Slot → Slot) : (State.modSlot s stream f).trace = s.trace := rfl
@[simp] theorem State.modSlot_abft (s : State) (stream : Nat) (f : Slot → Slot) : (State.modSlot s stream f).abft = s.abft := rfl
@[simp] theorem State.modSlot_codec (s : State) (stream : Nat) (f : Slot → Slot) : (State.modSlot s stream f).codec = s.codec := rfl
@[simp] theorem State.modSlot_hang (s : State) (stream : Nat) (f : Slot → Slot) : (State.modSlot s stream f).hang = s.hang := rfl
@[simp] theorem State.modSlot_pub (s : State) (stream : Nat) (f : Slot → Slot) : (State.modSlot s stream f).pub = s.pub := rfl
@[simp] theorem State.modSlot_power (s : State) (stream : Nat) (f : Slot → Slot) : (State.modSlot s stream f).power = s.power := rfl
@[simp] theorem State.modSlot_drover (s : State) (stream : Nat) (f : Slot → Slot) : (State.modSlot s stream f).drover = s.drover := rfl
@[simp] theorem State.modSlot_auth (s : State) (stream : Nat) (f : Slot → Slot) : (State.modSlot s stream f).auth = s.auth := rfl
@[simp] theorem State.modSlot_fw (s : State) (stream : Nat) (f : Slot → Slot) : (State.modSlot s stream f).fw = s.fw := rfl
@[simp] theorem State.modSlot_rep (s : State) (stream : Nat) (f : Slot → Slot) : (State.modSlot s stream f).rep = s.rep := rfl
@[simp] theorem State.modSlot_free (s : State) (stream : Nat) (f : Slot → Slot) : (State.modSlot s stream f).free = s.free := rfl

@[simp] theorem State.workWait_pending (s : State) (w : ConvoyWork) : (State.workWait s w).pending = s.pending := rfl
@[simp] theorem State.workWait_build (s : State) (w : ConvoyWork) : (State.workWait s w).build = s.build := rfl
@[simp] theorem State.workWait_bs (s : State) (w : ConvoyWork) : (State.workWait s w).bs = s.bs := rfl
@[simp] theorem State.workWait_regs (s : State) (w : ConvoyWork) : (State.workWait s w).regs = s.regs := rfl
@[simp] theorem State.workWait_core (s : State) (w : ConvoyWork) : (State.workWait s w).core = s.core := rfl
@[simp] theorem State.workWait_time (s : State) (w : ConvoyWork) : (State.workWait s w).time = s.time := rfl
@[simp] theorem State.workWait_pulse (s : State) (w : ConvoyWork) : (State.workWait s w).pulse = s.pulse := rfl
@[simp] theorem State.workWait_ev (s : State) (w : ConvoyWork) : (State.workWait s w).ev = s.ev := rfl
@[simp] theorem State.workWait_link (s : State) (w : ConvoyWork) : (State.workWait s w).link = s.link := rfl
@[simp] theorem State.workWait_tally (s : State) (w : ConvoyWork) : (State.workWait s w).tally = s.tally := rfl
@[simp] theorem State.workWait_coal (s : State) (w : ConvoyWork) : (State.workWait s w).coal = s.coal := rfl
@[simp] theorem State.workWait_samp (s : State) (w : ConvoyWork) : (State.workWait s w).samp = s.samp := rfl
@[simp] theorem State.workWait_muster (s : State) (w : ConvoyWork) : (State.workWait s w).muster = s.muster := rfl
@[simp] theorem State.workWait_feat (s : State) (w : ConvoyWork) : (State.workWait s w).feat = s.feat := rfl
@[simp] theorem State.workWait_tree (s : State) (w : ConvoyWork) : (State.workWait s w).tree = s.tree := rfl
@[simp] theorem State.workWait_out (s : State) (w : ConvoyWork) : (State.workWait s w).out = s.out := rfl
@[simp] theorem State.workWait_trace (s : State) (w : ConvoyWork) : (State.workWait s w).trace = s.trace := rfl
@[simp] theorem State.workWait_abft (s : State) (w : ConvoyWork) : (State.workWait s w).abft = s.abft := rfl
@[simp] theorem State.workWait_codec (s : State) (w : ConvoyWork) : (State.workWait s w).codec = s.codec := rfl
@[simp] theorem State.workWait_hang (s : State) (w : ConvoyWork) : (State.workWait s w).hang = s.hang := rfl
@[simp] theorem State.workWait_pub (s : State) (w : ConvoyWork) : (State.workWait s w).pub = s.pub := rfl
@[simp] theorem State.workWait_power (s : State) (w : ConvoyWork) : (State.workWait s w).power = s.power := rfl
@[simp] theorem State.workWait_drover (s : State) (w : ConvoyWork) : (State.workWait s w).drover = s.drover := rfl
@[simp] theorem State.workWait_auth (s : State) (w : ConvoyWork) : (State.workWait s w).auth = s.auth := rfl
@[simp] theorem State.workWait_fw (s : State) (w : ConvoyWork) : (State.workWait s w).fw = s.fw := rfl
@[simp] theorem State.workWait_rep (s : State) (w : ConvoyWork) : (State.workWait s w).rep = s.rep := rfl
@[simp] theorem State.workWait_free (s : State) (w : ConvoyWork) : (State.workWait s w).free = s.free := rfl

/-! ### Thermal -/

@[simp] theorem State.setEmerg_pending (s : State) (n : Nat) : (State.setEmerg s n).pending = s.pending := rfl
@[simp] theorem State.setEmerg_build (s : State) (n : Nat) : (State.setEmerg s n).build = s.build := rfl
@[simp] theorem State.setEmerg_bs (s : State) (n : Nat) : (State.setEmerg s n).bs = s.bs := rfl
@[simp] theorem State.setEmerg_regs (s : State) (n : Nat) : (State.setEmerg s n).regs = s.regs := rfl
@[simp] theorem State.setEmerg_core (s : State) (n : Nat) : (State.setEmerg s n).core = s.core := rfl
@[simp] theorem State.setEmerg_time (s : State) (n : Nat) : (State.setEmerg s n).time = s.time := rfl
@[simp] theorem State.setEmerg_pulse (s : State) (n : Nat) : (State.setEmerg s n).pulse = s.pulse := rfl
@[simp] theorem State.setEmerg_ev (s : State) (n : Nat) : (State.setEmerg s n).ev = s.ev := rfl
@[simp] theorem State.setEmerg_link (s : State) (n : Nat) : (State.setEmerg s n).link = s.link := rfl
@[simp] theorem State.setEmerg_tally (s : State) (n : Nat) : (State.setEmerg s n).tally = s.tally := rfl
@[simp] theorem State.setEmerg_coal (s : State) (n : Nat) : (State.setEmerg s n).coal = s.coal := rfl
@[simp] theorem State.setEmerg_samp (s : State) (n : Nat) : (State.setEmerg s n).samp = s.samp := rfl
@[simp] theorem State.setEmerg_muster (s : State) (n : Nat) : (State.setEmerg s n).muster = s.muster := rfl
@[simp] theorem State.setEmerg_convoy (s : State) (n : Nat) : (State.setEmerg s n).convoy = s.convoy := rfl
@[simp] theorem State.setEmerg_feat (s : State) (n : Nat) : (State.setEmerg s n).feat = s.feat := rfl
@[simp] theorem State.setEmerg_tree (s : State) (n : Nat) : (State.setEmerg s n).tree = s.tree := rfl
@[simp] theorem State.setEmerg_out (s : State) (n : Nat) : (State.setEmerg s n).out = s.out := rfl
@[simp] theorem State.setEmerg_trace (s : State) (n : Nat) : (State.setEmerg s n).trace = s.trace := rfl
@[simp] theorem State.setEmerg_abft (s : State) (n : Nat) : (State.setEmerg s n).abft = s.abft := rfl
@[simp] theorem State.setEmerg_codec (s : State) (n : Nat) : (State.setEmerg s n).codec = s.codec := rfl
@[simp] theorem State.setEmerg_hang (s : State) (n : Nat) : (State.setEmerg s n).hang = s.hang := rfl
@[simp] theorem State.setEmerg_pub (s : State) (n : Nat) : (State.setEmerg s n).pub = s.pub := rfl
@[simp] theorem State.setEmerg_power (s : State) (n : Nat) : (State.setEmerg s n).power = s.power := rfl
@[simp] theorem State.setEmerg_auth (s : State) (n : Nat) : (State.setEmerg s n).auth = s.auth := rfl
@[simp] theorem State.setEmerg_fw (s : State) (n : Nat) : (State.setEmerg s n).fw = s.fw := rfl
@[simp] theorem State.setEmerg_rep (s : State) (n : Nat) : (State.setEmerg s n).rep = s.rep := rfl
@[simp] theorem State.setEmerg_free (s : State) (n : Nat) : (State.setEmerg s n).free = s.free := rfl

@[simp] theorem State.modTherm_pending (s : State) (m : Nat) (f : Therm → Therm) : (State.modTherm s m f).pending = s.pending := rfl
@[simp] theorem State.modTherm_build (s : State) (m : Nat) (f : Therm → Therm) : (State.modTherm s m f).build = s.build := rfl
@[simp] theorem State.modTherm_bs (s : State) (m : Nat) (f : Therm → Therm) : (State.modTherm s m f).bs = s.bs := rfl
@[simp] theorem State.modTherm_regs (s : State) (m : Nat) (f : Therm → Therm) : (State.modTherm s m f).regs = s.regs := rfl
@[simp] theorem State.modTherm_core (s : State) (m : Nat) (f : Therm → Therm) : (State.modTherm s m f).core = s.core := rfl
@[simp] theorem State.modTherm_time (s : State) (m : Nat) (f : Therm → Therm) : (State.modTherm s m f).time = s.time := rfl
@[simp] theorem State.modTherm_pulse (s : State) (m : Nat) (f : Therm → Therm) : (State.modTherm s m f).pulse = s.pulse := rfl
@[simp] theorem State.modTherm_ev (s : State) (m : Nat) (f : Therm → Therm) : (State.modTherm s m f).ev = s.ev := rfl
@[simp] theorem State.modTherm_link (s : State) (m : Nat) (f : Therm → Therm) : (State.modTherm s m f).link = s.link := rfl
@[simp] theorem State.modTherm_tally (s : State) (m : Nat) (f : Therm → Therm) : (State.modTherm s m f).tally = s.tally := rfl
@[simp] theorem State.modTherm_coal (s : State) (m : Nat) (f : Therm → Therm) : (State.modTherm s m f).coal = s.coal := rfl
@[simp] theorem State.modTherm_samp (s : State) (m : Nat) (f : Therm → Therm) : (State.modTherm s m f).samp = s.samp := rfl
@[simp] theorem State.modTherm_muster (s : State) (m : Nat) (f : Therm → Therm) : (State.modTherm s m f).muster = s.muster := rfl
@[simp] theorem State.modTherm_convoy (s : State) (m : Nat) (f : Therm → Therm) : (State.modTherm s m f).convoy = s.convoy := rfl
@[simp] theorem State.modTherm_feat (s : State) (m : Nat) (f : Therm → Therm) : (State.modTherm s m f).feat = s.feat := rfl
@[simp] theorem State.modTherm_tree (s : State) (m : Nat) (f : Therm → Therm) : (State.modTherm s m f).tree = s.tree := rfl
@[simp] theorem State.modTherm_out (s : State) (m : Nat) (f : Therm → Therm) : (State.modTherm s m f).out = s.out := rfl
@[simp] theorem State.modTherm_trace (s : State) (m : Nat) (f : Therm → Therm) : (State.modTherm s m f).trace = s.trace := rfl
@[simp] theorem State.modTherm_abft (s : State) (m : Nat) (f : Therm → Therm) : (State.modTherm s m f).abft = s.abft := rfl
@[simp] theorem State.modTherm_codec (s : State) (m : Nat) (f : Therm → Therm) : (State.modTherm s m f).codec = s.codec := rfl
@[simp] theorem State.modTherm_hang (s : State) (m : Nat) (f : Therm → Therm) : (State.modTherm s m f).hang = s.hang := rfl
@[simp] theorem State.modTherm_pub (s : State) (m : Nat) (f : Therm → Therm) : (State.modTherm s m f).pub = s.pub := rfl
@[simp] theorem State.modTherm_power (s : State) (m : Nat) (f : Therm → Therm) : (State.modTherm s m f).power = s.power := rfl
@[simp] theorem State.modTherm_auth (s : State) (m : Nat) (f : Therm → Therm) : (State.modTherm s m f).auth = s.auth := rfl
@[simp] theorem State.modTherm_fw (s : State) (m : Nat) (f : Therm → Therm) : (State.modTherm s m f).fw = s.fw := rfl
@[simp] theorem State.modTherm_rep (s : State) (m : Nat) (f : Therm → Therm) : (State.modTherm s m f).rep = s.rep := rfl
@[simp] theorem State.modTherm_free (s : State) (m : Nat) (f : Therm → Therm) : (State.modTherm s m f).free = s.free := rfl

/-! ### Outrider -/

@[simp] theorem State.modDie_pending (s : State) (i : Nat) (f : DieEnt → DieEnt) : (State.modDie s i f).pending = s.pending := rfl
@[simp] theorem State.modDie_build (s : State) (i : Nat) (f : DieEnt → DieEnt) : (State.modDie s i f).build = s.build := rfl
@[simp] theorem State.modDie_bs (s : State) (i : Nat) (f : DieEnt → DieEnt) : (State.modDie s i f).bs = s.bs := rfl
@[simp] theorem State.modDie_regs (s : State) (i : Nat) (f : DieEnt → DieEnt) : (State.modDie s i f).regs = s.regs := rfl
@[simp] theorem State.modDie_core (s : State) (i : Nat) (f : DieEnt → DieEnt) : (State.modDie s i f).core = s.core := rfl
@[simp] theorem State.modDie_time (s : State) (i : Nat) (f : DieEnt → DieEnt) : (State.modDie s i f).time = s.time := rfl
@[simp] theorem State.modDie_pulse (s : State) (i : Nat) (f : DieEnt → DieEnt) : (State.modDie s i f).pulse = s.pulse := rfl
@[simp] theorem State.modDie_ev (s : State) (i : Nat) (f : DieEnt → DieEnt) : (State.modDie s i f).ev = s.ev := rfl
@[simp] theorem State.modDie_link (s : State) (i : Nat) (f : DieEnt → DieEnt) : (State.modDie s i f).link = s.link := rfl
@[simp] theorem State.modDie_tally (s : State) (i : Nat) (f : DieEnt → DieEnt) : (State.modDie s i f).tally = s.tally := rfl
@[simp] theorem State.modDie_coal (s : State) (i : Nat) (f : DieEnt → DieEnt) : (State.modDie s i f).coal = s.coal := rfl
@[simp] theorem State.modDie_samp (s : State) (i : Nat) (f : DieEnt → DieEnt) : (State.modDie s i f).samp = s.samp := rfl
@[simp] theorem State.modDie_muster (s : State) (i : Nat) (f : DieEnt → DieEnt) : (State.modDie s i f).muster = s.muster := rfl
@[simp] theorem State.modDie_convoy (s : State) (i : Nat) (f : DieEnt → DieEnt) : (State.modDie s i f).convoy = s.convoy := rfl
@[simp] theorem State.modDie_feat (s : State) (i : Nat) (f : DieEnt → DieEnt) : (State.modDie s i f).feat = s.feat := rfl
@[simp] theorem State.modDie_tree (s : State) (i : Nat) (f : DieEnt → DieEnt) : (State.modDie s i f).tree = s.tree := rfl
@[simp] theorem State.modDie_trace (s : State) (i : Nat) (f : DieEnt → DieEnt) : (State.modDie s i f).trace = s.trace := rfl
@[simp] theorem State.modDie_abft (s : State) (i : Nat) (f : DieEnt → DieEnt) : (State.modDie s i f).abft = s.abft := rfl
@[simp] theorem State.modDie_codec (s : State) (i : Nat) (f : DieEnt → DieEnt) : (State.modDie s i f).codec = s.codec := rfl
@[simp] theorem State.modDie_hang (s : State) (i : Nat) (f : DieEnt → DieEnt) : (State.modDie s i f).hang = s.hang := rfl
@[simp] theorem State.modDie_pub (s : State) (i : Nat) (f : DieEnt → DieEnt) : (State.modDie s i f).pub = s.pub := rfl
@[simp] theorem State.modDie_power (s : State) (i : Nat) (f : DieEnt → DieEnt) : (State.modDie s i f).power = s.power := rfl
@[simp] theorem State.modDie_drover (s : State) (i : Nat) (f : DieEnt → DieEnt) : (State.modDie s i f).drover = s.drover := rfl
@[simp] theorem State.modDie_auth (s : State) (i : Nat) (f : DieEnt → DieEnt) : (State.modDie s i f).auth = s.auth := rfl
@[simp] theorem State.modDie_fw (s : State) (i : Nat) (f : DieEnt → DieEnt) : (State.modDie s i f).fw = s.fw := rfl
@[simp] theorem State.modDie_rep (s : State) (i : Nat) (f : DieEnt → DieEnt) : (State.modDie s i f).rep = s.rep := rfl
@[simp] theorem State.modDie_free (s : State) (i : Nat) (f : DieEnt → DieEnt) : (State.modDie s i f).free = s.free := rfl

@[simp] theorem State.setDeferred_pending (s : State) (l : List DefEnt) : (State.setDeferred s l).pending = s.pending := rfl
@[simp] theorem State.setDeferred_build (s : State) (l : List DefEnt) : (State.setDeferred s l).build = s.build := rfl
@[simp] theorem State.setDeferred_bs (s : State) (l : List DefEnt) : (State.setDeferred s l).bs = s.bs := rfl
@[simp] theorem State.setDeferred_regs (s : State) (l : List DefEnt) : (State.setDeferred s l).regs = s.regs := rfl
@[simp] theorem State.setDeferred_core (s : State) (l : List DefEnt) : (State.setDeferred s l).core = s.core := rfl
@[simp] theorem State.setDeferred_time (s : State) (l : List DefEnt) : (State.setDeferred s l).time = s.time := rfl
@[simp] theorem State.setDeferred_pulse (s : State) (l : List DefEnt) : (State.setDeferred s l).pulse = s.pulse := rfl
@[simp] theorem State.setDeferred_ev (s : State) (l : List DefEnt) : (State.setDeferred s l).ev = s.ev := rfl
@[simp] theorem State.setDeferred_link (s : State) (l : List DefEnt) : (State.setDeferred s l).link = s.link := rfl
@[simp] theorem State.setDeferred_tally (s : State) (l : List DefEnt) : (State.setDeferred s l).tally = s.tally := rfl
@[simp] theorem State.setDeferred_coal (s : State) (l : List DefEnt) : (State.setDeferred s l).coal = s.coal := rfl
@[simp] theorem State.setDeferred_samp (s : State) (l : List DefEnt) : (State.setDeferred s l).samp = s.samp := rfl
@[simp] theorem State.setDeferred_muster (s : State) (l : List DefEnt) : (State.setDeferred s l).muster = s.muster := rfl
@[simp] theorem State.setDeferred_convoy (s : State) (l : List DefEnt) : (State.setDeferred s l).convoy = s.convoy := rfl
@[simp] theorem State.setDeferred_feat (s : State) (l : List DefEnt) : (State.setDeferred s l).feat = s.feat := rfl
@[simp] theorem State.setDeferred_tree (s : State) (l : List DefEnt) : (State.setDeferred s l).tree = s.tree := rfl
@[simp] theorem State.setDeferred_trace (s : State) (l : List DefEnt) : (State.setDeferred s l).trace = s.trace := rfl
@[simp] theorem State.setDeferred_abft (s : State) (l : List DefEnt) : (State.setDeferred s l).abft = s.abft := rfl
@[simp] theorem State.setDeferred_codec (s : State) (l : List DefEnt) : (State.setDeferred s l).codec = s.codec := rfl
@[simp] theorem State.setDeferred_hang (s : State) (l : List DefEnt) : (State.setDeferred s l).hang = s.hang := rfl
@[simp] theorem State.setDeferred_pub (s : State) (l : List DefEnt) : (State.setDeferred s l).pub = s.pub := rfl
@[simp] theorem State.setDeferred_power (s : State) (l : List DefEnt) : (State.setDeferred s l).power = s.power := rfl
@[simp] theorem State.setDeferred_drover (s : State) (l : List DefEnt) : (State.setDeferred s l).drover = s.drover := rfl
@[simp] theorem State.setDeferred_auth (s : State) (l : List DefEnt) : (State.setDeferred s l).auth = s.auth := rfl
@[simp] theorem State.setDeferred_fw (s : State) (l : List DefEnt) : (State.setDeferred s l).fw = s.fw := rfl
@[simp] theorem State.setDeferred_rep (s : State) (l : List DefEnt) : (State.setDeferred s l).rep = s.rep := rfl
@[simp] theorem State.setDeferred_free (s : State) (l : List DefEnt) : (State.setDeferred s l).free = s.free := rfl

/-! ### Trees -/

@[simp] theorem State.modTslot_pending (s : State) (k : Nat) (f : TSlot → TSlot) : (State.modTslot s k f).pending = s.pending := rfl
@[simp] theorem State.modTslot_build (s : State) (k : Nat) (f : TSlot → TSlot) : (State.modTslot s k f).build = s.build := rfl
@[simp] theorem State.modTslot_bs (s : State) (k : Nat) (f : TSlot → TSlot) : (State.modTslot s k f).bs = s.bs := rfl
@[simp] theorem State.modTslot_regs (s : State) (k : Nat) (f : TSlot → TSlot) : (State.modTslot s k f).regs = s.regs := rfl
@[simp] theorem State.modTslot_core (s : State) (k : Nat) (f : TSlot → TSlot) : (State.modTslot s k f).core = s.core := rfl
@[simp] theorem State.modTslot_time (s : State) (k : Nat) (f : TSlot → TSlot) : (State.modTslot s k f).time = s.time := rfl
@[simp] theorem State.modTslot_pulse (s : State) (k : Nat) (f : TSlot → TSlot) : (State.modTslot s k f).pulse = s.pulse := rfl
@[simp] theorem State.modTslot_ev (s : State) (k : Nat) (f : TSlot → TSlot) : (State.modTslot s k f).ev = s.ev := rfl
@[simp] theorem State.modTslot_link (s : State) (k : Nat) (f : TSlot → TSlot) : (State.modTslot s k f).link = s.link := rfl
@[simp] theorem State.modTslot_tally (s : State) (k : Nat) (f : TSlot → TSlot) : (State.modTslot s k f).tally = s.tally := rfl
@[simp] theorem State.modTslot_coal (s : State) (k : Nat) (f : TSlot → TSlot) : (State.modTslot s k f).coal = s.coal := rfl
@[simp] theorem State.modTslot_samp (s : State) (k : Nat) (f : TSlot → TSlot) : (State.modTslot s k f).samp = s.samp := rfl
@[simp] theorem State.modTslot_muster (s : State) (k : Nat) (f : TSlot → TSlot) : (State.modTslot s k f).muster = s.muster := rfl
@[simp] theorem State.modTslot_convoy (s : State) (k : Nat) (f : TSlot → TSlot) : (State.modTslot s k f).convoy = s.convoy := rfl
@[simp] theorem State.modTslot_feat (s : State) (k : Nat) (f : TSlot → TSlot) : (State.modTslot s k f).feat = s.feat := rfl
@[simp] theorem State.modTslot_out (s : State) (k : Nat) (f : TSlot → TSlot) : (State.modTslot s k f).out = s.out := rfl
@[simp] theorem State.modTslot_trace (s : State) (k : Nat) (f : TSlot → TSlot) : (State.modTslot s k f).trace = s.trace := rfl
@[simp] theorem State.modTslot_abft (s : State) (k : Nat) (f : TSlot → TSlot) : (State.modTslot s k f).abft = s.abft := rfl
@[simp] theorem State.modTslot_codec (s : State) (k : Nat) (f : TSlot → TSlot) : (State.modTslot s k f).codec = s.codec := rfl
@[simp] theorem State.modTslot_hang (s : State) (k : Nat) (f : TSlot → TSlot) : (State.modTslot s k f).hang = s.hang := rfl
@[simp] theorem State.modTslot_pub (s : State) (k : Nat) (f : TSlot → TSlot) : (State.modTslot s k f).pub = s.pub := rfl
@[simp] theorem State.modTslot_power (s : State) (k : Nat) (f : TSlot → TSlot) : (State.modTslot s k f).power = s.power := rfl
@[simp] theorem State.modTslot_drover (s : State) (k : Nat) (f : TSlot → TSlot) : (State.modTslot s k f).drover = s.drover := rfl
@[simp] theorem State.modTslot_auth (s : State) (k : Nat) (f : TSlot → TSlot) : (State.modTslot s k f).auth = s.auth := rfl
@[simp] theorem State.modTslot_fw (s : State) (k : Nat) (f : TSlot → TSlot) : (State.modTslot s k f).fw = s.fw := rfl
@[simp] theorem State.modTslot_rep (s : State) (k : Nat) (f : TSlot → TSlot) : (State.modTslot s k f).rep = s.rep := rfl
@[simp] theorem State.modTslot_free (s : State) (k : Nat) (f : TSlot → TSlot) : (State.modTslot s k f).free = s.free := rfl

/-! ### Abft -/

@[simp] theorem State.modAbft_pending (s : State) (f : AbftSt → AbftSt) : (State.modAbft s f).pending = s.pending := rfl
@[simp] theorem State.modAbft_build (s : State) (f : AbftSt → AbftSt) : (State.modAbft s f).build = s.build := rfl
@[simp] theorem State.modAbft_bs (s : State) (f : AbftSt → AbftSt) : (State.modAbft s f).bs = s.bs := rfl
@[simp] theorem State.modAbft_regs (s : State) (f : AbftSt → AbftSt) : (State.modAbft s f).regs = s.regs := rfl
@[simp] theorem State.modAbft_core (s : State) (f : AbftSt → AbftSt) : (State.modAbft s f).core = s.core := rfl
@[simp] theorem State.modAbft_time (s : State) (f : AbftSt → AbftSt) : (State.modAbft s f).time = s.time := rfl
@[simp] theorem State.modAbft_pulse (s : State) (f : AbftSt → AbftSt) : (State.modAbft s f).pulse = s.pulse := rfl
@[simp] theorem State.modAbft_ev (s : State) (f : AbftSt → AbftSt) : (State.modAbft s f).ev = s.ev := rfl
@[simp] theorem State.modAbft_link (s : State) (f : AbftSt → AbftSt) : (State.modAbft s f).link = s.link := rfl
@[simp] theorem State.modAbft_tally (s : State) (f : AbftSt → AbftSt) : (State.modAbft s f).tally = s.tally := rfl
@[simp] theorem State.modAbft_coal (s : State) (f : AbftSt → AbftSt) : (State.modAbft s f).coal = s.coal := rfl
@[simp] theorem State.modAbft_samp (s : State) (f : AbftSt → AbftSt) : (State.modAbft s f).samp = s.samp := rfl
@[simp] theorem State.modAbft_muster (s : State) (f : AbftSt → AbftSt) : (State.modAbft s f).muster = s.muster := rfl
@[simp] theorem State.modAbft_convoy (s : State) (f : AbftSt → AbftSt) : (State.modAbft s f).convoy = s.convoy := rfl
@[simp] theorem State.modAbft_feat (s : State) (f : AbftSt → AbftSt) : (State.modAbft s f).feat = s.feat := rfl
@[simp] theorem State.modAbft_tree (s : State) (f : AbftSt → AbftSt) : (State.modAbft s f).tree = s.tree := rfl
@[simp] theorem State.modAbft_out (s : State) (f : AbftSt → AbftSt) : (State.modAbft s f).out = s.out := rfl
@[simp] theorem State.modAbft_trace (s : State) (f : AbftSt → AbftSt) : (State.modAbft s f).trace = s.trace := rfl
@[simp] theorem State.modAbft_codec (s : State) (f : AbftSt → AbftSt) : (State.modAbft s f).codec = s.codec := rfl
@[simp] theorem State.modAbft_hang (s : State) (f : AbftSt → AbftSt) : (State.modAbft s f).hang = s.hang := rfl
@[simp] theorem State.modAbft_pub (s : State) (f : AbftSt → AbftSt) : (State.modAbft s f).pub = s.pub := rfl
@[simp] theorem State.modAbft_power (s : State) (f : AbftSt → AbftSt) : (State.modAbft s f).power = s.power := rfl
@[simp] theorem State.modAbft_drover (s : State) (f : AbftSt → AbftSt) : (State.modAbft s f).drover = s.drover := rfl
@[simp] theorem State.modAbft_auth (s : State) (f : AbftSt → AbftSt) : (State.modAbft s f).auth = s.auth := rfl
@[simp] theorem State.modAbft_fw (s : State) (f : AbftSt → AbftSt) : (State.modAbft s f).fw = s.fw := rfl
@[simp] theorem State.modAbft_rep (s : State) (f : AbftSt → AbftSt) : (State.modAbft s f).rep = s.rep := rfl
@[simp] theorem State.modAbft_free (s : State) (f : AbftSt → AbftSt) : (State.modAbft s f).free = s.free := rfl
@[simp] theorem State.modAbft_abft (s : State) (f : AbftSt → AbftSt) : (State.modAbft s f).abft = f s.abft := rfl

@[simp] theorem State.modPlace_pending (s : State) (q : Nat) (f : PatPlace → PatPlace) : (State.modPlace s q f).pending = s.pending := rfl
@[simp] theorem State.modPlace_build (s : State) (q : Nat) (f : PatPlace → PatPlace) : (State.modPlace s q f).build = s.build := rfl
@[simp] theorem State.modPlace_bs (s : State) (q : Nat) (f : PatPlace → PatPlace) : (State.modPlace s q f).bs = s.bs := rfl
@[simp] theorem State.modPlace_regs (s : State) (q : Nat) (f : PatPlace → PatPlace) : (State.modPlace s q f).regs = s.regs := rfl
@[simp] theorem State.modPlace_core (s : State) (q : Nat) (f : PatPlace → PatPlace) : (State.modPlace s q f).core = s.core := rfl
@[simp] theorem State.modPlace_time (s : State) (q : Nat) (f : PatPlace → PatPlace) : (State.modPlace s q f).time = s.time := rfl
@[simp] theorem State.modPlace_pulse (s : State) (q : Nat) (f : PatPlace → PatPlace) : (State.modPlace s q f).pulse = s.pulse := rfl
@[simp] theorem State.modPlace_ev (s : State) (q : Nat) (f : PatPlace → PatPlace) : (State.modPlace s q f).ev = s.ev := rfl
@[simp] theorem State.modPlace_link (s : State) (q : Nat) (f : PatPlace → PatPlace) : (State.modPlace s q f).link = s.link := rfl
@[simp] theorem State.modPlace_tally (s : State) (q : Nat) (f : PatPlace → PatPlace) : (State.modPlace s q f).tally = s.tally := rfl
@[simp] theorem State.modPlace_coal (s : State) (q : Nat) (f : PatPlace → PatPlace) : (State.modPlace s q f).coal = s.coal := rfl
@[simp] theorem State.modPlace_samp (s : State) (q : Nat) (f : PatPlace → PatPlace) : (State.modPlace s q f).samp = s.samp := rfl
@[simp] theorem State.modPlace_muster (s : State) (q : Nat) (f : PatPlace → PatPlace) : (State.modPlace s q f).muster = s.muster := rfl
@[simp] theorem State.modPlace_convoy (s : State) (q : Nat) (f : PatPlace → PatPlace) : (State.modPlace s q f).convoy = s.convoy := rfl
@[simp] theorem State.modPlace_feat (s : State) (q : Nat) (f : PatPlace → PatPlace) : (State.modPlace s q f).feat = s.feat := rfl
@[simp] theorem State.modPlace_tree (s : State) (q : Nat) (f : PatPlace → PatPlace) : (State.modPlace s q f).tree = s.tree := rfl
@[simp] theorem State.modPlace_out (s : State) (q : Nat) (f : PatPlace → PatPlace) : (State.modPlace s q f).out = s.out := rfl
@[simp] theorem State.modPlace_trace (s : State) (q : Nat) (f : PatPlace → PatPlace) : (State.modPlace s q f).trace = s.trace := rfl
@[simp] theorem State.modPlace_codec (s : State) (q : Nat) (f : PatPlace → PatPlace) : (State.modPlace s q f).codec = s.codec := rfl
@[simp] theorem State.modPlace_hang (s : State) (q : Nat) (f : PatPlace → PatPlace) : (State.modPlace s q f).hang = s.hang := rfl
@[simp] theorem State.modPlace_pub (s : State) (q : Nat) (f : PatPlace → PatPlace) : (State.modPlace s q f).pub = s.pub := rfl
@[simp] theorem State.modPlace_power (s : State) (q : Nat) (f : PatPlace → PatPlace) : (State.modPlace s q f).power = s.power := rfl
@[simp] theorem State.modPlace_drover (s : State) (q : Nat) (f : PatPlace → PatPlace) : (State.modPlace s q f).drover = s.drover := rfl
@[simp] theorem State.modPlace_auth (s : State) (q : Nat) (f : PatPlace → PatPlace) : (State.modPlace s q f).auth = s.auth := rfl
@[simp] theorem State.modPlace_fw (s : State) (q : Nat) (f : PatPlace → PatPlace) : (State.modPlace s q f).fw = s.fw := rfl
@[simp] theorem State.modPlace_rep (s : State) (q : Nat) (f : PatPlace → PatPlace) : (State.modPlace s q f).rep = s.rep := rfl
@[simp] theorem State.modPlace_free (s : State) (q : Nat) (f : PatPlace → PatPlace) : (State.modPlace s q f).free = s.free := rfl

/-! ### Muster -/

@[simp] theorem State.modMuster_pending (s : State) (f : MusterSt → MusterSt) : (State.modMuster s f).pending = s.pending := rfl
@[simp] theorem State.modMuster_build (s : State) (f : MusterSt → MusterSt) : (State.modMuster s f).build = s.build := rfl
@[simp] theorem State.modMuster_bs (s : State) (f : MusterSt → MusterSt) : (State.modMuster s f).bs = s.bs := rfl
@[simp] theorem State.modMuster_regs (s : State) (f : MusterSt → MusterSt) : (State.modMuster s f).regs = s.regs := rfl
@[simp] theorem State.modMuster_core (s : State) (f : MusterSt → MusterSt) : (State.modMuster s f).core = s.core := rfl
@[simp] theorem State.modMuster_time (s : State) (f : MusterSt → MusterSt) : (State.modMuster s f).time = s.time := rfl
@[simp] theorem State.modMuster_pulse (s : State) (f : MusterSt → MusterSt) : (State.modMuster s f).pulse = s.pulse := rfl
@[simp] theorem State.modMuster_ev (s : State) (f : MusterSt → MusterSt) : (State.modMuster s f).ev = s.ev := rfl
@[simp] theorem State.modMuster_link (s : State) (f : MusterSt → MusterSt) : (State.modMuster s f).link = s.link := rfl
@[simp] theorem State.modMuster_tally (s : State) (f : MusterSt → MusterSt) : (State.modMuster s f).tally = s.tally := rfl
@[simp] theorem State.modMuster_coal (s : State) (f : MusterSt → MusterSt) : (State.modMuster s f).coal = s.coal := rfl
@[simp] theorem State.modMuster_samp (s : State) (f : MusterSt → MusterSt) : (State.modMuster s f).samp = s.samp := rfl
@[simp] theorem State.modMuster_convoy (s : State) (f : MusterSt → MusterSt) : (State.modMuster s f).convoy = s.convoy := rfl
@[simp] theorem State.modMuster_feat (s : State) (f : MusterSt → MusterSt) : (State.modMuster s f).feat = s.feat := rfl
@[simp] theorem State.modMuster_tree (s : State) (f : MusterSt → MusterSt) : (State.modMuster s f).tree = s.tree := rfl
@[simp] theorem State.modMuster_out (s : State) (f : MusterSt → MusterSt) : (State.modMuster s f).out = s.out := rfl
@[simp] theorem State.modMuster_trace (s : State) (f : MusterSt → MusterSt) : (State.modMuster s f).trace = s.trace := rfl
@[simp] theorem State.modMuster_abft (s : State) (f : MusterSt → MusterSt) : (State.modMuster s f).abft = s.abft := rfl
@[simp] theorem State.modMuster_codec (s : State) (f : MusterSt → MusterSt) : (State.modMuster s f).codec = s.codec := rfl
@[simp] theorem State.modMuster_hang (s : State) (f : MusterSt → MusterSt) : (State.modMuster s f).hang = s.hang := rfl
@[simp] theorem State.modMuster_pub (s : State) (f : MusterSt → MusterSt) : (State.modMuster s f).pub = s.pub := rfl
@[simp] theorem State.modMuster_power (s : State) (f : MusterSt → MusterSt) : (State.modMuster s f).power = s.power := rfl
@[simp] theorem State.modMuster_drover (s : State) (f : MusterSt → MusterSt) : (State.modMuster s f).drover = s.drover := rfl
@[simp] theorem State.modMuster_auth (s : State) (f : MusterSt → MusterSt) : (State.modMuster s f).auth = s.auth := rfl
@[simp] theorem State.modMuster_fw (s : State) (f : MusterSt → MusterSt) : (State.modMuster s f).fw = s.fw := rfl
@[simp] theorem State.modMuster_rep (s : State) (f : MusterSt → MusterSt) : (State.modMuster s f).rep = s.rep := rfl
@[simp] theorem State.modMuster_free (s : State) (f : MusterSt → MusterSt) : (State.modMuster s f).free = s.free := rfl
@[simp] theorem State.modMuster_muster (s : State) (f : MusterSt → MusterSt) : (State.modMuster s f).muster = f s.muster := rfl

/-! ### Hang -/

@[simp] theorem State.modHang_pending (s : State) (f : HangSt → HangSt) : (State.modHang s f).pending = s.pending := rfl
@[simp] theorem State.modHang_build (s : State) (f : HangSt → HangSt) : (State.modHang s f).build = s.build := rfl
@[simp] theorem State.modHang_bs (s : State) (f : HangSt → HangSt) : (State.modHang s f).bs = s.bs := rfl
@[simp] theorem State.modHang_regs (s : State) (f : HangSt → HangSt) : (State.modHang s f).regs = s.regs := rfl
@[simp] theorem State.modHang_core (s : State) (f : HangSt → HangSt) : (State.modHang s f).core = s.core := rfl
@[simp] theorem State.modHang_time (s : State) (f : HangSt → HangSt) : (State.modHang s f).time = s.time := rfl
@[simp] theorem State.modHang_pulse (s : State) (f : HangSt → HangSt) : (State.modHang s f).pulse = s.pulse := rfl
@[simp] theorem State.modHang_ev (s : State) (f : HangSt → HangSt) : (State.modHang s f).ev = s.ev := rfl
@[simp] theorem State.modHang_link (s : State) (f : HangSt → HangSt) : (State.modHang s f).link = s.link := rfl
@[simp] theorem State.modHang_tally (s : State) (f : HangSt → HangSt) : (State.modHang s f).tally = s.tally := rfl
@[simp] theorem State.modHang_coal (s : State) (f : HangSt → HangSt) : (State.modHang s f).coal = s.coal := rfl
@[simp] theorem State.modHang_samp (s : State) (f : HangSt → HangSt) : (State.modHang s f).samp = s.samp := rfl
@[simp] theorem State.modHang_muster (s : State) (f : HangSt → HangSt) : (State.modHang s f).muster = s.muster := rfl
@[simp] theorem State.modHang_convoy (s : State) (f : HangSt → HangSt) : (State.modHang s f).convoy = s.convoy := rfl
@[simp] theorem State.modHang_feat (s : State) (f : HangSt → HangSt) : (State.modHang s f).feat = s.feat := rfl
@[simp] theorem State.modHang_tree (s : State) (f : HangSt → HangSt) : (State.modHang s f).tree = s.tree := rfl
@[simp] theorem State.modHang_out (s : State) (f : HangSt → HangSt) : (State.modHang s f).out = s.out := rfl
@[simp] theorem State.modHang_trace (s : State) (f : HangSt → HangSt) : (State.modHang s f).trace = s.trace := rfl
@[simp] theorem State.modHang_abft (s : State) (f : HangSt → HangSt) : (State.modHang s f).abft = s.abft := rfl
@[simp] theorem State.modHang_codec (s : State) (f : HangSt → HangSt) : (State.modHang s f).codec = s.codec := rfl
@[simp] theorem State.modHang_pub (s : State) (f : HangSt → HangSt) : (State.modHang s f).pub = s.pub := rfl
@[simp] theorem State.modHang_power (s : State) (f : HangSt → HangSt) : (State.modHang s f).power = s.power := rfl
@[simp] theorem State.modHang_drover (s : State) (f : HangSt → HangSt) : (State.modHang s f).drover = s.drover := rfl
@[simp] theorem State.modHang_auth (s : State) (f : HangSt → HangSt) : (State.modHang s f).auth = s.auth := rfl
@[simp] theorem State.modHang_fw (s : State) (f : HangSt → HangSt) : (State.modHang s f).fw = s.fw := rfl
@[simp] theorem State.modHang_rep (s : State) (f : HangSt → HangSt) : (State.modHang s f).rep = s.rep := rfl
@[simp] theorem State.modHang_free (s : State) (f : HangSt → HangSt) : (State.modHang s f).free = s.free := rfl
@[simp] theorem State.modHang_hang (s : State) (f : HangSt → HangSt) : (State.modHang s f).hang = f s.hang := rfl

/-! ### Power -/

@[simp] theorem State.keepLast_pending (s : State) : (State.keepLast s).pending = s.pending := rfl
@[simp] theorem State.keepLast_build (s : State) : (State.keepLast s).build = s.build := rfl
@[simp] theorem State.keepLast_bs (s : State) : (State.keepLast s).bs = s.bs := rfl
@[simp] theorem State.keepLast_regs (s : State) : (State.keepLast s).regs = s.regs := rfl
@[simp] theorem State.keepLast_time (s : State) : (State.keepLast s).time = s.time := rfl
@[simp] theorem State.keepLast_pulse (s : State) : (State.keepLast s).pulse = s.pulse := rfl
@[simp] theorem State.keepLast_ev (s : State) : (State.keepLast s).ev = s.ev := rfl
@[simp] theorem State.keepLast_link (s : State) : (State.keepLast s).link = s.link := rfl
@[simp] theorem State.keepLast_tally (s : State) : (State.keepLast s).tally = s.tally := rfl
@[simp] theorem State.keepLast_coal (s : State) : (State.keepLast s).coal = s.coal := rfl
@[simp] theorem State.keepLast_samp (s : State) : (State.keepLast s).samp = s.samp := rfl
@[simp] theorem State.keepLast_muster (s : State) : (State.keepLast s).muster = s.muster := rfl
@[simp] theorem State.keepLast_convoy (s : State) : (State.keepLast s).convoy = s.convoy := rfl
@[simp] theorem State.keepLast_feat (s : State) : (State.keepLast s).feat = s.feat := rfl
@[simp] theorem State.keepLast_tree (s : State) : (State.keepLast s).tree = s.tree := rfl
@[simp] theorem State.keepLast_out (s : State) : (State.keepLast s).out = s.out := rfl
@[simp] theorem State.keepLast_trace (s : State) : (State.keepLast s).trace = s.trace := rfl
@[simp] theorem State.keepLast_abft (s : State) : (State.keepLast s).abft = s.abft := rfl
@[simp] theorem State.keepLast_codec (s : State) : (State.keepLast s).codec = s.codec := rfl
@[simp] theorem State.keepLast_hang (s : State) : (State.keepLast s).hang = s.hang := rfl
@[simp] theorem State.keepLast_pub (s : State) : (State.keepLast s).pub = s.pub := rfl
@[simp] theorem State.keepLast_power (s : State) : (State.keepLast s).power = s.power := rfl
@[simp] theorem State.keepLast_drover (s : State) : (State.keepLast s).drover = s.drover := rfl
@[simp] theorem State.keepLast_auth (s : State) : (State.keepLast s).auth = s.auth := rfl
@[simp] theorem State.keepLast_fw (s : State) : (State.keepLast s).fw = s.fw := rfl
@[simp] theorem State.keepLast_rep (s : State) : (State.keepLast s).rep = s.rep := rfl
@[simp] theorem State.keepLast_free (s : State) : (State.keepLast s).free = s.free := rfl

/-! ### Authority -/

@[simp] theorem State.modAuth_pending (s : State) (f : AuthSt → AuthSt) : (State.modAuth s f).pending = s.pending := rfl
@[simp] theorem State.modAuth_build (s : State) (f : AuthSt → AuthSt) : (State.modAuth s f).build = s.build := rfl
@[simp] theorem State.modAuth_bs (s : State) (f : AuthSt → AuthSt) : (State.modAuth s f).bs = s.bs := rfl
@[simp] theorem State.modAuth_regs (s : State) (f : AuthSt → AuthSt) : (State.modAuth s f).regs = s.regs := rfl
@[simp] theorem State.modAuth_core (s : State) (f : AuthSt → AuthSt) : (State.modAuth s f).core = s.core := rfl
@[simp] theorem State.modAuth_time (s : State) (f : AuthSt → AuthSt) : (State.modAuth s f).time = s.time := rfl
@[simp] theorem State.modAuth_pulse (s : State) (f : AuthSt → AuthSt) : (State.modAuth s f).pulse = s.pulse := rfl
@[simp] theorem State.modAuth_ev (s : State) (f : AuthSt → AuthSt) : (State.modAuth s f).ev = s.ev := rfl
@[simp] theorem State.modAuth_link (s : State) (f : AuthSt → AuthSt) : (State.modAuth s f).link = s.link := rfl
@[simp] theorem State.modAuth_tally (s : State) (f : AuthSt → AuthSt) : (State.modAuth s f).tally = s.tally := rfl
@[simp] theorem State.modAuth_coal (s : State) (f : AuthSt → AuthSt) : (State.modAuth s f).coal = s.coal := rfl
@[simp] theorem State.modAuth_samp (s : State) (f : AuthSt → AuthSt) : (State.modAuth s f).samp = s.samp := rfl
@[simp] theorem State.modAuth_muster (s : State) (f : AuthSt → AuthSt) : (State.modAuth s f).muster = s.muster := rfl
@[simp] theorem State.modAuth_convoy (s : State) (f : AuthSt → AuthSt) : (State.modAuth s f).convoy = s.convoy := rfl
@[simp] theorem State.modAuth_feat (s : State) (f : AuthSt → AuthSt) : (State.modAuth s f).feat = s.feat := rfl
@[simp] theorem State.modAuth_tree (s : State) (f : AuthSt → AuthSt) : (State.modAuth s f).tree = s.tree := rfl
@[simp] theorem State.modAuth_out (s : State) (f : AuthSt → AuthSt) : (State.modAuth s f).out = s.out := rfl
@[simp] theorem State.modAuth_trace (s : State) (f : AuthSt → AuthSt) : (State.modAuth s f).trace = s.trace := rfl
@[simp] theorem State.modAuth_abft (s : State) (f : AuthSt → AuthSt) : (State.modAuth s f).abft = s.abft := rfl
@[simp] theorem State.modAuth_codec (s : State) (f : AuthSt → AuthSt) : (State.modAuth s f).codec = s.codec := rfl
@[simp] theorem State.modAuth_hang (s : State) (f : AuthSt → AuthSt) : (State.modAuth s f).hang = s.hang := rfl
@[simp] theorem State.modAuth_pub (s : State) (f : AuthSt → AuthSt) : (State.modAuth s f).pub = s.pub := rfl
@[simp] theorem State.modAuth_power (s : State) (f : AuthSt → AuthSt) : (State.modAuth s f).power = s.power := rfl
@[simp] theorem State.modAuth_drover (s : State) (f : AuthSt → AuthSt) : (State.modAuth s f).drover = s.drover := rfl
@[simp] theorem State.modAuth_fw (s : State) (f : AuthSt → AuthSt) : (State.modAuth s f).fw = s.fw := rfl
@[simp] theorem State.modAuth_rep (s : State) (f : AuthSt → AuthSt) : (State.modAuth s f).rep = s.rep := rfl
@[simp] theorem State.modAuth_free (s : State) (f : AuthSt → AuthSt) : (State.modAuth s f).free = s.free := rfl
@[simp] theorem State.modAuth_auth (s : State) (f : AuthSt → AuthSt) : (State.modAuth s f).auth = f s.auth := rfl

@[simp] theorem State.modOtp_pending (s : State) (f : OtpSt → OtpSt) : (State.modOtp s f).pending = s.pending := rfl
@[simp] theorem State.modOtp_build (s : State) (f : OtpSt → OtpSt) : (State.modOtp s f).build = s.build := rfl
@[simp] theorem State.modOtp_bs (s : State) (f : OtpSt → OtpSt) : (State.modOtp s f).bs = s.bs := rfl
@[simp] theorem State.modOtp_regs (s : State) (f : OtpSt → OtpSt) : (State.modOtp s f).regs = s.regs := rfl
@[simp] theorem State.modOtp_core (s : State) (f : OtpSt → OtpSt) : (State.modOtp s f).core = s.core := rfl
@[simp] theorem State.modOtp_time (s : State) (f : OtpSt → OtpSt) : (State.modOtp s f).time = s.time := rfl
@[simp] theorem State.modOtp_pulse (s : State) (f : OtpSt → OtpSt) : (State.modOtp s f).pulse = s.pulse := rfl
@[simp] theorem State.modOtp_ev (s : State) (f : OtpSt → OtpSt) : (State.modOtp s f).ev = s.ev := rfl
@[simp] theorem State.modOtp_link (s : State) (f : OtpSt → OtpSt) : (State.modOtp s f).link = s.link := rfl
@[simp] theorem State.modOtp_tally (s : State) (f : OtpSt → OtpSt) : (State.modOtp s f).tally = s.tally := rfl
@[simp] theorem State.modOtp_coal (s : State) (f : OtpSt → OtpSt) : (State.modOtp s f).coal = s.coal := rfl
@[simp] theorem State.modOtp_samp (s : State) (f : OtpSt → OtpSt) : (State.modOtp s f).samp = s.samp := rfl
@[simp] theorem State.modOtp_muster (s : State) (f : OtpSt → OtpSt) : (State.modOtp s f).muster = s.muster := rfl
@[simp] theorem State.modOtp_convoy (s : State) (f : OtpSt → OtpSt) : (State.modOtp s f).convoy = s.convoy := rfl
@[simp] theorem State.modOtp_feat (s : State) (f : OtpSt → OtpSt) : (State.modOtp s f).feat = s.feat := rfl
@[simp] theorem State.modOtp_tree (s : State) (f : OtpSt → OtpSt) : (State.modOtp s f).tree = s.tree := rfl
@[simp] theorem State.modOtp_out (s : State) (f : OtpSt → OtpSt) : (State.modOtp s f).out = s.out := rfl
@[simp] theorem State.modOtp_trace (s : State) (f : OtpSt → OtpSt) : (State.modOtp s f).trace = s.trace := rfl
@[simp] theorem State.modOtp_abft (s : State) (f : OtpSt → OtpSt) : (State.modOtp s f).abft = s.abft := rfl
@[simp] theorem State.modOtp_codec (s : State) (f : OtpSt → OtpSt) : (State.modOtp s f).codec = s.codec := rfl
@[simp] theorem State.modOtp_hang (s : State) (f : OtpSt → OtpSt) : (State.modOtp s f).hang = s.hang := rfl
@[simp] theorem State.modOtp_pub (s : State) (f : OtpSt → OtpSt) : (State.modOtp s f).pub = s.pub := rfl
@[simp] theorem State.modOtp_power (s : State) (f : OtpSt → OtpSt) : (State.modOtp s f).power = s.power := rfl
@[simp] theorem State.modOtp_drover (s : State) (f : OtpSt → OtpSt) : (State.modOtp s f).drover = s.drover := rfl
@[simp] theorem State.modOtp_fw (s : State) (f : OtpSt → OtpSt) : (State.modOtp s f).fw = s.fw := rfl
@[simp] theorem State.modOtp_rep (s : State) (f : OtpSt → OtpSt) : (State.modOtp s f).rep = s.rep := rfl
@[simp] theorem State.modOtp_free (s : State) (f : OtpSt → OtpSt) : (State.modOtp s f).free = s.free := rfl

/-! ### Firmware -/

@[simp] theorem State.modFw_pending (s : State) (f : FwSt → FwSt) : (State.modFw s f).pending = s.pending := rfl
@[simp] theorem State.modFw_build (s : State) (f : FwSt → FwSt) : (State.modFw s f).build = s.build := rfl
@[simp] theorem State.modFw_bs (s : State) (f : FwSt → FwSt) : (State.modFw s f).bs = s.bs := rfl
@[simp] theorem State.modFw_regs (s : State) (f : FwSt → FwSt) : (State.modFw s f).regs = s.regs := rfl
@[simp] theorem State.modFw_core (s : State) (f : FwSt → FwSt) : (State.modFw s f).core = s.core := rfl
@[simp] theorem State.modFw_time (s : State) (f : FwSt → FwSt) : (State.modFw s f).time = s.time := rfl
@[simp] theorem State.modFw_pulse (s : State) (f : FwSt → FwSt) : (State.modFw s f).pulse = s.pulse := rfl
@[simp] theorem State.modFw_ev (s : State) (f : FwSt → FwSt) : (State.modFw s f).ev = s.ev := rfl
@[simp] theorem State.modFw_link (s : State) (f : FwSt → FwSt) : (State.modFw s f).link = s.link := rfl
@[simp] theorem State.modFw_tally (s : State) (f : FwSt → FwSt) : (State.modFw s f).tally = s.tally := rfl
@[simp] theorem State.modFw_coal (s : State) (f : FwSt → FwSt) : (State.modFw s f).coal = s.coal := rfl
@[simp] theorem State.modFw_samp (s : State) (f : FwSt → FwSt) : (State.modFw s f).samp = s.samp := rfl
@[simp] theorem State.modFw_muster (s : State) (f : FwSt → FwSt) : (State.modFw s f).muster = s.muster := rfl
@[simp] theorem State.modFw_convoy (s : State) (f : FwSt → FwSt) : (State.modFw s f).convoy = s.convoy := rfl
@[simp] theorem State.modFw_feat (s : State) (f : FwSt → FwSt) : (State.modFw s f).feat = s.feat := rfl
@[simp] theorem State.modFw_tree (s : State) (f : FwSt → FwSt) : (State.modFw s f).tree = s.tree := rfl
@[simp] theorem State.modFw_out (s : State) (f : FwSt → FwSt) : (State.modFw s f).out = s.out := rfl
@[simp] theorem State.modFw_trace (s : State) (f : FwSt → FwSt) : (State.modFw s f).trace = s.trace := rfl
@[simp] theorem State.modFw_abft (s : State) (f : FwSt → FwSt) : (State.modFw s f).abft = s.abft := rfl
@[simp] theorem State.modFw_codec (s : State) (f : FwSt → FwSt) : (State.modFw s f).codec = s.codec := rfl
@[simp] theorem State.modFw_hang (s : State) (f : FwSt → FwSt) : (State.modFw s f).hang = s.hang := rfl
@[simp] theorem State.modFw_pub (s : State) (f : FwSt → FwSt) : (State.modFw s f).pub = s.pub := rfl
@[simp] theorem State.modFw_power (s : State) (f : FwSt → FwSt) : (State.modFw s f).power = s.power := rfl
@[simp] theorem State.modFw_drover (s : State) (f : FwSt → FwSt) : (State.modFw s f).drover = s.drover := rfl
@[simp] theorem State.modFw_auth (s : State) (f : FwSt → FwSt) : (State.modFw s f).auth = s.auth := rfl
@[simp] theorem State.modFw_rep (s : State) (f : FwSt → FwSt) : (State.modFw s f).rep = s.rep := rfl
@[simp] theorem State.modFw_free (s : State) (f : FwSt → FwSt) : (State.modFw s f).free = s.free := rfl
@[simp] theorem State.modFw_fw (s : State) (f : FwSt → FwSt) : (State.modFw s f).fw = f s.fw := rfl

@[simp] theorem State.modRegion_pending (s : State) (i : Nat) (f : Region → Region) : (State.modRegion s i f).pending = s.pending := rfl
@[simp] theorem State.modRegion_build (s : State) (i : Nat) (f : Region → Region) : (State.modRegion s i f).build = s.build := rfl
@[simp] theorem State.modRegion_bs (s : State) (i : Nat) (f : Region → Region) : (State.modRegion s i f).bs = s.bs := rfl
@[simp] theorem State.modRegion_regs (s : State) (i : Nat) (f : Region → Region) : (State.modRegion s i f).regs = s.regs := rfl
@[simp] theorem State.modRegion_core (s : State) (i : Nat) (f : Region → Region) : (State.modRegion s i f).core = s.core := rfl
@[simp] theorem State.modRegion_time (s : State) (i : Nat) (f : Region → Region) : (State.modRegion s i f).time = s.time := rfl
@[simp] theorem State.modRegion_pulse (s : State) (i : Nat) (f : Region → Region) : (State.modRegion s i f).pulse = s.pulse := rfl
@[simp] theorem State.modRegion_ev (s : State) (i : Nat) (f : Region → Region) : (State.modRegion s i f).ev = s.ev := rfl
@[simp] theorem State.modRegion_link (s : State) (i : Nat) (f : Region → Region) : (State.modRegion s i f).link = s.link := rfl
@[simp] theorem State.modRegion_tally (s : State) (i : Nat) (f : Region → Region) : (State.modRegion s i f).tally = s.tally := rfl
@[simp] theorem State.modRegion_coal (s : State) (i : Nat) (f : Region → Region) : (State.modRegion s i f).coal = s.coal := rfl
@[simp] theorem State.modRegion_samp (s : State) (i : Nat) (f : Region → Region) : (State.modRegion s i f).samp = s.samp := rfl
@[simp] theorem State.modRegion_muster (s : State) (i : Nat) (f : Region → Region) : (State.modRegion s i f).muster = s.muster := rfl
@[simp] theorem State.modRegion_convoy (s : State) (i : Nat) (f : Region → Region) : (State.modRegion s i f).convoy = s.convoy := rfl
@[simp] theorem State.modRegion_feat (s : State) (i : Nat) (f : Region → Region) : (State.modRegion s i f).feat = s.feat := rfl
@[simp] theorem State.modRegion_tree (s : State) (i : Nat) (f : Region → Region) : (State.modRegion s i f).tree = s.tree := rfl
@[simp] theorem State.modRegion_out (s : State) (i : Nat) (f : Region → Region) : (State.modRegion s i f).out = s.out := rfl
@[simp] theorem State.modRegion_trace (s : State) (i : Nat) (f : Region → Region) : (State.modRegion s i f).trace = s.trace := rfl
@[simp] theorem State.modRegion_abft (s : State) (i : Nat) (f : Region → Region) : (State.modRegion s i f).abft = s.abft := rfl
@[simp] theorem State.modRegion_codec (s : State) (i : Nat) (f : Region → Region) : (State.modRegion s i f).codec = s.codec := rfl
@[simp] theorem State.modRegion_hang (s : State) (i : Nat) (f : Region → Region) : (State.modRegion s i f).hang = s.hang := rfl
@[simp] theorem State.modRegion_pub (s : State) (i : Nat) (f : Region → Region) : (State.modRegion s i f).pub = s.pub := rfl
@[simp] theorem State.modRegion_power (s : State) (i : Nat) (f : Region → Region) : (State.modRegion s i f).power = s.power := rfl
@[simp] theorem State.modRegion_drover (s : State) (i : Nat) (f : Region → Region) : (State.modRegion s i f).drover = s.drover := rfl
@[simp] theorem State.modRegion_auth (s : State) (i : Nat) (f : Region → Region) : (State.modRegion s i f).auth = s.auth := rfl
@[simp] theorem State.modRegion_rep (s : State) (i : Nat) (f : Region → Region) : (State.modRegion s i f).rep = s.rep := rfl
@[simp] theorem State.modRegion_free (s : State) (i : Nat) (f : Region → Region) : (State.modRegion s i f).free = s.free := rfl

/-! ### Pulses -/

@[simp] theorem State.modGen_pending (s : State) (n : Nat) (f : Pulse → Pulse) : (State.modGen s n f).pending = s.pending := rfl
@[simp] theorem State.modGen_build (s : State) (n : Nat) (f : Pulse → Pulse) : (State.modGen s n f).build = s.build := rfl
@[simp] theorem State.modGen_bs (s : State) (n : Nat) (f : Pulse → Pulse) : (State.modGen s n f).bs = s.bs := rfl
@[simp] theorem State.modGen_regs (s : State) (n : Nat) (f : Pulse → Pulse) : (State.modGen s n f).regs = s.regs := rfl
@[simp] theorem State.modGen_core (s : State) (n : Nat) (f : Pulse → Pulse) : (State.modGen s n f).core = s.core := rfl
@[simp] theorem State.modGen_time (s : State) (n : Nat) (f : Pulse → Pulse) : (State.modGen s n f).time = s.time := rfl
@[simp] theorem State.modGen_ev (s : State) (n : Nat) (f : Pulse → Pulse) : (State.modGen s n f).ev = s.ev := rfl
@[simp] theorem State.modGen_link (s : State) (n : Nat) (f : Pulse → Pulse) : (State.modGen s n f).link = s.link := rfl
@[simp] theorem State.modGen_tally (s : State) (n : Nat) (f : Pulse → Pulse) : (State.modGen s n f).tally = s.tally := rfl
@[simp] theorem State.modGen_coal (s : State) (n : Nat) (f : Pulse → Pulse) : (State.modGen s n f).coal = s.coal := rfl
@[simp] theorem State.modGen_samp (s : State) (n : Nat) (f : Pulse → Pulse) : (State.modGen s n f).samp = s.samp := rfl
@[simp] theorem State.modGen_muster (s : State) (n : Nat) (f : Pulse → Pulse) : (State.modGen s n f).muster = s.muster := rfl
@[simp] theorem State.modGen_convoy (s : State) (n : Nat) (f : Pulse → Pulse) : (State.modGen s n f).convoy = s.convoy := rfl
@[simp] theorem State.modGen_feat (s : State) (n : Nat) (f : Pulse → Pulse) : (State.modGen s n f).feat = s.feat := rfl
@[simp] theorem State.modGen_tree (s : State) (n : Nat) (f : Pulse → Pulse) : (State.modGen s n f).tree = s.tree := rfl
@[simp] theorem State.modGen_out (s : State) (n : Nat) (f : Pulse → Pulse) : (State.modGen s n f).out = s.out := rfl
@[simp] theorem State.modGen_trace (s : State) (n : Nat) (f : Pulse → Pulse) : (State.modGen s n f).trace = s.trace := rfl
@[simp] theorem State.modGen_abft (s : State) (n : Nat) (f : Pulse → Pulse) : (State.modGen s n f).abft = s.abft := rfl
@[simp] theorem State.modGen_codec (s : State) (n : Nat) (f : Pulse → Pulse) : (State.modGen s n f).codec = s.codec := rfl
@[simp] theorem State.modGen_hang (s : State) (n : Nat) (f : Pulse → Pulse) : (State.modGen s n f).hang = s.hang := rfl
@[simp] theorem State.modGen_pub (s : State) (n : Nat) (f : Pulse → Pulse) : (State.modGen s n f).pub = s.pub := rfl
@[simp] theorem State.modGen_power (s : State) (n : Nat) (f : Pulse → Pulse) : (State.modGen s n f).power = s.power := rfl
@[simp] theorem State.modGen_drover (s : State) (n : Nat) (f : Pulse → Pulse) : (State.modGen s n f).drover = s.drover := rfl
@[simp] theorem State.modGen_auth (s : State) (n : Nat) (f : Pulse → Pulse) : (State.modGen s n f).auth = s.auth := rfl
@[simp] theorem State.modGen_fw (s : State) (n : Nat) (f : Pulse → Pulse) : (State.modGen s n f).fw = s.fw := rfl
@[simp] theorem State.modGen_rep (s : State) (n : Nat) (f : Pulse → Pulse) : (State.modGen s n f).rep = s.rep := rfl
@[simp] theorem State.modGen_free (s : State) (n : Nat) (f : Pulse → Pulse) : (State.modGen s n f).free = s.free := rfl

@[simp] theorem State.modCap_pending (s : State) (c : Nat) (f : CapIn → CapIn) : (State.modCap s c f).pending = s.pending := rfl
@[simp] theorem State.modCap_build (s : State) (c : Nat) (f : CapIn → CapIn) : (State.modCap s c f).build = s.build := rfl
@[simp] theorem State.modCap_bs (s : State) (c : Nat) (f : CapIn → CapIn) : (State.modCap s c f).bs = s.bs := rfl
@[simp] theorem State.modCap_regs (s : State) (c : Nat) (f : CapIn → CapIn) : (State.modCap s c f).regs = s.regs := rfl
@[simp] theorem State.modCap_core (s : State) (c : Nat) (f : CapIn → CapIn) : (State.modCap s c f).core = s.core := rfl
@[simp] theorem State.modCap_time (s : State) (c : Nat) (f : CapIn → CapIn) : (State.modCap s c f).time = s.time := rfl
@[simp] theorem State.modCap_ev (s : State) (c : Nat) (f : CapIn → CapIn) : (State.modCap s c f).ev = s.ev := rfl
@[simp] theorem State.modCap_link (s : State) (c : Nat) (f : CapIn → CapIn) : (State.modCap s c f).link = s.link := rfl
@[simp] theorem State.modCap_tally (s : State) (c : Nat) (f : CapIn → CapIn) : (State.modCap s c f).tally = s.tally := rfl
@[simp] theorem State.modCap_coal (s : State) (c : Nat) (f : CapIn → CapIn) : (State.modCap s c f).coal = s.coal := rfl
@[simp] theorem State.modCap_samp (s : State) (c : Nat) (f : CapIn → CapIn) : (State.modCap s c f).samp = s.samp := rfl
@[simp] theorem State.modCap_muster (s : State) (c : Nat) (f : CapIn → CapIn) : (State.modCap s c f).muster = s.muster := rfl
@[simp] theorem State.modCap_convoy (s : State) (c : Nat) (f : CapIn → CapIn) : (State.modCap s c f).convoy = s.convoy := rfl
@[simp] theorem State.modCap_feat (s : State) (c : Nat) (f : CapIn → CapIn) : (State.modCap s c f).feat = s.feat := rfl
@[simp] theorem State.modCap_tree (s : State) (c : Nat) (f : CapIn → CapIn) : (State.modCap s c f).tree = s.tree := rfl
@[simp] theorem State.modCap_out (s : State) (c : Nat) (f : CapIn → CapIn) : (State.modCap s c f).out = s.out := rfl
@[simp] theorem State.modCap_trace (s : State) (c : Nat) (f : CapIn → CapIn) : (State.modCap s c f).trace = s.trace := rfl
@[simp] theorem State.modCap_abft (s : State) (c : Nat) (f : CapIn → CapIn) : (State.modCap s c f).abft = s.abft := rfl
@[simp] theorem State.modCap_codec (s : State) (c : Nat) (f : CapIn → CapIn) : (State.modCap s c f).codec = s.codec := rfl
@[simp] theorem State.modCap_hang (s : State) (c : Nat) (f : CapIn → CapIn) : (State.modCap s c f).hang = s.hang := rfl
@[simp] theorem State.modCap_pub (s : State) (c : Nat) (f : CapIn → CapIn) : (State.modCap s c f).pub = s.pub := rfl
@[simp] theorem State.modCap_power (s : State) (c : Nat) (f : CapIn → CapIn) : (State.modCap s c f).power = s.power := rfl
@[simp] theorem State.modCap_drover (s : State) (c : Nat) (f : CapIn → CapIn) : (State.modCap s c f).drover = s.drover := rfl
@[simp] theorem State.modCap_auth (s : State) (c : Nat) (f : CapIn → CapIn) : (State.modCap s c f).auth = s.auth := rfl
@[simp] theorem State.modCap_fw (s : State) (c : Nat) (f : CapIn → CapIn) : (State.modCap s c f).fw = s.fw := rfl
@[simp] theorem State.modCap_rep (s : State) (c : Nat) (f : CapIn → CapIn) : (State.modCap s c f).rep = s.rep := rfl
@[simp] theorem State.modCap_free (s : State) (c : Nat) (f : CapIn → CapIn) : (State.modCap s c f).free = s.free := rfl

/-! ### Repair -/

@[simp] theorem State.modRep_pending (s : State) (f : RepSt → RepSt) : (State.modRep s f).pending = s.pending := rfl
@[simp] theorem State.modRep_build (s : State) (f : RepSt → RepSt) : (State.modRep s f).build = s.build := rfl
@[simp] theorem State.modRep_bs (s : State) (f : RepSt → RepSt) : (State.modRep s f).bs = s.bs := rfl
@[simp] theorem State.modRep_regs (s : State) (f : RepSt → RepSt) : (State.modRep s f).regs = s.regs := rfl
@[simp] theorem State.modRep_core (s : State) (f : RepSt → RepSt) : (State.modRep s f).core = s.core := rfl
@[simp] theorem State.modRep_time (s : State) (f : RepSt → RepSt) : (State.modRep s f).time = s.time := rfl
@[simp] theorem State.modRep_pulse (s : State) (f : RepSt → RepSt) : (State.modRep s f).pulse = s.pulse := rfl
@[simp] theorem State.modRep_ev (s : State) (f : RepSt → RepSt) : (State.modRep s f).ev = s.ev := rfl
@[simp] theorem State.modRep_link (s : State) (f : RepSt → RepSt) : (State.modRep s f).link = s.link := rfl
@[simp] theorem State.modRep_tally (s : State) (f : RepSt → RepSt) : (State.modRep s f).tally = s.tally := rfl
@[simp] theorem State.modRep_coal (s : State) (f : RepSt → RepSt) : (State.modRep s f).coal = s.coal := rfl
@[simp] theorem State.modRep_samp (s : State) (f : RepSt → RepSt) : (State.modRep s f).samp = s.samp := rfl
@[simp] theorem State.modRep_muster (s : State) (f : RepSt → RepSt) : (State.modRep s f).muster = s.muster := rfl
@[simp] theorem State.modRep_convoy (s : State) (f : RepSt → RepSt) : (State.modRep s f).convoy = s.convoy := rfl
@[simp] theorem State.modRep_feat (s : State) (f : RepSt → RepSt) : (State.modRep s f).feat = s.feat := rfl
@[simp] theorem State.modRep_tree (s : State) (f : RepSt → RepSt) : (State.modRep s f).tree = s.tree := rfl
@[simp] theorem State.modRep_out (s : State) (f : RepSt → RepSt) : (State.modRep s f).out = s.out := rfl
@[simp] theorem State.modRep_trace (s : State) (f : RepSt → RepSt) : (State.modRep s f).trace = s.trace := rfl
@[simp] theorem State.modRep_abft (s : State) (f : RepSt → RepSt) : (State.modRep s f).abft = s.abft := rfl
@[simp] theorem State.modRep_codec (s : State) (f : RepSt → RepSt) : (State.modRep s f).codec = s.codec := rfl
@[simp] theorem State.modRep_hang (s : State) (f : RepSt → RepSt) : (State.modRep s f).hang = s.hang := rfl
@[simp] theorem State.modRep_pub (s : State) (f : RepSt → RepSt) : (State.modRep s f).pub = s.pub := rfl
@[simp] theorem State.modRep_power (s : State) (f : RepSt → RepSt) : (State.modRep s f).power = s.power := rfl
@[simp] theorem State.modRep_drover (s : State) (f : RepSt → RepSt) : (State.modRep s f).drover = s.drover := rfl
@[simp] theorem State.modRep_auth (s : State) (f : RepSt → RepSt) : (State.modRep s f).auth = s.auth := rfl
@[simp] theorem State.modRep_fw (s : State) (f : RepSt → RepSt) : (State.modRep s f).fw = s.fw := rfl
@[simp] theorem State.modRep_free (s : State) (f : RepSt → RepSt) : (State.modRep s f).free = s.free := rfl
@[simp] theorem State.modRep_rep (s : State) (f : RepSt → RepSt) : (State.modRep s f).rep = f s.rep := rfl

/-! ### Reset -/

@[simp] theorem State.latchFuses_pending (s : State) : (State.latchFuses s).pending = s.pending := rfl
@[simp] theorem State.latchFuses_build (s : State) : (State.latchFuses s).build = s.build := rfl
@[simp] theorem State.latchFuses_bs (s : State) : (State.latchFuses s).bs = s.bs := rfl
@[simp] theorem State.latchFuses_regs (s : State) : (State.latchFuses s).regs = s.regs := rfl
@[simp] theorem State.latchFuses_core (s : State) : (State.latchFuses s).core = s.core := rfl
@[simp] theorem State.latchFuses_time (s : State) : (State.latchFuses s).time = s.time := rfl
@[simp] theorem State.latchFuses_pulse (s : State) : (State.latchFuses s).pulse = s.pulse := rfl
@[simp] theorem State.latchFuses_ev (s : State) : (State.latchFuses s).ev = s.ev := rfl
@[simp] theorem State.latchFuses_link (s : State) : (State.latchFuses s).link = s.link := rfl
@[simp] theorem State.latchFuses_tally (s : State) : (State.latchFuses s).tally = s.tally := rfl
@[simp] theorem State.latchFuses_coal (s : State) : (State.latchFuses s).coal = s.coal := rfl
@[simp] theorem State.latchFuses_samp (s : State) : (State.latchFuses s).samp = s.samp := rfl
@[simp] theorem State.latchFuses_muster (s : State) : (State.latchFuses s).muster = s.muster := rfl
@[simp] theorem State.latchFuses_convoy (s : State) : (State.latchFuses s).convoy = s.convoy := rfl
@[simp] theorem State.latchFuses_feat (s : State) : (State.latchFuses s).feat = s.feat := rfl
@[simp] theorem State.latchFuses_tree (s : State) : (State.latchFuses s).tree = s.tree := rfl
@[simp] theorem State.latchFuses_out (s : State) : (State.latchFuses s).out = s.out := rfl
@[simp] theorem State.latchFuses_trace (s : State) : (State.latchFuses s).trace = s.trace := rfl
@[simp] theorem State.latchFuses_abft (s : State) : (State.latchFuses s).abft = s.abft := rfl
@[simp] theorem State.latchFuses_codec (s : State) : (State.latchFuses s).codec = s.codec := rfl
@[simp] theorem State.latchFuses_hang (s : State) : (State.latchFuses s).hang = s.hang := rfl
@[simp] theorem State.latchFuses_pub (s : State) : (State.latchFuses s).pub = s.pub := rfl
@[simp] theorem State.latchFuses_power (s : State) : (State.latchFuses s).power = s.power := rfl
@[simp] theorem State.latchFuses_drover (s : State) : (State.latchFuses s).drover = s.drover := rfl
@[simp] theorem State.latchFuses_fw (s : State) : (State.latchFuses s).fw = s.fw := rfl
@[simp] theorem State.latchFuses_rep (s : State) : (State.latchFuses s).rep = s.rep := rfl
@[simp] theorem State.latchFuses_free (s : State) : (State.latchFuses s).free = s.free := rfl

@[simp] theorem State.setInReset_pending (s : State) (isl : Nat) (on : Bool) : (State.setInReset s isl on).pending = s.pending := rfl
@[simp] theorem State.setInReset_build (s : State) (isl : Nat) (on : Bool) : (State.setInReset s isl on).build = s.build := rfl
@[simp] theorem State.setInReset_bs (s : State) (isl : Nat) (on : Bool) : (State.setInReset s isl on).bs = s.bs := rfl
@[simp] theorem State.setInReset_regs (s : State) (isl : Nat) (on : Bool) : (State.setInReset s isl on).regs = s.regs := rfl
@[simp] theorem State.setInReset_time (s : State) (isl : Nat) (on : Bool) : (State.setInReset s isl on).time = s.time := rfl
@[simp] theorem State.setInReset_pulse (s : State) (isl : Nat) (on : Bool) : (State.setInReset s isl on).pulse = s.pulse := rfl
@[simp] theorem State.setInReset_ev (s : State) (isl : Nat) (on : Bool) : (State.setInReset s isl on).ev = s.ev := rfl
@[simp] theorem State.setInReset_link (s : State) (isl : Nat) (on : Bool) : (State.setInReset s isl on).link = s.link := rfl
@[simp] theorem State.setInReset_tally (s : State) (isl : Nat) (on : Bool) : (State.setInReset s isl on).tally = s.tally := rfl
@[simp] theorem State.setInReset_coal (s : State) (isl : Nat) (on : Bool) : (State.setInReset s isl on).coal = s.coal := rfl
@[simp] theorem State.setInReset_samp (s : State) (isl : Nat) (on : Bool) : (State.setInReset s isl on).samp = s.samp := rfl
@[simp] theorem State.setInReset_muster (s : State) (isl : Nat) (on : Bool) : (State.setInReset s isl on).muster = s.muster := rfl
@[simp] theorem State.setInReset_convoy (s : State) (isl : Nat) (on : Bool) : (State.setInReset s isl on).convoy = s.convoy := rfl
@[simp] theorem State.setInReset_feat (s : State) (isl : Nat) (on : Bool) : (State.setInReset s isl on).feat = s.feat := rfl
@[simp] theorem State.setInReset_tree (s : State) (isl : Nat) (on : Bool) : (State.setInReset s isl on).tree = s.tree := rfl
@[simp] theorem State.setInReset_out (s : State) (isl : Nat) (on : Bool) : (State.setInReset s isl on).out = s.out := rfl
@[simp] theorem State.setInReset_trace (s : State) (isl : Nat) (on : Bool) : (State.setInReset s isl on).trace = s.trace := rfl
@[simp] theorem State.setInReset_abft (s : State) (isl : Nat) (on : Bool) : (State.setInReset s isl on).abft = s.abft := rfl
@[simp] theorem State.setInReset_codec (s : State) (isl : Nat) (on : Bool) : (State.setInReset s isl on).codec = s.codec := rfl
@[simp] theorem State.setInReset_hang (s : State) (isl : Nat) (on : Bool) : (State.setInReset s isl on).hang = s.hang := rfl
@[simp] theorem State.setInReset_pub (s : State) (isl : Nat) (on : Bool) : (State.setInReset s isl on).pub = s.pub := rfl
@[simp] theorem State.setInReset_power (s : State) (isl : Nat) (on : Bool) : (State.setInReset s isl on).power = s.power := rfl
@[simp] theorem State.setInReset_drover (s : State) (isl : Nat) (on : Bool) : (State.setInReset s isl on).drover = s.drover := rfl
@[simp] theorem State.setInReset_auth (s : State) (isl : Nat) (on : Bool) : (State.setInReset s isl on).auth = s.auth := rfl
@[simp] theorem State.setInReset_fw (s : State) (isl : Nat) (on : Bool) : (State.setInReset s isl on).fw = s.fw := rfl
@[simp] theorem State.setInReset_rep (s : State) (isl : Nat) (on : Bool) : (State.setInReset s isl on).rep = s.rep := rfl
@[simp] theorem State.setInReset_free (s : State) (isl : Nat) (on : Bool) : (State.setInReset s isl on).free = s.free := rfl

/-! ### Reading a register -/

theorem State.rd_congr {s t : State} (h1 : t.regs = s.regs) (h2 : t.build = s.build) (h3 : t.bs = s.bs) (r : Reg) (i j pg bk : Nat) :
    t.rd r i j pg bk = s.rd r i j pg bk := by
  unfold State.rd; rw [h1, h2, h3]

@[simp] theorem State.respond_rd (s : State) (a : Acc) (w : Bool) (v : Nat) (e : Bool) (r : Reg) (i j pg bk : Nat) :
    (s.respond a w v e).rd r i j pg bk = s.rd r i j pg bk := State.rd_congr (by simp) (by simp) (by simp) _ _ _ _ _

end Sys2Proof.Machine
end

