-- ==== Sys2Proof/Laws/Access.lean ====
section
/-! SUPPORT. Registers seen through the shared operations: what an interrupt bit, a count, a violation and an access each write and
leave, and what the frame of an operation says part by part. -/

set_option Elab.async false

namespace Sys2Proof.Machine

theorem State.rd_lt (s : State) (r : Reg) (i j pg bk : Nat) : s.rd r i j pg bk < 2 ^ 32 := BitVec.isLt _

/-- A part that the frame of an operation does not name is the same after it. -/
theorem Keeps.same {m : Nat} {z s : State} (h : Keeps m z s) (p : Part) (hm : m.testBit p.bit = false) : Part.Same z s p := h.frame p hm

/-- An operation that leaves the register file alone leaves every register as it reads. -/
theorem Keeps.rd {m : Nat} {z s : State} (h : Keeps m z s) (hm : m.testBit Part.regs.bit = false) (r : Reg) (i j pg bk : Nat) :
    s.rd r i j pg bk = z.rd r i j pg bk := State.rd_congr (h.same .regs hm) h.build h.bs r i j pg bk

/-! ### Interrupt bits -/

theorem State.msixRise_eq (s : State) (n : Nat) (was : Bool) : ∃ c : CoreSt, s.msixRise n was = { s with core := c } := by
  unfold State.msixRise
  split
  · exact ⟨_, rfl⟩
  · exact ⟨s.core, rfl⟩

/-- An interrupt bit writes CMN_IRQ_STATUS of its page, and beyond the register file only the MSI-X counts of the core. -/
theorem State.irqMask_eq (s : State) (p bits : Nat) :
    ∃ c : CoreSt, s.irqMask p bits = { s.wr R.CMN_IRQ_STATUS (s.rd R.CMN_IRQ_STATUS 0 0 p ||| bits) 0 0 p with core := c } := by
  unfold State.irqMask
  dsimp only
  split
  · exact State.msixRise_eq _ _ _
  · exact ⟨s.core, rfl⟩

theorem State.irqMask_rd (s : State) (p bits : Nat) (r : Reg) (i j pg bk : Nat) :
    (s.irqMask p bits).rd r i j pg bk = (s.wr R.CMN_IRQ_STATUS (s.rd R.CMN_IRQ_STATUS 0 0 p ||| bits) 0 0 p).rd r i j pg bk := by
  obtain ⟨c, e⟩ := State.irqMask_eq s p bits
  rw [e]
  rfl

theorem State.irq_rd_other (s : State) (p b : Nat) (r : Reg) (i j pg bk : Nat) (h : r.key i j pg bk ≠ R.CMN_IRQ_STATUS.key 0 0 p 0) :
    (s.irq p b).rd r i j pg bk = s.rd r i j pg bk := by
  unfold State.irq
  rw [State.irqMask_rd, State.rd_wr_other _ _ _ _ _ _ _ _ _ _ _ _ h]

theorem State.irq_rd_same (s : State) (p b : Nat) (h : regWf s.regs = true) (hb : b < 32) :
    (s.irq p b).rd R.CMN_IRQ_STATUS 0 0 p = s.rd R.CMN_IRQ_STATUS 0 0 p ||| 2 ^ b := by
  unfold State.irq
  rw [State.irqMask_rd, State.rd_wr_same _ _ _ _ _ _ _ h]
  exact Nat.mod_eq_of_lt (Nat.or_lt_two_pow (State.rd_lt _ _ _ _ _ _) (Nat.pow_lt_pow_right (by decide) hb))

theorem State.irq_wf (s : State) (p b : Nat) (h : regWf s.regs = true) : regWf (s.irq p b).regs = true := by
  unfold State.irq
  obtain ⟨c, e⟩ := State.irqMask_eq s p (2 ^ b)
  rw [e]
  exact State.wr_wf _ _ _ _ _ _ _ h

/-! ### Counts -/

theorem State.bumpSat_rd_same (s : State) (r : Reg) (d i j pg bk : Nat) (h : regWf s.regs = true) :
    (s.bumpSat r d i j pg bk).rd r i j pg bk = min (s.rd r i j pg bk + d) (2 ^ 32 - 1) := by
  unfold State.bumpSat satAdd
  rw [State.rd_wr_same _ _ _ _ _ _ _ h]
  exact Nat.mod_eq_of_lt (by omega)

theorem State.bumpSat_rd_other (s : State) (r r2 : Reg) (d i j pg bk i2 j2 pg2 bk2 : Nat) (h : r2.key i2 j2 pg2 bk2 ≠ r.key i j pg bk) :
    (s.bumpSat r d i j pg bk).rd r2 i2 j2 pg2 bk2 = s.rd r2 i2 j2 pg2 bk2 := by
  unfold State.bumpSat
  rw [State.rd_wr_other _ _ _ _ _ _ _ _ _ _ _ _ h]

theorem State.bumpSat_wf (s : State) (r : Reg) (d i j pg bk : Nat) (h : regWf s.regs = true) : regWf (s.bumpSat r d i j pg bk).regs = true :=
  State.wr_wf _ _ _ _ _ _ _ h

theorem State.bump_rd_same (s : State) (r : Reg) (d i j pg bk : Nat) (h : regWf s.regs = true) :
    (s.bump r d i j pg bk).rd r i j pg bk = (s.rd r i j pg bk + d) % 2 ^ 32 := by
  unfold State.bump
  rw [State.rd_wr_same _ _ _ _ _ _ _ h]

theorem State.bump_rd_other (s : State) (r r2 : Reg) (d i j pg bk i2 j2 pg2 bk2 : Nat) (h : r2.key i2 j2 pg2 bk2 ≠ r.key i j pg bk) :
    (s.bump r d i j pg bk).rd r2 i2 j2 pg2 bk2 = s.rd r2 i2 j2 pg2 bk2 := by
  unfold State.bump
  rw [State.rd_wr_other _ _ _ _ _ _ _ _ _ _ _ _ h]

/-! ### Accesses by their verdict -/

theorem State.guardedWrite_perform (s : State) (a : Acc) (addr data : Nat) (owned bad : Bool) (eff : State → State)
    (hf : s.portFull a = false) (h : s.verdict a addr true owned bad = .perform) : s.guardedWrite a addr data owned bad eff = (eff s).respond a true 0 false := by
  simp only [State.guardedWrite, hf, h, Bool.false_eq_true, if_false]

theorem State.guardedWrite_wait (s : State) (a : Acc) (addr data : Nat) (owned bad : Bool) (eff : State → State) (d : Nat)
    (hf : s.portFull a = false) (h : s.verdict a addr true owned bad = .wait d) : s.guardedWrite a addr data owned bad eff = s.accessWait a addr true data d := by
  simp only [State.guardedWrite, hf, h, Bool.false_eq_true, if_false]

theorem State.guardedWrite_off (s : State) (a : Acc) (addr data : Nat) (owned bad : Bool) (eff : State → State)
    (hf : s.portFull a = false) (h : s.verdict a addr true owned bad = .off) : s.guardedWrite a addr data owned bad eff = s.offRefused a true := by
  simp only [State.guardedWrite, hf, h, Bool.false_eq_true, if_false]

theorem State.guardedWrite_viol (s : State) (a : Acc) (addr data : Nat) (owned bad : Bool) (eff : State → State) (page reason : Nat)
    (hf : s.portFull a = false) (h : s.verdict a addr true owned bad = .viol page reason) :
    s.guardedWrite a addr data owned bad eff = s.violated a page reason addr true data := by
  simp only [State.guardedWrite, hf, h, Bool.false_eq_true, if_false]

theorem State.guardedRead_perform (s : State) (a : Acc) (addr : Nat) (eff : State → Nat × State)
    (hf : s.portFull a = false) (h : s.verdict a addr false false false = .perform) : s.guardedRead a addr eff = (eff s).2.respond a false (eff s).1 false := by
  simp only [State.guardedRead, hf, h, Bool.false_eq_true, if_false]

theorem State.guardedRead_wait (s : State) (a : Acc) (addr : Nat) (eff : State → Nat × State) (d : Nat)
    (hf : s.portFull a = false) (h : s.verdict a addr false false false = .wait d) : s.guardedRead a addr eff = s.accessWait a addr false 0 d := by
  simp only [State.guardedRead, hf, h, Bool.false_eq_true, if_false]

theorem State.guardedRead_off (s : State) (a : Acc) (addr : Nat) (eff : State → Nat × State)
    (hf : s.portFull a = false) (h : s.verdict a addr false false false = .off) : s.guardedRead a addr eff = s.offRefused a false := by
  simp only [State.guardedRead, hf, h, Bool.false_eq_true, if_false]

theorem State.guardedRead_viol (s : State) (a : Acc) (addr : Nat) (eff : State → Nat × State) (page reason : Nat)
    (hf : s.portFull a = false) (h : s.verdict a addr false false false = .viol page reason) : s.guardedRead a addr eff = s.violated a page reason addr false 0 := by
  simp only [State.guardedRead, hf, h, Bool.false_eq_true, if_false]

theorem present_true {c : Bool} (h : c = true) (t : State) : present c t = .next t := by
  simp only [present, h, if_true]

theorem present_false {c : Bool} (h : c = false) (t : State) : present c t = .fault .absent := by
  simp only [present, h, Bool.false_eq_true, if_false]

/-- A response changes the response of its path, and nothing else. -/
theorem State.respond_eq (s : State) (a : Acc) (w : Bool) (v : Nat) (e : Bool) : ∃ c : CoreSt, s.respond a w v e = { s with core := c } := by
  unfold State.respond
  split
  · split <;> exact ⟨_, rfl⟩
  · split
    · exact ⟨s.core, rfl⟩
    · exact ⟨_, rfl⟩
  · exact ⟨_, rfl⟩

/-- With no request before it outstanding, the register port answers at once. -/
theorem State.respond_regPort (s : State) (a : Acc) (w : Bool) (v : Nat) (e : Bool) (h : a.path = .regPort) (h0 : s.outstanding = 0) :
    s.respond a w v e = { s with core := { s.core with rspPort := ⟨v, e⟩ } } := by
  simp only [State.respond, h, h0, if_true]

/-- With requests before it outstanding, its response waits behind theirs (R72). -/
theorem State.respond_regPort_waits (s : State) (a : Acc) (w : Bool) (v : Nat) (e : Bool) (h : a.path = .regPort) (h0 : s.outstanding ≠ 0) :
    s.respond a w v e =
      { s with core := { s.core with wait := s.core.wait ++ [{ acc := a, addr := 0, write := w, data := 0, dom := 0, rsp := some ⟨v, e⟩ }] } } := by
  simp only [State.respond, h, h0, if_false]

/-- The register port takes no ninth request (R72). -/
theorem State.guardedWrite_full (s : State) (a : Acc) (addr data : Nat) (owned bad : Bool) (eff : State → State) (hf : s.portFull a = true) :
    s.guardedWrite a addr data owned bad eff = s := by
  simp only [State.guardedWrite, hf, if_true]

theorem State.guardedRead_full (s : State) (a : Acc) (addr : Nat) (eff : State → Nat × State) (hf : s.portFull a = true) :
    s.guardedRead a addr eff = s := by
  simp only [State.guardedRead, hf, if_true]

end Sys2Proof.Machine
end

