-- ==== Sys2Proof/Laws/EventFrame.lean ====
section
/-! SUPPORT. What an event, and a record on its way out, leave inside the groups that they touch: of the core all but the MSI-X counts,
of the recorder the hours, the power cycles and the flash ring, of time all but which streams have had an anchor, of the ports all but their queues, of the slots all but the counts of dropped
records, of a domain its state, pwr_ack, its votes and its self-test. -/

set_option Elab.async false

namespace Sys2Proof.Machine

/-- The core group without what an event may change. -/
def CoreSt.quiet (c : CoreSt) : CoreSt := { c with msix := [] }
/-- The recorder without its store, its sequence and its buckets. -/
def EvSt.quiet (e : EvSt) : EvSt :=
  { e with store := [], nextId := 0, seq := 0, lost := 0, lostStamp := 0, buckets := [], suppr := [], flashQ := [] }
/-- The time group without what an event may change. -/
def TimeSt.quiet (t : TimeSt) : TimeSt := { t with anchored := [] }
/-- A class of a port without its queue. -/
def TxRx.quiet (c : TxRx) : TxRx := { c with q := [] }
/-- A port without its queues. -/
def Port.quiet (q : Port) : Port := { q with cls := q.cls.map TxRx.quiet }
/-- The link group without queues, open fates and sequences. -/
def LinkSt.quiet (l : LinkSt) : LinkSt := { l with ports := l.ports.map Port.quiet, nextUid := 0, pend := [], seqs := [], pubQ := [] }
/-- A slot without its counts of dropped records. -/
def Slot.quiet (x : Slot) : Slot := { x with dropBelow := [] }
/-- The convoy group without the counts of dropped records. -/
def ConvoySt.quiet (c : ConvoySt) : ConvoySt := { c with slots := c.slots.map (fun p => (p.1, p.2.quiet)) }
/-- A domain without its move, its request and its times. -/
def Dom.quiet (x : Dom) : Dom := { x with moving := none, req := false, thenTo := none, voteAt := 0, wakeAt := 0, reqAt := 0, alarmed := false }
/-- The power group without the moves of its domains. -/
def PowerSt.quiet (p : PowerSt) : PowerSt := { p with doms := p.doms.map (fun q => (q.1, q.2.quiet)) }

/-- Inside the groups that an event touches, nothing has changed but what an event may change. -/
structure EvFrame (z s : State) : Prop where
  core : s.core.quiet = z.core.quiet
  time : s.time.quiet = z.time.quiet
  ev : s.ev.quiet = z.ev.quiet
  link : s.link.quiet = z.link.quiet
  convoy : s.convoy.quiet = z.convoy.quiet
  power : s.power.quiet = z.power.quiet

theorem EvFrame.refl (s : State) : EvFrame s s := ⟨rfl, rfl, rfl, rfl, rfl, rfl⟩

theorem EvFrame.trans {a b c : State} (h : EvFrame a b) (g : EvFrame b c) : EvFrame a c :=
  ⟨g.core.trans h.core, g.time.trans h.time, g.ev.trans h.ev, g.link.trans h.link, g.convoy.trans h.convoy, g.power.trans h.power⟩

/-- A step on that leaves the five groups as they are. -/
theorem EvFrame.of {z s t : State} (h : EvFrame z s) (c : t.core = s.core := by rfl) (m : t.time = s.time := by rfl)
    (e : t.ev.quiet = s.ev.quiet := by rfl)
    (l : t.link = s.link := by rfl) (v : t.convoy = s.convoy := by rfl) (p : t.power = s.power := by rfl) : EvFrame z t :=
  h.trans ⟨by rw [c], by rw [m], e, by rw [l], by rw [v], by rw [p]⟩

variable {z s : State}

theorem State.wr_ef (h : EvFrame z s) (r : Reg) (v i j pg bk : Nat) : EvFrame z (s.wr r v i j pg bk) := h.of
theorem State.bump_ef (h : EvFrame z s) (r : Reg) (d i j pg bk : Nat) : EvFrame z (s.bump r d i j pg bk) := h.of
theorem State.bumpSat_ef (h : EvFrame z s) (r : Reg) (d i j pg bk : Nat) : EvFrame z (s.bumpSat r d i j pg bk) := h.of
theorem State.pbump_ef (h : EvFrame z s) (r : Reg) (p d : Nat) : EvFrame z (s.pbump r p d) := by
  unfold State.pbump State.pwr
  split
  · exact h.of
  · exact h
theorem State.tallyMod_ef (h : EvFrame z s) (stream : Nat) (f : Tally → Tally) : EvFrame z (s.tallyMod stream f) := h.of

theorem State.irqMask_ef (h : EvFrame z s) (p bits : Nat) : EvFrame z (s.irqMask p bits) := by
  refine h.trans ⟨?_, ?_, ?_, ?_, ?_, ?_⟩
  · unfold State.irqMask State.msixRise
    dsimp only
    split
    · split <;> rfl
    · rfl
  all_goals
    obtain ⟨c, e⟩ := State.irqMask_eq s p bits
    rw [e]
    rfl

theorem State.irq_ef (h : EvFrame z s) (p b : Nat) : EvFrame z (s.irq p b) := State.irqMask_ef h _ _

theorem State.dropped_ef (h : EvFrame z s) (stream reason : Nat) : EvFrame z (s.dropped stream reason) := by
  refine h.trans ⟨rfl, rfl, rfl, rfl, ?_, rfl⟩
  unfold State.dropped ConvoySt.quiet
  dsimp only [State.tallyMod]
  rw [List.map_map]
  congr 1
  apply List.map_congr_left
  intro p _
  dsimp only [Function.comp]
  split
  · split <;> rfl
  · rfl

/-- A change of one domain's move or times. -/
theorem State.modDom_ef (h : EvFrame z s) (d : Nat) (f : Dom → Dom) (hf : ∀ x, (f x).quiet = x.quiet) : EvFrame z (s.modDom d f) := by
  refine h.trans ⟨rfl, rfl, rfl, rfl, rfl, ?_⟩
  unfold State.modDom PowerSt.quiet
  dsimp only
  rw [List.map_map]
  congr 1
  apply List.map_congr_left
  intro p _
  dsimp only [Function.comp]
  split
  · rw [hf]
    simp_all
  · rfl

theorem State.startMove_ef (h : EvFrame z s) (d tgt : Nat) : EvFrame z (s.startMove d tgt) := by
  unfold State.startMove
  exact State.modDom_ef h _ _ (fun x => by split <;> rfl)

theorem State.wakeOne_ef (h : EvFrame z s) (d : Nat) : EvFrame z (s.wakeOne d) := by
  unfold State.wakeOne
  split
  · exact h
  · have h1 : EvFrame z (s.modDom d (fun x => { x with voteAt := s.time.cycles })) := State.modDom_ef h _ _ (fun _ => rfl)
    dsimp only
    split
    · split
      · exact h1
      · exact State.modDom_ef h1 _ _ (fun _ => rfl)
    · split
      · split
        · exact State.modDom_ef h1 _ _ (fun _ => rfl)
        · exact h1
      · split
        · exact h1
        · refine State.startMove_ef ?_ _ _
          exact State.modDom_ef h1 _ _ (fun _ => rfl)

theorem State.wake_ef (h : EvFrame z s) (d : Nat) : EvFrame z (s.wake d) := by
  unfold State.wake
  split
  · exact h
  · split
    · exact State.wakeOne_ef h _
    · exact State.wakeOne_ef (State.wakeOne_ef h _) _

theorem modNth_map_quiet {α β : Type} (g : α → β) (l : List α) (i : Nat) (f : α → α) (hf : ∀ x, g (f x) = g x) :
    (modNth l i f).map g = l.map g := by
  unfold modNth
  split
  · rename_i x hx
    rw [List.map_set, hf]
    obtain ⟨hi, rfl⟩ := List.getElem?_eq_some_iff.mp hx
    have := List.set_getElem_self (as := l.map g) (i := i) (by simpa using hi)
    simpa using this
  · rfl

theorem State.modCls_ef (h : EvFrame z s) (p c : Nat) (f : TxRx → TxRx) (hf : ∀ x, (f x).quiet = x.quiet) : EvFrame z (s.modCls p c f) := by
  refine h.trans ⟨rfl, rfl, rfl, ?_, rfl, rfl⟩
  unfold State.modCls State.modPort LinkSt.quiet
  dsimp only
  rw [modNth_map_quiet Port.quiet]
  intro q
  unfold Port.quiet Port.modCls
  dsimp only
  rw [modNth_map_quiet TxRx.quiet _ _ _ hf]

theorem State.enqueue_ef (h : EvFrame z s) (p uid : Nat) (r : Rec) : EvFrame z (s.enqueue p uid r) := by
  unfold State.enqueue
  dsimp only
  split
  · exact State.modCls_ef h p r.tc _ (fun _ => rfl)
  · refine State.wake_ef ?_ _
    exact State.modCls_ef h p r.tc _ (fun _ => rfl)

theorem State.newPend_ef (h : EvFrame z s) (stream : Nat) (tallied : Bool) (ev : Option Nat) (copies : Nat) :
    EvFrame z (s.newPend stream tallied ev copies).2 := h.trans ⟨rfl, rfl, rfl, rfl, rfl, rfl⟩

theorem EvFrame.foldl {α : Type _} (f : State → α → State) (l : List α) (h : EvFrame z s) (hf : ∀ t, EvFrame z t → ∀ a, EvFrame z (f t a)) :
    EvFrame z (l.foldl f s) := by
  induction l generalizing s with
  | nil => exact h
  | cons a r ih => exact ih (hf s h a)

theorem State.emitUp_ef (h : EvFrame z s) (r : Rec) (ev : Option Nat) : EvFrame z (s.emitUp r ev) := by
  unfold State.emitUp
  dsimp only
  split
  · exact State.dropped_ef h _ _
  · split
    · exact h.trans ⟨rfl, rfl, rfl, rfl, rfl, rfl⟩
    · split
      · have h1 := State.pbump_ef (State.dropped_ef h r.stream 1) R.FP_DROP_LINKDOWN (36 + r.stream % 2) 1
        split
        · exact h1.of
        · exact h1
      · exact EvFrame.foldl _ _ (State.newPend_ef h _ _ _ _) (fun t ht p => State.enqueue_ef ht _ _ _)

theorem State.originateRaw_ef (h : EvFrame z s) (type tc stream : Nat) (payload : List Byte) :
    EvFrame z (s.originateRaw type tc stream payload).2 := h.trans ⟨rfl, rfl, rfl, rfl, rfl, rfl⟩

theorem State.anchor_ef (h : EvFrame z s) (stream tc : Nat) (step : Bool) : EvFrame z (s.anchor stream tc step) := by
  unfold State.anchor
  refine State.emitUp_ef ?_ _ _
  exact (State.originateRaw_ef h 0x20 tc stream (s.anchorBytes step)).trans ⟨rfl, rfl, rfl, rfl, rfl, rfl⟩

theorem State.anchorAll_ef (h : EvFrame z s) (step : Bool) : EvFrame z (s.anchorAll step) :=
  EvFrame.foldl _ _ h (fun _ ht _ => State.anchor_ef ht _ _ _)

theorem State.originate_ef (h : EvFrame z s) (type tc stream : Nat) (payload : List Byte) : EvFrame z (s.originate type tc stream payload).2 := by
  unfold State.originate
  dsimp only
  split
  · exact State.originateRaw_ef (State.anchor_ef h _ _ _) _ _ _ _
  · exact State.originateRaw_ef h _ _ _ _

theorem State.alarmOut_ef (h : EvFrame z s) (r : Rec) (slot : Option Nat) : EvFrame z (s.alarmOut r slot) := by
  unfold State.alarmOut
  split
  · exact State.emitUp_ef h.of _ _
  · dsimp only
    split
    · exact State.irq_ef h.of _ _
    · exact h.of

theorem State.evSend_ef (h : EvFrame z s) (e : EvRec) (id : Nat) (alarm noCoal : Bool) : EvFrame z (s.evSend e id alarm noCoal) := by
  have key : ∀ (t : State) (r : Rec), EvFrame z t → EvFrame z
      (let s := if alarm && t.core.unattended && t.build != .l then t.bumpSat R.FW_UA_ALARMS else t
       if alarm && !noCoal then s.alarmOut r (some id) else s.emitUp r (some id)) := by
    intro t r ht
    dsimp only
    have h1 : EvFrame z (if alarm && t.core.unattended && t.build != .l then t.bumpSat R.FW_UA_ALARMS else t) := by
      split
      · exact ht.of
      · exact ht
    split
    · exact State.alarmOut_ef h1 _ _
    · exact State.emitUp_ef h1 _ _
  unfold State.evSend
  cases alarm
  · exact key _ _ (State.originate_ef h 0x1B 4 (fld (s.rd R.EVR_STREAM) 15 0) (evBytes e))
  · exact key _ _ (State.originate_ef h 0x1B 0 (fld (s.rd R.TRF_ALARM_STREAM) 15 0) (evBytes e))

theorem State.evWrite_ef (h : EvFrame z s) (store : List EvSlot) (code suppr stampV : Nat) (payload : List Byte) :
    EvFrame z (s.evWrite store code suppr stampV payload) := by
  unfold State.evWrite
  dsimp only
  generalize (match codeInfo code with
    | some (a, b, c, _) => (a, b, c)
    | none => (0, false, false)) = x
  cases x
  split
  · refine State.evSend_ef (State.irq_ef ?_ _ _) _ _ _ _
    exact h.of
  · refine State.irq_ef ?_ _ _
    exact h.of

theorem State.lossRecord_ef (h : EvFrame z s) : EvFrame z s.lossRecord := by
  unfold State.lossRecord
  split
  · exact h
  · split
    · exact State.evWrite_ef h.of _ _ _ _ _
    · exact h

theorem State.setBucket_ef (h : EvFrame z s) (code level : Nat) : EvFrame z (s.setBucket code level) := h.of

/-- An event leaves everything inside these groups but what the frame names. -/
theorem State.eventAt_ef (h : EvFrame z s) (code stampV : Nat) (payload : List Byte) : EvFrame z (s.eventAt code stampV payload) := by
  unfold State.eventAt
  dsimp only
  split
  · refine State.irq_ef ?_ _ _
    exact h.of
  · have h1 := State.lossRecord_ef (State.setBucket_ef h code (s.bucketNow code - token))
    split
    · refine State.evWrite_ef ?_ _ _ _ _ _
      exact h1.of
    · refine State.irq_ef ?_ _ _
      exact h1.of

theorem State.event_ef (h : EvFrame z s) (code : Nat) (payload : List Byte) : EvFrame z (s.event code payload) := State.eventAt_ef h _ _ _

theorem State.slotDone_ef (h : EvFrame z s) (id : Option Nat) : EvFrame z (s.slotDone id) := by
  unfold State.slotDone
  split
  · exact State.lossRecord_ef h.of
  · exact h

theorem State.sendPort_ef (h : EvFrame z s) (p : Nat) (r : Rec) (tallied : Bool) : EvFrame z (s.sendPort p r tallied) := by
  unfold State.sendPort
  split
  · exact State.enqueue_ef (State.newPend_ef h _ _ _ _) _ _ _
  · split
    · exact State.pbump_ef (State.dropped_ef h _ _) _ _ _
    · exact h

theorem State.sendLocal_ef (h : EvFrame z s) (p : Nat) (r : Rec) : EvFrame z (s.sendLocal p r) := State.sendPort_ef h _ _ _

/-- A violation leaves everything inside these groups but what the frame names. -/
theorem State.logViol_ef (h : EvFrame z s) (page addr info : Nat) : EvFrame z (s.logViol page addr info) := by
  have w : ∀ {s : State} (_ : EvFrame z s) (r : Reg) (v : Nat), EvFrame z (s.wr r v (pg := page)) := fun h r v => State.wr_ef h r v 0 0 page 0
  unfold State.logViol
  dsimp only
  refine State.event_ef (w (w (w (w (w ?_ _ _) _ _) _ _) _ _) _ _) _ _
  split
  · exact w (w (w (w h _ _) _ _) _ _) _ _
  · exact h

/-! ### Reading a field through the frame -/

theorem EvFrame.port (h : EvFrame z s) (p : Nat) : (s.port p).quiet = (z.port p).quiet := by
  have e : s.link.ports.map Port.quiet = z.link.ports.map Port.quiet := congrArg LinkSt.ports h.link
  have g : ∀ u : State, (u.port p).quiet = (u.link.ports.map Port.quiet).getD p (Port.reset 0).quiet := by
    intro u
    simp only [State.port, List.getD_eq_getElem?_getD, List.getElem?_map]
    cases u.link.ports[p]? <;> rfl
  rw [g, g, e]

theorem EvFrame.acc (h : EvFrame z s) : s.time.acc = z.time.acc := by
  have e := congrArg TimeSt.acc h.time
  exact e
theorem EvFrame.now (h : EvFrame z s) : s.now = z.now := by unfold State.now; rw [h.acc]
theorem EvFrame.cycles (h : EvFrame z s) : s.time.cycles = z.time.cycles := by
  have e := congrArg TimeSt.cycles h.time
  exact e

end Sys2Proof.Machine
end

