-- ==== Sys2Proof/Tests/Slice0.lean ====
section
/-! SUPPORT. Tests: small states that meet the hypotheses of each statement, an ill-formed operand for each check, and worked values of
the spec. -/

set_option Elab.async false

namespace Sys2Proof.Tests

open Sys2Proof Sys2Proof.Machine

/-- A build out of power-on reset, every register at its reset value. -/
def up (b : Build) : State := { State.resetOf b with core := { (State.resetOf b).core with por := false } }

/-- The same, hours later. -/
def late (b : Build) : State := { up b with time := { (up b).time with cycles := 10 ^ 13, acc := 2 ^ 100 } }

def host : Acc := { path := .regPort, cls := .host }
def fware : Acc := { path := .regPort, cls := .firmware }

/-- A link port that is up and trained. -/
def withPort (s : State) (p : Nat) (f : Port → Port) : State := s.modPort p f
def upPort (q : Port) : Port := { q with up := true, trained := true }

/-- A record of a type on stream 1, class 4. -/
def aRec (type : Nat) : Rec :=
  { length := 24, flags := 0, tc := 4, type := type, hops := 0, source := 33, level := 0, stream := 1, seq := 1, stamp := 0, payload := []
    rsv := 0 }

theorem test_inv_up (b : Build) : (up b).Inv := by cases b <;> constructor <;> decide
theorem test_inv_late (b : Build) : (late b).Inv := by cases b <;> constructor <;> decide

/-- A Sync of a domain, or a part of one. -/
def aPtp (kind : PtpKind) (dom : Nat) : PtpMsg :=
  { transport := 0, version := 2, minor := 1, domain := dom, supported := true, kind := kind, source := 1, seq := 0, logInterval := 0, stamp := 0
    correction := 0 }

/-! ### Ill-formed operands, one for each check -/

theorem test_ill_formed_0 : [(Instr.hostVoteWrite host 16532 0).wf,
    (Instr.railOrThermalTrip 3).wf,
    (Instr.tapIslandReset ⟨8, true⟩).wf,
    (Instr.discoveryTimeout 64).wf,
    (Instr.recordReceived 64 0 0 (aRec 0)).wf,
    (Instr.unitReceived 64 ⟨0, []⟩).wf,
    (Instr.egressUnitBoundary 64 []).wf,
    (Instr.linkCtlSend 64).wf,
    (Instr.linkCtlKeepalive 64).wf,
    (Instr.linkCtlReceived 64 []).wf,
    (Instr.creditInitReceived 64 0 0 []).wf,
    (Instr.creditInitAckReceived 64 0).wf,
    (Instr.classQuiesceDone 64 0).wf,
    (Instr.classQuiesceDone 0 8).wf,
    (Instr.censusMarkSend 64).wf,
    (Instr.censusMarkReceived 64 0 0).wf,
    (Instr.censusMarkReceived 0 0 8).wf,
    (Instr.censusEchoReceived 64 0 0 0 0).wf,
    (Instr.censusTimeout 64).wf,
    (Instr.linkTrainingStart 64).wf,
    (Instr.linkDown 64 0).wf,
    (Instr.countingTapIncrement 256 0).wf,
    (Instr.sensorReading 16 0 false 0).wf,
    (Instr.sensorStaleTimeout 16).wf,
    (Instr.triggerNotification 16).wf].all (fun b => !b) = true := by decide

theorem test_ill_formed_1 : [(Instr.tapClockChange 8 false 0).wf,
    (Instr.commandBoundary 32 false false 0 0).wf,
    (Instr.tensorWatchBeat 8 false false 0 0 [] 0).wf,
    (Instr.probeReceived 64 0).wf,
    (Instr.replyReceived 64 0).wf,
    (Instr.resultReceived 64 ⟨0, 0, 0, 0, false, 0, 0⟩).wf,
    (Instr.resultTimeout 64).wf,
    (Instr.probeTimeout 64).wf,
    (Instr.ptpSyncReceived 2 (aPtp .oneStep 0)).wf,
    (Instr.ptpDelayRespReceived 2 (aPtp .oneStep 0) true).wf,
    (Instr.ptpAnnounceReceived 2 (aPtp .oneStep 0) ⟨0, 0, 0, 0, 0, 0, 0, true, 0, true, false, false⟩).wf,
    (Instr.ptpAnnounceTimeout 2).wf,
    (Instr.pulseEdge 8).wf,
    (Instr.captureEdge 4 false).wf,
    (Instr.scheduleRecordReceived 64 (aRec 0)).wf,
    (Instr.musterLateIslandTimeout 8).wf,
    (Instr.convoyContribution 1024).wf,
    (Instr.convoyPacketReceived 95 (aRec 0)).wf,
    (Instr.broadcastResultReceived 95 (aRec 0)).wf,
    (Instr.broadcastRetryTimeout 1024 0).wf,
    (Instr.reachReportReceived 95 (aRec 0)).wf,
    (Instr.reachReportTimeout 1024).wf,
    (Instr.reattachHoldExpiry 1024 0).wf,
    (Instr.coalesceWindowClose 257).wf].all (fun b => !b) = true := by decide

theorem test_ill_formed_2 : [(Instr.treeSampleGrant 4).wf,
    (Instr.modelChunkReceived 64 (aRec 0)).wf,
    (Instr.escalationRequestReceived 64 (aRec 0)).wf,
    (Instr.deferEntryExpiry 1024).wf,
    (Instr.dieEntryFree 256).wf,
    (Instr.taintNoticeReceived 64 (aRec 0)).wf,
    (Instr.taintNoticeResend 64).wf,
    (Instr.patternChunkReceived 64 (aRec 0)).wf,
    (Instr.tokenWindowOpen 8).wf,
    (Instr.tokenWindowExpiry 8).wf,
    (Instr.snapshotRequestReceived 64 (aRec 0)).wf,
    (Instr.voteChange 0 13 false).wf,
    (Instr.emergencyCauseChange 7 false).wf,
    (Instr.excitationWindowEnd 4).wf,
    (Instr.tachFaultTimeout 4 0).wf,
    (Instr.tachFaultClear 4 0).wf,
    (Instr.pcieReset 3).wf,
    (Instr.pcieBar2Read 16777216).wf,
    (Instr.laneTrainingStart 64).wf,
    (Instr.codewordLock 64 0).wf,
    (Instr.markerLoss 64).wf,
    (Instr.fecUncorrectable 64).wf,
    (Instr.replayReceived 64 []).wf,
    (Instr.laneDegradeCheck 64 0 0 0).wf].all (fun b => !b) = true := by decide

theorem test_ill_formed_3 : [(Instr.dozeReceived 64).wf,
    (Instr.wakeReceived 64).wf,
    (Instr.wakeSequenceDone 64).wf,
    (Instr.ethLinkChange 2 false).wf,
    (Instr.pubOpenRetry 8).wf,
    (Instr.pubRtoExpiry 8).wf,
    (Instr.pubSessionDead 8).wf,
    (Instr.pfcPauseReceived 2 0 false).wf,
    (Instr.pfcPauseReceived 0 8 false).wf,
    (Instr.neighborDiscoveryMessage 2 ⟨false, 0, 0⟩).wf,
    (Instr.icmpv6Echo 2 false []).wf,
    (Instr.planLoad 64).wf,
    (Instr.imgStage 64).wf,
    (Instr.imgCommit 64).wf,
    (Instr.imgActivate 64).wf,
    (Instr.bulkSend 64).wf,
    (Instr.signedReq 64).wf,
    (Instr.abortCmd 64).wf,
    (Instr.selfTestComplete 3 0 []).wf,
    (Instr.rowRepair 0 0 0 0 0).wf,
    (Instr.rowRepair 7 0 0 0 0).wf].all (fun b => !b) = true := by decide

theorem test_ill_formed_4 : [(Instr.rowRepair 1 0 0 0 3).wf].all (fun b => !b) = true := by decide

/-- At the last value of its range an operand is in it. -/
theorem test_well_formed : [(Instr.linkDown 63 0).wf, (Instr.convoyPacketReceived 94 (aRec 0)).wf, (Instr.coalesceWindowClose 256).wf, (Instr.slotPost host 1023 0).wf,
    (Instr.rowRepair 6 0 0 0 2).wf, (Instr.pcieBar2Read 16777215).wf, (Instr.rowRepair 1 0 0 0 0).wf].all id = true := by decide

/-! ### Witnesses: the core, accesses, power, the drover -/

theorem test_w_step : ∃ c rest, ({ up .h with pending := [Instr.musterLead, .romBoot] } : State).pending = c :: rest := ⟨_, _, rfl⟩
theorem test_w_idle : (up .h).pending = [] := rfl
theorem test_w_every_step : ∃ t, step (up .h) = .next t := ⟨_, rfl⟩
theorem test_w_frame : ∃ t, exec (.refClockFault 0) (up .h) = .next t := ⟨_, rfl⟩

theorem test_w_write_rw : (up .h).target 0x005080 = .reg R.DRV_CTRL 0 0 0 0 ∧ R.DRV_CTRL.acc ≠ .wo ∧
    (up .h).verdict host 0x005080 true ((up .h).writeOwned host 5 0x080) ((up .h).writeBad 5 0x080 1) = .perform ∧
    (up .h).regEff 0x005080 1 = (up .h).store R.DRV_CTRL 0 0 0 0 1 := by decide

theorem test_w_write_w1c : (up .h).target 0x008200 = .reg R.TRIG_SEEN 0 0 0 0 ∧ R.TRIG_SEEN.acc = .w1c ∧
    (up .h).verdict host 0x008200 true false ((up .h).writeBad 8 0x200 3) = .perform ∧
    (up .h).regEff 0x008200 3 = (up .h).store R.TRIG_SEEN 0 0 0 0 3 := by decide

theorem test_w_rc_read : (up .h).target 0x0020BC = .reg R.TIME_EXCH_MISS 0 0 0 0 ∧ R.TIME_EXCH_MISS.acc = .rc ∧
    (up .h).verdict host 0x0020BC false false false = .perform ∧ (up .h).core.latches = [] := by decide

/-- The state after the low word has been read: its latches are those that the second read finds. -/
def afterLow : State := match exec (.latchingRead host 0x002080) (late .h) with
  | .next t => t
  | _ => up .h
theorem test_w_latching : (late .h).verdict host 0x002080 false false false = .perform ∧ (late .h).core.latches = [] ∧
    afterLow.verdict host 0x002084 false false false = .perform ∧ afterLow.core.latches ≠ [] := by decide

theorem test_w_violation : (up .h).verdict fware 0x005080 true false true = .viol 5 5 ∧ (up .h).verdict host 0x004094 true false false = .viol 4 3 ∧
    (up .h).verdict host 0x005F00 false false false = .viol 5 1 ∧ (up .l).verdict host 0x110080 false false false = .viol 0 4 := by decide

theorem test_w_first_reason : pageInfo .l (0x110080 / 4096) = none ∧ (up .h).domVerdict (addrDom .h 0x005080) = .perform ∧
    (pageInfo .h 5).map (fun i => classWrites i.cls .host) = some true ∧ (pageInfo .h 5).map (fun i => classWrites i.cls .debug) = some false ∧
    (up .h).target 0x005F00 = .reserved ∧ onlyClass 0x005080 = none ∧ (up .h).lockedReg R.DRV_CTRL 5 = false ∧
    ((up .h).wr R.CMN_LOCK 1 (pg := 5)).lockedReg R.CMN_SCRATCH 5 = true := by decide

/-- A domain in another state. -/
def domAt (s : State) (d st : Nat) : State := s.modDom d (fun x => { x with st := st })

theorem test_w_off : pageInfo .h 0x026 ≠ none ∧ ((domAt (up .h) 1 3).dom (addrDom .h 0x026080)).map (fun x => (x.st, x.testing)) = some (3, false) ∧
    (domAt (up .h) 1 3).verdict host 0x026080 true false false = .off ∧ (domAt (up .h) 1 3).verdict host 0x026080 false false false = .off := by decide

theorem test_w_wait : (domAt (up .h) 1 1).verdict host 0x026080 true false false = .wait 1 ∧
    (domAt (up .h) 1 1).verdict host 0x026080 false false false = .wait 1 ∧ ((up .h).dom 1).isSome = true ∧ (up .h).inRun 1 = true ∧
    (domAt (up .h) 1 1).inRun 1 = false := by decide

theorem test_w_header : (up .h).verdict host (5 * 4096 + 0x010) true false false = .perform ∧
    (up .h).verdict host (5 * 4096 + 0x018) true false false = .perform ∧ (1 : Word).toNat % 4 = 1 ∧ (2 : Word).toNat % 4 = 2 := by decide

theorem test_w_votes : (up .h).verdict host 0x004090 true false false = .perform ∧ (up .h).verdict fware 0x004094 true false false = .perform ∧
    host.cls ≠ .firmware ∧ (up .h).domVerdict 0 = .perform ∧ (up .h).verdict host 0x004088 true false false = .perform ∧ 0 ∈ domains .h ∧
    14 ∈ domains .h := by decide

theorem test_w_smbus : (up .t).smbTakes = true ∧ (up .t).pecRefused ⟨0x11, [0, 0, 0], false, false⟩ = false ∧
    (up .t).verdict ⟨.smbus, .bmc⟩ 0 false false false = .perform ∧ (up .t).pecRefused ⟨0x10, [0, 0, 0, 0, 0, 0, 0], false, false⟩ = false := by decide

/-- TREE idles with an idle state chosen; a move of it is under way; the move is late. -/
def idleTree : State := ((late .h).wr R.PWR_IDLE (2 * 4 ^ 2)).modDom 2 (fun x => { x with voteAt := 0 })
def movingTree (st tgt : Nat) : State := (late .h).modDom 2 (fun x => { x with st := st, moving := some tgt })
theorem test_w_idle_domain : (idleTree.dom 2).map (fun x => (x.st, x.testing, x.moving.isNone)) = some (0, false, true) ∧ idleTree.votes 2 = 0 ∧
    domField (idleTree.rd R.PWR_IDLE) 2 ≠ 0 ∧ idleTree.after 0 (idleTree.rd R.PWR_IDLE_DELAY % 65536) = true ∧
    (((movingTree 0 2).dom 2).bind (fun x => x.moving)) = some 2 ∧ (((movingTree 2 0).dom 2).bind (fun x => x.moving)) = some 0 ∧
    (((movingTree 1 0).dom 2).bind (fun x => x.moving)) = some 0 ∧ ((movingTree 0 2).dom 2).map (fun x => x.alarmed) = some false ∧
    (movingTree 0 2).after 0 1000 = true ∧ (movingTree 3 0).after 0 4800000 = true := by decide

theorem test_w_refill : ([1, 2, 3, 4, 5, 6] : List Int).length = 6 ∧ (0 : Int) ≤ 0 := by decide

theorem test_w_grant : bitOf ((up .h).rd R.DRV_CTRL) 0 = true ∧ ((up .h).grant 1 5).isSome = true ∧
    bitOf (((up .h).wr R.DRV_CTRL 0).rd R.DRV_CTRL) 0 = false ∧ ({ (up .h) with drover := { (up .h).drover with emerg := 2 } } : State).drover.emerg = 2 ∧
    ({ (up .h) with drover := { (up .h).drover with emerg := 1 } } : State).drover.emerg = 1 := by decide

/-- In Emergency with every cause gone, hours later; and with cause 0 present. -/
def emerg (e cause : Nat) : State := { late .t with drover := { (late .t).drover with emerg := e, cause := cause, clearAt := 0 } }
theorem test_w_emergency : (emerg 2 0).drover.emerg ≤ 2 ∧ (emerg 2 0).build = .t ∧ 0 < (emerg 2 0).drover.emerg ∧ emergOf (emerg 2 0).drover.cause < 2 ∧
    (emerg 2 0).after (emerg 2 0).drover.clearAt (1000 * max 1 ((emerg 2 0).rd R.DRV_EXIT_HOLD % 65536)) = true ∧
    (emerg 1 1).drover.emerg ≤ emergOf (emerg 1 1).drover.cause := by decide

/-- A thermal model whose window has run its ticks. -/
def windowed : State :=
  let ms := modNth (late .h).drover.models 0 (fun x => { x with window := true, ticks := 0 })
  { late .h with drover := { (late .h).drover with models := ms } }
theorem test_w_thermal : (windowed.drover.models[0]?).map (fun x => (x.window, x.ticks)) = some (true, 0) := by decide

/-- An output of the chip turns, with a minimum speed. -/
def turning : State := ((late .t).wr R.COOL_TACH_MIN 100 0).wr R.COOL_DUTY 50 0
theorem test_w_cooling : turning.build = .t ∧ turning.inRun 1 = true ∧ 99 < turning.rd R.COOL_TACH_MIN 0 % 65536 ∧ turning.rd R.COOL_DUTY 0 % 128 ≠ 0 ∧
    0 ∉ turning.core.tachFault ∧ turning.rd R.COOL_TACH_MIN 0 % 65536 ≤ 100 ∧ turning.verdict host 0x117088 true false false = .perform := by decide

/-- A pattern place that holds a verified package of eight bytes. -/
def bar2 (st : Nat) : State :=
  let ps := modNth (up .t).abft.places 3 (fun x => { x with st := st, data := List.replicate 8 0 })
  { up .t with abft := { (up .t).abft with places := ps } }
theorem test_w_pcie : (bar2 2).core.pcieReset = false ∧ ((bar2 2).abft.places[16777212 / 4194304]?).map (fun x => x.st) = some 2 ∧
    ((bar2 2).abft.places[12582912 / 4194304]?).map (fun x => decide (12582912 % 4194304 / 4 * 4 + 4 ≤ x.data.length)) = some true ∧
    ((bar2 0).abft.places[3]?).map (fun x => x.st) = some 0 := by decide
/-! ### Witnesses: time, pulses, resets -/

def setRegs (s : State) (l : List (Reg × Nat)) : State := l.foldl (fun s x => s.wr x.1 x.2) s
def modE (s : State) (p : Nat) (f : Exch → Exch) : State := s.modExch p f

theorem test_w_invariants :
  (domAt (up .h) 1 3).Inv ∧ idleTree.Inv ∧ (movingTree 1 0).Inv ∧ (emerg 2 0).Inv ∧ windowed.Inv ∧ turning.Inv ∧ (bar2 2).Inv ∧ afterLow.Inv ∧
    (late .l).Inv ∧ (up .l).Inv ∧ (up .t).Inv ∧ (late .h).Inv :=
  by refine ⟨?_, ?_, ?_, ?_, ?_, ?_, ?_, ?_, ?_, ?_, ?_, ?_⟩ <;> (constructor <;> decide)


/-- A leaf that awaits the RESULT of exchange 5, or whose wait has run out. -/
def waitResult (aw : Bool) : State := (late .l).modExch 0 (fun e => { e with awaiting := aw, repliedNum := some 5, locked := true, misses := 1 })
theorem test_w_link_exchange :
  (waitResult true).Inv ∧ (waitResult false).Inv ∧ (waitResult true).childPort 0 = true ∧ ((waitResult true).port 0).quar = false ∧
    (up .h).childPort 0 = false ∧ (up .h).childPort 36 = true ∧ (up .h).masterPort 63 = true ∧ ((up .h).exch 63).txNum = 0 ∧
    ((waitResult true).exch 0).awaiting = true ∧ ((waitResult true).exch 0).repliedNum = some 5 ∧ ((waitResult false).exch 0).awaiting = false ∧
    (waitResult true).after ((waitResult true).exch 0).replyAt 100 = true ∧ ((waitResult true).exch 0).locked = true ∧
    (waitResult true).after ((waitResult true).exch 0).probeAt (2 * ((waitResult true).rd R.TIME_EXCH_INTERVAL % 65536)) = true ∧
    ((waitResult true).exch 0).misses ≤ 1 :=
  by refine ⟨?_, ?_, ?_, ?_, ?_, ?_, ?_, ?_, ?_, ?_, ?_, ?_, ?_, ?_, ?_⟩ <;> first | decide +kernel | (constructor <;> decide)


theorem test_w_servo_bounds :
  (((up .h).servo (10 ^ 40) 1).time.addend ≤ nominalAddend + nominalAddend / 5000) ∧ ((up .h).stepTime (-1) 0).now = 2 ^ 80 - 1 :=
  by refine ⟨?_, ?_⟩ <;> decide


/-- A reference fault; a holdover that has run out; a quality code. -/
def codeIs (b : Build) (c : Nat) : State := { late b with time := { (late b).time with code := c, holdUntil := some 0 } }
def faulty : State := { late .h with time := { (late .h).time with refFault := true } }
def gm : State := (late .t).wr R.PTP_CTRL 0x200
theorem test_w_reference_and_mode :
  (codeIs .h 2).Inv ∧ (codeIs .h 3).Inv ∧ faulty.Inv ∧ gm.Inv ∧ (late .h).time.refFault = false ∧ faulty.time.refFault = true ∧
    ((codeIs .h 2).time.holdUntil = some 0 ∧ (codeIs .h 2).time.code = 2) ∧ (late .h).verdict host 0x002090 true false false = .perform ∧
    (2 : Word).toNat % 4 = 2 ∧ (codeIs .h 3).verdict host 0x0020DC true false false = .perform ∧
    ((codeIs .h 3).qcode = 3 ∧ (codeIs .h 2).qcode ≤ 2 ∧ (codeIs .h 2).time.groupRoot = false) ∧
    (gm.ptpOn 0 = true ∧ gm.ptpOn 1 = false ∧ 1 < gm.time.ptp.length) ∧ (gm.ptpTaken (aPtp .oneStep 0) = true ∧ gm.ptpTaken (aPtp .oneStep 1) = false) :=
  by refine ⟨?_, ?_, ?_, ?_, ?_, ?_, ?_, ?_, ?_, ?_, ?_, ?_, ?_⟩ <;> first | decide +kernel | (constructor <;> decide)


/-- A running generator, its edge due; in its active phase, the end due. -/
def genAt (act : Option Nat) (gate : Nat) : State :=
  (late .h).modGen 3 (fun g => { g with running := true, qgate := gate, period := 859, width := 10, activeUntil := act })
def capAt (n : Nat) : State := ((late .t).wr R.CAP_CTRL 1 3).modCap 3 (fun q => { q with fifo := List.replicate n ⟨0, 0, true⟩ })
theorem test_w_pulses_and_captures :
  (genAt none 4).Inv ∧ (genAt (some 0) 4).Inv ∧ (genAt none 3).Inv ∧ (capAt 16).Inv ∧
    ((genAt none 4).pulse.gens[3]?).map (fun g => (g.running, g.activeUntil, decide (g.start + g.k * g.period ≤ (late .h).now))) = some (true, none, true) ∧
    ((genAt none 4).qcode ≤ 4 ∧ 3 < (genAt none 3).qcode) ∧ ((genAt (some 0) 4).pulse.gens[3]?).map (fun g => g.activeUntil) = some (some 0) ∧
    ((genAt none 4).verdict host 0x003180 true false false = .perform ∧ (genAt none 4).verdict host 0x003184 true false false = .perform) ∧
    (edgeSelected ((capAt 15).rd R.CAP_CTRL 3 % 4) true = true ∧ edgeSelected ((capAt 15).rd R.CAP_CTRL 3 % 4) false = false) ∧
    ((capAt 15).pulse.caps[3]?).map (fun q => (q.fifo.length, q.lastAt)) = some (15, none) ∧
    ((capAt 16).pulse.caps[3]?).map (fun q => q.fifo.length) = some 16 ∧
    (capAt 16).verdict host (0x003210 + 0x20 * 3) true false false = .perform :=
  by refine ⟨?_, ?_, ?_, ?_, ?_, ?_, ?_, ?_, ?_, ?_, ?_, ?_⟩ <;> first | decide +kernel | (constructor <;> decide)


theorem test_w_resets :
  ((up .t).core.por = false ∧ (up .t).build = .t ∧ (State.resetOf .t).core.por = true) ∧
    (({ up .h with core := { (up .h).core with warm := true } } : State).core.warm = true ∧ (up .h).core.warm = false) ∧
    (State.resetOf .h).auth.otp.identity = none :=
  by refine ⟨?_, ?_, ?_⟩ <;> decide


theorem test_w_lost_domain :
  (addrDom .h 0x026080 = 1 ∧ pageInfo .h 0x026 ≠ none ∧ addrDom .h (0x026 * 4096) = 1 ∧ 14 < 15) :=
  by decide


/-- An island asked to be quiet, and drained; a counting tap is assigned to tap island 7. -/
def asked (b : Build) (n : Nat) (dr : List Nat) : State := { (up b).wr R.TAP_ASSIGN_CTR 1 (pg := 7) with core := { (up b).core with qscReq := [n], qscDrained := dr } }
theorem test_w_quiesce :
  (asked .l 7 []).Inv ∧ (asked .h 17 [17]).Inv ∧
    ((asked .l 7 []).islandThere 7 = true ∧ 0 ∉ (asked .l 7 []).core.qscReq ∧ (asked .l 7 []).islandThere 0 = true) ∧
    (7 ∈ (asked .l 7 []).core.qscReq ∧ 7 ∉ (asked .l 7 []).core.qscDrained) ∧
    (hasTaps .l = true ∧ (asked .l 7 [7]).tapPresent 7 = true ∧ 7 ∈ (asked .l 7 [7]).core.qscDrained) ∧
    (8 < linkGroups .h ∧ 9 + 8 ∈ (asked .h 17 [17]).core.qscDrained ∧ 9 + 8 ∉ (asked .h 7 []).core.qscDrained) :=
  by refine ⟨?_, ?_, ?_, ?_, ?_, ?_⟩ <;> first | decide +kernel | (constructor <;> decide)


/-! ### Witnesses: links, credits and records -/

def anItem (len : Nat) : Item :=
  { uid := 3, r := { aRec 0 with payload := List.replicate len 0 }, sent := 0, pkt := 0, resent := false, coded := false, replay := false }
/-- Port 63 up, with one packet queued in class 7 and credits for it. -/
def sender (len : Nat) (doze : Bool) : State :=
  (late .h).modPort 63 (fun q => { upPort q with farDoze := doze, cls := modNth q.cls 7 (fun x => { x with q := [anItem len], ready := true, credits := 100 }) })
theorem test_w_units_leave :
  (sender 8 false).Inv ∧ (sender 481 false).Inv ∧ (sender 8 true).Inv ∧
    (((late .h).port 63).usable = false ∧ ((sender 8 false).port 63).usable = true ∧ (sender 8 false).groupRuns 63 = true) ∧
    ((sender 8 false).eligible 63 7 = true ∧ ((List.range 7).all (fun d => !(sender 8 false).eligible 63 d)) = true) ∧
    (((sender 8 true).port 63).farDoze = true ∧ ((sender 8 false).port 63).farDoze = false) ∧
    (7 < ((sender 8 false).port 63).cls.length ∧ (((sender 8 false).port 63).tx8 7).q = [anItem 8]) ∧
    (anItem 8).sent + (anItem 8).nextLen = (anItem 8).r.payload.length + 24 :=
  by refine ⟨?_, ?_, ?_, ?_, ?_, ?_, ?_, ?_⟩ <;> first | decide +kernel | (constructor <;> decide)


theorem test_w_long_packet (n : Nat) (h : 480 < n) : (anItem n).sent + (anItem n).nextLen ≠ (anItem n).r.payload.length + 24 := by
  simp [anItem, Item.nextLen, aRec]; omega

/-- Port 63 with something to report, or nothing. -/
def reporter (rel : Nat) (doze : Bool) : State :=
  (late .h).modPort 63 (fun q => { upPort q with farDoze := doze, cls := modNth q.cls 7 (fun x => { x with released := rel, held := [anItem 8] }) })
theorem test_w_link_control :
  (reporter 5 false).Inv ∧ (reporter 5 true).Inv ∧ (reporter 0 false).Inv ∧
    (((reporter 5 false).port 63).trained = true ∧ ((reporter 5 false).port 63).unreported ≠ [] ∧ ((reporter 0 false).port 63).unreported = []) ∧
    (((reporter 5 false).port 63).lastCtlAt + 320 ≤ (reporter 5 false).time.cycles ∧ ((reporter 5 true).port 63).farDoze = true) ∧
    (((reporter 0 false).port 63).dozing = false ∧ (reporter 0 false).after ((reporter 0 false).port 63).lastReportAt 10 = true) ∧
    7 < ((reporter 5 false).port 63).cls.length :=
  by refine ⟨?_, ?_, ?_, ?_, ?_, ?_, ?_⟩ <;> first | decide +kernel | (constructor <;> decide)


/-- Port 63 in training with every class ready for the acknowledgement, or with class 7 on its way to a new total. -/
def trainer : State := (late .h).modPort 63 (fun q => { q with training := true, initAcked := true })
def aWait (w : QWhy) : Quiesce := { why := w, since := 0, newT := 8, owe := false, left := 0 }
def quiescing (w : QWhy) : State :=
  (late .h).modPort 63 (fun q => { q with cls := modNth q.cls 7 (fun x => { x with quiesce := some (aWait w), farT := 8, credits := 8 }) })
/-- A new total of class 7 waits to be sent, or has been. -/
def retotal (sent : Bool) : State :=
  (late .h).modPort 63 (fun q => { q with trained := true, cls := modNth q.cls 7 (fun x => { x with newT := some 9, initSent := sent, occ := 0 }) })
/-- FLOW_APPLY of port 63 with the default totals, and with one credit too many. -/
def flowSet (t7 : Nat) : State :=
  let s := (late .h).wr R.FLOW_SEL 63
  let s := (List.range 7).foldl (fun (s : State) c => s.wr R.FLOW_T_CFG (defaultT 0 c) c 0 0 63) s
  s.wr R.FLOW_T_CFG t7 7 0 0 63
theorem test_w_credits :
  trainer.Inv ∧ (quiescing .mismatch).Inv ∧ (retotal true).Inv ∧ (quiescing .replay).Inv ∧ (retotal false).Inv ∧ (flowSet 8).Inv ∧ (flowSet 9).Inv ∧
    ((late .h).mayTrain 63 = true ∧ ((late .h).modPort 63 (fun q => { q with disabled := true })).mayTrain 63 = false) ∧
    ((trainer.port 63).cls.length = 8 ∧ (List.range 8).all (fun c => bitOf 255 c) = true ∧ (trainer.port 63).training = true ∧ (trainer.port 63).initAcked = true) ∧
    ((((quiescing .mismatch).port 63).tx8 7).quiesce = some (aWait .mismatch) ∧ (((quiescing .mismatch).port 63).tx8 7).newT = none ∧ (((quiescing .mismatch).port 63).tx8 7).q = [] ∧ (((quiescing .mismatch).port 63).tx8 7).farT ≤ (((quiescing .mismatch).port 63).tx8 7).credits) ∧
    (0 + 2 * portRtt (portKind .h 63) * 4 / 5 ≤ (quiescing .mismatch).time.cycles ∧ (((quiescing .mismatch).port 63).tx8 6).quiesce = none) ∧
    ((((quiescing .replay).port 63).tx8 7).quiesce = some (aWait .replay) ∧ (aWait .replay).why = .replay) ∧
    (let x := ((retotal false).port 63).tx8 7; x.quiesce = none ∧ x.newT = some 9 ∧ x.initSent = false ∧ ((retotal false).port 63).trained = true ∧ x.occ = 0 ∧ x.released = x.relReported ∧ (((retotal true).port 63).tx8 7).initSent = true) ∧
    ((flowSet 8).verdict host 0x02B10C true false false = .perform ∧ (flowSet 8).rd R.FLOW_SEL % 256 = 63) ∧
    (let l := (List.range 8).map (fun c => (flowSet 8).rd R.FLOW_T_CFG c (bk := 63) % 1024); l.sum = ((flowSet 8).port 63).buf ∧ (List.range 8).all (fun c => decide (minT c ≤ l.getD c 0)) = true) ∧
    ((List.range 8).map (fun c => (flowSet 9).rd R.FLOW_T_CFG c (bk := 63) % 1024)).sum ≠ ((flowSet 9).port 63).buf :=
  by refine ⟨?_, ?_, ?_, ?_, ?_, ?_, ?_, ?_, ?_, ?_, ?_, ?_, ?_, ?_, ?_, ?_⟩ <;> first | decide +kernel | (constructor <;> decide)


/-- Port 63 up with the census enabled; a mark of class 7 outstanding; and in training only. -/
def censused (k : Option Census) : State :=
  ((late .h).wr R.FLOW_CTRL 1).modPort 63 (fun q => { upPort q with census := k, censusNext := 7, cls := modNth q.cls 7 (fun x => { x with ready := true }) })
def aMark : Census := { num := 2 ^ 32 - 1, cls := 7, outstanding := 8, credited := 0, since := 0 }
theorem test_w_census_and_fall :
  (censused none).Inv ∧ (censused (some aMark)).Inv ∧ trainer.Inv ∧
    (bitOf ((censused none).rd R.FLOW_CTRL) 0 = true ∧ ((censused none).port 63).usable = true ∧ ((censused none).port 63).census = none) ∧
    (((censused none).port 63).censusNext ≠ 0 ∧ (((censused none).port 63).tx8 7).quiesce = none ∧ (((censused none).port 63).tx8 7).ready = true) ∧
    (((censused (some aMark)).port 63).census = some aMark ∧ aMark.num < 2 ^ 32 ∧ 7 < ((censused (some aMark)).port 63).cls.length) ∧
    aMark.outstanding - ((0 + 2 ^ 32 - aMark.credited) % 2 ^ 32 : Nat) + (0 : Nat) - (((censused (some aMark)).port 63).tx8 7).farT = (0 : Int) ∧
    aMark.since + 4 * portRtt (portKind .h 63) * 4 / 5 ≤ (censused (some aMark)).time.cycles ∧
    (((censused none).port 63).up = true ∧ (trainer.port 63).up = false ∧ (trainer.port 63).training = true ∧ ((late .h).port 63).training = false) :=
  by refine ⟨?_, ?_, ?_, ?_, ?_, ?_, ?_, ?_, ?_⟩ <;> first | decide +kernel | (constructor <;> decide)


/-- A unit with an identity. -/
def named (b : Build) (id : Nat) : State := { late b with auth := { (late b).auth with srcId := id } }
def quarantined : State := (named .h 64).modPort 39 (fun q => { q with quar := true, neighbour := 192 })
theorem test_w_discovery :
  (named .h 64).Inv ∧ quarantined.Inv ∧
    (([(39, 64)] : List (Nat × Nat)).find? (fun a => a.1 == 39) = some (39, 64) ∧ 64 % 2 ^ 24 = (named .h 64).srcId ∧ (named .h 64).srcId ≠ 0x7FFFFF) ∧
    (40 ≤ 63 ∧ ((late .h).port 63).answered = false ∧ ((late .h).port 63).missing = false ∧ (late .h).after ((late .h).port 63).discAt 1000 = true) ∧
    (quarantined.verdict host (portAddr .h 39 0x090) true false false = .perform) ∧
    (39 < 40 ∧ (quarantined.port 39).quar = true ∧ (quarantined.port 39).neighbour ≠ quarantined.srcId ∧ quarantined.dupPort 39 192 = none) ∧
    ((late .h).auth.pendId = none ∧ ({ late .h with auth := { (late .h).auth with pendId := some 64 } } : State).auth.pendId = some 64) :=
  by refine ⟨?_, ?_, ?_, ?_, ?_, ?_, ?_⟩ <;> first | decide +kernel | (constructor <;> decide)


def emptyPlan (gen : Nat) : Plan :=
  { gen := gen, act := 5, entries := [], adopts := [], neighbours := none, members := [], timeTree := none, roles := none, leafParts := [] }
def planned : State := { named .h 64 with convoy := { (late .h).convoy with pending := some (emptyPlan 1) } }
theorem test_w_plan :
  planned.Inv ∧ (named .l 65).Inv ∧
    ((named .h 64).planReason (emptyPlan 1) = 0 ∧ (named .h 64).planReason { emptyPlan 1 with members := [(0, 0, List.range 9)] } = 2) ∧
    (planned.convoy.pending = some (emptyPlan 1) ∧ atOrLater 5 (emptyPlan 1).act = true ∧ atOrLater 4 (emptyPlan 1).act = false) ∧
    ((named .l 65).build = .l ∧ (aRec 0).type ≠ 0x80) :=
  by refine ⟨?_, ?_, ?_, ?_, ?_⟩ <;> first | decide +kernel | (constructor <;> decide)


/-- A usable record of a fabric unit, and an entry of the coalescing table. -/
def goodRec : Rec := aRec 0x70
def coalescing : State :=
  let e : CoalEnt := { idx := 256, overflow := true, ev := ⟨0, 0, 0, 0, 0, 0, 0, []⟩, count := 0, countSat := false, lowId := 0, highId := 0, first := 0,
                       last := 0, suppr := 0, openedAt := 0, slots := [] }
  { late .h with coal := { (late .h).coal with entries := [e] } }
theorem test_w_records :
  (withPort (up .h) 63 (fun q => { q with quar := true })).Inv ∧ (sender 8 false).Inv ∧ coalescing.Inv ∧
    (linkLocal goodRec.type goodRec.stream = false ∧ ((withPort (up .h) 63 (fun q => { q with quar := true })).port 63).quar = true ∧ ((up .h).port 63).quar = false) ∧
    (reservedSource 25 = true ∧ reservedSource goodRec.source = false ∧ malformed goodRec 4 48 = false ∧ malformed goodRec 3 48 = true) ∧
    (goodRec.tc < 5 ∧ 0x42 < goodRec.type ∧ ((up .h).dupJudge goodRec).1 = false ∧ (((up .h).dupJudge goodRec).2.dupJudge goodRec).1 = true) ∧
    ((sender 8 false).beatHeld 63 = false ∧ ((sender 8 false).port 63).up = true ∧ (((sender 8 false).port 63).tx8 7).replayPkt = none) ∧
    ((((sender 8 false).port 63).tx8 7).asm = none ∧ ((sender 8 false).unitIn 63 (UnitIn.make 0 7 true true [1])).1 = some [1]) ∧
    ((coalescing.coal.entries.find? (fun e => e.idx == 256)).isSome = true ∧ coalescing.after 0 (coalescing.rd R.TRF_CTRL % 65536) = true) ∧
    (up .t).colOn 7 = false :=
  by refine ⟨?_, ?_, ?_, ?_, ?_, ?_, ?_, ?_, ?_, ?_⟩ <;> first | decide +kernel | (constructor <;> decide)

/-! ### A fleet key and what it signs: ECDSA over P-384 with the private key 2, computed by hand-written arithmetic outside the model -/

/-- The public key. -/
def aKey : List Byte := leBytes 96 0x800e940a701e50612de2394de943fd5f25b46a255f504e903ec46cbc75d875b274ba6dfddfe8bfb7ed3c1b5bfaf1808e61df9552c7a9965bf8640ebe6ee8e04f9e6eb99fd107d251d634f4a659590289f0975bc545002669d9d2a37b0599d908
/-- A trace token of an hour-old unit: slot 0, this unit, ID 9, one second from now. -/
def aToken : List Byte := leBytes 160 0xab68f019404d0f432498953872fd204bcc69f320f5d9d84f0455dc6775e68efc9dd326ac6dd42a5f6d51b8bd49b6763c31c80005c7e5d7020d582650aebb08b4a66d56d340f2a4be06cd2d2010399dcb987ddc5f7e3c796414fa6f60d4417a0700000000000000000000000000000000000000000000000000000000001000000001000000000010000000000000000000000009007fffff0100000032545653
/-- A request that installs the fleet authority. -/
def aRequest : List Byte := leBytes 224 0xeab28a3dcdca2abb102831bfa3ead8f9d268100f2f3834942b6f40e5ac9d9867a4ec6851f56b4f2b6c8b6bab07df470b31c80005c7e5d7020d582650aebb08b4a66d56d340f2a4be06cd2d2010399dcb987ddc5f7e3c796414fa6f60d4417a07800e940a701e50612de2394de943fd5f25b46a255f504e903ec46cbc75d875b274ba6dfddfe8bfb7ed3c1b5bfaf1808e61df9552c7a9965bf8640ebe6ee8e04f9e6eb99fd107d251d634f4a659590289f0975bc545002669d9d2a37b0599d9080000000000000000000000000000000000000000000000010000000132525653
/-- A model of one tree of depth 0. -/
def aPackage : List Byte := leBytes 228 0x96efd336d818f340b2fafdf0443f59939eaec2b5ff902d66959f0cb822db6b2268891ad10e792229dfc42518b3da80e231c80005c7e5d7020d582650aebb08b4a66d56d340f2a4be06cd2d2010399dcb987ddc5f7e3c796414fa6f60d4417a073f800000000000000000000000000000000000006fc8f18efa47719ad15b83c80f9a5959910c4b7b0bbd5c6e2db6b3cd4d2a943ea4c26cb60ee26600bb0c3c24924fc292000000040000000000000000000000000000000000000000000000000000000000000000000000000000000100010000000000010000000100070002324d5653
/-- A pattern package without patterns. -/
def aPattern : List Byte := leBytes 224 0x2576c86569a509ddf26929676bbd73c6ac392b186339e294d12859bde8cc8435ffcb3d308da9d69debbb2822d4e3a0ae31c80005c7e5d7020d582650aebb08b4a66d56d340f2a4be06cd2d2010399dcb987ddc5f7e3c796414fa6f60d4417a070000000000000000000000000000000000000000000000000000000000000000000000000000000000000000000000005bb99848f1d21ad5fb656fe7bfde4e27dae1f663bfc70c4c4307be1411b7fd216ae3b1b17e32d94c3896ac51a760b0380000000000000000000000000000000000000000000000000000000132505653

/-- A unit whose first key slots hold the key, attended. -/
def keyed (b : Build) : State :=
  let ks : List KeySlot := [⟨1, aKey⟩, ⟨0, []⟩, ⟨0, []⟩, ⟨0, []⟩]
  let s := late b
  { s with auth := { s.auth with otp := { s.auth.otp with model := ks, trace := ks } }, core := { s.core with unattended := false } }

/-- A valid token, package, pattern package and request: the reasons that clauses of four statements take as 0. -/
theorem test_w_token : (keyed .l).tokReason aToken = 0 := by decide +kernel
theorem test_w_request : (late .l).reqReason aRequest = 0 := by decide +kernel
theorem test_w_package :
    (keyed .h).pkgReason { TLoad.start false 0 with data := aPackage, verifying := true } = 0 := by decide +kernel
theorem test_w_pattern : (keyed .t).patReason { PatPlace.empty with data := aPattern, verifying := true } = 0 := by decide +kernel
/-- A changed byte ends each of them. -/
theorem test_bad_token : (keyed .l).tokReason (aToken.set 12 8) = 3 := by decide +kernel
theorem test_bad_request : (late .l).reqReason (aRequest.set 223 0) = 3 := by decide +kernel

/-! ### Witnesses: counters, musters, convoys -/

/-- A counter one below its wrap, and a sensor of a good old reading. -/
def counted : State := { late .l with samp := { (late .l).samp with ctrs := [(4095, 2 ^ 64 - 1)], cfgPend := [(0, 1)] } }
def oldSensor (cfg : Nat) : State := (late .h).wr R.SNS_CFG cfg 15
theorem test_w_counters_and_sensors :
  counted.Inv ∧ (oldSensor 256).Inv ∧ (late .t).Inv ∧ ((counted.ctr 4095 = 2 ^ 64 - 1 ∧ 4095 < 4096 ∧ 2 ^ 64 ≤ counted.ctr 4095 + 1)) ∧
    ((counted.core.warm = false ∧ counted.tapIsland 255 ∉ counted.core.tapStopped ∧ counted.tapIsland 255 ∉ counted.core.qscReq)) ∧
    (((counted.dom 1).map (fun x => x.st) = some 0 ∧ ((domAt (late .l) 1 3).dom 1).map (fun x => x.st) = some 3)) ∧
    ((counted.scheduleRuns = false ∧ counted.samp.cfgPend ≠ [] ∧ (late .l).samp.cfgPend = [])) ∧
    (((oldSensor 256).rd R.SNS_CFG 15 / 256 % 256 = 1 ∧ (oldSensor 256).after ((oldSensor 256).sensor 15).goodAt 10 = true)) ∧
    (((oldSensor 0).rd R.SNS_CFG 15 / 256 % 256 = 0 ∧ (late .h).muster.held = false ∧ 12 < 13)) :=
  by refine ⟨?_, ?_, ?_, ?_, ?_, ?_, ?_, ?_, ?_⟩ <;> first | decide +kernel | (constructor <;> decide)


/-- Stream 31 has a command open that latches counter 0; the queue holds n entries. -/
def openCmd : OpenCmd := { stream := 31, latching := true, set := 0, ctrs := [0], values := [2 ^ 64 - 1], tag := 0, num := 1, stamp := 0, gen := 0 }
def anEntry : LatchEnt := { stream := 0, flags := 0, tag := 0, num := 0, start := 0, stop := 0, set := 0, lost := 0, gen := 0, ctrs := [], diffs := [] }
def latching (emit : Nat) : State :=
  let s := (late .l).wr R.CL_CTRL emit
  { s with samp := { s.samp with cmds := [openCmd], queue := [anEntry] } }
theorem test_w_commands :
  (latching 2).Inv ∧ (latching 0).Inv ∧
    ((31 < 32 ∧ hasTaps .l = true ∧ (latching 2).muster.held = false ∧ (latching 2).samp.cmds.find? (fun o => o.stream == 31) = some openCmd ∧ openCmd.latching = true)) ∧
    (((latching 2).samp.queue.length < 1024 ∧ (latching 2).rep.retired ++ (latching 2).rep.marked = [] ∧ bitOf ((latching 2).rd R.CL_CTRL) 1 = true ∧ bitOf ((latching 0).rd R.CL_CTRL) 1 = false)) ∧
    (latching 0).verdict host 0x02120C true false false = .perform :=
  by refine ⟨?_, ?_, ?_, ?_, ?_⟩ <;> first | decide +kernel | (constructor <;> decide)

/-- The queue is full at any length from its capacity on. -/
theorem test_w_full_queue (q : List LatchEnt) (h : q.length = 1024) : (late .l).capOf 5 0 1024 ≤ q.length := by
  rw [h]; exact Nat.sub_le _ _
/-- With no bank retired a memory holds all of it. -/
theorem test_w_capacity (s : State) (k i n : Nat) (h : s.rep.retired ++ s.rep.marked = []) : s.capOf k i n = n := by
  unfold State.capOf; rw [h]; simp

def emptyTensor (pos : Bool) : Tensor :=
  { id := 0, matched := true, positional := pos, emit := true, mbits := 0, count := 0, nan := 0, pinf := 0, ninf := 0, zero := 0, subn := 0, minV := none,
    maxV := none, maxAbs := 0, finite := [], digest := 0, pos := 0, lost := false, first := 0, last := 0 }
def heldUnit (b : Build) : State :=
  { late b with muster := { (late b).muster with held := true }, samp := { (late b).samp with tensors := [(7, emptyTensor false)] } }
theorem test_w_tensors :
  (heldUnit .l).Inv ∧ (late .l).Inv ∧
    (((emptyTensor false).positional = false ∧ (emptyTensor false).count = (emptyTensor false).nan + (emptyTensor false).pinf + (emptyTensor false).ninf)) ∧
    ((7 < 8 ∧ (heldUnit .l).muster.held = true ∧ (late .l).muster.held = false ∧ (heldUnit .l).tensor 7 = some (emptyTensor false))) :=
  by refine ⟨?_, ?_, ?_, ?_⟩ <;> first | decide +kernel | (constructor <;> decide)


/-- A root, with or without a start 2^68 s ahead; a schedule in force. -/
def rooted (hi : Nat) : State :=
  let s := setRegs (late .t) [(R.MST_START_SEC_HI, hi), (R.MST_INTERVAL, 1)]
  { s with muster := { s.muster with root := true } }
def aSched (start interval : Nat) : Sched :=
  { gen := 0, base := 0, start := start, interval := interval, hold := false, holdMax := 0, k := 0, first := 0, stopped := false, released := false }
def scheduled (act : List (Bool × Bool × Nat × Nat)) (start : Nat) (held : Bool) : State :=
  { named .l 65 with muster := { (late .l).muster with cur := some (aSched start 0), action := act, held := held } }
def schedRec (gen : Nat) : Rec := { aRec 0x24 with payload := leBytes 40 gen }
theorem test_w_schedules :
  (rooted 0).Inv ∧ (rooted 65535).Inv ∧ (scheduled [(true, false, 0, 1)] 0 true).Inv ∧
    (((rooted 0).verdict host 0x02009C true false ((rooted 0).mstArmBad 1) = .perform ∧ (late .t).muster.root = false ∧ (rooted 0).muster.root = true)) ∧
    (((rooted 0).startReg < (rooted 0).now + usTime 1000 ∧ ({ rooted 65535 with time := (up .t).time } : State).now + usTime 1000 ≤ (rooted 65535).startReg)) ∧
    ((bitOf 1 0 = true ∧ bitOf 2 0 = false ∧ bitOf 2 1 = true ∧ bitOf 4 2 = true ∧ (rooted 0).verdict host 0x02009C true false ((rooted 0).mstArmBad 4) = .perform)) ∧
    (((schedRec 1).type = 0x24 ∧ (scheduled [] 0 false).srcId ≠ 0x7FFFFF ∧ recPoison (schedRec 1) = false)) ∧
    ((laterThan (leAt (schedRec 1).payload 0 4) (scheduled [] 0 false).muster.gen = true ∧ laterThan (leAt (schedRec 0).payload 0 4) (scheduled [] 0 false).muster.gen = false)) ∧
    (((scheduled [(true, false, 0, 1)] 0 false).muster.action = [(true, false, 0, 1)] ∧ 0 ≤ (scheduled [] 0 false).now ∧ (scheduled [] 0 false).muster.next = [])) ∧
    (((scheduled [] 0 false).nextCut = some (0, 0) ∧ (late .l).nextCut = none ∧ (scheduled [] 0 false).muster.leadRaised = false)) ∧
    (((scheduled [] (2 ^ 70) false).nextCut = some (2 ^ 70, 0) ∧ (scheduled [] 0 false).now + usTime 4 < 2 ^ 70)) ∧
    (((scheduled [] 0 true).muster.held = true ∧ (scheduled [] 0 true).muster.heldUntil ≤ (scheduled [] 0 true).now)) ∧
    ({ scheduled [] 0 true with time := (up .l).time, muster := { (scheduled [] 0 true).muster with heldUntil := 1 } } : State).now < 1 :=
  by refine ⟨?_, ?_, ?_, ?_, ?_, ?_, ?_, ?_, ?_, ?_, ?_, ?_, ?_⟩ <;> first | decide +kernel | (constructor <;> decide)


def anImage (complete : Bool) : Image :=
  { num := 7, gen := 0, t := 0, code := 4, hold := false, stepped := false, late := false, coreOff := false, discIslands := [], lateIslands := [], heldGap := none,
    ctrGen := 0, en := [], ctrs := [], sensors := [], badCtrs := [], badSns := [], tallies := [], links := [], cb := 0, tr := 0, tw := 0, ck := 0, summ := [], stamp := 0, truncPrev := false,
    emerg := 0, therm := true, complete := complete }
def imaged (b : Build) (complete late' : Bool) : State :=
  { named b 65 with muster := { (late b).muster with image := some (anImage complete), lateLatch := late', emit := [aRec 0x30] } }
theorem test_w_cuts :
  (scheduled [] 0 false).Inv ∧ (imaged .l false false).Inv ∧ (imaged .l false true).Inv ∧
    (((scheduled [] 0 false).muster.cur = some (aSched 0 0) ∧ (scheduled [] 0 false).cutsBy (aSched 0 0) (scheduled [] 0 false).now = 1)) ∧
    (((scheduled [] 0 false).muster.stepped = false ∧ (late .l).muster.cur = none ∧ (late .l).muster.image = none ∧ (late .l).muster.emit = [])) ∧
    (((imaged .l false false).muster.image = some (anImage false) ∧ ((imaged .l false false).grant 1 ((imaged .l false false).costImage 0)).isSome = true)) ∧
    ((hasTaps .l = true ∧ (late .l).tapPresent 0 = true ∧ (anImage false).t + nsTime 200 ≤ (imaged .l false false).now ∧ 0 ∉ (anImage false).lateIslands)) ∧
    (((imaged .l false true).muster.lateLatch = true ∧ (imaged .l false true).inRun 1 = true ∧ (imaged .l false true).muster.emit = [aRec 0x30])) :=
  by refine ⟨?_, ?_, ?_, ?_, ?_, ?_, ?_, ?_⟩ <;> first | decide +kernel | (constructor <;> decide)


def somePay : Pay := Pay.of [] [] 0 [(1, 2)]
theorem test_w_merges :
  (((somePay.ents ≠ []) ∧ 0 < 1)) :=
  by decide


def anInput (src in' : Nat) : Entry :=
  { stream := 9, root := false, tray := false, keep := false, height := 1, op := 1, ty := 0, par := 1, dir := false, e0 := 0, srcKind := src, srcArg := 0, stride := 1,
    phase := 0, dlFirst := 1, dlStep := 1, parent := some 36, alt := none, inputs := in', expected := 0, storeOff := 0, storeLen := 0 }
def opened (src epoch : Nat) (ins : List Contr) (te : Nat) : Open :=
  { epoch := epoch, gen := 0, entry := anInput src 6, te := te, inputs := ins, held := [], merged := 0, adopted := false, notAwaited := 0, disc := false }

/-- Slot 0 is stream 9, with the open epochs given; epoch 4 has been opened. -/
def convoyed (en : Nat) (src : Nat) (opens : List Open) (work : List ConvoyWork) (applied : Option Nat) (bc : List Bcast) : State :=
  let sl := { Slot.empty with entry := some (anInput src 6), opens := opens, latest := some 4, applied := applied, bcasts := bc }
  let s := setRegs (named .h 64) [(R.CVY_CTRL, en), (R.CVY_BC_CFG, 1 + 256)]
  { s with convoy := { s.convoy with slots := [(9, sl)], work := work, plan := some { emptyPlan 0 with entries := [anInput src 6] } } }
def pktRec (type epoch : Nat) : Rec :=
  { aRec type with tc := 1, stream := 9, length := 80, payload := leBytes 4 epoch ++ bytes [1, 1] ++ zeros 74 }
def inP (epoch : Nat) : Contr := { bit := 1, r := pktRec 0x40 epoch }
def withImage (s : State) : State := { s with muster := { s.muster with image := some (anImage true) } }
theorem test_w_convoys :
  (convoyed 1 2 [opened 2 4 [inP 4] 0] [] none []).Inv ∧ (withImage (convoyed 1 2 [opened 2 7 [inP 7] 0] [] none [])).Inv ∧
    ((convoyPortOk .h 40 = true ∧ ((convoyed 1 2 [] [] none []).convoyAdmit 40 (pktRec 0x40 4)).1 = true)) ∧
    ((withPort (convoyed 1 2 [] [] none []) 40 (fun q => { q with quar := true })).convoyAdmit 40 (pktRec 0x40 4)).1 = false ∧
    (((pktRec 0x40 4).level = 0 ∧ (convoyed 1 2 [] [] none []).hasId = true ∧ bitOf ((convoyed 1 2 [] [] none []).rd R.CVY_CTRL) 0 = true)) ∧
    ((bitOf ((convoyed 0 2 [] [] none []).rd R.CVY_CTRL) 0 = false ∧ recPoison (pktRec 0x40 4) = false ∧ recPoison { pktRec 0x40 4 with flags := 2 } = true)) ∧
    (let s := convoyed 1 2 [] [] none []; (s.grant 1 s.costConvoy).isSome = true ∧ s.convoy.work = [] ∧ (convoyed 1 2 [] [.packet 40 (pktRec 0x40 4)] none []).convoy.work ≠ []) ∧
    (((convoyed 1 2 [] [] none []).slotAt 0 = none ∧ ((convoyed 1 2 [] [] none []).slotAt 9).isSome = true)) ∧
    ((((convoyed 1 2 [] [] none []).entryFor 9 4).map (fun e => e.inputs.testBit 1) = some true ∧ (parseHdr (pktRec 0x40 4).payload).epoch = 4)) ∧
    (((named .h 64).portBit 40 = some 1 ∧ (convoyed 1 2 [] [] none []).convoy.adopts = [] ∧ bitOf (parseHdr (pktRec 0x40 4).payload).flags 6 = false)) ∧
    (((inP 4).bit = 1 ∧ (opened 2 4 [inP 4] 0).epoch = 4 ∧ ((convoyed 1 2 [] [] none []).slotAt 9).map (fun x => x.2.canOpen 4) = some false)) ∧
    (let s := withImage (convoyed 1 2 [opened 2 7 [inP 7] 0] [] none []); s.muster.image = some (anImage true) ∧ (s.slotNo 0).isSome = true ∧ (s.entryFor 9 7).map (fun e => (e.srcKind, e.takes 7)) = some (2, true) ∧ (convoyed 1 2 [] [] none []).muster.image = none) ∧
    (let s := convoyed 1 7 [opened 7 4 [inP 4] 0] [] none []; s.verdict host ((0x068 + 0 / 16) * 4096 + 0x080 + 0x80 * (0 % 16) + 0x78) true false false = .perform ∧ (opened 7 4 [inP 4] 0).entry.srcKind = 7) ∧
    (((opened 2 4 [] 0).deadline ≤ (late .h).now ∧ (late .h).now < (opened 2 4 [] (2 ^ 70)).deadline ∧ 0 < slotCount .h)) :=
  by refine ⟨?_, ?_, ?_, ?_, ?_, ?_, ?_, ?_, ?_, ?_, ?_, ?_, ?_, ?_⟩ <;> first | decide +kernel | (constructor <;> decide)


def aKid (acked : Bool) (n : Nat) : Kid := { bit := 1, acked := acked, orphan := false, resends := n, uid := 0, sentAt := 0, report := false }
def aBcast (k : Kid) : Bcast := { epoch := 4, fate := none, extra := [], r := pktRec 0x41 4, kids := [k], sentAt := 0, reached := 0, orphans := [], reported := false }
def summarising (on : Bool) (quiet : Nat) : State :=
  let s := setRegs (late .h) [(R.CVY_CTRL, 3), (R.CVY_SD_CFG, 2 * 256 + 4)]
  { s with convoy := { s.convoy with sdActive := on, sdQuiet := quiet } }
theorem test_w_broadcasts :
  (convoyed 1 2 [] [] (some 4) [aBcast (aKid false 0)]).Inv ∧ (summarising true 3).Inv ∧ (summarising false 0).Inv ∧
    (let s := convoyed 1 2 [] [] none []; (s.convoyAdmit 40 (pktRec 0x41 4)).1 = true ∧ (pktRec 0x41 4).type = 0x41 ∧ s.hasId = true ∧ s.convoy.work = []) ∧
    ((((convoyed 1 2 [] [] (some 4) []).slotAt 9).map (fun x => x.2.applied) = some (some 4) ∧ laterThan 4 5 = false ∧ (4 : Nat) ≠ 5)) ∧
    (let s := convoyed 1 2 [] [] none []; let h := parseHdr (pktRec 0x41 4).payload; s.genFor h.epoch = some h.gen ∧ (s.entryFor 9 h.epoch).map (fun e => (e.op, e.ty, e.par)) = some (h.op, h.ty, h.par) ∧
      s.genFor 4 ≠ some (parseHdr (leBytes 4 4 ++ bytes [1, 1] ++ zeros 50 ++ leBytes 4 1 ++ zeros 20)).gen) ∧
    (let s := convoyed 1 2 [] [] none [aBcast (aKid false 0)]; s.after 0 (s.rd R.CVY_BC_CFG % 256) = true ∧ (aKid false 0).resends < s.rd R.CVY_BC_CFG / 256 % 16) ∧
    (let s := convoyed 1 2 [] [] none [aBcast (aKid false 1)]; s.rd R.CVY_BC_CFG / 256 % 16 ≤ (aKid false 1).resends ∧ s.after (aBcast (aKid true 1)).sentAt (s.rd R.CVY_BC_CFG / 65536) = true) ∧
    ({ (up .h) with time := (up .h).time } : State).after 0 (((up .h).wr R.CVY_BC_CFG 65537).rd R.CVY_BC_CFG / 65536) = false ∧
    ((5 ≠ (named .h 64).srcId ∧ bitOf ((summarising true 3).rd R.CVY_CTRL) 1 = true ∧ (summarising true 3).convoy.sdActive = true ∧ (summarising true 3).convoy.sdQuiet = 3)) ∧
    (let s := summarising false 0; 3 < s.rd R.CVY_SD_CFG % 256 ∧ s.rd R.CVY_SD_CFG % 256 ≤ 4 ∧ 1 < s.rd R.CVY_SD_CFG / 256 % 256 ∧ s.convoy.sdActive = false ∧ s.convoy.sdQuiet ≠ 3) :=
  by refine ⟨?_, ?_, ?_, ?_, ?_, ?_, ?_, ?_, ?_, ?_, ?_⟩ <;> first | decide +kernel | (constructor <;> decide)


/-! ### Witnesses: features, trees, verdicts -/

def aPass : FeatPass := { num := 7, stats := [], epochs := [], statNan := false, statPartial := false, kinds := [], grantAt := 0 }
/-- The feature loader at an index; a swap or a pass in a state of its own. -/
def feat (idx ctrl : Nat) (f : FeatSt → FeatSt) : State :=
  let s := setRegs (imaged .h true false) [(R.FEAT_LOAD_IDX, idx), (R.FEAT_CTRL, ctrl)]
  { s with feat := f s.feat }
theorem test_w_features :
  (feat 0 0 id).Inv ∧ (feat 0 1 (fun f => { f with await := some 7, loaded := true })).Inv ∧
    (feat 0 1 (fun f => { f with run := some aPass })).Inv ∧
    (((feat 0 0 id).verdict host 0x02609C true false false = .perform ∧ (feat 0 0 id).verdict host 0x0260A4 true false false = .perform)) ∧
    (((feat 0 0 id).rd R.FEAT_LOAD_IDX < featMax .h ∧ featMax .h ≤ (feat (featMax .h) 0 id).rd R.FEAT_LOAD_IDX)) ∧
    (((feat 0 0 id).feat.validating = false ∧ (feat 0 0 (fun f => { f with validating := true })).feat.validating = true)) ∧
    ((swapReject .h FeatBank.empty 0 = 0 ∧ swapReject .h FeatBank.empty (featMax .h + 1) = 1)) ∧
    (let s := feat 0 0 (fun f => { f with swap := some 0 }); s.feat.swap ≠ none ∧ s.feat.run = none ∧ s.scheduleRuns = false) ∧
    (let s := feat 0 1 (fun f => { f with await := some 7, loaded := true }); s.feat.await = some 7 ∧ s.feat.run = none ∧ s.feat.swap = none ∧ s.feat.loaded = true) ∧
    (let s := feat 0 1 (fun f => { f with await := some 7, loaded := true }); bitOf (s.rd R.FEAT_CTRL) 0 = true ∧ s.inRun 1 = true ∧ (s.grant 3 (s.costFeature s.feat.len (s.feat.active.sumW s.feat.len))).isSome = true) ∧
    (let s := feat 0 1 (fun f => { f with run := some aPass }); s.feat.run = some aPass ∧ s.muster.image = some (anImage true) ∧ aPass.num = (anImage true).num) :=
  by refine ⟨?_, ?_, ?_, ?_, ?_, ?_, ?_, ?_, ?_, ?_, ?_⟩ <;> first | decide +kernel | (constructor <;> decide)


def aModel : TModel := { id := 1, ver := 1, depth := 0, link := 0, cls := 1, bases := [0], trees := [([], [0])] }
def aSample : Sample :=
  { slot := 3, num := 7, source := 33, self := true, stream := 9, feats := [], statNan := false, disc := false, held := false, excused := false, therm := false }
def treed (load : Option TLoad) (f : TreeSt → TreeSt) : State :=
  let s := (named .h 64).wr R.TREE_CTRL 1
  { s with tree := f { s.tree with load := load }, core := { s.core with unattended := false } }
def loading (d : List Byte) : TLoad := { TLoad.start false 3 with data := d }
def chunking : TLoad := { TLoad.start true 3 with data := [0] }
def waitingTree (sl : Nat) : State :=
  treed none (fun t => { t with wait := [aSample], slots := modNth t.slots sl (fun x => { x with force := some aModel }) })
def modelChunk : Rec := { aRec 0x50 with tc := 7, stream := 1 }
theorem test_w_models :
  (treed (some (loading [])) id).Inv ∧ (waitingTree 3).Inv ∧ (treed none (fun t => { t with queue := [(aSample, aModel)] })).Inv ∧
    (((treed none id).verdict host 0x028098 true false false = .perform ∧ (treed none id).tree.load = none ∧ 3 < 4)) ∧
    (((treed none id).verdict host 0x02809C true false false = .perform ∧ (loading []).chunks = false ∧ (loading []).verifying = false ∧ 0 + 4 ≤ pkgMax)) ∧
    (((treed none id).takesModel modelChunk = false ∧ ((treed none id).wr R.TREE_LOAD_STREAM 1).takesModel modelChunk = true)) ∧
    ((chunking.chunks = true ∧ chunking.verifying = false ∧ leAt modelChunk.payload 0 4 ≠ chunking.data.length)) ∧
    ((treed (some { loading [] with verifying := true }) id).grant 6 ((treed none id).costBulk 0)).isSome = true ∧
    (((treed none id).verdict host (0x028130 + 64 * 3) true false false = .perform ∧ (treed none id).tree.wait = [] ∧ (treed none id).tree.queue = [])) ∧
    (let s := waitingTree 3; s.tree.wait = [aSample] ∧ bitOf (s.rd R.TREE_CTRL) 0 = true ∧ s.inRun 2 = true ∧ (s.tslot 3).staged = none ∧ (s.tslot 3).modelFor 7 = some aModel) ∧
    (let s := waitingTree 3; (s.treeRoom aModel = true) ∧ (s.grant 2 (s.costTree aModel.trees.length aModel.depth)).isSome = true) :=
  by refine ⟨?_, ?_, ?_, ?_, ?_, ?_, ?_, ?_, ?_, ?_, ?_⟩ <;> first | decide +kernel | (constructor <;> decide)


def aResult : OutRes := { sample := aSample, outs := [0], poison := false, cutAt := 1 }
def anEnt (seen : Nat) : DefEnt := { id := 33, cls := 2, score := 0, chronic := false, since := 0, seen := seen, rank := 0, reason := 0 }
def raised (at_ : Nat) : DieEnt := { DieEnt.fresh 33 0 with cls := 3, esc := 2, escAt := at_ }
/-- A keeper after cut 1023 in an emergency state. -/
def keeper (e last : Nat) (f : OutSt → OutSt) : State :=
  let s := (named .h 64).wr R.OUT_REQ_REPEAT 256
  { s with convoy := { s.convoy with keeper := true }, muster := { s.muster with lastNum := last }, drover := { s.drover with emerg := e }, out := f s.out }
theorem test_w_verdicts :
  (keeper 0 1024 (fun o => { o with results := [aResult] })).Inv ∧
    (keeper 2 1024 (fun o => { o with dies := [(1, raised 0)], deferred := [anEnt 0] })).Inv ∧
    (let s := keeper 0 0 id; s.out.results.find? s.ready = none ∧ escalates (DieEnt.fresh 33 0).cls = false ∧ nextTest 0 0 = some 1 ∧ nextTest 3 6 = none) ∧
    (let s := keeper 0 0 (fun o => { o with results := [aResult] }); s.out.results.find? s.ready = some aResult ∧ aResult.sample.self = true ∧ (s.grant 2 (s.costVerdict * (s.out.results.filter aResult.with).length)).isSome = true) ∧
    (let s := keeper 0 1024 (fun o => { o with dies := [(1, raised 0)] }); escalates (raised 0).cls = true ∧ (raised 0).esc ≠ 0 ∧ s.reqRepeat ≤ (s.muster.lastNum + 2 ^ 32 - (raised 0).escAt % 2 ^ 32) % 2 ^ 32) ∧
    (let s := keeper 0 1024 (fun o => { o with deferred := [anEnt 0] }); 0 < deferMax .h ∧ s.convoy.keeper = true ∧ s.out.deferred[0]? = some (anEnt 0) ∧ 4 * s.reqRepeat ≤ 1024) ∧
    (let s := keeper 0 1024 id; s.verdict host 0x0290A4 true false false = .perform ∧ s.verdict host 0x0290CC true false false = .perform ∧ s.verdict host 0x0290A0 true false false = .perform) ∧
    (((late .h).convoy.keeper = false ∧ (keeper 2 0 id).drover.emerg = 2 ∧ (keeper 0 0 id).drover.emerg ≠ 2 ∧ 64 % 2 ^ 24 = (keeper 0 0 id).srcId)) ∧
    (let s := keeper 0 1024 (fun o => { o with dies := [(1, DieEnt.fresh 33 0)] }); s.die 1 = some (DieEnt.fresh 33 0) ∧ 1 < dieMax .h ∧ (DieEnt.fresh 33 0).cls ≤ 1) ∧
    ((1024 ≤ ((keeper 0 1024 id).muster.lastNum + 2 ^ 32 - (DieEnt.fresh 33 0).last % 2 ^ 32) % 2 ^ 32 ∧ ((1023 + 2 ^ 32 - 0 % 2 ^ 32) % 2 ^ 32 < 1024))) ∧
    (let s := keeper 0 0 id; s.verdict host 0x029200 true false (s.admitBad 0x8001) = .perform ∧ bitOf 0x8001 15 = true ∧ s.out.admission.st ≠ 1) ∧
    (let s := keeper 0 0 (fun o => { o with admission := { Admit.idle with st := 1 } }); s.out.admission.st = 1 ∧ s.link.admitDue = [] ∧ s.after 0 (1000 * 200) = true) :=
  by refine ⟨?_, ?_, ?_, ?_, ?_, ?_, ?_, ?_, ?_, ?_, ?_, ?_⟩ <;> first | decide +kernel | (constructor <;> decide)


/-! ### Witnesses: checks, trace, graphs -/

def abft (b : Build) (ctrl : Nat) (f : AbftSt → AbftSt) : State :=
  let s := setRegs (late b) [(R.ABFT_CTRL, ctrl), (R.ABFT_ENG_EN, 2 ^ 31), (R.ABFT_IDLE_STREAMS, 2 ^ 31)]
  { s with abft := f s.abft, core := { s.core with unattended := false } }
def aRun : PatRun := { checks := 0, fails := 0, startStamp := 0, startAt := 0 }
def aLane (act : Nat) : CkLane :=
  { engine := 31, prec := 6, epoch := 2 ^ 32 - 1, pred := 0, act := act, mag := 0 }
def noticeRec : Rec := { aRec 0x48 with tc := 0, stream := 9 }
def sentNotice : State :=
  let s := (late .h).modPort 63 (fun q => { upPort q with cls := modNth q.cls 0 (fun x => { x with held := [anItem 8] }) })
  { s with abft := { s.abft with sent := [(63, 3, 0)] } }
def placed (d : List Byte) : State := abft .t 0 (fun a => { a with places := modNth a.places 3 (fun x => { x with verifying := true, data := d }) })
theorem test_w_silent_errors :
  (abft .l 3 id).Inv ∧ (abft .l 0 (fun a => { a with run := some aRun })).Inv ∧ sentNotice.Inv ∧ (placed []).Inv ∧
    ((fIsNan b64 b64.nan = true ∧ fIsNan b64 0 = false ∧ 0 < b64.inf)) ∧
    ((bitOf ((abft .l 0 id).rd R.ABFT_CTRL) 0 = false ∧ bitOf ((abft .l 1 id).rd R.ABFT_CTRL) 0 = true ∧ 31 < 32 ∧ 6 < 7 ∧ bitOf ((abft .l 1 id).rd R.ABFT_ENG_EN) 31 = true)) ∧
    (((abft .l 1 id).abft.run = none ∧ (abft .l 1 id).laneCheck (aLane b64.inf) = .fail ∧ (abft .l 1 id).laneCheck (aLane 0) = .pass)) ∧
    (((abft .l 1 id).verdict host 0x0230CC true false false = .perform ∧ noticeRec.type = 0x48 ∧ linkLocal noticeRec.type noticeRec.stream = false ∧ recPoison noticeRec = false)) ∧
    ((sentNotice.abft.sent = [(63, 3, 0)] ∧ 0 + 1200 ≤ sentNotice.time.cycles ∧ (sentNotice.port 63).usable = true ∧ ((sentNotice.port 63).tx8 0).held.find? (fun i => i.uid == 3) = some (anItem 8))) ∧
    (((abft .l 0 id).verdict host 0x023310 true false ((abft .l 0 id).patGoBad 1) = .perform ∧ (abft .l 0 id).after aRun.startAt (1000 * 1000) = true)) ∧
    (let s := abft .l 3 id; s.abft.offer = none ∧ bitOf (s.rd R.ABFT_CTRL) 1 = true ∧ s.drover.emerg = 0 ∧ s.core.unattended = false ∧ s.cmdOpen 31 = false ∧ s.after (assocD 0 31 s.samp.cmdIdleAt) (s.rd R.ABFT_IDLE_MIN % 65536) = true) ∧
    (((placed []).abft.places.findIdx? (fun p => p.verifying) = some 3 ∧ ((placed []).grant 6 ((placed []).costBulk 0)).isSome = true)) ∧
    (((late .t).abft.places.findIdx? (fun p => p.verifying) = none ∧ (late .t).verdict host (0x02341C + 16 * 3) true false false = .perform)) :=
  by refine ⟨?_, ?_, ?_, ?_, ?_, ?_, ?_, ?_, ?_, ?_, ?_, ?_, ?_⟩ <;> first | decide +kernel | (constructor <;> decide)


def aTok (nb na st : Nat) : Token := { id := 9, key := 0, scope := 0, priv := 0, cls := 0, notBefore := nb, notAfter := na, st := st }
def aBlock (closed drained : Bool) : TBlock :=
  { idx := 0, seq := 0, items := 1, plaram := false, window := false, trigger := false, drained := drained, closed := closed, first := 0, last := 0, anchor := [],
    data := [0], openAt := 0 }
def traced (ctrl : Nat) (f : TraceSt → TraceSt) : State :=
  let s := setRegs (late .l) [(R.TRC_CTRL, ctrl), (R.TRC_TRIG_EN, 2 ^ 21)]
  { s with trace := f s.trace, core := { s.core with unattended := false } }
def coded0 (s : State) : State := { s with time := { s.time with code := 0 } }
theorem test_w_trace :
  (traced 0 id).Inv ∧ (traced 0x102 (fun t => { t with blocks := [aBlock true false], running := true, plaram := true })).Inv ∧
    (((traced 0 id).verdict host 0x024080 true false (fld 1 3 2 == 3) = .perform ∧ (traced 0 id).verdict host 0x02408C true false false = .perform)) ∧
    (((traced 0 id).verdict host 0x02409C true false false = .perform ∧ (traced 0 id).verdict host 0x024100 true false false = .perform ∧ (traced 0 id).verdict host 0x024104 true false false = .perform)) ∧
    (((traced 0 id).trace.running = false ∧ bitOf ((traced 0 id).rd R.TRC_TRIG_EN) 20 = false ∧ bitOf ((traced 0 id).rd R.TRC_TRIG_EN) 21 = true ∧ 21 < 22)) ∧
    (((traced 0 id).trace.load = none ∧ (traced 0 id).trace.verify = none ∧ (traced 0 (fun t => { t with load := some [] })).trace.load = some [])) ∧
    (((traced 0 (fun t => { t with verify := some [] })).trace.verify = some [] ∧ (traced 0 id).tokReason [] = 1)) ∧
    (((traced 0 id).verdict host 0x02410C true false false = .perform ∧ [(7, aTok 0 1 0)].find? (fun q => q.2.id == 9) = some (7, aTok 0 1 0))) ∧
    (((coded0 (traced 0 (fun t => { t with tokens := [(7, aTok 0 1 0)] }))).qcode ≤ 1 ∧ (traced 0 id).trace.tokens.find? (fun q => q.1 == 7) = none)) ∧
    (((aTok 0 1 0).notAfter ≤ (traced 0 id).now ∧ (traced 0 id).now < (aTok 0 (2 ^ 70) 0).notAfter ∧ (traced 0 id).trace.current = none)) ∧
    (let s := traced 0x102 (fun t => { t with running := true, plaram := true }); s.trace.running = true ∧ s.trace.plaram = true ∧ s.after s.trace.syncAt 128000000 = true) ∧
    (let s := traced 0x102 (fun t => { t with blocks := [aBlock true false] }); s.trcDrains = true ∧ s.inRun 4 = true ∧ s.drainNext = some (aBlock true false) ∧ (s.grant 5 (s.costTrace (1 + 40))).isSome = true) ∧
    (((traced 0 id).trcDrains = false ∧ (late .h).trace.agg = [] ∧ (late .h).verdict host 0x0250E0 true false false = .perform)) ∧
    (((traced 0 id).traceDom = 0 ∧ (domAt (traced 0 id) 4 3).traceDom = 3 ∧ [0, 0].all (fun n => n == 0) = true ∧ 4 < 5 ∧ (1 : Nat) % 4 ≠ 0)) ∧
    (aTok 0 1 0).covers { cls := 4, priv := 1, ctx := 0, data := 0 } = false :=
  by refine ⟨?_, ?_, ?_, ?_, ?_, ?_, ?_, ?_, ?_, ?_, ?_, ?_, ?_, ?_, ?_⟩ <;> first | decide +kernel | (constructor <;> decide)

theorem test_w_agg_room (r : Rec) : ({ late .h with trace := { (late .h).trace with agg := [⟨64, 0, 0, r⟩] } } : State).trace.agg = [⟨64, 0, 0, r⟩] ∧
    24 ≤ (late .h).rd R.TB_AGG_SIZE := by exact ⟨rfl, by decide⟩

def anAsm (done : Option Nat) : PkgAsm :=
  { num := 1, ts := 0, code := 0, suspect := true, tray := false, asked := [65], first := [65], second := [65], ents1 := [⟨65, 0, 1, 3, 0⟩],
    ents2 := [⟨65, 0, 1, 3, 0⟩], doneAt := done }
def graphed (f : HangSt → HangSt) : State :=
  let s := setRegs (named .h 64) [(R.HANG_CTRL, 1), (R.HANG_TIMEOUT, 1)]
  let s := s.wr R.HANG_PROG (2 ^ 31 + 4095) 3
  { s with hang := f s.hang, fw := { s.fw with st := 1 } }
def aWs : WsEnt := { die := 64, engine := 31, kind := 1, target := 3, stamp := 0 }
def aMerge (need : List Nat) : TrayMerge := { num := 1, need := need, ents := [], local_ := [], openedAt := 0 }
def merging (need : List Nat) : State := { late .t with hang := { (late .t).hang with merge := some (aMerge need) } }
theorem test_w_wait_graphs :
  (graphed id).Inv ∧ (graphed (fun h => { h with asm := some (anAsm (some 0)) })).Inv ∧ (merging [1]).Inv ∧ (merging []).Inv ∧
    (((anAsm none).edges.1 = [⟨65, 0, 1, 3, 0⟩] ∧ cyclesOfEdges [⟨65, 0, 1, 65 * 32, 0⟩] = cyclesOfEdges [⟨65, 0, 1, 65 * 32, 0⟩])) ∧
    ((hasTaps .h = true ∧ ¬ (32 ≤ 31) ∧ bitOf ((late .h).rd R.HANG_CTRL) 0 = false ∧ bitOf ((graphed id).rd R.HANG_CTRL) 0 = true)) ∧
    (((graphed id).progNow = [(4095, 0)] ∧ fld ((graphed id).rd R.HANG_TIMEOUT) 23 0 ≠ 0 ∧ (graphed id).progNow ≠ (graphed id).hang.prog)) ∧
    (let s := graphed (fun h => { h with prog := [(4095, 0)], ws := [aWs] }); s.progNow = s.hang.prog ∧ s.hang.suspect = false ∧ s.waiting ≠ [] ∧ s.after s.hang.progAt 1 = true) ∧
    (let s := graphed (fun h => { h with snap := some ⟨1, 0, 0, false⟩ }); s.hang.snap = some ⟨1, 0, 0, false⟩ ∧ s.snapDue ⟨1, 0, 0, false⟩ ≤ s.now ∧ s.now < s.snapDue ⟨1, 2 ^ 70, 0, true⟩) ∧
    (let s := graphed (fun h => { h with pendSuspect := true }); s.fw.st = 1 ∧ s.fw.blackout = none ∧ s.hang.asm = none ∧ s.drover.emerg ≠ 2 ∧ s.hang.pendSuspect = true) ∧
    (let s := graphed (fun h => { h with asm := some (anAsm (some 0)) }); s.asmDue (anAsm (some 0)) = true ∧ s.asmDue (anAsm none) = false ∧ (s.grant 2 (s.costHang 2)).isSome = true) ∧
    (let s := merging []; (aMerge []).need = [] ∧ (aMerge [1]).need ≠ [] ∧ s.after 0 5000 = true ∧ (s.grant 2 (s.costHang 0)).isSome = true ∧ (up .t).after 0 5000 = false) :=
  by refine ⟨?_, ?_, ?_, ?_, ?_, ?_, ?_, ?_, ?_, ?_, ?_, ?_⟩ <;> first | decide +kernel | (constructor <;> decide)


/-! ### Witnesses: lanes, the pair, publication, firmware, authority -/

/-- Member A of a pair; a pair lane up and silent; a Ralud lane. -/
def paired (f : PubSt → PubSt) : State :=
  let s := late .t
  { s with core := { s.core with straps := 1 }, pub := f s.pub }
def lane (b : Build) (p : Nat) (f : Port → Port) : State := (late b).modPort p f
def silent : State := (paired id).modPort 17 upPort
theorem test_w_lanes_and_pair :
  (paired id).Inv ∧ silent.Inv ∧ (lane .t 15 upPort).Inv ∧ (lane .t 15 (fun q => { q with training := true, step := 2 })).Inv ∧ (late .h).Inv ∧
    (((late .t).core.peerLow = false ∧ (paired id).pub.lost = false ∧ (late .t).rolePair = false ∧ (paired id).rolePair = true ∧ (paired id).pairLanes = [] ∧ silent.pairLanes = [17])) ∧
    (((silent.port 17).up = true ∧ (silent.port 16).up = false ∧ (silent.port 17).farDoze = false ∧ (silent.port 17).dozing = false ∧ silent.after (silent.port 17).rxAt 30 = true)) ∧
    (let s := paired (fun x => { x with downAt := some 0 }); s.pub.downAt = some 0 ∧ s.core.peerLow = false ∧ s.after 0 (fld (s.rd R.PAIR_LOST_WAIT) 15 0) = true ∧ (paired id).pub.downAt = none) ∧
    ((silent.after silent.pub.fullAt 10000 = true ∧ silent.after silent.pub.curAt 10 = true)) ∧
    ((isLane .t 15 = true ∧ isLane .h 39 = true ∧ (late .t).mayTrain 15 = true ∧ ((late .t).port 15).training = false ∧ (lane .t 15 (fun q => { q with heldDown := true })).mayTrain 15 = false)) ∧
    (let s := lane .t 15 (fun q => { upPort q with retrains := [10 ^ 13 - 1, 10 ^ 13 - 2] }); 2 ≤ (((s.linkDown 15 1).port 15).retrains.filter (fun x => decide ((s.linkDown 15 1).time.cycles < x + cyclesOf 10000000))).length) ∧
    (let s := lane .t 15 (fun q => { q with training := true, step := 2 }); (s.port 15).training = true ∧ (s.port 15).step = 2) ∧
    (let s := lane .t 15 upPort; ((s.port 15).uncorrAt.filter (fun x => decide (s.time.cycles < x + cyclesOf 1000))).length + 1 ≤ fld (s.degCfg 15) 31 24) ∧
    ((portKind .t 15 = 2 ∧ (late .t).verdict host (laneCtrlAddr .t 15) true false false = .perform ∧ bitOf 1 0 = true ∧ bitOf 1 1 = false)) ∧
    (let s := lane .t 15 (fun q => { q with wakeSeq := some 0 }); (s.port 15).wakeSeq = some 0 ∧ s.after 0 2 = true ∧ ((late .t).port 15).wakeSeq = none) :=
  by refine ⟨?_, ?_, ?_, ?_, ?_, ?_, ?_, ?_, ?_, ?_, ?_, ?_, ?_, ?_, ?_⟩ <;> first | decide +kernel | (constructor <;> decide)


def aDgram : Dgram := { dseq := 1, uids := [], flags := 0, off := 0, len := 0 }
/-- Entry 7 is a peer; its session stands as given. -/
def session (f : Session → Session) : State :=
  let s := (late .t).wr R.PUB_CTRL 1
  let s := (s.wr R.COL_PEER_ID 128 0 0 0 7).modSess 7 f
  s.wr R.COL_CTRL 3 0 0 0 7
def openS : Session → Session := fun x => { x with st := 2, id := 5, next := 3, ack := 1, out := [aDgram] }
theorem test_w_publication :
  (session openS).Inv ∧ (session (fun x => { x with st := 1 })).Inv ∧
    (((late .t).pub.sess.length = 8 ∧ 7 < 8 ∧ (late .t).link.pubQ = [] ∧ 1 < 2 ∧ (late .t).pub.ethUp.getD 1 false = false ∧ (late .t).verdict host 0x111200 true false false = .perform)) ∧
    ((((session (fun x => { x with st := 1 })).sess 7).st = 1 ∧ (session (fun x => { x with st := 1 })).after 0 10000 = true ∧ ((late .t).sess 7).st = 0)) ∧
    (let s := session openS; (s.sess 7).st = 2 ∧ (s.sess 7).id = 5 ∧ (s.sess 7).ack < 2 ∧ 2 < (s.sess 7).next ∧ 1 ≤ (s.sess 7).ack ∧ (s.sess 7).next ≤ 3) ∧
    (let s := session openS; (s.sess 7).out ≠ [] ∧ s.after (s.sess 7).rtoAt (s.sess 7).rto = true ∧ s.after (s.sess 7).advAt (1000 * s.pubDead) = true) ∧
    (((session openS).colOn 7 = true ∧ (session openS).colPeer 7 = true ∧ fld ((session openS).rd R.COL_PEER_ID 0 0 0 7) 23 0 = 128 ∧ (late .t).colOn 7 = false)) ∧
    ((bitOf ((late .t).rd R.ETH_PFC (pg := 1)) 7 = false ∧ bitOf (((late .t).wr R.ETH_PFC 128 (pg := 1)).rd R.ETH_PFC (pg := 1)) 7 = true ∧ 1 < (late .t).link.paused.length)) ∧
    (((late .t).ethAddr 1 = 0 ∧ ((late .t).wr R.ETH_ADDR 1 0 0 1).ethAddr 1 = 1)) :=
  by refine ⟨?_, ?_, ?_, ?_, ?_, ?_, ?_, ?_, ?_⟩ <;> first | decide +kernel | (constructor <;> decide)

theorem test_w_store_room (s : State) (r : Rec) (h : s.rep.retired ++ s.rep.marked = []) (hs : s.storeUsed = 0) (hr : r.payload = []) :
    s.storeUsed + recSize r ≤ s.capOf 5 4 storeMax := by
  rw [test_w_capacity s 5 4 storeMax h, hs]; simp [recSize, hr, storeMax]

/-- Firmware that runs, with command slot 63 taken. -/
def served (busy : List (Nat × Nat)) (regs : List (Nat × Nat)) (f : FwSt → FwSt) : State :=
  let s := late .t
  let s := regs.foldl (fun (s : State) x => s.wr R.CMD_ARG x.2 63 x.1) s
  { s with fw := f { s.fw with st := 1, busy := busy } }
def region1 (st : Nat) (x : FwSt) : FwSt := { x with regions := [⟨st, 0, [⟨8, 5⟩]⟩, ⟨0, 0, []⟩, ⟨0, 0, []⟩, ⟨0, 0, []⟩] }
theorem test_w_firmware :
  (served [] [] id).Inv ∧ (served [(7, 63)] [] (region1 5)).Inv ∧ (late .h).Inv ∧
    ((63 < 64 ∧ (late .t).slotOwned 63 = false ∧ (late .t).verdict host (0x007200 + 0x30 * 63) true false false = .perform ∧ (late .t).verdict host 0x0070B4 true false false = .perform)) ∧
    (((late .t).verdict fware 0x0070A0 true false false = .perform ∧ (late .t).verdict host 0x0070E4 true false false = .perform)) ∧
    (((late .t).rd R.FW_DATA_ADDR / 4 * 4 + 4 ≤ (late .t).storeSize ∧ (late .t).fwServes = false ∧ (late .t).fwTicks = false ∧ (served [] [] id).fwServes = true ∧ (served [] [] id).fwTicks = true)) ∧
    (((served [] [] id).fw.bulk = [] ∧ (served [] [] id).fw.defer = none ∧ (served [] [] id).dirty 63 = false ∧ fld ((late .t).rd R.CMD_CTRL 63) 31 16 = 0)) ∧
    (let s := (late .t).wr R.CMD_CTRL (8 * 65536 + 8 * 256) 63; fld (s.rd R.CMD_CTRL 63) 31 16 ≠ 0 ∧ opLen (fld (s.rd R.CMD_CTRL 63) 15 8) = none ∧ opLen 7 = some 4) ∧
    (((served [(1, 63)] [(0, 2 ^ 31)] id).badRange 63 = some 0 ∧ (served [(1, 63)] [(1, 2 ^ 31)] id).badRange 63 = some 1 ∧ (served [(1, 63)] [] id).badRange 63 = none)) ∧
    (((served [(1, 63)] [] id).fw.busy.contains (1, 63) = true ∧ parsePlan .t (late .t).srcId ((late .t).cmdData 63) = none)) ∧
    ((imageMax < (served [] [(2, 2 ^ 31)] id).cmdArg 63 2 + 0 ∧ (served [] [] id).cmdArg 63 2 + (served [] [] id).cmdArg 63 1 ≤ imageMax ∧ 2 ≤ (late .t).fw.regions.length)) ∧
    (((late .t).stagedOf 1 = none ∧ (served [(4, 63)] [] id).slotOf 4 = some 63 ∧ (served [(4, 63)] [] (fun x => { x with defer := some 0 })).fw.defer = some 0)) ∧
    (((served [(4, 63)] [] (fun x => { x with defer := some 0 })).after 0 60000000 = true ∧ (served [] [] id).after (served [] [] id).drover.clearAt 1000000 = true)) ∧
    (((served [(5, 63)] [(2, 0x50)] id).cmdArg 63 2 % 256 = 0x50 ∧ (served [(5, 63)] [] id).cmdArg 63 2 % 256 ≠ 0x51 ∧ (served [] [] id).auth.queue.any (fun c => c.asker == 63) = false)) ∧
    (let s := served [] [] (region1 5); s.fw.st = 1 ∧ s.fw.region < 2 ∧ (s.region s.fw.region).st = 5 ∧ s.after s.fw.startAt 60000000 = true ∧ s.inRun 5 = true ∧ s.after s.fw.tickAt 100000 = true) ∧
    (((late .t).fw.st = 0 ∧ (late .t).inRun 5 = true ∧ 4 ≤ (late .t).fw.regions.length ∧ (late .t).fw.hbLate = false ∧ (late .t).fw.hbAt + usTime 100000 ≤ (late .t).now)) ∧
    (((late .t).core.unattended = true ∧ (keyed .t).core.unattended = false ∧ (keyed .t).fw.hbAt + usTime 1000000 ≤ (keyed .t).now ∧ (up .t).now < (up .t).fw.hbAt + usTime 100000)) :=
  by refine ⟨?_, ?_, ?_, ?_, ?_, ?_, ?_, ?_, ?_, ?_, ?_, ?_, ?_, ?_, ?_, ?_, ?_⟩ <;> first | decide +kernel | (constructor <;> decide)


def mapped (n : Nat) : State :=
  let ms : List Remap := (List.range n).map (fun i => { kind := 3, inst := 0, bank := 0, row := 511 - i, spare := i })
  { late .h with rep := { (late .h).rep with remaps := ms, marked := [(3, 0, 0)] } }
def raisedFloor : State := { late .h with auth := { (late .h).auth with otp := { (late .h).auth.otp with floor := 1 } } }
theorem test_w_authority :
  (mapped 4).Inv ∧ raisedFloor.Inv ∧ (((late .h).reqReason [] = 1 ∧ (late .h).auth.queue = [] ∧ (late .h).auth.busy = false)) ∧
    (((late .h).verdict host 0x0010A4 true false ((late .h).floorBad 0xF1000000) = .perform ∧ (late .h).floorWaits = none ∧ 0xF1000000 % 8 = (late .h).auth.otp.floor)) ∧
    (((late .h).auth.otp.floor ≤ (late .h).auth.floorNow ∧ raisedFloor.auth.floorNow < raisedFloor.auth.otp.floor)) ∧
    (((late .h).after (late .h).rep.patrolAt (1000 * fld ((late .h).rd R.REP_SCRUB_PERIOD) 15 0) = true ∧ (up .h).after 0 (1000 * fld ((up .h).rd R.REP_SCRUB_PERIOD) 15 0) = false)) ∧
    ((((mapped 3).groupOf 3 0 0 0).all (fun m => m.row != 0 && m.spare != 3) = true ∧ ((mapped 3).groupOf 3 0 0 0).map (fun m => m.spare) = [0, 1, 2])) ∧
    ((((mapped 4).groupOf 3 0 0 0).map (fun m => m.spare) = [0, 1, 2, 3] ∧ (mapped 4).rep.marked.contains (3, 0, 0) = true ∧ (late .h).rep.marked = [])) ∧
    (((late .t).fwServes = false ∧ (served [] [] id).fwServes = true ∧ (State.resetOf .h).core.por = true ∧ (late .h).core.por = false)) :=
  by refine ⟨?_, ?_, ?_, ?_, ?_, ?_, ?_, ?_, ?_⟩ <;> first | decide +kernel | (constructor <;> decide)


/-! ### Witnesses: the rules stated whole, and worked values of the spec -/

theorem test_w_drover_disabled :

    ((host.cls = .host ∧ (up .h).domVerdict 0 = .perform ∧ bitOf (2 : Word).toNat 0 = false ∧ bitOf (((up .h).wr R.DRV_CTRL 0).rd R.DRV_CTRL) 0 = false)) ∧
    (let s := (up .h).wr R.DRV_BURST 1 0; fld (s.rd R.DRV_BURST 0) 27 0 ≤ min (10 * 65535) (fld (s.rd R.DRV_W1_RESERVE) 15 0) ∧ 0 ≤ s.drover.levels.getD 0 0) :=
  by refine ⟨?_, ?_⟩ <;> decide

theorem test_w_shares :

    ((100 < shareSum 0x64 ((up .h).rd R.DRV_SHARE1) ∧ shareSum 0 ((up .h).rd R.DRV_SHARE1) ≤ 100 ∧ 100 < shareSum ((up .h).rd R.DRV_SHARE0) 0x64 ∧ shareSum ((up .h).rd R.DRV_SHARE0) 0 ≤ 100)) :=
  by decide

theorem test_w_ewma :
  ((insOp (5 * 2 ^ 58) = 5 ∧ nonFin b64.nan = 1 ∧ nonFin 0 = 0 ∧ nonFin b64.inf = 1)) :=
  by decide


/-! ### Witnesses of the forms that several statements add -/

/-- A place whose verified package holds an uncorrectable word. -/
def bar2Bad : State := { bar2 2 with abft := { (bar2 2).abft with places := modNth (bar2 2).abft.places 3 (fun x => { x with bad := true }) } }
/-- A register-port access that waits on CORE. -/
def aWaitAcc (addr : Nat) : WaitAcc := { acc := host, addr := addr, write := false, data := 0, dom := 1, rsp := none }
def waitsFor (n : Nat) : State := { late .h with core := { (late .h).core with wait := (List.range n).map (fun k => aWaitAcc (0x026080 + 4 * k)) } }
theorem test_w_waiting_accesses :
  bar2Bad.Inv ∧ (waitsFor 8).Inv ∧ (bar2Bad.abft.places[3]?).map (fun x => (x.st, x.bad)) = some (2, true) ∧
    ((bar2 2).abft.places[3]?).map (fun x => x.bad) = some false ∧ (waitsFor 8).portFull host = true ∧ (waitsFor 7).portFull host = false ∧
    (waitsFor 2).core.wait = [aWaitAcc 0x026080, aWaitAcc 0x026084] ∧ (waitsFor 2).inRun 1 = true :=
  by refine ⟨?_, ?_, ?_, ?_, ?_, ?_, ?_, ?_⟩ <;> first | decide +kernel | (constructor <;> decide)

/-- The hand-shake of TREE with its two levels. -/
def shaking (st tgt : Nat) (req ack : Bool) : State :=
  (late .h).modDom 2 (fun x => { x with st := st, moving := if req then some tgt else none, req := req, ack := ack })
theorem test_w_hand_shake :
  (shaking 0 2 true false).Inv ∧ (shaking 2 0 false true).Inv ∧
    ((shaking 0 2 true false).dom 2).map (fun x => (x.req, x.ack, x.moving)) = some (true, false, some 2) ∧
    ((shaking 2 0 true false).dom 2).map (fun x => (x.st, x.req, x.moving)) = some (2, true, some 0) ∧
    ((shaking 1 0 true false).dom 2).map (fun x => (x.st, x.moving)) = some (1, some 0) ∧
    ((shaking 2 0 false true).dom 2).map (fun x => (x.req, x.ack)) = some (false, true) :=
  by refine ⟨?_, ?_, ?_, ?_, ?_, ?_⟩ <;> first | decide +kernel | (constructor <;> decide)

/-- Islands in reset or asked to be quiet; CORE in Off. -/
def islands (b : Build) (reset asked : List Nat) : State := { late b with core := { (late b).core with inReset := reset, qscReq := asked } }
theorem test_w_islands :
  (islands .l [7] []).Inv ∧ (islands .h [17] []).Inv ∧ (islands .l [] [18]).Inv ∧ (domAt (late .l) 1 3).Inv ∧
    (7 ∈ (islands .l [7] []).core.inReset ∧ 17 ∈ (islands .h [17] []).core.inReset ∧ 17 = 9 + 8) ∧
    ((islands .l [] [18]).islandThere 18 = true ∧ 18 ∉ (islands .l [] []).core.qscReq ∧ 18 ∉ (islands .l [] [18]).core.qscDrained) ∧
    ((islands .l [] []).launches 7 = true ∧ (islands .l [7] []).launches 7 = false ∧ (islands .l [] [7]).launches 7 = false) ∧
    (((domAt (late .l) 1 3).dom 1).map (fun x => x.st) = some 3 ∧ (late .l).coreRuns = true ∧ (domAt (late .l) 1 1).coreRuns = false) :=
  by refine ⟨?_, ?_, ?_, ?_, ?_, ?_, ?_, ?_⟩ <;> first | decide +kernel | (constructor <;> decide)

/-- A port that has just sent a link-control packet, with an echo that waits or none. -/
def justSent (k : Option CtlPkt) (at_ : Nat) : State := (late .h).modPort 63 (fun q => { upPort q with lastCtlAt := at_, echo := k })
def anEcho : CtlPkt := CtlPkt.make 0x12 0 0 5 [7, 8, 0]
theorem test_w_echoes :
  (justSent none (10 ^ 13)).Inv ∧ (justSent (some anEcho) 0).Inv ∧
    ((justSent none (10 ^ 13)).time.cycles < ((justSent none (10 ^ 13)).port 63).lastCtlAt + 320 ∧ ((justSent none 0).port 63).trained = true) ∧
    (((justSent (some anEcho) 0).port 63).echo = some anEcho ∧ ((justSent (some anEcho) 0).port 63).lastCtlAt + 320 ≤ (late .h).time.cycles) ∧
    ((late .h).port 63).trained = false ∧ (((quiescing .mismatch).port 63).tx8 7).quiesce ≠ none :=
  by refine ⟨?_, ?_, ?_, ?_, ?_, ?_⟩ <;> first | decide +kernel | (constructor <;> decide)

/-- A slave port with its best master, a Delay_Req on its way, and streams that are anchored. -/
def slave (t3 : Option Nat) : State :=
  let ann : Announce := ⟨0, 6, 0, 0, 0, 1, 0, true, 0, true, false, false⟩
  let s := gm.modPtp 0 (fun q => { q with masters := [(1, ann)], t3 := t3 })
  { s with time := { s.time with anchored := [(9, 5)] } }
theorem test_w_slave :
  (slave (some 7)).Inv ∧ (slave none).Inv ∧ (slave none).fromBest 0 (aPtp .oneStep 0) = true ∧ gm.fromBest 0 (aPtp .oneStep 0) = false ∧
    ((slave (some 7)).ptp 0).t3 = some 7 ∧ ((slave none).ptp 0).t3 = none ∧ (aPtp .oneStep 0).seq = ((slave (some 7)).ptp 0).reqSeq ∧
    (9, 5) ∈ (slave none).time.anchored ∧ (9, 6) ∉ (slave none).time.anchored :=
  by refine ⟨?_, ?_, ?_, ?_, ?_, ?_, ?_, ?_, ?_⟩ <;> first | decide +kernel | (constructor <;> decide)

/-- A STOP over schedules that have not started. -/
def stopping : State := { scheduled [(true, false, 0, 1)] 0 false with muster := { (scheduled [(true, false, 0, 1)] 0 false).muster with next := [aSched 5 0] } }
theorem test_w_windows :
  stopping.Inv ∧ (stopping.muster.action = [(true, false, 0, 1)] ∧ 0 ≤ stopping.now ∧ (aSched 5 0).start = 5 ∧ laterThan 1 (aSched 5 0).gen = true) ∧
    ((summarising true 3).after (summarising true 3).convoy.sdAt (max 1 ((summarising true 3).rd R.CVY_SD_CFG / 65536 % 4096)) = true ∧
      (up .h).after (up .h).convoy.sdAt (max 1 ((up .h).rd R.CVY_SD_CFG / 65536 % 4096)) = false) ∧
    ((late .h).abft.places[3]?).isSome = true ∧ (waitingTree 3).tree.wait.head? = some aSample ∧ aSample.slot = 3 ∧ (late .h).tree.wait.head? = none :=
  by refine ⟨?_, ?_, ?_, ?_, ?_, ?_, ?_⟩ <;> first | decide +kernel | (constructor <;> decide)

theorem test_w_open_datagram : (session openS).colOn 7 = true ∧ (session openS).colPeer 7 = true ∧
    fld ((session openS).rd R.COL_PEER_ID 0 0 0 7) 23 0 = 128 % 2 ^ 24 ∧ fld ((session openS).rd R.COL_PEER_ID 0 0 0 7) 23 0 ≠ 129 % 2 ^ 24 := by decide


/-! ### Worked values of the spec -/

/-- Chapter 4: half past a second, code 0, as a record stamp and on the wire. -/
theorem test_stamp : stampOf (0x7A3C15D2 * 2 ^ 32 + 0x80000000) 0 = 0x3C15D28000000000 ∧
    leBytes 8 0x3C15D28000000000 = bytes [0, 0, 0, 0, 0x80, 0xD2, 0x15, 0x3C] := by decide
/-- Chapter 1: the compute die of stack 3 in package 77,413. -/
theorem test_source_id : (named .h 0x25CCA0).plannedId (39 + 11) = 0x25CCAB := by decide
/-- Chapter 5: replica values at MBITS = 16. -/
theorem test_replica_values : [0x3F800001, 0x3F800002, 0x3F80003F, 0x3F800041, 0x3F800040, 0x3F8000C0].map (twRound 16) =
    [0x3F800000, 0x3F800000, 0x3F800000, 0x3F800080, 0x3F800000, 0x3F800100] := by decide
/-- Chapter 9: the sample reaches leaf 3 of tree 0 and leaf 2 of tree 1; feature 7 reads the quiet NaN. -/
theorem test_tree_walk :
    (let f := [0, 0x3D415500, 0x3D278600, 0xBF4CBC06, 0xBED1EB85, 0x7FC00000, 0x7FC00000, 0x7FC00000]
     walk [0x40FFFFFF00300000, 0xBE80000000780000, 0, 0, 0x412E147A00400000, 0, 0] f 3 0 - 7 = 3 ∧
     walk [0xBD4CCCCD00200000, 0xBD23D70A00100000, 0, 0, 0x0000000000040000, 0, 0] f 3 0 - 7 = 2) := by decide
/-- Chapter 13: the counter block, decoded against the reference of the example. -/
def refCtx : CdcCtx :=
  { source := 0x25CCAB, stream := 1, type := 0x31, seq := 0x3A11,
    raw := zeros 8 ++ leBytes 8 1000412 ++ leBytes 8 1000395 ++ leBytes 8 9250 ++ leBytes 8 0, pre := 8, k := 4, r := 1, w := 3, since := 0, key := false }
theorem test_codec_block :
    (match decBlock 65536 (some refCtx) true (bytes [0x28, 0, 0xC0, 6, 8, 0, 4, 0, 1, 0, 0xF, 0, 0x11, 0x3A, 0, 0] ++ zeros 8 ++
        bytes [0x4A, 0x0A, 0x1F, 0xEE, 0x44, 0x01, 0x00]) with
     | .ok b => b.raw == zeros 8 ++ leBytes 8 1000600 ++ leBytes 8 1000580 ++ leBytes 8 9260 ++ leBytes 8 0 && b.rest.isEmpty
     | .error _ => false) = true := by decide
/-- The same block, encoded: the predictor map 4A 0A and the stream 1F EE 44 01 00. -/
theorem test_codec_encode :
    encBlock 5 { pre := 8, k := 4, r := 1, w := 3, kinit := 6 } (some refCtx)
      (zeros 8 ++ leBytes 8 1000600 ++ leBytes 8 1000580 ++ leBytes 8 9260 ++ leBytes 8 0) =
    (bytes [0x28, 0, 0xC0, 6, 8, 0, 4, 0, 1, 0, 0xF, 0, 0x11, 0x3A, 0, 0] ++ zeros 8 ++ bytes [0x4A, 0x0A, 0x1F, 0xEE, 0x44, 0x01, 0x00], false) := by
  decide +kernel
end Sys2Proof.Tests
end

section
/-! PROOFS. What an access that meets no reason does: a write is stored by its access code (Table 0-3), and a read of an RC register
returns the register to its reset value (R12 to R14, R73). -/

namespace Sys2Proof.Machine

/-! ### A plain write -/

/-- What Table 0-3 leaves in a register that held `old` when `data` is written. -/
def Reg.written (r : Reg) (old data : Nat) : Nat :=
  match r.acc with
  | .rw | .rwl => data &&& r.mask
  | .w1c => old &&& (r.mask ^^^ (data &&& r.mask))
  | .w1s => old ||| (data &&& r.mask)
  | .ro | .rc | .wo | .otp => old

/-- What a write leaves in a register is again a 32-bit word. -/
theorem Reg.written_lt (r : Reg) {old data : Nat} (ho : old < 2 ^ 32) (hd : data < 2 ^ 32) : r.written old data < 2 ^ 32 := by
  have hm : data &&& r.mask < 2 ^ 32 := Nat.lt_of_le_of_lt Nat.and_le_left hd
  unfold Reg.written
  cases r.acc with
  | rw | rwl => exact hm
  | w1c => exact Nat.lt_of_le_of_lt Nat.and_le_left ho
  | w1s => exact Nat.or_lt_two_pow ho hm
  | ro | rc | wo | otp => exact ho

/-- A plain write puts what Table 0-3 leaves, or writes nothing and the register keeps its value. -/
theorem State.store_cases (s : State) (r : Reg) (i j pg bk data : Nat) :
    s.store r i j pg bk data = s.wr r (r.written (s.rd r i j pg bk) data) i j pg bk ∨
    s.store r i j pg bk data = s ∧ r.written (s.rd r i j pg bk) data = s.rd r i j pg bk := by
  unfold State.store Reg.written
  cases r.acc with
  | rw | rwl | w1c | w1s => exact .inl rfl
  | ro | rc | wo | otp => exact .inr ⟨rfl, rfl⟩

/-- The register then holds what Table 0-3 leaves. -/
theorem State.store_rd_same (s : State) (r : Reg) (i j pg bk data : Nat) (h : regWf s.regs = true) (hd : data < 2 ^ 32) :
    (s.store r i j pg bk data).rd r i j pg bk = r.written (s.rd r i j pg bk) data := by
  obtain e | ⟨e, hold⟩ := s.store_cases r i j pg bk data
  · rw [e, State.rd_wr_same _ _ _ _ _ _ _ h]
    exact Nat.mod_eq_of_lt (r.written_lt (s.rd_lt r i j pg bk) hd)
  · rw [e, hold]

/-- Every other copy of every register reads as before. -/
theorem State.store_rd_other (s : State) (r r2 : Reg) (i j pg bk data i2 j2 pg2 bk2 : Nat) (h : r2.key i2 j2 pg2 bk2 ≠ r.key i j pg bk) :
    (s.store r i j pg bk data).rd r2 i2 j2 pg2 bk2 = s.rd r2 i2 j2 pg2 bk2 := by
  obtain e | ⟨e, -⟩ := s.store_cases r i j pg bk data
  · rw [e, State.rd_wr_other _ _ _ _ _ _ _ _ _ _ _ _ h]
  · rw [e]

/-- A plain write changes the register file, and nothing else. -/
theorem State.store_eq (s : State) (r : Reg) (i j pg bk data : Nat) :
    ∃ g, s.store r i j pg bk data = { s with regs := g } := by
  obtain e | ⟨e, -⟩ := s.store_cases r i j pg bk data
  · exact ⟨_, e⟩
  · exact ⟨s.regs, e⟩

@[simp] theorem State.store_core (s : State) (r : Reg) (i j pg bk data : Nat) : (s.store r i j pg bk data).core = s.core := by
  obtain ⟨g, e⟩ := s.store_eq r i j pg bk data
  rw [e]

/-- How many requests of the register port are outstanding depends on the waiting accesses alone (R72). -/
theorem State.outstanding_congr {s t : State} (h : t.core.wait = s.core.wait) : t.outstanding = s.outstanding := by
  unfold State.outstanding
  rw [h]

/-- A REGISTER_WRITE that meets no reason and has no effect beyond Table 0-3 stores, and answers without error. -/
theorem exec_registerWrite_of_store (s : State) (a : Acc) (addr : Nat) (data : Word) (r : Reg) (i j pg bk : Nat)
    (hf : s.portFull a = false)
    (hv : s.verdict a addr true (s.writeOwned a (addr / 4096) (addr % 4096)) (s.writeBad (addr / 4096) (addr % 4096) data.toNat) = .perform)
    (he : s.regEff addr data.toNat = s.store r i j pg bk data.toNat) :
    exec (.registerWrite a addr data) s = .next ((s.store r i j pg bk data.toNat).respond a true 0 false) := by
  rw [← he]
  exact congrArg _ (s.guardedWrite_perform a addr data.toNat _ _ (fun s => s.regEff addr data.toNat) hf hv)

/-- Settles O9: the write stores by its access code, and the response that follows changes the core's part only. -/
theorem aWriteThatDrawsNoErrorIsStored : Obligations.AWriteThatDrawsNoErrorIsStored := by
  intro s a addr data r i j pg bk hinv hf _ _ hv he
  refine ⟨_, exec_registerWrite_of_store s a addr data r i j pg bk hf hv he, ?_, ?_, ?_, ?_⟩
  · rw [State.respond_rd, State.store_rd_same _ _ _ _ _ _ _ hinv.regs data.isLt]
    rfl
  · intro r' i' j' pg' bk' hk
    rw [State.respond_rd, State.store_rd_other _ _ _ _ _ _ _ _ _ _ _ _ hk]
  · obtain ⟨c, hc⟩ := (s.store r i j pg bk data.toNat).respond_eq a true 0 false
    obtain ⟨g, hg⟩ := s.store_eq r i j pg bk data.toNat
    rw [hc, hg]
  · intro hp h0
    rw [State.respond_regPort _ _ _ _ _ hp, State.store_core]
    exact (State.outstanding_congr (congrArg CoreSt.wait (State.store_core ..))).trans h0

/-! ### A read of an RC register -/

/-- An operation that leaves the register file alone leaves what every address names: the selectors choose the same banks. -/
theorem Keeps.target {m : Nat} {z s : State} (h : Keeps m z s) (hm : m.testBit Part.regs.bit = false) (addr : Nat) :
    s.target addr = z.target addr := by
  have hb : s.bankOf = z.bankOf := by
    funext b
    cases b <;> simp only [State.bankOf, h.rd hm]
  unfold State.target
  rw [hb, h.build]

/-- Latching the words that go with a read leaves the accesses that wait. -/
theorem State.latchWords_wait (s : State) (a : Acc) (addr : Nat) : (s.latchWords a addr).core.wait = s.core.wait := by
  unfold State.latchWords
  generalize latchedBy s.build (addr / 4096) (addr % 4096) = offs
  induction offs generalizing s with
  | nil => rfl
  | cons off offs ih => exact ih _

/-- A read of an RC register, off the keeper's page, writes its reset value (R13). -/
theorem State.rcClear_rc (s : State) (addr : Nat) (r : Reg) (i j pg bk : Nat) (ht : s.target addr = .reg r i j pg bk)
    (hrc : r.acc = .rc) (hpage : r.page ≠ 0x029) :
    s.rcClear addr = s.wr r (r.resetVal s.build s.bs i j pg bk) i j pg bk := by
  simp only [State.rcClear, ht]
  exact if_pos ⟨hrc, by simp [hpage]⟩

/-- A read that finds no latched word and does not stream the data store answers the value that the address reads. -/
theorem State.readEff_live (s : State) (a : Acc) (addr : Nat) (hl : s.core.latches = []) (haddr : addr ≠ 0x0070B4) :
    s.readEff a addr = ((s.peek addr).1, ((s.peek addr).2.latchWords a addr).rcClear addr) := by
  simp only [State.readEff, hl, List.find?_nil, haddr, false_and, if_false]

/-- An RC_FIELD_READ that meets no reason does what the read does, and answers its value without error. -/
theorem exec_rcFieldRead_perform (s : State) (a : Acc) (addr : Nat) (hf : s.portFull a = false)
    (hv : s.verdict a addr false false false = .perform) :
    exec (.rcFieldRead a addr) s = .next ((s.readEff a addr).2.respond a false (s.readEff a addr).1 false) :=
  congrArg _ (s.guardedRead_perform a addr (fun s => s.readEff a addr) hf hv)

/-- An RC_FIELD_READ of an RC register that meets no reason and finds no latched word: latching and drawing touch only the core and the free
values (mask 0x1000002) and keep the waiting accesses; then the reset value is written, and the value read is answered. -/
theorem exec_rcFieldRead_rc (s : State) (a : Acc) (addr : Nat) (r : Reg) (i j pg bk : Nat) (hf : s.portFull a = false)
    (ht : s.target addr = .reg r i j pg bk) (hrc : r.acc = .rc) (hpage : r.page ≠ 0x029)
    (hv : s.verdict a addr false false false = .perform) (hl : s.core.latches = []) (haddr : addr ≠ 0x0070B4) :
    ∃ u, Keeps 0x1000002 s u ∧ u.core.wait = s.core.wait ∧ exec (.rcFieldRead a addr) s =
      .next ((u.wr r (r.resetVal s.build s.bs i j pg bk) i j pg bk).respond a false (s.peek addr).1 false) := by
  have hpeek : Keeps 0x1000000 s (s.peek addr).2 := State.peek_keeps (.refl s) addr
  have hkeep : Keeps 0x1000002 s ((s.peek addr).2.latchWords a addr) := State.latchWords_keeps (State.peek_keeps (.refl s) addr) a addr
  refine ⟨_, hkeep, (State.latchWords_wait _ a addr).trans (congrArg CoreSt.wait (hpeek.same .core rfl)), ?_⟩
  rw [exec_rcFieldRead_perform s a addr hf hv, s.readEff_live a addr hl haddr,
    State.rcClear_rc _ addr r i j pg bk ((hkeep.target rfl addr).trans ht) hrc hpage, hkeep.build, hkeep.bs]

/-- Settles O10: the reset value is written over a register file that the rest of the read has left alone. -/
theorem aReadOfAnRcRegisterReturnsItToReset : Obligations.AReadOfAnRcRegisterReturnsItToReset := by
  intro s a addr r i j pg bk hinv hf ht hrc hpage hv hl haddr
  obtain ⟨u, hkeep, hwait, e⟩ := exec_rcFieldRead_rc s a addr r i j pg bk hf ht hrc hpage hv hl haddr
  refine ⟨_, e, ?_, ?_, ?_⟩
  · rw [State.respond_rd, State.rd_wr_same _ _ _ _ _ _ _ (hkeep.inv hinv).regs]
  · intro r' i' j' pg' bk' hk
    rw [State.respond_rd, State.rd_wr_other _ _ _ _ _ _ _ _ _ _ _ _ hk, hkeep.rd rfl]
  · intro hp h0
    rw [State.respond_regPort _ _ _ _ _ hp]
    exact (State.outstanding_congr hwait).trans h0

end Sys2Proof.Machine
end

section
/-! PROOFS. Where a command answers: the one stop is `absent`, and the parts that a command needs are those its operands can name. -/

namespace Sys2Proof.Machine

/-- Every arm is an effect that stands where the state has what the command names. -/
theorem exec_eq_present (s : State) (c : Instr) : ∃ t, exec c s = present (s.there c) t := by
  cases c <;> exact ⟨_, rfl⟩

theorem present_ne_refused (c : Bool) (t : State) (r : Refusal) : present c t ≠ .refused r := by
  cases c <;> simp [present]

theorem linkPorts_le (b : Build) : linkPorts b ≤ 64 := by cases b <;> decide

theorem slotCount_le (b : Build) : slotCount b ≤ 1024 := by cases b <;> decide

theorem deferMax_le (b : Build) : deferMax b ≤ 1024 := by cases b <;> decide

theorem dieMax_le (b : Build) : dieMax b ≤ 256 := by cases b <;> decide

theorem pulseGens_le (b : Build) : pulseGens b ≤ 8 := by cases b <;> decide

theorem lt_of_isLane {b : Build} {p : Nat} (h : isLane b p = true) : p < 64 := by
  simp only [isLane, Bool.and_eq_true, decide_eq_true_eq] at h
  exact Nat.lt_of_lt_of_le h.1 (linkPorts_le b)

theorem lt_of_convoyPortOk {b : Build} {p : Nat} (h : convoyPortOk b p = true) : p < 95 := by
  have hl := linkPorts_le b
  simp [convoyPortOk, ethPort] at h
  omega

theorem State.lt_of_tapPresent {s : State} {n : Nat} (h : s.tapPresent n = true) : n < 8 := by
  simp only [State.tapPresent, Bool.or_eq_true, Bool.and_eq_true, beq_iff_eq, decide_eq_true_eq] at h
  omega

/-- What a state has, some build has: the operands of a command whose parts are there lie in their ranges. -/
theorem State.wf_of_there (s : State) (c : Instr) (h : s.there c = true) : c.wf = true := by
  have hports := linkPorts_le s.build
  have hslots := slotCount_le s.build
  have hdefer := deferMax_le s.build
  have hdies := dieMax_le s.build
  have hgens := pulseGens_le s.build
  cases c
  case tapClockChange | musterLateIslandTimeout =>
    exact decide_eq_true (State.lt_of_tapPresent (Bool.and_eq_true_iff.mp h).2)
  case convoyPacketReceived => exact decide_eq_true (lt_of_convoyPortOk (Bool.and_eq_true_iff.mp h).2)
  case broadcastResultReceived | reachReportReceived => exact decide_eq_true (lt_of_convoyPortOk h)
  case laneTrainingStart | codewordLock | markerLoss | fecUncorrectable | replayReceived | laneDegradeCheck | dozeReceived | wakeReceived |
      wakeSequenceDone =>
    exact decide_eq_true (lt_of_isLane h)
  all_goals
    simp only [State.there, Instr.wf, Bool.and_eq_true, Bool.or_eq_true, decide_eq_true_eq, beq_iff_eq] at h ⊢ <;> omega

/-- Settles O60: what stands or falls with `State.there` is the stop, and every arm is of that one form. -/
theorem everyCommandAnswersWhereItsPartsAreThere : Obligations.EveryCommandAnswersWhereItsPartsAreThere := by
  refine ⟨fun s c h => ?_, fun s c h => ?_, fun s c h => ?_, fun s c r => ?_⟩
  · obtain ⟨t, e⟩ := exec_eq_present s c
    exact ⟨t, e.trans (present_true h t)⟩
  · obtain ⟨t, e⟩ := exec_eq_present s c
    exact e.trans (present_false h t)
  · exact Bool.eq_false_iff.mpr fun ht => by simp [s.wf_of_there c ht] at h
  · obtain ⟨t, e⟩ := exec_eq_present s c
    exact fun h => present_ne_refused _ t r (e.symm.trans h)

end Sys2Proof.Machine
end

section
/-! PROOFS. Ports and classes seen through the updates of one of them: what the updated one becomes, and that the others stay. -/

namespace Sys2Proof.Machine

/-! ### Updates of one place of a list -/

theorem modNth_getElem? {α : Type} (l : List α) (i j : Nat) (f : α → α) : (modNth l i f)[j]? = if i = j then l[j]?.map f else l[j]? := by
  unfold modNth
  by_cases hij : i = j
  · subst hij
    rw [if_pos rfl]
    cases h : l[i]? with
    | none => exact h
    | some x => exact List.getElem?_set_self (List.getElem?_eq_some_iff.mp h).1
  · rw [if_neg hij]
    cases l[i]? with
    | none => rfl
    | some x => exact List.getElem?_set_ne hij

theorem modNth_getD_same {α : Type} {l : List α} {i : Nat} (h : i < l.length) (f : α → α) (d : α) : (modNth l i f).getD i d = f (l.getD i d) := by
  rw [List.getD_eq_getElem?_getD, List.getD_eq_getElem?_getD, modNth_getElem?, if_pos rfl, List.getElem?_eq_getElem h]
  rfl

theorem modNth_getD_other {α : Type} {i j : Nat} (h : j ≠ i) (l : List α) (f : α → α) (d : α) : (modNth l i f).getD j d = l.getD j d := by
  rw [List.getD_eq_getElem?_getD, List.getD_eq_getElem?_getD, modNth_getElem?, if_neg h.symm]

/-- What an update leaves in an element reads the same at every place. -/
theorem modNth_getD_shows {α β : Type} (g : α → β) {f : α → α} (hf : ∀ x, g (f x) = g x) (l : List α) (i j : Nat) (d : α) :
    g ((modNth l i f).getD j d) = g (l.getD j d) := by
  rw [List.getD_eq_getElem?_getD, List.getD_eq_getElem?_getD, modNth_getElem?]
  split
  · cases l[j]? with
    | none => rfl
    | some x => exact hf x
  · rfl

/-! ### Ports -/

theorem State.Inv.port_lt {s : State} (h : s.Inv) {p : Nat} (hp : p < linkPorts s.build) : p < s.link.ports.length := by
  rw [h.ports]
  exact Nat.lt_of_lt_of_le hp (Nat.le_add_right _ _)

theorem State.length_modPort (s : State) (p : Nat) (f : Port → Port) : (s.modPort p f).link.ports.length = s.link.ports.length :=
  modNth_length _ _ _

theorem State.modPort_port_same {s : State} {p : Nat} (h : p < s.link.ports.length) (f : Port → Port) :
    (s.modPort p f).port p = f (s.port p) := modNth_getD_same h f _

theorem State.modPort_port_other {p q : Nat} (h : q ≠ p) (s : State) (f : Port → Port) : (s.modPort p f).port q = s.port q :=
  modNth_getD_other h _ f _

theorem State.modPort_port_shows {β : Type} (g : Port → β) {f : Port → Port} (s : State) (p q : Nat)
    (hf : ∀ x, g (f x) = g x := by exact fun _ => rfl) : g ((s.modPort p f).port q) = g (s.port q) := modNth_getD_shows g hf _ p q _

/-! ### Classes of a port -/

theorem Port.modCls_tx8_same {q : Port} {c : Nat} (h : c < q.cls.length) (f : TxRx → TxRx) : (q.modCls c f).tx8 c = f (q.tx8 c) :=
  modNth_getD_same h f _

theorem Port.modCls_tx8_shows {β : Type} (g : TxRx → β) {f : TxRx → TxRx} (hf : ∀ x, g (f x) = g x) (q : Port) (c d : Nat) :
    g ((q.modCls c f).tx8 d) = g (q.tx8 d) := modNth_getD_shows g hf _ c d _

theorem State.modCls_tx8_same {s : State} {p c : Nat} (hp : p < s.link.ports.length) (hc : c < (s.port p).cls.length) (f : TxRx → TxRx) :
    ((s.modCls p c f).port p).tx8 c = f ((s.port p).tx8 c) := by
  unfold State.modCls
  rw [State.modPort_port_same hp, Port.modCls_tx8_same hc]

theorem State.modCls_tx8_shows {β : Type} (g : TxRx → β) {f : TxRx → TxRx} (hf : ∀ x, g (f x) = g x) (s : State) (p q c d : Nat) :
    g (((s.modCls p c f).port q).tx8 d) = g ((s.port q).tx8 d) :=
  State.modPort_port_shows (fun q => g (q.tx8 d)) s p q (fun q => q.modCls_tx8_shows g hf c d)

theorem State.length_modCls (s : State) (p c : Nat) (f : TxRx → TxRx) : (s.modCls p c f).link.ports.length = s.link.ports.length :=
  modNth_length _ _ _

theorem State.modCls_cls_length (s : State) (p c q : Nat) (f : TxRx → TxRx) : ((s.modCls p c f).port q).cls.length = (s.port q).cls.length :=
  State.modPort_port_shows (fun x => x.cls.length) s p q (fun _ => modNth_length _ _ _)

theorem Port.quiet_tx8 (q : Port) (c : Nat) : q.quiet.tx8 c = (q.tx8 c).quiet := by
  simp only [Port.tx8, Port.quiet, List.getD_eq_getElem?_getD, List.getElem?_map]
  cases q.cls[c]? <;> rfl

end Sys2Proof.Machine
end

section
/-! PROOFS. Discovery and quarantine: what the answer on one port does to that port, and that it leaves the others
(R18, R20, R24, R26, R211, R220). -/

namespace Sys2Proof.Machine

/-! ### What an operation at one port leaves -/

/-- Queues aside, no port but `p` has changed, and `p` in nothing of what `g` shows. -/
structure OnPort {β : Type} (p : Nat) (g : Port → β) (z s : State) : Prop where
  others : ∀ q, q ≠ p → (s.port q).quiet = (z.port q).quiet
  here : g (s.port p) = g (z.port p)

/-- What discovery learns of a port: who answers, and whether it is in quarantine as a duplicate. -/
def Port.found (q : Port) : Nat × Bool × Bool × Bool := (q.neighbour, q.answered, q.quar, q.dupId)

/-- The part of that which quarantine leaves alone. -/
def Port.met (q : Port) : Nat × Bool := (q.neighbour, q.answered)

section
variable {β : Type} {g : Port → β} {p : Nat} {z s : State}

theorem OnPort.refl (s : State) : OnPort p g s s := ⟨fun _ _ => rfl, rfl⟩

theorem OnPort.trans {t : State} (h : OnPort p g z s) (k : OnPort p g s t) : OnPort p g z t :=
  ⟨fun q hq => (k.others q hq).trans (h.others q hq), k.here.trans h.here⟩

/-- What shows nothing of the queues is the same after an event or a record on its way out. -/
theorem OnPort.of_evFrame (h : EvFrame z s) (hg : ∀ q, g q.quiet = g q := by exact fun _ => rfl) : OnPort p g z s :=
  ⟨fun q _ => h.port q, by rw [← hg, h.port, hg]⟩

theorem OnPort.modPort {f : Port → Port} (s : State) (hf : ∀ x, g (f x) = g x := by exact fun _ => rfl) : OnPort p g s (s.modPort p f) :=
  ⟨fun _ hq => congrArg Port.quiet (s.modPort_port_other hq f), s.modPort_port_shows g p p hf⟩

theorem OnPort.of_ports (h : s.link.ports = z.link.ports) : OnPort p g z s := by
  have hp : ∀ q, s.port q = z.port q := fun q => by unfold State.port; rw [h]
  exact ⟨fun q _ => congrArg Port.quiet (hp q), congrArg g (hp p)⟩

end

theorem State.offerSchedule_ef {z s : State} (h : EvFrame z s) (p : Nat) : EvFrame z (s.offerSchedule p) := by
  unfold State.offerSchedule
  split
  · exact h
  · exact EvFrame.foldl _ _ h (fun t ht b => State.sendLocal_ef ht p _)

theorem State.portIrq_ef {z s : State} (h : EvFrame z s) (p bit : Nat) : EvFrame z (s.portIrq p bit) := by
  unfold State.portIrq
  split
  · exact State.irq_ef h _ _
  · exact h

/-- A port's interrupt bit is no part of the port. -/
theorem State.portIrq_port (s : State) (p bit q : Nat) : (s.portIrq p bit).port q = s.port q := by
  have h : Keeps 0x3 s (s.portIrq p bit) := State.portIrq_keeps (.refl s) p bit
  have hl : (s.portIrq p bit).link = s.link := h.same .link rfl
  unfold State.port
  rw [hl]

theorem State.rejoin_onPort (s : State) (p : Nat) : OnPort p Port.found s (s.rejoin p) := by
  unfold State.rejoin
  split
  · exact .of_ports rfl
  · exact .modPort s

theorem State.discDone_onPort (s : State) (p : Nat) : OnPort p Port.found s (s.discDone p) := by
  unfold State.discDone
  split
  · exact (OnPort.modPort s).trans (.modPort _)
  · exact .refl s

theorem State.quarantine_onPort (s : State) (p : Nat) (dup : Bool) : OnPort p Port.met s (s.quarantine p dup) :=
  (OnPort.modPort s).trans (.of_evFrame (State.portIrq_ef (.refl _) _ _))

theorem OnPort.met {p : Nat} {z s : State} (h : OnPort p Port.found z s) : OnPort p Port.met z s :=
  ⟨h.others, congrArg (fun x => (x.1, x.2.1)) h.here⟩

theorem State.quarantine_event_onPort (s : State) (p : Nat) (dup : Bool) (code : Nat) (b : List Byte) :
    OnPort p Port.met s ((s.quarantine p dup).event code b) :=
  (s.quarantine_onPort p dup).trans (.of_evFrame (State.event_ef (.refl _) _ _))

/-! ### The ID that a port presents -/

/-- The ID that is presented on a port is put into it, beside what the plan expects. -/
def State.presents (s : State) (p id : Nat) : State :=
  s.modPort p (fun q => { q with neighbour := id, expected := s.plannedId p != 0x7FFFFF })

/-- Judging the ID changes no port further in who presents what or answers. -/
theorem State.judge_onPort (s : State) (p id : Nat) : OnPort p Port.met (s.presents p id) (s.judge p id) := by
  unfold State.judge
  extract_lets plan u known v
  change OnPort p Port.met u _
  split
  · exact .refl u
  · split
    · exact u.quarantine_event_onPort p true _ _
    · split
      · exact u.quarantine_event_onPort p true _ _
      · have hv : OnPort p Port.met u (u.offerSchedule p) := .of_evFrame (State.offerSchedule_ef (.refl u) p)
        split
        · exact u.quarantine_onPort p false
        · split
          · exact hv.trans ((u.offerSchedule p).rejoin_onPort p).met
          · exact hv

/-- This unit's own ID, where it has one, is a duplicate (R26). -/
theorem State.judge_srcId {s : State} (h : s.srcId ≠ 0x7FFFFF) (p : Nat) :
    s.judge p s.srcId = ((s.presents p s.srcId).quarantine p true).event 0x207 (bytes [p, 255, 0, 0] ++ leBytes 3 s.srcId) := by
  unfold State.judge
  rw [if_neg h]
  exact if_pos rfl

theorem State.quarantine_port_same {s : State} {p : Nat} (hp : p < s.link.ports.length) (dup : Bool) :
    (s.quarantine p dup).port p = { s.port p with quar := true, dupId := dup, joining := false } := by
  unfold State.quarantine
  rw [State.portIrq_port, State.modPort_port_same hp]

theorem State.judge_srcId_found {s : State} {p : Nat} (hp : p < s.link.ports.length) (h : s.srcId ≠ 0x7FFFFF) :
    ((s.judge p s.srcId).port p).quar = true ∧ ((s.judge p s.srcId).port p).dupId = true := by
  have hq := State.quarantine_port_same (s := s.presents p s.srcId) ((s.length_modPort p _).symm ▸ hp) true
  have he := (State.event_ef (.refl ((s.presents p s.srcId).quarantine p true)) 0x207 (bytes [p, 255, 0, 0] ++ leBytes 3 s.srcId)).port p
  rw [s.judge_srcId h, show ∀ q : Port, q.quar = q.quiet.quar from fun _ => rfl, show ∀ q : Port, q.dupId = q.quiet.dupId from fun _ => rfl,
    he, hq]
  exact ⟨rfl, rfl⟩

/-! ### An answer on one port, and the answers on all -/

theorem State.discAnswer_others {p q : Nat} (h : q ≠ p) (s : State) (id : Nat) : ((s.discAnswer p id).port q).quiet = (s.port q).quiet :=
  have ha : OnPort p (fun _ => ()) s ((s.modPort p (fun q => { q with answered := true })).presents p id) := (OnPort.modPort s).trans (.modPort _)
  (((State.discDone_onPort _ p).others q h).trans ((State.judge_onPort _ p id).others q h)).trans (ha.others q h)

theorem State.discAnswer_met {s : State} {p : Nat} (hp : p < s.link.ports.length) (id : Nat) : ((s.discAnswer p id).port p).met = (id, true) := by
  unfold State.discAnswer
  rw [(State.discDone_onPort _ p).met.here, (State.judge_onPort _ p id).here]
  unfold State.presents
  rw [State.modPort_port_same ((s.length_modPort p _).symm ▸ hp), State.modPort_port_same hp]
  rfl

theorem State.discAnswer_own {s : State} {p : Nat} (hp : p < s.link.ports.length) (h : s.srcId ≠ 0x7FFFFF) :
    ((s.discAnswer p s.srcId).port p).quar = true ∧ ((s.discAnswer p s.srcId).port p).dupId = true := by
  have hj := State.judge_srcId_found (s := s.modPort p (fun q => { q with answered := true })) ((s.length_modPort p _).symm ▸ hp) h
  have hd := (State.discDone_onPort ((s.modPort p (fun q => { q with answered := true })).judge p s.srcId) p).here
  exact ⟨(congrArg (fun x => x.2.2.1) hd).trans hj.1, (congrArg (fun x => x.2.2.2) hd).trans hj.2⟩

/-- What the first answer on a port makes of it. -/
def State.discStep (answers : List (Nat × Nat)) (s : State) (p : Nat) : State :=
  match answers.find? (fun a => a.1 == p) with
  | some a => s.discAnswer p (a.2 % 2 ^ 24)
  | none => s

/-- Discovery on the ports below `n`. -/
def State.discTo (s : State) (answers : List (Nat × Nat)) (n : Nat) : State := (List.range n).foldl (State.discStep answers) s

theorem State.discTo_succ (s : State) (answers : List (Nat × Nat)) (n : Nat) :
    s.discTo answers (n + 1) = (s.discTo answers n).discStep answers n := by
  simp [State.discTo, List.range_succ]

theorem State.discStep_keeps (answers : List (Nat × Nat)) {z s : State} (h : Keeps 0x804F7 z s) (p : Nat) : Keeps 0x804F7 z (s.discStep answers p) := by
  unfold State.discStep
  split
  · exact State.discAnswer_keeps h _ _
  · exact h

theorem State.discTo_keeps (s : State) (answers : List (Nat × Nat)) (n : Nat) : Keeps 0x804F7 s (s.discTo answers n) :=
  Keeps.foldl _ _ _ (.refl s) (fun _ h p => State.discStep_keeps answers h p)

theorem State.discStep_others (answers : List (Nat × Nat)) {p q : Nat} (h : q ≠ p) (s : State) :
    ((s.discStep answers p).port q).quiet = (s.port q).quiet := by
  unfold State.discStep
  split
  · exact State.discAnswer_others h _ _
  · rfl

/-- Before its turn a port is as it was. -/
theorem State.discTo_before (s : State) (answers : List (Nat × Nat)) {n p : Nat} (h : n ≤ p) : ((s.discTo answers n).port p).quiet = (s.port p).quiet := by
  induction n with
  | zero => rfl
  | succ n ih =>
    rw [State.discTo_succ, State.discStep_others answers (by omega), ih (by omega)]

/-- After its turn a port stays as its step left it. -/
theorem State.discTo_after (s : State) (answers : List (Nat × Nat)) {n p : Nat} (h : p < n) :
    ((s.discTo answers n).port p).quiet = (((s.discTo answers p).discStep answers p).port p).quiet := by
  induction n with
  | zero => omega
  | succ n ih =>
    rw [State.discTo_succ]
    rcases Nat.lt_succ_iff_lt_or_eq.mp h with hlt | rfl
    · rw [State.discStep_others answers (by omega), ih hlt]
    · rfl

/-- Whether a Ralud lane has answered (R211). -/
def State.trayTold (s : State) (answers : List (Nat × Nat)) : State :=
  if s.build = .h then
    if answers.any (fun a => decide (36 ≤ a.1) && decide (a.1 < 40)) then { s with link := { s.link with trayOrphan := false } }
    else State.event { s with link := { s.link with trayOrphan := true } } 0x209 []
  else s

theorem State.discover_eq (s : State) (answers : List (Nat × Nat)) :
    s.discover answers = (s.discTo answers (linkPorts s.build)).trayTold answers := rfl

theorem State.trayTold_port (s : State) (answers : List (Nat × Nat)) (p : Nat) : ((s.trayTold answers).port p).quiet = (s.port p).quiet := by
  unfold State.trayTold
  split
  · split
    · rfl
    · exact (State.event_ef (.refl _) 0x209 []).port p
  · rfl

theorem State.trayTold_trayOrphan {s : State} (h : s.build = .h) (answers : List (Nat × Nat)) :
    (s.trayTold answers).link.trayOrphan = true ↔ ∀ a ∈ answers, a.1 < 36 ∨ 40 ≤ a.1 := by
  have hall : (∀ a ∈ answers, a.1 < 36 ∨ 40 ≤ a.1) ↔ ¬ answers.any (fun a => decide (36 ≤ a.1) && decide (a.1 < 40)) = true := by
    simp only [List.any_eq_true, Bool.and_eq_true, decide_eq_true_eq, not_exists, not_and]
    exact forall₂_congr fun a _ => by omega
  rw [hall]
  unfold State.trayTold
  rw [if_pos h]
  split
  next hany => simp [hany]
  next hnone =>
    have he := congrArg LinkSt.trayOrphan
      (State.event_ef (.refl { s with link := { s.link with trayOrphan := true } }) 0x209 []).link
    exact iff_of_true he hnone

theorem State.admitNext_port_shows {β : Type} (g : Port → β) (hg : ∀ q : Port, g { q with joining := true, joinAt := never } = g q) (s : State) (p : Nat) :
    g (s.admitNext.port p) = g (s.port p) := by
  unfold State.admitNext
  split
  · rfl
  · split
    · rfl
    · exact State.modPort_port_shows g _ _ p hg

/-- Where no neighbour answers, the port is as it was. -/
theorem State.discover_of_silence {s : State} {answers : List (Nat × Nat)} {p : Nat} (hp : p < linkPorts s.build)
    (h : answers.find? (fun a => a.1 == p) = none) : ((s.discover answers).port p).quiet = (s.port p).quiet := by
  rw [State.discover_eq, State.trayTold_port, State.discTo_after s answers hp, ← State.discTo_before s answers (Nat.le_refl p)]
  unfold State.discStep
  rw [h]

/-- Where one answers, the port is as the first answer leaves it, in a unit of the same ID. -/
theorem State.discover_of_answer {s : State} (hinv : s.Inv) {answers : List (Nat × Nat)} {p : Nat} (hp : p < linkPorts s.build) {a : Nat × Nat}
    (h : answers.find? (fun a => a.1 == p) = some a) :
    ∃ u : State, u.srcId = s.srcId ∧ p < u.link.ports.length ∧
      ((s.discover answers).port p).quiet = ((u.discAnswer p (a.2 % 2 ^ 24)).port p).quiet := by
  have hk := s.discTo_keeps answers p
  refine ⟨s.discTo answers p, congrArg AuthSt.srcId (hk.same .auth rfl), (hk.inv hinv).port_lt (by rwa [hk.build]), ?_⟩
  rw [State.discover_eq, State.trayTold_port, State.discTo_after s answers hp]
  unfold State.discStep
  rw [h]

theorem State.discover_met {s : State} (hinv : s.Inv) {answers : List (Nat × Nat)} {p : Nat} (hp : p < linkPorts s.build) {a : Nat × Nat}
    (h : answers.find? (fun a => a.1 == p) = some a) : ((s.discover answers).port p).met = (a.2 % 2 ^ 24, true) := by
  obtain ⟨u, -, hu, e⟩ := State.discover_of_answer hinv hp h
  exact (congrArg Port.met e).trans (State.discAnswer_met hu _)

/-- Discovery keeps the ID of the first answer of each port and of no other, before and after an admission starts. -/
theorem State.discover_neighbour {s : State} (hinv : s.Inv) (answers : List (Nat × Nat)) {p : Nat} (hp : p < linkPorts s.build) :
    ((s.discover answers).admitNext.port p).neighbour =
      match answers.find? (fun a => a.1 == p) with
      | some a => a.2 % 2 ^ 24
      | none => (s.port p).neighbour := by
  rw [State.admitNext_port_shows Port.neighbour (fun _ => rfl)]
  split
  next a h => exact congrArg Prod.fst (State.discover_met hinv hp h)
  next h =>
    have e := State.discover_of_silence hp h
    exact (congrArg Port.neighbour e :)

/-- A neighbour that answers with this unit's own ID is left in quarantine as a duplicate (R26). -/
theorem State.discover_own {s : State} (hinv : s.Inv) {answers : List (Nat × Nat)} {p : Nat} (hp : p < linkPorts s.build) {a : Nat × Nat}
    (h : answers.find? (fun a => a.1 == p) = some a) (hid : a.2 % 2 ^ 24 = s.srcId) (hs : s.srcId ≠ 0x7FFFFF) :
    ((s.discover answers).port p).quar = true ∧ ((s.discover answers).port p).dupId = true := by
  obtain ⟨u, hsrc, hu, e⟩ := State.discover_of_answer hinv hp h
  rw [hid, ← hsrc] at e
  obtain ⟨hq, hd⟩ := State.discAnswer_own hu (hsrc.symm ▸ hs)
  exact ⟨(congrArg Port.quar e).trans hq, (congrArg Port.dupId e).trans hd⟩

theorem State.discover_trayOrphan {s : State} (h : s.build = .h) (answers : List (Nat × Nat)) :
    (s.discover answers).link.trayOrphan = true ↔ ∀ a ∈ answers, a.1 < 36 ∨ 40 ≤ a.1 :=
  State.trayTold_trayOrphan ((s.discTo_keeps answers _).build.trans h) answers

/-! ### A neighbour that does not answer, and the release of one in quarantine -/

/-- A planned neighbour or a leaf that has not answered in time is marked missing, with event 0x208 (R20, R211). -/
theorem exec_discoveryTimeout_missing {s : State} {p : Nat} (hb : s.build ≠ .l) (hp : p < linkPorts s.build)
    (hplan : (s.build = .h ∧ 40 ≤ p) ∨ s.plannedId p ≠ 0x7FFFFF) (ha : (s.port p).answered = false) (hm : (s.port p).missing = false)
    (ht : s.after (s.port p).discAt 1000 = true) :
    exec (.discoveryTimeout p) s =
      .next (((s.modPort p (fun q => { q with missing := true, expected := true })).portIrq p 2).event 0x208
        (bytes [p, 0, 0, 0] ++ leBytes 3 (s.plannedId p))) := by
  have hthere : (s.build != .l && decide (p < linkPorts s.build)) = true := by simp [hb, hp]
  have hdue : ((s.build == .h && decide (40 ≤ p) || s.plannedId p != 0x7FFFFF) && !(s.port p).answered && !(s.port p).missing &&
      s.after (s.port p).discAt 1000) = true := by simpa [ha, hm, ht] using hplan
  exact (present_true hthere _).trans (congrArg _ (if_pos hdue))

theorem exec_quarantineRelease_perform {s : State} {a : Acc} {p : Nat} {data : Word} (hf : s.portFull a = false)
    (hv : s.verdict a (portAddr s.build p 0x090) true false false = .perform) :
    exec (.quarantineRelease a p data) s = .next ((s.quarRelease p data.toNat).admitNext.respond a true 0 false) :=
  congrArg _ (s.guardedWrite_perform a _ data.toNat _ _ (fun s => (s.quarRelease p data.toNat).admitNext) hf hv)

theorem State.quarRelease_idle {s : State} {p v : Nat} (h : bitOf v 0 = false ∨ (s.port p).quar = false) : s.quarRelease p v = s :=
  if_pos (by simpa using h)

theorem State.quarRelease_own {s : State} {p v : Nat} (hv : bitOf v 0 = true) (hq : (s.port p).quar = true) (hd : (s.port p).dupId = true)
    (hn : (s.port p).neighbour = s.srcId) :
    s.quarRelease p v = s.event 0x207 (bytes [p, 255, 0, 0] ++ leBytes 3 (s.port p).neighbour) := by
  simp [State.quarRelease, hv, hq, hd, hn]

theorem State.quarRelease_joins {s : State} {p v : Nat} (hv : bitOf v 0 = true) (hq : (s.port p).quar = true)
    (hown : (s.port p).dupId = false ∨ (s.port p).neighbour ≠ s.srcId)
    (hdup : (s.port p).neighbour = 0x7FFFFF ∨ s.dupPort p (s.port p).neighbour = none) :
    s.quarRelease p v = (s.modPort p (fun q => { q with released := true })).rejoin p := by
  have h1 : ((s.port p).dupId && (s.port p).neighbour == s.srcId) = false := by
    rcases hown with h | h <;> simp [h]
  have h2 : (if (s.port p).neighbour = 0x7FFFFF then none else s.dupPort p (s.port p).neighbour) = none := by
    split
    next => rfl
    next h => exact hdup.resolve_left h
  simp [State.quarRelease, hv, hq, h1, h2]

theorem State.rejoin_of_not_leaf {u : State} {p : Nat} (h : u.build ≠ .h ∨ p < 40) : u.rejoin p = u.modPort p (fun q => { q with joining := true }) :=
  if_neg fun ⟨hb, hp⟩ => h.elim (· hb) (by omega)

theorem State.identity_none {s : State} (h : s.auth.pendId = none) : s.identity = s := by
  unfold State.identity
  rw [h]

theorem State.identity_some {s : State} {id : Nat} (h : s.auth.pendId = some id) :
    s.identity = { s with auth := { s.auth with srcId := id, pendId := none } } := by
  unfold State.identity
  rw [h]

/-- Settles O36: the answers by the fold over the ports, each of which touches its own port; the rest by the branch that acts. -/
theorem neighboursAttachAreQuarantinedOrMissing : Obligations.NeighboursAttachAreQuarantinedOrMissing := by
  intro s hinv
  refine ⟨fun hb answers => ⟨present_true (by simp [hb]) _, ?_, ?_, ?_, ?_⟩, ?_, ?_, ?_, ?_, ?_⟩
  · exact fun p hp => State.discover_neighbour hinv answers hp
  · exact fun p hp a h => congrArg Prod.snd (State.discover_met hinv hp h)
  · exact fun p hp a h hid hs => State.discover_own hinv hp h hid hs
  · exact fun hh => State.discover_trayOrphan hh answers
  · intro p hb hp hplan ha hm ht
    refine ⟨_, exec_discoveryTimeout_missing hb hp hplan ha hm ht, ?_⟩
    rw [State.portIrq_port, State.modPort_port_same (hinv.port_lt hp)]
  · intro a p data hf hv
    rw [exec_quarantineRelease_perform hf hv]
    refine ⟨fun h => ?_, fun hd hq hdup hn => ?_, fun hd hq hown hdup => ?_⟩
    · rw [State.quarRelease_idle h]
    · rw [State.quarRelease_own hd hq hdup hn]
    · rw [State.quarRelease_joins hd hq hown hdup]
  · exact fun u p h => State.rejoin_of_not_leaf h
  · exact fun h => congrArg Host.Outcome.next (State.identity_none h)
  · exact fun id h => congrArg Host.Outcome.next (State.identity_some h)

end Sys2Proof.Machine
end

section
/-! PROOFS. Records at a port: the order of the checks, the duplicate table, units and their packets, datagrams of a peer, and the windows
of the coalescing table (R24, R25, R35, R222 to R224, R239, R241, R464, R537). -/

namespace Sys2Proof.Machine

/-! ### The duplicate table -/

theorem laterThan_self (a : Nat) : laterThan a a = false := by
  simp only [laterThan, Bool.and_eq_false_iff, decide_eq_false_iff_not]
  omega

/-- A sequence that has been judged is a duplicate when it comes again (R537). -/
theorem DupCtx.judge_twice (c : DupCtx) (seq : Nat) : ((c.judge seq).2.judge seq).1 = true := by
  by_cases hl : laterThan seq c.latest = true
  · simp [DupCtx.judge, hl, laterThan_self]
  · by_cases hs : (c.latest + 4294967296 - seq) % 4294967296 = 0 ∨ 65536 < (c.latest + 4294967296 - seq) % 4294967296 ∨ c.seen.contains seq = true
    · have h1 : c.judge seq = (true, c) := by simp only [DupCtx.judge, hl, hs, if_true, if_false, Bool.false_eq_true]
      rw [h1, h1]
    · have h1 : c.judge seq = (false, { c with seen := seq :: c.seen }) := by simp only [DupCtx.judge, hl, hs, if_false, Bool.false_eq_true]
      rw [h1]
      simp [DupCtx.judge, hl]

/-! ### The checks of a record, in their order -/

section
variable {s : State} {p tc len : Nat} {red : Bool} {r : Rec}

theorem State.admitUnit_quar (hq : (s.port p).quar = true) :
    s.admitUnit p tc len red r = (false, (s.takeDrop r 8).pbump R.FP_DROP_QUAR p) := by
  simp [State.admitUnit, hq]

theorem State.admitUnit_reserved (hq : (s.port p).quar = false) (hs : (s.build != .l && reservedSource r.source) = true) :
    s.admitUnit p tc len red r = (false, s.takeDrop r 4) := by
  simp only [State.admitUnit, hq, hs, Bool.false_eq_true, if_false, if_true]

theorem State.admitUnit_malformed (hq : (s.port p).quar = false) (hs : (s.build != .l && reservedSource r.source) = false)
    (hm : (s.convoyAlien r || (s.build != .l && malformed r tc len)) = true) : s.admitUnit p tc len red r = (false, s.takeDrop r 5) := by
  simp only [State.admitUnit, hq, hs, hm, Bool.false_eq_true, if_false, if_true]

variable (hq : (s.port p).quar = false) (hs : (s.build != .l && reservedSource r.source) = false)
  (hm : (s.convoyAlien r || (s.build != .l && malformed r tc len)) = false)
include hq hs hm

theorem State.admitUnit_red : s.admitUnit p tc len true r = (false, s.takeDrop r 3) := by
  simp only [State.admitUnit, hq, hs, hm, Bool.false_eq_true, if_false, if_true]

theorem State.admitUnit_unjudged (h : linkLocal r.type r.stream = true ∨ (0x40 ≤ r.type ∧ r.type ≤ 0x42)) :
    s.admitUnit p tc len false r = (true, s) := by
  simp only [State.admitUnit, hq, hs, hm, Bool.false_eq_true, if_false]
  rcases h with hl | ⟨h1, h2⟩
  · simp [hl]
  · simp [h1, h2]

variable (hl : linkLocal r.type r.stream = false) (ht : r.type < 0x40 ∨ 0x42 < r.type)
include hl ht

theorem State.admitUnit_judged : s.admitUnit p tc len false r =
    if (s.dupJudge r).1 then (false, (s.dupJudge r).2.dupCounted r.stream) else (true, (s.dupJudge r).2.produced r.stream) := by
  have hc : (decide (0x40 ≤ r.type) && decide (r.type ≤ 0x42)) = false := by
    simp only [Bool.and_eq_false_iff, decide_eq_false_iff_not]
    omega
  simp only [State.admitUnit, hq, hs, hm, hl, hc, Bool.false_eq_true, if_false]

end

theorem State.recordIn_refused {s t : State} {p tc len credits : Nat} {red : Bool} {r : Rec} (h : s.admitUnit p tc len red r = (false, t)) :
    s.recordIn p tc len credits red r = t := by
  simp [State.recordIn, h]

theorem State.recordIn_admitted {s t : State} {p tc len credits : Nat} {red : Bool} {r : Rec} (h : s.admitUnit p tc len red r = (true, t)) :
    s.recordIn p tc len credits red r = t.recordUse p credits r := by
  simp [State.recordIn, h]

/-- RECORD_RECEIVED at a port of the build meets the toll, then the checks. -/
theorem exec_recordReceived {s : State} {p : Nat} (hp : p < linkPorts s.build) (tc len : Nat) (r : Rec) :
    exec (.recordReceived p tc len r) s = .next ((s.tollRed p tc len).2.recordIn p tc len 0 (s.tollRed p tc len).1 r) :=
  present_true (decide_eq_true hp) _

theorem State.tollRed_build (s : State) (p tc len : Nat) : (s.tollRed p tc len).2.build = s.build :=
  (State.tollRed_keeps (mk := 0x23) (.refl s) p tc len).build

/-- The toll meters TC5 to TC7 of a Selvo-H or Selvo-T alone (R239). -/
theorem State.tollRed_unmetered {s : State} {tc : Nat} (h : s.build = .l ∨ tc < 5) (p len : Nat) : s.tollRed p tc len = (false, s) := by
  simp [State.tollRed, State.tollMeter, h]

/-! ### Units and the packets they join -/

theorem TxRx.unitFirst_released (x : TxRx) (u : UnitIn) : (x.unitFirst u).2.2.released = x.released := by
  unfold TxRx.unitFirst
  repeat' split
  all_goals rfl

/-- A unit's place in its packet has nothing to do with its credits. -/
theorem TxRx.unit_released (x : TxRx) (u : UnitIn) : (x.unit u).2.2.released = x.released := by
  unfold TxRx.unit
  split
  · exact x.unitFirst_released u
  · split
    · exact TxRx.unitFirst_released { x with asm := none } u
    · split <;> rfl

/-- A packet of one unit. -/
theorem TxRx.unit_whole {x : TxRx} {u : UnitIn} (hx : x.asm = none) (hf : u.first = true) (hl : u.last = true) :
    x.unit u = (none, .whole u.data, { x with lastPkt := u.pkt, badPkt := none }) := by
  simp [TxRx.unit, TxRx.unitFirst, hx, hf, hl]

/-- The last unit of the packet that is open. -/
theorem TxRx.unit_last {x : TxRx} {u : UnitIn} {a : Asm} (hx : x.asm = some a) (hf : u.first = false) (hl : u.last = true) (hpkt : u.pkt = a.pkt) :
    x.unit u = (none, .whole (a.bytes ++ u.data), { x with asm := none, lastPkt := u.pkt }) := by
  simp [TxRx.unit, hx, hf, hl, hpkt]

theorem State.unitDrop_ef {z s : State} (h : EvFrame z s) (d : Option (List Byte)) : EvFrame z (s.unitDrop d) := by
  unfold State.unitDrop State.takeDrop
  repeat' split
  · exact h
  · exact State.dropped_ef (State.tallyMod_ef h _ _) _ _
  · exact h
  · exact h

theorem State.rlBump_ef {z s : State} (h : EvFrame z s) (r : Reg) (p d : Nat) : EvFrame z (s.rlBump r p d) := by
  unfold State.rlBump
  split
  · exact State.pbump_ef h _ _ _
  · exact h

/-- Records dropped and counted leave the credits that a class has released. -/
theorem EvFrame.released {z s : State} (h : EvFrame z s) (p c : Nat) : ((s.port p).tx8 c).released = ((z.port p).tx8 c).released := by
  have e : (s.port p).quiet.tx8 c = (z.port p).quiet.tx8 c := by rw [h.port p]
  rw [Port.quiet_tx8, Port.quiet_tx8] at e
  exact (congrArg TxRx.released e :)

/-- A unit is noted at its port, and its credits are taken and released. -/
def State.unitTaken (s : State) (p : Nat) (u : UnitIn) : State :=
  (s.modPort p (fun q => { q with rxAt := s.time.cycles, farDoze := false })).ingressCredits p u.tc u.data.length

section
variable {s : State} {p : Nat} {u : UnitIn}

theorem State.unitTaken_length : (s.unitTaken p u).link.ports.length = s.link.ports.length := by
  unfold State.unitTaken State.ingressCredits
  rw [State.length_modCls, State.length_modPort]

theorem State.unitTaken_cls_length : ((s.unitTaken p u).port p).cls.length = (s.port p).cls.length := by
  unfold State.unitTaken State.ingressCredits
  rw [State.modCls_cls_length]
  exact State.modPort_port_shows (fun x => x.cls.length) s p p

variable (hp : p < s.link.ports.length) (hc : u.tc < (s.port p).cls.length)
include hp hc

theorem State.unitTaken_tx8 : ((s.unitTaken p u).port p).tx8 u.tc =
    { (s.port p).tx8 u.tc with released := w32 (((s.port p).tx8 u.tc).released + unitCredits u.data.length) } := by
  unfold State.unitTaken State.ingressCredits
  have hq := State.modPort_port_same hp (fun q => { q with rxAt := s.time.cycles, farDoze := false })
  rw [State.modCls_tx8_same (by rwa [State.length_modPort]) (by rwa [hq]), hq]
  rfl

end

/-- The unit has its place in its packet; what breaks the order of segments has been dropped. -/
def State.unitPlaced (s : State) (p : Nat) (u : UnitIn) : State :=
  let x := (((s.unitTaken p u).port p).tx8 u.tc).unit u
  ((s.unitTaken p u).modCls p u.tc (fun _ => x.2.2)).unitDrop x.1

/-- What a unit that is no link control may do beyond that: count a copy of a packet had before a REPLAY, or count its packet. -/
theorem State.unitIn_state (s : State) (p : Nat) {u : UnitIn} (hctl : u.linkCtl = false) :
    (s.unitIn p u).2 = s.unitPlaced p u ∨ (s.unitIn p u).2 = (s.unitPlaced p u).rlBump R.RL_REPLAY_DUP p ∨
      ∃ f : TxRx → TxRx, (s.unitIn p u).2 = (s.unitPlaced p u).modCls p u.tc f ∧ ∀ x, (f x).released = x.released := by
  unfold State.unitIn State.unitPlaced State.unitTaken
  simp only [hctl, Bool.false_eq_true, if_false]
  split
  · exact .inl rfl
  · split
    · split
      · exact .inr (.inl rfl)
      · exact .inr (.inr ⟨_, rfl, fun _ => rfl⟩)
    · exact .inr (.inr ⟨_, rfl, fun _ => rfl⟩)

/-- The bytes of a whole packet come out, where no REPLAY is awaited. -/
theorem State.unitIn_whole {s : State} {p : Nat} {u : UnitIn} {x : TxRx} {b : List Byte} (hctl : u.linkCtl = false)
    (hx : (((s.unitTaken p u).port p).tx8 u.tc).unit u = (none, .whole b, x)) (hr : x.replayPkt = none) : (s.unitIn p u).1 = some b := by
  unfold State.unitTaken at hx
  simp only [State.unitIn, hctl, Bool.false_eq_true, if_false, hx, hr]

section
variable {s : State} {p : Nat} {u : UnitIn} (hp : p < s.link.ports.length) (hc : u.tc < (s.port p).cls.length)
include hp hc

theorem State.unitPlaced_released : (((s.unitPlaced p u).port p).tx8 u.tc).released =
    w32 (((s.port p).tx8 u.tc).released + unitCredits u.data.length) := by
  unfold State.unitPlaced
  rw [(State.unitDrop_ef (.refl _) _).released, State.modCls_tx8_same (by rwa [State.unitTaken_length]) (by rwa [State.unitTaken_cls_length]),
    TxRx.unit_released, State.unitTaken_tx8 hp hc]

variable (hctl : u.linkCtl = false)
include hctl

/-- A unit that is no link control releases its credits, whatever its packet comes to (R224). -/
theorem State.unitIn_released : (((s.unitIn p u).2.port p).tx8 u.tc).released =
    w32 (((s.port p).tx8 u.tc).released + unitCredits u.data.length) := by
  rw [← State.unitPlaced_released hp hc]
  obtain e | e | ⟨f, e, hf⟩ := s.unitIn_state p hctl
  · rw [e]
  · rw [e, (State.rlBump_ef (.refl _) R.RL_REPLAY_DUP p 1).released]
  · rw [e, State.modCls_tx8_shows TxRx.released hf]

variable (hr : ((s.port p).tx8 u.tc).replayPkt = none) (hl : u.last = true)
include hr hl

theorem State.unitIn_single (hasm : ((s.port p).tx8 u.tc).asm = none) (hf : u.first = true) : (s.unitIn p u).1 = some u.data := by
  have hx := State.unitTaken_tx8 hp hc
  exact State.unitIn_whole hctl (TxRx.unit_whole (hx ▸ hasm) hf hl) (hx ▸ hr)

theorem State.unitIn_last {a : Asm} (hasm : ((s.port p).tx8 u.tc).asm = some a) (hf : u.first = false) (hpkt : u.pkt = a.pkt) :
    (s.unitIn p u).1 = some (a.bytes ++ u.data) := by
  have hx := State.unitTaken_tx8 hp hc
  exact State.unitIn_whole hctl (TxRx.unit_last (hx ▸ hasm) hf hl hpkt) (hx ▸ hr)

end

theorem State.unitIn_linkCtl (s : State) (p : Nat) {u : UnitIn} (hctl : u.linkCtl = true) :
    s.unitIn p u = (none, s.modPort p (fun q => { q with rxAt := s.time.cycles, farDoze := false })) := by
  simp only [State.unitIn, hctl, if_true]

/-! ### A unit at a port -/

/-- The unit that arrives wakes the group of its port where that does not run. -/
def State.groupWoken (s : State) (p : Nat) : State := if s.groupRuns p = true then s else s.wake (6 + portGroup s.build p)

theorem exec_unitReceived {s : State} {p : Nat} (hp : p < linkPorts s.build) {u : UnitIn} (hc : u.tc < 8) :
    exec (.unitReceived p u) s = .next (s.unitArrive p u) :=
  present_true (by simp [hp, hc]) _

theorem State.unitArrive_held {s : State} {p : Nat} (h : s.beatHeld p = true) (u : UnitIn) :
    s.unitArrive p u = s.wake (6 + portGroup s.build p) := if_pos h

theorem State.unitArrive_down {s : State} {p : Nat} (h : s.beatHeld p = false) (hup : (s.port p).up = false) (u : UnitIn) : s.unitArrive p u = s := by
  simp [State.unitArrive, h, hup]

section
variable {s : State} {p : Nat} {u : UnitIn} (h : s.beatHeld p = false) (hup : (s.port p).up = true)
include h hup

/-- A unit that completes no packet leaves the toll's colour in the packet it belongs to (R239). -/
theorem State.unitArrive_more (hv : (((s.groupWoken p).unitToll p u).2.unitIn p u).1 = none) :
    s.unitArrive p u = (((s.groupWoken p).unitToll p u).2.unitIn p u).2.modCls p u.tc
      (fun x => { x with asm := x.asm.map (fun a => { a with red := ((s.groupWoken p).unitToll p u).1 }) }) := by
  unfold State.groupWoken at hv ⊢
  simp only [State.unitArrive, h, hup, Bool.not_true, Bool.false_eq_true, if_false]
  split
  next e => rw [e]
  next e => simp [e] at hv

/-- A unit that completes a packet brings its bytes in as a record. -/
theorem State.unitArrive_whole {b : List Byte} (hv : (((s.groupWoken p).unitToll p u).2.unitIn p u).1 = some b) :
    s.unitArrive p u = ((((s.groupWoken p).unitToll p u).2.unitIn p u).2.recordIn p u.tc b.length (unitCredits u.data.length)
      ((s.groupWoken p).unitToll p u).1 (parsePacket b)).pubHold p u.tc (unitCredits u.data.length) (s.groupWoken p).link.nextUid := by
  unfold State.groupWoken at hv ⊢
  simp only [State.unitArrive, h, hup, Bool.not_true, Bool.false_eq_true, if_false]
  split
  next e => simp [e] at hv
  next c t e =>
    rw [e] at hv ⊢
    obtain rfl : c = b := Option.some.inj hv
    rfl

end

/-! ### Datagrams of a peer, and the windows of the coalescing table -/

theorem exec_dataDgram {s : State} (h : s.build = .t) (e ses dseq flags : Nat) (recs : List Rec) :
    exec (.dataDgram e ses dseq flags recs) s =
      .next (s.dataIn e ses dseq (if bitOf flags 0 = true ∧ bitOf flags 1 = false then [] else recs)) := by
  refine (present_true (by simp [h]) _).trans ?_
  congr 2
  simp

/-- DATA of the peer's session is answered with the cumulative point, after what is next in order has been taken (R464). -/
theorem State.dataIn_peer {s : State} {e ses : Nat} (he : e < 8) (hon : s.colOn e = true) (hpeer : s.colPeer e = true)
    (hid : (s.sess e).peerId ≠ 0) (hses : ses = (s.sess e).peerId) (dseq : Nat) (recs : List Rec) :
    s.dataIn e ses dseq recs =
      (let v := if dseq = ((s.sess e).peerAck + 1) % 2 ^ 64 then s.peerTake e dseq recs else s
       v.ethOut 2 e none (pubHdr 2 8 0 v.srcId ses 0 (v.sess e).peerAck)) :=
  if_pos ⟨he, by simp [hon, hpeer, hid, hses]⟩

/-- Any other DATA is discarded. -/
theorem State.dataIn_other {s : State} {e ses : Nat}
    (h : 8 ≤ e ∨ s.colOn e = false ∨ s.colPeer e = false ∨ (s.sess e).peerId = 0 ∨ ses ≠ (s.sess e).peerId) (dseq : Nat) (recs : List Rec) :
    s.dataIn e ses dseq recs = s.rxDiscard (s.sess e).port := by
  refine if_neg fun hc => ?_
  simp only [Bool.and_eq_true, bne_iff_ne, beq_iff_eq] at hc
  obtain ⟨he, ⟨⟨hon, hpeer⟩, hid⟩, hses⟩ := hc
  rcases h with h | h | h | h | h
  · omega
  · simp [h] at hon
  · simp [h] at hpeer
  · exact hid h
  · exact h hses

theorem exec_coalesceWindowClose {s : State} {k : Nat} (hk : k ≤ 256) {e : CoalEnt} (he : s.coal.entries.find? (fun e => e.idx == k) = some e) :
    exec (.coalesceWindowClose k) s = .next (if s.after e.openedAt (s.rd R.TRF_CTRL % 65536) = true then s.coalClose e else s) := by
  have hfld : fld (s.rd R.TRF_CTRL) 15 0 = s.rd R.TRF_CTRL % 65536 := congrArg (· % 65536) (Nat.div_one _)
  refine (present_true (decide_eq_true hk) _).trans (congrArg Host.Outcome.next ?_)
  split
  next e' he' =>
    obtain rfl : e' = e := Option.some.inj (he'.symm.trans he)
    rw [hfld]
  next hn => exact nomatch hn.symm.trans he

/-- An entry that counted nothing closes without a record. -/
theorem State.coalClose_empty {s : State} {e : CoalEnt} (h : e.count = 0) :
    s.coalClose e = { s with coal := { s.coal with entries := s.coal.entries.filter (fun x => x.idx != e.idx) } } := by
  simp [State.coalClose, h]

/-! ### The statement -/

/-- A check that a Selvo-L does not make. -/
theorem unchecked {b : Build} {c : Bool} (h : b = .l ∨ c = false) : (b != .l && c) = false := by
  rcases h with h | h <;> simp [h]

/-- Settles O38: a record by the branch of the checks that it meets, a unit by what its packet comes to, the rest by their one case. -/
theorem recordsAreCheckedJudgedAndTallied : Obligations.RecordsAreCheckedJudgedAndTallied := by
  refine ⟨DupCtx.judge_twice, fun s p hinv hp => ⟨fun tc len r => ?_, fun _ _ _ => rfl, fun tc len h => State.tollRed_unmetered h p len,
    fun u htc => ?_, fun e ses dseq flags recs hb => ?_, fun k e hk he => ?_⟩⟩
  · intro red u done
    have hbuild : u.build = s.build := s.tollRed_build p tc len
    have ends : ∀ {t}, u.recordIn p tc len 0 red r = t → done t := fun h => (exec_recordReceived hp tc len r).trans (congrArg _ h)
    refine ⟨fun hq => ends (State.recordIn_refused (State.admitUnit_quar hq)), fun hq => ⟨fun hb hr => ?_, fun hsrc => ?_⟩⟩
    · exact ends (State.recordIn_refused (State.admitUnit_reserved hq (by simp [hbuild, hb, hr])))
    have hs := unchecked (hbuild ▸ hsrc)
    refine ⟨fun hm => ?_, fun halien hform => ?_⟩
    · exact ends (State.recordIn_refused (State.admitUnit_malformed hq hs (by simpa [hbuild] using hm)))
    have hm : (u.convoyAlien r || (u.build != .l && malformed r tc len)) = false := by rw [halien, unchecked (hbuild ▸ hform)]; rfl
    refine ⟨fun hred => ?_, fun hred => ⟨fun hl => ?_, fun hl ht => ⟨fun hd => ?_, fun hd => ?_⟩⟩⟩ <;> rw [hred] at ends
    · exact ends (State.recordIn_refused (State.admitUnit_red hq hs hm))
    · exact ends (State.recordIn_admitted (State.admitUnit_unjudged hq hs hm hl))
    · exact ends (State.recordIn_refused ((State.admitUnit_judged hq hs hm hl ht).trans (if_pos hd)))
    · exact ends (State.recordIn_admitted ((State.admitUnit_judged hq hs hm hl ht).trans (if_neg (by simp [hd]))))
  · have hlt := hinv.port_lt hp
    have he := exec_unitReceived hp htc
    refine ⟨fun h => ?_, fun h hup => ?_, fun hc hctl => ?_, fun hctl => ?_, fun hc hctl hr => ⟨?_, ?_⟩, fun h hup => ⟨?_, ?_⟩⟩
    · rw [he, State.unitArrive_held h]
    · rw [he, State.unitArrive_down h hup]
    · exact State.unitIn_released hlt hc hctl
    · rw [State.unitIn_linkCtl s p hctl]
      exact ⟨rfl, State.modPort_port_shows Port.cls s p p⟩
    · exact fun hasm hf hl => State.unitIn_single hlt hc hctl hr hl hasm hf
    · exact fun a hasm hf hl hpkt => State.unitIn_last hlt hc hctl hr hl hasm hf hpkt
    · exact fun hv => he.trans (congrArg _ (State.unitArrive_more h hup hv))
    · exact fun b hv => he.trans (congrArg _ (State.unitArrive_whole h hup hv))
  · have he := exec_dataDgram hb e ses dseq flags recs
    refine ⟨fun h8 hon hpeer hid hses => ⟨fun hseq => ?_, fun hseq => ?_⟩, fun h => ?_⟩
    · rw [he, State.dataIn_peer h8 hon hpeer hid hses, if_pos hseq]
    · rw [he, State.dataIn_peer h8 hon hpeer hid hses, if_neg hseq]
    · rw [he, State.dataIn_other h]
  · have hidx : e.idx = k := by simpa using List.find?_some he
    refine ⟨fun h => ⟨?_, _, rfl, fun hc => ?_⟩, fun h => ?_⟩
    · rw [exec_coalesceWindowClose hk he, if_pos h]
    · rw [State.coalClose_empty hc, hidx]
    · rw [exec_coalesceWindowClose hk he, if_neg (by simp [h])]

end Sys2Proof.Machine
end

section
/-! PROOFS. Units that leave a port: the search for the class that may, and what sending its head unit does to the port
(R222, R223, R233 to R237). -/

namespace Sys2Proof.Machine

/-! ### The class that leaves -/

/-- The boundary stops at a class whose head may leave and whose sender may use some credit. -/
def State.tries (s : State) (p c : Nat) : Bool := s.mayLeave p c && decide (0 < ((s.port p).tx8 c).usable)

theorem State.tries_eq_true {s : State} {p c : Nat} : s.tries p c = true ↔ s.mayLeave p c = true ∧ 0 < ((s.port p).tx8 c).usable := by
  simp [State.tries]

theorem State.tries_eq_false {s : State} {p c : Nat} : s.tries p c = false ↔ s.mayLeave p c = false ∨ ((s.port p).tx8 c).usable ≤ 0 := by
  rw [State.tries, Bool.and_eq_false_iff, decide_eq_false_iff_not, Int.not_lt]

theorem State.eligible_eq_true {s : State} {p c : Nat} :
    s.eligible p c = true ↔ s.mayLeave p c = true ∧ (((s.port p).tx8 c).headNeed : Int) ≤ ((s.port p).tx8 c).usable := by
  simp [State.eligible]

/-- A head that may leave needs a credit for its header at least. -/
theorem State.headNeed_pos_of_mayLeave {s : State} {p c : Nat} (h : s.mayLeave p c = true) : 0 < ((s.port p).tx8 c).headNeed := by
  unfold TxRx.headNeed
  cases hq : ((s.port p).tx8 c).q with
  | nil => simp [State.mayLeave, hq] at h
  | cons i rest =>
    change 0 < (i.nextLen + 8 + 63) / 64
    omega

theorem State.tries_of_eligible {s : State} {p c : Nat} (h : s.eligible p c = true) : s.tries p c = true := by
  obtain ⟨hm, hn⟩ := State.eligible_eq_true.mp h
  have hpos := State.headNeed_pos_of_mayLeave hm
  exact State.tries_eq_true.mpr ⟨hm, by omega⟩

section
variable {s : State} {p c : Nat} {bad : List Nat}

theorem State.unitFrom_skip {l : List Nat} (h : ∀ d ∈ l, s.tries p d = false) (cs : List Nat) :
    State.unitFrom p bad (l ++ cs) s = State.unitFrom p bad cs s := by
  induction l with
  | nil => rfl
  | cons d l ih =>
    have hd : (s.mayLeave p d && decide (0 < ((s.port p).tx8 d).usable)) = false := h d List.mem_cons_self
    rw [List.cons_append, State.unitFrom, hd, if_neg Bool.false_ne_true, ih fun e he => h e (List.mem_cons_of_mem d he)]

/-- With no class to try the boundary does nothing. -/
theorem State.unitFrom_none {l : List Nat} (h : ∀ d ∈ l, s.tries p d = false) : State.unitFrom p bad l s = s := by
  simpa [State.unitFrom] using State.unitFrom_skip h (bad := bad) []

/-- The class that is tried is coded; then it is sent, or the search goes on behind it. -/
theorem State.unitFrom_try (h : s.tries p c = true) (cs : List Nat) :
    State.unitFrom p bad (c :: cs) s = (let u := s.codeHead p c
      if u.eligible p c = true then (if bad.isEmpty = true then u else (u.poisonHead p c).badWord bad).sendUnit p c else State.unitFrom p bad cs u) := by
  have ht : (s.mayLeave p c && decide (0 < ((s.port p).tx8 c).usable)) = true := h
  rw [State.unitFrom, if_pos ht]

theorem range_eight_split {c : Nat} (h : c < 8) : List.range 8 = List.range c ++ c :: (List.range 8).drop (c + 1) := by
  have hall : ∀ c < 8, List.range 8 = List.range c ++ c :: (List.range 8).drop (c + 1) := by decide
  exact hall c h

theorem State.unitFrom_first (hc : c < 8) (h : s.tries p c = true) (hfirst : ∀ d < c, s.tries p d = false) :
    State.unitFrom p bad (List.range 8) s = (let u := s.codeHead p c
      if u.eligible p c = true then (if bad.isEmpty = true then u else (u.poisonHead p c).badWord bad).sendUnit p c
      else State.unitFrom p bad ((List.range 8).drop (c + 1)) u) := by
  rw [congrArg (fun l => State.unitFrom p bad l s) (range_eight_split hc), State.unitFrom_skip fun d hd => hfirst d (List.mem_range.mp hd),
    State.unitFrom_try h]

/-! ### What a boundary comes to -/

theorem exec_egressUnitBoundary (hp : p < linkPorts s.build) (bad : List Nat) :
    exec (.egressUnitBoundary p bad) s = .next (s.unitOut p bad) := present_true (decide_eq_true hp) _

theorem State.unitOut_unusable (h : (s.port p).usable = false ∨ s.groupRuns p = false) : s.unitOut p bad = s := by
  refine if_neg fun hc => ?_
  rw [Bool.and_eq_true] at hc
  rcases h with h | h <;> simp [h] at hc

section
variable (hu : (s.port p).usable = true) (hr : s.groupRuns p = true)
include hu hr

theorem State.unitOut_awake (hd : (s.port p).farDoze = false) : s.unitOut p bad = State.unitFrom p bad (List.range 8) s := by
  simp [State.unitOut, hu, hr, hd]

theorem State.unitOut_dozing (hd : (s.port p).farDoze = true) :
    s.unitOut p bad = if (List.range 8).any (s.eligible p) = true then s.wakeFar p else s := by
  simp [State.unitOut, hu, hr, hd]

end

theorem State.unitOut_idle (h : ∀ c < 8, s.tries p c = false) : s.unitOut p bad = s := by
  cases hu : (s.port p).usable with
  | false => exact State.unitOut_unusable (.inl hu)
  | true =>
    cases hr : s.groupRuns p with
    | false => exact State.unitOut_unusable (.inr hr)
    | true =>
      cases hd : (s.port p).farDoze with
      | false => rw [State.unitOut_awake hu hr hd, State.unitFrom_none fun c hc => h c (List.mem_range.mp hc)]
      | true =>
        rw [State.unitOut_dozing hu hr hd]
        refine if_neg fun hany => ?_
        obtain ⟨c, hc, he⟩ := List.any_eq_true.mp hany
        exact absurd (State.tries_of_eligible he) (Bool.eq_false_iff.mp (h c (List.mem_range.mp hc)))

end

/-! ### The shapers are charged -/

theorem State.modCls_tx8_other {c d : Nat} (h : d ≠ c) (s : State) (p q : Nat) (f : TxRx → TxRx) :
    ((s.modCls p c f).port q).tx8 d = (s.port q).tx8 d :=
  State.modPort_port_shows (fun x => x.tx8 d) s p q fun x => modNth_getD_other h x.cls f _

/-- A charge ends with the class's update, but for the lane's tokens. -/
theorem State.charge_shows {β : Type} (g : Port → β) (s : State) {p c : Nat} (n : Nat) (q : Nat) (hc : c ≠ 0)
    (hg : ∀ x l a, g { x with laneTokens := l, laneAt := a } = g x) :
    g ((s.charge p c n).port q) =
      g ((s.modCls p c (fun x => { x with tokens := s.tokensNow p c - (n : Int) * byteUnit, tokAt := s.now })).port q) := by
  unfold State.charge
  rw [if_neg hc]
  dsimp only
  split
  · exact State.modPort_port_shows g _ p q fun x => hg x _ _
  · rfl

theorem State.charge_tc0 (s : State) (p n : Nat) : s.charge p 0 n = s := rfl

/-- No class but the one that is charged changes. -/
theorem State.charge_tx8_other {c d : Nat} (h : d ≠ c) (s : State) (p q n : Nat) : ((s.charge p c n).port q).tx8 d = (s.port q).tx8 d := by
  by_cases hc : c = 0
  · rw [hc, State.charge_tc0]
  · rw [State.charge_shows (fun x => x.tx8 d) s n q hc fun _ _ _ => rfl, State.modCls_tx8_other h]

theorem State.charge_cls_length (s : State) (p c n q : Nat) : ((s.charge p c n).port q).cls.length = (s.port q).cls.length := by
  by_cases hc : c = 0
  · rw [hc, State.charge_tc0]
  · rw [State.charge_shows (fun x => x.cls.length) s n q hc fun _ _ _ => rfl, State.modCls_cls_length]

theorem State.charge_length (s : State) (p c n : Nat) : (s.charge p c n).link.ports.length = s.link.ports.length := by
  unfold State.charge
  split
  · rfl
  · dsimp only
    split
    · rw [State.length_modPort, State.length_modCls]
    · rw [State.length_modCls]

/-- The class that is charged, where it is not TC0, has the tokens of now less the bytes. -/
theorem State.charge_tx8_same {s : State} {p c : Nat} (hp : p < s.link.ports.length) (hcls : c < (s.port p).cls.length) (hc : c ≠ 0) (n : Nat) :
    ((s.charge p c n).port p).tx8 c =
      { (s.port p).tx8 c with tokens := s.tokensNow p c - (n : Int) * byteUnit, tokAt := s.now } := by
  rw [State.charge_shows (fun x => x.tx8 c) s n p hc fun _ _ _ => rfl, State.modCls_tx8_same hp hcls]

/-- A charge spends tokens alone. -/
theorem State.charge_tx8_shows {β : Type} (g : TxRx → β) (hg : ∀ x t a, g { x with tokens := t, tokAt := a } = g x) (s : State) (p c n q d : Nat) :
    g (((s.charge p c n).port q).tx8 d) = g ((s.port q).tx8 d) := by
  by_cases hc : c = 0
  · rw [hc, State.charge_tc0]
  · rw [State.charge_shows (fun x => g (x.tx8 d)) s n q hc fun _ _ _ => rfl]
    exact State.modCls_tx8_shows g (fun x => hg x _ _) s p q c d

/-! ### The head unit is sent -/

/-- The head packet of a class once the unit at hand has left, under the PKT of its packet. -/
def Item.advance (i : Item) (pkt : Nat) : Item := { i with sent := i.sent + i.nextLen, pkt := pkt }

/-- The unit at hand is the last of its packet. -/
def Item.ends (i : Item) : Bool := i.sent + i.nextLen == i.r.payload.length + 24

/-- A class whose head unit has left, at `now`. -/
def TxRx.unitLeft (x : TxRx) (i : Item) (rest : List Item) (pkt sent now : Nat) : TxRx :=
  { x with q := if i.ends then rest else i.advance pkt :: rest, held := if i.ends then x.held ++ [i.advance pkt] else x.held,
           txSent := sent, credits := x.credits - unitCredits i.nextLen,
           quiesce := x.quiesce.map (fun z => { z with left := z.left - unitCredits i.nextLen, since := now }) }

/-- The unit at hand as it stands on the wire. -/
def Item.unit (i : Item) (c pkt : Nat) : UnitIn := UnitIn.make pkt c (i.sent == 0) i.ends (((packet i.r).drop i.sent).take i.nextLen)

theorem State.exchSent_link (s : State) (p : Nat) (r : Rec) : (s.exchSent p r).link = s.link :=
  (State.exchSent_keeps (mk := 0x4) (.refl s) p r).same .link rfl

/-- What sending the head unit does to the links: the shapers are charged, the class goes on, and the unit is put on the wire. -/
theorem State.sendUnit_link {s : State} {p c : Nat} {i : Item} {rest : List Item} (hq : ((s.port p).tx8 c).q = i :: rest) :
    ∃ pkt sent now, (s.sendUnit p c).link =
      (((s.charge p c (i.nextLen + 8)).modCls p c (fun x => x.unitLeft i rest pkt sent now)).modPort p
        (fun q => { q with tx := some (i.unit c pkt) })).link := by
  simp only [State.sendUnit, hq]
  split
  · exact ⟨_, _, _, State.exchSent_link _ p i.r⟩
  · exact ⟨_, _, _, rfl⟩

/-- The port after its unit has left: its class spends tokens, then credits, and its other classes stay. -/
theorem State.sendUnit_port {s : State} {p c : Nat} {i : Item} {rest : List Item} (hp : p < s.link.ports.length) (hc : c < (s.port p).cls.length)
    (hq : ((s.port p).tx8 c).q = i :: rest) : ∃ pkt sent now, ((s.sendUnit p c).port p).tx = some (i.unit c pkt) ∧
    ((s.sendUnit p c).port p).tx8 c = (((s.charge p c (i.nextLen + 8)).port p).tx8 c).unitLeft i rest pkt sent now ∧
    ∀ d, d ≠ c → ((s.sendUnit p c).port p).tx8 d = (s.port p).tx8 d := by
  obtain ⟨pkt, sent, now, hl⟩ := State.sendUnit_link hq
  have hlen := (s.charge_length p c (i.nextLen + 8)).symm ▸ hp
  have hcls := (s.charge_cls_length p c (i.nextLen + 8) p).symm ▸ hc
  have hport : (s.sendUnit p c).port p =
      { ((s.charge p c (i.nextLen + 8)).modCls p c (fun x => x.unitLeft i rest pkt sent now)).port p with tx := some (i.unit c pkt) } :=
    (congrArg (fun l => l.ports.getD p (Port.reset 0)) hl).trans (State.modPort_port_same ((State.length_modCls ..).symm ▸ hlen) _)
  rw [hport]
  refine ⟨pkt, sent, now, rfl, State.modCls_tx8_same hlen hcls _, fun d hd => ?_⟩
  exact (State.modCls_tx8_other hd _ p p _).trans (State.charge_tx8_other hd s p p _)

/-- Settles O32: the boundary by the first class that it tries, the unit by what `State.sendUnit` leaves in its class and in the others. -/
theorem unitsLeaveByPriorityAndSpendTheirCredits : Obligations.UnitsLeaveByPriorityAndSpendTheirCredits := by
  intro s p hinv hp
  have hout := exec_egressUnitBoundary hp
  refine ⟨fun bad h => ?_, fun bad hu hr hd => ⟨fun ⟨c, hc, he⟩ => ?_, fun h => ?_⟩, fun bad c hu hr hd hc hm hpos hfirst => ?_,
    fun c => State.eligible_eq_true, fun c i rest hc hq => ?_⟩
  · rw [hout]
    rcases h with h | h | h
    · rw [State.unitOut_unusable (.inl h)]
    · rw [State.unitOut_unusable (.inr h)]
    · rw [State.unitOut_idle fun c hc => State.tries_eq_false.mpr (h c hc)]
  · rw [hout, State.unitOut_dozing hu hr hd, if_pos (List.any_eq_true.mpr ⟨c, List.mem_range.mpr hc, he⟩)]
  · rw [hout, State.unitOut_dozing hu hr hd, if_neg (by simpa using h)]
  · rw [hout, State.unitOut_awake hu hr hd,
      State.unitFrom_first hc (State.tries_eq_true.mpr ⟨hm, hpos⟩) fun d hd => State.tries_eq_false.mpr (hfirst d hd)]
    refine ⟨fun he => ?_, fun he => ?_⟩
    · simp only [he, if_true, List.isEmpty_iff]
    · simp only [he, Bool.false_eq_true, if_false]
  · have hlt := hinv.port_lt hp
    obtain ⟨pkt, sent, now, htx, hsame, hother⟩ := State.sendUnit_port hlt hc hq
    have hcredits := State.charge_tx8_shows TxRx.credits (fun _ _ _ => rfl) s p c (i.nextLen + 8) p c
    have hheld := State.charge_tx8_shows TxRx.held (fun _ _ _ => rfl) s p c (i.nextLen + 8) p c
    dsimp only
    rw [hsame]
    refine ⟨congrArg (· - _) hcredits, ?_, ?_, ⟨pkt, htx⟩, fun hmore => ?_, fun hlast => ?_, hother⟩
    · rintro rfl
      rfl
    · intro h0
      rw [State.charge_tx8_same hlt hc h0]
      rfl
    · have he : i.ends = false := beq_false_of_ne hmore
      simp [TxRx.unitLeft, he, hheld, Item.advance]
    · have he : i.ends = true := beq_iff_eq.mpr hlast
      simp [TxRx.unitLeft, he, hheld, Item.advance]

end Sys2Proof.Machine
end

section
/-! PROOFS. What a LINK_CTL settles at a port, and the operations that leave it: fates, the packets of a broadcast's reach, and the
sessions that carry them (R200, R210, R226, R464). -/

namespace Sys2Proof.Machine

/-! ### The accounts of a port -/

/-- What a LINK_CTL settles in a class: its credits, the counts applied, and the packets held. -/
structure Account where
  credits : Int
  relApplied : Nat
  ackApplied : Nat
  held : List Item

def TxRx.account (x : TxRx) : Account := ⟨x.credits, x.relApplied, x.ackApplied, x.held⟩

/-- A port by the accounts of its classes, beside the doze of its far end and what was last heard from it. -/
structure Ledger where
  farDoze : Bool
  rxAt : Nat
  classes : Nat
  account : Nat → Account

def Port.ledger (q : Port) : Ledger := ⟨q.farDoze, q.rxAt, q.cls.length, fun c => (q.tx8 c).account⟩

/-- Every port shows the same accounts. -/
def SameLedgers (z s : State) : Prop := ∀ p, (s.port p).ledger = (z.port p).ledger

/-- An update of a class that leaves its account leaves the port's ledger. -/
theorem Port.modCls_ledger {f : TxRx → TxRx} (hf : ∀ x, (f x).account = x.account) (q : Port) (c : Nat) : (q.modCls c f).ledger = q.ledger :=
  Ledger.mk.injEq .. ▸ ⟨rfl, rfl, modNth_length _ _ _, funext fun d => Port.modCls_tx8_shows TxRx.account hf q c d⟩

/-- Accounts have nothing of a queue. -/
theorem Port.quiet_ledger (q : Port) : q.quiet.ledger = q.ledger := by
  unfold Port.ledger
  simp only [Port.quiet_tx8]
  simp [Port.quiet, TxRx.quiet, TxRx.account]

section
variable {z s t : State}

theorem SameLedgers.refl (s : State) : SameLedgers s s := fun _ => rfl

theorem SameLedgers.trans (h : SameLedgers z s) (k : SameLedgers s t) : SameLedgers z t := fun p => (k p).trans (h p)

theorem SameLedgers.of_evFrame (h : EvFrame z s) : SameLedgers z s := fun p => by
  rw [← Port.quiet_ledger, h.port, Port.quiet_ledger]

theorem SameLedgers.of_link (h : s.link.ports = z.link.ports) : SameLedgers z s := fun p => by
  unfold State.port
  rw [h]

/-- An operation outside the link group leaves the accounts. -/
theorem SameLedgers.of_keeps {m : Nat} (h : Keeps m z s) (hm : m.testBit Part.link.bit = false := by rfl) : SameLedgers z s :=
  .of_link (congrArg LinkSt.ports (h.same .link hm))

theorem SameLedgers.foldl {α : Type _} {f : State → α → State} (hf : ∀ t a, SameLedgers t (f t a)) (l : List α) (s : State) :
    SameLedgers s (l.foldl f s) := by
  induction l generalizing s with
  | nil => exact .refl s
  | cons a l ih => exact (hf s a).trans (ih _)

end

/-! ### Fates -/

theorem State.owedDone_ef {z s : State} (h : EvFrame z s) (uid : Nat) : EvFrame z (s.owedDone uid) := by
  unfold State.owedDone
  split
  · exact EvFrame.foldl _ _ h.of fun _ ht i => State.slotDone_ef ht (some i)
  · exact h

theorem State.fateDelivered_ef {z s : State} (h : EvFrame z s) (uid : Nat) : EvFrame z (s.fateDelivered uid) := by
  unfold State.fateDelivered
  split
  · refine State.owedDone_ef (State.slotDone_ef ?_ _) uid
    split
    · exact h.trans ⟨rfl, rfl, rfl, rfl, rfl, rfl⟩
    · exact h.trans ⟨rfl, rfl, rfl, rfl, rfl, rfl⟩
  · exact h

theorem State.fateLost_ef {z s : State} (h : EvFrame z s) (uid reason : Nat) : EvFrame z (s.fateLost uid reason) := by
  have hpend : ∀ l : List Pend, EvFrame z { s with link := { s.link with pend := l } } := fun _ => h.trans ⟨rfl, rfl, rfl, rfl, rfl, rfl⟩
  unfold State.fateLost
  split
  · split
    · refine State.owedDone_ef (State.slotDone_ef ?_ _) uid
      split
      · exact State.dropped_ef (hpend _) _ _
      · exact hpend _
    · exact hpend _
  · exact h

theorem State.bcastAcked_ledgers (s : State) (uid : Nat) : SameLedgers s (s.bcastAcked uid) :=
  .trans (.of_link rfl) (.foldl (fun t f => .of_evFrame (State.fateDelivered_ef (.refl t) f)) _ _)

/-! ### Sessions -/

/-- The shapers have no part in the accounts (R235). -/
theorem State.charge_ledgers (s : State) (p c n : Nat) : SameLedgers s (s.charge p c n) := fun q => by
  by_cases hc : c = 0
  · rw [hc, State.charge_tc0]
  · rw [State.charge_shows Port.ledger s n q hc fun _ _ _ => rfl]
    exact State.modPort_port_shows Port.ledger s p q fun x => Port.modCls_ledger (by exact fun _ => rfl) x c

theorem State.pubOne_ledgers (s : State) (e : Nat) (x : PubItem) : SameLedgers s (s.pubOne e x) := by
  unfold State.pubOne
  extract_lets
  exact .trans (.trans (.of_link rfl) (State.charge_ledgers (s.ethOut 1 e _ _) _ _ _)) (.of_link rfl)

theorem State.pubPump_ledgers (n e : Nat) (s : State) : SameLedgers s (State.pubPump n e s) := by
  induction n generalizing s with
  | zero => exact .refl s
  | succ n ih =>
    unfold State.pubPump
    dsimp only
    split
    · exact .refl s
    · split
      · exact .of_keeps (m := 0x80000) (State.wake_keeps (.refl s) _)
      · split
        · exact (s.pubOne_ledgers e _).trans (ih _)
        · exact .refl s

theorem State.pubAdd_ledgers (s : State) (x : PubItem) : SameLedgers s (s.pubAdd x) :=
  .trans (.of_link rfl) (.foldl (fun t e => .trans (.of_link rfl) (State.pubPump_ledgers _ e (t.modSess e _))) _ _)

/-! ### The packets that tell how far a broadcast has reached (R210) -/

theorem State.sendPort_ledgers (s : State) (p : Nat) (r : Rec) (tallied : Bool) : SameLedgers s (s.sendPort p r tallied) :=
  .of_evFrame (State.sendPort_ef (.refl s) p r tallied)

theorem State.noWay_ledgers (s : State) (p : Nat) (r : Rec) (tallied : Bool) : SameLedgers s (s.noWay p r tallied) :=
  .of_keeps (m := 0x441) (State.noWay_keeps (.refl s) p r tallied)

theorem State.sendNeighbour_ledgers (s : State) (p : Nat) (r : Rec) (tallied : Bool) : SameLedgers s (s.sendNeighbour p r tallied) := by
  unfold State.sendNeighbour State.peerSend
  split
  · split
    · dsimp only
      have hpend : SameLedgers s (s.newPend r.stream tallied none 1).2 := .of_evFrame (State.newPend_ef (.refl s) _ _ _ _)
      split
      · exact hpend.trans (State.pubAdd_ledgers _ _)
      · exact hpend
    · split
      · exact .of_evFrame (State.dropped_ef (.refl s) _ _)
      · exact .refl s
  · exact s.sendPort_ledgers p r tallied

theorem State.sendRoot_ledgers (s : State) (e : Entry) (r : Rec) (tallied : Bool) : SameLedgers s (s.sendRoot e r tallied) := by
  unfold State.sendRoot
  split
  · split
    · exact s.sendNeighbour_ledgers _ r tallied
    · exact s.noWay_ledgers _ r tallied
  · exact s.noWay_ledgers _ r tallied

theorem State.sendParent_ledgers (s : State) (e : Entry) (r : Rec) (tallied : Bool) : SameLedgers s (s.sendParent e r tallied) := by
  unfold State.sendParent
  split
  · split
    · exact s.sendPort_ledgers 0 r tallied
    · exact s.noWay_ledgers 0 r tallied
  · split
    · dsimp only
      split
      · exact s.noWay_ledgers _ r tallied
      · exact .of_evFrame (EvFrame.foldl _ _ (State.newPend_ef (.refl s) _ _ _ _) fun _ ht _ => State.enqueue_ef ht _ _ _)
    · dsimp only
      split
      · exact s.sendNeighbour_ledgers _ r tallied
      · refine .trans ?_ (State.sendNeighbour_ledgers _ _ r tallied)
        split
        · exact .refl s
        · exact .of_link rfl
      · exact s.sendRoot_ledgers e r tallied

theorem State.sendReach_ledgers (s : State) (e : Entry) (h : CHdr) (reached : Nat) (orphans : List Nat) :
    SameLedgers s (s.sendReach e h reached orphans) :=
  .trans (.of_link rfl) (State.sendParent_ledgers _ e _ false)

theorem State.modBcast_ledgers (s : State) (stream epoch : Nat) (f : Bcast → Bcast) : SameLedgers s (s.modBcast stream epoch f) := .of_link rfl

theorem State.showReached_ledgers (s : State) (stream : Nat) : SameLedgers s (s.showReached stream) :=
  .of_keeps (m := 0x1) (State.showReached_keeps (.refl s) stream)

theorem State.reachReport_ledgers (s : State) (stream epoch : Nat) : SameLedgers s (s.reachReport stream epoch) := by
  unfold State.reachReport
  split
  next i e b _ =>
    split
    · exact .refl s
    · extract_lets u
      have hu : SameLedgers s u := s.modBcast_ledgers stream epoch _
      split
      · have hv := hu.trans (u.showReached_ledgers stream)
        dsimp only
        split
        · exact hv
        · refine .trans (hv.trans (.of_link rfl)) (.foldl (fun t bit => ?_) _ _)
          split
          · exact State.sendNeighbour_ledgers t _ _ false
          · exact .refl t
      · exact hu.trans (u.sendReach_ledgers e _ _ _)
  · exact .refl s

theorem State.bcastFate_ledgers (s : State) (stream epoch : Nat) : SameLedgers s (s.bcastFate stream epoch) := by
  unfold State.bcastFate
  split
  · split
    · split
      · extract_lets u
        have hu : SameLedgers s u := s.modBcast_ledgers stream epoch _
        split
        · exact hu.trans (.of_evFrame (State.fateDelivered_ef (.refl u) _))
        · exact hu.trans (.of_evFrame (State.fateLost_ef (.refl u) _ 1))
      · exact .refl s
    · exact .refl s
  · exact .refl s

theorem State.reachCheck_ledgers (s : State) (stream epoch : Nat) : SameLedgers s (s.reachCheck stream epoch) := by
  unfold State.reachCheck
  refine (s.bcastFate_ledgers stream epoch).trans ?_
  dsimp only
  split
  · split
    · exact State.reachReport_ledgers _ stream epoch
    · exact .refl _
  · exact .refl _

theorem State.reachLate_ledgers (s : State) (stream epoch n : Nat) (orphans : List Nat) : SameLedgers s (s.reachLate stream epoch n orphans) := by
  unfold State.reachLate
  split
  · extract_lets u
    have hu : SameLedgers s u := s.modBcast_ledgers stream epoch _
    split
    · exact hu
    · split
      · exact hu.trans (u.showReached_ledgers stream)
      · exact hu.trans (u.sendReach_ledgers _ _ n orphans)
  · exact .refl s

theorem State.reachSettle_ledgers (s : State) : SameLedgers s s.reachSettle := by
  refine .foldl (fun t x => ?_) _ s
  refine .trans ?_ (State.reachCheck_ledgers _ x.1 x.2.1)
  split
  · exact .refl t
  · exact (t.modBcast_ledgers x.1 x.2.1 _).trans (State.reachLate_ledgers _ x.1 x.2.1 x.2.2 [])

end Sys2Proof.Machine
end

section
/-! PROOFS. Link control: what LINK_CTL_SEND and the keepalive report, and what a LINK_CTL that arrives settles (R224 to R226, R451). -/

namespace Sys2Proof.Machine

/-! ### Counts that are reported -/

/-- The counts of a class have been reported. -/
def TxRx.tell (x : TxRx) : TxRx := { x with relReported := x.released, ackReported := x.rxAcked % 2 ^ 32 }

/-- The counts of some classes have been reported. -/
def Port.tell (q : Port) (l : List Nat) : Port := l.foldl (fun q c => q.modCls c TxRx.tell) q

theorem Port.mem_unreported {q : Port} {c : Nat} :
    c ∈ q.unreported ↔ c < 8 ∧ ((q.tx8 c).released ≠ (q.tx8 c).relReported ∨ (q.tx8 c).rxAcked % 2 ^ 32 ≠ (q.tx8 c).ackReported) := by
  simp [Port.unreported]

/-- A class that the port lacks has nothing to report, so a report needs no bound. -/
theorem Port.tell_one_tx8 (q : Port) (c d : Nat) : (q.modCls c TxRx.tell).tx8 d = if d = c then (q.tx8 d).tell else q.tx8 d := by
  split
  next h =>
    subst h
    by_cases hc : d < q.cls.length
    · exact Port.modCls_tx8_same hc TxRx.tell
    · have hnone : ∀ l : List TxRx, l.length = q.cls.length → l.getD d (TxRx.reset 0) = TxRx.reset 0 := fun l hl => by
        rw [List.getD_eq_getElem?_getD, List.getElem?_eq_none (by omega), Option.getD_none]
      have hq : q.tx8 d = TxRx.reset 0 := hnone _ rfl
      exact (hnone _ (modNth_length _ _ _)).trans (congrArg TxRx.tell hq).symm
  next h => exact modNth_getD_other h q.cls TxRx.tell _

theorem Port.tell_tx8 (q : Port) (l : List Nat) (d : Nat) : (q.tell l).tx8 d = if d ∈ l then (q.tx8 d).tell else q.tx8 d := by
  induction l generalizing q with
  | nil => rfl
  | cons c l ih =>
    have hcons : q.tell (c :: l) = (q.modCls c TxRx.tell).tell l := rfl
    rw [hcons, ih, Port.tell_one_tx8]
    by_cases hd : d = c <;> by_cases hl : d ∈ l <;> simp [hd, hl, TxRx.tell]

/-- Once the classes that changed are reported, nothing is left to report (R226). -/
theorem Port.tell_unreported (q : Port) : (q.tell q.unreported).unreported = [] := by
  refine List.eq_nil_iff_forall_not_mem.mpr fun c hc => ?_
  obtain ⟨h8, hne⟩ := Port.mem_unreported.mp hc
  rw [Port.tell_tx8] at hne
  by_cases hm : c ∈ q.unreported
  · simp [hm, TxRx.tell] at hne
  · rw [if_neg hm] at hne
    exact hm (Port.mem_unreported.mpr ⟨h8, hne⟩)

/-- A report leaves the port but for its classes. -/
theorem Port.tell_shows {β : Type} (g : Port → β) (q : Port) (l : List Nat)
    (hg : ∀ q c, g (q.modCls c TxRx.tell) = g q := by exact fun _ _ => rfl) : g (q.tell l) = g q := by
  induction l generalizing q with
  | nil => rfl
  | cons c l ih => exact (ih (q.modCls c TxRx.tell)).trans (hg q c)

/-- An update of some classes, one after the other, is an update of their port. -/
theorem State.foldl_modCls_port {s : State} {p : Nat} (hp : p < s.link.ports.length) (f : TxRx → TxRx) (l : List Nat) :
    (l.foldl (fun (s : State) c => s.modCls p c f) s).port p = l.foldl (fun (q : Port) c => q.modCls c f) (s.port p) := by
  induction l generalizing s with
  | nil => rfl
  | cons c l ih =>
    rw [List.foldl_cons, List.foldl_cons, ih ((s.length_modCls p c f).symm ▸ hp)]
    exact congrArg (fun q => l.foldl (fun (q : Port) c => q.modCls c f) q) (State.modPort_port_same hp _)

/-! ### LINK_CTL is sent -/

/-- The LINK_CTL that lists some classes of a port with their cumulative counts (Table 7-2). -/
def Port.report (q : Port) (l : List Nat) (keep : Bool) : CtlPkt :=
  CtlPkt.make 0x10 (clsBits l) (b2n keep) 0 (l.map (fun c => [(q.tx8 c).released, (q.tx8 c).rxAcked % 2 ^ 32])).flatten

/-- A port that has sent the report of some classes. -/
def Port.reported (q : Port) (l : List Nat) (keep : Bool) (now : Nat) : Port :=
  { q with ctl := some (q.report l keep), lastCtlAt := now, lastReportAt := now }.tell l

section
variable (q : Port) (l : List Nat) (keep : Bool) (now : Nat)

theorem Port.reported_ctl : (q.reported l keep now).ctl = some (q.report l keep) := Port.tell_shows Port.ctl _ l

theorem Port.reported_lastCtlAt : (q.reported l keep now).lastCtlAt = now := Port.tell_shows Port.lastCtlAt _ l

theorem Port.reported_unreported : (q.reported q.unreported keep now).unreported = [] := Port.tell_unreported _

end

section
variable {s : State} {p : Nat}

theorem State.putCtl_port (hp : p < s.link.ports.length) (k : CtlPkt) :
    (s.putCtl p k).port p = { s.port p with ctl := some k, lastCtlAt := s.time.cycles } := State.modPort_port_same hp _

theorem State.sendCtl_port (hp : p < s.link.ports.length) (l : List Nat) (keep : Bool) :
    (s.sendCtl p l keep).port p = (s.port p).reported l keep s.time.cycles := by
  have hput : p < (s.putCtl p ((s.port p).report l keep)).link.ports.length := (s.length_modPort p _).symm ▸ hp
  have hfold := State.foldl_modCls_port
    (s := (s.putCtl p ((s.port p).report l keep)).modPort p (fun q => { q with lastReportAt := s.time.cycles })) (p := p)
    ((State.length_modPort _ p _).symm ▸ hput) TxRx.tell l
  rw [State.modPort_port_same hput, State.putCtl_port hp] at hfold
  exact hfold

variable (hp : p < linkPorts s.build)
include hp

/-- LINK_CTL_SEND with nothing to report, or within 400 ns of the last link-control packet (R225). -/
theorem exec_linkCtlSend_idle (h : ((s.port p).unreported = [] ∧ (s.port p).echo = none) ∨ s.time.cycles < (s.port p).lastCtlAt + 320) :
    exec (.linkCtlSend p) s = .next s := by
  refine (present_true (decide_eq_true hp) _).trans (congrArg _ (if_pos ?_))
  rcases h with ⟨hu, he⟩ | h
  · simp [hu, he]
  · have hbusy : s.ctlFree p = false := decide_eq_false (Nat.not_le.mpr h)
    simp [hbusy]

variable (htr : (s.port p).trained = true) (hfree : (s.port p).lastCtlAt + 320 ≤ s.time.cycles)
include htr hfree

/-- LINK_CTL_SEND with something to report: WAKE blocks towards a dozing far end, else the echo that waits, else the classes. -/
theorem exec_linkCtlSend_due (h : (s.port p).unreported ≠ [] ∨ (s.port p).echo ≠ none) :
    exec (.linkCtlSend p) s = .next (if (s.port p).farDoze = true then s.wakeFar p
      else match (s.port p).echo with
        | some k => (s.putCtl p k).modPort p (fun q => { q with echo := none })
        | none => s.sendCtl p (s.port p).unreported false) := by
  refine (present_true (decide_eq_true hp) _).trans ((congrArg _ (if_neg ?_)).trans ?_)
  · have hctl : s.ctlFree p = true := decide_eq_true hfree
    have hdue : ((s.port p).unreported.isEmpty && (s.port p).echo.isNone) = false := by
      rw [Bool.and_eq_false_iff]
      exact h.imp List.isEmpty_eq_false_iff.mpr fun he => Option.isNone_eq_false_iff.mpr (Option.isSome_iff_ne_none.mpr he)
    simp [hdue, htr, hctl]
  · rfl

theorem exec_linkCtlKeepalive_due (hu : (s.port p).unreported = []) (hf : (s.port p).farDoze = false) (hd : (s.port p).dozing = false)
    (ha : s.after (s.port p).lastReportAt 10 = true) (he : (s.port p).echo = none) :
    exec (.linkCtlKeepalive p) s = .next (s.sendCtl p (List.range 8) true) := by
  have hctl : s.ctlFree p = true := decide_eq_true hfree
  exact (present_true (decide_eq_true hp) _).trans (congrArg _ (if_pos (by simp [htr, hf, hd, hu, ha, he, hctl])))

end

/-! ### LINK_CTL arrives -/

section
variable {z s : State} (h : SameLedgers z s) (p : Nat)
include h

theorem SameLedgers.farDoze : (s.port p).farDoze = (z.port p).farDoze := congrArg Ledger.farDoze (h p)

theorem SameLedgers.rxAt : (s.port p).rxAt = (z.port p).rxAt := congrArg Ledger.rxAt (h p)

theorem SameLedgers.cls_length : (s.port p).cls.length = (z.port p).cls.length := congrArg Ledger.classes (h p)

theorem SameLedgers.account (c : Nat) : ((s.port p).tx8 c).account = ((z.port p).tx8 c).account := congrArg (fun l => l.account c) (h p)

end

/-- Acknowledged packets leave the front of the held list; what their fates bring leaves the rest of the account (R224). -/
theorem State.ackHeld_account {s : State} (hinv : s.Inv) {p c : Nat} (hp : p < linkPorts s.build) (hc : c < (s.port p).cls.length) (n : Nat) :
    ((State.ackHeld n p c s).port p).farDoze = (s.port p).farDoze ∧ ((State.ackHeld n p c s).port p).rxAt = (s.port p).rxAt ∧
      (((State.ackHeld n p c s).port p).tx8 c).account = { ((s.port p).tx8 c).account with held := ((s.port p).tx8 c).held.drop n } := by
  induction n generalizing s with
  | zero => exact ⟨rfl, rfl, rfl⟩
  | succ n ih =>
    unfold State.ackHeld
    split
    next hnil => exact ⟨rfl, rfl, by simp [TxRx.account, hnil]⟩
    next i rest hcons =>
      extract_lets u
      have hfate : SameLedgers u ((u.bcastAcked i.uid).fateDelivered i.uid) :=
        (u.bcastAcked_ledgers i.uid).trans (.of_evFrame (State.fateDelivered_ef (.refl _) i.uid))
      have hkeep : Keeps 0x804F7 s ((u.bcastAcked i.uid).fateDelivered i.uid) :=
        State.fateDelivered_keeps (State.bcastAcked_keeps (State.modCls_keeps (.refl s) p c _) i.uid) i.uid
      have hacc : ((((u.bcastAcked i.uid).fateDelivered i.uid).port p).tx8 c).account = { ((s.port p).tx8 c).account with held := rest } :=
        (hfate.account p c).trans (congrArg TxRx.account (State.modCls_tx8_same (hinv.port_lt hp) hc _))
      obtain ⟨hdoze', hrx', hacc'⟩ := ih (hkeep.inv hinv) (hkeep.build ▸ hp) (by rwa [hfate.cls_length, State.modCls_cls_length])
      refine ⟨?_, ?_, ?_⟩
      · exact (hdoze'.trans (hfate.farDoze p)).trans (State.modPort_port_shows Port.farDoze s p p)
      · exact (hrx'.trans (hfate.rxAt p)).trans (State.modPort_port_shows Port.rxAt s p p)
      · rw [hcons, List.drop_succ_cons]
        exact hacc'.trans (congrArg (fun a : Account => { a with held := a.held.drop n }) hacc)

/-- A class whose counts have grown by `dr` credits released and `da` packets acknowledged, of which it holds some. -/
def TxRx.counted (x : TxRx) (released dr da : Nat) : TxRx :=
  { x with credits := x.credits + dr, relApplied := released % 2 ^ 32, ackApplied := (x.ackApplied + min da x.held.length) % 2 ^ 32 }

theorem State.applyCtl_eq (s : State) (p c released acked : Nat) :
    let x := (s.port p).tx8 c
    let dr := (released + 2 ^ 32 - x.relApplied) % 2 ^ 32
    let da := (acked + 2 ^ 32 - x.ackApplied) % 2 ^ 32
    s.applyCtl p c released acked = State.ackHeld (min da x.held.length) p c (s.modCls p c (fun y => y.counted released dr da)) := rfl

/-- One entry of a LINK_CTL: the credits by which the released count has grown, and the packets by which the acknowledged count has (R226). -/
theorem State.applyCtl_account {s : State} (hinv : s.Inv) {p c : Nat} (hp : p < linkPorts s.build) (hc : c < (s.port p).cls.length)
    (released acked : Nat) :
    let x := (s.port p).tx8 c
    let dr := (released + 2 ^ 32 - x.relApplied) % 2 ^ 32
    let da := (acked + 2 ^ 32 - x.ackApplied) % 2 ^ 32
    let t := s.applyCtl p c released acked
    (t.port p).farDoze = (s.port p).farDoze ∧ (t.port p).rxAt = (s.port p).rxAt ∧
      ((t.port p).tx8 c).account = { (x.counted released dr da).account with held := x.held.drop da } := by
  intro x dr da
  have hdrop : x.held.drop (min da x.held.length) = x.held.drop da := by
    rcases Nat.le_total da x.held.length with h | h
    · rw [Nat.min_eq_left h]
    · rw [Nat.min_eq_right h, List.drop_length, List.drop_eq_nil_of_le h]
  have hu : Keeps 0x20 s (s.modCls p c (fun y => y.counted released dr da)) := State.modCls_keeps (.refl s) p c _
  have hx : ((s.modCls p c (fun y => y.counted released dr da)).port p).tx8 c = x.counted released dr da :=
    State.modCls_tx8_same (hinv.port_lt hp) hc _
  obtain ⟨hdoze, hrx, hacc⟩ := State.ackHeld_account (hu.inv hinv) (hu.build ▸ hp) (by rwa [State.modCls_cls_length]) (min da x.held.length)
  rw [State.applyCtl_eq]
  refine ⟨hdoze.trans (State.modPort_port_shows Port.farDoze s p p), hrx.trans (State.modPort_port_shows Port.rxAt s p p), ?_⟩
  rw [hacc, hx, ← hdrop]
  rfl

/-- A far end is heard at a port: its doze ends (R451). -/
def Port.heard (q : Port) (now : Nat) : Port := { q with rxAt := now, farDoze := false }

theorem exec_linkCtlReceived_one {s : State} {p c : Nat} (hp : p < linkPorts s.build) (hc : c < 8) (released acked : Nat) :
    exec (.linkCtlReceived p [(c, released, acked)]) s =
      .next ((s.modPort p (Port.heard · s.time.cycles)).applyCtl p c released acked).reachSettle := by
  have hone : s.linkCtl p [(c, released, acked)] = (s.modPort p (Port.heard · s.time.cycles)).applyCtl p c released acked := if_pos hc
  rw [← hone]
  exact present_true (decide_eq_true hp) _

/-- Settles O33: what is sent by the one packet that each state sends, what arrives by the accounts that it settles. -/
theorem linkControlCarriesCumulativeCounts : Obligations.LinkControlCarriesCumulativeCounts := by
  intro s p hinv hp htr
  have hlt := hinv.port_lt hp
  refine ⟨fun hu hfree hf he => ?_, fun k he hfree hf => ?_, fun h hfree hf => ?_, exec_linkCtlSend_idle hp, fun hu hf hd ha he hfree => ?_,
    fun c rel ack h8 hc => ?_⟩
  · have hexec := exec_linkCtlSend_due hp htr hfree (.inl hu)
    rw [if_neg (by simp [hf]), he] at hexec
    refine ⟨_, hexec, ?_⟩
    rw [State.sendCtl_port hlt]
    exact ⟨Port.reported_unreported _ _ _, Port.reported_lastCtlAt _ _ _ _, Port.reported_ctl _ _ _ _⟩
  · have hexec := exec_linkCtlSend_due hp htr hfree (.inr (by simp [he]))
    rw [if_neg (by simp [hf]), he] at hexec
    refine ⟨_, hexec, ?_⟩
    rw [State.modPort_port_same ((s.length_modPort p _).symm ▸ hlt), State.putCtl_port hlt]
    exact ⟨rfl, rfl, rfl, rfl⟩
  · rw [exec_linkCtlSend_due hp htr hfree h, if_pos hf]
  · refine ⟨_, (s.port p).report (List.range 8) true, exec_linkCtlKeepalive_due hp htr hfree hu hf hd ha he, ?_, rfl, rfl, rfl, rfl⟩
    rw [State.sendCtl_port hlt, Port.reported_ctl]
  · have hk : Keeps 0x20 s (s.modPort p (Port.heard · s.time.cycles)) := State.modPort_keeps (.refl s) p _
    have hport : (s.modPort p (Port.heard · s.time.cycles)).port p = (s.port p).heard s.time.cycles := State.modPort_port_same hlt _
    have hcls : ((s.port p).heard s.time.cycles).tx8 c = (s.port p).tx8 c := rfl
    obtain ⟨hdoze, hrx, hacc⟩ := State.applyCtl_account (hk.inv hinv) (hk.build ▸ hp) (c := c) (by rwa [hport]) rel ack
    have hset := State.reachSettle_ledgers ((s.modPort p (Port.heard · s.time.cycles)).applyCtl p c rel ack)
    rw [hport] at hdoze hrx
    rw [hport, hcls] at hacc
    obtain ⟨hcredits, hrel, hack, hheld⟩ := Account.mk.inj ((hset.account p c).trans hacc)
    exact ⟨_, exec_linkCtlReceived_one hp h8 rel ack, (hset.farDoze p).trans hdoze, (hset.rxAt p).trans hrx, hcredits, hrel, hheld, hack⟩

end Sys2Proof.Machine
end

section
/-! PROOFS. Feature programs: the banks and the words in them, the swap, and the pass, from its grant to its commit (R250 to R267); the
state of an EWMA (R261). -/

namespace Sys2Proof.Machine

/-! ### Entries of a bank -/

theorem assocD_insAsc_same (d k v : Nat) (l : List (Nat × Nat)) : assocD d k (insAsc k v l) = v := by
  induction l with
  | nil => exact if_pos rfl
  | cons e r ih =>
    unfold insAsc
    split
    · exact if_pos rfl
    · split
      next hk => exact if_pos rfl
      next hk => exact (if_neg (Ne.symm hk)).trans ih

theorem assocD_insAsc_other {k j : Nat} (h : j ≠ k) (d v : Nat) (l : List (Nat × Nat)) : assocD d j (insAsc k v l) = assocD d j l := by
  induction l with
  | nil => exact if_neg h.symm
  | cons e r ih =>
    unfold insAsc
    split
    · exact if_neg h.symm
    · split
      next hk => simp only [assocD, if_neg h.symm, ← hk]
      next hk => simp only [assocD, ih]

theorem assocD_assocDel_same {β : Type} (d : β) (k : Nat) (l : List (Nat × β)) : assocD d k (assocDel k l) = d := by
  unfold assocDel
  induction l with
  | nil => rfl
  | cons e r ih =>
    rw [List.filter_cons]
    split
    next he => exact (if_neg (by simpa using he)).trans ih
    next he => exact ih

theorem assocD_assocDel_other {β : Type} {k j : Nat} (h : j ≠ k) (d : β) (l : List (Nat × β)) : assocD d j (assocDel k l) = assocD d j l := by
  unfold assocDel
  induction l with
  | nil => rfl
  | cons e r ih =>
    rw [List.filter_cons]
    split
    next he => simp only [assocD, ih]
    next he =>
      have hk : e.1 = k := by simpa using he
      exact ih.trans (if_neg (hk ▸ h.symm)).symm

/-- A bank lists no word of 0, and reads one back all the same. -/
theorem assocD_setEntry_same (i v : Nat) (l : List (Nat × Nat)) : assocD 0 i (setEntry i v l) = v := by
  unfold setEntry
  split
  next hv => exact (assocD_assocDel_same 0 i l).trans hv.symm
  next hv => exact assocD_insAsc_same 0 i v _

theorem assocD_setEntry_other {i j : Nat} (h : j ≠ i) (v : Nat) (l : List (Nat × Nat)) : assocD 0 j (setEntry i v l) = assocD 0 j l := by
  unfold setEntry
  split
  · exact assocD_assocDel_other h 0 l
  · exact (assocD_insAsc_other h 0 v _).trans (assocD_assocDel_other h 0 l)

/-- A bank with one instruction word stored. -/
def FeatBank.put (b : FeatBank) (i w : Nat) : FeatBank := { b with instrs := setEntry i w b.instrs }

@[simp] theorem FeatBank.ins_put_same (b : FeatBank) (i w : Nat) : (b.put i w).ins i = w := assocD_setEntry_same i w b.instrs

theorem FeatBank.ins_put_other (b : FeatBank) {i j : Nat} (h : j ≠ i) (w : Nat) : (b.put i w).ins j = b.ins j :=
  assocD_setEntry_other h w b.instrs

theorem FeatBank.length_words (b : FeatBank) (len : Nat) : (b.words len).length = len := by
  rw [FeatBank.words, List.length_map, List.length_range]

/-! ### What the shared operations leave of the feature programs -/

@[simp] theorem State.irq_feat (s : State) (p bit : Nat) : (s.irq p bit).feat = s.feat :=
  Keeps.same (m := 0x3) (State.irq_keeps (.refl s) p bit) .feat rfl

@[simp] theorem State.originate_feat (s : State) (type tc stream : Nat) (payload : List Byte) :
    (s.originate type tc stream payload).2.feat = s.feat :=
  Keeps.same (m := 0x80475) (State.originate_keeps (.refl s) type tc stream payload) .feat rfl

@[simp] theorem State.emitUp_feat (s : State) (r : Rec) (ev : Option Nat) : (s.emitUp r ev).feat = s.feat :=
  Keeps.same (m := 0x80471) (State.emitUp_keeps (.refl s) r ev) .feat rfl

@[simp] theorem State.selfSamples_feat (s : State) (num : Nat) (statNan : Bool) : (s.selfSamples num statNan).feat = s.feat :=
  Keeps.same (m := 0x83003) (State.selfSamples_keeps (.refl s) num statNan) .feat rfl

theorem State.grant_feat {s g : State} {c cost : Nat} (h : s.grant c cost = some g) : g.feat = s.feat :=
  Keeps.same (m := 0x100001) (Keeps.some (State.grant_keeps (.refl s) c cost) h) .feat rfl

/-- The epochs that a pass shows leave the feature programs. -/
@[simp] theorem State.foldl_wr_feat (r : Reg) (l : List (Nat × Nat)) (s : State) : (l.foldl (fun s q => s.wr r q.2 q.1) s).feat = s.feat := by
  induction l generalizing s with
  | nil => rfl
  | cons q l ih => exact (ih _).trans (State.wr_feat ..)

/-! ### The copy of the active bank (R263) -/

theorem State.featCopy_frame (s : State) : Keeps 0x800 s s.featCopy := State.featCopy_keeps (.refl s)

@[simp] theorem State.featCopy_regs (s : State) : s.featCopy.regs = s.regs := s.featCopy_frame.same .regs rfl

@[simp] theorem State.featCopy_build (s : State) : s.featCopy.build = s.build := s.featCopy_frame.build

@[simp] theorem State.featCopy_rd (s : State) (r : Reg) (i j pg bk : Nat) : s.featCopy.rd r i j pg bk = s.rd r i j pg bk :=
  s.featCopy_frame.rd rfl r i j pg bk

/-- Only the shadow bank takes the copy. -/
@[simp] theorem State.featCopy_active (s : State) : s.featCopy.feat.active = s.feat.active := by
  unfold State.featCopy; split <;> rfl

@[simp] theorem State.featCopy_lo (s : State) : s.featCopy.feat.lo = s.feat.lo := by
  unfold State.featCopy; split <;> rfl

@[simp] theorem State.featCopy_swap (s : State) : s.featCopy.feat.swap = s.feat.swap := by
  unfold State.featCopy; split <;> rfl

/-! ### Loading (R263) -/

/-- The state whose low half has gone into a word. -/
def State.loadTaken (s : State) (b : FeatBank) : State := { s.featCopy with feat := { s.featCopy.feat with lo := 0, shadow := b } }

@[simp] theorem State.loadTaken_active (s : State) (b : FeatBank) : (s.loadTaken b).feat.active = s.feat.active := s.featCopy_active

@[simp] theorem State.loadTaken_lo (s : State) (b : FeatBank) : (s.loadTaken b).feat.lo = 0 := rfl

@[simp] theorem State.loadTaken_shadow (s : State) (b : FeatBank) : (s.loadTaken b).feat.shadow = b := rfl

@[simp] theorem State.loadTaken_regs (s : State) (b : FeatBank) : (s.loadTaken b).regs = s.regs := s.featCopy_regs

theorem State.featLoadHi_inside {s : State} (h : s.rd R.FEAT_LOAD_IDX < featMax s.build) (v : Nat) :
    s.featLoadHi v =
      (s.loadTaken (s.featCopy.feat.shadow.put (s.rd R.FEAT_LOAD_IDX) (v % 2 ^ 32 * 2 ^ 32 + s.feat.lo))).wr R.FEAT_LOAD_IDX (s.rd R.FEAT_LOAD_IDX + 1) := by
  have hc : s.featCopy.rd R.FEAT_LOAD_IDX < featMax s.featCopy.build := by simpa using h
  rw [← State.featCopy_rd, ← State.featCopy_lo]
  exact if_pos hc

theorem State.featLoadHi_outside {s : State} (h : featMax s.build ≤ s.rd R.FEAT_LOAD_IDX) (v : Nat) :
    s.featLoadHi v = s.loadTaken s.featCopy.feat.shadow := by
  have hc : ¬ s.featCopy.rd R.FEAT_LOAD_IDX < featMax s.featCopy.build := by simpa using h
  exact if_neg hc

theorem State.featLoadHi_active (s : State) (v : Nat) : (s.featLoadHi v).feat.active = s.feat.active := by
  rcases Nat.lt_or_ge (s.rd R.FEAT_LOAD_IDX) (featMax s.build) with h | h
  · rw [State.featLoadHi_inside h, State.wr_feat, State.loadTaken_active]
  · rw [State.featLoadHi_outside h, State.loadTaken_active]

theorem State.featLoadHi_lo (s : State) (v : Nat) : (s.featLoadHi v).feat.lo = 0 := by
  rcases Nat.lt_or_ge (s.rd R.FEAT_LOAD_IDX) (featMax s.build) with h | h
  · rw [State.featLoadHi_inside h, State.wr_feat, State.loadTaken_lo]
  · rw [State.featLoadHi_outside h, State.loadTaken_lo]

theorem featMax_le (b : Build) : featMax b ≤ 1024 := by cases b <;> decide

/-- The index moves on by one. -/
theorem State.featLoadHi_idx {s : State} (hw : regWf s.regs = true) (h : s.rd R.FEAT_LOAD_IDX < featMax s.build) (v : Nat) :
    (s.featLoadHi v).rd R.FEAT_LOAD_IDX = s.rd R.FEAT_LOAD_IDX + 1 := by
  rw [State.featLoadHi_inside h, State.rd_wr_same]
  · have := featMax_le s.build
    exact Nat.mod_eq_of_lt (by omega)
  · rwa [State.loadTaken_regs]

theorem exec_featLoadHi_perform {s : State} {a : Acc} (data : Word) (hf : s.portFull a = false)
    (hv : s.verdict a 0x02609C true false false = .perform) :
    exec (.featLoadHi a data) s = .next ((s.featLoadHi data.toNat).respond a true 0 false) :=
  congrArg _ (s.guardedWrite_perform a _ _ _ _ (fun s => s.featLoadHi data.toNat) hf hv)

/-! ### Swapping (R263 to R265) -/

theorem State.featSwapWrite_feat (s : State) (v : Nat) : (s.featSwapWrite v).feat =
    { s.feat with swap := if bitOf v 1 = true then none else s.feat.swap, validating := s.feat.validating || bitOf v 0 } := by
  unfold State.featSwapWrite
  cases bitOf v 0 <;> cases bitOf v 1 <;> simp

theorem exec_featSwapRequest_perform {s : State} {a : Acc} (data : Word) (hf : s.portFull a = false)
    (hv : s.verdict a 0x0260A4 true false false = .perform) :
    exec (.featSwapRequest a data) s = .next ((s.featSwapWrite data.toNat).respond a true 0 false) :=
  congrArg _ (s.guardedWrite_perform a _ _ _ _ (fun s => s.featSwapWrite data.toNat) hf hv)

/-- Both commands are writes of one register. -/
theorem exec_featSwapCancel (a : Acc) (data : Word) (s : State) : exec (.featSwapCancel a data) s = exec (.featSwapRequest a data) s := rfl

/-- A request is no longer to be judged: its bank is copied. -/
def State.judged (s : State) : State := { s.featCopy with feat := { s.featCopy.feat with validating := false } }

theorem exec_featSwapValidated_fit {s : State} (hv : s.feat.validating = true)
    (h : swapReject s.build s.featCopy.feat.shadow (s.rd R.FEAT_LEN) = 0) : exec .featSwapValidated s =
      .next { s.judged with feat := { s.judged.feat with swap := some (s.rd R.FEAT_SWAP_AT), reject := 0 } } := by
  rw [← State.featCopy_rd s R.FEAT_LEN, ← State.featCopy_build] at h
  rw [← State.featCopy_rd s R.FEAT_SWAP_AT]
  exact congrArg _ ((if_pos hv).trans (if_pos h))

theorem exec_featSwapValidated_unfit {s : State} (hv : s.feat.validating = true)
    (h : swapReject s.build s.featCopy.feat.shadow (s.rd R.FEAT_LEN) ≠ 0) : exec .featSwapValidated s =
      .next (State.irq { s.judged with feat := { s.judged.feat with reject := swapReject s.build s.featCopy.feat.shadow (s.rd R.FEAT_LEN) } } 0x026 3) := by
  rw [← State.featCopy_rd s R.FEAT_LEN, ← State.featCopy_build] at h ⊢
  exact congrArg _ ((if_pos hv).trans (if_neg h))

/-- An interrupt bit that a unit sets reads 1. -/
theorem State.irq_bit (s : State) (p : Nat) {b : Nat} (h : regWf s.regs = true) (hb : b < 32) :
    bitOf ((s.irq p b).rd R.CMN_IRQ_STATUS (pg := p)) b = true := by
  rw [State.irq_rd_same s p b h hb, bitOf, Nat.testBit_or, Nat.testBit_two_pow_self, Bool.or_true]

/-- What a swap leaves of the feature programs, whatever history and values it keeps: the banks exchange. -/
theorem State.featSwap_feat (s : State) : ∃ keep vals, s.featSwap.feat =
    { s.featCopy.feat with active := s.featCopy.feat.shadow, shadow := s.feat.active, len := s.rd R.FEAT_LEN, hist := keep, loaded := true,
                           bank := !s.featCopy.feat.bank, swap := none, copying := true, vals := vals } := by
  rw [← State.featCopy_rd s R.FEAT_LEN, ← State.featCopy_active]
  exact ⟨_, _, State.irq_feat ..⟩

/-- A swap raises FEAT_GEN. -/
theorem State.featSwap_gen {s : State} (hw : regWf s.regs = true) : s.featSwap.rd R.FEAT_GEN = (s.rd R.FEAT_GEN + 1) % 2 ^ 32 := by
  refine (State.irq_rd_other _ _ _ _ _ _ _ _ (by decide)).trans ?_
  rw [State.rd_wr_other _ _ _ _ _ _ _ _ _ _ _ _ (by decide)]
  refine (State.bump_rd_same _ _ _ _ _ _ _ (s.featCopy_regs ▸ hw)).trans ?_
  exact congrArg (fun x => (x + 1) % 2 ^ 32) (s.featCopy_rd R.FEAT_GEN 0 0 0 0)

theorem exec_featSwapApplyIdle_swaps {s : State} (hs : s.feat.swap ≠ none) (hr : s.feat.run = none)
    (hi : s.scheduleRuns = false ∨ bitOf (s.rd R.FEAT_CTRL) 0 = false) : exec .featSwapApplyIdle s = .next s.featSwap := by
  refine congrArg _ (if_pos ?_)
  simpa [hr, Option.isSome_iff_ne_none, hs] using hi

theorem exec_featSwapApplyIdle_waits {s : State}
    (h : s.feat.swap = none ∨ s.feat.run ≠ none ∨ (s.scheduleRuns = true ∧ bitOf (s.rd R.FEAT_CTRL) 0 = true)) :
    exec .featSwapApplyIdle s = .next s := by
  refine congrArg _ (if_neg ?_)
  obtain h | h | ⟨h, he⟩ := h
  · simp [h]
  · simp [h]
  · simp [h, he]

/-! ### The grant of a pass (R251) -/

/-- The feature programs once a pass has been granted. -/
def FeatSt.started (f : FeatSt) (p : FeatPass) : FeatSt := { f with await := none, denied := false, badStats := [], run := some p }

theorem State.featGrant_idle {s : State} (h : s.feat.await = none ∨ s.feat.run ≠ none) : s.featGrant = s := by
  unfold State.featGrant
  split
  next ha hr => simp [ha, hr] at h
  next => rfl

section
variable {s : State} {n : Nat} (ha : s.feat.await = some n) (hr : s.feat.run = none) (hs : s.feat.swap = none) (hl : s.feat.loaded = true)
  (he : bitOf (s.rd R.FEAT_CTRL) 0 = true) (hi : s.inRun 1 = true)
include ha hr hs hl he hi

/-- A pass that class W3 does not grant goes on waiting, and its overtaking will be for that (R252). -/
theorem State.featGrant_denied (hg : s.grant 3 (s.costFeature s.feat.len (s.feat.active.sumW s.feat.len)) = none) :
    s.featGrant = { s with feat := { s.feat with denied := true } } := by
  simp [State.featGrant, ha, hr, hs, hl, he, hi, hg]

/-- One that it grants runs for the muster awaited, on the program that is in force. -/
theorem State.featGrant_runs {g : State} (hg : s.grant 3 (s.costFeature s.feat.len (s.feat.active.sumW s.feat.len)) = some g) :
    ∃ p : FeatPass, s.featGrant.feat = s.feat.started p ∧ p.num = n := by
  have hgf := State.grant_feat hg
  unfold State.featGrant
  simp -zeta only [ha, hr]
  extract_lets due t
  have ht : t = s := by simp [t, due, hs]
  clear_value t
  subst ht
  rw [if_neg (by simp [hl, he, hi])]
  simp -zeta only [hg]
  extract_lets used vals bad u
  have hu : u.feat = g.feat := by
    simp only [u]
    split <;> simp
  clear_value u
  rw [← hgf, ← hu]
  exact ⟨_, rfl, rfl⟩

end

/-! ### The commit of a pass (R251, R267) -/

/-- One instruction of a pass, with what it adds to the features, to the histories and to the count of operands that are not finite. -/
def FeatEnv.runStep (e : FeatEnv) (order : List Nat) (hist : List (Nat × FeatHist)) (acc : List Nat × List (Nat × FeatHist) × Nat)
    (p : Nat × Nat) : List Nat × List (Nat × FeatHist) × Nat :=
  let o := e.ins order acc.1 p.2 p.1 (assocD { fresh := true, ewma := none, win := [], lastA := 0 } p.2 hist)
  (acc.1 ++ [o.1], acc.2.1 ++ [(p.2, o.2.1)], acc.2.2 + o.2.2)

theorem FeatEnv.runAll_eq (e : FeatEnv) (order : List Nat) (hist : List (Nat × FeatHist)) (words : List Nat) :
    e.runAll order hist words = words.zipIdx.foldl (e.runStep order hist) ([], [], 0) := rfl

/-- Each instruction adds one feature, and one history under its own index. -/
theorem FeatEnv.foldl_runStep (e : FeatEnv) (order : List Nat) (hist : List (Nat × FeatHist)) (ps : List (Nat × Nat))
    (acc : List Nat × List (Nat × FeatHist) × Nat) :
    (ps.foldl (e.runStep order hist) acc).1.length = acc.1.length + ps.length ∧
      (ps.foldl (e.runStep order hist) acc).2.1.map Prod.fst = acc.2.1.map Prod.fst ++ ps.map Prod.snd := by
  induction ps generalizing acc with
  | nil => simp
  | cons p ps ih =>
    obtain ⟨hlen, hfst⟩ := ih (e.runStep order hist acc p)
    rw [List.foldl_cons, hlen, hfst]
    simp [FeatEnv.runStep, Nat.add_assoc, Nat.add_comm 1]

theorem FeatEnv.runAll_length (e : FeatEnv) (order : List Nat) (hist : List (Nat × FeatHist)) (words : List Nat) :
    (e.runAll order hist words).1.length = words.length := by
  rw [FeatEnv.runAll_eq, (e.foldl_runStep order hist _ _).1, List.length_zipIdx, List.length_nil, Nat.zero_add]

theorem FeatEnv.runAll_hist (e : FeatEnv) (order : List Nat) (hist : List (Nat × FeatHist)) (words : List Nat) :
    (e.runAll order hist words).2.1.map Prod.fst = List.range words.length := by
  rw [FeatEnv.runAll_eq, (e.foldl_runStep order hist _ _).2, List.zipIdx_map_snd, List.range_eq_range']
  rfl

/-- The feature programs once a pass has committed what its instructions gave. -/
def FeatSt.committedBy (f : FeatSt) (p : FeatPass) (img : Image) (o : List Nat × List (Nat × FeatHist) × Nat) : FeatSt :=
  { f with run := none, vals := o.1, hist := o.2.1, lastNum := p.num, lastT := img.t, lastCtrs := img.ctrs, committed := true, afterHold := false }

/-- The registers, the interrupt and the record that follow a commit leave the feature programs. -/
theorem State.featCommit_feat {s : State} {p : FeatPass} {img : Image} (hr : s.feat.run = some p) (hi : s.muster.imageOf p.num = some img) :
    ∃ (e : FeatEnv) (order : List Nat),
      s.featCommit.feat = s.feat.committedBy p img (e.runAll order s.feat.hist (s.feat.active.words s.feat.len)) := by
  unfold State.featCommit
  simp -zeta only [hr, hi, State.drawOrder]
  extract_lets f words env firstFlag s1 s2 s3 s4 s5
  have h5 : s5.feat = s1.feat := by
    have h4 : s4.feat = s3.feat := (apply_ite State.feat ..).trans (ite_self _)
    rw [State.irq_feat, h4, State.foldl_wr_feat, State.wr_feat, State.wr_feat]
  refine ⟨env, Config.freeOrder s.free 64, Eq.trans ?_ h5⟩
  split
  · rw [State.emitUp_feat, State.originate_feat]
  · rfl

theorem exec_featurePassCommit_idle {s : State} (hr : s.feat.run = none) (lost : List Nat) : exec (.featurePassCommit lost) s = .next s := by
  show execFeaturePassCommit lost s = _
  rw [execFeaturePassCommit, hr]

theorem exec_featurePassCommit_noImage {s : State} {p : FeatPass} (hr : s.feat.run = some p) (hi : s.muster.imageOf p.num = none)
    (lost : List Nat) : exec (.featurePassCommit lost) s = .next s := by
  show execFeaturePassCommit lost s = _
  simp [execFeaturePassCommit, hr, hi]

theorem exec_featurePassCommit_commits {s : State} {p : FeatPass} (hr : s.feat.run = some p) (hi : s.muster.imageOf p.num ≠ none)
    (lost : List Nat) : exec (.featurePassCommit lost) s = .next ((s.histLost lost).featCommit.selfSamples p.num p.statNan) := by
  show execFeaturePassCommit lost s = _
  simp [execFeaturePassCommit, hr, Option.isSome_iff_ne_none, hi]

/-! ### The statement -/

/-- Settles O47: each command by the one branch that its case takes, and by what that branch leaves of the feature programs. -/
theorem featureProgramsLoadSwapAndCommit : Obligations.FeatureProgramsLoadSwapAndCommit := by
  intro s hinv
  refine ⟨fun a data hf hv => ?_, fun a data hf hv => ?_, fun hv => ?_, fun hv => ?_, fun hs hr hi => ?_, exec_featSwapApplyIdle_waits, rfl,
    fun h => congrArg _ (State.featGrant_idle h), fun n ha hr hs hl he hi => ⟨fun hg => ?_, fun hg => ?_⟩,
    fun p lost hr => ⟨fun hi => exec_featurePassCommit_noImage hr hi lost, fun hi => ?_⟩, fun lost hr => exec_featurePassCommit_idle hr lost⟩
  · refine ⟨_, exec_featLoadHi_perform data hf hv, ?_⟩
    simp only [State.respond_feat, State.respond_rd]
    refine ⟨s.featLoadHi_active _, s.featLoadHi_lo _, fun h => ⟨State.featLoadHi_idx hinv.regs h _, ?_, fun i hne => ?_⟩, fun h => ?_⟩
    · rw [State.featLoadHi_inside h, State.wr_feat, State.loadTaken_shadow, FeatBank.ins_put_same, Nat.mod_eq_of_lt data.isLt]
    · rw [State.featLoadHi_inside h, State.wr_feat, State.loadTaken_shadow, FeatBank.ins_put_other _ hne]
    · rw [State.featLoadHi_outside h, State.loadTaken_shadow]
  · have hexec := exec_featSwapRequest_perform data hf hv
    exact ⟨_, hexec, (exec_featSwapCancel a data s).trans hexec, (State.respond_feat ..).trans (s.featSwapWrite_feat _)⟩
  · exact congrArg _ (if_neg (by simp [hv]))
  · by_cases hw : swapReject s.build s.featCopy.feat.shadow (s.rd R.FEAT_LEN) = 0
    · exact ⟨_, exec_featSwapValidated_fit hv hw, rfl, s.featCopy_active, fun _ => ⟨rfl, rfl⟩, fun h => absurd hw h⟩
    · refine ⟨_, exec_featSwapValidated_unfit hv hw, ?_⟩
      rw [State.irq_feat]
      exact ⟨rfl, s.featCopy_active, fun h => absurd h hw, fun _ => ⟨s.featCopy_swap, rfl, State.irq_bit _ _ (s.featCopy_regs ▸ hinv.regs) (by decide)⟩⟩
  · obtain ⟨keep, vals, hfeat⟩ := s.featSwap_feat
    refine ⟨_, exec_featSwapApplyIdle_swaps hs hr hi, ?_⟩
    rw [hfeat]
    exact ⟨rfl, rfl, rfl, rfl, rfl, rfl, State.featSwap_gen hinv.regs⟩
  · exact congrArg _ (State.featGrant_denied ha hr hs hl he hi hg)
  · obtain ⟨g, hg⟩ := Option.ne_none_iff_exists'.mp hg
    obtain ⟨p, hfeat, hp⟩ := State.featGrant_runs ha hr hs hl he hi hg
    refine ⟨_, p, rfl, ?_⟩
    rw [hfeat]
    exact ⟨rfl, hp, rfl, rfl⟩
  · obtain ⟨img, himg⟩ := Option.ne_none_iff_exists'.mp hi
    obtain ⟨e, order, hfeat⟩ := State.featCommit_feat (s := s.histLost lost) hr himg
    refine ⟨_, exec_featurePassCommit_commits hr hi lost, ?_⟩
    rw [State.selfSamples_feat, hfeat]
    have hlen : (s.feat.active.words s.feat.len).length = s.feat.len := FeatBank.length_words _ _
    exact ⟨rfl, rfl, rfl, (e.runAll_length ..).trans hlen, (e.runAll_hist ..).trans (congrArg _ hlen)⟩

/-! ### The state of an EWMA (R261) -/

/-- The state that an input leaves in an EWMA of shift `k`. -/
def ewmaNext (k x : Nat) (st : Option Nat) : Option Nat :=
  if nonFin x = 1 then st
  else match st with
    | none => some x
    | some a => some (if k = 0 then x else fAdd b64 a (fMul b64 (fSub b64 x a) (fOfRat b64 1 (2 ^ k))))

theorem ewmaNext_nonFin {x : Nat} (hx : nonFin x = 1) (k : Nat) (st : Option Nat) : ewmaNext k x st = st := if_pos hx

section
variable {x : Nat} (hx : nonFin x = 0)
include hx

theorem ewmaNext_first (k : Nat) : ewmaNext k x none = some x := if_neg (by simp [hx])

theorem ewmaNext_moves {k : Nat} (hk : k ≠ 0) (a : Nat) :
    ewmaNext k x (some a) = some (fAdd b64 a (fMul b64 (fSub b64 x a) (fOfRat b64 1 (2 ^ k)))) := by
  simp [ewmaNext, hx, hk]

theorem ewmaNext_zero (a : Nat) : ewmaNext 0 x (some a) = some x := by
  simp [ewmaNext, hx]

end

theorem FeatEnv.ins_ewma (e : FeatEnv) (order new : List Nat) (i w : Nat) (h : FeatHist) :
    (e.ins order new i w h).2.1.ewma = ewmaNext (insK w) (e.src new i h.fresh (insStaleNan w) (insA w)) h.ewma := rfl

theorem FeatEnv.ins_feature_of_ewma {w : Nat} (hop : insOp w = 5) (e : FeatEnv) (order new : List Nat) (i : Nat) (h : FeatHist) :
    (e.ins order new i w h).1 = f64to32 ((e.ins order new i w h).2.1.ewma.getD b64.nan) := by
  simp [FeatEnv.ins, hop]

/-- Settles O59: by the four cases of the next state, and the feature by its opcode. -/
theorem ewmaKeepsItsStateAsLaidDown : Obligations.EwmaKeepsItsStateAsLaidDown := by
  intro e order new i w h x hop hx
  rw [FeatEnv.ins_feature_of_ewma hop, FeatEnv.ins_ewma, ← hx]
  refine ⟨rfl, fun hn => ewmaNext_nonFin hn _ _, fun hn hst => ?_, fun a hn hst hk => ?_, fun a hn hst hk => ?_, rfl⟩
  · rw [hst, ewmaNext_first hn]
  · rw [hst, ewmaNext_moves hn hk]
  · rw [hst, hk, ewmaNext_zero hn]

end Sys2Proof.Machine
end

section
/-! PROOFS. Trees: the commit of a result for a sample whose slot no unit has (R276, R284, Table 9-10). -/

namespace Sys2Proof.Machine

/-- A self sample of muster 1 whose slot, 50, lies past the four of R276. -/
def straySample : Sample :=
  { slot := 50, num := 1, source := 33, self := true, stream := 0, feats := [], statNan := false, disc := false, held := false, excused := false,
    therm := false }

/-- A model without trees: the margin of its one class is its base score (R282). -/
def treelessModel : TModel := { id := 1, ver := 1, depth := 0, link := 0, cls := 1, bases := [0], trees := [] }

/-- A Selvo-L at its reset values, but for one admitted sample of that slot. -/
def strayQueued : State :=
  { State.resetOf .l with tree := { (State.resetOf .l).tree with queue := [(straySample, treelessModel)] } }

/-- The invariant says nothing of the tree engine, so nothing of the slots of its samples. -/
theorem strayQueued_inv : strayQueued.Inv := by constructor <;> decide

theorem strayQueued_outCtrl : bitOf (strayQueued.rd R.OUT_CTRL) 0 = false := by decide

theorem strayQueued_results : strayQueued.out.results = [] := rfl

/-- TSL_LAST_MUSTER of slot 50 would stand at the address of OUT_CTRL: the muster number 1 that is shown
there sets OUT_CTRL.EN, and the outrider takes the result. -/
theorem exec_treeResultCommit_strayQueued :
    R.TSL_LAST_MUSTER.key straySample.slot 0 0 0 = R.OUT_CTRL.key 0 0 0 0 ∧
      ∃ u, exec (.treeResultCommit []) strayQueued = .next u ∧ u.out.results ≠ [] :=
  ⟨rfl, _, rfl, by decide⟩

/-- Refutes O48: OUT_CTRL.EN is 0 before the commit of `strayQueued`, and yet the outrider gains a result. The invariant leaves the slot of
an admitted sample unbounded, and the result registers of slot 50 would stand on the page of the outrider. -/
theorem not_modelsAreVerifiedStagedAndWalkedToALeaf : ¬ Obligations.ModelsAreVerifiedStagedAndWalkedToALeaf := by
  intro h
  obtain ⟨-, -, -, -, -, -, -, -, -, -, -, -, hcommit⟩ := h.2 strayQueued strayQueued_inv
  obtain ⟨t, ht, -, -, hout⟩ := hcommit [] straySample treelessModel [] rfl
  obtain ⟨-, u, hu, hres⟩ := exec_treeResultCommit_strayQueued
  obtain rfl : t = u := Host.Outcome.next.inj (ht.symm.trans hu)
  exact hres ((congrArg OutSt.results (hout strayQueued_outCtrl)).trans strayQueued_results)

end Sys2Proof.Machine
end

section
/-! PROOFS. What the outrider holds, seen through the operations that tell of it: an event, a record on its way up or to the keeper, and a
trace trigger leave it; a decision and a class change what a die shows, and a request the keeper's lists (R302, R307, R309, R310, R356). -/

set_option Elab.async false

namespace Sys2Proof.Machine

/-- Nothing has changed in what `g` shows of the outrider, nor in the admissions that are due. -/
structure OutFrame {β : Type} (g : OutSt → β) (z s : State) : Prop where
  out : g s.out = g z.out
  due : s.link.admitDue = z.link.admitDue

section
variable {β : Type} {g : OutSt → β} {z s t : State}

theorem OutFrame.refl (s : State) : OutFrame g s s := ⟨rfl, rfl⟩

theorem OutFrame.trans (h : OutFrame g z s) (k : OutFrame g s t) : OutFrame g z t := ⟨k.out.trans h.out, k.due.trans h.due⟩

/-- A step on that leaves both. -/
theorem OutFrame.of (h : OutFrame g z s) (hout : g t.out = g s.out := by exact rfl) (hdue : t.link.admitDue = s.link.admitDue := by exact rfl) :
    OutFrame g z t := h.trans ⟨hout, hdue⟩

/-- An operation outside the outrider and the links. -/
theorem OutFrame.of_keeps {m : Nat} (h : OutFrame g z s) (k : Keeps m s t) (hout : m.testBit Part.out.bit = false := by rfl)
    (hlink : m.testBit Part.link.bit = false := by rfl) : OutFrame g z t :=
  h.of (congrArg g (k.same .out hout)) (congrArg LinkSt.admitDue (k.same .link hlink))

/-- An operation outside the outrider that changes no more of the links than an event may. -/
theorem OutFrame.of_evFrame {m : Nat} (h : OutFrame g z s) (k : Keeps m s t) (e : EvFrame s t)
    (hout : m.testBit Part.out.bit = false := by rfl) : OutFrame g z t :=
  h.of (congrArg g (k.same .out hout)) (congrArg LinkSt.admitDue e.link :)

theorem OutFrame.ite {a b : State} {c : Prop} [Decidable c] (ha : OutFrame g z a) (hb : OutFrame g z b) : OutFrame g z (if c then a else b) := by
  split <;> assumption

theorem OutFrame.foldl {α : Type _} {f : State → α → State} (h : OutFrame g z s) (l : List α)
    (hf : ∀ t a, OutFrame g z t → OutFrame g z (f t a)) : OutFrame g z (l.foldl f s) := by
  induction l generalizing s with
  | nil => exact h
  | cons a l ih => exact ih (hf s a h)

/-! ### Registers, events and records on their way up -/

theorem State.bumpSat_outFrame (h : OutFrame g z s) (r : Reg) (d i j pg bk : Nat) : OutFrame g z (s.bumpSat r d i j pg bk) := h.of

theorem State.irq_outFrame (h : OutFrame g z s) (p bit : Nat) : OutFrame g z (s.irq p bit) :=
  h.of_keeps (m := 0x3) (State.irq_keeps (.refl s) p bit)

theorem State.event_outFrame (h : OutFrame g z s) (code : Nat) (payload : List Byte) : OutFrame g z (s.event code payload) :=
  h.of_evFrame (m := 0x804F7) (State.event_keeps (.refl s) code payload) (State.event_ef (.refl s) code payload)

theorem State.originate_outFrame (h : OutFrame g z s) (type tc stream : Nat) (payload : List Byte) :
    OutFrame g z (s.originate type tc stream payload).2 :=
  h.of_evFrame (m := 0x80475) (State.originate_keeps (.refl s) type tc stream payload) (State.originate_ef (.refl s) type tc stream payload)

theorem State.emitUp_outFrame (h : OutFrame g z s) (r : Rec) (ev : Option Nat) : OutFrame g z (s.emitUp r ev) :=
  h.of_evFrame (m := 0x80471) (State.emitUp_keeps (.refl s) r ev) (State.emitUp_ef (.refl s) r ev)

/-- A record that the unit originates and sends up. -/
theorem State.originate_emitUp_outFrame (h : OutFrame g z s) (type tc stream : Nat) (payload : List Byte) :
    OutFrame g z ((s.originate type tc stream payload).2.emitUp (s.originate type tc stream payload).1 none) :=
  State.emitUp_outFrame (State.originate_outFrame h type tc stream payload) _ _

/-! ### Towards the keeper -/

theorem State.charge_outFrame (h : OutFrame g z s) (p c n : Nat) : OutFrame g z (s.charge p c n) := by
  unfold State.charge
  exact .ite h (.ite h.of h.of)

theorem State.pubOne_outFrame (h : OutFrame g z s) (e : Nat) (x : PubItem) : OutFrame g z (s.pubOne e x) := by
  unfold State.pubOne
  extract_lets
  exact (State.charge_outFrame (h.of_keeps (m := 0x40000) (State.ethOut_keeps (.refl s) 1 e _ _)) _ _ _).of

theorem State.pubPump_outFrame (n e : Nat) (h : OutFrame g z s) : OutFrame g z (State.pubPump n e s) := by
  induction n generalizing s with
  | zero => exact h
  | succ n ih =>
    unfold State.pubPump
    dsimp only
    refine .ite h (.ite (h.of_keeps (m := 0x80000) (State.wake_keeps (.refl s) _)) ?_)
    split
    · exact ih (State.pubOne_outFrame h e _)
    · exact h

theorem State.pubAdd_outFrame (h : OutFrame g z s) (x : PubItem) : OutFrame g z (s.pubAdd x) :=
  OutFrame.foldl h.of x.need fun _ e ht => State.pubPump_outFrame _ e ht.of

theorem State.noWay_outFrame (h : OutFrame g z s) (p : Nat) (r : Rec) (tallied : Bool) : OutFrame g z (s.noWay p r tallied) :=
  h.of_keeps (m := 0x441) (State.noWay_keeps (.refl s) p r tallied)

theorem State.newPend_outFrame (h : OutFrame g z s) (stream : Nat) (tallied : Bool) (ev : Option Nat) (copies : Nat) :
    OutFrame g z (s.newPend stream tallied ev copies).2 := h.of

theorem State.enqueue_outFrame (h : OutFrame g z s) (p uid : Nat) (r : Rec) : OutFrame g z (s.enqueue p uid r) :=
  h.of_evFrame (m := 0x80020) (State.enqueue_keeps (.refl s) p uid r) (State.enqueue_ef (.refl s) p uid r)

theorem State.sendPort_outFrame (h : OutFrame g z s) (p : Nat) (r : Rec) (tallied : Bool) : OutFrame g z (s.sendPort p r tallied) :=
  h.of_evFrame (m := 0x80471) (State.sendPort_keeps (.refl s) p r tallied) (State.sendPort_ef (.refl s) p r tallied)

theorem State.sendNeighbour_outFrame (h : OutFrame g z s) (p : Nat) (r : Rec) (tallied : Bool) : OutFrame g z (s.sendNeighbour p r tallied) := by
  unfold State.sendNeighbour State.peerSend
  refine .ite (.ite ?_ (.ite h.of h)) (State.sendPort_outFrame h p r tallied)
  have hpend := State.newPend_outFrame h r.stream tallied none 1
  dsimp only
  split
  · exact State.pubAdd_outFrame hpend _
  · exact hpend

theorem State.sendRoot_outFrame (h : OutFrame g z s) (e : Entry) (r : Rec) (tallied : Bool) : OutFrame g z (s.sendRoot e r tallied) := by
  unfold State.sendRoot
  split
  · exact .ite (State.sendNeighbour_outFrame h _ r tallied) (State.noWay_outFrame h _ r tallied)
  · exact State.noWay_outFrame h _ r tallied

theorem State.sendParent_outFrame (h : OutFrame g z s) (e : Entry) (r : Rec) (tallied : Bool) : OutFrame g z (s.sendParent e r tallied) := by
  unfold State.sendParent
  refine .ite (.ite (State.sendPort_outFrame h 0 r tallied) (State.noWay_outFrame h 0 r tallied)) (.ite ?_ ?_)
  · exact .ite (State.noWay_outFrame h _ r tallied)
      (.foldl (State.newPend_outFrame h _ _ _ _) _ fun _ _ ht => State.enqueue_outFrame ht _ _ _)
  · dsimp only
    split
    · exact State.sendNeighbour_outFrame h _ r tallied
    · exact State.sendNeighbour_outFrame (.ite h h.of) _ r tallied
    · exact State.sendRoot_outFrame h e r tallied

theorem State.towardKeeper_outFrame (h : OutFrame g z s) (r : Rec) : OutFrame g z (s.towardKeeper r) := by
  unfold State.towardKeeper
  split
  · split
    · exact State.sendParent_outFrame h _ r true
    · exact State.emitUp_outFrame h r none
  · exact State.emitUp_outFrame h r none

/-! ### Trace packets and triggers -/

theorem State.modTrace_outFrame (h : OutFrame g z s) (f : TraceSt → TraceSt) : OutFrame g z (s.modTrace f) := h.of

theorem State.trcClose_outFrame (h : OutFrame g z s) : OutFrame g z s.trcClose := h.of

theorem State.trcTake_outFrame (h : OutFrame g z s) (n : Nat) : OutFrame g z (s.trcTake n) := by
  unfold State.trcTake State.blockLost
  refine State.modTrace_outFrame ?_ _
  split
  · exact .ite (State.modTrace_outFrame h _) h
  · exact h

theorem State.trcAlloc_outFrame (h : OutFrame g z s) : OutFrame g z s.trcAlloc := by
  unfold State.trcAlloc
  split
  · exact State.trcTake_outFrame h _
  · refine .ite (State.irq_outFrame (State.modTrace_outFrame h _) _ _) ?_
    split
    · exact State.trcTake_outFrame h _
    · exact State.irq_outFrame (State.modTrace_outFrame h _) _ _

theorem State.winAdvance_outFrame (h : OutFrame g z s) (n : Nat) : OutFrame g z (s.winAdvance n) :=
  h.of_keeps (m := 0x4003) (State.winAdvance_keeps (.refl s) n)

theorem State.trcRaw_outFrame (h : OutFrame g z s) (pkt : List Byte) (item trig : Bool) : OutFrame g z (s.trcRaw pkt item trig).2 := by
  unfold State.trcRaw
  extract_lets room stamp written closed
  split
  · exact h
  · have hroom : OutFrame g z room := by
      unfold room
      split
      · exact .ite (State.trcAlloc_outFrame (State.trcClose_outFrame h)) h
      · exact State.trcAlloc_outFrame h
    split
    · exact hroom
    · have hwritten : OutFrame g z written := State.modTrace_outFrame hroom _
      have hclosed : OutFrame g z closed := by
        unfold closed
        split
        · exact .ite (State.trcClose_outFrame hwritten) hwritten
        · exact hwritten
      exact State.winAdvance_outFrame hclosed _

theorem State.trcSync_outFrame (h : OutFrame g z s) (reason : Nat) : OutFrame g z (s.trcSync reason) :=
  .ite (State.modTrace_outFrame (State.trcRaw_outFrame (State.modTrace_outFrame h _) _ false false) _) h

theorem State.trcPut_outFrame (h : OutFrame g z s) (pkt : List Byte) (item trig : Bool) : OutFrame g z (s.trcPut pkt item trig).2 :=
  State.trcRaw_outFrame (.ite (State.trcSync_outFrame h 7) h) pkt item trig

theorem State.trcTrigger_outFrame (h : OutFrame g z s) (srcs : Nat) : OutFrame g z (s.trcTrigger srcs) := by
  have hopen : ∀ (t : State) (num : Nat), OutFrame g z t → OutFrame g z (t.winOpenAt num) :=
    fun t num ht => ht.of_keeps (m := 0x1004003) (State.winOpenAt_keeps (.refl t) num)
  unfold State.trcTrigger
  extract_lets src num u inside none4 opens v flags pkt
  refine .ite h ?_
  have hu : OutFrame g z u := State.irq_outFrame (State.bumpSat_outFrame (State.modTrace_outFrame h _) _ _ _ _ _ _) _ _
  have hv : OutFrame g z v := .ite (State.bumpSat_outFrame hu _ _ _ _ _ _) (.ite (State.bumpSat_outFrame hu _ _ _ _ _ _) hu)
  refine .ite (State.bumpSat_outFrame hu _ _ _ _ _ _) ?_
  have hput := State.trcPut_outFrame hv pkt false true
  exact .ite (hopen _ _ hput) hput

end

/-! ### What a die shows -/

section
variable {β : Type} {g : OutSt → β} {z s : State}

theorem State.verdictRec_outFrame (h : OutFrame g z s) (i n : Nat) (swap : Bool) : OutFrame g z (s.verdictRec i n swap) := by
  unfold State.verdictRec
  split
  · exact h
  · exact .ite (State.originate_emitUp_outFrame h _ _ _ _) h

theorem State.viewTold_outFrame (h : OutFrame g z s) (i n : Nat) (was : Nat × Nat) : OutFrame g z (s.viewTold i n was) := by
  have hrec := State.verdictRec_outFrame h i n false
  unfold State.viewTold
  split
  · exact h
  · exact .ite h (.ite (State.irq_outFrame hrec _ _) hrec)

theorem State.viewTrigger_outFrame (h : OutFrame g z s) (was : Nat × Nat) : OutFrame g z (s.viewTrigger was) :=
  .ite h (State.trcTrigger_outFrame h _)

theorem State.viewChanged_outFrame (h : OutFrame g z s) (i n : Nat) (was : Nat × Nat) : OutFrame g z (s.viewChanged i n was) :=
  .ite (State.viewTrigger_outFrame (State.viewTold_outFrame h i n was) was) (State.viewTold_outFrame h i n was)

/-- `g` shows nothing of the dies. -/
def NoDies (g : OutSt → β) : Prop := ∀ o dies, g { o with dies := dies } = g o

/-- `g` shows nothing of the keeper's lists. -/
def NoLists (g : OutSt → β) : Prop := ∀ o deferred advised, g { o with deferred := deferred, advised := advised } = g o

theorem State.modDie_outFrame (hg : NoDies g) (h : OutFrame g z s) (i : Nat) (f : DieEnt → DieEnt) : OutFrame g z (s.modDie i f) :=
  h.of (hg _ _)

theorem State.ownDecision_outFrame (hg : NoDies g) (h : OutFrame g z s) (id decision rank why : Nat) :
    OutFrame g z (s.ownDecision id decision rank why) :=
  .ite (State.viewChanged_outFrame (State.modDie_outFrame hg h _ _) _ _ _) h

theorem State.decisionRec_outFrame (hg : NoDies g) (h : OutFrame g z s) (e : DefEnt) (decision rank why : Nat) :
    OutFrame g z (s.decisionRec e decision rank why) :=
  State.ownDecision_outFrame hg (State.originate_emitUp_outFrame h _ _ _ _) _ _ _ _

/-! ### Requests -/

theorem State.setDeferred_outFrame (hl : NoLists g) (h : OutFrame g z s) (l : List DefEnt) : OutFrame g z (s.setDeferred l) :=
  h.of (hl _ _ _)

theorem State.keeperReq_outFrame (hg : NoDies g) (hl : NoLists g) (h : OutFrame g z s) (e : DefEnt) (withdraw : Bool) :
    OutFrame g z (s.keeperReq e withdraw) := by
  unfold State.keeperReq
  dsimp only
  have hset := State.setDeferred_outFrame hl h
  refine .ite ?_ (.ite (h.of (hl _ _ _)) (.ite (hset _) (.ite (State.irq_outFrame (hset _) _ _) ?_)))
  · split
    · exact State.decisionRec_outFrame hg (State.irq_outFrame (hset _) _ _) _ _ _ _
    · exact h
  · have hfull := State.bumpSat_outFrame h R.OUT_DEFER_REFUSED 1 0 0 0 0
    split
    · exact .ite (State.decisionRec_outFrame hg (State.irq_outFrame (State.setDeferred_outFrame hl hfull _) _ _) _ _ _ _)
        (State.decisionRec_outFrame hg hfull _ _ _ _)
    · exact h

theorem State.request_outFrame (hg : NoDies g) (hl : NoLists g) (h : OutFrame g z s) (id cls score since n : Nat) (chronic withdraw : Bool) :
    OutFrame g z (s.request id cls score since n chronic withdraw) := by
  unfold State.request
  extract_lets body
  have horig := State.originate_outFrame h 0x45 3 s.convoy.escStream body
  exact .ite (State.keeperReq_outFrame hg hl horig.of _ _) (State.towardKeeper_outFrame horig _)

theorem State.escalate_outFrame (hg : NoDies g) (hl : NoLists g) (h : OutFrame g z s) (i n : Nat) (restate : Bool) :
    OutFrame g z (s.escalate i n restate) := by
  have hdie : ∀ f, OutFrame g z (s.modDie i f) := State.modDie_outFrame hg h i
  unfold State.escalate
  split
  · exact h
  · exact .ite h (.ite (.ite h (State.request_outFrame hg hl (hdie _) _ _ _ _ _ _ _))
      (.ite (State.request_outFrame hg hl (hdie _) _ _ _ _ _ _ _) h))

theorem State.ownLatched_outFrame (hg : NoDies g) (hl : NoLists g) (h : OutFrame g z s) : OutFrame g z s.ownLatched := by
  have hclass : OutFrame g z (s.reclass 0 s.muster.lastNum) := State.modDie_outFrame hg h _ _
  exact State.escalate_outFrame hg hl (.ite hclass (State.viewTold_outFrame hclass _ _ _)) _ _ _

end

end Sys2Proof.Machine
end

section
/-! PROOFS. Outrider verdicts: scores, the class of a die and its requests, the keeper's budget and lists, and the admission of a leaf
(R296, R297, R302, R308 to R317). -/

set_option Elab.async false

namespace Sys2Proof.Machine

/-! ### Scores and tests -/

/-- A NaN has no score; any other input scores within ten bits (R297). -/
theorem ruleScore_range {free x lo hi y : Nat} (h : ruleScore free x lo hi = some y) : y ≤ 1023 ∧ fIsNan b64 x = false := by
  unfold ruleScore at h
  cases hx : fIsNan b64 x with
  | true => rw [hx, if_pos rfl] at h; cases h
  | false =>
    rw [hx, if_neg (by decide)] at h
    refine ⟨?_, rfl⟩
    dsimp only at h
    split at h
    · cases h; omega
    · cases h; split <;> omega
    · cases h; omega

/-- The next test is a later one, of those that always run or that MASK selects (R315). -/
theorem nextTest_selected {mask t k : Nat} (h : nextTest mask t = some k) :
    t < k ∧ k ≤ 6 ∧ (k = 5 → bitOf mask 0 = true) ∧ (k = 6 → bitOf mask 1 = true) := by
  have hmem := List.mem_range.mp (List.mem_of_find?_eq_some h)
  have hsel := List.find?_some h
  simp only [Bool.and_eq_true, Bool.or_eq_true, decide_eq_true_eq, beq_iff_eq] at hsel
  obtain ⟨hlater, hsel⟩ := hsel
  refine ⟨hlater, by omega, ?_, ?_⟩ <;> rintro rfl <;> simpa using hsel

/-! ### Scoring and the die table -/

section
variable {s : State}

theorem exec_verdictScoring_idle (h : s.out.results.find? s.ready = none) : exec .verdictScoring s = .next s := by
  simp only [exec, execVerdictScoring, h]

theorem exec_verdictScoring_denied {x : OutRes} (h : s.out.results.find? s.ready = some x)
    (hg : s.grant 2 (s.costVerdict * (s.out.results.filter x.with).length) = none) : exec .verdictScoring s = .next s := by
  simp only [exec, execVerdictScoring, h, hg]

theorem exec_verdictScoring_self {x : OutRes} {g : State} (h : s.out.results.find? s.ready = some x) (hself : x.sample.self = true)
    (hg : s.grant 2 (s.costVerdict * (s.out.results.filter x.with).length) = some g) :
    exec .verdictScoring s = .next (({ g with out := { g.out with results := g.out.results.filter (fun y => !x.with y) } } : State).scoreDie 0
      (s.out.results.filter x.with)) := by
  simp only [exec, execVerdictScoring, h, hg, hself, if_true]

/-- DIE_ENTRY_FREE of an entry in use frees it when it is not the own die's, its class is none or Watch, and 1,024 musters brought no score (R296). -/
theorem exec_dieEntryFree {k : Nat} {d : DieEnt} (hk : k < dieMax s.build) (hd : s.die k = some d) :
    exec (.dieEntryFree k) s = .next (if k ≠ 0 ∧ d.cls ≤ 1 ∧ 1024 ≤ (s.muster.lastNum + 2 ^ 32 - d.last % 2 ^ 32) % 2 ^ 32 then
      { s with out := { s.out with dies := s.out.dies.filter (fun p => p.1 != k) } } else s) := by
  simp only [exec, execDieEntryFree, present, hk, hd, decide_true, if_true, Bool.and_eq_true, bne_iff_ne, decide_eq_true_eq, and_assoc]

/-! ### Requests (R309, R310) -/

/-- A die that restates its request now. -/
def State.restates (s : State) (d : DieEnt) : Prop :=
  escalates d.cls = true ∧ d.esc ≠ 0 ∧ s.reqRepeat ≤ (s.muster.lastNum + 2 ^ 32 - d.escAt % 2 ^ 32) % 2 ^ 32

theorem State.restates_iff (s : State) (d : DieEnt) :
    (escalates d.cls && d.esc != 0 && decide (s.reqRepeat ≤ (s.muster.lastNum + 2 ^ 32 - d.escAt % 2 ^ 32) % 2 ^ 32)) = true ↔ s.restates d := by
  simp only [State.restates, Bool.and_eq_true, bne_iff_ne, decide_eq_true_eq, and_assoc]

theorem exec_escalationRestate_idle (h : ∀ p ∈ s.out.dies, ¬ s.restates p.2) : exec .escalationRestate s = .next s := by
  refine congrArg Host.Outcome.next ?_
  generalize s.out.dies = dies at h
  induction dies with
  | nil => rfl
  | cons p dies ih =>
    rw [List.foldl_cons, if_neg (mt (s.restates_iff p.2).mp (h p List.mem_cons_self))]
    exact ih fun q hq => h q (List.mem_cons_of_mem p hq)

theorem exec_escalationRestate_one {i : Nat} {d : DieEnt} (hd : s.out.dies = [(i, d)]) (h : s.restates d) :
    exec .escalationRestate s = .next (s.escalate i s.muster.lastNum true) := by
  simp only [exec, execEscalationRestate, hd, List.foldl_cons, List.foldl_nil]
  rw [if_pos ((s.restates_iff d).mpr h)]

theorem exec_escalationRequestReceived_other {p : Nat} (hp : p < linkPorts s.build) {r : Rec} (hr : r.type ≠ 0x45) :
    exec (.escalationRequestReceived p r) s = .next s :=
  (present_true (decide_eq_true hp) _).trans (congrArg Host.Outcome.next (if_neg hr))

theorem exec_escalationRequestReceived_request {p : Nat} (hp : p < linkPorts s.build) {r : Rec} (hr : r.type = 0x45) :
    exec (.escalationRequestReceived p r) s = .next
      (if (s.admitRec p r).1 = true then (s.admitRec p r).2.requestIn r else (s.admitRec p r).2) :=
  (present_true (decide_eq_true hp) _).trans (congrArg Host.Outcome.next (if_pos hr))

/-! ### The keeper's lists -/

/-- An entry leaves the deferred list at the keeper once it was not restated for 4 × OUT_REQ_REPEAT musters (R310). -/
theorem exec_deferEntryExpiry_expired {k : Nat} {e : DefEnt} (hk : k < deferMax s.build) (he : s.out.deferred[k]? = some e)
    (hkeep : s.convoy.keeper = true) (hold : 4 * s.reqRepeat ≤ (s.muster.lastNum + 2 ^ 32 - e.seen % 2 ^ 32) % 2 ^ 32) :
    ∃ t, exec (.deferEntryExpiry k) s = .next t ∧ t.out.deferred = s.out.deferred.filter (fun x => x.id != e.id) := by
  refine ⟨_, present_true (decide_eq_true hk) _, ?_⟩
  simp only [he, hkeep, decide_eq_true hold, Bool.and_self, if_true]
  have hset := OutFrame.refl (g := OutSt.deferred) (s.setDeferred (s.out.deferred.filter (fun x => x.id != e.id)))
  exact (State.decisionRec_outFrame (fun _ _ => rfl) (State.irq_outFrame (State.bumpSat_outFrame hset _ _ _ _ _ _) _ _) e 4 0 0).out

theorem exec_deferEntryExpiry_kept {k : Nat} {e : DefEnt} (hk : k < deferMax s.build) (he : s.out.deferred[k]? = some e)
    (h : s.convoy.keeper = false ∨ (s.muster.lastNum + 2 ^ 32 - e.seen % 2 ^ 32) % 2 ^ 32 < 4 * s.reqRepeat) :
    exec (.deferEntryExpiry k) s = .next s := by
  refine (present_true (decide_eq_true hk) _).trans (congrArg Host.Outcome.next ?_)
  simp only [he]
  refine if_neg ?_
  rw [Bool.and_eq_true, decide_eq_true_eq]
  rintro ⟨hkeep, hold⟩
  rcases h with h | h
  · exact Bool.false_ne_true (h.symm.trans hkeep)
  · exact absurd hold (Nat.not_le.mpr h)

theorem exec_outAdvAck_perform {a : Acc} {data : Word} (hf : s.portFull a = false) (hv : s.verdict a 0x0290CC true false false = .perform) :
    exec (.outAdvAck a data) s = .next ((s.advAck data.toNat).respond a true 0 false) :=
  congrArg _ (s.guardedWrite_perform a 0x0290CC data.toNat false false (fun s => s.advAck data.toNat) hf hv)

theorem State.advAck_out (s : State) (id : Nat) : (s.advAck id).out =
    if s.convoy.keeper = true then { s.out with advised := s.out.advised.filter (fun e => e.id != id % 2 ^ 24) } else s.out :=
  apply_ite State.out ..

/-! ### Step boundaries (R311, R312) -/

theorem exec_stepBoundary_perform {a : Acc} {data : Word} (hf : s.portFull a = false) (hv : s.verdict a 0x0290A4 true false false = .perform) :
    exec (.stepBoundary a data) s = .next ((if bitOf data.toNat 0 = true then s.stepBoundary else s).respond a true 0 false) :=
  congrArg _ (s.guardedWrite_perform a 0x0290A4 data.toNat false false _ hf hv)

theorem State.stepBoundary_elsewhere (h : s.convoy.keeper = false) : s.stepBoundary = s := by
  simp [State.stepBoundary, h]

/-- The keeper with its budget brought up to now, and the boundary counted. -/
def State.stepBegun (s : State) : State :=
  { s with out := { s.out with level := s.budgetNow, levelAt := s.now, steps := s.out.steps + 1 } }

theorem State.stepBoundary_emergency (hk : s.convoy.keeper = true) (he : s.drover.emerg = 2) :
    s.stepBoundary = s.stepBegun.bumpSat R.OUT_STEP_SKIPPED := by
  simp [State.stepBoundary, State.stepBegun, State.budgetRefill, hk, he]

theorem State.stepBoundary_decides (hk : s.convoy.keeper = true) (he : s.drover.emerg ≠ 2) :
    s.stepBoundary = ((sortDef s.out.deferred).foldl (fun (acc : Nat × State) e => acc.2.decide1 acc.1 e) (1, s.stepBegun)).2 := by
  simp [State.stepBoundary, State.stepBegun, State.budgetRefill, hk, he]

end

/-- The entry is deferred, with its rank and a reason; a change of either is told. -/
def State.deferAt (s : State) (rank : Nat) (e : DefEnt) (why : Nat) : State :=
  let t := s.setDeferred (s.out.deferred.map (fun x => if x.id = e.id then { x with rank := rank, reason := why } else x))
  if e.rank != rank || e.reason != why then (t.irq 0x029 2).decisionRec e 2 rank why else t

/-- The entry is advised: it changes lists, and a token of 10^6 µtok is spent. -/
def State.advise (s : State) (e : DefEnt) : State :=
  { s with out := { s.out with level := s.out.level - 1000000 * 4294967296, spent := w32 (s.out.spent + 1),
                               deferred := s.out.deferred.filter (fun x => x.id != e.id), advised := s.out.advised ++ [{ e with rank := 0 }] } }

theorem State.decide1_state (s : State) (rank : Nat) (e : DefEnt) : (s.decide1 rank e).2 =
    if s.core.unattended then (s.bumpSat R.FW_UA_ESC).deferAt rank e 2
    else if 64 ≤ s.out.advised.length then s.deferAt rank e 5
    else if 1000000 * 4294967296 ≤ s.out.level then ((s.advise e).irq 0x029 1).decisionRec e 1 0 0
    else s.deferAt rank e 1 := by
  unfold State.decide1
  exact (apply_ite Prod.snd ..).trans (congrArg (ite _ _) ((apply_ite Prod.snd ..).trans (congrArg (ite _ _) (apply_ite Prod.snd ..))))

/-- What a boundary spends, and what it spends it on. -/
def OutSt.account (o : OutSt) : Nat × List DefEnt := (o.level, o.advised)

theorem OutSt.account_noDies : NoDies OutSt.account := fun _ _ => rfl

theorem State.deferAt_account {z s : State} (h : OutFrame OutSt.account z s) (rank : Nat) (e : DefEnt) (why : Nat) :
    OutFrame OutSt.account z (s.deferAt rank e why) :=
  .ite (State.decisionRec_outFrame OutSt.account_noDies (State.irq_outFrame h.of _ _) _ _ _ _) h.of

/-- An entry is deferred, which leaves the account, or advised, while there is a token for it and fewer than 64 are advised (R311). -/
theorem State.decide1_account (s : State) (rank : Nat) (e : DefEnt) :
    (s.decide1 rank e).2.out.account = s.out.account ∨
    (1000000 * 4294967296 ≤ s.out.level ∧ s.out.advised.length < 64 ∧ (s.decide1 rank e).2.out.account = (s.advise e).out.account) := by
  have hs := OutFrame.refl (g := OutSt.account) s
  rw [State.decide1_state]
  split
  · exact .inl (State.deferAt_account (State.bumpSat_outFrame hs _ _ _ _ _ _) _ _ _).out
  · split
    · exact .inl (State.deferAt_account hs _ _ _).out
    · next hroom =>
      split
      · next hlevel =>
        exact .inr ⟨hlevel, Nat.lt_of_not_le hroom,
          (State.decisionRec_outFrame OutSt.account_noDies (State.irq_outFrame (.refl (s.advise e)) _ _) e 1 0 0).out⟩
      · exact .inl (State.deferAt_account hs _ _ _).out

/-- From `z` on, every new advice has cost one token, and advice was given while fewer than 64 stood (R311). -/
structure Spent (z s : State) : Prop where
  paid : s.out.level + 1000000 * 4294967296 * s.out.advised.length = z.out.level + 1000000 * 4294967296 * z.out.advised.length
  grown : z.out.advised.length ≤ s.out.advised.length
  room : s.out.advised.length ≤ max 64 z.out.advised.length

theorem Spent.refl (s : State) : Spent s s := ⟨rfl, Nat.le_refl _, Nat.le_max_right ..⟩

theorem Spent.decide1 {z s : State} (h : Spent z s) (rank : Nat) (e : DefEnt) : Spent z (s.decide1 rank e).2 := by
  obtain ⟨hpaid, hgrown, hroom⟩ := h
  obtain hacc | ⟨hlevel, hlen, hacc⟩ := s.decide1_account rank e
  · obtain ⟨hl, ha⟩ := Prod.mk.inj hacc
    exact ⟨by rwa [hl, ha], by rwa [ha], by rwa [ha]⟩
  · obtain ⟨hl, ha⟩ : _ = s.out.level - 1000000 * 4294967296 ∧ _ = s.out.advised ++ [_] := Prod.mk.inj hacc
    constructor <;> rw [ha, List.length_append, List.length_singleton] <;> omega

theorem Spent.foldl_decide1 {z : State} (l : List DefEnt) (a : Nat × State) (h : Spent z a.2) :
    Spent z (l.foldl (fun (acc : Nat × State) e => acc.2.decide1 acc.1 e) a).2 := by
  induction l generalizing a with
  | nil => exact h
  | cons e l ih => exact ih _ (h.decide1 a.1 e)

theorem State.stepBoundary_spent {s : State} (hk : s.convoy.keeper = true) (he : s.drover.emerg ≠ 2) : Spent s.stepBegun s.stepBoundary := by
  rw [State.stepBoundary_decides hk he]
  exact Spent.foldl_decide1 _ (1, s.stepBegun) (.refl _)

/-! ### The latches of the own die (R302) -/

/-- The latches that OUT_CLEAR drops: Suspect-SDC and Conditional. -/
def OutSt.latches (o : OutSt) : Bool × Option Nat := (o.sdc, o.cond)

theorem State.outClear_own {s : State} {id : Nat} (h : id % 2 ^ 24 = s.srcId) : (s.outClear id).out.latches = (false, none) := by
  unfold State.outClear
  rw [if_pos h]
  exact (State.viewTrigger_outFrame (State.ownLatched_outFrame (fun _ _ => rfl) (fun _ _ _ => rfl) (.refl _)) _).out

theorem State.outClear_other {s : State} {id : Nat} (h : id % 2 ^ 24 ≠ s.srcId) : s.outClear id = s := if_neg h

theorem exec_outClear_perform {s : State} {a : Acc} {data : Word} (hf : s.portFull a = false)
    (hv : s.verdict a 0x0290A0 true false false = .perform) :
    exec (.outClear a data) s = .next ((s.outClear data.toNat).respond a true 0 false) :=
  congrArg _ (s.guardedWrite_perform a 0x0290A0 data.toNat false false (fun s => s.outClear data.toNat) hf hv)

theorem exec_outClear_own {s : State} {a : Acc} {data : Word} (hf : s.portFull a = false)
    (hv : s.verdict a 0x0290A0 true false false = .perform) (hid : data.toNat % 2 ^ 24 = s.srcId) :
    ∃ t, exec (.outClear a data) s = .next t ∧ t.out.sdc = false ∧ t.out.cond = none := by
  obtain ⟨hsdc, hcond⟩ := Prod.mk.inj (State.outClear_own hid)
  exact ⟨_, exec_outClear_perform hf hv, by rwa [State.respond_out], by rwa [State.respond_out]⟩

/-! ### Admission (R315, R316) -/

section
variable {s : State}

theorem exec_outAdmitGo_perform {a : Acc} {data : Word} (hf : s.portFull a = false)
    (hv : s.verdict a 0x029200 true false (s.admitBad data.toNat) = .perform) :
    exec (.outAdmitGo a data) s = .next ((s.admitWrite data.toNat).respond a true 0 false) :=
  congrArg _ (s.guardedWrite_perform a 0x029200 data.toNat false _ (fun s => s.admitWrite data.toNat) hf hv)

/-- GO for a leaf slot starts its admission; without GO, or for another slot, none starts (log entry 33). -/
theorem State.admitWrite_admission (s : State) (v : Nat) : (s.admitWrite v).out.admission =
    if bitOf v 15 = true ∧ 1 ≤ v % 32 ∧ v % 32 ≤ 24 then
      { st := 1, slot := v % 32, test := 0, mask := v / 4096 % 4, trees := v / 256 % 16, startAt := s.time.cycles, epoch := 0, rounds := [] }
    else s.out.admission := by
  have hslot : fld v 4 0 = v % 32 := by simp [fld]
  unfold State.admitWrite
  simp only [hslot, Bool.and_eq_true, decide_eq_true_eq, and_assoc]
  split <;> rfl

theorem exec_admissionTestComplete_idle (hb : s.build = .h) (h : s.out.admission.st ≠ 1) (pass : Bool) :
    exec (.admissionTestComplete pass) s = .next s :=
  (present_true (beq_iff_eq.mpr hb) _).trans (congrArg Host.Outcome.next (if_pos h))

theorem exec_admissionTimeout (hb : s.build = .h) {ms : Nat}
    (hms : ms = if s.rd R.OUT_ADMIT_TIMEOUT % 65536 = 0 then 200 else s.rd R.OUT_ADMIT_TIMEOUT % 65536) :
    exec .admissionTimeout s = .next
      (if s.out.admission.st = 1 ∧ s.after s.out.admission.startAt (1000 * ms) = true then s.admitFail true else s) := by
  have hfld : fld (s.rd R.OUT_ADMIT_TIMEOUT) 15 0 = s.rd R.OUT_ADMIT_TIMEOUT % 65536 := by simp [fld]
  refine (present_true (beq_iff_eq.mpr hb) _).trans (congrArg Host.Outcome.next ?_)
  simp only [hfld, ← hms, Bool.and_eq_true, decide_eq_true_eq]

/-- When no admission is due, the end of one starts no other. -/
theorem OutFrame.admitNext {u : State} (h : OutFrame OutSt.admission s u) (hdue : s.link.admitDue = []) :
    u.admitNext.out.admission = s.out.admission := by
  simp only [State.admitNext, h.due.trans hdue]
  exact h.out

/-- The unit with its admission replaced. -/
def State.withAdmission (s : State) (ad : Admit) : State := { s with out := { s.out with admission := ad } }

theorem State.admitFail_admission (h : s.link.admitDue = []) (timeout : Bool) :
    (s.admitFail timeout).out.admission = { s.out.admission with st := 3 } :=
  OutFrame.admitNext (s := s.withAdmission { s.out.admission with st := 3 })
    (State.event_outFrame (State.irq_outFrame (.refl _) _ _) _ _) h

/-- An admission that has passed its tests is READY, whatever the request that withdraws the leaf's advice does. -/
theorem State.admitReady_st (h : s.link.admitDue = []) : s.admitReady.out.admission.st = 2 := by
  unfold State.admitReady
  extract_lets ad now joined epoch id out ready withdrawn
  have hdrawn : OutFrame OutSt.admission ready withdrawn :=
    .ite (.refl ready) (State.request_outFrame (fun _ _ => rfl) (fun _ _ _ => rfl) (.refl ready) _ _ _ _ _ _ _)
  exact congrArg Admit.st (OutFrame.admitNext (State.event_outFrame (State.irq_outFrame hdrawn _ _) _ _) h)

section
variable (hb : s.build = .h) (hst : s.out.admission.st = 1) {pass : Bool}
include hb hst

theorem exec_admissionTestComplete_goesOn (hv : s.admitVerdict pass = none) : exec (.admissionTestComplete pass) s = .next s := by
  simp [exec, execAdmissionTestComplete, present, hb, hst, hv]

theorem exec_admissionTestComplete_failed (hdue : s.link.admitDue = []) (hv : s.admitVerdict pass = some false) :
    ∃ t, exec (.admissionTestComplete pass) s = .next t ∧ t.out.admission = { s.out.admission with st := 3 } := by
  refine ⟨s.admitFail false, ?_, State.admitFail_admission hdue false⟩
  simp [exec, execAdmissionTestComplete, present, hb, hst, hv]

theorem exec_admissionTestComplete_next {k : Nat} (hv : s.admitVerdict pass = some true)
    (hk : nextTest s.out.admission.mask s.out.admission.test = some k) : exec (.admissionTestComplete pass) s =
      .next { s with out := { s.out with admission := { s.out.admission with test := k, rounds := List.replicate 8 0 } } } := by
  simp [exec, execAdmissionTestComplete, present, hb, hst, hv, hk]

theorem exec_admissionTestComplete_ready (hdue : s.link.admitDue = []) (hv : s.admitVerdict pass = some true)
    (hk : nextTest s.out.admission.mask s.out.admission.test = none) :
    ∃ t, exec (.admissionTestComplete pass) s = .next t ∧ t.out.admission.st = 2 := by
  refine ⟨s.admitReady, ?_, State.admitReady_st hdue⟩
  simp [exec, execAdmissionTestComplete, present, hb, hst, hv, hk]

end

/-- Every class has seen three rounds of its census in a row (Table 10-6, test 3). -/
theorem linksPassed_iff (rounds : List Nat) :
    (List.range 8).all (fun c => decide (3 ≤ rounds.getD c 0)) = true ↔ ∀ c, c < 8 → 3 ≤ rounds.getD c 0 := by
  simp only [List.all_eq_true, List.mem_range, decide_eq_true_eq]

theorem State.admitVerdict_links_passed (h : s.out.admission.test = 3) (hr : ∀ c, c < 8 → 3 ≤ s.out.admission.rounds.getD c 0) (pass : Bool) :
    s.admitVerdict pass = some true := by
  simp only [State.admitVerdict, h]
  exact if_pos ((linksPassed_iff _).mpr hr)

/-- A link test that lacks rounds goes on, or fails by the leaf's report. -/
theorem State.admitVerdict_links_lacking (h : s.out.admission.test = 3) (hr : ∃ c, c < 8 ∧ s.out.admission.rounds.getD c 0 < 3) (pass : Bool) :
    s.admitVerdict pass = if pass = true then none else some false := by
  obtain ⟨c, hc, hlow⟩ := hr
  simp only [State.admitVerdict, h]
  exact if_neg fun hall => Nat.not_le.mpr hlow ((linksPassed_iff _).mp hall c hc)

theorem State.admitVerdict_identity (h : s.out.admission.test = 0) (pass : Bool) : s.admitVerdict pass = some s.admitIdentity := if_pos h

theorem State.admitVerdict_reported (h0 : s.out.admission.test ≠ 0) (h3 : s.out.admission.test ≠ 3) (pass : Bool) :
    s.admitVerdict pass = some pass := by
  simp only [State.admitVerdict, h0, h3, if_false]

end

/-! ### The obligation -/

/-- Settles O49: each clause by the lemma that says what its command does; a boundary's budget by what every decision spends. -/
theorem verdictsAreScoredEscalatedAndBudgeted : Obligations.VerdictsAreScoredEscalatedAndBudgeted := by
  refine ⟨fun _ _ _ _ _ => ruleScore_range, fun _ _ _ => nextTest_selected, fun s hinv => ⟨exec_verdictScoring_idle,
    fun x hx => ⟨exec_verdictScoring_denied hx, fun g => exec_verdictScoring_self hx⟩, fun h => ?restateNone,
    fun i d hd hc he hr => exec_escalationRestate_one hd ⟨hc, he, hr⟩,
    fun p r hp => ⟨exec_escalationRequestReceived_other hp, exec_escalationRequestReceived_request hp⟩,
    fun k e hk he => ⟨exec_deferEntryExpiry_expired hk he, exec_deferEntryExpiry_kept hk he⟩,
    fun a data => exec_stepBoundary_perform, State.stepBoundary_elsewhere, fun hk he => ?emergency, fun hk he => ?budget,
    fun a data hf hv => ⟨_, exec_outAdvAck_perform hf hv, (State.respond_out ..).trans (s.advAck_out _)⟩,
    fun a data hf hv => ⟨exec_outClear_own hf hv, fun hid => ?clearOther⟩, fun k d hk hd => ?free,
    fun a data hf hv => ⟨_, exec_outAdmitGo_perform hf hv, (congrArg OutSt.admission (State.respond_out ..)).trans (s.admitWrite_admission _)⟩,
    fun hb ok hst => ⟨exec_admissionTestComplete_idle hb hst ok, ?timeoutIdle⟩,
    fun hb hst hdue => ⟨fun _ => exec_admissionTestComplete_goesOn hb hst, fun _ => exec_admissionTestComplete_failed hb hst hdue,
      fun _ _ => exec_admissionTestComplete_next hb hst, fun _ => exec_admissionTestComplete_ready hb hst hdue,
      fun pass => ⟨(State.admitVerdict_identity · pass), (State.admitVerdict_links_passed · · pass),
        (State.admitVerdict_links_lacking · · pass), (State.admitVerdict_reported · · pass)⟩,
      fun ms hms => ?timeout⟩⟩⟩
  case restateNone =>
    refine exec_escalationRestate_idle fun p hp ⟨hc, he, hr⟩ => ?_
    rcases h p hp with h | h | h
    · exact Bool.false_ne_true (h.symm.trans hc)
    · exact he h
    · exact Nat.not_le.mpr h hr
  case emergency =>
    rw [State.stepBoundary_emergency hk he]
    exact ⟨rfl, State.bumpSat_rd_same s.stepBegun _ _ _ _ _ _ hinv.regs⟩
  case budget =>
    obtain ⟨hpaid, hgrown, hroom⟩ := State.stepBoundary_spent hk he
    change _ = s.budgetNow + _ * s.out.advised.length at hpaid
    change s.out.advised.length ≤ _ at hgrown
    exact ⟨by omega, hgrown, hroom⟩
  case clearOther => rw [exec_outClear_perform hf hv, State.outClear_other hid]
  case free =>
    rw [exec_dieEntryFree hk hd]
    exact ⟨fun h0 hc hl => by rw [if_pos ⟨h0, hc, hl⟩], fun h => by rw [if_neg (by omega)]⟩
  case timeoutIdle => rw [exec_admissionTimeout hb rfl, if_neg fun h => hst h.1]
  case timeout =>
    rw [exec_admissionTimeout hb hms]
    exact ⟨fun h => ⟨_, by rw [if_pos ⟨hst, h⟩], State.admitFail_admission hdue true⟩,
      fun h => by rw [if_neg fun hafter => Bool.false_ne_true (h.symm.trans hafter.2)]⟩

end Sys2Proof.Machine
end
